-- ==== Sys2Proof/Word.lean ====
section
/-!
DEFINITION. The words of the machine: bytes, 32-bit and 64-bit words, and the plainest readings of a word as a number.
Every multi-byte value of the device is little-endian (R7); the byte splits that say so stand in Machine/Ops.lean.
-/

namespace Sys2Proof

/-- One byte. -/
abbrev Byte := BitVec 8

/-- A 32-bit word. -/
abbrev W32 := BitVec 32

/-- A 64-bit word: a register of BAR0, a scalar register, one word of a descriptor. -/
abbrev W64 := BitVec 64

/-- A vector register of a thread slot (R224): 2,048 bits. -/
abbrev VReg := BitVec 2048

/-- A mask register of a thread slot (R224): 4,096 bits. -/
abbrev MReg := BitVec 4096

end Sys2Proof
end

