-- ==== Sys2Proof/Syntax.lean ====
section
/-!
DEFINITION. The commands of the block, with their operands. There is one constructor of Instr per row of the table of
operations and events; an operand that names a unit of the module is a Fin of how many there are (R17, R18, R30, R371, R373).
-/

namespace Sys2Proof

/-- Panel 0 to 3 (R17). -/
abbrev Panel := Fin 4
/-- Core of the chip, 0 to 159 (R17). -/
abbrev Core := Fin 160
/-- Thread slot of the chip, 0 to 10,239 (R17). -/
abbrev Slot := Fin 10240
/-- Uzolink link 0 to 31 (R18). -/
abbrev Link := Fin 32
/-- Link die PZ4L-0 or PZ4L-1 (R18). -/
abbrev Die := Fin 2
/-- Ring id 2d + DIR, 0 to 31 (R326). -/
abbrev Ring := Fin 32
/-- Fabric job 0 to 7 (R5). -/
abbrev Job := Fin 8
/-- Context 0 to 1,023 (R5). -/
abbrev Ctx := Fin 1024
/-- Hardware queue 0 to 65,535 (R5). -/
abbrev Queue := Fin 65536

/-- The fields of a 64-bit S-slot word other than OP (R219, scalar format). -/
structure SFields where
  d : BitVec 6
  a : BitVec 6
  b : BitVec 6
  fn : BitVec 6
  imm : BitVec 32
  deriving DecidableEq, Repr

/-- The fields of a 64-bit V-, M- or X-slot word other than OP (R219, engine format). -/
structure EFields where
  d : BitVec 6
  a : BitVec 6
  b : BitVec 6
  c : BitVec 6
  msk : BitVec 3
  men : Bool
  mz : Bool
  sub : BitVec 3
  imm : BitVec 15
  sigen : Bool
  sig : BitVec 8
  deriving DecidableEq, Repr

/-- The words of the other three slots of the same bundle, in slot order S, V, M, X (R217). -/
structure Others where
  x : W64
  y : W64
  z : W64
  deriving DecidableEq, Repr

/-- A descriptor by its queue and its number on it (R375). -/
structure DescId where
  q : Queue
  n : W32
  deriving DecidableEq, Repr

/-- A register of a thread slot that carries a pending bit (R221). -/
inductive RegName where
  | scalar (i : Fin 64)
  | vector (i : Fin 64)
  | mask (i : Fin 8)
  | vcfg
  deriving DecidableEq, Repr

/-- A sync counter: of a core, or of a panel's bench controller (R249). -/
inductive ScName where
  | core (c : Core) (i : Fin 256)
  | panel (p : Panel) (i : Fin 1024)
  deriving DecidableEq, Repr

/-- The three engines of a core (R20). -/
inductive EngineKind where
  | matrix
  | vector
  | mover
  deriving DecidableEq, Repr

/-- The tags every sync signal carries (R435): generation of its context, incarnation of its engine and of its panel. -/
structure Tags where
  ctx : Ctx
  gen : BitVec 8
  core : Core
  eng : EngineKind
  engInc : BitVec 8
  panelInc : BitVec 8
  deriving DecidableEq, Repr

/-- One increment that reaches a sync counter, with its tags (R251, R435). -/
structure TaggedInc where
  amount : W32
  tags : Tags
  deriving DecidableEq, Repr

/-- What a bench controller arms into a mark comparator (R32, R512). -/
inductive LaunchId where
  | coll (d : DescId)
  | watchColl (j : Job)
  | vote (j : Job)
  | commit (j : Job)
  | snapshot (j : Job)
  | routeEpoch (j : Job)
  | drill
  deriving DecidableEq, Repr

/-- What the GDDR7 devices did to a unit, or to the check unit of its ECC group, before the patrol scrub read it (R288, R290,
R307): an input of the environment. -/
inductive Upset where
  | none
  | oneBit
  /-- The device's own ECC corrected the unit and reports it (R285). -/
  | onDie
  | many
  | checkUnit
  deriving DecidableEq, Repr

/-- What may befall the module from outside at any time, by no command of the table (R290, R291, R441): the devices have upset a
GDDR7 unit that an access then reads; bits of one 64-bit word of an SRAM are upset; a unit of a link die fails. -/
inductive Mishap where
  | gddr (pa : Nat) (upset : Upset)
  /-- One bit, or two, of the word at an address of a core's bench. -/
  | bench (c : Core) (off : Nat) (double : Bool)
  /-- One bit, or two, of the word at an address of a panel's store. -/
  | pstore (p : Panel) (off : Nat) (double : Bool)
  /-- A fault of a fabric switch, of the CXL port or of the security block (R29). -/
  | switch (d : Die)
  | port
  | security
  deriving DecidableEq, Repr

/-- A packet header, its 64 bytes as the fields of R332. -/
structure PktHdr where
  epoch : BitVec 2
  senior : Bool
  defl : BitVec 2
  seg : BitVec 3
  nseg : BitVec 3
  last : Bool
  kind : BitVec 3
  job : BitVec 3
  poison : BitVec 9
  hopsLeft : BitVec 8
  gen : BitVec 8
  plen : BitVec 16
  srcRank : BitVec 16
  dstRank : BitVec 16
  msgId : W32
  route0 : W64
  route1 : W64
  msgLen : W32
  offset : W32
  dstAddr : W64
  injTick : W32
  hcrc : W32
  deriving DecidableEq, Repr

/-- A packet: its header and its payload bytes (R332). -/
structure Packet where
  hdr : PktHdr
  payload : List Byte
  deriving DecidableEq, Repr

/-- A frame: the 20-bit header of R309 and the packets its payload units hold (R310). -/
structure Frame where
  seq : BitVec 7
  ack : BitVec 7
  nak : Bool
  null : Bool
  units : BitVec 4
  packets : List Packet
  deriving DecidableEq, Repr

/-- A codeword as the decoder finds it: how many symbol errors it holds, the frame it carries (R311), and whether it is a replay
of the data frame that the receiver awaits, which the retry logic knows by the codeword's place in the stream (R314; log entry
113, DESIGN CHOICE). -/
structure Codeword where
  symErrors : Nat
  frame : Frame
  replay : Bool := false
  deriving DecidableEq, Repr

/-- An alive sequence, the fields of R315. -/
structure AliveSeq where
  pattern : BitVec 16
  lstate : BitVec 4
  aseq : BitVec 8
  txTs : BitVec 36
  echoSeq : BitVec 8
  echoRx : BitVec 36
  check : BitVec 16
  deriving DecidableEq, Repr

/-- An exit of a fabric switch: the entry of a ring, or the delivery to a die's link DMA (R335). -/
inductive Exit where
  | ring (r : Ring)
  | delivery (d : Die)
  deriving DecidableEq, Repr

/-- How the bench controller starts a part on one thread slot (R225, R249). -/
structure SlotStart where
  slot : Slot
  entry : W64
  args : W64
  scBase : BitVec 8
  scCount : Nat
  deriving DecidableEq, Repr

/-- Where a part is placed: the slots it is given, and its share of rows (or tile rows) of the operation (R198, R389). -/
structure Placement where
  slots : List SlotStart
  lo : Nat
  hi : Nat
  /-- Panel counters that the bench controller assigns to the context with the part (R249). -/
  panelScs : List (Fin 1024)
  deriving DecidableEq, Repr

/-- How a part ends: it completes, or it fails for a reason of R390. -/
inductive PartOutcome where
  | done
  | failed
  deriving DecidableEq, Repr

/-- Whose MSI-X window ends: a queue's, or that of the host event queue (R386, R443). -/
inductive MsixSource where
  | queue (q : Queue)
  | events
  deriving DecidableEq, Repr

/-- A unit that names its context itself when it hangs (R434). -/
inductive UnitName where
  | update (p : Panel)
  | linkDma (d : Die)
  | queueManager
  deriving DecidableEq, Repr

/-- A rung in progress, by its scope (R426). -/
inductive RungScope where
  | context (c : Ctx)
  | engine (c : Core) (e : EngineKind)
  | unit (u : UnitName)
  | panel (p : Panel)
  | chip
  deriving DecidableEq, Repr

/-- The four event paths (R448, R450); the panel rings are one path, summed. -/
inductive PathName where
  | panel (p : Panel)
  | chipLog
  | host
  | i3c
  deriving DecidableEq, Repr

/-- The power rails (R453). -/
inductive Rail where
  | vib
  | vcore (p : Panel)
  | vsram (p : Panel)
  | vlink (d : Die)
  | vser
  | vmem
  | vaux
  deriving DecidableEq, Repr

/-- The temperature sensors (R464). -/
inductive Sensor where
  | junction (p : Panel) (i : Fin 8)
  | link (d : Die) (i : Fin 4)
  | gddr (dev : Fin 24)
  | stage (i : Fin 6)
  | inlet
  | outlet
  deriving DecidableEq, Repr

/-- One sensor reading, in whole degrees Celsius. -/
structure SensorSample where
  sensor : Sensor
  celsius : Int
  deriving DecidableEq, Repr

/-- A request of the host mailbox (R480): its FLAGS, TAG and payload. The command is the constructor's. -/
structure MailRequest where
  flags : BitVec 16
  len : W32
  tag : W32
  reserved : W32
  payload : List Byte
  deriving DecidableEq, Repr

/-- The two IDE streams that the SEC block reports (R485). -/
inductive IdeStream where
  | io
  | cacheMem
  deriving DecidableEq, Repr

/-- An IDE key slot: stream, direction, and which of its two key sets (R483). -/
structure IdeKeySlot where
  stream : IdeStream
  rx : Bool
  set : Bool
  deriving DecidableEq, Repr

/-- A BAR0 access as it arrives: its offset, its size in bytes, and what it writes (R488). -/
structure Bar0Access where
  off : BitVec 22
  size : Nat
  write : Bool
  deriving DecidableEq, Repr

/-- The commands of the block: one constructor per row of the table of operations and events. -/
inductive Instr where
  /-- SLOT_NOP (R217). -/
  | slotNop (t : Slot) (pos : Fin 4) (o : Others)
  /-- ALU (R252). -/
  | alu (t : Slot) (f : SFields) (o : Others)
  /-- ALUI (R252). -/
  | alui (t : Slot) (f : SFields) (o : Others)
  /-- LI (R252). -/
  | li (t : Slot) (f : SFields) (o : Others)
  /-- LUI (R252). -/
  | lui (t : Slot) (f : SFields) (o : Others)
  /-- LD (R252). -/
  | ld (t : Slot) (f : SFields) (o : Others)
  /-- ST (R252). -/
  | st (t : Slot) (f : SFields) (o : Others)
  /-- AMO (R252). -/
  | amo (t : Slot) (f : SFields) (o : Others)
  /-- BR (R252). -/
  | br (t : Slot) (f : SFields) (o : Others)
  /-- JAL (R252). -/
  | jal (t : Slot) (f : SFields) (o : Others)
  /-- JALR (R252). -/
  | jalr (t : Slot) (f : SFields) (o : Others)
  /-- FP (R252). -/
  | fpOp (t : Slot) (f : SFields) (o : Others)
  /-- FMA (R252). -/
  | fma (t : Slot) (f : SFields) (o : Others)
  /-- CSRR (R252). -/
  | csrr (t : Slot) (f : SFields) (o : Others)
  /-- CSRW (R224). -/
  | csrw (t : Slot) (f : SFields) (o : Others)
  /-- STOP (R225). -/
  | stop (t : Slot) (f : SFields) (o : Others)
  /-- V_CFG (R227). -/
  | vCfg (t : Slot) (f : EFields) (o : Others)
  /-- V_ADD (R233). -/
  | vAdd (t : Slot) (f : EFields) (o : Others)
  /-- V_SUB (R233). -/
  | vSub (t : Slot) (f : EFields) (o : Others)
  /-- V_MUL (R233). -/
  | vMul (t : Slot) (f : EFields) (o : Others)
  /-- V_FMA (R233). -/
  | vFma (t : Slot) (f : EFields) (o : Others)
  /-- V_DIV (R233). -/
  | vDiv (t : Slot) (f : EFields) (o : Others)
  /-- V_SQRT (R233). -/
  | vSqrt (t : Slot) (f : EFields) (o : Others)
  /-- V_MIN (R233). -/
  | vMin (t : Slot) (f : EFields) (o : Others)
  /-- V_MAX (R233). -/
  | vMax (t : Slot) (f : EFields) (o : Others)
  /-- V_FUNC (R234). -/
  | vFunc (t : Slot) (f : EFields) (o : Others)
  /-- V_LDEXP (R233). -/
  | vLdexp (t : Slot) (f : EFields) (o : Others)
  /-- V_CVT (R235). -/
  | vCvt (t : Slot) (f : EFields) (o : Others)
  /-- V_AND (R233). -/
  | vAnd (t : Slot) (f : EFields) (o : Others)
  /-- V_OR (R233). -/
  | vOr (t : Slot) (f : EFields) (o : Others)
  /-- V_XOR (R233). -/
  | vXor (t : Slot) (f : EFields) (o : Others)
  /-- V_SHL (R233). -/
  | vShl (t : Slot) (f : EFields) (o : Others)
  /-- V_SHR (R233). -/
  | vShr (t : Slot) (f : EFields) (o : Others)
  /-- V_SAR (R233). -/
  | vSar (t : Slot) (f : EFields) (o : Others)
  /-- V_BCAST (R233). -/
  | vBcast (t : Slot) (f : EFields) (o : Others)
  /-- V_WMUL (R236). -/
  | vWmul (t : Slot) (f : EFields) (o : Others)
  /-- V_DOT (R237). -/
  | vDot (t : Slot) (f : EFields) (o : Others)
  /-- V_CMP (R233). -/
  | vCmp (t : Slot) (f : EFields) (o : Others)
  /-- V_MOP (R233). -/
  | vMop (t : Slot) (f : EFields) (o : Others)
  /-- V_MPOPC (R233). -/
  | vMpopc (t : Slot) (f : EFields) (o : Others)
  /-- V_MFIRST (R233). -/
  | vMfirst (t : Slot) (f : EFields) (o : Others)
  /-- V_PERM (R239). -/
  | vPerm (t : Slot) (f : EFields) (o : Others)
  /-- V_RED (R238). -/
  | vRed (t : Slot) (f : EFields) (o : Others)
  /-- V_LD (R231). -/
  | vLd (t : Slot) (f : EFields) (o : Others)
  /-- V_LDS (R231). -/
  | vLds (t : Slot) (f : EFields) (o : Others)
  /-- V_LDX (R231). -/
  | vLdx (t : Slot) (f : EFields) (o : Others)
  /-- V_LDFF (R232). -/
  | vLdff (t : Slot) (f : EFields) (o : Others)
  /-- V_MLD (R231). -/
  | vMld (t : Slot) (f : EFields) (o : Others)
  /-- V_ST (R231). -/
  | vSt (t : Slot) (f : EFields) (o : Others)
  /-- V_STS (R231). -/
  | vSts (t : Slot) (f : EFields) (o : Others)
  /-- V_STX (R231). -/
  | vStx (t : Slot) (f : EFields) (o : Others)
  /-- V_MST (R231). -/
  | vMst (t : Slot) (f : EFields) (o : Others)
  /-- V_PASS (R241). -/
  | vPass (t : Slot) (f : EFields) (o : Others)
  /-- MT_BEGIN (R84). -/
  | mtBegin (t : Slot) (f : EFields) (o : Others)
  /-- MT_ACC (R97). -/
  | mtAcc (t : Slot) (f : EFields) (o : Others)
  /-- MT_ADDRAW (R99). -/
  | mtAddraw (t : Slot) (f : EFields) (o : Others)
  /-- MT_STORE (R104). -/
  | mtStore (t : Slot) (f : EFields) (o : Others)
  /-- MT_DROP (R84). -/
  | mtDrop (t : Slot) (f : EFields) (o : Others)
  /-- MT_ALIGN (R118). -/
  | mtAlign (t : Slot) (f : EFields) (o : Others)
  /-- X_SIG (R250). -/
  | xSig (t : Slot) (f : EFields) (o : Others)
  /-- X_WAIT (R250). -/
  | xWait (t : Slot) (f : EFields) (o : Others)
  /-- X_SCSET (R251). -/
  | xScset (t : Slot) (f : EFields) (o : Others)
  /-- X_SCREAD (R250). -/
  | xScread (t : Slot) (f : EFields) (o : Others)
  /-- X_FENCE (R250). -/
  | xFence (t : Slot) (f : EFields) (o : Others)
  /-- X_ICINV (R226). -/
  | xIcinv (t : Slot) (f : EFields) (o : Others)
  /-- X_MOVE (R248). -/
  | xMove (t : Slot) (f : EFields) (o : Others)
  /-- X_MOVED (R248). -/
  | xMoved (t : Slot) (f : EFields) (o : Others)
  /-- PENDING_WRITE_COMPLETE (R221). -/
  | pendingWriteComplete (t : Slot) (r : RegName)
  /-- MT_OP_COMPLETE (R246). -/
  | mtOpComplete (c : Core)
  /-- MOVE_COMPLETE (R248). -/
  | moveComplete (c : Core)
  /-- CHAIN_PASS_COMPLETE (R241). -/
  | chainPassComplete (c : Core)
  /-- ICACHE_FILL (R226). -/
  | icacheFill (t : Slot)
  /-- SYNC_COUNTER_INCREMENT (R251). -/
  | syncCounterIncrement (c : ScName) (incs : List TaggedInc)
  /-- CLOCK_CHANGE_REQUEST (R37). -/
  | clockChangeRequest (p : Panel) (core matrix : Fin 5)
  /-- CLOCK_STALL_END (R37). -/
  | clockStallEnd (p : Panel)
  /-- WATCHDOG_RESTART (R35). -/
  | watchdogRestart (p : Panel)
  /-- WDOG_PANEL (R35). -/
  | wdogPanel (p : Panel)
  /-- WDOG_CHIP (R35). -/
  | wdogChip
  /-- COMPARATOR_ARM (R32). -/
  | comparatorArm (p : Panel) (a : LaunchId)
  /-- LAUNCH_MISSED (R33). -/
  | launchMissed (a : LaunchId)
  /-- AMAX_MERGE (R144). -/
  | amaxMerge (d : DescId)
  /-- LADDER_DECIDE (R184). -/
  | ladderDecide (j : Job)
  /-- VOTE_EVALUATE (R276). -/
  | voteEvaluate (j : Job)
  /-- COMMIT_RECORD_WRITE (R277). -/
  | commitRecordWrite (j : Job)
  /-- COMMIT_DISCARD (R279). -/
  | commitDiscard (j : Job)
  /-- SCRUB_END (R279). -/
  | scrubEnd (j : Job)
  /-- COMMIT_UNRESOLVED (R282). -/
  | commitUnresolved (j : Job)
  /-- PLANE_ROOTS_DONE (R272). -/
  | planeRootsDone (j : Job) (rec : Nat)
  /-- PATROL_SCRUB (R290). -/
  | patrolScrub (pa : Nat) (upset : Upset)
  /-- REFRESH (R286). -/
  | refresh (dev : Fin 24) (ch : Fin 4)
  /-- PERIODIC_RETRAIN (R285). -/
  | periodicRetrain (dev : Fin 24) (ch : Fin 4)
  /-- HDM_READ (R305). -/
  | hdmRead (unit : Nat)
  /-- HDM_WRITE (R305). -/
  | hdmWrite (unit : Nat) (be : W64) (data : List Byte)
  /-- CXL_SNOOP (R367). -/
  | cxlSnoop (addr : W64)
  /-- SECRES_WRITE (R299). -/
  | secresWrite (v : W64)
  /-- FRAME_RECEIVE (R312). -/
  | frameReceive (l : Link) (cw : Codeword)
  /-- FRAME_SEND (R328). -/
  | frameSend (l : Link)
  /-- ALIVE_SEND (R316). -/
  | aliveSend (l : Link)
  /-- ALIVE_RECEIVE (R319). -/
  | aliveReceive (l : Link) (a : AliveSeq) (rx : BitVec 36)
  /-- ALIVE_TIMEOUT (R317). -/
  | aliveTimeout (l : Link)
  /-- LINK_TARGET_OFF (R513). -/
  | linkTargetOff (l : Link)
  /-- LINK_TARGET_HOLD (R321). -/
  | linkTargetHold (l : Link)
  /-- LINK_TARGET_RUN (R321). -/
  | linkTargetRun (l : Link)
  /-- LINK_RESOLVE (R318). -/
  | linkResolve (l : Link) (seq : BitVec 7)
  /-- LINK_PARTNER_DETECT (R321). -/
  | linkPartnerDetect (l : Link)
  /-- LINK_TRAIN_DONE (R321). -/
  | linkTrainDone (l : Link)
  /-- LINK_STEP_TIMEOUT (R321). -/
  | linkStepTimeout (l : Link)
  /-- LINK_BER_WINDOW (R324). -/
  | linkBerWindow (l : Link)
  /-- EXIT_ARBITRATION (R336). -/
  | exitArbitration (e : Exit)
  /-- RESERVATION_EXPIRE (R337). -/
  | reservationExpire (e : Exit)
  /-- DELIVERY_WRITE (R345). -/
  | deliveryWrite (die : Die)
  /-- TABLE_STAGED (R342). -/
  | tableStaged (j : Job)
  /-- EPOCH_MISSED (R342). -/
  | epochMissed (j : Job)
  /-- ROUTE_EPOCH_SWITCH (R342). -/
  | routeEpochSwitch (j : Job)
  /-- EPOCH_DRAIN (R343). -/
  | epochDrain (j : Job)
  /-- GAUGE_SYNC (R352). -/
  | gaugeSync
  /-- GAUGE_JOIN (R352). -/
  | gaugeJoin (l : Link)
  /-- GAUGE_STEER (R354). -/
  | gaugeSteer
  /-- GAUGE_REF_LOST (R356). -/
  | gaugeRefLost
  /-- GAUGE_REF_RETURN (R356). -/
  | gaugeRefReturn
  /-- HOLDOVER_EXPIRE (R356). -/
  | holdoverExpire
  /-- COLL_BASE_FIRE (R512). -/
  | collBaseFire (d : DescId)
  /-- SLOT_OPEN (R358). -/
  | slotOpen (d : DescId) (k : Nat)
  /-- SLOT_MARK (R361). -/
  | slotMark (d : DescId) (k : Nat)
  /-- RECV_JUDGE (R362). -/
  | recvJudge (d : DescId) (e : Nat)
  /-- COLL_END (R363). -/
  | collEnd (d : DescId)
  /-- DOORBELL (R370). -/
  | doorbell (off : BitVec 22) (size : Nat) (v : W64)
  /-- DESCRIPTOR_FETCH (R375). -/
  | descriptorFetch (q : Queue)
  /-- NOP (R378). -/
  | nop (d : DescId)
  /-- PRODUCT (R379). -/
  | product (d : DescId)
  /-- PASS (R192). -/
  | pass (d : DescId)
  /-- MOVE (R378). -/
  | move (d : DescId)
  /-- COLL (R359). -/
  | coll (d : DescId)
  /-- UPDATE (R380). -/
  | update (d : DescId)
  /-- COMMIT (R273). -/
  | commit (d : DescId)
  /-- SNAPSHOT_PLAN (R402). -/
  | snapshotPlan (d : DescId)
  /-- SNAPSHOT_FULL (R406). -/
  | snapshotFull (d : DescId)
  /-- SNAPSHOT_DELTA (R406). -/
  | snapshotDelta (d : DescId)
  /-- INVENTORY (R419). -/
  | inventory (d : DescId)
  /-- APPLY_REMOTE (R421). -/
  | applyRemote (d : DescId)
  /-- APPLY_LOCAL (R422). -/
  | applyLocal (d : DescId)
  /-- ABORT (R391). -/
  | abortDesc (d : DescId)
  /-- MAP (R297). -/
  | mapDesc (d : DescId)
  /-- UNMAP (R297). -/
  | unmap (d : DescId)
  /-- UNMAP_COMPLETE (R297). -/
  | unmapComplete (d : DescId)
  /-- LADDER_POLICY (R179). -/
  | ladderPolicy (d : DescId)
  /-- ROUTE_EPOCH (R342). -/
  | routeEpoch (d : DescId)
  /-- JOB_SETUP (R382). -/
  | jobSetup (d : DescId)
  /-- PART_PLACE (R389). -/
  | partPlace (d : DescId) (u : Fin 170) (w : Placement)
  /-- PART_END (R390). -/
  | partEnd (d : DescId) (u : Fin 170) (e : PartOutcome)
  /-- MSIX_WINDOW_END (R386). -/
  | msixWindowEnd (src : MsixSource)
  /-- CTX_OPEN (R371). -/
  | ctxOpen
  /-- CTX_CLOSE (R393). -/
  | ctxClose
  /-- CTX_FREE (R371). -/
  | ctxFree
  /-- CTX_DRAIN_MARK (R393). -/
  | ctxDrainMark (c : Ctx)
  /-- CTX_QUIESCE (R394). -/
  | ctxQuiesce (c : Ctx)
  /-- QUEUE_ENABLE (R373). -/
  | queueEnable (v : W64)
  /-- QUEUE_DISABLE (R373). -/
  | queueDisable (v : W64)
  /-- CXL_LINK_DOWN (R396). -/
  | cxlLinkDown
  /-- CXL_LINK_UP (R396). -/
  | cxlLinkUp (width rate : Nat)
  /-- SNAPSHOT_START (R408). -/
  | snapshotStart (j : Job)
  /-- SNAPSHOT_END_MARK (R411). -/
  | snapshotEndMark (j : Job)
  /-- RISK_COMPUTE (R416): the chip bench reads the counters and the sensors, and measures the module input voltage, in 1/256 V. -/
  | riskCompute (vin : Nat)
  /-- HANG_SLOT (R431). -/
  | hangSlot (t : Slot)
  /-- HANG_QUEUE (R432). -/
  | hangQueue (q : Queue)
  /-- HANG_ENGINE (R433). -/
  | hangEngine (c : Core) (e : EngineKind)
  /-- REPLAY_END (R433). -/
  | replayEnd (c : Core) (hung : Bool)
  /-- UNIT_HANG (R434). -/
  | unitHang (u : UnitName)
  /-- MSG_STALE (R430). -/
  | msgStale (die : Die) (j : Job) (msg : W32)
  /-- RSTREQ_DUMP (R443). -/
  | rstreqDump
  /-- RSTREQ_CONTEXT (R443). -/
  | rstreqContext (target : BitVec 16)
  /-- RSTREQ_ENGINE (R443). -/
  | rstreqEngine (target : BitVec 16) (sub : BitVec 3)
  /-- RSTREQ_PANEL (R443). -/
  | rstreqPanel (target : BitVec 16)
  /-- RSTREQ_CHIP (R443). -/
  | rstreqChip
  /-- RSTREQ_POWER_CYCLE (R442). -/
  | rstreqPowerCycle
  /-- PANEL_RUNG (R426). -/
  | panelRung (p : Panel)
  /-- CHIP_RUNG (R426). -/
  | chipRung
  /-- POWER_CYCLE_RUNG (R442). -/
  | powerCycleRung
  /-- RUNG_TIMEOUT (R441). -/
  | rungTimeout (r : RungScope)
  /-- EVENT_RING_SCAN (R514). -/
  | eventRingScan
  /-- LOG_FLUSH (R449). -/
  | logFlush (path : PathName)
  /-- LOGACK_WRITE (R449). -/
  | logackWrite (v : W64)
  /-- EVQACK_WRITE (R449). -/
  | evqackWrite (v : W64)
  /-- EVQ_ENABLE (R443). -/
  | evqEnable (v : W64)
  /-- I3C_SEND (R448). -/
  | i3cSend
  /-- MCTP_HEARTBEAT (R504). -/
  | mctpHeartbeat
  /-- SAG_STAGE_ENTER (R458). -/
  | sagStageEnter (vin : Nat)
  /-- SAG_STAGE_EXIT (R459). -/
  | sagStageExit (vin : Nat)
  /-- OVERVOLTAGE (R452). -/
  | overvoltage (vin : Nat)
  /-- PEAK_CAP (R452). -/
  | peakCap (watts : Nat)
  /-- PEAK_CAP_LIFT (R452). -/
  | peakCapLift (watts : Nat)
  /-- EXCURSION_CAP (R452). -/
  | excursionCap (usAbove : Nat)
  /-- EXCURSION_LIFT (R452). -/
  | excursionLift (usAbove : Nat)
  /-- POWER_LIMIT_STEP (R457). -/
  | powerLimitStep (watts d0 d1 d2 d3 : Nat)
  /-- RAIL_FAULT (R453). -/
  | railFault (r : Rail)
  /-- PWR_GOOD_DROP (R462). -/
  | pwrGoodDrop
  /-- POWER_RESTART (R462). -/
  | powerRestart (vin : Nat)
  /-- THERMAL_SAMPLE (R464). -/
  | thermalSample (samples : List SensorSample)
  /-- THERMAL_STAGE_EXIT (R464). -/
  | thermalStageExit (x : Sensor)
  /-- HARDWARE_TRIP (R465). -/
  | hardwareTrip (x : Sensor) (celsius : Int)
  /-- DRILL_ARM (R466). -/
  | drillArm (v : W64)
  /-- DRILL_START (R466). -/
  | drillStart
  /-- DRILL_END (R466). -/
  | drillEnd
  /-- PLINTH_BOOT (R473). -/
  | plinthBoot
  /-- CONFIG_LOCK (R478). -/
  | configLock
  /-- STATUS (R480). -/
  | status (r : MailRequest)
  /-- CONFIG_LOAD (R480). -/
  | configLoad (r : MailRequest)
  /-- FW_WRITE (R480). -/
  | fwWrite (r : MailRequest)
  /-- FW_ACTIVATE (R480). -/
  | fwActivate (r : MailRequest)
  /-- FW_CONFIRM (R480). -/
  | fwConfirm (r : MailRequest)
  /-- OWNER_FUSE (R480). -/
  | ownerFuse (r : MailRequest)
  /-- DEBUG_TOKEN (R484). -/
  | debugToken (r : MailRequest)
  /-- REBOOT (R480). -/
  | reboot (r : MailRequest)
  /-- GET_DIGESTS (R482). -/
  | getDigests
  /-- GET_CERTIFICATE (R481). -/
  | getCertificate (slot offset len : Nat)
  /-- CHALLENGE (R482). -/
  | challenge (slot : Nat) (nonce : BitVec 256)
  /-- GET_MEASUREMENTS (R482). -/
  | getMeasurements (index : Nat) (nonce : BitVec 256)
  /-- KEY_EXCHANGE (R482). -/
  | keyExchange (sid : BitVec 16) (x : List Byte)
  /-- FINISH (R482). -/
  | finish (sid : BitVec 32) (verify : List Byte)
  /-- KEY_UPDATE (R482). -/
  | keyUpdate (sid : BitVec 32) (op : Nat)
  /-- HEARTBEAT (R482). -/
  | heartbeat (sid : BitVec 32)
  /-- END_SESSION (R482). -/
  | endSession (sid : BitVec 32)
  /-- IDE_KM_KEY_PROG (R483). -/
  | ideKmKeyProg (sid : BitVec 32) (k : IdeKeySlot) (key : BitVec 256)
  /-- K_SET_GO (R483). -/
  | kSetGo (sid : BitVec 32) (k : IdeKeySlot)
  /-- IDE_INTEGRITY_FAIL (R483). -/
  | ideIntegrityFail (s : IdeStream)
  /-- FLASH_WP_ASSERT (R486). -/
  | flashWpAssert
  /-- PERST_ASSERT (R504). -/
  | perstAssert
  /-- PERST_DEASSERT (R504). -/
  | perstDeassert
  /-- CORE_FENCE_WRITE (R495). -/
  | coreFenceWrite (p : Panel) (v : W64)
  /-- BAR0_ACCESS_REFUSED (R488). -/
  | bar0AccessRefused (a : Bar0Access)
  /-- REGISTER_WRITE (R10). -/
  | registerWrite (off : BitVec 22) (v : W64)
  /-- GAUGE_TICK (R351). -/
  | gaugeTick
  /-- RESTORE_START_MARK (R421). -/
  | restoreStartMark (j : Job) (srcRank : BitVec 16)
  deriving DecidableEq, Repr

end Sys2Proof
end

