-- ==== Sys2Proof/Decode.lean ====
section
/-!
DEFINITION. Reading words as commands. No row of the table of operations and events gives bits, so decodeTableWord answers
none for every word. What the spec does give bits to is the 64-bit slot word of a bundle (R217 to R219): it is split here
into its opcode and fields, and put together again.
-/

namespace Sys2Proof

/-- The command that a word spells by the table's bits: the table gives no row any bits. -/
def decodeTableWord (_nbits _w : Nat) : Option Instr := none

/-- The operations of the four slots of a bundle (R233, R243, R250, R252). -/
inductive SlotOp where
  | nop
  | alu | alui | li | lui | ld | st | amo | br | jal | jalr | fp | fma | csrr | csrw | stop
  | vCfg | vAdd | vSub | vMul | vFma | vDiv | vSqrt | vMin | vMax | vFunc | vLdexp | vCvt
  | vAnd | vOr | vXor | vShl | vShr | vSar | vBcast | vWmul | vDot | vCmp | vMop | vMpopc | vMfirst | vPerm | vRed
  | vLd | vLds | vLdx | vLdff | vMld | vSt | vSts | vStx | vMst | vPass
  | mtBegin | mtAcc | mtAddraw | mtStore | mtDrop | mtAlign
  | xMove | xMoved | xSig | xWait | xScset | xScread | xFence | xIcinv
  deriving DecidableEq, Repr

/-- The S slot's opcodes (R252); 0x00 is NOP in every slot (R217). -/
def sOpOf (op : Nat) : Option SlotOp :=
  match op with
  | 0x00 => some .nop | 0x01 => some .alu | 0x02 => some .alui | 0x03 => some .li | 0x04 => some .lui | 0x08 => some .ld
  | 0x09 => some .st | 0x0A => some .amo | 0x10 => some .br | 0x11 => some .jal | 0x12 => some .jalr | 0x18 => some .fp
  | 0x19 => some .fma | 0x20 => some .csrr | 0x21 => some .csrw | 0x3E => some .stop
  | _ => none

/-- The V slot's opcodes (R233). -/
def vOpOf (op : Nat) : Option SlotOp :=
  match op with
  | 0x00 => some .nop | 0x01 => some .vCfg | 0x10 => some .vAdd | 0x11 => some .vSub | 0x12 => some .vMul | 0x13 => some .vFma
  | 0x14 => some .vDiv | 0x15 => some .vSqrt | 0x16 => some .vMin | 0x17 => some .vMax | 0x18 => some .vFunc
  | 0x19 => some .vLdexp | 0x1A => some .vCvt | 0x1C => some .vAnd | 0x1D => some .vOr | 0x1E => some .vXor
  | 0x1F => some .vShl | 0x20 => some .vShr | 0x21 => some .vSar | 0x22 => some .vBcast | 0x28 => some .vWmul
  | 0x29 => some .vDot | 0x30 => some .vCmp | 0x31 => some .vMop | 0x32 => some .vMpopc | 0x33 => some .vMfirst
  | 0x38 => some .vPerm | 0x3A => some .vRed | 0x40 => some .vLd | 0x41 => some .vLds | 0x42 => some .vLdx
  | 0x43 => some .vLdff | 0x44 => some .vMld | 0x48 => some .vSt | 0x49 => some .vSts | 0x4A => some .vStx
  | 0x4C => some .vMst | 0x50 => some .vPass
  | _ => none

/-- The M slot's opcodes (R243). -/
def mOpOf (op : Nat) : Option SlotOp :=
  match op with
  | 0x00 => some .nop | 0x01 => some .mtBegin | 0x02 => some .mtAcc | 0x03 => some .mtAddraw | 0x04 => some .mtStore
  | 0x05 => some .mtDrop | 0x06 => some .mtAlign
  | _ => none

/-- The X slot's opcodes (R250). -/
def xOpOf (op : Nat) : Option SlotOp :=
  match op with
  | 0x00 => some .nop | 0x01 => some .xMove | 0x02 => some .xMoved | 0x08 => some .xSig | 0x09 => some .xWait
  | 0x0A => some .xScset | 0x0B => some .xScread | 0x0C => some .xFence | 0x0D => some .xIcinv
  | _ => none

/-- The opcode of a slot word, bits [7:0] (R219). -/
def wordOp (w : W64) : Nat := w.toNat % 256

/-- The scalar format (R219). -/
def sFieldsOf (w : W64) : SFields :=
  { d := w.extractLsb' 8 6, a := w.extractLsb' 14 6, b := w.extractLsb' 20 6, fn := w.extractLsb' 26 6
    imm := w.extractLsb' 32 32 }

/-- The engine format (R219). -/
def eFieldsOf (w : W64) : EFields :=
  { d := w.extractLsb' 8 6, a := w.extractLsb' 14 6, b := w.extractLsb' 20 6, c := w.extractLsb' 26 6
    msk := w.extractLsb' 32 3, men := w.getLsbD 35, mz := w.getLsbD 36, sub := w.extractLsb' 37 3
    imm := w.extractLsb' 40 15, sigen := w.getLsbD 55, sig := w.extractLsb' 56 8 }

/-- A word of the scalar format (R219). -/
def sWord (op : Nat) (f : SFields) : W64 :=
  f.imm ++ f.fn ++ f.b ++ f.a ++ f.d ++ BitVec.ofNat 8 op

/-- A word of the engine format (R219). -/
def eWord (op : Nat) (f : EFields) : W64 :=
  f.sig ++ BitVec.ofBool f.sigen ++ f.imm ++ f.sub ++ BitVec.ofBool f.mz ++ BitVec.ofBool f.men ++ f.msk ++ f.c ++ f.b
    ++ f.a ++ f.d ++ BitVec.ofNat 8 op

/-- The four words of a bundle. -/
structure Bundle where
  sw : W64
  vw : W64
  mw : W64
  xw : W64
  deriving DecidableEq, Repr

/-- The 256 bits of a bundle: bytes 0 to 7 hold the S slot (R217). -/
def Bundle.bits (b : Bundle) : BitVec 256 := b.xw ++ b.mw ++ b.vw ++ b.sw

/-- The words of 256 bits of code. -/
def bundleOfBits (x : BitVec 256) : Bundle :=
  { sw := x.extractLsb' 0 64, vw := x.extractLsb' 64 64, mw := x.extractLsb' 128 64, xw := x.extractLsb' 192 64 }

/-- The bundle that holds word w in slot position pos (0 S, 1 V, 2 M, 3 X) beside the words of the other three slots. -/
def bundleWith (pos : Nat) (w : W64) (o : Others) : Bundle :=
  match pos with
  | 0 => ⟨w, o.x, o.y, o.z⟩
  | 1 => ⟨o.x, w, o.y, o.z⟩
  | 2 => ⟨o.x, o.y, w, o.z⟩
  | _ => ⟨o.x, o.y, o.z, w⟩

end Sys2Proof
end

