-- ==== Sys2Proof/Config.lean ====
section
/-!
DEFINITION. What an implementation fixes and the values that the spec leaves open. Every open value is an opaque constant
without a body, so that no proof can rest on a value of it; a constant that is applied to the state's counter of free values
(State.free) gives a fresh value each time. The log entries that declare each stand in notes/assumptions.
-/

namespace Sys2Proof.Config

/-- The 16-bit check code of a GDDR7 unit, by its device physical address and its 64 bytes: the spec gives what the code detects,
and no code (R288; log entry 114). -/
opaque checkCode : Nat → List Byte → BitVec 16

/-- Which of the values within the error bound of R202 a function of the FUNC stage returns, by function code, work format
code and encoding of the input (log entry 10). -/
opaque funcPick : Nat → Nat → Nat → Nat

/-- Result of a conversion to INT64 that is invalid (NaN, infinity, out of range): by source encoding (log entry 11). -/
opaque invalidToInt : Nat → W64

/-- The word that FP CLASS returns for each of the ten classes of IEEE 754 (log entry 12). -/
opaque classWord : Nat → W64

/-- What V.CVT writes for a NaN into FP4-E2M1, a register type without a NaN code or a block scale (log entry 13). -/
opaque nanToFp4 : Nat → Nat

/-- A fresh 64-bit value wherever the spec leaves a value open (log entry 14). -/
opaque freeWord : Nat → W64

/-- A scalar shift by 64 or more: by function code, value and count (log entry 15). -/
opaque bigShift : Nat → W64 → W64 → W64

/-- V.LDEXP of an integer element with a negative exponent, where the quotient is no integer (R233; log entry 96). -/
opaque ldexpOpen : Nat → Nat → W64

/-- How far the clock of a panel has come within a tick, in thousandths of a cycle, so many ticks after its reset: the clock
between two ticks is not the model's (log entry 16). -/
opaque cycleAt : Nat → Nat → Nat
/-- What befalls the module in a tick from outside (R290, R291, R441; log entry 121). -/
opaque mishap : Nat → Option Mishap
/-- What the dump window shows of a word that cannot be read as data, by its address (R293, R303, R443; log entry 132). -/
opaque poisonWord : Nat → W64
/-- Whether the reset of an engine hangs, by draw (R441; log entry 122). -/
opaque resetStuck : Nat → Bool
/-- How many ticks a write of the flash takes, by draw (R486; log entry 60). -/
opaque flashTicks : Nat → Nat
/-- The root key slots that a stage 1 revokes, by its digest: those below its own are taken (R471; log entry 92). -/
opaque stageRevokes : List Byte → BitVec 4
/-- The words of the CXL.io configuration space; the first begins with the Vendor ID (R366, R480; log entry 123). -/
opaque configWord : Nat → W32
/-- The DOE data object type of the host mailbox (R480; log entry 123). -/
opaque mailType : Byte

/-- EXP of an alignment record whose block holds no non-zero finite element but is not all zero: by the elements (log entry
17). -/
opaque alignOpenExp : List Nat → Nat

/-- The raw word of an invalid INT32 accumulator entry (log entry 18). -/
opaque rawInvalid32 : Nat → W32

/-- Delivery buffers of a link DMA beyond the first: the spec does not say how many there are (log entry 22). -/
opaque deliveryBuffers : Nat

/-- The random value that rounds the zero point of a block under stochastic rounding, by the element index of the block's
first element (log entry 28). -/
opaque zeroPointDraw : Nat → Nat

/-- Whether the host refuses the write of a report block, by its host address and the time (log entry 63). -/
opaque reportRefused : Nat → Nat → Bool

/-- The row count of a sparse table: SLOTS is said to name it, and no field does (log entry 36). -/
opaque sparseRows : Nat → Nat

/-- Bytes of the chain behind a base slot at the target of a stream: another module's configuration, by job and stream (log
entry 46). -/
opaque targetChain : Nat → Nat → Nat

/-- The digest of the plinth ROM: fixed in each device (log entry 56). -/
opaque plinthDigest : List Byte

/-- What a module is delivered with: the factory bundle as it stands in a slot of the flash, the certificate chain in flash, and
what the fuses hold: keys by slot, the device secret, the digest of the chain (R4; log entry 1). -/
opaque factoryBundle : List Byte
opaque factoryChain : List Byte
opaque factoryRootKey : Nat → List Byte
opaque factorySecret : BitVec 512
opaque factoryCertDigest : List Byte

/-- A signature of the identity key over a message, with the draw of its salt (log entry 56). -/
opaque identitySign : Nat → List Byte → List Byte

/-- Whether the verify data of a FINISH is that of the session, by the session's secret, its number and the data: the key
schedule runs over the messages as framed (log entry 57). -/
opaque finishOk : List Byte → W32 → List Byte → Bool

/-- How a DEBUG_TOKEN lays out its fields: root key slot, modulus, signed bytes, signature, certificate serial, nonce (log entry
58). -/
opaque tokenSlot : List Byte → Nat
opaque tokenModulus : List Byte → List Byte
opaque tokenSigned : List Byte → List Byte
opaque tokenSignature : List Byte → List Byte
opaque tokenSerial : List Byte → List Byte
opaque tokenNonce : List Byte → BitVec 256

/-- The serial number that a certificate carries (log entry 58). -/
opaque certSerial : List Byte → List Byte

end Sys2Proof.Config
end

