-- ==== Sys2Proof/Machine/State.lean ====
section
/-!
DEFINITION. The state of the module, whole and as plain data: every register, memory, queue, buffer, counter, mode and pin
that the spec gives it, the queue of waiting commands, and State.reset.

Tables: a Tab holds the entries of a large array that differ from their reset value, by ascending index; an index that is
not listed holds the reset value (Machine/Ops.lean reads and writes them). Memories hold bytes in the same form.
-/

namespace Sys2Proof.Machine

open Sys2Proof

/-- A sparse array: entries by strictly ascending index, none equal to the array's reset value. -/
abbrev Tab (α : Type) := List (Nat × α)

/-! ### Memories (chapters 01, 10) -/

/-- One memory: its bytes, and the 64-byte units that carry poison (R291, R292), ascending. -/
structure Bank where
  cells : List Host.Cell := []
  poison : List Nat := []
  deriving DecidableEq, Repr

/-- The address spaces that a write of an engine can go to. -/
inductive Space where
  | gddr
  | bench
  | pstore
  | host
  | flash
  deriving DecidableEq, Repr

/-- A write of bytes that an engine has computed and that becomes visible when its operation completes (R246, R386). -/
structure MemWrite where
  space : Space
  addr : Nat
  data : List Byte
  poison : Bool
  /-- The bytes belong to raw partial tiles with passes beyond the veneer rule (R132). -/
  void : Bool := false
  deriving DecidableEq, Repr

/-- Per panel: the memory controllers' reset and self-refresh (R302, R303). -/
structure MemCtl where
  inReset : Bool := false
  selfRefresh : Bool := false
  readsPoisoned : Nat := 0
  writesDropped : Nat := 0
  deriving DecidableEq, Repr

/-- The memories of the module, the host memory that its port reaches, and the MEM block (R284 to R307, R496). -/
structure MemState where
  gddr : Bank := {}
  bench : Bank := {}
  pstore : Bank := {}
  host : Bank := {}
  flash : Bank := {}
  /-- The SRAM of the security block, and the firmware stores of the link dies, die d from 2 ^ 64 · d on (R470). -/
  secSram : Bank := {}
  linkFw : Bank := {}
  /-- Where raw partial tiles lie that hold passes beyond the veneer rule: space, address, bytes (R132). -/
  voidRaw : List (Space × Nat × Nat) := []
  ctl : Tab MemCtl := []
  /-- Patrol, refresh and retraining visits, for the rules that only bound how often they come (R285, R286, R290). -/
  scrubbed : Nat := 0
  refreshed : Nat := 0
  retrained : Nat := 0
  /-- Channel trainings, at power-on and after the chip rung (R285). -/
  trained : Nat := 0
  /-- Page tables of levels 1 and 0 in use: address, size and context (R295, R297). -/
  tables : List (Nat × Nat × Nat) := []
  secres : Nat := 0
  hdmPoison : Nat := 0
  hdmDrop : Nat := 0
  secresIgn : Nat := 0
  eccCorr : Tab Nat := []
  eccUncorr : Tab Nat := []
  aper : Tab W64 := []
  deriving DecidableEq, Repr

/-! ### Events and logs (R444 to R450) -/

/-- An event as it is raised (R445): one record before it is written on a path. -/
structure EvRec where
  code : BitVec 16
  sub : BitVec 3 := 0
  source : BitVec 16 := 0xFFFF
  job : BitVec 8 := 0xFF
  ctx : Option Ctx := none
  arg0 : W64 := 0
  arg1 : W64 := 0
  arg2 : W64 := 0
  arg3 : W64 := 0
  gauge : W64 := 0
  first : W64 := 0
  count : Nat := 1
  /-- Its number on the path that holds it (R445). -/
  seq : Nat := 0
  coalesced : Bool := false
  summary : Bool := false
  deriving DecidableEq, Repr

/-- A path's counters, words 8p to 8p + 7 of GLB.EVCNT (R450). -/
structure EvCounters where
  offered : Nat := 0
  single : Nat := 0
  folded : Nat := 0
  pending : Nat := 0
  drop : Tab Nat := []
  deriving DecidableEq, Repr

/-- One path: the records it holds (oldest first), its coalescing table, its counters (R448 to R450). -/
structure EvPath where
  recs : List EvRec := []
  /-- A panel ring: its last 1,024 records, read or not (R439). -/
  ring : List EvRec := []
  written : Nat := 0
  ack : Nat := 0
  tab : List EvRec := []
  cnt : EvCounters := {}
  /-- Drop counts in the last summary written, and when it was written. -/
  summed : Tab Nat := []
  summedAt : Option Nat := none
  deriving DecidableEq, Repr

/-- The event system: four panel rings, the chip event log, the host event queue, the I3C send queue. -/
structure EvState where
  rings : Tab EvPath := []
  chipLog : EvPath := {}
  host : EvPath := {}
  i3c : EvPath := {}
  evqBase : W64 := 0
  evqLog2 : Nat := 10
  evqEnable : Bool := false
  evqTrace : Bool := false
  evqVector : BitVec 11 := 0
  evqWindow : Option Nat := none
  i3cEn : Bool := true
  i3cWarn : Bool := false
  /-- When the last MCTP heartbeat was sent (R504). -/
  beatAt : Option Nat := none
  deriving DecidableEq, Repr

/-! ### Tallies and results (R60, R134, R165, R215, R265, R387) -/

/-- The tallies of an operation, by the names of R387, with NAN_MADE and the IEEE flags. -/
structure Tallies where
  ovf : Nat := 0
  inv : Nat := 0
  nanInt : Nat := 0
  shiftLoss : Nat := 0
  bvTiles : Nat := 0
  splitC : Nat := 0
  overC : Nat := 0
  hist6 : Nat := 0
  hist7 : Nat := 0
  hist8 : Nat := 0
  hist9 : Nat := 0
  zeroBlock : Nat := 0
  scaleRaise : Nat := 0
  scaleFloor : Nat := 0
  inlayDropped : Nat := 0
  softmaxEmpty : Nat := 0
  factorRetry : Nat := 0
  pivotFix : Nat := 0
  updSkip : Nat := 0
  sparseOrder : Nat := 0
  sparseRange : Nat := 0
  planeRetry : Nat := 0
  restoreSteps : Nat := 0
  nanMade : Bool := false
  boundVoid : Bool := false
  flags : BitVec 5 := 0
  poisonUnits : Nat := 0
  deriving DecidableEq, Repr

/-! ### Thread slots and cores (chapters 01, 03, 08) -/

/-- A target of a sync signal with its amount. -/
structure Signal where
  target : ScName
  amount : W32
  deriving DecidableEq, Repr

/-- What holds a slot's next bundle (R250): a wait; a fence, by how many commands of the slot it still waits for in the
queues of the V, M and X slots and for which registers of the scalar unit. -/
inductive Hold where
  | free
  | wait (c : ScName) (target : W32)
  | fence (v m x : Nat) (regs : List RegName)
  deriving DecidableEq, Repr

/-- A thread slot (R224, R225). -/
structure SlotState where
  running : Bool := false
  /-- Stopped by a fault, by its context or by a hang; it runs no further bundle. -/
  stopped : Bool := false
  /-- STOP has issued; the slot is freed when its operations have completed. -/
  ending : Bool := false
  sregs : Tab W64 := []
  vregs : Tab VReg := []
  mregs : Tab MReg := []
  pc : W64 := 0
  rmode : BitVec 2 := 0
  fpsr : BitVec 6 := 0
  vl : BitVec 13 := 0
  vt : BitVec 5 := 0
  grp : BitVec 2 := 0
  pair : Bool := false
  ctx : Ctx := 0
  gen : BitVec 8 := 0
  scBase : BitVec 8 := 0
  scCount : Nat := 0
  part : W32 := 0
  desc : Option DescId := none
  pending : List RegName := []
  hold : Hold := .free
  /-- What the wait or fence that holds the slot signals when it completes. -/
  holdSig : List Signal := []
  /-- The count of ticks at which the slot last made progress (R428). -/
  progress : Nat := 0
  deriving DecidableEq, Repr

/-- One entry of a veneer accumulator (R126, R127). -/
inductive VenVal where
  | fin (neg : Bool) (sig : Nat) (exp : Int)
  | inf (neg : Bool)
  | nan (neg : Bool) (payload : Nat)
  deriving DecidableEq, Repr

/-- One accumulator entry of a tile (R83, R89, R90, R92, R126). -/
inductive AccEntry where
  | f32 (bits : W32)
  | i32 (v : Int) (saturated : Bool)
  | ven (v : VenVal)
  | invalid
  deriving DecidableEq, Repr

/-- The four accumulator formats (R115, R379). -/
inductive AccKind where
  | fp32
  | int32
  | ven32
  | ven64
  deriving DecidableEq, Repr

/-- A tile in progress: its owner, shape, accumulator format and entries, row-major (R82 to R84). -/
structure Handle where
  owner : Slot
  mt : Nat
  nt : Nat
  acc : AccKind
  accExp : Int
  vmode : Bool
  entries : List AccEntry
  poisoned : Bool
  /-- K blocks accumulated so far, for BOUND_VOID (R107, R132). -/
  blocks : Nat
  /-- A store has counted the tile as outside its bound. -/
  voidTold : Bool := false
  /-- A pass beyond the veneer rule has gone into the tile, here or in a partial tile that it took in (R132). -/
  overSeen : Bool := false
  tallies : Tallies
  /-- Held by an ATTENTION pass (R206) or by a host descriptor's part, not by the slot's program. -/
  pass : Bool := false
  deriving DecidableEq, Repr

/-- What an entry of an engine's command queue is, by how it ends. -/
inductive EngKind where
  /-- A V operation or an X.SCREAD: ends when its last register is written. -/
  | regs
  /-- A store or an X.SIG: ends as soon as it is at the front. -/
  | immediate
  /-- A chain pass: ends by CHAIN_PASS_COMPLETE. -/
  | pass
  /-- A tile operation: ends by MT_OP_COMPLETE. -/
  | tile
  /-- A local move: ends by MOVE_COMPLETE. -/
  | move
  /-- A move to a rank: ends by MOVE_COMPLETE once its messages are acknowledged. -/
  | send (die : Die) (job : Job) (msgs : List W32)
  deriving DecidableEq, Repr

/-- What a bench range is read for: rows of A, columns of B, or the whole operation. -/
inductive ReadSide where
  | rows | cols | all
  deriving DecidableEq, Repr

/-- Rows of the bench that an operation in progress reads: first byte, distance of rows, rows, bytes of each. -/
structure BenchRead where
  addr : Nat
  stride : Nat
  rows : Nat
  bytes : Nat
  side : ReadSide
  deriving DecidableEq, Repr

/-- An entry of an engine's command queue (R22). -/
structure EngCmd where
  slot : Slot
  kind : EngKind
  tags : Tags
  pend : List RegName := []
  writes : List MemWrite := []
  signals : List Signal := []
  /-- X.SCSET: the counter and its new value. -/
  sets : List Signal := []
  /-- X.SCREAD: the scalar register and the counter to be read. -/
  scread : Option (Nat × ScName) := none
  /-- X.ICINV. -/
  icinv : Bool := false
  /-- Virtual ranges that the operation uses, for UNMAP (R297). -/
  vas : List (Nat × Nat) := []
  /-- Handles that an ATTENTION pass holds until it ends (R206). -/
  handles : List Nat := []
  /-- Bench ranges that a tile operation or a pass reads while it runs (R112, R216). -/
  reads : List BenchRead := []
  /-- The handle that a tile operation works on. -/
  tile : Option Nat := none
  /-- The tile operation releases its handle. -/
  drops : Bool := false
  /-- Bits of an element in the rows that an MT.STORE writes. -/
  elemBits : Nat := 0
  /-- How many of the writes each row of a pass makes, in row order (R216). -/
  rowLens : List Nat := []
  /-- Bits of the bench (address and count) that the operation writes with a defined value even where its source is written while it
  runs (R166). -/
  fixed : List (Nat × Nat) := []
  deriving DecidableEq, Repr

/-- An engine of a core: its command queue, its incarnation, its progress and its hang history. -/
structure EngState where
  queue : List EngCmd := []
  inc : BitVec 8 := 0
  progress : Nat := 0
  /-- When an operation of each context was last issued to the engine (R433). -/
  issued : Tab Nat := []
  /-- When the engine's HANG_CLEARED came, newest first (R441). -/
  cleared : List Nat := []
  deriving DecidableEq, Repr

/-- A replay in progress on a core: the engine, the suspect parts still to be replayed, the one that runs (R433). -/
structure Replay where
  eng : EngineKind
  parts : List (DescId × Nat)
  running : Option (DescId × Nat)
  named : Bool
  deriving DecidableEq, Repr

/-- A core: its engines, accumulator store, sync counters and instruction cache. -/
structure CoreState where
  matrix : EngState := {}
  vector : EngState := {}
  mover : EngState := {}
  handles : Tab Handle := []
  sync : Tab W32 := []
  /-- Instruction cache: context, address of a bundle, its 256 bits (R25, R226). -/
  icache : List (Nat × Nat × BitVec 256) := []
  replay : Option Replay := none
  /-- The slots that issued last, newest first: as many as may still be in R21's gap (R20). -/
  issued : List (Fin 64) := []
  deriving DecidableEq, Repr

/-! ### Panels: bench controllers, clocks, comparators (R32, R35, R37, R494) -/

/-- An armed mark comparator (R32). -/
structure Comparator where
  action : LaunchId
  mark : W64
  deriving DecidableEq, Repr

/-- A panel and its bench controller. -/
structure PanelState where
  inc : BitVec 8 := 0
  /-- 0 RUN, 1 RESET, 2 HELD (R494). -/
  state : BitVec 2 := 0
  fence : BitVec 40 := 0
  placed : Nat := 0
  failed : Nat := 0
  hangs : Nat := 0
  replays : Nat := 0
  comparators : List Comparator := []
  /-- When the watchdog was last restarted (R35). -/
  wdog : Nat := 0
  sync : Tab W32 := []
  /-- Clock points in force, and the change that stalls issue, and the one held behind it (R37, R455). -/
  coreOp : Fin 5 := 0
  matrixOp : Fin 5 := 0
  stall : Option (Fin 5 × Fin 5) := none
  held : Option (Fin 5 × Fin 5) := none
  /-- When the panel was last reset, for CYCLE (R224). -/
  resetAt : Nat := 0
  /-- Since when the core clock runs at its point, and the thousandths of a cycle counted until then. -/
  cycAt : Nat := 0
  cycBase : Nat := 0
  rungs : List Nat := []
  deriving DecidableEq, Repr

/-! ### The host port (chapter 14) -/

/-- The four states of a context (R371). -/
inductive CtxPhase where
  | free
  | opened
  | closing
  | quiescent
  deriving DecidableEq, Repr

/-- A context (R371, R372, R393, R395). -/
structure CtxState where
  phase : CtxPhase := .free
  gen : BitVec 8 := 0
  drained : Bool := false
  cmdBad : Bool := false
  seed : W64 := 0
  hbase : BitVec 40 := 0
  hlimit : BitVec 40 := 0
  drainMark : W64 := 0
  rung : Bool := false
  accepted : Nat := 0
  completed : Nat := 0
  cancelled : Nat := 0
  dbIgnored : Nat := 0
  msgAbandoned : Nat := 0
  genDrop : Nat := 0
  /-- Panel counters assigned to the context's parts (R249). -/
  panelScs : List (Nat × Nat) := []
  /-- Virtual ranges, address and length, of the UNMAPs in progress: dropped for new accesses (R297, R307). -/
  unmapping : List (Nat × Nat) := []
  deriving DecidableEq, Repr

/-- A queue (R373). -/
structure QueueState where
  rbase : BitVec 40 := 0
  cbase : BitVec 40 := 0
  log2size : BitVec 5 := 6
  cls : BitVec 3 := 0
  enable : Bool := false
  vector : BitVec 11 := 0
  irqEn : Bool := false
  head : W32 := 0
  tail : W32 := 0
  done : W32 := 0
  cfgErr : Bool := false
  dbApplied : Nat := 0
  dbIgnored : Nat := 0
  dbBad : Nat := 0
  /-- When the open MSI-X window began (R386). -/
  window : Option Nat := none
  progress : Nat := 0
  deriving DecidableEq, Repr

/-- A watch block (R174). -/
structure WatchBlock where
  ssqA : Nat := 0
  ssqG : Nat := 0
  ssqDw : Nat := 0
  ssqW : Nat := 0
  cntA : Nat := 0
  cntG : Nat := 0
  cntF : Nat := 0
  cntB : Nat := 0
  ovfF : Nat := 0
  ovfB : Nat := 0
  invF : Nat := 0
  invB : Nat := 0
  nfA : Nat := 0
  nfG : Nat := 0
  nanF : Bool := false
  nanB : Bool := false
  satA : Bool := false
  satG : Bool := false
  satR : Bool := false
  owned : Bool := false
  updAmax : W32 := 0
  deriving DecidableEq, Repr

/-- A part of a descriptor on a unit (R389). -/
structure PartState where
  unit : Nat
  slots : List Slot
  /-- How its slots were started, for a replay (R433). -/
  starts : List SlotStart := []
  lo : Nat
  hi : Nat
  failed : Bool
  /-- Read and write ranges recorded at placement (R433). -/
  reads : List (Nat × Nat)
  writes : List (Nat × Nat)
  /-- What the part has to add to the watch blocks, by step and layer; added once, when it completes (R172, R188). -/
  watch : Tab WatchBlock := []
  /-- Handles that it holds in its core's accumulator store (R206, R379). -/
  handles : List Nat := []
  /-- Its own tallies; the descriptor takes them over when the part completes (R390). -/
  tallies : Tallies := {}
  /-- It was stopped by an abort or a teardown before it had completed (R392). -/
  cut : Bool := false
  /-- An update has written what it reads while it runs: the values that it leaves are undefined (R283). -/
  spoiled : Bool := false
  deriving DecidableEq, Repr

/-- How far a descriptor has come. -/
inductive DescPhase where
  /-- Accepted and checked for form; not started. -/
  | waiting
  /-- Started: its parts are placed or its marks are armed. -/
  | running
  /-- Every part has ended; an amax pass awaits its merge, an UNMAP its completion. -/
  | finishing
  /-- Its record is due, and finds no room while the CXL link is down (R396). -/
  | recordDue
  deriving DecidableEq, Repr

/-- The statistics that the parts of an amax pass leave for its merge (R142 to R144). -/
structure AmaxStats where
  nblk : Nat := 0
  tamax : Nat := 0
  hist : Tab Nat := []
  camax : Tab Nat := []
  deriving DecidableEq, Repr

/-- A descriptor that has been accepted and has no record yet (R375). -/
structure DescState where
  words : List W64 := []
  phase : DescPhase := .waiting
  ctx : Ctx := 0
  /-- The argument block's words, read when the descriptor started. -/
  args : List W64 := []
  status : BitVec 16 := 0
  parts : List PartState := []
  ended : List PartState := []
  tallies : Tallies := {}
  results : Tab W64 := []
  /-- An ABORT or CLOSE has won at the completion writer (R392, R393), and when. -/
  stopping : Option (BitVec 16) := none
  stopAt : Nat := 0
  armed : Bool := false
  rung : Option Nat := none
  shares : Nat := 0
  /-- Resolved sources of a layer reference (R384). -/
  live : Tab W64 := []
  /-- The amax summary as it was read when the descriptor started (R147, R149, R166); empty where it reads none. -/
  head : List Byte := []
  amax : AmaxStats := {}
  deriving DecidableEq, Repr

/-- A completion record that waits for the CXL link (R396): its queue, its number, its bytes. -/
structure HeldRecord where
  desc : DescId
  record : List Byte
  report : Option (Nat × List Byte)
  irq : Bool
  deriving DecidableEq, Repr

/-- The queue manager and the CXL port (R366 to R396). -/
structure QmgState where
  csel : Ctx := 0
  gsel : Fin 1024 := 0
  qsel : Queue := 0
  ctxs : Tab CtxState := []
  /-- Queue groups: owner and VALID (R372). -/
  groups : Tab (Ctx × Bool) := []
  queues : Tab QueueState := []
  descs : Tab DescState := []
  cxlUp : Bool := false
  /-- The port's own link is up, whether or not an integrity failure makes it count as down (R483). -/
  portUp : Bool := false
  /-- The queue whose turn it is at the fetch, and the descriptors fetched in this turn (R374). -/
  turn : Option (Queue × Nat) := none
  held : List HeldRecord := []
  inc : BitVec 8 := 0
  progress : Nat := 0
  hangs : List Nat := []
  deriving DecidableEq, Repr

/-! ### Links and switches (chapters 11, 12) -/

/-- States of a link (R320). -/
inductive LinkPhase where
  | off
  | detect
  | train
  | hold
  | run
  | down
  deriving DecidableEq, Repr

/-- The contents of one ring buffer: through packets of one frame, or one entered packet (R327). -/
structure RingBuf where
  packets : List Packet
  reserve : Bool
  deriving DecidableEq, Repr

/-- A held frame of a replay buffer: its SEQ and its contents (R312). -/
structure HeldFrame where
  seq : BitVec 7
  buf : RingBuf
  replays : Nat
  deriving DecidableEq, Repr

/-- A link (R308 to R325). -/
structure LinkState where
  target : BitVec 2 := 0
  phase : LinkPhase := .off
  /-- Step of the bring-up of R321, 1 to 6, and when it began. -/
  step : Nat := 0
  stepAt : Nat := 0
  partnerHold : Bool := false
  reason : BitVec 3 := 0
  lastRx : BitVec 7 := 0
  lastAck : BitVec 7 := 0
  nextSeq : BitVec 7 := 0
  held : List HeldFrame := []
  /-- Held frames still to be resent in the replay under way (R312). -/
  resend : List (BitVec 7) := []
  /-- A NAK read before this time, with the ACK of the replay under way, answers frames sent before that replay (R313). -/
  replayUntil : Nat := 0
  /-- The ACK of the NAK that started the replay under way. -/
  replayAck : BitVec 7 := 0
  /-- This receiver asks for a replay (R312). -/
  nakDue : Bool := false
  /-- Failed replays of the SEQ that is awaited (R314). -/
  failures : Nat := 0
  indoubt : List (BitVec 7 × Nat) := []
  degraded : Bool := false
  offsets : List Int := []
  delays : List Int := []
  exch : Nat := 0
  /-- Consecutive codewords of step 3 without an uncorrectable one (R321). -/
  trainGood : Nat := 0
  /-- Step 4 has been passed since the link came up (R321). -/
  settled : Bool := false
  lastAlive : Nat := 0
  /-- The sixteenths of a tick at which the last good alive sequence was received (R317). -/
  aliveFrac : BitVec 4 := 0
  sentAlive : Nat := 0
  aseq : BitVec 8 := 0
  /-- Transmit stamps of sequences that the partner may still echo, and its last good sequence. -/
  txStamps : Tab (BitVec 36) := []
  echoSeq : BitVec 8 := 0
  echoRx : BitVec 36 := 0
  fecCw : Nat := 0
  fecCorrCw : Nat := 0
  fecCorrSym : Nat := 0
  fecUncorr : Nat := 0
  replay : Nat := 0
  replay2 : Nat := 0
  dupDrop : Nat := 0
  aliveBad : Nat := 0
  loss : Nat := 0
  indoubtPkts : Nat := 0
  lossDiscard : Nat := 0
  resolveBad : Nat := 0
  /-- FEC_CW and FEC_CORR_SYM at the start of the error window of R324. -/
  berCw : Nat := 0
  berSym : Nat := 0
  berAt : Nat := 0
  /-- Ignored TARGET writes of a disabled link (R321). -/
  targetIgn : Nat := 0
  deriving DecidableEq, Repr

/-- A packet that waits at an exit for its arbitration (R336). -/
structure Cand where
  packet : Packet
  /-- The ring it arrived on; none for an injection. -/
  ring : Option Ring
  arrived : Nat
  deriving DecidableEq, Repr

/-- A reservation held at an exit (R337). -/
structure Reservation where
  job : BitVec 3
  src : BitVec 16
  msg : W32
  offset : W32
  kind : BitVec 3
  dst : BitVec 16
  made : Nat
  len : Nat
  /-- A buffer is held for it. -/
  held : Bool
  /-- At a delivery exit: the packet is the first of its message, and a receive-table entry goes with the buffer (R337). -/
  first : Bool := false
  deriving DecidableEq, Repr

/-- A ring at this module (R327, R349). -/
structure RingState where
  thru : List RingBuf := []
  entered : List RingBuf := []
  rsv : List Reservation := []
  /-- Broken by the loss of the link on which the ring arrives, and of the link on which it leaves (R347). -/
  brokenIn : Bool := false
  brokenOut : Bool := false
  cand : List Cand := []
  deriving DecidableEq, Repr

/-- What a message was sent for. -/
inductive SendOwner where
  | slotMove (t : Slot)
  | hostMove (d : DescId)
  | ack
  | coll (d : DescId) (entry : Nat)
  | secure (j : Job) (stream : Nat)
  | restore (j : Job)
  /-- A stream sent back to the module that asked for it (R421). -/
  | back (j : Job) (src : BitVec 16) (stream : Nat)
  deriving DecidableEq, Repr

/-- A message being sent or awaiting its ACK (R344, R346). -/
structure SendMsg where
  owner : SendOwner
  job : Job
  ctx : Ctx
  dst : BitVec 16
  len : Nat
  /-- Packets not yet entered into a first ring. -/
  waiting : Nat
  injectedAt : Nat
  acked : Bool
  /-- Closed without an ACK: NO_ROUTE, ROUTE_BROKEN or stale. -/
  failed : Bool
  deriving DecidableEq, Repr

/-- An open message at the receiver (R345). -/
structure RecvMsg where
  job : Job
  src : BitVec 16
  msg : W32
  len : Nat
  count : Nat
  dst : W64
  /-- Set aside for a collective's RECV entry (R339, R358). -/
  coll : Option (DescId × Nat)
  deriving DecidableEq, Repr

/-- A link die: its switch counters and its link DMA (R28, R335, R344 to R348). -/
structure DieState where
  injected : Nat := 0
  delivered : Nat := 0
  hcrcDiscard : Nat := 0
  epochDiscard : Nat := 0
  brokenDiscard : Nat := 0
  ringOverrun : Nat := 0
  genDrop : Nat := 0
  msgRange : Nat := 0
  resetDiscard : Nat := 0
  deflect : Nat := 0
  madeSenior : Nat := 0
  seniorNores : Nat := 0
  cand : List Cand := []
  rsv : List Reservation := []
  /-- Packets granted at the delivery exit, oldest first, whose payload is not written yet. -/
  dbufs : List Packet := []
  sends : Tab SendMsg := []
  recvs : List RecvMsg := []
  inc : BitVec 8 := 0
  inReset : Bool := false
  /-- Until when a reset of this link DMA keeps the delivery exits busy (R339, R434). -/
  busyUntil : Nat := 0
  progress : Nat := 0
  hangs : List Nat := []
  deriving DecidableEq, Repr

/-- The LNK block and the fabric (R326 to R350). -/
structure LnkState where
  enable : W32 := 0
  links : Tab LinkState := []
  rings : Tab RingState := []
  dies : Tab DieState := []
  deriving DecidableEq, Repr

/-! ### The gauge and collectives (chapter 13) -/

/-- The gauge (R351 to R356). -/
structure GauState where
  /-- Edges of the oscillator since power-on: the model's own clock for every rule that states a time. -/
  edges : Nat := 0
  count : W64 := 0
  syncArm : Bool := false
  /-- A GAUGE_SYNC pulse has come; the next reference edge loads (R352). -/
  syncPulse : Bool := false
  joinLink : Link := 0
  steerEn : Bool := false
  syncv : W64 := 0
  valid : Bool := false
  /-- ALIGNED as last judged, to find its falls (R356). -/
  aligned : Bool := false
  refOk : Bool := false
  /-- Edges since the reference was last seen, and good periods seen since it came back. -/
  holdoverAt : Option Nat := none
  partners : Nat := 0
  mean : Int := 0
  /-- The next edge counts 0 or 2 (R354). -/
  step : Option Bool := none
  steeredAt : Nat := 0
  steerUp : Nat := 0
  steerDown : Nat := 0
  slotsLate : Nat := 0
  ranksLate : Nat := 0
  shifts : Nat := 0
  excluded : Nat := 0
  deriving DecidableEq, Repr

/-- One entry of a schedule's entry table, with what has become of it (R357, R358). -/
structure CollEntry where
  sendAddr : W64
  accAddr : W64
  len : Nat
  stgOff : Nat
  dst : BitVec 16
  src : BitVec 16
  slot : Nat
  send : Bool
  recv : Bool
  /-- SEND: its message number, once its slot has opened. -/
  msg : Option W32
  /-- RECV: complete and combined; excluded; judged late. -/
  complete : Bool
  excluded : Bool
  late : Bool
  deriving DecidableEq, Repr

/-- A schedule armed or running on this module (R357 to R363). -/
structure CollState where
  job : Job
  base : W64
  op : Nat
  exclude : Bool
  bound : Nat
  shift : Nat
  endOff : Nat
  nranks : Nat
  combineSc : BitVec 16
  doneSc : BitVec 16
  staging : W64
  slots : List (Nat × Nat)
  entries : List CollEntry
  fired : Bool
  missed : Bool
  shifted : Bool
  /-- The entry that took the shift, and its slot (R362). -/
  shiftEntry : Nat
  shiftSlot : Nat
  /-- DONE_SC as it stood at BASE (R358). -/
  doneBase : W32
  /-- Slots opened, and slot marks judged, so far. -/
  opened : Nat
  marked : Nat
  /-- Ranks of the late map, ascending. -/
  late : List Nat
  /-- A source or a table could not be read (R296). -/
  fault : Bool
  deriving DecidableEq, Repr

/-! ### Jobs: routes, ladder, watch blocks, commit, securing (chapters 06, 09, 12, 15) -/

/-- A route-epoch change under way (R342). -/
structure RouteChange where
  desc : DescId
  epoch : BitVec 2
  mark : W64
  bmax : Nat
  table : List (W64 × W64)
  ringLen : List Nat
  staged : Bool
  switched : Bool
  deriving DecidableEq, Repr

/-- A ladder policy (R178). -/
structure Policy where
  jumpLog2 : Nat
  alphaLog2 : Nat
  warmup : Nat
  reseed : Nat
  ovfShift : Nat
  floor : Nat
  ceil : Nat
  ladderEn : Bool
  ratioEn : Bool
  lrscaleEn : Bool
  init : Bool
  hold : Nat
  maxRaised : Nat
  nlayers : Nat
  ratioLo : W64
  ratioHi : W64
  effective : W32
  /-- Override byte of each layer, empty where OVERRIDE_ADDR is 0. -/
  overrides : List Byte
  deriving DecidableEq, Repr

/-- A ladder state record (R180). -/
structure LadderRec where
  rungF : Nat := 0
  rungB : Nat := 0
  streakA : Nat := 0
  streakG : Nat := 0
  holdF : W32 := 0
  holdB : W32 := 0
  obsA : Nat := 0
  obsG : Nat := 0
  meanA : W64 := 0
  meanG : W64 := 0
  kshift : Int := 0
  lastF : Nat := 0
  lastB : Nat := 0
  step : W32 := 0
  ups : Nat := 0
  downs : Nat := 0
  capped : Nat := 0
  deriving DecidableEq, Repr

/-- A vote block (R275). The map is the list of ready ranks, ascending. -/
structure VoteBlock where
  loStep : W32 := 0xFFFFFFFF
  loRank : W32 := 0xFFFFFFFF
  loEpoch : W64 := 0xFFFFFFFFFFFFFFFF
  loDigest : W64 := 0xFFFFFFFFFFFFFFFF
  hiStep : W32 := 0
  hiRank : W32 := 0xFFFFFFFF
  hiEpoch : W64 := 0
  hiDigest : W64 := 0
  readyCount : W32 := 0
  voters : W32 := 0
  readyMap : List Nat := []
  deriving DecidableEq, Repr

/-- What the commit comparator is armed with (R276). -/
inductive CommitAction where
  | undecided
  | write
  | discard
  deriving DecidableEq, Repr

/-- A COMMIT under way (R273 to R282). -/
structure CommitState where
  desc : DescId
  step : W32
  epoch : W32
  voteMark : W64
  commitMark : W64
  sched : W64
  counts : List Nat
  checkOk : Bool
  action : CommitAction
  /-- The module contributed as ready at V. -/
  voted : Option Bool
  block : Option VoteBlock
  voteFlagged : Bool
  reasons : BitVec 8
  deriving DecidableEq, Repr

/-- The shadow ladder table and what goes with it (R181, R184, R186). -/
structure Shadow where
  step : W32
  copy : Bool
  recs : List LadderRec
  digest : W64
  policy : Option Policy
  ready : Bool
  deriving DecidableEq, Repr

/-- One outgoing stream of a securing point (R398, R408). -/
structure Stream where
  /-- Phase: 0 idle, 1 zero record sent, 2 data sent, 3 snapshot record sent, 4 sealed. -/
  phase : Nat := 0
  bytes : Nat := 0
  /-- Area that takes the record, offset of the record in it, quick slot (0xFF: none) (R412). -/
  area : Nat := 0
  off : Nat := 0
  quick : Nat := 0xFF
  /-- The snapshot record that will seal it. -/
  record : List Byte := []
  chainFull : Bool := false
  /-- Messages dealt to the routes so far (R398). -/
  dealt : Nat := 0
  deriving DecidableEq, Repr

/-- A securing unit of the plan (R401), with its method as last chosen and its stream (R403). -/
structure SecUnit where
  kind : Nat
  force : Nat
  stream : Nat
  layer : Nat
  width : Nat
  slots : W64
  rows : Nat
  journal : Bool
  bytes : Nat
  deriving DecidableEq, Repr

/-- An incoming stream's region of the secure reserve (R401, R412). -/
structure Incoming where
  src : BitVec 16
  stream : Nat
  offset : Nat
  baseBytes : Nat
  chainBytes : Nat
  quickBytes : Nat
  deriving DecidableEq, Repr

/-- A securing point under way (R406 to R411). -/
structure Point where
  desc : DescId
  full : Bool
  step : W32
  start : W64
  endMark : W64
  started : Bool
  stopTicks : Nat
  streams : List Stream
  keepFailed : Bool
  deriving DecidableEq, Repr

/-- What the plan's points have left at the target of a stream: the step last secured, the bytes used in the chain of the
current slot, and the quick slot last named (R414). Which slot is current is what the target's records say. -/
structure PlanStream where
  last : Option W32 := none
  off : Nat := 0
  quick : Nat := 0xFF
  deriving DecidableEq, Repr

/-- The securing plan of a job (R400). -/
structure Plan where
  step : W32
  depth : Nat
  stageAddr : W64
  stageBytes : W64
  jratio : W64
  splitBytes : W64
  targets : List (BitVec 16)
  routes : List (List (W64 × W64))
  units : List SecUnit
  incoming : List Incoming
  keepAddr : W64
  keepBytes : W64
  /-- Points of the plan so far. -/
  seq : W64
  streams : List PlanStream
  /-- The keep half that the last point used, and the step held in each half. -/
  keepHalf : Bool
  keepSteps : Tab Nat
  deriving DecidableEq, Repr

/-- A restore under way (R421): what has come back, by stream, area and offset; by stream the messages received and how
many there are; a stream that has no such point; a stream that failed. -/
structure Restore where
  desc : DescId
  step : W32
  start : W64
  buf : Bank
  got : Tab Nat
  total : Tab Nat
  missing : Bool
  failed : Bool
  deriving DecidableEq, Repr

/-- A request of a source module to have a stream sent back from a gauge mark on (R421). -/
structure Asked where
  src : BitVec 16
  stream : Nat
  step : W32
  start : W64
  /-- Once it is being sent back: how many messages that takes. -/
  sent : Option Nat := none
  deriving DecidableEq, Repr

/-- Inverse roots of a plane-rule layer whose computation has ended (R270 to R272): record index, root step, whether it
succeeded, which of two sets of the root area holds them, and the damped attempts to be counted. -/
structure RootRun where
  layer : Nat
  step : W32
  ok : Bool
  set : Bool
  retry : Nat
  /-- ROOT_N: the roots are in force from step + n on. -/
  n : Nat
  deriving DecidableEq, Repr

/-- A root step of a plane-rule layer (R270): its shape and hyperparameters; computing since its statistics were copied. -/
structure RootDue where
  /-- The panel whose update engine issues the work, and on whose matrix engines it runs (R38). -/
  panel : Panel
  layer : Nat
  step : W32
  rows : Nat
  cols : Nat
  blockL : Nat
  blockR : Nat
  p : Nat
  iters : Nat
  n : Nat
  damp : W32
  tol : W32
  computing : Bool
  deriving DecidableEq, Repr

/-- A journal record in the staging area (R404): step, unit, offset in its staging slot, bytes. -/
structure Staged where
  step : W32
  unit : Nat
  off : Nat
  bytes : Nat
  deriving DecidableEq, Repr

/-- A fabric job at this module (R300, R340 to R343, R382). -/
structure JobState where
  resident : Bool := false
  ctx : Ctx := 0
  gen : BitVec 8 := 0
  myRank : BitVec 16 := 0
  nranks : Nat := 0
  /-- The number of the next message of the job that this module sends (R332). -/
  nextMsg : W32 := 0
  update : W64 := 0
  updateSize : W64 := 0
  ladder : W64 := 0
  vote : W64 := 0
  watch : W64 := 0
  live : BitVec 2 := 0
  prev : BitVec 2 := 0
  drainMark : Option W64 := none
  bmax : Nat := 0
  table : List (W64 × W64) := []
  ringLen : Tab (List Nat) := []
  change : Option RouteChange := none
  /-- The windows of the COLLs accepted so far, first and last gauge count (R360). -/
  windows : List (Nat × Nat) := []
  policy : Option Policy := none
  policies : List Policy := []
  watchBlocks : Tab WatchBlock := []
  /-- The job-wide blocks of a step, once its watch all-reduce is complete, and whether it was flagged (R175). -/
  jobWide : Option (W32 × Bool) := none
  shadow : Option Shadow := none
  commit : Option CommitState := none
  /-- Update descriptors completed in the attempt, per panel: with OK, otherwise (R274). -/
  updStep : W32 := 0
  updOk : Tab Nat := []
  updBad : Tab Nat := []
  /-- Ranges of slot data, address and length, that the attempt's update descriptors have written (R283). -/
  written : List (Nat × Nat) := []
  tagLog : Tab Nat := []
  scrub : Bool := false
  plan : Option Plan := none
  point : Option Point := none
  restore : Option Restore := none
  /-- Streams that other modules have asked this one to send back (R421). -/
  asked : List Asked := []
  /-- Inverse roots of plane-rule layers, newest first, and those still due (R270 to R272). -/
  roots : List RootRun := []
  /-- Bytes of the statistics in a slot of a plane-rule layer, and so of a set of its roots, by record index (R256). -/
  shapes : Tab Nat := []
  rootDue : List RootDue := []
  /-- Journal records in the staging area, oldest first (R404). -/
  staged : List Staged := []
  deriving DecidableEq, Repr

/-- An update engine (R266, R434). -/
structure UpdState where
  inc : BitVec 8 := 0
  progress : Nat := 0
  hangs : List Nat := []
  deriving DecidableEq, Repr

/-! ### Hangs, resets, dumps (chapter 16) -/

/-- The input voltage and the temperatures from a time on (R439, R468). -/
structure SagSample where
  time : Nat
  vin : Nat
  temps : Tab Int
  deriving DecidableEq, Repr

/-- What a section of a crash dump holds: copies of the pieces of state that R439 names. -/
inductive DumpBody where
  | engine (e : EngState) (handles : Tab Handle)
  /-- A link DMA, an update engine or the queue manager: incarnation and progress. -/
  | unit (inc : BitVec 8) (progress : Nat)
  /-- Counters of cores, and the windows of their slots. -/
  | sync (first n : Nat) (t : Tab (Tab W32)) (windows : Tab (Nat × Nat))
  /-- Counters of a panel, and the contexts that own them. -/
  | panelSync (t : Tab W32) (owners : List (Nat × Nat))
  | slots (first n : Nat) (l : Tab SlotState)
  /-- One slot with its vector registers. -/
  | vectors (slot : Nat) (x : SlotState)
  | queues (first n : Nat) (l : Tab QueueState) (owners : Tab Nat)
  | accepted (l : List DescId)
  | contexts (first n : Nat) (l : Tab CtxState)
  | events (r : List EvRec)
  /-- The words of LNK.CNTn, SWCNTd, RSTr, EPJj and STATn, as software reads them. -/
  | links (l : List Nat)
  /-- Input voltage and sensors at times, newest first, and the rails in millivolts. -/
  | sag (l : List SagSample) (rails : List Nat)
  deriving DecidableEq, Repr

/-- A section of a dump (R438, R439). -/
structure DumpSect where
  type : BitVec 16
  unit : BitVec 16
  sub : BitVec 8
  len : Nat
  body : DumpBody
  deriving DecidableEq, Repr

/-- A crash dump (R437, R438). -/
structure Dump where
  rung : BitVec 8
  panel : Panel
  cause : BitVec 16
  source : BitVec 16
  seq : W64
  gauge : W64
  cycle : W64
  truncated : Bool
  shadow : Bool
  sects : List DumpSect
  deriving DecidableEq, Repr

/-- A rung that has been started and is not done: what it resets, when it began, the code and source of its cause. -/
structure RungRun where
  scope : RungScope
  since : Nat
  cause : BitVec 16
  source : BitVec 16
  deriving DecidableEq, Repr

/-- What the chip bench has read of the module's counters at a time (R324, R416). -/
structure RiskSample where
  time : Nat
  /-- GDDR7 corrected errors of the module. -/
  corr : Nat
  /-- FEC_UNCORR and REPLAY2 over all links. -/
  unc : Nat
  /-- LOSS over all links. -/
  loss : Nat
  /-- FEC_CW and FEC_CORR_SYM of every link. -/
  cw : List Nat
  sym : List Nat
  deriving DecidableEq, Repr

/-- The GLB block and the reset machinery (R417, R443, R493). -/
structure GlbState where
  accErr : W32 := 0
  accLast : BitVec 22 := 0
  lastRung : BitVec 3 := 0
  escWait : Bool := false
  score : BitVec 8 := 0
  cMem : BitVec 8 := 0
  cBer : BitVec 8 := 0
  cUnc : BitVec 8 := 0
  cVolt : BitVec 8 := 0
  cTemp : BitVec 8 := 0
  cNbr : BitVec 8 := 0
  maxScore : BitVec 8 := 0
  /-- The samples of the risk score that its windows still need, newest first (R416). -/
  riskLog : List RiskSample := []
  slotWin : BitVec 8 := 50
  queueWin : BitVec 8 := 50
  engineWin : BitVec 8 := 5
  replayEn : Bool := true
  autoEsc : Bool := true
  pwrCycleEn : Bool := true
  ctxRungs : BitVec 16 := 0
  engRungs : BitVec 16 := 0
  pnlRungs : BitVec 16 := 0
  chipRungs : BitVec 16 := 0
  lateDrop : W64 := 0
  dumpRegion : BitVec 2 := 0
  dumpPanel : BitVec 2 := 0
  dumpOffset : BitVec 10 := 0
  dumpAck : W64 := 0
  dumpSeq : W64 := 0
  /-- A panel's dump that waits in its shadow for the memory controllers to answer (R437). -/
  shadows : Tab Dump := []
  /-- Rungs in progress with the tick they began, and the ticks of recent chip rungs (R441). -/
  rungs : List RungRun := []
  /-- The power-cycle rung has been started and not carried out: its cause. -/
  powerRung : Option (BitVec 16) := none
  chipRungAt : List Nat := []
  /-- Faults that started a chip rung: their code and when (R441). -/
  chipFaults : List (Nat × Nat) := []
  deriving DecidableEq, Repr

/-! ### Power and thermal (chapter 17) -/

/-- A supply-sag stage or a sensor's stay: in force or not, and since when it has been good enough to leave. -/
structure StageState where
  inForce : Bool := false
  goodSince : Option Nat := none
  deriving DecidableEq, Repr

/-- A sensor: its last sample, its stage, and by stage since when it has stood 5 degrees below that threshold (R464). -/
structure SensorState where
  celsius : Int := 0
  stage : Nat := 0
  cool : Tab Nat := []
  deriving DecidableEq, Repr

/-- The PWR block, the pins and the supply (R452 to R468, R501 to R504). -/
structure PwrState where
  limit : Nat := 1600
  /-- Input voltage in 1/256 V: 54 V nominal (log entry 49). -/
  vin : Nat := 13824
  pin : Nat := 0
  /-- Supply-sag stages 1 to 5, by number. -/
  sag : Tab StageState := []
  sensors : Tab SensorState := []
  /-- Matrix point that the limit control sets, per panel (R457). -/
  limitOp : Tab (Fin 5) := []
  belowSince : Option Nat := none
  peakCap : Bool := false
  peakBelow : Option Nat := none
  excursionCap : Bool := false
  panelW : Tab Nat := []
  drillMark : W64 := 0
  dstage : BitVec 3 := 0
  drillLen : BitVec 24 := 0
  drillOn : Bool := false
  drillFrom : W64 := 0
  /-- Stage and length of the drill that is armed. -/
  armedStage : BitVec 3 := 0
  armedLen : BitVec 24 := 0
  /-- Stage and length of the drill that runs. -/
  runStage : BitVec 3 := 0
  runLen : BitVec 24 := 0
  /-- Input voltage and sensors of the last millisecond, newest first (R439, R468). -/
  samples : List SagSample := []
  sagCnt : Tab Nat := []
  thermCnt : Tab Nat := []
  drills : Nat := 0
  drillMissed : Nat := 0
  /-- Ticks in which R452 or R457 held a clock below P0, for LIMIT_US (R468). -/
  limitTicks : Nat := 0
  /-- Stage 5: a source holds it, its dump's header is written (R461). -/
  stage5 : Bool := false
  pwrGood : Bool := true
  powerOffAt : Option Nat := none
  /-- Since when the input has stood in the operating range (R462). -/
  vinGoodSince : Option Nat := none
  thermTrip : Bool := false
  pwrCycleReq : Bool := false
  perst : Bool := true
  /-- J3 is mated, so that PRESENT# reads low (R503, log entry 133). -/
  j3Mated : Bool := true
  /-- FLASH_WP#: deasserted until FLASH_WP_ASSERT (log entry 55). -/
  flashWp : Bool := false
  deriving DecidableEq, Repr

/-! ### Boot and security (chapter 18) -/

/-- A selector copy (R473). -/
structure Selector where
  seq : W64
  active : Bool
  try_ : Bool
  attempted : Bool
  deriving DecidableEq, Repr

/-- The fuses (R471, R474, R476, R481). -/
structure Fuses where
  root : Tab (List Byte) := []
  revoked : BitVec 4 := 0
  owner : Tab (List Byte) := []
  svn : W64 := 0
  secret : BitVec 512 := 0
  certDigest : List Byte := []
  deriving DecidableEq, Repr

/-- CFG_STATE of SEC.BOOTSTAT (R485), and the states before it. -/
inductive BootPhase where
  | reset
  | checking
  | locked
  | refused
  | recovery
  deriving DecidableEq, Repr

/-- An SPDM session (R482). -/
structure Session where
  sid : W32
  established : Bool
  keyGen : Nat
  /-- The secret that the key exchange gave (R482). -/
  secret : List Byte
  deriving DecidableEq, Repr

/-- An IDE key slot's content: the key, and whether the set is active (R483). -/
structure IdeKey where
  slot : IdeKeySlot
  key : BitVec 256
  go : Bool
  deriving DecidableEq, Repr

/-- A write of the flash for a mailbox request that still runs (R480, R486): where and what, since when, for how long. -/
structure FlashJob where
  tag : W32
  base : Nat
  data : List Byte
  since : Nat
  span : Nat
  deriving DecidableEq, Repr

/-- The security block (R470 to R486). -/
structure SecState where
  boot : BootPhase := .reset
  slotB : Bool := false
  fwFallback : Bool := false
  tryRun : Bool := false
  cfgReason : BitVec 3 := 0
  cfgFallback : Bool := false
  lock : Bool := false
  debugOpen : Bool := false
  fwVersion : W32 := 0
  fwSvn : BitVec 7 := 0
  cfgSeq : W64 := 0
  lockViol : W64 := 0
  regions : Tab W64 := []
  bindsel : Ctx := 0
  bind : Tab W64 := []
  protDebug : Byte := 0
  protIde : Byte := 0
  ioSecure : Bool := false
  cmSecure : Bool := false
  ideFail : W32 := 0
  fuses : Fuses := {}
  nonce : Option (BitVec 256) := none
  meas : Tab (List Byte) := []
  sessions : List Session := []
  ideKeys : List IdeKey := []
  sealed_ : Bool := false
  /-- The CXL link is treated as down since an integrity failure of a stream (R483). -/
  ioBroken : Bool := false
  cmBroken : Bool := false
  /-- The mailbox request that still writes the flash. -/
  flashJob : Option FlashJob := none
  deriving DecidableEq, Repr

/-! ### What the block drives onto its ports -/

/-- What the block has sent or answered: the model's own record of its outputs, newest last. -/
inductive Output where
  | msix (vector : BitVec 11)
  | hdmData (unit : Nat) (data : List Byte) (poison : Bool)
  | snoopMiss (addr : W64)
  | frame (l : Link) (f : Frame)
  | alive (l : Link) (a : AliveSeq)
  | idle (l : Link)
  | mctp (r : EvRec)
  /-- An MCTP heartbeat, from the security block alone or from the chip bench (R504). -/
  | heartbeat (security : Bool)
  | mail (tag : W32) (result : BitVec 16) (payload : List Byte)
  | spdm (ok : Bool) (payload : List Byte)
  | bar0 (data : W64)
  deriving DecidableEq, Repr

/-! ### The whole -/

/-- The state of the block. -/
structure State where
  pending : List Instr := []
  /-- How many free values have been drawn (the model's own). -/
  free : Nat := 0
  mem : MemState := {}
  slots : Tab SlotState := []
  cores : Tab CoreState := []
  panels : Tab PanelState := []
  upd : Tab UpdState := []
  qmg : QmgState := {}
  lnk : LnkState := {}
  gau : GauState := {}
  colls : Tab CollState := []
  jobs : Tab JobState := []
  glb : GlbState := {}
  pwr : PwrState := {}
  sec : SecState := {}
  ev : EvState := {}
  out : List Output := []
  deriving DecidableEq, Repr

/-- Why a command stops the machine. -/
inductive Fault where
  /-- Raised by PATROL_SCRUB for an address that names no memory (R294): the scrub visits data units only, so no such
  command can come from the device. Safe: the machine stops where the hardware has no such step. -/
  | noMemory (pa : Nat)
  deriving DecidableEq, Repr

/-- Why a command is refused. -/
inductive Refusal where
  /-- Raised by the dispatch for a command that has no meaning in the model yet. Safe. -/
  | notModelled (mnemonic : String)
  deriving DecidableEq, Repr

/-- The module right after reset: every register at the value the spec states, every memory with nothing listed. -/
def State.reset : State := {}

end Sys2Proof.Machine
end

