-- ==== Sys2Proof/Machine/Ops.lean ====
section
/-!
DEFINITION. Named operations over the state that every family shares: sparse tables, byte order, memories, the accessors of
each part of the state, free values, saturating counters and times.
-/

namespace Sys2Proof.Machine

open Sys2Proof

/-! ### Bit fields and byte order (R7) -/

/-- Bits [lo + len - 1 : lo] of x. -/
def fld (x lo len : Nat) : Nat := x / 2 ^ lo % 2 ^ len

/-- Bit i of x. -/
def bit (x i : Nat) : Bool := x / 2 ^ i % 2 == 1

/-- A bit as a number. -/
def bnat (b : Bool) : Nat := if b then 1 else 0

/-- Two's complement reading of the low n bits of x. -/
def toSigned (n x : Nat) : Int :=
  let y := x % 2 ^ n
  if 2 * y < 2 ^ n then (y : Int) else (y : Int) - (2 ^ n : Nat)

/-- The low n bits of an integer. -/
def ofSigned (n : Nat) (x : Int) : Nat := (x % ((2 ^ n : Nat) : Int)).toNat

/-- The low n bytes of v, least significant first (R7). -/
def leBytes : Nat → Nat → List Byte
  | 0, _ => []
  | n + 1, v => BitVec.ofNat 8 v :: leBytes n (v / 256)

/-- The number that bytes hold, least significant first (R7). -/
def ofLE : List Byte → Nat
  | [] => 0
  | b :: t => b.toNat + 256 * ofLE t

/-- A list cut or filled with zero bytes to n. -/
def padTo (n : Nat) (l : List Byte) : List Byte := l.take n ++ List.replicate (n - l.length) 0

/-- Words of 64 bits, little-endian. -/
def wordBytes : List Nat → List Byte
  | [] => []
  | w :: t => leBytes 8 w ++ wordBytes t

/-- The first n 64-bit words of a byte list. -/
def wordsOf : Nat → List Byte → List Nat
  | 0, _ => []
  | n + 1, l => ofLE (l.take 8) :: wordsOf n (l.drop 8)

/-- Element i of a list of numbers, 0 beyond its end. -/
def nth (l : List Nat) (i : Nat) : Nat := l.getD i 0

/-- The quotient rounded up. -/
def ceilDiv (a b : Nat) : Nat := (a + b - 1) / b

/-- a rounded up to a multiple of b. -/
def roundUp (a b : Nat) : Nat := ceilDiv a b * b

/-- Saturating 32-bit counter (R60). -/
def sat32 (n : Nat) : Nat := min n 0xFFFFFFFF
/-- A 64-bit count that stops at its greatest value (R496). -/
def sat64 (n : Nat) : Nat := min n 0xFFFFFFFFFFFFFFFF

/-- The numbers lo, lo + 1, … of a range of n. -/
def rangeFrom : Nat → Nat → List Nat
  | _, 0 => []
  | lo, n + 1 => lo :: rangeFrom (lo + 1) n

/-! ### Sparse tables -/

/-- The entry of index k, or the reset value d. -/
def tabGet {α : Type} (d : α) : Tab α → Nat → α
  | [], _ => d
  | (k', v) :: t, k => if k' = k then v else tabGet d t k

/-- Puts an entry at its place in the ascending order. -/
def tabInsert {α : Type} (k : Nat) (v : α) : Tab α → Tab α
  | [] => [(k, v)]
  | (k', v') :: t => if k < k' then (k, v) :: (k', v') :: t else (k', v') :: tabInsert k v t

/-- Takes index k out of the table. -/
def tabErase {α : Type} (t : Tab α) (k : Nat) : Tab α := t.filter fun p => p.1 ≠ k

/-- The table with v at index k; an entry equal to the reset value d is not listed. -/
def tabSet {α : Type} [DecidableEq α] (d : α) (t : Tab α) (k : Nat) (v : α) : Tab α :=
  if v = d then tabErase t k else tabInsert k v (tabErase t k)

/-- The entry of index k, if one is listed. -/
def tabFind {α : Type} : Tab α → Nat → Option α
  | [], _ => none
  | (k', v) :: t, k => if k' = k then some v else tabFind t k

/-- The table with v listed at index k, whatever v is. -/
def tabPut {α : Type} (t : Tab α) (k : Nat) (v : α) : Tab α := tabInsert k v (tabErase t k)

/-- A set of numbers, ascending, with k in it. -/
def setInsert : List Nat → Nat → List Nat
  | [], k => [k]
  | x :: t, k => if k < x then k :: x :: t else if k = x then x :: t else x :: setInsert t k

/-- The canonical form of a table: strictly ascending indices, no entry equal to the reset value. -/
def tabWf {α : Type} [DecidableEq α] (d : α) : Tab α → Bool
  | [] => true
  | (_, v) :: [] => decide (v ≠ d)
  | (k, v) :: (k', v') :: t => decide (k < k') && decide (v ≠ d) && tabWf d ((k', v') :: t)

/-! ### Memories -/

/-- The byte at address a; a byte that nothing has written reads as 0 (log entry 1, DESIGN CHOICE). -/
def readByte (b : Bank) (a : Nat) : Byte := tabGet 0 b.cells a

/-- The bank with the byte at address a written. -/
def writeByte (b : Bank) (a : Nat) (v : Byte) : Bank := { b with cells := tabSet 0 b.cells a v }

/-- n bytes from address a on. -/
def readBytes (b : Bank) : Nat → Nat → List Byte
  | _, 0 => []
  | a, n + 1 => readByte b a :: readBytes b (a + 1) n

/-- Writes a list of bytes from address a on. -/
def writeBytes (b : Bank) : Nat → List Byte → Bank
  | _, [] => b
  | a, v :: t => writeBytes (writeByte b a v) (a + 1) t

/-- A little-endian number of n bytes at address a. -/
def readNat (b : Bank) (a n : Nat) : Nat := ofLE (readBytes b a n)

/-- The 64-byte units that n bytes at address a touch (R292). -/
def unitsOf (a n : Nat) : List Nat := if n = 0 then [] else rangeFrom (a / 64) ((a + n - 1) / 64 - a / 64 + 1)

/-- The memory's canonical form: bytes and marks at ascending places, none equal to what an unlisted place reads as. -/
def Bank.wf (b : Bank) : Bool := tabWf 0 b.cells

/-- Every memory of the module has its canonical form. -/
def MemState.wf (m : MemState) : Bool := m.gddr.wf && m.bench.wf && m.pstore.wf && m.host.wf && m.flash.wf && m.secSram.wf && m.linkFw.wf

/-- Whether any unit that n bytes at address a touch carries poison (R292). -/
def poisoned (b : Bank) (a n : Nat) : Bool := (unitsOf a n).any fun u => b.poison.contains u

/-- How many units that n bytes at address a touch carry poison. -/
def poisonCount (b : Bank) (a n : Nat) : Nat := ((unitsOf a n).filter fun u => b.poison.contains u).length

/-- Marks the units that n bytes at address a touch as poisoned. -/
def setPoison (b : Bank) (a n : Nat) : Bank := { b with poison := (unitsOf a n).foldl setInsert b.poison }

/-- Clears the poison of every unit that n bytes at address a fill whole (R292). -/
def clearWhole (b : Bank) (a n : Nat) : Bank :=
  { b with poison := b.poison.filter fun u => ¬ (a ≤ 64 * u ∧ 64 * u + 64 ≤ a + n) }

/-- A write of data into a bank: the bytes are written, units filled whole lose their poison, and poisoned data poisons every
unit that it touches (R292). -/
def bankWrite (b : Bank) (a : Nat) (data : List Byte) (bad : Bool := false) : Bank :=
  let b := clearWhole (writeBytes b a data) a data.length
  if bad then setPoison b a data.length else b

/-! ### The parts of the state -/

def State.slot (s : State) (t : Slot) : SlotState := tabGet {} s.slots t.val
def State.setSlot (s : State) (t : Slot) (x : SlotState) : State := { s with slots := tabSet {} s.slots t.val x }
def State.core (s : State) (c : Core) : CoreState := tabGet {} s.cores c.val
def State.setCore (s : State) (c : Core) (x : CoreState) : State := { s with cores := tabSet {} s.cores c.val x }
def State.panel (s : State) (p : Panel) : PanelState := tabGet {} s.panels p.val
def State.setPanel (s : State) (p : Panel) (x : PanelState) : State := { s with panels := tabSet {} s.panels p.val x }
def State.updEngine (s : State) (p : Panel) : UpdState := tabGet {} s.upd p.val
def State.setUpdEngine (s : State) (p : Panel) (x : UpdState) : State := { s with upd := tabSet {} s.upd p.val x }
def State.ctx (s : State) (c : Ctx) : CtxState := tabGet {} s.qmg.ctxs c.val
def State.setCtx (s : State) (c : Ctx) (x : CtxState) : State :=
  { s with qmg := { s.qmg with ctxs := tabSet {} s.qmg.ctxs c.val x } }
def updCtx (s : State) (c : Ctx) (g : CtxState → CtxState) : State := s.setCtx c (g (s.ctx c))
def State.queue (s : State) (q : Queue) : QueueState := tabGet {} s.qmg.queues q.val
def State.setQueue (s : State) (q : Queue) (x : QueueState) : State :=
  { s with qmg := { s.qmg with queues := tabSet {} s.qmg.queues q.val x } }
def State.link (s : State) (l : Link) : LinkState := tabGet {} s.lnk.links l.val
def State.setLink (s : State) (l : Link) (x : LinkState) : State :=
  { s with lnk := { s.lnk with links := tabSet {} s.lnk.links l.val x } }
def State.ring (s : State) (r : Ring) : RingState := tabGet {} s.lnk.rings r.val
def State.setRing (s : State) (r : Ring) (x : RingState) : State :=
  { s with lnk := { s.lnk with rings := tabSet {} s.lnk.rings r.val x } }
def State.die (s : State) (d : Die) : DieState := tabGet {} s.lnk.dies d.val
def State.setDie (s : State) (d : Die) (x : DieState) : State :=
  { s with lnk := { s.lnk with dies := tabSet {} s.lnk.dies d.val x } }
def State.job (s : State) (j : Job) : JobState := tabGet {} s.jobs j.val
def State.setJob (s : State) (j : Job) (x : JobState) : State := { s with jobs := tabSet {} s.jobs j.val x }

/-- The key of a descriptor in the tables of descriptors and schedules. -/
def descKey (d : DescId) : Nat := d.q.val * 2 ^ 32 + d.n.toNat

def State.desc? (s : State) (d : DescId) : Option DescState := tabFind s.qmg.descs (descKey d)
def State.setDesc (s : State) (d : DescId) (x : DescState) : State :=
  { s with qmg := { s.qmg with descs := tabPut s.qmg.descs (descKey d) x } }
def State.dropDesc (s : State) (d : DescId) : State :=
  { s with qmg := { s.qmg with descs := tabErase s.qmg.descs (descKey d) } }
def State.coll? (s : State) (d : DescId) : Option CollState := tabFind s.colls (descKey d)
def State.setColl (s : State) (d : DescId) (x : CollState) : State := { s with colls := tabPut s.colls (descKey d) x }
def State.dropColl (s : State) (d : DescId) : State := { s with colls := tabErase s.colls (descKey d) }

/-- The panel of a core (R17). -/
def corePanel (c : Core) : Panel := ⟨c.val / 40, by omega⟩
/-- The core of a thread slot (R17). -/
def slotCore (t : Slot) : Core := ⟨t.val / 64, by omega⟩
/-- The panel of a thread slot (R17). -/
def slotPanel (t : Slot) : Panel := corePanel (slotCore t)
/-- The link die of a link: links 0 to 15 stand on die 0 (R18). -/
def linkDie (l : Link) : Die := ⟨l.val / 16, by omega⟩

def CoreState.eng (c : CoreState) : EngineKind → EngState
  | .matrix => c.matrix
  | .vector => c.vector
  | .mover => c.mover

def CoreState.setEng (c : CoreState) (k : EngineKind) (e : EngState) : CoreState :=
  match k with
  | .matrix => { c with matrix := e }
  | .vector => { c with vector := e }
  | .mover => { c with mover := e }

/-- Adds an output of the block. -/
def State.emit (s : State) (o : Output) : State := { s with out := s.out ++ [o] }

/-- The index of the next free value, and the state that has drawn it. -/
def State.draw (s : State) : Nat × State := (s.free, { s with free := s.free + 1 })

/-- With IDE_MODE = 2 the queue manager fetches nothing and no HDM access is served until every stream is secure (R483). -/
def ideOk (s : State) : Bool := s.sec.protIde != 2 || (s.sec.ioSecure && s.sec.cmSecure)

/-! ### Time (R13): the model's clock counts oscillator edges -/

/-- The edges counted so far. -/
def State.now (s : State) : Nat := s.gau.edges

/-- n microseconds in ticks, rounded up: 156.25 ticks each (R13). -/
def usTicks (n : Nat) : Nat := ceilDiv (n * 15625) 100

/-- n milliseconds in ticks (R13). -/
def msTicks (n : Nat) : Nat := n * 156250

/-- At least n ticks have passed since tick t. -/
def elapsed (s : State) (t n : Nat) : Bool := decide (t + n ≤ s.now)

/-- The number under which an event names a unit (R445). -/
def unitNum : UnitName → Nat
  | .update p => 162 + p.val
  | .linkDma d => 160 + d.val
  | .queueManager => 170

end Sys2Proof.Machine
end

