-- ==== Sys2Proof/Machine/Rsa.lean ====
section
/-!
DEFINITION. RSASSA-PSS verification as R471 states it: a 4,096-bit modulus, public exponent 65,537, SHA-512, MGF1 with SHA-512
and a 64-byte salt (log entry 21, PRESUMED: the standard's own steps).
-/

namespace Sys2Proof.Machine

open Sys2Proof

/-- x to the power 2^k modulo m. -/
def sqMod (m : Nat) : Nat → Nat → Nat
  | 0, x => x
  | k + 1, x => sqMod m k (x * x % m)

/-- x^65537 modulo m. -/
def rsaPublic (m x : Nat) : Nat := sqMod m 16 x * x % m

/-- MGF1 with SHA-512: n bytes from a seed. -/
def mgf1 (seed : List Byte) (n : Nat) : List Byte :=
  ((rangeFrom 0 (ceilDiv n 64)).flatMap fun i => sha512 (seed ++ beBytes 4 i)).take n

def xorBytes (a b : List Byte) : List Byte := List.zipWith (fun x y => x ^^^ y) a b

/-- EMSA-PSS verification of an encoded message of 512 bytes, 4,095 bits. -/
def pssOk (em msg : List Byte) : Bool :=
  let masked := em.take 447
  let h := (em.drop 447).take 64
  let db := xorBytes masked (mgf1 h 447)
  let db := match db with
    | [] => []
    | b :: t => (b &&& 0x7F) :: t
  let m' := List.replicate 8 0 ++ sha512 msg ++ db.drop 383
  em.drop 511 == [0xBC] && (em.head?.map fun b => b &&& 0x80) == some 0
    && db.take 383 == List.replicate 382 0 ++ [1] && sha512 m' == h

/-- A signature of 512 bytes over a message is valid under a modulus of 512 bytes. -/
def rsaOk (modulus msg sig : List Byte) : Bool :=
  let n := ofBE modulus
  let x := ofBE sig
  modulus.length == 512 && sig.length == 512 && decide (2 ^ 4095 ≤ n) && decide (x < n)
    && pssOk (beBytes 512 (rsaPublic n x)) msg

end Sys2Proof.Machine
end

