-- ==== Sys2Proof/Machine/Ec.lean ====
section
/-!
DEFINITION. The secp384r1 key exchange of R482: points of the curve y² = x³ - 3x + b over the field of p elements, their sum and
multiples, and the shared secret (log entry 57, PRESUMED: the standard's own curve and encoding).
-/

namespace Sys2Proof.Machine

open Sys2Proof

/-- The field, the curve and its base point. -/
def ecP : Nat := 2 ^ 384 - 2 ^ 128 - 2 ^ 96 + 2 ^ 32 - 1
def ecB : Nat := 0xb3312fa7e23ee7e4988e056be3f82d19181d9c6efe8141120314088f5013875ac656398d8a2ed19d2a85c8edd3ec2aef
def ecX : Nat := 0xaa87ca22be8b05378eb1c71ef320ad746e1d3b628ba79b9859f741e082542a385502f25dbf55296c3a545e3872760ab7
def ecY : Nat := 0x3617de4a96262c6f5d9e98bf9292dc29f8f41dbd289a147ce9da3113b5f0b8c00a60b1ce1d7e819d7a431d7c90ea0e5f
/-- The order of the base point. -/
def ecN : Nat := 0xffffffffffffffffffffffffffffffffffffffffffffffffc7634d81f4372ddf581a0db248b0a77aecec196accc52973

/-- x to the power of the number whose lowest k bits are those of e, modulo p. -/
def ecPow : Nat → Nat → Nat → Nat
  | 0, _, _ => 1
  | k + 1, x, e => (if e % 2 = 1 then x else 1) * ecPow k (x * x % ecP) (e / 2) % ecP

/-- The inverse modulo p. -/
def ecInv (x : Nat) : Nat := ecPow 384 (x % ecP) (ecP - 2)

def ecSub (x y : Nat) : Nat := (x + ecP - y % ecP) % ecP

/-- A point of the curve; none is the point at infinity. -/
abbrev EcPoint := Option (Nat × Nat)

/-- The third point of the line through two of slope l. -/
def ecThird (l x y x' : Nat) : EcPoint :=
  let z := ecSub (ecSub (l * l % ecP) x) x'
  some (z, ecSub (l * ecSub x z % ecP) y)

/-- The sum of two points. -/
def ecAdd : EcPoint → EcPoint → EcPoint
  | none, q => q
  | q, none => q
  | some (x, y), some (x', y') =>
    if x = x' then
      if (y + y') % ecP = 0 then none
      else ecThird (ecSub (3 * x * x % ecP) 3 * ecInv (2 * y) % ecP) x y x
    else ecThird (ecSub y' y * ecInv (ecSub x' x) % ecP) x y x'

/-- The multiple of a point by the number whose lowest k bits are those of e. -/
def ecMul : Nat → EcPoint → Nat → EcPoint
  | 0, _, _ => none
  | k + 1, q, e => ecAdd (if e % 2 = 1 then q else none) (ecMul k (ecAdd q q) (e / 2))

/-- Whether two coordinates are those of a point of the curve. -/
def ecOn (x y : Nat) : Bool := decide (x < ecP ∧ y < ecP) && y * y % ecP == (ecSub (x * x % ecP * x % ecP) (3 * x) + ecB) % ecP

/-- The point that 96 bytes name: both coordinates, big-endian. -/
def ecOfBytes (l : List Byte) : EcPoint :=
  let x := ofBE (l.take 48)
  let y := ofBE (l.drop 48)
  if l.length = 96 ∧ ecOn x y = true then some (x, y) else none

def ecBytes : EcPoint → List Byte
  | some (x, y) => beBytes 48 x ++ beBytes 48 y
  | none => []

/-- A private key: a free number below the order of the base point, by draw. -/
def ecKey (n : Nat) : Nat :=
  ((rangeFrom n 6).foldl (fun v i => v * 2 ^ 64 + (Config.freeWord i).toNat) 0) % (ecN - 1) + 1

/-- The module's half of a key exchange: the public value of its private key. -/
def exchangeValue (n : Nat) : List Byte := ecBytes (ecMul 384 (some (ecX, ecY)) (ecKey n))

/-- The shared secret: the first coordinate of the peer's point times the private key. -/
def exchangeSecret (n : Nat) (q : EcPoint) : List Byte := (ecBytes (ecMul 384 q (ecKey n))).take 48

end Sys2Proof.Machine
end

