-- ==== Sys2Proof/Machine/Crc.lean ====
section
/-!
DEFINITION. The cyclic redundancy checks that the spec names: CRC-32C over packet headers (R332) and CRC-16-CCITT over alive
sequences (R315). Both are named standards whose parameters the spec does not repeat (log entry 21, PRESUMED).
-/

namespace Sys2Proof.Machine

open Sys2Proof

/-- n steps of a reflected CRC register with polynomial p. -/
def crcReflected (p : Nat) : Nat → Nat → Nat
  | 0, c => c
  | n + 1, c => crcReflected p n (if c % 2 = 1 then (c / 2) ^^^ p else c / 2)

/-- CRC-32C (Castagnoli): reflected polynomial 0x82F63B78, all ones in, complemented out. -/
def crc32c (l : List Byte) : W32 :=
  BitVec.ofNat 32 (l.foldl (fun c b => crcReflected 0x82F63B78 8 (c ^^^ b.toNat)) 0xFFFFFFFF ^^^ 0xFFFFFFFF)

/-- n steps of a 16-bit CRC register, most significant bit first, with polynomial 0x1021. -/
def crcForward : Nat → Nat → Nat
  | 0, c => c
  | n + 1, c => crcForward n (if c ≥ 0x8000 then (c * 2 % 0x10000) ^^^ 0x1021 else c * 2)

/-- CRC-16-CCITT: polynomial 0x1021, all ones in, most significant bit of each byte first. -/
def crc16 (l : List Byte) : BitVec 16 :=
  BitVec.ofNat 16 (l.foldl (fun c b => crcForward 8 (c ^^^ (b.toNat * 256))) 0xFFFF)

end Sys2Proof.Machine
end

