-- ==== Sys2Proof/Machine/Events.lean ====
section
/-!
DEFINITION. Events: records, the four paths, admission, coalescing, drop summaries (R444 to R450, R514). Every family raises
its events through raiseEv.
-/

namespace Sys2Proof.Machine

open Sys2Proof

/-! ### Codes (R446) -/

def evRingSlotFault : BitVec 16 := 0x0100
def evEpochMissed : BitVec 16 := 0x0101
def evCommitUnresolved : BitVec 16 := 0x0102
def evResetChip : BitVec 16 := 0x0103
def evPowerCycleWanted : BitVec 16 := 0x0104
def evWdogChip : BitVec 16 := 0x0105
def evSagCrash : BitVec 16 := 0x0106
def evLogDrop : BitVec 16 := 0x01FF
def evLinkLost : BitVec 16 := 0x0200
def evGaugeSkew : BitVec 16 := 0x0201
def evGaugeRefLost : BitVec 16 := 0x0202
def evMemUe : BitVec 16 := 0x0203
def evMemPoison : BitVec 16 := 0x0204
def evMemUnavail : BitVec 16 := 0x0205
def evTileFault : BitVec 16 := 0x0206
def evIllBundle : BitVec 16 := 0x0207
def evAccessFault : BitVec 16 := 0x0208
def evPassFault : BitVec 16 := 0x0209
def evLadderCeiling : BitVec 16 := 0x020A
def evWatchNonfin : BitVec 16 := 0x020B
def evLadderDigest : BitVec 16 := 0x020C
def evFactorFallback : BitVec 16 := 0x020D
def evPlaneFallback : BitVec 16 := 0x020E
def evChainFull : BitVec 16 := 0x020F
def evReportFail : BitVec 16 := 0x0210
def evHangSlot : BitVec 16 := 0x0211
def evHangQueue : BitVec 16 := 0x0212
def evHangEngine : BitVec 16 := 0x0213
def evResetContext : BitVec 16 := 0x0214
def evResetEngine : BitVec 16 := 0x0215
def evResetPanel : BitVec 16 := 0x0216
def evGuilty : BitVec 16 := 0x0217
def evMsgStale : BitVec 16 := 0x0218
def evWdogPanel : BitVec 16 := 0x0219
def evLinkDegraded : BitVec 16 := 0x0300
def evSlotLate : BitVec 16 := 0x0301
def evCommitRefused : BitVec 16 := 0x0302
def evLadderUp : BitVec 16 := 0x0303
def evLadderCapped : BitVec 16 := 0x0304
def evTileLeak : BitVec 16 := 0x0305
def evHostLinkDegraded : BitVec 16 := 0x0306
def evRiskStep : BitVec 16 := 0x0307
def evQuantStale : BitVec 16 := 0x0308
def evAlignStale : BitVec 16 := 0x0309
def evSegMismatch : BitVec 16 := 0x030A
def evCtxQuiescent : BitVec 16 := 0x030B
def evHangCleared : BitVec 16 := 0x030C
def evReplayUnresolved : BitVec 16 := 0x030D
def evDumpLost : BitVec 16 := 0x030E
def evLadderDown : BitVec 16 := 0x0400
def evReplayPass : BitVec 16 := 0x0401

/-- The priority of a code: 0 fatal, 1 error, 2 warning, 3 trace (R444). -/
def evPrio (code : BitVec 16) : Nat := fld code.toNat 8 4 - 1

/-! ### Sources (R445) -/

def srcCore (c : Core) : BitVec 16 := BitVec.ofNat 16 c.val
def srcDma (d : Die) : BitVec 16 := BitVec.ofNat 16 (160 + d.val)
def srcUpdate (p : Panel) : BitVec 16 := BitVec.ofNat 16 (162 + p.val)
def srcBench (p : Panel) : BitVec 16 := BitVec.ofNat 16 (166 + p.val)
def srcQmg : BitVec 16 := 170
def srcLink (l : Link) : BitVec 16 := BitVec.ofNat 16 (171 + l.val)
def srcSwitch (d : Die) : BitVec 16 := BitVec.ofNat 16 (203 + d.val)
def srcSecurity : BitVec 16 := 205
def srcGauge : BitVec 16 := 206
def srcMem (p : Panel) : BitVec 16 := BitVec.ofNat 16 (207 + p.val)
def srcModule : BitVec 16 := 0xFFFF

/-- The panel whose ring takes the events of a source: its own panel; panel 0 for the link dies and the module. -/
def srcPanel (src : BitVec 16) : Panel :=
  let n := src.toNat
  if n < 160 then ⟨n / 40 % 4, Nat.mod_lt _ (by decide)⟩
  else if 162 ≤ n ∧ n < 166 then ⟨(n - 162) % 4, Nat.mod_lt _ (by decide)⟩
  else if 166 ≤ n ∧ n < 170 then ⟨(n - 166) % 4, Nat.mod_lt _ (by decide)⟩
  else if 207 ≤ n ∧ n < 211 then ⟨(n - 207) % 4, Nat.mod_lt _ (by decide)⟩
  else 0

/-- The gauge count for a record; all ones while the gauge is not valid (R445). -/
def gaugeField (s : State) : W64 := if s.gau.valid then s.gau.count else 0xFFFFFFFFFFFFFFFF

/-! ### Stages (R458, R464, R467) -/

/-- The panel on which alone a sensor acts; none where it acts on every panel. -/
def keyPanel (k : Nat) : Option Nat :=
  if k < 32 then some (k / 8) else if 40 ≤ k ∧ k < 64 then some ((k - 40) / 6) else none

/-- The supply-sag stage in force. -/
def sagStage (s : State) : Nat := s.pwr.sag.foldl (fun n e => if e.2.inForce then max n e.1 else n) 0

/-- The highest thermal stage of any sensor that acts on a panel. -/
def thermalStage (s : State) (p : Panel) : Nat :=
  s.pwr.sensors.foldl (fun n e => match keyPanel e.1 with
    | none => max n e.2.stage
    | some q => if q = p.val then max n e.2.stage else n) 0

/-- The module's highest thermal stage. -/
def moduleThermal (s : State) : Nat := s.pwr.sensors.foldl (fun n e => max n e.2.stage) 0

def drillStage (s : State) : Nat := if s.pwr.drillOn then s.pwr.runStage.toNat else 0

/-- The stage in force in a panel (R467). -/
def stageIn (s : State) (p : Panel) : Nat := max (sagStage s) (max (thermalStage s p) (drillStage s))

/-- A stage stops the capture of traces in the panel that a source belongs to (R458; log entry 126). -/
def captureOff (s : State) (src code : BitVec 16) : Bool := evPrio code == 3 && decide (1 ≤ stageIn s (srcPanel src))

/-! ### The record's bytes (R445) -/

/-- Word 0 of a record. -/
def evWord0 (e : EvRec) (phase : Bool) : Nat :=
  e.code.toNat + 2 ^ 16 * evPrio e.code + 2 ^ 18 * bnat e.coalesced + 2 ^ 19 * bnat e.summary + 2 ^ 20 * bnat phase
  + 2 ^ 21 * e.sub.toNat + 2 ^ 24 * e.source.toNat + 2 ^ 40 * e.job.toNat
  + match e.ctx with
    | some c => 2 ^ 48 * c.val + 2 ^ 58
    | none => 0

/-- The 64 bytes of a record, number seq of its path. -/
def evBytes (e : EvRec) (phase : Bool) (seq : Nat) : List Byte :=
  wordBytes [evWord0 e phase, e.gauge.toNat, e.count % 2 ^ 32 + 2 ^ 32 * (seq % 2 ^ 32), e.first.toNat,
    e.arg0.toNat, e.arg1.toNat, e.arg2.toNat, e.arg3.toNat]

/-! ### Paths -/

def State.path (s : State) : PathName → EvPath
  | .panel p => tabGet {} s.ev.rings p.val
  | .chipLog => s.ev.chipLog
  | .host => s.ev.host
  | .i3c => s.ev.i3c

def State.setPath (s : State) (n : PathName) (x : EvPath) : State :=
  match n with
  | .panel p => { s with ev := { s.ev with rings := tabSet {} s.ev.rings p.val x } }
  | .chipLog => { s with ev := { s.ev with chipLog := x } }
  | .host => { s with ev := { s.ev with host := x } }
  | .i3c => { s with ev := { s.ev with i3c := x } }

/-- Records of the chip event log (R448). -/
def chipLogRecords : Nat := 261120

/-- The physical address of the chip event log: panel 0's reserve at 176 MiB (R298). -/
def chipLogBase : Nat := 0x5C0000000 + 176 * 2 ^ 20

/-- Records of a path that are written and not acknowledged, modulo 2³². -/
def evUnread (p : EvPath) : Nat := (BitVec.ofNat 32 p.written - BitVec.ofNat 32 p.ack).toNat

/-- Free records of a path (R448). -/
def evFree (s : State) (n : PathName) : Nat :=
  let p := s.path n
  match n with
  | .panel _ => 1024 - p.recs.length
  | .chipLog => chipLogRecords - evUnread p
  | .host => if s.ev.evqEnable && s.qmg.cxlUp then 2 ^ s.ev.evqLog2 - evUnread p else 0
  | .i3c => if s.ev.i3cEn then 64 - p.recs.length else 0

/-- The free records at which a path admits a priority; none where it never does (R448). -/
def evThreshold (s : State) (n : PathName) (prio : Nat) : Option Nat :=
  match n with
  | .panel _ => some ([1, 64, 256, 512].getD prio 1)
  | .chipLog => some ([1, 4096, 65536, 131072].getD prio 1)
  | .host =>
    let size := 2 ^ s.ev.evqLog2
    if prio = 3 ∧ ¬ s.ev.evqTrace then none else some ([1, size / 16, size / 4, size / 2].getD prio 1)
  | .i3c =>
    if prio = 3 ∨ (prio = 2 ∧ ¬ s.ev.i3cWarn) then none else some ([1, 16, 32, 64].getD prio 1)

/-- Whether a path admits a record of a priority now. -/
def evAdmits (s : State) (n : PathName) (prio : Nat) : Bool :=
  match evThreshold s n prio with
  | some t => decide (t ≤ evFree s n)
  | none => false

/-- Writes a record on a path, with its number there (R444, R445). -/
def evWrite (s : State) (n : PathName) (e : EvRec) : State :=
  let p := s.path n
  let seq := p.written
  let e := { e with seq := seq }
  match n with
  | .panel _ =>
    s.setPath n { p with recs := p.recs ++ [e], ring := (p.ring ++ [e]).drop (p.ring.length + 1 - 1024), written := seq + 1 }
  | .i3c => s.setPath n { p with recs := p.recs ++ [e], written := seq + 1 }
  | .chipLog =>
    let a := chipLogBase + 65536 + 64 * (seq % chipLogRecords)
    let s := s.setPath n { p with written := seq + 1 }
    { s with mem := { s.mem with gddr := bankWrite s.mem.gddr a (evBytes e false seq) } }
  | .host =>
    let phase := seq / 2 ^ s.ev.evqLog2 % 2 == 0
    let a := s.ev.evqBase.toNat + 64 * (seq % 2 ^ s.ev.evqLog2)
    let s := s.setPath n { p with written := seq + 1 }
    { s with
      mem := { s.mem with host := bankWrite s.mem.host a (evBytes e phase seq) }
      ev := { s.ev with evqWindow := some (s.ev.evqWindow.getD s.now) } }

/-- The same source, SUB and code (R449). -/
def evSame (a b : EvRec) : Bool := a.source == b.source && a.sub == b.sub && a.code == b.code

/-- Whether the coalescing table has an entry for a priority: 8 of its 64 serve only fatal records (R449). -/
def evTabRoom (tab : List EvRec) (prio : Nat) : Bool :=
  let fatal := (tab.filter fun e => evPrio e.code == 0).length
  let other := tab.length - fatal
  if prio = 0 then decide (tab.length < 64) else decide (other + (fatal - 8) < 56)

/-- An event that a path does not admit: coalesced, or counted as dropped (R449). -/
def evRefuse (p : EvPath) (e : EvRec) : EvPath :=
  if p.tab.any (evSame e) then
    { p with
      tab := p.tab.map fun x => if evSame e x then { e with count := x.count + e.count, first := x.first } else x
      cnt := { p.cnt with pending := p.cnt.pending + e.count } }
  else if evTabRoom p.tab (evPrio e.code) then
    { p with tab := p.tab ++ [e], cnt := { p.cnt with pending := p.cnt.pending + e.count } }
  else
    { p with cnt := { p.cnt with
        drop := tabSet 0 p.cnt.drop (evPrio e.code) (tabGet 0 p.cnt.drop (evPrio e.code) + e.count) } }

/-- Offers an event to a path: written where the path admits it (R448, R450). -/
def evOffer (s : State) (n : PathName) (e : EvRec) : State :=
  let p := s.path n
  let p := { p with cnt := { p.cnt with offered := p.cnt.offered + e.count } }
  if evAdmits s n (evPrio e.code) then
    let cnt := if e.coalesced then { p.cnt with folded := p.cnt.folded + e.count }
      else { p.cnt with single := p.cnt.single + 1 }
    evWrite (s.setPath n { p with cnt := cnt }) n e
  else s.setPath n (evRefuse p e)

/-- Raises an event: it is written to the ring of the panel that raised it, unless a stage stops its capture. -/
def raiseRec (s : State) (e : EvRec) : State :=
  let g := gaugeField s
  if captureOff s e.source e.code then s
  else evOffer s (.panel (srcPanel e.source)) { e with gauge := g, first := g, count := 1 }

/-- An event that the security block raises on I3C alone (R442, R451). -/
def raiseI3c (s : State) (code : BitVec 16) (args : List Nat) : State :=
  let g := gaugeField s
  evOffer s .i3c { code := code, source := srcSecurity, gauge := g, first := g
                   arg0 := BitVec.ofNat 64 (nth args 0), arg1 := BitVec.ofNat 64 (nth args 1) }

/-- Raises an event with its source and up to four arguments (R447). -/
def raiseEv (s : State) (code : BitVec 16) (src : BitVec 16) (args : List Nat := []) (ctx : Option Ctx := none)
    (job : BitVec 8 := 0xFF) (sub : BitVec 3 := 0) : State :=
  raiseRec s { code := code, source := src, sub := sub, ctx := ctx, job := job
               arg0 := BitVec.ofNat 64 (nth args 0), arg1 := BitVec.ofNat 64 (nth args 1)
               arg2 := BitVec.ofNat 64 (nth args 2), arg3 := BitVec.ofNat 64 (nth args 3) }

/-- A job number as the JOB field has it. -/
def jobField (j : Job) : BitVec 8 := BitVec.ofNat 8 j.val

/-! ### Flush (R449) -/

/-- Puts an entry at its place by ascending priority, then ascending first. -/
def evInsertEntry (e : EvRec) : List EvRec → List EvRec
  | [] => [e]
  | x :: t =>
    if evPrio e.code < evPrio x.code ∨ (evPrio e.code = evPrio x.code ∧ e.first.toNat < x.first.toNat) then e :: x :: t
    else x :: evInsertEntry e t

/-- The entries of a coalescing table in the order of a flush. -/
def evSortEntries (l : List EvRec) : List EvRec := l.foldl (fun acc e => evInsertEntry e acc) []

/-- Writes one coalesced entry if the path admits its priority. -/
def evFlushEntry (n : PathName) (s : State) (e : EvRec) : State :=
  if evAdmits s n (evPrio e.code) then
    let p := s.path n
    let p := { p with
      tab := p.tab.filter fun x => !evSame e x
      cnt := { p.cnt with folded := p.cnt.folded + e.count, pending := p.cnt.pending - e.count } }
    evWrite (s.setPath n p) n { e with coalesced := true }
  else s

/-- The drop-count record of a path. -/
def evSummary (s : State) (n : PathName) : EvRec :=
  let d := (s.path n).cnt.drop
  let g := gaugeField s
  { code := evLogDrop, source := srcModule, summary := true, gauge := g, first := g
    arg0 := BitVec.ofNat 64 (tabGet 0 d 0), arg1 := BitVec.ofNat 64 (tabGet 0 d 1)
    arg2 := BitVec.ofNat 64 (tabGet 0 d 2), arg3 := BitVec.ofNat 64 (tabGet 0 d 3) }

/-- One flush of a path (R449). -/
def evFlush (s : State) (n : PathName) : State :=
  let s := (evSortEntries (s.path n).tab).foldl (evFlushEntry n) s
  let p := s.path n
  let due := match p.summedAt with
    | none => true
    | some t => elapsed s t (msTicks 1)
  if p.cnt.drop ≠ p.summed ∧ 1 ≤ evFree s n ∧ due = true then
    let s := s.setPath n { p with summed := p.cnt.drop, summedAt := some s.now }
    evWrite s n (evSummary s n)
  else s

/-- Every path (R448). -/
def allPaths : List PathName := [.panel 0, .panel 1, .panel 2, .panel 3, .chipLog, .host, .i3c]

/-- Flushes every path. -/
def flushAll (s : State) : State := allPaths.foldl evFlush s

/-! ### Reading the panel rings (R514) -/

/-- The number by which the chip bench orders records: GAUGE, then the panel. -/
def scanKey (x : Panel × EvRec) : Nat := x.2.gauge.toNat * 4 + x.1.val

/-- Puts a record behind those that go before it or with it. -/
def scanInsert (x : Panel × EvRec) : List (Panel × EvRec) → List (Panel × EvRec)
  | [] => [x]
  | y :: t => if scanKey x < scanKey y then x :: y :: t else y :: scanInsert x t

/-- The unread records of the four panel rings, in the order in which the chip bench takes them. -/
def scanOrder (s : State) : List (Panel × EvRec) :=
  (([0, 1, 2, 3] : List Panel).flatMap fun p => (s.path (.panel p)).recs.map fun e => (p, e)).foldl (fun l x => scanInsert x l) []

/-- Offers a record of a panel ring to the other three paths; a drop-count record goes to none of them. -/
def offerOn (s : State) (e : EvRec) : State :=
  if e.summary then s else evOffer (evOffer (evOffer s .chipLog e) .host e) .i3c e

/-- The chip bench reads every panel ring and frees what it has read. -/
def scanRings (s : State) : State :=
  let l := scanOrder s
  let s := ([0, 1, 2, 3] : List Panel).foldl (fun s p => s.setPath (.panel p) { s.path (.panel p) with recs := [] }) s
  l.foldl (fun s x => offerOn s x.2) s

/-- Events that a coalescing table still holds at a chip rung are counted as dropped (R450). -/
def evDropHeld (s : State) (n : PathName) : State :=
  let p := s.path n
  s.setPath n { p with
    tab := []
    cnt := { p.cnt with
      pending := 0
      drop := p.tab.foldl (fun d e => tabSet 0 d (evPrio e.code) (tabGet 0 d (evPrio e.code) + e.count)) p.cnt.drop } }

/-- What is still held in the coalescing tables is counted as dropped. -/
def dropHeld (s : State) : State := allPaths.foldl evDropHeld s

/-- What the chip bench does with the paths at the start of a chip rung, its own event raised (R436, R450). -/
def closePaths (s : State) : State := dropHeld (flushAll (scanRings s))

/-- The conservation of R450 on one path. -/
def evBalanced (p : EvPath) : Prop :=
  p.cnt.offered = p.cnt.single + p.cnt.folded + p.cnt.pending
    + tabGet 0 p.cnt.drop 0 + tabGet 0 p.cnt.drop 1 + tabGet 0 p.cnt.drop 2 + tabGet 0 p.cnt.drop 3

end Sys2Proof.Machine
end

