-- ==== Sys2Proof/Machine/Memory.lean ====
section
/-!
DEFINITION. Addresses: physical layout of GDDR7 (R294), page tables and translation (R295, R296), benches and panel stores
(R24, R230, R247), reads and writes with poison (R292, R293) and during a memory-controller reset (R303).
-/

namespace Sys2Proof.Machine

open Sys2Proof

/-! ### Device physical addresses (R294, R298) -/

/-- The distance between the data of two panels. -/
def panelSpan : Nat := 0x800000000
/-- Data bytes of a panel. -/
def panelData : Nat := 0x5D0000000
/-- Offset of the device's fixed reserve in a panel. -/
def reserveOff : Nat := 0x5C0000000

/-- The panel of a physical address. -/
def paPanel (pa : Nat) : Panel := ⟨pa / panelSpan % 4, Nat.mod_lt _ (by decide)⟩
/-- The address names memory. -/
def paOk (pa : Nat) : Bool := decide (pa < 4 * panelSpan) && decide (pa % panelSpan < panelData)

/-- ECC group, data unit, device of the panel, channel of the device and channel byte address of a physical address. -/
structure PaPlace where
  group : Nat
  unit : Nat
  device : Nat
  channel : Nat
  chanAddr : Nat
  deriving DecidableEq, Repr

def paPlace (pa : Nat) : PaPlace :=
  let o := pa % panelSpan
  let g := o / 1984
  { group := g, unit := o % 1984 / 64, device := g % 24 / 4, channel := g % 24 % 4, chanAddr := g / 24 * 2048 }

/-- The physical addresses of the 31 data units of the ECC group that holds pa (R287). -/
def groupUnits (pa : Nat) : List Nat :=
  let base := pa / panelSpan * panelSpan
  (rangeFrom 0 31).map fun i => base + (pa % panelSpan / 1984) * 1984 + 64 * i

/-- The check code of a data unit: of its 64 bytes and its device physical address, and XOR 0x5A5A where the unit is poisoned
(R288, R292). -/
def unitCode (s : State) (pa : Nat) : BitVec 16 :=
  Config.checkCode pa (readBytes s.mem.gddr pa 64) ^^^ if poisoned s.mem.gddr pa 64 then 0x5A5A else 0

/-- The 64 bytes of the check unit of the ECC group that holds pa: the codes of its 31 data units, then two bytes of 0 (R287).
Memory holds no check unit: a code follows from its unit, and software cannot address it (log entry 114). -/
def checkUnit (s : State) (pa : Nat) : List Byte := (groupUnits pa).flatMap (fun u => leBytes 2 (unitCode s u).toNat) ++ [0, 0]

def State.memCtl (s : State) (p : Panel) : MemCtl := tabGet {} s.mem.ctl p.val
def State.setMemCtl (s : State) (p : Panel) (c : MemCtl) : State :=
  { s with mem := { s.mem with ctl := tabSet {} s.mem.ctl p.val c } }

/-- Bytes of GDDR7, and whether they are poisoned; while the panel's controllers are in reset a read is answered as
poisoned (R303). -/
def gddrRead (s : State) (pa n : Nat) : List Byte × Bool :=
  (readBytes s.mem.gddr pa n, poisoned s.mem.gddr pa n || (s.memCtl (paPanel pa)).inReset)

/-- A write to GDDR7; dropped and counted while the controllers are in reset (R303). -/
def gddrWrite (s : State) (pa : Nat) (data : List Byte) (bad : Bool := false) : State :=
  let c := s.memCtl (paPanel pa)
  if c.inReset then s.setMemCtl (paPanel pa) { c with writesDropped := c.writesDropped + 1 }
  else { s with mem := { s.mem with gddr := bankWrite s.mem.gddr pa data bad } }

/-- Counts a read that the reset of the panel's controllers answered as poisoned (R303). -/
def noteResetRead (s : State) (pa : Nat) : State :=
  let c := s.memCtl (paPanel pa)
  if c.inReset then s.setMemCtl (paPanel pa) { c with readsPoisoned := c.readsPoisoned + 1 } else s

/-- Thousandths of a core cycle in a tick of 6.4 ns, at each point (R13, R455). -/
def pointMilli (p : Fin 5) : Nat := [14400, 12800, 10816, 8960, 7200].getD p.val 7200

/-- CYCLE of a panel: 0 at its reset, and so many clocks of the panel since; within a tick they are open (R224; log entry
16). -/
def panelCycle (s : State) (p : Panel) : W64 :=
  let x := s.panel p
  let d := s.now - x.resetAt
  let rate := pointMilli x.coreOp
  if d = 0 then 0
  else BitVec.ofNat 64 ((x.cycBase + (s.now - x.cycAt) * rate + Config.cycleAt p.val d % rate) / 1000)

/-! ### Page tables (R295) -/

def pteV (e : Nat) : Bool := bit e 0
def pteLeaf (e : Nat) : Bool := bit e 1
def pteW (e : Nat) : Bool := bit e 2
def pteX (e : Nat) : Bool := bit e 3
def pteHdm (e : Nat) : Bool := bit e 4
def ptePa (e : Nat) : Nat := fld e 16 24 * 2 ^ 16

/-- A page-table entry: a leaf for a page. -/
def mkPte (pa : Nat) (leaf w x hdm : Bool) : Nat :=
  1 + 2 * bnat leaf + 4 * bnat w + 8 * bnat x + 16 * bnat hdm + pa / 2 ^ 16 % 2 ^ 24 * 2 ^ 16

/-- The level-2 table of a context: 128 KiB at c · 128 KiB of panel 0's page-table pool (log entry 20, DESIGN CHOICE). -/
def rootTable (c : Ctx) : Nat := reserveOff + c.val * 0x20000

/-- What a translation meets. -/
inductive Xlate where
  /-- A leaf: the physical address, W, X, HDM. -/
  | ok (pa : Nat) (w x hdm : Bool)
  /-- No valid leaf, or a bit at or above bit 44 is set. -/
  | refused
  /-- An uncorrectable error in the page-table entry at this address (R307). -/
  | badTable (addr : Nat)
  /-- The memory controllers of the panel that holds this entry are in reset: its read is answered as poisoned (R303). -/
  | away (addr : Nat)
  deriving DecidableEq, Repr

/-- One level of the walk: the entry, and whether it comes poisoned. -/
def pteAt (s : State) (addr : Nat) : Nat × Bool :=
  (readNat s.mem.gddr addr 8, poisoned s.mem.gddr addr 8 || (s.memCtl (paPanel addr)).inReset)

/-- What a poisoned entry at an address stops a walk with. -/
def badEntry (s : State) (addr : Nat) : Xlate := if (s.memCtl (paPanel addr)).inReset then .away addr else .badTable addr

/-- Translates a device virtual address of a context by its tables (R295, R296). -/
def walk (s : State) (c : Ctx) (va : Nat) : Xlate :=
  if 2 ^ 44 ≤ va then .refused
  else
    let a2 := rootTable c + 8 * (va / 2 ^ 30)
    let (e2, p2) := pteAt s a2
    if p2 then badEntry s a2
    else if !pteV e2 then .refused
    else if pteLeaf e2 then .ok (ptePa e2 + va % 2 ^ 30) (pteW e2) (pteX e2) (pteHdm e2)
    else
      let a1 := ptePa e2 + 8 * (va / 2 ^ 21 % 512)
      let (e1, p1) := pteAt s a1
      if p1 then badEntry s a1
      else if !pteV e1 then .refused
      else if pteLeaf e1 then .ok (ptePa e1 + va % 2 ^ 21) (pteW e1) (pteX e1) (pteHdm e1)
      else
        let a0 := ptePa e1 + 8 * (va / 2 ^ 16 % 32)
        let (e0, p0) := pteAt s a0
        if p0 then badEntry s a0
        else if pteV e0 && pteLeaf e0 then .ok (ptePa e0 + va % 2 ^ 16) (pteW e0) (pteX e0) (pteHdm e0)
        else .refused

/-- An UNMAP in progress covers the address: its translation is dropped. -/
def unmapped (s : State) (c : Ctx) (va : Nat) : Bool := (s.ctx c).unmapping.any fun r => decide (r.1 ≤ va ∧ va < r.1 + r.2)

/-- Translates a device virtual address of a context for a new access. -/
def translate (s : State) (c : Ctx) (va : Nat) : Xlate := if unmapped s c va then .refused else walk s c va

/-- The machine as an access sees it that began before the UNMAPs in progress and keeps its old translation (R297, R307). -/
def oldView (s : State) (c : Ctx) : State := updCtx s c fun x => { x with unmapping := [] }

/-- What an access needs of its page (R296); a write through the CXL.mem window needs W and HDM (R305). -/
inductive Access where
  | read | write | fetch | hdm | hdmWrite
  deriving DecidableEq, Repr

/-- The physical address of an access, where it is permitted. -/
def accessPa (s : State) (c : Ctx) (va : Nat) (k : Access) : Option Nat :=
  match translate s c va with
  | .ok pa w x h =>
    let ok := match k with
      | .read => true
      | .write => w
      | .fetch => x
      | .hdm => h
      | .hdmWrite => h && w
    if ok then some pa else none
  | _ => none

/-- The parts of a virtual range by 64 KiB pages: physical address and length of each; none where any is refused. -/
def rangeParts (s : State) (c : Ctx) (k : Access) : Nat → Nat → Nat → Option (List (Nat × Nat))
  | 0, _, n => if n = 0 then some [] else none
  | fuel + 1, va, n =>
    if n = 0 then some []
    else
      let len := min n (65536 - va % 65536)
      match accessPa s c va k, rangeParts s c k fuel (va + len) (n - len) with
      | some pa, some t => some ((pa, len) :: t)
      | _, _ => none

/-- The parts of the virtual range of n bytes at va. -/
def vaParts (s : State) (c : Ctx) (k : Access) (va n : Nat) : Option (List (Nat × Nat)) :=
  rangeParts s c k (n / 65536 + 2) va n

/-- Whether an access to n bytes at va is permitted. -/
def vaOk (s : State) (c : Ctx) (k : Access) (va n : Nat) : Bool := (vaParts s c k va n).isSome

/-- Reads n bytes of a context's virtual memory, with poison. -/
def vaRead (s : State) (c : Ctx) (va n : Nat) : Option (List Byte × Bool) :=
  (vaParts s c .read va n).map fun ps =>
    ps.foldl (fun acc p => let (d, b) := gddrRead s p.1 p.2; (acc.1 ++ d, acc.2 || b)) ([], false)

/-- Writes the parts of a range in order. -/
def writeParts (s : State) (bad : Bool) : List (Nat × Nat) → List Byte → State
  | [], _ => s
  | (pa, len) :: t, data => writeParts (gddrWrite s pa (data.take len) bad) bad t (data.drop len)

/-- Writes bytes to a context's virtual memory; none where any page refuses it, and then nothing is written. -/
def vaWrite (s : State) (c : Ctx) (va : Nat) (data : List Byte) (bad : Bool := false) : Option State :=
  (vaParts s c .write va data.length).map fun ps => writeParts s bad ps data

/-- One byte of a context's virtual memory; 0 where it is not mapped (callers check the range first). -/
def vaByte (s : State) (c : Ctx) (va : Nat) : Byte :=
  match translate s c va with
  | .ok pa _ _ _ => readByte s.mem.gddr pa
  | _ => 0

/-- A little-endian number of a context's virtual memory. -/
def vaNat (s : State) (c : Ctx) (va n : Nat) : Option Nat := (vaRead s c va n).map fun r => ofLE r.1

/-- Whether any unit of a virtual range is poisoned. -/
def vaPoisoned (s : State) (c : Ctx) (va n : Nat) : Bool :=
  match vaRead s c va n with
  | some (_, b) => b
  | none => false

/-- Writes by an access that keeps its old translation. -/
def vaWriteOld (s : State) (c : Ctx) (va : Nat) (data : List Byte) (bad : Bool := false) : Option State :=
  (vaParts (oldView s c) c .write va data.length).map fun ps => writeParts s bad ps data

/-- Raises MEM_UE where the refusal of an access comes from an error in a page-table entry (R307); counts the read of an entry
whose controllers are in reset (R303). -/
def noteBadTable (s : State) (c : Ctx) (va : Nat) : State :=
  match translate s c va with
  | .badTable a => raiseEv s evMemUe (srcMem (paPanel a)) [a] (some c)
  | .away a => noteResetRead s a
  | _ => s

/-- As noteBadTable, for the first page of a range whose table entry is in error. -/
def noteBadRange (s : State) (c : Ctx) (va n : Nat) : State :=
  let bad := (rangeFrom (va / 65536) ((va + n - 1) / 65536 - va / 65536 + 1)).find? fun p =>
    match translate s c (65536 * p) with
    | .badTable _ => true
    | .away _ => true
    | _ => false
  match bad with
  | some p => noteBadTable s c (65536 * p)
  | none => s

/-- What a read of a virtual range leaves beside its data: reads that a controller reset answered are counted, one for each
64 KiB page (R303; log entry 106, DESIGN CHOICE), and an error in a table is reported (R307). -/
def noteVaRead (s : State) (c : Ctx) (va n : Nat) : State :=
  match vaParts s c .read va n with
  | some ps => ps.foldl (fun s p => noteResetRead s p.1) s
  | none => noteBadRange s c va n

/-- What a write to a virtual range leaves beside its data where it is refused. -/
def noteVaWrite (s : State) (c : Ctx) (va n : Nat) : State := if vaOk s c .write va n then s else noteBadRange s c va n

/-! ### On-die memory (R24, R230, R247) -/

def benchSize : Nat := 2 ^ 21
/-- The software share of a panel store. -/
def pstoreSoft : Nat := 0x3C00000

def benchAddr (c : Core) (off : Nat) : Nat := c.val * benchSize + off
def pstoreAddr (p : Panel) (off : Nat) : Nat := p.val * 2 ^ 26 + off

/-- Bytes of a core's bench. -/
def benchRead (s : State) (c : Core) (off n : Nat) : List Byte := readBytes s.mem.bench (benchAddr c off) n
def benchNat (s : State) (c : Core) (off n : Nat) : Nat := readNat s.mem.bench (benchAddr c off) n
def benchPoisoned (s : State) (c : Core) (off n : Nat) : Bool := poisoned s.mem.bench (benchAddr c off) n
def benchWrite (s : State) (c : Core) (off : Nat) (data : List Byte) (bad : Bool := false) : State :=
  { s with mem := { s.mem with bench := bankWrite s.mem.bench (benchAddr c off) data bad } }

/-- A place in one of the address spaces. -/
structure Place where
  space : Space
  addr : Nat
  deriving DecidableEq, Repr

def State.bank (s : State) : Space → Bank
  | .gddr => s.mem.gddr
  | .bench => s.mem.bench
  | .pstore => s.mem.pstore
  | .host => s.mem.host
  | .flash => s.mem.flash

def State.setBank (s : State) (k : Space) (b : Bank) : State :=
  match k with
  | .gddr => { s with mem := { s.mem with gddr := b } }
  | .bench => { s with mem := { s.mem with bench := b } }
  | .pstore => { s with mem := { s.mem with pstore := b } }
  | .host => { s with mem := { s.mem with host := b } }
  | .flash => { s with mem := { s.mem with flash := b } }

/-- Two ranges of bytes, by address and length, meet. -/
def rangesMeet (a b : Nat × Nat) : Bool := decide (a.1 < b.1 + b.2 ∧ b.1 < a.1 + a.2)

/-- Bytes hold a part of a raw partial tile with passes beyond the veneer rule. -/
def voidAt (s : State) (k : Space) (a n : Nat) : Bool := s.mem.voidRaw.any fun r => r.1 == k && rangesMeet r.2 (a, n)

/-- A write takes the mark of R132 off what it replaces, and carries its own. -/
def noteVoid (s : State) (w : MemWrite) : State :=
  let l := s.mem.voidRaw.filter fun r => !(r.1 == w.space && rangesMeet r.2 (w.addr, w.data.length))
  { s with mem := { s.mem with voidRaw := if w.void then l ++ [(w.space, w.addr, w.data.length)] else l } }

/-- Makes a held write visible (R246, R386). -/
def applyWrite (s : State) (w : MemWrite) : State :=
  let s := noteVoid s w
  match w.space with
  | .gddr => gddrWrite s w.addr w.data w.poison
  | k => s.setBank k (bankWrite (s.bank k) w.addr w.data w.poison)

/-- A local address of the scalar unit: own bench or own panel store (R230). -/
def localPlace (c : Core) (addr n : Nat) : Option Place :=
  if addr < 2 ^ 31 then
    if addr + n ≤ benchSize then some ⟨.bench, benchAddr c addr⟩ else none
  else
    let off := addr - 2 ^ 31
    if addr < 2 ^ 32 ∧ off + n ≤ pstoreSoft then some ⟨.pstore, pstoreAddr (corePanel c) off⟩ else none

/-- An on-die mover address as the mover of core c reaches it (R26, R247): any bench of the own panel, any panel store. -/
def onDiePlace (c : Core) (addr n : Nat) : Option Place :=
  let off := fld addr 0 26
  let panel := fld addr 58 2
  let core := fld addr 52 6
  if bit addr 62 then
    if fld addr 26 26 = 0 ∧ core = 0 ∧ fld addr 60 2 = 0 ∧ off + n ≤ pstoreSoft then
      some ⟨.pstore, panel * 2 ^ 26 + off⟩
    else none
  else if fld addr 26 26 = 0 ∧ fld addr 60 2 = 0 ∧ core < 40 ∧ panel = (corePanel c).val ∧ off + n ≤ benchSize then
    some ⟨.bench, (panel * 40 + core) * benchSize + off⟩
  else none

/-- Where a mover access of n bytes goes: parts of address spaces with their lengths; none where it is refused. -/
def moverParts (s : State) (c : Core) (ctx : Ctx) (k : Access) (addr n : Nat) : Option (List (Place × Nat)) :=
  if bit addr 63 then (onDiePlace c addr n).map fun p => [(p, n)]
  else (vaParts s ctx k addr n).map fun ps => ps.map fun p => (⟨.gddr, p.1⟩, p.2)

/-- The bytes at the parts of an access, in order. -/
def readPlaces (s : State) (ps : List (Place × Nat)) : List Byte :=
  ps.foldl (fun acc p => acc ++ readBytes (s.bank p.1.space) p.1.addr p.2) []

/-- Whether any part of an access is poisoned, a controller reset included. -/
def placesPoisoned (s : State) (ps : List (Place × Nat)) : Bool :=
  ps.any fun p => poisoned (s.bank p.1.space) p.1.addr p.2
    || (p.1.space == .gddr && (s.memCtl (paPanel p.1.addr)).inReset)

/-- The writes of data to the parts of an access. -/
def writesTo (bad : Bool) : List (Place × Nat) → List Byte → List MemWrite
  | [], _ => []
  | (p, n) :: t, data => { space := p.space, addr := p.addr, data := data.take n, poison := bad } :: writesTo bad t (data.drop n)

end Sys2Proof.Machine
end

