-- ==== Sys2Proof/Machine/Words.lean ====
section
/-!
DEFINITION. Words that software reads and that other parts of the machine copy: the link, switch and ring registers (R322, R323,
R348, R349), the event counters (R450), the core supply voltage (R455).
-/

namespace Sys2Proof.Machine

open Sys2Proof

/-! ### Rings and links (R326) -/

/-- The link die that holds a ring's buffers. -/
def ringDie (r : Ring) : Die := ⟨r.val / 16, by omega⟩

/-- The link on which ring 2d leaves is 2d + 1, and ring 2d + 1 leaves on link 2d. -/
def outLink (r : Ring) : Link := ⟨if r.val % 2 = 0 then r.val + 1 else r.val - 1, by split <;> omega⟩

/-- The ring that leaves on a link. -/
def leavingRing (l : Link) : Ring := outLink l

/-- The ring that arrives on a link. -/
def arrivingRing (l : Link) : Ring := l

def ringOf (n : Nat) : Ring := ⟨n % 32, Nat.mod_lt _ (by decide)⟩

/-! ### Ring buffers (R327, R329, R349) -/

/-- General ring buffers held: through and entered buffers, and those that reservations hold. -/
def generalHeld (x : RingState) : Nat :=
  (x.thru.filter fun b => !b.reserve).length + x.entered.length + (x.rsv.filter fun r => r.held).length

def reserveHeld (x : RingState) : Nat := (x.thru.filter fun b => b.reserve).length

/-- The ring's outgoing link is replaying. -/
def replaying (s : State) (r : Ring) : Bool := (s.link (outLink r)).resend != []

def ringBroken (x : RingState) : Bool := x.brokenIn || x.brokenOut

/-! ### Offsets (R319, R354) -/

/-- The mean of a list, toward minus infinity (log entry 25). -/
def meanOf (l : List Int) : Int := if l = [] then 0 else l.sum / (l.length : Int)

/-- OFFSET and DELAY of a link, in 1/16 tick: means over the last 64 exchanges (R319). -/
def linkOffset (x : LinkState) : Int := meanOf x.offsets

def linkDelay (x : LinkState) : Int := meanOf x.delays

/-! ### The words -/

def linkState : LinkPhase → Nat
  | .off => 0
  | .detect => 1
  | .train => 2
  | .hold => 3
  | .run => 4
  | .down => 5

/-- A register of link l at offset k of its block. -/
def linkRead (x : LinkState) (k : Nat) : Nat :=
  if 0x20 ≤ k then nth [x.fecCw, x.fecCorrCw, x.fecCorrSym, x.fecUncorr, x.replay, x.replay2, x.dupDrop, x.aliveBad, x.loss,
    x.indoubtPkts, x.lossDiscard, x.resolveBad] ((k - 0x20) / 8)
  else match k with
  | 0x00 => x.target.toNat
  | 0x08 => linkState x.phase + 2 ^ 3 * bnat x.partnerHold + 2 ^ 4 * x.reason.toNat + 2 ^ 7 * x.lastRx.toNat
      + 2 ^ 14 * x.lastAck.toNat + 2 ^ 21 * x.indoubt.length + 2 ^ 28 * bnat x.degraded
  | 0x10 => ofSigned 16 (linkOffset x) + 2 ^ 16 * ofSigned 16 (linkDelay x) + 2 ^ 32 * x.exch
  | _ => 0

def dieWord (x : DieState) (w : Nat) : Nat :=
  nth [x.injected, x.delivered, x.hcrcDiscard, x.epochDiscard, x.brokenDiscard, x.ringOverrun, x.genDrop, x.msgRange,
    x.resetDiscard, x.deflect, x.madeSenior, x.seniorNores] w

/-- LNK.RSTr (R349). -/
def ringRead (s : State) (r : Ring) : Nat :=
  let x := s.ring r
  generalHeld x + 2 ^ 4 * reserveHeld x + 2 ^ 11 * x.rsv.length + 2 ^ 13 * bnat (ringBroken x) + 2 ^ 14 * bnat (replaying s r)

/-- LNK.EPJj. -/
def epochRead (s : State) (j : Job) : Nat :=
  let x := s.job j
  let below := match x.drainMark with
    | some m => decide (s.gau.count.toNat < m.toNat)
    | none => false
  let staged := match x.change with
    | some c => c.staged && !c.switched
    | none => false
  x.live.toNat + 4 * x.prev.toNat + 2 ^ 4 * bnat below + 2 ^ 5 * bnat staged + 2 ^ 6 * x.gen.toNat

/-- Packets of a held frame. -/
def heldCount (h : HeldFrame) : Nat := h.buf.packets.length

/-- The held frames become in doubt; a table that holds an earlier loss's entries keeps them where no frame is held
(R317, R325, R513). -/
def toDoubt (x : LinkState) : LinkState :=
  let d := x.held.map fun h => (h.seq, heldCount h)
  { x with
    indoubt := if x.held = [] then x.indoubt else d
    indoubtPkts := x.indoubtPkts + (x.held.map heldCount).sum
    held := [], resend := [], nakDue := false, failures := 0 }

/-- VCORE of a point in units of 5 mV (R455). -/
def vcoreOf (p : Fin 5) : Nat := [164, 154, 144, 136, 128].getD p.val 0

/-- One of the counters of a path: words 0 to 7 of its block (R450). -/
def evCount (c : EvCounters) (i : Nat) : Nat :=
  match i with
  | 0 => c.offered
  | 1 => c.single
  | 2 => c.folded
  | 3 => c.pending
  | _ => tabGet 0 c.drop (i - 4)

/-- Word w of GLB.EVCNT: path 0 is the four panel rings together. -/
def evCntWord (s : State) (w : Nat) : Nat :=
  let i := w % 8
  match w / 8 with
  | 0 => (([0, 1, 2, 3] : List Panel).map fun p => evCount (s.path (.panel p)).cnt i).sum
  | 1 => evCount s.ev.chipLog.cnt i
  | 2 => evCount s.ev.host.cnt i
  | _ => evCount s.ev.i3c.cnt i

end Sys2Proof.Machine
end

