-- ==== Sys2Proof/Machine/Dump.lean ====
section
/-!
DEFINITION. Crash dumps (R436 to R439): which sections each rung collects, the dump header and its table in the panel's
reserve, the dump slots, the shadow. Their bytes stand in GDDR7, or in the
shadow until the panel's controllers answer.
-/

namespace Sys2Proof.Machine

open Sys2Proof

/-! ### Queues and their contexts (R372) -/

def State.group (s : State) (g : Nat) : Ctx × Bool := tabGet ((0 : Ctx), false) s.qmg.groups g

/-- The context that owns a queue's group. -/
def queueCtx (s : State) (q : Queue) : Option Ctx := if (s.group (q.val / 64)).2 then some (s.group (q.val / 64)).1 else none

/-! ### Sections (R439) -/

def sectEngine : BitVec 16 := 1
def sectSync : BitVec 16 := 2
def sectSlot : BitVec 16 := 3
def sectQueues : BitVec 16 := 4
def sectContexts : BitVec 16 := 5
def sectEvents : BitVec 16 := 6
def sectLinks : BitVec 16 := 7
def sectSag : BitVec 16 := 8

def engNum : EngineKind → Nat
  | .matrix => 1
  | .vector => 2
  | .mover => 3

/-- A queue entry in 32 bytes: slot, tags, how many registers, writes and signals it still owes (log entry 50). -/
def cmdBytes (x : EngCmd) : List Byte :=
  wordBytes [x.slot.val + 2 ^ 32 * x.tags.ctx.val, x.tags.gen.toNat + 2 ^ 8 * x.tags.engInc.toNat + 2 ^ 16 * x.tags.panelInc.toNat,
    x.pend.length + 2 ^ 32 * x.writes.length, x.signals.length + x.sets.length]

/-- A handle in 16 bytes: number, owner, shape, blocks (log entry 50). -/
def handleBytes (e : Nat × Handle) : List Byte :=
  wordBytes [e.1 + 2 ^ 8 * e.2.owner.val + 2 ^ 32 * e.2.mt + 2 ^ 48 * e.2.nt, e.2.blocks]

/-- The 1,024 bytes of an engine: 16 queue entries, the operation in progress, 16 handles, occupancy of the store, progress. -/
def engineBytes (e : EngState) (hs : Tab Handle) : List Byte :=
  padTo 1024 (padTo 512 (e.queue.flatMap cmdBytes) ++ padTo 32 ((e.queue.take 1).flatMap cmdBytes)
    ++ padTo 256 (hs.flatMap handleBytes) ++ wordBytes [(hs.map fun h => h.2.mt * h.2.nt).sum, e.progress, e.inc.toNat])

/-- The 640 bytes of a slot: PC, the control registers of R224, S0 to S63, part and context. -/
def slotBytes640 (i : Nat) (x : SlotState) : List Byte :=
  padTo 640 (wordBytes ([x.pc.toNat, x.rmode.toNat, x.fpsr.toNat,
      x.vl.toNat + 2 ^ 16 * x.vt.toNat + 2 ^ 24 * x.grp.toNat + 2 ^ 32 * bnat x.pair,
      i, x.ctx.val, x.gen.toNat, x.scBase.toNat, x.scCount, x.part.toNat]
    ++ ((rangeFrom 0 64).map fun k => (tabGet 0 x.sregs k).toNat) ++ [x.part.toNat, x.ctx.val]))

/-- The number of a register in the list of pending bits. -/
def regNum : RegName → Nat
  | .scalar i => i.val
  | .vector i => 64 + i.val
  | .mask i => 128 + i.val
  | .vcfg => 136

/-- The 21,632 bytes of a slot with its vectors: V0 to V63, M0 to M7, the pending bits. -/
def slotBytesV (i : Nat) (x : SlotState) : List Byte :=
  slotBytes640 i x ++ ((rangeFrom 0 64).flatMap fun k => leBytes 256 (tabGet 0 x.vregs k).toNat)
    ++ ((rangeFrom 0 8).flatMap fun k => leBytes 512 (tabGet 0 x.mregs k).toNat)
    ++ leBytes 512 ((x.pending.map fun r => 2 ^ regNum r).sum)

/-- The 32 bytes of a queue: number, CLASS, HEAD, TAIL, DONE and context. -/
def queueBytes (q : Nat) (x : QueueState) (owner : Nat) : List Byte :=
  wordBytes [q + 2 ^ 32 * x.cls.toNat, x.head.toNat + 2 ^ 32 * x.tail.toNat, x.done.toNat + 2 ^ 32 * owner, 0]

/-- The 80 bytes of a context: number and state, GEN, and the counters of R395. -/
def ctxBytes (c : Nat) (x : CtxState) : List Byte :=
  wordBytes [c + 2 ^ 32 * (match x.phase with
      | .free => 0
      | .opened => 1
      | .closing => 2
      | .quiescent => 3), x.gen.toNat, x.accepted, x.completed, x.cancelled, x.dbIgnored, x.msgAbandoned, x.genDrop, x.drainMark.toNat, 0]

/-- The bytes of a section. What R439 names but does not lay out stands as the model orders it (log entry 50). -/
def sectBytes : DumpBody → List Byte
  | .engine e hs => engineBytes e hs
  | .unit inc progress => padTo 1024 (wordBytes [inc.toNat, progress])
  | .sync first n t w => (rangeFrom first n).flatMap fun c =>
      ((rangeFrom 0 256).flatMap fun k => leBytes 4 (tabGet 0 (tabGet [] t c) k).toNat)
        ++ ((rangeFrom (64 * c) 64).flatMap fun k => leBytes 2 (tabGet (0, 0) w k).1 ++ leBytes 2 (tabGet (0, 0) w k).2)
  | .panelSync t owners => (rangeFrom 0 1024).flatMap fun k =>
      leBytes 4 (tabGet 0 t k).toNat ++ leBytes 4 (((owners.find? fun x => x.2 == k).map Prod.fst).getD 0xFFFFFFFF)
  | .slots first n l => (rangeFrom first n).flatMap fun k => slotBytes640 k (tabGet {} l k)
  | .vectors k x => slotBytesV k x
  | .queues first n l owners => (rangeFrom first n).flatMap fun q => queueBytes q (tabGet {} l q) (tabGet 0xFFFF owners q)
  | .accepted l => l.flatMap fun d => wordBytes [d.q.val + 2 ^ 32 * d.n.toNat]
  | .contexts first n l => (rangeFrom first n).flatMap fun c => ctxBytes c (tabGet {} l c)
  | .events r => padTo 65536 (r.flatMap fun e => evBytes e false e.seq)
  | .links l => wordBytes l
  | .sag l rails => wordBytes (rails ++ l.flatMap fun x => [x.time, x.vin] ++ x.temps.flatMap fun e => [e.1, ofSigned 16 e.2])

def mkSect (ty : BitVec 16) (unit sub : Nat) (b : DumpBody) : DumpSect :=
  { type := ty, unit := BitVec.ofNat 16 unit, sub := BitVec.ofNat 8 sub, len := (sectBytes b).length, body := b }

/-- The engine section of one engine of a core. -/
def engineSect (s : State) (c : Core) (k : EngineKind) : DumpSect :=
  mkSect sectEngine c.val (engNum k) (.engine ((s.core c).eng k) (s.core c).handles)

/-- The engine section of a unit that is no engine of a core. -/
def unitSect (s : State) (u : UnitName) : DumpSect :=
  mkSect sectEngine (unitNum u) 0 (match u with
    | .update p => .unit (s.updEngine p).inc (s.updEngine p).progress
    | .linkDma d => .unit (s.die d).inc (s.die d).progress
    | .queueManager => .unit s.qmg.inc s.qmg.progress)

/-- Slots in a range, running or not at their reset value. -/
def slotsIn (s : State) (lo n : Nat) : Tab SlotState := s.slots.filter fun e => decide (lo ≤ e.1 ∧ e.1 < lo + n)

/-- The counters of a run of cores. -/
def syncSect (s : State) (first n : Nat) : DumpSect :=
  mkSect sectSync first 0 (.sync first n ((s.cores.filter fun e => decide (first ≤ e.1 ∧ e.1 < first + n)).map fun e => (e.1, e.2.sync))
    ((slotsIn s (64 * first) (64 * n)).map fun e => (e.1, (e.2.scBase.toNat, e.2.scCount))))

/-- The counters of a panel with their owners. -/
def panelSyncSect (s : State) (p : Panel) : DumpSect :=
  mkSect sectSync p.val 1 (.panelSync (s.panel p).sync
    (s.qmg.ctxs.flatMap fun e => (e.2.panelScs.filter fun x => x.1 == p.val).map fun x => (e.1, x.2)))

/-- A slot with its vector registers. -/
def slotSect (e : Nat × SlotState) : DumpSect := mkSect sectSlot e.1 1 (.vectors e.1 e.2)

/-- The runs of consecutive numbers in an ascending list: first and length (R438). -/
def runsOf : List Nat → List (Nat × Nat)
  | [] => []
  | x :: t => match runsOf t with
    | (y, n) :: r => if x + 1 = y then (x, n + 1) :: r else (x, 1) :: (y, n) :: r
    | [] => [(x, 1)]

/-- The queues of contexts that a test names, one section for each run of them, and their descriptors without a record; records
that wait for the CXL link are among these (R396). -/
def queueSects (s : State) (all : Bool) (t : Nat → Bool) : List DumpSect :=
  let owner := fun (q : Nat) => match s.group (q / 64) with
    | (c, v) => if v then some c.val else none
  let mine := (rangeFrom 0 65536).filter fun q => all || match owner q with
    | some c => t c
    | none => false
  let own := s.qmg.queues.filterMap fun e => (owner e.1).map fun c => (e.1, c)
  let open_ := ((s.qmg.descs.filter fun e => all || t e.2.ctx.val).map fun e =>
      (⟨⟨e.1 / 2 ^ 32 % 65536, Nat.mod_lt _ (by decide)⟩, BitVec.ofNat 32 e.1⟩ : DescId))
    ++ (s.qmg.held.map fun h => h.desc).filter fun d => all || match owner d.q.val with
      | some c => t c
      | none => false
  ((runsOf mine).map fun r => mkSect sectQueues r.1 0 (.queues r.1 r.2 s.qmg.queues own)) ++ [mkSect sectQueues 0 1 (.accepted open_)]

/-- The contexts that a test names, one section for each run of them. -/
def ctxSects (s : State) (t : Nat → Bool) : List DumpSect :=
  (runsOf ((rangeFrom 0 1024).filter t)).map fun r => mkSect sectContexts r.1 0 (.contexts r.1 r.2 s.qmg.ctxs)

/-- What an engine's rung collects: the engines, their core, the slots of the suspect parts, the suspect contexts. -/
def engineSects (s : State) (firsts : List DumpSect) (core : Option Core) (slots : List Slot) (sus : List Ctx) : List DumpSect :=
  let t := fun (c : Nat) => sus.any fun x => x.val == c
  firsts ++ ((match core with
    | some c => [syncSect s c.val 1]
    | none => []) ++ (slots.map fun x => slotSect (x.val, s.slot x)) ++ queueSects s false t ++ ctxSects s t)

/-- Contexts with a part on a panel. -/
def panelCtxs (s : State) (p : Panel) (c : Nat) : Bool :=
  s.qmg.descs.any fun e => e.2.ctx.val == c && e.2.parts.any fun x =>
    x.unit / 40 == p.val || x.unit == 162 + p.val || x.unit == 166 + p.val

/-- What the panel rung collects of a panel; the chip rung takes every queue and context. -/
def panelSects (s : State) (p : Panel) (all : Bool) (t : Nat → Bool) : List DumpSect :=
  let cores : List Core := (List.finRange 160).filter fun c => corePanel c == p
  let slots := slotsIn s (2560 * p.val) 2560
  (cores.flatMap fun c => [engineSect s c .matrix, engineSect s c .vector, engineSect s c .mover])
    ++ [unitSect s (.update p), syncSect s (40 * p.val) 40, panelSyncSect s p,
        mkSect sectSlot (2560 * p.val) 0 (.slots (2560 * p.val) 2560 slots)]
    ++ ((slots.filter fun e => e.2.stopped).take 64).map slotSect
    ++ queueSects s all t ++ ctxSects s t ++ [mkSect sectEvents p.val 0 (.events (s.path (.panel p)).ring)]

def rungSects (s : State) (p : Panel) : List DumpSect := panelSects s p false (panelCtxs s p)

/-- LNK.CNTn, SWCNTd, RSTr, EPJj and STATn, in that order. -/
def linkWords (s : State) : List Nat :=
  ((List.finRange 32).flatMap fun l => (rangeFrom 0 12).map fun k => linkRead (s.link l) (0x20 + 8 * k))
    ++ (([0, 1] : List Die).flatMap fun d => (rangeFrom 0 12).map fun k => dieWord (s.die d) k)
    ++ ((List.finRange 32).map fun r => ringRead s r) ++ (([0, 1, 2, 3, 4, 5, 6, 7] : List Job).map fun j => epochRead s j)
    ++ (List.finRange 32).map fun l => linkRead (s.link l) 0x08

/-- What the chip rung collects in panel p; the link dies, the queue manager and the links stand in panel 0's dump. -/
def chipSects (s : State) (p : Panel) : List DumpSect :=
  let rest := panelSects s p true (fun _ => true)
  if p = 0 then
    [unitSect s (.linkDma 0), unitSect s (.linkDma 1), unitSect s .queueManager] ++ rest ++ [mkSect sectLinks 0 0 (.links (linkWords s))]
  else rest

/-- The rails in millivolts: the core supplies follow the clock points, the others are fixed (R453, R455). -/
def railMv (s : State) : List Nat :=
  [6000] ++ (([0, 1, 2, 3] : List Panel).map fun p => 5 * vcoreOf (min (s.panel p).coreOp (s.panel p).matrixOp))
    ++ [800, 800, 800, 800, 750, 750, 900, 1200, 1800]

/-- What stage 5 collects: input voltage, rails and sensors of the last millisecond. -/
def sagSects (s : State) : List DumpSect := [mkSect sectSag 0 0 (.sag s.pwr.samples (railMv s))]

/-! ### The dump in memory (R437, R438) -/

/-- Section entries that the header area holds at most. -/
def maxSects : Nat := 252

/-- The entries of the section table, sections one behind the other from off on. -/
def sectTable : Nat → List DumpSect → List Nat
  | _, [] => []
  | off, x :: t =>
    (x.type.toNat + 2 ^ 16 * x.unit.toNat + 2 ^ 32 * x.sub.toNat) :: (off % 2 ^ 32 + 2 ^ 32 * (x.len % 2 ^ 32))
      :: sectTable (off + x.len) t

/-- Bytes of a dump, its header area included. -/
def dumpBytes (l : List DumpSect) : Nat := l.foldl (fun n x => n + x.len) 4096

/-- Words 0 to 6 of a dump's header; fw is the running bundle. -/
def dumpWords (d : Dump) (fw : Nat) : List Nat :=
  [d.rung.toNat + 2 ^ 8 * d.panel.val + 2 ^ 16 * d.sects.length + 2 ^ 32 * d.cause.toNat + 2 ^ 48 * d.source.toNat,
   d.seq.toNat, d.gauge.toNat, d.cycle.toNat, dumpBytes d.sects % 2 ^ 32 + 2 ^ 32 * fw,
   bnat d.truncated + 2 * bnat d.shadow, 0]

/-- A dump's header and its section table. -/
def dumpHeader (d : Dump) (fw : Nat) : List Byte :=
  let head := wordBytes (dumpWords d fw)
  let table := wordBytes (sectTable 4096 d.sects)
  head ++ (sha512 (head ++ table)).take 8 ++ table

/-- The physical address of a dump slot (R298). -/
def dumpAddr (p : Panel) (k : Nat) : Nat := p.val * panelSpan + reserveOff + 192 * 2 ^ 20 + k * 2 ^ 23

/-- SEQ of the valid dump in a slot: its CHECK matches its header and section table. -/
def dumpAt (s : State) (p : Panel) (k : Nat) : Option Nat :=
  let a := dumpAddr p k
  let n := readNat s.mem.gddr (a + 2) 2
  if 1 ≤ n ∧ n ≤ maxSects ∧
      (sha512 (readBytes s.mem.gddr a 56 ++ readBytes s.mem.gddr (a + 64) (16 * n))).take 8 = readBytes s.mem.gddr (a + 56) 8 then
    some (readNat s.mem.gddr (a + 8) 8)
  else none

/-- The slot that a panel's next dump takes: one without a valid dump, else that of the lowest SEQ. -/
def dumpSlot (s : State) (p : Panel) : Nat :=
  let at_ := fun k => dumpAt s p k
  (rangeFrom 1 7).foldl (fun m k => match at_ m, at_ k with
    | none, _ => m
    | some _, none => k
    | some a, some b => if b < a then k else m) 0

/-- The panel's memory controllers take a dump. -/
def dumpable (s : State) (p : Panel) : Bool := !(s.memCtl p).inReset && !(s.memCtl p).selfRefresh

/-- Puts a dump into a slot of its panel: zeros over the old header, the sections, then the header; a valid dump that host software
has not read is lost with an event. -/
def placeDump (s : State) (d : Dump) : State :=
  let k := dumpSlot s d.panel
  let old := dumpAt s d.panel k
  let a := dumpAddr d.panel k
  let s := gddrWrite s a (List.replicate 4096 0)
  let s := gddrWrite s (a + 4096) (d.sects.flatMap fun x => sectBytes x.body)
  let s := gddrWrite s a (dumpHeader d s.sec.fwVersion.toNat)
  match old with
  | some o => if s.glb.dumpAck.toNat < o then raiseEv s evDumpLost (srcBench d.panel) [o] else s
  | none => s

/-- Sections that fit into the room of the shadow. -/
def shadowFit : Nat → List DumpSect → List DumpSect
  | _, [] => []
  | room, x :: t => if x.len ≤ room then x :: shadowFit (room - x.len) t else []

/-- Writes a dump of a rung: into a slot, or into the shadow while the panel's GDDR7 cannot be written. -/
def writeDump (s : State) (rung : Nat) (p : Panel) (cause src : BitVec 16) (sects : List DumpSect) : State :=
  let l := sects.take maxSects
  let seq := s.glb.dumpSeq + 1
  let s := { s with glb := { s.glb with dumpSeq := seq } }
  let d : Dump := { rung := BitVec.ofNat 8 rung, panel := p, cause := cause, source := src, seq := seq, gauge := gaugeField s,
                    cycle := panelCycle s p, truncated := maxSects < sects.length, shadow := false, sects := l }
  if dumpable s p then placeDump s d
  else
    let fit := shadowFit (2 ^ 21 - 4096) l
    let d := { d with truncated := fit.length < sects.length, shadow := true, sects := fit }
    { s with glb := { s.glb with shadows := tabPut s.glb.shadows p.val d } }

/-- Copies a panel's shadow to GDDR7 once its controllers answer. -/
def copyShadow (s : State) (p : Panel) : State :=
  match tabFind s.glb.shadows p.val with
  | some d =>
    if dumpable s p then
      let s := placeDump s d
      { s with glb := { s.glb with shadows := tabErase s.glb.shadows p.val } }
    else s
  | none => s

/-- The dumps of the chip rung and of a request, one of each panel. -/
def chipDumps (s : State) (rung : Nat) (cause src : BitVec 16) : State :=
  ([0, 1, 2, 3] : List Panel).foldl (fun s p => writeDump s rung p cause src (chipSects s p)) s

end Sys2Proof.Machine
end

