-- ==== Sys2Proof/Machine/Rungs.lean ====
section
/-!
DEFINITION. How a rung of the reset ladder is started (R426, R427, R436) and how one passes to a higher one (R441, R442). The
panel and the chip rung collect and write their dumps when they start, and hold the memory controllers in reset until
Resets.lean carries them out (log entry 51).
-/

namespace Sys2Proof.Machine

open Sys2Proof

/-- n seconds in ticks (R13). -/
def secTicks (n : Nat) : Nat := n * 156250000

def rungOn (s : State) (r : RungScope) : Bool := s.glb.rungs.any fun x => decide (x.scope = r)

/-- The ticks of a list that lie within the last n ticks. -/
def recent (s : State) (n : Nat) (l : List Nat) : List Nat := l.filter fun t => decide (s.now < t + n)

/-- Puts a rung among those in progress. -/
def pushRung (s : State) (r : RungScope) (cause src : BitVec 16) : State :=
  { s with glb := { s.glb with rungs := s.glb.rungs ++ [⟨r, s.now, cause, src⟩] } }

def dropRung (s : State) (r : RungScope) : State :=
  { s with glb := { s.glb with rungs := s.glb.rungs.filter fun x => decide (x.scope ≠ r) } }

/-- The run of a rung, if it is in progress. -/
def rungRun (s : State) (r : RungScope) : Option RungRun := s.glb.rungs.find? fun x => decide (x.scope = r)

/-- With AUTO_ESC = 0 no condition escalates: the event of the rung is raised, and the module waits for host software. -/
def escalate (s : State) (code src : BitVec 16) (args : List Nat) (start : State → State) : State :=
  if s.glb.autoEsc then start s
  else raiseEv { s with glb := { s.glb with escWait := true } } code src args

/-- Starts the power-cycle rung (R442). -/
def startPower (cause : BitVec 16) (s : State) : State :=
  match s.glb.powerRung with
  | some _ => s
  | none => { s with glb := { s.glb with powerRung := some cause } }

/-- A panel's memory controllers put their devices into self-refresh, and enter the time in which they answer nothing (R302,
R303). -/
def holdMem (s : State) (p : Panel) : State := s.setMemCtl p { s.memCtl p with inReset := true, selfRefresh := true }

/-- A panel's memory controllers answer again, and bring their devices out of self-refresh unless stage 5 keeps it (R302, R461):
MEM_UNAVAIL tells what they missed, and a dump in the shadow is copied. -/
def freeMem (s : State) (p : Panel) : State :=
  let c := s.memCtl p
  let s := s.setMemCtl p { selfRefresh := s.pwr.stage5 }
  let s := if c.inReset && (c.readsPoisoned != 0 || c.writesDropped != 0) then
      raiseEv s evMemUnavail (srcMem p) [c.readsPoisoned, c.writesDropped] else s
  copyShadow s p

/-- A fault of a fabric switch, the CXL port or the security block: a chip rung that one of them starts (R29, R441). -/
def unitFault (cause src : BitVec 16) : Bool :=
  cause == evResetChip && (src == srcSwitch 0 || src == srcSwitch 1 || src == srcQmg || src == srcSecurity)

/-- Under what a fault that starts the chip rung is kept: its code, and for a fault of a unit its source too. -/
def faultKey (cause src : BitVec 16) : Nat := cause.toNat + if unitFault cause src then 2 ^ 16 * src.toNat else 0

/-- A fault that starts the chip rung on its first occurrence recurs within 600 s (R441). -/
def recurs (s : State) (cause src : BitVec 16) : Bool :=
  (cause == evRingSlotFault || unitFault cause src)
    && s.glb.chipFaults.any fun f => f.1 == faultKey cause src && decide (s.now < f.2 + secTicks 600)

/-- Words 0 and 1 of GLB.RSTCNT (R443). -/
def rstWords (s : State) : List Nat :=
  let g := s.glb
  [g.ctxRungs.toNat + 2 ^ 16 * g.engRungs.toNat + 2 ^ 32 * g.pnlRungs.toNat + 2 ^ 48 * g.chipRungs.toNat, g.lateDrop.toNat]

/-- The chip bench copies the event counters, LOGIDX, LOGACK and RSTCNT into the chip-log header (R440, R450; their order there is the
model's, log entry 125). -/
def copyCounters (s : State) : State :=
  gddrWrite s chipLogBase (wordBytes (((rangeFrom 0 32).map fun w => evCntWord s w % 2 ^ 64)
    ++ [s.ev.chipLog.written % 2 ^ 32, s.ev.chipLog.ack % 2 ^ 32] ++ rstWords s))

/-- Packets that wait at an exit and have been injected: those that arrived on a ring. A packet in an injection queue has not
been counted in INJECTED, and is not counted here (R348). -/
def waiting (l : List Cand) : Nat := (l.filter fun c => c.ring.isSome).length

/-- Packets that a ring holds, or that wait at its entry. -/
def ringPackets (x : RingState) : Nat :=
  ((x.thru ++ x.entered).map fun b => b.packets.length).sum + waiting x.cand

/-- Packets held at a link die. -/
def diePackets (s : State) (d : Die) : Nat :=
  (s.lnk.rings.map fun e => if e.1 / 16 = d.val then ringPackets e.2 else 0).sum
    + waiting (s.die d).cand + (s.die d).dbufs.length

/-- A link die idles at the start of a chip rung: packets that the switch holds are counted as discarded, its links go to electrical
idle, and frames in replay buffers become in doubt (R322, R350, R513). -/
def idleDie (s : State) (d : Die) : State :=
  let n := diePackets s d
  let up := (s.lnk.links.filter fun e => e.1 / 16 == d.val && e.2.phase != .off).map Prod.fst
  let s := s.setDie d { s.die d with inReset := true, resetDiscard := (s.die d).resetDiscard + n, cand := [], dbufs := [] }
  let s := { s with lnk := { s.lnk with
    rings := (s.lnk.rings.map fun e => if e.1 / 16 = d.val then
      (e.1, { e.2 with thru := [], entered := [], cand := [] }) else e).filter fun e => e.2 ≠ ({} : RingState)
    links := s.lnk.links.map fun e => if e.1 / 16 = d.val then (e.1, { toDoubt e.2 with phase := .off, step := 0 }) else e } }
  up.foldl (fun s k => if h : k < 32 then s.emit (.idle ⟨k, h⟩) else s) s

/-- The event of a chip rung: on every path; where the chip bench has failed, the panel rings go unread, and the security block's event
stands on I3C alone (R436, R442, R451; log entry 127). -/
def chipNotice (cause : BitVec 16) (s : State) : State :=
  let args := [cause.toNat, s.glb.dumpSeq.toNat + 1]
  if cause = evWdogChip then raiseI3c s evResetChip args else raiseEv s evResetChip srcModule args

/-- The paths are closed: read and flushed by the chip bench, unless it has failed; what is held then is dropped with its count. -/
def chipClose (cause : BitVec 16) (s : State) : State := if cause = evWdogChip then dropHeld s else closePaths s

/-- The chip rung starts (R436): its event, the link dies idle, each panel writes its dump; events raised meanwhile are taken too, the
counters are copied, and every memory controller enters reset. -/
def beginChip (cause src : BitVec 16) (s : State) : State :=
  let s := { s with glb := { s.glb with
    chipRungAt := s.now :: recent s (secTicks 600) s.glb.chipRungAt, chipFaults := (faultKey cause src, s.now) :: s.glb.chipFaults } }
  let s := copyCounters (chipClose cause (chipNotice cause s))
  let s := idleDie (idleDie s 0) 1
  let s := chipDumps s 4 cause src
  let s := pushRung (copyCounters (chipClose cause s)) .chip cause src
  ([0, 1, 2, 3] : List Panel).foldl (fun s p => holdMem (s.setPanel p { s.panel p with state := 1 }) p) s

/-- Starts the chip rung, or the power cycle where R441 passes on. -/
def startChip (cause src : BitVec 16) (s : State) : State :=
  let up := fun s => escalate s evPowerCycleWanted src [cause.toNat] (startPower cause)
  match rungRun s .chip with
  | some r => if cause = evWdogChip ∧ r.cause = evWdogChip then up s else s
  | none =>
    if 2 ≤ (recent s (secTicks 600) s.glb.chipRungAt).length ∨ recurs s cause src = true then up s
    else beginChip cause src s

/-- A condition that would start the chip rung for a panel: under AUTO_ESC = 0 the panel is held for host software (R494). -/
def panelToChip (p : Panel) (cause src : BitVec 16) (s : State) : State :=
  escalate (if s.glb.autoEsc then s else s.setPanel p { s.panel p with state := 2 }) evResetChip src [cause.toNat] (startChip cause src)

/-- The panel rung starts (R436): event, no new parts, dump, memory controllers into reset. -/
def beginPanel (p : Panel) (cause src : BitVec 16) (s : State) : State :=
  let s := copyCounters (raiseEv s evResetPanel (srcBench p) [cause.toNat, s.glb.dumpSeq.toNat + 1])
  let s := s.setPanel p { s.panel p with state := 1, rungs := [s.now] }
  let s := writeDump s 3 p cause src (rungSects s p)
  holdMem (pushRung s (.panel p) cause src) p

/-- Starts the panel rung; the chip rung for panel 0 (R427) and for the second within 60 s (R441). -/
def startPanel (p : Panel) (cause src : BitVec 16) (s : State) : State :=
  if p = 0 then startChip cause src s
  else if rungOn s (.panel p) || rungOn s .chip then s
  else if recent s (secTicks 60) (s.panel p).rungs ≠ [] then panelToChip p cause src s
  else beginPanel p cause src s

/-- An engine's condition that passes to its panel's rung (R441). -/
def engineToPanel (p : Panel) (cause src : BitVec 16) (s : State) : State :=
  if p = 0 then panelToChip p cause src s
  else escalate (if s.glb.autoEsc then s else s.setPanel p { s.panel p with state := 2 }) evResetPanel src [cause.toNat]
    (startPanel p cause src)

/-- The unit itself fails: a chip-level fault (R29, R349). -/
def chipFault (s : State) (code src : BitVec 16) (args : List Nat) : State :=
  startChip code src (raiseEv s code src args)

/-- Notes the highest rung taken since power-on (R493). -/
def noteRung (n : Nat) (s : State) : State :=
  { s with glb := { s.glb with lastRung := BitVec.ofNat 3 (max s.glb.lastRung.toNat n) } }

/-- A 16-bit count of rungs, which stops at its greatest value (R443). -/
def count16 (c : BitVec 16) : BitVec 16 := if c = 0xFFFF then c else c + 1

end Sys2Proof.Machine
end

