-- ==== Sys2Proof/Machine/Status.lean ====
section
/-!
DEFINITION. Completion status codes (R388), the stage in force (R458, R464, R467), and jobs of a context.
-/

namespace Sys2Proof.Machine

open Sys2Proof

/-! ### Status codes (R388) -/

def stOk : BitVec 16 := 0x0000
def stPartial : BitVec 16 := 0x0001
def stAborted : BitVec 16 := 0x0002
def stAbortLate : BitVec 16 := 0x0003
def stCancelled : BitVec 16 := 0x0004
def stBadDescriptor : BitVec 16 := 0x0005
def stArgsFault : BitVec 16 := 0x0006
def stNoTarget : BitVec 16 := 0x0007
def stLadderStep : BitVec 16 := 0x0010
def stNoLive : BitVec 16 := 0x0011
def stUpdateStale : BitVec 16 := 0x0012
def stEpochLimit : BitVec 16 := 0x0013
def stTagLogFull : BitVec 16 := 0x0014
def stCommitted : BitVec 16 := 0x0015
def stRefused : BitVec 16 := 0x0016
def stFlagged : BitVec 16 := 0x0020
def stNoRoute : BitVec 16 := 0x0021
def stRouteBroken : BitVec 16 := 0x0022
def stNoRouteSpace : BitVec 16 := 0x0023
def stEpochMissed : BitVec 16 := 0x0024
def stMapDenied : BitVec 16 := 0x0030

/-- Marks a descriptor that has no record yet with a status, unless it has one already. -/
def markDesc (s : State) (d : DescId) (status : BitVec 16) : State :=
  match s.desc? d with
  | some x => if x.status = 0 then s.setDesc d { x with status := status } else s
  | none => s

/-! ### Stage 4 and the release of the bench controllers (R460, R475, R478) -/

/-- The number under which a sensor's state is kept. -/
def sensorKey : Sensor → Nat
  | .junction p i => 8 * p.val + i.val
  | .link d i => 32 + 4 * d.val + i.val
  | .gddr dev => 40 + dev.val
  | .stage i => 64 + i.val
  | .inlet => 70
  | .outlet => 71

/-- No new work is issued in a panel (R460). -/
def noNewWork (s : State) (p : Panel) : Bool := decide (4 ≤ stageIn s p)

/-- A link die injects nothing while either panel beside it is at stage 4 or above (R460, R18; log entry 23). -/
def noInjection (s : State) (d : Die) : Bool :=
  if d = 0 then noNewWork s 0 || noNewWork s 1 else noNewWork s 2 || noNewWork s 3

/-- The bench controllers run: they are released from reset only after LOCK (R475, R478). -/
def benchUp (s : State) : Bool := s.pwr.pwrGood && s.sec.lock

/-! ### Host writes (R478) -/

/-- CXL.io reaches the module: it has power, and PERST# does not hold the port in reset (R366, R504). -/
def hostUp (s : State) : Bool := s.pwr.pwrGood && !s.pwr.perst

/-- A write of host software to BAR0: until LOCK it is ignored and counted in LOCKVIOL; a module that no write reaches sees none. -/
def hostWrite (s : State) (g : State → State) : State :=
  if !hostUp s then s
  else if s.sec.lock then g s else { s with sec := { s.sec with lockViol := s.sec.lockViol + 1 } }

/-! ### Jobs -/

/-- The lowest job that a context has set up. -/
def ctxJob (s : State) (c : Ctx) : Option Job :=
  [0, 1, 2, 3, 4, 5, 6, 7].find? fun j => (s.job j).resident && decide ((s.job j).ctx = c)

/-- The jobs that a context has set up. -/
def ctxJobs (s : State) (c : Ctx) : List Job :=
  [0, 1, 2, 3, 4, 5, 6, 7].filter fun j => (s.job j).resident && decide ((s.job j).ctx = c)

end Sys2Proof.Machine
end

