-- ==== Sys2Proof/Machine/Fabric.lean ====
section
/-!
DEFINITION. Rings, routes, packets, deflection, reservations, route epochs and the sending of messages (R326 to R349).
-/

namespace Sys2Proof.Machine

open Sys2Proof

/-! ### Ring buffers (R327, R329, R349) -/

/-- General buffers that are free. -/
def ringFree (x : RingState) : Nat := 8 - generalHeld x

/-- The check of R349: a mismatch is a chip-level fault. -/
def checkRing (s : State) (r : Ring) : State :=
  let x := s.ring r
  if 8 < generalHeld x ∨ 64 < reserveHeld x then
    chipFault s evRingSlotFault (srcSwitch (ringDie r)) [r.val]
  else s

/-! ### Packet headers (R332, R333) -/

/-- CTL of a header. -/
def hdrCtl (h : PktHdr) : Nat :=
  h.epoch.toNat + 4 * bnat h.senior + 8 * h.defl.toNat + 2 ^ 5 * h.seg.toNat + 2 ^ 8 * h.nseg.toNat + 2 ^ 11 * bnat h.last
  + 2 ^ 12 * h.kind.toNat + 2 ^ 15 * h.job.toNat + 2 ^ 18 * h.poison.toNat

/-- Bytes 0 to 59 of a header. -/
def hdrBytes (h : PktHdr) : List Byte :=
  wordBytes [hdrCtl h + 2 ^ 32 * h.hopsLeft.toNat + 2 ^ 40 * h.gen.toNat + 2 ^ 48 * h.plen.toNat,
    h.srcRank.toNat + 2 ^ 16 * h.dstRank.toNat + 2 ^ 32 * h.msgId.toNat,
    h.route0.toNat, h.route1.toNat, h.msgLen.toNat + 2 ^ 32 * h.offset.toNat, h.dstAddr.toNat, h.injTick.toNat]
  ++ leBytes 4 0

def hcrcOk (h : PktHdr) : Bool := h.hcrc == crc32c (hdrBytes h)
def sealHdr (h : PktHdr) : PktHdr := { h with hcrc := crc32c (hdrBytes h) }

/-- Replaces a packet's header fields and writes a new HCRC (R333). -/
def rewrite (p : Packet) (g : PktHdr → PktHdr) : Packet := { p with hdr := sealHdr (g p.hdr) }

/-! ### Routes (R334) -/

/-- Segment i of a route given as its two words. -/
def segment (w0 w1 : Nat) (i : Nat) : Nat := if i < 4 then fld w0 (16 * i) 16 else fld w1 (16 * (i - 4)) 16
def segRing (x : Nat) : Ring := ringOf (2 * (x % 16) + x / 16 % 2)
def segHops (x : Nat) : Nat := x / 256 % 256

/-- Segments of a route that have hops, from the first on. -/
def routeSegs (r : W64 × W64) : List Nat :=
  ((rangeFrom 0 8).map (segment r.1.toNat r.2.toNat)).takeWhile fun x => segHops x ≠ 0

/-- Consecutive segments name different rings. -/
def ringsDiffer : List Nat → Bool
  | a :: b :: t => segRing a != segRing b && ringsDiffer (b :: t)
  | _ => true

/-- A rank-table entry is a valid route, or names an unreachable rank (R334, R340). -/
def routeOk (len : List Nat) (r : W64 × W64) : Bool :=
  let all := (rangeFrom 0 8).map (segment r.1.toNat r.2.toNat)
  let used := routeSegs r
  segHops (nth all 0) == 0
  || (used.all (fun x => fld x 5 3 == 0 && decide (segHops x + 1 ≤ nth len (segRing x).val))
      && ringsDiffer used && (all.drop used.length).all (· == 0))

/-- A ring table holds 0 or a LEN from 2 to 255 for each ring (R341). -/
def ringTableOk (len : List Nat) : Bool := len.all (· != 1)

/-! ### Counters of a die (R348) -/

def updDie (s : State) (d : Die) (g : DieState → DieState) : State := s.setDie d (g (s.die d))
def updRing (s : State) (r : Ring) (g : RingState → RingState) : State := s.setRing r (g (s.ring r))

def countBroken (d : Die) (n : Nat) (s : State) : State :=
  updDie s d fun x => { x with brokenDiscard := x.brokenDiscard + n }

/-! ### Epochs (R341, R343) -/

def hdrJob (h : PktHdr) : Job := ⟨h.job.toNat, by have := h.job.isLt; omega⟩

/-- A module accepts packets of the live epoch, of the previous one below the drain mark, and of the next one once staged. -/
def epochOk (s : State) (h : PktHdr) : Bool :=
  let j := s.job (hdrJob h)
  j.resident && (h.epoch == j.live
    || (h.epoch == j.prev && match j.drainMark with
        | some m => decide (s.gau.count.toNat < m.toNat)
        | none => false)
    || match j.change with
        | some c => c.staged && !c.switched && h.epoch == c.epoch
        | none => false)

/-- LEN of a ring in a packet's own epoch. -/
def ringLen (s : State) (h : PktHdr) (r : Ring) : Nat := nth (tabGet [] (s.job (hdrJob h)).ringLen h.epoch.toNat) r.val

/-! ### Broken rings (R347) -/

def exitBroken (s : State) : Exit → Bool
  | .ring r => ringBroken (s.ring r)
  | .delivery _ => false

/-- Both rings that a lost link carries are broken, and what would leave on it is discarded. -/
def breakRings (s : State) (l : Link) : State :=
  let s := updRing s (arrivingRing l) fun x => { x with brokenIn := true }
  let r := leavingRing l
  let x := s.ring r
  let n := ((x.thru ++ x.entered).map fun b => b.packets.length).sum
  let s := s.setRing r { x with brokenOut := true, thru := [], entered := [] }
  countBroken (ringDie r) n s

/-! ### Through packets (R328, R330) -/

/-- Places the through packets of one received frame, or one deflected packet, in a buffer of its ring. -/
def placeThrough (s : State) (r : Ring) (ps : List Packet) : State :=
  let x := s.ring r
  if ps = [] then s
  else if x.brokenOut then countBroken (ringDie r) ps.length s
  else
    let resOk := decide (reserveHeld x < 64)
    let genOk := decide (0 < ringFree x)
    let prefer := replaying s r || x.thru != []
    if (prefer && resOk) || (!genOk && resOk) then
      s.setRing r { x with thru := x.thru ++ [⟨ps, true⟩] }
    else if genOk then s.setRing r { x with thru := x.thru ++ [⟨ps, false⟩] }
    else updDie s (ringDie r) fun d => { d with ringOverrun := d.ringOverrun + ps.length }

/-- The oldest reservation that holds no buffer takes one (R337). -/
def fillFirst : List Reservation → List Reservation
  | [] => []
  | r :: t => if r.held then r :: fillFirst t else { r with held := true } :: t

/-- A general buffer of a ring has become free. -/
def freeGeneral (x : RingState) : RingState := { x with rsv := fillFirst x.rsv }

/-! ### Arrival (R335) -/

/-- The exit of a packet whose hops are spent, for a packet that arrived on ring r. -/
def exitOf (r : Ring) (h : PktHdr) : Exit :=
  if h.seg = h.nseg then .delivery (ringDie r)
  else .ring (segRing (segment h.route0.toNat h.route1.toNat (h.seg.toNat + 1)))

/-- Puts a candidate at an exit. -/
def addCand (s : State) (e : Exit) (c : Cand) : State :=
  match e with
  | .ring t => updRing s t fun x => { x with cand := x.cand ++ [c] }
  | .delivery d => updDie s d fun x => { x with cand := x.cand ++ [c] }

/-- The transfer into a ring whose LEN is 0 (R341). -/
def exitLenZero (s : State) (h : PktHdr) : Exit → Bool
  | .ring t => ringLen s h t == 0
  | .delivery _ => false

/-- One arriving packet: the state after it, and the packet where it goes through. -/
def arrive (r : Ring) (acc : State × List Packet) (p : Packet) : State × List Packet :=
  let s := acc.1
  let d := ringDie r
  if !hcrcOk p.hdr then (updDie s d fun x => { x with hcrcDiscard := x.hcrcDiscard + 1 }, acc.2)
  else if !epochOk s p.hdr then (updDie s d fun x => { x with epochDiscard := x.epochDiscard + 1 }, acc.2)
  else
    let p := rewrite p fun h => { h with hopsLeft := h.hopsLeft - 1 }
    if p.hdr.hopsLeft ≠ 0 then (s, acc.2 ++ [p])
    else
      let t := exitOf r p.hdr
      if exitBroken s t || exitLenZero s p.hdr t then (countBroken d 1 s, acc.2)
      else (addCand s t ⟨p, some r, s.now⟩, acc.2)

/-- The packets of a frame that was received on a link: through packets take their buffer first (R328, R350). -/
def frameArrives (s : State) (l : Link) (ps : List Packet) : State :=
  let r := arrivingRing l
  let (s, thru) := ps.foldl (arrive r) (s, [])
  placeThrough s r thru

/-! ### Reservations (R337) -/

/-- A reservation is that of a packet: an ACK carries the number of its receiver's message, so kind and destination belong to the name
(R337, R346). -/
def rsvMatches (h : PktHdr) (x : Reservation) : Bool :=
  x.job == h.job && x.src == h.srcRank && x.msg == h.msgId && x.offset == h.offset && x.kind == h.kind && x.dst == h.dstRank

def exitRsv (s : State) : Exit → List Reservation
  | .ring t => (s.ring t).rsv
  | .delivery d => (s.die d).rsv

def setExitRsv (s : State) (e : Exit) (l : List Reservation) : State :=
  match e with
  | .ring t => updRing s t fun x => { x with rsv := l }
  | .delivery d => updDie s d fun x => { x with rsv := l }

/-- Ends reservations that a test names; a general buffer that one held becomes free. -/
def endRsv (s : State) (e : Exit) (t : Reservation → Bool) : State :=
  let l := exitRsv s e
  let freed := (l.filter fun x => t x && x.held).length
  setExitRsv s e ((rangeFrom 0 freed).foldl (fun l _ => fillFirst l) (l.filter fun x => !t x))

/-! ### Delivery exits (R335, R339) -/

def kindData : BitVec 3 := 0
def kindAck : BitVec 3 := 1
def kindColl : BitVec 3 := 2

/-- Delivery buffers of a link DMA: at least one. -/
def deliveryBufs : Nat := Config.deliveryBuffers + 1

/-- Delivery buffers in use by packets that have no buffer set aside for them. -/
def dbufsHeld (x : DieState) : Nat :=
  (x.dbufs.filter fun p => p.hdr.kind != kindColl).length + (x.rsv.filter fun r => r.held).length

/-- A receive entry is that of a packet's message; an entry set aside for a collective is found by its address (R339, R358). -/
def recvMatches (h : PktHdr) (r : RecvMsg) : Bool :=
  r.job == hdrJob h && r.src == h.srcRank && match r.coll with
    | some _ => h.kind == kindColl && r.dst == h.dstAddr
    | none => r.msg == h.msgId

/-- A packet's message is open at the receiver. -/
def recvOpen (x : DieState) (h : PktHdr) : Bool := x.recvs.any (recvMatches h)

/-- Open messages at both link DMAs, as a packet of either may belong to one. -/
def findRecv (s : State) (h : PktHdr) : Bool := recvOpen (s.die 0) h || recvOpen (s.die 1) h

/-- The packet needs a receive entry that no packet of its message has taken yet. -/
def needsEntry (s : State) (h : PktHdr) : Bool := h.kind != kindAck && !findRecv s h

/-- Receive entries that are held for the reservations before a packet's own, or for all of them where it has none (R337). -/
def entriesAhead (l : List Reservation) (h : PktHdr) : Nat := ((l.takeWhile fun x => !rsvMatches h x).filter fun x => x.first).length

/-- The receive entry that a packet needs is there or free. -/
def recvRoom (s : State) (d : Die) (h : PktHdr) : Bool :=
  !needsEntry s h || decide ((s.die d).recvs.length + entriesAhead (s.die d).rsv h < 4096)

/-- The switch that counts for a packet that arrived on ring r makes its reservation. -/
def reserveFor (s : State) (e : Exit) (r : Ring) (h : PktHdr) : State :=
  let l := exitRsv s e
  if l.any (rsvMatches h) then s
  else if 2 ≤ l.length then updDie s (ringDie r) fun x => { x with seniorNores := x.seniorNores + 1 }
  else
    let first := match e with
      | .ring _ => false
      | .delivery _ => needsEntry s h
    setExitRsv s e (l ++ [⟨h.job, h.srcRank, h.msgId, h.offset, h.kind, h.dstRank, s.now, ringLen s h r, false, first⟩])

/-- The current generation tag of a packet's job matches it (R346). -/
def genOk (s : State) (h : PktHdr) : Bool := (s.job (hdrJob h)).resident && (s.job (hdrJob h)).gen == h.gen

/-- The delivery exits of a die are busy for every packet: a chip rung, or a reset of its link DMA (R339, R434). -/
def exitsBusy (s : State) (d : Die) : Bool := (s.die d).inReset || decide (s.now < (s.die d).busyUntil)

/-- A delivery exit is free for a packet. -/
def deliveryFree (s : State) (d : Die) (holder : Bool) (h : PktHdr) : Bool :=
  let x := s.die d
  !exitsBusy s d && (h.kind == kindColl || ((holder || decide (dbufsHeld x < deliveryBufs)) && recvRoom s d h))

/-- Opens a receive entry for the first packet of a message (R335, R345). -/
def openRecv (s : State) (d : Die) (h : PktHdr) : State :=
  if h.kind == kindAck || findRecv s h || !genOk s h then s
  else updDie s d fun x => { x with recvs := x.recvs ++ [⟨hdrJob h, h.srcRank, h.msgId, h.msgLen.toNat, 0, h.dstAddr, none⟩] }

/-- Takes a packet into a delivery buffer. -/
def takeDelivery (s : State) (d : Die) (p : Packet) : State :=
  let s := openRecv s d p.hdr
  updDie s d fun x => { x with dbufs := x.dbufs ++ [p], progress := s.now }

/-! ### Arbitration (R336) -/

/-- Whether an exit grants a packet now (R329, R337). -/
def granted (s : State) (e : Exit) (h : PktHdr) : Bool :=
  let holder := (exitRsv s e).any fun x => x.held && rsvMatches h x
  match e with
  | .ring t => holder || decide (2 ≤ ringFree (s.ring t))
  | .delivery d => deliveryFree s d holder h

/-- Puts a granted packet into the exit: it takes its buffer, and its reservation ends. -/
def enter (s : State) (e : Exit) (p : Packet) : State :=
  let s := setExitRsv s e ((exitRsv s e).filter fun x => !rsvMatches p.hdr x)
  match e with
  | .ring t =>
    updRing s t fun x => { x with entered := x.entered ++ [⟨[p], false⟩] }
  | .delivery d => takeDelivery s d p

/-- A transfer sets SEG and HOPS_LEFT for its next segment. -/
def advance (e : Exit) (p : Packet) : Packet :=
  match e with
  | .ring _ => rewrite p fun h =>
      { h with seg := h.seg + 1
               hopsLeft := BitVec.ofNat 8 (segHops (segment h.route0.toNat h.route1.toNat (h.seg.toNat + 1))) }
  | .delivery _ => p

/-- COLL packets take no reservation at a delivery exit (R339). -/
def mayReserve (e : Exit) (h : PktHdr) : Bool :=
  match e with
  | .ring _ => true
  | .delivery _ => h.kind != kindColl

/-- A packet that is not granted takes one more lap (R335). -/
def deflect (s : State) (e : Exit) (r : Ring) (p : Packet) : State :=
  let d := ringDie r
  let s := updDie s d fun x => { x with deflect := x.deflect + 1 }
  let lap := fun (h : PktHdr) => { h with hopsLeft := BitVec.ofNat 8 (ringLen s h r) }
  if p.hdr.senior then
    let s := if mayReserve e p.hdr then reserveFor s e r p.hdr else s
    placeThrough s r [rewrite p lap]
  else if p.hdr.defl = 2 then
    let s := updDie s d fun x => { x with madeSenior := x.madeSenior + 1 }
    placeThrough s r [rewrite p fun h => { lap h with defl := 3, senior := true }]
  else placeThrough s r [rewrite p fun h => { lap h with defl := h.defl + 1 }]

/-- Rank of a candidate by R336: reservation holders, seniors by age and then by number, others by arrival and ring. -/
def candKey (s : State) (e : Exit) (c : Cand) : List Nat :=
  let h := c.packet.hdr
  let age := (BitVec.ofNat 32 s.gau.count.toNat - h.injTick).toNat
  let ring := match c.ring with
    | some r => r.val
    | none => 32
  if (exitRsv s e).any (rsvMatches h) then [0]
  else if h.senior then [1, 2 ^ 32 - age, h.job.toNat, h.srcRank.toNat, h.msgId.toNat, h.offset.toNat]
  else [2, c.arrived, ring]

/-- Lexicographic order of keys. -/
def keyLt : List Nat → List Nat → Bool
  | [], [] => false
  | [], _ :: _ => true
  | _ :: _, [] => false
  | a :: s, b :: t => decide (a < b) || (a == b && keyLt s t)

def insertCand (k : Cand → List Nat) (c : Cand) : List Cand → List Cand
  | [] => [c]
  | x :: t => if keyLt (k c) (k x) then c :: x :: t else x :: insertCand k c t

def sortCands (k : Cand → List Nat) (l : List Cand) : List Cand := l.foldl (fun acc c => insertCand k c acc) []

def exitCands (s : State) : Exit → List Cand
  | .ring t => (s.ring t).cand
  | .delivery d => (s.die d).cand

def setExitCands (s : State) (e : Exit) (l : List Cand) : State :=
  match e with
  | .ring t => updRing s t fun x => { x with cand := l }
  | .delivery d => updDie s d fun x => { x with cand := l }

/-- Serves one candidate that arrived on a ring. -/
def serveTransit (e : Exit) (s : State) (c : Cand) : State :=
  match c.ring with
  | none => s
  | some r =>
    if exitBroken s e then countBroken (ringDie r) 1 s
    else if granted s e c.packet.hdr then enter s e (advance e c.packet)
    else deflect s e r c.packet

/-! ### Messages at their source (R335, R344, R346, R347) -/

/-- The key of a message in a table of sends. -/
def sendKey (j : Job) (m : W32) : Nat := j.val * 2 ^ 32 + m.toNat

def findSend (s : State) (d : Die) (j : Job) (m : W32) : Option SendMsg := tabFind (s.die d).sends (sendKey j m)
def putSend (s : State) (d : Die) (j : Job) (m : W32) (x : SendMsg) : State :=
  updDie s d fun y => { y with sends := tabPut y.sends (sendKey j m) x }
def dropSend (s : State) (d : Die) (j : Job) (m : W32) : State :=
  updDie s d fun y => { y with sends := tabErase y.sends (sendKey j m) }

/-- Closes a message that is not acknowledged: a slot's move and a stream's message stay, marked as failed, until what waits
for them sees it; the descriptor of a move takes the status. -/
def failSend (s : State) (d : Die) (j : Job) (m : W32) (status : BitVec 16) : State :=
  match findSend s d j m with
  | none => s
  | some x =>
    match x.owner with
    | .slotMove t =>
      let s := putSend s d j m { x with failed := true, waiting := 0 }
      match (s.slot t).desc with
      | some q => if (s.slot t).ctx = x.ctx then markDesc s q status else s
      | none => s
    | .secure _ _ | .restore _ | .back _ _ _ | .coll _ _ => putSend s d j m { x with failed := true, waiting := 0 }
    | .hostMove q => dropSend (markDesc s q status) d j m
    | _ => dropSend s d j m

/-- The die that keeps the send of a packet's message: a change of routes may have moved its packets to the other (R343). -/
def sendDie (s : State) (d : Die) (h : PktHdr) : Die := if (findSend s d (hdrJob h) h.msgId).isSome then d else 1 - d

/-- Counts a packet as injected; a message that awaits no ACK is closed with its last packet. An ACK carries the number of
another module's message, and belongs to no send here (R346). -/
def noteInjected (s : State) (d : Die) (h : PktHdr) : State :=
  let s := updDie s d fun x => { x with injected := x.injected + 1, progress := s.now }
  let k := sendDie s d h
  if h.kind == kindAck then s
  else match findSend s k (hdrJob h) h.msgId with
  | none => s
  | some x =>
    let x := { x with waiting := x.waiting - 1, injectedAt := s.now }
    if h.kind == kindColl && x.waiting == 0 then dropSend s k (hdrJob h) h.msgId else putSend s k (hdrJob h) h.msgId x

/-- The packet of an injection that is not made ends its message with a status; an ACK ends none (R347). -/
def failInjection (s : State) (d : Die) (h : PktHdr) (status : BitVec 16) : State :=
  if h.kind == kindAck then s else failSend s (sendDie s d h) (hdrJob h) h.msgId status

/-- The die whose link DMA injects at an exit. -/
def exitDie : Exit → Die
  | .ring t => ringDie t
  | .delivery d => d

/-- A packet enters its first ring or the own module's delivery: INJ_TICK and the live epoch are set (R335, R343). -/
def injectPacket (s : State) (e : Exit) (p : Packet) : State :=
  let p := rewrite p fun h => { h with injTick := BitVec.ofNat 32 s.gau.count.toNat, epoch := (s.job (hdrJob h)).live }
  enter (noteInjected s (exitDie e) p.hdr) e p

/-- A stage holds an injection back: a mover's by the stage of its own panel, a link DMA's own by those beside its die (R18, R460; log
entry 23). -/
def heldBack (s : State) (d : Die) (h : PktHdr) : Bool :=
  match if h.kind == kindAck then none else findSend s (sendDie s d h) (hdrJob h) h.msgId with
  | some x => match x.owner with
    | .slotMove t => noNewWork s (slotPanel t)
    | _ => noInjection s d
  | none => noInjection s d

/-- Serves the injection queue of an exit in order, for as long as the exit grants; one that would be granted while the ring is broken is
not made, and one that a stage holds back keeps its place (R336, R347, R460). -/
def serveInjections (e : Exit) : State → List Cand → State
  | s, [] => s
  | s, c :: t =>
    let d := exitDie e
    if heldBack s d c.packet.hdr then serveInjections e (setExitCands s e (exitCands s e ++ [c])) t
    else if !(s.die d).inReset && granted s e c.packet.hdr then
      serveInjections e (if exitBroken s e then failInjection s d c.packet.hdr stRouteBroken else injectPacket s e c.packet) t
    else setExitCands s e (exitCands s e ++ c :: t)

/-- One arbitration of an exit (R336). -/
def arbitrate (s : State) (e : Exit) : State :=
  let l := exitCands s e
  let s := setExitCands s e []
  let s := (sortCands (candKey s e) (l.filter fun c => c.ring.isSome)).foldl (serveTransit e) s
  let s := serveInjections e s (l.filter fun c => c.ring.isNone)
  match e with
  | .ring t => checkRing s t
  | .delivery _ => s

/-- What a message is made of. -/
structure MsgSpec where
  owner : SendOwner
  job : Job
  kind : BitVec 3
  dst : Nat
  dstAddr : Nat
  data : List Byte
  /-- Units of the message that carry poison, by number (R293). -/
  bad : List Nat
  deriving DecidableEq, Repr

/-- The route to a rank in a job's live bank; the own rank is delivered locally (R340). -/
inductive RouteTo where
  | local_
  | by_ (r : W64 × W64)
  | none_
  deriving DecidableEq, Repr

def routeTo (s : State) (j : Job) (rank : Nat) : RouteTo :=
  let x := s.job j
  if rank = x.myRank.toNat ∧ x.nranks ≠ 0 then .local_
  else match x.table[rank]? with
    | some r => if segHops (segment r.1.toNat r.2.toNat 0) = 0 then .none_ else .by_ r
    | none => .none_

/-- The exit of a first packet, and the die that carries the message; the own rank's die is 0 (log entry 24). -/
def routeExit : RouteTo → Exit
  | .by_ r => .ring (segRing (segment r.1.toNat r.2.toNat 0))
  | _ => .delivery 0

def routeDie (r : RouteTo) : Die := exitDie (routeExit r)

/-- Whether there is a route to be taken (R340); that its first ring is broken is found when an injection would be granted
(R347). -/
def routeStatus (r : RouteTo) : BitVec 16 := if r = .none_ then stNoRoute else stOk

def padUnits (l : List Byte) : List Byte := padTo (roundUp l.length 64) l

/-- The POISON bits of the packet that begins at an offset. -/
def poisonBits (bad : List Nat) (off : Nat) : BitVec 9 :=
  BitVec.ofNat 9 ((bad.filter fun u => decide (off / 64 ≤ u) && decide (u < off / 64 + 9)).foldl
    (fun n u => n + 2 ^ (u - off / 64)) 0)

/-- One packet of a message (R332, R335, R344). -/
def mkPacket (s : State) (m : MsgSpec) (r : RouteTo) (msg : W32) (off : Nat) (pay : List Byte) : Packet :=
  let (w0, w1) := match r with
    | .by_ x => x
    | _ => (0, 0)
  let h : PktHdr :=
    { epoch := (s.job m.job).live, senior := false, defl := 0, seg := 0
      nseg := BitVec.ofNat 3 ((routeSegs (w0, w1)).length - 1)
      last := decide (off + pay.length = m.data.length), kind := m.kind, job := BitVec.ofNat 3 m.job.val
      poison := poisonBits m.bad off, hopsLeft := BitVec.ofNat 8 (segHops (segment w0.toNat w1.toNat 0))
      gen := (s.job m.job).gen, plen := BitVec.ofNat 16 pay.length
      srcRank := (s.job m.job).myRank, dstRank := BitVec.ofNat 16 m.dst, msgId := msg, route0 := w0, route1 := w1
      msgLen := BitVec.ofNat 32 m.data.length, offset := BitVec.ofNat 32 off, dstAddr := BitVec.ofNat 64 m.dstAddr
      injTick := 0, hcrc := 0 }
  { hdr := sealHdr h, payload := padUnits pay }

/-- The packets of a message's bytes from an offset on, 576 bytes each; an ACK is one packet without payload (R344, R346). -/
def cutPackets (s : State) (m : MsgSpec) (r : RouteTo) (msg : W32) : Nat → Nat → List Byte → List Packet
  | 0, _, _ => []
  | n + 1, off, data =>
    mkPacket s m r msg off (data.take 576) ::
      (if data.length ≤ 576 then [] else cutPackets s m r msg n (off + 576) (data.drop 576))

/-- Queues a message's packets for injection at the exit of its first ring. -/
def queueMessage (s : State) (m : MsgSpec) (r : RouteTo) (msg : W32) : State × Nat :=
  let ps := cutPackets s m r msg (m.data.length / 576 + 1) 0 m.data
  (ps.foldl (fun s p => addCand s (routeExit r) ⟨p, none, s.now⟩) s, ps.length)

/-- The window of a link DMA that takes up work begins (R428). -/
def beginDie (s : State) (d : Die) : State :=
  let x := s.die d
  if x.dbufs = [] ∧ x.sends.all (fun e => e.2.waiting == 0) = true then s.setDie d { x with progress := s.now } else s

/-- Sends a message under the next message number of its job; its route has been checked. -/
def sendMessage (s : State) (m : MsgSpec) (r : RouteTo) : State × W32 :=
  let x := s.job m.job
  let msg := x.nextMsg
  let s := beginDie s (routeDie r)
  let s := s.setJob m.job { x with nextMsg := msg + 1 }
  let (s, n) := queueMessage s m r msg
  (putSend s (routeDie r) m.job msg
    { owner := m.owner, job := m.job, ctx := x.ctx, dst := BitVec.ofNat 16 m.dst, len := m.data.length, waiting := n
      injectedAt := s.now, acked := false, failed := false }, msg)

/-- Sends the ACK of a completed DATA message (R346); where the rank has no route it is not made (R340). -/
def sendAck (s : State) (j : Job) (rank : Nat) (msg : W32) : State :=
  let r := routeTo s j rank
  if routeStatus r = stOk then
    (queueMessage s { owner := .ack, job := j, kind := kindAck, dst := rank, dstAddr := 0, data := [], bad := [] } r msg).1
  else s

/-! ### Commands of the exits -/

/-- Reservations whose 182 · LEN ticks have passed (R337). -/
def expired (s : State) (x : Reservation) : Bool := elapsed s x.made (182 * x.len)

/-- RESERVATION_EXPIRE (R337). -/
def execReservationExpire (e : Exit) (s : State) : Host.Outcome State Fault Refusal := .next (endRsv s e (expired s))

end Sys2Proof.Machine
end

