-- ==== Sys2Proof/Machine/Gauge.lean ====
section
/-!
DEFINITION. The gauge (R351 to R356): the count, loading it, steering, alignment, holdover; mark comparators (R32, R33, R512).
-/

namespace Sys2Proof.Machine

open Sys2Proof

def updGau (s : State) (g : GauState → GauState) : State := { s with gau := g s.gau }

/-- In HOLD or RUN with at least 64 exchanges. -/
def linkCounted (x : LinkState) : Bool := (x.phase == .hold || x.phase == .run) && decide (64 ≤ x.exch)

/-- OFFSET of each link that is counted in M. -/
def countedOffsets (s : State) : List Int :=
  (s.lnk.links.filter fun e => linkCounted e.2).map fun e => linkOffset e.2

/-! ### Alignment (R356) -/

/-- The reference is present, or has been missing for less than 1 ms. -/
def refHolds (s : State) : Bool :=
  s.gau.refOk || match s.gau.holdoverAt with
    | some t => decide (s.now < t + 156250)
    | none => false

/-- ALIGNED. -/
def alignedNow (s : State) : Bool :=
  s.gau.valid && refHolds s && (countedOffsets s).all fun o => decide (o.natAbs ≤ 32)

/-- Judges ALIGNED; its fall raises GAUGE_SKEW. -/
def checkAligned (s : State) : State :=
  let a := alignedNow s
  let s' := updGau s fun g => { g with aligned := a }
  if s.gau.aligned && !a then raiseEv s' evGaugeSkew srcGauge else s'

/-! ### Commands of the gauge -/

/-- Some clock is held below P0 by R452 or R457. -/
def limited (s : State) : Bool := s.pwr.peakCap || s.pwr.excursionCap || s.pwr.limitOp != []

/-- A tick in which a clock is held below P0 counts for LIMIT_US (R468). -/
def countLimited (s : State) : State :=
  if limited s then { s with pwr := { s.pwr with limitTicks := s.pwr.limitTicks + 1 } } else s

/-- The count at an edge of the reference, or of the oscillator while the reference is missing (R351, R352). -/
def gaugeEdge (s : State) : State :=
  let s := updGau (countLimited s) fun g => { g with edges := g.edges + 1 }
  let g := s.gau
  if g.syncPulse && g.refOk then
    checkAligned (updGau s fun g =>
      { g with count := g.syncv, valid := true, syncArm := false, syncPulse := false, step := none })
  else
    match g.step with
    | none => updGau s fun g => { g with count := g.count + 1 }
    | some true => updGau s fun g => { g with count := g.count + 2, step := none, steerUp := g.steerUp + 1 }
    | some false => updGau s fun g => { g with step := none, steerDown := g.steerDown + 1 }

/-- GAUGE_SYNC (R352): a pulse arms the load at the next reference edge; without SYNC_ARM or REF_OK it is ignored. -/
def execGaugeSync (s : State) : Host.Outcome State Fault Refusal :=
  .next (if s.gau.syncArm && s.gau.refOk then updGau s fun g => { g with syncPulse := true } else s)

/-- A count in 1/16 tick, rounded to whole ticks with ties to even (R352). -/
def roundTick (o : Int) : Int :=
  let q := o / 16
  let r := o % 16
  if r < 8 then q else if 8 < r then q + 1 else if q % 2 = 0 then q else q + 1

/-- Loads the count from a link that is in HOLD or RUN with 64 exchanges (R352, R365). -/
def joinFrom (l : Link) (s : State) : State :=
  let s := updGau s fun g => { g with joinLink := l }
  let x := s.link l
  if linkCounted x then
    checkAligned (updGau s fun g =>
      { g with count := BitVec.ofInt 64 (roundTick (16 * (g.count.toNat : Int) - linkOffset x)), valid := true })
  else s

/-- GAUGE_JOIN (R352): a write of GAU.CTL with JOIN. -/
def execGaugeJoin (l : Link) (s : State) : Host.Outcome State Fault Refusal := .next (hostWrite s (joinFrom l))

/-- GAUGE_STEER (R354). -/
def execGaugeSteer (s : State) : Host.Outcome State Fault Refusal :=
  let g := s.gau
  if g.steerEn && elapsed s g.steeredAt 2560 then
    let os := countedOffsets s
    let n : Int := os.length
    let s := updGau s fun g =>
      { g with steeredAt := s.now, partners := os.length, mean := meanOf os
               step := if 4 * n < os.sum then some false else if os.sum < -(4 * n) then some true else none }
    .next (checkAligned s)
  else .next s

/-- GAUGE_REF_LOST (R356). -/
def execGaugeRefLost (s : State) : Host.Outcome State Fault Refusal :=
  if s.pwr.pwrGood && s.gau.refOk then
    let s := updGau s fun g => { g with refOk := false, holdoverAt := some s.now }
    .next (checkAligned (raiseEv s evGaugeRefLost srcGauge))
  else .next s

/-- GAUGE_REF_RETURN (R356); a module without power sees no edge (R503). -/
def execGaugeRefReturn (s : State) : Host.Outcome State Fault Refusal :=
  .next (if s.pwr.pwrGood then checkAligned (updGau s fun g => { g with refOk := true, holdoverAt := none }) else s)

/-- HOLDOVER_EXPIRE (R356). -/
def execHoldoverExpire (s : State) : Host.Outcome State Fault Refusal := .next (checkAligned s)

/-! ### Marks and comparators (R32, R33, R351, R512) -/

/-- The count has reached a mark. -/
def reached (s : State) (m : Nat) : Bool := s.gau.valid && decide (m ≤ s.gau.count.toNat)

/-- A launch at a mark can be armed now: at least 1,563 ticks ahead, with the count valid and aligned. -/
def armable (s : State) (m : Nat) : Bool := alignedNow s && decide (s.gau.count.toNat + 1563 ≤ m)

/-- The comparator that holds a launch, with its panel. -/
def findArmed (s : State) (a : LaunchId) : Option (Panel × Comparator) :=
  [0, 1, 2, 3].findSome? fun p => ((s.panel p).comparators.find? fun c => decide (c.action = a)).map fun c => (p, c)

/-- Arms a launch into a comparator of a panel, where one of its 16 is free; answers whether it was armed. -/
def armOn (s : State) (p : Panel) (a : LaunchId) (m : Nat) : State × Bool :=
  let x := s.panel p
  if armable s m && decide (x.comparators.length < 16) && (findArmed s a).isNone then
    (s.setPanel p { x with comparators := x.comparators ++ [⟨a, BitVec.ofNat 64 m⟩] }, true)
  else (s, false)

/-- Frees the comparator that holds a launch. -/
def disarm (s : State) (a : LaunchId) : State :=
  [0, 1, 2, 3].foldl (fun s p =>
    let x := s.panel p
    s.setPanel p { x with comparators := x.comparators.filter fun c => decide (c.action ≠ a) }) s

/-- The launch is armed and its mark is reached. -/
def fires (s : State) (a : LaunchId) : Bool :=
  match findArmed s a with
  | some (_, c) => reached s c.mark.toNat
  | none => false

end Sys2Proof.Machine
end

