-- ==== Sys2Proof/Machine/Links.lean ====
section
/-!
DEFINITION. Uzolink links (R308 to R325, R513): frames and retry, alive sequences, loss, in-doubt tables, bring-up.
-/

namespace Sys2Proof.Machine

open Sys2Proof

def updLink (s : State) (l : Link) (g : LinkState → LinkState) : State := s.setLink l (g (s.link l))

/-! ### Reasons (LNK.STATn) -/

def whyAlive : BitVec 3 := 1
def whyRetry : BitVec 3 := 2
def whyTrainFail : BitVec 3 := 3
def whyTooLong : BitVec 3 := 4
def whyLocal : BitVec 3 := 5
def whyPartner : BitVec 3 := 6

/-- Entry into DOWN (R317, R513): the transmitter idles, LINK_LOST with its reason; a loss declaration also counts and breaks the
rings. The link is no longer counted for ALIGNED (R356). -/
def linkDown (s : State) (l : Link) (why : BitVec 3) : State :=
  let loss := why == whyAlive || why == whyRetry
  let s := updLink s l fun x =>
    let x := toDoubt x
    { x with phase := .down, step := 0, reason := why, loss := if loss then x.loss + 1 else x.loss }
  let s := raiseEv (s.emit (.idle l)) evLinkLost (srcLink l) [l.val, why.toNat]
  checkAligned (if loss then breakRings s l else s)

/-- An exit from RUN that is no loss declaration (R513); EXCH counts from this entry into HOLD on, while step 4 is not run
again (R321, R322). -/
def leaveRun (s : State) (l : Link) (ph : LinkPhase) (why : BitVec 3) : State :=
  updLink s l fun x =>
    let x := toDoubt x
    { x with phase := ph, step := if ph = .hold then 4 else 0, reason := why, exch := if ph = .hold then 0 else x.exch }

/-! ### Bring-up (R321) -/

def enterDetect (s : State) (l : Link) : State :=
  updLink s l fun x => { x with phase := .detect, step := 1, stepAt := s.now }

/-- Entry into HOLD: both directions count their alive sequences from 1 on, and the ECHO fields are 0 until a good sequence has
come (log entry 66). -/
def enterHold (s : State) (l : Link) : State :=
  updLink s l fun x => { x with
    phase := .hold, step := 4, stepAt := s.now, exch := 0, offsets := [], delays := [], settled := false, lastAlive := s.now
    aliveFrac := 0, sentAlive := s.now, txStamps := [], aseq := 0, echoSeq := 0, echoRx := 0 }

/-- Step 6: both directions start afresh; before the first data frame the last SEQ accepted is 127 (log entry 26). -/
def enterRun (s : State) (l : Link) : State :=
  updLink s l fun x => { x with
    phase := .run, step := 6, stepAt := s.now, held := [], resend := [], replayUntil := 0, replayAck := 0, nakDue := false, failures := 0
    nextSeq := 0, lastRx := 127, lastAck := 127 }

/-- Steps 4 and 5: with 64 exchanges a DELAY above 18 ticks ends the bring-up; once step 4 is passed, the link is READY while its
target is RUN and no frame is in doubt. -/
def holdStep (s : State) (l : Link) : State :=
  let x := s.link l
  if x.phase = .hold ∧ (x.settled ∨ 64 ≤ x.exch) then
    if !x.settled ∧ 18 * 16 < linkDelay x then linkDown s l whyTooLong
    else s.setLink l { x with settled := true, step := if x.target = 2 ∧ x.indoubt = [] then 5 else 4 }
  else s

/-- The locked mask keeps a link OFF (R321). -/
def linkEnabled (s : State) (l : Link) : Bool := s.lnk.enable.getLsbD l.val

/-- A host write of TARGET to an enabled link; to another it is ignored and counted. -/
def writeTarget (l : Link) (g : State → State) (s : State) : State :=
  if linkEnabled s l then g s else updLink s l fun x => { x with targetIgn := x.targetIgn + 1 }

def targetOff (l : Link) (s : State) : State :=
  let x := s.link l
  let s := s.setLink l { x with target := 0 }
  checkAligned (if x.phase = .run then leaveRun s l .off whyLocal
  else updLink s l fun x => { x with phase := .off, step := 0 })

/-- A link that is OFF or DOWN begins its bring-up. -/
def beginUp (s : State) (l : Link) : State :=
  if (s.link l).phase = .off ∨ (s.link l).phase = .down then enterDetect s l else s

def targetHold (l : Link) (s : State) : State :=
  let x := s.link l
  let s := s.setLink l { x with target := 1 }
  if x.phase = .run then checkAligned (leaveRun s l .hold whyLocal) else holdStep (beginUp s l) l

def targetRun (l : Link) (s : State) : State :=
  let s := updLink s l fun x => { x with target := 2 }
  holdStep (beginUp s l) l

/-- LINK_TARGET_OFF (R321, R325). -/
def execLinkTargetOff (l : Link) (s : State) : Host.Outcome State Fault Refusal :=
  .next (hostWrite s (writeTarget l (targetOff l)))

/-- LINK_TARGET_HOLD (R321, R325). -/
def execLinkTargetHold (l : Link) (s : State) : Host.Outcome State Fault Refusal :=
  .next (hostWrite s (writeTarget l (targetHold l)))

/-- LINK_TARGET_RUN (R321). -/
def execLinkTargetRun (l : Link) (s : State) : Host.Outcome State Fault Refusal :=
  .next (hostWrite s (writeTarget l (targetRun l)))

/-- LINK_PARTNER_DETECT: step 1 is done (R321). -/
def execLinkPartnerDetect (l : Link) (s : State) : Host.Outcome State Fault Refusal :=
  .next (if (s.link l).phase = .detect then
    updLink s l fun x => { x with phase := .train, step := 2, stepAt := s.now } else s)

/-- LINK_TRAIN_DONE: step 2, 3 or 4 is done; step 3 only with 256 consecutive codewords decoded (R321). -/
def execLinkTrainDone (l : Link) (s : State) : Host.Outcome State Fault Refusal :=
  let x := s.link l
  .next (if x.phase = .train ∧ x.step = 2 then s.setLink l { x with step := 3, stepAt := s.now, trainGood := 0 }
    else if x.phase = .train then (if 256 ≤ x.trainGood then checkAligned (enterHold s l) else s)
    else holdStep s l)

/-- The limit of a bring-up step, in ticks. -/
def stepLimit (step : Nat) : Option Nat :=
  match step with
  | 1 => some (msTicks 10)
  | 2 => some (msTicks 50)
  | 3 => some (msTicks 1)
  | _ => none

/-- LINK_STEP_TIMEOUT (R321). -/
def execLinkStepTimeout (l : Link) (s : State) : Host.Outcome State Fault Refusal :=
  let x := s.link l
  match stepLimit x.step with
  | some n =>
    if (x.phase = .detect ∨ x.phase = .train) ∧ elapsed s x.stepAt n = true then .next (linkDown s l whyTrainFail) else .next s
  | none => .next s

/-! ### In-doubt frames (R318) -/

def resolveLink (l : Link) (v : BitVec 7) (s : State) : State :=
  let x := s.link l
  if (v - x.lastAck).toNat ≤ (x.nextSeq - 1 - x.lastAck).toNat then
    let lost := x.indoubt.filter fun f => decide ((v - x.lastAck).toNat < (f.1 - x.lastAck).toNat)
    holdStep (s.setLink l { x with indoubt := [], lossDiscard := x.lossDiscard + (lost.map fun f => f.2).sum }) l
  else s.setLink l { x with resolveBad := x.resolveBad + 1 }

/-- LINK_RESOLVE (R318): a write of RESOLVE_SEQ with RESOLVE. -/
def execLinkResolve (l : Link) (seq : BitVec 7) (s : State) : Host.Outcome State Fault Refusal :=
  .next (hostWrite s (resolveLink l seq))

/-! ### Alive sequences (R315, R316, R319) -/

/-- Bits [111:0] of an alive sequence. -/
def aliveBits (a : AliveSeq) : Nat :=
  a.pattern.toNat + 2 ^ 16 * a.lstate.toNat + 2 ^ 24 * a.aseq.toNat + 2 ^ 32 * a.txTs.toNat + 2 ^ 68 * a.echoSeq.toNat
  + 2 ^ 76 * a.echoRx.toNat

def aliveCheck (a : AliveSeq) : BitVec 16 := crc16 (leBytes 14 (aliveBits a))

def aliveGood (a : AliveSeq) : Bool := a.pattern == 0xA5C3 && a.check == aliveCheck a

/-- LSTATE of a link: 1 HOLD, 2 READY, 3 RUN. -/
def linkLstate (x : LinkState) : BitVec 4 := if x.phase = .run then 3 else if x.step = 5 then 2 else 1

/-- A stamp of this end: the gauge count, and a fraction of a tick in sixteenths (R315). -/
def stampOf (s : State) (frac : Nat) : BitVec 36 := BitVec.ofNat 36 (s.gau.count.toNat * 16 + frac % 16)

/-- ALIVE_SEND (R316): a sequence is due every 40 ticks from the entry into HOLD on; the fraction of TX_TS below a tick is open
(log entry 27). -/
def execAliveSend (l : Link) (s : State) : Host.Outcome State Fault Refusal :=
  let x := s.link l
  if (x.phase = .hold ∨ x.phase = .run) ∧ elapsed s x.sentAlive 40 then
    let (k, s) := s.draw
    let ts := stampOf s (Config.freeWord k).toNat
    let n := x.aseq + 1
    let a : AliveSeq := { pattern := 0xA5C3, lstate := linkLstate x, aseq := n, txTs := ts, echoSeq := x.echoSeq
                          echoRx := x.echoRx, check := 0 }
    let s := updLink s l fun x => { x with
      aseq := n, sentAlive := x.sentAlive + 40, txStamps := tabPut x.txStamps n.toNat ts }
    .next (s.emit (.alive l { a with check := aliveCheck a }))
  else .next s

/-- The signed difference of two stamps, modulo 2^32 ticks. -/
def stampDiff (a b : BitVec 36) : Int := (a - b).toInt

/-- One timestamp exchange (R319). -/
def exchange (x : LinkState) (a : AliveSeq) (rx : BitVec 36) : LinkState :=
  match tabFind x.txStamps a.echoSeq.toNat with
  | some t3 =>
    let u := stampDiff rx a.txTs
    let v := stampDiff a.echoRx t3
    { x with offsets := ((u - v) / 2 :: x.offsets).take 64, delays := ((u + v) / 2 :: x.delays).take 64
             exch := min 255 (x.exch + 1) }
  | none => x

/-- ALIVE_RECEIVE (R315, R319, R321): its receive time is this end's count, with the fraction of a tick that the operand carries. -/
def execAliveReceive (l : Link) (a : AliveSeq) (rx : BitVec 36) (s : State) : Host.Outcome State Fault Refusal :=
  let x := s.link l
  let rx := stampOf s rx.toNat
  if x.phase = .hold ∨ x.phase = .run then
    if aliveGood a then
      let x := { exchange x a rx with
        lastAlive := s.now, aliveFrac := rx.extractLsb' 0 4, echoSeq := a.aseq, echoRx := rx, partnerHold := a.lstate == 1 || a.lstate == 2 }
      let s := s.setLink l x
      let s :=
        if x.phase = .run then (if a.lstate = 1 then leaveRun s l .hold whyPartner else s)
        else
          let s := holdStep s l
          if (s.link l).phase = .hold ∧ (s.link l).step = 5 ∧ (a.lstate = 2 ∨ a.lstate = 3) then enterRun s l else s
      .next (checkAligned s)
    else .next (s.setLink l { x with aliveBad := x.aliveBad + 1 })
  else .next s

/-- The first whole tick at or after 312.5 ticks from a receipt at this fraction of a tick (R317). -/
def aliveLimit (x : LinkState) : Nat := if 8 < x.aliveFrac.toNat then 314 else 313

/-- ALIVE_TIMEOUT (R317). -/
def execAliveTimeout (l : Link) (s : State) : Host.Outcome State Fault Refusal :=
  let x := s.link l
  .next (if (x.phase = .hold ∨ x.phase = .run) ∧ elapsed s x.lastAlive (aliveLimit x) = true then linkDown s l whyAlive else s)

/-! ### Frames (R309 to R314) -/

/-- Payload units of a packet: its header and its payload. -/
def packetUnits (p : Packet) : Nat := 1 + ceilDiv p.payload.length 64

def frameUnits (ps : List Packet) : BitVec 4 := BitVec.ofNat 4 (ps.map packetUnits).sum

/-- Sends a frame that holds packets, or a null frame. -/
def sendFrame (s : State) (l : Link) (seq : BitVec 7) (ps : List Packet) (null : Bool) : State :=
  let x := s.link l
  s.emit (.frame l { seq := seq, ack := x.lastRx, nak := x.nakDue, null := null, units := frameUnits ps, packets := ps })

/-- A held frame, resent once more (R312, R314). -/
def resendFrame (s : State) (l : Link) (seq : BitVec 7) : State :=
  match (s.link l).held.find? fun h => h.seq == seq with
  | some h =>
    let s := updLink s l fun x => { x with
      held := x.held.map fun k => if k.seq == seq then { k with replays := k.replays + 1 } else k
      replay := x.replay + 1, replay2 := if h.replays = 1 then x.replay2 + 1 else x.replay2 }
    sendFrame s l seq h.buf.packets false
  | none => s

/-- Sends a ring buffer as a new data frame, which is held until it is acknowledged. -/
def sendBuffer (s : State) (l : Link) (b : RingBuf) : State :=
  let seq := (s.link l).nextSeq
  let s := updLink s l fun x => { x with nextSeq := seq + 1, held := x.held ++ [⟨seq, b, 0⟩] }
  sendFrame s l seq b.packets false

/-- The next buffer of a ring, through buffers first (R328), and the ring without it; a general buffer becomes free. -/
def takeBuffer (x : RingState) : Option (RingBuf × RingState) :=
  match x.thru, x.entered with
  | b :: t, _ =>
    let y := { x with thru := t }
    some (b, if b.reserve then y else freeGeneral y)
  | [], b :: t => some (b, freeGeneral { x with entered := t })
  | [], [] => none

/-- A link sends a frame of a replay, else the next ring buffer, else a null frame (R310, R312, R328). -/
def sendNext (l : Link) (s : State) : State :=
  let x := s.link l
  let r := leavingRing l
  match x.resend with
  | q :: rest => resendFrame (s.setLink l { x with resend := rest }) l q
  | [] =>
    if x.held.length < 64 then
      match takeBuffer (s.ring r) with
      | some (b, y) => sendBuffer (s.setRing r y) l b
      | none => sendFrame s l 0 [] true
    else sendFrame s l 0 [] true

/-- FRAME_SEND: a link in RUN sends a frame, unless its ring's buffers are found out of order: that fault resets the chip (R349, R441). -/
def execFrameSend (l : Link) (s : State) : Host.Outcome State Fault Refusal :=
  if (s.link l).phase = .run then
    let s := checkRing s (leavingRing l)
    .next (if (s.link l).phase = .run then sendNext l s else s)
  else .next s

/-- The round trip of R313, in ticks: for that long a NAK with the same ACK answers frames sent before the replay. -/
def replayTrip : Nat := 60

/-- The transmitter reads ACK and NAK (R312): frames up to ACK are no longer held; NAK starts a replay of those that are,
unless it still answers frames sent before the replay under way (log entry 67). -/
def readAck (now : Nat) (x : LinkState) (f : Frame) : LinkState :=
  let held := x.held.dropWhile fun h => decide ((f.ack - h.seq).toNat < 64)
  let seqs := held.map fun h => h.seq
  let stale := f.ack == x.replayAck && decide (now < x.replayUntil)
  let again := f.nak && !stale
  { x with
    lastAck := f.ack, held := held
    resend := if again then seqs else x.resend.filter fun q => seqs.contains q
    replayUntil := if again then now + replayTrip else x.replayUntil
    replayAck := if again then f.ack else x.replayAck }

/-- A frame that the decoder corrected or found without error, on a link in RUN. -/
def goodFrame (s : State) (l : Link) (f : Frame) : State :=
  let s := updLink s l fun x => readAck s.now x f
  let x := s.link l
  if f.null then s
  else if f.seq = x.lastRx + 1 then
    let s := s.setLink l { x with lastRx := f.seq, nakDue := false, failures := 0 }
    checkRing (frameArrives s l f.packets) (arrivingRing l)
  else s.setLink l { x with dupDrop := x.dupDrop + 1 }

/-- An uncorrectable codeword on a link in RUN (R311, R312, R314): the frame is discarded unread and a replay requested; the third
failed replay of the frame that is awaited ends the link. -/
def badFrame (s : State) (l : Link) (again : Bool) : State :=
  let x := s.link l
  let n := if again then x.failures + 1 else x.failures
  let s := s.setLink l { x with nakDue := true, failures := n }
  if again && decide (3 ≤ n) then linkDown s l whyRetry else s

/-- FRAME_RECEIVE (R311, R312, R323). -/
def execFrameReceive (l : Link) (cw : Codeword) (s : State) : Host.Outcome State Fault Refusal :=
  let x := s.link l
  if x.phase = .train ∨ x.phase = .run then
    if 15 < cw.symErrors then
      let s := s.setLink l { x with fecCw := x.fecCw + 1, fecUncorr := x.fecUncorr + 1, trainGood := 0 }
      .next (if x.phase = .run then badFrame s l cw.replay else s)
    else
      let s := s.setLink l { x with
        fecCw := x.fecCw + 1, fecCorrCw := x.fecCorrCw + (if cw.symErrors = 0 then 0 else 1)
        fecCorrSym := x.fecCorrSym + cw.symErrors, trainGood := x.trainGood + 1 }
      .next (if x.phase = .run then goodFrame s l cw.frame else s)
  else .next s

/-- LINK_BER_WINDOW (R324): at the end of a second the estimate of the window is above 10⁻⁵, or below 5 · 10⁻⁶. -/
def execLinkBerWindow (l : Link) (s : State) : Host.Outcome State Fault Refusal :=
  let x := s.link l
  if !elapsed s x.berAt (secTicks 1) then .next s else
  let sym := x.fecCorrSym - x.berSym
  let bits := (x.fecCw - x.berCw) * 5440
  let worse := decide (bits < sym * 100000)
  let better := decide (sym * 200000 < bits)
  let s := s.setLink l { x with
    berCw := x.fecCw, berSym := x.fecCorrSym, berAt := s.now, degraded := worse || (x.degraded && !better) }
  .next (if worse then raiseEv s evLinkDegraded (srcLink l) else s)

/-- Every transmitter goes to electrical idle and every link is OFF (R322). -/
def idleLinks (s : State) : State :=
  { s with lnk := { s.lnk with links := s.lnk.links.map fun e =>
      (e.1, { toDoubt e.2 with phase := .off, step := 0, target := 0 }) } }

end Sys2Proof.Machine
end

