-- ==== Sys2Proof/Machine/Num.lean ====
section
/-!
DEFINITION. Element formats, exact values and their roundings (chapter 02, R41 to R74): decoding, IEEE arithmetic with its
five exceptions, conversion with clamp modes, stochastic rounding and its generator.
-/

namespace Sys2Proof.Machine

open Sys2Proof

/-- The element formats of R41, and the three register-only integer types of R227. -/
inductive Fmt where
  | fp64 | fp32 | bf16 | fp16 | e4m3 | e5m2 | e3m2 | e2m3 | e2m1 | int8 | int4 | int2 | t2
  | int16 | int32 | int64
  deriving DecidableEq, Repr

/-- The format of a code of R41. -/
def fmtOfCode (c : Nat) : Option Fmt :=
  match c with
  | 0 => some .fp64 | 1 => some .fp32 | 2 => some .bf16 | 3 => some .fp16 | 4 => some .e4m3 | 5 => some .e5m2
  | 6 => some .e3m2 | 7 => some .e2m3 | 8 => some .e2m1 | 9 => some .int8 | 10 => some .int4 | 11 => some .int2
  | 12 => some .t2 | _ => none

/-- Bits of an element (R41). -/
def Fmt.width : Fmt → Nat
  | .fp64 => 64 | .fp32 => 32 | .bf16 => 16 | .fp16 => 16 | .e4m3 => 8 | .e5m2 => 8 | .e3m2 => 6 | .e2m3 => 6 | .e2m1 => 4
  | .int8 => 8 | .int4 => 4 | .int2 => 2 | .t2 => 2 | .int16 => 16 | .int32 => 32 | .int64 => 64

/-- Bits of the mantissa field (R42). -/
def Fmt.mbits : Fmt → Nat
  | .fp64 => 52 | .fp32 => 23 | .bf16 => 7 | .fp16 => 10 | .e4m3 => 3 | .e5m2 => 2 | .e3m2 => 2 | .e2m3 => 3 | .e2m1 => 1
  | _ => 0

/-- Bits of the exponent field (R42). -/
def Fmt.ebits : Fmt → Nat
  | .fp64 => 11 | .fp32 => 8 | .bf16 => 8 | .fp16 => 5 | .e4m3 => 4 | .e5m2 => 5 | .e3m2 => 3 | .e2m3 => 2 | .e2m1 => 2
  | _ => 0

/-- The exponent bias (R42). -/
def Fmt.bias : Fmt → Int
  | .fp64 => 1023 | .fp32 => 127 | .bf16 => 127 | .fp16 => 15 | .e4m3 => 7 | .e5m2 => 15 | .e3m2 => 3 | .e2m3 => 1
  | .e2m1 => 1 | _ => 0

/-- A floating-point format. -/
def Fmt.isFloat (f : Fmt) : Bool := f.ebits != 0

/-- A format with infinities and NaNs as IEEE 754 has them: the wide ones and FP8-E5M2 (R44). -/
def Fmt.isIeee : Fmt → Bool
  | .fp64 | .fp32 | .bf16 | .fp16 | .e5m2 => true
  | _ => false

/-- The wide formats (R41). -/
def Fmt.isWide : Fmt → Bool
  | .fp64 | .fp32 | .bf16 | .fp16 => true
  | _ => false

/-- The least and greatest value of an integer format (R46). -/
def Fmt.intRange : Fmt → Int × Int
  | .int8 => (-128, 127) | .int4 => (-8, 7) | .int2 => (-2, 1) | .t2 => (-1, 1)
  | .int16 => (-32768, 32767) | .int32 => (-2147483648, 2147483647)
  | .int64 => (-9223372036854775808, 9223372036854775807) | _ => (0, 0)

/-- The largest finite magnitude of a floating-point format, n · 2^q (R42). -/
def Fmt.maxFin (f : Fmt) : Nat × Int :=
  match f with
  | .e4m3 => (14, 5)
  | _ =>
    let top : Int := if f.isIeee then 2 ^ f.ebits - 2 - f.bias else 2 ^ f.ebits - 1 - f.bias
    (2 ^ (f.mbits + 1) - 1, top - f.mbits)

/-- An exact value: finite, ± infinity, or a NaN with its sign, whether it signals, and its mantissa field aligned to the 52
bits of FP64 (R66). -/
inductive FVal where
  | fin (neg : Bool) (m : Nat) (e : Int)
  | inf (neg : Bool)
  | nan (neg sig : Bool) (man : Nat)
  deriving DecidableEq, Repr

/-- The quiet bit of an aligned NaN mantissa. -/
def quietBit : Nat := 2 ^ 51

/-- The NaN that the device generates (R44). -/
def genNan : FVal := .nan false false quietBit

/-- Decodes an element (R43, R44, R46). The reserved T2 code decodes as -2; its block counts as invalid (R47). -/
def decodeElem (f : Fmt) (bits : Nat) : FVal :=
  if f.isFloat then
    let neg := bit bits (f.width - 1)
    let ex := fld bits f.mbits f.ebits
    let man := fld bits 0 f.mbits
    if f.isIeee && ex == 2 ^ f.ebits - 1 then
      if man == 0 then .inf neg
      else
        let al := man * 2 ^ (52 - f.mbits)
        if f = .e5m2 then .nan neg false (al ||| quietBit)
        else .nan neg (al < quietBit) al
    else if f = .e4m3 && ex == 15 && man == 7 then .nan neg false quietBit
    else if ex == 0 then .fin neg man (1 - f.bias - f.mbits)
    else .fin neg (man + 2 ^ f.mbits) ((ex : Int) - f.bias - f.mbits)
  else
    let v := toSigned f.width bits
    .fin (v < 0) v.natAbs 0

/-! ### Rounding -/

/-- A rounding: the four IEEE directions (R63), and stochastic rounding with its 16-bit random value (R71). -/
inductive Rnd where
  | rne | rtz | rup | rdn
  | sr (r : Nat)
  deriving DecidableEq, Repr

/-- The direction of FPCR.RMODE (R224). -/
def rndOfMode (m : BitVec 2) : Rnd :=
  match m.toNat with
  | 0 => .rne | 1 => .rtz | 2 => .rup | _ => .rdn

/-- Whether m / 2^k with remainder rem, on a quotient of parity odd, is rounded away from zero. -/
def roundAway (d : Rnd) (neg odd : Bool) (rem k : Nat) : Bool :=
  if rem = 0 then false
  else match d with
    | .rne => if 2 * rem = 2 ^ k then odd else decide (2 ^ k < 2 * rem)
    | .rtz => false
    | .rup => !neg
    | .rdn => neg
    | .sr r => decide (r < rem * 65536 / 2 ^ k)

/-- Rounds m · 2^e to a multiple of 2^q: the multiple, and whether it is inexact. -/
def roundTo (d : Rnd) (neg : Bool) (m : Nat) (e q : Int) : Nat × Bool :=
  if q ≤ e then (m * 2 ^ (e - q).toNat, false)
  else
    let k := (q - e).toNat
    let n := m / 2 ^ k
    let rem := m % 2 ^ k
    (if roundAway d neg (n % 2 == 1) rem k then n + 1 else n, rem != 0)

/-- The grid on which a magnitude m · 2^e of a float format is rounded: 2^q. -/
def gridOf (f : Fmt) (m : Nat) (e : Int) : Int :=
  let q1 : Int := (Nat.log2 m : Int) + e - f.mbits
  let q0 : Int := 1 - f.bias - f.mbits
  if q1 < q0 then q0 else q1

/-- n · 2^q > n' · 2^q'. -/
def magGt (n : Nat) (q : Int) (n' : Nat) (q' : Int) : Bool :=
  if q' ≤ q then decide (n' < n * 2 ^ (q - q').toNat) else decide (n' * 2 ^ (q' - q).toNat < n)

/-- The encoding of the value n · 2^q, which the format represents. -/
def packFinite (f : Fmt) (neg : Bool) (n : Nat) (q : Int) : Nat :=
  let s := bnat neg * 2 ^ (f.width - 1)
  if n = 0 then s
  else
    let q' := gridOf f n q
    let n' := (roundTo .rtz neg n q q').1
    if n' < 2 ^ f.mbits then s + n'
    else s + ((q' + f.mbits + f.bias).toNat * 2 ^ f.mbits + (n' - 2 ^ f.mbits))

/-- The encoding of a NaN: payload truncated, quiet bit set (R66); FP8-E4M3 has 0x7F and 0xFF only (R44). -/
def packNan (f : Fmt) (neg : Bool) (man : Nat) : Nat :=
  let s := bnat neg * 2 ^ (f.width - 1)
  if f = .e4m3 then s + 0x7F
  else s + ((2 ^ f.ebits - 1) * 2 ^ f.mbits + ((man ||| quietBit) / 2 ^ (52 - f.mbits)) % 2 ^ f.mbits)

/-- The encoding of an infinity. -/
def packInf (f : Fmt) (neg : Bool) : Nat := bnat neg * 2 ^ (f.width - 1) + (2 ^ f.ebits - 1) * 2 ^ f.mbits

/-- The encoding of the largest finite magnitude with a sign. -/
def packMax (f : Fmt) (neg : Bool) : Nat := packFinite f neg f.maxFin.1 f.maxFin.2

/-- The encoding of a value that a wide format holds exactly. -/
def packVal (f : Fmt) : FVal → Nat
  | .fin neg m e => packFinite f neg m e
  | .inf neg => packInf f neg
  | .nan neg _ man => packNan f neg man

/-! ### IEEE exceptions (R64): NV 0, DZ 1, OF 2, UF 3, NX 4 -/

abbrev Exc := BitVec 5
def excNV : Exc := 1
def excDZ : Exc := 2
def excOF : Exc := 4
def excUF : Exc := 8
def excNX : Exc := 16

/-- Rounds an exact value once to a wide format in a direction of IEEE 754 (R63): the value and the exceptions. -/
def ieeeRound (f : Fmt) (d : Rnd) (v : FVal) : FVal × Exc :=
  match v with
  | .inf _ => (v, 0)
  | .nan neg _ man =>
    (.nan neg false ((man ||| quietBit) / 2 ^ (52 - f.mbits) * 2 ^ (52 - f.mbits)), 0)
  | .fin neg m e =>
    if m = 0 then (.fin neg 0 0, 0)
    else
      let q := gridOf f m e
      let (n, ix) := roundTo d neg m e q
      let (nm, qm) := f.maxFin
      if magGt n q nm qm then
        let toInf := match d with
          | .rne => true
          | .rtz => false
          | .rup => !neg
          | .rdn => neg
          | .sr _ => true
        (if toInf then .inf neg else .fin neg nm qm, excOF ||| excNX)
      else
        -- tininess is detected after rounding, as if the exponent range were unbounded (R63)
        let q1 : Int := (Nat.log2 m : Int) + e - f.mbits
        let (n1, _) := roundTo d neg m e q1
        let tiny := !magGt n1 q1 (2 ^ (f.mbits + 1) - 1) (-f.bias - f.mbits) && ix
        (.fin neg n q, (if ix then excNX else 0) ||| (if tiny then excUF else 0))

/-! ### Exact arithmetic -/

def FVal.isNan : FVal → Bool
  | .nan _ _ _ => true
  | _ => false
def FVal.isSig : FVal → Bool
  | .nan _ s _ => s
  | _ => false
def FVal.isInf : FVal → Bool
  | .inf _ => true
  | _ => false
def FVal.isZero : FVal → Bool
  | .fin _ 0 _ => true
  | _ => false
def FVal.neg? : FVal → Bool
  | .fin n _ _ => n
  | .inf n => n
  | .nan n _ _ => n
def FVal.negate : FVal → FVal
  | .fin n m e => .fin (!n) m e
  | .inf n => .inf (!n)
  | .nan n s p => .nan (!n) s p
def FVal.abs : FVal → FVal
  | .fin _ m e => .fin false m e
  | .inf _ => .inf false
  | .nan _ s p => .nan false s p

/-- The product by 2^k, exact (R49). -/
def FVal.scale (v : FVal) (k : Int) : FVal :=
  match v with
  | .fin n m e => .fin n m (e + k)
  | _ => v

/-- A signed integer times 2^e. -/
def fvalOfInt (v : Int) (e : Int) : FVal := .fin (v < 0) v.natAbs e

/-- The finite value as an integer times 2^q, where q is at most its exponent. -/
def finInt (neg : Bool) (m : Nat) (e q : Int) : Int :=
  let x : Int := (m * 2 ^ (e - q).toNat : Nat)
  if neg then -x else x

/-- The sum of two finite values; a zero sum of unlike signs is +0, and −0 rounding toward −∞ (R63). -/
def finAdd (d : Rnd) (n1 : Bool) (m1 : Nat) (e1 : Int) (n2 : Bool) (m2 : Nat) (e2 : Int) : FVal :=
  let q := if e1 ≤ e2 then e1 else e2
  let x := finInt n1 m1 e1 q + finInt n2 m2 e2 q
  if x = 0 then .fin (if m1 = 0 ∧ m2 = 0 ∧ n1 = n2 then n1 else decide (d = .rdn)) 0 0
  else fvalOfInt x q

/-- The first NaN among operands, quieted (R66). -/
def firstNan : List FVal → Option FVal
  | [] => none
  | .nan n _ p :: _ => some (.nan n false (p ||| quietBit))
  | _ :: t => firstNan t

/-- Invalid operation where a NaN operand signals (R66). -/
def sigExc (l : List FVal) : Exc := if l.any FVal.isSig then excNV else 0

/-- Exact a + b. -/
def exactAdd (d : Rnd) (a b : FVal) : FVal × Exc :=
  match firstNan [a, b] with
  | some n => (n, sigExc [a, b])
  | none =>
    match a, b with
    | .inf n1, .inf n2 => if n1 = n2 then (.inf n1, 0) else (genNan, excNV)
    | .inf n, _ => (.inf n, 0)
    | _, .inf n => (.inf n, 0)
    | .fin n1 m1 e1, .fin n2 m2 e2 => (finAdd d n1 m1 e1 n2 m2 e2, 0)
    | _, _ => (genNan, excNV)

/-- Exact a · b. -/
def exactMul (a b : FVal) : FVal × Exc :=
  match firstNan [a, b] with
  | some n => (n, sigExc [a, b])
  | none =>
    let s := xor a.neg? b.neg?
    match a, b with
    | .fin _ m1 e1, .fin _ m2 e2 => (.fin s (m1 * m2) (e1 + e2), 0)
    | _, _ => if a.isZero || b.isZero then (genNan, excNV) else (.inf s, 0)

/-- Exact a · b + c. A product ∞ · 0 always raises invalid operation, whatever the addend (R66). -/
def exactFma (d : Rnd) (a b c : FVal) : FVal × Exc :=
  let bad := (a.isInf && b.isZero) || (a.isZero && b.isInf)
  match firstNan [a, b, c] with
  | some n => (n, sigExc [a, b, c] ||| (if bad then excNV else 0))
  | none =>
    if bad then (genNan, excNV)
    else exactAdd d (exactMul a b).1 c

/-- The quotient of two magnitudes with at least 128 bits and a sticky last bit. -/
def divSticky (m1 m2 : Nat) : Nat × Int :=
  let l := 128 + Nat.log2 m2
  let x := m1 * 2 ^ l
  (2 * (x / m2) + bnat (x % m2 != 0), -(l : Int) - 1)

/-- a / b; the finite quotient carries a sticky last bit beyond every format's precision. -/
def exactDiv (a b : FVal) : FVal × Exc :=
  match firstNan [a, b] with
  | some n => (n, sigExc [a, b])
  | none =>
    let s := xor a.neg? b.neg?
    match a, b with
    | .inf _, .inf _ => (genNan, excNV)
    | .inf _, _ => (.inf s, 0)
    | _, .inf _ => (.fin s 0 0, 0)
    | .fin _ m1 e1, .fin _ m2 e2 =>
      if m2 = 0 then (if m1 = 0 then (genNan, excNV) else (.inf s, excDZ))
      else if m1 = 0 then (.fin s 0 0, 0)
      else
        let (m, e) := divSticky m1 m2
        (.fin s m (e1 - e2 + e), 0)
    | _, _ => (genNan, excNV)

/-- The integer square root of n, from k bits. -/
def isqrtFrom : Nat → Nat → Nat → Nat
  | 0, _, r => r
  | k + 1, n, r => isqrtFrom k n (if (r + 2 ^ k) * (r + 2 ^ k) ≤ n then r + 2 ^ k else r)

/-- The integer square root. -/
def isqrt (n : Nat) : Nat := isqrtFrom (Nat.log2 n / 2 + 1) n 0

/-- √(m · 2^e) with at least 128 bits and a sticky last bit. -/
def sqrtSticky (m : Nat) (e : Int) : Nat × Int :=
  let odd := (e % 2).toNat
  let x := m * 2 ^ (256 + odd)
  let r := isqrt x
  (2 * r + bnat (r * r != x), (e - odd) / 2 - 128 - 1)

/-- √a; the square root of −0 is −0. -/
def exactSqrt (a : FVal) : FVal × Exc :=
  match a with
  | .nan n s p => (.nan n false (p ||| quietBit), if s then excNV else 0)
  | .inf false => (.inf false, 0)
  | .inf true => (genNan, excNV)
  | .fin n m e =>
    if m = 0 then (.fin n 0 0, 0)
    else if n then (genNan, excNV)
    else
      let (m', e') := sqrtSticky m e
      (.fin false m' e', 0)

/-- Rounds the outcome of an exact operation, joining the exceptions. -/
def roundExc (f : Fmt) (d : Rnd) (x : FVal × Exc) : FVal × Exc :=
  let (v, fl) := ieeeRound f d x.1
  (v, x.2 ||| fl)

def fAdd (f : Fmt) (d : Rnd) (a b : FVal) : FVal × Exc := roundExc f d (exactAdd d a b)
def fSub (f : Fmt) (d : Rnd) (a b : FVal) : FVal × Exc :=
  match firstNan [a, b] with
  | some n => roundExc f d (n, sigExc [a, b])
  | none => roundExc f d (exactAdd d a b.negate)
def fMul (f : Fmt) (d : Rnd) (a b : FVal) : FVal × Exc := roundExc f d (exactMul a b)
def fFma (f : Fmt) (d : Rnd) (a b c : FVal) : FVal × Exc := roundExc f d (exactFma d a b c)
def fDiv (f : Fmt) (d : Rnd) (a b : FVal) : FVal × Exc := roundExc f d (exactDiv a b)
def fSqrt (f : Fmt) (d : Rnd) (a : FVal) : FVal × Exc := roundExc f d (exactSqrt a)

/-- The sign of a − b for two finite values. -/
def finCmp (n1 : Bool) (m1 : Nat) (e1 : Int) (n2 : Bool) (m2 : Nat) (e2 : Int) : Ordering :=
  let q := if e1 ≤ e2 then e1 else e2
  compare (finInt n1 m1 e1 q) (finInt n2 m2 e2 q)

/-- The order of two values; none where they are unordered. Zeros are equal. -/
def fCmp (a b : FVal) : Option Ordering :=
  match a, b with
  | .nan _ _ _, _ => none
  | _, .nan _ _ _ => none
  | .inf n1, .inf n2 => some (if n1 = n2 then .eq else if n1 then .lt else .gt)
  | .inf n, _ => some (if n then .lt else .gt)
  | _, .inf n => some (if n then .gt else .lt)
  | .fin n1 m1 e1, .fin n2 m2 e2 => some (finCmp n1 m1 e1 n2 m2 e2)

/-- a is below b in the order of minimum and maximum, where −0 is below +0. -/
def fLess (a b : FVal) : Bool :=
  match fCmp a b with
  | some .lt => true
  | some .eq => a.neg? && !b.neg?
  | _ => false

/-- minimum and maximum of IEEE 754-2019: a NaN operand gives a NaN (R63). The flag says whether b was selected. -/
def fMinMax (isMax : Bool) (a b : FVal) : FVal × Exc × Bool :=
  match firstNan [a, b] with
  | some n => (n, sigExc [a, b], !a.isNan)
  | none =>
    let pickB := if isMax then fLess a b else fLess b a
    (if pickB then b else a, 0, pickB)

/-- minimumNumber and maximumNumber of IEEE 754-2019: a number is taken over a NaN (R63). -/
def fMinMaxNum (isMax : Bool) (a b : FVal) : FVal × Exc :=
  match a.isNan, b.isNan with
  | false, false => let (v, fl, _) := fMinMax isMax a b; (v, fl)
  | true, false => (b, sigExc [a])
  | false, true => (a, sigExc [b])
  | true, true => ((firstNan [a]).getD genNan, sigExc [a, b])

/-- roundToIntegral in a direction: the value, whether it is inexact (R63). -/
def fRoundInt (d : Rnd) (a : FVal) : FVal × Exc × Bool :=
  match a with
  | .nan n s p => (.nan n false (p ||| quietBit), if s then excNV else 0, false)
  | .inf _ => (a, 0, false)
  | .fin n m e =>
    let (k, ix) := roundTo d n m e 0
    (.fin n k 0, 0, ix)

/-- Conversion of a value to an integer format in a direction: out of range or NaN raises invalid operation. -/
def fToInt (f : Fmt) (d : Rnd) (a : FVal) : Int × Exc :=
  let (lo, hi) := f.intRange
  match a with
  | .nan _ _ _ => (0, excNV)
  | .inf n => (if n then lo else hi, excNV)
  | .fin n m e =>
    let (k, ix) := roundTo d n m e 0
    let v : Int := if n then -(k : Int) else k
    if v < lo then (lo, excNV) else if hi < v then (hi, excNV) else (v, if ix then excNX else 0)

/-! ### Format words (R54 to R56) -/

/-- The clamp modes (R54). -/
inductive Clamp where
  | finite | ieee | nan
  deriving DecidableEq, Repr

def fwFmt (w : Nat) : Option Fmt := fmtOfCode (fld w 0 4)
def fwScaled (w : Nat) : Bool := fld w 4 2 == 1
def fwZp (w : Nat) : Bool := bit w 6
def fwRnd (w : Nat) : Nat := fld w 10 2

/-- The clamp mode of a format word, with the default of R56. -/
def fwClamp (w : Nat) : Clamp :=
  match fld w 8 2 with
  | 1 => .finite
  | 2 => .ieee
  | 3 => .nan
  | _ => match fwFmt w with
    | some f => if f.isWide then .ieee else .finite
    | none => .finite

/-- The narrowing rounding of a format word, with the random value of the element (R54, R71). -/
def fwRounding (w r : Nat) : Rnd :=
  match fwRnd w with
  | 0 => .rne
  | 1 => .sr r
  | _ => .rtz

/-- A format word that R55 refuses; zpOk says that the tensor stands in an activation position (R53). -/
def fwBad (w : Nat) (zpOk : Bool) : Bool :=
  match fwFmt w with
  | none => true
  | some f =>
    fld w 4 2 ≥ 2 || fwRnd w == 3 || bit w 7 || fld w 12 4 != 0
    || (!fwScaled w && (match f with
        | .e3m2 | .e2m3 | .e2m1 | .int4 | .int2 | .t2 => true
        | _ => false))
    || (fwScaled w && f.isWide)
    || (fwZp w && !(zpOk && fwScaled w && (f = .int8 || f = .int4)))

/-! ### Conversion (R58, R59, R67 to R70) -/

/-- What a conversion writes, and what it counts. -/
structure Conv where
  bits : Nat
  ovf : Bool := false
  /-- The block must be written with scale 0xFF. -/
  invalid : Bool := false
  nanInt : Bool := false
  nanMade : Bool := false
  inexact : Bool := false
  tiny : Bool := false
  deriving DecidableEq, Repr

/-- The code of an integer value of a format. -/
def intCode (f : Fmt) (v : Int) : Nat := ofSigned f.width v

/-- What an overflowing result writes (R59). -/
def overflowConv (f : Fmt) (c : Clamp) (scaled neg : Bool) : Conv :=
  if f.isIeee then
    match c with
    | .finite => { bits := packMax f neg, ovf := true, inexact := true }
    | .ieee => { bits := packInf f neg, ovf := true, inexact := true }
    | .nan => { bits := packNan f neg quietBit, ovf := true, inexact := true, nanMade := true }
  else if f = .e4m3 then
    match c with
    | .nan => { bits := packNan f neg quietBit, ovf := true, inexact := true, nanMade := true }
    | _ => { bits := packMax f neg, ovf := true, inexact := true }
  else
    let code := if f.isFloat then packMax f neg else intCode f (if neg then f.intRange.1 else f.intRange.2)
    match c with
    | .nan =>
      if scaled || f ≠ .int8 then { bits := code, ovf := true, inexact := true, invalid := true, nanMade := true }
      else { bits := code, ovf := true, inexact := true, nanMade := true }
    | _ => { bits := code, ovf := true, inexact := true }

/-- One conversion of an exact value into a format (R67): u is the destination's block scale (0x7F where it has none), z its
zero point. -/
def convertElem (f : Fmt) (c : Clamp) (d : Rnd) (scaled : Bool) (u : Nat) (z : Int) (v : FVal) : Conv :=
  match v with
  | .nan neg _ man =>
    if f.isIeee || f = .e4m3 then { bits := packNan f neg man }
    else if scaled || f ≠ .int8 then { bits := 0, invalid := true }
    else { bits := 0, nanInt := true }
  | .inf neg =>
    if f.isIeee then { bits := packInf f neg } else overflowConv f c scaled neg
  | .fin neg m e0 =>
    let e := e0 + (127 - (u : Int))
    if f.isFloat then
      if m = 0 then { bits := packFinite f neg 0 0 }
      else
        let q := gridOf f m e
        let (n, ix) := roundTo d neg m e q
        if magGt n q f.maxFin.1 f.maxFin.2 then overflowConv f c scaled neg
        else
          let q1 : Int := (Nat.log2 m : Int) + e - f.mbits
          let (n1, _) := roundTo d neg m e q1
          { bits := packFinite f neg n q, inexact := ix,
            tiny := ix && !magGt n1 q1 (2 ^ (f.mbits + 1) - 1) (-f.bias - f.mbits) }
    else
      let (k, ix) := roundTo d neg m e 0
      let n : Int := (if neg then -(k : Int) else k) + z
      let (lo, hi) := f.intRange
      if n < lo then overflowConv f c scaled true
      else if hi < n then overflowConv f c scaled false
      else { bits := intCode f n, inexact := ix }

/-- The value of an element of a block with scale u and zero point z (R49). -/
def scaledElem (f : Fmt) (u : Nat) (z : Int) (bits : Nat) : FVal :=
  match decodeElem f bits with
  | .fin n m e =>
    if f.isFloat then .fin n m (e + ((u : Int) - 127))
    else fvalOfInt ((if n then -(m : Int) else m) - z) ((u : Int) - 127)
  | v => v

/-! ### Packing (R51): element i stands at bit offset i · width of a little-endian stream -/

/-- The bytes that element i of a stream spans: the first byte, the bit in it, how many bytes. -/
def elemSpan (f : Fmt) (i : Nat) : Nat × Nat × Nat :=
  let b := i * f.width
  (b / 8, b % 8, (b % 8 + f.width + 7) / 8)

/-- Reads element i of a packed stream through a byte reader. -/
def readElem (rd : Nat → Byte) (base : Nat) (f : Fmt) (i : Nat) : Nat :=
  let (o, s, n) := elemSpan f i
  fld (ofLE ((rangeFrom (base + o) n).map rd)) s f.width

/-- Packs codes into bytes. -/
def packCodes (f : Fmt) (codes : List Nat) : List Byte :=
  let x := codes.foldr (fun c acc => c % 2 ^ f.width + acc * 2 ^ f.width) 0
  leBytes (ceilDiv (codes.length * f.width) 8) x

/-- Splits a number into n codes of a format. -/
def splitCodes (f : Fmt) : Nat → Nat → List Nat
  | 0, _ => []
  | n + 1, x => x % 2 ^ f.width :: splitCodes f n (x / 2 ^ f.width)

/-! ### The random value of stochastic rounding (R74) -/

/-- One round of the generator. -/
def philoxRound (c0 c1 c2 c3 k0 k1 : Nat) : Nat × Nat × Nat × Nat :=
  let p0 := 0xD2511F53 * c0
  let p1 := 0xCD9E8D57 * c2
  (((p1 / 2 ^ 32) ^^^ c1) ^^^ k0, p1 % 2 ^ 32, ((p0 / 2 ^ 32) ^^^ c3) ^^^ k1, p0 % 2 ^ 32)

/-- n rounds, with the key bump after each. -/
def philoxRounds : Nat → Nat × Nat × Nat × Nat → Nat → Nat → Nat × Nat × Nat × Nat
  | 0, c, _, _ => c
  | n + 1, (c0, c1, c2, c3), k0, k1 =>
    philoxRounds n (philoxRound c0 c1 c2 c3 k0 k1) ((k0 + 0x9E3779B9) % 2 ^ 32) ((k1 + 0xBB67AE85) % 2 ^ 32)

/-- The key of stochastic rounding for a written tensor (R72). -/
structure SrKey where
  seed : Nat
  step : Nat
  tensor : Nat
  deriving DecidableEq, Repr

/-- The 16-bit random value of element x (R74). -/
def srValue (k : SrKey) (x : Nat) : Nat :=
  let c := x / 8
  let (o0, o1, o2, o3) := philoxRounds 10 (c % 2 ^ 32, c / 2 ^ 32 % 2 ^ 13, k.tensor % 2 ^ 32, k.step % 2 ^ 32)
    (k.seed % 2 ^ 32) (k.seed / 2 ^ 32 % 2 ^ 32)
  let lane := x % 8
  fld ([o0, o1, o2, o3].getD (lane / 2) 0) (16 * (lane % 2)) 16

end Sys2Proof.Machine
end

