-- ==== Sys2Proof/Machine/Flags.lean ====
section
/-!
DEFINITION. The flags of a thread slot's floating-point status register FPSR (R64, R224): NV, DZ, OF, UF, NX in bits 0 to 4,
SAT in bit 5, all sticky.
-/

namespace Sys2Proof.Machine

open Sys2Proof

/-- ORs the exceptions of an operation into FPSR. -/
def addExc (x : SlotState) (e : Exc) : SlotState := { x with fpsr := x.fpsr ||| e.setWidth 6 }

/-- Sets FPSR.SAT (R224, R235, R237). -/
def addSat (x : SlotState) (b : Bool) : SlotState := if b then { x with fpsr := x.fpsr ||| 0x20 } else x

/-- The exceptions of a list of results. -/
def joinExc (l : List Exc) : Exc := l.foldl (· ||| ·) 0

/-- The direction in force in a slot (R63, R224). -/
def slotRnd (x : SlotState) : Rnd := rndOfMode x.rmode

/-- The exceptions of a conversion to a wide or narrow format (R64, R235). -/
def convExc (c : Conv) : Exc :=
  (if c.ovf then excOF else 0) ||| (if c.inexact then excNX else 0) ||| (if c.tiny then excUF else 0)

end Sys2Proof.Machine
end

