-- ==== Sys2Proof/Machine/Operands.lean ====
section
/-!
DEFINITION. The operand forms of a bundle: scalar registers, register groups, masks, element types, local addresses
(R224, R227 to R231).
-/

namespace Sys2Proof.Machine

open Sys2Proof

/-! ### Scalar registers -/

/-- Scalar register i. -/
def sReg (x : SlotState) (i : Nat) : W64 := tabGet 0 x.sregs i
/-- Writes scalar register i. -/
def setSReg (x : SlotState) (i : Nat) (v : W64) : SlotState := { x with sregs := tabSet 0 x.sregs i v }

/-! ### Element types and groups (R227, R228) -/

/-- The type of a VT code (R227). -/
def vtType (vt : Nat) : Option Fmt :=
  match vt with
  | 0x00 => some .fp64 | 0x01 => some .fp32 | 0x02 => some .bf16 | 0x03 => some .fp16 | 0x04 => some .e4m3
  | 0x05 => some .e5m2 | 0x08 => some .e2m1 | 0x09 => some .int8 | 0x0A => some .int4 | 0x10 => some .int16
  | 0x11 => some .int32 | 0x12 => some .int64
  | _ => none

/-- The slot's element type; V.CFG accepts only types of R227, and 0x00 at reset. -/
def slotType (x : SlotState) : Fmt := (vtType x.vt.toNat).getD .fp64

/-- Registers of a group. -/
def grpSize (x : SlotState) : Nat := 2 ^ x.grp.toNat

/-- VLMAX (R227). -/
def vlMax (f : Fmt) (g : Nat) : Nat := g * 2048 / f.width

/-- The derived group size for elements of width w, 0 where it is below 1 (R228). -/
def derivedGrp (x : SlotState) (w : Nat) : Nat := grpSize x * w / (slotType x).width

/-- The registers of a derived group, at least one (R228). -/
def groupRegs (n g : Nat) : List Nat := rangeFrom n (max 1 g)

def vReg (x : SlotState) (i : Nat) : VReg := tabGet 0 x.vregs i
def setVReg (x : SlotState) (i : Nat) (v : VReg) : SlotState := { x with vregs := tabSet 0 x.vregs i v }
def mReg (x : SlotState) (i : Nat) : MReg := tabGet 0 x.mregs i
def setMReg (x : SlotState) (i : Nat) (v : MReg) : SlotState := { x with mregs := tabSet 0 x.mregs i v }

/-- Element i of the group at register n, for elements of width w (R228). -/
def vElem (x : SlotState) (n w i : Nat) : Nat := fld (vReg x (n + i * w / 2048)).toNat (i * w % 2048) w

/-- A field of width w of a number, replaced. -/
def putField (x o w v : Nat) : Nat := x - fld x o w * 2 ^ o + v % 2 ^ w * 2 ^ o

/-- Writes element i of the group at register n (R228). -/
def setVElem (x : SlotState) (n w i v : Nat) : SlotState :=
  let r := n + i * w / 2048
  setVReg x r (BitVec.ofNat 2048 (putField (vReg x r).toNat (i * w % 2048) w v))

/-- The first k elements of a group. -/
def vElems (x : SlotState) (n w k : Nat) : List Nat := (rangeFrom 0 k).map (vElem x n w)

/-- Writes the elements that are given, from element i on. -/
def setVElems (n w : Nat) : SlotState → Nat → List (Option Nat) → SlotState
  | x, _, [] => x
  | x, i, none :: t => setVElems n w x (i + 1) t
  | x, i, some v :: t => setVElems n w (setVElem x n w i v) (i + 1) t

/-! ### Masks (R229) -/

/-- Element i is active: MEN = 0, or its bit of mask MSK is 1. Callers look only at elements below VL. -/
def active (x : SlotState) (f : EFields) (i : Nat) : Bool := !f.men || (mReg x f.msk.toNat).getLsbD i

/-- Results under the mask: an inactive element is kept with MZ = 0 and written 0 with MZ = 1. -/
def underMask (x : SlotState) (f : EFields) : Nat → List Nat → List (Option Nat)
  | _, [] => []
  | i, v :: t => (if active x f i then some v else if f.mz then some 0 else none) :: underMask x f (i + 1) t

/-- Writes a destination group under the mask. -/
def writeGroup (x old : SlotState) (f : EFields) (n w : Nat) (vs : List Nat) : SlotState :=
  setVElems n w x 0 (underMask old f 0 vs)

/-- Bits lo and above of m kept, the bits below k taken from l (R229). -/
def maskFromBits (m : MReg) (l : List Bool) : MReg :=
  let k := l.length
  let low := l.foldr (fun b acc => bnat b + 2 * acc) 0
  BitVec.ofNat 4096 (m.toNat / 2 ^ k * 2 ^ k + low)

/-! ### Local addresses (R230, R231) -/

/-- The signed immediate of the engine format. -/
def immOf (f : EFields) : Int := f.imm.toInt

/-- A base plus a signed offset, modulo 2^64. -/
def addOff (a : W64) (o : Int) : Nat := (a + BitVec.ofInt 64 o).toNat

/-- An access of n bytes at a local address by the V slot: its bench offset, where it lies in the bench. -/
def vPlace (addr n : Nat) : Option Nat := if addr + n ≤ benchSize then some addr else none

/-- The bytes, bit in the first byte and aligned width of element i of width w at byte address base (R51, R231). -/
def elemAddr (base w i : Nat) : Nat × Nat := (base + i * w / 8, i * w % 8)

/-- Bytes an element spans. -/
def elemBytes (w : Nat) : Nat := max 1 (w / 8)

/-- Whether an element of width w may begin at a byte address. -/
def elemAligned (addr w : Nat) : Bool := addr % elemBytes w == 0

/-- The VCFG word (R224). -/
def vcfgWord (x : SlotState) : Nat :=
  x.vl.toNat + 2 ^ 16 * x.vt.toNat + 2 ^ 21 * x.grp.toNat + 2 ^ 23 * bnat x.pair

/-! ### Register names that an operation reads and writes (R221) -/

/-- A register name by its kind and number. -/
def sName (n : Nat) : RegName := .scalar ⟨n % 64, Nat.mod_lt _ (by decide)⟩
def vName (n : Nat) : RegName := .vector ⟨n % 64, Nat.mod_lt _ (by decide)⟩
def mName (n : Nat) : RegName := .mask ⟨n % 8, Nat.mod_lt _ (by decide)⟩

/-- The vector registers of a group of g at n. -/
def vNames (n g : Nat) : List RegName := (groupRegs n g).map vName

/-- The group at n and, under PAIR, its tangents. -/
def pairNames (x : SlotState) (n g : Nat) : List RegName :=
  vNames n g ++ (if x.pair then vNames (n + max 1 g) g else [])

/-- The group of the tangents of a V.CVT into elements of width w: GRP beyond the values (R240), or beyond their whole group where that is
larger (log entry 135). -/
def cvtTangent (x : SlotState) (d w : Nat) : Nat := d + max (grpSize x) (derivedGrp x w)

/-- Registers that an operation reads, then those that it writes. -/
structure RegUse where
  reads : List RegName := []
  writes : List RegName := []
  deriving DecidableEq, Repr

/-- The functions of FP that read one operand. -/
def fpUnary (fn : Nat) : Bool := fn == 4 || decide (12 ≤ fn)

/-- Registers of an S operation (R252). -/
def sUse (op : SlotOp) (f : SFields) : RegUse :=
  let d := sName f.d.toNat
  let a := sName f.a.toNat
  let b := sName f.b.toNat
  match op with
  | .alu => ⟨[a, b], [d]⟩
  | .alui | .ld | .jalr => ⟨[a], [d]⟩
  | .li | .jal => ⟨[], [d]⟩
  | .lui => ⟨[d], [d]⟩
  | .st | .br => ⟨[a, b], []⟩
  | .amo => ⟨[a, b], [d]⟩
  | .fp => ⟨if fpUnary f.fn.toNat then [a] else [a, b], [d]⟩
  | .fma => ⟨[a, b, sName f.fn.toNat], [d]⟩
  | .csrr => ⟨if f.imm = 2 then [.vcfg] else [], [d]⟩
  | .csrw => ⟨[a], []⟩
  | _ => ⟨[], []⟩

/-- The element types that carry tangents under PAIR (R240). -/
def pairType : Fmt → Bool
  | .fp64 | .fp32 | .bf16 => true
  | _ => false

/-- Registers of a V operation (R231 to R241). Every one of them but V.CFG reads VCFG. -/
def vUse (op : SlotOp) (f : EFields) (x : SlotState) : RegUse :=
  let g := grpSize x
  let d := f.d.toNat
  let a := f.a.toNat
  let b := f.b.toNat
  let c := f.c.toNat
  let m := if f.men then [mName f.msk.toNat] else []
  let cfg := RegName.vcfg :: m
  match op with
  | .vCfg => ⟨[sName a], [sName d, .vcfg]⟩
  | .vAdd | .vSub | .vMul | .vDiv | .vMin | .vMax => ⟨cfg ++ pairNames x a g ++ pairNames x b g, pairNames x d g⟩
  | .vAnd | .vOr | .vXor | .vShl | .vShr | .vSar => ⟨cfg ++ vNames a g ++ vNames b g, vNames d g⟩
  | .vFma => ⟨cfg ++ pairNames x a g ++ pairNames x b g ++ pairNames x c g, pairNames x d g⟩
  | .vSqrt | .vFunc => ⟨cfg ++ pairNames x a g, pairNames x d g⟩
  | .vLdexp => ⟨cfg ++ pairNames x a g ++ vNames b (derivedGrp x 32), pairNames x d g⟩
  | .vCvt =>
    let ft := (vtType (fld f.imm.toNat 0 5)).getD .fp64
    let g' := derivedGrp x ft.width
    if pairType ft then
      ⟨cfg ++ pairNames x a g, vNames d g' ++ (if x.pair then vNames (cvtTangent x d ft.width) g' else [])⟩
    else ⟨cfg ++ vNames a g, vNames d g'⟩
  | .vBcast => ⟨cfg ++ [sName a], vNames d g⟩
  | .vWmul => ⟨cfg ++ vNames a g ++ vNames b g, vNames d (2 * g)⟩
  | .vDot => ⟨cfg ++ vNames a g ++ vNames b g ++ vNames c g, vNames d g⟩
  | .vCmp => ⟨cfg ++ vNames a g ++ vNames b g, [mName d]⟩
  | .vMop => ⟨.vcfg :: (if f.sub = 4 then [mName a] else [mName a, mName b]), [mName d]⟩
  | .vMpopc | .vMfirst => ⟨[.vcfg, mName a], [sName d]⟩
  | .vPerm => ⟨cfg ++ vNames a g ++ vNames b g, mName c :: vNames d g⟩
  | .vRed => ⟨cfg ++ pairNames x a g, if x.pair then [sName d, sName (d + 1)] else [sName d]⟩
  | .vLd => ⟨cfg ++ [sName a], vNames d g⟩
  | .vLds => ⟨cfg ++ [sName a, sName b], vNames d g⟩
  | .vLdx => ⟨cfg ++ [sName a] ++ vNames b (derivedGrp x 32), vNames d g⟩
  | .vLdff => ⟨cfg ++ [sName a], RegName.vcfg :: vNames d g⟩
  | .vMld => ⟨[.vcfg, sName a], [mName d]⟩
  | .vSt => ⟨cfg ++ [sName a] ++ vNames d g, []⟩
  | .vSts => ⟨cfg ++ [sName a, sName b] ++ vNames d g, []⟩
  | .vStx => ⟨cfg ++ [sName a] ++ vNames b (derivedGrp x 32) ++ vNames d g, []⟩
  | .vMst => ⟨[.vcfg, sName a, mName d], []⟩
  | .vPass => ⟨[sName a], []⟩
  | _ => ⟨[], []⟩

/-- Registers of an M operation (R243). -/
def mUse (op : SlotOp) (f : EFields) : RegUse :=
  let d := sName f.d.toNat
  let a := sName f.a.toNat
  let b := sName f.b.toNat
  let c := sName f.c.toNat
  match op with
  | .mtBegin => ⟨[a, b], [d]⟩
  | .mtAcc | .mtAddraw => ⟨[a, b, c], []⟩
  | .mtStore | .mtAlign => ⟨[d, a, b, c], []⟩
  | .mtDrop => ⟨[a], []⟩
  | _ => ⟨[], []⟩

/-- Registers of an X operation (R248, R250). -/
def xUse (op : SlotOp) (f : EFields) : RegUse :=
  let a := sName f.a.toNat
  let b := sName f.b.toNat
  match op with
  | .xSig | .xMoved => ⟨[a], []⟩
  | .xWait | .xScset => ⟨[a, b], []⟩
  | .xScread => ⟨[a], [sName f.d.toNat]⟩
  | .xMove => ⟨[a, b, sName f.c.toNat], []⟩
  | _ => ⟨[], []⟩

end Sys2Proof.Machine
end

