-- ==== Sys2Proof/Machine/Transc.lean ====
section
/-!
DEFINITION. The functions of the FUNC stage (R202, R203). The exact value is enclosed by integer arithmetic to far more bits
than any format holds; BF16 and FP16 results are that value rounded once, FP32 and FP64 results are one of the values within
the bound of R202, and which one is an open value.
-/

namespace Sys2Proof.Machine

open Sys2Proof

/-- Fraction bits of the evaluation. -/
def trP : Nat := 512

/-- The sum of z^(2i+1)/(2i+1) in fixed point: atanh for sgn 1, atan for sgn −1. -/
def atanSeries : Nat → Nat → Nat → Nat → Nat → Bool → Int → Int
  | 0, _, _, _, _, _, acc => acc
  | n + 1, p, zsq, pow, k, alt, acc =>
    let term : Int := (pow / k : Nat)
    let acc := if alt && (k / 2) % 2 == 1 then acc - term else acc + term
    atanSeries n p zsq (pow * zsq / 2 ^ p) (k + 2) alt acc

/-- The sum of (1/d)^(2i+1)/(2i+1), with fixed-point p. -/
def atanInv (n p d : Nat) (alt : Bool) : Int :=
  atanSeries n p (2 ^ p / (d * d)) (2 ^ p / d) 1 alt 0

/-- ln 2 in fixed point, p fraction bits. -/
def ln2Fix (p : Nat) : Nat := (2 * atanInv (p / 3 + 4) p 3 false).toNat

/-- π in fixed point, p fraction bits, by π = 16 atan(1/5) − 4 atan(1/239). -/
def piFix (p : Nat) : Nat :=
  let g := p + 32
  ((16 * atanInv (g / 4 + 4) g 5 true - 4 * atanInv (g / 15 + 4) g 239 true) / (2 ^ 32 : Int)).toNat

/-- The sum of r^i/i! from term i on, in fixed point. -/
def expSeries : Nat → Nat → Nat → Nat → Nat → Nat → Nat
  | 0, _, _, _, _, acc => acc
  | n + 1, p, r, term, i, acc => expSeries n p r (term * r / 2 ^ p / (i + 1)) (i + 1) (acc + term)

/-- e^r for 0 ≤ r < 1 in fixed point. -/
def expFrac (p r : Nat) : Nat := expSeries 110 p r (2 ^ p) 0 0

/-- The sums of sin (odd terms) and cos (even terms) of r in fixed point. -/
def sinCosSeries : Nat → Nat → Nat → Nat → Nat → Int → Int → Int × Int
  | 0, _, _, _, _, s, c => (s, c)
  | n + 1, p, r, term, i, s, c =>
    let t : Int := if i % 4 ≥ 2 then -(term : Int) else term
    let (s, c) := if i % 2 = 1 then (s + t, c) else (s, c + t)
    sinCosSeries n p r (term * r / 2 ^ p / (i + 1)) (i + 1) s c

/-- m · 2^e in fixed point with p fraction bits, rounded down. -/
def toFix (p m : Nat) (e : Int) : Nat :=
  let k := e + p
  if 0 ≤ k then m * 2 ^ k.toNat else m / 2 ^ (-k).toNat

/-- A value that is not representable, with a last bit that says so. -/
def sticky (neg : Bool) (m : Nat) (e : Int) : FVal := .fin neg (2 * m + 1) (e - 1)

/-- A magnitude just below 1. -/
def belowOne (neg : Bool) : FVal := .fin neg (2 ^ 400 - 1) (-400)

/-- A magnitude just below m · 2^e. -/
def justBelow (neg : Bool) (m : Nat) (e : Int) : FVal := .fin neg (m * 2 ^ 200 - 1) (e - 200)

/-- The exponent of a magnitude's leading bit. -/
def leadExp (m : Nat) (e : Int) : Int := (Nat.log2 m : Int) + e

/-- e^x of a nonzero x as mantissa and exponent; x · log2(e) must be below 2^20. -/
def expParts (base2 neg : Bool) (m : Nat) (e : Int) : Nat × Int :=
  let p := trP
  let x : Int := if neg then -((toFix p m e : Nat) : Int) else (toFix p m e : Nat)
  let unit : Int := if base2 then ((2 ^ p : Nat) : Int) else (ln2Fix p : Nat)
  let k := x / unit
  let r := (x % unit).toNat
  let r := if base2 then r * ln2Fix p / 2 ^ p else r
  (expFrac p r, k - p)

/-- The exact value of EXP or EXP2 of a finite x. -/
def exactExp (base2 neg : Bool) (m : Nat) (e : Int) : FVal :=
  if m = 0 then .fin false 1 0
  else if leadExp m e ≥ 14 then (if neg then .fin false 1 (-20000) else .fin false 1 20000)
  else if leadExp m e < -300 then (if neg then belowOne false else sticky false (2 ^ 400) (-400))
  else
    let k := toFix 0 m e
    if base2 && roundTo .rtz false m e 0 == (k, false) then .fin false 1 (if neg then -(k : Int) else k)
    else
      let (w, q) := expParts base2 neg m e
      sticky false w q

/-- ln of a positive m · 2^e in fixed point. -/
def lnFix (m : Nat) (e : Int) : Int :=
  let p := trP
  let l := Nat.log2 m
  let y := toFix p m (-(l : Int))
  let one := 2 ^ p
  let z := (y - one) * one / (y + one)
  2 * atanSeries (p / 3 + 4) p (z * z / one) z 1 false 0 + (e + l) * (ln2Fix p : Nat)

/-- The exact value of LOG or LOG2 of a positive finite x. -/
def exactLog (base2 : Bool) (m : Nat) (e : Int) : FVal :=
  let l := Nat.log2 m
  if m = 2 ^ l && (base2 || e + l = 0) then fvalOfInt (if base2 then e + l else 0) 0
  else
    let x := lnFix m e
    let x := if base2 then x * ((2 ^ trP : Nat) : Int) / (ln2Fix trP : Nat) else x
    sticky (x < 0) x.natAbs (-(trP : Int))

/-- The exact value of RSQRT of a positive finite x. -/
def exactRsqrt (m : Nat) (e : Int) : FVal :=
  let odd := (e % 2).toNat
  let m' := m * 2 ^ odd
  let l := 200 + Nat.log2 m'
  let s := isqrt (2 ^ (2 * l) / m')
  .fin false (2 * s + bnat (s * s * m' != 2 ^ (2 * l))) (-(l : Int) - (e - odd) / 2 - 1)

/-- The exact value of SIN or COS of a finite x. -/
def exactSinCos (cos neg : Bool) (m : Nat) (e : Int) : FVal :=
  if m = 0 then (if cos then .fin false 1 0 else .fin neg 0 0)
  else if leadExp m e < -100 then (if cos then belowOne false else justBelow neg m e)
  else
    let p := trP
    let g := p + 64 + (if leadExp m e < 0 then 0 else (leadExp m e).toNat)
    let half := piFix g / 2
    let x := toFix g m e
    let k := x / half
    let r := (x % half) / 2 ^ (g - p)
    let (s, c) := sinCosSeries 220 p r (2 ^ p) 0 0 0
    let (v, sgn) := match (if cos then k + 1 else k) % 4 with
      | 0 => (s, false)
      | 1 => (c, false)
      | 2 => (s, true)
      | _ => (c, true)
    let sgn := if cos then sgn else xor sgn neg
    sticky (xor sgn (decide (v < 0))) v.natAbs (-(p : Int))

/-- The exact value of TANH of a finite x. -/
def exactTanh (neg : Bool) (m : Nat) (e : Int) : FVal :=
  if m = 0 then .fin neg 0 0
  else if leadExp m e < -100 then justBelow neg m e
  else if leadExp m e ≥ 8 then belowOne neg
  else
    let (w, q) := expParts false false m (e + 1)
    let one : Nat := 2 ^ trP
    let big := w * 2 ^ (q + trP).toNat
    sticky neg ((big - one) * 2 ^ 600 / (big + one)) (-600)

/-- The exact value of SIGMOID of a finite x. -/
def exactSigmoid (neg : Bool) (m : Nat) (e : Int) : FVal :=
  if m = 0 then .fin false 1 (-1)
  else if leadExp m e < -300 then
    (if neg then .fin false (2 ^ 400 - 1) (-401) else sticky false (2 ^ 400) (-401))
  else if leadExp m e ≥ 9 then (if neg then exactExp false true m e else belowOne false)
  else
    -- 1 / (1 + e^|x|) for a negative x, and its complement to 1
    let (w, q) := expParts false false m e
    let one : Nat := 2 ^ trP
    let big := w * 2 ^ (q + trP).toNat
    if neg then sticky false (one * 2 ^ 1600 / (big + one)) (-1600)
    else sticky false (big * 2 ^ 1600 / (big + one)) (-1600)

/-- Functions by their code in R202. -/
def funcCodeOk (c : Nat) : Bool := c ≤ 0x0C

/-- Twice the error bound of R202 in units of the last place, for FP64 and FP32. -/
def funcBound2 (c : Nat) : Nat :=
  match c with
  | 7 | 8 => 3
  | 9 | 10 => 4
  | _ => 2

/-- The values within k/2 ulp of a finite exact value, as multiples of its grid 2^q. -/
def withinUlps (f : Fmt) (k : Nat) (m : Nat) (e : Int) : List Nat × Int :=
  let q := gridOf f m e
  let (n, _) := roundTo .rtz false m e q
  -- twice the distance of n + j − 2 from the value, in units of 2^(e − 64)
  let ok (j : Nat) : Bool :=
    decide (2 ≤ n + j) &&
    (let y := n + j - 2
     let lo : Int := if e ≤ q then e else q
     let d : Int := ((y * 2 ^ (q - lo).toNat : Nat) : Int) - ((m * 2 ^ (e - lo).toNat : Nat) : Int)
     decide (2 * d.natAbs ≤ k * 2 ^ (q - lo).toNat))
  (((List.range 6).filter ok).map fun j => n + j - 2, q)

/-- A function value in a work format: rounded to nearest in BF16 and FP16; in FP32 and FP64 an open choice within R202. -/
def funcRound (f : Fmt) (code input : Nat) (v : FVal) : FVal × Exc :=
  match v with
  | .fin neg m e =>
    let (r, fl) := ieeeRound f .rne v
    if m = 0 || r.isInf then (r, fl)
    else match f with
      | .fp32 | .fp64 =>
        let (cs, q) := withinUlps f (funcBound2 code) m e
        let pick := Config.funcPick code (if f = .fp64 then 0 else 1) input
        (ieeeRound f .rne (.fin neg (cs.getD (pick % cs.length) 0) q) |>.1, fl)
      | _ => (r, fl)
  | _ => ieeeRound f .rne v

/-- One function of R202 on a work-format value, with the special results of R203; d is the direction for RECIP and SQRT. -/
def funcEval (f : Fmt) (d : Rnd) (code : Nat) (x : FVal) : FVal × Exc :=
  let inp := packVal f x
  let rnd (v : FVal) : FVal × Exc := funcRound f code inp v
  match code with
  | 0x04 => fDiv f d (.fin false 1 0) x
  | 0x05 => fSqrt f d x
  | _ =>
    match x with
    | .nan n s p =>
      ((ieeeRound f .rne (.nan n false p)).1,
        if s then excNV else 0)
    | .inf n =>
      match code with
      | 0x00 | 0x01 => (if n then .fin false 0 0 else x, 0)
      | 0x02 | 0x03 => if n then (genNan, excNV) else (x, 0)
      | 0x06 => if n then (genNan, excNV) else (.fin false 0 0, 0)
      | 0x07 | 0x08 => (genNan, excNV)
      | 0x09 => (.fin n 1 0, 0)
      | 0x0A => (if n then .fin false 0 0 else .fin false 1 0, 0)
      | 0x0B => (if n then .fin false 0 0 else x, 0)
      | _ => (.inf false, 0)
    | .fin n m e =>
      match code with
      | 0x00 => rnd (exactExp false n m e)
      | 0x01 => rnd (exactExp true n m e)
      | 0x02 | 0x03 =>
        if m = 0 then (.inf true, excDZ)
        else if n then (genNan, excNV)
        else rnd (exactLog (code == 3) m e)
      | 0x06 =>
        if m = 0 then (.inf n, excDZ)
        else if n then (genNan, excNV)
        else rnd (exactRsqrt m e)
      | 0x07 => rnd (exactSinCos false n m e)
      | 0x08 => rnd (exactSinCos true n m e)
      | 0x09 => rnd (exactTanh n m e)
      | 0x0A => rnd (exactSigmoid n m e)
      | 0x0B => (if n || m = 0 then .fin false 0 0 else x, 0)
      | _ => (.fin false m e, 0)

/-- ln 2 rounded to nearest in a work format (R202). -/
def ln2Val (f : Fmt) : FVal := (ieeeRound f .rne (sticky false (ln2Fix trP) (-(trP : Int)))).1

/-- An operation on a value that an earlier one made, the exceptions joined. -/
def thenExc (a : FVal × Exc) (g : FVal → FVal × Exc) : FVal × Exc :=
  let (v, e) := g a.1
  (v, a.2 ||| e)

/-- The derivative factor of a function at x, with y its rounded result; each operation rounds once, left to right (R202). A factor that
the rule negates flips the sign of a NaN too (R66; log entry 147, DESIGN CHOICE). -/
def funcFactor (f : Fmt) (d : Rnd) (code : Nat) (x y : FVal) : FVal × Exc :=
  let mul a b := fMul f d a b
  let recip a := fDiv f d (.fin false 1 0) a
  let neg (a : FVal × Exc) : FVal × Exc := (a.1.negate, a.2)
  let one : FVal := .fin false 1 0
  let half : FVal := .fin false 1 (-1)
  match code with
  | 0x00 => (y, 0)
  | 0x01 => mul y (ln2Val f)
  | 0x02 => recip x
  | 0x03 => thenExc (mul x (ln2Val f)) recip
  | 0x04 => neg (mul y y)
  | 0x05 => thenExc (recip y) (mul half)
  | 0x06 => thenExc (thenExc (mul half.negate y) fun a => mul a y) fun a => mul a y
  | 0x07 => funcEval f d 0x08 x
  | 0x08 => neg (funcEval f d 0x07 x)
  | 0x09 => thenExc (mul y y) (fSub f d one)
  | 0x0A => thenExc (fSub f d one y) (mul y)
  | 0x0B => (match x with
    | .fin false (_ + 1) _ => one
    | .inf false => one
    | _ => .fin false 0 0, 0)
  | _ => (if x.neg? then one.negate else one, 0)

end Sys2Proof.Machine
end

