-- ==== Sys2Proof/Machine/Scalar.lean ====
section
/-!
DEFINITION. The operations of the S slot (R252), control registers (R224), and what stops a thread slot.
-/

namespace Sys2Proof.Machine

open Sys2Proof

/-- Handles that end with an operation or a part: released without store (R206). -/
def releaseHandles (s : State) (c : Core) (l : List Nat) : State :=
  if l = [] then s else s.setCore c { s.core c with handles := l.foldl tabErase (s.core c).handles }

/-- Releases the handles of a slot's program without store (R112). -/
def dropHandles (s : State) (t : Slot) : State :=
  let c := slotCore t
  releaseHandles s c (((s.core c).handles.filter fun h => h.2.owner == t && !h.2.pass).map Prod.fst)

/-- Stops a thread slot, releases its handles (R112) and raises the event that says why; sub names the unit of the core (R220,
R445). -/
def faultSlot (t : Slot) (code : BitVec 16) (sub : BitVec 3) (s : State) : State :=
  let x := s.slot t
  let s := dropHandles (s.setSlot t { x with stopped := true }) t
  raiseEv s code (srcCore (slotCore t)) [] (some x.ctx) 0xFF sub

/-- Replaces a slot's state by a function of it. -/
def updSlot (t : Slot) (g : SlotState → SlotState) (s : State) : State := s.setSlot t (g (s.slot t))

/-- Marks registers as pending (R221). -/
def addPending (x : SlotState) (l : List RegName) : SlotState :=
  { x with pending := x.pending ++ l.filter fun r => !x.pending.contains r }

/-! ### Integer operations (R252) -/

/-- A shift; a count of 64 or more has no stated result. -/
def shiftOp (fn : Nat) (a b : W64) : W64 :=
  if b.toNat < 64 then
    match fn with
    | 5 => a <<< b.toNat
    | 6 => a >>> b.toNat
    | _ => a.sshiftRight b.toNat
  else Config.bigShift fn a b

/-- The integer function FN of two 64-bit operands (R252). -/
def aluOp (fn : Nat) (a b : W64) : W64 :=
  match fn with
  | 0 => a + b
  | 1 => a - b
  | 2 => a &&& b
  | 3 => a ||| b
  | 4 => a ^^^ b
  | 5 | 6 | 7 => shiftOp fn a b
  | 8 => BitVec.ofNat 64 (bnat (a.slt b))
  | 9 => BitVec.ofNat 64 (bnat (a.ult b))
  | 10 => if a.slt b then a else b
  | 11 => if a.slt b then b else a
  | 12 => if a.ult b then a else b
  | 13 => if a.ult b then b else a
  | 14 => a * b
  | 15 => BitVec.ofInt 64 (a.toInt * b.toInt / 2 ^ 64)
  | 16 => BitVec.ofNat 64 (a.toNat * b.toNat / 2 ^ 64)
  | 17 => if b = 0 then BitVec.allOnes 64 else a.sdiv b
  | 18 => if b = 0 then BitVec.allOnes 64 else a / b
  | 19 => if b = 0 then a else a.srem b
  | _ => if b = 0 then a else a % b

/-- The functions whose result is written later than at issue: multiplications and divisions (R223's table). -/
def aluLate (fn : Nat) : Bool := decide (14 ≤ fn)

/-- Sign extension of the 32-bit immediate. -/
def imm64 (f : SFields) : W64 := f.imm.signExtend 64

/-- Writes D, pending where the operation writes it later. -/
def writeD (t : Slot) (d : Nat) (v : W64) (late : Bool) (s : State) : State :=
  updSlot t (fun x =>
    let x := setSReg x d v
    if late then addPending x [sName d] else x) s

def sAlu (t : Slot) (old : SlotState) (f : SFields) (s : State) : State :=
  writeD t f.d.toNat (aluOp f.fn.toNat (sReg old f.a.toNat) (sReg old f.b.toNat)) (aluLate f.fn.toNat) s

def sAlui (t : Slot) (old : SlotState) (f : SFields) (s : State) : State :=
  writeD t f.d.toNat (aluOp f.fn.toNat (sReg old f.a.toNat) (imm64 f)) (aluLate f.fn.toNat) s

def sLi (t : Slot) (f : SFields) (s : State) : State := writeD t f.d.toNat (imm64 f) false s

def sLui (t : Slot) (old : SlotState) (f : SFields) (s : State) : State :=
  writeD t f.d.toNat (f.imm ++ (sReg old f.d.toNat).setWidth 32) false s

/-! ### Scalar memory (R230, R252, R293) -/

/-- The size in bytes of FN [1:0]. -/
def sSize (f : SFields) : Nat := 2 ^ (f.fn.toNat % 4)

/-- Where a scalar access lies: aligned, and in the own bench or the own panel store. -/
def sPlace (t : Slot) (addr n : Nat) : Option Place :=
  if addr % n = 0 then localPlace (slotCore t) addr n else none

/-- The value that a load of n bytes writes. -/
def loadValue (n : Nat) (signed : Bool) (raw : Nat) : W64 :=
  if signed then BitVec.ofInt 64 (toSigned (8 * n) raw) else BitVec.ofNat 64 raw

def sLd (t : Slot) (old : SlotState) (f : SFields) (s : State) : State :=
  let n := sSize f
  match sPlace t (sReg old f.a.toNat + imm64 f).toNat n with
  | none => faultSlot t evAccessFault 0 s
  | some p =>
    if poisoned (s.bank p.space) p.addr n then faultSlot t evMemPoison 0 s
    else writeD t f.d.toNat (loadValue n (bit f.fn.toNat 2) (readNat (s.bank p.space) p.addr n)) true s

def sSt (t : Slot) (old : SlotState) (f : SFields) (s : State) : State :=
  let n := sSize f
  match sPlace t (sReg old f.a.toNat + imm64 f).toNat n with
  | none => faultSlot t evAccessFault 0 s
  | some p => s.setBank p.space (bankWrite (s.bank p.space) p.addr (leBytes n (sReg old f.b.toNat).toNat))

/-- The new memory value of an AMO (R252). -/
def amoOp (fn : Nat) (m b : W64) : W64 :=
  match fn with
  | 0 => m + b
  | 1 => m &&& b
  | 2 => m ||| b
  | 3 => b
  | _ => if m.ult b then b else m

def sAmo (t : Slot) (old : SlotState) (f : SFields) (s : State) : State :=
  match sPlace t (sReg old f.a.toNat).toNat 8 with
  | none => faultSlot t evAccessFault 0 s
  | some p =>
    if poisoned (s.bank p.space) p.addr 8 then faultSlot t evMemPoison 0 s
    else
      let m := BitVec.ofNat 64 (readNat (s.bank p.space) p.addr 8)
      let v := amoOp f.fn.toNat m (sReg old f.b.toNat)
      writeD t f.d.toNat m true (s.setBank p.space (bankWrite (s.bank p.space) p.addr (leBytes 8 v.toNat)))

/-! ### Branches (R218, R252) -/

/-- PC + IMM32 · 32. -/
def branchTarget (old : SlotState) (f : SFields) : W64 := old.pc + imm64 f * 32

/-- The condition of BR. -/
def brTaken (fn : Nat) (a b : W64) : Bool :=
  match fn with
  | 0 => a == b
  | 1 => a != b
  | 2 => a.slt b
  | 3 => b.sle a
  | 4 => a.ult b
  | _ => b.ule a

/-- The program counter after the bundle (R217, R218). -/
def nextPc (op : SlotOp) (old : SlotState) (f : SFields) : W64 :=
  match op with
  | .br => if brTaken f.fn.toNat (sReg old f.a.toNat) (sReg old f.b.toNat) then branchTarget old f else old.pc + 32
  | .jal => branchTarget old f
  | .jalr => (sReg old f.a.toNat + imm64 f) &&& ~~~(31 : W64)
  | _ => old.pc + 32

/-- JAL and JALR: the return address. -/
def sLink (t : Slot) (old : SlotState) (f : SFields) (s : State) : State := writeD t f.d.toNat (old.pc + 32) false s

/-! ### Scalar floating point (R252, R63 to R66) -/

/-- The format of a scalar FP operation: IMM32[3:0]. -/
def sFmt (f : SFields) : Fmt := (fmtOfCode (f.imm.toNat % 16)).getD .fp64
/-- The destination format of CVT: IMM32[7:4]. -/
def sFmtTo (f : SFields) : Fmt := (fmtOfCode (f.imm.toNat / 16 % 16)).getD .fp64

/-- A source operand, from the low bits of its register. -/
def fpSrc (f : Fmt) (v : W64) : FVal := decodeElem f (v.toNat % 2 ^ f.width)
/-- A result, zero-extended. -/
def fpRes (f : Fmt) (r : FVal × Exc) : W64 × Exc := (BitVec.ofNat 64 (packVal f r.1), r.2)

/-- The class of a value, in the order of IEEE 754's list. -/
def fpClass (f : Fmt) (v : FVal) : Nat :=
  match v with
  | .nan _ s _ => if s then 0 else 1
  | .inf n => if n then 2 else 9
  | .fin n m e =>
    let sub := magGt (2 ^ f.mbits) (1 - f.bias - f.mbits) m e
    if m = 0 then (if n then 5 else 6) else if sub then (if n then 4 else 7) else (if n then 3 else 8)

/-- A comparison's result; an unordered pair raises invalid operation in LT and LE, and in EQ where an operand signals. -/
def fpCompare (quiet : Bool) (test : Option Ordering → Bool) (a b : FVal) : W64 × Exc :=
  let r := fCmp a b
  (BitVec.ofNat 64 (bnat (test r)),
    if r.isNone && !quiet then excNV else sigExc [a, b])

def isLt : Option Ordering → Bool | some .lt => true | _ => false
def isEq : Option Ordering → Bool | some .eq => true | _ => false
def isLe (r : Option Ordering) : Bool := isLt r || isEq r

/-- Conversion to INT64; NaN and values out of range raise invalid operation and have no stated result. -/
def fpToInt64 (f : Fmt) (d : Rnd) (v : FVal) : W64 × Exc :=
  let (k, e) := fToInt .int64 d v
  if e = excNV then (Config.invalidToInt (packVal f v), e) else (BitVec.ofInt 64 k, e)

/-- The function FN of the FP operation (R252). -/
def fpOpVal (fn : Nat) (f ft : Fmt) (d : Rnd) (x y : W64) : W64 × Exc :=
  let a := fpSrc f x
  let b := fpSrc f y
  match fn with
  | 0 => fpRes f (fAdd f d a b)
  | 1 => fpRes f (fSub f d a b)
  | 2 => fpRes f (fMul f d a b)
  | 3 => fpRes f (fDiv f d a b)
  | 4 => fpRes f (fSqrt f d a)
  | 5 => let (v, e, _) := fMinMax false a b; fpRes f (v, e)
  | 6 => let (v, e, _) := fMinMax true a b; fpRes f (v, e)
  | 7 => fpRes f (fMinMaxNum false a b)
  | 8 => fpRes f (fMinMaxNum true a b)
  | 9 => fpCompare true isEq a b
  | 10 => fpCompare false isLt a b
  | 11 => fpCompare false isLe a b
  | 12 => (Config.classWord (fpClass f a), 0)
  | 13 => let (v, e, ix) := fRoundInt d a; fpRes f (v, e ||| (if ix then excNX else 0))
  | 14 => fpRes ft (roundExc ft d (a, sigExc [a]))
  | 15 => fpToInt64 f d a
  | _ => fpRes f (ieeeRound f d (fvalOfInt x.toInt 0))

/-- Writes an FP result and its exceptions. -/
def writeFp (t : Slot) (d : Nat) (r : W64 × Exc) (s : State) : State :=
  updSlot t (fun x => addExc x r.2) (writeD t d r.1 true s)

def sFp (t : Slot) (old : SlotState) (f : SFields) (s : State) : State :=
  writeFp t f.d.toNat
    (fpOpVal f.fn.toNat (sFmt f) (sFmtTo f) (slotRnd old) (sReg old f.a.toNat) (sReg old f.b.toNat)) s

def sFma (t : Slot) (old : SlotState) (f : SFields) (s : State) : State :=
  let fm := sFmt f
  writeFp t f.d.toNat
    (fpRes fm (fFma fm (slotRnd old) (fpSrc fm (sReg old f.a.toNat)) (fpSrc fm (sReg old f.b.toNat))
      (fpSrc fm (sReg old f.fn.toNat)))) s

/-! ### Control registers (R224) -/

/-- Control register n of a slot. -/
def csrRead (s : State) (t : Slot) (x : SlotState) (n : Nat) : Option W64 :=
  match n with
  | 0 => some (x.rmode.setWidth 64)
  | 1 => some (x.fpsr.setWidth 64)
  | 2 => some (BitVec.ofNat 64 (vcfgWord x))
  | 3 => some (BitVec.ofNat 64 t.val)
  | 4 => some (BitVec.ofNat 64 (x.ctx.val + 2 ^ 10 * x.gen.toNat))
  | 5 => some (BitVec.ofNat 64 (x.scBase.toNat + 2 ^ 8 * (x.scCount % 512)))
  | 6 => some (x.part.setWidth 64)
  | 8 => some (panelCycle s (slotPanel t))
  | 9 => some s.gau.count
  | _ => none

/-- The control registers that CSRW may write: FPCR and FPSR. -/
def csrWritable (n : Nat) : Bool := n == 0 || n == 1

def sCsrr (t : Slot) (old : SlotState) (f : SFields) (s : State) : State :=
  writeD t f.d.toNat ((csrRead s t old f.imm.toNat).getD 0) false s

def sCsrw (t : Slot) (old : SlotState) (f : SFields) (s : State) : State :=
  let v := sReg old f.a.toNat
  updSlot t (fun x =>
    if f.imm = 0 then { x with rmode := v.setWidth 2 } else { x with fpsr := v.setWidth 6 }) s

end Sys2Proof.Machine
end

