-- ==== Sys2Proof/Machine/Sync.lean ====
section
/-!
DEFINITION. Sync counters (R249 to R251), the tags of R435, and the engines' command queues: how an operation enters one and
how it completes (R22, R221, R246).
-/

namespace Sys2Proof.Machine

open Sys2Proof

/-! ### Counters -/

def scGet (s : State) : ScName → W32
  | .core c i => tabGet 0 (s.core c).sync i.val
  | .panel p i => tabGet 0 (s.panel p).sync i.val

def scPut (s : State) (n : ScName) (v : W32) : State :=
  match n with
  | .core c i => let x := s.core c; s.setCore c { x with sync := tabSet 0 x.sync i.val v }
  | .panel p i => let x := s.panel p; s.setPanel p { x with sync := tabSet 0 x.sync i.val v }

/-- (i32)(counter − target) ≥ 0 (R250). -/
def waitDone (counter target : W32) : Bool := !(counter - target).msb

/-! ### Tags (R435) -/

def State.engine (s : State) (c : Core) (k : EngineKind) : EngState := (s.core c).eng k
def State.setEngine (s : State) (c : Core) (k : EngineKind) (e : EngState) : State := s.setCore c ((s.core c).setEng k e)

/-- The tags of an operation that slot t issues to an engine now. -/
def tagsOf (s : State) (t : Slot) (k : EngineKind) : Tags :=
  let c := slotCore t
  { ctx := (s.slot t).ctx, gen := (s.slot t).gen, core := c, eng := k
    engInc := (s.engine c k).inc, panelInc := (s.panel (corePanel c)).inc }

/-- The tags match the current ones. -/
def tagsOk (s : State) (g : Tags) : Bool :=
  g.gen == (s.ctx g.ctx).gen && g.engInc == (s.engine g.core g.eng).inc && g.panelInc == (s.panel (corePanel g.core)).inc

/-- Counts a late reply, write or increment (R435). -/
def lateDrop (s : State) (n : Nat) : State := { s with glb := { s.glb with lateDrop := s.glb.lateDrop + BitVec.ofNat 64 n } }

/-- The waits that the present counter values satisfy: the slots' numbers. -/
def doneWaits (s : State) : List Nat :=
  (s.slots.filter fun p => match p.2.hold with
    | .wait c target => waitDone (scGet s c) target
    | _ => false).map fun p => p.1

/-- Frees the slots of a list from what holds them, and tells what they signal (R219). -/
def freeHolds (s : State) (l : List Nat) : State :=
  { s with slots := s.slots.map fun p => if l.contains p.1 then (p.1, { p.2 with hold := .free, holdSig := [] }) else p }

/-- The signals of the waits and fences of slots that complete. -/
def holdSignals (s : State) (l : List Nat) : List (Slot × Signal) :=
  l.flatMap fun k => if h : k < 10240 then (s.slot ⟨k, h⟩).holdSig.map fun g => (⟨k, h⟩, g) else []

/-- Adds to a counter without evaluating its waits; dropped and counted where the tags do not match (R251, R435). -/
def putInc (s : State) (n : ScName) (i : TaggedInc) : State :=
  if tagsOk s i.tags then scPut s n (scGet s n + i.amount) else lateDrop s 1

/-- Ends every wait that the present counter values satisfy, and those that its signals then satisfy (R250, R251). -/
def releaseFrom : Nat → State → State
  | 0, s => s
  | n + 1, s =>
    let l := doneWaits s
    if l = [] then s
    else
      let g := holdSignals s l
      let s := freeHolds s l
      releaseFrom n (g.foldl (fun s x => putInc s x.2.target ⟨x.2.amount, tagsOf s x.1 .mover⟩) s)

def releaseWaits (s : State) : State := releaseFrom (s.slots.length + 1) s

/-- Sets a counter, and evaluates its waits. -/
def scSet (s : State) (n : ScName) (v : W32) : State := releaseWaits (scPut s n v)

/-- One increment that reaches a counter, and the evaluation of its waits. -/
def applyInc (n : ScName) (s : State) (i : TaggedInc) : State := releaseWaits (putInc s n i)

/-! ### Command queues -/

/-- Whether an operation of a slot is in an engine's queue. -/
def engHolds (s : State) (t : Slot) (k : EngineKind) : Bool :=
  (s.engine (slotCore t) k).queue.any fun c => c.slot == t

/-- Frees a slot that has stopped its part once every operation it issued has completed (R225). -/
def tryFree (s : State) (t : Slot) : State :=
  let x := s.slot t
  if x.ending ∧ x.pending = [] ∧ ¬ engHolds s t .matrix ∧ ¬ engHolds s t .vector ∧ ¬ engHolds s t .mover then
    s.setSlot t {}
  else s

/-- The engine's turn in a fence's counts. -/
def Hold.retire (k : EngineKind) : Hold → Hold
  | .fence v m x r => match k with
    | .vector => .fence (v - 1) m x r
    | .matrix => .fence v (m - 1) x r
    | .mover => .fence v m (x - 1) r
  | h => h

/-- A fence whose operations have completed ends, and signals (R250). -/
def endFence (s : State) (t : Slot) : State :=
  let x := s.slot t
  match x.hold with
  | .fence 0 0 0 r =>
    if r.any x.pending.contains then s
    else
      let s := s.setSlot t { x with hold := .free, holdSig := [] }
      x.holdSig.foldl (fun s g => applyInc g.target s ⟨g.amount, tagsOf s t .mover⟩) s
  | _ => s

/-! ### Writes into what another operation reads (R112, R216) -/

/-- A byte from a free value. -/
def freeByte (i : Nat) : Byte := (Config.freeWord i).setWidth 8

/-- An accumulator entry with an undefined value, from a free number. -/
def freeEntry (k : AccKind) (w : Nat) : AccEntry :=
  match k with
  | .fp32 => .f32 (BitVec.ofNat 32 w)
  | .int32 => .i32 (toSigned 32 (fld w 0 32)) (bit w 32)
  | _ => match w % 8 with
    | 0 => .ven (.inf (bit w 3))
    | 1 => .ven (.nan (bit w 3) (fld w 4 51))
    | 2 => .invalid
    | _ => .ven (.fin (bit w 3) (fld w 4 110) (toSigned 16 (fld w 114 16)))

/-- 192 free bits, from free value i on. -/
def freeWide (i : Nat) : Nat :=
  (Config.freeWord i).toNat + 2 ^ 64 * (Config.freeWord (i + 1)).toNat + 2 ^ 128 * (Config.freeWord (i + 2)).toNat

/-- Row k of a range meets the n bytes at address a. -/
def BenchRead.meets (r : BenchRead) (a n k : Nat) : Bool :=
  decide (k < r.rows ∧ a < r.addr + k * r.stride + r.bytes ∧ r.addr + k * r.stride < a + n)

/-- Any row of a range meets a write to the bench at local address a. -/
def BenchRead.meetsAny (r : BenchRead) (a n : Nat) : Bool := (rangeFrom 0 r.rows).any (r.meets a n)

/-- Entry (i, j) of a tile depends on bytes that a write of n bytes at a changes. -/
def touched (l : List BenchRead) (a n i j : Nat) : Bool :=
  l.any fun r => match r.side with
    | .rows => r.meets a n i
    | .cols => r.meets a n j
    | .all => r.meetsAny a n

/-- The bits of the byte at address a that lie in bit ranges. -/
def keptMask (l : List (Nat × Nat)) (a : Nat) : Byte :=
  BitVec.ofNat 8 ((rangeFrom 0 8).foldl (fun m b =>
    m + if l.any (fun r => decide (r.1 ≤ 8 * a + b ∧ 8 * a + b < r.1 + r.2)) then 2 ^ b else 0) 0)

/-- Bytes at address a of which only the bits of the ranges keep their values; the others are free, from free value i on. -/
def spoilBytes (l : List (Nat × Nat)) : Nat → Nat → List Byte → List Byte
  | _, _, [] => []
  | i, a, b :: t =>
    let m := keptMask l a
    ((b &&& m) ||| (freeByte i &&& ~~~m)) :: spoilBytes l (i + 1) (a + 1) t

/-- A pass in progress of which a write changes a source: what it stores is undefined (R216) but for the bits that do not depend on the
source, such as the codes at listed channels (R166). -/
def spoilPass (i : Nat) (cmd : EngCmd) : EngCmd :=
  { cmd with writes := (cmd.writes.foldl (fun (acc : List MemWrite × Nat) w =>
      (acc.1 ++ [{ w with data := spoilBytes cmd.fixed acc.2 w.addr w.data }], acc.2 + w.data.length)) ([], i)).1 }

/-- The bits of the elements that a tile's store writes and that do not depend on the entries hit. -/
def keptElems (hit : Nat → Nat → Bool) (cmd : EngCmd) : List (Nat × Nat) :=
  (List.zip (rangeFrom 0 cmd.writes.length) cmd.writes).flatMap fun r =>
    ((rangeFrom 0 (8 * r.2.data.length / cmd.elemBits)).filter fun j => !hit r.1 j).map fun j =>
      (8 * r.2.addr + j * cmd.elemBits, cmd.elemBits)

/-- Bytes that a command writes. -/
def EngCmd.bytes (cmd : EngCmd) : Nat := cmd.writes.foldl (fun k w => k + w.data.length) 0

/-- The stores of a tile that wait behind an accumulation, up to the one that releases its handle: what they write of the entries hit
is undefined too. Whether the handle was released, and the next free index. -/
def spoilStores (hn : Nat) (hit : Nat → Nat → Bool) : Nat → List EngCmd → List EngCmd × Bool × Nat
  | i, [] => ([], false, i)
  | i, cmd :: t =>
    if cmd.tile = some hn then
      let cmd' := { spoilPass i { cmd with fixed := keptElems hit cmd } with fixed := cmd.fixed }
      if cmd.drops then (cmd' :: t, true, i + cmd.bytes)
      else
        let (l, d, k) := spoilStores hn hit (i + cmd.bytes) t
        (cmd' :: l, d, k)
    else
      let (l, d, k) := spoilStores hn hit i t
      (cmd :: l, d, k)

/-- The entries hit of a tile in progress are undefined. -/
def spoilHandle (s : State) (c : Core) (hn : Nat) (hit : Nat → Nat → Bool) : State :=
  match tabFind (s.core c).handles hn with
  | none => s
  | some h =>
    let es := (List.zip (rangeFrom 0 h.entries.length) h.entries).map fun p =>
      if hit (p.1 / h.nt) (p.1 % h.nt) then freeEntry h.acc (freeWide (s.free + 3 * p.1)) else p.2
    { s.setCore c { s.core c with handles := tabPut (s.core c).handles hn { h with entries := es } } with
      free := s.free + 3 * h.entries.length }

/-- The accumulation at place p of a matrix engine's queue gives undefined values in the entries hit: those of its tile, or what stores
behind it take of them (R112). -/
def spoilTile (s : State) (c : Core) (p : Nat) (hit : Nat → Nat → Bool) : State :=
  let e := s.engine c .matrix
  match (e.queue[p]?).bind fun cmd => cmd.tile with
  | none => s
  | some hn =>
    let (l, ended, i) := spoilStores hn hit s.free (e.queue.drop (p + 1))
    let s := { s.setEngine c .matrix { e with queue := e.queue.take (p + 1) ++ l } with free := i }
    if ended then s else spoilHandle s c hn hit

/-- The core and the local address of a write to a bench. -/
def benchTarget (w : MemWrite) : Option (Core × Nat) :=
  if h : w.space = .bench ∧ w.addr / benchSize < 160 then some (⟨w.addr / benchSize, h.2⟩, w.addr % benchSize) else none

/-- A command reads bytes that a write of n bytes at a changes. -/
def EngCmd.readsAt (a n : Nat) (cmd : EngCmd) : Bool := cmd.reads.any fun r => r.meetsAny a n

/-- The accumulations in progress on the core that a write meets: the affected elements are undefined, or the whole tile where a store
writes over an operand (R112). -/
def spoilTiles (whole : Bool) (s : State) (w : MemWrite) : State :=
  match benchTarget w with
  | some (c, a) =>
    let q := (s.engine c .matrix).queue
    ((List.zip (rangeFrom 0 q.length) q).filter fun p => p.2.readsAt a w.data.length).foldl
      (fun s p => spoilTile s c p.1 fun i j => whole || touched p.2.reads a w.data.length i j) s
  | none => s

/-- The passes in progress on the core that a write meets. -/
def spoilPasses (s : State) (w : MemWrite) : State :=
  match benchTarget w with
  | some (c, a) =>
    let e := s.engine c .vector
    let hit := EngCmd.readsAt a w.data.length
    if e.queue.any hit then
      let r := e.queue.foldl (fun (acc : List EngCmd × Nat) cmd =>
        if hit cmd then (acc.1 ++ [spoilPass acc.2 cmd], acc.2 + cmd.bytes) else (acc.1 ++ [cmd], acc.2)) ([], s.free)
      { s.setEngine c .vector { e with queue := r.1 } with free := r.2 }
    else s
  | none => s

/-- A write of engine k meets the operations of the core's other engines that read there; those of the same engine run in its
own order (R223). -/
def spoilBy (k : EngineKind) (s : State) (w : MemWrite) : State :=
  let s := if k = .matrix then s else spoilTiles false s w
  if k = .vector then s else spoilPasses s w

/-! ### Completion -/

/-- What a completed command of engine k does: its writes become visible, its counters change, its signals go out (R246, R250); a
command whose tags no longer match does nothing but count (R435). -/
def commandEffect (s : State) (c : Core) (k : EngineKind) (cmd : EngCmd) : State :=
  if tagsOk s cmd.tags then
    let s := cmd.writes.foldl applyWrite s
    let s := cmd.writes.foldl (spoilBy k) s
    let s := cmd.sets.foldl (fun s g => scSet s g.target g.amount) s
    let s := if cmd.icinv then s.setCore c { s.core c with icache := [] } else s
    cmd.signals.foldl (fun s g => applyInc g.target s ⟨g.amount, cmd.tags⟩) s
  else lateDrop s (cmd.writes.length + cmd.sets.length + cmd.signals.length)

/-- Completes the command at the front of an engine's queue. -/
def retireFront (s : State) (c : Core) (k : EngineKind) : State :=
  let e := s.engine c k
  match e.queue with
  | [] => s
  | cmd :: rest =>
    let s := s.setEngine c k { e with queue := rest, progress := s.now }
    let s := commandEffect s c k cmd
    let s := releaseHandles s c cmd.handles
    let s := updSlot cmd.slot (fun x => if x.running then { x with progress := s.now, hold := x.hold.retire k } else x) s
    tryFree (endFence s cmd.slot) cmd.slot

/-- Completes the commands at the front that end by themselves, at most n of them. -/
def settle (c : Core) (k : EngineKind) : Nat → State → State
  | 0, s => s
  | n + 1, s =>
    match (s.engine c k).queue with
    | cmd :: _ => if cmd.kind = .immediate then settle c k n (retireFront s c k) else s
    | [] => s

/-- Completes the front command and those behind it that then end by themselves. -/
def completeFront (s : State) (c : Core) (k : EngineKind) : State :=
  let s := retireFront s c k
  settle c k (s.engine c k).queue.length s

/-- Appends a command to an engine's queue; the progress window of an idle engine begins with it (R428). -/
def enqueue (s : State) (c : Core) (k : EngineKind) (cmd : EngCmd) : State :=
  let e := s.engine c k
  let s := s.setEngine c k { e with
    queue := e.queue ++ [cmd], progress := if e.queue = [] then s.now else e.progress
    issued := tabPut e.issued cmd.tags.ctx.val s.now }
  settle c k (e.queue.length + 1) s

/-- The state as an engine sees it: the writes of its own earlier operations have taken effect (R223). A unit that another
engine is still to write reads as it was before that write (R27 leaves open which; log entry 97, DESIGN CHOICE). -/
def engView (s : State) (c : Core) (k : EngineKind) : State :=
  ((s.engine c k).queue.flatMap fun cmd => cmd.writes).foldl applyWrite s

/-! ### A slot that stops during a pass (R216) -/

/-- The first rows of a pass's writes. -/
def rowsPrefix (cmd : EngCmd) (k : Nat) : List MemWrite := cmd.writes.take ((cmd.rowLens.take k).foldl (· + ·) 0)

/-- The passes of a stopped slot end at a row boundary: the one at the front of the queue has stored some number of rows, one
behind it none; handles that they hold are released without store, and nothing is signalled. -/
def stopPasses (s : State) (t : Slot) : State :=
  let c := slotCore t
  let q := (s.engine c .vector).queue
  let mine (cmd : EngCmd) : Bool := cmd.slot == t && cmd.kind == .pass
  if q.any mine then
    let k := (Config.freeWord s.free).toNat
    let front := match q with
      | cmd :: _ => if mine cmd && tagsOk s cmd.tags then rowsPrefix cmd (k % (cmd.rowLens.length + 1)) else []
      | [] => []
    let s := { front.foldl applyWrite s with free := s.free + 1 }
    let s := releaseHandles s c ((q.filter mine).flatMap fun cmd => cmd.handles)
    let e := s.engine c .vector
    let ended (cmd : EngCmd) : EngCmd :=
      if mine cmd then { cmd with writes := [], rowLens := [], handles := [], reads := [], signals := [] } else cmd
    s.setEngine c .vector { e with queue := e.queue.map ended }
  else s

/-- Stops a slot that faults, and with it its passes. -/
def stopAt (t : Slot) (code : BitVec 16) (sub : BitVec 3) (s : State) : State := stopPasses (faultSlot t code sub s) t

/-- The signal of an operation with SIGEN: counter SIG of the slot's window (R219, R249); none where SIG is outside it. -/
def sigOf (x : SlotState) (t : Slot) (f : EFields) : Option (List Signal) :=
  if f.sigen then
    if f.sig.toNat < x.scCount then
      some [⟨.core (slotCore t) ⟨(x.scBase.toNat + f.sig.toNat) % 256, Nat.mod_lt _ (by decide)⟩, 1⟩]
    else none
  else some []

/-- The command of an operation issued by slot t to an engine. -/
def mkCmd (s : State) (t : Slot) (k : EngineKind) (kind : EngKind) (sigs : List Signal) : EngCmd :=
  { slot := t, kind := kind, tags := tagsOf s t k, signals := sigs }

/-! ### The descriptor and the part that a slot works for -/

/-- Adds the tallies of one operation to another's (R61). -/
def addTallies (a b : Tallies) : Tallies :=
  { ovf := sat32 (a.ovf + b.ovf), inv := sat32 (a.inv + b.inv), nanInt := sat32 (a.nanInt + b.nanInt)
    shiftLoss := sat32 (a.shiftLoss + b.shiftLoss), bvTiles := sat32 (a.bvTiles + b.bvTiles)
    splitC := sat32 (a.splitC + b.splitC), overC := sat32 (a.overC + b.overC), hist6 := sat32 (a.hist6 + b.hist6)
    hist7 := sat32 (a.hist7 + b.hist7), hist8 := sat32 (a.hist8 + b.hist8), hist9 := sat32 (a.hist9 + b.hist9)
    zeroBlock := sat32 (a.zeroBlock + b.zeroBlock), scaleRaise := sat32 (a.scaleRaise + b.scaleRaise)
    scaleFloor := sat32 (a.scaleFloor + b.scaleFloor), inlayDropped := sat32 (a.inlayDropped + b.inlayDropped)
    softmaxEmpty := sat32 (a.softmaxEmpty + b.softmaxEmpty), factorRetry := sat32 (a.factorRetry + b.factorRetry)
    pivotFix := sat32 (a.pivotFix + b.pivotFix), updSkip := sat32 (a.updSkip + b.updSkip)
    sparseOrder := sat32 (a.sparseOrder + b.sparseOrder), sparseRange := sat32 (a.sparseRange + b.sparseRange)
    planeRetry := sat32 (a.planeRetry + b.planeRetry), restoreSteps := sat32 (a.restoreSteps + b.restoreSteps)
    nanMade := a.nanMade || b.nanMade, boundVoid := a.boundVoid || b.boundVoid, flags := a.flags ||| b.flags
    poisonUnits := a.poisonUnits + b.poisonUnits }

/-- Adds tallies to a descriptor in progress. -/
def tallyDesc (s : State) (d : DescId) (t : Tallies) : State :=
  match s.desc? d with
  | some x => s.setDesc d { x with tallies := addTallies x.tallies t }
  | none => s

/-- Replaces a descriptor's record by a function of it. -/
def updDesc (s : State) (d : DescId) (g : DescState → DescState) : State :=
  match s.desc? d with
  | some x => s.setDesc d (g x)
  | none => s

/-- Changes the part that a slot runs. -/
def updPart (s : State) (t : Slot) (g : PartState → PartState) : State :=
  match (s.slot t).desc with
  | some d => updDesc s d fun x => { x with parts := x.parts.map fun p => if p.slots.contains t then g p else p }
  | none => s

/-- Adds tallies to the part that a slot runs. -/
def tallySlot (s : State) (x : SlotState) (t : Tallies) : State :=
  match x.desc with
  | some d => updDesc s d fun y => { y with parts := y.parts.map fun p =>
      if p.unit = x.part.toNat then { p with tallies := addTallies p.tallies t } else p }
  | none => s

/-- Marks the part that a slot runs as failed (R390). -/
def failSlotPart (s : State) (t : Slot) : State := updPart s t fun p => { p with failed := true }

/-! ### PENDING_WRITE_COMPLETE (R221) -/

/-- Takes a register off the pending list. -/
def clearPending (x : SlotState) (r : RegName) : SlotState := { x with pending := x.pending.filter (· ≠ r) }

/-- The engine whose queue holds a command that is still to write register r of slot t. -/
def holderOf (s : State) (t : Slot) (r : RegName) : Option EngineKind :=
  [EngineKind.matrix, .vector, .mover].find? fun k =>
    (s.engine (slotCore t) k).queue.any fun c => c.slot == t && c.pend.contains r

/-- The write of register r of slot t completes: its pending bit is cleared, and the operation at the front of the engine's
queue completes with its last register. A register that waits for an operation further back is not written yet. -/
def pendingDone (s : State) (t : Slot) (r : RegName) : State :=
  let c := slotCore t
  if (s.slot t).pending.contains r then
    match holderOf s t r with
    | none => tryFree (endFence (updSlot t (fun x => { clearPending x r with progress := s.now }) s) t) t
    | some k =>
      let e := s.engine c k
      match e.queue with
      | cmd :: rest =>
        if cmd.slot = t ∧ cmd.pend.contains r then
          let cmd' := { cmd with pend := cmd.pend.filter (· ≠ r) }
          let v := cmd.scread.map fun p => (p.1, scGet s p.2)
          let s := s.setEngine c k { e with queue := cmd' :: rest, progress := s.now }
          let s := updSlot t (fun x =>
            let x := clearPending x r
            let x := match v with
              | some (d, w) => setSReg x d (w.setWidth 64)
              | none => x
            { x with progress := s.now }) s
          if cmd'.pend = [] ∧ cmd'.kind = .regs then completeFront s c k else s
        else s
      | [] => s
  else s

end Sys2Proof.Machine
end

