-- ==== Sys2Proof/Machine/Vector.lean ====
section
/-!
DEFINITION. The register operations of the V slot (R227 to R240) and its loads and stores (R231, R232). Values are computed
when the operation issues and stand behind the destination's pending bit until its write completes.
-/

namespace Sys2Proof.Machine

open Sys2Proof

/-! ### The tree of R97 -/

/-- combine() of R97: a left-heavy tree over a list, with n the fuel (its length suffices). -/
def combineTree {α : Type} (op : α → α → α) (z : α) : Nat → List α → α
  | 0, l => l.headD z
  | n + 1, l =>
    match l with
    | [] => z
    | [x] => x
    | _ =>
      let left := (l.length + 1) / 2
      op (combineTree op z n (l.take left)) (combineTree op z n (l.drop left))

/-- combine() of R97 over a whole list. -/
def combine {α : Type} (op : α → α → α) (z : α) (l : List α) : α := combineTree op z l.length l

/-! ### Element arithmetic -/

/-- An integer result wrapped to the element width (R233). -/
def wrapInt (f : Fmt) (v : Int) : Nat := ofSigned f.width v

/-- A floating-point result in its encoding. -/
def packRes (f : Fmt) (r : FVal × Exc) : Nat × Exc := (packVal f r.1, r.2)

/-- The shift of an integer element, its count taken modulo EW (R233). -/
def shiftElem (op : SlotOp) (f : Fmt) (a b : Nat) : Nat :=
  let k := b % f.width
  match op with
  | .vShl => a * 2 ^ k % 2 ^ f.width
  | .vShr => a / 2 ^ k
  | _ => wrapInt f (toSigned f.width a / ((2 ^ k : Nat) : Int))

/-- An integer element operation (R233). -/
def intElem (op : SlotOp) (f : Fmt) (a b c : Nat) : Nat :=
  let sa := toSigned f.width a
  let sb := toSigned f.width b
  match op with
  | .vAdd => wrapInt f (sa + sb)
  | .vSub => wrapInt f (sa - sb)
  | .vMul => wrapInt f (sa * sb)
  | .vFma => wrapInt f (sa * sb + toSigned f.width c)
  | .vMin => if sb < sa then b else a
  | .vMax => if sa < sb then b else a
  | .vAnd => a &&& b
  | .vOr => a ||| b
  | .vXor => a ^^^ b
  | _ => shiftElem op f a b

/-- A floating-point element operation (R233, R234); code is the function of V.FUNC. -/
def floatElem (op : SlotOp) (f : Fmt) (d : Rnd) (code : Nat) (a b c : FVal) : FVal × Exc :=
  match op with
  | .vAdd => fAdd f d a b
  | .vSub => fSub f d a b
  | .vMul => fMul f d a b
  | .vFma => fFma f d a b c
  | .vDiv => fDiv f d a b
  | .vSqrt => fSqrt f d a
  | .vMin => let (v, e, _) := fMinMax false a b; (v, e)
  | .vMax => let (v, e, _) := fMinMax true a b; (v, e)
  | _ => funcEval f d code a

/-- One element of an arithmetic operation. -/
def arithElem (op : SlotOp) (f : Fmt) (d : Rnd) (code a b c : Nat) : Nat × Exc :=
  if f.isFloat then packRes f (floatElem op f d code (decodeElem f a) (decodeElem f b) (decodeElem f c))
  else (intElem op f a b c, 0)

/-- The results of the active elements below k, 0 elsewhere, and their exceptions. -/
def elemResults (act : Nat → Bool) (g : Nat → Nat × Exc) : Nat → Nat → List Nat × Exc
  | _, 0 => ([], 0)
  | i, k + 1 =>
    let (v, e) := if act i then g i else (0, 0)
    let (t, es) := elemResults act g (i + 1) k
    (v :: t, e ||| es)

/-! ### Tangents (R213, R214, R240) -/

def fZero : FVal := .fin false 0 0

/-- A tangent times a factor; a tangent of ±0 gives +0 (R214). -/
def tMul (f : Fmt) (factor dx : FVal) : FVal × Exc := if dx.isZero then (fZero, 0) else fMul f .rne factor dx

/-- A tangent times a factor, the tangent being the first operand. -/
def tMulBy (f : Fmt) (dx factor : FVal) : FVal × Exc := if dx.isZero then (fZero, 0) else fMul f .rne dx factor

/-- fma(dx, b, t) in the direction d: a tangent, a factor, an addend; a zero tangent contributes +0 (R214). -/
def tFma (f : Fmt) (d : Rnd) (dx b t : FVal) : FVal × Exc :=
  if dx.isZero then (if t.isZero then fZero else t, 0) else fFma f d dx b t

/-- fma(a, dx, t) in the direction d: the factor is the first operand. -/
def tFmaBy (f : Fmt) (d : Rnd) (a dx t : FVal) : FVal × Exc :=
  if dx.isZero then (if t.isZero then fZero else t, 0) else fFma f d a dx t

/-- The sum of two tangents in a direction. -/
def tAdd (f : Fmt) (d : Rnd) (sub : Bool) (dx dy : FVal) : FVal × Exc :=
  if dx.isZero && dy.isZero then (fZero, 0)
  else if sub then fSub f d dx dy else fAdd f d dx dy

/-- A tangent times a derivative factor, with the exceptions raised in forming the factor; none where the tangent is zero. -/
def factorTan (f : Fmt) (factor : FVal × Exc) (dx : FVal) : FVal × Exc :=
  if dx.isZero then (fZero, 0)
  else
    let (r, e) := tMul f factor.1 dx
    (r, factor.2 ||| e)

/-- The second operand was selected by MIN or MAX; on equality it is the first (R240). -/
def tSelB (isMax : Bool) (a b : FVal) : Bool :=
  let (_, _, sb) := fMinMax isMax a b
  sb && !isEq (fCmp a b)

/-- A tangent passed on; −0 becomes +0 (R214). -/
def tPass (dx : FVal) : FVal := if dx.isZero then fZero else dx

/-- The tangent of an element operation (R240), from the operands, their tangents and the rounded value y. Operands stand in
the order in which the rule writes them (R66); what it writes as rne rounds to nearest, the rest in the slot's direction. The sign of a
NaN that the rule negates flips, as any value's (log entry 147, DESIGN CHOICE). -/
def tangentElem (op : SlotOp) (f : Fmt) (d : Rnd) (code : Nat) (a b : FVal) (da db dc y : FVal) : FVal × Exc :=
  match op with
  | .vAdd => tAdd f .rne false da db
  | .vSub => tAdd f .rne true da db
  | .vMul =>
    let (p, e1) := tMul f a db
    let (r, e2) := tFma f d da b p
    (r, e1 ||| e2)
  | .vFma =>
    let (p, e1) := tFmaBy f d a db (tPass dc)
    let (r, e2) := tFma f d da b p
    (r, e1 ||| e2)
  | .vDiv =>
    let (n, e1) := tFmaBy f d y.negate db (tPass da)
    let (r, e2) := if n.isZero then (fZero, 0) else fDiv f .rne n b
    (r, e1 ||| e2)
  | .vSqrt => factorTan f (funcFactor f d 0x05 a y) da
  | .vMin => (tPass (if tSelB false a b then db else da), 0)
  | .vMax => (tPass (if tSelB true a b then db else da), 0)
  | _ => factorTan f (funcFactor f d code a y) da

/-! ### Arithmetic on groups -/

/-- Element-wise arithmetic on the groups A, B and C into D, with tangents under PAIR. -/
def vArith (op : SlotOp) (f : EFields) (old x : SlotState) : SlotState :=
  let ft := slotType old
  let w := ft.width
  let d := slotRnd old
  let k := old.vl.toNat
  let code := fld f.imm.toNat 0 8
  let g := grpSize old
  let el (n i : Nat) : Nat := vElem old n w i
  let (vs, es) := elemResults (active old f)
    (fun i => arithElem op ft d code (el f.a.toNat i) (el f.b.toNat i) (el f.c.toNat i)) 0 k
  let y := addExc (writeGroup x old f f.d.toNat w vs) es
  if old.pair then
    let dv (n i : Nat) : FVal := decodeElem ft (el n i)
    let (ts, te) := elemResults (active old f)
      (fun i => packRes ft (tangentElem op ft d code (dv f.a.toNat i) (dv f.b.toNat i)
        (dv (f.a.toNat + g) i) (dv (f.b.toNat + g) i) (dv (f.c.toNat + g) i) (decodeElem ft (nth vs i)))) 0 k
    addExc (writeGroup y old f (f.d.toNat + g) w ts) te
  else y

/-- A · 2^B of an integer element (R233): the low bits of the product; a quotient that is not an integer has no stated value. -/
def ldexpInt (f : Fmt) (a : Int) (b : Int) : Nat :=
  if 0 ≤ b then wrapInt f (a * ((2 ^ (min b.toNat f.width) : Nat) : Int))
  else
    let k := (2 ^ (min (-b).toNat 64) : Nat)
    if a % (k : Int) = 0 then wrapInt f (a / (k : Int)) else (Config.ldexpOpen (ofSigned f.width a) (-b).toNat).toNat % 2 ^ f.width

/-- V.LDEXP: A · 2^B, B an INT32 group (R233, R240). -/
def vLdexp (f : EFields) (old x : SlotState) : SlotState :=
  let ft := slotType old
  let w := ft.width
  let d := slotRnd old
  let g := grpSize old
  if !ft.isFloat then
    let (vs, _) := elemResults (active old f)
      (fun i => (ldexpInt ft (toSigned w (vElem old f.a.toNat w i)) (toSigned 32 (vElem old f.b.toNat 32 i)), 0)) 0 old.vl.toNat
    writeGroup x old f f.d.toNat w vs
  else
  let scale (n i : Nat) : FVal × Exc :=
    let v := decodeElem ft (vElem old n w i)
    roundExc ft d (v.scale (toSigned 32 (vElem old f.b.toNat 32 i)), sigExc [v])
  let (vs, es) := elemResults (active old f) (fun i => packRes ft (scale f.a.toNat i)) 0 old.vl.toNat
  let y := addExc (writeGroup x old f f.d.toNat w vs) es
  if old.pair then
    let (ts, te) := elemResults (active old f)
      (fun i => if (decodeElem ft (vElem old (f.a.toNat + g) w i)).isZero then (0, 0)
        else packRes ft (scale (f.a.toNat + g) i)) 0 old.vl.toNat
    addExc (writeGroup y old f (f.d.toNat + g) w ts) te
  else y

/-! ### V.CVT (R235) -/

/-- One element converted: its code, exceptions, and integer saturation. -/
def cvtElem (src dst : Fmt) (d : Rnd) (code : Nat) : Nat × Exc × Bool :=
  let v := decodeElem src code
  let clamp := if dst.isWide then Clamp.ieee else .finite
  let c := convertElem dst clamp d false 0x7F 0 v
  if dst.isFloat then
    if v.isNan && dst = .e2m1 then (Config.nanToFp4 code % 16, sigExc [v], false)
    else (c.bits, convExc c ||| sigExc [v], false)
  else if v.isNan then (0, excNV, false)
  else if src.isFloat then (c.bits, convExc c, false)
  else (c.bits, 0, c.ovf)

/-- The destination type of V.CVT. -/
def cvtType (f : EFields) : Fmt := (vtType (fld f.imm.toNat 0 5)).getD .fp64

/-- V.CVT on a group at register n into register m; a tangent of ±0 gives +0 (R214). -/
def cvtGroup (tangent : Bool) (f : EFields) (old x : SlotState) (n m : Nat) : SlotState :=
  let src := slotType old
  let dst := cvtType f
  let rs := (rangeFrom 0 old.vl.toNat).map fun i =>
    let c := vElem old n src.width i
    if !active old f i || (tangent && (decodeElem src c).isZero) then (0, 0, false) else cvtElem src dst (slotRnd old) c
  let y := writeGroup x old f m dst.width (rs.map fun r => r.1)
  addSat (addExc y (joinExc (rs.map fun r => r.2.1))) (rs.any fun r => r.2.2)

def vCvt (f : EFields) (old x : SlotState) : SlotState :=
  let y := cvtGroup false f old x f.a.toNat f.d.toNat
  if old.pair && pairType (cvtType f) then
    cvtGroup true f old y (f.a.toNat + grpSize old) (cvtTangent old f.d.toNat (cvtType f).width)
  else y

/-! ### Moves between registers -/

/-- V.BCAST: the low EW bits of a scalar into every active element (R233). -/
def vBcast (f : EFields) (old x : SlotState) : SlotState :=
  let w := (slotType old).width
  let v := (sReg old f.a.toNat).toNat % 2 ^ w
  writeGroup x old f f.d.toNat w (List.replicate old.vl.toNat v)

/-- V.WMUL: exact widening products (R236). -/
def wmulType : Fmt → Fmt
  | .int8 => .int16
  | .e2m1 => .e4m3
  | _ => .bf16

def vWmul (f : EFields) (old x : SlotState) : SlotState :=
  let ft := slotType old
  let dt := wmulType ft
  let one (i : Nat) : Nat × Exc :=
    let a := vElem old f.a.toNat ft.width i
    let b := vElem old f.b.toNat ft.width i
    if ft.isFloat then packRes dt (roundExc dt .rne (exactMul (decodeElem ft a) (decodeElem ft b)))
    else (wrapInt dt (toSigned 8 a * toSigned 8 b), 0)
  let (vs, es) := elemResults (active old f) one 0 old.vl.toNat
  addExc (writeGroup x old f f.d.toNat dt.width vs) es

/-- Elements of a source that feed one lane of V.DOT (R237). -/
def dotN : Fmt → Nat
  | .int8 => 4
  | .e2m1 => 8
  | _ => 2

/-- The exact sum of C and the products of a lane, special values under IEEE addition; of several NaNs the first in the order
A, B, C is kept (R66). -/
def dotExact (d : Rnd) (c : FVal) (ps : List (FVal × FVal)) : FVal × Exc :=
  let all := ps.map Prod.fst ++ ps.map Prod.snd ++ [c]
  match firstNan all with
  | some n => (n, sigExc all)
  | none => ps.foldl (fun acc p =>
      let (m, e1) := exactMul p.1 p.2
      let (r, e2) := exactAdd d acc.1 m
      (r, acc.2 ||| e1 ||| e2)) (c, 0)

def vDot (f : EFields) (old x : SlotState) : SlotState :=
  let ft := slotType old
  let n := dotN ft
  let lanes := ceilDiv old.vl.toNat n
  let el (r i : Nat) : Nat := if i < old.vl.toNat then vElem old r ft.width i else 0
  if ft.isFloat then
    let one (j : Nat) : Nat × Exc :=
      let ps := (rangeFrom (n * j) n).map fun i => (decodeElem ft (el f.a.toNat i), decodeElem ft (el f.b.toNat i))
      packRes .fp32 (roundExc .fp32 (slotRnd old)
        (dotExact (slotRnd old) (decodeElem .fp32 (vElem old f.c.toNat 32 j)) ps))
    let (vs, es) := elemResults (active old f) one 0 lanes
    addExc (writeGroup x old f f.d.toNat 32 vs) es
  else
    let rs := (rangeFrom 0 lanes).map fun j =>
      if active old f j then
        ((rangeFrom (n * j) n).map fun i => toSigned 8 (el f.a.toNat i) * toSigned 8 (el f.b.toNat i)).foldl (· + ·)
          (toSigned 32 (vElem old f.c.toNat 32 j))
      else 0
    let (lo, hi) := Fmt.intRange .int32
    let cl (v : Int) : Int := if v < lo then lo else if hi < v then hi else v
    addSat (writeGroup x old f f.d.toNat 32 (rs.map fun v => wrapInt .int32 (cl v))) (rs.any fun v => decide (cl v ≠ v))

/-! ### Comparison and mask operations -/

/-- The comparison SUB of V.CMP on two elements (R233). -/
def cmpElem (f : Fmt) (sub a b : Nat) : Bool × Exc :=
  let r : Option Ordering :=
    if f.isFloat then fCmp (decodeElem f a) (decodeElem f b)
    else some (compare (toSigned f.width a) (toSigned f.width b))
  let v := match sub with
    | 0 => isEq r
    | 1 => !isEq r
    | 2 => isLt r
    | 3 => isLe r
    | 4 => r == some .gt
    | 5 => r == some .gt || isEq r
    | _ => r.isNone
  let quiet := sub = 0 || sub = 1 || sub = 6
  let e := if f.isFloat then
      (if r.isNone && !quiet then excNV else sigExc [decodeElem f a, decodeElem f b])
    else 0
  (v, e)

def vCmp (f : EFields) (old x : SlotState) : SlotState :=
  let ft := slotType old
  let rs := (rangeFrom 0 old.vl.toNat).map fun i =>
    if active old f i then
      cmpElem ft f.sub.toNat (vElem old f.a.toNat ft.width i) (vElem old f.b.toNat ft.width i)
    else (false, 0)
  let d := f.d.toNat % 8
  addExc (setMReg x d (maskFromBits (mReg old d) (rs.map fun r => r.1))) (joinExc (rs.map fun r => r.2))

def vMop (f : EFields) (old x : SlotState) : SlotState :=
  if old.vl = 0 then x else
  let a := mReg old (f.a.toNat % 8)
  let b := mReg old (f.b.toNat % 8)
  let v := match f.sub.toNat with
    | 0 => a &&& b
    | 1 => a ||| b
    | 2 => a ^^^ b
    | 3 => a &&& ~~~b
    | _ => ~~~a
  setMReg x (f.d.toNat % 8) v

/-- The bits of a mask below VL. -/
def maskBits (old : SlotState) (n : Nat) : List Bool := (rangeFrom 0 old.vl.toNat).map fun i => (mReg old (n % 8)).getLsbD i

/-- With VL = 0 a V operation writes nothing (R229). -/
def vMpopc (f : EFields) (old x : SlotState) : SlotState :=
  if old.vl = 0 then x
  else setSReg x f.d.toNat (BitVec.ofNat 64 ((maskBits old f.a.toNat).filter id).length)

def vMfirst (f : EFields) (old x : SlotState) : SlotState :=
  if old.vl = 0 then x
  else setSReg x f.d.toNat (match (maskBits old f.a.toNat).findIdx? id with
    | some i => BitVec.ofNat 64 i
    | none => BitVec.allOnes 64)

/-- V.PERM (R239). -/
def vPerm (f : EFields) (old x : SlotState) : SlotState :=
  let w := (slotType old).width
  let k := old.vl.toNat
  let idx (i : Nat) : Nat := vElem old f.b.toNat w i
  let vs := (rangeFrom 0 k).map fun i => if idx i < k then vElem old f.a.toNat w (idx i) else 0
  let y := writeGroup x old f f.d.toNat w vs
  let bits := (rangeFrom 0 k).map fun i => active old f i && decide (idx i < k)
  if k = 0 then y else setMReg y (f.c.toNat % 8) (maskFromBits 0 bits)

/-! ### V.RED (R238) -/

/-- The fold of a reduction, on values with their tangents: SUM, MAX, MIN, AMAX; equal values take the right operand. -/
def redOp (f : Fmt) (d : Rnd) (sub : Nat) (a b : FVal × FVal × Exc) : FVal × FVal × Exc :=
  match sub with
  | 0 =>
    let (v, e) := fAdd f d a.1 b.1
    let (t, e') := tAdd f d false a.2.1 b.2.1
    (v, t, a.2.2 ||| b.2.2 ||| e ||| e')
  | _ =>
    let (v, e, selB) := fMinMax (sub != 2) a.1 b.1
    let right := selB || isEq (fCmp a.1 b.1)
    (if right && !v.isNan then b.1 else v, if right then b.2.1 else a.2.1, a.2.2 ||| b.2.2 ||| e)

/-- The identity of R199; AMAX has +0 (R238). -/
def redIdentity (sub : Nat) : FVal :=
  match sub with
  | 1 => .inf true
  | 2 => .inf false
  | _ => fZero

/-- The elements that a reduction folds: AMAX takes magnitudes, its tangent times the sign. A signalling NaN raises invalid even where it
is folded with nothing (R66). -/
def redElem (sub : Nat) (v t : FVal) : FVal × FVal × Exc :=
  if sub = 3 then (v.abs, if v.neg? then tPass t.negate else tPass t, sigExc [v, t]) else (v, tPass t, sigExc [v, t])

/-- Integer reductions: SUM wraps. -/
def redInt (f : Fmt) (sub : Nat) (a b : Int) : Int :=
  match sub with
  | 0 => toSigned f.width (wrapInt f (a + b))
  | 2 => if a < b then a else b
  | _ => if b < a then a else b

/-- The identity of an integer reduction. -/
def redIntId (f : Fmt) (sub : Nat) : Int :=
  match sub with
  | 1 => f.intRange.1
  | 2 => f.intRange.2
  | _ => 0

def vRed (f : EFields) (old x : SlotState) : SlotState :=
  let ft := slotType old
  let w := ft.width
  let sub := f.sub.toNat
  let k := old.vl.toNat
  if k = 0 then x
  else if ft.isFloat then
    let g := grpSize old
    let tan (i : Nat) : FVal := if old.pair then decodeElem ft (vElem old (f.a.toNat + g) w i) else fZero
    let es := (rangeFrom 0 k).map fun i =>
      if active old f i then redElem sub (decodeElem ft (vElem old f.a.toNat w i)) (tan i)
      else (redIdentity sub, fZero, 0)
    let (v, t, e) := combine (redOp ft (slotRnd old) sub) (fZero, fZero, 0) es
    let y := addExc (setSReg x f.d.toNat (BitVec.ofNat 64 (packVal ft v))) e
    if old.pair then setSReg y (f.d.toNat + 1) (BitVec.ofNat 64 (packVal ft t)) else y
  else
    let es := (rangeFrom 0 k).map fun i =>
      if active old f i then
        let v := toSigned w (vElem old f.a.toNat w i)
        if sub = 3 then (v.natAbs : Int) else v
      else redIntId ft sub
    let v := combine (redInt ft sub) 0 es
    setSReg x f.d.toNat (BitVec.ofInt 64 (toSigned w (wrapInt ft v)))

/-! ### V.CFG (R227) -/

/-- The type, group and pair bit of IMM15. -/
def cfgVt (f : EFields) : Nat := fld f.imm.toNat 0 5
def cfgGrp (f : EFields) : Nat := fld f.imm.toNat 5 2
def cfgPair (f : EFields) : Bool := bit f.imm.toNat 7

def vCfg (f : EFields) (old x : SlotState) : SlotState :=
  let ft := (vtType (cfgVt f)).getD .fp64
  let vl := min (sReg old f.a.toNat).toNat (vlMax ft (2 ^ cfgGrp f))
  setSReg
    { x with vl := BitVec.ofNat 13 vl, vt := BitVec.ofNat 5 (cfgVt f), grp := BitVec.ofNat 2 (cfgGrp f), pair := cfgPair f }
    f.d.toNat (BitVec.ofNat 64 vl)

/-- The register operations of the V slot. -/
def vRegOp (op : SlotOp) (f : EFields) (old x : SlotState) : SlotState :=
  match op with
  | .vCfg => vCfg f old x
  | .vLdexp => vLdexp f old x
  | .vCvt => vCvt f old x
  | .vBcast => vBcast f old x
  | .vWmul => vWmul f old x
  | .vDot => vDot f old x
  | .vCmp => vCmp f old x
  | .vMop => vMop f old x
  | .vMpopc => vMpopc f old x
  | .vMfirst => vMfirst f old x
  | .vPerm => vPerm f old x
  | .vRed => vRed f old x
  | _ => vArith op f old x

/-! ### Loads and stores (R231, R232) -/

/-- The byte address, bit offset of element i of a V memory operation. -/
def vAddr (op : SlotOp) (f : EFields) (old : SlotState) (i : Nat) : Nat × Nat :=
  let w := (slotType old).width
  let a := sReg old f.a.toNat
  match op with
  | .vLds | .vSts => (addOff a (immOf f + (sReg old f.b.toNat).toInt * (i : Int)), 0)
  | .vLdx | .vStx => (addOff a (vElem old f.b.toNat 32 i : Nat), 0)
  | _ => elemAddr (addOff a (immOf f)) w i

/-- Whether element i faults: outside the bench, or not aligned to its width (R231). -/
def vElemFault (op : SlotOp) (f : EFields) (old : SlotState) (i : Nat) : Bool :=
  let w := (slotType old).width
  let (a, _) := vAddr op f old i
  (vPlace a (elemBytes w)).isNone || !elemAligned a w

/-- The active elements below VL. -/
def activeElems (f : EFields) (old : SlotState) : List Nat := (rangeFrom 0 old.vl.toNat).filter (active old f)

/-- Element i as the bench holds it. -/
def loadElem (s : State) (c : Core) (op : SlotOp) (f : EFields) (old : SlotState) (i : Nat) : Nat :=
  let w := (slotType old).width
  let (a, o) := vAddr op f old i
  fld (benchNat s c a (elemBytes w)) o w

/-- The register write of a load: elements below k under the mask. -/
def loadGroup (s : State) (c : Core) (op : SlotOp) (f : EFields) (old x : SlotState) (k : Nat) : SlotState :=
  writeGroup x old f f.d.toNat (slotType old).width
    ((rangeFrom 0 k).map fun i => if active old f i then loadElem s c op f old i else 0)

/-- What a load does: the slot's new state, or the event that stops it. -/
def vLoad (s : State) (t : Slot) (op : SlotOp) (f : EFields) (old x : SlotState) : Except (BitVec 16) SlotState :=
  let c := slotCore t
  let w := (slotType old).width
  let es := activeElems f old
  let bad (l : List Nat) : Bool := l.any fun i => benchPoisoned s c (vAddr op f old i).1 (elemBytes w)
  match op with
  | .vMld =>
    let a := (sReg old f.a.toNat).toNat
    if old.vl = 0 then .ok x else match vPlace a 512 with
    | none => .error evAccessFault
    | some _ =>
      if benchPoisoned s c a 512 then .error evMemPoison
      else .ok (setMReg x (f.d.toNat % 8) (BitVec.ofNat 4096 (benchNat s c a 512)))
  | .vLdff =>
    match es.find? (vElemFault op f old) with
    | none => if bad es then .error evMemPoison else .ok (loadGroup s c op f old x old.vl.toNat)
    | some k =>
      if k = 0 then .error evAccessFault
      else if bad (es.filter fun i => decide (i < k)) then .error evMemPoison
      else .ok { loadGroup s c op f old x k with vl := BitVec.ofNat 13 k }
  | _ =>
    if es.any (vElemFault op f old) then .error evAccessFault
    else if bad es then .error evMemPoison
    else .ok (loadGroup s c op f old x old.vl.toNat)

/-- The write of one element of a store: whole bytes, or a nibble merged into its byte as the earlier writes left it. -/
def storeElem (op : SlotOp) (f : EFields) (old : SlotState) (c : Core) (s : State) (i : Nat) : State :=
  let w := (slotType old).width
  let (a, o) := vAddr op f old i
  let v := vElem old f.d.toNat w i
  let data := if w < 8 then leBytes 1 (putField (benchNat s c a 1) o w v) else leBytes (w / 8) v
  benchWrite s c a data

/-- Joins writes that follow one another without a gap, so that a store of a whole unit is one write of it (R292). Every write holds its
bytes as the store leaves them: one that lies in the next, as two elements of 4 bits in one byte do, goes with it. -/
def joinRuns : List MemWrite → List MemWrite
  | [] => []
  | w :: t => match joinRuns t with
    | [] => [w]
    | v :: r => if v.addr ≤ w.addr ∧ w.addr + w.data.length ≤ v.addr + v.data.length then v :: r
      else if w.addr + w.data.length = v.addr then { w with data := w.data ++ v.data } :: r else w :: v :: r

/-- The runs of bytes that a store leaves in the bench, as held writes: its elements in ascending order. -/
def storeWrites (s : State) (c : Core) (op : SlotOp) (f : EFields) (old : SlotState) : List MemWrite :=
  let w := (slotType old).width
  let es := activeElems f old
  let s' := es.foldl (storeElem op f old c) s
  joinRuns <| es.map fun i =>
    let a := (vAddr op f old i).1
    { space := .bench, addr := benchAddr c a, data := benchRead s' c a (elemBytes w), poison := false }

/-- What a store does: its writes, or the event that stops the slot. -/
def vStore (s : State) (t : Slot) (op : SlotOp) (f : EFields) (old : SlotState) : Except (BitVec 16) (List MemWrite) :=
  let c := slotCore t
  match op with
  | .vMst =>
    let a := (sReg old f.a.toNat).toNat
    if old.vl = 0 then .ok [] else match vPlace a 512 with
    | none => .error evAccessFault
    | some _ => .ok [{ space := .bench, addr := benchAddr c a, data := leBytes 512 (mReg old (f.d.toNat % 8)).toNat,
                       poison := false }]
  | _ =>
    if (activeElems f old).any (vElemFault op f old) then .error evAccessFault
    else .ok (storeWrites s c op f old)

/-! ### Issue -/

/-- Enters a V operation whose registers are written later. -/
def vIssue (t : Slot) (sigs : List Signal) (writes : List RegName) (x : SlotState) (s : State) : State :=
  let s := s.setSlot t (addPending x writes)
  let cmd := mkCmd s t .vector (if writes = [] then .immediate else .regs) sigs
  enqueue s (slotCore t) .vector { cmd with pend := writes }

/-- One V operation other than V.PASS. -/
def vEffect (op : SlotOp) (t : Slot) (old : SlotState) (f : EFields) (s : State) : State :=
  match sigOf old t f with
  | none => stopAt t evAccessFault 2 s
  | some sigs =>
    let x := s.slot t
    let view := engView s (slotCore t) .vector
    match op with
    | .vCfg => vIssue t sigs [] (vRegOp op f old x) s
    | .vLd | .vLds | .vLdx | .vLdff | .vMld =>
      match vLoad view t op f old x with
      | .error code => stopAt t code 2 s
      | .ok y => vIssue t sigs (vUse op f old).writes y s
    | .vSt | .vSts | .vStx | .vMst =>
      match vStore view t op f old with
      | .error code => stopAt t code 2 s
      | .ok ws =>
        let cmd := mkCmd s t .vector .immediate sigs
        enqueue s (slotCore t) .vector { cmd with writes := ws }
    | _ => vIssue t sigs (vUse op f old).writes (vRegOp op f old x) s

end Sys2Proof.Machine
end

