-- ==== Sys2Proof/Machine/Matrix.lean ====
section
/-!
DEFINITION. The arithmetic of the matrix engine: block sums (R87, R91), accumulators (R89, R90, R92), the jig order (R97),
inlay sums (R95), preload, raw words and store (R99, R103, R104).
-/

namespace Sys2Proof.Machine

open Sys2Proof

/-! ### Pairs and roles (R75, R76, R109) -/

/-- The class of an operand pair. -/
inductive PairClass where
  | q | e | h | v
  /-- Class Q with an INT8 activation and an INT2 or T2 weight (R109). -/
  | lean
  deriving DecidableEq, Repr

def isNarrowFloat : Fmt → Bool
  | .e2m1 | .e3m2 | .e2m3 | .e4m3 | .e5m2 => true
  | _ => false

/-- The class of a pair; none for a pair that R75 refuses. -/
def pairClass (a b : Fmt) : Option PairClass :=
  if (a = .fp32 ∨ a = .fp64) ∧ (b = .fp32 ∨ b = .fp64) then some .v
  else if (a = .bf16 ∨ a = .fp16) ∧ (b = .bf16 ∨ b = .fp16) then some .h
  else if isNarrowFloat a ∧ isNarrowFloat b then some (if a = .e2m1 ∧ b = .e2m1 then .q else .e)
  else if (a = .int8 ∨ a = .int4) ∧ (b = .int8 ∨ b = .int4) then some (if a = .int4 ∧ b = .int4 then .q else .e)
  else if a = .int8 ∧ (b = .int2 ∨ b = .t2) then some .lean
  else none

/-- Roles: 0 ACT, 1 WGT, 2 GRAD (R76). The pair's roles and zero points are permitted. -/
def rolesOk (c : PairClass) (ra rb fa fb : Nat) : Bool :=
  decide (ra < 3 ∧ rb < 3) && !(ra == 1 && rb == 1) && !fwZp fb
  && (c != .lean || (ra == 0 && rb == 1))
  && (!fwZp fa || ra == 0)

/-! ### Operands -/

/-- A block of 32 elements: decoded values before scaling, the effective scale (R78), and whether it is invalid (R47, R91)
or all zero with scale 0x00 (R93). -/
structure Block where
  vals : List FVal
  scale : Nat
  invalid : Bool
  zero : Bool
  deriving DecidableEq, Repr

/-- Where an operand lies: a byte reader, its rows, scales, zero points, alignment records and inlay values. -/
structure Opnd where
  rd : Nat → Byte
  fw : Nat
  base : Nat
  stride : Nat
  sBase : Nat := 0
  zBase : Nat := 0
  sStride : Nat := 0
  inlay : Nat := 0
  inlayStride : Nat := 0
  alignBase : Nat := 0
  /-- Elements at or beyond this channel enter as 0. -/
  kLim : Nat

def Opnd.fmt (o : Opnd) : Fmt := (fwFmt o.fw).getD .fp32

/-- A signed byte. -/
def signedByte (b : Byte) : Int := b.toInt

/-- Block b of row r (R44, R49, R50, R52). -/
def readBlock (o : Opnd) (r b : Nat) : Block :=
  let f := o.fmt
  let codes := (rangeFrom (32 * b) 32).map fun k =>
    if k < o.kLim then readElem o.rd (o.base + r * o.stride) f k else 0
  let scaled := fwScaled o.fw
  let u := if scaled then (o.rd (o.sBase + r * o.sStride + b)).toNat else 0x7F
  let z : Int := if scaled && fwZp o.fw then signedByte (o.rd (o.zBase + r * o.sStride + b)) else 0
  { vals := codes.map fun c => scaledElem f 0x7F z c
    scale := u
    invalid := u == 0xFF || (f = .t2 && codes.any (· == 2))
    zero := scaled && u == 0 && codes.all (· == 0) }

/-! ### Block sums (R87, R91) -/

/-- A finite value's signed mantissa on a grid. -/
def onGrid (v : FVal) (q : Int) : Int :=
  match v with
  | .fin n m e => finInt n m e q
  | _ => 0

/-- The least exponent of finite values. -/
def minExp : List FVal → Int → Int
  | [], q => q
  | .fin _ m e :: t, q => minExp t (if m ≠ 0 ∧ e < q then e else q)
  | _ :: t, q => minExp t q

/-- The exact sum of finite values; +0 where it is zero (the adder is an integer adder). -/
def exactSum (l : List FVal) : FVal :=
  let q := minExp l 4096
  let x := l.foldl (fun acc v => acc + (match v with
    | .fin n m e => if m = 0 then 0 else finInt n m e q
    | _ => 0)) 0
  if x = 0 then fZero else fvalOfInt x q

/-- The greatest leading-bit exponent of non-zero finite values. -/
def maxLead : List FVal → Option Int → Option Int
  | [], r => r
  | .fin _ m e :: t, r =>
    if m = 0 then maxLead t r
    else
      let l := leadExp m e
      maxLead t (some (match r with
        | some x => if x < l then l else x
        | none => l))
  | _ :: t, r => maxLead t r

/-- A value with the bits below 2^lo dropped toward zero. -/
def dropBelow (lo : Int) (v : FVal) : FVal :=
  match v with
  | .fin n m e => if e < lo then .fin n (m / 2 ^ (lo - e).toNat) lo else v
  | _ => v

/-- The sum of finite products: exact, or in the 96-bit window of a pair with BF16 (R87). The window is what drops bits, also of
a product whose leading bit lies within 80 binades of the largest (log entry 100, DESIGN CHOICE). -/
def windowSum (window : Bool) (ps : List FVal) : FVal :=
  if window then
    match maxLead ps none with
    | some l => exactSum (ps.map (dropBelow (l - 95)))
    | none => fZero
  else exactSum ps

/-- A product of two decoded values, for R91: NaN where a factor is NaN or infinity meets 0. -/
def prodVal (a b : FVal) : FVal :=
  if a.isNan || b.isNan then genNan else (exactMul a b).1

/-- The sum of products under R91's order. -/
def productSum (window : Bool) (ps : List FVal) : FVal :=
  if ps.any FVal.isNan then genNan
  else
    let pos := ps.any fun v => v == .inf false
    let neg := ps.any fun v => v == .inf true
    if pos && neg then genNan
    else if pos then .inf false
    else if neg then .inf true
    else windowSum window ps

/-- The block sum of two valid blocks with their shift (R87, R88). -/
def blockSum (window : Bool) (a b : Block) : FVal :=
  (productSum window (List.zipWith prodVal a.vals b.vals)).scale ((a.scale : Int) + b.scale - 254)

/-! ### Accumulators -/

/-- What fixes the accumulation of a handle or a product. -/
structure AccCfg where
  kind : AccKind
  accExp : Int
  vmode : Bool
  deriving DecidableEq, Repr

/-- The significand bits of a veneer accumulator (R126). -/
def venBits : AccKind → Nat
  | .ven64 => 110
  | _ => 46

def venToF : VenVal → FVal
  | .fin n s e => .fin n s e
  | .inf n => .inf n
  | .nan n p => .nan n false (quietBit + p % quietBit)

/-- A value rounded once into a veneer entry, ties to even (R126). -/
def fToVen (k : AccKind) (v : FVal) : VenVal :=
  match v with
  | .inf n => .inf n
  | .nan n _ m => .nan n (m % quietBit)
  | .fin n m e =>
    if m = 0 then .fin n 0 0
    else
      let q : Int := (Nat.log2 m : Int) + e - (venBits k - 1)
      let (x, _) := roundTo .rne n m e q
      .fin n x q

/-- The value of an entry; none for an invalid one (R90, R92). -/
def entryVal (cfg : AccCfg) : AccEntry → Option FVal
  | .f32 b => some (decodeElem .fp32 b.toNat)
  | .i32 v _ => some (fvalOfInt v cfg.accExp)
  | .ven v => some (venToF v)
  | .invalid => none

/-- The empty entry +0 of an accumulator format. -/
def zeroEntry (k : AccKind) : AccEntry :=
  match k with
  | .fp32 => .f32 0
  | .int32 => .i32 0 false
  | _ => .ven (.fin false 0 0)

def i32Lo : Int := -2147483648
def i32Hi : Int := 2147483647

/-- The saturating add of R90; a saturated entry keeps its bound. -/
def i32Add (v : Int) (sat : Bool) (x : Int) : AccEntry :=
  if sat then .i32 v true
  else
    let y := v + x
    if y < i32Lo then .i32 i32Lo true else if i32Hi < y then .i32 i32Hi true else .i32 y false

/-- An integer entry that has saturated. -/
def AccEntry.isSat : AccEntry → Bool
  | .i32 _ s => s
  | _ => false

/-- The entry as its raw word gives it back: the saturation does not travel with it (R99). -/
def AccEntry.unSat : AccEntry → AccEntry
  | .i32 v _ => .i32 v false
  | e => e

/-- Adds a value to an entry with the accumulator's one rounding (R89, R90, R92, R126). -/
def accAdd (cfg : AccCfg) (a : AccEntry) (x : FVal) : AccEntry :=
  match a with
  | .invalid => .invalid
  | .f32 b => .f32 (BitVec.ofNat 32 (packVal .fp32 (fAdd .fp32 .rne (decodeElem .fp32 b.toNat) x).1))
  | .ven v => .ven (fToVen cfg.kind (exactAdd .rne (venToF v) x).1)
  | .i32 v s =>
    match x.scale (-cfg.accExp) with
    | .fin n m e =>
      let (k, _) := roundTo .rne n m e 0
      i32Add v s (if n then -(k : Int) else k)
    | _ => .invalid

/-- The combination of two partials, left operand first (R97). The left operand's chain goes on, with its saturation; the right
one enters by its value, as its raw word does (R99). -/
def accCombine (cfg : AccCfg) (l r : AccEntry) : AccEntry :=
  match l, r with
  | .invalid, _ => .invalid
  | _, .invalid => .invalid
  | .i32 v s, .i32 w _ => i32Add v s w
  | _, _ =>
    match entryVal cfg r with
    | some x => accAdd cfg l x
    | none => .invalid

/-- The combination of two partials, with whether any saturation has happened on the way to it (R90, R108). -/
def combineSat (cfg : AccCfg) (l r : AccEntry × Bool) : AccEntry × Bool :=
  let e := accCombine cfg l.1 r.1
  (e, l.2 || r.2 || e.isSat)

/-- The result as it is stored: an element any of whose adds saturated counts once in the overflow tally (R90). -/
def satMark (e : AccEntry × Bool) : AccEntry :=
  match e.1 with
  | .i32 v _ => .i32 v e.2
  | x => x

/-! ### Raw words (R99, R127) -/

/-- Bytes of a raw word. -/
def rawBytes : AccKind → Nat
  | .ven32 => 8
  | .ven64 => 16
  | _ => 4

/-- Bytes of an accumulator entry in the store (R83). -/
def accBytes : AccKind → Nat := rawBytes

/-- Bits of SIG and of a NaN payload of a raw veneer word (R127). -/
def rawSigBits : AccKind → Nat
  | .ven64 => 112
  | _ => 48
def rawPayBits : AccKind → Nat
  | .ven64 => 51
  | _ => 22

/-- An entry with its leading magnitude bit at the format's place; a wider significand that was read is rounded (R126). -/
def venNorm (k : AccKind) (v : VenVal) : VenVal := fToVen k (venToF (fToVen k (venToF v)))

/-- The raw word of a veneer entry: EXP in bits [15:0], SIG above (R127). An exponent outside 16 bits is stored modulo 2^16
(log entry 98, DESIGN CHOICE). -/
def venRaw (k : AccKind) (v : VenVal) : Nat :=
  let sb := rawSigBits k
  match venNorm k v with
  | .inf n => 0x7FFF + 2 ^ 16 * (bnat n * 2 ^ (sb - 1))
  | .nan n p => 0x7FFF + 2 ^ 16 * (bnat n * 2 ^ (sb - 1) + 1 + 4 * (p / 2 ^ (51 - rawPayBits k)))
  | .fin n s e =>
    if s = 0 then (if n then 0x8000 else 0)
    else
      -- the leading magnitude bit stands at bit 109 or 45
      let q : Int := (Nat.log2 s : Int) + e - (venBits k - 1)
      let (x, _) := roundTo .rtz n s e q
      ofSigned 16 q + 2 ^ 16 * ofSigned sb (if n then -(x : Int) else x)

/-- The entry of a raw veneer word; any finite SIG and EXP is read as it stands, without rounding (R127, R128). A kind of 0b11
is reserved and reads as invalid; EXP = 0x8000 with SIG nonzero is read as the exponent −32,768 (log entry 98, DESIGN CHOICE). -/
def venOfRaw (k : AccKind) (w : Nat) : AccEntry :=
  let sb := rawSigBits k
  let ex := fld w 0 16
  let sig := fld w 16 sb
  if ex = 0x7FFF then
    let n := bit sig (sb - 1)
    match fld sig 0 2 with
    | 0 => .ven (.inf n)
    | 1 => .ven (.nan n (fld sig 2 (rawPayBits k) * 2 ^ (51 - rawPayBits k)))
    | _ => .invalid
  else if sig = 0 then .ven (.fin (ex == 0x8000) 0 0)
  else
    let v := toSigned sb sig
    .ven (.fin (decide (v < 0)) v.natAbs (toSigned 16 ex))

/-- The raw word of an entry (R99). -/
def rawOfEntry (cfg : AccCfg) : AccEntry → Nat
  | .f32 b => b.toNat
  | .i32 v _ => ofSigned 32 v
  | .ven v => venRaw cfg.kind v
  | .invalid =>
    match cfg.kind with
    | .fp32 => packNan .fp32 false quietBit
    | .int32 => (Config.rawInvalid32 0).toNat
    | _ => 0x7FFF + 2 ^ 16 * 2

/-- The entry of a raw word. -/
def entryOfRaw (k : AccKind) (w : Nat) : AccEntry :=
  match k with
  | .fp32 => .f32 (BitVec.ofNat 32 w)
  | .int32 => .i32 (toSigned 32 w) false
  | _ => venOfRaw k w

/-! ### Preload (R103, R128) -/

/-- A value loads without rounding into an accumulator format from these source formats. -/
def preloadFmtOk (k : AccKind) (fw : Nat) : Bool :=
  !fwScaled fw && !fwZp fw &&
  match k, fwFmt fw with
  | .fp32, some f => f = .fp32 || f = .bf16 || f = .fp16 || f = .e4m3 || f = .e5m2
  | .ven32, some f => f = .fp32 || f = .bf16 || f = .fp16
  | .ven64, some f => f.isWide
  | _, _ => false

/-- The entry that an exact value preloads. -/
def entryOfVal (k : AccKind) (v : FVal) : AccEntry :=
  match k with
  | .fp32 => .f32 (BitVec.ofNat 32 (packVal .fp32 v))
  | .int32 => .i32 0 false
  | _ => .ven (fToVen k v)

/-! ### Alignment records and veneers (R118 to R125, R136) -/

/-- A measured block, or a part of one. -/
structure AlignPart where
  exp : Int
  span : Nat
  /-- Veneers needed; 15 where more than the frame. -/
  depth : Nat
  deriving DecidableEq, Repr

/-- An alignment record (R118). -/
structure AlignRec where
  main : AlignPart
  zero : Bool
  nonfin : Bool
  hi : AlignPart
  lo : AlignPart
  deriving DecidableEq, Repr

/-- Digits of the frame: 9 in FP64 mode, 4 in FP32 mode. -/
def frameDigits (k : AccKind) : Nat := if k = .ven32 then 4 else 9

/-- The lowest set bit position of m · 2^e. -/
def lowBit : Nat → Nat → Int → Int
  | 0, _, e => e
  | n + 1, m, e => if m % 2 = 1 then e else lowBit n (m / 2) (e + 1)

/-- Non-zero finite elements. -/
def finiteNz : FVal → Bool
  | .fin _ m _ => decide (m ≠ 0)
  | _ => false

/-- Leading-bit exponent of a finite element. -/
def valLead : FVal → Int
  | .fin _ m e => leadExp m e
  | _ => 0

/-- DEPTH of a list of non-zero finite elements with block exponent E (R120). -/
def depthOf (k : AccKind) (ex : Int) (l : List FVal) : Nat :=
  let top : Int := 8 * (frameDigits k : Int) - 8
  let need := l.foldl (fun acc v => match v with
    | .fin _ m e =>
      let p := lowBit (Nat.log2 m + 1) m e + top + 5 - ex
      let d : Nat := if p < top then 1 + ((top - p + 7) / 8).toNat else 1
      max acc d
    | _ => acc) 0
  if need > frameDigits k then 15 else need

/-- Measures a part: its exponent, span and depth; all 0 where it has no non-zero finite element. -/
def measure (k : AccKind) (l : List FVal) : AlignPart :=
  let nz := l.filter finiteNz
  match nz with
  | [] => ⟨0, 0, 0⟩
  | v :: t =>
    let hi := t.foldl (fun a x => if a < valLead x then valLead x else a) (valLead v)
    let lo := t.foldl (fun a x => if valLead x < a then valLead x else a) (valLead v)
    ⟨hi, min 255 (hi - lo).toNat, depthOf k hi nz⟩

/-- The least leading-bit exponent of the hi part, below E (R120). -/
def hiReach (k : AccKind) : Int := if k = .ven32 then 6 else 9

/-- The elements of the hi or lo part, zeros at the other part's positions (R120). -/
def partVals (k : AccKind) (ex : Int) (hi : Bool) (l : List FVal) : List FVal :=
  l.map fun v => if finiteNz v && (decide (ex - hiReach k ≤ valLead v) == hi) then v else fZero

/-- The record of a block (R118, R120). -/
def alignOf (k : AccKind) (l : List FVal) (open_ : Nat) : AlignRec :=
  let main := measure k l
  let zero := l.all FVal.isZero
  let nonfin := l.any fun v => v.isNan || v.isInf
  let main := if !zero && !l.any finiteNz then { main with exp := toSigned 12 open_ } else main
  let hi := measure k (partVals k main.exp true l)
  let lo := measure k (partVals k main.exp false l)
  { main := main, zero := zero, nonfin := nonfin, hi := hi, lo := lo }

/-- The 64 bits of a record (R118). -/
def alignWord (r : AlignRec) : Nat :=
  ofSigned 12 r.main.exp + 2 ^ 12 * r.main.span + 2 ^ 20 * r.main.depth + 2 ^ 24 * bnat r.zero + 2 ^ 25 * bnat r.nonfin
  + 2 ^ 32 * r.hi.depth + 2 ^ 36 * r.hi.span + 2 ^ 40 * ofSigned 12 r.lo.exp + 2 ^ 52 * r.lo.span + 2 ^ 60 * r.lo.depth

/-- Reads a record; none where its reserved bits are not 0 or a DEPTH is beyond the frame (R136). -/
def alignOfWord (k : AccKind) (w : Nat) : Option AlignRec :=
  let ok (d : Nat) : Bool := d ≤ frameDigits k || d = 15
  let main : AlignPart := ⟨toSigned 12 (fld w 0 12), fld w 12 8, fld w 20 4⟩
  let hi : AlignPart := ⟨main.exp, fld w 36 4, fld w 32 4⟩
  let lo : AlignPart := ⟨toSigned 12 (fld w 40 12), fld w 52 8, fld w 60 4⟩
  if fld w 26 6 = 0 ∧ ok main.depth ∧ ok hi.depth ∧ ok lo.depth then
    some { main := main, zero := bit w 24, nonfin := bit w 25, hi := hi, lo := lo }
  else none

/-- An element fits its record: not above EXP, and within DEPTH digits (R136). -/
def fitsRec (k : AccKind) (r : AlignRec) (v : FVal) : Bool :=
  match v with
  | .fin _ m e =>
    m = 0 || (!r.zero && decide (leadExp m e ≤ r.main.exp)
      && (r.main.depth = 15 || decide (depthOf k r.main.exp [v] ≤ r.main.depth)))
  | _ => r.nonfin

/-- An element of a split operand fits its own part: not above the part's EXP, and within its DEPTH. An overwritten element that
falls where the record holds no part, or a smaller one, is as one above EXP (R118, R136; log entry 150, DEDUCED). -/
def fitsPart (k : AccKind) (r : AlignPart) (v : FVal) : Bool :=
  match v with
  | .fin _ m e => m = 0 || (decide (0 < r.depth ∧ leadExp m e ≤ r.exp)
      && (r.depth = 15 || decide (depthOf k r.exp [v] ≤ r.depth)))
  | _ => true

/-- Every element of an operand that is split fits the part in which it falls. -/
def fitsSplit (k : AccKind) (r : AlignRec) (l : List FVal) : Bool :=
  (partVals k r.main.exp true l).all (fitsPart k r.hi) && (partVals k r.main.exp false l).all (fitsPart k r.lo)

/-- Signed digits of X, lowest first; the top digit takes the rest (R119). -/
def digitsLow : Nat → Int → List Int
  | 0, x => [x]
  | n + 1, x =>
    let b := x % 256
    let d : Int := if b ≥ 128 then b - 256 else b
    d :: digitsLow n ((x - d) / 256)

/-- The n veneers of an element in a block with exponent E, digit 0 first (R119, R133). -/
def veneersOf (n : Nat) (ex : Int) (v : FVal) : List Int :=
  match v with
  | .fin neg m e =>
    let (k, _) := roundTo .rne neg m (e + (8 * (n : Int) - 8 + 5 - ex)) 0
    (digitsLow (n - 1) (if neg then -(k : Int) else k)).reverse
  | _ => List.replicate n 0

/-- The veneer count of a pair in adaptive FP64 mode; 0 where it must be split (R121). -/
def veneerCount (a b : AlignPart) : Nat :=
  let s := a.span + b.span
  let ok (v smax : Nat) : Bool :=
    decide (a.depth ≤ v ∧ b.depth ≤ v) && (decide (a.depth + b.depth ≤ v + 1) || (decide (7 ≤ v) && decide (s ≤ smax)))
  if ok 6 0 then 6 else if ok 7 1 then 7 else if ok 8 9 then 8 else if ok 9 17 then 9 else 0

/-- The count in the product's mode: 0 where the pair must be split (R121, R122). -/
def passCount (k : AccKind) (a b : AlignPart) : Nat :=
  if k = .ven32 then
    (if a.depth ≤ 4 ∧ b.depth ≤ 4 ∧ (a.depth + b.depth ≤ 5 ∨ a.span + b.span ≤ 7) then 4 else 0)
  else veneerCount a b

/-- The terms of a pass with count v: Σ over i + j < v of digit i · digit j · 2^(8(v−1−i−j)) (R117, R125). -/
def passTerms (v : Nat) (a b : List Int) : Int :=
  (rangeFrom 0 v).foldl (fun acc i =>
    (rangeFrom 0 (v - i)).foldl (fun acc j =>
      acc + a.getD i 0 * b.getD j 0 * ((2 ^ (8 * (v - 1 - i - j)) : Nat) : Int)) acc) 0

/-- The block value of a pass (R125): frame of n digits, count v. -/
def passValue (n v : Nat) (ea eb : Int) (a b : List FVal) : FVal :=
  let x := (List.zipWith (fun x y => passTerms v (veneersOf n ea x) (veneersOf n eb y)) a b).foldl (· + ·) 0
  if x = 0 then fZero else fvalOfInt x (ea + eb - 10 - 8 * ((v : Int) - 1))

/-- Counts a pass at a veneer count (R134). -/
def countPass (v : Nat) (t : Tallies) : Tallies :=
  match v with
  | 6 => { t with hist6 := sat32 (t.hist6 + 1) }
  | 7 => { t with hist7 := sat32 (t.hist7 + 1) }
  | 8 => { t with hist8 := sat32 (t.hist8 + 1) }
  | 9 => { t with hist9 := sat32 (t.hist9 + 1) }
  | _ => t

/-- One pass of a split pair: its count chosen again, or the whole frame beyond the rule (R123, R124). A part without
non-zero elements contributes nothing. -/
def splitPass (k : AccKind) (ra rb : AlignPart) (a b : List FVal) (cfg : AccCfg) (acc : AccEntry) (t : Tallies) :
    AccEntry × Tallies :=
  if ra.depth = 0 ∨ rb.depth = 0 then (acc, t)
  else
    let n := frameDigits k
    let v := passCount k ra rb
    if v = 0 then
      (accAdd cfg acc (passValue n n ra.exp rb.exp a b), countPass n { t with overC := sat32 (t.overC + 1) })
    else (accAdd cfg acc (passValue n v ra.exp rb.exp a b), countPass v t)

/-- One block pair of a class V product (R121 to R126, R133, R136): the entry, the tallies, whether a record was stale. The
record check of R136 applies in fast mode too (log entry 102, DESIGN CHOICE). -/
def veneerStep (cfg : AccCfg) (wa wb : Nat) (a b : List FVal) (acc : AccEntry) (t : Tallies) : AccEntry × Tallies × Bool :=
  let k := cfg.kind
  match alignOfWord k wa, alignOfWord k wb with
  | some ra, some rb =>
    if ¬ a.all (fitsRec k ra) ∨ ¬ b.all (fitsRec k rb) then (.invalid, t, true)
    else if ra.zero || rb.zero then (acc, t, false)
    else if ra.nonfin || rb.nonfin then
      -- R91 forms the block sum; with elements that have become finite it is their exact sum (log entry 99, DESIGN CHOICE)
      (accAdd cfg acc (productSum false (List.zipWith prodVal a b)), t, false)
    else if cfg.vmode then
      (accAdd cfg acc (passValue 6 6 ra.main.exp rb.main.exp a b), countPass 6 t, false)
    else
      let v := passCount k ra.main rb.main
      if v ≠ 0 then (accAdd cfg acc (passValue (frameDigits k) v ra.main.exp rb.main.exp a b), countPass v t, false)
      else if ¬ (if rb.main.span ≤ ra.main.span then fitsSplit k ra a else fitsSplit k rb b) then (.invalid, t, true)
      else
        let t := { t with splitC := sat32 (t.splitC + 1) }
        if rb.main.span ≤ ra.main.span then
          let (x, t) := splitPass k ra.hi rb.main (partVals k ra.main.exp true a) b cfg acc t
          let (x, t) := splitPass k ra.lo rb.main (partVals k ra.main.exp false a) b cfg x t
          (x, t, false)
        else
          let (x, t) := splitPass k ra.main rb.hi a (partVals k rb.main.exp true b) cfg acc t
          let (x, t) := splitPass k ra.main rb.lo a (partVals k rb.main.exp false b) cfg x t
          (x, t, false)
  | _, _ => (.invalid, t, true)

/-! ### One step of the jig order -/

/-- The inlay of a product: its channel list. -/
structure Inlay where
  channels : List Nat
  deriving DecidableEq, Repr

/-- Places in the list of the channels that lie in block b. -/
def inlayAt (l : List Nat) (b : Nat) : List Nat :=
  (rangeFrom 0 l.length).filter fun i => nth l i / 32 == b

/-- A BF16 inlay value: row r, place i of the list (R150). -/
def inlayVal (o : Opnd) (r i : Nat) : FVal :=
  decodeElem .bf16 (readElem o.rd (o.inlay + r * o.inlayStride) .bf16 i)

/-- A sum changes where an INT32 accumulator takes it as an integer (R90). -/
def shiftLoses (cfg : AccCfg) (x : FVal) : Bool :=
  cfg.kind = .int32 && match x.scale (-cfg.accExp) with
    | .fin n m e =>
      let (_, inexact) := roundTo .rne n m e 0
      inexact
    | _ => false

/-- The accumulation of block b into entry (i, j): the block sum, then its inlay sum (R89 to R97). SHIFT_LOSS counts each block that is
shifted right, and each inlay sum that is not an integer, for the accumulation is exact only where the tallies read 0 (R90, R108; log
entry 101, DEDUCED). -/
def accStep (cfg : AccCfg) (a b : Opnd) (inl : List Nat) (i j blk : Nat) (st : AccEntry × Tallies × Bool) :
    AccEntry × Tallies × Bool :=
  let (acc, t, stale) := st
  let x := readBlock a i blk
  let y := readBlock b j blk
  match cfg.kind with
  | .ven32 | .ven64 =>
    let wa := ofLE ((rangeFrom (a.alignBase + 8 * (i * a.sStride + blk)) 8).map a.rd)
    let wb := ofLE ((rangeFrom (b.alignBase + 8 * (j * b.sStride + blk)) 8).map b.rd)
    let (acc', t', bad) := veneerStep cfg wa wb x.vals y.vals acc t
    (if acc = .invalid then .invalid else acc', t', stale || bad)
  | _ =>
    let window := a.fmt = .bf16 || b.fmt = .bf16
    let (acc, t) :=
      if x.zero || y.zero then (acc, t)
      else if x.invalid || y.invalid then (AccEntry.invalid, t)
      else
        let lost := cfg.kind = .int32 && decide ((x.scale : Int) + y.scale - 254 - cfg.accExp < 0)
        (accAdd cfg acc (blockSum window x y), if lost then { t with shiftLoss := sat32 (t.shiftLoss + 1) } else t)
    match inlayAt inl blk with
    | [] => (acc, t, stale)
    | l =>
      let x := productSum true (l.map fun p => prodVal (inlayVal a i p) (inlayVal b j p))
      (accAdd cfg acc x, if shiftLoses cfg x then { t with shiftLoss := sat32 (t.shiftLoss + 1) } else t, stale)

/-- Blocks first to first + n − 1, ascending (R97). -/
def accRange (cfg : AccCfg) (a b : Opnd) (inl : List Nat) (i j first n : Nat) (st : AccEntry × Tallies × Bool) :
    AccEntry × Tallies × Bool :=
  (rangeFrom first n).foldl (fun st blk => accStep cfg a b inl i j blk st) st

/-- The first block and the number of blocks of split s (R97). -/
def splitRange (nb sc s : Nat) : Nat × Nat :=
  (s * (nb / sc) + min s (nb % sc), nb / sc + (if s < nb % sc then 1 else 0))

/-- The value of output element (i, j): sc splits over nb blocks, combined in the tree of R97. -/
def jigElement (cfg : AccCfg) (a b : Opnd) (inl : List Nat) (nb sc i j : Nat) (pre : AccEntry) (t : Tallies) :
    AccEntry × Tallies × Bool :=
  let parts := (rangeFrom 0 sc).foldl (fun (acc : List (AccEntry × Bool) × Tallies × Bool) s =>
    let (first, n) := splitRange nb sc s
    let (e, t, st) := accRange cfg a b inl i j first n (if s = 0 then pre else zeroEntry cfg.kind, acc.2.1, acc.2.2)
    (acc.1 ++ [(if s = 0 then e else e.unSat, e.isSat)], t, st)) ([], t, false)
  (satMark (combine (combineSat cfg) (.invalid, false) parts.1), parts.2.1, parts.2.2)

/-! ### Store (R92, R104, R129) -/

/-- The formats that a store accepts for an accumulator (R104, R129). -/
def storeFmtOk (k : AccKind) (fw : Nat) : Bool :=
  !fwScaled fw &&
  match k, fwFmt fw with
  | .ven64, some f => f.isWide
  | .ven32, some f => f = .fp32 || f = .bf16 || f = .fp16
  | _, some f => f = .fp32 || f = .bf16 || f = .fp16 || f = .e4m3 || f = .e5m2 || f = .int8
  | _, none => false

/-- Adds the counters of R60 for one written element. -/
def countConv (t : Tallies) (c : Conv) : Tallies :=
  { t with
    ovf := sat32 (t.ovf + bnat c.ovf)
    inv := t.inv
    nanInt := sat32 (t.nanInt + bnat c.nanInt)
    nanMade := t.nanMade || c.nanMade }

/-- One entry converted for the output, its element index x for stochastic rounding (R104). -/
def storeEntry (cfg : AccCfg) (fw : Nat) (key : SrKey) (x : Nat) (e : AccEntry) : Conv :=
  let f := (fwFmt fw).getD .fp32
  let d := fwRounding fw (srValue key x)
  let v := (entryVal cfg e).getD genNan
  let c := convertElem f (fwClamp fw) d false 0x7F 0 v
  match e with
  | .i32 _ true => { c with ovf := true }
  | _ => c

end Sys2Proof.Machine
end

