-- ==== Sys2Proof/Machine/Mover.lean ====
section
/-!
DEFINITION. The mover and synchronization operations of the X slot (R247 to R251), and the moves that host descriptors share
with them (R248, R378).
-/

namespace Sys2Proof.Machine

open Sys2Proof

/-! ### The move descriptor (R248) -/

/-- A move: its rows, its formats, its stochastic-rounding key, and the rank it goes to. -/
structure MoveSpec where
  src : Nat
  dst : Nat
  rows : Nat
  rowb : Nat
  sstr : Nat
  dstr : Nat
  fmtS : Nat
  fmtD : Nat
  tensor : Nat
  step : Nat
  rank : Option Nat
  ibase : Nat
  deriving DecidableEq, Repr

/-- The fields of a move descriptor's words. -/
def moveOfWords (w : List Nat) : MoveSpec :=
  { src := nth w 0, dst := nth w 1, rows := fld (nth w 2) 0 32, rowb := fld (nth w 2) 32 32
    sstr := fld (nth w 3) 0 32, dstr := fld (nth w 3) 32 32, fmtS := fld (nth w 4) 0 16, fmtD := fld (nth w 4) 16 16
    tensor := fld (nth w 4) 32 32, step := fld (nth w 5) 0 32
    rank := if fld (nth w 5) 32 32 = 0xFFFFFFFF then none else some (fld (nth w 5) 32 32), ibase := fld (nth w 6) 0 48 }

/-- Source elements of a row. -/
def MoveSpec.elems (m : MoveSpec) : Nat := 8 * m.rowb / ((fwFmt m.fmtS).getD .int8).width

/-- The move changes no format. -/
def MoveSpec.plain (m : MoveSpec) : Bool := m.fmtS == m.fmtD

/-- Destination bytes of a row. -/
def MoveSpec.outBytes (m : MoveSpec) : Nat :=
  if m.plain then m.rowb else ceilDiv (m.elems * ((fwFmt m.fmtD).getD .int8).width) 8

/-- A descriptor that is well formed: rows and bytes given, reserved fields 0, formats unscaled, indices below 2^48 (R55, R73,
R248). -/
def moveOk (w : List Nat) : Bool :=
  let m := moveOfWords w
  m.rows != 0 && m.rowb != 0 && nth w 7 == 0 && fld (nth w 6) 48 16 == 0
    && !fwScaled m.fmtS && !fwScaled m.fmtD && !fwBad m.fmtS false && !fwBad m.fmtD false
    && decide (m.ibase + m.rows * m.elems ≤ 2 ^ 48)

/-- A plain copy of n bytes (X.MOVE). -/
def plainMove (src dst n : Nat) : MoveSpec :=
  { src := src, dst := dst, rows := 1, rowb := n, sstr := 0, dstr := 0, fmtS := 9, fmtD := 9, tensor := 0, step := 0
    rank := none, ibase := 0 }

/-! ### One row -/

/-- A byte with its poison. -/
abbrev MarkedByte := Byte × Bool

/-- The bytes at the parts of an access, each with the poison of its unit. -/
def readMarked (s : State) (ps : List (Place × Nat)) : List MarkedByte :=
  ps.flatMap fun p =>
    let b := s.bank p.1.space
    let held := p.1.space == .gddr && (s.memCtl (paPanel p.1.addr)).inReset
    (rangeFrom p.1.addr p.2).map fun a => (readByte b a, held || b.poison.contains (a / 64))

/-- The bytes of row r in the destination format, each marked where it derives from a marked byte. -/
def convertRow (m : MoveSpec) (seed r : Nat) (l : List MarkedByte) (t : Tallies) : List MarkedByte × Tallies :=
  if m.plain then (l, t)
  else
    let fs := (fwFmt m.fmtS).getD .int8
    let fd := (fwFmt m.fmtD).getD .int8
    let rd := fun a => (l.getD a (0, false)).1
    let bad := fun i => let (o, _, n) := elemSpan fs i; ((l.drop o).take n).any fun b => b.2
    let cs := (rangeFrom 0 m.elems).map fun i =>
      convertElem fd (fwClamp m.fmtD) (fwRounding m.fmtD (srValue ⟨seed, m.step, m.tensor⟩ (m.ibase + r * m.elems + i)))
        false 0x7F 0 (decodeElem fs (readElem rd 0 fs i))
    let bytes := packCodes fd (cs.map Conv.bits)
    let marks := (rangeFrom 0 bytes.length).map fun j =>
      (rangeFrom (8 * j / fd.width) ((8 * j + 7) / fd.width - 8 * j / fd.width + 1)).any fun i => i < m.elems && bad i
    (List.zip bytes marks, cs.foldl countConv t)

/-- The writes of marked bytes from a place on, one for each 64-byte unit that they touch. -/
def unitWrites : Nat → Place → List MarkedByte → List MemWrite
  | 0, _, _ => []
  | n + 1, p, l =>
    if l = [] then []
    else
      let k := 64 - p.addr % 64
      { space := p.space, addr := p.addr, data := (l.take k).map Prod.fst, poison := (l.take k).any Prod.snd }
        :: unitWrites n { p with addr := p.addr + k } (l.drop k)

/-- The writes of marked bytes to the parts of an access. -/
def markedWrites : List (Place × Nat) → List MarkedByte → List MemWrite
  | [], _ => []
  | (p, n) :: t, l => unitWrites n p (l.take n) ++ markedWrites t (l.drop n)

/-! ### A local move -/

/-- How an access of n bytes at an address is placed. -/
abbrev Reach := Access → Nat → Nat → Option (List (Place × Nat))

/-- The parts of every row, source or destination; none where any is refused. -/
def rowParts (reach : Reach) (k : Access) (base stride n rows : Nat) : Option (List (List (Place × Nat))) :=
  (rangeFrom 0 rows).foldr (fun r acc =>
    if base + r * stride < 2 ^ 64 then
      match reach k (base + r * stride) n, acc with
      | some p, some t => some (p :: t)
      | _, _ => none
    else none) (some [])

/-- Whether a byte lies in any of the parts. -/
def inParts (ps : List (Place × Nat)) (k : Space) (a : Nat) : Bool :=
  ps.any fun p => p.1.space == k && decide (p.1.addr ≤ a) && decide (a < p.1.addr + p.2)

/-- The data of a write with the bytes that are source bytes as well (R248) replaced by free values, from free index i on. -/
def freeOverlap (src : List (Place × Nat)) (k : Space) : Nat → Nat → List Byte → Nat × List Byte
  | i, _, [] => (i, [])
  | i, a, b :: t =>
    if inParts src k a then
      let (j, r) := freeOverlap src k (i + 1) (a + 1) t
      (j, freeByte i :: r)
    else
      let (j, r) := freeOverlap src k i (a + 1) t
      (j, b :: r)

/-- The writes of a move after the overlap, with the next free index. -/
def freeWrites (src : List (Place × Nat)) (i : Nat) : List MemWrite → Nat × List MemWrite
  | [] => (i, [])
  | w :: t =>
    let (j, d) := freeOverlap src w.space i w.addr w.data
    let (k, r) := freeWrites src j t
    (k, { w with data := d } :: r)

/-- The poisoned units that writes leave, each once. -/
def poisonedUnits (ws : List MemWrite) : Nat :=
  ((ws.filter fun w => w.poison).map fun w => (⟨w.space, w.addr / 64⟩ : Place)).eraseDups.length

/-- The rows of a move in the destination format, with the tallies of their conversions. -/
def moveRows (s : State) (m : MoveSpec) (seed : Nat) : Nat → List (List (Place × Nat)) → Tallies →
    List (List MarkedByte) × Tallies
  | _, [], t => ([], t)
  | r, p :: ps, t =>
    let (l, t) := convertRow m seed r (readMarked s p) t
    let (ls, t) := moveRows s m seed (r + 1) ps t
    (l :: ls, t)

/-- What a move reads: its rows, the parts they came from, its tallies; none where a read is refused. -/
def readMove (s : State) (reach : Reach) (seed : Nat) (m : MoveSpec) :
    Option (List (List MarkedByte) × List (Place × Nat) × Tallies) :=
  (rowParts reach .read m.src m.sstr m.rowb m.rows).map fun ps =>
    let (l, t) := moveRows s m seed 0 ps {}
    (l, ps.flatten, t)

/-- A local move: its writes, its tallies, how many free values it draws from index i on; none where an access is refused. -/
def localMove (s : State) (reach : Reach) (seed : Nat) (m : MoveSpec) : Option (List MemWrite × Tallies × Nat) :=
  match readMove s reach seed m, rowParts reach .write m.dst m.dstr m.outBytes m.rows with
  | some (l, src, t), some ds =>
    let past := src.any fun p => voidAt s p.1.space p.1.addr p.2
    let ws := (List.zip ds l).flatMap fun x => (markedWrites x.1 x.2).map fun w => { w with void := past }
    let (j, ws) := freeWrites src s.free ws
    some (ws, { t with poisonUnits := poisonedUnits ws }, j - s.free)
  | _, _ => none

/-- The reads of a move that a memory-controller reset answered (R303). -/
def noteReads (ps : List (Place × Nat)) (s : State) : State :=
  ps.foldl (fun s p => if p.1.space = .gddr then noteResetRead s p.1.addr else s) s

/-- The virtual ranges of one side of a move, for UNMAP (R297). -/
def moveVas (base stride n rows : Nat) : List (Nat × Nat) :=
  if bit base 63 then [] else (rangeFrom 0 rows).map fun r => (base + r * stride, n)

/-! ### Moves to a rank (R248, R344) -/

/-- The units of a message that carry poison. -/
def badUnits (l : List MarkedByte) : List Nat :=
  (rangeFrom 0 (ceilDiv l.length 64)).filter fun u => ((l.drop (64 * u)).take 64).any Prod.snd

/-- Bytes of the largest message that a move is cut into: whole units below 2³² − 1 (R344; log entry 117, DESIGN CHOICE). -/
def msgMax : Nat := 2 ^ 32 - 64

/-- The messages of a row that goes to an address: one, or several where it is longer than 2³² − 1 bytes (R344). -/
def rowMessages : Nat → Nat → List MarkedByte → List (Nat × List MarkedByte)
  | 0, a, l => [(a, l)]
  | n + 1, a, l =>
    if l.length < 2 ^ 32 then [(a, l)] else (a, l.take msgMax) :: rowMessages n (a + msgMax) (l.drop msgMax)

/-- Sends messages, each to its address; answers their numbers. -/
def sendEach (j : Job) (owner : SendOwner) (rank : Nat) (r : RouteTo) : List (Nat × List MarkedByte) → State → State × List W32
  | [], s => (s, [])
  | (a, l) :: t, s =>
    let (s, m) := sendMessage s
      { owner := owner, job := j, kind := kindData, dst := rank, dstAddr := a, data := l.map Prod.fst, bad := badUnits l } r
    let (s, ms) := sendEach j owner rank r t s
    (s, m :: ms)

/-- Sends each row from row i on as messages of its own; answers the numbers of the messages. -/
def sendRows (j : Job) (owner : SendOwner) (rank dst dstr : Nat) (r : RouteTo) (i : Nat) (rows : List (List MarkedByte)) (s : State) :
    State × List W32 :=
  sendEach j owner rank r
    ((List.zip (rangeFrom i rows.length) rows).flatMap fun p => rowMessages (p.2.length / msgMax) (dst + p.1 * dstr) p.2) s

/-! ### The job and the descriptor of a slot's part -/

/-- The job of a tagged descriptor (R377). -/
def taggedJob (x : DescState) : Option Job :=
  let w0 := (x.words.getD 0 0).toNat
  if fld w0 16 16 = 0x0FFF then none
  else some ⟨fld (x.words.getD 1 0).toNat 32 3, Nat.mod_lt _ (by decide)⟩

/-- The job of the part that a slot runs: its descriptor's, or the lowest that its context has set up. -/
def slotJob (s : State) (x : SlotState) : Option Job :=
  match x.desc.bind s.desc? with
  | some d => (taggedJob d).orElse fun _ => ctxJob s x.ctx
  | none => ctxJob s x.ctx

/-! ### X.MOVE and X.MOVED -/

/-- Enters an X operation into the mover's queue. -/
def xIssue (t : Slot) (kind : EngKind) (sigs : List Signal) (g : EngCmd → EngCmd) (s : State) : State :=
  enqueue s (slotCore t) .mover (g (mkCmd s t .mover kind sigs))

/-- The faults of a move: the slot stops; an error in a page table is reported too. -/
def moveFault (t : Slot) (ctx : Ctx) (m : MoveSpec) (s : State) : State :=
  let s := (moveVas m.src m.sstr m.rowb m.rows).foldl (fun s v => noteBadRange s ctx v.1 v.2) s
  let s := if m.rank.isSome then s
    else (moveVas m.dst m.dstr m.outBytes m.rows).foldl (fun s v => noteBadRange s ctx v.1 v.2) s
  stopAt t evAccessFault 3 s

/-- A move that stays in the module. -/
def moveLocal (t : Slot) (old : SlotState) (sigs : List Signal) (m : MoveSpec) (s : State) : State :=
  let c := slotCore t
  let v := engView s c .mover
  let reach := moverParts v c old.ctx
  match localMove v reach (s.ctx old.ctx).seed.toNat m with
  | none => moveFault t old.ctx m s
  | some (ws, ts, n) =>
    let s := tallySlot { s with free := s.free + n } old ts
    let s := noteReads (((rowParts reach .read m.src m.sstr m.rowb m.rows).getD []).flatten) s
    xIssue t .move sigs (fun x => { x with
      writes := ws, vas := moveVas m.src m.sstr m.rowb m.rows ++ moveVas m.dst m.dstr m.outBytes m.rows }) s

/-- A move to a rank: one message for each row through the link DMA (R248). Without a route no message
is made and nothing signals; the part's descriptor takes the status. -/
def moveRank (t : Slot) (old : SlotState) (sigs : List Signal) (m : MoveSpec) (rank : Nat) (s : State) : State :=
  let c := slotCore t
  let v := engView s c .mover
  match readMove v (moverParts v c old.ctx) (s.ctx old.ctx).seed.toNat m with
  | none => moveFault t old.ctx m s
  | some (rows, src, ts) =>
    match slotJob s old with
    | none => (match old.desc with
      | some d => markDesc s d stNoRoute
      | none => s)
    | some j =>
      let r := routeTo s j rank
      if routeStatus r = stOk then
        let s := noteReads src (tallySlot s old ts)
        let (s, msgs) := sendRows j (.slotMove t) rank m.dst m.dstr r 0 rows s
        xIssue t (.send (routeDie r) j msgs) sigs (fun x => { x with vas := moveVas m.src m.sstr m.rowb m.rows }) s
      else match old.desc with
        | some d => markDesc s d (routeStatus r)
        | none => s

def xMoveOp (t : Slot) (old : SlotState) (f : EFields) (sigs : List Signal) (s : State) : State :=
  let n := (sReg old f.c.toNat).toNat
  if n = 0 ∨ 2 ^ 32 ≤ n then stopAt t evAccessFault 3 s
  else moveLocal t old sigs (plainMove (sReg old f.a.toNat).toNat (sReg old f.b.toNat).toNat n) s

def xMovedOp (t : Slot) (old : SlotState) (f : EFields) (sigs : List Signal) (s : State) : State :=
  let c := slotCore t
  let a := (sReg old f.a.toNat).toNat
  let v := engView s c .mover
  if benchSize < a + 64 then stopAt t evAccessFault 3 s
  else if benchPoisoned v c a 64 then stopAt t evMemPoison 3 s
  else
    let w := wordsOf 8 (benchRead v c a 64)
    if !moveOk w then stopAt t evAccessFault 3 s
    else
      let m := moveOfWords w
      match m.rank with
      | none => moveLocal t old sigs m s
      | some r => moveRank t old sigs m r s

/-! ### Synchronization counters (R249 to R251) -/

/-- The counter that a select word names; none where it is not the slot's to use. -/
def selectSc (s : State) (t : Slot) (x : SlotState) (w : W64) : Option ScName :=
  let i := fld w.toNat 0 10
  if 2 ^ 11 ≤ w.toNat then none
  else if bit w.toNat 10 then
    if (s.ctx x.ctx).panelScs.contains ((slotPanel t).val, i) then
      some (.panel (slotPanel t) ⟨i % 1024, Nat.mod_lt _ (by decide)⟩)
    else none
  else if i < x.scCount then some (.core (slotCore t) ⟨(x.scBase.toNat + i) % 256, Nat.mod_lt _ (by decide)⟩)
  else none

/-- Whether a core counter lies in a window assigned to a slot of a context. -/
def inWindow (s : State) (c : Ctx) (core i : Nat) : Bool :=
  s.slots.any fun p => p.2.running && p.2.ctx == c && p.1 / 64 == core
    && decide ((i + 256 - p.2.scBase.toNat) % 256 < p.2.scCount)

/-- The counter that a target word names; none outside every window assigned to the context. -/
def targetSc (s : State) (ctx : Ctx) (w : W64) : Option ScName :=
  let i := fld w.toNat 0 10
  let core := fld w.toNat 11 6
  let p := fld w.toNat 17 2
  if 2 ^ 19 ≤ w.toNat then none
  else if bit w.toNat 10 then
    if (s.ctx ctx).panelScs.contains (p, i) then
      some (.panel ⟨p % 4, Nat.mod_lt _ (by decide)⟩ ⟨i % 1024, Nat.mod_lt _ (by decide)⟩)
    else none
  else if i < 256 ∧ core < 40 ∧ inWindow s ctx (40 * p + core) i then
    some (.core ⟨(40 * p + core) % 160, Nat.mod_lt _ (by decide)⟩ ⟨i % 256, Nat.mod_lt _ (by decide)⟩)
  else none

def xSigOp (t : Slot) (old : SlotState) (f : EFields) (sigs : List Signal) (s : State) : State :=
  match targetSc s old.ctx (sReg old f.a.toNat) with
  | none => stopAt t evAccessFault 3 s
  | some n => xIssue t .immediate (⟨n, f.imm.setWidth 32⟩ :: sigs) id s

def xWaitOp (t : Slot) (old : SlotState) (f : EFields) (sigs : List Signal) (s : State) : State :=
  match selectSc s t old (sReg old f.a.toNat) with
  | none => stopAt t evAccessFault 3 s
  | some n =>
    releaseWaits (updSlot t (fun x => { x with hold := .wait n ((sReg old f.b.toNat).setWidth 32), holdSig := sigs }) s)

def xScsetOp (t : Slot) (old : SlotState) (f : EFields) (sigs : List Signal) (s : State) : State :=
  match selectSc s t old (sReg old f.a.toNat) with
  | none => stopAt t evAccessFault 3 s
  | some n => xIssue t .immediate sigs (fun x => { x with sets := [⟨n, (sReg old f.b.toNat).setWidth 32⟩] }) s

def xScreadOp (t : Slot) (old : SlotState) (f : EFields) (sigs : List Signal) (s : State) : State :=
  match selectSc s t old (sReg old f.a.toNat) with
  | none => stopAt t evAccessFault 3 s
  | some n =>
    let d := sName f.d.toNat
    xIssue t .regs sigs (fun x => { x with pend := [d], scread := some (f.d.toNat, n) })
      (updSlot t (fun x => addPending x [d]) s)

/-- Commands of a slot in an engine's queue. -/
def heldBy (s : State) (t : Slot) (k : EngineKind) : Nat :=
  ((s.engine (slotCore t) k).queue.filter fun c => c.slot == t).length

/-- X.FENCE: before is the state that the bundle found, whose operations are the earlier ones (R250). -/
def xFenceOp (t : Slot) (before : State) (f : EFields) (sigs : List Signal) (s : State) : State :=
  let n := fun (b : Nat) (k : EngineKind) => if bit f.imm.toNat b then heldBy before t k else 0
  let regs := if bit f.imm.toNat 3 then (before.slot t).pending.filter fun r => (holderOf before t r).isNone else []
  endFence (updSlot t (fun x => { x with hold := .fence (n 0 .vector) (n 1 .matrix) (n 2 .mover) regs, holdSig := sigs }) s) t

def xIcinvOp (t : Slot) (sigs : List Signal) (s : State) : State :=
  xIssue t .immediate sigs (fun x => { x with icinv := true }) s

/-- One X operation; before is the state that the bundle found. -/
def xEffect (op : SlotOp) (t : Slot) (before : State) (f : EFields) (s : State) : State :=
  let old := before.slot t
  match sigOf old t f with
  | none => stopAt t evAccessFault 3 s
  | some sigs =>
    match op with
    | .xMove => xMoveOp t old f sigs s
    | .xMoved => xMovedOp t old f sigs s
    | .xSig => xSigOp t old f sigs s
    | .xWait => xWaitOp t old f sigs s
    | .xScset => xScsetOp t old f sigs s
    | .xScread => xScreadOp t old f sigs s
    | .xFence => xFenceOp t before f sigs s
    | .xIcinv => xIcinvOp t sigs s
    | _ => s

/-! ### MOVE_COMPLETE (R248) -/

/-- The messages of a move to a rank have all been acknowledged or closed. -/
def sendsEnded (s : State) (d : Die) (j : Job) (msgs : List W32) : Bool :=
  msgs.all fun m => match findSend s d j m with
    | some x => x.acked || x.failed
    | none => true

/-- Every message of a move was acknowledged. -/
def sendsAcked (s : State) (d : Die) (j : Job) (msgs : List W32) : Bool :=
  msgs.all fun m => match findSend s d j m with
    | some x => x.acked
    | none => false

/-- MOVE_COMPLETE: the move at the front of a mover's queue ends; a move to a rank ends once its messages are closed, and
signals only where every one was acknowledged. -/
def moveComplete (c : Core) (s : State) : State :=
  let e := s.engine c .mover
  match e.queue with
  | cmd :: rest =>
    match cmd.kind with
    | .move => completeFront s c .mover
    | .send d j msgs =>
      if sendsEnded s d j msgs then
        let cmd := if sendsAcked s d j msgs then cmd else { cmd with signals := [] }
        let s := s.setEngine c .mover { e with queue := cmd :: rest }
        completeFront (msgs.foldl (fun s m => dropSend s d j m) s) c .mover
      else s
    | _ => s
  | [] => s

def execMoveComplete (c : Core) (s : State) : Host.Outcome State Fault Refusal := .next (moveComplete c s)

end Sys2Proof.Machine
end

