-- ==== Sys2Proof/Machine/Quant.lean ====
section
/-!
DEFINITION. The quantizer (R137 to R165): smoothing, the mitre rotation, block scales and codes, the amax statistics and the
choice of the inlay list. The passes that use it stand in Chain.lean.
-/

namespace Sys2Proof.Machine

open Sys2Proof

/-! ### Magnitudes -/

/-- The magnitude of a finite value, as m · 2^e. -/
abbrev Mag := Nat × Int

def magZero : Mag := (0, 0)

def magLt (a b : Mag) : Bool := if b.1 = 0 then false else if a.1 = 0 then true else magGt b.1 b.2 a.1 a.2

/-- The largest finite magnitude among values; 0 if there is none (R142, R152). -/
def amaxOf (l : List FVal) : Mag :=
  l.foldl (fun a v => match v with
    | .fin _ m e => if magLt a (m, e) then (m, e) else a
    | _ => a) magZero

/-- The FP64 encoding of a magnitude. -/
def magBits (a : Mag) : Nat := packVal .fp64 (.fin false a.1 a.2)

/-- The bin of a block amax (R143). -/
def binOf (a : Mag) : Nat :=
  if a.1 = 0 then 0
  else
    let b := leadExp a.1 a.2 + 127
    if b < 1 then 1 else if 254 < b then 254 else b.toNat

/-! ### The control word (R163, R164) -/

def qPass (q : Nat) : Nat := fld q 0 2
def qRole (q : Nat) : Nat := fld q 2 2
def qRot (q : Nat) : Bool := bit q 4
def qG (q : Nat) : Nat := 32 * 2 ^ fld q 5 2
def qSide (q : Nat) : Bool := bit q 7
def qSmooth (q : Nat) : Bool := bit q 8
def qSmoothSide (q : Nat) : Bool := bit q 9
def qSelect (q : Nat) : Bool := bit q 10
def qApply (q : Nat) : Bool := bit q 11
def qShift (q : Nat) : Nat := fld q 12 4
def qListMax (q : Nat) : Nat := fld q 16 7
def qRotId (q : Nat) : Nat := fld q 32 32

/-- The narrow formats that a role takes (R140). -/
def roleFmtOk (role : Nat) (f : Fmt) : Bool :=
  match f with
  | .e2m1 | .e3m2 | .e2m3 | .e4m3 | .e5m2 | .int8 | .int4 => true
  | .int2 | .t2 => role == 1
  | _ => true

/-- A control word that is refused (R140, R141, R160, R164); fd is the destination's format word, f0 the source's, cols the
reduction extent. LIST_MAX is looked at only where INLAY_SELECT is 1. The check of R160 holds for an unscaled destination too, although
the pass then ignores ROT (log entry 143, DESIGN CHOICE); a zero point is held against the role in a quantize pass only (log entry 138,
DESIGN CHOICE). -/
def qcwBad (q fd f0 cols : Nat) : Bool :=
  2 ≤ qPass q || qRole q == 3 || fld q 23 9 != 0
  || (qSelect q && (qPass q == 1 || decide (64 < qListMax q)))
  || (qApply q && qPass q == 0)
  || (qRot q && (cols % qG q != 0 || fwFmt f0 == some .fp64))
  || (qPass q == 1 && (!(roleFmtOk (qRole q) ((fwFmt fd).getD .fp64)) || (fwZp fd && (qRole q != 0 || qApply q))))

/-! ### Smoothing and rotation (R158, R159, R162) -/

/-- Values, each with the exceptions of its making, as the values and the exceptions together. -/
def splitExc (l : List (FVal × Exc)) : List FVal × Exc := (l.map Prod.fst, joinExc (l.map Prod.snd))

/-- A value times a power of two, rounded once into a format, ties to even in a slot's pass too; an overflow gives infinity (R57, R58;
log entry 142, DESIGN CHOICE). -/
def shiftVal (f : Fmt) (v : FVal) (k : Int) : FVal × Exc := roundExc f .rne (v.scale k, sigExc [v])

/-- A shift amount of the smoothing array lies in its range. -/
def smoothOk (s : Int) : Bool := decide (-32 ≤ s) && decide (s ≤ 31)

/-- The sign of channel k under a rotation id: true for −1 (R158). -/
def mitreSign (seed rho k : Nat) : Bool :=
  let (o0, o1, o2, o3) := philoxRounds 10 (k / 128 % 2 ^ 32, 0x80000000, rho, 0) (seed % 2 ^ 32) (seed / 2 ^ 32 % 2 ^ 32)
  bit ([o0, o1, o2, o3].getD (k / 32 % 4) 0) (k % 32)

/-- One butterfly over two halves, with its exceptions (R64). -/
def butterfly (a b : List FVal) : List FVal × Exc :=
  splitExc (List.zipWith (fAdd .fp32 .rne) a b ++ List.zipWith (fSub .fp32 .rne) a b)

/-- One stage of the transform: butterflies of half-width h along the list; n is fuel. -/
def mitreStage (h : Nat) : Nat → List FVal → List FVal × Exc
  | 0, l => (l, 0)
  | n + 1, l =>
    if l = [] then ([], 0)
    else
      let (a, e) := butterfly (l.take h) ((l.drop h).take h)
      let (b, e') := mitreStage h n (l.drop (2 * h))
      (a ++ b, e ||| e')

/-- The stages of half-width h, 2h, … (n of them). -/
def mitreStages : Nat → Nat → List FVal → List FVal × Exc
  | 0, _, l => (l, 0)
  | n + 1, h, l =>
    let (a, e) := mitreStage h l.length l
    let (b, e') := mitreStages n (2 * h) a
    (b, e ||| e')

/-- The mitre over one group that begins at channel k0 (R159). The rule gives it FP32 values: those of another WORK are rounded to FP32
once, ties to even (log entry 141, DESIGN CHOICE). -/
def mitre (seed q k0 : Nat) (l : List FVal) : List FVal × Exc :=
  let lg := 5 + fld q 5 2
  let (x, e1) := splitExc (List.zipWith (fun k v =>
    let (v, e) := roundExc .fp32 .rne (v, sigExc [v])
    (if mitreSign seed (qRotId q) k then v.negate else v, e)) (rangeFrom k0 l.length) l)
  let (y, e2) := mitreStages lg 1 x
  let (z, e3) := if qSide q then splitExc (y.map fun v => shiftVal .fp32 v (-(lg : Int))) else (y, 0)
  (z, e1 ||| e2 ||| e3)

/-- The groups of a row, in order. -/
def mitreRow (seed q : Nat) : Nat → Nat → List FVal → List FVal × Exc
  | 0, _, _ => ([], 0)
  | n + 1, k0, l =>
    if l = [] then ([], 0)
    else
      let (a, e) := mitre seed q k0 (l.take (qG q))
      let (b, e') := mitreRow seed q n (k0 + qG q) (l.drop (qG q))
      (a ++ b, e ||| e')

/-- Steps 2 and 3 of R137 on one row, with their exceptions; shifts is the smoothing array, f the format of the values. -/
def prepRow (f : Fmt) (seed q : Nat) (shifts : List Int) (l : List FVal) : List FVal × Exc :=
  let (l, e) := if qSmooth q then
      splitExc (List.zipWith (fun v s => shiftVal f v (if qSmoothSide q then s else -s)) l shifts)
    else (l, 0)
  let (y, e') := if qRot q then mitreRow seed q l.length 0 l else (l, 0)
  (y, e ||| e')

/-- Whether an element comes from an invalid source block. A rotation mixes it into every value of its group: the whole group counts as
invalid (R154, R159; log entry 145, DESIGN CHOICE). -/
def prepBad (q : Nat) (bad : List Bool) : List Bool :=
  if qRot q then
    (rangeFrom 0 bad.length).map fun i => ((bad.drop (i / qG q * qG q)).take (qG q)).any id
  else bad

/-! ### The amax pass (R142 to R148) -/

/-- Adds one block to a histogram of blocks. -/
def countBin (h : Tab Nat) (blk : List FVal) : Tab Nat :=
  let b := if blk.any (fun v => v.isNan || v.isInf) then 255 else binOf (amaxOf blk)
  tabSet 0 h b (tabGet 0 h b + 1)

/-- Adds one row's values to the statistics. -/
def amaxRow (st : AmaxStats) (l : List FVal) : AmaxStats :=
  let blocks := (rangeFrom 0 (ceilDiv l.length 32)).map fun b => (l.drop (32 * b)).take 32
  { nblk := st.nblk + blocks.length
    tamax := max st.tamax (magBits (amaxOf l))
    hist := blocks.foldl countBin st.hist
    camax := (List.zip (rangeFrom 0 l.length) l).foldl (fun t p =>
      tabSet 0 t p.1 (max (tabGet 0 t p.1) (magBits (amaxOf [p.2])))) st.camax }

/-- The union of two tables' entries under an operation with neutral element 0. -/
def tabMerge (op : Nat → Nat → Nat) (a b : Tab Nat) : Tab Nat :=
  b.foldl (fun t p => tabSet 0 t p.1 (op (tabGet 0 t p.1) p.2)) a

/-- Statistics of two parts together (R144). -/
def amaxJoin (a b : AmaxStats) : AmaxStats :=
  { nblk := a.nblk + b.nblk, tamax := max a.tamax b.tamax, hist := tabMerge (· + ·) a.hist b.hist
    camax := tabMerge max a.camax b.camax }

/-- MED_BIN (R143). -/
def medBin (h : Tab Nat) : Nat :=
  let n := (rangeFrom 1 254).foldl (fun a b => a + tabGet 0 h b) 0
  if n = 0 then 0
  else ((rangeFrom 1 254).find? fun b =>
    decide (ceilDiv n 2 ≤ (rangeFrom 1 b).foldl (fun a b => a + tabGet 0 h b) 0)).getD 0

/-- The bin of a channel amax, by its FP64 encoding. -/
def binOfBits (x : Nat) : Nat :=
  match decodeElem .fp64 x with
  | .fin _ m e => binOf (m, e)
  | _ => 255

/-- Puts a candidate at its place: by amax descending, then by channel. -/
def candInsert (c : Nat × Nat) : List (Nat × Nat) → List (Nat × Nat)
  | [] => [c]
  | x :: t => if x.2 < c.2 ∨ (x.2 = c.2 ∧ c.1 < x.1) then c :: x :: t else x :: candInsert c t

/-- The outlier selection of R148: the listed channels ascending, and how many qualified. -/
def selectChannels (st : AmaxStats) (q k : Nat) : List Nat × Nat :=
  let med := medBin st.hist
  let lim := min (min (qListMax q) 64) (ceilDiv k 32)
  let cand := if med = 0 then [] else st.camax.filter fun c => 0 < c.2 && med + qShift q ≤ binOfBits c.2
  let sorted := cand.foldl (fun acc c => candInsert c acc) []
  (((sorted.take lim).map Prod.fst).foldl setInsert [], cand.length)

/-- The summary's bytes (R145; SHIFT is 0 where INLAY_SELECT is 0, log entry 140, DESIGN CHOICE), its list and how many candidates were left out; k is the reduction extent. -/
def summaryBytes (st : AmaxStats) (q k step : Nat) : List Byte × Nat :=
  let (l, nc) := if qSelect q then selectChannels st q k else ([], 0)
  let flags := bnat (qRot q) + (if qRot q then 2 * fld q 5 2 else 0) + 8 * bnat (qSmooth q) + 128
  let shift := if qSelect q then qShift q else 0
  let w3 := medBin st.hist + 2 ^ 8 * flags + 2 ^ 16 * l.length + 2 ^ 24 * shift + 2 ^ 32 * (nc % 2 ^ 32)
  let head := wordBytes ([st.nblk, st.tamax, step % 2 ^ 32 + 2 ^ 32 * (if qRot q then qRotId q else 0), w3, 0, 0, 0, 0]
    ++ (rangeFrom 0 256).map fun b => tabGet 0 st.hist b)
  let list := (rangeFrom 0 64).flatMap fun i => leBytes 4 (l.getD i 0xFFFFFFFF)
  (head ++ list, nc - l.length)

/-- The channel-amax array of k channels (R146). -/
def camaxBytes (st : AmaxStats) (k : Nat) : List Byte := wordBytes ((rangeFrom 0 k).map fun i => tabGet 0 st.camax i)

/-- The inlay list of a summary that passes the check of R147; none where it is stale. -/
def summaryList (b : List Byte) (q step : Nat) : Option (List Nat) :=
  let flags := ((b.getD 25 0).toNat)
  let own := bnat (qRot q) + (if qRot q then 2 * fld q 5 2 else 0)
  if bit flags 7 ∧ ofLE ((b.drop 16).take 4) = step ∧ flags % 8 = own
      ∧ ofLE ((b.drop 20).take 4) = (if qRot q then qRotId q else 0) then
    some ((rangeFrom 0 (min (b.getD 26 0).toNat 64)).map fun i => ofLE ((b.drop (2112 + 4 * i)).take 4))
  else none

/-! ### Block scales and codes (R152 to R157) -/

/-- E_max of a floating-point narrow format (R152). -/
def eMax : Fmt → Int
  | .e2m1 => 2
  | .e3m2 => 4
  | .e2m3 => 2
  | .e4m3 => 8
  | .e5m2 => 15
  | _ => 0

/-- Q_max of an integer format (R152). -/
def qMax : Fmt → Nat
  | .int8 => 127
  | .int4 => 7
  | _ => 1

/-- The least u with a · 2^(127−u) ≤ bound, unclamped. -/
def leastU (a : Mag) (bound : Nat) : Int :=
  let u0 : Int := leadExp a.1 a.2 + 127 - Nat.log2 bound
  let fits := fun (u : Int) => !magGt a.1 (a.2 + 127 - u) bound 0
  if fits (u0 - 1) then u0 - 1 else if fits u0 then u0 else u0 + 1

/-- The least and the greatest of the finite values and 0, on a common grid q (R153). -/
def spanOf (l : List FVal) : Int × Int × Int :=
  let q := minExp l 4096
  let xs := l.map fun v => match v with
    | .fin n m e => if m = 0 then 0 else finInt n m e q
    | _ => 0
  (xs.foldl min 0, xs.foldl max 0, q)

/-- The first scale of a block, unclamped (R152, R153). -/
def firstScale (f : Fmt) (zp : Bool) (l : List FVal) : Int :=
  let a := amaxOf l
  if zp then
    let (lo, hi, q) := spanOf l
    leastU ((hi - lo).toNat, q) (if f = .int8 then 255 else 15)
  else if f.isFloat then 127 + leadExp a.1 a.2 - eMax f
  else leastU a (qMax f)

/-- The zero point of a block at scale u (R153). -/
def zeroPoint (f : Fmt) (fw x : Nat) (u : Nat) (l : List FVal) : Int :=
  let (lo, _, q) := spanOf l
  let d := fwRounding fw (Config.zeroPointDraw x % 65536)
  let (k, _) := roundTo d (decide (lo < 0)) lo.natAbs (q + 127 - u) 0
  f.intRange.1 - (if lo < 0 then -(k : Int) else k)

/-- A block as it is written. -/
structure QBlock where
  codes : List Nat
  scale : Nat
  zp : Int
  tallies : Tallies

/-- The conversions of a block at scale u. -/
def encodeBlock (f : Fmt) (fw : Nat) (key : SrKey) (x u : Nat) (z : Int) (l : List FVal) : List Conv :=
  List.zipWith (fun i v => convertElem f (fwClamp fw) (fwRounding fw (srValue key (x + i))) true u z v)
    (rangeFrom 0 l.length) l

/-- Finite values that overflow. -/
def overCount (l : List FVal) (cs : List Conv) : Nat :=
  ((List.zip l cs).filter fun p => p.2.ovf && !p.1.isInf && !p.1.isNan).length

/-- A code without value: the float codes of ±0, or the zero point (R154). -/
def codeZero (f : Fmt) (zp : Bool) (z : Int) (c : Nat) : Bool :=
  if zp then decide (toSigned f.width c = z) else (decodeElem f c).isZero

/-- The format has a NaN code. -/
def hasNan (f : Fmt) : Bool := f.isIeee || f == .e4m3

/-- quant_block of R154: x is the element index of the first element; l holds +0 at the listed channels. -/
def quantBlock (fw : Nat) (key : SrKey) (x : Nat) (srcInvalid : Bool) (l : List FVal) (t : Tallies) : QBlock :=
  let f := (fwFmt fw).getD .e2m1
  let zp := fwZp fw
  let invalid := fun (t : Tallies) =>
    (⟨l.map fun _ => 0, 0xFF, 0, { t with inv := sat32 (t.inv + 1) }⟩ : QBlock)
  let hasInf := l.any FVal.isInf
  if srcInvalid || (l.any FVal.isNan && !hasNan f) then invalid t
  else
    let nz := (amaxOf l).1 != 0
    let u0 := firstScale f zp l
    let u : Nat := if nz then min u0.toNat 254 else if hasInf then 254 else 0
    let t := if nz && decide (u0 < 0) then { t with scaleFloor := sat32 (t.scaleFloor + 1) } else t
    let zOf := fun (u : Nat) => if zp then zeroPoint f fw x u l else 0
    let cs := encodeBlock f fw key x u (zOf u) l
    let raise := decide (0 < overCount l cs) && decide (u < 254)
    let u := if raise then u + 1 else u
    let t := if raise then { t with scaleRaise := sat32 (t.scaleRaise + 1) } else t
    let z := zOf u
    let cs := if raise then encodeBlock f fw key x u z l else cs
    let t := { t with ovf := sat32 (t.ovf + (cs.filter Conv.ovf).length) }
    if fwClamp fw = .nan ∧ (0 < overCount l cs ∨ hasInf) ∧ ¬ hasNan f then invalid { t with nanMade := true }
    else
      let t := { t with nanMade := t.nanMade || cs.any Conv.nanMade }
      let codes := cs.map Conv.bits
      if codes.all (codeZero f zp z) then
        let codes := if zp then codes.map fun _ => 0 else codes
        let t := if codes.all (· == 0) then { t with zeroBlock := sat32 (t.zeroBlock + 1) } else t
        ⟨codes, 0, 0, t⟩
      else ⟨codes, u, z, t⟩

/-- An inlay value of R151, with its conversion's counters; infinities are kept. -/
def inlayConv (fw : Nat) (key : SrKey) (x : Nat) (v : FVal) : Conv :=
  match v with
  | .inf n => { bits := packInf .bf16 n }
  | _ =>
    let c := if fld fw 8 2 = 0 then Clamp.finite else fwClamp fw
    convertElem .bf16 c (fwRounding fw (srValue key x)) false 0x7F 0 v

/-- One row of a quantize pass: packed codes with the pads of R50, scales, zero points, inlay values. -/
structure QRow where
  codes : List Nat
  scales : List Nat
  zps : List Int
  inlay : List Nat
  tallies : Tallies

/-- Quantizes one prepared row; the BF16 inlay values are IEEE conversions and raise flags (R64, R197); x is the index of its first element, list the inlay list. -/
def quantRow (fw : Nat) (key : SrKey) (x : Nat) (list : List Nat) (bad : List Bool) (l : List FVal) (t : Tallies) : QRow :=
  let masked := List.zipWith (fun k v => if list.contains k then fZero else v) (rangeFrom 0 l.length) l
  let blocks := (rangeFrom 0 (ceilDiv l.length 32)).foldl (fun (acc : QRow) b =>
    let blk := (masked.drop (32 * b)).take 32
    let r := quantBlock fw key (x + 32 * b) (((bad.drop (32 * b)).take 32).any id) blk acc.tallies
    let codes := List.zipWith (fun k c => if list.contains k then 0 else c) (rangeFrom (32 * b) r.codes.length) r.codes
    { acc with
      codes := acc.codes ++ codes ++ List.replicate (32 - codes.length) 0
      scales := acc.scales ++ [r.scale], zps := acc.zps ++ [r.zp], tallies := r.tallies }) ⟨[], [], [], [], t⟩
  let cs := list.map fun k => if k < l.length then inlayConv fw key (x + k) (l.getD k fZero) else { bits := 0 }
  let t := cs.foldl countConv blocks.tallies
  { blocks with inlay := cs.map Conv.bits, tallies := { t with flags := t.flags ||| joinExc (cs.map convExc) } }

/-- A row of a pass whose summary is stale: every block invalid, every code 0, no inlay values (R147). -/
def staleRow (n : Nat) (t : Tallies) : QRow :=
  let nb := ceilDiv n 32
  ⟨List.replicate (32 * nb) 0, List.replicate nb 0xFF, List.replicate nb 0, [], { t with inv := sat32 (t.inv + nb) }⟩

end Sys2Proof.Machine
end

