-- ==== Sys2Proof/Machine/Chain.lean ====
section
/-!
DEFINITION. Passes of the vector chain (R190 to R215): the pass descriptor, its refusal, the stages, scans, reductions, the
fused kinds and the factorization assists. A pass sees memory through a reader of bytes, so that one text serves a pass that a
thread slot launches in its bench and a pass that a host descriptor places on virtual memory.
-/

namespace Sys2Proof.Machine

open Sys2Proof

/-! ### The pass descriptor's words (R193) -/

def pKind (w : List Nat) : Nat := fld (nth w 0) 0 8
def pStages (w : List Nat) : Nat := fld (nth w 0) 8 8
/-- Stage i of R190 is enabled. -/
def pOn (w : List Nat) (i : Nat) : Bool := bit (pStages w) (i - 1)
def pWork (w : List Nat) : Nat := fld (nth w 0) 16 8
def pDual (w : List Nat) : Nat := fld (nth w 0) 24 8
def pMul (w : List Nat) : Nat := fld (nth w 0) 32 8
def pAdd (w : List Nat) : Nat := fld (nth w 0) 40 8
def pFunc (w : List Nat) : Nat := fld (nth w 0) 48 8
def pRed (w : List Nat) : Nat := fld (nth w 0) 56 8
def pRows (w : List Nat) : Nat := fld (nth w 1) 0 32
def pCols (w : List Nat) : Nat := fld (nth w 1) 32 32
def pSrc (w : List Nat) (s : Nat) : Nat := nth w (2 + s)
def pDst (w : List Nat) : Nat := nth w 5
/-- The format word of source s; of the destination for 3. -/
def pFmt (w : List Nat) (s : Nat) : Nat := fld (nth w 6) (16 * s) 16
def pStrS (w : List Nat) : Nat := fld (nth w 7) 0 32
def pStrD (w : List Nat) : Nat := fld (nth w 7) 32 32
/-- The shape of source s: 0 full, 1 row vector, 2 column vector, 3 scalar. -/
def pShape (w : List Nat) (s : Nat) : Nat := if s = 0 then 0 else fld (nth w 8) (2 * (s - 1)) 2
def pScanEn (w : List Nat) : Bool := bit (nth w 8) 8
def pExcl (w : List Nat) : Bool := bit (nth w 8) 9
def pSegKind (w : List Nat) : Nat := fld (nth w 8) 10 2
def pScanOp (w : List Nat) : Nat := fld (nth w 8) 12 2
/-- Scale array of source s; that of SRC2, for ATTENTION, stands in ZP0. -/
def pScale (w : List Nat) (s : Nat) : Nat := nth w (match s with | 0 => 9 | 1 => 11 | _ => 10)
def pZp0 (w : List Nat) : Nat := nth w 10
def pDscale (w : List Nat) : Nat := nth w 12
def pDzp (w : List Nat) : Nat := nth w 13
def pQcw (w : List Nat) : Nat := nth w 14
def pSummary (w : List Nat) : Nat := nth w 15
def pCamax (w : List Nat) : Nat := nth w 16
def pSmooth (w : List Nat) : Nat := nth w 17
def pInlay (w : List Nat) : Nat := nth w 18
def pSeg (w : List Nat) : Nat := nth w 19
def pStep (w : List Nat) : Nat := fld (nth w 28) 0 32
def pTensor (w : List Nat) : Nat := fld (nth w 28) 32 32
def pIbase (w : List Nat) : Nat := nth w 29
def pTag (w : List Nat) : Nat := fld (nth w 30) 0 16

/-- The work format (R191). -/
def pWk (w : List Nat) : Fmt :=
  match fld (pWork w) 0 2 with
  | 0 => .fp64
  | 1 => .fp32
  | 2 => .bf16
  | _ => .fp16

/-- Lanes per cycle (R191). -/
def pLanes (w : List Nat) : Nat :=
  match fld (pWork w) 0 2 with
  | 0 => 128
  | 1 => 256
  | _ => 512

def pMulOn (w : List Nat) : Bool := pOn w 3
def pScanOn (w : List Nat) : Bool := pOn w 4 && pScanEn w
def pAddOn (w : List Nat) : Bool := pOn w 4 && !pScanEn w
def pFuncOn (w : List Nat) : Bool := pOn w 5
def pRedOn (w : List Nat) : Bool := pOn w 6
def pQuantOn (w : List Nat) : Bool := pOn w 7
def pAmax (w : List Nat) : Bool := pQuantOn w && qPass (pQcw w) == 0
def pDualOn (w : List Nat) : Bool := bit (pDual w) 0
/-- Tangents carried: 0, 1 or 2 (R211). -/
def pTans (w : List Nat) : Nat := if pDualOn w then (if bit (pDual w) 1 then 2 else 1) else 0

def kindGeneral : Nat := 0
def kindSoftmax : Nat := 1
def kindAttention : Nat := 2
def kindMerge : Nat := 3
def kindChol : Nat := 4
def kindLu : Nat := 5

/-- A source is read by a pass. -/
def srcUsed (w : List Nat) (s : Nat) : Bool :=
  match s with
  | 0 => true
  | 1 => pKind w == kindAttention || (pMulOn w && pMul w == 0)
  | _ => pKind w == kindAttention || (pAddOn w && pAdd w != 1)

/-! ### Refusal (R55, R194, R204, R205, R207, R209, R211) -/

/-- Reserved fields that every kind leaves 0, and ranges that every kind keeps. -/
def passBadCommon (w : List Nat) : Bool :=
  decide (5 < pKind w) || decide (4 ≤ pWork w) || decide (4 ≤ pDual w) || pStages w &&& 0x83 != 0x83
  || fld (nth w 8) 4 4 != 0 || fld (nth w 8) 14 50 != 0 || pSegKind w == 3 || pScanOp w == 3
  || pRows w == 0 || pCols w == 0 || fld (nth w 29) 48 16 != 0 || fld (nth w 30) 16 48 != 0 || nth w 31 != 0
  || decide (2 ^ 48 ≤ pRows w * pCols w + pIbase w)
  || (pKind w == kindAttention && decide (2 ^ 48 < pRows w * (fld (nth w 24) 0 16) + pIbase w))
  || fwBad (pFmt w 1) false || fwBad (pFmt w 2) false
  || fwBad (pFmt w 0) (pKind w != kindAttention) || fwBad (pFmt w 3) (pQuantOn w)

/-- Fields that R193 does not name for a kind are 0. GENERAL uses every field; SOFTMAX has neither scan nor quantizer; ATTENTION,
ATT_MERGE, CHOL and LU name the fields of R205, R207 and R209. -/
def passReserved (w : List Nat) : Bool :=
  let ops := fld (nth w 0) 32 32
  let quant := pDscale w + pDzp w + pQcw w + pSummary w + pCamax w + pSmooth w + pInlay w
  let shape := fld (nth w 8) 0 8
  let scan := fld (nth w 8) 8 8
  let srcs := pSrc w 1 + pSrc w 2 + pFmt w 1 + pFmt w 2
  let scales := nth w 9 + nth w 10 + nth w 11
  match pKind w with
  | 0 => false
  | 1 => scan + quant != 0
  | 2 => ops + quant + shape + scan + nth w 21 != 0
  | 3 => ops + quant + shape + scan + srcs + scales + nth w 20 + nth w 21 != 0
  | _ => ops + quant + shape + scan + srcs + scales + nth w 20 + nth w 21 + pSeg w != 0

/-- Op codes that GENERAL and SOFTMAX read. -/
def passBadOps (w : List Nat) : Bool :=
  decide (2 < pMul w) || (!pScanEn w && decide (4 < pAdd w))
  || (pKind w == kindGeneral && (decide (0x0C < pFunc w) || decide (3 < pRed w)))

/-- A dual-lane pass that R211 does not allow. -/
def passBadDual (w : List Nat) : Bool :=
  pDualOn w && (decide (1 < pKind w) || pWk w == .fp16 || pQuantOn w || !((fwFmt (pFmt w 3)).getD .fp64).isWide)

/-- An FP64 constant that is a number and at least 0. -/
def nonNeg64 (x : Nat) : Bool :=
  match decodeElem .fp64 x with
  | .nan _ _ _ => false
  | .inf n => !n
  | .fin n m _ => !n || m == 0

/-- The formats of a pair of R75 that accumulates into FP32. -/
def fp32Pair (a b : Nat) : Bool :=
  match fwFmt a, fwFmt b with
  | some fa, some fb => match pairClass fa fb with
    | some .v => false
    | some _ => true
    | none => false
  | _, _ => false

def aHd (w : List Nat) : Nat := fld (nth w 24) 0 16
def aPfmt (w : List Nat) : Nat := fld (nth w 24) 16 16
def aCausal (w : List Nat) : Bool := bit (nth w 24) 32
def aMask (w : List Nat) : Bool := bit (nth w 24) 33
def aNorm (w : List Nat) : Bool := bit (nth w 24) 34
def hdOk (n : Nat) : Bool := n == 32 || n == 64 || n == 128 || n == 256

/-- The conditions of each kind. The reserved bits of QCW bind a GENERAL pass without QUANT too (R8, R163); a scaled SRC2 that is read
has no scale array, and is refused (log entry 137, DESIGN CHOICE). -/
def passBadKind (w : List Nat) : Bool :=
  let k := pKind w
  if k = kindGeneral then
    passBadOps w || (pQuantOn w && (pRedOn w || pScanEn w)) || (!pQuantOn w && fwScaled (pFmt w 3)) || (srcUsed w 2 && fwScaled (pFmt w 2))
    || fld (pQcw w) 23 9 != 0 || (pQuantOn w && qcwBad (pQcw w) (pFmt w 3) (pFmt w 0) (pCols w))
  else if k = kindSoftmax then
    passBadOps w || decide (2 ≤ pWork w) || pFuncOn w || pRedOn w || pQuantOn w || pScanEn w || fwScaled (pFmt w 3)
    || (srcUsed w 2 && fwScaled (pFmt w 2))
  else if k = kindAttention then
    pWork w != 1 || pStages w != 0x83 || decide (1048576 < pCols w) || !hdOk (aHd w) || fld (nth w 24) 35 29 != 0
    || nth w 25 != 0 || nth w 26 != 0 || nth w 27 != 0 || pDual w != 0 || fwScaled (pFmt w 3)
    || !(aPfmt w &&& 0xF == 2 && !fwScaled (aPfmt w) || aPfmt w &&& 0xF == 4 && fwScaled (aPfmt w)) || fwBad (aPfmt w) false
    || !fp32Pair (pFmt w 0) (pFmt w 1) || !fp32Pair (aPfmt w) (pFmt w 2)
    || (!aNorm w && fwFmt (pFmt w 3) != some .fp32)
  else if k = kindMerge then
    pWork w != 1 || pStages w != 0x83 || !hdOk (pCols w) || fwFmt (pFmt w 0) != some .fp32 || fwScaled (pFmt w 3)
    || decide (fld (nth w 22) 0 8 < 2 ∨ 64 < fld (nth w 22) 0 8) || fld (nth w 22) 8 2 != 0 || fld (nth w 22) 11 53 != 0
    || nth w 24 != 0 || nth w 25 != 0 || nth w 26 != 0 || nth w 27 != 0 || pDual w != 0
  else
    pWork w != 0 || pStages w != 0x83 || pDual w != 0 || fwFmt (pFmt w 0) != some .fp64 || fwFmt (pFmt w 3) != some .fp64
    || !nonNeg64 (nth w 22) || !nonNeg64 (nth w 23) || nth w 25 != 0 || nth w 26 != 0 || nth w 27 != 0
    || (if k = kindChol then nth w 24 != 0 || pRows w != pCols w || decide (256 < pCols w)
        else decide (16384 < pRows w) || decide (128 < pCols w) || decide (pRows w < pCols w))

/-- A pass that is refused (R194). -/
def passBad (w : List Nat) : Bool := passBadCommon w || passReserved w || passBadDual w || passBadKind w

/-! ### The environment of a pass -/

/-- What a pass sees: bytes, which ranges it may use, which are poisoned, its seed, its rounding direction, its step. -/
structure PassEnv where
  rd : Nat → Byte
  ok : Access → Nat → Nat → Bool
  bad : Nat → Nat → Bool
  seed : Nat
  dir : Rnd
  step : Nat
  /-- The amax summary where it was read when the descriptor started; empty: it is read with the rest. -/
  head : List Byte := []

/-- A little-endian number of n bytes. -/
def envNat (v : PassEnv) (a n : Nat) : Nat := ofLE ((rangeFrom a n).map v.rd)

/-- An element of a wide format at an address. -/
def envElem (v : PassEnv) (f : Fmt) (a : Nat) : FVal := decodeElem f (envNat v a (f.width / 8))

/-- Bytes of n elements of a format. -/
def packedBytes (f : Fmt) (n : Nat) : Nat := ceilDiv (n * f.width) 8

/-! ### Sources (R193, R195) -/

/-- Row and place in the row of element (i, j) of a source of a shape. -/
def srcPos (shape i j : Nat) : Nat × Nat :=
  match shape with
  | 0 => (i, j)
  | 1 => (0, j)
  | 2 => (0, i)
  | _ => (0, 0)

/-- Elements of a row of a source. -/
def srcCols (w : List Nat) (s : Nat) : Nat :=
  match pShape w s with
  | 2 => pRows w
  | 3 => 1
  | _ => pCols w

/-- The value of element (i, j) of source s, and whether its block is invalid (R47 to R49). A scale or zero-point array is read where it
stands, on a 64-byte boundary or not (R52; log entry 139, DESIGN CHOICE). -/
def srcVal (v : PassEnv) (w : List Nat) (s i j : Nat) : FVal × Bool :=
  let fw := pFmt w s
  let f := (fwFmt fw).getD .fp32
  let (r, k) := srcPos (pShape w s) i j
  let base := pSrc w s + r * pStrS w
  let code := readElem v.rd base f k
  if fwScaled fw then
    let nb := ceilDiv (srcCols w s) 32
    let u := (v.rd (pScale w s + r * nb + k / 32)).toNat
    let z : Int := if fwZp fw then (v.rd (pZp0 w + r * nb + k / 32)).toInt else 0
    let inv := u == 0xFF || (f == .t2 && (rangeFrom (k / 32 * 32) 32).any fun q => readElem v.rd base f q == 2)
    (if inv then genNan else scaledElem f u z code, inv)
  else (decodeElem f code, f == .t2 && code == 2)

/-- UNPACK/CONVERT: the value rounded into WORK under R67 and the RND of the destination's format word; x is the element's
index. -/
def toWork (v : PassEnv) (w : List Nat) (x : Nat) (a : FVal) : FVal × Exc :=
  let d := fwRounding (pFmt w 3) (srValue ⟨v.seed, v.step, pTensor w⟩ x)
  let c := convertElem (pWk w) .ieee d false 0x7F 0 a
  (decodeElem (pWk w) c.bits, convExc c ||| sigExc [a])

/-- A source element in WORK. -/
def srcWork (v : PassEnv) (w : List Nat) (s i j : Nat) : FVal × Exc :=
  toWork v w (pIbase w + i * pCols w + j) (srcVal v w s i j).1

/-- Tangent k of element (i, j) of source 0 or 1 as UNPACK passes it on (R214); an address of 0 is a zero tangent (R211). -/
def srcTan (v : PassEnv) (w : List Nat) (k s i j : Nat) : FVal :=
  let a := nth w (22 + 3 * k + s)
  let (r, q) := srcPos (pShape w s) i j
  if a = 0 then fZero else tPass (envElem v (pWk w) (a + r * pStrS w + q * ((pWk w).width / 8)))

/-! ### Lanes: a value with its tangents and the exceptions raised on the way -/

structure Cell where
  v : FVal
  t : List FVal := []
  e : Exc := 0

/-- Applies a tangent operation to each tangent, joining the exceptions. -/
def mapTans (g : FVal → FVal × Exc) (l : List FVal) : List FVal × Exc :=
  (l.map fun x => (g x).1, joinExc (l.map fun x => (g x).2))

def zipTans (g : FVal → FVal → FVal × Exc) (a b : List FVal) : List FVal × Exc :=
  (List.zipWith (fun x y => (g x y).1) a b, joinExc (List.zipWith (fun x y => (g x y).2) a b))

/-- A constant of the pass in WORK, with the exceptions of its rounding (R195). -/
def passConst (v : PassEnv) (w : List Nat) (i : Nat) : FVal × Exc :=
  let x := decodeElem .fp64 (nth w i)
  roundExc (pWk w) v.dir (x, sigExc [x])

/-- Stages 2 to 4 without a scan: UNPACK, MUL, ADD, fused where R196 says so (R195, R213). -/
def mulAdd (v : PassEnv) (w : List Nat) (i j : Nat) : Cell :=
  let f := pWk w
  let d := v.dir
  let (x, e0) := srcWork v w 0 i j
  let tan := fun s => (rangeFrom 0 (pTans w)).map fun k => srcTan v w k s i j
  let dx := tan 0
  let two : FVal := .fin false 1 1
  let (fac, e1) := match pMul w with
    | 0 => if pMulOn w then srcWork v w 1 i j else (fZero, 0)
    | 1 => if pMulOn w then passConst v w 20 else (fZero, 0)
    | _ => (x, 0)
  let (tm, e2) := if !pMulOn w then (dx, (0 : Exc))
    else match pMul w with
      | 0 => zipTans (fun a b => let (p, e) := tMul f x b; let (r, e') := tFma f d a fac p; (r, e ||| e')) dx (tan 1)
      | 1 => mapTans (fun a => tMulBy f a fac) dx
      | _ => mapTans (fun a => let (p, e) := tMul f x a; let (r, e') := tMul f two p; (r, e ||| e')) dx
  let (s2, e3) := if !pAddOn w then (fZero, 0)
    else if pAdd w = 1 then passConst v w 21 else srcWork v w 2 i j
  let addend := if pAdd w = 2 then (if s2.isNan then s2 else s2.negate) else s2
  let e := e0 ||| e1 ||| e2 ||| e3
  if pMulOn w && pAddOn w && pAdd w ≤ 2 then
    let (y, ey) := fFma f d x fac addend
    ⟨y, tm, e ||| ey⟩
  else
    let (m, em) := if pMulOn w then fMul f d x fac else (x, 0)
    if !pAddOn w then ⟨m, tm, e ||| em⟩
    else match pAdd w with
      | 0 | 1 => let (y, ey) := fAdd f d m s2; ⟨y, tm, e ||| em ||| ey⟩
      | 2 => let (y, ey) := fSub f d m s2; ⟨y, tm, e ||| em ||| ey⟩
      | k =>
        let (y, ey, sb) := fMinMax (k == 3) m s2
        ⟨y, if sb && !isEq (fCmp m s2) then tm.map fun _ => fZero else tm.map tPass, e ||| em ||| ey⟩

/-- FUNC on a lane (R202, R213). -/
def funcCell (v : PassEnv) (w : List Nat) (c : Cell) : Cell :=
  let (y, e) := funcEval (pWk w) v.dir (pFunc w) c.v
  let (t, et) := mapTans (factorTan (pWk w) (funcFactor (pWk w) v.dir (pFunc w) c.v y)) c.t
  ⟨y, t, c.e ||| e ||| et⟩

/-! ### Scans and reductions (R199 to R201) -/

/-- SUM on two lanes. -/
def sumCell (f : Fmt) (d : Rnd) (a b : Cell) : Cell :=
  let (y, e) := fAdd f d a.v b.v
  let (t, et) := zipTans (tAdd f d false) a.t b.t
  ⟨y, t, a.e ||| b.e ||| e ||| et⟩

/-- The operation of a scan on two lanes: 0 SUM, 1 MAX, 2 MIN, with IEEE 754-2019 maximum and minimum (R199). -/
def scanCell (f : Fmt) (d : Rnd) (code : Nat) (a b : Cell) : Cell :=
  match code with
  | 0 => sumCell f d a b
  | _ =>
    let (y, e, sb) := fMinMax (code != 2) a.v b.v
    ⟨y, if sb then b.t else a.t, a.e ||| b.e ||| e⟩

/-- The operation of a reduction on two lanes: 0 SUM, 1 MAX, 2 MIN, 3 AMAX; equal values give the right operand (R201). -/
def foldCell (f : Fmt) (d : Rnd) (code : Nat) (a b : Cell) : Cell :=
  match code with
  | 0 => sumCell f d a b
  | _ =>
    let (y, e, sb) := fMinMax (code != 2) a.v b.v
    let right := sb || isEq (fCmp a.v b.v)
    ⟨if right && !y.isNan then b.v else y, if right then b.t else a.t, a.e ||| b.e ||| e⟩

/-- The identity lane of an operation with n tangents. -/
def foldId (code n : Nat) : Cell := ⟨redIdentity code, List.replicate n fZero, 0⟩

/-- comb() of R199 on lanes with a segment-start flag. -/
def scanComb (op : Cell → Cell → Cell) (a b : Bool × Cell) : Bool × Cell := (a.1 || b.1, if b.1 then b.2 else op a.2 b.2)

/-- The stages h, 2h, … of one chunk, n of them; each reads the values of the stage before. -/
def scanStages (op : Cell → Cell → Cell) : Nat → Nat → List (Bool × Cell) → List (Bool × Cell)
  | 0, _, y => y
  | n + 1, h, y =>
    scanStages op n (2 * h) (y.take h ++ List.zipWith (scanComb op) y (y.drop h))

/-- A row scanned chunk by chunk of W lanes: the inclusive results. n is fuel. -/
def scanChunks (op : Cell → Cell → Cell) (id : Cell) (lanes : Nat) :
    Nat → (Bool × Cell) → List (Bool × Cell) → List Cell
  | 0, _, _ => []
  | n + 1, carry, l =>
    if l = [] then []
    else
      let c := l.take lanes
      let y := scanStages op (Nat.log2 lanes) 1 (c ++ List.replicate (lanes - c.length) (false, id))
      (y.take c.length).map (fun p => (scanComb op carry p).2)
        ++ scanChunks op id lanes n (scanComb op carry (y.getLastD (false, id))) (l.drop lanes)

/-- scan_row of R199; the first element starts a segment. -/
def scanRow (op : Cell → Cell → Cell) (id : Cell) (lanes : Nat) (excl : Bool) (start : List Bool) (l : List Cell) :
    List Cell :=
  let st := match start with
    | [] => []
    | _ :: t => true :: t
  let incl := scanChunks op id lanes l.length (false, id) (List.zip st l)
  if excl then
    List.zipWith (fun (s : Bool) (p : Cell × Cell) => if s then { id with e := p.2.e } else { p.1 with e := p.2.e }) st
      (List.zip (id :: incl) incl)
  else incl

/-- Segment starts from the flags of row i (SEG = 1). -/
def segFlags (v : PassEnv) (w : List Nat) (i : Nat) : List Bool :=
  let nb := ceilDiv (pCols w) 8
  (rangeFrom 0 (pCols w)).map fun j => bit (v.rd (pSeg w + i * nb + j / 8)).toNat (j % 8)

/-- Segment starts from lengths: none where they do not sum to n. -/
def startsOf (n : Nat) : Nat → List Nat → List Nat → Option (List Nat)
  | pos, [], acc => if pos = n then some acc else none
  | pos, x :: t, acc =>
    if x = 0 then (if pos = n then some acc else none)
    else if n < pos + x then none else startsOf n (pos + x) t (acc ++ [pos])

/-- Segment starts of row i (R200); none where the lengths do not fit. -/
def segStarts (v : PassEnv) (w : List Nat) (i : Nat) : Option (List Bool) :=
  match pSegKind w with
  | 1 => some (segFlags v w i)
  | 2 =>
    let l := (rangeFrom 0 (pCols w)).map fun j => envNat v (pSeg w + i * 4 * pCols w + 4 * j) 4
    (startsOf (pCols w) 0 l []).map fun ps => (rangeFrom 0 (pCols w)).map ps.contains
  | _ => some (List.replicate (pCols w) false)

/-- reduce_row of R201: lanes in ascending order, then the tree of R97. -/
def reduceRow (op : Cell → Cell → Cell) (id : Cell) (lanes : Nat) (l : List Cell) : Cell :=
  let ls := (rangeFrom 0 lanes).map fun j =>
    (rangeFrom 0 (ceilDiv (l.length - j) lanes)).foldl (fun a q => op a (l.getD (j + q * lanes) id)) id
  combine op id ls

/-- The lanes that a reduction folds: AMAX takes magnitudes and the tangent times the sign (R213). -/
def redCell (code : Nat) (c : Cell) : Cell :=
  if code = 3 then ⟨c.v.abs, c.t.map fun t => if c.v.neg? then tPass t.negate else tPass t, c.e⟩ else c

/-! ### Softmax (R204) -/

/-- A running maximum and sum. -/
structure MaxSum where
  m : FVal
  l : FVal
  e : Exc := 0

def msEmpty : MaxSum := ⟨.inf true, fZero, 0⟩
def isNegInf (x : FVal) : Bool := x.isInf && x.neg?
def isPosInf (x : FVal) : Bool := x.isInf && !x.neg?

/-- exp(a − b), each rounded once; the difference in the pass's direction (R197). -/
def expDiff (f : Fmt) (dir : Rnd) (a b : FVal) : FVal × Exc :=
  let (d, e) := fSub f dir a b
  let (y, e') := funcEval f dir 0x00 d
  (y, e ||| e')

/-- One element of sweep 1. -/
def msStep (f : Fmt) (d : Rnd) (a : MaxSum) (z : FVal) : MaxSum :=
  let one : FVal := .fin false 1 0
  if isNegInf z then a
  else if isLt (fCmp a.m z) then
    let (x, e1) := expDiff f d a.m z
    let (p, e2) := fMul f .rne a.l x
    let (s, e3) := fAdd f .rne p one
    ⟨z, s, a.e ||| e1 ||| e2 ||| e3⟩
  else
    let (x, e1) := expDiff f d z a.m
    let (s, e2) := fAdd f .rne a.l x
    ⟨a.m, s, a.e ||| e1 ||| e2⟩

/-- The merge of two lanes; a lane without an element contributes +0. -/
def msMerge (f : Fmt) (d : Rnd) (a b : MaxSum) : MaxSum :=
  let big := if isLt (fCmp a.m b.m) then b.m else a.m
  if isNegInf big then { a with e := a.e ||| b.e }
  else
    let term := fun (x : MaxSum) => if isNegInf x.m then (fZero, (0 : Exc)) else
      let (c, e1) := expDiff f d x.m big
      let (p, e2) := fMul f .rne x.l c
      (p, e1 ||| e2)
    let (p, e1) := term a
    let (q, e2) := term b
    let (s, e3) := fAdd f .rne p q
    ⟨big, s, a.e ||| b.e ||| e1 ||| e2 ||| e3⟩

/-- A row of softmax: its values, its statistics, and whether it was empty. What the rule writes as rne rounds to nearest, the rest in the
pass's direction d (R197, R204). -/
def softmaxRow (d : Rnd) (w : List Nat) (z : List Cell) : List Cell × MaxSum × Bool :=
  let f := pWk w
  let n := pLanes w
  let ez := joinExc (z.map Cell.e)
  -- sweep 3: the tangents of a row with the values ys (R213)
  let nt := (z.headD ⟨fZero, [], 0⟩).t.length
  let withTans := fun (ys : List Cell) =>
    let gs := (rangeFrom 0 nt).map fun k =>
      reduceRow (foldCell f d 0) (foldId 0 0) n (ys.map fun c =>
        let (p, e) := tMul f c.v (c.t.getD k fZero)
        ⟨p, [], e⟩)
    let eg := joinExc (gs.map Cell.e)
    ys.map fun c =>
      let (t, e) := zipTans (fun dz g =>
        let (s, e1) := tAdd f .rne true dz g
        let (r, e2) := tMul f c.v s
        (r, e1 ||| e2)) c.t (gs.map Cell.v)
      (⟨c.v, t, c.e ||| e ||| eg⟩ : Cell)
  if z.any fun c => c.v.isNan || isPosInf c.v then
    (withTans (z.map fun c => ⟨genNan, c.t, excNV⟩), ⟨genNan, genNan, ez ||| excNV⟩, false)
  else
    let lanes := (rangeFrom 0 n).map fun j =>
      (rangeFrom 0 (ceilDiv (z.length - j) n)).foldl (fun a q => msStep f d a ((z.getD (j + q * n) ⟨.inf true, [], 0⟩).v)) msEmpty
    let st := combine (msMerge f d) msEmpty lanes
    if isNegInf st.m then
      (z.map fun c => ⟨fZero, c.t.map fun _ => fZero, c.e⟩, st, true)
    else
      let (r, er) := funcEval f d 0x04 st.l
      let ys := z.map fun c =>
        let (x, e1) := expDiff f d c.v st.m
        let (y, e2) := fMul f .rne x r
        (⟨y, c.t, c.e ||| e1 ||| e2 ||| er ||| st.e⟩ : Cell)
      (withTans ys, st, false)

/-! ### Attention (R205 to R208) -/

/-- A dense operand of a product inside the pass; the pads of a scaled operand enter as they stand (R50). -/
def denseOpnd (rd : Nat → Byte) (fw base sBase cols : Nat) : Opnd :=
  let f := (fwFmt fw).getD .fp32
  let ext := if fwScaled fw then roundUp cols 32 else cols
  { rd := rd, fw := fw, base := base, stride := packedBytes f ext, sBase := sBase, zBase := 0, sStride := ceilDiv cols 32
    kLim := ext }

def fp32Cfg : AccCfg := ⟨.fp32, 0, false⟩

/-- The engine's value of one element over blocks first to first + n − 1, from a ZERO preload (R97). -/
def engineVal (a b : Opnd) (i j first n : Nat) : FVal :=
  let (e, _, _) := accRange fp32Cfg a b [] i j first n (zeroEntry .fp32, {}, false)
  (entryVal fp32Cfg e).getD genNan

/-- The state of a query row. -/
structure AttRow where
  m : FVal
  l : FVal
  o : List FVal
  e : Exc
  t : Tallies

/-- Where the codes of P are put for the engine to read: beyond every address. -/
def pBase : Nat := 2 ^ 80

/-- The row of P quantized (R137, R205): codes, scales, tallies. -/
def quantP (pf : Nat) (p : List FVal) (t : Tallies) : List Nat × List Nat × Tallies :=
  if fwScaled pf then
    (rangeFrom 0 (ceilDiv p.length 32)).foldl (fun acc b =>
      let r := quantBlock (pf - fld pf 10 2 * 2 ^ 10) ⟨0, 0, 0⟩ 0 false ((p.drop (32 * b)).take 32) {}
      (acc.1 ++ r.codes, acc.2.1 ++ [r.scale],
        { acc.2.2 with ovf := sat32 (acc.2.2.ovf + r.tallies.ovf), inv := sat32 (acc.2.2.inv + r.tallies.inv)
                       nanMade := acc.2.2.nanMade || r.tallies.nanMade })) ([], [], t)
  else
    let cs := p.map fun v => convertElem .bf16 (fwClamp pf) .rne false 0x7F 0 v
    let t := cs.foldl countConv t
    (cs.map Conv.bits, [], { t with flags := t.flags ||| joinExc (cs.map convExc) })

/-- One key block of a query row (R205). -/
def attStep (v : PassEnv) (w : List Nat) (i : Nat) (st : AttRow) (kb : Nat) : AttRow :=
  let hd := aHd w
  let cols := pCols w
  let keys := rangeFrom (128 * kb) 128
  -- every (i, j) of the query block of up to 128 rows is masked (R205)
  let r0 := i / 128 * 128
  let maskedAt := fun (r j : Nat) => decide (cols ≤ j)
    || (aCausal w && decide (fld (nth w 23) 0 32 + r < fld (nth w 23) 32 32 + j))
  if (rangeFrom r0 (min 128 (pRows w - r0))).all fun r => keys.all (maskedAt r) then st
  else
    let masked := maskedAt i
    let q := denseOpnd v.rd (pFmt w 0) (pSrc w 0) (pScale w 0) hd
    let k := denseOpnd v.rd (pFmt w 1) (pSrc w 1) (pScale w 1) hd
    let vv := denseOpnd v.rd (pFmt w 2) (pSrc w 2) (pScale w 2) cols
    let (c0, ec0) := passConst v w 20
    let z := keys.map fun j =>
      if masked j then ((FVal.inf true, (0 : Exc)))
      else
        let (x, e1) := fMul .fp32 .rne (engineVal q k i j 0 (ceilDiv hd 32)) c0
        if aMask w then
          let (y, e2) := fAdd .fp32 .rne x (envElem v .fp32 (nth w 22 + 4 * (i * cols + j)))
          (y, e1 ||| e2)
        else (x, e1)
    let ez := ec0 ||| joinExc (z.map Prod.snd)
    let mx := reduceRow (foldCell .fp32 .rne 1) (foldId 1 0) 256 (z.map fun x => ⟨x.1, [], 0⟩)
    let (mn, em, _) := fMinMax true st.m mx.v
    if isNegInf mn then { st with e := st.e ||| ez }
    else
      let (c, ec) := if isNegInf st.m then (fZero, 0) else expDiff .fp32 v.dir st.m mn
      let ps := z.map fun x => expDiff .fp32 v.dir x.1 mn
      let (codes, scales, t) := quantP (aPfmt w) (ps.map Prod.fst) st.t
      let pf := (fwFmt (aPfmt w)).getD .bf16
      let bytes := packCodes pf codes
      let rd := fun a =>
        if a < pBase then v.rd a
        else if a < 2 * pBase then bytes.getD (a - pBase) 0
        else BitVec.ofNat 8 (scales.getD (a - 2 * pBase) 0)
      let po : Opnd := { rd := rd, fw := aPfmt w, base := pBase - packedBytes pf (128 * kb), stride := 0
                         sBase := 2 * pBase - 4 * kb, zBase := 0, sStride := 0, kLim := 128 * kb + 128 }
      let vo := { vv with rd := rd }
      let dec := (rangeFrom 0 128).map fun j =>
        let u := if fwScaled (aPfmt w) then scales.getD (j / 32) 0 else 0x7F
        if u = 0xFF then genNan else scaledElem pf u 0 (codes.getD j 0)
      let sum := reduceRow (foldCell .fp32 v.dir 0) (foldId 0 0) 256 (dec.map fun x => ⟨x, [], 0⟩)
      let (lc, e1) := fMul .fp32 .rne st.l c
      let (l, e2) := fAdd .fp32 .rne lc sum.v
      let os := (List.zip (rangeFrom 0 hd) st.o).map fun p =>
        fFma .fp32 v.dir p.2 c (engineVal po vo 0 p.1 (4 * kb) (min 4 (ceilDiv cols 32 - 4 * kb)))
      { m := mn, l := l, o := os.map Prod.fst, t := t
        e := st.e ||| ez ||| em ||| ec ||| joinExc (ps.map Prod.snd) ||| sum.e ||| e1 ||| e2 ||| joinExc (os.map Prod.snd) }

/-- The output of a row from its sums, normalised or not (R204, R205). -/
def attOut (d : Rnd) (norm : Bool) (m l : FVal) (o : List FVal) : List Cell :=
  if isNegInf m then o.map fun _ => ⟨fZero, [], 0⟩
  else if !norm then o.map fun x => ⟨x, [], 0⟩
  else if m.isNan || l.isNan || isPosInf m then o.map fun _ => ⟨genNan, [], excNV⟩
  else
    let (r, e) := funcEval .fp32 d 0x04 l
    o.map fun x => let (y, e') := fMul .fp32 .rne x r; ⟨y, [], e ||| e'⟩

/-- A query row of ATTENTION: its output, its statistics, whether it was empty, its tallies for P. -/
def attentionRow (v : PassEnv) (w : List Nat) (i : Nat) : List Cell × MaxSum × Bool × Tallies :=
  let st := (rangeFrom 0 (ceilDiv (pCols w) 128)).foldl (attStep v w i)
    ⟨.inf true, fZero, List.replicate (aHd w) fZero, 0, {}⟩
  let out := attOut v.dir (aNorm w) st.m st.l st.o
  (out.map fun c => { c with e := c.e ||| st.e }, ⟨st.m, st.l, st.e⟩, isNegInf st.m, st.t)

/-- merge() of R207. -/
def segMerge (d : Rnd) (a b : AttRow) : AttRow :=
  let (big, _, _) := fMinMax true a.m b.m
  if isNegInf big then a
  else
    let fac := fun (x : AttRow) => if isNegInf x.m then (fZero, (0 : Exc)) else expDiff .fp32 d x.m big
    let (ca, e1) := fac a
    let (cb, e2) := fac b
    let (p, e3) := fMul .fp32 .rne a.l ca
    let (q, e4) := fMul .fp32 .rne b.l cb
    let (l, e5) := fAdd .fp32 .rne p q
    let os := List.zipWith (fun x y =>
      let (t, e) := fMul .fp32 .rne y cb
      let (r, e') := fFma .fp32 d x ca t
      (r, e ||| e')) a.o b.o
    { m := big, l := l, o := os.map Prod.fst, t := {}
      e := a.e ||| b.e ||| e1 ||| e2 ||| e3 ||| e4 ||| e5 ||| joinExc (os.map Prod.snd) }

/-- A row of ATT_MERGE (R207). -/
def mergeRow (v : PassEnv) (w : List Nat) (i : Nat) : List Cell × MaxSum × Bool × Tallies :=
  let segs := (rangeFrom 0 (fld (nth w 22) 0 8)).map fun g =>
    let st := pSeg w + 8 * (g * pRows w + i)
    ({ m := envElem v .fp32 st, l := envElem v .fp32 (st + 4), e := 0, t := {}
       o := (rangeFrom 0 (pCols w)).map fun d => envElem v .fp32 (pSrc w 0 + (g * pRows w + i) * pStrS w + 4 * d) } : AttRow)
  let r := combine (segMerge v.dir) ⟨.inf true, fZero, [], 0, {}⟩ segs
  let out := attOut v.dir (bit (nth w 22) 10) r.m r.l r.o
  (out.map fun c => { c with e := c.e ||| r.e }, ⟨r.m, r.l, r.e⟩, false, {})

/-! ### Factorizations (R209, R210) -/

abbrev Mat := List (List FVal)

def matGet (a : Mat) (i j : Nat) : FVal := (a.getD i []).getD j fZero
def matSet (a : Mat) (i j : Nat) (x : FVal) : Mat := a.set i ((a.getD i []).set j x)

/-- A factor in progress: the matrix, whether every pivot has passed so far, the pivots pinned, the pivot rows. -/
structure Factor where
  a : Mat
  ok : Bool
  fixed : Nat
  piv : List Nat
  e : Exc

/-- a − x · y in one rounding. -/
def fnmadd (d : Rnd) (a x y : FVal) : FVal × Exc := fFma .fp64 d (if x.isNan then x else x.negate) y a

/-- Column j of the right-looking update: every element (i, k) of rows and columns beyond j. -/
def updateBelow (d : Rnd) (rows : List Nat) (cols : Nat → List Nat) (x y : Nat → FVal) (st : Factor) : Factor :=
  rows.foldl (fun st i => (cols i).foldl (fun st k =>
    let (r, e) := fnmadd d (matGet st.a i k) (x i) (y k)
    { st with a := matSet st.a i k r, e := st.e ||| e }) st) st

/-- A pivot passes when d > PIVOT_TOL · r (R210): the outcome, the limit, the exceptions of forming it. -/
def pivotPass (d : Rnd) (p tol r : FVal) : Bool × FVal × Exc :=
  let (lim, e) := fMul .fp64 d tol r
  (isLt (fCmp lim p), lim, e ||| (if p.isNan || lim.isNan then excNV else 0))

/-- One column of CHOL on the lower triangle; diag holds the original diagonal. -/
def cholCol (d : Rnd) (n : Nat) (tol : FVal) (diag : List FVal) (fix : Bool) (st : Factor) (j : Nat) : Factor :=
  if !st.ok then st
  else
    let p := matGet st.a j j
    let (pass, lim, ep) := pivotPass d p tol (diag.getD j fZero)
    let st := { st with e := st.e ||| ep }
    if !pass && !fix then { st with ok := false }
    else
      let p := if pass then p else lim
      let (root, e) := fSqrt .fp64 d p
      let below := rangeFrom (j + 1) (n - j - 1)
      let st := { st with a := matSet st.a j j root, fixed := st.fixed + (if pass then 0 else 1), e := st.e ||| e }
      let st := below.foldl (fun st i =>
        let (q, e) := fDiv .fp64 d (matGet st.a i j) root
        { st with a := matSet st.a i j q, e := st.e ||| e }) st
      let col := st.a
      updateBelow d below (fun i => rangeFrom (j + 1) (i - j)) (fun i => matGet col i j) (fun k => matGet col k j) st

/-- The larger of two magnitudes with its row; the lower row on ties, a NaN over every number. -/
def pivotMax (a b : FVal × Nat) : FVal × Nat :=
  if a.1.isNan then a else if b.1.isNan then b else if isLt (fCmp a.1 b.1) then b else a

/-- The chosen pivot of column j among rows lo and below. -/
def choosePivot (a : Mat) (rows lo j : Nat) : FVal × Nat :=
  (rangeFrom (lo + 1) (rows - lo - 1)).foldl (fun m i => pivotMax m ((matGet a i j).abs, i)) ((matGet a lo j).abs, lo)

def swapRows (a : Mat) (i j : Nat) : Mat := (a.set i (a.getD j [])).set j (a.getD i [])

/-- One column of LU; big holds the largest magnitude of each original column. -/
def luCol (d : Rnd) (rows cols : Nat) (tol : FVal) (big : List FVal) (fix : Bool) (st : Factor) (j : Nat) : Factor :=
  if !st.ok then st
  else
    let (p, r) := choosePivot st.a rows j j
    let (pass, lim, ep) := pivotPass d p tol (big.getD j fZero)
    let st := { st with e := st.e ||| ep }
    if !pass && !fix then { st with ok := false }
    else
      let a := swapRows st.a j r
      let a := if pass then a else matSet a j j lim
      let pv := matGet a j j
      let below := rangeFrom (j + 1) (rows - j - 1)
      let st := { st with a := a, fixed := st.fixed + (if pass then 0 else 1), piv := st.piv ++ [r] }
      let st := below.foldl (fun st i =>
        let (q, e) := fDiv .fp64 d (matGet st.a i j) pv
        { st with a := matSet st.a i j q, e := st.e ||| e }) st
      let cur := st.a
      updateBelow d below (fun _ => rangeFrom (j + 1) (cols - j - 1)) (fun i => matGet cur i j) (fun k => matGet cur j k) st

/-- One attempt with d added to every diagonal entry. -/
def factorAttempt (w : List Nat) (dir : Rnd) (a : Mat) (damp : FVal) (fix : Bool) : Factor :=
  let rows := pRows w
  let cols := pCols w
  let tol := decodeElem .fp64 (nth w 23)
  let damped := (rangeFrom 0 cols).foldl (fun (m : Mat × Exc) i =>
    let (x, e) := fAdd .fp64 dir (matGet m.1 i i) damp
    (matSet m.1 i i x, m.2 ||| e)) (a, 0)
  let st : Factor := ⟨damped.1, true, 0, [], damped.2⟩
  if pKind w = kindChol then
    (rangeFrom 0 cols).foldl (cholCol dir cols tol ((rangeFrom 0 cols).map fun i => matGet a i i) fix) st
  else
    (rangeFrom 0 cols).foldl (luCol dir rows cols tol ((rangeFrom 0 cols).map fun j => (choosePivot a rows 0 j).1) fix) st

/-- The policy of R210: up to five damped attempts, then the fixed one. Answers the factor, the damped attempts made before
success, and whether it fell back. -/
def factorPolicy (w : List Nat) (dir : Rnd) (a : Mat) : Factor × Nat × Bool :=
  let n := pCols w
  let tau := (rangeFrom 0 n).foldl (fun (s : FVal × Exc) i => thenExc s fun x => fAdd .fp64 dir x (matGet a i i).abs) (fZero, 0)
  let damp := fun (t : Nat) =>
    let x := roundExc .fp64 dir ((decodeElem .fp64 (nth w 22)).scale t, 0)
    thenExc (thenExc x fun y => fMul .fp64 dir y tau.1) fun y => fDiv .fp64 dir y (.fin false n 0)
  let try_ := fun (t : Nat) (fix : Bool) =>
    let r := factorAttempt w dir a (damp t).1 fix
    { r with e := r.e ||| (damp t).2 }
  -- the exceptions of the attempts before attempt t stay
  let before := fun (t : Nat) => tau.2 ||| joinExc ((rangeFrom 0 t).map fun k => (try_ k false).e)
  match (rangeFrom 0 5).find? fun t => (try_ t false).ok with
  | some t => let r := try_ t false; ({ r with e := r.e ||| before t }, t, false)
  | none => let r := try_ 4 true; ({ r with e := r.e ||| before 5 }, 0, true)

/-- The rows of FP64 values that a factorization reads. -/
def factorRows (v : PassEnv) (w : List Nat) : Mat :=
  (rangeFrom 0 (pRows w)).map fun i => (rangeFrom 0 (pCols w)).map fun j =>
    let (a, b) := if pKind w = kindChol ∧ i < j then (j, i) else (i, j)
    envElem v .fp64 (pSrc w 0 + a * pStrS w + 8 * b)

/-! ### Ranges that a pass reads and writes -/

/-- The ranges that row i reads. -/
def rowReads (w : List Nat) (i : Nat) : List (Nat × Nat) :=
  let src := fun s =>
    if !srcUsed w s then []
    else
      let fw := pFmt w s
      let f := (fwFmt fw).getD .fp32
      let n := srcCols w s
      let nb := ceilDiv n 32
      let r := if pShape w s = 0 then i else 0
      [(pSrc w s + r * pStrS w, packedBytes f (if fwScaled fw then roundUp n 32 else n))]
      ++ (if fwScaled fw then [(pScale w s + r * nb, nb)] else [])
      ++ (if fwScaled fw && fwZp fw then [(pZp0 w + r * nb, nb)] else [])
  let tan := (rangeFrom 0 (pTans w)).flatMap fun k => (rangeFrom 0 2).flatMap fun s =>
    let a := nth w (22 + 3 * k + s)
    if a = 0 ∨ ¬ srcUsed w s then [] else
      [(a + (if pShape w s = 0 then i else 0) * pStrS w, srcCols w s * ((pWk w).width / 8))]
  let seg := if !pScanOn w then [] else match pSegKind w with
    | 1 => [(pSeg w + i * ceilDiv (pCols w) 8, ceilDiv (pCols w) 8)]
    | 2 => [(pSeg w + i * 4 * pCols w, 4 * pCols w)]
    | _ => []
  let q := pQcw w
  let scaledOut := pAmax w || fwScaled (pFmt w 3)
  let quant := if !pQuantOn w then [] else
    (if qSmooth q && scaledOut then [(pSmooth w, pCols w)] else [])
    ++ (if qApply q && scaledOut then [(pSummary w, 2368)] else [])
  match pKind w with
  | 2 =>
    let hd := aHd w
    let dense := fun s rows cols r0 =>
      let fw := pFmt w s
      let f := (fwFmt fw).getD .fp32
      let row := packedBytes f (if fwScaled fw then roundUp cols 32 else cols)
      [(pSrc w s + r0 * row, rows * row)]
        ++ (if fwScaled fw then [(pScale w s + r0 * ceilDiv cols 32, rows * ceilDiv cols 32)] else [])
    dense 0 1 hd i ++ dense 1 (pCols w) hd 0 ++ dense 2 hd (pCols w) 0
      ++ (if aMask w then [(nth w 22 + 4 * i * pCols w, 4 * pCols w)] else [])
  | 3 => (rangeFrom 0 (fld (nth w 22) 0 8)).flatMap fun g =>
      [(pSrc w 0 + (g * pRows w + i) * pStrS w, 4 * pCols w), (pSeg w + 8 * (g * pRows w + i), 8)]
  | 4 | 5 => [(pSrc w 0 + i * pStrS w, 8 * pCols w)]
  | _ => src 0 ++ src 1 ++ src 2 ++ tan ++ seg ++ quant

/-- Output elements of a row. -/
def outCols (w : List Nat) : Nat :=
  if pKind w = kindAttention then aHd w else if pRedOn w then 1 else pCols w

/-- Where row i of the destination begins. -/
def outAddr (w : List Nat) (i : Nat) : Nat :=
  if pRedOn w then pDst w + i * (((fwFmt (pFmt w 3)).getD .fp32).width / 8) else pDst w + i * pStrD w

/-- A row's statistics as two values of a format. -/
def statBytes (f : Fmt) (st : MaxSum) : List Byte := leBytes (f.width / 8) (packVal f st.m) ++ leBytes (f.width / 8) (packVal f st.l)

/-! ### The rows of a pass -/

/-- What one row leaves. -/
structure RowOut where
  writes : List (Nat × List Byte) := []
  tallies : Tallies := {}
  /-- Values written, for the watcher (R172). -/
  vals : List FVal := []
  count : Nat := 0
  /-- The row's part fails, with the event to raise, if there is one. -/
  fail : Option (Option (BitVec 16)) := none
  events : List (BitVec 16) := []
  /-- The values that an amax pass folds. -/
  amax : List FVal := []

/-- STORE of a row's lanes (R67, R71, R190, R213). Its conversions raise the flags that V.CVT raises (R64, R235; log entry 136). -/
def storeRow (v : PassEnv) (w : List Nat) (i : Nat) (cs : List Cell) (t : Tallies) : RowOut :=
  let fw := pFmt w 3
  let f := (fwFmt fw).getD .fp32
  let n := outCols w
  let key : SrKey := ⟨v.seed, v.step, pTensor w⟩
  let conv := fun (k : Nat) (x : FVal) =>
    convertElem f (fwClamp fw) (fwRounding fw (srValue key (pIbase w + i * n + k))) false 0x7F 0 x
  let out := List.zipWith (fun k (c : Cell) => conv k c.v) (rangeFrom 0 cs.length) cs
  -- the tangent tensors that the pass writes: where, and their conversions (R60, R211, R213)
  let tans := (rangeFrom 0 (pTans w)).flatMap fun k =>
    let a := nth w (24 + 3 * k)
    let base := if pRedOn w then a + i * (f.width / 8) else a + i * pStrD w
    if a = 0 then [] else
      [(base, List.zipWith (fun q (c : Cell) => conv q (tPass (c.t.getD k fZero))) (rangeFrom 0 cs.length) cs)]
  let all := out ++ tans.flatMap Prod.snd
  let sig := sigExc (cs.map Cell.v) ||| (if tans = [] then 0 else joinExc (cs.map fun c => sigExc c.t))
  let toInt := if all.any Conv.nanInt then excNV else 0
  let ex := joinExc (all.map convExc) ||| sig ||| toInt
  let t := all.foldl countConv t
  { writes := (outAddr w i, packCodes f (out.map Conv.bits)) :: tans.map fun p => (p.1, packCodes f (p.2.map Conv.bits))
    tallies := { t with flags := t.flags ||| ex ||| joinExc (cs.map Cell.e) }
    vals := all.map fun c => decodeElem f c.bits
    count := all.length }

/-- The smoothing array (R162). -/
def smoothList (v : PassEnv) (w : List Nat) : List Int := (rangeFrom (pSmooth w) (pCols w)).map fun a => (v.rd a).toInt

/-- The inlay list of a quantize pass: none where the pass has none, some none where its summary is stale. -/
def passList (v : PassEnv) (w : List Nat) : Option (Option (List Nat)) :=
  if qApply (pQcw w) && fwScaled (pFmt w 3) then
    some (summaryList (if v.head = [] then (rangeFrom (pSummary w) 2368).map v.rd else v.head) (pQcw w) v.step)
  else none

/-- Decoded values of a quantized row, invalid blocks left out, inlay values with them (R172). -/
def quantVals (fw n : Nat) (r : QRow) : List FVal :=
  let f := (fwFmt fw).getD .e2m1
  ((rangeFrom 0 n).filter fun j => r.scales.getD (j / 32) 0 != 0xFF).map
    (fun j => scaledElem f (r.scales.getD (j / 32) 0) (r.zps.getD (j / 32) 0) (r.codes.getD j 0))
  ++ r.inlay.map (decodeElem .bf16)

/-- QUANT and STORE of a row (R137, R138). Only a 0xFF block of SRC0 makes the destination block invalid: one of another source gives
NaN values (R154, R157; log entry 146, DESIGN CHOICE). A zero point that a scale held at 254 leaves beyond INT8 is stored modulo 256 (R153;
log entry 144, DESIGN CHOICE). -/
def quantOut (v : PassEnv) (w : List Nat) (i : Nat) (cs : List Cell) : RowOut :=
  let fw := pFmt w 3
  let q := pQcw w
  let flags := joinExc (cs.map Cell.e)
  if !pAmax w && !fwScaled fw then
    storeRow v w i cs {}
  else
    let shifts := if qSmooth q then smoothList v w else []
    if shifts.any (fun s => !smoothOk s) then { fail := some (some evQuantStale) }
    else
      let (l, ep) := prepRow (pWk w) v.seed q shifts (cs.map Cell.v)
      let flags := flags ||| ep
      if pAmax w then { amax := l, tallies := { flags := flags } }
      else
        let n := pCols w
        let bad := prepBad q ((rangeFrom 0 n).map fun j => (srcVal v w 0 i j).2)
        let key : SrKey := ⟨v.seed, v.step, pTensor w⟩
        let x := pIbase w + i * n
        let (r, stale) := match passList v w with
          | some none => (staleRow n { flags := flags }, true)
          | some (some list) => (quantRow fw key x list bad l { flags := flags }, false)
          | none => (quantRow fw key x [] bad l { flags := flags }, false)
        let nb := ceilDiv n 32
        let inl := if r.inlay = [] then [] else
          let k := roundUp r.inlay.length 32
          [(pInlay w + i * 2 * k, packCodes .bf16 (r.inlay ++ List.replicate (k - r.inlay.length) 0))]
        { writes := [(pDst w + i * pStrD w, packCodes ((fwFmt fw).getD .e2m1) r.codes),
                     (pDscale w + i * nb, r.scales.map (BitVec.ofNat 8))]
                    ++ (if fwZp fw then [(pDzp w + i * nb, r.zps.map (BitVec.ofInt 8))] else []) ++ inl
          tallies := r.tallies, vals := quantVals fw n r, count := n
          events := if stale then [evQuantStale] else [] }

/-- One row of GENERAL or SOFTMAX. -/
def generalRow (v : PassEnv) (w : List Nat) (i : Nat) : RowOut :=
  let f := pWk w
  let id := fun code => foldId code (pTans w)
  let cs := (rangeFrom 0 (pCols w)).map (mulAdd v w i)
  if pKind w = kindSoftmax then
    let (ys, st, empty) := softmaxRow v.dir w cs
    let r := storeRow v w i ys { softmaxEmpty := bnat empty, flags := st.e }
    if pSeg w = 0 then r else { r with writes := r.writes ++ [(pSeg w + i * 2 * (f.width / 8), statBytes f st)] }
  else
    match (if pScanOn w then segStarts v w i else some []) with
    | none => { fail := some (some evSegMismatch) }
    | some start =>
      let cs := if pScanOn w then
          scanRow (scanCell f v.dir (pScanOp w)) (id (pScanOp w)) (pLanes w) (pExcl w) start cs
        else cs
      let cs := if pFuncOn w then cs.map (funcCell v w) else cs
      let cs := if pRedOn w then
          [reduceRow (foldCell f v.dir (pRed w)) (id (pRed w)) (pLanes w) (cs.map (redCell (pRed w)))]
        else cs
      if pQuantOn w then quantOut v w i cs else storeRow v w i cs {}

/-- One row of ATTENTION or ATT_MERGE. -/
def fusedRow (v : PassEnv) (w : List Nat) (i : Nat) : RowOut :=
  let (cs, st, empty, t) := if pKind w = kindAttention then attentionRow v w i else mergeRow v w i
  let r := storeRow v w i cs { t with softmaxEmpty := bnat empty }
  let stat := if pKind w = kindAttention then pSeg w else nth w 23
  if stat = 0 then r else { r with writes := r.writes ++ [(stat + 8 * i, statBytes .fp32 st)] }

/-- A whole factorization (R209, R210): its rows are stored together. -/
def factorOut (v : PassEnv) (w : List Nat) : RowOut :=
  let (st, retry, fell) := factorPolicy w v.dir (factorRows v w)
  let rows := (rangeFrom 0 (pRows w)).map fun i =>
    storeRow v w i ((rangeFrom 0 (pCols w)).map fun j =>
      ⟨if pKind w = kindChol ∧ i < j then fZero else matGet st.a i j, [], 0⟩) {}
  let piv := if pKind w = kindLu then [(nth w 24, st.piv.flatMap fun r => leBytes 4 r)] else []
  { writes := rows.flatMap RowOut.writes ++ piv
    tallies := { factorRetry := retry, pivotFix := st.fixed, flags := st.e, nanMade := rows.any fun r => r.tallies.nanMade
                 ovf := rows.foldl (fun n r => sat32 (n + r.tallies.ovf)) 0 }
    vals := rows.flatMap RowOut.vals, count := pRows w * pCols w
    events := if fell then [evFactorFallback] else [] }

/-- Row i of a pass that is divided by rows. -/
def passRow (v : PassEnv) (w : List Nat) (i : Nat) : RowOut :=
  match pKind w with
  | 0 | 1 => generalRow v w i
  | _ => fusedRow v w i

/-- The pass is a factorization, which is never divided (R198). -/
def pFactor (w : List Nat) : Bool := pKind w == kindChol || pKind w == kindLu

end Sys2Proof.Machine
end

