-- ==== Sys2Proof/Machine/Ladder.lean ====
section
/-!
DEFINITION. Watching and the fall-back ladder (R167 to R187): tags, rungs, watch blocks, the ladder table, the watchers and
the decisions of a commit; and the commit record and layer slot records that they stand on (R254, R255, R278, R301).
-/

namespace Sys2Proof.Machine

open Sys2Proof

/-! ### The regions of a job (R300, R301) -/

/-- A number in a job's memory; 0 where it cannot be read. -/
def jobNat (s : State) (j : Job) (va n : Nat) : Nat := (vaNat s (s.job j).ctx va n).getD 0

/-- Writes bytes into a job's memory, where the pages let it; an error in a table is reported (R307). -/
def jobWrite (s : State) (j : Job) (va : Nat) (data : List Byte) : State :=
  (vaWrite s (s.job j).ctx va data).getD (noteVaWrite s (s.job j).ctx va data.length)

/-- Word i of the job's commit record (R278). -/
def commitWord (s : State) (j : Job) (i : Nat) : Nat := jobNat s j ((s.job j).update.toNat + 8 * i) 8

/-- The weight epoch E of a job (R254). -/
def jobEpoch (s : State) (j : Job) : Nat := commitWord s j 0

/-- The last committed step. -/
def jobStep (s : State) (j : Job) : Nat := fld (commitWord s j 2) 0 32

/-- The live copy of the ladder table. -/
def ladderCopy (s : State) (j : Job) : Nat := fld (commitWord s j 4) 8 1

/-- Layer slot record i of a job (R256, R301). -/
def slotRecord (s : State) (j : Job) (i : Nat) : Nat := (s.job j).update.toNat + 0x2001000 + 64 * i

/-- The tag of a slot that holds nothing (R254). -/
def tagVoid : Nat := 0xFFFFFFFF

/-- Which slot of a pair is live under epoch e: 0 for A, 1 for B (R255). -/
def liveSlot (e ta tb : Nat) : Option Nat :=
  let va := decide (ta ≠ tagVoid ∧ ta ≤ e)
  let vb := decide (tb ≠ tagVoid ∧ tb ≤ e)
  if va && vb then (if ta < tb then some 1 else some 0)
  else if va then some 0
  else if vb then some 1
  else none

/-! ### Tags (R167, R168) -/

def tagLayer (t : Nat) : Nat := fld t 0 12
def tagPass (t : Nat) : Nat := fld t 12 1
def tagWatch (t : Nat) : Bool := bit t 13
def tagManaged (t : Nat) : Bool := bit t 14
def tagOwner (t : Nat) : Bool := bit t 15

/-- The layers of a job: those of the policy in force, none before one is (R168, R178). -/
def jobLayers (s : State) (j : Job) : Nat := match (s.job j).policy with
  | some p => p.nlayers
  | none => 0

/-- A tag that R168 refuses; narrow is whether every narrow tensor is FP4-E2M1 with SCALE = 0b01. -/
def tagBad (s : State) (j : Option Job) (t : Nat) (update narrow : Bool) : Bool :=
  if tagLayer t = 0xFFF then t != 0xFFF
  else (match j with
    | none => true
    | some j => decide (jobLayers s j ≤ tagLayer t))
    || (tagOwner t && !update) || (tagManaged t && !narrow)

/-- A format word of a narrow tensor. -/
def fwNarrow (w : Nat) : Bool := !((fwFmt w).getD .fp64).isWide

/-- Every narrow tensor among format words is FP4-E2M1 with SCALE = 0b01 (R168). -/
def allFp4 (ws : List Nat) : Bool := ws.all fun w => !fwNarrow w || (fwFmt w == some .e2m1 && fwScaled w)

/-! ### Rungs (R169, R170) -/

/-- A format word rewritten to a rung; CLAMP and RND are kept. role 2 is GRAD. -/
def rungWord (rung role w : Nat) : Nat :=
  if fwFmt w = some .e2m1 ∧ fwScaled w = true then
    let keep := w / 2 ^ 8 * 2 ^ 8
    match rung with
    | 0 => w
    | 1 => keep + 0x16
    | 2 => keep + (if role = 2 then 0x15 else 0x14)
    | _ => keep + 0x02
  else w

/-- The address of a layer's record in a copy of the ladder table. -/
def ladderAddr (s : State) (j : Job) (copy n l : Nat) : Nat := (s.job j).ladder.toNat + 64 * (copy * n + l)

/-- The rung of a (layer, pass) in the live table (R170, R180). -/
def liveRung (s : State) (j : Job) (layer pass : Nat) : Nat :=
  jobNat s j (ladderAddr s j (ladderCopy s j) (jobLayers s j) layer + pass) 1 % 4

/-- A managed descriptor of a step may be executed (R170). -/
def stepOk (s : State) (j : Job) (step : Nat) : Bool := step == (jobStep s j + 1) % 2 ^ 32

/-! ### Watch blocks (R172 to R174) -/

/-- A sum held at its bound. -/
def satSum (n a b : Nat) : Nat := min (a + b) (2 ^ n - 1)

/-- A sum of squares exceeds the field. -/
def ssqFull (a b : Nat) : Bool := decide (2 ^ 640 - 1 < a + b)

/-- Two blocks merged field by field (R174). -/
def watchMerge (a b : WatchBlock) : WatchBlock :=
  { ssqA := satSum 640 a.ssqA b.ssqA, ssqG := satSum 640 a.ssqG b.ssqG, ssqDw := satSum 640 a.ssqDw b.ssqDw
    ssqW := satSum 640 a.ssqW b.ssqW, cntA := satSum 64 a.cntA b.cntA, cntG := satSum 64 a.cntG b.cntG
    cntF := satSum 64 a.cntF b.cntF, cntB := satSum 64 a.cntB b.cntB, ovfF := satSum 32 a.ovfF b.ovfF
    ovfB := satSum 32 a.ovfB b.ovfB, invF := satSum 32 a.invF b.invF, invB := satSum 32 a.invB b.invB
    nfA := satSum 32 a.nfA b.nfA, nfG := satSum 32 a.nfG b.nfG, nanF := a.nanF || b.nanF, nanB := a.nanB || b.nanB
    satA := a.satA || b.satA || ssqFull a.ssqA b.ssqA, satG := a.satG || b.satG || ssqFull a.ssqG b.ssqG
    satR := a.satR || b.satR || ssqFull a.ssqDw b.ssqDw || ssqFull a.ssqW b.ssqW, owned := a.owned || b.owned
    updAmax := if a.updAmax.toNat < b.updAmax.toNat then b.updAmax else a.updAmax }

/-- The square of a finite value in units of 2^−298, truncated (R173). -/
def sqUnits (m : Nat) (e : Int) : Nat :=
  let k := 2 * e + 298
  if 0 ≤ k then m * m * 2 ^ k.toNat else m * m / 2 ^ (-k).toNat

/-- The sum of the squares of the finite values among written ones; how many are finite, and how many are not. -/
def squares (vs : List FVal) : Nat × Nat × Nat :=
  vs.foldl (fun acc v => match v with
    | .fin _ m e => (acc.1 + sqUnits m e, acc.2.1 + 1, acc.2.2)
    | _ => (acc.1, acc.2.1, acc.2.2 + 1)) (0, 0, 0)

/-- What a write adds to its layer's block (R172): its values, its element count, its tallies. -/
def watchOf (t : Nat) (vals : List FVal) (count : Nat) (ts : Tallies) : WatchBlock :=
  let w : WatchBlock := if tagPass t = 0 then { cntF := count, ovfF := sat32 ts.ovf, invF := sat32 ts.inv, nanF := ts.nanMade }
    else { cntB := count, ovfB := sat32 ts.ovf, invB := sat32 ts.inv, nanB := ts.nanMade }
  if tagWatch t then
    let (q, n, nf) := squares vals
    let full := ssqFull q 0
    if tagPass t = 0 then { w with ssqA := satSum 640 q 0, cntA := n, nfA := sat32 nf, satA := full }
    else { w with ssqG := satSum 640 q 0, cntG := n, nfG := sat32 nf, satG := full }
  else w

/-- The key of a layer's block of a step. -/
def watchKey (step layer : Nat) : Nat := step * 4096 + layer

/-- Adds a contribution to a table of blocks. -/
def addWatch (w : Tab WatchBlock) (k : Nat) (b : WatchBlock) : Tab WatchBlock := tabSet {} w k (watchMerge (tabGet {} w k) b)

/-- The flags word of a block. -/
def watchFlags (b : WatchBlock) : Nat :=
  bnat b.nanF + 2 * bnat b.nanB + 4 * bnat b.satA + 8 * bnat b.satG + 16 * bnat b.satR + 32 * bnat b.owned

/-- The 384 bytes of a block (R174). -/
def watchBytes (b : WatchBlock) : List Byte :=
  leBytes 80 b.ssqA ++ leBytes 80 b.ssqG ++ leBytes 80 b.ssqDw ++ leBytes 80 b.ssqW
  ++ leBytes 8 b.cntA ++ leBytes 8 b.cntG ++ leBytes 8 b.cntF ++ leBytes 8 b.cntB
  ++ leBytes 4 b.ovfF ++ leBytes 4 b.ovfB ++ leBytes 4 b.invF ++ leBytes 4 b.invB ++ leBytes 4 b.nfA ++ leBytes 4 b.nfG
  ++ leBytes 4 (watchFlags b) ++ leBytes 4 b.updAmax.toNat

/-- The block that 384 bytes hold. -/
def watchOfBytes (l : List Byte) : WatchBlock :=
  let at_ := fun o n => ofLE ((l.drop o).take n)
  let f := at_ 376 4
  { ssqA := at_ 0 80, ssqG := at_ 80 80, ssqDw := at_ 160 80, ssqW := at_ 240 80, cntA := at_ 320 8, cntG := at_ 328 8
    cntF := at_ 336 8, cntB := at_ 344 8, ovfF := at_ 352 4, ovfB := at_ 356 4, invF := at_ 360 4, invB := at_ 364 4
    nfA := at_ 368 4, nfG := at_ 372 4, nanF := bit f 0, nanB := bit f 1, satA := bit f 2, satG := bit f 3, satR := bit f 4
    owned := bit f 5, updAmax := BitVec.ofNat 32 (at_ 380 4) }

/-- Where the job-wide block of a layer and step lies: half step mod 2 of the watch region (R300). -/
def watchAddr (s : State) (j : Job) (step layer : Nat) : Nat :=
  (s.job j).watch.toNat + 384 * (step % 2 * jobLayers s j + layer)

/-! ### Ladder records (R180) -/

/-- The 64 bytes of a record. -/
def ladderBytes (r : LadderRec) : List Byte :=
  leBytes 1 r.rungF ++ leBytes 1 r.rungB ++ leBytes 1 r.streakA ++ leBytes 1 r.streakG ++ leBytes 4 r.holdF.toNat
  ++ leBytes 4 r.holdB.toNat ++ leBytes 2 r.obsA ++ leBytes 2 r.obsG ++ leBytes 8 r.meanA.toNat ++ leBytes 8 r.meanG.toNat
  ++ leBytes 2 (ofSigned 16 r.kshift) ++ leBytes 1 r.lastF ++ leBytes 1 r.lastB ++ leBytes 4 r.step.toNat
  ++ leBytes 4 r.ups ++ leBytes 4 r.downs ++ leBytes 4 r.capped ++ leBytes 12 0

/-- The record that 64 bytes hold. -/
def ladderOfBytes (l : List Byte) : LadderRec :=
  let at_ := fun o n => ofLE ((l.drop o).take n)
  { rungF := at_ 0 1 % 4, rungB := at_ 1 1 % 4, streakA := at_ 2 1, streakG := at_ 3 1, holdF := BitVec.ofNat 32 (at_ 4 4)
    holdB := BitVec.ofNat 32 (at_ 8 4), obsA := at_ 12 2, obsG := at_ 14 2, meanA := BitVec.ofNat 64 (at_ 16 8)
    meanG := BitVec.ofNat 64 (at_ 24 8), kshift := toSigned 16 (at_ 32 2), lastF := at_ 34 1, lastB := at_ 35 1
    step := BitVec.ofNat 32 (at_ 36 4), ups := at_ 40 4, downs := at_ 44 4, capped := at_ 48 4 }

/-- The records of a copy, for n layers. -/
def ladderTable (s : State) (j : Job) (copy n : Nat) : List LadderRec :=
  (rangeFrom 0 n).map fun l =>
    match vaRead s (s.job j).ctx (ladderAddr s j copy n l) 64 with
    | some (b, _) => ladderOfBytes b
    | none => {}

/-- Writes the records of a copy; those of the layers named in bad are written poisoned (R293). -/
def writeLadder (s : State) (j : Job) (copy : Nat) (l : List LadderRec) (bad : List Nat := []) : State :=
  (List.zip (rangeFrom 0 l.length) l).foldl (fun s r =>
    let a := ladderAddr s j copy l.length r.1
    (vaWrite s (s.job j).ctx a (ladderBytes r.2) (bad.contains r.1)).getD (noteVaWrite s (s.job j).ctx a 64)) s

/-! ### The policy (R178, R179) -/

/-- The fields of a policy block. -/
def policyOfWords (w : List Nat) (ov : List Byte) : Policy :=
  let f := fld (nth w 0) 56 8
  { jumpLog2 := fld (nth w 0) 0 8, alphaLog2 := fld (nth w 0) 8 8, warmup := fld (nth w 0) 16 8, reseed := fld (nth w 0) 24 8
    ovfShift := fld (nth w 0) 32 8, floor := fld (nth w 0) 40 8, ceil := fld (nth w 0) 48 8, ladderEn := bit f 0
    ratioEn := bit f 1, lrscaleEn := bit f 2, init := bit f 3, hold := fld (nth w 1) 0 16, maxRaised := fld (nth w 1) 16 16
    nlayers := fld (nth w 1) 32 32, ratioLo := BitVec.ofNat 64 (nth w 2), ratioHi := BitVec.ofNat 64 (nth w 3)
    effective := BitVec.ofNat 32 (nth w 4), overrides := ov }

/-- An FP64 number above another, both finite or the greater infinite. -/
def above64 (a b : Nat) : Bool := isLt (fCmp (decodeElem .fp64 b) (decodeElem .fp64 a))

/-- A policy block that R179 refuses, reserved fields included (R8); its override bytes as well. -/
def policyBad (w : List Nat) (p : Policy) (last : Nat) : Bool :=
  decide (p.jumpLog2 < 1 ∨ 15 < p.jumpLog2 ∨ p.alphaLog2 < 1 ∨ 12 < p.alphaLog2 ∨ p.warmup < 1 ∨ p.reseed < 1)
  || decide (40 < p.ovfShift ∨ p.ceil < p.floor ∨ 3 < p.ceil ∨ 15 < fld (nth w 0) 56 8 ∨ p.hold < 1)
  || decide ((4095 < p.maxRaised ∧ p.maxRaised ≠ 0xFFFF) ∨ p.nlayers < 1 ∨ 4095 < p.nlayers)
  || (decodeElem .fp64 (nth w 2)).isInf || !above64 (nth w 2) 0 || !above64 (nth w 3) (nth w 2)
  || decide (fld (nth w 4) 32 32 ≠ 0 ∨ nth w 6 ≠ 0 ∨ nth w 7 ≠ 0)
  || p.overrides.any (fun b => decide (15 < b.toNat ∨ b.toNat / 4 < b.toNat % 4))
  || (!p.init && decide (p.effective.toNat ≤ last + 1))

/-- The floor of a layer. -/
def floorOf (p : Policy) (l : Nat) : Nat := match p.overrides[l]? with
  | some b => b.toNat % 4
  | none => p.floor

/-- The ceiling of a layer. -/
def ceilOf (p : Policy) (l : Nat) : Nat := match p.overrides[l]? with
  | some b => b.toNat / 4 % 4
  | none => p.ceil

/-- A layer's rungs of the two passes and their holds. -/
def rungOf (r : LadderRec) (q : Nat) : Nat := if q = 0 then r.rungF else r.rungB
def holdOf (r : LadderRec) (q : Nat) : Nat := if q = 0 then r.holdF.toNat else r.holdB.toNat
def setRung (r : LadderRec) (q x : Nat) : LadderRec := if q = 0 then { r with rungF := x } else { r with rungB := x }
def setHold (r : LadderRec) (q x : Nat) : LadderRec :=
  if q = 0 then { r with holdF := BitVec.ofNat 32 x } else { r with holdB := BitVec.ofNat 32 x }

/-- A rung clamped into [floor, ceiling], with a new hold where it changes. -/
def clampRung (p : Policy) (step l q : Nat) (r : LadderRec) : LadderRec :=
  let x := min (max (rungOf r q) (floorOf p l)) (ceilOf p l)
  if x = rungOf r q then r else setHold (setRung r q x) q (step + p.hold)

/-- A policy applied to a table at the commit of a step (R179); layers that it adds begin as zeroed records. -/
def applyPolicy (p : Policy) (step : Nat) (l : List LadderRec) : List LadderRec :=
  List.zipWith (fun i r =>
    if p.init then
      { r with rungF := floorOf p i, rungB := floorOf p i, holdF := 0, holdB := 0, obsA := 0, obsG := 0, streakA := 0
               streakG := 0, kshift := 0, meanA := 0, meanG := 0 }
    else clampRung p step i 1 (clampRung p step i 0 r))
    (rangeFrom 0 p.nlayers) (l.take p.nlayers ++ List.replicate (p.nlayers - l.length) ({} : LadderRec))

/-! ### Watchers and events (R176, R177) -/

def classNone : Nat := 0
def classNonfin : Nat := 1
def classTally : Nat := 2
def classWatch : Nat := 3
def classRatio : Nat := 4

/-- A watcher's state: mean, observations, streak. -/
structure Watcher where
  mean : FVal
  obs : Nat
  streak : Nat

def rne64 (v : FVal) : FVal := (ieeeRound .fp64 .rne v).1

/-- observe() of R176. -/
def observe (p : Policy) (ssq cnt nf : Nat) (sat : Bool) (w : Watcher) : Nat × Watcher :=
  if 0 < nf || sat then (classNonfin, w)
  else if cnt = 0 then (classNone, w)
  else
    let op2 := fun (g : Fmt → Rnd → FVal → FVal → FVal × Exc) a b => (g .fp64 .rne a b).1
    let n := (fSqrt .fp64 .rne (op2 fDiv (rne64 (.fin false ssq (-298))) (rne64 (.fin false cnt 0)))).1
    if w.obs < p.warmup then
      let k := w.obs + 1
      (classNone, { w with obs := k, mean := op2 fAdd w.mean (op2 fDiv (op2 fSub n w.mean) (.fin false k 0)) })
    else
      let j : FVal := .fin false (2 ^ p.jumpLog2) 0
      if isLt (fCmp (op2 fMul w.mean j) n) || isLt (fCmp (op2 fMul n j) w.mean) then
        if p.reseed ≤ w.streak + 1 then (classWatch, { w with mean := n, streak := 0 })
        else (classWatch, { w with streak := w.streak + 1 })
      else
        (classNone, { w with streak := 0, mean := op2 fAdd w.mean (rne64 ((op2 fSub n w.mean).scale (-(p.alphaLog2 : Int)))) })

/-- The ratio condition of R177, with the layer's KSHIFT of the step. -/
def ratioEvent (p : Policy) (b : WatchBlock) (k : Int) : Bool :=
  let f := fun x => rne64 (.fin false x (-298))
  let q := (fSqrt .fp64 .rne (fDiv .fp64 .rne (f b.ssqDw) (f b.ssqW)).1).1
  let rho := rne64 (q.scale (-k))
  p.ratioEn && b.owned && decide (0 < b.ssqW)
    && (b.satR || isLt (fCmp rho (decodeElem .fp64 p.ratioLo.toNat)) || isLt (fCmp (decodeElem .fp64 p.ratioHi.toNat) rho))

/-- The event class of a pass, and its watcher's record after it. -/
def passEvent (p : Policy) (b : WatchBlock) (k : Int) (q : Nat) (r : LadderRec) : Nat × LadderRec :=
  let w : Watcher := if q = 0 then ⟨decodeElem .fp64 r.meanA.toNat, r.obsA, r.streakA⟩
    else ⟨decodeElem .fp64 r.meanG.toNat, r.obsG, r.streakG⟩
  let (ev, w) := if q = 0 then observe p b.ssqA b.cntA b.nfA b.satA w else observe p b.ssqG b.cntG b.nfG b.satG w
  let mean := BitVec.ofNat 64 (packVal .fp64 w.mean)
  let r := if q = 0 then { r with meanA := mean, obsA := w.obs, streakA := w.streak }
    else { r with meanG := mean, obsG := w.obs, streakG := w.streak }
  let (ovf, cnt, inv, nan) := if q = 0 then (b.ovfF, b.cntF, b.invF, b.nanF) else (b.ovfB, b.cntB, b.invB, b.nanB)
  let c := if ev = classNonfin then classNonfin
    else if decide (cnt < ovf * 2 ^ p.ovfShift) || decide (0 < inv) || nan then classTally
    else if ev = classWatch then classWatch
    else if q = 1 && ratioEvent p b k then classRatio
    else classNone
  (c, if q = 0 then { r with lastF := c } else { r with lastB := c })

/-! ### Decisions (R181, R183) -/

/-- A table under decision: records, how many layers are raised, the events to emit as code, layer, pass, class. -/
structure Decision where
  recs : List LadderRec
  raised : Nat
  emits : List (BitVec 16 × Nat × Nat × Nat)

def Decision.get (d : Decision) (l : Nat) : LadderRec := d.recs.getD l ({} : LadderRec)
def Decision.put (d : Decision) (l : Nat) (r : LadderRec) : Decision := { d with recs := d.recs.set l r }
def Decision.tell (d : Decision) (c : BitVec 16) (l q k : Nat) : Decision := { d with emits := d.emits ++ [(c, l, q, k)] }

/-- The (layer, pass) pairs in order, FWD before BWD. -/
def layerPasses (n : Nat) : List (Nat × Nat) := (rangeFrom 0 n).flatMap fun l => [(l, 0), (l, 1)]

/-- The move down of a pass without an event. -/
def moveDown (p : Policy) (s : Nat) (ev : Nat → Nat → Nat) (d : Decision) (x : Nat × Nat) : Decision :=
  let (l, q) := x
  let r := d.get l
  if ev l q = classNone ∧ holdOf r q ≤ s ∧ floorOf p l < rungOf r q then
    let r := setHold (setRung r q (rungOf r q - 1)) q (s + p.hold)
    (d.put l { r with downs := sat32 (r.downs + 1) }).tell evLadderDown l q classNone
  else d

/-- The raise of a pass whose event is of class c. -/
def raisePass (p : Policy) (s : Nat) (ev : Nat → Nat → Nat) (c : Nat) (d : Decision) (x : Nat × Nat) : Decision :=
  let (l, q) := x
  let r := d.get l
  if ev l q ≠ c then d
  else if ceilOf p l ≤ rungOf r q then (d.put l (setHold r q (s + p.hold))).tell evLadderCeiling l q c
  else
    let fresh := rungOf r 0 = floorOf p l ∧ rungOf r 1 = floorOf p l
    if fresh ∧ p.maxRaised ≠ 0xFFFF ∧ p.maxRaised ≤ d.raised then
      (d.put l { r with capped := sat32 (r.capped + 1) }).tell evLadderCapped l q c
    else
      let r := setHold (setRung r q (rungOf r q + 1)) q (s + p.hold)
      let d := (d.put l { r with ups := sat32 (r.ups + 1) }).tell evLadderUp l q c
      { d with raised := d.raised + (if fresh then 1 else 0) }

/-- Layers that stand above their floor. -/
def countRaised (p : Policy) (l : List LadderRec) : Nat :=
  ((List.zip (rangeFrom 0 l.length) l).filter fun x => decide (floorOf p x.1 < x.2.rungF ∨ floorOf p x.1 < x.2.rungB)).length

/-- decide() of R181. -/
def decideLadder (p : Policy) (s : Nat) (ev : Nat → Nat → Nat) (d : Decision) : Decision :=
  if !p.ladderEn then d
  else
    let n := p.nlayers
    let d := (layerPasses n).foldl (moveDown p s ev) d
    let d := { d with raised := countRaised p d.recs }
    [classNonfin, classTally, classWatch, classRatio].foldl (fun d c => (layerPasses n).foldl (raisePass p s ev c) d) d

/-- lr_shift() of R183. -/
def lrShift (p : Policy) (k : Int) (amax : W32) : Int :=
  if !p.lrscaleEn then 0
  else match decodeElem .fp32 amax.toNat with
    | .fin false m e => if m = 0 then k else max (-126) (min 126 (k - leadExp m e))
    | _ => k

/-- The policy that the commit of a step applies: of those accepted for step + 1, the last (R179). -/
def duePolicy (x : JobState) (step : Nat) : Option Policy :=
  (x.policies.filter fun p => p.effective.toNat == step + 1).getLast?

/-- The shadow table of a commit: policy, records, events. lr_shift takes the k by which UPD_AMAX was scaled, that in force during the
step, at a commit that applies INIT too (R183; log entry 87, DEDUCED). -/
def shadowOf (s : State) (j : Job) (step : Nat) : Option (Policy × List LadderRec × List (BitVec 16 × Nat × Nat × Nat)) :=
  let x := s.job j
  let due := duePolicy x step
  match due.orElse fun _ => x.policy with
  | none => none
  | some p =>
    let live := ladderTable s j (ladderCopy s j) (jobLayers s j)
    let recs := if due.isSome then applyPolicy p step live else live
    -- a layer that the policy adds has no block of this step
    let blk := fun l => if jobLayers s j ≤ l then {} else match vaRead s x.ctx (watchAddr s j step l) 384 with
      | some (b, _) => watchOfBytes b
      | none => {}
    let out := List.zipWith (fun l r =>
      let k := (live.getD l ({} : LadderRec)).kshift
      let (cf, r) := passEvent p (blk l) k 0 r
      let (cb, r) := passEvent p (blk l) k 1 r
      (cf, cb, r)) (rangeFrom 0 recs.length) recs
    let ev := fun l q => let o := out.getD l (0, 0, ({} : LadderRec)); if q = 0 then o.1 else o.2.1
    let nonfin := (layerPasses recs.length).filterMap fun x =>
      if ev x.1 x.2 = classNonfin then some (evWatchNonfin, x.1, x.2, classNonfin) else none
    let d := decideLadder p step ev ⟨out.map fun o => o.2.2, 0, nonfin⟩
    let recs := List.zipWith (fun l r =>
      let k := lrShift p (live.getD l ({} : LadderRec)).kshift (blk l).updAmax
      { r with kshift := k, step := BitVec.ofNat 32 step }) (rangeFrom 0 d.recs.length) d.recs
    some (p, recs, d.emits)

/-- The layers whose live record or job-wide block is poisoned: what is derived from it is written poisoned (R293). -/
def ladderPoison (s : State) (j : Job) (step : Nat) : List Nat :=
  (rangeFrom 0 (jobLayers s j)).filter fun l =>
    vaPoisoned s (s.job j).ctx (ladderAddr s j (ladderCopy s j) (jobLayers s j) l) 64
      || vaPoisoned s (s.job j).ctx (watchAddr s j step l) 384

/-- The shadow copy has its place beside the live one: the policy leaves the number of layers as it is. Where it changes them,
the copies of the new table would overlap the live one, and the shadow copy reaches memory at the flip (log entry 109, DESIGN
CHOICE). -/
def shadowFits (s : State) (j : Job) (recs : List LadderRec) : Bool := recs.length == jobLayers s j

/-- LADDER_DECIDE: once the job-wide blocks of a step are complete and unflagged, the shadow table is written and READY
posted (R175, R184, R186). -/
def ladderDecide (s : State) (j : Job) : State :=
  let x := s.job j
  match x.jobWide, x.shadow with
  | some (step, false), none =>
    match shadowOf s j step.toNat with
    | none => s
    | some (p, recs, emits) =>
      let copy := 1 - ladderCopy s j
      let bad := ladderPoison s j step.toNat
      let s := if shadowFits s j recs then writeLadder s j copy recs bad else s
      let s := emits.foldl (fun s e =>
        raiseEv s e.1 (srcBench 0) [e.2.1, e.2.2.1, e.2.2.2, step.toNat] (some x.ctx) (jobField j)) s
      let h : Shadow :=
        { step := step, copy := copy == 1, recs := recs, digest := BitVec.ofNat 64 (digest64 (recs.flatMap ladderBytes))
          policy := some p, ready := true }
      s.setJob j { x with shadow := some h }
  | _, _ => s

def execLadderDecide (j : Job) (s : State) : Host.Outcome State Fault Refusal := .next (ladderDecide s j)

/-- The shadow copy of a table whose number of layers changes is written with the commit record. -/
def flipWrite (s : State) (j : Job) (step : Nat) : State :=
  match (s.job j).shadow with
  | some h => if shadowFits s j h.recs then s else writeLadder s j (bnat h.copy) h.recs (ladderPoison s j step)
  | none => s

/-- The shadow copy becomes live with the commit record (R186). -/
def ladderFlip (x : JobState) (step : Nat) : JobState :=
  match x.shadow with
  | some h =>
    { x with policy := h.policy.orElse (fun _ => x.policy)
             policies := x.policies.filter fun p => decide (step + 1 < p.effective.toNat)
             shadow := none, jobWide := none
             watchBlocks := x.watchBlocks.filter fun b => decide (step * 4096 + 4096 ≤ b.1) }
  | none => x

/-- A refused commit discards the shadow copy and this module's own blocks of the step (R186, R188). The job-wide blocks stay, from which
a retry that resubmits only the updates and a COMMIT decides again (R281). -/
def ladderDiscard (x : JobState) : JobState := { x with shadow := none, watchBlocks := [] }

end Sys2Proof.Machine
end

