-- ==== Sys2Proof/Machine/Tile.lean ====
section
/-!
DEFINITION. The tile operations of the M slot (R82 to R86, R99, R103, R104, R118, R243 to R246). Accumulators change at
issue, in issue order; bench writes become visible when the operation completes.
-/

namespace Sys2Proof.Machine

open Sys2Proof

/-- The store of one engine: 512 KiB in granules of 4 KiB, 16 handles (R83). -/
def storeBytes : Nat := 524288

/-- The granule-rounded size of a tile. -/
def tileBytes (mt nt : Nat) (k : AccKind) : Nat := roundUp (mt * nt * accBytes k) 4096

/-- What the tiles in progress occupy. -/
def storeUsed (c : CoreState) : Nat := c.handles.foldl (fun n h => n + tileBytes h.2.mt h.2.nt h.2.acc) 0

/-- The lowest free handle. -/
def freeHandle (c : CoreState) : Option Nat := (rangeFrom 0 16).find? fun h => (tabFind c.handles h).isNone

/-- Room for another tile (R85). -/
def tileRoom (c : CoreState) (mt nt : Nat) (k : AccKind) : Bool :=
  (freeHandle c).isSome && decide (storeUsed c + tileBytes mt nt k ≤ storeBytes)

/-! ### Operand words (R243) -/

/-- M_t of MT.BEGIN. -/
def tileM (f : EFields) : Nat := 32 * 2 ^ fld f.imm.toNat 0 2
/-- N_t of MT.BEGIN; none for the reserved code. -/
def tileN (f : EFields) : Option Nat := if fld f.imm.toNat 2 2 = 3 then none else some (32 * 2 ^ fld f.imm.toNat 2 2)
/-- The accumulator format of MT.BEGIN. -/
def tileAcc (f : EFields) : AccKind :=
  match fld f.imm.toNat 4 2 with
  | 0 => .fp32
  | 1 => .int32
  | 2 => .ven32
  | _ => .ven64
/-- The preload source: 0 ZERO, 1 BIAS, 2 RESIDUAL, 3 RAW. -/
def tilePre (f : EFields) : Nat := fld f.imm.toNat 6 2

/-- A bench local address of n bytes, as tile operations take it. -/
def tileRange (addr n : Nat) : Bool := decide (addr + n ≤ benchSize)

/-- A byte reader of a core's bench. -/
def benchByte (s : State) (c : Core) : Nat → Byte := fun a => readByte s.mem.bench (benchAddr c a)

/-- Bytes that n elements of a format fill. -/
def elemsBytes (f : Fmt) (n : Nat) : Nat := ceilDiv (n * f.width) 8

/-- Rows of n bytes with a stride lie in the bench. -/
def rowsOk (addr stride rows n : Nat) : Bool := rows == 0 || tileRange addr ((rows - 1) * stride + n)

/-- Whether any of the rows is poisoned. -/
def rowsPoisoned (s : State) (c : Core) (addr stride rows n : Nat) : Bool :=
  (rangeFrom 0 rows).any fun r => benchPoisoned s c (addr + r * stride) n

/-- Raises the event of an uncorrectable error on an operand read of the engine (R112, R293). -/
def tilePoison (t : Slot) (s : State) : State :=
  raiseEv (failSlotPart s t) evMemPoison (srcCore (slotCore t)) [] (some (s.slot t).ctx) 0xFF 1

/-- Enters a tile operation into the engine's queue. -/
def tileIssue (t : Slot) (sigs : List Signal) (pend : List RegName) (ws : List MemWrite) (s : State)
    (reads : List BenchRead := []) (tile : Option Nat := none) (drops : Bool := false) (elem : Nat := 0) : State :=
  let s := updSlot t (fun x => addPending x pend) s
  let cmd := mkCmd s t .matrix .tile sigs
  enqueue s (slotCore t) .matrix { cmd with pend := pend, writes := ws, reads := reads, tile := tile, drops := drops, elemBits := elem }

def setHandle (s : State) (c : Core) (h : Nat) (x : Handle) : State :=
  let cs := s.core c
  s.setCore c { cs with handles := tabPut cs.handles h x }

def dropHandle (s : State) (c : Core) (h : Nat) : State :=
  let cs := s.core c
  s.setCore c { cs with handles := tabErase cs.handles h }

/-- A handle that the slot owns (R84, R85). -/
def ownedHandle (s : State) (t : Slot) (v : W64) : Option (Nat × Handle) :=
  if v.toNat < 16 then
    match tabFind (s.core (slotCore t)).handles v.toNat with
    | some h => if h.owner = t ∧ h.pass = false then some (v.toNat, h) else none
    | none => none
  else none

/-! ### MT.BEGIN (R82, R85, R103, R128) -/

/-- The preload entries, row-major (R103, R128). -/
def preloadEntries (rd : Nat → Byte) (k : AccKind) (src addr fw stride mt nt : Nat) : List AccEntry :=
  (rangeFrom 0 mt).flatMap fun i => (rangeFrom 0 nt).map fun j =>
    let raw (row : Nat) : AccEntry :=
      entryOfRaw k (ofLE ((rangeFrom (addr + row * stride + j * rawBytes k) (rawBytes k)).map rd))
    let elem (row : Nat) : AccEntry :=
      match k, fwFmt fw with
      | .int32, _ => raw row
      | _, some f => entryOfVal k (decodeElem f (readElem rd (addr + row * stride) f j))
      | _, none => zeroEntry k
    match src with
    | 0 => zeroEntry k
    | 1 => elem 0
    | 2 => elem i
    | _ => raw i

/-- Bytes of one preload row. -/
def preloadRow (k : AccKind) (src fw nt : Nat) : Nat :=
  match src with
  | 0 => 0
  | 3 => nt * rawBytes k
  | _ => if k = .int32 then nt * 4 else elemsBytes ((fwFmt fw).getD .fp32) nt

/-- The preload word and address are well-formed (R55, R103, R114, R115, R128, R243, R246); no format code names raw INT32, so
that the format of a raw or INT32 preload is not used (log entry 103, DESIGN CHOICE). -/
def beginOk (f : EFields) (addr w : Nat) : Bool :=
  let k := tileAcc f
  let fw := fld w 0 16
  let src := tilePre f
  let rows := if src = 1 then 1 else tileM f
  match tileN f with
  | none => false
  | some nt =>
    fld w 57 7 == 0
    && (fld w 48 8 == 0 || k == .int32)
    && (!bit w 56 || k == .ven64)
    && !fwBad fw false && (src == 0 || src == 3 || k == .int32 || preloadFmtOk k fw)
    && (src == 0 || rowsOk addr (fld w 16 32) rows (preloadRow k src fw nt))

/-- A raw preload is a partial tile with passes beyond the veneer rule (R132). -/
def preloadVoid (v : State) (c : Core) (src addr stride rows n : Nat) : Bool :=
  src == 3 && (rangeFrom 0 rows).any fun i => voidAt v .bench (benchAddr c (addr + i * stride)) n

def mBegin (t : Slot) (old : SlotState) (f : EFields) (sigs : List Signal) (s : State) : State :=
  let c := slotCore t
  let k := tileAcc f
  let addr := (sReg old f.a.toNat).toNat
  let w := (sReg old f.b.toNat).toNat
  if beginOk f addr w then
    let nt := (tileN f).getD 32
    let mt := tileM f
    let src := tilePre f
    let v := engView s c .matrix
    let rows := if src = 0 then 0 else if src = 1 then 1 else mt
    let bad := rowsPoisoned v c addr (fld w 16 32) rows (preloadRow k src (fld w 0 16) nt)
    match freeHandle (s.core c) with
    | none => s
    | some h =>
      let s := if bad then tilePoison t s else s
      let s := setHandle s c h
        { owner := t, mt := mt, nt := nt, acc := k, accExp := toSigned 8 (fld w 48 8), vmode := bit w 56
          entries := preloadEntries (benchByte v c) k src addr (fld w 0 16) (fld w 16 32) mt nt
          poisoned := bad, blocks := 0, overSeen := preloadVoid v c src addr (fld w 16 32) mt (nt * rawBytes k), tallies := {} }
      let s := updSlot t (fun x => setSReg x f.d.toNat (BitVec.ofNat 64 h)) s
      tileIssue t sigs [sName f.d.toNat] [] s
  else stopAt t evTileFault 1 s

/-! ### MT.ACC (R97, R244) -/

/-- The fields of a tile operand block (R244). -/
structure TileOpnds where
  aAddr : Nat
  bAddr : Nat
  aScale : Nat
  bScale : Nat
  aZp : Nat
  aStride : Nat
  bStride : Nat
  sStride : Nat
  fa : Nat
  fb : Nat
  roles : Nat
  inlayN : Nat
  mv : Nat
  nv : Nat
  reserved : Nat
  list : Nat
  inlayA : Nat
  inlayB : Nat
  alignA : Nat
  alignB : Nat
  deriving DecidableEq, Repr

/-- Reads the 64-byte tile operand block from its eight words. -/
def tileOpnds (w : List Nat) : TileOpnds :=
  let lo (i : Nat) : Nat := fld (nth w i) 0 32
  let hi (i : Nat) : Nat := fld (nth w i) 32 32
  { aAddr := lo 0, bAddr := hi 0, aScale := lo 1, bScale := hi 1, aZp := lo 2, aStride := hi 2, bStride := lo 3
    sStride := hi 3, fa := fld (nth w 4) 0 16, fb := fld (nth w 4) 16 16, roles := fld (nth w 4) 32 8
    inlayN := fld (nth w 4) 40 8, mv := fld (nth w 4) 48 16, nv := fld (nth w 5) 0 16, reserved := fld (nth w 5) 16 16
    list := hi 5, inlayA := lo 6, inlayB := hi 6, alignA := lo 7, alignB := hi 7 }

/-- The A operand of a tile. -/
def TileOpnds.a (o : TileOpnds) (rd : Nat → Byte) (lim : Nat) : Opnd :=
  { rd := rd, fw := o.fa, base := o.aAddr, stride := o.aStride, sBase := o.aScale, zBase := o.aZp, sStride := o.sStride
    inlay := o.inlayA, inlayStride := ceilDiv o.inlayN 32 * 64, alignBase := o.alignA, kLim := lim }

/-- The B operand of a tile. -/
def TileOpnds.b (o : TileOpnds) (rd : Nat → Byte) (lim : Nat) : Opnd :=
  { rd := rd, fw := o.fb, base := o.bAddr, stride := o.bStride, sBase := o.bScale, zBase := 0, sStride := o.sStride
    inlay := o.inlayB, inlayStride := ceilDiv o.inlayN 32 * 64, alignBase := o.alignB, kLim := lim }

/-- How many ranges one side of an accumulation reads. -/
def TileOpnds.sideCount (o : TileOpnds) (cls : PairClass) (fw : Nat) : Nat :=
  1 + bnat (fwScaled fw) + bnat (fwZp fw) + bnat (cls == .v) + bnat (o.inlayN != 0 && cls != .h)

/-- The ranges of the bench that an accumulation of blocks first to first + n − 1 reads: address, stride, rows, bytes. -/
def TileOpnds.ranges (o : TileOpnds) (cls : PairClass) (first n : Nat) : List (Nat × Nat × Nat × Nat) :=
  let side (base stride sc zp fw rows inl al : Nat) : List (Nat × Nat × Nat × Nat) :=
    let f := (fwFmt fw).getD .fp32
    [(base + first * 32 * f.width / 8, stride, rows, n * 32 * f.width / 8)]
    ++ (if fwScaled fw then [(sc + first, o.sStride, rows, n)] else [])
    ++ (if fwZp fw then [(zp + first, o.sStride, rows, n)] else [])
    ++ (if cls = .v then [(al + 8 * first, 8 * o.sStride, rows, 8 * n)] else [])
    ++ (if o.inlayN ≠ 0 ∧ cls ≠ .h then [(inl, ceilDiv o.inlayN 32 * 64, rows, 2 * o.inlayN)] else [])
  side o.aAddr o.aStride o.aScale o.aZp o.fa o.mv o.inlayA o.alignA
  ++ side o.bAddr o.bStride o.bScale 0 o.fb o.nv o.inlayB o.alignB
  ++ (if o.inlayN ≠ 0 ∧ cls ≠ .h then [(o.list, 4, 1, 4 * o.inlayN)] else [])

/-- What an accumulation reads while it runs: rows of A, columns of B, and what the whole tile depends on. -/
def TileOpnds.reads (o : TileOpnds) (blk : Nat) (cls : PairClass) (first n : Nat) : List BenchRead :=
  let na := (o.ranges cls first n).length - (if o.inlayN ≠ 0 ∧ cls ≠ .h then 1 else 0)
  let l := o.ranges cls first n
  let nA := (o.sideCount cls o.fa)
  ⟨blk, 0, 1, 64, .all⟩ :: (List.zip (rangeFrom 0 l.length) l).map fun p =>
    ⟨p.2.1, p.2.2.1, p.2.2.2.1, p.2.2.2.2, if p.1 < nA then .rows else if p.1 < na then .cols else .all⟩

/-- The inlay list of a tile operand block. -/
def readList (rd : Nat → Byte) (addr n : Nat) : List Nat :=
  (rangeFrom 0 n).map fun i => ofLE ((rangeFrom (addr + 4 * i) 4).map rd)

/-- Strictly ascending. -/
def ascending : List Nat → Bool
  | a :: b :: t => decide (a < b) && ascending (b :: t)
  | _ => true

/-- An accumulator suits the class (R114, R116). -/
def accSuits (c : PairClass) (k : AccKind) (fa fb : Fmt) : Bool :=
  match c, k with
  | .v, .ven64 => true
  | .v, .ven32 => fa = .fp32 && fb = .fp32
  | .v, _ => false
  | _, .fp32 => true
  | _, .int32 => !fa.isFloat && !fb.isFloat
  | _, _ => false

/-- The class of a tile operand block on a handle; alignment records must lie at 64-byte boundaries, as MT.ALIGN writes them (log
entry 104, DESIGN CHOICE). None where the block is not well-formed (R55, R75, R76, R94, R109, R116, R244,
R246). -/
def accClass (o : TileOpnds) (h : Handle) : Option PairClass :=
  match fwFmt o.fa, fwFmt o.fb with
  | some fa, some fb =>
    match pairClass fa fb with
    | none => none
    | some cls =>
      if fwBad o.fa (fld o.roles 0 2 == 0) || fwBad o.fb false || fld o.roles 4 4 != 0 || o.reserved != 0
        || !rolesOk cls (fld o.roles 0 2) (fld o.roles 2 2) o.fa o.fb
        || !accSuits cls h.acc fa fb
        || decide (o.mv < 1 ∨ h.mt < o.mv ∨ o.nv < 1 ∨ h.nt < o.nv)
        || decide (64 < o.inlayN) || (cls == .v && o.inlayN != 0)
        || (cls == .v && (o.alignA % 64 != 0 || o.alignB % 64 != 0)) then none
      else some cls
  | _, _ => none

/-- Accumulates into the entries of a tile, row-major. -/
def accTile (h : Handle) (o : TileOpnds) (rd : Nat → Byte) (inl : List Nat) (first n : Nat) :
    List AccEntry × Tallies × Bool :=
  let cfg : AccCfg := ⟨h.acc, h.accExp, h.vmode⟩
  let lim := 32 * (first + n)
  let a := o.a rd lim
  let b := o.b rd lim
  (rangeFrom 0 (h.mt * h.nt)).foldl (fun (st : List AccEntry × Tallies × Bool) p =>
    let i := p / h.nt
    let j := p % h.nt
    let e := h.entries.getD p (zeroEntry h.acc)
    if i < o.mv ∧ j < o.nv then
      let (e', t, stale) := accRange cfg a b inl i j first n (e, st.2.1, st.2.2)
      (st.1 ++ [e'], t, stale)
    else (st.1 ++ [e], st.2.1, st.2.2)) ([], h.tallies, false)

def mAcc (t : Slot) (old : SlotState) (f : EFields) (sigs : List Signal) (s : State) : State :=
  let c := slotCore t
  let v := engView s c .matrix
  let blk := (sReg old f.b.toNat).toNat
  let rng := (sReg old f.c.toNat).toNat
  let first := fld rng 0 32
  let n := fld rng 32 32
  match ownedHandle s t (sReg old f.a.toNat) with
  | none => stopAt t evTileFault 1 s
  | some (hn, h) =>
    if ¬ tileRange blk 64 then stopAt t evTileFault 1 s
    else
      let o := tileOpnds (wordsOf 8 (benchRead v c blk 64))
      match accClass o h with
      | none => stopAt t evTileFault 1 s
      | some cls =>
        let rs := o.ranges cls first n
        let useInl := o.inlayN ≠ 0 ∧ cls ≠ .h
        let inl := if useInl then readList (benchByte v c) o.list o.inlayN else []
        if n = 0 ∨ ¬ rs.all (fun r => rowsOk r.1 r.2.1 r.2.2.1 r.2.2.2) ∨ ¬ ascending inl then stopAt t evTileFault 1 s
        else
          let bad := benchPoisoned v c blk 64 || rs.any fun r => rowsPoisoned v c r.1 r.2.1 r.2.2.1 r.2.2.2
          let (es, ts, stale) := accTile h o (benchByte v c) inl first n
          let s := if bad then tilePoison t s else s
          let s := if stale then raiseEv s evAlignStale (srcCore c) [] (some old.ctx) 0xFF 1 else s
          let s := setHandle s c hn
            { h with
              entries := es, tallies := ts, poisoned := h.poisoned || bad, blocks := h.blocks + n
              overSeen := h.overSeen || decide (0 < ts.overC) }
          tileIssue t sigs [] [] s (o.reads blk cls first n) (some hn)

/-! ### MT.ADDRAW (R99) -/

def mAddraw (t : Slot) (old : SlotState) (f : EFields) (sigs : List Signal) (s : State) : State :=
  let c := slotCore t
  let v := engView s c .matrix
  let addr := (sReg old f.b.toNat).toNat
  let stride := (sReg old f.c.toNat).toNat
  match ownedHandle s t (sReg old f.a.toNat) with
  | none => stopAt t evTileFault 1 s
  | some (hn, h) =>
    let w := rawBytes h.acc
    if ¬ rowsOk addr stride h.mt (h.nt * w) then stopAt t evTileFault 1 s
    else
      let bad := rowsPoisoned v c addr stride h.mt (h.nt * w)
      let cfg : AccCfg := ⟨h.acc, h.accExp, h.vmode⟩
      let es := (rangeFrom 0 (h.mt * h.nt)).map fun p =>
        let r := entryOfRaw h.acc (benchNat v c (addr + p / h.nt * stride + p % h.nt * w) w)
        accCombine cfg (h.entries.getD p (zeroEntry h.acc)) r
      let past := (rangeFrom 0 h.mt).any fun i => voidAt v .bench (benchAddr c (addr + i * stride)) (h.nt * w)
      let s := if bad then tilePoison t s else s
      let s := setHandle s c hn { h with entries := es, poisoned := h.poisoned || bad, overSeen := h.overSeen || past }
      tileIssue t sigs [] [] s

/-! ### MT.STORE (R104, R129, R245) -/

/-- A tile computed outside its error bound (R107, R108, R132): n is the blocks of the longest split, past whether a pass beyond the
veneer rule has gone into it. -/
def tileVoid (k : AccKind) (n : Nat) (past : Bool) : Bool :=
  match k with
  | .fp32 => decide (2048 < n)
  | .int32 => false
  | _ => decide (128 < n) || past

/-- Tallies with the mark of a tile outside its bound. -/
def markVoid (k : AccKind) (n : Nat) (past : Bool) (t : Tallies) : Tallies :=
  if tileVoid k n past then { t with boundVoid := true, bvTiles := sat32 (t.bvTiles + 1) } else t

/-- The stored entries that have saturated. -/
def satStored (h : Handle) (mv nv : Nat) : Nat :=
  ((rangeFrom 0 mv).flatMap fun i => (rangeFrom 0 nv).filter fun j =>
    (h.entries.getD (i * h.nt + j) (zeroEntry h.acc)).isSat).length

/-- The tallies that a store hands on: ts are those with the converted elements. A raw partial tile counts its saturated
elements (R90), carries the mark of a tile outside its bound and leaves the count of such tiles to the converting store; no
tile is counted twice (R132). -/
def storeTallies (h : Handle) (raw : Bool) (ts : Tallies) (sat : Nat) : Tallies :=
  if raw then
    { h.tallies with ovf := sat32 (h.tallies.ovf + sat), boundVoid := h.tallies.boundVoid || tileVoid h.acc h.blocks h.overSeen }
  else if h.voidTold then ts else markVoid h.acc h.blocks h.overSeen ts

/-- The conversions of the rows that a store writes: row-major, each row's codes; and the counters (R60, R104). -/
def storeRows (h : Handle) (fw : Nat) (key : SrKey) (origin ncols mv nv : Nat) : List (List Nat) × Tallies :=
  let cfg : AccCfg := ⟨h.acc, h.accExp, h.vmode⟩
  (rangeFrom 0 mv).foldl (fun (acc : List (List Nat) × Tallies) i =>
    let cs := (rangeFrom 0 nv).map fun j =>
      storeEntry cfg fw key (origin + i * ncols + j) (h.entries.getD (i * h.nt + j) (zeroEntry h.acc))
    (acc.1 ++ [cs.map fun c => c.bits], cs.foldl countConv acc.2)) ([], h.tallies)

/-- The raw words of the rows that a raw store writes. -/
def rawRows (h : Handle) (mv nv : Nat) : List (List Byte) :=
  let cfg : AccCfg := ⟨h.acc, h.accExp, h.vmode⟩
  (rangeFrom 0 mv).map fun i => (rangeFrom 0 nv).flatMap fun j =>
    leBytes (rawBytes h.acc) (rawOfEntry cfg (h.entries.getD (i * h.nt + j) (zeroEntry h.acc)))

def mStore (t : Slot) (old : SlotState) (f : EFields) (sigs : List Signal) (s : State) : State :=
  let c := slotCore t
  let v := engView s c .matrix
  let kb := (sReg old f.d.toNat).toNat
  let addr := (sReg old f.b.toNat).toNat
  let w := (sReg old f.c.toNat).toNat
  let fw := fld w 0 16
  let raw := bit w 49
  match ownedHandle s t (sReg old f.a.toNat) with
  | none => stopAt t evTileFault 1 s
  | some (hn, h) =>
    if ¬ tileRange kb 32 then stopAt t evTileFault 1 s
    else
      let k := wordsOf 4 (benchRead v c kb 32)
      let mv := fld (nth k 2) 32 16
      let nv := fld (nth k 2) 48 16
      let fmt := (fwFmt fw).getD .fp32
      let rowb := if raw then nv * rawBytes h.acc else elemsBytes fmt nv
      if fld w 50 14 ≠ 0 ∨ nth k 3 ≠ 0 ∨ fld (nth k 1) 48 16 ≠ 0 ∨ mv < 1 ∨ h.mt < mv ∨ nv < 1 ∨ h.nt < nv
        ∨ ¬ (raw ∨ (¬ fwBad fw false ∧ storeFmtOk h.acc fw)) ∨ ¬ rowsOk addr (fld w 16 32) mv rowb
        ∨ fld (nth k 2) 0 32 < 1 ∨ 16777216 < fld (nth k 2) 0 32
        ∨ (¬ raw ∧ 2 ^ 48 ≤ fld (nth k 1) 0 48 + (mv - 1) * fld (nth k 2) 0 32 + nv - 1) then
        stopAt t evTileFault 1 s
      else
        let key : SrKey := ⟨(s.ctx old.ctx).seed.toNat, fld (nth k 0) 0 32, fld (nth k 0) 32 32⟩
        let (rows, ts) := storeRows h fw key (fld (nth k 1) 0 48) (fld (nth k 2) 0 32) mv nv
        let bytes := if raw then rawRows h mv nv else rows.map (packCodes fmt)
        let bad := h.poisoned || benchPoisoned v c kb 32
        let ws := (List.zip (rangeFrom 0 mv) bytes).map fun p =>
          ({ space := .bench, addr := benchAddr c (addr + p.1 * fld w 16 32), data := p.2, poison := bad
             void := raw && h.overSeen } : MemWrite)
        let s := tallySlot s old (storeTallies h raw ts (satStored h mv nv))
        let s := if bit w 48 then dropHandle s c hn else
          setHandle s c hn { h with tallies := {}, voidTold := h.voidTold || (!raw && tileVoid h.acc h.blocks h.overSeen) }
        -- an accumulation still in progress reads what the store will write: its tile is undefined (R112)
        tileIssue t sigs [] ws (ws.foldl (spoilTiles true) s) [] (some hn) (bit w 48)
          (if raw then 8 * rawBytes h.acc else fmt.width)

/-! ### MT.DROP (R84) -/

def mDrop (t : Slot) (old : SlotState) (f : EFields) (sigs : List Signal) (s : State) : State :=
  match ownedHandle s t (sReg old f.a.toNat) with
  | none => stopAt t evTileFault 1 s
  | some (hn, _) => tileIssue t sigs [] [] (dropHandle s (slotCore t) hn) [] (some hn) true

/-! ### MT.ALIGN (R118) -/

/-- The records of a row of k elements (R118, R120). -/
def alignRow (rd : Nat → Byte) (f : Fmt) (k32 : AccKind) (base k : Nat) : List Byte :=
  (rangeFrom 0 (ceilDiv k 32)).flatMap fun b =>
    let codes := (rangeFrom (32 * b) 32).map fun i => if i < k then readElem rd base f i else 0
    leBytes 8 (alignWord (alignOf k32 (codes.map (decodeElem f)) (Config.alignOpenExp codes)))

/-- MT.ALIGN; FRAME = 1 with FP64 elements is refused, as veneer FP32 takes no FP64 operand (log entry 104, DESIGN CHOICE). -/
def mAlign (t : Slot) (old : SlotState) (f : EFields) (sigs : List Signal) (s : State) : State :=
  let c := slotCore t
  let v := engView s c .matrix
  let stride := (sReg old f.d.toNat).toNat
  let addr := (sReg old f.a.toNat).toNat
  let rec_ := (sReg old f.b.toNat).toNat
  let w := (sReg old f.c.toNat).toNat
  let rows := fld w 0 16
  let k := fld w 16 24
  let fm : Fmt := if fld w 40 4 = 0 then .fp64 else .fp32
  let frame : AccKind := if bit w 44 then .ven32 else .ven64
  let rowb := elemsBytes fm k
  let recb := 8 * ceilDiv k 32
  if fld w 45 19 ≠ 0 ∨ 2 ≤ fld w 40 4 ∨ rows < 1 ∨ 256 < rows ∨ fld w 16 24 = 0
    ∨ (frame = .ven32 ∧ fm = .fp64) ∨ rec_ % 64 ≠ 0 ∨ ¬ rowsOk addr stride rows rowb ∨ ¬ tileRange rec_ (rows * recb) then
    stopAt t evTileFault 1 s
  else
    let bad := rowsPoisoned v c addr stride rows rowb
    let s := if bad then tilePoison t s else s
    let ws := (rangeFrom 0 rows).map fun r =>
      ({ space := .bench, addr := benchAddr c (rec_ + r * recb)
         data := alignRow (benchByte v c) fm frame (addr + r * stride) k
         poison := bad } : MemWrite)
    tileIssue t sigs [] ws s

/-- One M operation. -/
def mEffect (op : SlotOp) (t : Slot) (old : SlotState) (f : EFields) (s : State) : State :=
  match sigOf old t f with
  | none => stopAt t evAccessFault 1 s
  | some sigs =>
    match op with
    | .mtBegin => mBegin t old f sigs s
    | .mtAcc => mAcc t old f sigs s
    | .mtAddraw => mAddraw t old f sigs s
    | .mtStore => mStore t old f sigs s
    | .mtDrop => mDrop t old f sigs s
    | .mtAlign => mAlign t old f sigs s
    | _ => s

end Sys2Proof.Machine
end

