-- ==== Sys2Proof/Machine/Passes.lean ====
section
/-!
DEFINITION. A pass as a whole: the rows of a part, what they leave, poison and overlaps (R192, R198, R216), the launch of a
pass by a thread slot (R241) and CHAIN_PASS_COMPLETE. Parts of host descriptors use the same run.
-/

namespace Sys2Proof.Machine

open Sys2Proof

/-! ### Managed passes (R168, R169) -/

/-- The role of a pass: that of its quantizer, ACT without one. -/
def passRole (w : List Nat) : Nat := if pQuantOn w then qRole (pQcw w) else 0

/-- The format words of the tensors that a pass uses; P of an ATTENTION is one of them (R168, R205). -/
def passFormats (w : List Nat) : List Nat :=
  ((rangeFrom 0 3).filter (srcUsed w)).map (pFmt w) ++ (if pAmax w then [] else [pFmt w 3])
    ++ (if pKind w = kindAttention then [aPfmt w] else [])

/-- The descriptor with its formats rewritten to a rung. -/
def passAtRung (rung : Nat) (w : List Nat) : List Nat :=
  let role := passRole w
  let f := fun s => if s < 3 && !srcUsed w s then pFmt w s else rungWord rung role (pFmt w s)
  w.set 6 (f 0 + 2 ^ 16 * f 1 + 2 ^ 32 * f 2 + 2 ^ 48 * f 3)

/-! ### What the rows of a pass read and write -/

/-- The ranges that the rows lo to hi − 1 read; a factorization reads all of its rows. -/
def passReads (w : List Nat) (lo hi : Nat) : List (Nat × Nat) :=
  if pFactor w then (rangeFrom 0 (pRows w)).flatMap (rowReads w) else (rangeFrom lo (hi - lo)).flatMap (rowReads w)

/-- The ranges that row i of a pass writes. -/
def rowOuts (v : PassEnv) (w : List Nat) (i : Nat) : List (Nat × Nat) :=
  let f := (fwFmt (pFmt w 3)).getD .fp32
  let stat := match pKind w with
    | 1 => if pSeg w = 0 then [] else [(pSeg w + i * 2 * ((pWk w).width / 8), 2 * ((pWk w).width / 8))]
    | 2 => if pSeg w = 0 then [] else [(pSeg w + 8 * i, 8)]
    | 3 => if nth w 23 = 0 then [] else [(nth w 23 + 8 * i, 8)]
    | _ => []
  if pAmax w then []
  else if pQuantOn w && fwScaled (pFmt w 3) then
    let nb := ceilDiv (pCols w) 32
    let inl := match passList v w with
      | some (some l) => let k := roundUp l.length 32; if k = 0 then [] else [(pInlay w + i * 2 * k, 2 * k)]
      | _ => []
    [(pDst w + i * pStrD w, packedBytes f (32 * nb)), (pDscale w + i * nb, nb)]
      ++ (if fwZp (pFmt w 3) then [(pDzp w + i * nb, nb)] else []) ++ inl
  else
    let tan := (rangeFrom 0 (pTans w)).flatMap fun k =>
      let a := nth w (24 + 3 * k)
      if a = 0 then [] else
        [(if pRedOn w then a + i * (f.width / 8) else a + i * pStrD w, packedBytes f (outCols w))]
    (outAddr w i, packedBytes f (outCols w)) :: tan ++ stat

/-- The summary and the channel amaxes of an amax pass (R145, R146). -/
def amaxOuts (w : List Nat) : List (Nat × Nat) :=
  (if pCamax w = 0 then [] else [(pCamax w, 8 * pCols w)]) ++ [(pSummary w, 2368)]

/-- The ranges that the rows lo to hi − 1 write. -/
def passOuts (v : PassEnv) (w : List Nat) (lo hi : Nat) : List (Nat × Nat) :=
  if pFactor w then
    (rangeFrom 0 (pRows w)).flatMap (rowOuts v w) ++ (if pKind w = kindLu then [(nth w 24, 4 * pCols w)] else [])
  else (rangeFrom lo (hi - lo)).flatMap (rowOuts v w)

/-- The destination replaces SRC0 row by row, as R216 allows: GENERAL, the same place, stride and width, no REDUCE. -/
def inPlace (w : List Nat) : Bool :=
  pKind w == kindGeneral && !pRedOn w && pDst w == pSrc w 0 && pStrD w == pStrS w
    && ((fwFmt (pFmt w 0)).getD .fp64).width == ((fwFmt (pFmt w 3)).getD .fp64).width
    && (pRows w == 1 || decide (packedBytes ((fwFmt (pFmt w 0)).getD .fp64) (pCols w) ≤ pStrS w))

/-- The destination overlaps a source in another way than R216 allows. -/
def passOverlaps (v : PassEnv) (w : List Nat) (lo hi : Nat) : Bool :=
  let outs := passOuts v w lo hi
  let src := fun i => let l := rowReads w i; if inPlace w then l.drop 1 else l
  let reads := if pFactor w then passReads w lo hi else (rangeFrom lo (hi - lo)).flatMap src
  outs.any fun o => reads.any (rangesMeet o)

/-- The bits that row i of a quantize pass writes whatever its source holds: the codes at listed channels and beyond the last column,
the inlay values beyond the list; all of them where its summary is stale (R138, R147, R166). -/
def rowFixed (v : PassEnv) (w : List Nat) (i : Nat) : List (Nat × Nat) :=
  let wd := ((fwFmt (pFmt w 3)).getD .e2m1).width
  let at_ := 8 * (pDst w + i * pStrD w)
  let pad := (at_ + wd * pCols w, wd * (roundUp (pCols w) 32 - pCols w))
  match passList v w with
  | none => [pad]
  | some none => (rowOuts v w i).map fun r => (8 * r.1, 8 * r.2)
  | some (some l) =>
    let k := roundUp l.length 32
    pad :: (8 * (pInlay w + i * 2 * k) + 16 * l.length, 16 * (k - l.length)) :: l.map fun c => (at_ + wd * c, wd)

/-- The bits that rows lo to hi − 1 of a pass write whatever its source holds: of an amax pass, what its summary says of the pass and not
of the values (R145, R166). -/
def passFixed (v : PassEnv) (w : List Nat) (lo hi : Nat) : List (Nat × Nat) :=
  if pAmax w then
    let b := 8 * pSummary w
    [(b, 64), (b + 128, 64), (b + 200, 8), (b + 216, 8), (b + 256, 256)]
  else if pQuantOn w && fwScaled (pFmt w 3) then (rangeFrom lo (hi - lo)).flatMap (rowFixed v w)
  else []

/-! ### The run of a part's rows -/

/-- What a part of a pass leaves. -/
structure PassOut where
  writes : List (Nat × List Byte)
  /-- How many of the writes each row makes. -/
  rowLens : List Nat := []
  failed : Bool
  tallies : Tallies
  vals : List FVal
  count : Nat
  events : List (BitVec 16)
  amax : AmaxStats
  /-- Free values drawn. -/
  drawn : Nat

/-- Free bytes for the ranges that a failed part or an overlapping pass leaves undefined, from free index i on. -/
def freeRanges : Nat → List (Nat × Nat) → List (Nat × List Byte)
  | _, [] => []
  | i, (a, n) :: t => (a, (rangeFrom i n).map freeByte) :: freeRanges (i + n) t

/-- Bytes of ranges. -/
def rangesLen (l : List (Nat × Nat)) : Nat := l.foldl (fun n r => n + r.2) 0

/-- Writes of which only the given bits keep their values, from free index i on. -/
def spoilData (fixed : List (Nat × Nat)) : Nat → List (Nat × List Byte) → List (Nat × List Byte)
  | _, [] => []
  | i, (a, d) :: t => (a, spoilBytes fixed i a d) :: spoilData fixed (i + d.length) t

/-- Bytes of writes. -/
def dataLen (l : List (Nat × List Byte)) : Nat := l.foldl (fun n w => n + w.2.length) 0

/-- Rows lo to hi − 1 of a pass. free is the index of the next free value. -/
def runPass (v : PassEnv) (w : List Nat) (lo hi free : Nat) : PassOut :=
  let reads := passReads w lo hi
  let outs := passOuts v w lo hi
  let rows := if pFactor w then [factorOut v w] else (rangeFrom lo (hi - lo)).map (passRow v w)
  let perRow := if pFactor w then [outs] else (rangeFrom lo (hi - lo)).map (rowOuts v w)
  let refused := !(reads.all fun r => v.ok .read r.1 r.2) || !(outs.all fun r => v.ok .write r.1 r.2)
  let failed := refused || (reads.any fun r => v.bad r.1 r.2) || rows.any fun r => r.fail.isSome
  let failEv := rows.filterMap fun r => r.fail.bind id
  let meets := !failed && passOverlaps v w lo hi
  let data := rows.flatMap RowOut.writes
  { writes := if failed then freeRanges free outs else if meets then spoilData (passFixed v w lo hi) free data else data
    rowLens := if failed then perRow.map List.length else rows.map fun r => r.writes.length
    failed := failed
    tallies := rows.foldl (fun t r => addTallies t r.tallies) {}
    vals := rows.flatMap RowOut.vals
    count := rows.foldl (fun n r => n + r.count) 0
    events := (failEv ++ rows.flatMap RowOut.events).eraseDups
    amax := rows.foldl (fun st r => if pAmax w then amaxRow st r.amax else st) {}
    drawn := if failed then rangesLen outs else if meets then dataLen data else 0 }

/-- The writes of a finished amax pass: channel amaxes, then the summary; and the channels that its list leaves out. -/
def amaxWrites (w : List Nat) (st : AmaxStats) (step : Nat) : List (Nat × List Byte) × Nat :=
  let (b, dropped) := summaryBytes st (pQcw w) (pCols w) step
  ((if pCamax w = 0 then [] else [(pCamax w, camaxBytes st (pCols w))]) ++ [(pSummary w, b)], dropped)

/-! ### Handles of an ATTENTION part (R206) -/

/-- The tiles that a pass holds: one for s, one or two for u. -/
def passTiles (w : List Nat) : List (Nat × Nat) :=
  if pKind w = kindAttention then
    (128, 128) :: (if aHd w = 256 then [(128, 128), (128, 128)] else [(128, aHd w)])
  else []

/-- Allocates FP32 tiles one after another; none where the store has no room (R83, R85). -/
def allocTiles (owner : Slot) (c : CoreState) : List (Nat × Nat) → Option (CoreState × List Nat)
  | [] => some (c, [])
  | (m, n) :: t =>
    match freeHandle c with
    | none => none
    | some h =>
      if tileRoom c m n .fp32 then
        let x : Handle := { owner := owner, mt := m, nt := n, acc := .fp32, accExp := 0, vmode := false, entries := []
                            poisoned := false, blocks := 0, tallies := {}, pass := true }
        (allocTiles owner { c with handles := tabPut c.handles h x } t).map fun r => (r.1, h :: r.2)
      else none

/-! ### The part that a slot runs -/

/-- The watch contribution of a pass of a slot; it waits for the part to complete (R172, R188). -/
def slotWatch (s : State) (t : Slot) (w : List Nat) (o : PassOut) : State :=
  if tagLayer (pTag w) = 0xFFF ∨ o.failed then s
  else updPart s t fun p => { p with
    watch := addWatch p.watch (watchKey (pStep w) (tagLayer (pTag w))) (watchOf (pTag w) o.vals o.count o.tallies) }

/-! ### V.PASS (R192 to R194, R241) -/

/-- The 32 words of the pass descriptor at a bench address, as the vector chain sees them. -/
def slotPassWords (s : State) (t : Slot) (a : Nat) : List Nat :=
  wordsOf 32 (benchRead (engView s (slotCore t) .vector) (slotCore t) a 256)

/-- What a slot's pass sees; the direction is the one that FPCR named before the bundle (R218). -/
def slotEnv (s : State) (t : Slot) (dir : Rnd) (w : List Nat) : PassEnv :=
  let c := slotCore t
  let v := engView s c .vector
  { rd := benchByte v c, ok := fun _ a n => decide (a + n ≤ benchSize), bad := benchPoisoned v c
    seed := (s.ctx (s.slot t).ctx).seed.toNat, dir := dir, step := pStep w }

/-- The descriptor is refused: malformed, its tag refused, or managed for another step. -/
def slotPassBad (s : State) (t : Slot) (w : List Nat) : Bool :=
  let j := slotJob s (s.slot t)
  passBad w || tagBad s j (pTag w) false (allFp4 (passFormats w))
    || (tagLayer (pTag w) != 0xFFF && tagManaged (pTag w) && !(match j with
        | some j => stepOk s j (pStep w)
        | none => false))

/-- The descriptor as it runs: at the rung of its layer where it is managed. -/
def slotPassRun (s : State) (t : Slot) (w : List Nat) : List Nat :=
  match slotJob s (s.slot t) with
  | some j => if tagLayer (pTag w) ≠ 0xFFF ∧ tagManaged (pTag w) then
      passAtRung (liveRung s j (tagLayer (pTag w)) (tagPass (pTag w))) w else w
  | none => w

/-- The tiles that a V.PASS of a slot needs; none where its descriptor cannot be read or is refused. -/
def vPassTiles (s : State) (t : Slot) (a : Nat) : List (Nat × Nat) :=
  let w := slotPassWords s t a
  if benchSize < a + 256 ∨ passBad w then [] else passTiles w

/-- Enters a pass into the vector chain's queue. -/
def passIssue (t : Slot) (old : SlotState) (sigs : List Signal) (w : List Nat) (s : State) : State :=
  let c := slotCore t
  let v := slotEnv s t (slotRnd old) w
  let o := runPass v w 0 (pRows w) s.free
  let (sum, dropped) := if pAmax w && !o.failed then amaxWrites w o.amax (pStep w)
    else if pAmax w then (freeRanges s.free (amaxOuts w), 0) else ([], 0)
  let drawn := o.drawn + (if pAmax w && o.failed then rangesLen (amaxOuts w) else 0)
  let s := { s with free := s.free + drawn }
  let ts := { o.tallies with inlayDropped := sat32 dropped }
  let s := if o.failed then failSlotPart s t else tallySlot s old ts
  let s := slotWatch s t w o
  let s := updSlot t (fun x => addExc x o.tallies.flags) s
  let job := match slotJob s old with
    | some j => jobField j
    | none => 0xFF
  let s := o.events.foldl (fun s e => raiseEv s e (srcCore c) [] (some old.ctx) job 2) s
  let ws := (o.writes ++ sum).map fun x =>
    ({ space := .bench, addr := benchAddr c x.1, data := x.2, poison := o.failed } : MemWrite)
  let (cs, hs) := (allocTiles t (s.core c) (passTiles w)).getD (s.core c, [])
  let s := s.setCore c cs
  let cmd := mkCmd s t .vector .pass sigs
  let reads := ((passReads w 0 (pRows w)).map fun r => (⟨r.1, 0, 1, r.2, .all⟩ : BenchRead))
  enqueue s c .vector { cmd with
    writes := ws, handles := hs, reads := reads, rowLens := o.rowLens
    fixed := if o.failed then [] else (passFixed v w 0 (pRows w)).map fun r => (8 * benchAddr c 0 + r.1, r.2) }

/-- V.PASS: launches the pass whose descriptor lies at the bench address in A. -/
def vPassOp (t : Slot) (old : SlotState) (f : EFields) (s : State) : State :=
  match sigOf old t f with
  | none => stopAt t evAccessFault 2 s
  | some sigs =>
    let a := (sReg old f.a.toNat).toNat
    if benchSize < a + 256 then stopAt t evAccessFault 2 s
    else if a % 64 ≠ 0 then stopAt t evPassFault 2 s
    else if benchPoisoned (engView s (slotCore t) .vector) (slotCore t) a 256 then stopAt t evMemPoison 2 s
    else
      let w := slotPassWords s t a
      if slotPassBad s t w then stopAt t evPassFault 2 s
      else
        let w := slotPassRun s t w
        let v := slotEnv s t (slotRnd old) w
        let outs := passOuts v w 0 (pRows w) ++ (if pAmax w then amaxOuts w else [])
        if (passReads w 0 (pRows w)).all (fun r => v.ok .read r.1 r.2) && outs.all (fun r => v.ok .write r.1 r.2) then
          passIssue t old sigs w s
        else stopAt t evAccessFault 2 s

/-! ### Ends of operations -/

/-- CHAIN_PASS_COMPLETE: the pass at the front of a vector chain's queue has stored its last row (R241). -/
def passComplete (c : Core) (s : State) : State :=
  match (s.engine c .vector).queue with
  | cmd :: _ => if cmd.kind = .pass then completeFront s c .vector else s
  | [] => s

def execChainPassComplete (c : Core) (s : State) : Host.Outcome State Fault Refusal := .next (passComplete c s)

/-- MT_OP_COMPLETE: the tile operation at the front of a matrix engine's queue has completed (R246). -/
def tileComplete (c : Core) (s : State) : State :=
  match (s.engine c .matrix).queue with
  | cmd :: _ =>
    if cmd.kind = .tile then
      completeFront (updSlot cmd.slot (fun x => if x.running then cmd.pend.foldl clearPending x else x) s) c .matrix
    else s
  | [] => s

def execMtOpComplete (c : Core) (s : State) : Host.Outcome State Fault Refusal := .next (tileComplete c s)

/-- PENDING_WRITE_COMPLETE (R221). -/
def execPendingWriteComplete (t : Slot) (r : RegName) (s : State) : Host.Outcome State Fault Refusal :=
  .next (pendingDone s t r)

/-- SYNC_COUNTER_INCREMENT: the increments that reach a counter in one cycle, then the evaluation of its waits (R251). -/
def execSyncCounterIncrement (c : ScName) (l : List TaggedInc) (s : State) : Host.Outcome State Fault Refusal :=
  .next (releaseWaits (l.foldl (fun s i => putInc s c i) s))

end Sys2Proof.Machine
end

