-- ==== Sys2Proof/Machine/Product.lean ====
section
/-!
DEFINITION. Matrix products placed from a host descriptor (R94, R97 to R104, R114, R116, R149, R379): the product block, the
checks on it, and the output tiles of a part.
-/

namespace Sys2Proof.Machine

open Sys2Proof

/-! ### The product block (R379) -/

/-- The fields of a product block, from its 16 words. -/
structure ProdSpec where
  m : Nat
  n : Nat
  k : Nat
  acc : Nat
  accExp : Int
  sc : Nat
  vmode : Nat
  aAddr : Nat
  bAddr : Nat
  aScale : Nat
  bScale : Nat
  aZp : Nat
  fa : Nat
  fb : Nat
  roles : Nat
  preSrc : Nat
  preFmt : Nat
  preAddr : Nat
  list : Nat
  inlayA : Nat
  inlayB : Nat
  out : Nat
  fout : Nat
  inlayN : Nat
  tensor : Nat
  ibase : Nat
  deriving DecidableEq, Repr

def prodSpec (w : List Nat) : ProdSpec :=
  { m := fld (nth w 0) 0 32, n := fld (nth w 0) 32 32, k := fld (nth w 1) 0 32, acc := fld (nth w 1) 32 8
    accExp := toSigned 8 (fld (nth w 1) 40 8), sc := fld (nth w 1) 48 8, vmode := fld (nth w 1) 56 8
    aAddr := nth w 2, bAddr := nth w 3, aScale := nth w 4, bScale := nth w 5, aZp := nth w 6
    fa := fld (nth w 7) 0 16, fb := fld (nth w 7) 16 16, roles := fld (nth w 7) 32 8, preSrc := fld (nth w 7) 40 8
    preFmt := fld (nth w 7) 48 16, preAddr := nth w 8, list := nth w 9, inlayA := nth w 10, inlayB := nth w 11
    out := nth w 12, fout := fld (nth w 13) 0 16, inlayN := fld (nth w 13) 16 8, tensor := fld (nth w 13) 32 32
    ibase := fld (nth w 14) 0 48 }

/-- ACC of a product block. -/
def prodAcc (p : ProdSpec) : AccKind :=
  match p.acc with
  | 0 => .fp32
  | 1 => .int32
  | 2 => .ven32
  | _ => .ven64

def prodCfg (p : ProdSpec) : AccCfg := ⟨prodAcc p, p.accExp, p.vmode == 1⟩

/-- K blocks of a product. -/
def prodBlocks (p : ProdSpec) : Nat := ceilDiv p.k 32

/-- The class of a product's operands. -/
def prodClass (p : ProdSpec) : Option PairClass :=
  match fwFmt p.fa, fwFmt p.fb with
  | some a, some b => pairClass a b
  | _, _ => none

/-- Channels of the inlay are used: none in class H (R138). -/
def prodInlay (p : ProdSpec) : Bool := p.inlayN != 0 && prodClass p != some .h

/-- The inlay list: given, or read from an amax summary (R149). -/
def prodList (p : ProdSpec) (rd : Nat → Byte) : List Nat :=
  if !prodInlay p then []
  else if p.inlayN = 0x7F then readList rd (p.list + 2112) (rd (p.list + 26)).toNat
  else readList rd p.list p.inlayN

/-- The list is longer than R94 allows, out of order, or names a channel that is none of the product's: an inlay list names channels
of the product, and a list that does not is refused with the others (log entry 78, DESIGN CHOICE). -/
def listBad (p : ProdSpec) (l : List Nat) : Bool :=
  decide (64 < l.length) || decide (prodBlocks p < l.length) || !ascending l || l.any fun c => decide (p.k ≤ c)

/-- The block is malformed; the preload's format word is checked whatever the source is, and its format is not used where the
preload is raw or INT32 (log entry 103, DESIGN CHOICE) (R55, R73, R75, R76, R98, R103, R104, R109, R114, R116, R128, R149). A class H
product whose count is above 64 and not 0x7F is refused by R149, though R138 takes its count as 0 (log entry 148, DESIGN CHOICE). -/
def prodBad (w : List Nat) : Bool :=
  let p := prodSpec w
  let dim := fun x => decide (x = 0 ∨ 16777216 < x)
  match prodClass p, fwFmt p.fa, fwFmt p.fb with
  | some c, some a, some b =>
    fld (nth w 13) 24 8 != 0 || fld (nth w 14) 48 16 != 0 || nth w 15 != 0
    || fld p.roles 4 4 != 0 || decide (3 < p.preSrc) || decide (3 < p.acc)
    || dim p.m || dim p.n || dim p.k
    || fwBad p.fa (fld p.roles 0 2 == 0) || fwBad p.fb false || !rolesOk c (fld p.roles 0 2) (fld p.roles 2 2) p.fa p.fb
    || !accSuits c (prodAcc p) a b
    || (p.accExp != 0 && prodAcc p != .int32)
    || decide (1 < p.vmode) || (p.vmode == 1 && (c != .v || prodAcc p == .ven32))
    || decide (p.sc = 0 ∨ 64 < p.sc ∨ prodBlocks p < p.sc)
    || (c == .v && p.inlayN != 0)
    || decide (64 < p.inlayN ∧ p.inlayN ≠ 0x7F)
    || fwBad p.preFmt false
    || (decide (p.preSrc = 1 ∨ p.preSrc = 2) && prodAcc p != .int32 && !preloadFmtOk (prodAcc p) p.preFmt)
    || fwBad p.fout false || !storeFmtOk (prodAcc p) p.fout
    || decide (2 ^ 48 < p.ibase + p.m * p.n)
  | _, _, _ => true

/-- The block with its formats at a rung (R170). -/
def prodAtRung (rung : Nat) (p : ProdSpec) : ProdSpec :=
  { p with fa := rungWord rung (fld p.roles 0 2) p.fa, fb := rungWord rung (fld p.roles 2 2) p.fb }

/-! ### Operands -/

/-- An operand with its reduction axis innermost (R77); in class V its alignment records are computed from its elements
(R118, R379). -/
def prodOpnd (rd : Nat → Byte) (p : ProdSpec) (fw base sc zp inl c : Nat) : Opnd :=
  let o := denseOpnd rd fw base sc p.k
  let f := (fwFmt fw).getD .fp32
  let nb := prodBlocks p
  let recByte := fun a =>
    let i := (a - pBase) / 8
    let codes := (rangeFrom (32 * (i % nb)) 32).map fun k =>
      if k < p.k then readElem rd (base + i / nb * o.stride) f k else 0
    (leBytes 8 (alignWord (alignOf (prodAcc p) (codes.map (decodeElem f)) (Config.alignOpenExp codes)))).getD ((a - pBase) % 8) 0
  let o := { o with zBase := zp, inlay := inl, inlayStride := roundUp c 32 * 2 }
  if prodClass p = some .v then { o with rd := fun a => if pBase ≤ a then recByte a else rd a, alignBase := pBase } else o

def prodA (rd : Nat → Byte) (p : ProdSpec) (c : Nat) : Opnd := prodOpnd rd p p.fa p.aAddr p.aScale p.aZp p.inlayA c
def prodB (rd : Nat → Byte) (p : ProdSpec) (c : Nat) : Opnd := prodOpnd rd p p.fb p.bAddr p.bScale 0 p.inlayB c

/-- Bytes of one output row; the output is dense (R379). -/
def outRow (p : ProdSpec) : Nat := p.n * ((fwFmt p.fout).getD .fp32).width / 8

/-- Bytes of one preload row. -/
def prodPreRow (p : ProdSpec) : Nat := preloadRow (prodAcc p) p.preSrc p.preFmt p.n

/-- Tile rows of a product: its parts are cut into tiles of 128 by 128 (log entry 31, DESIGN CHOICE). -/
def prodTileRows (p : ProdSpec) : Nat := ceilDiv p.m 128

/-- The ranges that the tile rows lo to hi − 1 read: rows r0 to r1 − 1 of A, all of B. -/
def prodReads (p : ProdSpec) (inl : List Nat) (lo hi : Nat) : List (Nat × Nat) :=
  let r0 := 128 * lo
  let rows := min (128 * hi) p.m - r0
  let nb := prodBlocks p
  let side := fun (fw base sc zp inla first n : Nat) =>
    let st := (denseOpnd (fun _ => 0) fw base sc p.k).stride
    [(base + first * st, n * st)]
    ++ (if fwScaled fw then [(sc + first * nb, n * nb)] else [])
    ++ (if fwScaled fw && fwZp fw then [(zp + first * nb, n * nb)] else [])
    ++ (if inl = [] then [] else [(inla + first * (roundUp inl.length 32 * 2), n * (roundUp inl.length 32 * 2))])
  side p.fa p.aAddr p.aScale p.aZp p.inlayA r0 rows ++ side p.fb p.bAddr p.bScale 0 p.inlayB 0 p.n
  ++ (if inl = [] then [] else
      [if p.inlayN = 0x7F then (p.list, 2368) else (p.list, 4 * p.inlayN)])
  ++ (match p.preSrc with
      | 0 => []
      | 1 => [(p.preAddr, prodPreRow p)]
      | _ => [(p.preAddr + r0 * prodPreRow p, rows * prodPreRow p)])

/-- The range that the tile rows lo to hi − 1 write. -/
def prodWrites (p : ProdSpec) (lo hi : Nat) : List (Nat × Nat) :=
  [(p.out + 128 * lo * outRow p, (min (128 * hi) p.m - 128 * lo) * outRow p)]

/-! ### A part's tiles -/

/-- One output tile: its rows of codes, its tallies (R97, R104, R107, R132). -/
def prodTile (rd : Nat → Byte) (p : ProdSpec) (inl : List Nat) (seed step ti tj : Nat) : List (List Nat) × Tallies :=
  let k := prodAcc p
  let r0 := 128 * ti
  let c0 := 128 * tj
  let mt := min 128 (p.m - r0)
  let nt := min 128 (p.n - c0)
  let pb := prodPreRow p
  let pre := preloadEntries rd k p.preSrc (p.preAddr + (if p.preSrc = 1 then 0 else r0 * pb) + preloadRow k p.preSrc p.preFmt c0)
    p.preFmt pb mt nt
  let a := prodA rd p inl.length
  let b := prodB rd p inl.length
  let key : SrKey := ⟨seed, step, p.tensor⟩
  let nb := prodBlocks p
  let (rows, ts) := (rangeFrom 0 mt).foldl (fun (acc : List (List Nat) × Tallies) i =>
    let (codes, t) := (rangeFrom 0 nt).foldl (fun (st : List Nat × Tallies) j =>
      let (e, t, _) := jigElement (prodCfg p) a b inl nb p.sc (r0 + i) (c0 + j) (pre.getD (i * nt + j) (zeroEntry k)) st.2
      let c := storeEntry (prodCfg p) p.fout key (p.ibase + (r0 + i) * p.n + c0 + j) e
      (st.1 ++ [c.bits], countConv t c)) ([], acc.2)
    (acc.1 ++ [codes], t)) ([], ({} : Tallies))
  (rows, markVoid k (if k = .fp32 then nb else ceilDiv nb p.sc) (decide (0 < ts.overC)) ts)

/-- The tile rows lo to hi − 1 of a product. free is the index of the next free value; a part that fails, or whose output
overlaps its operands, leaves undefined bytes (R112). -/
def runProduct (v : PassEnv) (p : ProdSpec) (inl : List Nat) (lo hi free : Nat) : PassOut :=
  let reads := prodReads p inl lo hi
  let outs := prodWrites p lo hi
  let failed := !(reads.all fun r => v.ok .read r.1 r.2) || !(outs.all fun r => v.ok .write r.1 r.2)
    || reads.any fun r => v.bad r.1 r.2
  let undef := failed || outs.any fun o => reads.any (rangesMeet o)
  let f := (fwFmt p.fout).getD .fp32
  let tiles := (rangeFrom lo (hi - lo)).flatMap fun ti => (rangeFrom 0 (ceilDiv p.n 128)).map fun tj =>
    (ti, tj, prodTile v.rd p inl v.seed v.step ti tj)
  let data := tiles.flatMap fun x => (List.zip (rangeFrom 0 x.2.2.1.length) x.2.2.1).map fun r =>
    (p.out + (128 * x.1 + r.1) * outRow p + 128 * x.2.1 * f.width / 8, packCodes f r.2)
  let codes := tiles.flatMap fun x => x.2.2.1.flatten
  { writes := if undef then freeRanges free outs else data
    failed := failed
    tallies := tiles.foldl (fun t x => addTallies t x.2.2.2) {}
    vals := codes.map (decodeElem f)
    count := codes.length
    events := if failed && reads.any (fun r => v.bad r.1 r.2) then [evMemPoison] else []
    amax := {}
    drawn := if undef then rangesLen outs else 0 }

end Sys2Proof.Machine
end

