-- ==== Sys2Proof/Machine/Plane.lean ====
section
/-!
DEFINITION. The arithmetic of the update engine: hyperparameters (R263), the block rule (R264, R265), the statistics,
directions and inverse roots of the plane rule (R268 to R272), and journal values (R405).
-/

namespace Sys2Proof.Machine

open Sys2Proof

/-! ### FP32 and FP64 operations, rounded once to nearest with ties to even (R264) -/

def add32 (a b : FVal) : FVal := (fAdd .fp32 .rne a b).1
def sub32 (a b : FVal) : FVal := (fSub .fp32 .rne a b).1
def mul32 (a b : FVal) : FVal := (fMul .fp32 .rne a b).1
def div32 (a b : FVal) : FVal := (fDiv .fp32 .rne a b).1
def fma32 (a b c : FVal) : FVal := (fFma .fp32 .rne a b c).1
def sqrt32 (a : FVal) : FVal := (fSqrt .fp32 .rne a).1
def to32 (a : FVal) : FVal := (ieeeRound .fp32 .rne a).1
def add64 (a b : FVal) : FVal := (fAdd .fp64 .rne a b).1
def sub64 (a b : FVal) : FVal := (fSub .fp64 .rne a b).1
def mul64 (a b : FVal) : FVal := (fMul .fp64 .rne a b).1
def div64 (a b : FVal) : FVal := (fDiv .fp64 .rne a b).1
def ldexp64 (a : FVal) (k : Int) : FVal := (ieeeRound .fp64 .rne (a.scale k)).1
def val32 (bits : Nat) : FVal := decodeElem .fp32 bits
def one : FVal := .fin false 1 0
def finite (a : FVal) : Bool := !a.isNan && !a.isInf

/-! ### The hyperparameter record (R263) -/

structure Hyper where
  lr : FVal
  beta1 : FVal
  beta2 : FVal
  eps : FVal
  wd : FVal
  gscale : FVal
  damp : Nat
  stat : FVal
  tol : Nat
  n : Nat
  p : Nat
  iters : Nat
  blockL : Nat
  blockR : Nat
  biasCorr : Bool
  rest : Bool
  deriving DecidableEq, Repr

/-- The record's fields from its eight words. -/
def hyperOf (w : List Nat) : Hyper :=
  let lo := fun i => val32 (fld (nth w i) 0 32)
  let hi := fun i => val32 (fld (nth w i) 32 32)
  { lr := lo 0, beta1 := hi 0, beta2 := lo 1, eps := hi 1, wd := lo 2, gscale := hi 2, damp := fld (nth w 3) 0 32
    stat := hi 3, tol := fld (nth w 4) 0 32, n := fld (nth w 4) 32 16, p := fld (nth w 4) 48 8, iters := fld (nth w 4) 56 8
    blockL := fld (nth w 5) 0 16, blockR := fld (nth w 5) 16 16, biasCorr := bit (nth w 5) 32
    rest := fld (nth w 5) 33 31 != 0 || nth w 6 != 0 || nth w 7 != 0 }

def nonNeg (a : FVal) : Bool := finite a && (a.isZero || !a.neg?)
def positive (a : FVal) : Bool := finite a && !a.isZero && !a.neg?
def belowUnit (a : FVal) : Bool := nonNeg a && isLt (fCmp a one)

/-- A hyperparameter out of range: the plane rule's own fields bind under that rule (log entry 35, DESIGN CHOICE). -/
def hyperBad (plane : Bool) (h : Hyper) : Bool :=
  h.rest || !nonNeg h.lr || !belowUnit h.beta1 || !belowUnit h.beta2 || !positive h.eps || !nonNeg h.wd || !finite h.gscale
  || !finite (val32 h.damp) || !finite h.stat || !finite (val32 h.tol)
  || (plane && (!nonNeg (val32 h.damp) || !belowUnit h.stat || !positive (val32 h.tol) || h.n == 0
      || !(h.p == 2 || h.p == 4) || h.iters == 0 || decide (64 < h.iters)
      || h.blockL == 0 || decide (8192 < h.blockL) || h.blockR == 0 || decide (8192 < h.blockR)))

/-! ### The block rule (R264, R265) -/

/-- β^t by squaring: the factors of the set bits of t in ascending order. -/
def powiFrom : Nat → FVal → FVal → Nat → FVal
  | 0, acc, _, _ => acc
  | n + 1, acc, b, t => powiFrom n (if t % 2 = 1 then mul64 acc b else acc) (mul64 b b) (t / 2)

def powi (b : FVal) (t : Nat) : FVal := powiFrom 32 one b t

/-- The constants c1, c2, cw of a shard. -/
def blockConsts (h : Hyper) (t : Nat) (k : Int) : FVal × FVal × FVal :=
  let a := fun b => if h.biasCorr then sub64 one (powi b t) else one
  (to32 (div64 (ldexp64 h.lr k) (a h.beta1)), to32 (div64 one (a h.beta2)), to32 (ldexp64 (mul64 h.lr h.wd) k))

/-- A stochastic BF16 write (R71): its bits. -/
def sr16 (key : SrKey) (x : Nat) (v : FVal) : Nat := (convertElem .bf16 .ieee (.sr (srValue key x)) false 0x7F 0 v).bits
def bf16 (bits : Nat) : FVal := decodeElem .bf16 bits

/-- What an element's update leaves: whether it was skipped, the bits of w, m, v, and uq. -/
structure ElemOut where
  skip : Bool
  w : Nat
  m : Nat
  v : Nat
  uq : FVal
  old : FVal
  deriving DecidableEq, Repr

/-- What the elements of a shard share. -/
structure ElemCfg where
  h : Hyper
  k : Int
  c1 : FVal
  c2 : FVal
  cw : FVal
  keyM : SrKey
  keyV : SrKey
  deriving DecidableEq, Repr

/-- One element at index x: gradient g0, live bits w, m, v, and the direction P of the plane rule where roots are in force. -/
def blockElem (c : ElemCfg) (x g0 w m v : Nat) (dir : Option FVal) : ElemOut :=
  let g := mul32 (val32 g0) c.h.gscale
  let m1 := fma32 c.h.beta1 (bf16 m) (mul32 (sub32 one c.h.beta1) (dir.getD g))
  let v1 := fma32 c.h.beta2 (bf16 v) (mul32 (sub32 one c.h.beta2) (mul32 g g))
  let m2 := sr16 c.keyM x m1
  let v2 := sr16 c.keyV x v1
  let u := match dir with
    | some _ => fma32 c.cw (val32 w) (mul32 (bf16 m2) c.c1)
    | none => fma32 c.cw (val32 w) (div32 (mul32 (bf16 m2) c.c1) (add32 (sqrt32 (mul32 (bf16 v2) c.c2)) c.h.eps))
  let uq := bf16 (convertElem .bf16 .ieee .rne false 0x7F 0 u).bits
  if [val32 g0, g, m1, v1, bf16 m2, bf16 v2, u, uq].all finite && (dir.getD one |> finite) then
    { skip := false, w := packVal .fp32 (sub32 (val32 w) (to32 (uq.scale (-c.k)))), m := m2, v := v2, uq := uq, old := val32 w }
  else { skip := true, w := w, m := m, v := v, uq := fZero, old := val32 w }

/-- What updated elements add to a watch block (R172): squares of the scaled updates and of the weights read. -/
def ownerWatch (l : List ElemOut) : WatchBlock :=
  let l := l.filter fun e => !e.skip
  let (dw, _, _) := squares (l.map ElemOut.uq)
  let (w, _, _) := squares (l.map ElemOut.old)
  let a := amaxOf (l.map ElemOut.uq)
  { ssqDw := satSum 640 dw 0, ssqW := satSum 640 w 0, satR := ssqFull dw 0 || ssqFull w 0, owned := true
    updAmax := BitVec.ofNat 32 (packVal .fp32 (.fin false a.1 a.2)) }

/-- The journal blocks of a list of scaled updates: scales, codes (R405). -/
def journalBlocks : Nat → List FVal → List Byte × List Byte
  | 0, _ => ([], [])
  | n + 1, l =>
    let b := quantBlock 0x118 ⟨0, 0, 0⟩ 0 false (l.take 32) {}
    let (s, c) := journalBlocks n (l.drop 32)
    (BitVec.ofNat 8 b.scale :: s, packCodes .e2m1 b.codes ++ c)

/-! ### Products of the plane rule (R268 to R271): adaptive FP64, split ⌈K/4096⌉ -/

/-- A byte of a matrix of FP64 values with k columns, as it would lie in memory. -/
def matByte (f : Nat → Nat → FVal) (k x : Nat) : Byte := BitVec.ofNat 8 (packVal .fp64 (f (x / 8 / k) (x / 8 % k)) / 256 ^ (x % 8))

/-- Place of the second operand of a plane product. -/
def planeB : Nat := 2 ^ 70

/-- The product of a (m × k) and b (k × n), stored in a format. -/
def planeProd (m n k : Nat) (a b : Nat → Nat → FVal) (out : Nat) : Mat :=
  let rd := fun x => if planeB ≤ x then matByte (fun j i => b i j) k (x - planeB) else matByte a k x
  let p : ProdSpec :=
    { m := m, n := n, k := k, acc := 3, accExp := 0, sc := ceilDiv k 4096, vmode := 0, aAddr := 0, bAddr := planeB
      aScale := 0, bScale := 0, aZp := 0, fa := 0, fb := 0, roles := 0, preSrc := 0, preFmt := 0, preAddr := 0, list := 0
      inlayA := 0, inlayB := 0, out := 0, fout := out, inlayN := 0, tensor := 0, ibase := 0 }
  let x := prodA rd p 0
  let y := prodB rd p 0
  (rangeFrom 0 m).map fun i => (rangeFrom 0 n).map fun j =>
    let e := (jigElement (prodCfg p) x y [] (prodBlocks p) p.sc i j (zeroEntry .ven64) {}).1
    decodeElem ((fwFmt out).getD .fp64) (storeEntry (prodCfg p) out ⟨0, 0, 0⟩ 0 e).bits

def prod64 (n : Nat) (a b : Mat) : Mat := planeProd n n n (matGet a) (matGet b) 0

/-- The statistics of one diagonal block: n rows from first on of g (n × k), folded into the old block (R268). -/
def statBlock (stat : FVal) (n k first : Nat) (g : Nat → Nat → FVal) (old : Nat → Nat → FVal) : Mat :=
  let gg := planeProd n n k (fun i j => g (first + i) j) (fun i j => g (first + j) i) 0
  let r := sub64 one stat
  (rangeFrom 0 n).map fun i => (rangeFrom 0 n).map fun j =>
    (fFma .fp64 .rne stat (old i j) (mul64 r (matGet gg i j))).1

/-! ### Inverse roots (R271, R272) -/

def mapMat (n : Nat) (f : Nat → Nat → FVal) : Mat := (rangeFrom 0 n).map fun i => (rangeFrom 0 n).map (f i)
def matTrace (n : Nat) (s : Mat) : FVal := (rangeFrom 0 n).foldl (fun t i => add64 t (matGet s i i)) fZero
def matFinite (a : Mat) : Bool := a.all fun r => r.all finite

/-- The largest magnitude of a matrix; NaN where it holds one (R201). -/
def matAmax (a : Mat) : FVal :=
  let l := a.flatten
  if l.any FVal.isNan then genNan
  else l.foldl (fun m v => if isLt (fCmp m v.abs) then v.abs else m) fZero

/-- a is at most b. -/
def atMost (a b : FVal) : Bool := fCmp a b == some .lt || fCmp a b == some .eq

/-- The iteration of R271 from M and X on; none where it fails. -/
def rootLoop (n p : Nat) (tol : FVal) : Nat → Mat → Mat → Option Mat
  | fuel, m, x =>
    if atMost (matAmax (mapMat n fun i j => sub64 (matGet m i j) (if i = j then one else fZero))) tol then some x
    else match fuel with
      | 0 => none
      | fuel + 1 =>
        let pv : FVal := .fin false p 0
        let p1 : FVal := .fin false (p + 1) 0
        let t := mapMat n fun i j => mul64 (sub64 (if i = j then p1 else fZero) (matGet m i j)) (div64 one pv)
        let x := prod64 n x t
        let t2 := prod64 n t t
        let tp := if p = 2 then t2 else prod64 n t2 t2
        let m := prod64 n tp m
        if matFinite x && matFinite m then rootLoop n p tol fuel m x else none

/-- c^(−1/p): RSQRT(c) for p = 2, RSQRT(SQRT(c)) for p = 4. -/
def rootInv (c : FVal) (p : Nat) : FVal :=
  let rs := fun v => (funcEval .fp64 .rne 6 v).1
  if p = 2 then rs c else rs (funcEval .fp64 .rne 5 c).1

/-- inv_root of R271. -/
def invRoot (n p iters : Nat) (d tol : FVal) (s : Mat) : Option Mat :=
  let c := add64 (matTrace n s) (mul64 (.fin false n 0) d)
  if finite c && positive c then
    let ic := div64 one c
    let m := mapMat n fun i j => mul64 (if i = j then add64 (matGet s i j) d else matGet s i j) ic
    let r := rootInv c p
    rootLoop n p tol iters m (mapMat n fun i j => if i = j then r else fZero)
  else none

/-- The five damped attempts of R272 on one block: the root and the attempt that succeeded. -/
def rootAttempts (n p iters : Nat) (damp tol : FVal) (s : Mat) : Option (Mat × Nat) :=
  let tau := matTrace n s
  let d := fun (t : Nat) => div64 (mul64 (ldexp64 damp t) tau) (.fin false n 0)
  (rangeFrom 0 5).findSome? fun t => (invRoot n p iters (d t) tol s).map fun x => (x, t)

end Sys2Proof.Machine
end

