-- ==== Sys2Proof/Machine/MemOps.lean ====
section
/-!
DEFINITION. Memory seen from outside the engines (chapter 10): patrol scrub, refresh and retraining, the CXL.mem window, the
secure reserve, snoops; and the page tables as the chip bench changes them for MAP and UNMAP (R295 to R299).
-/

namespace Sys2Proof.Machine

open Sys2Proof

/-! ### Error counts and the patrol scrub (R287 to R292, R307) -/

/-- Counts a corrected error of a panel. -/
def countCorr (s : State) (p : Panel) : State :=
  { s with mem := { s.mem with eccCorr := tabSet 0 s.mem.eccCorr p.val (sat64 (tabGet 0 s.mem.eccCorr p.val + 1)) } }

/-- Counts an uncorrectable error of a panel. -/
def countUncorr (s : State) (p : Panel) : State :=
  { s with mem := { s.mem with eccUncorr := tabSet 0 s.mem.eccUncorr p.val (sat64 (tabGet 0 s.mem.eccUncorr p.val + 1)) } }

/-- Poisons data units of GDDR7. -/
def poisonUnitsAt (s : State) (l : List Nat) : State :=
  { s with mem := { s.mem with gddr := l.foldl (fun b a => setPoison b a 64) s.mem.gddr } }

/-- An uncorrectable error found in units: they become poison, it is counted, and MEM_UE names the address. -/
def memUe (s : State) (pa : Nat) (units : List Nat) : State :=
  let p := paPanel pa
  raiseEv (countUncorr (poisonUnitsAt s units) p) evMemUe (srcMem p) [pa]

/-- What a read of the data unit at pa finds, in which the devices have upset what upset says (R285, R288, R307). -/
def memError (pa : Nat) (upset : Upset) (s : State) : State :=
  let u := pa / 64 * 64
  match upset with
  | .none => s
  | .oneBit | .onDie => countCorr s (paPanel pa)
  | .many => memUe s u [u]
  | .checkUnit => memUe s u (groupUnits pa)

/-- The patrol scrub reads the data unit at pa, in which the devices have upset what upset says. -/
def patrolScrub (pa : Nat) (upset : Upset) (s : State) : State :=
  if (s.memCtl (paPanel pa)).inReset || (s.memCtl (paPanel pa)).selfRefresh then s
  else
    memError pa upset { s with mem := { s.mem with scrubbed := s.mem.scrubbed + 1 } }

/-- PATROL_SCRUB (R290); an address that names no memory has no unit to read (R294). -/
def execPatrolScrub (pa : Nat) (upset : Upset) (s : State) : Host.Outcome State Fault Refusal :=
  if paOk pa then .next (patrolScrub pa upset s) else .fault (.noMemory pa)

/-- REFRESH: no datum is lost or changed (R286). -/
def execRefresh (_dev : Fin 24) (_ch : Fin 4) (s : State) : Host.Outcome State Fault Refusal :=
  .next { s with mem := { s.mem with refreshed := s.mem.refreshed + 1 } }

/-- PERIODIC_RETRAIN: in a refresh slot; no datum changes (R285). -/
def execPeriodicRetrain (_dev : Fin 24) (_ch : Fin 4) (s : State) : Host.Outcome State Fault Refusal :=
  .next { s with mem := { s.mem with retrained := s.mem.retrained + 1 } }

/-- Every channel of the 24 devices is trained (R284, R285). -/
def trainChannels (s : State) : State := { s with mem := { s.mem with trained := s.mem.trained + 96 } }

/-! ### The CXL.mem window (R304, R305) -/

def aperCtx (w : W64) : Ctx := ⟨fld w.toNat 0 10, by unfold fld; omega⟩
def aperRo (w : W64) : Bool := bit w.toNat 10
def aperEn (w : W64) : Bool := bit w.toNat 11
def aperBase (w : W64) : Nat := fld w.toNat 30 14 * 2 ^ 30

/-- The aperture of a 64-byte unit of the window. -/
def aperOf (s : State) (unit : Nat) : W64 := tabGet 0 s.mem.aper (unit / 2 ^ 24)

/-- A unit of the window lies in an aperture that is enabled for an open context. -/
def windowOpen (s : State) (unit : Nat) : Bool :=
  let a := aperOf s unit
  decide (unit < 2 ^ 28) && ideOk s && aperEn a && (s.ctx (aperCtx a)).phase == .opened

/-- The device virtual address of a unit of the window. -/
def windowVa (s : State) (unit : Nat) : Nat := aperBase (aperOf s unit) + unit % 2 ^ 24 * 64

/-- The physical address of a unit of the window for a read (hdm) or a write (hdmWrite); none where it is refused (R296, R305,
R497). -/
def windowPa (s : State) (k : Access) (unit : Nat) : Option Nat :=
  if windowOpen s unit then accessPa s (aperCtx (aperOf s unit)) (windowVa s unit) k else none

/-- An error in a page table that the window meets is reported (R307). -/
def noteWindow (s : State) (unit : Nat) : State :=
  if windowOpen s unit then noteBadTable s (aperCtx (aperOf s unit)) (windowVa s unit) else s

/-- HDM_READ: the unit, or all ones with poison, counted (R303, R305). -/
def hdmRead (unit : Nat) (s : State) : State :=
  if !s.qmg.cxlUp then s
  else match windowPa s .hdm unit with
    | none =>
      let s := noteWindow s unit
      let s := { s with mem := { s.mem with hdmPoison := sat64 (s.mem.hdmPoison + 1) } }
      s.emit (.hdmData unit (List.replicate 64 0xFF) true)
    | some pa =>
      let (d, bad) := gddrRead s pa 64
      (noteResetRead s pa).emit (.hdmData unit d bad)

/-- The bytes of a unit with those that the byte enables name replaced. -/
def mergeBytes (be : Nat) : Nat → List Byte → List Byte → List Byte
  | i, o :: os, n :: ns => (if bit be i then n else o) :: mergeBytes be (i + 1) os ns
  | _, os, _ => os

/-- The write of one unit of GDDR7 under byte enables: a whole one clears its poison, a partial one merges and leaves it
(R289, R292). -/
def unitWrite (s : State) (pa be : Nat) (data : List Byte) : State :=
  if be = 2 ^ 64 - 1 then gddrWrite s pa (padTo 64 data)
  else
    let (d, bad) := gddrRead s pa 64
    gddrWrite s pa (mergeBytes be 0 d (padTo 64 data)) bad

/-- HDM_WRITE: the unit is written, or dropped and counted (R305). -/
def hdmWrite (unit : Nat) (be : W64) (data : List Byte) (s : State) : State :=
  if !s.qmg.cxlUp then s
  else match windowPa s .hdmWrite unit with
    | some pa => if aperRo (aperOf s unit) then { s with mem := { s.mem with hdmDrop := sat64 (s.mem.hdmDrop + 1) } }
      else unitWrite s pa be.toNat data
    | none =>
      let s := noteWindow s unit
      { s with mem := { s.mem with hdmDrop := sat64 (s.mem.hdmDrop + 1) } }

def execHdmRead (unit : Nat) (s : State) : Host.Outcome State Fault Refusal := .next (hdmRead unit s)
def execHdmWrite (unit : Nat) (be : W64) (data : List Byte) (s : State) : Host.Outcome State Fault Refusal :=
  .next (hdmWrite unit be data s)

/-- CXL_SNOOP: every snoop is answered as a miss (R367). -/
def execCxlSnoop (addr : W64) (s : State) : Host.Outcome State Fault Refusal :=
  .next (if s.qmg.cxlUp then s.emit (.snoopMiss addr) else s)

/-! ### The secure reserve (R299) -/

/-- Some context is not FREE. -/
def anyContext (s : State) : Bool := s.qmg.ctxs.any fun c => decide (c.2.phase ≠ .free)

/-- A write of MEM.SECRES that host software may make. -/
def secresSet (v : W64) (s : State) : State :=
  if anyContext s then { s with mem := { s.mem with secresIgn := sat64 (s.mem.secresIgn + 1) } }
  else { s with mem := { s.mem with secres := min (v.toNat % 32) 16 } }

def execSecresWrite (v : W64) (s : State) : Host.Outcome State Fault Refusal := .next (hostWrite s (secresSet v))

/-! ### Page tables (R295, R297, R298) -/

/-- A range of a memory is made to hold nothing: zero bytes, no poison. -/
def clearRange (b : Bank) (a n : Nat) : Bank :=
  { cells := b.cells.filter fun c => !decide (a ≤ c.1 ∧ c.1 < a + n)
    poison := b.poison.filter fun u => !decide (a ≤ 64 * u ∧ 64 * u + 64 ≤ a + n) }

/-- The chip bench clears a page table; dropped and counted as one write while the controllers are in reset (R303; log entry 106). -/
def gddrClear (s : State) (a n : Nat) : State :=
  let c := s.memCtl (paPanel a)
  if c.inReset then s.setMemCtl (paPanel a) { c with writesDropped := c.writesDropped + 1 }
  else { s with mem := { s.mem with gddr := clearRange s.mem.gddr a n } }

/-- Page sizes by PSIZE. -/
def pageSize (k : Nat) : Nat := match k with
  | 0 => 2 ^ 16
  | 1 => 2 ^ 21
  | _ => 2 ^ 30

/-- A place in the page-table pools of panels 1 to 3 that no table uses: the lowest that fits. An entry names a table by bits
[39:16] of its address alone (R295), so every table begins on a 64 KiB boundary (log entry 20). -/
def tablePlace (s : State) (size : Nat) : Option Nat :=
  let used := s.mem.tables
  let pools := [1, 2, 3].map fun p => p * panelSpan + reserveOff
  let starts := pools ++ used.map fun t => roundUp (t.1 + t.2.1) 65536
  let fits := fun a => pools.any (fun p => decide (p ≤ a ∧ a + size ≤ p + 2 ^ 27))
    && used.all fun t => decide (a + size ≤ t.1 ∨ t.1 + t.2.1 ≤ a)
  (starts.filter fits).foldl (fun m a => some (match m with
    | some b => min a b
    | none => a)) none

/-- A new empty table for a context. -/
def newTable (s : State) (c : Ctx) (size : Nat) : Option (State × Nat) :=
  (tablePlace s size).map fun a =>
    let s := gddrClear s a size
    ({ s with mem := { s.mem with tables := s.mem.tables ++ [(a, size, c.val)] } }, a)

/-- Writes a page-table entry. -/
def putPte (s : State) (addr e : Nat) : State := gddrWrite s addr (leBytes 8 e)

/-- The table that an entry names; a new one of the given size is entered where there is none. -/
def tableUnder (s : State) (c : Ctx) (addr size : Nat) : Option (State × Nat) :=
  let e := (pteAt s addr).1
  if pteV e ∧ ¬ pteLeaf e then some (s, ptePa e)
  else (newTable s c size).map fun r => (putPte r.1 addr (mkPte r.2 false false false false), r.2)

/-- Enters one leaf of a page size for a context; none where no table can be made. -/
def mapLeaf (s : State) (c : Ctx) (va psize e : Nat) : Option State :=
  let a2 := rootTable c + 8 * (va / 2 ^ 30)
  if psize = 2 then some (putPte s a2 e)
  else match tableUnder s c a2 4096 with
    | none => none
    | some (s, t1) =>
      let a1 := t1 + 8 * (va / 2 ^ 21 % 512)
      if psize = 1 then some (putPte s a1 e)
      else match tableUnder s c a1 256 with
        | none => none
        | some (s, t0) => some (putPte s (t0 + 8 * (va / 2 ^ 16 % 32)) e)

/-- Enters the leaves of count pages. -/
def mapLeaves (c : Ctx) (psize : Nat) (w x hdm : Bool) : Nat → Nat → Nat → State → Option State
  | 0, _, _, s => some s
  | n + 1, va, pa, s =>
    (mapLeaf s c va psize (mkPte pa true w x hdm)).bind
      (mapLeaves c psize w x hdm n (va + pageSize psize) (pa + pageSize psize))

/-- The indices of a table of n entries of a given span, from address base, that a range meets. -/
def meetIndices (base span n lo hi : Nat) : List Nat :=
  (rangeFrom 0 n).filter fun i => decide (base + i * span < hi ∧ lo < base + (i + 1) * span)

/-- The valid leaves in the tables that a virtual range meets: first address, size, address of the entry. -/
def tableLeaves (s : State) (c : Ctx) (lo hi : Nat) : List (Nat × Nat × Nat) :=
  (meetIndices 0 (2 ^ 30) 16384 lo hi).flatMap fun i2 =>
    let a2 := rootTable c + 8 * i2
    let e2 := (pteAt s a2).1
    let v2 := i2 * 2 ^ 30
    if !pteV e2 then []
    else if pteLeaf e2 then [(v2, 2 ^ 30, a2)]
    else (meetIndices v2 (2 ^ 21) 512 lo hi).flatMap fun i1 =>
      let a1 := ptePa e2 + 8 * i1
      let e1 := (pteAt s a1).1
      let v1 := v2 + i1 * 2 ^ 21
      if !pteV e1 then []
      else if pteLeaf e1 then [(v1, 2 ^ 21, a1)]
      else (meetIndices v1 (2 ^ 16) 32 lo hi).filterMap fun i0 =>
        let a0 := ptePa e1 + 8 * i0
        let e0 := (pteAt s a0).1
        if pteV e0 && pteLeaf e0 then some (v1 + i0 * 2 ^ 16, 2 ^ 16, a0) else none

/-- The leaves that a range meets, those that an UNMAP in progress has dropped left out. -/
def leavesIn (s : State) (c : Ctx) (lo hi : Nat) : List (Nat × Nat × Nat) :=
  (tableLeaves s c lo hi).filter fun e => !unmapped s c e.1

/-- The addresses of the page-table entries that a walk of the range meets poisoned (R293, R303). -/
def poisonedEntries (s : State) (c : Ctx) (lo hi : Nat) : List Nat :=
  (meetIndices 0 (2 ^ 30) 16384 lo hi).flatMap fun i2 =>
    let a2 := rootTable c + 8 * i2
    let (e2, p2) := pteAt s a2
    let v2 := i2 * 2 ^ 30
    if p2 then [a2]
    else if !pteV e2 || pteLeaf e2 then []
    else (meetIndices v2 (2 ^ 21) 512 lo hi).flatMap fun i1 =>
      let a1 := ptePa e2 + 8 * i1
      let (e1, p1) := pteAt s a1
      let v1 := v2 + i1 * 2 ^ 21
      if p1 then [a1]
      else if !pteV e1 || pteLeaf e1 then []
      else ((meetIndices v1 (2 ^ 16) 32 lo hi).map fun i0 => ptePa e1 + 8 * i0).filter fun a0 => (pteAt s a0).2

/-! ### MAP and UNMAP (R297, R383) -/

/-- The INLINE fields of a MAP or UNMAP. -/
structure MapSpec where
  va : Nat
  pa : Nat
  count : Nat
  psize : Nat
  w : Bool
  x : Bool
  hdm : Bool
  rest : Nat
  deriving DecidableEq, Repr

def mapSpec (w : List Nat) : MapSpec :=
  let k := nth w 6
  { va := nth w 4, pa := nth w 5, count := fld k 0 32, psize := fld k 32 2, w := bit k 34, x := bit k 35, hdm := bit k 36
    rest := fld k 37 27 }

def MapSpec.len (m : MapSpec) : Nat := m.count * pageSize m.psize

/-- A malformed MAP. -/
def mapMalformed (w : List Nat) : Bool :=
  let m := mapSpec w
  m.count == 0 || m.psize == 3 || m.rest != 0 || nth w 7 != 0 || m.va % pageSize m.psize != 0 || m.pa % pageSize m.psize != 0
    || decide (2 ^ 44 < m.va + m.len) || decide (2 ^ 40 < m.pa + m.len)

/-- A malformed UNMAP. -/
def unmapMalformed (w : List Nat) : Bool :=
  let m := mapSpec w
  m.count == 0 || m.psize == 3 || fld (nth w 6) 34 30 != 0 || nth w 5 != 0 || nth w 7 != 0
    || m.va % pageSize m.psize != 0 || decide (2 ^ 44 < m.va + m.len)

def regionBase (r : W64) : Nat := fld r.toNat 0 24 * 2 ^ 16
def regionEnd (r : W64) : Nat := (fld r.toNat 24 24 + 1) * 2 ^ 16

/-- A region of the locked configuration allows a mapping of a context. -/
def regionAllows (s : State) (c : Ctx) (m : MapSpec) (n : Nat) : Bool :=
  let r := tabGet 0 s.sec.regions n
  bit (tabGet 0 s.sec.bind c.val).toNat n && bit r.toNat 51
    && decide (regionBase r ≤ m.pa) && decide (m.pa + m.len ≤ regionEnd r)
    && (!m.w || bit r.toNat 48) && (!m.x || bit r.toNat 49) && (!m.hdm || bit r.toNat 50)

/-- A physical range touches the fixed reserve or the secure reserve in force (R298, R299). -/
def touchesReserve (s : State) (pa n : Nat) : Bool :=
  (rangeFrom 0 4).any fun p =>
    rangesTouch (p * panelSpan + reserveOff - s.mem.secres * 2 ^ 30) (p * panelSpan + panelData) pa (pa + n)
where
  rangesTouch (a b c d : Nat) : Bool := decide (a < d ∧ c < b)

/-- A well-formed MAP that is denied; so is one that meets a poisoned table entry, which is no ordinary data (R293; log entry
107, DESIGN CHOICE). -/
def mapDenied (s : State) (c : Ctx) (m : MapSpec) : Bool :=
  !((rangeFrom 0 64).any (regionAllows s c m)) || touchesReserve s m.pa m.len
    || leavesIn s c m.va (m.va + m.len) != [] || poisonedEntries s c m.va (m.va + m.len) != []

/-- MAP: the new state, or none where it is denied. -/
def mapPages (s : State) (c : Ctx) (m : MapSpec) : Option State :=
  if mapDenied s c m then none else mapLeaves c m.psize m.w m.x m.hdm m.count m.va m.pa s

/-- UNMAP: every leaf wholly inside is dropped for new accesses; none where one lies partly inside, or an entry is poisoned. -/
def unmapPages (s : State) (c : Ctx) (m : MapSpec) : Option State :=
  if (leavesIn s c m.va (m.va + m.len)).all (fun e => decide (m.va ≤ e.1 ∧ e.1 + e.2.1 ≤ m.va + m.len))
      && poisonedEntries s c m.va (m.va + m.len) == [] then
    some (updCtx s c fun x => { x with unmapping := x.unmapping ++ [(m.va, m.len)] })
  else none

/-- The end of an UNMAP: its leaves leave the tables, and its range is open to a MAP again. -/
def unmapDone (s : State) (c : Ctx) (m : MapSpec) : State :=
  let l := (tableLeaves s c m.va (m.va + m.len)).filter fun e => decide (m.va ≤ e.1 ∧ e.1 + e.2.1 ≤ m.va + m.len)
  let s := l.foldl (fun s e => putPte s e.2.2 0) s
  updCtx s c fun x => { x with unmapping := x.unmapping.erase (m.va, m.len) }

/-- The tables of a context's address space: an empty level-2 table at OPEN (R371). -/
def openTables (s : State) (c : Ctx) : State := gddrClear s (rootTable c) 0x20000

/-- FREE returns a context's tables to the pools (R371). -/
def freeTables (s : State) (c : Ctx) : State :=
  { s with mem := { s.mem with tables := s.mem.tables.filter fun t => t.2.2 != c.val } }

/-- An access in progress uses a virtual range of a context: a mover's command or a part of a descriptor. -/
def rangeInUse (s : State) (c : Ctx) (lo hi : Nat) : Bool :=
  let meets := fun (r : Nat × Nat) => decide (r.1 < hi ∧ lo < r.1 + r.2)
  s.cores.any (fun k => [k.2.matrix, k.2.vector, k.2.mover].any fun e =>
      e.queue.any fun q => q.tags.ctx == c && q.vas.any meets)
    || s.qmg.descs.any fun d => d.2.ctx == c && d.2.parts.any fun p => p.reads.any meets || p.writes.any meets

end Sys2Proof.Machine
end

