-- ==== Sys2Proof/Machine/Records.lean ====
section
/-!
DEFINITION. The completion writer (R385 to R387, R392, R395, R396): completion records, report blocks, MSI-X windows, and how
a descriptor ends.
-/

namespace Sys2Proof.Machine

open Sys2Proof

/-! ### Queues, groups, contexts -/

/-- Ring entries of a queue. -/
def QueueState.size (x : QueueState) : Nat := 2 ^ x.log2size.toNat

/-- A descriptor in progress by the key of its table. -/
def descOfKey (k : Nat) : DescId := ⟨⟨k / 2 ^ 32 % 65536, Nat.mod_lt _ (by decide)⟩, BitVec.ofNat 32 k⟩

/-- Descriptors in progress that a test names, in queue and number order. -/
def descsWhere (s : State) (t : DescState → Bool) : List DescId :=
  (s.qmg.descs.filter fun e => t e.2).map fun e => descOfKey e.1

def updQueue (s : State) (q : Queue) (g : QueueState → QueueState) : State := s.setQueue q (g (s.queue q))

/-- Parts of a context that are placed and not ended (OPEN_PARTS of R395). -/
def openParts (s : State) (c : Ctx) : Nat :=
  s.qmg.descs.foldl (fun n e => if e.2.ctx = c then n + e.2.parts.length else n) 0

/-- A send that still awaits its ACK. -/
def awaitsAck (x : SendMsg) : Bool :=
  !x.acked && !x.failed && match x.owner with
    | .ack => false
    | .coll _ _ => false
    | _ => true

/-- Sends of a context that await an ACK, at both link dies. -/
def openSends (s : State) (c : Ctx) : Nat :=
  ((s.die 0).sends ++ (s.die 1).sends).foldl (fun n e => if e.2.ctx = c ∧ awaitsAck e.2 = true then n + 1 else n) 0

/-- A receive entry of a context's jobs. -/
def recvOf (s : State) (c : Ctx) (r : RecvMsg) : Bool := (s.job r.job).resident && (s.job r.job).ctx == c

/-- Sends that await an ACK plus open receive entries (OPEN_MSGS of R395). -/
def openMsgs (s : State) (c : Ctx) : Nat :=
  openSends s c + (((s.die 0).recvs ++ (s.die 1).recvs).filter (recvOf s c)).length

/-! ### The report block (R387) -/

/-- The tallies by index. -/
def tallyList (t : Tallies) : List Nat :=
  [t.ovf, t.inv, t.nanInt, t.shiftLoss, t.bvTiles, t.splitC, t.overC, t.hist6, t.hist7, t.hist8, t.hist9, t.zeroBlock,
   t.scaleRaise, t.scaleFloor, t.inlayDropped, t.softmaxEmpty, t.factorRetry, t.pivotFix, t.updSkip, t.sparseOrder,
   t.sparseRange, t.planeRetry, t.restoreSteps]

/-- 32-bit values, two to a word. -/
def pairWords : List Nat → List Nat
  | [] => []
  | [a] => [a]
  | a :: b :: t => (a + 2 ^ 32 * b) :: pairWords t

/-- Bit u of the map is set for each part u of a list. -/
def partMap (l : List PartState) : Nat := l.foldl (fun n p => n ||| 2 ^ p.unit) 0

def failedParts (x : DescState) : List PartState := x.ended.filter fun p => p.failed

/-- The 256 bytes of a report block. -/
def reportBytes (x : DescState) (status : BitVec 16) : List Byte :=
  let run := partMap x.ended
  let bad := partMap (failedParts x)
  let words := [status.toNat + 2 ^ 16 * x.tallies.flags.toNat, fld run 0 64, fld run 64 64, fld run 128 64,
    fld bad 0 64, fld bad 64 64, fld bad 128 64, x.tallies.poisonUnits]
  let tallies := pairWords (tallyList x.tallies)
  padTo 256 (padTo 192 (wordBytes (words ++ tallies)) ++ wordBytes ((rangeFrom 24 8).map fun i => (tabGet 0 x.results i).toNat))

/-- The windows of a context's queues begin anew, as at the end of an exemption (R428). -/
def restartQueues (s : State) (c : Ctx) : State :=
  let mine := fun (q : Nat) => (s.group (q / 64)).2 && (s.group (q / 64)).1 == c
  { s with qmg := { s.qmg with queues := s.qmg.queues.map fun e => if mine e.1 then (e.1, { e.2 with progress := s.now }) else e } }

/-! ### The completion record (R385) -/

def descWord (x : DescState) (i : Nat) : Nat := (x.words.getD i 0).toNat
def descOp (x : DescState) : Nat := fld (descWord x 0) 0 8
def descFence (x : DescState) : Bool := bit (descWord x 0) 8
def descIrq (x : DescState) : Bool := bit (descWord x 0) 9
def descTag (x : DescState) : Nat := fld (descWord x 0) 16 16
def descStep (x : DescState) : Nat := fld (descWord x 0) 32 32
def descArgs (x : DescState) : Nat := descWord x 2
def descReport (x : DescState) : Nat := descWord x 3

/-- A range of host memory lies in a context's host window (R372). -/
def inHostWindow (x : CtxState) (a n : Nat) : Bool :=
  decide (x.hbase.toNat ≤ a / 4096) && decide ((a + n - 1) / 4096 ≤ x.hlimit.toNat)

/-- The descriptor has a report block to be written: a REPORT that is not aligned or lies outside the context's host window is
no place for one (R377, R378). -/
def reportDue (s : State) (x : DescState) : Bool :=
  descReport x != 0 && descReport x % 64 == 0 && inHostWindow (s.ctx x.ctx) (descReport x) 256

/-- The host does not take the write of a descriptor's report block (R396; log entry 63). -/
def reportLost (s : State) (x : DescState) : Bool := reportDue s x && Config.reportRefused (descReport x) s.now

/-- The descriptor's report block is written. -/
def reportGoes (s : State) (x : DescState) : Bool := reportDue s x && !Config.reportRefused (descReport x) s.now

/-- PHASE of descriptor n of a queue. -/
def recPhase (x : QueueState) (n : W32) : Nat := 1 - n.toNat / x.size % 2

/-- FLAGS of a record. POISONED is set when the descriptor wrote a unit poisoned (log entry 32, DEDUCED). -/
def recFlags (q : QueueState) (n : W32) (x : DescState) (reported : Bool) : Nat :=
  recPhase q n + 2 * bnat x.tallies.boundVoid + 4 * bnat x.tallies.nanMade + 8 * bnat reported
  + 16 * bnat (x.tallies.poisonUnits != 0) + 32 * bnat ((tallyList x.tallies).any (· != 0))
  + match x.rung with
    | some r => 64 * (r % 4) + 256
    | none => 0

/-- The 32 bytes of a completion record. -/
def recordBytes (s : State) (d : DescId) (x : DescState) (status : BitVec 16) : List Byte :=
  let q := s.queue d.q
  wordBytes [status.toNat + 2 ^ 16 * recFlags q d.n x (reportGoes s x) + 2 ^ 32 * d.q.val
      + 2 ^ 48 * (d.n.toNat % q.size),
    (gaugeField s).toNat, sat32 x.tallies.ovf + 2 ^ 32 * sat32 x.tallies.bvTiles,
    x.ended.length % 2 ^ 16 + 2 ^ 16 * ((failedParts x).length % 2 ^ 16) + 2 ^ 32 * fld (descWord x 1) 0 32]

/-- Host address of a descriptor's completion record. -/
def recordAddr (s : State) (d : DescId) : Nat :=
  (s.queue d.q).cbase.toNat * 4096 + d.n.toNat % (s.queue d.q).size * 32

/-- A write of the device to host memory. -/
def hostMemWrite (s : State) (a : Nat) (data : List Byte) : State :=
  { s with mem := { s.mem with host := bankWrite s.mem.host a data } }

/-- A record becomes visible, after its report block; DONE and the context's counts follow, and an MSI-X window opens with
the first record that is not yet signalled (R386, R395). -/
def writeRecord (s : State) (h : HeldRecord) : State :=
  let s := match h.report with
    | some (a, b) => hostMemWrite s a b
    | none => s
  let s := hostMemWrite s (recordAddr s h.desc) h.record
  let s := updQueue s h.desc.q fun q => { q with
    done := q.done + 1, progress := s.now
    window := if h.irq && q.irqEn && q.window.isNone then some s.now else q.window }
  let s := { s with qmg := { s.qmg with progress := s.now } }
  match queueCtx s h.desc.q with
  | some c => updCtx s c fun x => { x with
      completed := x.completed + 1
      cancelled := x.cancelled + bnat (ofLE (h.record.take 2) == stCancelled.toNat) }
  | none => s

/-! ### Opcodes (R378) -/

def opNop : Nat := 0x00
def opProduct : Nat := 0x01
def opPass : Nat := 0x02
def opMove : Nat := 0x03
def opColl : Nat := 0x04
def opUpdate : Nat := 0x05
def opCommit : Nat := 0x06
def opSnapshot : Nat := 0x07
def opRestore : Nat := 0x08
def opAbort : Nat := 0x10
def opMap : Nat := 0x11
def opUnmap : Nat := 0x12
def opPolicy : Nat := 0x13
def opRoute : Nat := 0x14
def opJob : Nat := 0x15

/-! ### Update descriptors of an attempt (R274, R283) -/

/-- The job of a tagged descriptor: none where there is no tag. -/
def descJob (x : DescState) : Option Job :=
  if descTag x = 0x0FFF then none else some ⟨fld (descWord x 1) 32 3, by unfold fld; omega⟩

/-- The PANEL field of an update descriptor's block: from the words read at its start, or from memory where it never started;
none where the block cannot be read. -/
def updPanel (s : State) (x : DescState) : Option Nat :=
  match x.args with
  | w :: _ => some (fld w.toNat 8 2)
  | [] => match vaRead s x.ctx (descArgs x) 8 with
    | some (l, false) => some (fld (ofLE l) 8 2)
    | _ => none

/-- Counts the completion of an update descriptor of the step that its job awaits, by panel and by whether it is OK. One whose
block cannot be read has no panel to be counted on (log entry 108, DEDUCED). -/
def noteUpdate (s : State) (x : DescState) (ok : Bool) : State :=
  if descOp x ≠ opUpdate then s
  else match (descJob x).orElse (fun _ => ctxJob s x.ctx), updPanel s x with
    | some j, some p =>
      if stepOk s j (descStep x) then
        let y := s.job j
        if ok then s.setJob j { y with updStep := BitVec.ofNat 32 (descStep x), updOk := tabSet 0 y.updOk p (tabGet 0 y.updOk p + 1) }
        else s.setJob j { y with updStep := BitVec.ofNat 32 (descStep x), updBad := tabSet 0 y.updBad p (tabGet 0 y.updBad p + 1) }
      else s
    | _, _ => s

/-- An attempt of the job is under way: an update descriptor of its step has completed, or its COMMIT is pending. -/
def attemptOpen (x : JobState) : Bool := x.commit.isSome || x.updOk != [] || x.updBad != []

/-- A reset on a panel before the vote: the panel is not READY for the attempts under way (R283). -/
def spoilReady (s : State) (p : Panel) : State :=
  [0, 1, 2, 3, 4, 5, 6, 7].foldl (fun s j =>
    let y := s.job j
    let step := match y.commit with
      | some c => c.step
      | none => y.updStep
    if attemptOpen y then
      s.setJob j { y with updStep := step, updBad := tabSet 0 y.updBad p.val (tabGet 0 y.updBad p.val + 1) } else s) s

/-! ### The end of a descriptor -/

/-- Records that wait for the CXL link find room (R396). -/
def recordRoom (s : State) : Bool := s.qmg.cxlUp || decide (s.qmg.held.length < 8192)

/-- What a descriptor leaves: its record, its report, whether it interrupts. -/
def heldOf (s : State) (d : DescId) (x : DescState) (status : BitVec 16) : HeldRecord :=
  { desc := d, record := recordBytes s d x status
    report := if reportGoes s x then some (descReport x, reportBytes x status) else none, irq := descIrq x }

/-- REPORT_FAIL where the host does not take a report block (R396). -/
def noteReport (s : State) (x : DescState) : State :=
  if reportLost s x then raiseEv s evReportFail srcQmg [] (some x.ctx) else s

/-- The descriptor ends with a status; its record is written, held while the CXL link is down, or falls due. -/
def endDesc (s : State) (d : DescId) (status : BitVec 16) : State :=
  match s.desc? d with
  | none => s
  | some x =>
    if s.qmg.cxlUp then noteReport (writeRecord ((noteUpdate s x (status == stOk)).dropDesc d) (heldOf s d x status)) x
    else if recordRoom s then
      let s' := (noteUpdate s x (status == stOk)).dropDesc d
      noteReport { s' with qmg := { s'.qmg with held := s'.qmg.held ++ [heldOf s d x status] } } x
    else s.setDesc d { x with phase := .recordDue, status := status }

/-- The status of a descriptor whose parts have all ended (R390, R392). -/
def finalStatus (x : DescState) : BitVec 16 :=
  match x.stopping with
  | some st => st
  | none => if failedParts x ≠ [] then stPartial else x.status

/-- Ends a descriptor with the status that it has come to. -/
def finishDesc (s : State) (d : DescId) : State :=
  match s.desc? d with
  | some x => endDesc s d (finalStatus x)
  | none => s

/-- A descriptor ends with a status of its own unless it is being stopped. -/
def concludeDesc (s : State) (d : DescId) (status : BitVec 16) : State :=
  match s.desc? d with
  | some x => endDesc s d (match x.stopping with
    | some st => st
    | none => status)
  | none => s

/-- Sets an opcode result of a descriptor's report (R387). -/
def setResult (s : State) (d : DescId) (i : Nat) (v : Nat) : State :=
  updDesc s d fun x => { x with results := tabSet 0 x.results i (BitVec.ofNat 64 v) }

/-! ### Order of starting (R375) -/

/-- How far a number lies ahead of a queue's HEAD − 65,536: the order in which its descriptors were fetched. -/
def descAge (s : State) (d : DescId) : Nat := (d.n - (s.queue d.q).head + 65536).toNat

/-- Earlier descriptors of the same queue that have no record yet. -/
def earlier (s : State) (d : DescId) : List DescState :=
  (s.qmg.descs.filter fun e => (descOfKey e.1).q == d.q && decide (descAge s (descOfKey e.1) < descAge s d)).map Prod.snd

/-- A descriptor may start: every earlier one of its queue has started, or with FENCE has completed. -/
def mayStart (s : State) (d : DescId) : Bool :=
  match s.desc? d with
  | some x => x.phase == .waiting && x.stopping.isNone
      && (if descFence x then earlier s d == [] else (earlier s d).all fun y => y.phase != .waiting)
  | none => false

/-- Starts descriptor d with opcode op by g, where it may start. -/
def startDesc (s : State) (d : DescId) (op : Nat) (g : DescState → State → State) : State :=
  match s.desc? d with
  | some x => if descOp x = op ∧ mayStart s d then g x (updQueue s d.q fun q => { q with progress := s.now }) else s
  | none => s

/-! ### The argument block (R376, R378) -/

/-- The words of an argument block; none where ARGS faults or names a poisoned unit. -/
def readArgs (s : State) (x : DescState) (words : Nat) : Option (List Nat) :=
  match vaRead s x.ctx (descArgs x) (8 * words) with
  | some (l, false) => some (wordsOf words l)
  | _ => none

/-- Reads the argument block and goes on with its words; without them the descriptor completes with ARGS_FAULT. -/
def withArgs (d : DescId) (words : Nat) (g : DescState → List Nat → State → State) (x : DescState) (s : State) : State :=
  match readArgs s x words with
  | none => endDesc (noteVaRead s x.ctx (descArgs x) (8 * words)) d stArgsFault
  | some w => g { x with args := w.map (BitVec.ofNat 64) } w s

/-- The argument words of a descriptor that has started. -/
def descWords (x : DescState) : List Nat := x.args.map BitVec.toNat

/-! ### MSIX_WINDOW_END (R386, R443) -/

/-- The end of a window of 1 µs: one message covers every record that is visible. -/
def msixWindowEnd (src : MsixSource) (s : State) : State :=
  match src with
  | .queue q =>
    match (s.queue q).window with
    | some t => if elapsed s t (usTicks 1) then
        (updQueue s q fun x => { x with window := none }).emit (.msix (s.queue q).vector) else s
    | none => s
  | .events =>
    match s.ev.evqWindow with
    | some t => if elapsed s t (usTicks 1) then
        ({ s with ev := { s.ev with evqWindow := none } }).emit (.msix s.ev.evqVector) else s
    | none => s

def execMsixWindowEnd (src : MsixSource) (s : State) : Host.Outcome State Fault Refusal := .next (msixWindowEnd src s)

end Sys2Proof.Machine
end

