-- ==== Sys2Proof/Machine/Queues.lean ====
section
/-!
DEFINITION. The host port's queues and contexts (R366 to R378, R383, R391 to R396): doorbells, descriptor fetch and the form
of a descriptor, NOP, ABORT, MAP, UNMAP, contexts and their teardown, queue set-up, the CXL link.
-/

namespace Sys2Proof.Machine

open Sys2Proof

/-! ### DOORBELL (R369, R370) -/

/-- The queue whose 64-byte slot a BAR2 offset touches (R368). -/
def bar2Queue (off : BitVec 22) : Queue := ⟨off.toNat / 64, by omega⟩

/-- A doorbell in the form of R369. -/
def doorbellForm (off : BitVec 22) (size : Nat) (v : W64) : Bool :=
  off.toNat % 64 == 0 && size == 8 && fld v.toNat 32 32 == 0

/-- A TAIL that R370 applies, on a queue of an open context. -/
def doorbellApplies (s : State) (q : Queue) (t : W32) : Bool :=
  let x := s.queue q
  x.enable && (match queueCtx s q with
    | some c => (s.ctx c).phase == .opened
    | none => false)
  && decide ((t - x.head).toNat ≤ x.size) && decide ((t - x.tail).toNat < 2 ^ 31)

/-- A queue has a descriptor to fetch, and the port can fetch it. -/
def fetchable (s : State) (q : Queue) : Bool :=
  let x := s.queue q
  x.enable && s.qmg.cxlUp && x.head != x.tail && ideOk s

/-- The queues with a descriptor to fetch, in ascending order. -/
def fetchQueues (s : State) : List Queue :=
  s.qmg.queues.filterMap fun e => if h : e.1 < 65536 then (if fetchable s ⟨e.1, h⟩ then some ⟨e.1, h⟩ else none) else none

/-- A queue has no work: every descriptor fetched, every record written (R428). -/
def queueIdle (x : QueueState) : Bool := x.head == x.done && x.tail == x.head

/-- A TAIL is applied; the windows of an idle queue and of an idle queue manager begin with it (R370, R428). -/
def applyDoorbell (s : State) (q : Queue) (t : W32) : State :=
  let idle := fetchQueues s = []
  let s := updQueue s q fun x => { x with
    tail := t, dbApplied := x.dbApplied + 1, progress := if queueIdle x then s.now else x.progress }
  if idle then { s with qmg := { s.qmg with progress := s.now } } else s

/-- DOORBELL: while the CXL link is down no doorbell arrives, and host software writes it again after link-up (R396). -/
def doorbell (off : BitVec 22) (size : Nat) (v : W64) (s : State) : State :=
  let q := bar2Queue off
  let t : W32 := v.setWidth 32
  if !s.qmg.cxlUp then s
  else if !doorbellForm off size v then updQueue s q fun x => { x with dbBad := x.dbBad + 1 }
  else if doorbellApplies s q t then applyDoorbell s q t
  else
    let s := updQueue s q fun x => { x with dbIgnored := x.dbIgnored + 1 }
    match queueCtx s q with
    | some c => updCtx s c fun x => { x with dbIgnored := x.dbIgnored + 1 }
    | none => s

def execDoorbell (off : BitVec 22) (size : Nat) (v : W64) (s : State) : Host.Outcome State Fault Refusal :=
  .next (doorbell off size v s)

/-- A read of BAR2 returns 0 at every offset, and changes nothing (R369). -/
def bar2Read (_off : BitVec 22) : W64 := 0

/-! ### Opcodes (R378) -/

/-- What the opcode table says of an opcode: its class (none: any), whether it needs ARGS, is step-bound, is tagged. -/
structure OpInfo where
  cls : Option Nat
  args : Bool
  stepBound : Bool
  tagged : Bool
  deriving DecidableEq, Repr

def opInfo (op : Nat) : Option OpInfo :=
  match op with
  | 0x00 => some ⟨none, false, false, false⟩
  | 0x01 => some ⟨some 0, true, true, true⟩
  | 0x02 => some ⟨some 0, true, true, true⟩
  | 0x03 => some ⟨some 1, true, false, false⟩
  | 0x04 => some ⟨some 1, true, false, false⟩
  | 0x05 => some ⟨some 2, true, true, true⟩
  | 0x06 => some ⟨some 2, true, true, false⟩
  | 0x07 => some ⟨some 3, true, true, false⟩
  | 0x08 => some ⟨some 3, true, false, false⟩
  | 0x10 => some ⟨some 4, false, false, false⟩
  | 0x11 => some ⟨some 4, false, false, false⟩
  | 0x12 => some ⟨some 4, false, false, false⟩
  | 0x13 => some ⟨some 4, true, false, false⟩
  | 0x14 => some ⟨some 4, true, false, false⟩
  | 0x15 => some ⟨some 4, true, false, false⟩
  | _ => none

/-- INLINE holds what the opcode does not name (R8, R376, R383). -/
def inlineBad (x : DescState) (op : Nat) : Bool :=
  let w := x.words.map BitVec.toNat
  if op = opAbort then fld (nth w 4) 16 16 != 0 || nth w 5 != 0 || nth w 6 != 0 || nth w 7 != 0
  else if op = opMap then mapMalformed w
  else if op = opUnmap then unmapMalformed w
  else nth w 4 != 0 || nth w 5 != 0 || nth w 6 != 0 || nth w 7 != 0

/-- A descriptor that is malformed in itself (R8, R376 to R378). -/
def formBad (s : State) (q : Queue) (x : DescState) : Bool :=
  match opInfo (descOp x) with
  | none => true
  | some i =>
    (match i.cls with
      | some c => (s.queue q).cls.toNat != c
      | none => false)
    || fld (descWord x 0) 10 6 != 0 || fld (descWord x 1) 35 29 != 0
    || (!i.tagged && descTag x != 0x0FFF)
    || (descTag x == 0x0FFF && fld (descWord x 1) 32 3 != 0)
    || (!i.stepBound && descStep x != 0)
    || (i.args && (descArgs x == 0 || descArgs x % 64 != 0)) || (!i.args && descArgs x != 0)
    || (descReport x != 0 && (descReport x % 64 != 0 || !inHostWindow (s.ctx x.ctx) (descReport x) 256))
    || inlineBad x (descOp x)

/-! ### DESCRIPTOR_FETCH (R374, R375) -/

/-- The eight words of the next descriptor of a queue. -/
def fetchWords (s : State) (q : Queue) : List W64 :=
  let x := s.queue q
  (wordsOf 8 (readBytes s.mem.host (x.rbase.toNat * 4096 + x.head.toNat % x.size * 64) 64)).map (BitVec.ofNat 64)

/-- The queue that comes after one in round-robin order among those with a descriptor to fetch. -/
def nextTurn (s : State) (q : Queue) : Option Queue := ((fetchQueues s).find? fun x => decide (q < x)).or (fetchQueues s).head?

/-- The fetch may serve a queue: it has the turn and has not had 64 descriptors in it, or the turn passes to it (R374; a turn may
end early). -/
def hasTurn (s : State) (q : Queue) : Bool :=
  match s.qmg.turn with
  | none => true
  | some (t, n) => (t == q && decide (n < 64)) || nextTurn s t == some q

/-- The turn after a fetch for a queue. -/
def takeTurn (s : State) (q : Queue) : Option (Queue × Nat) :=
  match s.qmg.turn with
  | some (t, n) => if t = q ∧ n < 64 then some (q, n + 1) else some (q, 1)
  | none => some (q, 1)

/-- Fetches the next descriptor of a queue: it is accepted, and completes at once where its context is being torn down or it
is malformed. -/
def descriptorFetch (q : Queue) (s : State) : State :=
  match queueCtx s q with
  | none => s
  | some c =>
    if fetchable s q && hasTurn s q then
      let d : DescId := ⟨q, (s.queue q).head⟩
      let x : DescState := { words := fetchWords s q, ctx := c }
      let s := updQueue s q fun y => { y with head := y.head + 1, progress := s.now }
      let s := updCtx s c fun y => { y with accepted := y.accepted + 1 }
      let s := { s with qmg := { s.qmg with progress := s.now, turn := takeTurn s q } }
      let s := s.setDesc d x
      if (s.ctx c).phase ≠ .opened then endDesc s d stCancelled
      else if formBad s q x then endDesc s d stBadDescriptor
      else s
    else s

def execDescriptorFetch (q : Queue) (s : State) : Host.Outcome State Fault Refusal := .next (descriptorFetch q s)

/-! ### Jobs that descriptors name (R377, R515) -/

/-- A job is resident and was set up by a context. -/
def jobOf (s : State) (c : Ctx) (j : Nat) : Option Job :=
  if h : j < 8 then (if (s.job ⟨j, h⟩).resident && (s.job ⟨j, h⟩).ctx == c then some ⟨j, h⟩ else none) else none

/-- As jobOf, for a job in which the module is no transit module. -/
def rankJobOf (s : State) (c : Ctx) (j : Nat) : Option Job :=
  (jobOf s c j).bind fun j => if (s.job j).nranks = 0 then none else some j

/-- A tagged descriptor whose LJOB names no job of its context. -/
def tagJobBad (s : State) (x : DescState) : Bool :=
  match descJob x with
  | none => false
  | some j => (jobOf s x.ctx j.val).isNone

/-! ### Stopping descriptors (R392, R393) -/

/-- What a job has under way for a descriptor. -/
def dropJobWork (d : DescId) (x : JobState) : JobState :=
  let x := if (x.restore.map fun r => r.desc) = some d then { x with restore := none } else x
  let x := if (x.point.map fun p => p.desc) = some d then { x with point := none } else x
  let x := if (x.change.map fun c => c.desc) = some d then { x with change := none } else x
  if (x.commit.map fun c => c.desc) = some d then { x with commit := none } else x

/-- What a descriptor has under way and not armed ends with it. -/
def dropWork (s : State) (d : DescId) : State :=
  [0, 1, 2, 3, 4, 5, 6, 7].foldl (fun s j => s.setJob j (dropJobWork d (s.job j))) (s.dropColl d)

/-- Stops a descriptor with a status: at once where no part of it runs, else when its last part has stopped; what is armed at a gauge
mark acts as armed, and its record is written with its own end (R386, R392, R393). -/
def stopDesc (s : State) (d : DescId) (status : BitVec 16) : State :=
  match s.desc? d with
  | none => s
  | some x =>
    if x.stopping.isSome ∨ x.phase = .recordDue then s
    else if x.parts ≠ [] ∨ x.phase = .finishing ∨ x.armed then s.setDesc d { x with stopping := some status, stopAt := s.now }
    else endDesc (dropWork s d) d status

/-! ### NOP (R378) -/

def execNop (d : DescId) (s : State) : Host.Outcome State Fault Refusal :=
  .next (startDesc s d opNop fun _ s => endDesc s d stOk)

/-! ### ABORT (R391, R392) -/

/-- The descriptor that an ABORT names. -/
def abortTarget (x : DescState) : DescId :=
  ⟨⟨fld (descWord x 4) 0 16, by unfold fld; omega⟩, BitVec.ofNat 32 (fld (descWord x 4) 32 32)⟩

/-- An ABORT reaches the completion writer of its target's queue. -/
def abortDecide (d t : DescId) (s : State) : State :=
  match s.desc? t with
  | none => endDesc s d stAbortLate
  | some y =>
    if t = d ∨ y.armed ∨ y.stopping.isSome ∨ y.phase = .finishing ∨ y.phase = .recordDue then endDesc s d stAbortLate
    else endDesc (stopDesc s t stAborted) d stOk

/-- The target's number has been accepted: it lies below HEAD, modulo 2^32. -/
def accepted (s : State) (t : DescId) : Bool := decide (((s.queue t.q).head - t.n - 1).toNat < 2 ^ 31)

def abortRun (d : DescId) (x : DescState) (s : State) : State :=
  let t := abortTarget x
  if queueCtx s t.q ≠ some x.ctx then endDesc s d stBadDescriptor
  else if !accepted s t then endDesc s d stNoTarget
  else abortDecide d t s

def execAbortDesc (d : DescId) (s : State) : Host.Outcome State Fault Refusal := .next (startDesc s d opAbort (abortRun d))

/-! ### MAP, UNMAP, UNMAP_COMPLETE (R297, R383) -/

def descMap (x : DescState) : MapSpec := mapSpec (x.words.map BitVec.toNat)

/-- An UNMAP of the context that is still in progress and overlaps a virtual range. -/
def unmapOver (s : State) (c : Ctx) (m : MapSpec) : Bool :=
  s.qmg.descs.any fun e => e.2.ctx == c && descOp e.2 == opUnmap && e.2.phase == .finishing
    && decide ((descMap e.2).va < m.va + m.len ∧ m.va < (descMap e.2).va + (descMap e.2).len)

/-- A poisoned table entry that a MAP or UNMAP meets is reported (R303, R307). -/
def noteTables (s : State) (c : Ctx) (m : MapSpec) : State :=
  match poisonedEntries s c m.va (m.va + m.len) with
  | [] => s
  | a :: _ =>
    if (s.memCtl (paPanel a)).inReset then noteResetRead s a else raiseEv s evMemUe (srcMem (paPanel a)) [a] (some c)

/-- MAP waits while an UNMAP of the same pages has not completed. -/
def execMapDesc (d : DescId) (s : State) : Host.Outcome State Fault Refusal :=
  .next (startDesc s d opMap fun x s0 =>
    if unmapOver s x.ctx (descMap x) then s
    else match mapPages s0 x.ctx (descMap x) with
      | some s => endDesc s d stOk
      | none => endDesc (noteTables s0 x.ctx (descMap x)) d stMapDenied)

def execUnmap (d : DescId) (s : State) : Host.Outcome State Fault Refusal :=
  .next (startDesc s d opUnmap fun x s =>
    match unmapPages s x.ctx (descMap x) with
    | some s => s.setDesc d { x with phase := .finishing }
    | none => endDesc (noteTables s x.ctx (descMap x)) d stMapDenied)

/-- UNMAP_COMPLETE: no access that used a dropped translation is left. -/
def unmapComplete (d : DescId) (s : State) : State :=
  match s.desc? d with
  | some x =>
    if descOp x = opUnmap ∧ x.phase = .finishing ∧ recordRoom s
        ∧ rangeInUse s x.ctx (descMap x).va ((descMap x).va + (descMap x).len) = false then
      finishDesc (unmapDone s x.ctx (descMap x)) d
    else s
  | none => s

def execUnmapComplete (d : DescId) (s : State) : Host.Outcome State Fault Refusal := .next (unmapComplete d s)

/-! ### Contexts (R371, R393, R394) -/

/-- A command in a state that does not allow it. -/
def cmdBad (s : State) : State := updCtx s s.qmg.csel fun x => { x with cmdBad := true }

def openCtx (s : State) : State :=
  let c := s.qmg.csel
  if (s.ctx c).phase = .free then
    let s := openTables s c
    updCtx s c fun x => { x with
      phase := .opened, drained := false, accepted := 0, completed := 0, cancelled := 0, dbIgnored := 0, msgAbandoned := 0
      genDrop := 0, rung := false }
  else cmdBad s

/-- The largest BMAX in force for a context's jobs. -/
def ctxBmax (s : State) (c : Ctx) : Nat := (ctxJobs s c).foldl (fun n j => max n (s.job j).bmax) 0

/-- How a descriptor that CLOSE finds waiting ends: an accepted ABORT comes too late for a descriptor of the context that
CLOSE ends first, and everything else is cancelled (R393, R396; log entry 119). -/
def closeStatus (s : State) (c : Ctx) (d : DescId) : BitVec 16 :=
  match s.desc? d with
  | some x =>
    let t := abortTarget x
    if descOp x = opAbort ∧ t ≠ d ∧ queueCtx s t.q = some c ∧ (s.desc? t).isSome then stAbortLate else stCancelled
  | none => stCancelled

/-- CLOSE of an open context at the present count (R393): the drain mark, and the end of what has not started. -/
def closeCtx (s : State) (c : Ctx) : State :=
  let d := s.gau.count + BitVec.ofNat 64 (max 1563 (ctxBmax s c) + 625)
  let s := updCtx s c fun x => { x with phase := .closing, drainMark := d }
  let s0 := s
  let s := (descsWhere s fun x => x.ctx == c && x.phase == .waiting).foldl (fun s d => endDesc s d (closeStatus s0 c d)) s
  (descsWhere s fun x => x.ctx == c).foldl (fun s d => stopDesc s d stCancelled) s

def ctxClose (s : State) : State :=
  if (s.ctx s.qmg.csel).phase = .opened then closeCtx s s.qmg.csel else cmdBad s

/-- The queues of a context's groups are disabled and the groups given back. -/
def freeGroups (s : State) (c : Ctx) : State :=
  let own := fun g => (s.group g).2 && (s.group g).1 == c
  { s with qmg := { s.qmg with
      queues := (s.qmg.queues.map fun e => if own (e.1 / 64) then (e.1, { e.2 with enable := false }) else e).filter fun e =>
        e.2 ≠ ({} : QueueState)
      groups := (s.qmg.groups.map fun e => if e.2.2 && e.2.1 == c then (e.1, (e.2.1, false)) else e).filter fun e =>
        e.2 ≠ ((0 : Ctx), false) } }

/-- Apertures that name a context are disabled (R497). -/
def freeApertures (s : State) (c : Ctx) : State :=
  let off := fun (w : W64) => if aperCtx w = c then w &&& ~~~(BitVec.twoPow 64 11) else w
  { s with mem := { s.mem with aper := (s.mem.aper.map fun e => (e.1, off e.2)).filter fun e => e.2 ≠ 0 } }

def ctxFree (s : State) : State :=
  let c := s.qmg.csel
  if (s.ctx c).phase = .quiescent then
    updCtx (freeApertures (freeTables (freeGroups s c) c) c) c fun x => { x with phase := .free, panelScs := [] }
  else cmdBad s

def execCtxOpen (s : State) : Host.Outcome State Fault Refusal := .next (hostWrite s openCtx)
def execCtxClose (s : State) : Host.Outcome State Fault Refusal := .next (hostWrite s ctxClose)
def execCtxFree (s : State) : Host.Outcome State Fault Refusal := .next (hostWrite s ctxFree)

/-- At the drain mark the sends of the context that await an ACK are abandoned, and its receive entries freed (R393). -/
def abandonDie (s : State) (c : Ctx) (d : Die) : State :=
  let x := s.die d
  let mine := fun (j : Job) => (s.job j).resident && (s.job j).ctx == c
  s.setDie d { x with
    sends := x.sends.filter fun e => e.2.ctx ≠ c
    recvs := x.recvs.filter fun r => !recvOf s c r
    cand := x.cand.filter fun k => k.ring.isSome || !mine ⟨k.packet.hdr.job.toNat, k.packet.hdr.job.isLt⟩ }

/-- Packets of the context that wait to be injected are given up as well. -/
def abandonRings (s : State) (c : Ctx) : State :=
  let mine := fun (j : Job) => (s.job j).resident && (s.job j).ctx == c
  let keep := fun (k : Cand) => k.ring.isSome || !mine ⟨k.packet.hdr.job.toNat, k.packet.hdr.job.isLt⟩
  { s with lnk := { s.lnk with rings :=
      (s.lnk.rings.map fun e => (e.1, { e.2 with cand := e.2.cand.filter keep })).filter fun e => e.2 ≠ ({} : RingState) } }

/-- A mark has been reached on the gauge (R351). -/
def markReached (s : State) (m : W64) : Bool := decide (m.toNat ≤ s.gau.count.toNat)

/-- CTX_DRAIN_MARK: the generation tag of the context moves on, and its jobs' with it. -/
def ctxDrainMark (c : Ctx) (s : State) : State :=
  let x := s.ctx c
  if x.phase = .closing ∧ x.drained = false ∧ markReached s x.drainMark then
    let n := openSends s c
    let s := abandonDie (abandonDie (abandonRings s c) c 0) c 1
    let s := (ctxJobs s c).foldl (fun s j => s.setJob j { s.job j with gen := x.gen + 1 }) s
    updCtx s c fun x => { x with gen := x.gen + 1, drained := true, msgAbandoned := x.msgAbandoned + n }
  else s

def execCtxDrainMark (c : Ctx) (s : State) : Host.Outcome State Fault Refusal := .next (ctxDrainMark c s)

/-- A matrix handle is held for a context. -/
def handlesHeld (s : State) (c : Ctx) : Bool :=
  s.cores.any fun k => k.2.handles.any fun h => (s.slot h.2.owner).running && (s.slot h.2.owner).ctx == c

/-- Every descriptor up to the last TAIL of a context's queues has been fetched (R393, R395; log entry 128). -/
def allFetched (s : State) (c : Ctx) : Bool :=
  s.qmg.queues.all fun e => !((s.group (e.1 / 64)).2 && (s.group (e.1 / 64)).1 == c) || !e.2.enable || e.2.head == e.2.tail

/-- The conditions of R394. -/
def quiet (s : State) (c : Ctx) : Bool :=
  let x := s.ctx c
  allFetched s c && x.phase == .closing && x.drained && x.completed == x.accepted && openParts s c == 0 && openMsgs s c == 0
    && !handlesHeld s c && !s.qmg.descs.any fun e => e.2.ctx == c

/-- CTX_QUIESCE: the context is quiescent, its jobs are no longer resident, and a context rung on it is done. -/
def ctxQuiesce (c : Ctx) (s : State) : State :=
  if quiet s c then
    let s := (ctxJobs s c).foldl (fun s j => s.setJob j { s.job j with resident := false }) s
    let s := updCtx s c fun x => { x with phase := .quiescent, rung := false }
    raiseEv (dropRung s (.context c)) evCtxQuiescent srcQmg [] (some c)
  else s

def execCtxQuiesce (c : Ctx) (s : State) : Host.Outcome State Fault Refusal := .next (ctxQuiesce c s)

/-! ### QCFG (R373) -/

/-- Both rings of a queue lie inside the host window of its context. -/
def ringsInWindow (s : State) (c : Ctx) (x : QueueState) : Bool :=
  inHostWindow (s.ctx c) (x.rbase.toNat * 4096) (64 * x.size) && inHostWindow (s.ctx c) (x.cbase.toNat * 4096) (32 * x.size)

/-- The set-up fields of QCFG, written only while the queue is disabled. -/
def qcfgFields (v : W64) (x : QueueState) : QueueState :=
  if x.enable then x
  else { x with log2size := v.extractLsb' 0 5, cls := v.extractLsb' 5 3, vector := v.extractLsb' 9 11, irqEn := v.getLsbD 20 }

/-- A queue that may be enabled. -/
def mayEnable (s : State) (q : Queue) : Bool :=
  let x := s.queue q
  match queueCtx s q with
  | none => false
  | some c => (s.ctx c).phase == .opened && decide (x.cls.toNat ≤ 4)
      && decide (6 ≤ x.log2size.toNat ∧ x.log2size.toNat ≤ 16) && ringsInWindow s c x

/-- A write of QCFG with ENABLE = 1. -/
def queueEnable (v : W64) (s : State) : State :=
  let q := s.qmg.qsel
  if (s.queue q).enable then s
  else
    let s := updQueue s q (qcfgFields v)
    if mayEnable s q then
      updQueue s q fun x => { x with
        enable := true, head := 0, tail := 0, done := 0, dbApplied := 0, dbIgnored := 0, dbBad := 0, window := none
        progress := s.now }
    else updQueue s q fun x => { x with cfgErr := true }

/-- A write of QCFG with ENABLE = 0. -/
def queueDisable (v : W64) (s : State) : State :=
  let q := s.qmg.qsel
  let x := s.queue q
  if x.enable ∧ (x.head ≠ x.done ∨ x.tail ≠ x.head) then updQueue s q fun x => { x with cfgErr := true }
  else updQueue s q fun x => if x.enable then { x with enable := false } else qcfgFields v x

def execQueueEnable (v : W64) (s : State) : Host.Outcome State Fault Refusal := .next (hostWrite s (queueEnable v))
def execQueueDisable (v : W64) (s : State) : Host.Outcome State Fault Refusal := .next (hostWrite s (queueDisable v))

/-! ### The CXL link (R366, R396) -/

def execCxlLinkDown (s : State) : Host.Outcome State Fault Refusal := .next { s with qmg := { s.qmg with cxlUp := false, portUp := false } }

/-- An integrity failure of a stream makes the link count as down (R483). -/
def ideDown (s : State) : Bool := s.sec.ioBroken || s.sec.cmBroken

/-- Writes the records that waited for the link; the queue manager's window begins with its work (R428). -/
def flushHeld (s : State) : State :=
  let l := s.qmg.held
  let s := l.foldl writeRecord { s with qmg := { s.qmg with held := [], progress := s.now } }
  (descsWhere s fun x => x.phase == .recordDue).foldl (fun s d => concludeDesc s d (match s.desc? d with
    | some x => x.status
    | none => stOk)) s

/-- The link trains, PERST# deasserted (R504), at a width and a rate (in GT/s) that the port supports; below x8 or 64 GT/s it is
degraded. While an integrity failure is not mended it still counts as down (R483). -/
def cxlLinkUp (width rate : Nat) (s : State) : State :=
  if s.pwr.pwrGood ∧ !s.pwr.perst ∧ (width = 8 ∨ width = 4) ∧ (rate = 64 ∨ rate = 32) then
    let s := { s with qmg := { s.qmg with portUp := true } }
    let s := if ideDown s then s else flushHeld { s with qmg := { s.qmg with cxlUp := true } }
    if width = 8 ∧ rate = 64 then s else raiseEv s evHostLinkDegraded srcQmg
  else s

def execCxlLinkUp (width rate : Nat) (s : State) : Host.Outcome State Fault Refusal := .next (cxlLinkUp width rate s)

end Sys2Proof.Machine
end

