-- ==== Sys2Proof/Machine/Update.lean ====
section
/-!
DEFINITION. Update descriptors (R255 to R262, R264 to R272, R283, R301, R380, R404): the update block, its checks, what the
update engine writes under the block, sparse and plane rules, tag logs, journal staging, PLANE_ROOTS_DONE.
-/

namespace Sys2Proof.Machine

open Sys2Proof

/-! ### The update block (R380) -/

structure UpdSpec where
  rule : Nat
  panel : Nat
  rest : Nat
  width : Nat
  epoch : Nat
  slots : Nat
  grad : Nat
  hyper : Nat
  p0 : Nat
  p1 : Nat
  tidM : Nat
  tidV : Nat
  ibase : Nat
  top : Nat
  deriving DecidableEq, Repr

def updSpec (w : List Nat) : UpdSpec :=
  { rule := fld (nth w 0) 0 8, panel := fld (nth w 0) 8 2, rest := fld (nth w 0) 10 6, width := fld (nth w 0) 16 16
    epoch := fld (nth w 0) 32 32, slots := nth w 1, grad := nth w 2, hyper := nth w 3, p0 := nth w 4, p1 := nth w 5
    tidM := fld (nth w 6) 0 32, tidV := fld (nth w 6) 32 32, ibase := fld (nth w 7) 0 48, top := fld (nth w 7) 48 16 }

/-- Rows of a plane layer, its columns; entries of a sparse list. -/
def UpdSpec.rows (u : UpdSpec) : Nat := fld u.p0 0 32
def UpdSpec.cols (u : UpdSpec) : Nat := fld u.p0 32 32
def UpdSpec.nlist (u : UpdSpec) : Nat := fld u.p1 0 32

/-- The job of an update: the tag's, or the lowest that its context has set up (log entry 29, DESIGN CHOICE). -/
def updJob (s : State) (x : DescState) : Option Job := (descJob x).orElse fun _ => ctxJob s x.ctx

/-! ### Reading a context's memory -/

def vaN (s : State) (c : Ctx) (va n : Nat) : Nat := (vaNat s c va n).getD 0

/-- The eight words of a layer slot record (R256). -/
def slotWords (s : State) (c : Ctx) (va : Nat) : List Nat := (rangeFrom 0 8).map fun i => vaN s c (va + 8 * i) 8

/-- Fields of a layer slot record: address, tag and count of slot i (0 A, 1 B); elements. -/
def recAddr (r : List Nat) (i : Nat) : Nat := nth r i
def recTag (r : List Nat) (i : Nat) : Nat := fld (nth r 2) (32 * i) 32
def recCount (r : List Nat) (i : Nat) : Nat := fld (nth r 3) (32 * i) 32
def recElems (r : List Nat) : Nat := nth r 4
def recRoot (r : List Nat) : Nat := nth r 5

/-- SLOTS names a layer slot record of the job's update region (R301). -/
def recordIndex (s : State) (j : Job) (va : Nat) : Option Nat :=
  let base := slotRecord s j 0
  if base ≤ va ∧ (va - base) % 64 = 0 ∧ va + 64 ≤ (s.job j).update.toNat + (s.job j).updateSize.toNat then some ((va - base) / 64)
  else none

/-- The hyperparameter record. -/
def hyperAt (s : State) (c : Ctx) (u : UpdSpec) : Hyper := hyperOf ((rangeFrom 0 8).map fun i => vaN s c (u.hyper + 8 * i) 8)

/-- A NELEM that R256 allows. -/
def elemsOk (n : Nat) : Bool := decide (32 ≤ n) && decide (n ≤ 2 ^ 36) && n % 32 == 0

/-- Diagonal blocks of a plane layer: bytes of the left ones, and of the right ones. -/
def leftBytes (u : UpdSpec) (h : Hyper) : Nat := u.rows / h.blockL * (h.blockL * h.blockL * 8)
def rightBytes (u : UpdSpec) (h : Hyper) : Nat := u.cols / h.blockR * (h.blockR * h.blockR * 8)
/-- Bytes of a plane layer's statistics: L's blocks, then R's, each right after the one before (R256). -/
def statBytesOf (u : UpdSpec) (h : Hyper) : Nat := leftBytes u h + rightBytes u h

/-! ### Sparse rows (R257, R267) -/

/-- The row count that SLOTS names: the spec does not say how (log entry 36). -/
def rowCount (u : UpdSpec) : Nat := Config.sparseRows u.slots

def rowBytes (w : Nat) : Nat := 16 * w + 128
def rowSlot (u : UpdSpec) (row i : Nat) : Nat := u.slots + row * rowBytes u.width + i * (8 * u.width + 64)

/-- List entry i of a sparse descriptor. -/
def listEntry (s : State) (c : Ctx) (u : UpdSpec) (i : Nat) : Nat := vaN s c (u.p0 + 4 * i) 4

/-- The entries that are updated, with their places in the list; and how many are out of order, and out of range. -/
def validRows (s : State) (c : Ctx) (u : UpdSpec) : List (Nat × Nat) × Nat × Nat :=
  (rangeFrom 0 u.nlist).foldl (fun (acc : List (Nat × Nat) × Nat × Nat) i =>
    let row := listEntry s c u i
    let late := match acc.1.getLast? with
      | some p => decide (row ≤ p.2)
      | none => false
    if late then (acc.1, acc.2.1 + 1, acc.2.2)
    else if rowCount u ≤ row then (acc.1, acc.2.1, acc.2.2 + 1)
    else (acc.1 ++ [(i, row)], acc.2.1, acc.2.2)) ([], 0, 0)

/-- One past the largest element index that a sparse descriptor uses, less INDEX_BASE (R73, R267). -/
def sparseReach (s : State) (c : Ctx) (u : UpdSpec) : Nat := match (validRows s c u).1.getLast? with
  | some p => (p.2 + 1) * u.width
  | none => 0

/-! ### Checks (R261, R262) -/

/-- The update block is malformed. -/
def updBad (s : State) (x : DescState) (w : List Nat) : Bool :=
  let u := updSpec w
  let h := hyperAt s x.ctx u
  match updJob s x with
  | none => true
  | some j =>
    let r := slotWords s x.ctx u.slots
    let n := recElems r
    let dense := (recordIndex s j u.slots).isNone || !elemsOk n
    u.rest != 0 || u.top != 0 || u.hyper % 64 != 0 || hyperBad (u.rule == 1) h
    || tagBad s (descJob x) (descTag x) true true
    || (match u.rule with
        | 0 => dense || u.width != 0 || u.p0 % 32 != 0 || u.p1 % 32 != 0 || decide (n < u.p0 + u.p1)
            || decide (2 ^ 48 < u.ibase + u.p0 + u.p1)
        | 1 => dense || u.width != 0 || u.p1 != 0 || u.rows * u.cols != n || decide (2 ^ 48 < u.ibase + n)
            || u.rows % h.blockL != 0 || u.cols % h.blockR != 0
        | 2 => u.width % 32 != 0 || decide (u.width < 32 ∨ 4096 < u.width) || fld u.p1 32 32 != 0 || u.nlist == 0
            || decide (16777216 < u.nlist) || decide (2 ^ 48 < u.ibase + sparseReach s x.ctx u)
        | _ => true)

/-- The STEP or EPOCH is not the one that the job awaits (R262). -/
def updStale (s : State) (j : Job) (x : DescState) (u : UpdSpec) : Bool :=
  !stepOk s j (descStep x) || u.epoch != jobEpoch s j

/-! ### Live slots (R255) -/

/-- The live slot of a sparse row. -/
def liveRow (s : State) (c : Ctx) (u : UpdSpec) (e row : Nat) : Option Nat :=
  liveSlot e (vaN s c (rowSlot u row 0) 4) (vaN s c (rowSlot u row 1) 4)

/-- A pair that the descriptor updates has no live slot (R255; log entry 37, DEDUCED). -/
def noLive (s : State) (c : Ctx) (u : UpdSpec) (e : Nat) : Bool :=
  if u.rule = 2 then (validRows s c u).1.any fun p => (liveRow s c u e p.2).isNone
  else let r := slotWords s c u.slots; (liveSlot e (recTag r 0) (recTag r 1)).isNone

/-- Tags that the descriptor writes. -/
def tagsDue (s : State) (c : Ctx) (u : UpdSpec) : Nat := if u.rule = 2 then (validRows s c u).1.length else 1

/-! ### Roots in force (R269, R270, R272) -/

/-- The root step whose roots are in force for an update of step t. -/
def rootStepFor (t n : Nat) : Nat := (t / n - 1) * n

/-- What a plane update of a step uses: roots, the block rule, or it waits. -/
inductive RootUse where
  | wait
  | block
  /-- The roots of this step have failed: block rule with PLANE_FALLBACK. -/
  | fallback
  | roots (r : RootRun)
  deriving DecidableEq, Repr

/-- The roots that an update of step t of record idx uses; n is ROOT_N. -/
def rootUse (x : JobState) (idx t n : Nat) : RootUse :=
  let r := rootStepFor t n
  let mine := x.roots.filter fun y => y.layer == idx
  let older := mine.find? fun y => y.ok && decide (y.step.toNat ≤ r)
  if t < 2 * n then .block
  else if x.rootDue.any fun y => y.layer == idx && y.step.toNat == r then .wait
  else match mine.find? fun y => y.step.toNat == r with
    | some y =>
      if y.ok then .roots y
      else if t = r + n then .fallback
      else match older with
        | some z => .roots z
        | none => .block
    | none => match older with
      | some z => .roots z
      | none => .block

/-- Place of a set of roots in the root area: after the copied statistics, one set after the other (log entry 38, DESIGN
CHOICE). -/
def rootSetAddr (area stat : Nat) (set : Bool) : Nat := area + roundUp stat 64 * (1 + bnat set)

/-- A matrix of FP64 values in a context's memory, b by b, number i of a run of blocks. -/
def blockAt (s : State) (c : Ctx) (base b i : Nat) (r k : Nat) : FVal :=
  decodeElem .fp64 (vaN s c (base + i * (b * b * 8) + (r * b + k) * 8) 8)

/-! ### What an update writes -/

structure UpdOut where
  writes : List (Nat × List Byte)
  tags : List Nat
  tallies : Tallies
  watch : WatchBlock
  /-- For the journal: a dense unit's blocks from this element on, or the rows of a sparse one. -/
  first : Nat
  uqs : List FVal
  rows : List (Nat × List FVal)
  due : Option RootDue
  fallback : Bool
  /-- The values written, of w, m and v in turn (R172; log entry 76). -/
  vals : List FVal := []

/-- What updated elements write (R172). -/
def elemVals (l : List ElemOut) : List FVal := l.flatMap fun e => [val32 e.w, bf16 e.m, bf16 e.v]

/-- KSHIFT of the layer in force for the step (R183). -/
def layerShift (s : State) (x : DescState) : Int :=
  match descJob x with
  | some j =>
    let a := ladderAddr s j (ladderCopy s j) (jobLayers s j) (tagLayer (descTag x))
    (ladderOfBytes ((rangeFrom 0 64).map fun i => BitVec.ofNat 8 (jobNat s j (a + i) 1))).kshift
  | none => 0

def elemCfg (s : State) (x : DescState) (u : UpdSpec) (count : Nat) : ElemCfg :=
  let h := hyperAt s x.ctx u
  let k := layerShift s x
  let (c1, c2, cw) := blockConsts h (min (count + 1) 0xFFFFFFFF) k
  let key := fun t => (⟨(s.ctx x.ctx).seed.toNat, descStep x, t⟩ : SrKey)
  { h := h, k := k, c1 := c1, c2 := c2, cw := cw, keyM := key u.tidM, keyV := key u.tidV }

/-- n elements: gradient at g, live parts at w, m, v; element index x of the first; directions. -/
def runElems (s : State) (c : Ctx) (e : ElemCfg) (x g w m v n : Nat) (dir : Nat → Option FVal) : List ElemOut :=
  (rangeFrom 0 n).map fun i =>
    blockElem e (x + i) (vaN s c (g + 4 * i) 4) (vaN s c (w + 4 * i) 4) (vaN s c (m + 2 * i) 2) (vaN s c (v + 2 * i) 2) (dir i)

def elemWrites (l : List ElemOut) (w m v : Nat) : List (Nat × List Byte) :=
  [(w, l.flatMap fun e => leBytes 4 e.w), (m, l.flatMap fun e => leBytes 2 e.m), (v, l.flatMap fun e => leBytes 2 e.v)]

/-- What elements count: those skipped (R265), and master weights that overflow (R60). -/
def skipTallies (l : List ElemOut) : Tallies :=
  { updSkip := sat32 (l.filter ElemOut.skip).length
    ovf := sat32 (l.filter fun e => !e.skip && finite e.old && (val32 e.w).isInf).length }

/-- The tag and count of the written slot of a record (R258). -/
def tagWrites (va wi e count : Nat) : List (Nat × List Byte) :=
  [(va + 16 + 4 * wi, leBytes 4 (e + 1)), (va + 24 + 4 * wi, leBytes 4 (min (count + 1) 0xFFFFFFFF))]

/-- ROOT_CUR and ROOT_NEW of a record: no other unit writes them, so that an update writes both (R256; log entry 151, DEDUCED). -/
def rootWrites (va cur new : Nat) : List (Nat × List Byte) := [(va + 48, leBytes 4 cur ++ leBytes 4 new)]

/-- No root step. -/
def noRoots : Nat := 0xFFFFFFFF

/-- The block rule on a range of a dense record (R264); e is the epoch at placement. -/
def runBlock (s : State) (x : DescState) (u : UpdSpec) (e : Nat) (off cnt : Nat) (dir : Nat → Option FVal) : UpdOut :=
  let r := slotWords s x.ctx u.slots
  let li := (liveSlot e (recTag r 0) (recTag r 1)).getD 0
  let n := recElems r
  let src := recAddr r li
  let dst := recAddr r (1 - li)
  let l := runElems s x.ctx (elemCfg s x u (recCount r li)) (u.ibase + off) u.grad (src + 4 * off) (src + 4 * n + 2 * off)
    (src + 6 * n + 2 * off) cnt dir
  { writes := elemWrites l (dst + 4 * off) (dst + 4 * n + 2 * off) (dst + 6 * n + 2 * off)
      ++ tagWrites u.slots (1 - li) e (recCount r li)
    tags := [u.slots + 16 + 4 * (1 - li)]
    tallies := skipTallies l, watch := ownerWatch l, first := off, uqs := l.map ElemOut.uq, rows := [], due := none
    fallback := false, vals := elemVals l }

/-- The sparse rule (R267). -/
def runSparse (s : State) (x : DescState) (u : UpdSpec) (e : Nat) : UpdOut :=
  let (rows, order, range) := validRows s x.ctx u
  let w := u.width
  let outs := rows.map fun p =>
    let li := (liveRow s x.ctx u e p.2).getD 0
    let src := rowSlot u p.2 li
    let dst := rowSlot u p.2 (1 - li)
    let cnt := vaN s x.ctx (src + 4) 4
    let l := runElems s x.ctx (elemCfg s x u cnt) (u.ibase + p.2 * w) (u.grad + 4 * w * p.1) (src + 64) (src + 64 + 4 * w)
      (src + 64 + 6 * w) w fun _ => none
    (p.2, l, elemWrites l (dst + 64) (dst + 64 + 4 * w) (dst + 64 + 6 * w)
      ++ [(dst, leBytes 4 (e + 1) ++ leBytes 4 (min (cnt + 1) 0xFFFFFFFF))], dst)
  let all := outs.flatMap fun o => o.2.1
  { writes := outs.flatMap fun o => o.2.2.1
    tags := outs.map fun o => o.2.2.2
    tallies := { skipTallies all with sparseOrder := sat32 order, sparseRange := sat32 range }
    watch := ownerWatch all, first := 0, uqs := [], rows := outs.map fun o => (o.1, o.2.1.map ElemOut.uq), due := none
    fallback := false, vals := elemVals all }

/-- The gradient of a plane layer as a matrix. -/
def gradAt (s : State) (c : Ctx) (u : UpdSpec) (i j : Nat) : FVal := val32 (vaN s c (u.grad + 4 * (i * u.cols + j)) 4)

/-- New statistics in the written slot: L's blocks, then R's (R268). -/
def statWrites (s : State) (c : Ctx) (u : UpdSpec) (h : Hyper) (src dst : Nat) : List (Nat × List Byte) :=
  let bytes := fun (m : Mat) => m.flatMap fun r => r.flatMap fun v => leBytes 8 (packVal .fp64 v)
  let g := gradAt s c u
  let one := fun (b n k : Nat) (base obase : Nat) (f : Nat → Nat → FVal) =>
    (rangeFrom 0 (n / b)).map fun i =>
      (obase + i * (b * b * 8), bytes (statBlock h.stat b k (i * b) f (blockAt s c base b i)))
  one h.blockL u.rows u.cols src dst g
  ++ one h.blockR u.cols u.rows (src + leftBytes u h) (dst + leftBytes u h) (fun i j => g j i)

/-- The direction P of a plane layer from roots at an address (R269). -/
def planeDir (s : State) (c : Ctx) (u : UpdSpec) (h : Hyper) (roots : Nat) : Mat :=
  let g := gradAt s c u
  let rb := roots + leftBytes u h
  let right := fun (f : Nat → Nat → FVal) =>
    let parts := (rangeFrom 0 (u.cols / h.blockR)).map fun q =>
      planeProd u.rows h.blockR h.blockR (fun i k => f i (q * h.blockR + k)) (blockAt s c rb h.blockR q) 1
    (rangeFrom 0 u.rows).map fun i => parts.flatMap fun m => m.getD i []
  let left := fun (f : Nat → Nat → FVal) =>
    (rangeFrom 0 (u.rows / h.blockL)).flatMap fun q =>
      planeProd h.blockL u.cols h.blockL (blockAt s c roots h.blockL q) (fun k j => f (q * h.blockL + k) j) 1
  if h.p = 4 then left (matGet (right g)) else if u.rows ≤ u.cols then left g else right g

/-- The plane rule (R268 to R270, R272). -/
def runPlane (s : State) (j : Job) (x : DescState) (u : UpdSpec) (e : Nat) : UpdOut :=
  let h := hyperAt s x.ctx u
  let r := slotWords s x.ctx u.slots
  let li := (liveSlot e (recTag r 0) (recTag r 1)).getD 0
  let n := recElems r
  let rec_ := (recordIndex s j u.slots).getD 0
  let use := rootUse (s.job j) rec_ (descStep x) h.n
  let dir := match use with
    | .roots y => some (planeDir s x.ctx u h (rootSetAddr (recRoot r) (statBytesOf u h) y.set))
    | _ => none
  let o := runBlock s x u e 0 n fun i => dir.map fun m => matGet m (i / u.cols) (i % u.cols)
  let stats := statWrites s x.ctx u h (recAddr r li + 8 * n) (recAddr r (1 - li) + 8 * n)
  let (retry, cur) := match use with
    | .roots y => (if descStep x = y.step.toNat + h.n then y.retry else 0, y.step.toNat)
    | _ => (0, noRoots)
  let new := match (s.job j).rootDue.find? fun y => y.layer == rec_ && y.computing with
    | some y => y.step.toNat
    | none => noRoots
  let due : RootDue := { panel := ⟨u.panel % 4, Nat.mod_lt _ (by decide)⟩, layer := rec_, step := BitVec.ofNat 32 (descStep x), rows := u.rows, cols := u.cols, blockL := h.blockL
                         blockR := h.blockR, p := h.p, iters := h.iters, n := h.n, damp := BitVec.ofNat 32 h.damp
                         tol := BitVec.ofNat 32 h.tol, computing := false }
  { o with writes := stats ++ rootWrites u.slots cur new ++ o.writes, tallies := { o.tallies with planeRetry := sat32 retry }
           due := if descStep x % h.n = 0 ∧ recRoot r ≠ 0 then some due else none
           fallback := decide (use = .fallback) }

/-- What an update descriptor does, at the epoch of its placement. -/
def runUpdate (s : State) (j : Job) (x : DescState) (u : UpdSpec) (e : Nat) : UpdOut :=
  match u.rule with
  | 0 =>
    let o := runBlock s x u e u.p0 u.p1 fun _ => none
    { o with writes := rootWrites u.slots noRoots noRoots ++ o.writes }
  | 1 => runPlane s j x u e
  | _ => runSparse s x u e

/-! ### What it reads and writes, as ranges -/

/-- Parts of a slot of a dense record that a range of elements covers. -/
def denseRanges (a n off cnt : Nat) : List (Nat × Nat) := [(a + 4 * off, 4 * cnt), (a + 4 * n + 2 * off, 2 * cnt), (a + 6 * n + 2 * off, 2 * cnt)]

def updRanges (s : State) (j : Job) (x : DescState) (u : UpdSpec) (e : Nat) (live : Bool) : List (Nat × Nat) :=
  let c := x.ctx
  if u.rule = 2 then
    (validRows s c u).1.map fun p =>
      let li := (liveRow s c u e p.2).getD 0
      (rowSlot u p.2 (if live then li else 1 - li), 8 * u.width + 64)
  else
    let r := slotWords s c u.slots
    let li := (liveSlot e (recTag r 0) (recTag r 1)).getD 0
    let a := recAddr r (if live then li else 1 - li)
    let n := recElems r
    let h := hyperAt s c u
    if u.rule = 0 then denseRanges a n u.p0 u.p1
    else denseRanges a n 0 n ++ [(a + 8 * n, statBytesOf u h)]
      ++ (if live then match rootUse (s.job j) ((recordIndex s j u.slots).getD 0) (descStep x) h.n with
          | .roots y => [(rootSetAddr (recRoot r) (statBytesOf u h) y.set, statBytesOf u h)]
          | _ => []
        else [])

/-- All that the descriptor reads. -/
def updReads (s : State) (j : Job) (x : DescState) (u : UpdSpec) (e : Nat) : List (Nat × Nat) :=
  updRanges s j x u e true ++ [(u.hyper, 64)]
  ++ (match u.rule with
      | 0 => [(u.slots, 64), (u.grad, 4 * u.p1)]
      | 1 => [(u.slots, 64), (u.grad, 4 * u.rows * u.cols)]
      | _ => [(u.p0, 4 * u.nlist), (u.grad, 4 * u.width * u.nlist)])

/-! ### Tag logs (R258, R301) -/

def tagLogSize : Nat := 1048576
def tagLogAddr (s : State) (j : Job) (p i : Nat) : Nat := (s.job j).update.toNat + 0x1000 + 0x800000 * p + 8 * i

/-- Appends tag addresses to a panel's log. -/
def logTags (s : State) (j : Job) (p : Nat) (l : List Nat) : State :=
  l.foldl (fun s a =>
    let n := tabGet 0 (s.job j).tagLog p
    let s := jobWrite s j (tagLogAddr s j p n) (leBytes 8 (a % 2 ^ 44))
    s.setJob j { s.job j with tagLog := tabSet 0 (s.job j).tagLog p (n + 1) }) s

/-! ### Journal staging (R404, R405) -/

/-- The plan's journal-method unit whose SLOTS and kind a descriptor names. -/
def journalUnit (x : JobState) (kind slots : Nat) : Option Nat :=
  match x.plan with
  | none => none
  | some p => (rangeFrom 0 p.units.length).find? fun i => match p.units[i]? with
    | some u => u.journal && u.kind == kind && u.slots.toNat == slots
    | none => false

/-- The start of a step's staging slot. -/
def stageSlot (p : Plan) (step : Nat) : Nat := p.stageAddr.toNat + step % p.depth * p.stageBytes.toNat

/-- Room for a record of a unit in the step's staging slot: the one it has, or the next free place (log entry 39, DESIGN
CHOICE). Records of an older step in the slot are given up. -/
def stagePlace (x : JobState) (p : Plan) (step unit bytes : Nat) (reuse : Bool) : JobState × Option Nat :=
  let old := x.staged.filter fun r => r.step.toNat = step ∨ r.step.toNat % p.depth ≠ step % p.depth
  let mine := old.filter fun r => r.step.toNat == step
  match (if reuse then mine.find? fun r => r.unit == unit else none) with
  | some r => ({ x with staged := old }, some r.off)
  | none =>
    let off := mine.foldl (fun n r => max n (r.off + r.bytes)) 0
    if off + bytes ≤ p.stageBytes.toNat then
      ({ x with staged := old ++ [⟨BitVec.ofNat 32 step, unit, off, bytes⟩] }, some off)
    else ({ x with staged := old }, none)

/-- The header of a journal record. -/
def journalHeader (step unit : Nat) (k : Int) (count bytes : Nat) : List Byte :=
  wordBytes [step + 2 ^ 32 * unit + 2 ^ 48 * ofSigned 16 k, count, bytes, 0, 0, 0, 0, 0]

/-- One sparse entry of a record. -/
def journalRow (p : Nat × List FVal) : List Byte :=
  let (sc, cd) := journalBlocks (p.2.length / 32) p.2
  let l := leBytes 4 p.1 ++ sc ++ cd
  padTo (roundUp l.length 8) l

/-- Stages the journal record of an update, where its unit takes the journal. -/
def stageJournal (s : State) (j : Job) (x : DescState) (u : UpdSpec) (o : UpdOut) : State :=
  let y := s.job j
  match y.plan, journalUnit y (if u.rule = 2 then 1 else 0) u.slots with
  | some p, some unit =>
    let step := descStep x
    let k := layerShift s x
    if u.rule = 2 then
      let body := o.rows.flatMap journalRow
      match stagePlace y p step unit (64 + body.length) false with
      | (y, some off) =>
        jobWrite (s.setJob j y) j (stageSlot p step + off)
          (journalHeader step unit k o.rows.length (64 + body.length) ++ body)
      | (y, none) => s.setJob j y
    else
      let n := recElems (slotWords s x.ctx u.slots)
      let scales := roundUp (n / 32) 64
      let bytes := 64 + scales + n / 2
      match stagePlace y p step unit bytes true with
      | (y, some off) =>
        let a := stageSlot p step + off
        let (sc, cd) := journalBlocks (o.uqs.length / 32) o.uqs
        let s := jobWrite (s.setJob j y) j a (journalHeader step unit k n bytes)
        jobWrite (jobWrite s j (a + 64 + o.first / 32) sc) j (a + 64 + scales + o.first / 2) cd
      | (y, none) => s.setJob j y
  | _, _ => s

/-! ### UPDATE (R170, R261, R262, R270, R279) -/

/-- The descriptor is managed by the fall-back ladder. -/
def managed (x : DescState) : Bool := descTag x != 0x0FFF && tagManaged (descTag x)

/-- A plane update waits for roots that are still being computed (R270). -/
def waitsRoots (s : State) (j : Job) (x : DescState) (u : UpdSpec) : Bool :=
  u.rule == 1 && rootUse (s.job j) ((recordIndex s j u.slots).getD 0) (descStep x) (hyperAt s x.ctx u).n == .wait

/-- What the engine reads of a descriptor before its elements: the slot record or the rows' tags and the list, the hyperparameters, the
commit record. -/
def updHeads (s : State) (j : Job) (x : DescState) (u : UpdSpec) : List (Nat × Nat) :=
  [(u.hyper, 64), ((s.job j).update.toNat, 64)]
  ++ (if u.rule = 2 then (u.p0, 4 * u.nlist) :: (validRows s x.ctx u).1.flatMap fun p => [(rowSlot u p.2 0, 8), (rowSlot u p.2 1, 8)]
      else [(u.slots, 64)])

/-- Any of it is poisoned: the descriptor completes PARTIAL (R293). -/
def updPoisoned (s : State) (j : Job) (x : DescState) (u : UpdSpec) : Bool :=
  (updHeads s j x u).any fun r => vaPoisoned s x.ctx r.1 r.2

/-- UPDATE starts: a scrub and roots that are still being computed hold it. One of another step is UPDATE_STALE, managed or not (R262,
R283; log entry 112, DEDUCED). -/
def updateStart (d : DescId) (s0 : State) (x : DescState) (w : List Nat) (s : State) : State :=
  let u := updSpec w
  if tagJobBad s x then endDesc s d stBadDescriptor
  else match updJob s x with
    | none => endDesc s d stBadDescriptor
    | some j =>
      if updPoisoned s j x u then endDesc ((updHeads s j x u).foldl (fun s r => noteVaRead s x.ctx r.1 r.2) s) d stPartial
      else if updBad s x w then endDesc s d stBadDescriptor
      else if (s.job j).scrub then s0
      else if updStale s j x u then endDesc s d stUpdateStale
      else if waitsRoots s j x u then s0
      else s.setDesc d { x with phase := .running }

def execUpdate (d : DescId) (s : State) : Host.Outcome State Fault Refusal :=
  .next (startDesc s d opUpdate (withArgs d 8 (updateStart d s)))

/-! ### The copy of committed statistics, and PLANE_ROOTS_DONE (R270 to R272) -/

/-- At the commit of a root step: the statistics of each layer due are copied into its root area, and ROOT_NEW names the
step. The epoch is already the new one. Where its record is poisoned there is no address to copy to or from: the layer's roots of the
step fail (R293; log entry 152, DEDUCED). -/
def copyStats (s : State) (j : Job) (step : Nat) : State :=
  let c := (s.job j).ctx
  let due := (s.job j).rootDue.filter fun r => r.step.toNat == step && !r.computing
  let s := due.foldl (fun s r =>
    let a := slotRecord s j r.layer
    let w := slotWords s c a
    let li := (liveSlot (jobEpoch s j) (recTag w 0) (recTag w 1)).getD 0
    let n := r.rows / r.blockL * (r.blockL * r.blockL * 8) + r.cols / r.blockR * (r.blockR * r.blockR * 8)
    let bad := vaPoisoned s c a 64
    let s := noteVaRead s c a 64
    if bad then s
    else
      let data := (vaRead s c (recAddr w li + 8 * recElems w) n).getD (List.replicate n 0, false)
      let s := noteVaRead s c (recAddr w li + 8 * recElems w) n
      let s := (vaWrite s c (recRoot w) data.1 data.2).getD (noteVaWrite s c (recRoot w) n)
      jobWrite s j (a + 52) (leBytes 4 step)) s
  let x := s.job j
  s.setJob j { x with rootDue := (x.rootDue.filter fun r => r.computing || r.step.toNat == step).map fun r => { r with computing := true } }

/-- The roots of one operand's blocks, one after the other; none where a block fails all attempts. -/
def rootBlocks (s : State) (c : Ctx) (r : RootDue) (base b n : Nat) : Option (List Mat × Nat) :=
  (rangeFrom 0 n).foldl (fun acc i => match acc with
    | none => none
    | some (l, t) =>
      match rootAttempts b r.p r.iters (val32 r.damp.toNat) (val32 r.tol.toNat) (mapMat b (blockAt s c base b i)) with
      | some (x, k) => some (l ++ [x], t + k)
      | none => none) (some ([], 0))

/-- Some matrix engine of a panel has room for a tile of veneer FP64: a handle, and store for the least tile (R85, R112). -/
def rootTileRoom (s : State) (p : Panel) : Bool :=
  (rangeFrom 0 40).any fun i => tileRoom (s.core ⟨(p.val * 40 + i) % 160, Nat.mod_lt _ (by decide)⟩) 32 32 .ven64

/-- The matrix engines of a panel take tile work: no stage stops new work, no clock change stalls issue, no rung runs, and a tile finds
room (R38, R85, R112, R440, R458, R467). -/
def tilesRun (s : State) (p : Panel) : Bool :=
  !noNewWork s p && (s.panel p).stall.isNone && (s.panel p).state != 1 && rootTileRoom s p

/-- The computation of a layer's roots ends, on the matrix engines of the panel whose update engine issued it (R38). Its tiles go
between those of thread slots, wait for room as any tile, and release it before the command ends, so that they show in no other state
(R112; log entry 116). -/
def planeRootsDone (j : Job) (idx : Nat) (s : State) : State :=
  let x := s.job j
  match x.rootDue.find? fun r => r.layer == idx && r.computing && tilesRun s r.panel with
  | none => s
  | some r =>
    let c := x.ctx
    let a := slotRecord s j idx
    let area := recRoot (slotWords s c a)
    let lb := r.rows / r.blockL * (r.blockL * r.blockL * 8)
    let rb := r.cols / r.blockR * (r.blockR * r.blockR * 8)
    -- roots derived from a poisoned unit are written poisoned (R293)
    let bad := vaPoisoned s c area (lb + rb)
    let set := match x.roots.find? fun y => y.layer == idx && y.ok with
      | some y => !y.set
      | none => false
    let bytes := fun (l : List Mat) => l.flatMap fun m => m.flatMap fun q => q.flatMap fun v => leBytes 8 (packVal .fp64 v)
    let lost := vaPoisoned s c a 64
    let s := noteVaRead (noteVaRead s c a 64) c area (if lost then 0 else lb + rb)
    let (s, run) := match lost, rootBlocks s c r area r.blockL (r.rows / r.blockL),
        rootBlocks s c r (area + lb) r.blockR (r.cols / r.blockR) with
      | false, some (l, t), some (q, t') =>
        let to_ := rootSetAddr area (lb + rb) set
        ((vaWrite s c to_ (bytes l ++ bytes q) bad).getD (noteVaWrite s c to_ (lb + rb)), (⟨idx, r.step, true, set, t + t', r.n⟩ : RootRun))
      | _, _, _ => (s, (⟨idx, r.step, false, false, 0, r.n⟩ : RootRun))
    let s := jobWrite s j (a + 52) (leBytes 4 0xFFFFFFFF)
    let y := s.job j
    s.setJob j { y with roots := run :: y.roots, rootDue := y.rootDue.filter fun z => !(z.layer == idx && z.computing) }

def execPlaneRootsDone (j : Job) (idx : Nat) (s : State) : Host.Outcome State Fault Refusal := .next (planeRootsDone j idx s)

end Sys2Proof.Machine
end

