-- ==== Sys2Proof/Machine/Parts.lean ====
section
/-!
DEFINITION. Descriptors that run in parts (R36, R170, R192, R198, R248, R260, R378, R379, R384, R389, R390, R407): the start of
PRODUCT, PASS and MOVE, PART_PLACE, PART_END, AMAX_MERGE.
-/

namespace Sys2Proof.Machine

open Sys2Proof

/-! ### The start of a descriptor that runs in parts -/

/-- The words of a pass as they run: STEP and TAG are the host descriptor's (R192). -/
def hostPassWords (x : DescState) (w : List Nat) : List Nat :=
  let w28 := nth w 28 / 2 ^ 32 * 2 ^ 32 + descStep x
  let w30 := nth w 30 / 2 ^ 16 * 2 ^ 16 + descTag x
  (w.set 28 w28).set 30 w30

def hostPassBad (s : State) (x : DescState) (w : List Nat) : Bool :=
  tagJobBad s x || passBad w || tagBad s (descJob x) (descTag x) false (allFp4 (passFormats w))

/-- The bytes of an amax summary, as they are when a descriptor starts (R147, R166). -/
def readHead (s : State) (c : Ctx) (a : Nat) : List Byte := (rangeFrom a 2368).map (vaByte s c)

def execPass (d : DescId) (s : State) : Host.Outcome State Fault Refusal :=
  .next (startDesc s d opPass (withArgs d 32 fun x w s =>
    let w := hostPassWords x w
    if hostPassBad s x w then endDesc s d stBadDescriptor
    else s.setDesc d { x with
      phase := .running, args := w.map (BitVec.ofNat 64)
      head := if pQuantOn w && qApply (pQcw w) then readHead s x.ctx (pSummary w) else [] }))

/-- What a part of a host descriptor sees of memory: the context's virtual addresses (R192, R296), translated as they were
before the UNMAPs in progress (R307). -/
def hostEnv (s0 : State) (x : DescState) : PassEnv :=
  let s := oldView s0 x.ctx
  { rd := vaByte s x.ctx, ok := vaOk s x.ctx, bad := vaPoisoned s x.ctx, seed := (s.ctx x.ctx).seed.toNat, dir := .rne
    step := descStep x, head := x.head }

/-- The product's inlay list lies in memory that the context may read, or there is none. -/
def listReadable (s : State) (x : DescState) (p : ProdSpec) : Bool :=
  !prodInlay p || (if p.inlayN = 0x7F then vaOk s x.ctx .read p.list 2368 else vaOk s x.ctx .read p.list (4 * p.inlayN))

def hostProductBad (s : State) (x : DescState) (w : List Nat) : Bool :=
  let p := prodSpec w
  tagJobBad s x || prodBad w || tagBad s (descJob x) (descTag x) false (prodClass p != some .v && allFp4 [p.fa, p.fb, p.fout])
  || (listReadable s x p && listBad p (prodList p (vaByte s x.ctx)))

def execProduct (d : DescId) (s : State) : Host.Outcome State Fault Refusal :=
  .next (startDesc s d opProduct (withArgs d 16 fun x w s =>
    if hostProductBad s x w then endDesc s d stBadDescriptor
    else
      let p := prodSpec w
      s.setDesc d { x with phase := .running, head := if prodInlay p && p.inlayN == 0x7F then readHead s x.ctx p.list else [] }))

/-- The list of a product that has started: of a summary, the one that was read at the start (R166). -/
def startedList (s : State) (x : DescState) (p : ProdSpec) : List Nat :=
  prodList p fun a => if x.head = [] then vaByte (oldView s x.ctx) x.ctx a else x.head.getD (a - p.list) 0

def execMove (d : DescId) (s : State) : Host.Outcome State Fault Refusal :=
  .next (startDesc s d opMove (withArgs d 8 fun x w s =>
    if moveOk w then s.setDesc d { x with phase := .running } else endDesc s d stBadDescriptor))

/-! ### Layer references (R260, R384) -/

/-- A value in the form of a layer reference. -/
def isLayerRef (v : Nat) : Bool := fld v 62 2 == 1

/-- What a layer reference resolves to: an address; no live slot; or nothing, where it names no record of a job of the
context, and is then refused like any other address (R296). -/
inductive Resolved where
  | addr (a : Nat)
  | noLive
  | refused
  deriving DecidableEq, Repr

def resolveRef (s : State) (c : Ctx) (v : Nat) : Resolved :=
  match jobOf s c (fld v 59 3) with
  | none => .refused
  | some j =>
    let a := slotRecord s j (fld v 38 21)
    if (recordIndex s j a).isNone then .refused
    else
      let r := slotWords s c a
      match liveSlot (jobEpoch s j) (recTag r 0) (recTag r 1) with
      | some i => .addr (recAddr r i + fld v 0 38)
      | none => .noLive

/-- The values of a descriptor that may be layer references, by number. -/
def refSlots (x : DescState) : List (Nat × Nat) :=
  let w := descWords x
  if descOp x = opPass then ((rangeFrom 0 3).filter (srcUsed w)).map fun k => (k, pSrc w k)
  else if descOp x = opMove then [(0, nth w 0)]
  else []

/-- The descriptor with its layer references resolved; none where one has no live slot. -/
def resolveRefs (s : State) (x : DescState) : Option DescState :=
  (refSlots x).foldl (fun acc p => acc.bind fun y =>
    if isLayerRef p.2 then
      match resolveRef s x.ctx p.2 with
      | .addr a => some { y with live := tabPut y.live p.1 (BitVec.ofNat 64 a) }
      | .noLive => none
      | .refused => some y
    else some y) (some x)

/-- The words with resolved references in place: of a pass from word 2 on, of a move word 0. -/
def resolvedWords (x : DescState) : List Nat :=
  let at_ := if descOp x = opPass then 2 else 0
  x.live.foldl (fun w p => w.set (at_ + p.1) p.2.toNat) (descWords x)

/-! ### Placement (R36, R170, R389) -/

/-- The rung of the live table for a managed descriptor of a job (R170). -/
def rungNow (s : State) (j : Job) (x : DescState) : Nat := liveRung s j (tagLayer (descTag x)) (tagPass (descTag x))

/-- What placement reads for a descriptor: the ladder record of a managed one, and for each layer reference the slot record and
the commit record. -/
def placeReads (s : State) (x : DescState) : List (Nat × Nat) :=
  let c := x.ctx
  let refs := ((refSlots x).filter fun p => isLayerRef p.2).flatMap fun p => match jobOf s c (fld p.2 59 3) with
    | some j => [(slotRecord s j (fld p.2 38 21), 64), ((s.job j).update.toNat, 64)]
    | none => []
  match descJob x, managed x with
  | some j, true => (ladderAddr s j (ladderCopy s j) (jobLayers s j) (tagLayer (descTag x)), 64) :: refs
  | _, _ => refs

/-- The status of a descriptor with a layer reference that resolves to no live slot: NO_LIVE, or PARTIAL where a record that says so is
poisoned (R293). -/
def lostStatus (s : State) (x : DescState) : BitVec 16 :=
  if (placeReads s x).any fun r => vaPoisoned s x.ctx r.1 r.2 then stPartial else stNoLive

/-- What the first placement of a descriptor fixes: its rung, its layer references, the epoch of an update. Or the status
with which it completes instead. -/
def fixDesc (s : State) (x : DescState) : DescState ⊕ BitVec 16 :=
  if descOp x = opUpdate then
    match updJob s x with
    | none => .inr stBadDescriptor
    | some j =>
      let u := updSpec (descWords x)
      if updPoisoned s j x u then .inr stPartial
      else if updStale s j x u then .inr stUpdateStale
      else if noLive s x.ctx u (jobEpoch s j) then .inr stNoLive
      else if tagLogSize < tabGet 0 (s.job j).tagLog u.panel + tagsDue s x.ctx u then .inr stTagLogFull
      else .inl { x with
        live := tabPut [] 0 (BitVec.ofNat 64 (jobEpoch s j)), rung := if managed x then some (rungNow s j x) else none }
  else
    match descJob x, managed x with
    | some j, true =>
      if stepOk s j (descStep x) then
        match resolveRefs s x with
        | some y => .inl { y with rung := some (rungNow s j x) }
        | none => .inr (lostStatus s x)
      else .inr stLadderStep
    | _, _ =>
      match resolveRefs s x with
      | some y => .inl y
      | none => .inr (lostStatus s x)

/-- The pass, the product or the move as it runs. -/
def runningPass (x : DescState) : List Nat :=
  let w := resolvedWords x
  match x.rung with
  | some r => passAtRung r w
  | none => w

def runningProduct (x : DescState) : ProdSpec :=
  let p := prodSpec (descWords x)
  match x.rung with
  | some r => prodAtRung r p
  | none => p

def runningMove (x : DescState) : MoveSpec := moveOfWords (resolvedWords x)

/-- The rows that the parts of a descriptor share out: rows of a pass or move, tile rows of a product, one whole update. -/
def totalRows (x : DescState) : Nat :=
  let w := descWords x
  if descOp x = opPass then pRows w
  else if descOp x = opProduct then prodTileRows (prodSpec w)
  else if descOp x = opMove then (moveOfWords w).rows
  else 1

/-- A share that a part may have (R198). -/
def shareOk (x : DescState) (lo hi : Nat) : Bool :=
  let w := descWords x
  let n := totalRows x
  decide (lo < hi ∧ hi ≤ n) &&
  (if descOp x = opPass then
    (if pFactor w then lo == 0 && hi == n
     else if pKind w = kindAttention then lo % 128 == 0 && (hi % 128 == 0 || hi == n)
     else true)
   else true)

/-- No part of the descriptor has the unit or a row of the share. -/
def shareFree (x : DescState) (u lo hi : Nat) : Bool :=
  (x.parts ++ x.ended).all fun p => p.unit != u && decide (p.hi ≤ lo ∨ hi ≤ p.lo)

/-- The job in which a host MOVE names a rank (log entry 29, DESIGN CHOICE). -/
def moveJob (s : State) (x : DescState) : Option Job := ctxJob s x.ctx

/-- The route of a host MOVE to a rank. -/
def moveRoute (s : State) (x : DescState) (rank : Nat) : RouteTo :=
  match moveJob s x with
  | some j => routeTo s j rank
  | none => .none_

/-- The unit is one that runs descriptors of this kind (R389). -/
def unitSuits (s : State) (x : DescState) (u : Nat) : Bool :=
  if descOp x = opPass ∨ descOp x = opProduct then decide (u < 160)
  else if descOp x = opMove then
    match (moveOfWords (descWords x)).rank with
    | none => decide (u < 160)
    | some r => u == 160 + (routeDie (moveRoute s x r)).val
  else if descOp x = opUpdate then u == 162 + (updSpec (descWords x)).panel
  else false

/-- The panel of a unit; none for a link DMA engine. -/
def unitPanel (u : Nat) : Option Panel :=
  if u < 160 then some ⟨u / 40 % 4, Nat.mod_lt _ (by decide)⟩
  else if 162 ≤ u then some ⟨(u - 162) % 4, Nat.mod_lt _ (by decide)⟩
  else none

def coreOf (u : Nat) : Core := ⟨u % 160, Nat.mod_lt _ (by decide)⟩
def dieOf (u : Nat) : Die := ⟨(u - 160) % 2, Nat.mod_lt _ (by decide)⟩

/-- Another placed part runs on the unit; the streams of a securing point take no unit from it. -/
def unitBusy (s : State) (u : Nat) : Bool :=
  s.qmg.descs.any fun e => descOp e.2 != opSnapshot && e.2.parts.any fun p => p.unit == u

/-- A reset of the unit, or of an engine of the core, has not been done yet (R441). -/
def unitStuck (s : State) (u : Nat) : Bool := s.glb.rungs.any fun r => match r.scope with
  | .unit n => unitNum n == u
  | .engine c _ => c.val == u
  | _ => false

/-- The unit takes new work: no power cycle is asked for (R436), no reset of it is under way, its panel runs, no stage forbids it, the
core is not fenced and replays nothing; a link DMA or an update engine has no other part. -/
def unitTakes (s : State) (u : Nat) : Bool :=
  !s.pwr.pwrCycleReq && !unitStuck s u && match unitPanel u with
  | some p =>
    (s.panel p).state == 0 && !noNewWork s p
    && (if u < 160 then !(s.panel p).fence.getLsbD (u % 40) && (s.core (coreOf u)).replay.isNone else !unitBusy s u)
  | none => !(s.die (dieOf u)).inReset && !noInjection s (dieOf u) && !unitBusy s u

/-- The job whose work a descriptor is: an update's, the one its TAG names, or the lowest job that its context has set up. -/
def workJob (s : State) (x : DescState) : Option Job :=
  if descOp x = opUpdate then updJob s x else (descJob x).orElse fun _ => ctxJob s x.ctx

/-- The compute of a descriptor's job stands still for a securing point (R407). -/
def jobStopped (s : State) (x : DescState) : Bool :=
  match (workJob s x).bind fun j => (s.job j).point with
  | some p => p.started
  | none => false

/-- Windows of core counters that running slots of a core hold. -/
def windowsOf (s : State) (c : Core) : List (Nat × Nat) :=
  (s.slots.filter fun e => e.1 / 64 == c.val && e.2.running).map fun e => (e.2.scBase.toNat, e.2.scCount)

/-- Slot starts that a core can take: its own free slots, each once, with windows inside the core's counters that meet no
window in use (R249). -/
def slotsOk (s : State) (u : Nat) : List SlotStart → Bool
  | [] => true
  | b :: t =>
    decide (u < 160) && (slotCore b.slot).val == u && decide (s.slot b.slot = {}) && !(t.any fun y => y.slot == b.slot)
    && decide (b.scBase.toNat + b.scCount ≤ 256)
    && (windowsOf s (coreOf u)).all (fun w => decide (b.scBase.toNat + b.scCount ≤ w.1 ∨ w.1 + w.2 ≤ b.scBase.toNat ∨ b.scCount = 0 ∨ w.2 = 0))
    && slotsOk s u t

/-- Panel counters that are not another context's. -/
def panelScsOk (s : State) (c : Ctx) (u : Nat) (l : List (Fin 1024)) : Bool :=
  l == [] || (decide (u < 160) &&
    s.qmg.ctxs.all fun e => e.1 == c.val || l.all fun i => !e.2.panelScs.contains ((corePanel (coreOf u)).val, i.val))

/-- A part may be placed now. -/
def mayPlace (s : State) (x : DescState) (u : Nat) (w : Placement) : Bool :=
  x.phase == .running && x.stopping.isNone && !x.armed && unitSuits s x u && unitTakes s u && shareOk x w.lo w.hi
  && shareFree x u w.lo w.hi && !jobStopped s x && slotsOk s u w.slots && panelScsOk s x.ctx u w.panelScs

/-- A slot as the bench controller starts it (R225). -/
def startSlot (x : DescState) (d : DescId) (u : Nat) (s : State) (b : SlotStart) : State :=
  s.setSlot b.slot
    { running := true, pc := b.entry, sregs := tabSet 0 (tabSet 0 [] 0 b.args) 1 (BitVec.ofNat 64 u), ctx := x.ctx
      gen := (s.ctx x.ctx).gen, scBase := b.scBase, scCount := b.scCount, part := BitVec.ofNat 32 u, desc := some d
      progress := s.now }

/-- What the share of a part reads, and what it writes. -/
def partRanges (s : State) (x : DescState) (lo hi : Nat) : List (Nat × Nat) × List (Nat × Nat) :=
  let v := hostEnv s x
  if descOp x = opPass then
    let w := runningPass x
    (passReads w lo hi, passOuts v w lo hi)
  else if descOp x = opProduct then
    let p := runningProduct x
    (prodReads p (startedList s x p) lo hi, prodWrites p lo hi)
  else if descOp x = opMove then
    let m := runningMove x
    ((rangeFrom lo (hi - lo)).map fun r => (m.src + r * m.sstr, m.rowb),
     if m.rank.isSome then [] else (rangeFrom lo (hi - lo)).map fun r => (m.dst + r * m.dstr, m.outBytes))
  else
    match updJob s x with
    | some j =>
      let u := updSpec (descWords x)
      let e := (tabGet 0 x.live 0).toNat
      (updReads s j x u e ++ [((s.job j).update.toNat, 64)]
        ++ (if managed x then [(ladderAddr s j (ladderCopy s j) (jobLayers s j) (tagLayer (descTag x)), 64)] else []),
       updRanges s j x u e false ++ (if u.rule = 2 then [] else [(u.slots, 64)]))
    | none => ([], [])

/-- The share of a move as a move of its own. -/
def moveShare (m : MoveSpec) (lo hi : Nat) : MoveSpec :=
  { m with src := m.src + lo * m.sstr, dst := m.dst + lo * m.dstr, rows := hi - lo, ibase := m.ibase + lo * m.elems }

/-- How a host descriptor's move reaches memory: device virtual addresses only (R378). -/
def hostReach (s : State) (c : Ctx) : Reach := fun k a n =>
  if bit a 63 then none else (vaParts (oldView s c) c k a n).map fun ps => ps.map fun p => (⟨.gddr, p.1⟩, p.2)

/-- Sends the rows of a host move's share to its rank (R248); the part fails where a read is refused. -/
def placeSends (s : State) (d : DescId) (x : DescState) (m : MoveSpec) (rank : Nat) : State × Bool × Tallies :=
  match moveJob s x, readMove s (hostReach s x.ctx) (s.ctx x.ctx).seed.toNat m with
  | some j, some (rows, src, t) =>
    ((sendRows j (.hostMove d) rank m.dst m.dstr (moveRoute s x rank) 0 rows (noteReads src s)).1, false, t)
  | _, _ => (s, true, {})

/-- Tiles that the part of an ATTENTION pass holds (R206). -/
def partTiles (x : DescState) : List (Nat × Nat) := if descOp x = opPass then passTiles (descWords x) else []

/-- The progress windows of a unit that takes up work begin (R428). -/
def beginWindow (s : State) (u : Nat) : State :=
  if u < 160 then
    let x := s.core (coreOf u)
    let go := fun (e : EngState) => if e.queue = [] then { e with progress := s.now } else e
    s.setCore (coreOf u) { x with matrix := go x.matrix, vector := go x.vector, mover := go x.mover }
  else if u < 162 then beginDie s (dieOf u)
  else if u < 166 then
    let p : Panel := ⟨(u - 162) % 4, Nat.mod_lt _ (by decide)⟩
    s.setUpdEngine p { s.updEngine p with progress := s.now }
  else s

/-- Puts a part on its unit; x is the descriptor with its first placement fixed. -/
def placePart (d : DescId) (x : DescState) (u : Nat) (w : Placement) (s : State) : State :=
  let (reads, writes) := partRanges s x w.lo w.hi
  -- a part that is placed after an UNMAP of its ranges has begun meets no translation; one whose placement reads poison fails
  let gone := (reads ++ writes).any fun r => (s.ctx x.ctx).unmapping.any (rangesMeet r)
  let bad := gone || (placeReads s x).any fun r => vaPoisoned s x.ctx r.1 r.2
  let m := moveShare (runningMove x) w.lo w.hi
  let (s, failed, ts) := match descOp x == opMove, m.rank with
    | true, some r => placeSends s d x m r
    | _, _ => (s, false, {})
  let owner : Slot := ⟨u % 160 * 64, by omega⟩
  let alloc := allocTiles owner (s.core (coreOf u)) (partTiles x)
  match alloc with
  | none => s
  | some (cs, hs) =>
    let s := if hs = [] then s else s.setCore (coreOf u) cs
    let part : PartState := { unit := u, slots := w.slots.map SlotStart.slot, starts := w.slots, lo := w.lo, hi := w.hi, failed := failed || bad
                              reads := reads, writes := writes, handles := hs, tallies := ts }
    let s := s.setDesc d { x with parts := x.parts ++ [part] }
    let s := w.slots.foldl (startSlot x d u) s
    let s := beginWindow s u
    let s := match unitPanel u with
      | some p => s.setPanel p { s.panel p with placed := sat64 ((s.panel p).placed + 1) }
      | none => s
    if w.panelScs = [] then s
    else updCtx s x.ctx fun c => { c with
      panelScs := (c.panelScs ++ w.panelScs.map fun i => ((corePanel (coreOf u)).val, i.val)).eraseDups }

/-- A route that a host MOVE cannot take ends it (R340, R347). -/
def routeStop (s : State) (x : DescState) : Option (BitVec 16) :=
  if descOp x = opMove then
    match (moveOfWords (descWords x)).rank with
    | some r => let st := routeStatus (moveRoute s x r); if st = stOk then none else some st
    | none => none
  else none

/-- The core's store has room for the tiles of the part (R85). -/
def tilesFit (s : State) (x : DescState) (u : Nat) : Bool := (allocTiles 0 (s.core (coreOf u)) (partTiles x)).isSome

/-- A quantize pass whose summary fails the check of R147, which is made once, before any block is written. -/
def startsStale (s : State) (x : DescState) : Bool :=
  descOp x == opPass && pQuantOn (runningPass x) && !pAmax (runningPass x) && passList (hostEnv s x) (runningPass x) == some none

/-- The JOB field of a descriptor's events. -/
def descJobField (x : DescState) : BitVec 8 := match descJob x with
  | some j => jobField j
  | none => 0xFF

/-- QUANT_STALE of a pass, raised once (R147). -/
def noteStale (s : State) (x : DescState) (u : Nat) : State :=
  if startsStale s x then raiseEv s evQuantStale (BitVec.ofNat 16 u) [] (some x.ctx) (descJobField x) else s

/-! ### The end of a part (R390) -/

/-- The slot works for a descriptor's part. -/
def slotFor (s : State) (d : DescId) (t : Slot) : Bool := (s.slot t).running && (s.slot t).desc == some d

/-- A slot has stopped, and what it issued has completed. -/
def slotHalted (s : State) (t : Slot) : Bool :=
  (s.slot t).stopped && !engHolds s t .matrix && !engHolds s t .vector && !engHolds s t .mover

/-- Every slot of a part is free or has halted. -/
def slotsDone (s : State) (d : DescId) (p : PartState) : Bool := p.slots.all fun t => !slotFor s d t || slotHalted s t

/-- Sends of a host move that still await their ACK. -/
def movesOpen (s : State) (d : DescId) : Bool :=
  ((s.die 0).sends ++ (s.die 1).sends).any fun e => e.2.owner == .hostMove d && awaitsAck e.2

/-- Drops the sends of a host move. -/
def dropMoves (s : State) (d : DescId) : State :=
  [0, 1].foldl (fun s k => updDie s k fun x => { x with sends := x.sends.filter fun e => e.2.owner ≠ .hostMove d }) s

/-- The messages of a slot's queued moves to a rank. -/
def slotSends (s : State) (t : Slot) : List (Die × Job × W32) :=
  ((s.engine (slotCore t) .mover).queue.filter fun c => c.slot == t).flatMap fun c => match c.kind with
    | .send d j ms => ms.map fun m => (d, j, m)
    | _ => []

/-- Stops a slot whatever it runs: its queued operations end without effect, its handles and the messages it waits for are
released, and it is free (R112, R216, R392). -/
def releaseSlot (s : State) (t : Slot) : State :=
  let c := slotCore t
  let s := stopPasses s t
  let s := (slotSends s t).foldl (fun s x => dropSend s x.1 x.2.1 x.2.2) s
  let drop := fun (s : State) (k : EngineKind) =>
    let e := s.engine c k
    let s := releaseHandles s c ((e.queue.filter fun q => q.slot == t).flatMap fun q => q.handles)
    s.setEngine c k { e with queue := e.queue.filter fun q => q.slot != t }
  let s := [EngineKind.matrix, .vector, .mover].foldl drop s
  let s := releaseHandles s c (((s.core c).handles.filter fun h => h.2.owner == t && !h.2.pass).map Prod.fst)
  s.setSlot t {}

/-- The computed outcome of a part: bytes for the context's memory, and what goes with them. -/
structure PartOut where
  out : PassOut
  poison : Bool
  /-- Writes of a move, already placed, with their poison. -/
  moved : List MemWrite
  upd : Option UpdOut

/-- The slot data among what an update's part writes: not its record's tags and counts, nor a row's (R258). -/
def dataRanges (x : DescState) (p : PartState) : List (Nat × Nat) :=
  if descOp x ≠ opUpdate then p.writes
  else if (updSpec (descWords x)).rule = 2 then p.writes.map fun r => (r.1 + 64, r.2 - 64)
  else p.writes.dropLast

/-- What a part that fails or is stopped leaves undefined, poisoned where it failed (R390, R392); an update engine has then
written no tag (log entry 108, DEDUCED). -/
def undefOut (s : State) (x : DescState) (p : PartState) (failed : Bool) : PartOut :=
  let l := dataRanges x p
  { out := { writes := freeRanges s.free l, failed := failed, tallies := {}, vals := [], count := 0, events := []
             amax := {}, drawn := rangesLen l }
    poison := failed, moved := [], upd := none }

/-- Bytes at an address, free where they lie in a range of a list; and the next free index. -/
def spoilAt (l : List (Nat × Nat)) : Nat → Nat → List Byte → List Byte × Nat
  | i, _, [] => ([], i)
  | i, a, b :: t =>
    let hit := l.any fun r => decide (r.1 ≤ a ∧ a < r.1 + r.2)
    let (d, k) := spoilAt l (if hit then i + 1 else i) (a + 1) t
    ((if hit then freeByte i else b) :: d, k)

/-- Where two update descriptors of one attempt write the same elements, the values are undefined (R283): free bytes where the
writes meet a range written before. -/
def spoilWrites (l : List (Nat × Nat)) : Nat → List (Nat × List Byte) → List (Nat × List Byte) × Nat
  | i, [] => ([], i)
  | i, w :: t =>
    let (d, k) := spoilAt l i w.1 w.2
    let (r, k) := spoilWrites l k t
    ((w.1, d) :: r, k)

/-- What a pass or a product leaves whose sources an update has rewritten: its values are undefined, but for the given bits (R166,
R283). -/
def spoilOut (fixed : List (Nat × Nat)) (free : Nat) (o : PassOut) : PassOut :=
  if o.failed then o
  else { o with writes := spoilData fixed (free + o.drawn) o.writes, drawn := o.drawn + dataLen o.writes }

/-- The same of a move's writes, from free index i on. -/
def spoilMoved : Nat → List MemWrite → List MemWrite
  | _, [] => []
  | i, w :: t => { w with data := (rangeFrom i w.data.length).map freeByte } :: spoilMoved (i + w.data.length) t

def plainOut (o : PassOut) : PartOut := { out := o, poison := o.failed, moved := [], upd := none }

/-- What a part that ran to its end leaves. -/
def partResult (s : State) (x : DescState) (p : PartState) : PartOut :=
  let v := hostEnv s x
  if descOp x = opPass then
    let o := runPass v (runningPass x) p.lo p.hi s.free
    plainOut (if p.spoiled then spoilOut (passFixed v (runningPass x) p.lo p.hi) s.free o else o)
  else if descOp x = opProduct then
    let q := runningProduct x
    let o := runProduct v q (startedList s x q) p.lo p.hi s.free
    plainOut (if p.spoiled then spoilOut [] s.free o else o)
  else if descOp x = opMove then
    let m := moveShare (runningMove x) p.lo p.hi
    let none_ : PassOut := { writes := [], failed := false, tallies := {}, vals := [], count := 0, events := [], amax := {}, drawn := 0 }
    if m.rank.isSome then plainOut none_
    else match localMove s (hostReach s x.ctx) v.seed m with
      | some (ws, t, n) =>
        let more := if p.spoiled then ws.foldl (fun k w => k + w.data.length) 0 else 0
        { out := { none_ with tallies := t, drawn := n + more }, poison := false
          moved := if p.spoiled then spoilMoved (s.free + n) ws else ws, upd := none }
      | none => undefOut s x p true
  else
    match updJob s x with
    | none => undefOut s x p true
    | some j =>
      if p.reads.all (fun r => v.ok .read r.1 r.2) && p.writes.all (fun r => v.ok .write r.1 r.2)
          && !p.reads.any fun r => v.bad r.1 r.2 then
        let o := runUpdate (oldView s x.ctx) j x (updSpec (descWords x)) (tabGet 0 x.live 0).toNat
        let (ws, k) := spoilWrites (s.job j).written s.free o.writes
        { out := { writes := ws, failed := false, tallies := o.tallies, vals := o.vals, count := o.vals.length
                   events := if o.fallback then [evPlaneFallback] else [], amax := {}, drawn := k - s.free }
          poison := false, moved := [], upd := some o }
      else undefOut s x p true

/-- The source number of a unit in an event (R445). -/
def unitSource (u : Nat) : BitVec 16 := BitVec.ofNat 16 u

/-- The 64-byte units of memory that ranges of virtual memory reach, each once; a range that is refused reaches none. -/
def unitCount (s : State) (c : Ctx) (l : List (Nat × Nat)) : Nat :=
  (l.foldl (fun (t : Tab Unit) r => ((vaParts (oldView s c) c .write r.1 r.2).getD []).foldl (fun t p =>
    (unitsOf p.1 p.2).foldl (fun t u => tabPut t u ()) t) t) []).length

/-- What the failed parts of a descriptor have written poisoned. -/
def failedRanges (x : DescState) : List (Nat × Nat) := (x.ended.filter fun p => p.failed).flatMap (dataRanges x)

/-- POISON_UNITS with ranges that are written poisoned now: a unit that failed parts share counts once (R387). -/
def poisonTally (s : State) (x : DescState) (more : List (Nat × Nat)) : Tallies :=
  let l := failedRanges x
  { x.tallies with poisonUnits := x.tallies.poisonUnits + (unitCount s x.ctx (l ++ more) - unitCount s x.ctx l) }

/-- Adds the watch contributions of a part to the job's blocks (R172, R188). -/
def addPartWatch (s : State) (x : DescState) (p : PartState) (o : PartOut) : State :=
  let merge := fun (s : State) (j : Job) (l : Tab WatchBlock) =>
    s.setJob j { s.job j with watchBlocks := l.foldl (fun w e => addWatch w e.1 e.2) (s.job j).watchBlocks }
  let s := if p.watch = [] then s else match (descJob x).orElse fun _ => ctxJob s x.ctx with
    | some j => merge s j p.watch
    | none => s
  match descJob x with
  | none => s
  | some j =>
    let t := descTag x
    if tagLayer t = 0xFFF then s
    else
      let key := watchKey (descStep x) (tagLayer t)
      let own := match o.upd with
        | some u => if tagOwner t then [(key, u.watch)] else []
        | none => []
      if descOp x = opMove then s else merge s j (own ++ [(key, watchOf t o.out.vals o.out.count o.out.tallies)])

/-- A plane update tells how large the statistics of its layer are (R256). -/
def noteShape (s : State) (j : Job) (x : DescState) (u : UpdSpec) : State :=
  match u.rule, recordIndex s j u.slots with
  | 1, some i => s.setJob j { s.job j with shapes := tabSet 0 (s.job j).shapes i (statBytesOf u (hyperAt s x.ctx u)) }
  | _, _ => s

/-- An update has written ranges of a context: parts of other descriptors that read there while they run leave undefined values (R283). -/
def spoilParts (s : State) (c : Ctx) (l : List (Nat × Nat)) : State :=
  let part := fun (p : PartState) => { p with spoiled := p.spoiled || p.reads.any fun r => l.any (rangesMeet r) }
  let one := fun (y : DescState) => if y.ctx = c ∧ descOp y ≠ opUpdate then { y with parts := y.parts.map part } else y
  { s with qmg := { s.qmg with descs := s.qmg.descs.map fun q => (q.1, one q.2) } }

/-- What an update leaves beside its slot: tag log, journal, a root step that is due. -/
def updateAfter (s : State) (x : DescState) (p : PartState) (o : UpdOut) : State :=
  match updJob s x with
  | none => s
  | some j =>
    let u := updSpec (descWords x)
    let s := noteShape (stageJournal (logTags s j u.panel o.tags) j x u o) j x u
    let s := spoilParts (s.setJob j { s.job j with written := (s.job j).written ++ dataRanges x p }) x.ctx (dataRanges x p)
    match o.due with
    | some r =>
      let y := s.job j
      s.setJob j { y with rootDue := (y.rootDue.filter fun z => !(z.layer == r.layer && z.step == r.step && !z.computing)) ++ [r] }
    | none => s

/-- Writes what a part leaves into memory. -/
def writeOut (s : State) (c : Ctx) (o : PartOut) : State :=
  let s := o.out.writes.foldl (fun s w => (vaWriteOld s c w.1 w.2 o.poison).getD (noteVaWrite s c w.1 w.2.length)) s
  let s := o.moved.foldl applyWrite s
  { s with free := s.free + o.out.drawn }

/-- The rows that the parts of a descriptor have ended. -/
def rowsEnded (x : DescState) : Nat := x.ended.foldl (fun n p => n + (p.hi - p.lo)) 0

/-- The outputs of an amax pass, where a part of it failed or it was stopped: undefined (R145, R390). -/
def amaxUndef (s : State) (d : DescId) (x : DescState) (bad : Bool) : State :=
  let outs := amaxOuts (descWords x)
  let s := if bad then updDesc s d fun y => { y with tallies := poisonTally s y outs } else s
  writeOut s x.ctx { out := { writes := freeRanges s.free outs, failed := bad, tallies := {}, vals := [], count := 0, events := []
                              amax := {}, drawn := rangesLen outs }, poison := bad, moved := [], upd := none }

def isAmax (x : DescState) : Bool := descOp x == opPass && pAmax (descWords x)

/-- The rows of the parts that ended without failing and were not stopped: what a MOVE has moved (R387). -/
def rowsMoved (x : DescState) : Nat :=
  (x.ended.filter fun p => !p.failed && !p.cut).foldl (fun n p => n + (p.hi - p.lo)) 0

/-- Ends a descriptor whose parts have all ended, or lets its amax merge follow. -/
def concludeParts (s : State) (d : DescId) : State :=
  match s.desc? d with
  | none => s
  | some x =>
    if x.parts = [] ∧ (x.stopping.isSome ∨ rowsEnded x = totalRows x) then
      if isAmax x ∧ x.stopping = none ∧ failedParts x = [] then s.setDesc d { x with phase := .finishing }
      else
        let s := if isAmax x then amaxUndef s d x (failedParts x ≠ []) else s
        let s := if descOp x = opMove then setResult s d 24 (rowsMoved x * (runningMove x).outBytes) else s
        finishDesc s d
    else s

/-- Accounts for a part that has ended with an outcome. -/
def settlePart (s : State) (d : DescId) (x : DescState) (p : PartState) (o : PartOut) : State :=
  let failed := o.out.failed || p.failed
  let s := writeOut s x.ctx o
  let s := p.reads.foldl (fun s r => noteVaRead s x.ctx r.1 r.2) s
  let events := if startsStale s x then o.out.events.filter (· != evQuantStale) else o.out.events
  let s := events.foldl (fun s e => raiseEv s e (unitSource p.unit) [] (some x.ctx) (descJobField x)) s
  let s := if failed || x.stopping.isSome then s else addPartWatch s x p o
  let s := match o.upd with
    | some u => updateAfter s x p u
    | none => s
  let s := match unitPanel p.unit with
    | some q => if failed then s.setPanel q { s.panel q with failed := sat64 ((s.panel q).failed + 1) } else s
    | none => s
  let s := releaseHandles s (coreOf p.unit) p.handles
  let s := updDesc s d fun y => { y with
    parts := y.parts.filter fun z => z.unit != p.unit
    ended := y.ended ++ [{ p with failed := failed, cut := p.cut || x.stopping.isSome }]
    tallies := if failed then poisonTally s y (dataRanges x p)
      else addTallies (addTallies y.tallies p.tallies) o.out.tallies
    amax := if failed then y.amax else amaxJoin y.amax o.out.amax }
  concludeParts s d

/-- Ends part p of descriptor d; forced where it fails from outside or is stopped. -/
def endPart (s : State) (d : DescId) (x : DescState) (p : PartState) (outside : Bool) : State :=
  let failed := p.failed || outside || p.slots.any fun t => slotFor s d t && (s.slot t).stopped
  let s := (p.slots.filter (slotFor s d)).foldl releaseSlot s
  let s := if descOp x = opMove then dropMoves s d else s
  let o := if x.stopping.isSome then undefOut s x p false
    else if failed then undefOut s x p true
    else partResult s x p
  settlePart s d x { p with failed := failed && x.stopping.isNone } o

/-- A share whose rank has become unreachable since the first part was placed is not moved: the descriptor ends with the route's status
once its other parts have ended (R340). -/
def unplacedPart (d : DescId) (u : Nat) (w : Placement) (st : BitVec 16) (s : State) : State :=
  let p : PartState := { unit := u, slots := [], lo := w.lo, hi := w.hi, failed := false, reads := [], writes := [], cut := true }
  concludeParts (updDesc (markDesc s d st) d fun y => { y with ended := y.ended ++ [p] }) d

/-- PART_PLACE: the first part fixes rung, references and epoch, or ends the descriptor. -/
def partPlace (d : DescId) (u : Nat) (w : Placement) (s : State) : State :=
  match s.desc? d with
  | none => s
  | some x =>
    if mayPlace s x u w && tilesFit s x u then
      if x.parts = [] ∧ x.ended = [] then
        match fixDesc s x with
        | .inr st => endDesc s d st
        | .inl y =>
          match routeStop s y with
          | some st => endDesc s d st
          | none => placePart d y u w (noteStale s y u)
      else match routeStop s x with
        | some st => unplacedPart d u w st s
        | none => placePart d x u w s
    else s

def execPartPlace (d : DescId) (u : Fin 170) (w : Placement) (s : State) : Host.Outcome State Fault Refusal :=
  .next (partPlace d u.val w s)

/-- A part waits for its replay, or is being replayed (R433). -/
def inReplay (s : State) (d : DescId) (u : Nat) : Bool :=
  decide (u < 160) && match (s.core (coreOf u)).replay with
    | some r => r.parts.contains (d, u) || r.running == some (d, u)
    | none => false

/-- The part is one that a bench controller has placed: not a stream of a securing point, which ends with its point (R411). -/
def placedKind (x : DescState) : Bool := descOp x != opSnapshot

/-- A part may run to its end now: its slots are done, a move's messages are acknowledged, and no stage keeps its update engine from
another block (R460). -/
def partDone (s : State) (d : DescId) (x : DescState) (p : PartState) : Bool :=
  slotsDone s d p && !(descOp x == opMove && movesOpen s d)
    && !(decide (162 ≤ p.unit) && match unitPanel p.unit with
      | some q => noNewWork s q
      | none => false)

/-- PART_END; a part under replay ends by REPLAY_END. -/
def partEnd (d : DescId) (u : Nat) (e : PartOutcome) (s : State) : State :=
  match s.desc? d with
  | none => s
  | some x =>
    match x.parts.find? fun p => p.unit == u with
    | none => s
    | some p =>
      let forced := x.stopping.isSome || e == .failed
      if recordRoom s && placedKind x && !unitStuck s u && (x.stopping.isSome || !inReplay s d u) && (forced || partDone s d x p) then
        endPart s d x p (e == .failed)
      else s

def execPartEnd (d : DescId) (u : Fin 170) (e : PartOutcome) (s : State) : Host.Outcome State Fault Refusal :=
  .next (partEnd d u.val e s)

/-! ### AMAX_MERGE (R144 to R146) -/

/-- The merged statistics of an amax pass are written, and the pass completes. -/
def amaxMerge (d : DescId) (s : State) : State :=
  match s.desc? d with
  | none => s
  | some x =>
    if isAmax x ∧ x.phase = .finishing ∧ recordRoom s then
      if x.stopping.isSome then finishDesc (amaxUndef s d x false) d
      else
        let w := runningPass x
        let (ws, dropped) := amaxWrites w x.amax (descStep x)
        if (amaxOuts w).all fun r => vaOk (oldView s x.ctx) x.ctx .write r.1 r.2 then
          let spoiled := x.ended.any fun p => p.spoiled
          let k := if spoiled then dataLen ws else 0
          let ws := if spoiled then spoilData (passFixed (hostEnv s x) w 0 0) s.free ws else ws
          let s := ws.foldl (fun s w => (vaWriteOld s x.ctx w.1 w.2).getD s) { s with free := s.free + k }
          finishDesc (updDesc s d fun y => { y with tallies := { y.tallies with inlayDropped := sat32 (y.tallies.inlayDropped + dropped) } }) d
        else concludeDesc s d stPartial
    else s

def execAmaxMerge (d : DescId) (s : State) : Host.Outcome State Fault Refusal := .next (amaxMerge d s)

end Sys2Proof.Machine
end

