-- ==== Sys2Proof/Machine/Jobs.lean ====
section
/-!
DEFINITION. The control descriptors that set up a fabric job and its ladder policy: JOB_SETUP (R300, R301, R340, R341, R382)
and LADDER_POLICY (R178, R179).
-/

namespace Sys2Proof.Machine

open Sys2Proof

/-! ### Tables in device memory (R340, R341, R342) -/

/-- A rank table of n entries of 16 bytes at a virtual address; none where it cannot be read. -/
def readRankTable (s : State) (c : Ctx) (va n : Nat) : Option (List (W64 × W64)) :=
  if n = 0 then some [] else
  match vaRead s c va (16 * n) with
  | some (l, false) =>
    let w := wordsOf (2 * n) l
    some ((rangeFrom 0 n).map fun i => (BitVec.ofNat 64 (nth w (2 * i)), BitVec.ofNat 64 (nth w (2 * i + 1))))
  | _ => none

/-- A ring table of 32 bytes at a virtual address. -/
def readRingTable (s : State) (c : Ctx) (va : Nat) : Option (List Nat) :=
  match vaRead s c va 32 with
  | some (l, false) => some (l.map BitVec.toNat)
  | _ => none

/-- What reading the two tables leaves beside their bytes (R303, R307). -/
def noteRouteTables (s : State) (c : Ctx) (va n ring : Nat) : State :=
  noteVaRead (if n = 0 then s else noteVaRead s c va (16 * n)) c ring 32

/-- The entries of each of a job's two banks: the NRANKS of its live tables, or of the change that is pending where that is
more (R340). -/
def bankEntries (x : JobState) : Nat :=
  match x.change with
  | some c => max x.table.length c.table.length
  | none => x.table.length

/-- Route-memory entries that the jobs other than j take: a live bank and a staging bank each (R340). -/
def routeUse (s : State) (j : Job) : Nat :=
  ([0, 1, 2, 3, 4, 5, 6, 7].filter fun k => decide (k ≠ j) && (s.job k).resident).foldl (fun n k => n + 2 * bankEntries (s.job k)) 0

/-- A job's two banks of n entries find room in the route memory. -/
def routeFits (s : State) (j : Job) (n : Nat) : Bool := decide (routeUse s j + 2 * n ≤ 524288)

/-! ### JOB_SETUP (R382) -/

/-- The regions of a set-up block: update, ladder, vote, watch. -/
def setupRegions (w : List Nat) : List Nat := [nth w 1, nth w 3, nth w 4, nth w 5]

/-- The regions lie on pages with W set: all of the update and the vote region, and of the others, whose size a policy's NLAYERS
gives, the first 64 bytes; LADDER_POLICY checks the rest (R300; log entry 111, DEDUCED). -/
def regionsWritable (s : State) (c : Ctx) (w : List Nat) (n : Nat) : Bool :=
  let ok := vaOk s c .write
  ok (nth w 1) (nth w 2) && ok (nth w 3) 64 && ok (nth w 4) (64 + 64 * ceilDiv n 512) && ok (nth w 5) 64

/-- The ladder and the watch region of a job lie on pages with W set over the whole size that NLAYERS gives them (R300). -/
def layersWritable (s : State) (j : Job) (layers : Nat) : Bool :=
  let x := s.job j
  vaOk s x.ctx .write x.ladder.toNat (2 * 64 * layers) && vaOk s x.ctx .write x.watch.toNat (2 * 384 * layers)

/-- A set-up block that R300, R301 or R382 refuses. -/
def setupBad (s : State) (c : Ctx) (w : List Nat) : Bool :=
  let job := fld (nth w 0) 0 8
  let n := fld (nth w 0) 32 32
  fld (nth w 0) 8 8 != 0 || decide (7 < job ∨ 65536 < n)
  || (if h : job < 8 then (s.job ⟨job, h⟩).resident else false)
  || (n != 0 && decide (n ≤ fld (nth w 0) 16 16))
  || (if n = 0 then (setupRegions w).any (· != 0) || nth w 2 != 0
      else (setupRegions w).any (fun r => r % 65536 != 0) || decide (nth w 2 < 0x2001000)
        || !regionsWritable s c w n)

/-- The job that a set-up block makes resident: every other field of it is at its reset value. -/
def setupJob (s : State) (c : Ctx) (w : List Nat) (table : List (W64 × W64)) (len : List Nat) : JobState :=
  { resident := true, ctx := c, gen := (s.ctx c).gen, myRank := BitVec.ofNat 16 (fld (nth w 0) 16 16)
    nranks := fld (nth w 0) 32 32, update := BitVec.ofNat 64 (nth w 1), updateSize := BitVec.ofNat 64 (nth w 2)
    ladder := BitVec.ofNat 64 (nth w 3), vote := BitVec.ofNat 64 (nth w 4), watch := BitVec.ofNat 64 (nth w 5)
    table := table, ringLen := [(0, len)] }

/-- JOB_SETUP: its tables are read, checked and taken as those of epoch 0 (R340, R341, R382). -/
def jobSetup (d : DescId) (x : DescState) (w : List Nat) (s : State) : State :=
  if setupBad s x.ctx w then endDesc s d stBadDescriptor
  else
    let n := fld (nth w 0) 32 32
    let j : Job := ⟨nth w 0 % 8, Nat.mod_lt _ (by decide)⟩
    let tables := (readRankTable s x.ctx (nth w 6) n, readRingTable s x.ctx (nth w 7))
    let s := noteRouteTables s x.ctx (nth w 6) n (nth w 7)
    match tables with
    | (some t, some len) =>
      if !(t.all (routeOk len)) || !ringTableOk len then endDesc s d stBadDescriptor
      else if !routeFits s j n then endDesc s d stNoRouteSpace
      else endDesc (s.setJob j (setupJob s x.ctx w t len)) d stOk
    | _ => endDesc s d stArgsFault

def execJobSetup (d : DescId) (s : State) : Host.Outcome State Fault Refusal :=
  .next (startDesc s d opJob (withArgs d 8 (jobSetup d)))

/-! ### LADDER_POLICY (R178, R179) -/

/-- The override bytes of a policy block; none where the array cannot be read. -/
def readOverrides (s : State) (c : Ctx) (w : List Nat) : Option (List Byte) :=
  if nth w 5 = 0 then some []
  else match vaRead s c (nth w 5) (min (fld (nth w 1) 32 32) 4095) with
    | some (l, false) => some l
    | _ => none

/-- An accepted policy waits for the commit of the step before its EFFECTIVE_STEP; an INIT policy whose commit has passed is
applied at once to the live table (R179, log entry 41). A shadow table that is already written is decided anew where the policy
governs it (log entry 110, DESIGN CHOICE). -/
def acceptPolicy (s : State) (j : Job) (p : Policy) : State :=
  let x := s.job j
  let last := jobStep s j
  if p.init && decide (p.effective.toNat ≤ last + 1) then
    let copy := ladderCopy s j
    let recs := applyPolicy p last (ladderTable s j copy (jobLayers s j))
    let s := writeLadder s j copy recs
    s.setJob j { x with policy := some p, shadow := none }
  else
    s.setJob j { x with policies := x.policies ++ [p], shadow := if p.effective.toNat = last + 2 then none else x.shadow }

/-- The module has cast its vote on a shadow table, and the commit is still to come: a policy that would change that table
waits for it. -/
def policyWaits (s : State) (j : Job) (p : Policy) : Bool :=
  (match (s.job j).commit with
    | some c => c.voted.isSome
    | none => false)
  && (s.job j).shadow.isSome && decide (p.effective.toNat ≤ jobStep s j + 2)

/-- LADDER_POLICY: the policy is that of the lowest job of the descriptor's context, as its block names none (log entry 40). An
override array that cannot be read ends it ARGS_FAULT, before the checks of R179 (log entry 149, DESIGN CHOICE); a ladder or watch region
that its NLAYERS takes beyond pages with W set is refused (R300; log entry 111, DEDUCED). -/
def ladderPolicy (d : DescId) (s0 : State) (x : DescState) (w : List Nat) (s : State) : State :=
  match ctxJob s x.ctx with
  | none => endDesc s d stBadDescriptor
  | some j =>
    let over_ := readOverrides s x.ctx w
    let s := if nth w 5 = 0 then s else noteVaRead s x.ctx (nth w 5) (min (fld (nth w 1) 32 32) 4095)
    match over_ with
    | none => endDesc s d stArgsFault
    | some ov =>
      let p := policyOfWords w ov
      if policyBad w p (jobStep s j) || !layersWritable s j p.nlayers then endDesc s d stBadDescriptor
      else if policyWaits s j p then s0
      else endDesc (acceptPolicy s j p) d stOk

def execLadderPolicy (d : DescId) (s : State) : Host.Outcome State Fault Refusal :=
  .next (startDesc s d opPolicy (withArgs d 8 (ladderPolicy d s)))

end Sys2Proof.Machine
end

