-- ==== Sys2Proof/Machine/Coll.lean ====
section
/-!
DEFINITION. Scheduled collectives (R357 to R363, R365, R512): the schedule header and its tables, the sequencer's slots, the
combines, late ranks; the vote block (R275).
-/

namespace Sys2Proof.Machine

open Sys2Proof

/-! ### The vote block (R275) -/

/-- A set of numbers as a bit map of n bytes. -/
def mapBytes (n : Nat) (l : List Nat) : List Byte := leBytes n (l.foldl (fun m r => m ||| 2 ^ r) 0)

/-- The numbers whose bits are set in a map. -/
def mapOfBytes (l : List Byte) : List Nat :=
  let m := ofLE l
  (rangeFrom 0 (8 * l.length)).filter m.testBit

/-- Bytes of the map of n ranks. -/
def mapLen (n : Nat) : Nat := 64 * ceilDiv n 512

/-- The bytes of a vote block whose map has n bytes. -/
def voteBytes (n : Nat) (b : VoteBlock) : List Byte :=
  wordBytes [b.loStep.toNat + 2 ^ 32 * b.loRank.toNat, b.loEpoch.toNat, b.loDigest.toNat,
    b.hiStep.toNat + 2 ^ 32 * b.hiRank.toNat, b.hiEpoch.toNat, b.hiDigest.toNat,
    b.readyCount.toNat + 2 ^ 32 * b.voters.toNat, 0] ++ mapBytes n b.readyMap

/-- The vote block that bytes hold. -/
def voteOfBytes (l : List Byte) : VoteBlock :=
  let w := wordsOf 8 l
  { loStep := BitVec.ofNat 32 (fld (nth w 0) 0 32), loRank := BitVec.ofNat 32 (fld (nth w 0) 32 32)
    loEpoch := BitVec.ofNat 64 (nth w 1), loDigest := BitVec.ofNat 64 (nth w 2)
    hiStep := BitVec.ofNat 32 (fld (nth w 3) 0 32), hiRank := BitVec.ofNat 32 (fld (nth w 3) 32 32)
    hiEpoch := BitVec.ofNat 64 (nth w 4), hiDigest := BitVec.ofNat 64 (nth w 5)
    readyCount := BitVec.ofNat 32 (fld (nth w 6) 0 32), voters := BitVec.ofNat 32 (fld (nth w 6) 32 32)
    readyMap := mapOfBytes (l.drop 64) }

/-- LO and HI as triples. -/
def VoteBlock.lo (b : VoteBlock) : List Nat := [b.loStep.toNat, b.loEpoch.toNat, b.loDigest.toNat]
def VoteBlock.hi (b : VoteBlock) : List Nat := [b.hiStep.toNat, b.hiEpoch.toNat, b.hiDigest.toNat]

/-- Takes the LO of another block where it is the lesser triple, or the same from a lower rank. -/
def takeLo (a b : VoteBlock) : VoteBlock :=
  if keyLt (b.lo ++ [b.loRank.toNat]) (a.lo ++ [a.loRank.toNat]) then
    { a with loStep := b.loStep, loRank := b.loRank, loEpoch := b.loEpoch, loDigest := b.loDigest }
  else a

/-- Takes the HI of another block where it is the greater triple, or the same from a lower rank. -/
def takeHi (a b : VoteBlock) : VoteBlock :=
  if keyLt a.hi b.hi || (a.hi == b.hi && decide (b.hiRank.toNat < a.hiRank.toNat)) then
    { a with hiStep := b.hiStep, hiRank := b.hiRank, hiEpoch := b.hiEpoch, hiDigest := b.hiDigest }
  else a

/-- The merge of R275. -/
def voteMerge (a b : VoteBlock) : VoteBlock :=
  { takeHi (takeLo a b) b with
    readyCount := a.readyCount + b.readyCount, voters := a.voters + b.voters
    readyMap := b.readyMap.foldl setInsert a.readyMap }

/-! ### The header and its tables (R357, R359) -/

def opCopy : Nat := 0
def opSum32 : Nat := 1
def opSum64 : Nat := 2
def opWatch : Nat := 3
def opVote : Nat := 4

/-- A slot of the slot table: its open mark's offset and its window. -/
def slotOf (v : Nat) : Nat × Nat := (fld v 0 32, fld v 32 16)

/-- An entry of the entry table. -/
def entryOf (w : List Nat) : CollEntry :=
  { sendAddr := BitVec.ofNat 64 (nth w 0), accAddr := BitVec.ofNat 64 (nth w 1), len := fld (nth w 2) 0 32
    stgOff := fld (nth w 2) 32 32, dst := BitVec.ofNat 16 (fld (nth w 3) 0 16), src := BitVec.ofNat 16 (fld (nth w 3) 16 16)
    slot := fld (nth w 3) 32 16, send := bit (nth w 3) 48, recv := bit (nth w 3) 49, msg := none, complete := false
    excluded := false, late := false }

/-- A reserved field of an entry, an entry in no slot, one whose staging lies in the late map, or one that names no rank of the
schedule (log entry 64, DEDUCED). -/
def entryBad (nslots nranks : Nat) (w : List Nat) : Bool :=
  let e := entryOf w
  fld (nth w 3) 50 14 != 0 || decide (nslots ≤ e.slot) || decide (e.stgOff < mapLen nranks)
    || (e.send && decide (nranks ≤ e.dst.toNat)) || (e.recv && decide (nranks ≤ e.src.toNat))

/-- Entries stand in ascending order of SLOT. -/
def slotsAscend : List CollEntry → Bool
  | a :: b :: t => decide (a.slot ≤ b.slot) && slotsAscend (b :: t)
  | _ => true

/-- OPEN strictly ascending, and O_{k+1} at or after T_k. -/
def opensAscend : List (Nat × Nat) → Bool
  | a :: b :: t => decide (a.1 < b.1) && decide (a.1 + a.2 ≤ b.1) && opensAscend (b :: t)
  | _ => true

/-- The largest O_{k+1} − O_k. -/
def largestGap : List (Nat × Nat) → Nat
  | a :: b :: t => max (b.1 - a.1) (largestGap (b :: t))
  | _ => 0

/-- A header that is refused in itself: reserved fields and values, ranges. -/
def headerBad (w : List Nat) : Bool :=
  let nent := fld (nth w 1) 0 32
  let ns := fld (nth w 1) 32 16
  let n := fld (nth w 4) 32 32
  decide (nent < 1 ∨ 65536 < nent ∨ ns < 1 ∨ 4096 < ns ∨ 4 < fld (nth w 1) 48 8 ∨ 1 < fld (nth w 1) 56 8)
  || fld (nth w 3) 40 8 != 0 || fld (nth w 3) 60 4 != 0 || fld (nth w 4) 12 4 != 0 || fld (nth w 4) 16 16 != 0
  || decide (n < 1 ∨ 65536 < n) || (fld (nth w 1) 56 8 == 1 && decide (3 ≤ fld (nth w 1) 48 8))

/-- The timing rules of R359. -/
def timingBad (x : CollState) : Bool :=
  match x.slots.getLast? with
  | none => true
  | some (o, win) =>
    !opensAscend x.slots || decide (x.endOff < o + win + x.bound)
    || (!x.exclude && (decide (x.shift < largestGap x.slots) || decide (x.shift < x.endOff - o)))

/-- The window of a schedule: [BASE, BASE + END + SHIFT] (R359, R360). -/
def CollState.window (x : CollState) : Nat × Nat := (x.base.toNat, x.base.toNat + x.endOff + x.shift)

/-- A change mark of the job that has been accepted lies in the schedule's window (R359, R360). -/
def changeInside (s : State) (x : CollState) : Bool :=
  match (s.job x.job).change with
  | some c => decide (x.window.1 ≤ c.mark.toNat) && decide (c.mark.toNat ≤ x.window.2)
  | none => false

/-- What a schedule header leads to. -/
inductive CollRead where
  | bad
  | fault
  | ok (x : CollState)
  deriving DecidableEq, Repr

/-- Reads a header's tables and checks the schedule; its job is set up by the context (R515). -/
def readColl (s : State) (c : Ctx) (w : List Nat) : CollRead :=
  if headerBad w then .bad
  else match rankJobOf s c (fld (nth w 3) 32 8) with
  | none => .bad
  | some j =>
    let nent := fld (nth w 1) 0 32
    let ns := fld (nth w 1) 32 16
    let n := fld (nth w 4) 32 32
    match vaRead s c (nth w 5) (8 * ns), vaRead s c (nth w 6) (32 * nent) with
    | some (sl, false), some (el, false) =>
      let sw := wordsOf ns sl
      let ew := (rangeFrom 0 nent).map fun i => wordsOf 4 (el.drop (32 * i))
      let x : CollState :=
        { job := j, base := BitVec.ofNat 64 (nth w 0), op := fld (nth w 1) 48 8, exclude := fld (nth w 1) 56 8 == 1
          bound := fld (nth w 2) 0 32, shift := fld (nth w 2) 32 32, endOff := fld (nth w 3) 0 32, nranks := n
          combineSc := BitVec.ofNat 16 (fld (nth w 3) 48 16), doneSc := BitVec.ofNat 16 (fld (nth w 4) 0 16)
          staging := BitVec.ofNat 64 (nth w 7), slots := sw.map slotOf, entries := ew.map entryOf, fired := false
          missed := false, shifted := false, shiftEntry := 0, shiftSlot := 0, doneBase := 0, opened := 0, marked := 0, late := [], fault := false }
      if sw.any (fun v => fld v 48 16 != 0) || ew.any (entryBad ns n) || !slotsAscend x.entries || timingBad x
        || changeInside s x then .bad
      else .ok x
    | _, _ => .fault

/-- What reading a schedule's tables leaves beside their words (R303, R307). -/
def noteColl (s : State) (c : Ctx) (w : List Nat) : State :=
  if headerBad w then s
  else noteVaRead (noteVaRead s c (nth w 5) (8 * fld (nth w 1) 32 16)) c (nth w 6) (32 * fld (nth w 1) 0 32)

/-- COLL: its schedule is read and checked, and waits to be armed at BASE (R359). -/
def collStart (d : DescId) (x : DescState) (w : List Nat) (s0 : State) : State :=
  let s := noteColl s0 x.ctx w
  match readColl s0 x.ctx w with
  | .bad => endDesc s d stBadDescriptor
  | .fault => endDesc s d stArgsFault
  | .ok y =>
    let s := s.setJob y.job { s.job y.job with windows := (s.job y.job).windows ++ [y.window] }
    (s.setDesc d { x with phase := .running }).setColl d y

def execColl (d : DescId) (s : State) : Host.Outcome State Fault Refusal :=
  .next (startDesc s d opColl (withArgs d 8 (collStart d)))

/-! ### Marks of a schedule (R361, R362) -/

/-- How far a schedule's marks have moved. -/
def CollState.moved (x : CollState) : Nat := if x.shifted then x.shift else 0

/-- The open mark of slot k, and its slot mark. -/
def CollState.openMark (x : CollState) (k : Nat) : Nat :=
  x.base.toNat + (x.slots.getD k (0, 0)).1 + (if x.shiftSlot < k then x.moved else 0)
def CollState.slotMarkAt (x : CollState) (k : Nat) : Nat := x.openMark k + (x.slots.getD k (0, 0)).2
/-- When receive entry i, of slot k, is judged: the entry that took the shift moves, and the slots after its own. -/
def CollState.deadline (x : CollState) (i k : Nat) : Nat :=
  x.base.toNat + (x.slots.getD k (0, 0)).1 + (x.slots.getD k (0, 0)).2 + x.bound
  + (if x.shiftSlot < k ∨ x.shiftEntry = i then x.moved else 0)
def CollState.endMark (x : CollState) : Nat := x.base.toNat + x.endOff + x.moved

/-- The count stands at or above a mark. -/
def atMark (s : State) (m : Nat) : Bool := s.gau.valid && decide (m ≤ s.gau.count.toNat)

/-- Updates a schedule. -/
def updColl (s : State) (d : DescId) (g : CollState → CollState) : State :=
  match s.coll? d with
  | some x => s.setColl d (g x)
  | none => s

/-- The schedule is that of a COMMIT's vote. -/
def isVote (s : State) (d : DescId) (x : CollState) : Bool := ((s.job x.job).commit.map fun c => c.desc) == some d

/-- How the launch of a schedule is named in a comparator. -/
def collLaunch (s : State) (d : DescId) (x : CollState) : LaunchId := if isVote s d x then .vote x.job else .coll d

/-! ### COLL_BASE_FIRE (R339, R358, R512) -/

/-- A context's memory at an address takes bytes, where it may be written; an error in a table is reported (R307). -/
def ctxWrite (s : State) (c : Ctx) (va : Nat) (data : List Byte) (bad : Bool := false) : State :=
  (vaWrite s c va data bad).getD (noteVaWrite s c va data.length)

/-- The late map, at the start of the staging area. -/
def writeLateMap (s : State) (x : CollState) : State :=
  ctxWrite s (s.job x.job).ctx x.staging.toNat (mapBytes (mapLen x.nranks) x.late)

/-- The receive entries of a schedule's RECV entries are set aside (R339, R358); they stand at link die 0 (log entry 42). -/
def setAside (s : State) (d : DescId) (x : CollState) : State :=
  let l := (List.zip (rangeFrom 0 x.entries.length) x.entries).filterMap fun e =>
    if e.2.recv then
      some (⟨x.job, e.2.src, 0, e.2.len, 0, x.staging + BitVec.ofNat 64 e.2.stgOff, some (d, e.1)⟩ : RecvMsg)
    else none
  updDie s 0 fun y => { y with recvs := y.recvs ++ l }

/-- Frees what a schedule holds at the link dies. -/
def freeColl (s : State) (d : DescId) : State :=
  [0, 1].foldl (fun s k => updDie s k fun y => { y with
    recvs := y.recvs.filter fun r => (r.coll.map Prod.fst) != some d
    sends := y.sends.filter fun e => match e.2.owner with
      | .coll q _ => q != d
      | _ => true }) s

/-- The step that a module's watch schedule serves: the one after the last committed (log entry 43, DEDUCED). -/
def watchStep (s : State) (j : Job) : Nat := (jobStep s j + 1) % 2 ^ 32

/-- The panel counter that a 16-bit name of R357 selects. -/
def panelSc (v : BitVec 16) : ScName := .panel ⟨fld v.toNat 10 2, by unfold fld; omega⟩ ⟨fld v.toNat 0 10, by unfold fld; omega⟩

/-- At the watch mark the module's blocks of the step are what it contributes (R175, R185); what an earlier all-reduce of the step left is
given up. -/
def putWatch (s0 : State) (j : Job) : State :=
  let s := s0.setJob j { s0.job j with jobWide := none, shadow := none }
  let step := watchStep s j
  (rangeFrom 0 (jobLayers s j)).foldl (fun s l =>
    jobWrite s j (watchAddr s j step l) (watchBytes (tabGet {} (s.job j).watchBlocks (watchKey step l)))) s

/-- Panel p is READY: its count of update descriptors, all with OK (R274). -/
def panelReady (x : JobState) (c : CommitState) (p : Nat) : Bool :=
  let ok := if x.updStep = c.step then tabGet 0 x.updOk p else 0
  let bad := if x.updStep = c.step then tabGet 0 x.updBad p else 0
  ok == nth c.counts p && bad == 0

/-- The module is ready at V (R274); with an invalid or unaligned count it votes not ready (R352, R356). -/
def voteReady (s : State) (j : Job) (c : CommitState) : Bool :=
  let x := s.job j
  [0, 1, 2, 3].all (panelReady x c)
  && (match x.shadow with
      | some h => h.ready && h.step == c.step
      | none => false)
  && x.jobWide == some (c.step, false) && c.checkOk && !x.scrub && s.gau.valid && alignedNow s

/-- The module's contribution to the vote (R275). -/
def voteOwn (s : State) (j : Job) (c : CommitState) (ready : Bool) : VoteBlock :=
  let x := s.job j
  let me := BitVec.ofNat 32 x.myRank.toNat
  let dig := match x.shadow with
    | some h => h.digest
    | none => 0
  if ready then
    { loStep := c.step, loRank := me, loEpoch := c.epoch.setWidth 64, loDigest := dig, hiStep := c.step, hiRank := me
      hiEpoch := c.epoch.setWidth 64, hiDigest := dig, readyCount := 1, voters := 1, readyMap := [x.myRank.toNat] }
  else { voters := 1 }

/-- At V the contribution stands in the vote region, and is injected from there (R275). -/
def putVote (s : State) (x : CollState) : State :=
  let j := x.job
  match (s.job j).commit with
  | none => s
  | some c =>
    let ready := voteReady s j c
    let s := jobWrite s j (s.job j).vote.toNat (voteBytes (mapLen x.nranks) (voteOwn s j c ready))
    s.setJob j { s.job j with commit := some { c with voted := some ready } }

/-- A schedule that is missed: every slot of it on this module is late (R33, R359, R361). -/
def missColl (s : State) (d : DescId) (x : CollState) : State :=
  let s := s.setColl d { x with missed := true }
  let s := updGau s fun g => { g with slotsLate := sat32 (g.slotsLate + x.slots.length) }
  x.slots.foldl (fun s _ => raiseEv s evSlotLate srcGauge [] (some (s.job x.job).ctx) (jobField x.job)) s

/-- COLL_BASE_FIRE: at BASE the comparator starts the sequencer; where the count is not aligned the launch is missed. -/
def collBaseFire (d : DescId) (s : State) : State :=
  match s.coll? d with
  | none => s
  | some x =>
    let a := collLaunch s d x
    if fires s a && !x.fired && !x.missed then
      let s := disarm (checkAligned s) a
      if !alignedNow s then missColl s d x
      else
        let s := setAside (writeLateMap s x) d x
        let s := if isVote s d x then putVote s x else if x.op = opWatch then putWatch s x.job else s
        s.setColl d { x with fired := true, doneBase := scGet s (panelSc x.doneSc) }
    else s

def execCollBaseFire (d : DescId) (s : State) : Host.Outcome State Fault Refusal := .next (collBaseFire d s)

/-! ### Combines (R358) -/

/-- One signal on a panel counter. -/
def signalPanel (s : State) (v : BitVec 16) : State := scSet s (panelSc v) (scGet s (panelSc v) + 1)

/-- The sum of an element of a format: local plus received, to nearest even, with its exceptions. -/
def sumElem (f : Fmt) (a b : Nat) : Nat × Exc :=
  let r := fAdd f .rne (decodeElem f a) (decodeElem f b)
  (packVal f r.1, r.2)

/-- Sums two byte lists element by element; and what the sums count: each that overflows (R58, R60). -/
def sumBytes (f : Fmt) (a b : List Byte) : List Byte × Tallies :=
  let w := f.width / 8
  let l := (rangeFrom 0 (min a.length b.length / w)).map fun i =>
    sumElem f (ofLE ((a.drop (i * w)).take w)) (ofLE ((b.drop (i * w)).take w))
  (l.flatMap fun r => leBytes w r.1, { ovf := sat32 (l.filter fun r => r.2 &&& excOF != 0).length })

/-- Sums 64 bytes at a time, so that poison stays in its unit (R293); none where an access faults. -/
def sumUnits (c : Ctx) (f : Fmt) (acc stg : Nat) : Nat → Nat → State × Tallies → Option (State × Tallies)
  | 0, _, s => some s
  | k + 1, n, (s, t) =>
    let m := min n (64 - acc % 64)
    if n = 0 then some (s, t)
    else match vaRead s c acc m, vaRead s c stg m with
      | some (a, pa), some (b, pb) =>
        let r := sumBytes f a b
        (vaWrite s c acc r.1 (pa || pb)).bind fun s => sumUnits c f (acc + m) (stg + m) k (n - m) (s, addTallies t r.2)
      | _, _ => none

/-- Merges the watch blocks of a range. -/
def mergeWatch (a b : List Byte) : List Byte :=
  (rangeFrom 0 (min a.length b.length / 384)).flatMap fun i =>
    watchBytes (watchMerge (watchOfBytes ((a.drop (384 * i)).take 384)) (watchOfBytes ((b.drop (384 * i)).take 384)))

/-- Where the chip bench merges watch and vote blocks: at ACC_ADDR, or with ACC_ADDR 0 in the job's own region (log entry 65). -/
def mergeAt (s : State) (x : CollState) (e : CollEntry) : Nat :=
  if e.accAddr ≠ 0 then e.accAddr.toNat
  else if x.op = opWatch then watchAddr s x.job (watchStep s x.job) 0
  else (s.job x.job).vote.toNat

/-- The combine of one receive entry, with what it counts; none where a range cannot be accessed. A poisoned vote or watch block is not
merged. -/
def collCombine (s : State) (x : CollState) (e : CollEntry) : Option (State × Tallies) :=
  let c := (s.job x.job).ctx
  let acc := if x.op = opSum32 ∨ x.op = opSum64 then e.accAddr.toNat else mergeAt s x e
  let stg := x.staging.toNat + e.stgOff
  if x.op = opCopy then some (s, {})
  else if x.op = opSum32 then sumUnits c .fp32 acc stg (e.len / 64 + 2) (e.len / 4 * 4) (s, {})
  else if x.op = opSum64 then sumUnits c .fp64 acc stg (e.len / 64 + 2) (e.len / 8 * 8) (s, {})
  else match vaRead s c acc e.len, vaRead s c stg e.len with
    | some (a, false), some (b, false) =>
      let data := if x.op = opWatch then mergeWatch a b else voteBytes (e.len - 64) (voteMerge (voteOfBytes a) (voteOfBytes b))
      (vaWrite s c acc data).map fun s => (s, {})
    | _, _ => none

/-- The entries with entry i changed. -/
def CollState.setEntry (x : CollState) (i : Nat) (e : CollEntry) : CollState := { x with entries := x.entries.set i e }

/-- What a combine leaves beside its data: reads that a controller reset answered are counted, and an error in a page-table entry is
reported (R303, R307). -/
def noteCombine (s : State) (x : CollState) (e : CollEntry) : State :=
  let c := (s.job x.job).ctx
  let acc := if x.op = opSum32 ∨ x.op = opSum64 then e.accAddr.toNat else mergeAt s x e
  noteVaWrite (noteVaRead (noteVaRead s c (x.staging.toNat + e.stgOff) e.len) c acc e.len) c acc e.len

/-- A RECV entry's message is complete: with COPY that is all; else the receive is signalled on COMBINE_SC, the combine runs, and
its kernel signals on DONE_SC (R358; log entry 44, DESIGN CHOICE: the combine is done with the completion). An excluded entry's
data is never read (R362). -/
def collReceived (s : State) (d : DescId) (i : Nat) : State :=
  match s.coll? d with
  | none => s
  | some x =>
    match x.entries[i]? with
    | none => s
    | some e =>
      if e.excluded || e.complete then s
      else
        let s := s.setColl d (x.setEntry i { e with complete := true })
        if x.op = opCopy then s
        else
          let s := noteCombine (signalPanel s x.combineSc) x e
          match collCombine s x e with
          | none => signalPanel (updColl s d fun y => { y with fault := true }) x.doneSc
          | some (s, t) => signalPanel (tallyDesc s d t) x.doneSc

/-! ### SLOT_OPEN and SLOT_MARK (R358, R361) -/

/-- Every combine of the slots before k is done: complete or excluded, and but for COPY signalled on DONE_SC once for each (R358). -/
def combinesDone (s : State) (x : CollState) (k : Nat) : Bool :=
  let before := x.entries.filter fun e => e.recv && decide (e.slot < k)
  (before.all fun e => e.complete || e.excluded)
    && (x.op == opCopy || decide ((before.filter fun e => e.complete).length ≤ (scGet s (panelSc x.doneSc) - x.doneBase).toNat))

/-- The injection of one SEND entry: one COLL message (R358). An own rank's message is delivered locally; without a route no
message is made. -/
def collSend (d : DescId) (x : CollState) (s : State) (i : Nat) : State :=
  match x.entries[i]? with
  | none => s
  | some e =>
    let c := (s.job x.job).ctx
    match vaParts s c .read e.sendAddr.toNat e.len with
    | none => updColl (noteVaRead s c e.sendAddr.toNat e.len) d fun y => { y with fault := true }
    | some _ =>
      let data := (rangeFrom 0 (ceilDiv e.len 64)).map fun u =>
        (vaRead s c (e.sendAddr.toNat + 64 * u) (min 64 (e.len - 64 * u))).getD ([], false)
      let r := routeTo s x.job e.dst.toNat
      if routeStatus r ≠ stOk then s
      else
        let (s, m) := sendMessage s
          { owner := .coll d i, job := x.job, kind := kindColl, dst := e.dst.toNat, dstAddr := x.staging.toNat + e.stgOff
            data := data.flatMap Prod.fst, bad := (rangeFrom 0 data.length).filter fun u => (data.getD u ([], false)).2 } r
        updColl s d fun y => y.setEntry i { e with msg := some m }

/-- SLOT_OPEN: slots open in order, at the later of their open mark and the end of the combines before them, and only while
the count is aligned (R358, R512). -/
def slotOpen (d : DescId) (k : Nat) (s : State) : State :=
  match s.coll? d with
  | none => s
  | some x =>
    if x.fired && x.opened == k && decide (k < x.slots.length) && atMark s (x.openMark k) && alignedNow s && combinesDone s x k then
      let s := s.setColl d { x with opened := k + 1 }
      ((rangeFrom 0 x.entries.length).filter fun i => match x.entries[i]? with
        | some e => e.send && e.slot == k && e.len != 0
        | none => false).foldl (collSend d x) s
    else s

def execSlotOpen (d : DescId) (k : Nat) (s : State) : Host.Outcome State Fault Refusal := .next (slotOpen d k s)

/-- A SEND entry has been wholly injected. -/
def injected (s : State) (x : CollState) (e : CollEntry) : Bool :=
  match e.msg with
  | some m => (findSend s 0 x.job m).isNone && (findSend s 1 x.job m).isNone
  | none => e.len == 0

/-- SLOT_MARK: a module with sends of slot k not wholly injected at T_k is late for it; it goes on injecting (R361). -/
def slotMark (d : DescId) (k : Nat) (s : State) : State :=
  match s.coll? d with
  | none => s
  | some x =>
    if x.fired && x.marked == k && decide (k < x.slots.length) && atMark s (x.slotMarkAt k) then
      let late := (x.entries.any fun e => e.send && e.slot == k && !injected s x e) || (decide (x.opened ≤ k) && !alignedNow s)
      let s := s.setColl d { x with marked := k + 1 }
      if late then
        raiseEv (updGau s fun g => { g with slotsLate := sat32 (g.slotsLate + 1) }) evSlotLate srcGauge []
          (some (s.job x.job).ctx) (jobField x.job)
      else s
    else s

def execSlotMark (d : DescId) (k : Nat) (s : State) : Host.Outcome State Fault Refusal := .next (slotMark d k s)

/-! ### RECV_JUDGE (R362) -/

/-- A receive entry that has neither come nor been excluded. -/
def openEntry (e : CollEntry) : Bool := e.recv && !e.complete && !e.excluded

/-- Excludes entry i: it is combined as the identity, COMBINE_SC is signalled for it, and the barrier does not wait for it. -/
def excludeEntry (d : DescId) (s : State) (i : Nat) : State :=
  match s.coll? d with
  | none => s
  | some x =>
    match x.entries[i]? with
    | none => s
    | some e =>
      if openEntry e then
        let x' := { x.setEntry i { e with excluded := true, late := true } with late := setInsert x.late e.src.toNat }
        let s := writeLateMap (s.setColl d x') x'
        let s := updGau s fun g => { g with excluded := sat32 (g.excluded + 1), ranksLate := sat32 (g.ranksLate + bnat (!e.late)) }
        signalPanel s x.combineSc
      else s

/-- The first late entry of a schedule under WAIT moves its deadline, and what comes after its slot, by SHIFT; any further one is
excluded (R362). Which of several entries that fall due together is the first is what the order of their judging says (log
entry 45). -/
def takeShift (s : State) (d : DescId) (x : CollState) (i : Nat) (e : CollEntry) : State :=
  let x' := { x.setEntry i { e with late := true } with
    shifted := true, shiftEntry := i, shiftSlot := e.slot, late := setInsert x.late e.src.toNat }
  let s := writeLateMap (s.setColl d x') x'
  updGau s fun g => { g with shifts := sat32 (g.shifts + 1), ranksLate := sat32 (g.ranksLate + 1) }

/-- RECV_JUDGE: an entry whose message is not complete at its deadline is late. -/
def recvJudge (d : DescId) (i : Nat) (s : State) : State :=
  match s.coll? d with
  | none => s
  | some x =>
    match x.entries[i]? with
    | none => s
    | some e =>
      if x.fired && openEntry e && atMark s (x.deadline i e.slot) then
        if x.exclude || x.shifted then excludeEntry d s i else takeShift s d x i e
      else s

def execRecvJudge (d : DescId) (e : Nat) (s : State) : Host.Outcome State Fault Refusal := .next (recvJudge d e s)

/-! ### COLL_END (R363) -/

/-- Everything of a schedule is done before its end mark. -/
def collDone (s : State) (x : CollState) : Bool :=
  x.opened == x.slots.length && x.marked == x.slots.length
    && x.entries.all fun e => !openEntry e && (!e.send || injected s x e)

/-- A schedule's result is flagged when an entry was excluded, or its launch was missed. -/
def CollState.flagged (x : CollState) : Bool := x.missed || x.entries.any fun e => e.excluded

/-- The lowest late rank, or all ones. -/
def CollState.lowest (x : CollState) : Nat := x.late.headD 0xFFFFFFFF

/-- The first open entry of a schedule under WAIT whose deadline has passed, while no shift has been taken: it takes the shift before
the end mark is judged (R362, R363). -/
def firstLate (s : State) (x : CollState) : Option (Nat × CollEntry) :=
  if x.fired && !x.exclude && !x.shifted then
    (List.zip (rangeFrom 0 x.entries.length) x.entries).find? fun e => openEntry e.2 && atMark s (x.deadline e.1 e.2.slot)
  else none

/-- What COLL_END finds: under WAIT the first late entry moves the end. -/
def judgeFirst (d : DescId) (s : State) : State :=
  match s.coll? d with
  | none => s
  | some x => match firstLate s x with
    | some e => takeShift s d x e.1 e.2
    | none => s

/-- COLL_END: the COLL completes OK or FLAGGED; a watch or vote schedule leaves its block to the chip bench. -/
def collEnd (d : DescId) (s : State) : State :=
  let s := judgeFirst d s
  match s.coll? d with
  | none => s
  | some x0 =>
    if x0.missed || (x0.fired && (atMark s x0.endMark || collDone s x0)) then
      let s := if x0.fired then (rangeFrom 0 x0.entries.length).foldl (excludeEntry d) s else s
      let x := (s.coll? d).getD x0
      let vote := isVote s d x
      let y := s.job x.job
      let s := if x.op = opWatch then
          s.setJob x.job { y with jobWide := some (BitVec.ofNat 32 (watchStep s x.job), x.flagged || x.fault) }
        else s
      let s := match vote, y.commit with
        | true, some c =>
          let n := 64 + mapLen x.nranks
          let b := match vaRead s y.ctx y.vote.toNat n with
            | some (l, false) => if x.missed || x.fault then none else some (voteOfBytes l)
            | _ => none
          noteVaRead (s.setJob x.job { y with commit := some { c with block := b, voteFlagged := x.flagged } }) y.ctx y.vote.toNat n
        | _, _ => s
      let s := (freeColl s d).dropColl d
      if vote then s
      else
        let s := setResult s d 24 (x.late.length + 2 ^ 32 * x.lowest)
        concludeDesc (setResult s d 25 (bnat x.shifted)) d
          (if x.fault then stPartial else if x.flagged then stFlagged else stOk)
    else s

def execCollEnd (d : DescId) (s : State) : Host.Outcome State Fault Refusal := .next (collEnd d s)

end Sys2Proof.Machine
end

