-- ==== Sys2Proof/Machine/Commit.lean ====
section
/-!
DEFINITION. The dovetail commit (R273 to R283): COMMIT, the evaluation of the vote, the commit record, the discard and its
scrub.
-/

namespace Sys2Proof.Machine

open Sys2Proof

/-! ### COMMIT (R254, R273, R381) -/

/-- The COMMIT under way of a job. -/
def updCommit (s : State) (j : Job) (g : CommitState → CommitState) : State :=
  match (s.job j).commit with
  | some c => s.setJob j { s.job j with commit := some (g c) }
  | none => s

/-- A commit block whose reserved fields are not 0. -/
def commitFormBad (w : List Nat) : Bool := fld (nth w 0) 40 24 != 0 || nth w 5 != 0 || nth w 6 != 0 || nth w 7 != 0

/-- The vote schedule of a COMMIT: its header names OP VOTE, the COMMIT's job and V as its BASE. -/
def voteSched (s : State) (c : Ctx) (j : Job) (w : List Nat) : CollRead :=
  if nth w 3 % 64 ≠ 0 then .bad
  else match vaRead s c (nth w 3) 64 with
    | some (l, false) =>
      match readColl s c (wordsOf 8 l) with
      | .ok y => if y.op = opVote ∧ y.job = j ∧ y.base.toNat = nth w 1 then .ok y else .bad
      | r => r
    | _ => .fault

/-- What reading a vote schedule leaves beside its words (R303, R307). -/
def noteSched (s : State) (c : Ctx) (w : List Nat) : State :=
  let s' := noteVaRead s c (nth w 3) 64
  match vaRead s c (nth w 3) 64 with
  | some (l, false) => noteColl s' c (wordsOf 8 l)
  | _ => s'

/-- COMMIT: the vote and the commit of a step are accepted (R254, R273, R515). -/
def commitStart (d : DescId) (x : DescState) (w : List Nat) (s : State) : State :=
  match rankJobOf s x.ctx (fld (nth w 0) 32 8) with
  | none => endDesc s d stBadDescriptor
  | some j =>
    if commitFormBad w || (s.job j).commit.isSome then endDesc s d stBadDescriptor
    else if jobEpoch s j = 0xFFFFFFFE then endDesc s d stEpochLimit
    else
    let y := voteSched s x.ctx j w
    let s := noteSched s x.ctx w
    match y with
    | .bad => endDesc s d stBadDescriptor
    | .fault => endDesc s d stArgsFault
    | .ok y =>
      if nth w 2 < nth w 1 + y.bound + 1719 then endDesc s d stBadDescriptor
      else
        let c : CommitState :=
          { desc := d, step := BitVec.ofNat 32 (descStep x), epoch := BitVec.ofNat 32 (nth w 0)
            voteMark := BitVec.ofNat 64 (nth w 1), commitMark := BitVec.ofNat 64 (nth w 2), sched := BitVec.ofNat 64 (nth w 3)
            counts := (rangeFrom 0 4).map fun p => fld (nth w 4) (16 * p) 16
            checkOk := stepOk s j (descStep x) && jobEpoch s j == fld (nth w 0) 0 32, action := .undecided, voted := none
            block := none, voteFlagged := false, reasons := 0 }
        ((s.setDesc d { x with phase := .running }).setColl d y).setJob j { s.job j with commit := some c }

def execCommit (d : DescId) (s : State) : Host.Outcome State Fault Refusal :=
  .next (startDesc s d opCommit (withArgs d 8 (commitStart d)))

/-! ### VOTE_EVALUATE (R276, R280) -/

/-- AGREE (R276). -/
def voteAgrees (n : Nat) (c : CommitState) (b : VoteBlock) : Bool :=
  !c.voteFlagged && b.voters.toNat == n && b.readyCount.toNat == n && b.lo == b.hi

/-- The reasons of R280. -/
def voteReasons (n : Nat) (c : CommitState) (b : VoteBlock) : BitVec 8 :=
  BitVec.ofNat 8 (bnat (decide (b.readyCount.toNat < n)) + 2 * bnat (b.lo != b.hi) + 4 * bnat c.voteFlagged
    + 8 * bnat (c.voted != some true))

/-- Ladder tables that differ between modules show in the digests (R188). -/
def digestsDiffer (b : VoteBlock) : Bool := b.loStep == b.hiStep && b.loEpoch == b.hiEpoch && b.loDigest != b.hiDigest

/-- Arms a launch on panel 0 and marks its descriptor as armed (R392). -/
def armChip (s : State) (a : LaunchId) (m : Nat) (d : DescId) : State :=
  let (s, ok) := armOn s 0 a m
  if ok then updDesc s d fun x => { x with armed := true } else s

/-- VOTE_EVALUATE: with the complete block, the commit comparator is armed with the record write or with a discard. -/
def voteEvaluate (j : Job) (s : State) : State :=
  let x := s.job j
  match x.commit with
  | none => s
  | some c =>
    match c.block, c.action with
    | some b, .undecided =>
      let act : CommitAction := if voteAgrees x.nranks c b then .write else .discard
      let s := updCommit s j fun c => { c with action := act, reasons := voteReasons x.nranks c b }
      let s := if digestsDiffer b then raiseEv s evLadderDigest (srcBench 0) [] (some x.ctx) (jobField j) else s
      armChip s (.commit j) c.commitMark.toNat c.desc
    | _, _ => s

def execVoteEvaluate (j : Job) (s : State) : Host.Outcome State Fault Refusal := .next (voteEvaluate j s)

/-- COMMIT_UNRESOLVED: no complete vote block at C − 1,719 (R282). -/
def commitUnresolved (j : Job) (s : State) : State :=
  let x := s.job j
  match x.commit with
  | none => s
  | some c =>
    if c.action = .undecided ∧ c.block = none ∧ atMark s (c.commitMark.toNat - 1719) then
      let s := updCommit s j fun c => { c with
        action := .discard, reasons := BitVec.ofNat 8 (4 * bnat c.voteFlagged + 8 * bnat (c.voted != some true) + 16) }
      let s := raiseEv s evCommitUnresolved (srcBench 0) [] (some x.ctx) (jobField j)
      armChip s (.commit j) c.commitMark.toNat c.desc
    else s

def execCommitUnresolved (j : Job) (s : State) : Host.Outcome State Fault Refusal := .next (commitUnresolved j s)

/-! ### The commit record (R277, R278) -/

/-- The seven words of a record before its CHECK. -/
def recordWords (epoch mark step nranks digest job copy prev : Nat) : List Nat :=
  [epoch, mark, step % 2 ^ 32 + 2 ^ 32 * nranks, digest, job + 2 ^ 8 * copy, prev, 0]

/-- The 64 bytes of a commit record. -/
def commitBytes (w : List Nat) : List Byte := wordBytes (w ++ [digest64 (wordBytes w)])

/-- What a commit puts into words 24 to 26 of its report block (R387). -/
def commitResults (c : CommitState) : List Nat :=
  let b := c.block.getD ({} : VoteBlock)
  [c.reasons.toNat + 2 ^ 32 * b.readyCount.toNat, b.voters.toNat + 2 ^ 32 * b.loRank.toNat, b.hiRank.toNat]

/-- Sets the results and ends the COMMIT. -/
def concludeCommit (s : State) (c : CommitState) (status : BitVec 16) : State :=
  let r := commitResults c
  concludeDesc (setResult (setResult (setResult s c.desc 24 (nth r 0)) c.desc 25 (nth r 1)) c.desc 26 (nth r 2)) c.desc status

/-- The attempt is over: what counted for it begins anew. -/
def endAttempt (x : JobState) : JobState := { x with commit := none, updStep := 0, updOk := [], updBad := [], written := [] }

/-- COMMIT_RECORD_WRITE: at C an AGREE comparator writes the record; the epoch, the slots tagged with it and the ladder copy
become live with it (R186, R277). -/
def commitRecordWrite (j : Job) (s : State) : State :=
  let x := s.job j
  match x.commit with
  | none => s
  | some c =>
    if fires s (.commit j) ∧ c.action = .write then
      let s := disarm s (.commit j)
      let copy := match x.shadow with
        | some h => bnat h.copy
        | none => ladderCopy s j
      let w := recordWords ((jobEpoch s j + 1) % 2 ^ 32) c.commitMark.toNat c.step.toNat x.nranks
        ((c.block.map fun b => b.loDigest.toNat).getD 0) j.val copy (commitWord s j 1)
      let s := jobWrite (flipWrite s j c.step.toNat) j x.update.toNat (commitBytes w)
      let s := s.setJob j { endAttempt (ladderFlip (s.job j) c.step.toNat) with tagLog := [] }
      concludeCommit (copyStats s j c.step.toNat) c stCommitted
    else s

def execCommitRecordWrite (j : Job) (s : State) : Host.Outcome State Fault Refusal := .next (commitRecordWrite j s)

/-! ### The discard (R279, R280) -/

/-- A refused attempt leaves nothing of its step: the shadow table, the blocks, the journal records, the root steps due. -/
def discardStep (x : JobState) (step : W32) : JobState :=
  { ladderDiscard (endAttempt x) with
    staged := x.staged.filter fun r => r.step ≠ step
    rootDue := x.rootDue.filter fun r => r.computing || r.step != step
    scrub := true }

/-- The COMMIT is refused: event, record, scrub. -/
def refuseCommit (s : State) (j : Job) (c : CommitState) : State :=
  let s := s.setJob j (discardStep (s.job j) c.step)
  let s := raiseEv s evCommitRefused (srcBench 0) (commitResults c) (some (s.job j).ctx) (jobField j)
  concludeCommit s c stRefused

/-- COMMIT_DISCARD: a discard comparator writes nothing at C. -/
def commitDiscard (j : Job) (s : State) : State :=
  match (s.job j).commit with
  | none => s
  | some c => if fires s (.commit j) ∧ c.action = .discard then refuseCommit (disarm s (.commit j)) j c else s

def execCommitDiscard (j : Job) (s : State) : Host.Outcome State Fault Refusal := .next (commitDiscard j s)

/-- Every tag in a panel's log is set to VOID. -/
def voidLog (s : State) (j : Job) (p : Nat) : State :=
  (rangeFrom 0 (tabGet 0 (s.job j).tagLog p)).foldl (fun s i =>
    jobWrite s j (jobNat s j (tagLogAddr s j p i) 8 % 2 ^ 44) (leBytes 4 tagVoid)) s

/-- SCRUB_END: the tags of the refused attempt are VOID and the logs empty; update descriptors go on. -/
def scrubEnd (j : Job) (s : State) : State :=
  if (s.job j).scrub then
    let s := (rangeFrom 0 4).foldl (fun s p => voidLog s j p) s
    restartQueues (s.setJob j { s.job j with scrub := false, tagLog := [] }) (s.job j).ctx
  else s

def execScrubEnd (j : Job) (s : State) : Host.Outcome State Fault Refusal := .next (scrubEnd j s)

end Sys2Proof.Machine
end

