-- ==== Sys2Proof/Machine/Epochs.lean ====
section
/-!
DEFINITION. Route epochs (R340 to R343, R347, R360): ROUTE_EPOCH, staging, the switch, the drain mark, and a missed change.
-/

namespace Sys2Proof.Machine

open Sys2Proof

/-- The route-epoch block's reserved fields. -/
def routeFormBad (w : List Nat) : Bool :=
  fld (nth w 0) 16 16 != 0 || decide (65536 < fld (nth w 0) 32 32) || fld (nth w 2) 32 32 != 0
  || nth w 5 != 0 || nth w 6 != 0 || nth w 7 != 0

/-- A change mark inside the window of an accepted COLL of the same job (R360). -/
def markInColl (s : State) (j : Job) (m : Nat) : Bool :=
  (s.job j).windows.any fun w => decide (w.1 ≤ m ∧ m ≤ w.2)

/-- The rules of R342 that do not need the tables. -/
def routeMarkBad (x : JobState) (epoch mark : Nat) : Bool :=
  x.change.isSome || decide (epoch ≠ (x.live.toNat + 1) % 4)
  || match x.drainMark with
    | some m => decide (mark < m.toNat)
    | none => false

/-- ROUTE_EPOCH: a change is accepted; its tables go to the staging bank, and its mark waits to be armed (R342). -/
def routeEpoch (d : DescId) (x : DescState) (w : List Nat) (s : State) : State :=
  match jobOf s x.ctx (fld (nth w 0) 0 8) with
  | none => endDesc s d stBadDescriptor
  | some j =>
    let n := fld (nth w 0) 32 32
    if routeFormBad w || routeMarkBad (s.job j) (fld (nth w 0) 8 8) (nth w 1) || markInColl s j (nth w 1) then
      endDesc s d stBadDescriptor
    else
    let tables := (readRankTable s x.ctx (nth w 3) n, readRingTable s x.ctx (nth w 4))
    let s := noteRouteTables s x.ctx (nth w 3) n (nth w 4)
    match tables with
    | (some t, some len) =>
      if !(t.all (routeOk len)) || !ringTableOk len then endDesc s d stBadDescriptor
      else if !routeFits s j n then endDesc s d stNoRouteSpace
      else
        let c : RouteChange :=
          { desc := d, epoch := BitVec.ofNat 2 (fld (nth w 0) 8 8), mark := BitVec.ofNat 64 (nth w 1), bmax := nth w 2
            table := t, ringLen := len, staged := false, switched := false }
        (s.setDesc d { x with phase := .running }).setJob j { s.job j with change := some c }
    | _ => endDesc s d stArgsFault

def execRouteEpoch (d : DescId) (s : State) : Host.Outcome State Fault Refusal :=
  .next (startDesc s d opRoute (withArgs d 8 (routeEpoch d)))

/-- TABLE_STAGED: the new epoch's tables stand in the staging bank; its packets are accepted from now on (R343). -/
def tableStaged (j : Job) (s : State) : State :=
  match (s.job j).change with
  | some c =>
    if c.switched then s
    else s.setJob j { s.job j with
      change := some { c with staged := true }, ringLen := tabPut (s.job j).ringLen c.epoch.toNat c.ringLen }
  | none => s

def execTableStaged (j : Job) (s : State) : Host.Outcome State Fault Refusal := .next (tableStaged j s)

/-- The module does not switch: fatal event, status EPOCH_MISSED; the live epoch stays (R342). -/
def missEpoch (s : State) (j : Job) (c : RouteChange) : State :=
  let s := s.setJob j { s.job j with change := none }
  concludeDesc (raiseEv s evEpochMissed (srcBench 0) [] (some (s.job j).ctx) (jobField j)) c.desc stEpochMissed

/-- EPOCH_MISSED: at MARK − 1,563 the change is not staged or not armed. -/
def epochMissed (j : Job) (s : State) : State :=
  match (s.job j).change with
  | some c =>
    if !c.switched && (findArmed s (.routeEpoch j)).isNone && decide (c.mark.toNat < s.gau.count.toNat + 1563) then missEpoch s j c
    else s
  | none => s

def execEpochMissed (j : Job) (s : State) : Host.Outcome State Fault Refusal := .next (epochMissed j s)

/-- At a change mark, the rings of every link in RUN are whole again (R347). -/
def mendRings (s : State) : State :=
  (s.lnk.links.filter fun e => e.2.phase == .run).foldl (fun s e =>
    let l : Link := ⟨e.1 % 32, Nat.mod_lt _ (by decide)⟩
    let s := updRing s (arrivingRing l) fun x => { x with brokenIn := false }
    updRing s (leavingRing l) fun x => { x with brokenOut := false }) s

/-- A packet that waits for injection takes the route of the live bank, and waits at that route's first exit (R343). -/
def reroute (j : Job) (s : State) (q : Exit × Cand) : State :=
  let h := q.2.packet.hdr
  let r := routeTo s j h.dstRank.toNat
  match r with
  | .none_ => failInjection s (exitDie q.1) h stNoRoute
  | _ =>
    let (w0, w1) := match r with
      | .by_ x => x
      | _ => (0, 0)
    addCand s (routeExit r) { q.2 with packet := rewrite q.2.packet fun h => { h with
      epoch := (s.job j).live, nseg := BitVec.ofNat 3 ((routeSegs (w0, w1)).length - 1)
      hopsLeft := BitVec.ofNat 8 (segHops (segment w0.toNat w1.toNat 0)), route0 := w0, route1 := w1 } }

/-- The exits of the module. -/
def allExits : List Exit := ((List.finRange 32).map Exit.ring) ++ [.delivery 0, .delivery 1]

/-- What a job has waiting for injection goes out by the live bank: injection uses no other (R343). -/
def requeue (s : State) (j : Job) : State :=
  let mine := fun (c : Cand) => c.ring.isNone && decide (hdrJob c.packet.hdr = j)
  let held := allExits.flatMap fun e => ((exitCands s e).filter mine).map fun c => (e, c)
  let s := allExits.foldl (fun s e =>
    if (exitCands s e).any mine then setExitCands s e ((exitCands s e).filter fun c => !mine c) else s) s
  held.foldl (reroute j) s

/-- ROUTE_EPOCH_SWITCH: at MARK the staged epoch is live and its bank with it; the previous one is accepted until the drain
mark (R342, R343). It fires on the module's own count, aligned or not (R512). -/
def routeSwitch (j : Job) (s : State) : State :=
  match (s.job j).change with
  | some c =>
    if fires s (.routeEpoch j) ∧ c.switched = false then
      let s := disarm s (.routeEpoch j)
      let x := s.job j
      requeue (mendRings (s.setJob j { x with
        prev := x.live, live := c.epoch, drainMark := some (c.mark + BitVec.ofNat 64 c.bmax), bmax := c.bmax, table := c.table
        change := some { c with switched := true } })) j
    else s
  | none => s

/-- EPOCH_DRAIN: from MARK + BMAX on the previous epoch is not accepted, and the ROUTE_EPOCH completes. -/
def epochDrain (j : Job) (s : State) : State :=
  match (s.job j).change with
  | some c =>
    if c.switched && decide (c.mark.toNat + c.bmax ≤ s.gau.count.toNat) then
      concludeDesc (s.setJob j { s.job j with change := none }) c.desc stOk
    else s
  | none => s

def execEpochDrain (j : Job) (s : State) : Host.Outcome State Fault Refusal := .next (epochDrain j s)

end Sys2Proof.Machine
end

