-- ==== Sys2Proof/Machine/Secure.lean ====
section
/-!
DEFINITION. Securing state (R397 to R415, R422): the plan, the images of units, the streams of a point and their messages, the
keep area.

Places in a target's region travel in DST_ADDR, as the spec gives no form for them (log entry 47, DESIGN CHOICE): bits [63:62]
are 0b11, [61] says that a stream is being sent back, [60] is the stream, [59:56] the area (0 base X, 1 chain X, 2 base Y,
3 chain Y, 4 and 5 the quick slots, 6 a request, 7 a closing message), and [43:0] the offset in the area. A point does not know
which slot of its target is current: there 0 is the base slot that is not, 1 the chain behind it, 3 the chain of the current slot,
and the target finds them by its own records (R414).
-/

namespace Sys2Proof.Machine

open Sys2Proof

/-! ### Places (R412) -/

/-- DST_ADDR of a place in a region. -/
def secureAddr (back : Bool) (stream area off : Nat) : Nat :=
  2 ^ 63 + 2 ^ 62 + bnat back * 2 ^ 61 + stream % 2 * 2 ^ 60 + area % 16 * 2 ^ 56 + off % 2 ^ 44

def isSecureAddr (a : Nat) : Bool := fld a 62 2 == 3
def addrBack (a : Nat) : Bool := bit a 61
def addrStream (a : Nat) : Nat := fld a 60 1
def addrArea (a : Nat) : Nat := fld a 56 4
def addrOff (a : Nat) : Nat := fld a 0 44

def up64k (n : Nat) : Nat := roundUp n 65536

/-- Bytes of an area of an incoming region, and where it begins. -/
def areaBytes (e : Incoming) (a : Nat) : Nat :=
  if a = 0 ∨ a = 2 then e.baseBytes else if a = 1 ∨ a = 3 then e.chainBytes else if a = 4 ∨ a = 5 then e.quickBytes else 0
def areaStart (e : Incoming) (a : Nat) : Nat := (rangeFrom 0 a).foldl (fun n k => n + up64k (areaBytes e k)) e.offset
def regionBytes (e : Incoming) : Nat := areaStart e 6 - e.offset

/-- Bytes of the secure reserve per panel (R299). -/
def reservePanel (s : State) : Nat := s.mem.secres * 2 ^ 30

/-- The physical address of a byte of the module's secure reserve: the panels' reserves one after the other (log entry 48,
DESIGN CHOICE). -/
def reservePa (s : State) (o : Nat) : Nat :=
  o / reservePanel s * panelSpan + reserveOff - reservePanel s + o % reservePanel s

/-- An offset lies in the secure reserve. -/
def inReserve (s : State) (o n : Nat) : Bool := decide (o + n ≤ 4 * reservePanel s)

/-- n bytes of the reserve, 64 at a time, with their poison. -/
def reserveRead (s : State) (o n : Nat) : List MarkedByte :=
  (rangeFrom 0 (ceilDiv n 64)).flatMap fun u =>
    let (l, bad) := gddrRead s (reservePa s (o + 64 * u)) (min 64 (n - 64 * u))
    l.map fun b => (b, bad)

/-- The incoming region of a source's stream (R401). -/
def incomingOf (s : State) (j : Job) (src : BitVec 16) (stream : Nat) : Option Incoming :=
  ((s.job j).plan.map fun p => p.incoming).bind fun l => l.find? fun e => e.src == src && e.stream == stream

/-! ### Marked memory -/

/-- n bytes of a context's memory, 64 at a time, with their poison; what cannot be read counts as poisoned. -/
def vaMarked (s : State) (c : Ctx) (va n : Nat) : List MarkedByte :=
  (rangeFrom 0 (ceilDiv n 64)).flatMap fun u =>
    let m := min 64 (n - 64 * u)
    match vaRead s c (va + 64 * u) m with
    | some (l, bad) => l.map fun b => (b, bad)
    | none => List.replicate m (0, true)

def clean (l : List Byte) : List MarkedByte := l.map fun b => (b, false)

/-- Writes marked bytes to a context's memory, 64 at a time. -/
def vaPut (s : State) (c : Ctx) (va : Nat) (l : List MarkedByte) : State :=
  (rangeFrom 0 (ceilDiv l.length 64)).foldl (fun s u =>
    let m := (l.drop (64 * u)).take 64
    ctxWrite s c (va + 64 * u) (m.map Prod.fst) (m.any Prod.snd)) s

/-- A bank that holds marked bytes from address 0 on. -/
def bankOf (l : List MarkedByte) : Bank :=
  (rangeFrom 0 (ceilDiv l.length 64)).foldl (fun b u =>
    let m := (l.drop (64 * u)).take 64
    bankWrite b (64 * u) (m.map Prod.fst) (m.any Prod.snd)) {}

/-- Marked bytes of a bank. -/
def bankMarked (b : Bank) (a n : Nat) : List MarkedByte :=
  (rangeFrom 0 (ceilDiv n 64)).flatMap fun u =>
    let m := min 64 (n - 64 * u)
    (readBytes b (a + 64 * u) m).map fun x => (x, poisoned b (a + 64 * u) m)

/-! ### Units and their images (R397) -/

/-- The live slot's index of a dense unit: A where no slot is valid. -/
def denseLive (s : State) (j : Job) (r : List Nat) : Nat := (liveSlot (jobEpoch s j) (recTag r 0) (recTag r 1)).getD 0

/-- The roots in force of a plane-rule layer at a step: those of its last successful run whose ROOT_N steps have passed (R270). -/
def rootsInForce (x : JobState) (idx step : Nat) : Option RootRun :=
  x.roots.find? fun r => r.layer == idx && r.ok && decide (r.step.toNat + r.n ≤ step)

/-- Bytes of a dense unit's live slot beyond its elements, and of its roots. -/
def unitStat (s : State) (j : Job) (u : SecUnit) : Nat := match recordIndex s j u.slots.toNat with
  | some i => tabGet 0 (s.job j).shapes i
  | none => 0
def unitRoots (s : State) (j : Job) (u : SecUnit) : Option RootRun :=
  (recordIndex s j u.slots.toNat).bind fun i => rootsInForce (s.job j) i (jobStep s j)

/-- Row i of a sparse unit: the address of row slot A or B. -/
def unitRow (u : SecUnit) (i side : Nat) : Nat := u.slots.toNat + i * rowBytes u.width + side * (8 * u.width + 64)

/-- The live side of a row. -/
def rowLive (s : State) (j : Job) (u : SecUnit) (i : Nat) : Nat :=
  let c := (s.job j).ctx
  (liveSlot (jobEpoch s j) (vaN s c (unitRow u i 0) 4) (vaN s c (unitRow u i 1) 4)).getD 0

/-- Bytes of a unit's image (R397, R403): the live slot with the roots in force, without the record that goes with it. -/
def unitBytes (s : State) (j : Job) (u : SecUnit) : Nat :=
  match u.kind with
  | 0 => 8 * recElems (slotWords s (s.job j).ctx u.slots.toNat) + unitStat s j u
      + (if (unitRoots s j u).isSome then unitStat s j u else 0)
  | 1 => u.rows * (8 * u.width + 64)
  | _ => 64 * jobLayers s j

/-- The image of a unit: for a slot record, the record, the live slot and the roots in force. -/
def unitImage (s : State) (j : Job) (u : SecUnit) : List MarkedByte :=
  let c := (s.job j).ctx
  match u.kind with
  | 0 =>
    let r := slotWords s c u.slots.toNat
    let st := unitStat s j u
    let roots := match unitRoots s j u with
      | some y => vaMarked s c (rootSetAddr (recRoot r) st y.set) st
      | none => []
    vaMarked s c u.slots.toNat 64 ++ vaMarked s c (recAddr r (denseLive s j r)) (8 * recElems r + st) ++ roots
  | 1 => (rangeFrom 0 u.rows).flatMap fun i => vaMarked s c (unitRow u i (rowLive s j u i)) (8 * u.width + 64)
  | _ => vaMarked s c (ladderAddr s j (ladderCopy s j) (jobLayers s j) 0) (64 * jobLayers s j)

/-- The header before an image (log entry 47): unit, live side, bytes that follow, bytes of statistics, bytes of roots; how many
images stand together, and their bytes with headers. -/
def imageHeader (s : State) (j : Job) (i : Nat) (u : SecUnit) (n count total : Nat) : List Byte :=
  let live := if u.kind = 0 then denseLive s j (slotWords s (s.job j).ctx u.slots.toNat) else 0
  let roots := if u.kind = 0 ∧ (unitRoots s j u).isSome then unitStat s j u else 0
  wordBytes [i, live, n, if u.kind = 0 then unitStat s j u else 0, roots, count, total, 0]

/-- Images of some of a plan's units, each with its header. -/
def images (s : State) (j : Job) (p : Plan) (t : SecUnit → Bool) : List MarkedByte :=
  let l := ((List.zip (rangeFrom 0 p.units.length) p.units).filter fun e => t e.2).map fun e => (e, unitImage s j e.2)
  let total := (l.map fun x => 64 + x.2.length).sum
  l.flatMap fun x => clean (imageHeader s j x.1.1 x.1.2 x.2.length l.length total) ++ x.2

/-- Where the images of some units stand in the job's memory: address and bytes. -/
def imageRanges (s : State) (j : Job) (p : Plan) (t : SecUnit → Bool) : List (Nat × Nat) :=
  let c := (s.job j).ctx
  (p.units.filter t).flatMap fun u => match u.kind with
    | 0 =>
      let r := slotWords s c u.slots.toNat
      let st := unitStat s j u
      (u.slots.toNat, 64) :: (recAddr r (denseLive s j r), 8 * recElems r + st) :: (match unitRoots s j u with
        | some y => [(rootSetAddr (recRoot r) st y.set, st)]
        | none => [])
    | 1 => (rangeFrom 0 u.rows).map fun i => (unitRow u i (rowLive s j u i), 8 * u.width + 64)
    | _ => [(ladderAddr s j (ladderCopy s j) (jobLayers s j) 0, 64 * jobLayers s j)]

/-- What reading ranges of a job's memory leaves beside their bytes (R303, R307). -/
def noteRanges (s : State) (j : Job) (l : List (Nat × Nat)) : State :=
  l.foldl (fun s r => noteVaRead s (s.job j).ctx r.1 r.2) s

/-- Bytes of images with headers and records. -/
def imagesBytes (s : State) (j : Job) (p : Plan) (t : SecUnit → Bool) : Nat :=
  (p.units.filter t).foldl (fun n u => n + 64 + bnat (u.kind == 0) * 64 + unitBytes s j u) 0

/-! ### Journal records of a point (R404, R408) -/

/-- The staged records of a stream's units for steps lo to hi, step by step. -/
def journalOf (x : JobState) (p : Plan) (st lo hi : Nat) : List Staged :=
  (rangeFrom lo (hi + 1 - lo)).flatMap fun k =>
    (x.staged.filter fun r => r.step.toNat == k && match p.units[r.unit]? with
      | some u => u.stream == st
      | none => false)

/-- Where journal records stand in the staging area. -/
def journalRanges (p : Plan) (l : List Staged) : List (Nat × Nat) := l.map fun r => (stageSlot p r.step.toNat + r.off, r.bytes)

def journalBytes (l : List Staged) : Nat := l.foldl (fun n r => n + roundUp r.bytes 64) 0

/-- The bytes of journal records, each from a 64-byte boundary on. -/
def journalData (s : State) (j : Job) (p : Plan) (l : List Staged) : List MarkedByte :=
  l.flatMap fun r =>
    vaMarked s (s.job j).ctx (stageSlot p r.step.toNat + r.off) r.bytes
      ++ List.replicate (roundUp r.bytes 64 - r.bytes) ((0 : Byte), false)

/-! ### SNAPSHOT_PLAN (R400 to R403) -/

/-- A unit entry. -/
def unitOf (w : List Nat) : SecUnit :=
  let v := nth w 0
  { kind := fld v 0 8, force := fld v 8 8, stream := fld v 16 8, layer := fld v 32 16, width := fld v 48 16
    slots := BitVec.ofNat 64 (nth w 1), rows := nth w 2, journal := fld v 8 8 == 2 && fld v 0 8 != 2, bytes := 0 }

def unitBad (s : State) (j : Job) (w : List Nat) : Bool :=
  let u := unitOf w
  decide (2 < u.kind ∨ 2 < u.force) || !(u.stream == 0 || u.stream == 1 || u.stream == 0xFF) || fld (nth w 0) 24 8 != 0
  || nth w 3 != 0 || (u.kind == 0 && (recordIndex s j u.slots.toNat).isNone)
  || (u.kind == 1 && (u.width % 32 != 0 || decide (u.width < 32 ∨ 4096 < u.width)))

def incomingEntry (w : List Nat) : Incoming :=
  { src := BitVec.ofNat 16 (fld (nth w 0) 0 16), stream := fld (nth w 0) 16 8, offset := nth w 1, baseBytes := nth w 2
    chainBytes := nth w 3, quickBytes := nth w 4 }

def incomingBad (w : List Nat) : Bool :=
  fld (nth w 0) 24 40 != 0 || decide (1 < fld (nth w 0) 16 8) || nth w 1 % 65536 != 0 || nth w 5 != 0 || nth w 6 != 0 || nth w 7 != 0

/-- Two regions share a byte. -/
def regionsMeet (a b : Incoming) : Bool :=
  decide (a.offset < b.offset + regionBytes b ∧ b.offset < a.offset + regionBytes a)

/-- No region of a list meets a later one. -/
def regionsApart : List Incoming → Bool
  | [] => true
  | a :: t => !(t.any (regionsMeet a)) && regionsApart t

/-- The incoming regions of the other jobs' plans. -/
def otherRegions (s : State) (j : Job) : List Incoming :=
  ([0, 1, 2, 3, 4, 5, 6, 7] : List Job).flatMap fun k => if k = j ∨ (s.job k).resident = false then [] else match (s.job k).plan with
    | some p => p.incoming
    | none => []

/-- A stream's routes: valid, each on a link of its own that leaves the stream's link die (R398). -/
def routesBad (len : List Nat) (stream : Nat) (l : List (W64 × W64)) : Bool :=
  let links := l.map fun r => segRing (segment r.1.toNat r.2.toNat 0)
  l.any (fun r => segHops (segment r.1.toNat r.2.toNat 0) == 0 || !routeOk len r)
  || links.any (fun r => (ringDie r).val != stream) || decide (links.eraseDups.length ≠ links.length)

/-- Units in descending image size, with ties to the lower index. -/
def insertUnit (e : Nat × SecUnit) : List (Nat × SecUnit) → List (Nat × SecUnit)
  | [] => [e]
  | x :: t => if x.2.bytes < e.2.bytes then e :: x :: t else x :: insertUnit e t

/-- The assignment of R403: each unit with STREAM 0xFF goes to the stream that has fewer bytes so far. -/
def assignUnits (us : List SecUnit) : List SecUnit :=
  let sum := fun (l : List SecUnit) k => (l.filter fun u => u.stream == k).foldl (fun n u => n + u.bytes) 0
  let order := ((List.zip (rangeFrom 0 us.length) us).filter fun e => e.2.stream == 0xFF).foldl (fun l e => insertUnit e l) []
  order.foldl (fun l e => l.set e.1 { e.2 with stream := if sum l 1 < sum l 0 then 1 else 0 }) us

/-- Reads a plan's tables; none where one cannot be read. -/
def readTable (s : State) (c : Ctx) (va n words : Nat) : Option (List (List Nat)) :=
  if n = 0 then some []
  else match vaRead s c va (n * 8 * words) with
    | some (l, false) => some ((rangeFrom 0 n).map fun i => wordsOf words (l.drop (8 * words * i)))
    | _ => none

def planFieldsBad (w : List Nat) : Bool :=
  decide (nth w 0 % 2 ^ 32 < 1 ∨ 4096 < nth w 0 % 2 ^ 32 ∨ 2 < fld (nth w 0) 32 8 ∨ fld (nth w 0) 48 16 < 1 ∨ 256 < fld (nth w 0) 48 16)
  || fld (nth w 0) 40 8 != 0 || !above64 (nth w 3) 0 || fld (nth w 5) 48 16 != 0
  || decide (fld (nth w 5) 32 8 < 1 ∨ 8 < fld (nth w 5) 32 8 ∨ fld (nth w 5) 40 8 < 1 ∨ 8 < fld (nth w 5) 40 8)
  || ((rangeFrom 11 5).any fun i => nth w i != 0)

/-- The plan that a block and its tables give. -/
def planOf (s : State) (j : Job) (step : Nat) (w : List Nat) (routes units incoming : List (List Nat)) : Plan :=
  let r := routes.map fun x => (BitVec.ofNat 64 (nth x 0), BitVec.ofNat 64 (nth x 1))
  let us := units.map fun x => let u := unitOf x; { u with bytes := unitBytes s j u }
  { step := BitVec.ofNat 32 step, depth := fld (nth w 0) 48 16, stageAddr := BitVec.ofNat 64 (nth w 1)
    stageBytes := BitVec.ofNat 64 (nth w 2), jratio := BitVec.ofNat 64 (nth w 3), splitBytes := BitVec.ofNat 64 (nth w 4)
    targets := [BitVec.ofNat 16 (fld (nth w 5) 0 16), BitVec.ofNat 16 (fld (nth w 5) 16 16)]
    routes := [r.take (fld (nth w 5) 32 8), (r.drop 8).take (fld (nth w 5) 40 8)], units := assignUnits us
    incoming := incoming.map incomingEntry, keepAddr := BitVec.ofNat 64 (nth w 9), keepBytes := BitVec.ofNat 64 (nth w 10)
    seq := 0, streams := [{}, {}], keepHalf := true, keepSteps := [] }

/-- The plan block and its tables are read (R303, R307). -/
def notePlan (s : State) (c : Ctx) (va : Nat) : State :=
  let s' := noteVaRead s c va 128
  match vaRead s c va 128 with
  | some (l, false) =>
    let w := wordsOf 16 l
    [(nth w 6, 256), (nth w 7, 32 * fld (nth w 0) 0 32), (nth w 8, 64 * fld (nth w 0) 32 8)].foldl
      (fun s r => if r.2 = 0 then s else noteVaRead s c r.1 r.2) s'
  | _ => s'

/-- SNAPSHOT with OP PLAN: the plan takes effect at acceptance (R402). -/
def installPlan (d : DescId) (x : DescState) (j : Job) (va : Nat) (s0 : State) : State :=
  let s := notePlan s0 x.ctx va
  match vaRead s0 x.ctx va 128 with
  | some (l, false) =>
    let w := wordsOf 16 l
    if planFieldsBad w || va % 64 != 0 || (s.job j).point.isSome then endDesc s d stBadDescriptor
    else match readTable s x.ctx (nth w 6) 16 2, readTable s x.ctx (nth w 7) (fld (nth w 0) 0 32) 4,
        readTable s x.ctx (nth w 8) (fld (nth w 0) 32 8) 8 with
      | some r, some u, some i =>
        let p := planOf s j (descStep x) w r u i
        let len := tabGet [] (s.job j).ringLen (s.job j).live.toNat
        if u.any (unitBad s j) || i.any incomingBad || routesBad len 0 (p.routes.getD 0 []) || routesBad len 1 (p.routes.getD 1 [])
          || p.incoming.any (fun e => !inReserve s e.offset (regionBytes e)) || !regionsApart p.incoming
          || p.incoming.any (fun e => (otherRegions s j).any (regionsMeet e)) then endDesc s d stBadDescriptor
        else endDesc (s.setJob j { s.job j with plan := some p, staged := [] }) d stOk
      | _, _, _ => endDesc s d stArgsFault
  | _ => endDesc s d stArgsFault

/-! ### SNAPSHOT_FULL and SNAPSHOT_DELTA (R406) -/

/-- A SNAPSHOT block's own form: reserved fields, and PLAN only for OP PLAN. -/
def snapFormBad (w : List Nat) : Bool :=
  decide (2 < fld (nth w 0) 0 8) || fld (nth w 0) 16 48 != 0 || ((rangeFrom 4 4).any fun i => nth w i != 0)
  || (fld (nth w 0) 0 8 != 0 && nth w 3 != 0)

/-- The first step that a DELTA sends on a stream. -/
def deltaFrom (p : Plan) (st : Nat) : Nat := match (p.streams.getD st {}).last with
  | some k => k.toNat + 1
  | none => 0

/-- Bytes of a stream at a point, headers and records included (R409). -/
def streamBytes (s : State) (j : Job) (p : Plan) (full : Bool) (step st : Nat) : Nat :=
  if full then 64 + imagesBytes s j p fun u => u.stream == st
  else 64 + journalBytes (journalOf (s.job j) p st (deltaFrom p st) step)
    + imagesBytes s j p fun u => u.stream == st && !u.journal

/-- The bound of R409 on a stop, in ticks: 94.7 GB/s is 606.08 bytes a tick. -/
def stopBound (s : State) (j : Job) (p : Plan) (full : Bool) (step : Nat) : Nat :=
  let t := fun st => ceilDiv (streamBytes s j p full step st * 100) (60608 * max 1 (p.routes.getD st []).length)
  1563 + max (t 0) (t 1)

/-- The rules of R406 that make a point malformed. -/
def pointBad (s : State) (j : Job) (p : Plan) (full : Bool) (step start endMark : Nat) : Bool :=
  decide (start < commitWord s j 1) || decide (endMark < start + stopBound s j p full step)
  || (!full && (p.streams.any fun y => match y.last with
      | none => true
      | some k => decide (step < k.toNat ∨ k.toNat + p.depth < step)))

/-- SNAPSHOT with OP FULL or DELTA: the point waits to be armed at S. -/
def pointStart (d : DescId) (x : DescState) (j : Job) (full : Bool) (w : List Nat) (s : State) : State :=
  match (s.job j).plan with
  | none => endDesc s d stBadDescriptor
  | some p =>
    if (s.job j).point.isSome then endDesc s d stBadDescriptor
    else if descStep x ≠ jobStep s j then endDesc s d stUpdateStale
    else if pointBad s j p full (descStep x) (nth w 1) (nth w 2) then endDesc s d stBadDescriptor
    else
      let y : Point :=
        { desc := d, full := full, step := BitVec.ofNat 32 (descStep x), start := BitVec.ofNat 64 (nth w 1)
          endMark := BitVec.ofNat 64 (nth w 2), started := false, stopTicks := 0, streams := [{}, {}], keepFailed := false }
      (s.setDesc d { x with phase := .running }).setJob j { s.job j with point := some y }

/-- A SNAPSHOT of a given OP runs; another OP is left to its own command. An OP that is none of the three is malformed. -/
def snapRun (d : DescId) (op : Nat) (s0 : State) (x : DescState) (w : List Nat) (s : State) : State :=
  let o := fld (nth w 0) 0 8
  if o ≠ op ∧ (o ≤ 2 ∨ op ≠ 0) then s0
  else if snapFormBad w then endDesc s d stBadDescriptor
  else match rankJobOf s x.ctx (fld (nth w 0) 8 8) with
    | none => endDesc s d stBadDescriptor
    | some j => if op = 0 then installPlan d x j (nth w 3) s else pointStart d x j (op == 1) w s

def execSnapshotPlan (d : DescId) (s : State) : Host.Outcome State Fault Refusal :=
  .next (startDesc s d opSnapshot (withArgs d 8 (snapRun d 0 s)))
def execSnapshotFull (d : DescId) (s : State) : Host.Outcome State Fault Refusal :=
  .next (startDesc s d opSnapshot (withArgs d 8 (snapRun d 1 s)))
def execSnapshotDelta (d : DescId) (s : State) : Host.Outcome State Fault Refusal :=
  .next (startDesc s d opSnapshot (withArgs d 8 (snapRun d 2 s)))

/-! ### The messages of a stream (R398) -/

def updPoint (s : State) (j : Job) (g : Point → Point) : State :=
  match (s.job j).point with
  | some p => s.setJob j { s.job j with point := some (g p) }
  | none => s
def updStream (s : State) (j : Job) (st : Nat) (g : Stream → Stream) : State :=
  updPoint s j fun p => { p with streams := p.streams.set st (g (p.streams.getD st {})) }

/-- Sends data to an area of a target, in messages of 64 KiB dealt to the routes in turn, from one on. -/
def sendSecure (j : Job) (owner : SendOwner) (target : BitVec 16) (routes : List RouteTo) (back : Bool) (st area off first : Nat)
    (data : List MarkedByte) (s : State) : State :=
  (rangeFrom 0 (ceilDiv data.length 65536)).foldl (fun s i =>
    let l := (data.drop (65536 * i)).take 65536
    let r := routes.getD ((first + i) % max 1 routes.length) .none_
    if routeStatus r ≠ stOk then
      let x := s.job j
      let m := x.nextMsg
      putSend (s.setJob j { x with nextMsg := m + 1 }) 0 j m
        { owner := owner, job := j, ctx := x.ctx, dst := target, len := l.length, waiting := 0, injectedAt := s.now
          acked := false, failed := true }
    else
      (sendMessage s { owner := owner, job := j, kind := kindData, dst := target.toNat
                       dstAddr := secureAddr back st area (off + 65536 * i), data := l.map Prod.fst, bad := badUnits l } r).1) s

/-- The routes of a stream. -/
def streamRoutes (s : State) (j : Job) (p : Plan) (st : Nat) : List RouteTo :=
  let t := p.targets.getD st 0
  if t = (s.job j).myRank then [.local_] else (p.routes.getD st []).map RouteTo.by_

/-- Sends data of a point's stream: the routes go on in turn where the last message left off. -/
def sendStream (s : State) (j : Job) (p : Plan) (st area off : Nat) (data : List MarkedByte) : State :=
  let first := match (s.job j).point with
    | some y => (y.streams.getD st {}).dealt
    | none => 0
  updStream (sendSecure j (.secure j st) (p.targets.getD st 0) (streamRoutes s j p st) false st area off first data s) j st
    fun t => { t with dealt := t.dealt + ceilDiv data.length 65536 }

/-- Messages of an owner that are not acknowledged. -/
def openOf (s : State) (o : SendOwner) : Nat :=
  ((s.die 0).sends ++ (s.die 1).sends).foldl (fun n e => if e.2.owner = o then n + 1 else n) 0

/-- Gives up the messages of an owner: what waits to be injected is not sent. -/
def stopSends (s : State) (j : Job) (o : SendOwner) : State :=
  let keys := (((s.die 0).sends ++ (s.die 1).sends).filter fun e => e.2.owner = o).map Prod.fst
  let keep := fun (k : Cand) => k.ring.isSome || k.packet.hdr.kind != kindData
    || !(hdrJob k.packet.hdr == j && keys.contains (sendKey j k.packet.hdr.msgId))
  let s := [0, 1].foldl (fun s d => updDie s d fun y => { y with
    sends := y.sends.filter fun e => e.2.owner ≠ o, cand := y.cand.filter keep }) s
  { s with lnk := { s.lnk with rings :=
      (s.lnk.rings.map fun e => (e.1, { e.2 with cand := e.2.cand.filter keep })).filter fun e => e.2 ≠ ({} : RingState) } }

/-! ### Snapshot records (R413) -/

/-- The 64 bytes of a snapshot record. -/
def snapBytes (w : List Nat) : List Byte := wordBytes (w ++ [digest64 (wordBytes w)])

/-- The words of a record. -/
def snapWords (kind job st qslot src nunits stepFrom step seq bytes mark digest : Nat) : List Nat :=
  [kind + 2 ^ 8 * job + 2 ^ 16 * st + 2 ^ 24 * qslot + 2 ^ 32 * src + 2 ^ 48 * (nunits % 2 ^ 16),
   stepFrom % 2 ^ 32 + 2 ^ 32 * step, seq, bytes, mark, digest, 0]

/-- A record's eight words are those of a valid record (R414). -/
def snapValid (w : List Nat) : Bool := fld (nth w 0) 0 8 != 0 && digest64 (wordBytes (w.take 7)) == nth w 7

/-! ### A point (R408, R411, R414, R422) -/

/-- ρ of R177 of a unit's layer at the secured step, where it was measured; KSHIFT is that of the copy that is not live. -/
def layerRho (s : State) (j : Job) (step layer : Nat) : Option FVal :=
  let x := s.job j
  match vaRead s x.ctx (watchAddr s j step layer) 384, vaRead s x.ctx (ladderAddr s j (1 - ladderCopy s j) (jobLayers s j) layer) 64 with
  | some (b, false), some (r, false) =>
    let b := watchOfBytes b
    let f := fun v => rne64 (.fin false v (-298))
    let q := (fSqrt .fp64 .rne (fDiv .fp64 .rne (f b.ssqDw) (f b.ssqW)).1).1
    if b.owned && decide (0 < b.ssqW) && decide (layer < jobLayers s j) then some (rne64 (q.scale (-(ladderOfBytes r).kshift)))
    else none
  | _, _ => none

/-- The method of a unit at a FULL point (R403). -/
def chooseMethod (s : State) (j : Job) (p : Plan) (step : Nat) (u : SecUnit) : SecUnit :=
  if u.kind = 2 then { u with journal := false }
  else if u.force ≠ 0 then { u with journal := u.force == 2 }
  else
    let small := match layerRho s j step u.layer with
      | some r => !isLt (fCmp (decodeElem .fp64 p.jratio.toNat) r) && !r.isNan
      | none => false
    { u with journal := small && decide (p.splitBytes.toNat ≤ unitBytes s j u) }

/-- The mirror-method images of a point go to the keep half that the last point did not use (R422). -/
def writeKeep (s : State) (j : Job) (p : Plan) (step : W32) : State × Bool :=
  let l := images s j p fun u => !u.journal
  let data := if l = [] ∧ 64 ≤ p.keepBytes.toNat then clean (List.replicate 64 0) else l
  let half := !p.keepHalf
  let va := p.keepAddr.toNat + bnat half * p.keepBytes.toNat
  if p.keepBytes.toNat < data.length ∨ vaOk s (s.job j).ctx .write va data.length = false then (s, false)
  else
    let s := vaPut (noteRanges s j (imageRanges s j p fun u => !u.journal)) (s.job j).ctx va data
    (s.setJob j { s.job j with plan := some { p with keepHalf := half, keepSteps := tabPut p.keepSteps (bnat half) step.toNat } }, true)

/-- A stream's place and record at a point (R408, R413, R414). -/
def planStream (s : State) (j : Job) (p : Plan) (y : Point) (st : Nat) : Stream :=
  let t := p.streams.getD st {}
  let x := s.job j
  let n := (p.units.filter fun u => u.stream == st).length
  let rec_ := fun kind q n stepFrom bytes => snapBytes (snapWords kind j.val st q x.myRank.toNat n stepFrom y.step.toNat
    p.seq.toNat bytes y.start.toNat (commitWord s j 3))
  let bytes := streamBytes s j p y.full y.step.toNat st
  if y.full then
    { phase := 0, bytes := bytes, area := 0, off := 0, quick := 0xFF
      record := rec_ 1 0xFF n y.step.toNat (imagesBytes s j p fun u => u.stream == st), chainFull := false }
  else
    let l := journalOf x p st (deltaFrom p st) y.step.toNat
    let q := if p.units.any (fun u => u.stream == st && !u.journal) then (if t.quick = 0 then 1 else 0) else 0xFF
    { phase := 0, bytes := bytes, area := 3, off := t.off, quick := q
      record := rec_ 2 q (p.units.filter fun u => u.stream == st && u.journal).length (deltaFrom p st) (journalBytes l)
      chainFull := false }

/-- All that a stream is to send can be read. -/
def streamReadable (s : State) (j : Job) (p : Plan) (y : Point) (st : Nat) : Bool :=
  let c := (s.job j).ctx
  p.units.all fun u => u.stream != st || (u.journal && !y.full) || match u.kind with
    | 0 => let r := slotWords s c u.slots.toNat
        vaOk s c .read u.slots.toNat 64 && vaOk s c .read (recAddr r (denseLive s j r)) (8 * recElems r + unitStat s j u)
    | 1 => vaOk s c .read u.slots.toNat (u.rows * rowBytes u.width)
    | _ => vaOk s c .read (ladderAddr s j (ladderCopy s j) (jobLayers s j) 0) (64 * jobLayers s j)

/-- The drain mark of the job's context has passed: its streams send nothing more (R393, R425). -/
def jobDrained (s : State) (j : Job) : Bool := (s.ctx (s.job j).ctx).drained

/-- A stream begins: its zero records go out (R408, R412). -/
def beginStream (j : Job) (s : State) (st : Nat) : State :=
  match (s.job j).plan, (s.job j).point with
  | some p, some y =>
    let t := planStream s j p y st
    if streamReadable s j p y st && !jobDrained s j then
      let s := updStream s j st fun _ => { t with phase := 1 }
      let zero := clean (List.replicate 64 0)
      let s := sendStream s j p st t.area t.off zero
      if y.full then sendStream s j p st (t.area + 1) 0 zero else s
    else updStream s j st fun _ => t
  | _, _ => s

/-- The parts 160 and 161 of a point, failed where their streams are not sealed (R411). -/
def pointParts (y : Point) : List PartState :=
  [0, 1].map fun st => { unit := 160 + st, slots := [], lo := 0, hi := 0, failed := (y.streams.getD st {}).phase != 4, reads := []
                         writes := [] }

/-- A point ends: its report, its record, and the end of the stop. -/
def endPoint (s : State) (j : Job) (y : Point) : State :=
  let s := [0, 1].foldl (fun s st => stopSends s j (.secure j st)) s
  let s := restartQueues (s.setJob j { s.job j with point := none }) (s.job j).ctx
  let b := fun st => (y.streams.getD st {}).bytes
  let seq := ((s.job j).plan.map fun p => p.seq.toNat).getD 0
  let s := setResult (setResult (setResult (setResult s y.desc 24 y.stopTicks) y.desc 25 (b 0)) y.desc 26 (b 1)) y.desc 27 seq
  let s := updDesc s y.desc fun x => { x with parts := [], ended := pointParts y, status := if y.keepFailed then stPartial else stOk }
  finishDesc s y.desc

/-- What a sealed stream leaves at its target (R414). -/
def sealStream (t : PlanStream) (y : Point) (w : Stream) : PlanStream :=
  if y.full then { last := some y.step, off := 0, quick := t.quick }
  else { t with last := some y.step, off := t.off + 64 + roundUp (nth (wordsOf 8 w.record) 3) 64
                quick := if w.quick = 0xFF then t.quick else w.quick }

/-- The point is over once both streams are sealed. -/
def checkSealed (s : State) (j : Job) : State :=
  match (s.job j).point with
  | some y =>
    if [0, 1].all fun st => (y.streams.getD st {}).phase == 4 then
      endPoint s j { y with stopTicks := s.gau.count.toNat - y.start.toNat }
    else s
  | none => s

/-- The snapshot record goes out last (R408). -/
def sendRecord (s : State) (j : Job) (p : Plan) (st : Nat) (t : Stream) : State :=
  sendStream (updStream s j st fun t => { t with phase := 3 }) j p st t.area t.off (clean t.record)

/-- The data of a stream: the images of a FULL point, or journal records and mirror-method images of a DELTA. A chain without
room ends the stream with CHAIN_FULL (R411). -/
def sendData (s : State) (j : Job) (p : Plan) (y : Point) (st : Nat) (t : Stream) : State :=
  let mine := fun (u : SecUnit) => u.stream == st
  let jr := journalOf (s.job j) p st (deltaFrom p st) y.step.toNat
  if !y.full && decide (Config.targetChain j.val st < t.off + 64 + journalBytes jr) then
    raiseEv (updStream s j st fun t => { t with chainFull := true, phase := 0 }) evChainFull (srcDma ⟨st % 2, by omega⟩) []
      (some (s.job j).ctx) (jobField j)
  else
    let s := updStream s j st fun t => { t with phase := 2 }
    let s := noteRanges s j (if y.full then imageRanges s j p mine
      else journalRanges p jr ++ imageRanges s j p fun u => mine u && !u.journal)
    let s := if y.full then sendStream s j p st t.area (t.off + 64) (images s j p mine)
      else
        let s := sendStream s j p st t.area (t.off + 64) (journalData s j p jr)
        if t.quick = 0xFF then s else sendStream s j p st (4 + t.quick) 0 (images s j p fun u => mine u && !u.journal)
    if openOf s (.secure j st) = 0 then sendRecord s j p st t else s

/-- A message of a stream has been acknowledged: once all are, the stream goes on (R408). -/
def streamStep (s : State) (j : Job) (st : Nat) : State :=
  match (s.job j).plan, (s.job j).point with
  | some p, some y =>
    let t := y.streams.getD st {}
    if openOf s (.secure j st) ≠ 0 ∨ jobDrained s j then s
    else if t.phase = 1 then sendData s j p y st t
    else if t.phase = 2 then sendRecord s j p st t
    else if t.phase = 3 then
      let s := updStream s j st fun t => { t with phase := 4 }
      let s := s.setJob j { s.job j with plan := some { p with streams := p.streams.set st (sealStream (p.streams.getD st {}) y t) } }
      checkSealed s j
    else s
  | _, _ => s

/-- A point that cannot be armed, or whose mark comes while the count is not aligned, is missed (R33, R406, R512). -/
def missPoint (s : State) (j : Job) : State :=
  match (s.job j).point with
  | some y => endPoint s j { y with streams := [{}, {}] }
  | none => s

/-- SNAPSHOT_START: at S compute stops, and the link DMA engines take their parts; each stream sends its zero record; the keep half is
written (R389, R403, R408, R422). -/
def snapshotStart (j : Job) (s : State) : State :=
  match (s.job j).plan, (s.job j).point with
  | some p, some y =>
    if fires s (.snapshot j) ∧ y.started = false then
      let s := disarm (checkAligned s) (.snapshot j)
      if !alignedNow s then missPoint s j
      else
        let p := { p with seq := p.seq + 1
                          units := if y.full then p.units.map (chooseMethod s j p y.step.toNat) else p.units }
        let s := s.setJob j { s.job j with plan := some p }
        let (s, kept) := writeKeep s j p y.step
        let s := updPoint s j fun y => { y with started := true, keepFailed := !kept }
        let s := updDesc s y.desc fun x => { x with parts := (pointParts y).map fun p => { p with failed := false } }
        [0, 1].foldl (beginStream j) s
    else s
  | _, _ => s

def execSnapshotStart (j : Job) (s : State) : Host.Outcome State Fault Refusal := .next (snapshotStart j s)

/-- SNAPSHOT_END_MARK: a stream not sealed at END stops, and the point completes PARTIAL (R411). -/
def snapshotEndMark (j : Job) (s : State) : State :=
  match (s.job j).point with
  | some y =>
    if y.started && atMark s y.endMark.toNat then endPoint s j { y with stopTicks := y.endMark.toNat - y.start.toNat } else s
  | none => s

def execSnapshotEndMark (j : Job) (s : State) : Host.Outcome State Fault Refusal := .next (snapshotEndMark j s)

end Sys2Proof.Machine
end

