-- ==== Sys2Proof/Machine/Hangs.lean ====
section
/-!
DEFINITION. Progress windows and what a hang starts (R428 to R434): slots, queues, the engines of a core with their replay,
update engines, link DMAs, the queue manager; the context rung and the engine rung (R426).
-/

namespace Sys2Proof.Machine

open Sys2Proof

/-! ### Windows (R428, R429) -/

/-- No window of the panel runs: a stage that issues no work, a clock change, or a rung. -/
def panelExempt (s : State) (p : Panel) : Bool := noNewWork s p || (s.panel p).stall.isSome || (s.panel p).state == 1

/-- A window of n milliseconds has passed in a panel since the last progress. -/
def panelDue (s : State) (p : Panel) (last n : Nat) : Bool := !panelExempt s p && elapsed s last (msTicks n)

/-- The windows that the chip bench keeps, those of queues, link DMAs and queue manager, do not run while those of its panel do not;
a queue's also not while a part of it is on such a panel (R429, log entry 129). -/
def queueStill (s : State) (q : Queue) : Bool :=
  panelExempt s 0 || s.qmg.descs.any fun e => (descOfKey e.1).q == q && e.2.parts.any fun p => match unitPanel p.unit with
    | some k => panelExempt s k
    | none => false

/-- The windows that the chip bench keeps begin anew at the end of an exemption of a panel: those of its link die and of queues with
parts on it; of every queue, die and the queue manager for its own panel. -/
def restartChip (s : State) (p : Panel) : State :=
  let now := s.now
  let mine := fun (n : Nat) => p == 0 || s.qmg.descs.any fun e => (descOfKey e.1).q.val == n && e.2.parts.any fun x => unitPanel x.unit == some p
  let s := { s with qmg := { s.qmg with
    queues := s.qmg.queues.map fun (e : Nat × QueueState) => if mine e.1 then (e.1, { e.2 with progress := now }) else e
    progress := if p = 0 then now else s.qmg.progress } }
  { s with lnk := { s.lnk with dies := s.lnk.dies.map fun (e : Nat × DieState) =>
      if p = 0 ∨ e.1 = p.val / 2 then (e.1, { e.2 with progress := now }) else e } }

/-- Every window of a panel begins anew, as at the end of an exemption. -/
def restartPanel (s : State) (p : Panel) : State :=
  let now := s.now
  let go := fun (e : EngState) => { e with progress := now }
  let s := restartChip s p
  { s with
    slots := s.slots.map fun e => if e.1 / 2560 = p.val then (e.1, { e.2 with progress := now }) else e
    cores := s.cores.map fun e => if e.1 / 40 = p.val then
      (e.1, { e.2 with matrix := go e.2.matrix, vector := go e.2.vector, mover := go e.2.mover }) else e
    upd := s.upd.map fun e => if e.1 = p.val then (e.1, { e.2 with progress := now }) else e }

/-- The queue and number of a descriptor, as the events of this chapter carry them (R447). -/
def descArg (d : DescId) : Nat := d.q.val + 2 ^ 32 * d.n.toNat

/-- Counts a hang found in a panel (R494). -/
def countHang (s : State) (p : Panel) : State := s.setPanel p { s.panel p with hangs := sat64 ((s.panel p).hangs + 1) }

/-! ### The context rung (R426, R432) -/

/-- Starts the context rung, which is carried out as a CLOSE. -/
def ctxRung (c : Ctx) (cause : BitVec 16) (s : State) : State :=
  let x := s.ctx c
  if (x.phase = .opened ∨ x.phase = .closing) ∧ x.rung = false then
    let s := copyCounters (raiseEv s evResetContext (srcBench 0) [cause.toNat, 0] (some c))
    let s := pushRung s (.context c) cause (srcBench 0)
    let s := { s with glb := { s.glb with ctxRungs := count16 s.glb.ctxRungs } }
    let s := if x.phase = .opened then closeCtx s c else s
    updCtx s c fun y => { y with rung := true }
  else s

/-! ### HANG_SLOT (R431) -/

/-- A slot issues no further bundle. -/
def haltSlot (s : State) (t : Slot) : State :=
  updSlot t (fun x => { x with stopped := true, hold := .free, holdSig := [] }) (stopPasses (dropHandles s t) t)

/-- The slots of the part that a slot runs. -/
def partSlots (s : State) (t : Slot) : List Slot :=
  match (s.slot t).desc with
  | some d => match s.desc? d with
    | some x => ((x.parts.filter fun p => p.slots.contains t).flatMap fun p => p.slots).filter (slotFor s d)
    | none => [t]
  | none => [t]

/-- The stop of a descriptor's parts began 5 ms ago: one that has not stopped is a hang (R392). -/
def stopLate (s : State) (x : DescState) : Bool := x.stopping.isSome && elapsed s x.stopAt (msTicks 5)

/-- The part that a slot runs is one that has not stopped in time. -/
def slotLate (s : State) (t : Slot) : Bool := match ((s.slot t).desc).bind s.desc? with
  | some x => stopLate s x
  | none => false

def hangSlot (t : Slot) (s : State) : State :=
  let x := s.slot t
  let p := slotPanel t
  if x.running && !x.stopped && (slotLate s t || panelDue s p x.progress s.glb.slotWin.toNat) then
    let s := raiseEv (countHang s p) evHangSlot (srcCore (slotCore t))
      [t.val, x.pc.toNat, (x.desc.map descArg).getD 0] (some x.ctx)
    (partSlots s t).foldl haltSlot (failSlotPart s t)
  else s

def execHangSlot (t : Slot) (s : State) : Host.Outcome State Fault Refusal := .next (hangSlot t s)

/-! ### Engines that are no part of a core (R434) -/

/-- The panel that collects for a unit, and the panel whose windows bind it. -/
def unitOwner : UnitName → Option Panel
  | .update p => some p
  | _ => none

/-- Contexts of the parts that run on a unit. -/
def unitCtxs (s : State) (u : Nat) : List Ctx :=
  (s.qmg.descs.filter fun e => e.2.parts.any fun p => p.unit == u).map fun e => e.2.ctx

/-- The queue that the fetch serves: the one that has the turn, while it may keep it; else the next in order (R374). While the link is
down the queue manager fetches and writes nothing, and has no work (R396). -/
def servedQueue (s : State) : Option Queue :=
  match s.qmg.turn with
  | some (q, n) => if fetchable s q && decide (n < 64) then some q else nextTurn s q
  | none => (fetchQueues s).head?

/-- The context that a unit was serving when its progress stopped; none where it has no work. A link DMA serves what waits at its
delivery exit first, then its messages, then its parts (log entry 130). -/
def servedCtx (s : State) : UnitName → Option Ctx
  | .update p => (unitCtxs s (162 + p.val)).head?
  | .linkDma d =>
    (((s.die d).dbufs.map fun k => (s.job ⟨k.hdr.job.toNat, k.hdr.job.isLt⟩).ctx)
      ++ (((s.die d).sends.filter fun e => e.2.waiting != 0).map fun e => e.2.ctx) ++ unitCtxs s (160 + d.val)).head?
  | .queueManager => (servedQueue s).bind (queueCtx s)

def unitProgress (s : State) : UnitName → Nat
  | .update p => (s.updEngine p).progress
  | .linkDma d => (s.die d).progress
  | .queueManager => s.qmg.progress

def unitInc (s : State) : UnitName → BitVec 8
  | .update p => (s.updEngine p).inc
  | .linkDma d => (s.die d).inc
  | .queueManager => s.qmg.inc

/-- How long a reset of a link DMA takes: at most 1 ms, and how much of it is left open (R426, R441; log entry 115). -/
def resetTime (n : Nat) : Nat := (Config.freeWord n).toNat % (msTicks 1 + 1)

/-- Replies, writes and increments in flight at a reset carry tags that no longer match: of n that were outstanding, how many is left
open (R435). -/
def dropLate (s : State) (n : Nat) : State :=
  if n = 0 then s else lateDrop { s with free := s.free + 1 } ((Config.freeWord s.free).toNat % (n + 1))

/-- What commands have outstanding: writes, counter changes, signals. -/
def outstanding (l : List EngCmd) : Nat := (l.map fun c => c.writes.length + c.sets.length + c.signals.length).sum

/-- What the parts on a unit that is no engine of a core have outstanding: the 64-byte units that they write. -/
def unitOutstanding (s : State) (u : Nat) : Nat :=
  (s.qmg.descs.map fun e => ((e.2.parts.filter fun p => p.unit == u).map fun p => unitCount s e.2.ctx p.writes).sum).sum

/-- Resets a unit: its incarnation moves on and its window begins anew; its tables and queues stay (R434, R435). A link DMA's
delivery exits are busy meanwhile. -/
def resetUnit (s : State) : UnitName → State
  | .update p => spoilReady (s.setUpdEngine p { s.updEngine p with inc := (s.updEngine p).inc + 1, progress := s.now }) p
  | .linkDma d =>
    let s := spoilReady (s.setDie d { s.die d with
      inc := (s.die d).inc + 1, progress := s.now, busyUntil := s.now + resetTime s.free }) 0
    { s with free := s.free + 1 }
  | .queueManager =>
    let s := spoilReady s 0
    { s with qmg := { s.qmg with inc := s.qmg.inc + 1, progress := s.now } }

/-- A part that a reset has stopped fails and ends with it, where its record finds room (R390). -/
def endStopped (s : State) (d : DescId) (u : Nat) : State :=
  match s.desc? d with
  | none => s
  | some x =>
    match x.parts.find? fun p => p.unit == u with
    | none => s
    | some p => if recordRoom s then endPart s d x p true else updDesc s d fun y => { y with
        parts := y.parts.map fun p => if p.unit = u then { p with failed := true } else p }

/-- The parts on units that a test names. -/
def partsOn (s : State) (t : Nat → Bool) : List (DescId × Nat) :=
  s.qmg.descs.flatMap fun e => (e.2.parts.filter fun p => t p.unit).map fun p => (descOfKey e.1, p.unit)

/-- The parts on such units fail (R390). -/
def failParts (t : Nat → Bool) (s : State) : State := (partsOn s t).foldl (fun s x => endStopped s x.1 x.2) s

/-- Counts an engine rung and raises RESET_ENGINE with the suspects and the new incarnation. -/
def engineReset (s : State) (src : BitVec 16) (sub : BitVec 3) (n : Nat) (inc : BitVec 8) : State :=
  copyCounters (raiseEv (noteRung 2 { s with glb := { s.glb with engRungs := count16 s.glb.engRungs } }) evResetEngine src
    [n, inc.toNat] none 0xFF sub)

/-- Whether a reset hangs is no business of the rungs: it is drawn (R441; log entry 122). -/
def drawStuck (s : State) : Bool × State := (Config.resetStuck s.free, { s with free := s.free + 1 })

/-- The engine rung of a unit: event, collection, dump, reset (R436). A reset that hangs leaves the rung in progress (R441). -/
def unitRung (u : UnitName) (cause : BitVec 16) (s : State) : State :=
  let src := BitVec.ofNat 16 (unitNum u)
  let sus := (servedCtx s u).toList
  let s := engineReset s src 0 sus.length (unitInc s u + 1)
  let s := writeDump s 2 ((unitOwner u).getD 0) cause src (engineSects s [unitSect s u] none [] sus)
  match drawStuck s with
  | (true, s) => pushRung s (.unit u) cause src
  | (false, s) => failParts (fun n => n == unitNum u) (resetUnit (dropLate s (unitOutstanding s (unitNum u))) u)

/-- Hangs of an engine of a link die, newest first; update engines have none (R441). -/
def unitHangs (s : State) : UnitName → List Nat
  | .update _ => []
  | .linkDma d => (s.die d).hangs
  | .queueManager => s.qmg.hangs

def noteHang (s : State) : UnitName → State
  | .update p => countHang s p
  | .linkDma d => s.setDie d { s.die d with hangs := s.now :: recent s (secTicks 60) (s.die d).hangs }
  | .queueManager => { s with qmg := { s.qmg with hangs := s.now :: recent s (secTicks 60) s.qmg.hangs } }

/-- The window of a unit does not run (R429, R460). -/
def unitExempt (s : State) : UnitName → Bool
  | .update p => panelExempt s p
  | .linkDma d => panelExempt s 0 || noInjection s d
  | .queueManager => panelExempt s 0

/-- A part on the unit has not stopped in time (R392). -/
def unitLate (s : State) (u : UnitName) : Bool :=
  s.qmg.descs.any fun e => stopLate s e.2 && e.2.parts.any fun p => p.unit == unitNum u

/-- The window of a unit has passed. -/
def unitDue (s : State) (u : UnitName) : Bool :=
  !unitStuck s (unitNum u)
    && (unitLate s u || (!unitExempt s u && elapsed s (unitProgress s u) (msTicks s.glb.engineWin.toNat)))

/-- UNIT_HANG: the engine rung first, then the context rung of the context it was serving; the third hang of an engine of a
link die within 60 s passes to the chip rung. -/
def unitHang (u : UnitName) (s : State) : State :=
  match servedCtx s u with
  | none => s
  | some c =>
    if unitDue s u then
      let src := BitVec.ofNat 16 (unitNum u)
      let s := raiseEv (noteHang s u) evHangEngine src [1, (unitInc s u + 1).toNat] (some c)
      if 3 ≤ (unitHangs s u).length then escalate s evResetChip src [evHangEngine.toNat] (startChip evHangEngine src)
      else
        let s := unitRung u evHangEngine s
        if unitStuck s (unitNum u) then s else ctxRung c evHangEngine s
    else s

def execUnitHang (u : UnitName) (s : State) : Host.Outcome State Fault Refusal := .next (unitHang u s)

/-! ### HANG_QUEUE (R428, R429, R432) -/

/-- The oldest descriptor of a queue that has no record. -/
def oldest (s : State) (q : Queue) : Option (DescId × DescState) :=
  (s.qmg.descs.filterMap fun e => if (descOfKey e.1).q = q then some (descOfKey e.1, e.2) else none).foldl (fun m e => match m with
    | none => some e
    | some x => if descAge s e.1 < descAge s x.1 then some e else m) none

/-- The latest completion time that its chapter states for a descriptor (R280, R342, R363, R411). -/
def latestMark (s : State) (d : DescId) (x : DescState) : Option Nat :=
  let job := fun (t : JobState → Option Nat) => ([0, 1, 2, 3, 4, 5, 6, 7] : List Job).findSome? fun j => t (s.job j)
  if descOp x = opColl then (s.coll? d).map fun c => c.endMark + 625
  else if descOp x = opCommit then job fun j => match j.commit with
    | some c => if c.desc = d then some (c.commitMark.toNat + 625) else none
    | none => none
  else if descOp x = opRoute then job fun j => match j.change with
    | some c => if c.desc = d then some (c.mark.toNat + (if c.switched then c.bmax else 0) + 625) else none
    | none => none
  else if descOp x = opSnapshot then job fun j => match j.point with
    | some p => if p.desc = d then some p.endMark.toNat else none
    | none => none
  else none

/-- The window of a queue whose oldest descriptor has a latest completion time begins when that has passed; a RESTORE has none
stated (R428, R429). -/
def latestOpen (s : State) (d : DescId) (x : DescState) (win : Nat) : Bool :=
  (match latestMark s d x with
    | some m => decide (s.gau.count.toNat < m + win)
    | none => false)
  || (descOp x == opRestore && x.phase != .waiting)

/-- A descriptor waits for the scrub of a discard or for a securing point (R279, R407). -/
def waitsFor (s : State) (x : DescState) : Bool :=
  (x.phase == .waiting || x.parts == [])
    && ((descOp x == opUpdate && (ctxJobs s x.ctx).any fun j => (s.job j).scrub) || jobStopped s x)

/-- The window of a queue, of so many ticks, does not run, or has not run its length since an exemption. -/
def queueExempt (s : State) (q : Queue) (win : Nat) : Bool :=
  queueStill s q
  || (match oldest s q with
    | some (d, x) => latestOpen s d x win
    | none => false)
  || s.qmg.descs.any fun e => (descOfKey e.1).q == q
    && (waitsFor s e.2 || e.2.parts.any fun p => inReplay s (descOfKey e.1) p.unit)

/-- The engine that a part without a slot of its own keeps at work (log entry 52). -/
def partEngine (x : DescState) : EngineKind :=
  if descOp x = opProduct then .matrix else if descOp x = opPass then .vector else .mover

/-- When the unit of a part that has no slot of its own last made progress. -/
def partProgress (s : State) (x : DescState) (p : PartState) : Nat :=
  if p.unit < 160 then (if p.starts = [] then (s.engine (coreOf p.unit) (partEngine x)).progress else 0)
  else if p.unit < 162 then (s.die (dieOf p.unit)).progress
  else match unitPanel p.unit with
    | some k => (s.updEngine k).progress
    | none => 0

/-- When a queue last made progress, that of its parts included. -/
def queueProgress (s : State) (q : Queue) : Nat :=
  let mine := s.qmg.descs.filter fun e => (descOfKey e.1).q == q
  let parts := mine.flatMap fun e => e.2.parts.map (partProgress s e.2)
  let slots := (s.slots.filter fun e => (e.2.desc.map DescId.q) == some q).map fun e => e.2.progress
  (parts ++ slots).foldl max (s.queue q).progress

def hangQueue (q : Queue) (s : State) : State :=
  let x := s.queue q
  let win := msTicks s.glb.queueWin.toNat
  match queueCtx s q with
  | none => s
  | some c =>
    if x.enable && !queueIdle x && !queueExempt s q win && elapsed s (queueProgress s q) win then
      let s := raiseEv s evHangQueue srcQmg [q.val, x.head.toNat + 2 ^ 32 * x.done.toNat] (some c)
      let s := if elapsed s s.qmg.progress win && !unitStuck s (unitNum .queueManager) then unitRung .queueManager evHangQueue s else s
      ctxRung c evHangQueue s
    else s

def execHangQueue (q : Queue) (s : State) : Host.Outcome State Fault Refusal := .next (hangQueue q s)

/-! ### The engines of a core (R433) -/

def srcSub (k : EngineKind) : BitVec 3 := BitVec.ofNat 3 (engNum k)

/-- The parts on a core, with their descriptors. -/
def coreParts (s : State) (c : Core) : List (DescId × DescState × PartState) :=
  s.qmg.descs.flatMap fun e => (e.2.parts.filter fun p => p.unit == c.val).map fun p => (descOfKey e.1, e.2, p)

/-- The parts without a slot of their own that an engine works on. -/
def engineParts (s : State) (c : Core) (k : EngineKind) : List (DescId × DescState × PartState) :=
  (coreParts s c).filter fun x => x.2.2.starts == [] && partEngine x.2.1 == k

/-- An engine has work: its queue holds a command, or it works on such a part. -/
def engineWork (s : State) (c : Core) (k : EngineKind) : Bool := (s.engine c k).queue != [] || engineParts s c k != []

/-- A part on the engine has not stopped in time (R392). -/
def engineLate (s : State) (c : Core) (k : EngineKind) : Bool :=
  (engineParts s c k).any (fun x => stopLate s x.2.1) || (s.engine c k).queue.any fun m => slotLate s m.slot

/-- The window of an engine has passed. -/
def engineDue (s : State) (c : Core) (k : EngineKind) : Bool :=
  engineWork s c k && (engineLate s c k || panelDue s (corePanel c) (s.engine c k).progress s.glb.engineWin.toNat)

/-- Contexts that issued an operation to an engine within the last ENGINE_WIN. -/
def lately (s : State) (e : EngState) : List Nat :=
  (e.issued.filter fun x => decide (s.now ≤ x.2 + msTicks s.glb.engineWin.toNat)).map fun x => x.1

/-- Suspects: contexts with an operation in an engine's queue, or lately issued to it, or with such a part; those whose parts the core still has to replay stay suspects; ascending. -/
def suspects (s : State) (c : Core) (ks : List EngineKind) : List Ctx :=
  let nums := ks.flatMap fun k =>
    ((s.engine c k).queue.map fun m => m.tags.ctx.val) ++ lately s (s.engine c k) ++ (engineParts s c k).map fun x => x.2.1.ctx.val
  let held := ((coreParts s c).filter fun x => inReplay s x.1 c.val).map fun x => x.2.1.ctx.val
  ((nums ++ held).foldl setInsert []).filterMap fun n => if h : n < 1024 then some ⟨n, h⟩ else none

/-- The parts of the suspects on a core, by context. -/
def suspectParts (s : State) (c : Core) (sus : List Ctx) : List (DescId × DescState × PartState) :=
  sus.flatMap fun a => (coreParts s c).filter fun x => x.2.1.ctx == a

/-- Changes the part of a descriptor on a unit. -/
def updUnitPart (s : State) (d : DescId) (u : Nat) (g : PartState → PartState) : State :=
  updDesc s d fun x => { x with parts := x.parts.map fun p => if p.unit = u then g p else p }

/-- Stops a part: its slots and what they have queued, its handles, its tallies so far. -/
def stopPart (s : State) (d : DescId) (p : PartState) : State :=
  let s := (p.slots.filter (slotFor s d)).foldl releaseSlot s
  let s := releaseHandles s (coreOf p.unit) p.handles
  updUnitPart s d p.unit fun y => { y with handles := [], tallies := {}, watch := [] }

/-- Resets an engine of a core: what its queue holds is lost, its incarnation moves on, and what is outstanding is dropped where it
arrives; with the matrix engine's state go the handles and the accumulator store that its tiles hold (R435, R440). -/
def resetEngine (s : State) (c : Core) (k : EngineKind) : State :=
  let e := s.engine c k
  let s := dropLate s (outstanding e.queue)
  let s := if k = .matrix then releaseHandles s c (((s.core c).handles.filter fun h => !h.2.pass).map Prod.fst) else s
  spoilReady (s.setEngine c k { e with queue := [], inc := e.inc + 1, progress := s.now }) (corePanel c)

def meets (a b : Nat × Nat) : Bool := decide (a.1 < b.1 + b.2 ∧ b.1 < a.1 + a.2)

/-- A part that can be replayed. -/
def replayable (x : DescState) (p : PartState) : Bool :=
  (descOp x == opProduct || descOp x == opPass || (descOp x == opMove && (moveOfWords (descWords x)).rank.isNone))
    && !p.writes.any fun w => p.reads.any (meets w)

/-- Starts a part again on its core, as it was placed; none where the store has no room for its tiles. -/
def restartPart (s : State) (c : Core) (d : DescId) (x : DescState) (p : PartState) : Option State :=
  let owner : Slot := ⟨c.val * 64, by omega⟩
  match allocTiles owner (s.core c) (partTiles x) with
  | none => none
  | some (cs, hs) =>
    let s := if hs = [] then s else s.setCore c cs
    let s := updUnitPart s d p.unit fun y => { y with handles := hs }
    let s := p.starts.foldl (startSlot x d p.unit) s
    let s := s.setPanel (corePanel c) { s.panel (corePanel c) with replays := sat64 ((s.panel (corePanel c)).replays + 1) }
    some (beginWindow s c.val)

def setReplay (s : State) (c : Core) (r : Option Replay) : State := s.setCore c { s.core c with replay := r }

/-- A replay is over and no suspect was named: HANG_CLEARED; the engine's third within 60 s passes to the panel rung. -/
def hangCleared (s : State) (c : Core) (k : EngineKind) : State :=
  let s := raiseEv s evHangCleared (srcCore c) [] none 0xFF (srcSub k)
  let e := s.engine c k
  let l := s.now :: recent s (secTicks 60) e.cleared
  let s := s.setEngine c k { e with cleared := l }
  if 3 ≤ l.length then engineToPanel (corePanel c) evHangCleared (srcCore c) s else s

/-- A part is no longer under replay: the window of its queue begins anew (R428, R429). -/
def leaveReplay (s : State) (d : DescId) : State := updQueue s d.q fun q => { q with progress := s.now }

/-- Goes on with the suspect parts of a core until one runs alone, or none is left. -/
def replayFrom (c : Core) (k : EngineKind) : List (DescId × Nat) → Bool → State → State
  | [], named, s =>
    let s := setReplay s c none
    if named then s else hangCleared s c k
  | (d, u) :: t, named, s =>
    match s.desc? d with
    | none => replayFrom c k t named s
    | some x =>
      match x.stopping, x.parts.find? fun p => p.unit == u with
      | none, some p =>
        match if replayable x p then restartPart s c d x p else none with
        | some s => setReplay s c (some ⟨k, t, some (d, u), named⟩)
        | none =>
          let s := endStopped (leaveReplay s d) d u
          replayFrom c k t named (raiseEv s evReplayUnresolved (srcCore c) [descArg d, u] (some x.ctx))
      | _, _ => replayFrom c k t named (leaveReplay s d)

/-- Every suspect is named guilty without replay (R443). -/
def nameAll (s : State) (c : Core) (parts : List (DescId × DescState × PartState)) (sus : List Ctx) : State :=
  let s := parts.foldl (fun s x => raiseEv s evGuilty (srcCore c) [descArg x.1, x.2.2.unit] (some x.2.1.ctx)) s
  sus.foldl (fun s a => ctxRung a evGuilty s) s

/-- The engine rung of engines of one core: event, collection, dump, reset, and the replay of the suspect parts. A reset that hangs
leaves the rung in progress, and the parts stopped (R441). -/
def engineRung (c : Core) (k : EngineKind) (more : List EngineKind) (cause : BitVec 16) (s : State) : State :=
  let ks := k :: more
  let sus := suspects s c ks
  let parts := suspectParts s c sus
  let slots := parts.flatMap fun x => x.2.2.slots.filter (slotFor s x.1)
  let s := ks.foldl (fun s k => engineReset s (srcCore c) (srcSub k) sus.length ((s.engine c k).inc + 1)) s
  let s := writeDump s 2 (corePanel c) cause (srcCore c) (engineSects s (ks.map (engineSect s c)) (some c) slots sus)
  let late := outstanding (ks.flatMap fun k => (s.engine c k).queue)
  let s := parts.foldl (fun s x => stopPart s x.1 x.2.2) s
  let left := parts.map fun x => (x.1, x.2.2.unit)
  match drawStuck s with
  | (true, s) => pushRung (setReplay s c (some ⟨k, left, none, false⟩)) (.engine c k) cause (srcCore c)
  | (false, s) =>
    let s := ks.foldl (fun s k => resetEngine s c k) (dropLate s late)
    if s.glb.replayEn then replayFrom c k left false s else nameAll (setReplay s c none) c parts sus

/-- HANG_ENGINE: every engine of the core whose window has passed takes part in one collection (R451). -/
def hangEngine (c : Core) (k : EngineKind) (s : State) : State :=
  if engineDue s c k && (s.core c).replay.isNone && !unitStuck s c.val then
    let more := ([.matrix, .vector, .mover] : List EngineKind).filter fun j => decide (j ≠ k) && engineDue s c j
    let n := (suspects s c (k :: more)).length
    let s := (k :: more).foldl (fun s j => raiseEv (countHang s (corePanel c)) evHangEngine (srcCore c)
      [n, ((s.engine c j).inc + 1).toNat] none 0xFF (srcSub j)) s
    engineRung c k more evHangEngine s
  else s

def execHangEngine (c : Core) (e : EngineKind) (s : State) : Host.Outcome State Fault Refusal := .next (hangEngine c e s)

/-- A window of the part that is being replayed has passed. -/
def replayHung (s : State) (c : Core) (d : DescId) (p : PartState) : Bool :=
  engineDue s c .matrix || engineDue s c .vector || engineDue s c .mover
    || p.slots.any fun t => slotFor s d t && panelDue s (corePanel c) (s.slot t).progress s.glb.slotWin.toNat

/-- The part that ran alone has hung again: it is guilty, and its context's other parts are not replayed. -/
def replayGuilty (s : State) (c : Core) (r : Replay) (d : DescId) (x : DescState) (p : PartState) : State :=
  let late := outstanding (s.engine c r.eng).queue
  let s := resetEngine (dropLate (stopPart (countHang s (corePanel c)) d p) late) c r.eng
  let s := leaveReplay s d
  let s := updUnitPart s d p.unit fun y => { y with failed := true }
  let s := raiseEv s evGuilty (srcCore c) [descArg d, p.unit] (some x.ctx)
  let s := ctxRung x.ctx evGuilty (setReplay s c (some { r with running := none, named := true }))
  replayFrom c r.eng (r.parts.filter fun y => match s.desc? y.1 with
    | some z => z.ctx != x.ctx
    | none => false) true s

/-- The part that ran alone has completed: it counts as completed. -/
def replayPassed (s : State) (c : Core) (r : Replay) (d : DescId) (x : DescState) (p : PartState) : State :=
  let s := leaveReplay (raiseEv s evReplayPass (srcCore c) [descArg d, p.unit] (some x.ctx)) d
  let s := endPart (setReplay s c (some { r with running := none })) d x p false
  replayFrom c r.eng r.parts r.named s

/-- REPLAY_END. -/
def replayEnd (c : Core) (hung : Bool) (s : State) : State :=
  match (s.core c).replay with
  | none => s
  | some r =>
    match r.running with
    | none => s
    | some (d, u) =>
      match s.desc? d with
      | none => replayFrom c r.eng r.parts r.named s
      | some x =>
        match x.parts.find? fun p => p.unit == u with
        | none => replayFrom c r.eng r.parts r.named s
        | some p =>
          if x.stopping.isSome then
            if recordRoom s then replayFrom c r.eng r.parts r.named (endPart (setReplay s c (some { r with running := none })) d x p false)
            else s
          else if hung then if replayHung s c d p then replayGuilty s c r d x p else s
          else if slotsDone s d p && recordRoom s then replayPassed s c r d x p
          else s

def execReplayEnd (c : Core) (hung : Bool) (s : State) : Host.Outcome State Fault Refusal := .next (replayEnd c hung s)

end Sys2Proof.Machine
end

