-- ==== Sys2Proof/Machine/Panels.lean ====
section
/-!
DEFINITION. What the bench controllers do for their panels: clock points (R37, R452 to R457, R467), watchdogs (R35), mark
comparators and missed launches (R32, R33).
-/

namespace Sys2Proof.Machine

open Sys2Proof

/-! ### Clock points: a greater number is a slower clock -/

/-- The caps of a stage (R458): core and matrix point. -/
def stageCaps (n : Nat) : Fin 5 × Fin 5 := if 3 ≤ n then (4, 4) else if n = 2 then (0, 2) else (0, 0)

/-- The point that the power limit sets for a panel's matrix clock (R457). -/
def limitPoint (s : State) (p : Panel) : Fin 5 := tabGet 0 s.pwr.limitOp p.val

/-- The points of a panel under R467: the lowest of the limit's, the stage's and the caps of R452. -/
def pointsOf (s : State) (p : Panel) : Fin 5 × Fin 5 :=
  let c := stageCaps (stageIn s p)
  let x : Fin 5 := if s.pwr.excursionCap then 4 else 0
  let k : Fin 5 := if s.pwr.peakCap then 2 else 0
  (max c.1 x, max (max c.2 (limitPoint s p)) (max x k))

/-- A change of points: it stalls issue, or is held while another stalls it; a change to the points in force is none. -/
def requestClock (s : State) (p : Panel) (w : Fin 5 × Fin 5) : State :=
  let x := s.panel p
  match x.stall with
  | some _ => s.setPanel p { x with held := some w }
  | none => if w = (x.coreOp, x.matrixOp) then s else s.setPanel p { x with stall := some w }

/-- A panel's cycles until now are counted at the point that its core clock runs at (R224, R455). -/
def countCycles (s : State) (x : PanelState) : PanelState :=
  { x with cycBase := x.cycBase + (s.now - x.cycAt) * pointMilli x.coreOp, cycAt := s.now }

/-- A panel that comes out of a reset runs at once at the points of R467. -/
def snapPoints (s : State) (p : Panel) : State :=
  let w := pointsOf s p
  s.setPanel p { countCycles s (s.panel p) with coreOp := w.1, matrixOp := w.2, stall := none, held := none }

def snapAll (s : State) : State := ([0, 1, 2, 3] : List Panel).foldl snapPoints s

/-- The points that a panel is on its way to. -/
def aimOf (x : PanelState) : Fin 5 × Fin 5 := x.held.getD (x.stall.getD (x.coreOp, x.matrixOp))

/-- A panel's clocks follow R467. -/
def retune (s : State) (p : Panel) : State :=
  if aimOf (s.panel p) = pointsOf s p then s else requestClock s p (pointsOf s p)

def retuneAll (s : State) : State := ([0, 1, 2, 3] : List Panel).foldl retune s

/-- CLOCK_CHANGE_REQUEST: a cap never lets a clock above it. -/
def execClockChangeRequest (p : Panel) (core matrix : Fin 5) (s : State) : Host.Outcome State Fault Refusal :=
  .next (if benchUp s then requestClock s p (max core (pointsOf s p).1, max matrix (pointsOf s p).2) else s)

/-- CLOCK_STALL_END: the new points are in force; a held change stalls issue anew; the windows begin anew (R428). -/
def clockStallEnd (p : Panel) (s : State) : State :=
  let x := s.panel p
  match x.stall with
  | none => s
  | some w =>
    let s := s.setPanel p { countCycles s x with coreOp := w.1, matrixOp := w.2, stall := none, held := none }
    let s := match x.held with
      | some h => requestClock s p h
      | none => s
    restartPanel s p

def execClockStallEnd (p : Panel) (s : State) : Host.Outcome State Fault Refusal :=
  .next (if benchUp s then clockStallEnd p s else s)

/-! ### Watchdogs (R35) -/

def execWatchdogRestart (p : Panel) (s : State) : Host.Outcome State Fault Refusal :=
  .next (if benchUp s then s.setPanel p { s.panel p with wdog := s.now } else s)

/-- A watchdog has not been restarted for 10 ms. It times a bench controller that runs: none is released before LOCK (R478; log
entry 120). -/
def wdogDue (s : State) (p : Panel) : Bool := benchUp s && elapsed s (s.panel p).wdog (msTicks 10)

/-- WDOG_PANEL: the panel rung; while that rung runs already, the chip rung (R441). -/
def wdogPanel (p : Panel) (s : State) : State :=
  if p ≠ 0 ∧ wdogDue s p then
    let s := s.setPanel p { s.panel p with wdog := s.now }
    let s := raiseEv s evWdogPanel (srcBench p) [p.val]
    if rungOn s (.panel p) then panelToChip p evWdogPanel (srcBench p) s else startPanel p evWdogPanel (srcBench p) s
  else s

def execWdogPanel (p : Panel) (s : State) : Host.Outcome State Fault Refusal := .next (wdogPanel p s)

/-- WDOG_CHIP: the security block starts the chip rung. -/
def wdogChip (s : State) : State :=
  if wdogDue s 0 then
    let s := s.setPanel 0 { s.panel 0 with wdog := s.now }
    startChip evWdogChip srcSecurity (raiseI3c s evWdogChip [0])
  else s

def execWdogChip (s : State) : Host.Outcome State Fault Refusal := .next (wdogChip s)

/-! ### Launches (R32, R33) -/

/-- The schedule that a launch starts. -/
def launchColl (s : State) : LaunchId → Option (DescId × CollState)
  | .coll d => (s.coll? d).map fun x => (d, x)
  | .vote j => match (s.job j).commit with
    | some c => (s.coll? c.desc).map fun x => (c.desc, x)
    | none => none
  | .watchColl j => s.colls.findSome? fun e => if e.2.job = j ∧ e.2.op = opWatch then some (descOfKey e.1, e.2) else none
  | _ => none

/-- The name under which a launch is armed: the watch schedule of a job is a COLL. -/
def launchName (s : State) (a : LaunchId) : LaunchId :=
  match a with
  | .watchColl _ => match launchColl s a with
    | some (d, _) => .coll d
    | none => a
  | _ => a

/-- The mark of a launch that still waits for it, and its descriptor. -/
def launchMark (s : State) (a : LaunchId) : Option (Nat × DescId) :=
  match a with
  | .coll _ | .watchColl _ | .vote _ => match launchColl s a with
    | some (d, x) => if !x.fired && !x.missed && decide (collLaunch s d x = launchName s a) then some (x.base.toNat, d) else none
    | none => none
  | .commit j => match (s.job j).commit with
    | some c => if c.action = .undecided then none else some (c.commitMark.toNat, c.desc)
    | none => none
  | .snapshot j => match (s.job j).point with
    | some p => if p.started then none else some (p.start.toNat, p.desc)
    | none => none
  | .routeEpoch j => match (s.job j).change with
    | some c => if c.staged && !c.switched then some (c.mark.toNat, c.desc) else none
    | none => none
  | .drill => none

/-- Schedules that are armed or run (R357). -/
def collsActive (s : State) : Nat :=
  (s.colls.filter fun e => e.2.fired || (findArmed s (collLaunch s (descOfKey e.1) e.2)).isSome).length

/-- The vote and the write of the commit record are the chip bench's own (R30). -/
def chipOnly : LaunchId → Bool
  | .vote _ | .commit _ => true
  | _ => false

/-- COMPARATOR_ARM: a launch goes into a comparator at least 1,563 ticks before its mark; its descriptor is armed (R392). -/
def comparatorArm (p : Panel) (a : LaunchId) (s : State) : State :=
  match launchMark s a with
  | none => s
  | some (m, d) =>
    if (chipOnly a && decide (p ≠ 0)) || ((launchColl s a).isSome && decide (16 ≤ collsActive s)) then s
    else
      let (s, ok) := armOn (checkAligned s) p (launchName s a) m
      if ok then updDesc s d fun x => { x with armed := true } else s

def execComparatorArm (p : Panel) (a : LaunchId) (s : State) : Host.Outcome State Fault Refusal := .next (comparatorArm p a s)

/-- A commit whose action cannot be armed any more is refused: it was not resolved in time (R282, R283). -/
def missCommit (s : State) (j : Job) : State :=
  match (s.job j).commit with
  | some c =>
    let s := raiseEv s evCommitUnresolved (srcBench 0) [] (some (s.job j).ctx) (jobField j)
    refuseCommit s j { c with action := .discard, reasons := c.reasons ||| 16 }
  | none => s

/-- LAUNCH_MISSED: a launch that is in no comparator and can no longer be armed. -/
def launchMissed (a : LaunchId) (s : State) : State :=
  match launchMark s a with
  | none => s
  | some (m, d) =>
    if (findArmed s (launchName s a)).isSome || armable s m then s
    else match a with
      | .coll _ | .watchColl _ | .vote _ => match launchColl s a with
        | some (q, x) => missColl s q x
        | none => s
      | .commit j => missCommit s j
      | .snapshot j => missPoint s j
      | .routeEpoch j => match (s.job j).change with
        | some c => if c.desc = d then missEpoch s j c else s
        | none => s
      | .drill => s

def execLaunchMissed (a : LaunchId) (s : State) : Host.Outcome State Fault Refusal := .next (launchMissed a s)

end Sys2Proof.Machine
end

