-- ==== Sys2Proof/Machine/Power.lean ====
section
/-!
DEFINITION. Power, supply sag, temperature and drills (R452 to R468), the pins PERST# and FLASH_WP# (R502, R504), and what a
drop of PWR_GOOD leaves (R440, R454, R462).
-/

namespace Sys2Proof.Machine

open Sys2Proof

def updPwr (s : State) (g : PwrState → PwrState) : State := { s with pwr := g s.pwr }

/-! ### The input voltage, in 1/256 V -/

/-- Tenths of a volt as the VIN field counts. -/
def volts10 (n : Nat) : Nat := n * 256 / 10

/-- Entry and exit voltages of the stages 1 to 5 (R458). -/
def sagEntry (k : Nat) : Nat := volts10 ([0, 510, 495, 480, 465, 450].getD k 0)
def sagExit (k : Nat) : Nat := volts10 ([0, 515, 500, 485, 470, 455].getD k 0)

def State.sagState (s : State) (k : Nat) : StageState := tabGet {} s.pwr.sag k
def setSag (s : State) (k : Nat) (x : StageState) : State := updPwr s fun p => { p with sag := tabSet {} p.sag k x }

/-- The input within 48.0 V to 56.0 V (R452). -/
def vinGood (v : Nat) : Bool := decide (volts10 480 ≤ v ∧ v ≤ volts10 560)

/-- The samples that the last millisecond still needs: those in it and the newest before it. -/
def keepRecent (s : State) : List SagSample → List SagSample
  | [] => []
  | x :: t => if elapsed s x.time (msTicks 1) then [x] else x :: keepRecent s t

/-- Notes the input voltage and the temperatures as they stand from now on (R439, R468). -/
def noteSample (s : State) : State :=
  updPwr s fun p => { p with samples := keepRecent s (⟨s.now, p.vin, p.sensors.map fun e => (e.1, e.2.celsius)⟩ :: p.samples) }

/-- The sum of the input voltage over the ticks from t0 to end of a list of samples, newest first; before the oldest it stood as
there. -/
def sumVin (t0 : Nat) : Nat → List SagSample → Nat
  | _, [] => 0
  | top, [x] => x.vin * (top - t0)
  | top, x :: t => if x.time ≤ t0 then x.vin * (top - t0) else x.vin * (top - x.time) + sumVin t0 (min top x.time) t

/-- The input voltage averaged over the last 100 µs (R468). -/
def vinMean (s : State) : Nat :=
  if s.pwr.samples = [] ∨ s.now = 0 then s.pwr.vin else sumVin (s.now - 15625) s.now s.pwr.samples / min 15625 (max 1 s.now)

/-- The input stands at a voltage from now on: the times in which a stage may be left, and the module started, begin or end. -/
def setVin (s : State) (v : Nat) : State :=
  let good := fun (b : Bool) (t : Option Nat) => if b then some (t.getD s.now) else none
  let s' := noteSample (updPwr s fun p => { p with vin := v, vinGoodSince := good (vinGood v) p.vinGoodSince })
  (rangeFrom 1 5).foldl (fun s k => let x := s.sagState k
    if x.inForce then setSag s k { x with goodSince := good (decide (sagExit k ≤ v)) x.goodSince } else s) s'

/-! ### A write of the flash that is cut off (R486) -/

/-- The flash job ends before its time: what it was to write is torn. -/
def tearFlash (s : State) : State :=
  match s.sec.flashJob with
  | some j =>
    let torn := (rangeFrom s.free j.data.length).map fun i => (Config.freeWord i).setWidth 8
    { s with
      free := s.free + j.data.length, mem := { s.mem with flash := writeBytes s.mem.flash j.base torn }
      sec := { s.sec with flashJob := none } }
  | none => s

/-! ### What a drop of PWR_GOOD leaves (R440, R454, R462) -/

/-- PWR_GOOD is dropped: transmitters idle, and everything is lost but flash and fuses. -/
def dropGood (s : State) : State :=
  if s.pwr.pwrGood then
    let s := tearFlash s
    let up := (s.lnk.links.filter fun e => e.2.phase != .off).map Prod.fst
    let s := up.foldl (fun s k => if h : k < 32 then s.emit (.idle ⟨k, h⟩) else s) s
    { pending := s.pending, free := s.free, out := s.out
      mem := { flash := s.mem.flash, host := s.mem.host }
      gau := { edges := s.gau.edges }
      sec := { fuses := s.sec.fuses }
      pwr := { vin := s.pwr.vin, pwrGood := false, powerOffAt := some s.now
               vinGoodSince := if vinGood s.pwr.vin then some s.now else none, perst := s.pwr.perst, flashWp := s.pwr.flashWp
               samples := s.pwr.samples } }
  else s

/-- A command of the supply or of the sensors: without power only the input voltage is seen. -/
def powered (s : State) (g : State → State) : State := if s.pwr.pwrGood then g s else s

/-! ### Stage 5 (R461) -/

/-- The devices of every panel go into self-refresh, or leave it; those of controllers in reset stay in it (R302). -/
def selfRefreshAll (on : Bool) (s : State) : State :=
  ([0, 1, 2, 3] : List Panel).foldl (fun s p =>
    s.setMemCtl p { s.memCtl p with selfRefresh := on || (s.memCtl p).inReset }) s

/-- Some source holds the module at stage 5. -/
def atFive (s : State) : Bool := 5 ≤ sagStage s || 5 ≤ moduleThermal s

/-- The entry into stage 5: SAG_CRASH, the RUNG 6 dump, self-refresh; its end brings the devices back. -/
def judgeFive (s : State) : State :=
  if atFive s && !s.pwr.stage5 then
    let s := scanRings (raiseEv s evSagCrash srcModule [bnat (!decide (5 ≤ sagStage s))])
    let s := writeDump s 6 0 evSagCrash srcModule (sagSects s)
    selfRefreshAll true (updPwr s fun p => { p with stage5 := true })
  else if !atFive s && s.pwr.stage5 then
    let s := selfRefreshAll false (updPwr s fun p => { p with stage5 := false })
    ([0, 1, 2, 3] : List Panel).foldl copyShadow s
  else s

/-- After a change of stages or caps: stage 5, the clocks, and the windows of panels that take up work again; s0 is the state
before the change. -/
def settleStages (s0 s : State) : State :=
  let s := retuneAll (judgeFive s)
  ([0, 1, 2, 3] : List Panel).foldl (fun s p => if noNewWork s0 p && !noNewWork s p then restartPanel s p else s) s

/-! ### Supply sag (R458, R459) -/

/-- Counts an entry into supply-sag stage k: 16 bits for stages 1 to 4, 32 bits for stage 5. -/
def countSag (s : State) (k : Nat) : State :=
  updPwr s fun p => { p with sagCnt := tabSet 0 p.sagCnt k (min (tabGet 0 p.sagCnt k + 1) (if k = 5 then 2 ^ 32 - 1 else 2 ^ 16 - 1)) }

/-- Every stage whose entry voltage the input has fallen below enters. -/
def enterSag (v : Nat) (s : State) : State :=
  (rangeFrom 1 5).foldl (fun s k =>
    if v < sagEntry k ∧ (s.sagState k).inForce = false then countSag (setSag s k { inForce := true }) k else s) s

/-- SAG_STAGE_ENTER: below 44.0 V PWR_GOOD is dropped. -/
def sagStageEnter (v : Nat) (s : State) : State :=
  if v < volts10 440 then dropGood (setVin s v)
  else if s.pwr.pwrGood then settleStages s (enterSag v (setVin s v))
  else setVin s v

def execSagStageEnter (vin : Nat) (s : State) : Host.Outcome State Fault Refusal := .next (sagStageEnter vin s)

/-- Leaves stages from k down while each has stood at or above its exit voltage for 1 ms. -/
def leaveSag : Nat → State → State
  | 0, s => s
  | k + 1, s =>
    let x := s.sagState (k + 1)
    if x.inForce then
      match x.goodSince with
      | some t => if elapsed s t (msTicks 1) then leaveSag k (setSag s (k + 1) {}) else s
      | none => s
    else leaveSag k s

def sagStageExit (v : Nat) (s : State) : State :=
  if s.pwr.pwrGood then settleStages s (leaveSag 5 (setVin s v)) else setVin s v

def execSagStageExit (vin : Nat) (s : State) : Host.Outcome State Fault Refusal := .next (sagStageExit vin s)

/-! ### Overvoltage, caps, rails, restart (R452, R453, R462) -/

def execOvervoltage (vin : Nat) (s : State) : Host.Outcome State Fault Refusal :=
  .next (if volts10 575 < vin then dropGood (setVin s vin) else setVin s vin)

/-- PEAK_CAP: the 100 µs average exceeds 1,900 W. -/
def peakCap (watts : Nat) (s : State) : State :=
  powered s fun s => if 1900 < watts then settleStages s (updPwr s fun p => { p with peakCap := true, peakBelow := none }) else s

def execPeakCap (watts : Nat) (s : State) : Host.Outcome State Fault Refusal := .next (peakCap watts s)

/-- PEAK_CAP_LIFT: the average stands at or below 1,900 W; after 1 ms of it the cap is lifted. -/
def peakCapLift (watts : Nat) (s : State) : State :=
  powered s fun s =>
    if s.pwr.peakCap ∧ watts ≤ 1900 then
      let t := s.pwr.peakBelow.getD s.now
      if elapsed s t (msTicks 1) then settleStages s (updPwr s fun p => { p with peakCap := false, peakBelow := none })
      else updPwr s fun p => { p with peakBelow := some t }
    else if 1900 < watts then updPwr s fun p => { p with peakBelow := none }
    else s

def execPeakCapLift (watts : Nat) (s : State) : Host.Outcome State Fault Refusal := .next (peakCapLift watts s)

def excursionCap (usAbove : Nat) (s : State) : State :=
  if benchUp s = false then s else if 9000 ≤ usAbove then settleStages s (updPwr s fun p => { p with excursionCap := true }) else s

def execExcursionCap (usAbove : Nat) (s : State) : Host.Outcome State Fault Refusal := .next (excursionCap usAbove s)

def excursionLift (usAbove : Nat) (s : State) : State :=
  if benchUp s = false then s else if usAbove ≤ 5000 then settleStages s (updPwr s fun p => { p with excursionCap := false }) else s

def execExcursionLift (usAbove : Nat) (s : State) : Host.Outcome State Fault Refusal := .next (excursionLift usAbove s)

def execRailFault (_r : Rail) (s : State) : Host.Outcome State Fault Refusal := .next (dropGood s)

def execPwrGoodDrop (s : State) : Host.Outcome State Fault Refusal := .next (dropGood s)

/-- POWER_RESTART: an input below the entry voltage of a stage finds that stage in force (R458); the input has stood in its operating range for 10 ms, and as long since PWR_GOOD was dropped. -/
def powerRestart (vin : Nat) (s : State) : State :=
  if s.pwr.pwrGood then s
  else
    let s := setVin s vin
    match s.pwr.vinGoodSince, s.pwr.powerOffAt with
    | some t, some o =>
      if elapsed s (max t o) (msTicks 10) then
        let s := trainChannels (updPwr s fun p => { p with pwrGood := true, powerOffAt := none })
        let s := ([0, 1, 2, 3] : List Panel).foldl (fun s p =>
          s.setPanel p { s.panel p with wdog := s.now, resetAt := s.now, cycAt := s.now, cycBase := 0 }) s
        snapAll (enterSag vin s)
      else s
    | _, _ => s

def execPowerRestart (vin : Nat) (s : State) : Host.Outcome State Fault Refusal := .next (powerRestart vin s)

/-! ### The power limit (R457) -/

/-- The panel that draws the most among those whose matrix point can go lower, the lower number on ties. -/
def heaviest (s : State) (d : List Nat) : Option Panel :=
  ([0, 1, 2, 3] : List Panel).foldl (fun m p =>
    if (limitPoint s p).val < 4 then match m with
      | none => some p
      | some q => if nth d q.val < nth d p.val then some p else m
    else m) none

/-- The lowest panel below P0 that a raise does not bring above the cap of its stage. -/
def raisable (s : State) : Option Panel :=
  ([0, 1, 2, 3] : List Panel).find? fun p =>
    decide (0 < (limitPoint s p).val ∧ (stageCaps (stageIn s p)).2.val ≤ (limitPoint s p).val - 1)

def setLimitPoint (s : State) (p : Panel) (n : Nat) : State :=
  updPwr s fun x => { x with limitOp := tabSet 0 x.limitOp p.val (Fin.ofNat 5 n) }

/-- One step of the limit control, every 100 µs: the input power over 1 ms and the draw of each panel. -/
def limitStep (w : Nat) (d : List Nat) (s : State) : State :=
  let s := updPwr s fun p => { p with
    pin := w, panelW := (rangeFrom 0 4).foldl (fun t k => tabSet 0 t k (nth d k)) p.panelW }
  let lim := s.pwr.limit
  if lim < w then
    let s := updPwr s fun p => { p with belowSince := none }
    match heaviest s d with
    | some p => retuneAll (setLimitPoint s p ((limitPoint s p).val + 1))
    | none => s
  else if w + 50 < lim then
    let t := s.pwr.belowSince.getD s.now
    if elapsed s t (msTicks 1) then
      match raisable s with
      | some p => retuneAll (setLimitPoint (updPwr s fun p => { p with belowSince := some s.now }) p ((limitPoint s p).val - 1))
      | none => updPwr s fun p => { p with belowSince := some t }
    else updPwr s fun p => { p with belowSince := some t }
  else updPwr s fun p => { p with belowSince := none }

def execPowerLimitStep (watts d0 d1 d2 d3 : Nat) (s : State) : Host.Outcome State Fault Refusal :=
  .next (if benchUp s then limitStep watts [d0, d1, d2, d3] s else s)

/-! ### Temperature (R464, R465) -/

/-- The thresholds of the stages 1 to 5 and of the hardware trip; none for the coolant. -/
def tempSteps : Sensor → List Int
  | .junction _ _ | .link _ _ => [95, 100, 105, 110, 115, 125]
  | .gddr _ => [90, 93, 95, 98, 100, 105]
  | .stage _ => [105, 110, 115, 120, 125, 130]
  | .inlet | .outlet => []

/-- The stage whose threshold a temperature has reached. -/
def tempStage (x : Sensor) (c : Int) : Nat := ((tempSteps x).take 5).foldl (fun n t => if t ≤ c then n + 1 else n) 0

def State.sensor (s : State) (x : Sensor) : SensorState := tabGet {} s.pwr.sensors (sensorKey x)
def setSensor (s : State) (x : Sensor) (v : SensorState) : State :=
  updPwr s fun p => { p with sensors := tabSet {} p.sensors (sensorKey x) v }

/-- By stage, since when the sensor has stood 5 degrees below its threshold. -/
def coolTimes (now : Nat) (x : Sensor) (c : Int) (t : Tab Nat) : Tab Nat :=
  (rangeFrom 1 5).filterMap fun k =>
    if c ≤ (tempSteps x).getD (k - 1) 0 - 5 then some (k, (tabFind t k).getD now) else none

def sampleOne (s : State) (m : SensorSample) : State :=
  let v := s.sensor m.sensor
  setSensor s m.sensor { celsius := m.celsius, stage := max v.stage (tempStage m.sensor m.celsius)
                         cool := if tempSteps m.sensor = [] then [] else coolTimes s.now m.sensor m.celsius v.cool }

/-- Counts the rise of the module's highest thermal stage, once for each stage it enters (R468). -/
def countTherm (old : Nat) (s : State) : State :=
  (rangeFrom (old + 1) (moduleThermal s - old)).foldl (fun s k =>
    updPwr s fun p => { p with thermCnt := tabSet 0 p.thermCnt k (min (tabGet 0 p.thermCnt k + 1) (if k = 5 then 2 ^ 32 - 1 else 2 ^ 16 - 1)) }) s

/-- THERM_TRIP# follows the sensors (R465). -/
def judgeTrip (s : State) : State := updPwr s fun p => { p with thermTrip := decide (5 ≤ moduleThermal s) }

/-- THERMAL_SAMPLE: every sensor given is read. -/
def thermalSample (l : List SensorSample) (s : State) : State :=
  powered s fun s => settleStages s (judgeTrip (countTherm (moduleThermal s) (noteSample (l.foldl sampleOne s))))

def execThermalSample (samples : List SensorSample) (s : State) : Host.Outcome State Fault Refusal := .next (thermalSample samples s)

/-- Leaves stages from k down while the sensor has stood 5 degrees below each for 10 ms. -/
def coolDown (s : State) (v : SensorState) : Nat → Nat
  | 0 => 0
  | k + 1 =>
    match tabFind v.cool (k + 1) with
    | some t => if elapsed s t (msTicks 10) then coolDown s v k else k + 1
    | none => k + 1

/-- THERMAL_STAGE_EXIT. -/
def thermalStageExit (x : Sensor) (s : State) : State :=
  powered s fun s =>
    let v := s.sensor x
    settleStages s (judgeTrip (setSensor s x { v with stage := coolDown s v v.stage }))

def execThermalStageExit (x : Sensor) (s : State) : Host.Outcome State Fault Refusal := .next (thermalStageExit x s)

/-- HARDWARE_TRIP: at its trip temperature a sensor drops PWR_GOOD. -/
def hardwareTrip (x : Sensor) (celsius : Int) (s : State) : State :=
  match (tempSteps x)[5]? with
  | some t => if t ≤ celsius then dropGood s else s
  | none => s

def execHardwareTrip (x : Sensor) (celsius : Int) (s : State) : Host.Outcome State Fault Refusal := .next (hardwareTrip x celsius s)

/-! ### Drills (R466) -/

/-- A write of PWR.DRILLCTL: DSTAGE and LENGTH are stored; ARM arms the drill at MARK. -/
def drillCtl (v : W64) (s : State) : State :=
  let st := min 4 (v.extractLsb' 0 3).toNat
  let s := updPwr s fun p => { p with dstage := BitVec.ofNat 3 st, drillLen := v.extractLsb' 8 24 }
  if v.getLsbD 32 && st != 0 then
    let (s, ok) := armOn (checkAligned s) 0 .drill s.pwr.drillMark.toNat
    if ok then updPwr s fun p => { p with armedStage := p.dstage, armedLen := p.drillLen }
    else updPwr s fun p => { p with drillMissed := sat32 (p.drillMissed + 1) }
  else s

def execDrillArm (v : W64) (s : State) : Host.Outcome State Fault Refusal := .next (hostWrite s (drillCtl v))

/-- DRILL_START: at its mark, aligned or not (R512). -/
def drillStart (s : State) : State :=
  match findArmed s .drill with
  | some (_, c) =>
    if fires s .drill then
      settleStages s (updPwr (disarm s .drill) fun p => { p with
        drillOn := true, drillFrom := c.mark, runStage := p.armedStage, runLen := p.armedLen, drills := sat32 (p.drills + 1) })
    else s
  | none => s

def execDrillStart (s : State) : Host.Outcome State Fault Refusal := .next (drillStart s)

/-- DRILL_END: at MARK + LENGTH the drill's stage is removed at once. -/
def drillEnd (s : State) : State :=
  if s.pwr.drillOn && decide (s.pwr.drillFrom.toNat + s.pwr.runLen.toNat ≤ s.gau.count.toNat) then
    settleStages s (updPwr s fun p => { p with drillOn := false })
  else s

def execDrillEnd (s : State) : Host.Outcome State Fault Refusal := .next (drillEnd s)

/-! ### Pins (R502, R504) -/

/-- PERST_ASSERT: the CXL port is held in reset, as with the link down (R396). -/
def execPerstAssert (s : State) : Host.Outcome State Fault Refusal :=
  .next { s with pwr := { s.pwr with perst := true }, qmg := { s.qmg with cxlUp := false, portUp := false } }

def execPerstDeassert (s : State) : Host.Outcome State Fault Refusal := .next { s with pwr := { s.pwr with perst := false } }

end Sys2Proof.Machine
end

