-- ==== Sys2Proof/Machine/Boot.lean ====
section
/-!
DEFINITION. Boot: stage images and selectors (R470 to R475), the protection configuration and its lock (R476 to R479), the
measurements (R482).
-/

namespace Sys2Proof.Machine

open Sys2Proof

def updSec (s : State) (g : SecState → SecState) : State := { s with sec := g s.sec }

/-- n bytes of flash. -/
def flashBytes (s : State) (a n : Nat) : List Byte := readBytes s.mem.flash a n
def flashNat (s : State) (a n : Nat) : Nat := readNat s.mem.flash a n
def flashWrite (s : State) (a : Nat) (l : List Byte) : State :=
  { s with mem := { s.mem with flash := writeBytes s.mem.flash a l } }

/-! ### Fuses (R471, R474, R476) -/

/-- The fused SVN: the blown bits of the rollback row. -/
def svnFused (x : Fuses) : Nat := ((List.range 64).filter fun i => x.svn.getLsbD i).length

/-- Blows bits of the rollback row, the lowest first, until n are blown. -/
def blowSvn (n : Nat) (v : W64) : W64 :=
  (List.range 64).foldl (fun v i =>
    if ((List.range 64).filter fun i => v.getLsbD i).length < n then v ||| BitVec.twoPow 64 i else v) v

/-! ### The identity area (R472, R481) -/

def identityBase : Nat := 0x03F00000
def identityBytes : Nat := 512 * 1024

/-! ### Stages (R471) -/

def slotBase (b : Bool) : Nat := if b then 0x01F00000 else 0x00100000
def slotBytes : Nat := 30 * 2 ^ 20

/-- Body bytes of the stage image at a place. -/
def stageLen (s : State) (a : Nat) : Nat := flashNat s (a + 16) 8

/-- The stage image at a place passes R471 as a stage of number n; it lies wholly in its slot, which ends at lim. -/
def stageOk (s : State) (a lim n : Nat) : Bool :=
  let slot := flashNat s (a + 5) 1
  let modulus := flashBytes s (a + 128) 512
  decide (a + 1152 + stageLen s a ≤ lim)
  && flashNat s a 4 == 0x48535A50 && flashNat s (a + 4) 1 == n && decide (slot < 4)
  && tabFind s.sec.fuses.root slot == some (sha512 modulus) && !s.sec.fuses.revoked.getLsbD slot
  && decide (svnFused s.sec.fuses ≤ flashNat s (a + 12) 4)
  && sha512 (flashBytes s (a + 1152) (stageLen s a)) == flashBytes s (a + 32) 64
  && rsaOk modulus (flashBytes s a 640) (flashBytes s (a + 640) 512)

/-- Where the stages of a slot begin: one behind the other from the slot's start on (log entry 54). -/
def stagePlaces (s : State) (b : Bool) : List Nat :=
  let a := slotBase b
  let c := a + 1152 + stageLen s a
  [a, c, c + 1152 + stageLen s c]

/-- Every stage of a slot passes. -/
def slotOk (s : State) (b : Bool) : Bool :=
  let lim := slotBase b + slotBytes
  (List.zip (stagePlaces s b) [1, 2, 3]).all fun x => stageOk s x.1 lim x.2

/-! ### Selectors (R473) -/

def selBase (one : Bool) : Nat := if one then 0x1000 else 0

/-- A selector copy; none where its CRC fails. -/
def readSel (s : State) (one : Bool) : Option Selector :=
  let a := selBase one
  let w := flashNat s (a + 8) 8
  if (crc32c (flashBytes s a 56)).toNat = flashNat s (a + 56) 8 then
    let x : Selector := { seq := BitVec.ofNat 64 (flashNat s a 8), active := bit w 0, try_ := bit w 1, attempted := bit w 2 }
    some x
  else none

def selBytes (x : Selector) : List Byte :=
  let w := wordBytes [x.seq.toNat, bnat x.active + 2 * bnat x.try_ + 4 * bnat x.attempted, 0, 0, 0, 0, 0]
  w ++ leBytes 8 (crc32c w).toNat

/-- The selector in force, and its copy. -/
def selInForce (s : State) : Option (Bool × Selector) :=
  match readSel s false, readSel s true with
  | some a, some b => if a.seq.toNat < b.seq.toNat then some (true, b) else some (false, a)
  | some a, none => some (false, a)
  | none, some b => some (true, b)
  | none, none => none

/-- A new selector goes over the copy that is not in force, with the next SEQ. -/
def writeSel (s : State) (active try_ attempted : Bool) : State :=
  match selInForce s with
  | some (one, x) => flashWrite s (selBase !one) (selBytes { seq := x.seq + 1, active := active, try_ := try_, attempted := attempted })
  | none => flashWrite s 0 (selBytes { seq := 1, active := active, try_ := try_, attempted := attempted })

/-- The slot that the selector names; slot A where none is valid. -/
def namedSlot (s : State) : Bool :=
  match selInForce s with
  | some (_, x) => x.active
  | none => false

/-- The module as R4 says that it is delivered, at its first power-on: both slots hold the factory bundle, slot A is marked
active, the identity is fused, its chain stands in fuses and flash. The bytes are open; State.reset itself leaves the flash
blank (log entry 1). -/
def State.delivered : State :=
  let s := flashWrite (flashWrite State.reset (slotBase false) Config.factoryBundle) (slotBase true) Config.factoryBundle
  let s := writeSel (flashWrite s identityBase (Config.factoryChain.take identityBytes)) false false false
  updSec s fun x => { x with fuses := { x.fuses with
    root := [(0, Config.factoryRootKey 0), (1, Config.factoryRootKey 1)], secret := Config.factorySecret, certDigest := Config.factoryCertDigest } }

/-! ### Measurements (R482) -/

def setMeas (s : State) (i : Nat) (l : List Byte) : State := updSec s fun x => { x with meas := tabPut x.meas i l }

/-- The stepping and bundle fields of GLB.ID: PZ4C at C0, both link dies at B1 (R1, R493). -/
def glbId (s : State) : Nat := 0xC0 + 2 ^ 8 * 0xB1 + 2 ^ 16 * 0xB1 + 2 ^ 32 * s.sec.fwVersion.toNat

/-- The raw measurements 6 to 8; their layout is the model's (log entry 59). -/
def rawMeas (s : State) : Nat → List Byte
  | 6 => [BitVec.ofNat 8 (bnat s.sec.debugOpen + 2 * bnat s.sec.lock + 4 * bnat s.sec.fwFallback + 8 * bnat s.sec.cfgFallback),
          s.sec.fuses.revoked.setWidth 8]
  | 7 => leBytes 8 (glbId s)
  | 8 => [BitVec.ofNat 8 (svnFused s.sec.fuses), s.sec.fwSvn.setWidth 8]
  | _ => []

/-- The type of a measurement in the DMTF format: ROM, firmware, firmware configuration, device mode, hardware configuration,
security version; bit 7 marks a raw value (log entry 124, PRESUMED). -/
def measType (i : Nat) : Nat := [0x00, 0x00, 0x01, 0x01, 0x01, 0x03, 0x85, 0x82, 0x87].getD i 0

/-- A measurement block in the DMTF format: index, specification 1, size; type, size, value (R482; log entry 124). -/
def dmtfBlock (i : Nat) (v : List Byte) : List Byte :=
  [BitVec.ofNat 8 i, 1] ++ leBytes 2 (v.length + 3) ++ [BitVec.ofNat 8 (measType i)] ++ leBytes 2 v.length ++ v

/-- The value of a measurement. -/
def measValue (s : State) (i : Nat) : List Byte :=
  if i = 1 then Config.plinthDigest
  else if i = 5 then (tabFind s.sec.meas 5).getD (List.replicate 64 0)
  else if i ≤ 4 then (tabFind s.sec.meas i).getD [] else rawMeas s i

/-! ### PLINTH_BOOT (R470 to R475) -/

/-- The rung in progress is done: the host mailbox answers (R426). -/
def mailUp (s : State) : State := dropRung s .chip

/-- The body of the stage at a place, and where in its destination it is loaded. -/
def stageBody (s : State) (a : Nat) : List Byte := flashBytes s (a + 1152) (stageLen s a)
def stageLoad (s : State) (a : Nat) : Nat := flashNat s (a + 24) 8

/-- The stages of a slot are loaded (R470): boot code into the SRAM of the security block, the bench controllers' firmware into the
reserved 4 MiB of each panel (what does not fit is left out), the link dies' firmware into both. -/
def loadStages (s : State) (b : Bool) : State :=
  let at_ := fun i => nth (stagePlaces s b) i
  let bench := (stageBody s (at_ 1)).take (2 ^ 22 - stageLoad s (at_ 1))
  let m := s.mem
  { s with mem := { m with
      secSram := writeBytes m.secSram (stageLoad s (at_ 0)) (stageBody s (at_ 0))
      pstore := ([0, 1, 2, 3] : List Panel).foldl (fun t p => writeBytes t (pstoreAddr p (pstoreSoft + stageLoad s (at_ 1))) bench) m.pstore
      linkFw := ([0, 1] : List Die).foldl (fun t d => writeBytes t (2 ^ 64 * d.val + stageLoad s (at_ 2)) (stageBody s (at_ 2))) m.linkFw } }

/-- The root key slots that a stage 1 revokes: only lower ones than its own (R471; log entry 92). -/
def revoke (s : State) (a : Nat) : State :=
  let own := flashNat s (a + 5) 1
  updSec s fun x => { x with fuses := { x.fuses with
    revoked := x.fuses.revoked ||| (Config.stageRevokes (flashBytes s (a + 32) 64) &&& BitVec.ofNat 4 (2 ^ own - 1)) } }

/-- Boots a slot that has passed. -/
def runSlot (s : State) (b fallback onTrial : Bool) : State :=
  let s := revoke (loadStages s b) (slotBase b)
  let a := slotBase b
  let s := updSec s fun x => { x with
    boot := .checking, slotB := b, fwFallback := fallback, tryRun := onTrial
    fwVersion := BitVec.ofNat 32 (flashNat s (a + 8) 4), fwSvn := BitVec.ofNat 7 (flashNat s (a + 12) 4) }
  (List.zip [2, 3, 4] (stagePlaces s b)).foldl (fun s x =>
    setMeas s x.1 (sha512 (flashBytes s x.2 (1152 + stageLen s x.2)))) s

/-- Boots the named slot, else the other, else enters recovery; FW_FALLBACK is set where the named slot fails. -/
def bootSlots (s : State) (b fallback onTrial : Bool) : State :=
  if slotOk s b then runSlot s b fallback onTrial
  else if slotOk s (!b) then runSlot s (!b) true false
  else mailUp (updSec s fun x => { x with boot := .recovery, fwFallback := true })

def plinthBoot (s : State) : State :=
  if s.pwr.pwrGood && s.sec.boot == .reset then
    match selInForce s with
    | none => bootSlots (writeSel s false false false) false true false
    | some (_, x) =>
      if x.try_ && !x.attempted then bootSlots (writeSel s x.active true true) x.active false true
      else if x.try_ then bootSlots (writeSel s (!x.active) false false) (!x.active) false false
      else bootSlots s x.active false false
  else s

def execPlinthBoot (s : State) : Host.Outcome State Fault Refusal := .next (plinthBoot s)

/-! ### The protection configuration (R476, R477) -/

def blobBytes : Nat := 10368

def blobNat (b : List Byte) (off n : Nat) : Nat := ofLE ((b.drop off).take n)
def blobPart (b : List Byte) (off n : Nat) : List Byte := (b.drop off).take n
def allZero (l : List Byte) : Bool := l.all (· == 0)

/-- Word 0 of the 64 regions. -/
def blobRegions (b : List Byte) : List Nat := (rangeFrom 0 64).map fun i => blobNat b (128 + 16 * i) 8
def regValid (r : Nat) : Bool := bit r 51
def regLo (r : Nat) : Nat := fld r 0 24 * 2 ^ 16
def regHi (r : Nat) : Nat := (fld r 24 24 + 1) * 2 ^ 16

/-- A valid region lies in one panel's data range and outside its reserve (R294, R298). -/
def regPlaced (r : Nat) : Bool :=
  decide (regLo r < regHi r) && decide (regHi r ≤ 4 * panelSpan) && decide (regLo r / panelSpan = (regHi r - 1) / panelSpan)
    && decide ((regHi r - 1) % panelSpan < reserveOff)

/-- No two valid regions of a list overlap. -/
def regsApart : List Nat → Bool
  | [] => true
  | r :: t => (t.all fun q => !regValid r || !regValid q || decide (regHi r ≤ regLo q ∨ regHi q ≤ regLo r)) && regsApart t

/-- A BIND mask names only valid regions. -/
def bindOk (rs : List Nat) (m : Nat) : Bool :=
  (List.zip (rangeFrom 0 64) rs).all fun x => !bit m x.1 || regValid x.2

/-- Content rules of R477. -/
def contentOk (b : List Byte) : Bool :=
  let rs := blobRegions b
  allZero (blobPart b 7 1) && allZero (blobPart b 24 40) && allZero (blobPart b 70 58)
    && ((rangeFrom 0 64).all fun i => allZero (blobPart b (136 + 16 * i) 8)) && (rs.all fun r => fld r 52 12 == 0)
    && (rs.all fun r => !regValid r || regPlaced r) && regsApart rs
    && ((rangeFrom 0 1024).all fun c => bindOk rs (blobNat b (1152 + 8 * c) 8))
    && decide (blobNat b 68 1 ≤ 1) && decide (blobNat b 69 1 ≤ 2)

/-- The first check of R477 that a blob fails: 1 LENGTH, 2 CRC, 3 OWNER, 4 SIGNATURE, 5 CONTENT; 0 where it passes. -/
def blobReason (s : State) (b : List Byte) : Nat :=
  let owner := tabFind s.sec.fuses.owner (blobNat b 6 1)
  if b.length ≠ blobBytes ∨ blobNat b 0 4 ≠ 0x47435A50 ∨ blobNat b 4 2 ≠ 1 ∨ blobNat b 8 4 ≠ blobBytes then 1
  else if blobNat b 12 4 ≠ (crc32c (b.drop 64)).toNat then 2
  else if 4 ≤ blobNat b 6 1 ∨ owner ≠ some (sha512 (blobPart b 9344 512)) then 3
  else if !rsaOk (blobPart b 9344 512) (b.take 9856) (b.drop 9856) then 4
  else if !contentOk b then 5
  else 0

def copyBase (one : Bool) : Nat := if one then 0x03E00000 else 0x03D00000
def flashBlob (s : State) (one : Bool) : List Byte := flashBytes s (copyBase one) blobBytes
def blobSeq (b : List Byte) : Nat := blobNat b 16 8

/-! ### CONFIG_LOCK (R477 to R479) -/

/-- Links that the locked mask does not enable go to OFF (R479). -/
def offDisabled (s : State) : State :=
  (List.finRange 32).foldl (fun s l => if linkEnabled s l || (s.link l).phase == .off then s else targetOff l s) s

/-- Boot code writes the accepted blob into the RWL fields, extends measurement 5, sets LOCK and releases the bench
controllers. -/
def lockConfig (s : State) (b : List Byte) : State :=
  let s := setMeas s 5 (sha512 b)
  let s := updSec s fun x => { x with
    boot := .locked, lock := true, cfgSeq := BitVec.ofNat 64 (blobSeq b)
    regions := (List.zip (rangeFrom 0 64) (blobRegions b)).foldl (fun t r => tabSet 0 t r.1 (BitVec.ofNat 64 r.2)) []
    bind := (rangeFrom 0 1024).foldl (fun t c => tabSet 0 t c (BitVec.ofNat 64 (blobNat b (1152 + 8 * c) 8))) []
    protDebug := BitVec.ofNat 8 (blobNat b 68 1), protIde := BitVec.ofNat 8 (blobNat b 69 1) }
  let s := { s with lnk := { s.lnk with enable := BitVec.ofNat 32 (blobNat b 64 4) } }
  let s := ([0, 1, 2, 3] : List Panel).foldl (fun s p => s.setPanel p { s.panel p with wdog := s.now }) s
  offDisabled (mailUp s)

/-- The configuration is refused: all 32 links go up to HOLD, and the mailbox answers. -/
def refuseConfig (s : State) : State :=
  let s := mailUp (updSec s fun x => { x with boot := .refused })
  (List.finRange 32).foldl (fun s l => targetHold l s) s

def configLock (s : State) : State :=
  if s.pwr.pwrGood && s.sec.boot == .checking && !s.sec.lock then
    let b0 := flashBlob s false
    let b1 := flashBlob s true
    let r0 := blobReason s b0
    let r1 := blobReason s b1
    let s := updSec s fun x => { x with cfgReason := BitVec.ofNat 3 (if r0 = 0 then r1 else r0), cfgFallback := (r0 = 0) != (r1 = 0) }
    if r0 = 0 ∧ (r1 ≠ 0 ∨ blobSeq b1 ≤ blobSeq b0) then lockConfig s b0
    else if r1 = 0 then lockConfig s b1
    else refuseConfig s
  else s

def execConfigLock (s : State) : Host.Outcome State Fault Refusal := .next (configLock s)

/-! ### Pins -/

/-- FLASH_WP_ASSERT: a write of the flash that runs stops, and its request answers WRITE_PROTECTED (R486). -/
def flashWpAssert (s : State) : State :=
  let s := updPwr s fun p => { p with flashWp := true }
  match s.sec.flashJob with
  | some j => (tearFlash s).emit (.mail j.tag 4 [])
  | none => s

def execFlashWpAssert (s : State) : Host.Outcome State Fault Refusal := .next (flashWpAssert s)

end Sys2Proof.Machine
end

