-- ==== Sys2Proof/Machine/Mailbox.lean ====
section
/-!
DEFINITION. The host mailbox (R480, R484, R486). A request that writes a slot or a blob copy runs on until the flash has taken it,
and a request that meets it is answered BUSY; the others are served at once (log entry 60).
-/

namespace Sys2Proof.Machine

open Sys2Proof

/-! ### Requests and responses -/

def mailOk : BitVec 16 := 0
def mailBad : BitVec 16 := 1
def mailDenied : BitVec 16 := 2
def mailFail : BitVec 16 := 3
def mailProtected : BitVec 16 := 4
def mailBusy : BitVec 16 := 5

/-- The 16 bytes of a request's header, by its CMD; and the Vendor ID register from which the object's vendor is read (R480). -/
def mailHeader (cmd : Nat) (r : MailRequest) : List Byte :=
  leBytes 2 cmd ++ leBytes 2 r.flags.toNat ++ leBytes 4 r.len.toNat ++ leBytes 4 r.tag.toNat ++ leBytes 4 r.reserved.toNat

/-- CMD of each request of the mailbox (R480). -/
def mailCmd : Instr → Option Nat
  | .status _ => some 1
  | .configLoad _ => some 2
  | .fwWrite _ => some 3
  | .fwActivate _ => some 4
  | .fwConfirm _ => some 5
  | .ownerFuse _ => some 6
  | .debugToken _ => some 7
  | .reboot _ => some 8
  | _ => none

/-- A 32-bit word of the CXL.io configuration space, and its Vendor ID register (R366, R480; log entry 123). -/
def cfgRead (off : Nat) : W32 := Config.configWord (off / 4)
def vendorId : BitVec 16 := (cfgRead 0).setWidth 16

/-- The header of the DOE data object that carries a request of n bytes: vendor, type, length in words (R480; log entry 123). -/
def doeHeader (n : Nat) : List Byte :=
  leBytes 2 vendorId.toNat ++ [Config.mailType, 0] ++ leBytes 4 (2 + ceilDiv n 4)

/-- A response: it echoes TAG. -/
def answer (s : State) (r : MailRequest) (result : BitVec 16) (payload : List Byte := []) : State :=
  s.emit (.mail r.tag result payload)

/-- The mailbox answers: after the lock, in refusal, in recovery (R475, R479, R505). -/
def mailAnswers (s : State) : Bool :=
  hostUp s && !rungOn s .chip && (s.sec.boot == .locked || s.sec.boot == .refused || s.sec.boot == .recovery)

/-- A request whose length or reserved bytes do not fit. -/
def mailForm (r : MailRequest) : Bool := r.len.toNat == r.payload.length && r.reserved == 0

/-- A request that recovery serves or not, in a form that the mailbox takes. -/
def mailbox (recovery : Bool) (r : MailRequest) (g : State → State) (s : State) : State :=
  if !mailAnswers s then s
  else if s.sec.flashJob.isSome then answer s r mailBusy
  else if !mailForm r then answer s r mailBad
  else if s.sec.boot == .recovery && !recovery then answer s r mailDenied
  else g s

/-! ### STATUS (R480, R485) -/

/-- CFG_STATE. -/
def cfgState : BootPhase → Nat
  | .locked => 1
  | .refused => 2
  | _ => 0

/-- SEC.BOOTSTAT. -/
def bootStat (s : State) : Nat :=
  let x := s.sec
  bnat x.slotB + 2 * bnat x.fwFallback + 4 * bnat x.tryRun + 8 * cfgState x.boot + 32 * x.cfgReason.toNat
    + 256 * bnat x.cfgFallback + 512 * bnat x.lock + 1024 * bnat x.debugOpen + 2048 * bnat s.pwr.flashWp + 4096 * svnFused x.fuses

/-- SEC.FWVER. -/
def fwVer (s : State) : Nat := s.sec.fwVersion.toNat + 2 ^ 32 * s.sec.fwSvn.toNat

/-- A fresh nonce of 256 bits. -/
def freshNonce (n : Nat) : BitVec 256 :=
  Config.freeWord n ++ Config.freeWord (n + 1) ++ Config.freeWord (n + 2) ++ Config.freeWord (n + 3)

/-- STATUS: the three registers, and the nonce that a DEBUG_TOKEN has to name (R484). -/
def mailStatus (r : MailRequest) (s : State) : State :=
  let n := freshNonce s.free
  let s := { updSec s fun x => { x with nonce := some n } with free := s.free + 4 }
  answer s r mailOk (wordBytes [bootStat s, fwVer s, s.sec.cfgSeq.toNat] ++ leBytes 32 n.toNat)

def execStatus (r : MailRequest) (s : State) : Host.Outcome State Fault Refusal := .next (mailbox true r (mailStatus r) s)

/-! ### CONFIG_LOAD -/

/-- The copy that does not hold the SEQ in force. -/
def spareCopy (s : State) : Bool :=
  blobSeq (flashBlob s false) == s.sec.cfgSeq.toNat && blobReason s (flashBlob s false) == 0

/-- A write of the flash for a request begins; refused while FLASH_WP# is asserted. It ends by itself (flashTick), or is cut off. -/
def beginFlash (r : MailRequest) (base : Nat) (data : List Byte) (s : State) : State :=
  if s.pwr.flashWp then answer s r mailProtected
  else { updSec s fun x => { x with flashJob := some ⟨r.tag, base, data, s.now, Config.flashTicks s.free⟩ } with free := s.free + 1 }

/-- In a tick: the write of the flash that has taken its time is done, and its request answers. -/
def flashTick (s : State) : State :=
  match s.sec.flashJob with
  | some j =>
    if j.since + j.span < s.now then
      (flashWrite (updSec s fun x => { x with flashJob := none }) j.base j.data).emit (.mail j.tag mailOk [])
    else s
  | none => s

/-- Stores a blob into the spare copy, unless FLASH_WP# is asserted. -/
def storeBlob (r : MailRequest) (s : State) : State := beginFlash r (copyBase (spareCopy s)) r.payload s

def configLoad (r : MailRequest) (s : State) : State :=
  let store := r.flags.getLsbD 0
  let only := r.flags.getLsbD 1
  let reason := blobReason s r.payload
  if only then
    if reason ≠ 0 then answer (updSec s fun x => { x with cfgReason := BitVec.ofNat 3 reason }) r mailFail else storeBlob r s
  else if s.sec.boot ≠ .refused ∨ s.sec.lock = true then answer s r mailDenied
  else if reason ≠ 0 then answer (updSec s fun x => { x with cfgReason := BitVec.ofNat 3 reason }) r mailFail
  else
    let s := lockConfig (updSec s fun x => { x with cfgReason := 0 }) r.payload
    if store then storeBlob r s else answer s r mailOk

def execConfigLoad (r : MailRequest) (s : State) : Host.Outcome State Fault Refusal := .next (mailbox false r (configLoad r) s)

/-! ### Firmware (R473, R474, R475) -/

/-- The slot that FW_WRITE writes: the one that the selector does not name; in recovery FLAGS [0] can choose the named one (log
entry 61). -/
def writeSlot (s : State) (r : MailRequest) : Bool :=
  if s.sec.boot == .recovery && r.flags.getLsbD 0 then namedSlot s else !namedSlot s

/-- FW_WRITE: the payload's first eight bytes are the offset in the slot (log entry 61). -/
def fwWrite (r : MailRequest) (s : State) : State :=
  let off := blobNat r.payload 0 8
  let data := r.payload.drop 8
  if s.pwr.flashWp then answer s r mailProtected
  else if r.payload.length < 8 ∨ slotBytes < off + data.length then answer s r mailBad
  else beginFlash r (slotBase (writeSlot s r) + off) data s

def execFwWrite (r : MailRequest) (s : State) : Host.Outcome State Fault Refusal := .next (mailbox true r (fwWrite r) s)

/-- FW_ACTIVATE: a selector names the inactive slot, on trial. -/
def fwActivate (r : MailRequest) (s : State) : State :=
  let b := !namedSlot s
  if slotOk s b then answer (writeSel s b true false) r mailOk else answer s r mailFail

def execFwActivate (r : MailRequest) (s : State) : Host.Outcome State Fault Refusal := .next (mailbox true r (fwActivate r) s)

/-- FW_CONFIRM: TRY = 0; with ADVANCE the rollback row follows the running bundle. -/
def fwConfirm (r : MailRequest) (s : State) : State :=
  match selInForce s with
  | some (_, x) =>
    if x.try_ then
      let s := updSec (writeSel s x.active false false) fun y => { y with tryRun := false }
      let s := if r.flags.getLsbD 0 then
          updSec s fun y => { y with fuses := { y.fuses with svn := blowSvn y.fwSvn.toNat y.fuses.svn } } else s
      answer s r mailOk
    else answer s r mailDenied
  | none => answer s r mailDenied

def execFwConfirm (r : MailRequest) (s : State) : Host.Outcome State Fault Refusal := .next (mailbox false r (fwConfirm r) s)

/-! ### OWNER_FUSE: FLAGS [1:0] name the slot (log entry 61) -/

def ownerFuse (r : MailRequest) (s : State) : State :=
  let k := (r.flags.extractLsb' 0 2).toNat
  if s.sec.boot ≠ .refused ∨ (tabFind s.sec.fuses.owner k).isSome then answer s r mailDenied
  else if r.payload.length ≠ 512 then answer s r mailBad
  else answer (updSec s fun x => { x with fuses := { x.fuses with owner := tabPut x.fuses.owner k (sha512 r.payload) } }) r mailOk

def execOwnerFuse (r : MailRequest) (s : State) : Host.Outcome State Fault Refusal := .next (mailbox false r (ownerFuse r) s)

/-! ### The certificate chain (R481) -/

/-- Bytes of the DER sequence at a place of flash, its header included; none where there is none. -/
def derLen (s : State) (a : Nat) : Option Nat :=
  let l := flashNat s (a + 1) 1
  let k := l - 0x80
  if flashNat s a 1 ≠ 0x30 then none
  else if l < 0x80 then some (2 + l)
  else if 1 ≤ k ∧ k ≤ 4 then some (2 + k + ofBE (flashBytes s (a + 2) k))
  else none

/-- The chain and its device certificate: three certificates one behind the other. -/
def certChain (s : State) : Option (List Byte × List Byte) :=
  match derLen s identityBase with
  | none => none
  | some a => match derLen s (identityBase + a) with
    | none => none
    | some b => match derLen s (identityBase + a + b) with
      | none => none
      | some c =>
        if a + b + c ≤ identityBytes then
          some (flashBytes s identityBase (a + b + c), flashBytes s (identityBase + a + b) c)
        else none

/-- The chain, served only where the device certificate's digest is the fused one. -/
def servedChain (s : State) : Option (List Byte) :=
  match certChain s with
  | some (l, c) => if sha512 c = s.sec.fuses.certDigest then some l else none
  | none => none

/-! ### DEBUG_TOKEN (R484) -/

/-- A token passes: a Melrov root key has signed it, and it names the device and the nonce of the last STATUS. -/
def tokenOk (s : State) (t : List Byte) : Bool :=
  let slot := Config.tokenSlot t
  decide (slot < 4) && tabFind s.sec.fuses.root slot == some (sha512 (Config.tokenModulus t)) && !s.sec.fuses.revoked.getLsbD slot
    && rsaOk (Config.tokenModulus t) (Config.tokenSigned t) (Config.tokenSignature t)
    && ((certChain s).map fun c => Config.certSerial c.2) == some (Config.tokenSerial t)
    && s.sec.nonce == some (Config.tokenNonce t)

/-- Debug unlock: the identity key is sealed, the IDE keys are cleared. -/
def unlockDebug (s : State) : State :=
  updSec s fun x => { x with debugOpen := true, sealed_ := true, ideKeys := [], ioSecure := false, cmSecure := false }

def debugToken (r : MailRequest) (s : State) : State :=
  if s.sec.lock = false ∨ s.sec.protDebug ≠ 1 then answer s r mailDenied
  else if tokenOk s r.payload then answer (unlockDebug s) r mailOk
  else answer s r mailFail

def execDebugToken (r : MailRequest) (s : State) : Host.Outcome State Fault Refusal := .next (mailbox false r (debugToken r) s)

/-- REBOOT: the chip rung starts. -/
def mailReboot (r : MailRequest) (s : State) : State := startChip evResetChip srcModule (answer s r mailOk)

def execReboot (r : MailRequest) (s : State) : Host.Outcome State Fault Refusal := .next (mailbox true r (mailReboot r) s)

end Sys2Proof.Machine
end

