-- ==== Sys2Proof/Machine/Attest.lean ====
section
/-!
DEFINITION. The SPDM responder, its sessions, and CXL IDE (R481 to R484). A response is recorded as what it certifies and a
signature over it; the standard's framing of messages is left out (log entry 57).
-/

namespace Sys2Proof.Machine

open Sys2Proof

def spdmError (s : State) : State := s.emit (.spdm false [])
def spdmOk (s : State) (l : List Byte) : State := s.emit (.spdm true l)

/-- The responder answers while the mailbox does: both share one DOE. -/
def spdm (g : State → State) (s : State) : State := if mailAnswers s then g s else s

/-- A response with the module's signature over it; a sealed identity key signs nothing (R484). -/
def signed (s : State) (body : List Byte) : State :=
  if s.sec.sealed_ then spdmError s
  else spdmOk { s with free := s.free + 1 } (body ++ Config.identitySign s.free body)

/-! ### Identity -/

def execGetDigests (s : State) : Host.Outcome State Fault Refusal :=
  .next (spdm (fun s => match servedChain s with
    | some l => spdmOk s (sha512 l)
    | none => spdmError s) s)

def getCertificate (slot offset len : Nat) (s : State) : State :=
  match servedChain s with
  | some l => if slot = 0 ∧ offset < l.length then spdmOk s ((l.drop offset).take len) else spdmError s
  | none => spdmError s

def execGetCertificate (slot offset len : Nat) (s : State) : Host.Outcome State Fault Refusal :=
  .next (spdm (getCertificate slot offset len) s)

def challenge (slot : Nat) (nonce : BitVec 256) (s : State) : State :=
  match servedChain s with
  | some l => if slot = 0 then signed s (sha512 l ++ leBytes 32 nonce.toNat) else spdmError s
  | none => spdmError s

def execChallenge (slot : Nat) (nonce : BitVec 256) (s : State) : Host.Outcome State Fault Refusal := .next (spdm (challenge slot nonce) s)

/-- GET_MEASUREMENTS: one of the indices 1 to 8, signed. -/
def getMeasurements (i : Nat) (nonce : BitVec 256) (s : State) : State :=
  if 1 ≤ i ∧ i ≤ 8 then signed s (dmtfBlock i (measValue s i) ++ leBytes 32 nonce.toNat) else spdmError s

def execGetMeasurements (index : Nat) (nonce : BitVec 256) (s : State) : Host.Outcome State Fault Refusal :=
  .next (spdm (getMeasurements index nonce) s)

/-! ### Sessions -/

def findSession (s : State) (sid : W32) : Option Session := s.sec.sessions.find? fun x => x.sid == sid

def setSession (s : State) (x : Session) : State :=
  updSec s fun y => { y with sessions := x :: y.sessions.filter fun z => z.sid != x.sid }

def dropSession (s : State) (sid : W32) : State := updSec s fun y => { y with sessions := y.sessions.filter fun z => z.sid != sid }

/-- KEY_EXCHANGE: a session is begun; its number is the requester's half with a half of the module's choice, and its secret that
of a fresh private key with the requester's point. -/
def keyExchange (sid : BitVec 16) (x : List Byte) (s : State) : State :=
  if s.sec.sealed_ ∨ ecOfBytes x = none then spdmError s
  else
    let n := s.free
    let full : W32 := (Config.freeWord n).setWidth 16 ++ sid
    let s := setSession { s with free := n + 7 }
      { sid := full, established := false, keyGen := 0, secret := exchangeSecret (n + 1) (ecOfBytes x) }
    signed s (leBytes 4 full.toNat ++ exchangeValue (n + 1) ++ x)

def execKeyExchange (sid : BitVec 16) (x : List Byte) (s : State) : Host.Outcome State Fault Refusal := .next (spdm (keyExchange sid x) s)

/-- FINISH: with the right verify data the session is established, else it ends. -/
def finishSession (sid : W32) (verify : List Byte) (s : State) : State :=
  match findSession s sid with
  | some x =>
    if !x.established && Config.finishOk x.secret sid verify then spdmOk (setSession s { x with established := true }) []
    else spdmError (dropSession s sid)
  | none => spdmError s

def execFinish (sid : BitVec 32) (verify : List Byte) (s : State) : Host.Outcome State Fault Refusal := .next (spdm (finishSession sid verify) s)

/-- A request inside an established session. -/
def inSession (sid : W32) (g : Session → State → State) (s : State) : State :=
  match findSession s sid with
  | some x => if x.established then g x s else spdmError s
  | none => spdmError s

/-- KEY_UPDATE: operations 1 and 2 move the keys on, operation 3 verifies them. -/
def keyUpdate (op : Nat) (x : Session) (s : State) : State :=
  if op = 1 ∨ op = 2 then spdmOk (setSession s { x with keyGen := x.keyGen + 1 }) []
  else if op = 3 then spdmOk s []
  else spdmError s

def execKeyUpdate (sid : BitVec 32) (op : Nat) (s : State) : Host.Outcome State Fault Refusal := .next (spdm (inSession sid (keyUpdate op)) s)

def execHeartbeat (sid : BitVec 32) (s : State) : Host.Outcome State Fault Refusal := .next (spdm (inSession sid fun _ s => spdmOk s []) s)

def execEndSession (sid : BitVec 32) (s : State) : Host.Outcome State Fault Refusal :=
  .next (spdm (inSession sid fun _ s => spdmOk (dropSession s sid) []) s)

/-! ### IDE (R483) -/

/-- IDE_KM_KEY_PROG: a key for one set of one direction of a stream. -/
def keyProg (k : IdeKeySlot) (key : BitVec 256) (s : State) : State :=
  spdmOk (updSec s fun x => { x with ideKeys := { slot := k, key := key, go := false } :: x.ideKeys.filter fun y => decide (y.slot ≠ k) }) []

def execIdeKmKeyProg (sid : BitVec 32) (k : IdeKeySlot) (key : BitVec 256) (s : State) : Host.Outcome State Fault Refusal :=
  .next (spdm (inSession sid fun _ => keyProg k key) s)

/-- A direction of a stream has a key set that goes. -/
def ideGo (s : State) (i : IdeStream) (rx : Bool) : Bool :=
  s.sec.ideKeys.any fun y => y.go && decide (y.slot.stream = i) && y.slot.rx == rx

/-- A stream is secure while both of its directions go. -/
def ideSecure (s : State) (i : IdeStream) : Bool := ideGo s i false && ideGo s i true

def judgeIde (s : State) : State :=
  updSec s fun x => { x with ioSecure := ideSecure s .io, cmSecure := ideSecure s .cacheMem }

/-- An integrity failure of a stream has not been mended. -/
def broken (s : State) : IdeStream → Bool
  | .io => s.sec.ioBroken
  | .cacheMem => s.sec.cmBroken

/-- Marks whether a stream is broken. -/
def setBroken (s : State) (i : IdeStream) (b : Bool) : State :=
  updSec s fun x => match i with
    | .io => { x with ioBroken := b }
    | .cacheMem => { x with cmBroken := b }

/-- K_SET_GO: the set goes, and the direction's other set no more; refused with IDE_MODE = 0. A stream that an integrity failure
had taken down comes back with it (R396). -/
def setGo (k : IdeKeySlot) (s : State) : State :=
  if s.sec.protIde = 0 ∨ !(s.sec.ideKeys.any fun y => decide (y.slot = k)) then spdmError s
  else
    let s := updSec s fun x => { x with ideKeys := x.ideKeys.map fun y =>
      if y.slot = k then { y with go := true }
      else if y.slot.stream = k.stream ∧ y.slot.rx = k.rx then { y with go := false } else y }
    let s := judgeIde s
    let s := if broken s k.stream && ideSecure s k.stream then
        let s := setBroken s k.stream false
        if s.qmg.portUp && !ideDown s then flushHeld { s with qmg := { s.qmg with cxlUp := true } } else s
      else s
    spdmOk s []

def execKSetGo (sid : BitVec 32) (k : IdeKeySlot) (s : State) : Host.Outcome State Fault Refusal :=
  .next (spdm (inSession sid fun _ => setGo k) s)

/-- IDE_INTEGRITY_FAIL: the stream is insecure, and the CXL link counts as down. -/
def integrityFail (i : IdeStream) (s : State) : State :=
  let secure := match i with
    | .io => s.sec.ioSecure
    | .cacheMem => s.sec.cmSecure
  if secure then
    let s := updSec s fun x => { x with
      ideFail := if x.ideFail = 0xFFFFFFFF then x.ideFail else x.ideFail + 1
      ideKeys := x.ideKeys.map fun y => if y.slot.stream = i then { y with go := false } else y }
    let s := setBroken s i true
    judgeIde { s with qmg := { s.qmg with cxlUp := false } }
  else s

def execIdeIntegrityFail (i : IdeStream) (s : State) : Host.Outcome State Fault Refusal := .next (integrityFail i s)

end Sys2Proof.Machine
end

