-- ==== Sys2Proof/Machine/Bundle.lean ====
section
/-!
DEFINITION. The issue of one bundle by a thread slot (R20, R217 to R222): when it is ready, when it is illegal, and what its
four operations do; the commands of the slots, each with its own word and the words of the other three; instruction fill.
-/

namespace Sys2Proof.Machine

open Sys2Proof

/-! ### The operations of a bundle -/

/-- A decoded bundle. -/
structure Ops where
  sop : SlotOp
  sf : SFields
  vop : SlotOp
  vf : EFields
  mop : SlotOp
  mf : EFields
  xop : SlotOp
  xf : EFields

/-- The operations of a bundle; none where an opcode is reserved (R220). -/
def bundleOps (b : Bundle) : Option Ops :=
  match sOpOf (wordOp b.sw), vOpOf (wordOp b.vw), mOpOf (wordOp b.mw), xOpOf (wordOp b.xw) with
  | some s, some v, some m, some x =>
    some ⟨s, sFieldsOf b.sw, v, eFieldsOf b.vw, m, eFieldsOf b.mw, x, eFieldsOf b.xw⟩
  | _, _, _, _ => none

/-! ### Legality of the S slot (R220, R224, R252) -/

/-- The control registers of R224. -/
def csrKnown (n : Nat) : Bool := decide (n ≤ 6) || n == 8 || n == 9

/-- The unused fields of an S operation are 0 and its codes are known. -/
def sLegal (op : SlotOp) (f : SFields) : Bool :=
  let z := fun (d a b fn imm : Bool) =>
    (!d || f.d == 0) && (!a || f.a == 0) && (!b || f.b == 0) && (!fn || f.fn == 0) && (!imm || f.imm == 0)
  let fn := f.fn.toNat
  let fmt := f.imm.toNat % 16
  match op with
  | .alu => z false false false false true && decide (fn ≤ 20)
  | .alui => z false false true false false && decide (fn ≤ 20)
  | .li | .lui => z false true true true false
  | .ld => z false false true false false && decide (fn ≤ 7)
  | .st => z true false false false false && decide (fn ≤ 3)
  | .amo => z false false false false true && decide (fn ≤ 4)
  | .br => z true false false false false && decide (fn ≤ 5)
  | .jal => z false true true true false
  | .jalr => z false false true true false
  | .fp =>
    z false false (fpUnary fn) false false && decide (fn ≤ 16) && decide (fmt ≤ 3)
      && (if fn = 14 then decide (f.imm.toNat < 64) else decide (f.imm.toNat < 16))
  | .fma => decide (f.imm.toNat ≤ 3)
  | .csrr => z false true true true false && csrKnown f.imm.toNat
  | .csrw => z true false true true false && csrWritable f.imm.toNat
  | _ => z true true true true true

/-! ### Legality of the engine slots (R220, R227 to R240, R243, R250) -/

/-- The fields that an engine operation leaves 0. -/
structure Unused where
  d : Bool := false
  a : Bool := false
  b : Bool := false
  c : Bool := false
  mask : Bool := false
  mz : Bool := false
  sub : Bool := true
  imm : Bool := true

def unusedZero (u : Unused) (f : EFields) : Bool :=
  (!u.d || f.d == 0) && (!u.a || f.a == 0) && (!u.b || f.b == 0) && (!u.c || f.c == 0)
    && (!u.mask || (f.msk == 0 && !f.men)) && (!(u.mask || u.mz) || !f.mz) && (!u.sub || f.sub == 0) && (!u.imm || f.imm == 0)

/-- The unused fields of a V operation. -/
def vUnused (op : SlotOp) (f : EFields) : Unused :=
  match op with
  | .vCfg => { b := true, c := true, mask := true, imm := false }
  | .vFma | .vDot => {}
  | .vSqrt | .vBcast => { b := true, c := true }
  | .vFunc | .vCvt => { b := true, c := true, imm := false }
  | .vCmp => { c := true, mz := true, sub := false }
  | .vMop => { b := f.sub == 4, c := true, mask := true, sub := false }
  | .vMpopc | .vMfirst => { b := true, c := true, mask := true }
  | .vPerm => {}
  | .vRed => { b := true, c := true, mz := true, sub := false }
  | .vLd | .vLdff => { b := true, c := true, imm := false }
  | .vLds => { c := true, imm := false }
  | .vSt => { b := true, c := true, mz := true, imm := false }
  | .vSts => { c := true, mz := true, imm := false }
  | .vStx => { c := true, mz := true }
  | .vMld | .vMst => { b := true, c := true, mask := true }
  | .vPass => { d := true, b := true, c := true, mask := true }
  | .nop => { d := true, a := true, b := true, c := true, mask := true }
  | _ => { c := true }

/-- The element types that an operation permits (R233 to R238). -/
def vtPermits (op : SlotOp) (f : Fmt) : Bool :=
  let int := !f.isFloat
  let wide := f.isWide
  match op with
  | .vAdd | .vSub | .vMul | .vFma | .vRed => wide || int
  | .vLdexp => wide || int
  | .vDiv | .vSqrt | .vFunc => wide
  | .vAnd | .vOr | .vXor | .vShl | .vShr | .vSar => int
  | .vWmul => f == .int8 || f == .e4m3 || f == .e5m2 || f == .e2m1
  | .vDot => f == .int8 || f == .e2m1 || f == .bf16
  | .vPerm | .vLds | .vLdx => decide (8 ≤ f.width)
  | _ => true

/-- The groups that a V operation names: first register and size; 0 stands for a derived group below one register. -/
def vGroups (op : SlotOp) (f : EFields) (x : SlotState) : List (Nat × Nat) :=
  let g := grpSize x
  let d := f.d.toNat
  let a := f.a.toNat
  let b := f.b.toNat
  let c := f.c.toNat
  match op with
  | .vFma | .vDot => [(d, g), (a, g), (b, g), (c, g)]
  | .vSqrt | .vFunc => [(d, g), (a, g)]
  | .vLdexp => [(d, g), (a, g), (b, derivedGrp x 32)]
  | .vCvt => [(d, derivedGrp x (cvtType f).width), (a, g)]
  | .vBcast | .vLd | .vLds | .vLdff | .vSt | .vSts => [(d, g)]
  | .vLdx | .vStx => [(d, g), (b, derivedGrp x 32)]
  | .vWmul => [(d, 2 * g), (a, g), (b, g)]
  | .vCmp => [(a, g), (b, g)]
  | .vRed => [(a, g)]
  | .vCfg | .vMop | .vMpopc | .vMfirst | .vMld | .vMst | .vPass | .nop => []
  | _ => [(d, g), (a, g), (b, g)]

/-- A group begins at a multiple of its size (R228) and under PAIR at a multiple of 2 · GRP (R240), and has at most eight
registers. -/
def groupOk (x : SlotState) (r : Nat × Nat) : Bool :=
  decide (r.2 ≤ 8) && r.1 % max 1 r.2 == 0 && (!x.pair || r.1 % (2 * grpSize x) == 0)

/-- Codes of SUB and IMM15 that a V operation knows. -/
def vCodesOk (op : SlotOp) (f : EFields) : Bool :=
  match op with
  | .vCfg =>
    (vtType (cfgVt f)).isSome && decide (f.imm.toNat < 256)
      && (!cfgPair f || cfgVt f == 0 || cfgVt f == 1 || cfgVt f == 2)
  | .vFunc => decide (f.imm.toNat ≤ 0x0C)
  | .vCvt => decide (f.imm.toNat < 32) && (vtType f.imm.toNat).isSome
  | .vCmp => decide (f.sub.toNat ≤ 6)
  | .vMop => decide (f.sub.toNat ≤ 4)
  | .vRed => decide (f.sub.toNat ≤ 3)
  | _ => true

/-- What PAIR asks of a V operation (R240). -/
def pairOk (op : SlotOp) (f : EFields) (x : SlotState) : Bool :=
  if x.pair then
    match op with
    | .vWmul | .vDot | .vPass => false
    | .vRed => f.d.toNat % 2 == 0
    | .vCvt => !pairType (cvtType f)
        || decide (cvtTangent x f.d.toNat (cvtType f).width + max 1 (derivedGrp x (cvtType f).width) ≤ 64)
    | _ => true
  else true

/-- A V operation is legal in the slot's configuration. -/
def vLegal (op : SlotOp) (f : EFields) (x : SlotState) : Bool :=
  unusedZero (vUnused op f) f && vCodesOk op f && vtPermits op (slotType x) && pairOk op f x
    && (vGroups op f x).all (groupOk x)
    && (op != .vPerm || (f.d != f.a && f.d != f.b))

/-- An M operation is legal. -/
def mLegal (op : SlotOp) (f : EFields) : Bool :=
  match op with
  | .mtBegin => unusedZero { c := true, mask := true, imm := false } f && decide (f.imm.toNat < 256) && (tileN f).isSome
  | .mtAcc | .mtAddraw => unusedZero { d := true, mask := true } f
  | .mtStore | .mtAlign => unusedZero { mask := true } f
  | .mtDrop => unusedZero { d := true, b := true, c := true, mask := true } f
  | _ => unusedZero { d := true, a := true, b := true, c := true, mask := true } f

/-- An X operation is legal. -/
def xLegal (op : SlotOp) (f : EFields) : Bool :=
  match op with
  | .xMove => unusedZero { d := true, mask := true } f
  | .xMoved => unusedZero { d := true, b := true, c := true, mask := true } f
  | .xSig =>
    unusedZero { d := true, b := true, c := true, mask := true, imm := false } f
      && decide (1 ≤ f.imm.toNat) && decide (f.imm.toNat ≤ 16383)
  | .xWait | .xScset => unusedZero { d := true, c := true, mask := true } f
  | .xScread => unusedZero { b := true, c := true, mask := true } f
  | .xFence => unusedZero { d := true, a := true, b := true, c := true, mask := true, imm := false } f && decide (f.imm.toNat < 16)
  | _ => unusedZero { d := true, a := true, b := true, c := true, mask := true } f

/-- A NOP word holds nothing but zeros, SIGEN included. -/
def nopWhole (op : SlotOp) (f : EFields) : Bool := op != .nop || (!f.sigen && f.sig == 0)

/-- The scalar registers among names. -/
def scalarNames (l : List RegName) : List RegName := l.filter fun r => match r with
  | .scalar _ => true
  | _ => false

/-- The registers that a bundle reads and writes, slot by slot. -/
def bundleUse (o : Ops) (x : SlotState) : List RegUse :=
  [sUse o.sop o.sf, vUse o.vop o.vf x, mUse o.mop o.mf, xUse o.xop o.xf]

/-- No scalar register is written by two slots (R218). -/
def writersApart : List (List RegName) → Bool
  | [] => true
  | a :: t => t.all (fun b => a.all fun r => !b.contains r) && writersApart t

/-- A bundle is legal (R220). -/
def bundleLegal (o : Ops) (x : SlotState) : Bool :=
  sLegal o.sop o.sf && vLegal o.vop o.vf x && mLegal o.mop o.mf && xLegal o.xop o.xf
    && nopWhole o.vop o.vf && nopWhole o.mop o.mf && nopWhole o.xop o.xf
    && writersApart ((bundleUse o x).map fun u => scalarNames u.writes)

/-! ### Readiness (R20, R22, R85, R206, R221, R226, R460) -/

/-- The instruction cache holds these 256 bits at the slot's program counter. -/
def fetched (s : State) (t : Slot) (b : Bundle) : Bool :=
  let x := s.slot t
  (s.core (slotCore t)).icache.contains (x.ctx.val, x.pc.toNat, b.bits)

/-- An engine's queue has room for one more command. -/
def queueRoom (s : State) (c : Core) (k : EngineKind) (used : Bool) : Bool :=
  !used || decide ((s.engine c k).queue.length < 16)

/-- The slot runs, nothing holds it, and its panel issues. -/
def slotIssues (s : State) (t : Slot) : Bool :=
  let x := s.slot t
  let p := s.panel (slotPanel t)
  x.running && !x.stopped && !x.ending && x.hold == .free && p.stall.isNone && p.state == 0 && !noNewWork s (slotPanel t)

/-- The accumulator store has room for all that the bundle allocates: the tiles of its V.PASS, then that of its MT.BEGIN. -/
def handlesReady (s : State) (t : Slot) (o : Ops) : Bool :=
  let x := s.slot t
  let tiles := if o.vop = .vPass then vPassTiles s t (sReg x o.vf.a.toNat).toNat else []
  match allocTiles t (s.core (slotCore t)) tiles with
  | none => false
  | some (c, _) => o.mop != .mtBegin || tileRoom c (tileM o.mf) ((tileN o.mf).getD 32) (tileAcc o.mf)

/-- A bundle with known opcodes is ready. X.WAIT and X.FENCE hold the slot itself and take no entry of the mover's queue (log
entry 105, DESIGN CHOICE). -/
def opsReady (s : State) (t : Slot) (o : Ops) : Bool :=
  let x := s.slot t
  let c := slotCore t
  (bundleUse o x).all (fun u => (u.reads ++ u.writes).all fun r => !x.pending.contains r)
    && queueRoom s c .vector (o.vop != .nop) && queueRoom s c .matrix (o.mop != .nop)
    && queueRoom s c .mover (!(o.xop == .nop || o.xop == .xWait || o.xop == .xFence))
    && handlesReady s t o

/-! ### Issue -/

/-- STOP: the part ends; handles still allocated are released without store, with TILE_LEAK (R225). -/
def stopSlot (t : Slot) (s : State) : State :=
  let c := slotCore t
  let x := s.slot t
  let held := (s.core c).handles.filter fun h => decide (h.2.owner = t) && !h.2.pass
  let s := releaseHandles s c (held.map Prod.fst)
  let s := if held = [] then s else raiseEv s evTileLeak (srcCore c) [] (some x.ctx) 0xFF 1
  tryFree (updSlot t (fun x => { x with ending := true }) s) t

/-- One S operation. -/
def sEffect (op : SlotOp) (t : Slot) (old : SlotState) (f : SFields) (s : State) : State :=
  match op with
  | .alu => sAlu t old f s
  | .alui => sAlui t old f s
  | .li => sLi t f s
  | .lui => sLui t old f s
  | .ld => sLd t old f s
  | .st => sSt t old f s
  | .amo => sAmo t old f s
  | .jal | .jalr => sLink t old f s
  | .fp => sFp t old f s
  | .fma => sFma t old f s
  | .csrr => sCsrr t old f s
  | .csrw => sCsrw t old f s
  | _ => s

/-- The effects of a legal bundle: registers are captured from the state before it (R218). -/
def bundleEffect (t : Slot) (o : Ops) (s : State) : State :=
  let old := s.slot t
  let s1 := sEffect o.sop t old o.sf s
  let s2 := if o.vop = .nop then s1 else if o.vop = .vPass then vPassOp t old o.vf s1 else vEffect o.vop t old o.vf s1
  let s3 := if o.mop = .nop then s2 else mEffect o.mop t old o.mf s2
  let s4 := if o.xop = .nop then s3 else xEffect o.xop t s o.xf s3
  let s5 := updSlot t (fun x => { x with pc := nextPc o.sop old o.sf, progress := s.now }) s4
  if (s5.slot t).stopped then stopPasses s5 t else if o.sop = .stop then stopSlot t s5 else s5

/-- A slot of a core by its number there, and back. -/
def slotOn (c : Core) (i : Fin 64) : Slot := ⟨c.val * 64 + i.val, by omega⟩
def placeOn (t : Slot) : Fin 64 := ⟨t.val % 64, Nat.mod_lt _ (by decide)⟩

/-- A slot is ready: it has a decoded bundle that nothing holds up (R20). -/
def slotReady (s : State) (t : Slot) : Bool :=
  let x := s.slot t
  slotIssues s t && match (s.core (slotCore t)).icache.find? fun e => e.1 == x.ctx.val && e.2.1 == x.pc.toNat with
    | some e => match bundleOps (bundleOfBits e.2.2) with
      | some o => bundleLegal o x && opsReady s t o
      | none => false
    | none => false

/-- The issue unit may take the bundle of a slot: no ready slot comes before it in round-robin order after the slot that issued last. A
slot among the last three to issue may not yet be due again (R20, R21; log entry 3). -/
def itsTurn (s : State) (t : Slot) : Bool :=
  let c := slotCore t
  match (s.core c).issued with
  | [] => true
  | i :: l =>
    let before := (rangeFrom 1 ((t.val % 64 + 63 - i.val) % 64)).map fun k => (⟨(i.val + k) % 64, Nat.mod_lt _ (by decide)⟩ : Fin 64)
    before.all fun k => (i :: l).contains k || !slotReady s (slotOn c k)

/-- The slot is the one of its core that issued last. -/
def noteIssue (t : Slot) (s : State) : State :=
  let x := s.core (slotCore t)
  s.setCore (slotCore t) { x with issued := (placeOn t :: x.issued).take 3 }

/-- The issue of a bundle by a thread slot: nothing where it is not ready or not its turn, ILL_BUNDLE and a stop where it is
illegal. -/
def issueBundle (t : Slot) (b : Bundle) (s : State) : State :=
  if slotIssues s t && fetched s t b then
    match bundleOps b with
    | none => stopAt t evIllBundle 0 s
    | some o =>
      if bundleLegal o (s.slot t) then (if opsReady s t o && itsTurn s t then noteIssue t (bundleEffect t o s) else s)
      else stopAt t evIllBundle 0 s
  else s

/-! ### The commands of the slots -/

/-- An S command: its own fields, and the V, M and X words of the same bundle. -/
def issueS (op : Nat) (t : Slot) (f : SFields) (o : Others) (s : State) : State := issueBundle t (bundleWith 0 (sWord op f) o) s
/-- A V command: its own fields, and the S, M and X words of the same bundle. -/
def issueV (op : Nat) (t : Slot) (f : EFields) (o : Others) (s : State) : State := issueBundle t (bundleWith 1 (eWord op f) o) s
/-- An M command: its own fields, and the S, V and X words of the same bundle. -/
def issueM (op : Nat) (t : Slot) (f : EFields) (o : Others) (s : State) : State := issueBundle t (bundleWith 2 (eWord op f) o) s
/-- An X command: its own fields, and the S, V and M words of the same bundle. -/
def issueX (op : Nat) (t : Slot) (f : EFields) (o : Others) (s : State) : State := issueBundle t (bundleWith 3 (eWord op f) o) s

/-- SLOT_NOP: opcode 0x00 in the slot position (R217). -/
def execSlotNop (t : Slot) (pos : Fin 4) (o : Others) (s : State) : Host.Outcome State Fault Refusal :=
  .next (issueBundle t (bundleWith pos.val 0 o) s)

/-- ALU (R252). -/
def execAlu (t : Slot) (f : SFields) (o : Others) (s : State) : Host.Outcome State Fault Refusal :=
  .next (issueS 0x01 t f o s)

/-- ALUI (R252). -/
def execAlui (t : Slot) (f : SFields) (o : Others) (s : State) : Host.Outcome State Fault Refusal :=
  .next (issueS 0x02 t f o s)

/-- LI (R252). -/
def execLi (t : Slot) (f : SFields) (o : Others) (s : State) : Host.Outcome State Fault Refusal :=
  .next (issueS 0x03 t f o s)

/-- LUI (R252). -/
def execLui (t : Slot) (f : SFields) (o : Others) (s : State) : Host.Outcome State Fault Refusal :=
  .next (issueS 0x04 t f o s)

/-- LD (R252). -/
def execLd (t : Slot) (f : SFields) (o : Others) (s : State) : Host.Outcome State Fault Refusal :=
  .next (issueS 0x08 t f o s)

/-- ST (R252). -/
def execSt (t : Slot) (f : SFields) (o : Others) (s : State) : Host.Outcome State Fault Refusal :=
  .next (issueS 0x09 t f o s)

/-- AMO (R252). -/
def execAmo (t : Slot) (f : SFields) (o : Others) (s : State) : Host.Outcome State Fault Refusal :=
  .next (issueS 0x0A t f o s)

/-- BR (R252). -/
def execBr (t : Slot) (f : SFields) (o : Others) (s : State) : Host.Outcome State Fault Refusal :=
  .next (issueS 0x10 t f o s)

/-- JAL (R252). -/
def execJal (t : Slot) (f : SFields) (o : Others) (s : State) : Host.Outcome State Fault Refusal :=
  .next (issueS 0x11 t f o s)

/-- JALR (R252). -/
def execJalr (t : Slot) (f : SFields) (o : Others) (s : State) : Host.Outcome State Fault Refusal :=
  .next (issueS 0x12 t f o s)

/-- FP (R252). -/
def execFpOp (t : Slot) (f : SFields) (o : Others) (s : State) : Host.Outcome State Fault Refusal :=
  .next (issueS 0x18 t f o s)

/-- FMA (R252). -/
def execFma (t : Slot) (f : SFields) (o : Others) (s : State) : Host.Outcome State Fault Refusal :=
  .next (issueS 0x19 t f o s)

/-- CSRR (R252). -/
def execCsrr (t : Slot) (f : SFields) (o : Others) (s : State) : Host.Outcome State Fault Refusal :=
  .next (issueS 0x20 t f o s)

/-- CSRW (R224). -/
def execCsrw (t : Slot) (f : SFields) (o : Others) (s : State) : Host.Outcome State Fault Refusal :=
  .next (issueS 0x21 t f o s)

/-- STOP (R225). -/
def execStop (t : Slot) (f : SFields) (o : Others) (s : State) : Host.Outcome State Fault Refusal :=
  .next (issueS 0x3E t f o s)

/-- V_CFG (R227). -/
def execVCfg (t : Slot) (f : EFields) (o : Others) (s : State) : Host.Outcome State Fault Refusal :=
  .next (issueV 0x01 t f o s)

/-- V_ADD (R233). -/
def execVAdd (t : Slot) (f : EFields) (o : Others) (s : State) : Host.Outcome State Fault Refusal :=
  .next (issueV 0x10 t f o s)

/-- V_SUB (R233). -/
def execVSub (t : Slot) (f : EFields) (o : Others) (s : State) : Host.Outcome State Fault Refusal :=
  .next (issueV 0x11 t f o s)

/-- V_MUL (R233). -/
def execVMul (t : Slot) (f : EFields) (o : Others) (s : State) : Host.Outcome State Fault Refusal :=
  .next (issueV 0x12 t f o s)

/-- V_FMA (R233). -/
def execVFma (t : Slot) (f : EFields) (o : Others) (s : State) : Host.Outcome State Fault Refusal :=
  .next (issueV 0x13 t f o s)

/-- V_DIV (R233). -/
def execVDiv (t : Slot) (f : EFields) (o : Others) (s : State) : Host.Outcome State Fault Refusal :=
  .next (issueV 0x14 t f o s)

/-- V_SQRT (R233). -/
def execVSqrt (t : Slot) (f : EFields) (o : Others) (s : State) : Host.Outcome State Fault Refusal :=
  .next (issueV 0x15 t f o s)

/-- V_MIN (R233). -/
def execVMin (t : Slot) (f : EFields) (o : Others) (s : State) : Host.Outcome State Fault Refusal :=
  .next (issueV 0x16 t f o s)

/-- V_MAX (R233). -/
def execVMax (t : Slot) (f : EFields) (o : Others) (s : State) : Host.Outcome State Fault Refusal :=
  .next (issueV 0x17 t f o s)

/-- V_FUNC (R234). -/
def execVFunc (t : Slot) (f : EFields) (o : Others) (s : State) : Host.Outcome State Fault Refusal :=
  .next (issueV 0x18 t f o s)

/-- V_LDEXP (R233). -/
def execVLdexp (t : Slot) (f : EFields) (o : Others) (s : State) : Host.Outcome State Fault Refusal :=
  .next (issueV 0x19 t f o s)

/-- V_CVT (R235). -/
def execVCvt (t : Slot) (f : EFields) (o : Others) (s : State) : Host.Outcome State Fault Refusal :=
  .next (issueV 0x1A t f o s)

/-- V_AND (R233). -/
def execVAnd (t : Slot) (f : EFields) (o : Others) (s : State) : Host.Outcome State Fault Refusal :=
  .next (issueV 0x1C t f o s)

/-- V_OR (R233). -/
def execVOr (t : Slot) (f : EFields) (o : Others) (s : State) : Host.Outcome State Fault Refusal :=
  .next (issueV 0x1D t f o s)

/-- V_XOR (R233). -/
def execVXor (t : Slot) (f : EFields) (o : Others) (s : State) : Host.Outcome State Fault Refusal :=
  .next (issueV 0x1E t f o s)

/-- V_SHL (R233). -/
def execVShl (t : Slot) (f : EFields) (o : Others) (s : State) : Host.Outcome State Fault Refusal :=
  .next (issueV 0x1F t f o s)

/-- V_SHR (R233). -/
def execVShr (t : Slot) (f : EFields) (o : Others) (s : State) : Host.Outcome State Fault Refusal :=
  .next (issueV 0x20 t f o s)

/-- V_SAR (R233). -/
def execVSar (t : Slot) (f : EFields) (o : Others) (s : State) : Host.Outcome State Fault Refusal :=
  .next (issueV 0x21 t f o s)

/-- V_BCAST (R233). -/
def execVBcast (t : Slot) (f : EFields) (o : Others) (s : State) : Host.Outcome State Fault Refusal :=
  .next (issueV 0x22 t f o s)

/-- V_WMUL (R236). -/
def execVWmul (t : Slot) (f : EFields) (o : Others) (s : State) : Host.Outcome State Fault Refusal :=
  .next (issueV 0x28 t f o s)

/-- V_DOT (R237). -/
def execVDot (t : Slot) (f : EFields) (o : Others) (s : State) : Host.Outcome State Fault Refusal :=
  .next (issueV 0x29 t f o s)

/-- V_CMP (R233). -/
def execVCmp (t : Slot) (f : EFields) (o : Others) (s : State) : Host.Outcome State Fault Refusal :=
  .next (issueV 0x30 t f o s)

/-- V_MOP (R233). -/
def execVMop (t : Slot) (f : EFields) (o : Others) (s : State) : Host.Outcome State Fault Refusal :=
  .next (issueV 0x31 t f o s)

/-- V_MPOPC (R233). -/
def execVMpopc (t : Slot) (f : EFields) (o : Others) (s : State) : Host.Outcome State Fault Refusal :=
  .next (issueV 0x32 t f o s)

/-- V_MFIRST (R233). -/
def execVMfirst (t : Slot) (f : EFields) (o : Others) (s : State) : Host.Outcome State Fault Refusal :=
  .next (issueV 0x33 t f o s)

/-- V_PERM (R239). -/
def execVPerm (t : Slot) (f : EFields) (o : Others) (s : State) : Host.Outcome State Fault Refusal :=
  .next (issueV 0x38 t f o s)

/-- V_RED (R238). -/
def execVRed (t : Slot) (f : EFields) (o : Others) (s : State) : Host.Outcome State Fault Refusal :=
  .next (issueV 0x3A t f o s)

/-- V_LD (R231). -/
def execVLd (t : Slot) (f : EFields) (o : Others) (s : State) : Host.Outcome State Fault Refusal :=
  .next (issueV 0x40 t f o s)

/-- V_LDS (R231). -/
def execVLds (t : Slot) (f : EFields) (o : Others) (s : State) : Host.Outcome State Fault Refusal :=
  .next (issueV 0x41 t f o s)

/-- V_LDX (R231). -/
def execVLdx (t : Slot) (f : EFields) (o : Others) (s : State) : Host.Outcome State Fault Refusal :=
  .next (issueV 0x42 t f o s)

/-- V_LDFF (R232). -/
def execVLdff (t : Slot) (f : EFields) (o : Others) (s : State) : Host.Outcome State Fault Refusal :=
  .next (issueV 0x43 t f o s)

/-- V_MLD (R231). -/
def execVMld (t : Slot) (f : EFields) (o : Others) (s : State) : Host.Outcome State Fault Refusal :=
  .next (issueV 0x44 t f o s)

/-- V_ST (R231). -/
def execVSt (t : Slot) (f : EFields) (o : Others) (s : State) : Host.Outcome State Fault Refusal :=
  .next (issueV 0x48 t f o s)

/-- V_STS (R231). -/
def execVSts (t : Slot) (f : EFields) (o : Others) (s : State) : Host.Outcome State Fault Refusal :=
  .next (issueV 0x49 t f o s)

/-- V_STX (R231). -/
def execVStx (t : Slot) (f : EFields) (o : Others) (s : State) : Host.Outcome State Fault Refusal :=
  .next (issueV 0x4A t f o s)

/-- V_MST (R231). -/
def execVMst (t : Slot) (f : EFields) (o : Others) (s : State) : Host.Outcome State Fault Refusal :=
  .next (issueV 0x4C t f o s)

/-- V_PASS (R241). -/
def execVPass (t : Slot) (f : EFields) (o : Others) (s : State) : Host.Outcome State Fault Refusal :=
  .next (issueV 0x50 t f o s)

/-- MT_BEGIN (R84). -/
def execMtBegin (t : Slot) (f : EFields) (o : Others) (s : State) : Host.Outcome State Fault Refusal :=
  .next (issueM 0x01 t f o s)

/-- MT_ACC (R97). -/
def execMtAcc (t : Slot) (f : EFields) (o : Others) (s : State) : Host.Outcome State Fault Refusal :=
  .next (issueM 0x02 t f o s)

/-- MT_ADDRAW (R99). -/
def execMtAddraw (t : Slot) (f : EFields) (o : Others) (s : State) : Host.Outcome State Fault Refusal :=
  .next (issueM 0x03 t f o s)

/-- MT_STORE (R104). -/
def execMtStore (t : Slot) (f : EFields) (o : Others) (s : State) : Host.Outcome State Fault Refusal :=
  .next (issueM 0x04 t f o s)

/-- MT_DROP (R84). -/
def execMtDrop (t : Slot) (f : EFields) (o : Others) (s : State) : Host.Outcome State Fault Refusal :=
  .next (issueM 0x05 t f o s)

/-- MT_ALIGN (R118). -/
def execMtAlign (t : Slot) (f : EFields) (o : Others) (s : State) : Host.Outcome State Fault Refusal :=
  .next (issueM 0x06 t f o s)

/-- X_MOVE (R248). -/
def execXMove (t : Slot) (f : EFields) (o : Others) (s : State) : Host.Outcome State Fault Refusal :=
  .next (issueX 0x01 t f o s)

/-- X_MOVED (R248). -/
def execXMoved (t : Slot) (f : EFields) (o : Others) (s : State) : Host.Outcome State Fault Refusal :=
  .next (issueX 0x02 t f o s)

/-- X_SIG (R250). -/
def execXSig (t : Slot) (f : EFields) (o : Others) (s : State) : Host.Outcome State Fault Refusal :=
  .next (issueX 0x08 t f o s)

/-- X_WAIT (R250). -/
def execXWait (t : Slot) (f : EFields) (o : Others) (s : State) : Host.Outcome State Fault Refusal :=
  .next (issueX 0x09 t f o s)

/-- X_SCSET (R251). -/
def execXScset (t : Slot) (f : EFields) (o : Others) (s : State) : Host.Outcome State Fault Refusal :=
  .next (issueX 0x0A t f o s)

/-- X_SCREAD (R250). -/
def execXScread (t : Slot) (f : EFields) (o : Others) (s : State) : Host.Outcome State Fault Refusal :=
  .next (issueX 0x0B t f o s)

/-- X_FENCE (R250). -/
def execXFence (t : Slot) (f : EFields) (o : Others) (s : State) : Host.Outcome State Fault Refusal :=
  .next (issueX 0x0C t f o s)

/-- X_ICINV (R226). -/
def execXIcinv (t : Slot) (f : EFields) (o : Others) (s : State) : Host.Outcome State Fault Refusal :=
  .next (issueX 0x0D t f o s)

/-! ### ICACHE_FILL (R25, R226, R293, R296) -/

/-- Bundles that a core's 64 KiB instruction cache holds. -/
def icacheBundles : Nat := 2048

/-- The line of a missing slot comes from its context's code pages. -/
def icacheFill (t : Slot) (s : State) : State :=
  let x := s.slot t
  let c := slotCore t
  let pc := x.pc.toNat
  if !x.running || x.stopped || x.ending then s
  else if pc % 32 ≠ 0 then stopAt t evAccessFault 0 s
  else match accessPa s x.ctx pc .fetch with
    | none => stopAt t evAccessFault 0 (noteBadTable s x.ctx pc)
    | some pa =>
      let (d, bad) := gddrRead s pa 32
      let s := noteResetRead s pa
      if bad then stopAt t evMemPoison 0 s
      else
        let cs := s.core c
        let kept := cs.icache.filter fun e => !(e.1 == x.ctx.val && e.2.1 == pc)
        let line := (x.ctx.val, pc, BitVec.ofNat 256 (ofLE d))
        s.setCore c { cs with icache := kept.drop (kept.length + 1 - icacheBundles) ++ [line] }

def execIcacheFill (t : Slot) (s : State) : Host.Outcome State Fault Refusal := .next (icacheFill t s)

end Sys2Proof.Machine
end

