-- ==== Sys2Proof/Machine/Restore.lean ====
section
/-!
DEFINITION. Restore after repair (R414, R419 to R424): INVENTORY, APPLY_LOCAL, APPLY_REMOTE, and what a target sends back.
-/

namespace Sys2Proof.Machine

open Sys2Proof

/-! ### What an incoming region holds (R414) -/

/-- The words of a record in a region. -/
def regionRecord (s : State) (e : Incoming) (area off : Nat) : List Nat :=
  let l := reserveRead s (areaStart e area + off) 64
  if l.any Prod.snd then List.replicate 8 0 else wordsOf 8 (l.map Prod.fst)

def recKind (w : List Nat) : Nat := fld (nth w 0) 0 8
def recQslot (w : List Nat) : Nat := fld (nth w 0) 24 8
def recFrom (w : List Nat) : Nat := fld (nth w 1) 0 32
def recStep (w : List Nat) : Nat := fld (nth w 1) 32 32
def recSeq (w : List Nat) : Nat := nth w 2
def recBytes (w : List Nat) : Nat := nth w 3

/-- The valid entries of a chain, by offset, from one entry on. -/
def chainFrom (s : State) (e : Incoming) (area : Nat) : Nat → Nat → Nat → Nat → List (Nat × List Nat)
  | 0, _, _, _ => []
  | k + 1, off, step, seq =>
    if off + 64 ≤ areaBytes e area then
      let w := regionRecord s e area off
      if snapValid w && recKind w == 2 && recFrom w == step + 1 && decide (seq < recSeq w) then
        (off, w) :: chainFrom s e area k (off + 64 + roundUp (recBytes w) 64) (recStep w) (recSeq w)
      else []
    else []

/-- A base slot with its chain: its area, its record, its entries. -/
structure BaseSlot where
  area : Nat
  rec_ : List Nat
  chain : List (Nat × List Nat)

def baseSlot (s : State) (e : Incoming) (area : Nat) : Option BaseSlot :=
  let w := regionRecord s e area 0
  if snapValid w && recKind w == 1 then
    some ⟨area, w, chainFrom s e (area + 1) (areaBytes e (area + 1) / 64 + 1) 0 (recStep w) (recSeq w)⟩
  else none

/-- The base slots of a region, the current one first: that with the valid record of greater SEQ. -/
def baseSlots (s : State) (e : Incoming) : List BaseSlot :=
  match baseSlot s e 0, baseSlot s e 2 with
  | some a, some b => if recSeq a.rec_ < recSeq b.rec_ then [b, a] else [a, b]
  | some a, none => [a]
  | none, some b => [b]
  | none, none => []

/-- The entry that a quick slot still holds the images of: the last that names it. -/
def quickEntry (l : List BaseSlot) (q : Nat) : Option (List Nat) :=
  ((l.flatMap fun b => b.chain.map Prod.snd).filter fun w => recQslot w == q).foldl
    (fun o w => match o with
      | some v => if recSeq v < recSeq w then some w else o
      | none => some w) none

def absent : Nat := 0xFFFFFFFF

/-- The base step and the last step of a slot's chain. -/
def slotSteps (b : Option BaseSlot) : Nat := match b with
  | some b => recStep b.rec_ + 2 ^ 32 * (match b.chain.getLast? with
      | some e => recStep e.2
      | none => absent)
  | none => absent + 2 ^ 32 * absent

/-- The inventory entry of an incoming stream (R419). -/
def inventoryEntry (s : State) (e : Incoming) : List Nat :=
  let l := baseSlots s e
  let q := fun k => ((quickEntry l k).map recStep).getD absent
  [e.src.toNat + 2 ^ 16 * e.stream, slotSteps l[0]?, q 0 + 2 ^ 32 * q 1, slotSteps l[1]?, 0, 0, 0, 0]

/-- What reaches step j (R420): the slot, its entries up to j, and the quick slot, if one is needed. -/
def reaches (l : List BaseSlot) (step : Nat) : Option (BaseSlot × List (Nat × List Nat) × Option Nat) :=
  l.findSome? fun b =>
    if recStep b.rec_ = step then some (b, [], none)
    else match b.chain.find? fun e => recStep e.2 == step with
      | none => none
      | some e =>
        let up := b.chain.filter fun x => decide (recSeq x.2 ≤ recSeq e.2)
        let q := recQslot e.2
        if q = 0xFF then some (b, up, none)
        else if (quickEntry l q) = some e.2 then some (b, up, some q) else none

/-! ### RESTORE blocks (R419) -/

/-- A RESTORE block whose reserved fields are not 0, or with a RESULT where none belongs. -/
def restoreFormBad (w : List Nat) : Bool :=
  decide (2 < fld (nth w 0) 0 8) || fld (nth w 0) 16 16 != 0 || ((rangeFrom 3 5).any fun i => nth w i != 0)
  || (fld (nth w 0) 0 8 != 0 && nth w 1 != 0)

/-- A RESTORE of a given OP runs; another OP is left to its own command. -/
def restoreRun (op : Nat) (d : DescId) (g : Job → DescState → List Nat → State → State) (s0 : State) (x : DescState)
    (w : List Nat) (s : State) : State :=
  let o := fld (nth w 0) 0 8
  if o ≠ op ∧ (o ≤ 2 ∨ op ≠ 0) then s0
  else if restoreFormBad w then endDesc s d stBadDescriptor
  else match rankJobOf s x.ctx (fld (nth w 0) 8 8) with
    | none => endDesc s d stBadDescriptor
    | some j => g j x w s

/-- The steps that APPLY_LOCAL can reach: points whose keep half is intact, within the staging depth (R420). -/
def localSteps (s : State) (j : Job) : List Nat :=
  match (s.job j).plan with
  | none => []
  | some p =>
    let c := jobStep s j
    (p.keepSteps.map Prod.snd).filter fun k => decide (c < k + p.depth ∧ k ≤ c)

/-- Reads of the secure reserve that a controller reset answered are counted, one for each 64 bytes (R303). -/
def noteReserve (s : State) (e : Incoming) (area off n : Nat) : State :=
  (rangeFrom 0 (ceilDiv n 64)).foldl (fun s u => noteResetRead s (reservePa s (areaStart e area + off + 64 * u))) s

/-- The records of a region are read (R303). -/
def noteRegion (s : State) (e : Incoming) : State :=
  let s' := noteReserve (noteReserve s e 0 0 64) e 2 0 64
  (baseSlots s e).foldl (fun s b => b.chain.foldl (fun s x => noteReserve s e (b.area + 1) x.1 64) s) s'

/-- INVENTORY (R419). -/
def inventoryRun (d : DescId) (j : Job) (x : DescState) (w : List Nat) (s : State) : State :=
  let l := ((s.job j).plan.map fun p => p.incoming).getD []
  let data := l.flatMap fun e => wordBytes (inventoryEntry s e)
  let ks := localSteps s j
  let word := if ks = [] then absent + 2 ^ 32 * absent else ks.foldl min absent + 2 ^ 32 * ks.foldl max 0
  let s := setResult (l.foldl noteRegion s) d 24 word
  match vaWrite s x.ctx (nth w 1) data with
  | some s => concludeDesc s d stOk
  | none => concludeDesc (noteVaWrite s x.ctx (nth w 1) data.length) d stPartial

def execInventory (d : DescId) (s : State) : Host.Outcome State Fault Refusal :=
  .next (startDesc s d opRestore (withArgs d 8 (restoreRun 0 d (inventoryRun d) s)))

/-! ### Writing images back (R421 to R424) -/

/-- The images that stand in a bank between two addresses, at most so many: address and header of each (log entry 47). -/
def imagesAt (b : Bank) : Nat → Nat → Nat → List (Nat × List Nat)
  | 0, _, _ => []
  | k + 1, a, e =>
    if a + 64 ≤ e then
      let h := wordsOf 8 (readBytes b a 64)
      (a, h) :: imagesAt b k (a + 64 + nth h 2) e
    else []

/-- The images that stand together at an address of a bank, in n bytes at most: the first header says how many. -/
def allImages (b : Bank) (a n : Nat) : List (Nat × List Nat) :=
  imagesAt b (min (nth (wordsOf 8 (readBytes b a 64)) 5) (n / 64)) a (a + n)

/-- The roots of the image of a slot record, rb bytes at a of the bank, replace those of the record's layer. -/
def putDenseRoots (s : State) (j : Job) (u : SecUnit) (b : Bank) (a w st rb : Nat) (mine : List Nat) : State :=
  match recordIndex s j u.slots.toNat with
  | none => s
  | some i =>
    let x := s.job j
    let s := s.setJob j { x with
      shapes := tabSet 0 x.shapes i st
      roots := (if rb = 0 then [] else [⟨i, BitVec.ofNat 32 (fld w 0 32), true, false, 0, 0⟩])
        ++ x.roots.filter fun r => r.layer != i
      rootDue := x.rootDue.filter fun r => r.layer != i }
    if rb = 0 then s else vaPut s x.ctx (rootSetAddr (recRoot mine) st false) (bankMarked b a rb)

/-- The image of a slot record is written into slot A with its roots, its tags 0 and its count that of the secured slot. -/
def putDense (s : State) (j : Job) (u : SecUnit) (b : Bank) (a : Nat) (h : List Nat) : State :=
  let c := (s.job j).ctx
  let old := wordsOf 8 (readBytes b (a + 64) 64)
  let mine := slotWords s c u.slots.toNat
  let st := nth h 3
  let rb := nth h 4
  let slot := nth h 2 - 64 - rb
  let s := vaPut s c (recAddr mine 0) (bankMarked b (a + 128) slot)
  let s := ctxWrite s c (u.slots.toNat + 16) (wordBytes [0, recCount old (nth h 1)])
  let s := ctxWrite s c (u.slots.toNat + 48) (wordBytes [fld (nth old 6) 0 32 + 2 ^ 32 * absent])
  putDenseRoots s j u b (a + 128 + slot) (nth old 6) st rb mine

/-- The rows of a sparse table are written into their slots A, with both tags 0. -/
def putSparse (s : State) (j : Job) (u : SecUnit) (b : Bank) (a : Nat) : State :=
  let c := (s.job j).ctx
  let n := 8 * u.width + 64
  (rangeFrom 0 u.rows).foldl (fun s i =>
    let s := vaPut s c (unitRow u i 0) (bankMarked b (a + 64 + i * n) n)
    ctxWrite (ctxWrite s c (unitRow u i 0) (leBytes 4 0)) c (unitRow u i 1) (leBytes 8 0)) s

/-- Ladder copy 0 holds the secured table, and copy 1 equals it (R423). -/
def putLadder (s : State) (j : Job) (l : List MarkedByte) : State :=
  let c := (s.job j).ctx
  vaPut (vaPut s c (s.job j).ladder.toNat l) c ((s.job j).ladder.toNat + l.length) l

/-- Writes one image of a plan's unit. -/
def putImage (j : Job) (p : Plan) (b : Bank) (s : State) (e : Nat × List Nat) : State :=
  match p.units[nth e.2 0]? with
  | none => s
  | some u => match u.kind with
    | 0 => putDense s j u b e.1 e.2
    | 1 => putSparse s j u b e.1
    | _ => putLadder s j (bankMarked b (e.1 + 64) (nth e.2 2))

/-! ### Journal records (R404, R422, R424) -/

/-- A weight stepped by a journal value: forward as R264, or back as R422; rounded once. -/
def stepWeight (back : Bool) (k : Int) (w δ : FVal) : FVal :=
  (if back then (fAdd .fp32 .rne w (δ.scale (-k))) else (fSub .fp32 .rne w (δ.scale (-k)))).1

/-- Weights at an address stepped by codes and scales that stand in a bank. -/
def stepWeights (s : State) (c : Ctx) (back : Bool) (k : Int) (va : Nat) (b : Bank) (scales codes n : Nat) : State :=
  let bad := poisoned b scales (n / 32) || poisoned b codes (n / 2)
  let out := (rangeFrom 0 n).flatMap fun i =>
    let δ := scaledElem .e2m1 (readByte b (scales + i / 32)).toNat 0 (readElem (readByte b) codes .e2m1 i)
    leBytes 4 (packVal .fp32 (stepWeight back k (decodeElem .fp32 (vaN s c (va + 4 * i) 4)) δ))
  let src := vaMarked s c va (4 * n)
  vaPut s c va (List.zipWith (fun v m => (v, m.2 || bad)) out src)

/-- A step count moved by one. -/
def stepCount (s : State) (c : Ctx) (back : Bool) (va : Nat) : State :=
  let t := vaN s c va 4
  ctxWrite s c va (leBytes 4 (if back then t - 1 else min (t + 1) 0xFFFFFFFF))

/-- Applies the journal record at an address of a bank to its unit, which stands in slot A. -/
def applyRecord (j : Job) (p : Plan) (back : Bool) (b : Bank) (s : State) (a : Nat) : State :=
  let c := (s.job j).ctx
  let h := wordsOf 8 (readBytes b a 64)
  let k := toSigned 16 (fld (nth h 0) 48 16)
  match p.units[fld (nth h 0) 32 16]? with
  | none => s
  | some u =>
    if u.kind = 0 then
      let n := nth h 1
      let s := stepWeights s c back k (recAddr (slotWords s c u.slots.toNat) 0) b (a + 64) (a + 64 + roundUp (n / 32) 64) n
      stepCount s c back (u.slots.toNat + 24)
    else
      let sz := roundUp (4 + u.width / 32 + u.width / 2) 8
      (rangeFrom 0 (nth h 1)).foldl (fun s i =>
        let e := a + 64 + i * sz
        let row := readNat b e 4
        let s := stepWeights s c back k (unitRow u row 0 + 64) b (e + 4) (e + 4 + u.width / 32) u.width
        stepCount s c back (unitRow u row 0 + 4)) s

/-- Places of the journal records of a chain entry: each begins at a 64-byte boundary. -/
def recordsAt (b : Bank) : Nat → Nat → Nat → List Nat
  | 0, _, _ => []
  | k + 1, a, e =>
    if a + 64 ≤ e then a :: recordsAt b k (a + roundUp (max 64 (nth (wordsOf 8 (readBytes b a 64)) 2)) 64) e else []

/-! ### After APPLY (R423) -/

/-- Every unit stands at j and E is 0: the commit record is written, the first point must be FULL, and of the journal and the keep
halves what belongs to later steps is void. -/
def afterApply (s : State) (j : Job) (step : Nat) : State :=
  let x := s.job j
  let dig := digest64 ((vaRead s x.ctx x.ladder.toNat (64 * jobLayers s j)).getD ([], false)).1
  let s := jobWrite s j x.update.toNat (commitBytes (recordWords 0 s.gau.count.toNat step x.nranks dig j.val 0 0))
  let x := { endAttempt (s.job j) with
    tagLog := [], shadow := none, jobWide := none, watchBlocks := [], restore := none
    staged := (s.job j).staged.filter fun r => decide (r.step.toNat ≤ step)
    plan := (s.job j).plan.map fun p => { p with
      streams := p.streams.map fun t => { t with last := none, off := 0 }
      keepSteps := p.keepSteps.filter fun e => decide (e.2 ≤ step) } }
  s.setJob j x

/-- A RESTORE has applied its state. -/
def concludeApply (s : State) (d : DescId) (steps : Nat) (bad : Bool) : State :=
  let s := updDesc s d fun x => { x with tallies := { x.tallies with restoreSteps := sat32 (x.tallies.restoreSteps + steps) } }
  concludeDesc s d (if bad then stPartial else stOk)

/-! ### APPLY_LOCAL (R420, R422) -/

/-- A journal-method unit's live state moves to slot A. -/
def liveToA (j : Job) (s : State) (u : SecUnit) : State :=
  let c := (s.job j).ctx
  if u.kind = 0 then
    let r := slotWords s c u.slots.toNat
    let i := denseLive s j r
    let s := if i = 0 then s else vaPut s c (recAddr r 0) (vaMarked s c (recAddr r 1) (8 * recElems r + unitStat s j u))
    ctxWrite s c (u.slots.toNat + 16) (wordBytes [0, recCount r i])
  else
    (rangeFrom 0 u.rows).foldl (fun s i =>
      let n := 8 * u.width + 64
      let s := if rowLive s j u i = 0 then s else vaPut s c (unitRow u i 0) (vaMarked s c (unitRow u i 1) n)
      ctxWrite (ctxWrite s c (unitRow u i 0) (leBytes 4 0)) c (unitRow u i 1) (leBytes 8 0)) s

/-- The keep half that holds a step. -/
def keepOf (p : Plan) (step : Nat) : Option Nat := (p.keepSteps.find? fun e => e.2 == step).map Prod.fst

def applyLocalRun (d : DescId) (j : Job) (_x : DescState) (w : List Nat) (s : State) : State :=
  let step := fld (nth w 0) 32 32
  match (s.job j).plan with
  | none => concludeDesc s d stNoLive
  | some p =>
    match keepOf p step with
    | none => concludeDesc s d stNoLive
    | some half =>
      if !(localSteps s j).contains step then concludeDesc s d stNoLive
      else
        let c := (s.job j).ctx
        let now := jobStep s j
        let at_ := p.keepAddr.toNat + half * p.keepBytes.toNat
        let head := wordsOf 8 ((vaMarked s c at_ 64).map Prod.fst)
        let size := if p.keepBytes.toNat < 64 then 0 else min (nth head 6) p.keepBytes.toNat
        let s := noteRanges s j [(at_, max 64 size)]
        let keep := bankOf (vaMarked s c at_ size)
        let s := noteRanges s j (imageRanges s j p fun u => u.journal)
        let s := (p.units.filter fun u => u.journal).foldl (liveToA j) s
        let s := (allImages keep 0 size).foldl (putImage j p keep) s
        let recs := (s.job j).staged.filter fun r => decide (step < r.step.toNat ∧ r.step.toNat ≤ now)
        let order := (rangeFrom 0 (now - step)).flatMap fun i => recs.filter fun r => r.step.toNat == now - i
        let (s, bad) := order.foldl (fun (acc : State × Bool) r =>
          let b := bankOf (vaMarked acc.1 c (stageSlot p r.step.toNat + r.off) r.bytes)
          (applyRecord j p true b (noteRanges acc.1 j (journalRanges p [r])) 0, acc.2 || b.poison != [])) (s, keep.poison != [])
        concludeApply (afterApply s j step) d order.length bad

def execApplyLocal (d : DescId) (s : State) : Host.Outcome State Fault Refusal :=
  .next (startDesc s d opRestore (withArgs d 8 (restoreRun 2 d (applyLocalRun d) s)))

/-! ### APPLY_REMOTE (R421): what comes back, and what a target sends back -/

/-- Updates the restore under way. -/
def updRestore (s : State) (j : Job) (g : Restore → Restore) : State :=
  match (s.job j).restore with
  | some r => s.setJob j { s.job j with restore := some (g r) }
  | none => s

/-- One message of a stream that is sent back (R421). -/
def sendPiece (j : Job) (a : Asked) (area off : Nat) (l : List MarkedByte) (s : State) : State :=
  sendSecure j (.back j a.src a.stream) a.src [routeTo s j a.src.toNat] true a.stream area off 0 l s

/-- The message that ends a stream that is sent back: how many messages there were, that there is no such point, that one was lost. -/
def sendClosing (j : Job) (a : Asked) (n : Nat) (missing lost : Bool) (s : State) : State :=
  sendPiece j a 7 0 (clean (wordBytes [n, bnat missing, bnat lost, 0, 0, 0, 0, 0])) s

/-- The sends of an owner, with their dies and keys. -/
def sendsOf (s : State) (o : SendOwner) : List (Die × Nat × SendMsg) :=
  ([0, 1] : List Die).flatMap fun d => ((s.die d).sends.filter fun e => e.2.owner = o).map fun e => (d, e)

/-- The failed sends of an owner are forgotten. -/
def dropFailed (s : State) (o : SendOwner) : State :=
  ([0, 1] : List Die).foldl (fun s d => updDie s d fun y => { y with
    sends := y.sends.filter fun e => !(decide (e.2.owner = o) && e.2.failed) }) s

/-- Once every message of a stream that is sent back is acknowledged or lost, the closing message goes out. -/
def backStep (s : State) (j : Job) (src : BitVec 16) (stream : Nat) : State :=
  let mine := fun (a : Asked) => a.src == src && a.stream == stream && a.sent.isSome
  let l := sendsOf s (.back j src stream)
  match (s.job j).asked.find? mine with
  | some a =>
    if l.all fun e => e.2.2.failed then
      let s := dropFailed (s.setJob j { s.job j with asked := (s.job j).asked.filter fun b => !mine b }) (.back j src stream)
      sendClosing j a (a.sent.getD 0) false (l != []) s
    else s
  | none => s

/-- The base slot, its chain up to the step, and the quick slot, as they stand in the secure reserve: area, offset, bytes. -/
def backPieces (s : State) (e : Incoming) (b : BaseSlot) (up : List (Nat × List Nat)) (q : Option Nat) :
    List (Nat × Nat × List MarkedByte) :=
  let piece := fun area off n => (area, off, reserveRead s (areaStart e area + off) n)
  piece b.area 0 (64 + recBytes b.rec_) :: up.map (fun x => piece (b.area + 1) x.1 (64 + recBytes x.2))
    ++ (match q with
      | some q => [piece (4 + q) 0 e.quickBytes]
      | none => [])

/-- What reaches step j of the incoming reserve e is sent back piece by piece, then the closing message. -/
def sendPoint (s : State) (j : Job) (a : Asked) (e : Incoming) : State :=
  match reaches (baseSlots s e) a.step.toNat with
  | none => sendClosing j a 0 true false s
  | some (b, up, q) =>
    let l := backPieces s e b up q
    let s := l.foldl (fun s x => sendPiece j a x.1 x.2.1 x.2.2 (noteReserve s e x.1 x.2.1 x.2.2.length)) s
    let n := (l.map fun x => ceilDiv x.2.2.length 65536).sum
    backStep (s.setJob j { s.job j with asked := (s.job j).asked ++ [{ a with sent := some n }] }) j a.src a.stream

/-- RESTORE_START_MARK: at START a target begins to send back what reaches step j, and then a closing message that says how
many messages it sent, or that it holds no such point. -/
def sendBack (s : State) (j : Job) (a : Asked) : State :=
  match incomingOf s j a.src a.stream with
  | none => sendClosing j a 0 true false s
  | some e => sendPoint (noteRegion s e) j a e

def restoreStartMark (j : Job) (src : BitVec 16) (s : State) : State :=
  let mine := fun (a : Asked) => a.src == src && a.sent.isNone && atMark s a.start.toNat
  let due := (s.job j).asked.filter mine
  let s := s.setJob j { s.job j with asked := (s.job j).asked.filter fun a => !mine a }
  due.foldl (fun s a => sendBack s j a) s

def execRestoreStartMark (j : Job) (srcRank : BitVec 16) (s : State) : Host.Outcome State Fault Refusal :=
  .next (restoreStartMark j srcRank s)

/-- Where a stream's area stands in the buffer of what has come back. -/
def bufAddr (stream area off : Nat) : Nat := (stream * 16 + area) * 2 ^ 44 + off

/-- The base area of a stream that came back: the one with a valid record. -/
def bufBase (b : Bank) (st : Nat) : Option (Nat × List Nat) :=
  [0, 2].findSome? fun a =>
    let w := wordsOf 8 (readBytes b (bufAddr st a 0) 64)
    if snapValid w && recKind w == 1 then some (a, w) else none

/-- Applies one stream: base images, journal records entry by entry, and the images of the quick slot that the last entry
names. Answers how many journal records were applied. -/
def applyStream (j : Job) (p : Plan) (step : Nat) (b : Bank) (acc : State × Nat) (st : Nat) : State × Nat :=
  match bufBase b st with
  | none => acc
  | some (a, w) =>
    let base := bufAddr st a 64
    let s := (allImages b base (recBytes w)).foldl (putImage j p b) acc.1
    let entries := ((rangeFrom 0 (step - recStep w)).foldl (fun (acc : List (Nat × List Nat) × Nat) _ =>
      let e := wordsOf 8 (readBytes b (bufAddr st (a + 1) acc.2) 64)
      if snapValid e && recKind e == 2 && decide (recStep e ≤ step) then
        (acc.1 ++ [(acc.2, e)], acc.2 + 64 + roundUp (recBytes e) 64)
      else acc) ([], 0)).1
    let places := entries.flatMap fun e =>
      recordsAt b (recBytes e.2 / 64 + 1) (bufAddr st (a + 1) (e.1 + 64)) (bufAddr st (a + 1) (e.1 + 64) + recBytes e.2)
    let s := places.foldl (applyRecord j p false b) s
    let s := match entries.getLast? with
      | some e =>
        if recQslot e.2 = 0xFF then s
        else
          let at_ := bufAddr st (4 + recQslot e.2) 0
          (allImages b at_ (nth (wordsOf 8 (readBytes b at_ 64)) 6)).foldl (putImage j p b) s
      | none => s
    (s, acc.2 + places.length)

/-- Once both streams are complete, their state is written (R421, R423). -/
def checkRestored (s : State) (j : Job) : State :=
  match (s.job j).plan, (s.job j).restore with
  | some p, some r =>
    if r.failed then concludeDesc (s.setJob j { s.job j with restore := none }) r.desc stPartial
    else if [0, 1].all fun st => match tabFind r.total st with
        | some n => tabGet 0 r.got st == n
        | none => false then
      if r.missing then concludeDesc (s.setJob j { s.job j with restore := none }) r.desc stNoLive
      else
        let (s, n) := [0, 1].foldl (applyStream j p r.step.toNat r.buf) (s, 0)
        concludeApply (afterApply s j r.step.toNat) r.desc n (r.buf.poison != [])
    else s
  | _, _ => s

/-- A message of a restore has come: data counts for its stream, a closing message says how many there are. -/
def restoreGot (s : State) (j : Job) (a : Nat) : State :=
  let st := addrStream a
  let s := updRestore s j fun r =>
    if addrArea a = 7 then
      let w := wordsOf 8 (readBytes r.buf (bufAddr st 7 0) 64)
      { r with total := tabPut r.total st (nth w 0), missing := r.missing || nth w 1 != 0, failed := r.failed || nth w 2 != 0 }
    else { r with got := tabSet 0 r.got st (tabGet 0 r.got st + 1) }
  checkRestored s j

/-- Messages of restores that have failed: a request that did not go out fails the restore, a lost piece is told in the closing
message (R421). -/
def settleRestore (s : State) (j : Job) : State :=
  let s := if (sendsOf s (.restore j)).any fun e => e.2.2.failed then
      checkRestored (updRestore (dropFailed s (.restore j)) j fun r => { r with failed := true }) j
    else s
  (s.job j).asked.foldl (fun s a => backStep s j a.src a.stream) s

def settleRestores (s : State) : State := ([0, 1, 2, 3, 4, 5, 6, 7] : List Job).foldl settleRestore s

/-- APPLY_REMOTE: each target is asked, by a message, to send back the stream from START on (log entry 47). -/
def applyRemoteRun (d : DescId) (j : Job) (x : DescState) (w : List Nat) (s : State) : State :=
  let step := fld (nth w 0) 32 32
  match (s.job j).plan with
  | none => concludeDesc s d stNoLive
  | some p =>
    if (s.job j).restore.isSome then endDesc s d stBadDescriptor
    else
      let r : Restore :=
        { desc := d, step := BitVec.ofNat 32 step, start := BitVec.ofNat 64 (nth w 2), buf := {}, got := [], total := []
          missing := false, failed := false }
      let s := (s.setDesc d { x with phase := .running }).setJob j { s.job j with restore := some r }
      settleRestores ([0, 1].foldl (fun s st =>
        sendSecure j (.restore j) (p.targets.getD st 0) (streamRoutes s j p st) true st 6 0 0
          (clean (wordBytes [step, nth w 2, 0, 0, 0, 0, 0, 0])) s) s)

def execApplyRemote (d : DescId) (s : State) : Host.Outcome State Fault Refusal :=
  .next (startDesc s d opRestore (withArgs d 8 (restoreRun 1 d (applyRemoteRun d) s)))

end Sys2Proof.Machine
end

