-- ==== Sys2Proof/Machine/Deliver.lean ====
section
/-!
DEFINITION. Delivery at the receiving link DMA (R293, R335, R345, R346, R430): payloads, receive entries, completion of
messages, ACKs, and stale sends.
-/

namespace Sys2Proof.Machine

open Sys2Proof

/-! ### Writing a payload -/

/-- No range of a list stands in a panel whose memory controllers are in reset (R303). -/
def partsUp (s : State) (l : List (Nat × Nat)) : Bool := l.all fun p => !(s.memCtl (paPanel p.1)).inReset

/-- The payload's units: number, bytes, poison. -/
def payloadUnits (p : Packet) : List (Nat × List Byte × Bool) :=
  let l := p.payload.take p.hdr.plen.toNat
  (rangeFrom 0 (ceilDiv l.length 64)).map fun u => (u, (l.drop (64 * u)).take 64, p.hdr.poison.getLsbD u)

/-- Writes a payload to the job's memory; answers whether every byte has been written. -/
def writeVa (s : State) (d : Die) (p : Packet) : State × Bool :=
  let j := hdrJob p.hdr
  let c := (s.job j).ctx
  let base := p.hdr.dstAddr.toNat + p.hdr.offset.toNat
  (payloadUnits p).foldl (fun acc u =>
    let va := base + 64 * u.1
    match vaParts acc.1 c .write va u.2.1.length with
    | some l => (ctxWrite acc.1 c va u.2.1 u.2.2, acc.2 && partsUp acc.1 l)
    | none =>
      (raiseEv (noteVaWrite acc.1 c va u.2.1.length) evAccessFault (srcDma d) [] (some c) (jobField j), false)) (s, true)

/-- The area that a point writes: a FULL point the base slot that is not current, and the chain behind it; a DELTA point the chain of
the current slot (R414). -/
def placeArea (s : State) (e : Incoming) (a : Nat) : Nat :=
  let cur := ((baseSlots s e).head?.map fun b => b.area).getD 2
  if a = 0 ∨ a = 1 then (2 - cur) + a else if a = 3 then cur + 1 else a

/-- Writes a payload of a securing stream to its area of the secure reserve. -/
def writeReserve (s : State) (p : Packet) : State × Bool :=
  let a := p.hdr.dstAddr.toNat
  match incomingOf s (hdrJob p.hdr) p.hdr.srcRank (addrStream a) with
  | none => (s, false)
  | some e =>
    let area := placeArea s e (addrArea a)
    let off := addrOff a + p.hdr.offset.toNat
    if areaBytes e area < off + p.hdr.plen.toNat then (s, false)
    else
      (payloadUnits p).foldl (fun acc u =>
        let pa := reservePa acc.1 (areaStart e area + off + 64 * u.1)
        (gddrWrite acc.1 pa u.2.1 u.2.2, acc.2 && partsUp acc.1 [(pa, u.2.1.length)])) (s, true)

/-- Takes a payload of a restore: a target's request, or what comes back. -/
def takeBack (s : State) (p : Packet) : State × Bool :=
  let j := hdrJob p.hdr
  let a := p.hdr.dstAddr.toNat
  if addrArea a = 6 then
    let w := wordsOf 8 p.payload
    let q : Asked := { src := p.hdr.srcRank, stream := addrStream a, step := BitVec.ofNat 32 (nth w 0), start := BitVec.ofNat 64 (nth w 1) }
    (s.setJob j { s.job j with asked := (s.job j).asked ++ [q] }, true)
  else if (s.job j).restore.isSome then
    (updRestore s j fun r => { r with buf := (payloadUnits p).foldl (fun b u =>
      bankWrite b (bufAddr (addrStream a) (addrArea a) (addrOff a + p.hdr.offset.toNat + 64 * u.1)) u.2.1 u.2.2) r.buf }, true)
  else (s, false)

def writePayload (s : State) (d : Die) (p : Packet) : State × Bool :=
  let a := p.hdr.dstAddr.toNat
  if p.hdr.kind == kindData && isSecureAddr a then (if addrBack a then takeBack s p else writeReserve s p) else writeVa s d p

/-! ### Messages (R345, R346) -/

/-- Changes the receive entry of a packet's message, at whichever die holds it; an entry that becomes none is freed. -/
def updRecv (s : State) (h : PktHdr) (g : RecvMsg → Option RecvMsg) : State :=
  let f := fun (s : State) d => updDie s d fun x => { x with
    recvs := x.recvs.filterMap fun r => if recvMatches h r then g r else some r }
  if recvOpen (s.die 0) h then f s 0 else f s 1

/-- The receive entry of a packet's message. -/
def recvEntry (s : State) (h : PktHdr) : Option RecvMsg :=
  (((s.die 0).recvs ++ (s.die 1).recvs)).find? (recvMatches h)

/-- A message is complete: a DATA message is acknowledged, a collective's is combined. -/
def messageDone (s : State) (h : PktHdr) (r : RecvMsg) : State :=
  match r.coll with
  | some (d, e) => collReceived s d e
  | none =>
    if h.kind == kindData then
      let s := sendAck s (hdrJob h) h.srcRank.toNat h.msgId
      if isSecureAddr h.dstAddr.toNat && addrBack h.dstAddr.toNat && addrArea h.dstAddr.toNat != 6 then
        restoreGot s (hdrJob h) h.dstAddr.toNat
      else s
    else s

/-- A payload's bytes count for its message, which is complete when the count equals MSG_LEN, and at no other time. -/
def countBytes (s : State) (h : PktHdr) : State :=
  match recvEntry s h with
  | none => s
  | some r =>
    let n := r.count + h.plen.toNat
    if n = r.len then messageDone (updRecv s h fun _ => none) h r else updRecv s h fun r => some { r with count := n }

/-- An ACK reaches the table of sends (R346). -/
def takeAck (s : State) (d : Die) (h : PktHdr) : State :=
  match findSend s d (hdrJob h) h.msgId with
  | none => s
  | some x =>
    if x.failed then s
    else match x.owner with
      | .secure j st => streamStep (dropSend s d (hdrJob h) h.msgId) j st
      | .restore _ => dropSend s d (hdrJob h) h.msgId
      | .back j src st => backStep (dropSend s d (hdrJob h) h.msgId) j src st
      | .slotMove _ | .hostMove _ => putSend s d (hdrJob h) h.msgId { x with acked := true }
      | _ => s

def countDelivered (s : State) (d : Die) : State := updDie s d fun x => { x with delivered := x.delivered + 1 }

/-- DELIVERY_WRITE: the packet that has held its delivery buffer longest is written (R335, R345, R346); the buffer goes to the
oldest reservation that holds none (R337), while those set aside for collectives stay theirs (R339). -/
def deliveryWrite (d : Die) (s : State) : State :=
  match (s.die d).dbufs with
  | [] => s
  | p :: rest =>
    let h := p.hdr
    let s := updDie s d fun x => { x with dbufs := rest, progress := s.now, rsv := if h.kind == kindColl then x.rsv else fillFirst x.rsv }
    if !genOk s h then
      updCtx (updDie s d fun x => { x with genDrop := x.genDrop + 1 }) (s.job (hdrJob h)).ctx fun x => { x with genDrop := x.genDrop + 1 }
    else if h.kind == kindAck then takeAck (takeAck (countDelivered s d) 0 h) 1 h
    else if h.msgLen.toNat < h.offset.toNat + h.plen.toNat then updDie s d fun x => { x with msgRange := x.msgRange + 1 }
    else
      let (s, ok) := writePayload (countDelivered s d) d p
      if ok then countBytes s h else s

def execDeliveryWrite (die : Die) (s : State) : Host.Outcome State Fault Refusal := .next (deliveryWrite die s)

/-! ### MSG_STALE (R430) -/

/-- The part that a stale send belongs to fails. -/
def failStale (s : State) (d : Die) (j : Job) (m : W32) (x : SendMsg) : State :=
  let s := putSend s d j m { x with failed := true }
  match x.owner with
  | .slotMove t => failSlotPart s t
  | .hostMove q => dropSend (updDesc s q fun y => { y with
      parts := y.parts.map fun p => if p.unit = 160 + d.val then { p with failed := true } else p }) d j m
  | .back k src st => backStep s k src st
  | .restore k => checkRestored (updRestore (dropSend s d j m) k fun r => { r with failed := true }) k
  | _ => s

/-- MSG_STALE: a DATA send without its ACK ENGINE_WIN after its last packet was injected is closed. -/
def msgStale (d : Die) (j : Job) (m : W32) (s : State) : State :=
  match findSend s d j m with
  | none => s
  | some x =>
    if awaitsAck x && x.waiting == 0 && elapsed s x.injectedAt (msTicks s.glb.engineWin.toNat) then
      let s := raiseEv s evMsgStale (srcDma d) [m.toNat + 2 ^ 32 * x.dst.toNat] (some x.ctx) (jobField j)
      failStale (updCtx s x.ctx fun c => { c with msgAbandoned := c.msgAbandoned + 1 }) d j m x
    else s

def execMsgStale (die : Die) (j : Job) (msg : W32) (s : State) : Host.Outcome State Fault Refusal := .next (msgStale die j msg s)

/-! ### Commands at which an injection may end: what a restore has lost by it is settled (R347, R421) -/

/-- EXIT_ARBITRATION (R336). -/
def execExitArbitration (e : Exit) (s : State) : Host.Outcome State Fault Refusal := .next (settleRestores (arbitrate s e))

def execRouteEpochSwitch (j : Job) (s : State) : Host.Outcome State Fault Refusal :=
  .next (if fires s (.routeEpoch j) then settleRestores (routeSwitch j s) else s)

end Sys2Proof.Machine
end

