-- ==== Sys2Proof/Machine/Logs.lean ====
section
/-!
DEFINITION. Reading and flushing the event paths, their registers, and the I3C messages (R443, R448, R449, R504, R514).
-/

namespace Sys2Proof.Machine

open Sys2Proof

/-- The chip bench reads the panel rings; it runs from LOCK on (R475, R478). -/
def execEventRingScan (s : State) : Host.Outcome State Fault Refusal := .next (if benchUp s then scanRings s else s)

def execLogFlush (path : PathName) (s : State) : Host.Outcome State Fault Refusal := .next (if benchUp s then evFlush s path else s)

/-- A write of GLB.LOGACK: the records below ACK are free, and the path is flushed. -/
def logAck (v : W64) (s : State) : State :=
  evFlush (s.setPath .chipLog { s.path .chipLog with ack := (v.extractLsb' 0 32).toNat }) .chipLog

def execLogackWrite (v : W64) (s : State) : Host.Outcome State Fault Refusal := .next (hostWrite s (logAck v))

/-- A write of QMG.EVQACK. -/
def evqAck (v : W64) (s : State) : State :=
  evFlush (s.setPath .host { s.path .host with ack := (v.extractLsb' 0 32).toNat }) .host

def execEvqackWrite (v : W64) (s : State) : Host.Outcome State Fault Refusal := .next (hostWrite s (evqAck v))

/-- A write of QMG.EVQBASE, taken only while the queue is disabled. -/
def evqBase (v : W64) (s : State) : State :=
  if s.ev.evqEnable then s
  else { s with ev := { s.ev with evqBase := (v.extractLsb' 12 40).setWidth 64 <<< 12 } }

/-- A write of QMG.EVQCFG: LOG2SIZE only while the queue is disabled, then ENABLE, which empties it, then TRACE and VECTOR. -/
def evqCfg (v : W64) (s : State) : State :=
  let on := v.getLsbD 5
  let e := s.ev
  let fresh := on && !e.evqEnable
  { s with ev := { e with
      evqLog2 := if e.evqEnable then e.evqLog2 else max 10 (min 20 (v.extractLsb' 0 5).toNat)
      evqEnable := on, evqTrace := v.getLsbD 6, evqVector := v.extractLsb' 7 11
      host := if fresh then { e.host with written := 0, ack := 0 } else e.host
      evqWindow := if fresh then none else e.evqWindow } }

def execEvqEnable (v : W64) (s : State) : Host.Outcome State Fault Refusal := .next (hostWrite s (evqCfg v))

/-- A write of GLB.EVCFG. -/
def evCfg (v : W64) (s : State) : State := { s with ev := { s.ev with i3cEn := v.getLsbD 0, i3cWarn := v.getLsbD 1 } }

/-- The first record of the highest priority in a list, and the list without it. -/
def takeUrgent (l : List EvRec) : Option (EvRec × List EvRec) :=
  let best := l.foldl (fun n e => min n (evPrio e.code)) 4
  match l.findIdx? fun e => evPrio e.code == best with
  | some i => (l[i]?).map fun e => (e, l.eraseIdx i)
  | none => none

/-- I3C_SEND: one record goes out as an MCTP message. -/
def i3cSend (s : State) : State :=
  if !s.pwr.pwrGood then s else match takeUrgent s.ev.i3c.recs with
  | some (e, rest) => ({ s with ev := { s.ev with i3c := { s.ev.i3c with recs := rest } } }).emit (.mctp e)
  | none => s

def execI3cSend (s : State) : Host.Outcome State Fault Refusal := .next (i3cSend s)

/-- ALERT#: asserted while the I3C send queue holds a fatal or error record; a module without power asserts nothing (R503, R504). -/
def alertPin (s : State) : Bool := s.pwr.pwrGood && s.ev.i3c.recs.any fun e => decide (evPrio e.code ≤ 1)

/-- PRESENT# is asserted, with power or without (R503). -/
def presentPin (s : State) : Bool := s.pwr.j3Mated

/-- MCTP_HEARTBEAT: every 100 ms, from the chip bench from LOCK on, from the security block alone while the plinth or recovery
runs. -/
def mctpHeartbeat (s : State) : State :=
  let due := match s.ev.beatAt with
    | some t => elapsed s t (msTicks 100)
    | none => true
  if s.pwr.pwrGood && (s.sec.lock || s.sec.boot == .reset || s.sec.boot == .recovery) && due then
    ({ s with ev := { s.ev with beatAt := some s.now } }).emit (.heartbeat (!s.sec.lock))
  else s

def execMctpHeartbeat (s : State) : Host.Outcome State Fault Refusal := .next (mctpHeartbeat s)

end Sys2Proof.Machine
end

