-- ==== Sys2Proof/Machine/Resets.lean ====
section
/-!
DEFINITION. The rungs carried out (R426, R436, R440 to R443): panel, chip, power cycle; their time limits; host requests; the
risk score (R416, R417).
-/

namespace Sys2Proof.Machine

open Sys2Proof

/-! ### PANEL_RUNG (R440) -/

/-- Bytes of a memory in a range are lost, and its poison with them. -/
def loseRange (b : Bank) (lo n : Nat) : Bank :=
  { cells := b.cells.filter fun c => ¬ (lo ≤ c.1 ∧ c.1 < lo + n)
    poison := b.poison.filter fun u => ¬ (lo ≤ 64 * u ∧ 64 * u < lo + n) }

/-- Parts on a panel's units have no slots and no handles any more. -/
def stripParts (s : State) (p : Panel) : State :=
  let hit := fun (x : PartState) => unitPanel x.unit == some p
  { s with qmg := { s.qmg with descs := s.qmg.descs.map fun e =>
      (e.1, { e.2 with parts := e.2.parts.map fun x => if hit x then { x with slots := [], handles := [] } else x }) } }

/-- Messages that the slots of a panel wait for are given up. -/
def dropPanelSends (s : State) (p : Panel) : State :=
  ([0, 1] : List Die).foldl (fun s d => updDie s d fun x => { x with
    sends := x.sends.filter fun e => match e.2.owner with
      | .slotMove t => slotPanel t != p
      | _ => true }) s

/-- A core as the panel rung leaves it: its engines' incarnations stay. -/
def coreReset (c : CoreState) (now : Nat) : CoreState :=
  let e := fun (x : EngState) => { inc := x.inc, progress := now : EngState }
  { matrix := e c.matrix, vector := e c.vector, mover := e c.mover }

/-- Rungs of a panel's engines that its own rung takes over. -/
def dropEngineRungs (s : State) (p : Panel) : State :=
  { s with glb := { s.glb with rungs := s.glb.rungs.filter fun r => match r.scope with
      | .engine c _ => corePanel c != p
      | .unit u => unitOwner u != some p
      | _ => true } }

/-- What the engines of a panel have outstanding. -/
def panelOutstanding (s : State) (p : Panel) : Nat :=
  ((s.cores.filter fun e => e.1 / 40 == p.val).map fun e => outstanding (e.2.matrix.queue ++ e.2.vector.queue ++ e.2.mover.queue)).sum
    + unitOutstanding s (unitNum (.update p))

/-- The reset of a panel; its clocks run at once at the points of the stages and caps in force (R467); replies to its engines find
another incarnation (R435). -/
def resetPanel (s : State) (p : Panel) : State :=
  let s := dropEngineRungs (dropLate s (panelOutstanding s p)) p
  let s := spoilReady (stripParts (dropPanelSends s p) p) p
  let x := s.panel p
  let s := s.setPanel p { x with
    inc := x.inc + 1, state := 0, comparators := [], wdog := s.now, sync := [], stall := none, held := none, resetAt := s.now
    cycAt := s.now, cycBase := 0 }
  snapPoints { s with
    mem := { s.mem with
      bench := loseRange s.mem.bench (40 * p.val * benchSize) (40 * benchSize)
      pstore := loseRange s.mem.pstore (pstoreAddr p 0) pstoreSoft }
    slots := s.slots.filter fun e => e.1 / 2560 != p.val
    cores := (s.cores.map fun e => if e.1 / 40 = p.val then (e.1, coreReset e.2 s.now) else e).filter fun e => e.2 ≠ ({} : CoreState) } p

/-- PANEL_RUNG: the panel is reset, its memory controllers answer again, and the parts on its units fail (R390, R440). -/
def panelRung (p : Panel) (s : State) : State :=
  if rungOn s (.panel p) then
    let s := failParts (fun u => unitPanel u == some p) (freeMem (dropRung (resetPanel s p) (.panel p)) p)
    noteRung 3 (restartPanel { s with glb := { s.glb with pnlRungs := count16 s.glb.pnlRungs } } p)
  else s

def execPanelRung (p : Panel) (s : State) : Host.Outcome State Fault Refusal := .next (panelRung p s)

/-! ### CHIP_RUNG (R440, R491) -/

/-- What every path keeps across the chip rung: its counters; the chip log and the I3C queue their records. -/
def resetEvents (e : EvState) : EvState :=
  { rings := (e.rings.map fun x => (x.1, { cnt := x.2.cnt : EvPath })).filter fun x => x.2 ≠ ({} : EvPath)
    chipLog := { e.chipLog with summed := [], summedAt := none }
    host := { cnt := e.host.cnt }
    i3c := { e.i3c with summed := [], summedAt := none } }

/-- The GLB block: rung counts, LATE_DROP, dumps, and what R441 counts over time. -/
def resetGlb (g : GlbState) : GlbState :=
  { lastRung := g.lastRung, ctxRungs := g.ctxRungs, engRungs := g.engRungs, pnlRungs := g.pnlRungs, chipRungs := g.chipRungs
    lateDrop := g.lateDrop, dumpSeq := g.dumpSeq, shadows := g.shadows, rungs := g.rungs.filter fun x => decide (x.scope = .chip)
    powerRung := g.powerRung, chipRungAt := g.chipRungAt, chipFaults := g.chipFaults }

/-- The gauge: the count is not valid, and REF_OK is 0 until the reference has been seen again (R352, R356); the model's clock
stays. -/
def resetGauge (g : GauState) : GauState := { edges := g.edges }

/-- The PWR block: the supply, the sensors, the caps, the pins and the counters stay; LIMIT, the points and the drill return to
reset. -/
def resetPower (p : PwrState) : PwrState :=
  { p with limit := 1600, limitOp := [], belowSince := none, drillMark := 0, dstage := 0, drillLen := 0, drillOn := false
           drillFrom := 0, armedStage := 0, armedLen := 0, runStage := 0, runLen := 0 }

/-- The security block before the plinth: fuses stay; the firmware versions are those of the last boot until the next. -/
def resetSec (x : SecState) : SecState := { fuses := x.fuses }

/-- The memories: GDDR7, flash and host memory stay (R302). -/
def resetMem (m : MemState) : MemState := { gddr := m.gddr, host := m.host, flash := m.flash, ctl := m.ctl }

/-- What the chip rung resets in PZ4C, PZ4L-0 and PZ4L-1. -/
def resetChip (s : State) : State :=
  { pending := s.pending, free := s.free, mem := resetMem s.mem
    panels := [0, 1, 2, 3].map fun k => (k, { wdog := s.now, resetAt := s.now, cycAt := s.now : PanelState })
    glb := resetGlb s.glb, gau := resetGauge s.gau, pwr := resetPower s.pwr, sec := resetSec s.sec, ev := resetEvents s.ev
    out := s.out }

/-- Tables hold no entry at its reset value. -/
def trimPanels (s : State) : State := { s with panels := s.panels.filter fun e => e.2 ≠ ({} : PanelState) }

/-- Every panel's memory controllers answer again. -/
def freeAllMem (s : State) : State := ([0, 1, 2, 3] : List Panel).foldl freeMem s

/-- CHIP_RUNG: the reset that a rung in progress has still to carry out; what was raised since it began is taken first, a write of the
flash is cut off, the clocks follow the stages and caps that stay in force; the rung is done when the host mailbox answers
(R426, R467, R486). -/
def chipRung (s : State) : State :=
  if rungOn s .chip && (s.panel 0).state == 1 then
    let cause := ((rungRun s .chip).map fun r => r.cause).getD 0
    let s := trainChannels (freeAllMem (trimPanels (snapAll (resetChip (tearFlash (chipClose cause s))))))
    { s with glb := { s.glb with lastRung := 4, chipRungs := count16 s.glb.chipRungs } }
  else s

def execChipRung (s : State) : Host.Outcome State Fault Refusal := .next (chipRung s)

/-! ### POWER_CYCLE_RUNG (R442) -/

/-- Links and dies with every link OFF: the counters stay, since only the chip rung resets them (R323, R348). -/
def quietLinks (l : LnkState) : LnkState :=
  { l with
    links := (l.links.map fun e => (e.1, { e.2 with target := 0, phase := .off, step := 0 })).filter fun e => e.2 ≠ ({} : LinkState)
    rings := []
    dies := (l.dies.map fun e => (e.1, { e.2 with inReset := false, sends := [], recvs := [], rsv := [] })).filter
      fun e => e.2 ≠ ({} : DieState) }

/-- With PWR_CYCLE_EN = 0 the module is left with every link off, no context open, and the mailbox answering: the protection
configuration, the link enable mask with it, stays locked (R442, R478); a chip rung that was not done is given up, and a security
block that had not come so far answers from recovery. -/
def quietModule (s : State) : State :=
  let u := idleDie (idleDie (copyCounters (closePaths s)) 0) 1
  let t := dropRung (freeAllMem (trimPanels (snapAll (resetChip u)))) .chip
  let up := s.sec.boot == .locked || s.sec.boot == .refused
  { t with sec := { u.sec with boot := if up then s.sec.boot else .recovery }, lnk := quietLinks u.lnk }

/-- What the power-cycle rung says of itself: the event and the chip bench's dump; where the chip bench has failed, the
security block's event on I3C alone (R442). -/
def powerNotice (force : Bool) (cause src : BitVec 16) (s : State) : State :=
  if cause = evWdogChip ∧ force = false then raiseI3c s evPowerCycleWanted [cause.toNat]
  else
    let s := copyCounters (scanRings (raiseEv s evPowerCycleWanted src [cause.toNat, s.glb.dumpSeq.toNat + 1]))
    writeDump s 5 0 cause src (chipSects s 0)

/-- The power-cycle rung: its notice, then the request. -/
def powerRungRun (force : Bool) (cause src : BitVec 16) (s : State) : State :=
  let s := powerNotice force cause src s
  let s := { s with glb := { s.glb with powerRung := none } }
  if force || s.glb.pwrCycleEn then { s with pwr := { s.pwr with pwrCycleReq := true } } else quietModule s

def powerCycleRung (s : State) : State :=
  match s.glb.powerRung with
  | some c => powerRungRun false c (srcBench 0) s
  | none => s

def execPowerCycleRung (s : State) : Host.Outcome State Fault Refusal := .next (powerCycleRung s)

/-! ### RUNG_TIMEOUT (R441) -/

/-- Engines of a core that still hold a part of a context. -/
def holdingEngines (s : State) (c : Core) (a : Ctx) : List EngineKind :=
  ([.matrix, .vector, .mover] : List EngineKind).filter fun k =>
    ((engineParts s c k).any fun x => x.2.1.ctx == a) || (s.engine c k).queue.any fun m => m.tags.ctx == a

/-- The engine rung of each engine that still holds a part of a context. -/
def engineRungs (a : Ctx) (s : State) : State :=
  let cores := (List.finRange 160).filter fun c => (coreParts s c).any fun x => x.2.1.ctx == a
  let s := cores.foldl (fun s c => match holdingEngines s c a with
    | [] => s
    | k :: more => if unitStuck s c.val then s else engineRung c k more evResetContext s) s
  ([.linkDma 0, .linkDma 1, .update 0, .update 1, .update 2, .update 3] : List UnitName).foldl (fun s u =>
    if (unitCtxs s (unitNum u)).contains a && !unitStuck s (unitNum u) then unitRung u evResetContext s else s) s

/-- With AUTO_ESC = 0 the event of each of those rungs is raised with its suspects and its next incarnation, and the module waits for
host software (R441, R447). -/
def engineWaits (a : Ctx) (s : State) : State :=
  let s := { s with glb := { s.glb with escWait := true } }
  let cores := (List.finRange 160).filter fun c => (coreParts s c).any fun x => x.2.1.ctx == a
  let s := cores.foldl (fun s c =>
    let ks := holdingEngines s c a
    ks.foldl (fun s k => raiseEv s evResetEngine (srcCore c) [(suspects s c ks).length, ((s.engine c k).inc + 1).toNat] none 0xFF (srcSub k)) s) s
  ([.linkDma 0, .linkDma 1, .update 0, .update 1, .update 2, .update 3] : List UnitName).foldl (fun s u =>
    if (unitCtxs s (unitNum u)).contains a then
      raiseEv s evResetEngine (BitVec.ofNat 16 (unitNum u)) [(servedCtx s u).toList.length, (unitInc s u + 1).toNat] else s) s

/-- A context rung whose completion time has passed: its drain mark plus 50 ms. -/
def contextLate (s : State) (c : Ctx) : Bool :=
  (s.ctx c).phase == .closing && decide ((s.ctx c).drainMark.toNat + msTicks 50 ≤ s.gau.count.toNat)

/-- The rung that follows an engine rung which is not done within 1 ms (R441). -/
def engineLateRung (s : State) : RungScope → State
  | .engine c _ => engineToPanel (corePanel c) evResetEngine (srcCore c) s
  | .unit u => match unitOwner u with
    | some p => engineToPanel p evResetEngine (BitVec.ofNat 16 (unitNum u)) s
    | none =>
      let src := BitVec.ofNat 16 (unitNum u)
      escalate s evResetChip src [evResetEngine.toNat] (startChip evResetEngine src)
  | _ => s

def rungTimeout (r : RungScope) (s : State) : State :=
  match rungRun s r with
  | none => s
  | some x =>
    match r with
    | .context c => if contextLate s c then
        let s := dropRung s r
        if s.glb.autoEsc then engineRungs c s else engineWaits c s
      else s
    | .engine _ _ | .unit _ => if elapsed s x.since (msTicks 1) && !s.glb.escWait then engineLateRung s r else s
    | .panel p => if elapsed s x.since (msTicks 10) && !s.glb.escWait then panelToChip p evResetPanel (srcBench p) s else s
    | .chip => if elapsed s x.since (secTicks 3) && !s.glb.escWait then
        escalate s evPowerCycleWanted srcModule [evResetChip.toNat] (startPower evResetChip) else s

def execRungTimeout (r : RungScope) (s : State) : Host.Outcome State Fault Refusal := .next (rungTimeout r s)

/-! ### GLB.RSTREQ (R443) -/

/-- Host software has answered a rung that waited for it. -/
def answered (s : State) : State := { s with glb := { s.glb with escWait := false } }

/-- RUNG 0: a dump of each panel, and nothing else (log entry 53). -/
def reqDump (s : State) : State := chipDumps s 0 0 srcModule

def reqContext (target : BitVec 16) (s : State) : State :=
  if h : target.toNat < 1024 then ctxRung ⟨target.toNat, h⟩ evResetContext (answered s) else s

/-- The engine that SOURCE and SUB name. -/
def engineOf (sub : BitVec 3) : Option EngineKind :=
  if sub = 1 then some .matrix else if sub = 2 then some .vector else if sub = 3 then some .mover else none

/-- The unit that SOURCE names. -/
def unitOfSrc (n : Nat) : Option UnitName :=
  if n = 160 then some (.linkDma 0) else if n = 161 then some (.linkDma 1)
  else if h : 162 ≤ n ∧ n < 166 then some (.update ⟨n - 162, by omega⟩)
  else if n = 170 then some .queueManager else none

def reqEngine (target : BitVec 16) (sub : BitVec 3) (s : State) : State :=
  if h : target.toNat < 160 then
    match engineOf sub with
    | some k => if (s.core ⟨target.toNat, h⟩).replay.isNone && !unitStuck s target.toNat then engineRung ⟨target.toNat, h⟩ k [] evResetEngine (answered s) else s
    | none => s
  else match unitOfSrc target.toNat with
    | some u => if unitStuck s (unitNum u) then s else unitRung u evResetEngine (answered s)
    | none => s

def reqPanel (target : BitVec 16) (s : State) : State :=
  if h : 1 ≤ target.toNat ∧ target.toNat < 4 then startPanel ⟨target.toNat, h.2⟩ evResetPanel srcModule (answered s) else s

def reqChip (s : State) : State := if rungOn s .chip then s else startChip evResetChip srcModule (answered s)

/-- RUNG 5: PWR_CYCLE_REQ# is asserted whatever PWR_CYCLE_EN holds. -/
def reqPower (s : State) : State :=
  if s.pwr.pwrCycleReq then s else powerRungRun true evPowerCycleWanted srcModule (answered s)

/-- A write of GLB.RSTREQ. -/
def rstreq (v : W64) (s : State) : State :=
  let target := v.extractLsb' 16 16
  match (v.extractLsb' 0 3).toNat with
  | 0 => reqDump s
  | 1 => reqContext target s
  | 2 => reqEngine target (v.extractLsb' 32 3) s
  | 3 => reqPanel target s
  | 4 => reqChip s
  | 5 => reqPower s
  | _ => s

def execRstreqDump (s : State) : Host.Outcome State Fault Refusal := .next (hostWrite s reqDump)
def execRstreqContext (target : BitVec 16) (s : State) : Host.Outcome State Fault Refusal := .next (hostWrite s (reqContext target))
def execRstreqEngine (target : BitVec 16) (sub : BitVec 3) (s : State) : Host.Outcome State Fault Refusal :=
  .next (hostWrite s (reqEngine target sub))
def execRstreqPanel (target : BitVec 16) (s : State) : Host.Outcome State Fault Refusal := .next (hostWrite s (reqPanel target))
def execRstreqChip (s : State) : Host.Outcome State Fault Refusal := .next (hostWrite s reqChip)
def execRstreqPowerCycle (s : State) : Host.Outcome State Fault Refusal := .next (hostWrite s reqPower)

/-! ### RISK_COMPUTE (R416, R417) -/

/-- clamp(⌊255 · num / den⌋, 0, 255). -/
def riskPart (num den : Int) : Nat :=
  let q := if 0 < den then 255 * num / den else 255 * (-num) / (-den)
  (min 255 (max 0 q)).toNat

/-- The counters that the chip bench reads each millisecond (R290, R324). -/
def riskSample (s : State) : RiskSample :=
  let sum := fun (g : LinkState → Nat) => (s.lnk.links.map fun e => g e.2).sum
  let each := fun (g : LinkState → Nat) => (List.finRange 32).map fun l => g (s.link l)
  { time := s.now, corr := (s.mem.eccCorr.map Prod.snd).sum, unc := sum fun x => x.fecUncorr + x.replay2
    loss := sum fun x => x.loss, cw := each fun x => x.fecCw, sym := each fun x => x.fecCorrSym }

/-- The newest sample that is at least n ticks old; before there is one, the counters as they stood at reset. -/
def riskBase (s : State) (n : Nat) : RiskSample :=
  (s.glb.riskLog.find? fun x => elapsed s x.time n).getD ⟨0, 0, 0, 0, [], []⟩

/-- C_BER of an estimate a / b: clamp(⌊255 · (log₁₀(a / b) + 8) / 3⌋, 0, 255), the number of k from 1 to 255 with
10^(3k − 2040) ≤ (a / b)^255. -/
def berPart (a b : Nat) : Nat :=
  if b = 0 then 0 else ((rangeFrom 1 255).filter fun k => decide (b ^ 255 ≤ a ^ 255 * 10 ^ (2040 - 3 * k))).length

/-- C_BER of the worst link: FEC_CORR_SYM / (FEC_CW · 5,440) over the last second. -/
def worstBer (x y : RiskSample) : Nat :=
  (rangeFrom 0 32).foldl (fun m l => max m (berPart (nth y.sym l - nth x.sym l) (5440 * (nth y.cw l - nth x.cw l)))) 0

/-- The sensors that have a first thermal stage (R464). -/
def stagedSensors : List Sensor :=
  ((List.finRange 4).flatMap fun p => (List.finRange 8).map (Sensor.junction p))
    ++ ((List.finRange 2).flatMap fun d => (List.finRange 4).map (Sensor.link d))
    ++ (List.finRange 24).map Sensor.gddr ++ (List.finRange 6).map Sensor.stage

/-- The first threshold of a sensor's stages (R464). -/
def firstStage : Sensor → Int
  | .junction _ _ | .link _ _ => 95
  | .gddr _ => 90
  | _ => 105

/-- The least margin of any sensor below its first stage. -/
def riskMargin (s : State) : Int :=
  stagedSensors.foldl (fun m x => min m (firstStage x - (tabGet {} s.pwr.sensors (sensorKey x)).celsius)) 255

/-- The six components: C_MEM, C_BER, C_UNC, C_VOLT, C_TEMP, C_NBR; each window ends now. -/
def riskParts (s : State) : List Nat :=
  let y := riskSample s
  let x := fun n => riskBase s (secTicks n)
  [riskPart (y.corr - (x 60).corr) 4096, worstBer (x 1) y, riskPart (y.unc - (x 1).unc) 1024,
   riskPart ((s.pwr.vin : Int) - 51 * 256) (-1152), riskPart (riskMargin s - 15) (-15), riskPart (y.loss - (x 3600).loss) 8]

/-- SCORE of components. -/
def riskScore (l : List Nat) : Nat :=
  let m := l.foldl max 0
  min 255 (m + (l.sum - m) / 4)

/-- The samples that a later score still needs: those of the last hour and the newest before it. -/
def keepSamples (s : State) : List RiskSample → List RiskSample
  | [] => []
  | x :: t => if elapsed s x.time (secTicks 3600) then [x] else x :: keepSamples s t

/-- A millisecond has passed since the last score. -/
def riskDue (s : State) : Bool :=
  match s.glb.riskLog with
  | [] => true
  | x :: _ => elapsed s x.time (msTicks 1)

/-- RISK_COMPUTE: each millisecond the chip bench computes the components and SCORE, raises RISK_STEP when ⌊SCORE/32⌋ changes, and
copies the event counters (R417, R450; log entry 131). -/
def riskCompute (vin : Nat) (s : State) : State :=
  if benchUp s && riskDue s then
    let s := setVin s vin
    let l := riskParts s
    let score := riskScore l
    let b := fun i => BitVec.ofNat 8 (nth l i)
    let g := s.glb
    let s' := { s with glb := { g with
      riskLog := keepSamples s (riskSample s :: g.riskLog)
      score := BitVec.ofNat 8 score, cMem := b 0, cBer := b 1, cUnc := b 2, cVolt := b 3, cTemp := b 4, cNbr := b 5
      maxScore := BitVec.ofNat 8 (max g.maxScore.toNat score) } }
    copyCounters (if score / 32 = g.score.toNat / 32 then s' else raiseEv s' evRiskStep (srcBench 0))
  else s

def execRiskCompute (vin : Nat) (s : State) : Host.Outcome State Fault Refusal := .next (riskCompute vin s)

end Sys2Proof.Machine
end

