-- ==== Sys2Proof/Machine/Regs.lean ====
section
/-!
DEFINITION. BAR0 (R487 to R497): every set-up register's write effect and read value by offset, refused accesses, the core
fence, the dump window.
-/

namespace Sys2Proof.Machine

open Sys2Proof

/-! ### Refused accesses (R488) -/

/-- Counts an access in GLB.ACCERR. -/
def accErr (off : Nat) (s : State) : State :=
  { s with glb := { s.glb with
      accErr := if s.glb.accErr = 0xFFFFFFFF then s.glb.accErr else s.glb.accErr + 1, accLast := BitVec.ofNat 22 off } }

/-- Aligned 8-byte reads and writes, and aligned 4-byte reads. -/
def accessOk (a : Bar0Access) : Bool :=
  (a.size == 8 && a.off.toNat % 8 == 0) || (a.size == 4 && a.off.toNat % 4 == 0 && !a.write)

/-! ### Writes that only store -/

/-- Bits lo + n - 1 to lo of a written value. -/
def wfld (v : W64) (lo n : Nat) : Nat := fld v.toNat lo n

def updGlb (s : State) (g : GlbState → GlbState) : State := { s with glb := g s.glb }
def updQmg (s : State) (g : QmgState → QmgState) : State := { s with qmg := g s.qmg }

/-- GLB.HANGCFG (R443): a window of 0 is stored as 1, ENGINE_WIN below 2 as 2 (log entry 62). -/
def hangCfg (v : W64) (s : State) : State :=
  updGlb s fun g => { g with
    slotWin := BitVec.ofNat 8 (max 1 (wfld v 0 8)), queueWin := BitVec.ofNat 8 (max 1 (wfld v 8 8))
    engineWin := BitVec.ofNat 8 (max 2 (wfld v 16 8)), replayEn := v.getLsbD 24, autoEsc := v.getLsbD 25, pwrCycleEn := v.getLsbD 26 }

/-- GLB.RISK: MAXSCORE is cleared bit by bit (R10, R417). -/
def riskWrite (v : W64) (s : State) : State :=
  updGlb s fun g => { g with maxScore := g.maxScore &&& ~~~(v.extractLsb' 56 8) }

def dumpSel (v : W64) (s : State) : State :=
  updGlb s fun g => { g with dumpRegion := v.extractLsb' 0 2, dumpPanel := v.extractLsb' 2 2, dumpOffset := v.extractLsb' 16 10 }

/-- PNLp.CFENCE: a value that fences all 40 cores is ignored and counted (R495). -/
def coreFence (p : Panel) (v : W64) (s : State) : State :=
  let f := v.extractLsb' 0 40
  if f = BitVec.allOnes 40 then accErr (0x20000 + 0x10000 * p.val + 8) s
  else s.setPanel p { s.panel p with fence := f }

def execCoreFenceWrite (p : Panel) (v : W64) (s : State) : Host.Outcome State Fault Refusal := .next (hostWrite s (coreFence p v))

/-- QMG.CTXCTL (R371). -/
def ctxCtl (v : W64) (s : State) : State :=
  match wfld v 0 2 with
  | 1 => openCtx s
  | 2 => ctxClose s
  | 3 => ctxFree s
  | _ => s

/-- QMG.CTXSEED, CTXHB and CTXHL: ignored unless the selected context is FREE (R372). -/
def ctxSetup (s : State) (g : CtxState → CtxState) : State :=
  if (s.ctx s.qmg.csel).phase = .free then updCtx s s.qmg.csel g else s

/-- Some queue of a group is enabled. -/
def groupBusy (s : State) (g : Nat) : Bool := s.qmg.queues.any fun e => e.1 / 64 == g && e.2.enable

/-- QMG.GOWN: ignored while a queue of the group is enabled (R372). -/
def groupOwn (v : W64) (s : State) : State :=
  let g := s.qmg.gsel.val
  let own : Ctx := ⟨wfld v 0 10, by unfold wfld fld; omega⟩
  let t := tabSet ((0 : Ctx), false) s.qmg.groups g (own, v.getLsbD 10)
  if groupBusy s g then s else updQmg s fun q => { q with groups := t }

/-- QMG.QRING and QCPL: only while the queue is disabled (R373). -/
def queueSetup (s : State) (g : QueueState → QueueState) : State :=
  if (s.queue s.qmg.qsel).enable then s else updQueue s s.qmg.qsel g

def queueCfg (v : W64) (s : State) : State := if v.getLsbD 8 then queueEnable v s else queueDisable v s

/-- GAU.CTL (R352, R354). -/
def gauCtl (v : W64) (s : State) : State :=
  let l : Link := ⟨wfld v 2 5, by unfold wfld fld; omega⟩
  let s := updGau s fun g => { g with syncArm := v.getLsbD 0, joinLink := l, steerEn := v.getLsbD 7 }
  if v.getLsbD 1 then joinFrom l s else s

/-- LNK.CTLn: TARGET, then RESOLVE (R318, R321). -/
def linkCtl (l : Link) (v : W64) (s : State) : State :=
  let s := match wfld v 0 2 with
    | 0 => writeTarget l (targetOff l) s
    | 1 => writeTarget l (targetHold l) s
    | 2 => writeTarget l (targetRun l) s
    | _ => s
  if v.getLsbD 11 then resolveLink l (v.extractLsb' 4 7) s else s

/-- MEM.APERa: its reserved bits read 0 (R496). -/
def aperWrite (a : Nat) (v : W64) (s : State) : State :=
  let w := BitVec.ofNat 64 (wfld v 0 12 + 2 ^ 30 * wfld v 30 14)
  { s with mem := { s.mem with aper := tabSet 0 s.mem.aper a w } }

/-- A write to a field that the lock has made read-only (R10). -/
def lockedWrite (s : State) : State := updSec s fun x => { x with lockViol := x.lockViol + 1 }

/-! ### REGISTER_WRITE (R487, R490, R492) -/

def glbWrite (o : Nat) (v : W64) (s : State) : State :=
  match o with
  | 0x040 => riskWrite v s
  | 0x048 => hangCfg v s
  | 0x050 => rstreq v s
  | 0x080 => dumpSel v s
  | 0x088 => updGlb s fun g => { g with dumpAck := v }
  | 0x098 => logAck v s
  | 0x0A0 => evCfg v s
  | _ => s

def qmgWrite (o : Nat) (v : W64) (s : State) : State :=
  match o with
  | 0x000 => updQmg s fun q => { q with csel := ⟨wfld v 0 10, by unfold wfld fld; omega⟩ }
  | 0x008 => ctxCtl v s
  | 0x010 => if v.getLsbD 11 then updCtx s s.qmg.csel fun x => { x with cmdBad := false } else s
  | 0x018 => ctxSetup s fun x => { x with seed := v }
  | 0x020 => ctxSetup s fun x => { x with hbase := v.extractLsb' 12 40 }
  | 0x028 => ctxSetup s fun x => { x with hlimit := v.extractLsb' 12 40 }
  | 0x080 => updQmg s fun q => { q with gsel := ⟨wfld v 0 10, by unfold wfld fld; omega⟩ }
  | 0x088 => groupOwn v s
  | 0x100 => updQmg s fun q => { q with qsel := ⟨wfld v 0 16, by unfold wfld fld; omega⟩ }
  | 0x108 => queueSetup s fun x => { x with rbase := v.extractLsb' 12 40 }
  | 0x110 => queueSetup s fun x => { x with cbase := v.extractLsb' 12 40 }
  | 0x118 => queueCfg v s
  | 0x128 => if v.getLsbD 32 then updQueue s s.qmg.qsel fun x => { x with cfgErr := false } else s
  | 0x200 => evqBase v s
  | 0x208 => evqCfg v s
  | 0x218 => evqAck v s
  | _ => s

def lnkWrite (o : Nat) (v : W64) (s : State) : State :=
  if o = 0 then lockedWrite s
  else if h : 0x1000 ≤ o ∧ o < 0x2000 ∧ o % 0x80 = 0 then linkCtl ⟨(o - 0x1000) / 0x80, by omega⟩ v s
  else s

def gauWrite (o : Nat) (v : W64) (s : State) : State :=
  match o with
  | 0x00 => gauCtl v s
  | 0x08 => updGau s fun g => { g with syncv := v }
  | _ => s

def pwrWrite (o : Nat) (v : W64) (s : State) : State :=
  match o with
  | 0x00 => updPwr s fun p => { p with limit := max 800 (min 1600 (wfld v 0 11)) }
  | 0x20 => updPwr s fun p => { p with drillMark := v }
  | 0x28 => drillCtl v s
  | _ => s

def secWrite (o : Nat) (v : W64) (s : State) : State :=
  if o = 0x30 then updSec s fun x => { x with bindsel := ⟨wfld v 0 10, by unfold wfld fld; omega⟩ }
  else if o = 0x20 ∨ o = 0x38 ∨ (0x100 ≤ o ∧ o < 0x300) then lockedWrite s
  else s

def memWrite (o : Nat) (v : W64) (s : State) : State :=
  if o = 0 then secresSet v s
  else if 0x100 ≤ o ∧ o < 0x180 then aperWrite ((o - 0x100) / 8) v s
  else s

/-- The effect of an aligned 8-byte write at a BAR0 offset; reserved offsets ignore it. -/
def regWrite (off : Nat) (v : W64) (s : State) : State :=
  let o := off % 0x10000
  if off < 0x10000 then glbWrite o v s
  else if off < 0x20000 then s
  else if h : off < 0x60000 then
    if o = 8 then coreFence ⟨(off - 0x20000) / 0x10000 % 4, Nat.mod_lt _ (by decide)⟩ v s else s
  else if off < 0x70000 then qmgWrite o v s
  else if off < 0x80000 then lnkWrite o v s
  else if off < 0x81000 then gauWrite (off - 0x80000) v s
  else if off < 0x82000 then pwrWrite (off - 0x81000) v s
  else if off < 0x83000 then secWrite (off - 0x82000) v s
  else if off < 0x84000 then memWrite (off - 0x83000) v s
  else s

/-- REGISTER_WRITE: 8 bytes; a misaligned one is refused and counted (R488). -/
def registerWrite (off : BitVec 22) (v : W64) (s : State) : State :=
  if off.toNat % 8 = 0 then regWrite off.toNat v s else accErr off.toNat s

def execRegisterWrite (off : BitVec 22) (v : W64) (s : State) : Host.Outcome State Fault Refusal := .next (hostWrite s (registerWrite off v))

/-! ### Reads (R489 to R496) -/

def allPanelsRun (s : State) : Bool := ([0, 1, 2, 3] : List Panel).all fun p => (s.panel p).state == 0

def glbRead (o : Nat) (s : State) : Nat :=
  let g := s.glb
  if 0x100 ≤ o ∧ o < 0x200 then evCntWord s ((o - 0x100) / 8)
  else match o with
  | 0x000 => glbId s
  | 0x008 => bnat (s.sec.lock && allPanelsRun s) + 2 * g.lastRung.toNat + 16 * bnat g.escWait
  | 0x010 => g.accErr.toNat + 2 ^ 32 * g.accLast.toNat
  | 0x040 => g.score.toNat + 2 ^ 8 * g.cMem.toNat + 2 ^ 16 * g.cBer.toNat + 2 ^ 24 * g.cUnc.toNat + 2 ^ 32 * g.cVolt.toNat
      + 2 ^ 40 * g.cTemp.toNat + 2 ^ 48 * g.cNbr.toNat + 2 ^ 56 * g.maxScore.toNat
  | 0x048 => g.slotWin.toNat + 2 ^ 8 * g.queueWin.toNat + 2 ^ 16 * g.engineWin.toNat + 2 ^ 24 * bnat g.replayEn
      + 2 ^ 25 * bnat g.autoEsc + 2 ^ 26 * bnat g.pwrCycleEn
  | 0x060 => nth (rstWords s) 0
  | 0x068 => nth (rstWords s) 1
  | 0x080 => g.dumpRegion.toNat + 4 * g.dumpPanel.toNat + 2 ^ 16 * g.dumpOffset.toNat
  | 0x088 => g.dumpAck.toNat
  | 0x090 => s.ev.chipLog.written % 2 ^ 32
  | 0x098 => s.ev.chipLog.ack
  | 0x0A0 => bnat s.ev.i3cEn + 2 * bnat s.ev.i3cWarn
  | _ => 0

/-- Cores of a panel that are neither fenced nor held by a replay. -/
def freeCores (s : State) (p : Panel) : Nat :=
  ((List.range 40).filter fun c => !(s.panel p).fence.getLsbD c && (tabGet {} s.cores (40 * p.val + c)).replay.isNone).length

def pnlRead (p : Panel) (o : Nat) (s : State) : Nat :=
  let x := s.panel p
  match o with
  | 0x000 => x.inc.toNat + 2 ^ 8 * x.state.toNat + 2 ^ 10 * freeCores s p
  | 0x008 => x.fence.toNat
  | 0x100 => x.placed
  | 0x108 => x.failed
  | 0x110 => x.hangs
  | 0x118 => x.replays
  | _ => 0

def phaseNum : CtxPhase → Nat
  | .free => 0
  | .opened => 1
  | .closing => 2
  | .quiescent => 3

def ctxCntWord (s : State) (w : Nat) : Nat :=
  let c := s.qmg.csel
  let x := s.ctx c
  nth [x.accepted, x.completed, x.cancelled, x.dbIgnored, openParts s c, openMsgs s c, x.msgAbandoned, x.genDrop] w

def qmgRead (o : Nat) (s : State) : Nat :=
  let q := s.qmg
  let c := s.ctx q.csel
  let x := s.queue q.qsel
  if 0x040 ≤ o ∧ o < 0x080 then ctxCntWord s ((o - 0x040) / 8)
  else match o with
  | 0x000 => q.csel.val
  | 0x010 => phaseNum c.phase + 4 * c.gen.toNat + 2 ^ 10 * bnat c.drained + 2 ^ 11 * bnat c.cmdBad
  | 0x018 => c.seed.toNat
  | 0x020 => c.hbase.toNat * 4096
  | 0x028 => c.hlimit.toNat * 4096
  | 0x080 => q.gsel.val
  | 0x088 => (s.group q.gsel.val).1.val + 2 ^ 10 * bnat (s.group q.gsel.val).2
  | 0x100 => q.qsel.val
  | 0x108 => x.rbase.toNat * 4096
  | 0x110 => x.cbase.toNat * 4096
  | 0x118 => x.log2size.toNat + 2 ^ 5 * x.cls.toNat + 2 ^ 8 * bnat x.enable + 2 ^ 9 * x.vector.toNat + 2 ^ 20 * bnat x.irqEn
  | 0x120 => x.head.toNat + 2 ^ 32 * x.tail.toNat
  | 0x128 => x.done.toNat + 2 ^ 32 * bnat x.cfgErr
  | 0x140 => x.dbApplied
  | 0x148 => x.dbIgnored
  | 0x150 => x.dbBad
  | 0x200 => s.ev.evqBase.toNat
  | 0x208 => s.ev.evqLog2 + 2 ^ 5 * bnat s.ev.evqEnable + 2 ^ 6 * bnat s.ev.evqTrace + 2 ^ 7 * s.ev.evqVector.toNat
  | 0x210 => s.ev.host.written % 2 ^ 32
  | 0x218 => s.ev.host.ack
  | _ => 0

def lnkRead (o : Nat) (s : State) : Nat :=
  if o = 0 then s.lnk.enable.toNat
  else if h : 0x1000 ≤ o ∧ o < 0x2000 then linkRead (s.link ⟨(o - 0x1000) / 0x80, by omega⟩) ((o - 0x1000) % 0x80)
  else if h : 0x2000 ≤ o ∧ o < 0x2100 then dieWord (s.die ⟨(o - 0x2000) / 0x80, by omega⟩) ((o - 0x2000) % 0x80 / 8)
  else if h : 0x2100 ≤ o ∧ o < 0x2200 then ringRead s ⟨(o - 0x2100) / 8, by omega⟩
  else if h : 0x2200 ≤ o ∧ o < 0x2240 then epochRead s ⟨(o - 0x2200) / 8, by omega⟩
  else 0

def gauRead (o : Nat) (s : State) : Nat :=
  let g := s.gau
  match o with
  | 0x00 => bnat g.syncArm + 4 * g.joinLink.val + 2 ^ 7 * bnat g.steerEn
  | 0x08 => g.syncv.toNat
  | 0x10 => g.count.toNat
  | 0x18 => bnat g.valid + 2 * bnat (alignedNow s) + 4 * bnat g.refOk + 2 ^ 8 * (g.partners % 256) + 2 ^ 16 * ofSigned 16 g.mean
  | 0x20 => g.steerUp % 2 ^ 32 + 2 ^ 32 * (g.steerDown % 2 ^ 32)
  | 0x28 => g.slotsLate + 2 ^ 32 * g.ranksLate
  | 0x30 => g.shifts + 2 ^ 32 * g.excluded
  | _ => 0

/-- The hottest of some sensors, as a signed byte. -/
def hottest (s : State) (l : List Sensor) : Nat :=
  ofSigned 8 ((l.map fun x => (s.sensor x).celsius).foldl max (-128))

def pwrStat (s : State) : Nat :=
  sagStage s + (([0, 1, 2, 3] : List Panel).map fun p => stageIn s p * 2 ^ (3 * p.val + 3)).sum
    + 2 ^ 15 * bnat s.pwr.thermTrip + 2 ^ 16 * bnat s.pwr.drillOn

def pwrCntWord (s : State) (w : Nat) : Nat :=
  let four := fun (t : Tab Nat) => ((rangeFrom 1 4).map fun k => tabGet 0 t k * 2 ^ (16 * (k - 1))).sum
  match w with
  | 0 => four s.pwr.sagCnt
  | 1 => four s.pwr.thermCnt
  | 2 => tabGet 0 s.pwr.sagCnt 5 + 2 ^ 32 * tabGet 0 s.pwr.thermCnt 5
  | 3 => s.pwr.drills + 2 ^ 32 * s.pwr.drillMissed
  | _ => sat64 (s.pwr.limitTicks * 100 / 15625)

def opRead (s : State) (p : Panel) : Nat :=
  let x := s.panel p
  x.coreOp.val + 8 * x.matrixOp.val + 2 ^ 8 * vcoreOf (min x.coreOp x.matrixOp) + 2 ^ 16 * (tabGet 0 s.pwr.panelW p.val % 2 ^ 16)

def tempRead (s : State) (p : Panel) : Nat :=
  hottest s ((List.finRange 8).map fun i => .junction p i)
    + 2 ^ 8 * hottest s ((List.finRange 6).map fun (i : Fin 6) => .gddr ⟨6 * p.val + i.val, by omega⟩)

def tmodRead (s : State) : Nat :=
  hottest s ((List.finRange 4).map fun i => .link 0 i) + 2 ^ 8 * hottest s ((List.finRange 4).map fun i => .link 1 i)
    + 2 ^ 16 * hottest s ((List.finRange 6).map fun i => .stage i) + 2 ^ 24 * hottest s [.inlet] + 2 ^ 32 * hottest s [.outlet]

def pwrRead (o : Nat) (s : State) : Nat :=
  let panel : Panel := ⟨o / 8 % 4, Nat.mod_lt _ (by decide)⟩
  if 0x40 ≤ o ∧ o < 0x60 then opRead s panel
  else if 0x60 ≤ o ∧ o < 0x80 then tempRead s panel
  else if 0x80 ≤ o ∧ o < 0xA8 then pwrCntWord s ((o - 0x80) / 8)
  else match o with
  | 0x00 => s.pwr.limit
  | 0x08 => pwrStat s
  | 0x10 => vinMean s % 2 ^ 16 + 2 ^ 16 * (s.pwr.pin % 2 ^ 16)
  | 0x18 => tmodRead s
  | 0x20 => s.pwr.drillMark.toNat
  | 0x28 => s.pwr.dstage.toNat + 2 ^ 8 * s.pwr.drillLen.toNat
  | _ => 0

def secRead (o : Nat) (s : State) : Nat :=
  let x := s.sec
  if 0x100 ≤ o ∧ o < 0x300 then (tabGet 0 x.regions ((o - 0x100) / 8)).toNat
  else match o with
  | 0x00 => bootStat s
  | 0x08 => fwVer s
  | 0x10 => x.cfgSeq.toNat
  | 0x18 => x.lockViol.toNat
  | 0x20 => x.protDebug.toNat + 2 ^ 8 * x.protIde.toNat
  | 0x28 => bnat x.ioSecure + 2 * bnat x.cmSecure + 2 ^ 32 * x.ideFail.toNat
  | 0x30 => x.bindsel.val
  | 0x38 => (tabGet 0 x.bind x.bindsel.val).toNat
  | _ => 0

def memRead (o : Nat) (s : State) : Nat :=
  let m := s.mem
  if 0x040 ≤ o ∧ o < 0x080 then tabGet 0 (if o / 8 % 2 = 0 then m.eccCorr else m.eccUncorr) ((o - 0x040) / 16)
  else if 0x100 ≤ o ∧ o < 0x180 then (tabGet 0 m.aper ((o - 0x100) / 8)).toNat
  else match o with
  | 0x000 => m.secres
  | 0x008 => m.hdmPoison
  | 0x010 => m.hdmDrop
  | 0x018 => m.secresIgn
  | _ => 0

/-- Eight bytes of a panel's event ring: record n of the path stands in place n modulo 1,024. -/
def ringBytes (s : State) (p : Panel) (off : Nat) : Nat :=
  let x := s.path (.panel p)
  let first := x.written - x.ring.length
  let k := off / 64
  let i := (k + 1024 - first % 1024) % 1024
  match x.ring[i]? with
  | some e => ofLE (((evBytes e false (first + i)).drop (off % 64)).take 8)
  | none => 0

/-- Where in GDDR7 the dump window stands at an offset; none outside the regions that lie there (R443). -/
def dumpPlace (o : Nat) (s : State) : Option Nat :=
  let g := s.glb
  let off := g.dumpOffset.toNat * 65536 + o
  match g.dumpRegion.toNat with
  | 0 => if off < 2 ^ 26 then some (dumpAddr g.dumpPanel.toFin 0 + off) else none
  | 1 => if off < 2 ^ 24 then some (chipLogBase + off) else none
  | _ => none

/-- A GDDR7 word as the dump window shows it: a poisoned one, or one whose controllers are in reset, is no data, and what is shown
then is open (R293, R303; log entry 132). -/
def shownWord (s : State) (a : Nat) : Nat :=
  if (s.memCtl (paPanel a)).inReset || poisoned s.mem.gddr a 8 then (Config.poisonWord a).toNat else readNat s.mem.gddr a 8

/-- The dump window (R443). -/
def dumpRead (o : Nat) (s : State) : Nat :=
  let g := s.glb
  let off := g.dumpOffset.toNat * 65536 + o
  match dumpPlace o s with
  | some a => shownWord s a
  | none => if g.dumpRegion = 2 ∧ off < 65536 then ringBytes s g.dumpPanel.toFin off else 0

/-- What an aligned 8-byte read at a BAR0 offset returns; reserved offsets return 0. -/
def regRead (off : Nat) (s : State) : W64 :=
  let o := off % 0x10000
  BitVec.ofNat 64 (
    if off < 0x10000 then glbRead o s
    else if off < 0x20000 then dumpRead o s
    else if off < 0x60000 then pnlRead ⟨(off - 0x20000) / 0x10000 % 4, Nat.mod_lt _ (by decide)⟩ o s
    else if off < 0x70000 then qmgRead o s
    else if off < 0x80000 then lnkRead o s
    else if off < 0x81000 then gauRead (off - 0x80000) s
    else if off < 0x82000 then pwrRead (off - 0x81000) s
    else if off < 0x83000 then secRead (off - 0x82000) s
    else if off < 0x84000 then memRead (off - 0x83000) s
    else 0)

/-! ### BAR0_ACCESS_REFUSED, and the reads that are not refused (R488, R489) -/

/-- What a supported read returns: eight bytes at one instant, or the half of them that a 4-byte read names. -/
def readValue (a : Bar0Access) (s : State) : W64 :=
  let off := a.off.toNat / 8 * 8
  if a.size = 8 then regRead off s else (regRead off s >>> (32 * (a.off.toNat / 4 % 2))) &&& 0xFFFFFFFF

/-- A read of the dump window that finds memory controllers in reset counts for MEM_UNAVAIL (R303). -/
def noteWindowRead (off : Nat) (s : State) : State :=
  if 0x10000 ≤ off ∧ off < 0x20000 then match dumpPlace (off % 0x10000 / 8 * 8) s with
    | some a => noteResetRead s a
    | none => s
  else s

/-- An access to BAR0: of those that are not supported a write is ignored and a read returns 0, and both are counted; a supported
read is served (log entry 134); a write comes as a command of its own. -/
def bar0Refused (a : Bar0Access) (s : State) : State :=
  if !hostUp s then s
  else if a.write then (if accessOk a then s else hostWrite s (accErr a.off.toNat))
  else if accessOk a then (noteWindowRead a.off.toNat s).emit (.bar0 (readValue a s))
  else (accErr a.off.toNat s).emit (.bar0 0)

def execBar0AccessRefused (a : Bar0Access) (s : State) : Host.Outcome State Fault Refusal := .next (bar0Refused a s)

end Sys2Proof.Machine
end

