-- ==== Sys2Proof/Machine/Tick.lean ====
section
/-!
DEFINITION. A tick of the module's clock: the gauge counts (R351, R352), a write of the flash goes on, and what may befall the
module from outside befalls it (R288, R291, R441; log entry 121).
-/

namespace Sys2Proof.Machine

open Sys2Proof

/-- An access finds what the devices have upset, unless their controller answers nothing (R287, R303). -/
def gddrMishap (pa : Nat) (upset : Upset) (s : State) : State :=
  let c := s.memCtl (paPanel pa)
  if paOk pa && !c.inReset && !c.selfRefresh then memError pa upset s else s

/-- A double-bit error poisons the unit of a bench; a single one is corrected and written back (R291). -/
def benchMishap (c : Core) (off : Nat) (double : Bool) (s : State) : State :=
  if double && decide (off < benchSize) then
    { s with mem := { s.mem with bench := setPoison s.mem.bench (c.val * benchSize + off / 64 * 64) 64 } }
  else s

/-- A double-bit error poisons the unit of a panel's store; in the reserved share it starts the chip rung (R24, R291, R441). -/
def storeMishap (p : Panel) (off : Nat) (double : Bool) (s : State) : State :=
  if !double then s
  else if off < pstoreSoft then
    { s with mem := { s.mem with pstore := setPoison s.mem.pstore (pstoreAddr p (off / 64 * 64)) 64 } }
  else if off < 2 ^ 26 then panelToChip p evMemUe (srcBench p) s
  else s

/-- What befalls the module. -/
def befall (m : Mishap) (s : State) : State :=
  match m with
  | .gddr pa upset => gddrMishap pa upset s
  | .bench c off double => benchMishap c off double s
  | .pstore p off double => storeMishap p off double s
  | .switch d => startChip evResetChip (srcSwitch d) s
  | .port => startChip evResetChip srcQmg s
  | .security => startChip evResetChip srcSecurity s

/-- The mishap of a tick, if there is one; a module without power has none. -/
def mishapTick (s : State) : State :=
  if s.pwr.pwrGood then match Config.mishap s.gau.edges with
    | some m => befall m s
    | none => s
  else s

/-- What a tick does beside the count. -/
def tickAll (s : State) : State := mishapTick (flashTick s)

/-- GAUGE_TICK. -/
def execGaugeTick (s : State) : Host.Outcome State Fault Refusal := .next (tickAll (gaugeEdge s))

end Sys2Proof.Machine
end

