-- ==== Sys2Proof/Machine/Dispatch.lean ====
section
/-! DEFINITION. The dispatch: one arm per command, each one call of its meaning. -/

namespace Sys2Proof.Machine

open Sys2Proof

/-- The effect of a command on everything but the queue of waiting commands. -/
def exec (i : Instr) (s : State) : Host.Outcome State Fault Refusal :=
  match i with
  | .slotNop t pos o => Sys2Proof.Machine.execSlotNop t pos o s
  | .alu t f o => Sys2Proof.Machine.execAlu t f o s
  | .alui t f o => Sys2Proof.Machine.execAlui t f o s
  | .li t f o => Sys2Proof.Machine.execLi t f o s
  | .lui t f o => Sys2Proof.Machine.execLui t f o s
  | .ld t f o => Sys2Proof.Machine.execLd t f o s
  | .st t f o => Sys2Proof.Machine.execSt t f o s
  | .amo t f o => Sys2Proof.Machine.execAmo t f o s
  | .br t f o => Sys2Proof.Machine.execBr t f o s
  | .jal t f o => Sys2Proof.Machine.execJal t f o s
  | .jalr t f o => Sys2Proof.Machine.execJalr t f o s
  | .fpOp t f o => Sys2Proof.Machine.execFpOp t f o s
  | .fma t f o => Sys2Proof.Machine.execFma t f o s
  | .csrr t f o => Sys2Proof.Machine.execCsrr t f o s
  | .csrw t f o => Sys2Proof.Machine.execCsrw t f o s
  | .stop t f o => Sys2Proof.Machine.execStop t f o s
  | .vCfg t f o => Sys2Proof.Machine.execVCfg t f o s
  | .vAdd t f o => Sys2Proof.Machine.execVAdd t f o s
  | .vSub t f o => Sys2Proof.Machine.execVSub t f o s
  | .vMul t f o => Sys2Proof.Machine.execVMul t f o s
  | .vFma t f o => Sys2Proof.Machine.execVFma t f o s
  | .vDiv t f o => Sys2Proof.Machine.execVDiv t f o s
  | .vSqrt t f o => Sys2Proof.Machine.execVSqrt t f o s
  | .vMin t f o => Sys2Proof.Machine.execVMin t f o s
  | .vMax t f o => Sys2Proof.Machine.execVMax t f o s
  | .vFunc t f o => Sys2Proof.Machine.execVFunc t f o s
  | .vLdexp t f o => Sys2Proof.Machine.execVLdexp t f o s
  | .vCvt t f o => Sys2Proof.Machine.execVCvt t f o s
  | .vAnd t f o => Sys2Proof.Machine.execVAnd t f o s
  | .vOr t f o => Sys2Proof.Machine.execVOr t f o s
  | .vXor t f o => Sys2Proof.Machine.execVXor t f o s
  | .vShl t f o => Sys2Proof.Machine.execVShl t f o s
  | .vShr t f o => Sys2Proof.Machine.execVShr t f o s
  | .vSar t f o => Sys2Proof.Machine.execVSar t f o s
  | .vBcast t f o => Sys2Proof.Machine.execVBcast t f o s
  | .vWmul t f o => Sys2Proof.Machine.execVWmul t f o s
  | .vDot t f o => Sys2Proof.Machine.execVDot t f o s
  | .vCmp t f o => Sys2Proof.Machine.execVCmp t f o s
  | .vMop t f o => Sys2Proof.Machine.execVMop t f o s
  | .vMpopc t f o => Sys2Proof.Machine.execVMpopc t f o s
  | .vMfirst t f o => Sys2Proof.Machine.execVMfirst t f o s
  | .vPerm t f o => Sys2Proof.Machine.execVPerm t f o s
  | .vRed t f o => Sys2Proof.Machine.execVRed t f o s
  | .vLd t f o => Sys2Proof.Machine.execVLd t f o s
  | .vLds t f o => Sys2Proof.Machine.execVLds t f o s
  | .vLdx t f o => Sys2Proof.Machine.execVLdx t f o s
  | .vLdff t f o => Sys2Proof.Machine.execVLdff t f o s
  | .vMld t f o => Sys2Proof.Machine.execVMld t f o s
  | .vSt t f o => Sys2Proof.Machine.execVSt t f o s
  | .vSts t f o => Sys2Proof.Machine.execVSts t f o s
  | .vStx t f o => Sys2Proof.Machine.execVStx t f o s
  | .vMst t f o => Sys2Proof.Machine.execVMst t f o s
  | .vPass t f o => Sys2Proof.Machine.execVPass t f o s
  | .mtBegin t f o => Sys2Proof.Machine.execMtBegin t f o s
  | .mtAcc t f o => Sys2Proof.Machine.execMtAcc t f o s
  | .mtAddraw t f o => Sys2Proof.Machine.execMtAddraw t f o s
  | .mtStore t f o => Sys2Proof.Machine.execMtStore t f o s
  | .mtDrop t f o => Sys2Proof.Machine.execMtDrop t f o s
  | .mtAlign t f o => Sys2Proof.Machine.execMtAlign t f o s
  | .xSig t f o => Sys2Proof.Machine.execXSig t f o s
  | .xWait t f o => Sys2Proof.Machine.execXWait t f o s
  | .xScset t f o => Sys2Proof.Machine.execXScset t f o s
  | .xScread t f o => Sys2Proof.Machine.execXScread t f o s
  | .xFence t f o => Sys2Proof.Machine.execXFence t f o s
  | .xIcinv t f o => Sys2Proof.Machine.execXIcinv t f o s
  | .xMove t f o => Sys2Proof.Machine.execXMove t f o s
  | .xMoved t f o => Sys2Proof.Machine.execXMoved t f o s
  | .pendingWriteComplete t r => Sys2Proof.Machine.execPendingWriteComplete t r s
  | .mtOpComplete c => Sys2Proof.Machine.execMtOpComplete c s
  | .moveComplete c => Sys2Proof.Machine.execMoveComplete c s
  | .chainPassComplete c => Sys2Proof.Machine.execChainPassComplete c s
  | .icacheFill t => Sys2Proof.Machine.execIcacheFill t s
  | .syncCounterIncrement c incs => Sys2Proof.Machine.execSyncCounterIncrement c incs s
  | .clockChangeRequest p core matrix => Sys2Proof.Machine.execClockChangeRequest p core matrix s
  | .clockStallEnd p => Sys2Proof.Machine.execClockStallEnd p s
  | .watchdogRestart p => Sys2Proof.Machine.execWatchdogRestart p s
  | .wdogPanel p => Sys2Proof.Machine.execWdogPanel p s
  | .wdogChip => Sys2Proof.Machine.execWdogChip s
  | .comparatorArm p a => Sys2Proof.Machine.execComparatorArm p a s
  | .launchMissed a => Sys2Proof.Machine.execLaunchMissed a s
  | .amaxMerge d => Sys2Proof.Machine.execAmaxMerge d s
  | .ladderDecide j => Sys2Proof.Machine.execLadderDecide j s
  | .voteEvaluate j => Sys2Proof.Machine.execVoteEvaluate j s
  | .commitRecordWrite j => Sys2Proof.Machine.execCommitRecordWrite j s
  | .commitDiscard j => Sys2Proof.Machine.execCommitDiscard j s
  | .scrubEnd j => Sys2Proof.Machine.execScrubEnd j s
  | .commitUnresolved j => Sys2Proof.Machine.execCommitUnresolved j s
  | .planeRootsDone j rec => Sys2Proof.Machine.execPlaneRootsDone j rec s
  | .patrolScrub pa upset => Sys2Proof.Machine.execPatrolScrub pa upset s
  | .refresh dev ch => Sys2Proof.Machine.execRefresh dev ch s
  | .periodicRetrain dev ch => Sys2Proof.Machine.execPeriodicRetrain dev ch s
  | .hdmRead unit => Sys2Proof.Machine.execHdmRead unit s
  | .hdmWrite unit be data => Sys2Proof.Machine.execHdmWrite unit be data s
  | .cxlSnoop addr => Sys2Proof.Machine.execCxlSnoop addr s
  | .secresWrite v => Sys2Proof.Machine.execSecresWrite v s
  | .frameReceive l cw => Sys2Proof.Machine.execFrameReceive l cw s
  | .frameSend l => Sys2Proof.Machine.execFrameSend l s
  | .aliveSend l => Sys2Proof.Machine.execAliveSend l s
  | .aliveReceive l a rx => Sys2Proof.Machine.execAliveReceive l a rx s
  | .aliveTimeout l => Sys2Proof.Machine.execAliveTimeout l s
  | .linkTargetOff l => Sys2Proof.Machine.execLinkTargetOff l s
  | .linkTargetHold l => Sys2Proof.Machine.execLinkTargetHold l s
  | .linkTargetRun l => Sys2Proof.Machine.execLinkTargetRun l s
  | .linkResolve l seq => Sys2Proof.Machine.execLinkResolve l seq s
  | .linkPartnerDetect l => Sys2Proof.Machine.execLinkPartnerDetect l s
  | .linkTrainDone l => Sys2Proof.Machine.execLinkTrainDone l s
  | .linkStepTimeout l => Sys2Proof.Machine.execLinkStepTimeout l s
  | .linkBerWindow l => Sys2Proof.Machine.execLinkBerWindow l s
  | .exitArbitration e => Sys2Proof.Machine.execExitArbitration e s
  | .reservationExpire e => Sys2Proof.Machine.execReservationExpire e s
  | .deliveryWrite die => Sys2Proof.Machine.execDeliveryWrite die s
  | .tableStaged j => Sys2Proof.Machine.execTableStaged j s
  | .epochMissed j => Sys2Proof.Machine.execEpochMissed j s
  | .routeEpochSwitch j => Sys2Proof.Machine.execRouteEpochSwitch j s
  | .epochDrain j => Sys2Proof.Machine.execEpochDrain j s
  | .gaugeSync => Sys2Proof.Machine.execGaugeSync s
  | .gaugeJoin l => Sys2Proof.Machine.execGaugeJoin l s
  | .gaugeSteer => Sys2Proof.Machine.execGaugeSteer s
  | .gaugeRefLost => Sys2Proof.Machine.execGaugeRefLost s
  | .gaugeRefReturn => Sys2Proof.Machine.execGaugeRefReturn s
  | .holdoverExpire => Sys2Proof.Machine.execHoldoverExpire s
  | .collBaseFire d => Sys2Proof.Machine.execCollBaseFire d s
  | .slotOpen d k => Sys2Proof.Machine.execSlotOpen d k s
  | .slotMark d k => Sys2Proof.Machine.execSlotMark d k s
  | .recvJudge d e => Sys2Proof.Machine.execRecvJudge d e s
  | .collEnd d => Sys2Proof.Machine.execCollEnd d s
  | .doorbell off size v => Sys2Proof.Machine.execDoorbell off size v s
  | .descriptorFetch q => Sys2Proof.Machine.execDescriptorFetch q s
  | .nop d => Sys2Proof.Machine.execNop d s
  | .product d => Sys2Proof.Machine.execProduct d s
  | .pass d => Sys2Proof.Machine.execPass d s
  | .move d => Sys2Proof.Machine.execMove d s
  | .coll d => Sys2Proof.Machine.execColl d s
  | .update d => Sys2Proof.Machine.execUpdate d s
  | .commit d => Sys2Proof.Machine.execCommit d s
  | .snapshotPlan d => Sys2Proof.Machine.execSnapshotPlan d s
  | .snapshotFull d => Sys2Proof.Machine.execSnapshotFull d s
  | .snapshotDelta d => Sys2Proof.Machine.execSnapshotDelta d s
  | .inventory d => Sys2Proof.Machine.execInventory d s
  | .applyRemote d => Sys2Proof.Machine.execApplyRemote d s
  | .applyLocal d => Sys2Proof.Machine.execApplyLocal d s
  | .abortDesc d => Sys2Proof.Machine.execAbortDesc d s
  | .mapDesc d => Sys2Proof.Machine.execMapDesc d s
  | .unmap d => Sys2Proof.Machine.execUnmap d s
  | .unmapComplete d => Sys2Proof.Machine.execUnmapComplete d s
  | .ladderPolicy d => Sys2Proof.Machine.execLadderPolicy d s
  | .routeEpoch d => Sys2Proof.Machine.execRouteEpoch d s
  | .jobSetup d => Sys2Proof.Machine.execJobSetup d s
  | .partPlace d u w => Sys2Proof.Machine.execPartPlace d u w s
  | .partEnd d u e => Sys2Proof.Machine.execPartEnd d u e s
  | .msixWindowEnd src => Sys2Proof.Machine.execMsixWindowEnd src s
  | .ctxOpen => Sys2Proof.Machine.execCtxOpen s
  | .ctxClose => Sys2Proof.Machine.execCtxClose s
  | .ctxFree => Sys2Proof.Machine.execCtxFree s
  | .ctxDrainMark c => Sys2Proof.Machine.execCtxDrainMark c s
  | .ctxQuiesce c => Sys2Proof.Machine.execCtxQuiesce c s
  | .queueEnable v => Sys2Proof.Machine.execQueueEnable v s
  | .queueDisable v => Sys2Proof.Machine.execQueueDisable v s
  | .cxlLinkDown => Sys2Proof.Machine.execCxlLinkDown s
  | .cxlLinkUp width rate => Sys2Proof.Machine.execCxlLinkUp width rate s
  | .snapshotStart j => Sys2Proof.Machine.execSnapshotStart j s
  | .snapshotEndMark j => Sys2Proof.Machine.execSnapshotEndMark j s
  | .riskCompute vin => Sys2Proof.Machine.execRiskCompute vin s
  | .hangSlot t => Sys2Proof.Machine.execHangSlot t s
  | .hangQueue q => Sys2Proof.Machine.execHangQueue q s
  | .hangEngine c e => Sys2Proof.Machine.execHangEngine c e s
  | .replayEnd c hung => Sys2Proof.Machine.execReplayEnd c hung s
  | .unitHang u => Sys2Proof.Machine.execUnitHang u s
  | .msgStale die j msg => Sys2Proof.Machine.execMsgStale die j msg s
  | .rstreqDump => Sys2Proof.Machine.execRstreqDump s
  | .rstreqContext target => Sys2Proof.Machine.execRstreqContext target s
  | .rstreqEngine target sub => Sys2Proof.Machine.execRstreqEngine target sub s
  | .rstreqPanel target => Sys2Proof.Machine.execRstreqPanel target s
  | .rstreqChip => Sys2Proof.Machine.execRstreqChip s
  | .rstreqPowerCycle => Sys2Proof.Machine.execRstreqPowerCycle s
  | .panelRung p => Sys2Proof.Machine.execPanelRung p s
  | .chipRung => Sys2Proof.Machine.execChipRung s
  | .powerCycleRung => Sys2Proof.Machine.execPowerCycleRung s
  | .rungTimeout r => Sys2Proof.Machine.execRungTimeout r s
  | .eventRingScan => Sys2Proof.Machine.execEventRingScan s
  | .logFlush path => Sys2Proof.Machine.execLogFlush path s
  | .logackWrite v => Sys2Proof.Machine.execLogackWrite v s
  | .evqackWrite v => Sys2Proof.Machine.execEvqackWrite v s
  | .evqEnable v => Sys2Proof.Machine.execEvqEnable v s
  | .i3cSend => Sys2Proof.Machine.execI3cSend s
  | .mctpHeartbeat => Sys2Proof.Machine.execMctpHeartbeat s
  | .sagStageEnter vin => Sys2Proof.Machine.execSagStageEnter vin s
  | .sagStageExit vin => Sys2Proof.Machine.execSagStageExit vin s
  | .overvoltage vin => Sys2Proof.Machine.execOvervoltage vin s
  | .peakCap watts => Sys2Proof.Machine.execPeakCap watts s
  | .peakCapLift watts => Sys2Proof.Machine.execPeakCapLift watts s
  | .excursionCap usAbove => Sys2Proof.Machine.execExcursionCap usAbove s
  | .excursionLift usAbove => Sys2Proof.Machine.execExcursionLift usAbove s
  | .powerLimitStep watts d0 d1 d2 d3 => Sys2Proof.Machine.execPowerLimitStep watts d0 d1 d2 d3 s
  | .railFault r => Sys2Proof.Machine.execRailFault r s
  | .pwrGoodDrop => Sys2Proof.Machine.execPwrGoodDrop s
  | .powerRestart vin => Sys2Proof.Machine.execPowerRestart vin s
  | .thermalSample samples => Sys2Proof.Machine.execThermalSample samples s
  | .thermalStageExit x => Sys2Proof.Machine.execThermalStageExit x s
  | .hardwareTrip x celsius => Sys2Proof.Machine.execHardwareTrip x celsius s
  | .drillArm v => Sys2Proof.Machine.execDrillArm v s
  | .drillStart => Sys2Proof.Machine.execDrillStart s
  | .drillEnd => Sys2Proof.Machine.execDrillEnd s
  | .plinthBoot => Sys2Proof.Machine.execPlinthBoot s
  | .configLock => Sys2Proof.Machine.execConfigLock s
  | .status r => Sys2Proof.Machine.execStatus r s
  | .configLoad r => Sys2Proof.Machine.execConfigLoad r s
  | .fwWrite r => Sys2Proof.Machine.execFwWrite r s
  | .fwActivate r => Sys2Proof.Machine.execFwActivate r s
  | .fwConfirm r => Sys2Proof.Machine.execFwConfirm r s
  | .ownerFuse r => Sys2Proof.Machine.execOwnerFuse r s
  | .debugToken r => Sys2Proof.Machine.execDebugToken r s
  | .reboot r => Sys2Proof.Machine.execReboot r s
  | .getDigests => Sys2Proof.Machine.execGetDigests s
  | .getCertificate slot offset len => Sys2Proof.Machine.execGetCertificate slot offset len s
  | .challenge slot nonce => Sys2Proof.Machine.execChallenge slot nonce s
  | .getMeasurements index nonce => Sys2Proof.Machine.execGetMeasurements index nonce s
  | .keyExchange sid x => Sys2Proof.Machine.execKeyExchange sid x s
  | .finish sid verify => Sys2Proof.Machine.execFinish sid verify s
  | .keyUpdate sid op => Sys2Proof.Machine.execKeyUpdate sid op s
  | .heartbeat sid => Sys2Proof.Machine.execHeartbeat sid s
  | .endSession sid => Sys2Proof.Machine.execEndSession sid s
  | .ideKmKeyProg sid k key => Sys2Proof.Machine.execIdeKmKeyProg sid k key s
  | .kSetGo sid k => Sys2Proof.Machine.execKSetGo sid k s
  | .ideIntegrityFail stream => Sys2Proof.Machine.execIdeIntegrityFail stream s
  | .flashWpAssert => Sys2Proof.Machine.execFlashWpAssert s
  | .perstAssert => Sys2Proof.Machine.execPerstAssert s
  | .perstDeassert => Sys2Proof.Machine.execPerstDeassert s
  | .coreFenceWrite p v => Sys2Proof.Machine.execCoreFenceWrite p v s
  | .bar0AccessRefused a => Sys2Proof.Machine.execBar0AccessRefused a s
  | .registerWrite off v => Sys2Proof.Machine.execRegisterWrite off v s
  | .gaugeTick => Sys2Proof.Machine.execGaugeTick s
  | .restoreStartMark j srcRank => Sys2Proof.Machine.execRestoreStartMark j srcRank s

end Sys2Proof.Machine
end

