-- ==== Sys2Proof/Machine/Fec.lean ====
section
/-!
DEFINITION. What a link sends for a frame (R308 to R310): the 20-bit header and ten payload units as 514 symbols of 10 bits, the
30 parity symbols of RS(544,514), and the lane of each symbol. The field and the generator are those of IEEE 802.3 Clause 91
(log entry 118, PRESUMED).
-/

namespace Sys2Proof.Machine

open Sys2Proof

/-! ### GF(2¹⁰), x¹⁰ = x³ + 1 -/

/-- x times an element. -/
def gfTwice (a : Nat) : Nat := if a < 512 then 2 * a else (2 * a % 1024) ^^^ 9

/-- The product of two elements, over the low n bits of the second. -/
def gfMulBits (a : Nat) : Nat → Nat → Nat
  | 0, _ => 0
  | n + 1, b => (if b % 2 = 1 then a else 0) ^^^ gfTwice (gfMulBits a n (b / 2))

def gfMul (a b : Nat) : Nat := gfMulBits a 10 b

/-- Powers of x, from x⁰ on. -/
def gfPowers : Nat → Nat → List Nat
  | 0, _ => []
  | n + 1, a => a :: gfPowers n (gfTwice a)

/-! ### The code (R308) -/

/-- A polynomial times (X + r); coefficients from the highest power on. -/
def polyTimes (r : Nat) (g : List Nat) : List Nat := (List.zip (g ++ [0]) (0 :: g)).map fun p => p.1 ^^^ gfMul r p.2

/-- The generator polynomial: the product of (X + xⁱ) for i from 0 to 29, without its leading 1. -/
def rsGenerator : List Nat := ((gfPowers 30 1).foldl (fun g r => polyTimes r g) [1]).drop 1

/-- One symbol enters the division by the generator. -/
def rsStep (g : List Nat) (rem : List Nat) (m : Nat) : List Nat :=
  let f := rem.headD 0 ^^^ m
  (List.zip (rem.drop 1 ++ [0]) g).map fun p => p.1 ^^^ gfMul f p.2

/-- The 30 parity symbols of a message. -/
def rsParity (msg : List Nat) : List Nat := msg.foldl (rsStep rsGenerator) (List.replicate 30 0)

/-! ### Frames (R309, R310) -/

/-- Bits [19:0] of a frame: SEQ, ACK, NAK, KIND and UNITS. -/
def frameHeader (f : Frame) : Nat :=
  (if f.null then 0 else f.seq.toNat) + 2 ^ 7 * f.ack.toNat + 2 ^ 14 * bnat f.nak + 2 ^ 15 * bnat f.null
    + 2 ^ 16 * (if f.null then 0 else f.units.toNat)

/-- A packet as its payload units hold it: the header's 64 bytes, then the payload in whole units. -/
def packetBytes (p : Packet) : List Byte := hdrBytes p.hdr ++ leBytes 4 p.hdr.hcrc.toNat ++ padUnits p.payload

/-- The 640 payload bytes of a frame: whole packets one behind the other; unused units are 0, and all of a null frame's. -/
def framePayload (f : Frame) : List Byte := padTo 640 ((if f.null then [] else f.packets.flatMap packetBytes).take 640)

/-- The 5,140 bits of a frame. -/
def frameBits (f : Frame) : Nat := frameHeader f + 2 ^ 20 * ofLE (framePayload f)

/-- The 514 data symbols of a frame: symbol i holds its bits [10i + 9 : 10i] (log entry 118, DEDUCED). -/
def frameSymbols (f : Frame) : List Nat := (rangeFrom 0 514).map fun i => fld (frameBits f) (10 * i) 10

/-- The codeword that a link sends for a frame: its data symbols, then their parity. -/
def frameCodeword (f : Frame) : List Nat := frameSymbols f ++ rsParity (frameSymbols f)

/-- The lane that carries symbol i of a codeword, and what a lane carries of one (R308). -/
def symbolLane (i : Nat) : Nat := i % 4
def laneSymbols (f : Frame) (lane : Nat) : List Nat :=
  ((List.zip (rangeFrom 0 544) (frameCodeword f)).filter fun p => decide (symbolLane p.1 = lane)).map Prod.snd

end Sys2Proof.Machine
end

