-- ==== Sys2Proof/Safety.lean ====
section
/-!
DEFINITION. What counts as a safe run: a step that answers a next state. The invariants that steps keep stand beside the
statements that use them.
-/

namespace Sys2Proof

open Sys2Proof.Machine

/-- A step of the block answered a next state. -/
def stepsTo (s t : State) : Prop := step s = .next t

/-- No step of a run of n steps stops. -/
def runsSafely : Nat → State → Prop
  | 0, _ => True
  | n + 1, s => ∃ t, stepsTo s t ∧ runsSafely n t

/-- The RWL fields of R485, which only boot code writes: REGION, BIND, PROT and the link enable mask (R478). -/
def lockedFields (s : State) : Tab W64 × Tab W64 × Byte × Byte × W32 :=
  (s.sec.regions, s.sec.bind, s.sec.protDebug, s.sec.protIde, s.lnk.enable)

end Sys2Proof
end

