-- ==== Sys2Proof/WellFormed.lean ====
section
/-!
DEFINITION. Which commands are well formed: the checks that the types of the operands do not make. A command that is not
well formed still has a meaning (it is refused or ignored as the spec says of what arrives there); a sender that follows the
spec sends none.
-/

namespace Sys2Proof

/-- A packet: its payload is what PLEN says, whole 64-byte units of at most 576 bytes (R332). -/
def Packet.wf (p : Packet) : Bool :=
  p.payload.length ≤ 576 && p.payload.length % 64 == 0 && p.hdr.plen.toNat ≤ p.payload.length

/-- The bytes of a packet in a frame: its header and its payload (R310). -/
def Packet.bytes (p : Packet) : Nat := 64 + p.payload.length

/-- A frame: its packets fill at most 640 bytes; a null frame carries none and has SEQ 0 (R309, R310). -/
def Frame.wf (f : Frame) : Bool :=
  (f.packets.map Packet.bytes).sum ≤ 640 && f.packets.all Packet.wf && (!f.null || (f.packets.isEmpty && f.seq == 0))

/-- A codeword has 544 symbols (R308). -/
def Codeword.wf (c : Codeword) : Bool := c.symErrors ≤ 544 && c.frame.wf

/-- Where a part is placed: an interval of rows, no slot twice, no counter twice, counter ranges inside a core's 256. -/
def Placement.wf (w : Placement) : Bool :=
  w.lo ≤ w.hi && (w.slots.map SlotStart.slot).Nodup && w.panelScs.Nodup &&
    w.slots.all fun x => x.scBase.toNat + x.scCount ≤ 256

/-- A mailbox request: LEN is the payload's length and the reserved word is 0 (R480). -/
def MailRequest.wf (r : MailRequest) : Bool := r.len.toNat == r.payload.length && r.reserved == 0

/-- A supported BAR0 access: 8 bytes aligned, or a 4-byte read aligned (R488). -/
def Bar0Access.supported (a : Bar0Access) : Bool :=
  (a.size == 8 && a.off.toNat % 8 == 0) || (a.size == 4 && a.off.toNat % 4 == 0 && !a.write)

/-- A command is well formed. -/
def Instr.wf (i : Instr) : Bool :=
  match i with
  | .slotNop _ _ _ | .alu _ _ _ | .alui _ _ _ | .li _ _ _ | .lui _ _ _ | .ld _ _ _ | .st _ _ _ | .amo _ _ _ | .br _ _ _
  | .jal _ _ _ | .jalr _ _ _ | .fpOp _ _ _ | .fma _ _ _ | .csrr _ _ _ | .csrw _ _ _ | .stop _ _ _ => true
  | .vCfg _ _ _ | .vAdd _ _ _ | .vSub _ _ _ | .vMul _ _ _ | .vFma _ _ _ | .vDiv _ _ _ | .vSqrt _ _ _ | .vMin _ _ _
  | .vMax _ _ _ | .vFunc _ _ _ | .vLdexp _ _ _ | .vCvt _ _ _ | .vAnd _ _ _ | .vOr _ _ _ | .vXor _ _ _ | .vShl _ _ _
  | .vShr _ _ _ | .vSar _ _ _ | .vBcast _ _ _ | .vWmul _ _ _ | .vDot _ _ _ | .vCmp _ _ _ | .vMop _ _ _ | .vMpopc _ _ _
  | .vMfirst _ _ _ | .vPerm _ _ _ | .vRed _ _ _ | .vLd _ _ _ | .vLds _ _ _ | .vLdx _ _ _ | .vLdff _ _ _ | .vMld _ _ _
  | .vSt _ _ _ | .vSts _ _ _ | .vStx _ _ _ | .vMst _ _ _ | .vPass _ _ _ => true
  | .mtBegin _ _ _ | .mtAcc _ _ _ | .mtAddraw _ _ _ | .mtStore _ _ _ | .mtDrop _ _ _ | .mtAlign _ _ _ => true
  | .xSig _ _ _ | .xWait _ _ _ | .xScset _ _ _ | .xScread _ _ _ | .xFence _ _ _ | .xIcinv _ _ _ | .xMove _ _ _
  | .xMoved _ _ _ => true
  | .pendingWriteComplete _ _ | .mtOpComplete _ | .moveComplete _ | .chainPassComplete _ | .icacheFill _ => true
  | .syncCounterIncrement _ l => !l.isEmpty
  | .clockChangeRequest _ _ _ | .clockStallEnd _ | .watchdogRestart _ | .wdogPanel _ | .wdogChip | .comparatorArm _ _
  | .launchMissed _ => true
  | .amaxMerge _ | .ladderDecide _ | .voteEvaluate _ | .commitRecordWrite _ | .commitDiscard _ | .scrubEnd _
  | .commitUnresolved _ | .planeRootsDone _ _ => true
  | .patrolScrub pa _ => pa % 64 == 0
  | .refresh _ _ | .periodicRetrain _ _ | .hdmRead _ | .cxlSnoop _ | .secresWrite _ => true
  | .hdmWrite _ _ data => data.length == 64
  | .frameReceive _ cw => cw.wf
  | .frameSend _ | .aliveSend _ | .aliveReceive _ _ _ | .aliveTimeout _ => true
  | .linkTargetOff _ | .linkTargetHold _ | .linkTargetRun _ | .linkResolve _ _ | .linkPartnerDetect _ | .linkTrainDone _
  | .linkStepTimeout _ | .linkBerWindow _ => true
  | .exitArbitration _ | .reservationExpire _ | .deliveryWrite _ | .tableStaged _ | .epochMissed _ | .routeEpochSwitch _
  | .epochDrain _ => true
  | .gaugeSync | .gaugeJoin _ | .gaugeSteer | .gaugeRefLost | .gaugeRefReturn | .holdoverExpire | .gaugeTick => true
  | .collBaseFire _ | .slotOpen _ _ | .slotMark _ _ | .recvJudge _ _ | .collEnd _ => true
  | .doorbell _ _ _ | .descriptorFetch _ => true
  | .nop _ | .product _ | .pass _ | .move _ | .coll _ | .update _ | .commit _ | .snapshotPlan _ | .snapshotFull _
  | .snapshotDelta _ | .inventory _ | .applyRemote _ | .applyLocal _ | .abortDesc _ | .mapDesc _ | .unmap _
  | .unmapComplete _ | .ladderPolicy _ | .routeEpoch _ | .jobSetup _ => true
  | .partPlace _ _ w => w.wf
  | .partEnd _ _ _ | .msixWindowEnd _ => true
  | .ctxOpen | .ctxClose | .ctxFree | .ctxDrainMark _ | .ctxQuiesce _ => true
  | .queueEnable v => v.getLsbD 8
  | .queueDisable v => !v.getLsbD 8
  | .cxlLinkDown => true
  | .cxlLinkUp width rate => 1 ≤ width && width ≤ 16 && rate ≤ 64
  | .snapshotStart _ | .snapshotEndMark _ | .riskCompute _ | .restoreStartMark _ _ => true
  | .hangSlot _ | .hangQueue _ | .hangEngine _ _ | .replayEnd _ _ | .unitHang _ | .msgStale _ _ _ => true
  | .rstreqDump | .rstreqContext _ | .rstreqEngine _ _ | .rstreqPanel _ | .rstreqChip | .rstreqPowerCycle => true
  | .panelRung _ | .chipRung | .powerCycleRung | .rungTimeout _ => true
  | .eventRingScan | .logFlush _ | .logackWrite _ | .evqackWrite _ | .i3cSend | .mctpHeartbeat => true
  | .evqEnable v => v.getLsbD 5
  | .sagStageEnter _ | .sagStageExit _ | .overvoltage _ | .peakCap _ | .peakCapLift _ | .excursionCap _ | .excursionLift _
  | .powerLimitStep _ _ _ _ _ | .railFault _ | .pwrGoodDrop | .powerRestart _ => true
  | .thermalSample l => !l.isEmpty
  | .thermalStageExit _ | .hardwareTrip _ _ => true
  | .drillArm v => v.getLsbD 32
  | .drillStart | .drillEnd | .plinthBoot | .configLock => true
  | .status r | .configLoad r | .fwWrite r | .fwActivate r | .fwConfirm r | .ownerFuse r | .debugToken r | .reboot r => r.wf
  | .getDigests | .challenge _ _ | .getMeasurements _ _ => true
  | .getCertificate slot offset len => slot < 8 && offset < 65536 && len < 65536
  | .keyExchange _ x => x.length == 96
  | .finish _ v => v.length == 64
  | .keyUpdate _ op => 1 ≤ op && op ≤ 3
  | .heartbeat _ | .endSession _ | .ideKmKeyProg _ _ _ | .kSetGo _ _ | .ideIntegrityFail _ => true
  | .flashWpAssert | .perstAssert | .perstDeassert | .coreFenceWrite _ _ => true
  | .bar0AccessRefused a => !a.supported
  | .registerWrite off _ => off.toNat % 8 == 0

end Sys2Proof
end

