-- ==== Sys2Proof/Certificates/Slice0/Obligations.lean ====
section
/-!
DEFINITION. The statements to be proved: what each family of commands does, what it leaves alone, and what every step keeps.
Sys2Proof.Claims holds the vocabulary of the statements. A next state is given as an update of the state before, so that the
equation is the frame as well: what the update does not name is unchanged.
-/

namespace Sys2Proof.Claims

open Sys2Proof Sys2Proof.Machine

/-- The slot and the bundle of a slot command: its own word, by the opcodes of R217, R252, R233, R243 and R250, beside the words
of the other three slots. -/
def slotCommand : Instr → Option (Slot × Bundle)
  | .slotNop t pos o => some (t, bundleWith pos.val 0 o)
  | .alu t f o => some (t, bundleWith 0 (sWord 0x01 f) o)
  | .alui t f o => some (t, bundleWith 0 (sWord 0x02 f) o)
  | .li t f o => some (t, bundleWith 0 (sWord 0x03 f) o)
  | .lui t f o => some (t, bundleWith 0 (sWord 0x04 f) o)
  | .ld t f o => some (t, bundleWith 0 (sWord 0x08 f) o)
  | .st t f o => some (t, bundleWith 0 (sWord 0x09 f) o)
  | .amo t f o => some (t, bundleWith 0 (sWord 0x0A f) o)
  | .br t f o => some (t, bundleWith 0 (sWord 0x10 f) o)
  | .jal t f o => some (t, bundleWith 0 (sWord 0x11 f) o)
  | .jalr t f o => some (t, bundleWith 0 (sWord 0x12 f) o)
  | .fpOp t f o => some (t, bundleWith 0 (sWord 0x18 f) o)
  | .fma t f o => some (t, bundleWith 0 (sWord 0x19 f) o)
  | .csrr t f o => some (t, bundleWith 0 (sWord 0x20 f) o)
  | .csrw t f o => some (t, bundleWith 0 (sWord 0x21 f) o)
  | .stop t f o => some (t, bundleWith 0 (sWord 0x3E f) o)
  | .vCfg t f o => some (t, bundleWith 1 (eWord 0x01 f) o)
  | .vAdd t f o => some (t, bundleWith 1 (eWord 0x10 f) o)
  | .vSub t f o => some (t, bundleWith 1 (eWord 0x11 f) o)
  | .vMul t f o => some (t, bundleWith 1 (eWord 0x12 f) o)
  | .vFma t f o => some (t, bundleWith 1 (eWord 0x13 f) o)
  | .vDiv t f o => some (t, bundleWith 1 (eWord 0x14 f) o)
  | .vSqrt t f o => some (t, bundleWith 1 (eWord 0x15 f) o)
  | .vMin t f o => some (t, bundleWith 1 (eWord 0x16 f) o)
  | .vMax t f o => some (t, bundleWith 1 (eWord 0x17 f) o)
  | .vFunc t f o => some (t, bundleWith 1 (eWord 0x18 f) o)
  | .vLdexp t f o => some (t, bundleWith 1 (eWord 0x19 f) o)
  | .vCvt t f o => some (t, bundleWith 1 (eWord 0x1A f) o)
  | .vAnd t f o => some (t, bundleWith 1 (eWord 0x1C f) o)
  | .vOr t f o => some (t, bundleWith 1 (eWord 0x1D f) o)
  | .vXor t f o => some (t, bundleWith 1 (eWord 0x1E f) o)
  | .vShl t f o => some (t, bundleWith 1 (eWord 0x1F f) o)
  | .vShr t f o => some (t, bundleWith 1 (eWord 0x20 f) o)
  | .vSar t f o => some (t, bundleWith 1 (eWord 0x21 f) o)
  | .vBcast t f o => some (t, bundleWith 1 (eWord 0x22 f) o)
  | .vWmul t f o => some (t, bundleWith 1 (eWord 0x28 f) o)
  | .vDot t f o => some (t, bundleWith 1 (eWord 0x29 f) o)
  | .vCmp t f o => some (t, bundleWith 1 (eWord 0x30 f) o)
  | .vMop t f o => some (t, bundleWith 1 (eWord 0x31 f) o)
  | .vMpopc t f o => some (t, bundleWith 1 (eWord 0x32 f) o)
  | .vMfirst t f o => some (t, bundleWith 1 (eWord 0x33 f) o)
  | .vPerm t f o => some (t, bundleWith 1 (eWord 0x38 f) o)
  | .vRed t f o => some (t, bundleWith 1 (eWord 0x3A f) o)
  | .vLd t f o => some (t, bundleWith 1 (eWord 0x40 f) o)
  | .vLds t f o => some (t, bundleWith 1 (eWord 0x41 f) o)
  | .vLdx t f o => some (t, bundleWith 1 (eWord 0x42 f) o)
  | .vLdff t f o => some (t, bundleWith 1 (eWord 0x43 f) o)
  | .vMld t f o => some (t, bundleWith 1 (eWord 0x44 f) o)
  | .vSt t f o => some (t, bundleWith 1 (eWord 0x48 f) o)
  | .vSts t f o => some (t, bundleWith 1 (eWord 0x49 f) o)
  | .vStx t f o => some (t, bundleWith 1 (eWord 0x4A f) o)
  | .vMst t f o => some (t, bundleWith 1 (eWord 0x4C f) o)
  | .vPass t f o => some (t, bundleWith 1 (eWord 0x50 f) o)
  | .mtBegin t f o => some (t, bundleWith 2 (eWord 0x01 f) o)
  | .mtAcc t f o => some (t, bundleWith 2 (eWord 0x02 f) o)
  | .mtAddraw t f o => some (t, bundleWith 2 (eWord 0x03 f) o)
  | .mtStore t f o => some (t, bundleWith 2 (eWord 0x04 f) o)
  | .mtDrop t f o => some (t, bundleWith 2 (eWord 0x05 f) o)
  | .mtAlign t f o => some (t, bundleWith 2 (eWord 0x06 f) o)
  | .xMove t f o => some (t, bundleWith 3 (eWord 0x01 f) o)
  | .xMoved t f o => some (t, bundleWith 3 (eWord 0x02 f) o)
  | .xSig t f o => some (t, bundleWith 3 (eWord 0x08 f) o)
  | .xWait t f o => some (t, bundleWith 3 (eWord 0x09 f) o)
  | .xScset t f o => some (t, bundleWith 3 (eWord 0x0A f) o)
  | .xScread t f o => some (t, bundleWith 3 (eWord 0x0B f) o)
  | .xFence t f o => some (t, bundleWith 3 (eWord 0x0C f) o)
  | .xIcinv t f o => some (t, bundleWith 3 (eWord 0x0D f) o)
  | _ => none

/-- The slot issues the bundle b now: it runs, its instruction cache holds b at its program counter, and b is legal and ready
with the operations o, and no slot that is ready comes before it in the core's turn (R20, R220, R221). -/
structure Issues (s : State) (t : Slot) (b : Bundle) (o : Ops) : Prop where
  slot : slotIssues s t = true
  fetch : fetched s t b = true
  ops : bundleOps b = some o
  legal : bundleLegal o (s.slot t) = true
  ready : opsReady s t o = true
  turn : itsTurn s t = true

/-- The other three slots hold NOP. -/
def noOthers : Others := ⟨0, 0, 0⟩

/-- The bundle with word w in slot position pos and NOP in the other three issues now. -/
def issuesAlone (s : State) (t : Slot) (pos : Nat) (w : W64) : Prop := ∃ o, Issues s t (bundleWith pos w noOthers) o

/-- A slot's state after a bundle: the program counter stands at pc, and the slot has made progress now (R217, R428). -/
def stepTo (s : State) (pc : W64) (x : SlotState) : SlotState := { x with pc := pc, progress := s.now }

/-- The next bundle in order (R217). -/
def nextBundle (s : State) (t : Slot) : W64 := (s.slot t).pc + 32

/-- u after the bundle of slot t: its core has issued for it last (R20). -/
def issuedFor (t : Slot) (u : State) : State := noteIssue t u

/-- The slot stands at the next bundle after u, has made progress now, and was the last of its core to issue (R20, R217, R428). -/
def advanced (s : State) (t : Slot) (u : State) : State := issuedFor t (u.setSlot t (stepTo s (nextBundle s t) (u.slot t)))

/-- The slot has stopped with an event: its handles are released, the bundle has moved it on, its passes have ended at a row
(R112, R216, R220). -/
def stoppedWith (s : State) (t : Slot) (code : BitVec 16) : State :=
  let u := faultSlot t code 0 s
  issuedFor t (stopPasses (u.setSlot t (stepTo s (nextBundle s t) (u.slot t))) t)

/-- The value that the integer function FN of R252 gives on two 64-bit operands, as numbers: signed readings are toInt,
unsigned ones toNat; SHL, SHR and SAR are meant for counts below 64. -/
def intFunction (fn : Nat) (a b : W64) : Int :=
  match fn with
  | 0 => a.toInt + b.toInt
  | 1 => a.toInt - b.toInt
  | 2 => ((a.toNat &&& b.toNat : Nat) : Int)
  | 3 => ((a.toNat ||| b.toNat : Nat) : Int)
  | 4 => ((a.toNat ^^^ b.toNat : Nat) : Int)
  | 5 => ((a.toNat * 2 ^ b.toNat : Nat) : Int)
  | 6 => ((a.toNat / 2 ^ b.toNat : Nat) : Int)
  | 7 => a.toInt / (2 ^ b.toNat : Nat)
  | 8 => if a.toInt < b.toInt then 1 else 0
  | 9 => if a.toNat < b.toNat then 1 else 0
  | 10 => min a.toInt b.toInt
  | 11 => max a.toInt b.toInt
  | 12 => ((min a.toNat b.toNat : Nat) : Int)
  | 13 => ((max a.toNat b.toNat : Nat) : Int)
  | 14 => a.toInt * b.toInt
  | 15 => a.toInt * b.toInt / 2 ^ 64
  | 16 => ((a.toNat * b.toNat / 2 ^ 64 : Nat) : Int)
  | 17 => if b = 0 then -1 else a.toInt.tdiv b.toInt
  | 18 => if b = 0 then -1 else ((a.toNat / b.toNat : Nat) : Int)
  | 19 => if b = 0 then a.toInt else a.toInt.tmod b.toInt
  | _ => if b = 0 then a.toInt else ((a.toNat % b.toNat : Nat) : Int)

/-- FN names a shift. -/
def isShift (fn : Nat) : Prop := fn = 5 ∨ fn = 6 ∨ fn = 7

/-- D holds v after the bundle; where the operation writes it later than at issue it is pending until then (R221). -/
def withD (s : State) (t : Slot) (d : BitVec 6) (v : W64) (late : Bool) : State :=
  let x := setSReg (s.slot t) d.toNat v
  issuedFor t (s.setSlot t (stepTo s (nextBundle s t) (if late then addPending x [sName d.toNat] else x)))

/-- The condition of BR by its FN, on signed or unsigned readings (R252). -/
def branches (fn : Nat) (a b : W64) : Prop :=
  match fn with
  | 0 => a = b
  | 1 => a ≠ b
  | 2 => a.toInt < b.toInt
  | 3 => b.toInt ≤ a.toInt
  | 4 => a.toNat < b.toNat
  | _ => b.toNat ≤ a.toNat

/-- The fields of an engine word that names D, A and B alone. -/
def eDab (d a b : BitVec 6) : EFields :=
  { d := d, a := a, b := b, c := 0, msk := 0, men := false, mz := false, sub := 0, imm := 0, sigen := false, sig := 0 }

/-- A state of a slot that runs NOPs but for the word in position pos: the slot runs in panel 0 with its bundle cached. -/
def smallState (t : Slot) (pos : Nat) (w : W64) (x : SlotState) : State :=
  { State.reset with
    slots := [(t.val, { x with running := true })]
    cores := [((slotCore t).val, { ({} : CoreState) with icache := [(0, x.pc.toNat, (bundleWith pos w noOthers).bits)] })] }

/-- The V operation of a bundle that holds nothing else has issued with y for the slot's registers: the registers it writes are
pending until its command leaves the vector chain's queue, and the slot stands at the next bundle (R217, R221, R246). -/
def vDone (s : State) (t : Slot) (sigs : List Signal) (op : SlotOp) (f : EFields) (y : SlotState) : State :=
  advanced s t (vIssue t sigs ((vUse op f (s.slot t)).writes) y s)

/-- An engine operation has stopped the slot: sub names the engine (R216, R220). -/
def stoppedIn (s : State) (t : Slot) (code : BitVec 16) (sub : BitVec 3) : State :=
  let u := stopAt t code sub s
  issuedFor t (stopPasses (u.setSlot t (stepTo s (nextBundle s t) (u.slot t))) t)

/-- Group n of y holds the results r of its first k elements, of width w, under the mask of f (R229): an active element holds r,
an inactive one is kept or 0, and the elements from k on in the registers of the first k are kept. -/
structure GroupHolds (old y : SlotState) (f : EFields) (n w k : Nat) (r : Nat → Nat) : Prop where
  onActive : ∀ i, i < k → active old f i = true → vElem y n w i = r i % 2 ^ w
  onInactive : ∀ i, i < k → active old f i = false → vElem y n w i = if f.mz then 0 else vElem old n w i
  onTail : ∀ i, k ≤ i → i * w / 2048 < (k * w + 2047) / 2048 → vElem y n w i = vElem old n w i

/-- Vector registers from n on, k elements of width w, are the only ones that y may hold other than old. -/
def OthersKept (old y : SlotState) (n w k : Nat) : Prop :=
  ∀ i, i < n ∨ n + (k * w + 2047) / 2048 ≤ i → vReg y i = vReg old i

/-- As OthersKept, for the values at n and the tangents at m. -/
def PairKept (old y : SlotState) (n m w k : Nat) : Prop :=
  ∀ i, (i < n ∨ n + (k * w + 2047) / 2048 ≤ i) → (i < m ∨ m + (k * w + 2047) / 2048 ≤ i) → vReg y i = vReg old i

/-- The exceptions of the active elements among the first k. -/
def raisedBy (old : SlotState) (f : EFields) (k : Nat) (e : Nat → Exc) : Exc :=
  (List.range k).foldl (fun x i => if active old f i then x ||| e i else x) 0

/-- FPSR after exceptions, and after an integer saturation: what it held stays (R64, R224). -/
def stickyFpsr (old : SlotState) (e : Exc) (sat : Bool) : BitVec 6 := old.fpsr ||| e.setWidth 6 ||| if sat then 0x20 else 0

/-- The floating-point result of an element operation, rounded once, with the exceptions that it raises (R233, R234). -/
def floatResult (op : SlotOp) (fm : Fmt) (dir : Rnd) (code : Nat) (a b c : FVal) : FVal × Exc :=
  match op with
  | .vAdd => roundExc fm dir (exactAdd dir a b)
  | .vSub => fSub fm dir a b
  | .vMul => roundExc fm dir (exactMul a b)
  | .vFma => roundExc fm dir (exactFma dir a b c)
  | .vDiv => roundExc fm dir (exactDiv a b)
  | .vSqrt => roundExc fm dir (exactSqrt a)
  | .vMin => ((fMinMax false a b).1, (fMinMax false a b).2.1)
  | .vMax => ((fMinMax true a b).1, (fMinMax true a b).2.1)
  | _ => funcEval fm dir code a

/-- The integer result of an element operation on codes of width w, before it wraps (R233). -/
def integerResult (op : SlotOp) (w : Nat) (a b c : Nat) : Int :=
  match op with
  | .vAdd => toSigned w a + toSigned w b
  | .vSub => toSigned w a - toSigned w b
  | .vMul => toSigned w a * toSigned w b
  | .vFma => toSigned w a * toSigned w b + toSigned w c
  | .vMin => min (toSigned w a) (toSigned w b)
  | .vMax => max (toSigned w a) (toSigned w b)
  | .vAnd => ((a &&& b : Nat) : Int)
  | .vOr => ((a ||| b : Nat) : Int)
  | .vXor => ((a ^^^ b : Nat) : Int)
  | .vShl => ((a * 2 ^ (b % w) : Nat) : Int)
  | .vShr => ((a / 2 ^ (b % w) : Nat) : Int)
  | _ => toSigned w a / ((2 ^ (b % w) : Nat) : Int)

/-- The code that an element operation writes. -/
def elementResult (op : SlotOp) (fm : Fmt) (dir : Rnd) (code a b c : Nat) : Nat :=
  if fm.isFloat then packVal fm (floatResult op fm dir code (decodeElem fm a) (decodeElem fm b) (decodeElem fm c)).1
  else (integerResult op fm.width a b c % ((2 ^ fm.width : Nat) : Int)).toNat

/-- The exceptions of an element operation; integer types raise none (R64, R233). -/
def elementRaises (op : SlotOp) (fm : Fmt) (dir : Rnd) (code a b c : Nat) : Exc :=
  if fm.isFloat then (floatResult op fm dir code (decodeElem fm a) (decodeElem fm b) (decodeElem fm c)).2 else 0

/-- The element operations with their opcodes (R233). -/
def vectorArith (t : Slot) (f : EFields) : List (SlotOp × Nat × Instr) :=
  [(.vAdd, 0x10, .vAdd t f noOthers), (.vSub, 0x11, .vSub t f noOthers), (.vMul, 0x12, .vMul t f noOthers),
   (.vFma, 0x13, .vFma t f noOthers), (.vDiv, 0x14, .vDiv t f noOthers), (.vSqrt, 0x15, .vSqrt t f noOthers),
   (.vMin, 0x16, .vMin t f noOthers), (.vMax, 0x17, .vMax t f noOthers), (.vFunc, 0x18, .vFunc t f noOthers),
   (.vAnd, 0x1C, .vAnd t f noOthers), (.vOr, 0x1D, .vOr t f noOthers), (.vXor, 0x1E, .vXor t f noOthers),
   (.vShl, 0x1F, .vShl t f noOthers), (.vShr, 0x20, .vShr t f noOthers), (.vSar, 0x21, .vSar t f noOthers)]

/-- The module without power since now, with the input at v: flash, fuses, host memory, the input pins, the voltage samples l and the
oscillator's own count are kept, a flash write under way is torn (R486), o is what its transmitters did; everything else is as at
reset (R440, R454). -/
def powerLost (s : State) (v : Nat) (l : List SagSample) (o : List Output) : State :=
  { State.reset with
    pending := s.pending, free := (tearFlash s).free, out := s.out ++ o
    mem := { State.reset.mem with flash := (tearFlash s).mem.flash, host := s.mem.host }
    gau := { State.reset.gau with edges := s.gau.edges }
    sec := { State.reset.sec with fuses := s.sec.fuses }
    pwr := { State.reset.pwr with
      vin := v, pwrGood := false, powerOffAt := some s.now, vinGoodSince := if 12288 ≤ v ∧ v ≤ 14336 then some s.now else none
      perst := s.pwr.perst, flashWp := s.pwr.flashWp, samples := l } }

/-- Only the sensed input changes: its voltage, since when it stands in the operating range, its samples, and the times that stages
in force count. -/
def onlyVin (s : State) (v : Nat) (o : Host.Outcome State Fault Refusal) : Prop :=
  ∃ u, o = .next u ∧ u = { s with pwr := u.pwr } ∧
    u.pwr = { s.pwr with
      vin := v, sag := u.pwr.sag, samples := u.pwr.samples
      vinGoodSince := if 12288 ≤ v ∧ v ≤ 14336 then some (s.pwr.vinGoodSince.getD s.now) else none } ∧
    ∀ k, (u.sagState k).inForce = (s.sagState k).inForce

/-- The transmitters of exactly the links that are not OFF go idle. -/
def onlyIdles (s : State) (o : List Output) : Prop :=
  (∀ l, (s.link l).phase ≠ .off → .idle l ∈ o) ∧ ∀ x ∈ o, ∃ l, x = .idle l

/-- The trip temperature of a sensor in degrees Celsius (R464); the coolant sensors have none. -/
def tripAt : Sensor → Option Int
  | .junction _ _ | .link _ _ => some 125
  | .gddr _ => some 105
  | .stage _ => some 130
  | .inlet | .outlet => none

/-- The thresholds of the stages 1 to 5 of a sensor in degrees Celsius (R464). -/
def stageTemps : Sensor → List Int
  | .junction _ _ | .link _ _ => [95, 100, 105, 110, 115]
  | .gddr _ => [90, 93, 95, 98, 100]
  | .stage _ => [105, 110, 115, 120, 125]
  | .inlet | .outlet => []

/-- A sensor has stood 5 degrees below the threshold of its stage k for 10 ms. -/
def cooled (s : State) (x : Sensor) (k : Nat) : Prop := ∃ t, tabFind (s.sensor x).cool k = some t ∧ t + 1562500 ≤ s.now

/-- Two states differ at most in the clock changes of panels and in the times that progress windows count from. -/
def onlyClocks (s t : State) : Prop :=
  t = { s with
    panels := t.panels, slots := t.slots, cores := t.cores, upd := t.upd
    qmg := { s.qmg with queues := t.qmg.queues, progress := t.qmg.progress }, lnk := { s.lnk with dies := t.lnk.dies } }

/-- A transit candidate may be served before another (R336): one with a reservation, then seniors, oldest first and then in ascending
(JOB, SRC_RANK, MSG_ID, OFFSET), then others in order of arrival, the lower ring first. -/
def servedBefore (s : State) (e : Exit) (a b : Cand) : Prop :=
  let x := a.packet.hdr
  let y := b.packet.hdr
  let holds (h : PktHdr) : Bool := (exitRsv s e).any (rsvMatches h)
  let age (h : PktHdr) : Nat := (BitVec.ofNat 32 s.gau.count.toNat - h.injTick).toNat
  let num (h : PktHdr) : Nat := ((h.job.toNat * 2 ^ 16 + h.srcRank.toNat) * 2 ^ 32 + h.msgId.toNat) * 2 ^ 32 + h.offset.toNat
  let ring (c : Cand) : Nat := (c.ring.map fun r => r.val).getD 32
  holds x = true ∨ (holds y = false ∧
    ((x.senior = true ∧ (y.senior = false ∨ age y < age x ∨ (age y = age x ∧ num x ≤ num y))) ∨
      (x.senior = false ∧ y.senior = false ∧ (a.arrived < b.arrived ∨ (a.arrived = b.arrived ∧ ring a ≤ ring b)))))

/-- No slot of the module is held: none waits for a counter, none for earlier operations. -/
def noneHeld (s : State) : Prop := ∀ p ∈ s.slots, p.2.hold = .free

/-- The counter's value after the increments of a list whose tags match (R251, R435). -/
def incTotal (s : State) (v : W32) (l : List TaggedInc) : W32 :=
  l.foldl (fun v i => if tagsOk s i.tags then v + i.amount else v) v

/-- The first command of a list, if there is one, does not end by itself. -/
def staysQueued (l : List EngCmd) : Prop := ∀ x ∈ l.head?, x.kind ≠ .immediate

/-- What the end of the front command of an engine's queue leaves: the queue is the rest of it and its handles are free; its writes are
visible and its signals have reached their counters, or, where its tags no longer match, nothing but the count of R435. -/
def commandEnded (s : State) (c : Core) (k : EngineKind) (cmd : EngCmd) (rest : List EngCmd) (t : State) : Prop :=
  (t.engine c k).queue = rest ∧ (t.engine c k).progress = s.now ∧
  (∀ h ∈ cmd.handles, tabFind (t.core c).handles h = none) ∧
  (tagsOk s cmd.tags = true → t.mem = (cmd.writes.foldl applyWrite s).mem ∧
    (∀ n v, cmd.sets = [] → cmd.signals = [⟨n, v⟩] → noneHeld s → scGet t n = scGet s n + v) ∧
    (∀ n v, cmd.sets = [⟨n, v⟩] → cmd.signals = [] → noneHeld s → scGet t n = v) ∧
    (cmd.icinv = true → (t.core c).icache = [])) ∧
  (tagsOk s cmd.tags = false → t.mem = s.mem ∧ (noneHeld s → (∀ n, scGet t n = scGet s n) ∧
    t.glb.lateDrop = s.glb.lateDrop + BitVec.ofNat 64 (cmd.writes.length + cmd.sets.length + cmd.signals.length)))

/-- Descriptor d, which is x, names opcode op and has its turn to start (R375, R378). -/
structure Starts (s : State) (d : DescId) (op : Nat) (x : DescState) : Prop where
  desc : s.desc? d = some x
  op : descOp x = op
  may : mayStart s d = true

/-- The state in which a descriptor starts: its queue has made progress (R428). -/
def begun (s : State) (d : DescId) : State := updQueue s d.q fun q => { q with progress := s.now }

/-- A descriptor with the words of its argument block (R376). -/
def withWords (x : DescState) (w : List Nat) : DescState := { x with args := w.map (BitVec.ofNat 64) }

/-- The commands that start a descriptor with an argument block: each with its opcode and the words it reads (R378). -/
def blockStarts (d : DescId) : List (Instr × Nat × Nat) :=
  [(.product d, opProduct, 16), (.pass d, opPass, 32), (.move d, opMove, 8), (.coll d, opColl, 8), (.update d, opUpdate, 8),
   (.commit d, opCommit, 8), (.routeEpoch d, opRoute, 8), (.jobSetup d, opJob, 8), (.ladderPolicy d, opPolicy, 8),
   (.inventory d, opRestore, 8), (.applyRemote d, opRestore, 8), (.applyLocal d, opRestore, 8),
   (.snapshotPlan d, opSnapshot, 8), (.snapshotFull d, opSnapshot, 8), (.snapshotDelta d, opSnapshot, 8)]

/-- The descriptors without a block (R378). -/
def plainStarts (d : DescId) : List (Instr × Nat) := [(.nop d, opNop), (.abortDesc d, opAbort), (.mapDesc d, opMap), (.unmap d, opUnmap)]

/-- A job's set-up as its block and tables name it: every check of R300, R301, R340 and R382 passes (log entries 28, 111). -/
structure SetsUp (s : State) (c : Ctx) (w : List Nat) (table : List (W64 × W64)) (len : List Nat) : Prop where
  block : setupBad s c w = false
  ranks : readRankTable s c (nth w 6) (fld (nth w 0) 32 32) = some table
  rings : readRingTable s c (nth w 7) = some len
  routes : table.all (routeOk len) = true
  ringForm : ringTableOk len = true
  room : routeFits s ⟨nth w 0 % 8, Nat.mod_lt _ (by decide)⟩ (fld (nth w 0) 32 32) = true

/-- Descriptor 1 of queue 0, of context 0, waiting with an opcode and further words, its block at virtual address 0. -/
def controlDesc (op : Nat) (w : List Nat) : DescState := { words := (op :: w).map (BitVec.ofNat 64) }
def controlState (op : Nat) (w : List Nat) (more : Tab DescState) (block : List Nat) : State :=
  { State.reset with
    qmg := { ({} : QmgState) with
      groups := [(0, 0, true)], queues := [(0, { ({} : QueueState) with enable := true, head := 3 })]
      descs := (1, controlDesc op w) :: more }
    mem := { ({} : MemState) with gddr := writeBytes (writeBytes {} (rootTable 0) [7]) 0 (block.flatMap (leBytes 8)) }
    jobs := if op = opPolicy then [(0, { ({} : JobState) with resident := true, nranks := 1 })] else [] }

/-- A powered module in a phase of boot. -/
def mailState (b : BootPhase) (lock : Bool) (debug : BitVec 8) : State :=
  { State.reset with
    pwr := { State.reset.pwr with pwrGood := true, perst := false }, sec := { State.reset.sec with boot := b, lock := lock, protDebug := debug } }

end Sys2Proof.Claims

open Sys2Proof Sys2Proof.Machine Sys2Proof.Claims

/-- Step takes the command at the front of the queue and runs it with the queue's rest; an empty queue idles (log entry 2). -/
def Obligations.StepRunsFrontCommand : Prop :=
  (∀ (c : Instr) (l : List Instr) (s : State), step (s.withPending (c :: l)) = exec c (s.withPending l)) ∧
  ∀ s : State, s.pending = [] → step s = .next s

/-- Every command keeps the canonical form of the five memories. -/
def Obligations.MemoriesStayCanonical : Prop :=
  ∀ s t : State, s.mem.wf = true → step s = .next t → t.mem.wf = true

/-- The RWL fields of R485 do not change from one locked state to the next. -/
def Obligations.LockedFieldsStayWhileLocked : Prop :=
  ∀ s t : State, s.sec.lock = true → step s = .next t → t.sec.lock = true → lockedFields t = lockedFields s

/-- Commands act on everything but the queue. -/
def Obligations.EveryCommandLeavesTheQueue : Prop :=
  (∀ (c : Instr) (s t : State), exec c s = .next t → t.pending = s.pending) ∧
  ∀ s t : State, step s = .next t → t.pending = s.pending.tail

/-- No command but the scrub of an address outside R294 stops the machine. -/
def Obligations.OnlyPatrolScrubCanStop : Prop :=
  (∀ (c : Instr) (s : State), (∀ pa u, c = .patrolScrub pa u → paOk pa = true) → ∃ t, exec c s = .next t) ∧
  ∀ (pa : Nat) (u : Upset) (s : State), paOk pa = false → exec (.patrolScrub pa u) s = .fault (.noMemory pa)

/-- The reset values that the register tables state (R323, R356, R372, R373, R443, R468, R485, R491, R493 to R496). -/
def Obligations.ResetState : Prop :=
  let s := State.reset
  s.pending = [] ∧ s.mem.wf = true ∧ s.mem.secres = 0 ∧ s.sec.lock = false ∧ s.gau.count = 0 ∧ s.gau.valid = false ∧
  s.pwr.limit = 1600 ∧ s.glb.slotWin = 50 ∧ s.glb.queueWin = 50 ∧ s.glb.engineWin = 5 ∧ s.glb.replayEn = true ∧
  s.glb.autoEsc = true ∧ s.glb.pwrCycleEn = true ∧ s.glb.lastRung = 0 ∧ s.glb.accErr = 0 ∧ s.ev.evqLog2 = 10 ∧
  s.ev.evqEnable = false ∧ s.ev.i3cEn = true ∧ s.ev.i3cWarn = false ∧
  (∀ q, (s.queue q).log2size = 6 ∧ (s.queue q).enable = false ∧ (s.queue q).head = 0) ∧
  (∀ c, (s.ctx c).phase = .free) ∧ (∀ l, (s.link l).phase = .off ∧ (s.link l).target = 0) ∧
  (∀ p, (s.panel p).state = 0 ∧ (s.panel p).fence = 0 ∧ freeCores s p = 40) ∧
  ∀ t, (s.slot t).running = false ∧ ∀ i, sReg (s.slot t) i = 0

/-- R255: validity of a slot and the live slot of a pair; VOID is 2^32 - 1 (R254). -/
def Obligations.LiveSlotRule : Prop :=
  ∀ e ta tb : Nat, e < 2 ^ 32 → ta < 2 ^ 32 → tb < 2 ^ 32 →
    let valid (x : Nat) : Prop := x ≠ 2 ^ 32 - 1 ∧ x ≤ e
    (liveSlot e ta tb = none ↔ ¬ valid ta ∧ ¬ valid tb) ∧
    (liveSlot e ta tb = some 0 ↔ valid ta ∧ (valid tb → tb ≤ ta)) ∧
    (liveSlot e ta tb = some 1 ↔ valid tb ∧ (valid ta → ta < tb))

/-- R56: the default of the CLAMP field, bits 9 to 8 of a format word. -/
def Obligations.DefaultClampRule : Prop :=
  ∀ (w : Nat) (f : Fmt), w / 256 % 4 = 0 → fwFmt w = some f →
    (f.isWide = false → fwClamp w = .finite) ∧ (f.isWide = true → fwClamp w = .ieee)

/-- Reading a slot word, or the four words of a bundle, gives back what was written into it, and the other way round (R219). -/
def Obligations.SlotWordRoundTrip : Prop :=
  (∀ op : Nat, op < 256 → ∀ f : SFields, wordOp (sWord op f) = op ∧ sFieldsOf (sWord op f) = f) ∧
  (∀ op : Nat, op < 256 → ∀ f : EFields, wordOp (eWord op f) = op ∧ eFieldsOf (eWord op f) = f) ∧
  (∀ w : W64, sWord (wordOp w) (sFieldsOf w) = w ∧ eWord (wordOp w) (eFieldsOf w) = w) ∧
  (∀ b : Bundle, bundleOfBits b.bits = b) ∧ ∀ x : BitVec 256, (bundleOfBits x).bits = x

/-- The worked bundle of chapter 08. -/
def Obligations.WorkedBundleWords : Prop :=
  bundleOps ⟨0x0000000100010402, 0x0000000021000813, 0x0580000030B28002, 0x0000000000D38009⟩ =
    some ⟨.alui, { d := 4, a := 4, b := 0, fn := 0, imm := 1 },
      .vFma, { d := 8, a := 0, b := 16, c := 8, msk := 0, men := false, mz := false, sub := 0, imm := 0, sigen := false, sig := 0 },
      .mtAcc, { d := 0, a := 10, b := 11, c := 12, msk := 0, men := false, mz := false, sub := 0, imm := 0, sigen := true, sig := 5 },
      .xWait, { d := 0, a := 14, b := 13, c := 0, msk := 0, men := false, mz := false, sub := 0, imm := 0, sigen := false, sig := 0 }⟩

/-- A bundle issues whole, waits, or stops its slot with ILL_BUNDLE before any of its slots takes effect (R218, R220). -/
def Obligations.LegalBundlesIssueWhole : Prop :=
  ∀ (i : Instr) (s : State) (t : Slot) (b : Bundle), slotCommand i = some (t, b) →
    (∀ o, Issues s t b o → exec i s = .next (issuedFor t (bundleEffect t o s))) ∧
    (slotIssues s t = true → fetched s t b = true →
      (∀ o, bundleOps b = some o → bundleLegal o (s.slot t) = false) →
      exec i s = .next (stopAt t evIllBundle 0 s)) ∧
    (slotIssues s t = false ∨ fetched s t b = false → exec i s = .next s) ∧
    ∀ o, bundleOps b = some o → bundleLegal o (s.slot t) = true → (opsReady s t o = false ∨ itsTurn s t = false) →
      exec i s = .next s

/-- The scalar integer operations (R252); the result of a shift by 64 or more is free. -/
def Obligations.ScalarIntegerResults : Prop :=
  ∀ (s : State) (t : Slot) (f : SFields),
    let a := sReg (s.slot t) f.a.toNat
    let b := sReg (s.slot t) f.b.toNat
    let k : W64 := f.imm.signExtend 64
    let late := decide (14 ≤ f.fn.toNat)
    (issuesAlone s t 0 (sWord 0x01 f) → ∃ v : W64, exec (.alu t f noOthers) s = .next (withD s t f.d v late) ∧
      ((isShift f.fn.toNat → b.toNat < 64) → v = BitVec.ofInt 64 (intFunction f.fn.toNat a b))) ∧
    (issuesAlone s t 0 (sWord 0x02 f) → ∃ v : W64, exec (.alui t f noOthers) s = .next (withD s t f.d v late) ∧
      ((isShift f.fn.toNat → k.toNat < 64) → v = BitVec.ofInt 64 (intFunction f.fn.toNat a k))) ∧
    (issuesAlone s t 0 (sWord 0x03 f) → exec (.li t f noOthers) s = .next (withD s t f.d k false)) ∧
    (issuesAlone s t 0 (sWord 0x04 f) → exec (.lui t f noOthers) s =
      .next (withD s t f.d (BitVec.ofNat 64 (f.imm.toNat * 2 ^ 32 + (sReg (s.slot t) f.d.toNat).toNat % 2 ^ 32)) false))

/-- The scalar memory operations (R252): the access of n bytes at place p, or the stop. -/
def Obligations.ScalarMemoryAccesses : Prop :=
  ∀ (s : State) (t : Slot) (f : SFields),
    let x := s.slot t
    let n := 2 ^ (f.fn.toNat % 4)
    let at_ := (sReg x f.a.toNat + f.imm.signExtend 64).toNat
    let atA := (sReg x f.a.toNat).toNat
    let b := sReg x f.b.toNat
    (issuesAlone s t 0 (sWord 0x08 f) →
      (∀ p, sPlace t at_ n = some p → poisoned (s.bank p.space) p.addr n = false →
        exec (.ld t f noOthers) s = .next (withD s t f.d
          (if f.fn.toNat / 4 % 2 = 1 then BitVec.ofInt 64 (toSigned (8 * n) (readNat (s.bank p.space) p.addr n))
            else BitVec.ofNat 64 (readNat (s.bank p.space) p.addr n)) true)) ∧
      (∀ p, sPlace t at_ n = some p → poisoned (s.bank p.space) p.addr n = true →
        exec (.ld t f noOthers) s = .next (stoppedWith s t evMemPoison)) ∧
      (sPlace t at_ n = none → exec (.ld t f noOthers) s = .next (stoppedWith s t evAccessFault))) ∧
    (issuesAlone s t 0 (sWord 0x09 f) →
      (∀ p, sPlace t at_ n = some p → ∃ u, exec (.st t f noOthers) s = .next (issuedFor t (u.setSlot t (stepTo s (x.pc + 32) x))) ∧
        u = s.setBank p.space (u.bank p.space) ∧ readNat (u.bank p.space) p.addr n = b.toNat % 2 ^ (8 * n) ∧
        ∀ k a, ¬ (k = p.space ∧ p.addr ≤ a ∧ a < p.addr + n) → readByte (u.bank k) a = readByte (s.bank k) a) ∧
      (sPlace t at_ n = none → exec (.st t f noOthers) s = .next (stoppedWith s t evAccessFault))) ∧
    (issuesAlone s t 0 (sWord 0x0A f) →
      (∀ p, sPlace t atA 8 = some p → poisoned (s.bank p.space) p.addr 8 = false →
        let m := readNat (s.bank p.space) p.addr 8
        ∃ u, exec (.amo t f noOthers) s =
            .next (issuedFor t (u.setSlot t (stepTo s (x.pc + 32) (addPending (setSReg x f.d.toNat (BitVec.ofNat 64 m)) [sName f.d.toNat])))) ∧
          u = s.setBank p.space (u.bank p.space) ∧
          readNat (u.bank p.space) p.addr 8 = (match f.fn.toNat with
            | 0 => (m + b.toNat) % 2 ^ 64
            | 1 => m &&& b.toNat
            | 2 => m ||| b.toNat
            | 3 => b.toNat
            | _ => max m b.toNat) ∧
          ∀ k a, ¬ (k = p.space ∧ p.addr ≤ a ∧ a < p.addr + 8) → readByte (u.bank k) a = readByte (s.bank k) a) ∧
      (∀ p, sPlace t atA 8 = some p → poisoned (s.bank p.space) p.addr 8 = true →
        exec (.amo t f noOthers) s = .next (stoppedWith s t evMemPoison)) ∧
      (sPlace t atA 8 = none → exec (.amo t f noOthers) s = .next (stoppedWith s t evAccessFault)))

/-- The control operations of the S slot and the NOP of any slot position. -/
def Obligations.ScalarControl : Prop :=
  ∀ (s : State) (t : Slot) (f : SFields),
    let x := s.slot t
    let a := sReg x f.a.toNat
    let k : W64 := f.imm.signExtend 64
    (∀ pos : Fin 4, issuesAlone s t pos.val 0 →
      exec (.slotNop t pos noOthers) s = .next (issuedFor t (s.setSlot t (stepTo s (x.pc + 32) x)))) ∧
    (issuesAlone s t 0 (sWord 0x10 f) →
      (branches f.fn.toNat a (sReg x f.b.toNat) → exec (.br t f noOthers) s = .next (issuedFor t (s.setSlot t (stepTo s (x.pc + k * 32) x)))) ∧
      (¬ branches f.fn.toNat a (sReg x f.b.toNat) → exec (.br t f noOthers) s = .next (issuedFor t (s.setSlot t (stepTo s (x.pc + 32) x))))) ∧
    (issuesAlone s t 0 (sWord 0x11 f) →
      exec (.jal t f noOthers) s = .next (issuedFor t (s.setSlot t (stepTo s (x.pc + k * 32) (setSReg x f.d.toNat (x.pc + 32)))))) ∧
    (issuesAlone s t 0 (sWord 0x12 f) →
      exec (.jalr t f noOthers) s =
        .next (issuedFor t (s.setSlot t (stepTo s (BitVec.ofNat 64 ((a + k).toNat / 32 * 32)) (setSReg x f.d.toNat (x.pc + 32)))))) ∧
    (issuesAlone s t 0 (sWord 0x20 f) → ∃ v, exec (.csrr t f noOthers) s = .next (withD s t f.d v false) ∧
      (f.imm = 0 → v.toNat = x.rmode.toNat) ∧ (f.imm = 1 → v.toNat = x.fpsr.toNat) ∧
      (f.imm = 2 → v.toNat = x.vl.toNat + 2 ^ 16 * x.vt.toNat + 2 ^ 21 * x.grp.toNat + (if x.pair then 2 ^ 23 else 0)) ∧
      (f.imm = 3 → v.toNat = t.val) ∧ (f.imm = 4 → v.toNat = x.ctx.val + 2 ^ 10 * x.gen.toNat) ∧
      (f.imm = 5 → x.scCount ≤ 256 → v.toNat = x.scBase.toNat + 2 ^ 8 * x.scCount) ∧
      (f.imm = 6 → v.toNat = x.part.toNat) ∧ (f.imm = 8 → v = panelCycle s (slotPanel t)) ∧ (f.imm = 9 → v = s.gau.count)) ∧
    (issuesAlone s t 0 (sWord 0x21 f) →
      (f.imm = 0 → exec (.csrw t f noOthers) s = .next (issuedFor t (s.setSlot t (stepTo s (x.pc + 32) { x with rmode := BitVec.ofNat 2 a.toNat })))) ∧
      (f.imm = 1 → exec (.csrw t f noOthers) s = .next (issuedFor t (s.setSlot t (stepTo s (x.pc + 32) { x with fpsr := BitVec.ofNat 6 a.toNat }))))) ∧
    (issuesAlone s t 0 (sWord 0x3E f) → x.pending = [] → (∀ h ∈ (s.core (slotCore t)).handles, h.2.owner ≠ t) →
      (∀ e, ∀ c ∈ (s.engine (slotCore t) e).queue, c.slot ≠ t) → exec (.stop t f noOthers) s = .next (issuedFor t (s.setSlot t {}))) ∧
    (issuesAlone s t 0 (sWord 0x3E f) → ∃ u, exec (.stop t f noOthers) s = .next u ∧
      (∀ h ∈ (u.core (slotCore t)).handles, h.2.owner = t → h.2.pass = true) ∧
      ((u.slot t).running = true → (u.slot t).ending = true ∧ (u.slot t).pc = x.pc + 32) ∧
      u.ev = (if ∃ h ∈ (s.core (slotCore t)).handles, h.2.owner = t ∧ h.2.pass = false then
        raiseEv s evTileLeak (srcCore (slotCore t)) [] (some x.ctx) 0xFF 1 else s).ev)

/-- The scalar floating-point operations (R252): one rounding, sticky flags. -/
def Obligations.ScalarFloatResults : Prop :=
  ∀ (s : State) (t : Slot) (f : SFields) (fm : Fmt), fmtOfCode (f.imm.toNat % 16) = some fm →
    let x := s.slot t
    let val (i : Nat) : FVal := decodeElem fm ((sReg x i).toNat % 2 ^ fm.width)
    let a := val f.a.toNat
    let b := val f.b.toNat
    let dir := rndOfMode x.rmode
    let wrote (v : W64) (e : Exc) : Host.Outcome State Fault Refusal :=
      .next (issuedFor t (s.setSlot t (stepTo s (x.pc + 32) { addPending (setSReg x f.d.toNat v) [sName f.d.toNat] with
        fpsr := x.fpsr ||| e.setWidth 6 })))
    let result (g : Fmt) (r : FVal × Exc) : Host.Outcome State Fault Refusal := wrote (BitVec.ofNat 64 (packVal g r.1)) r.2
    let truth (e : Exc) (p : Prop) : Prop := (p → exec (.fpOp t f noOthers) s = wrote 1 e) ∧ (¬ p → exec (.fpOp t f noOthers) s = wrote 0 e)
    let unordered : Exc := if a.isNan || b.isNan then excNV else 0
    (issuesAlone s t 0 (sWord 0x18 f) →
      (f.fn = 0 → exec (.fpOp t f noOthers) s = result fm (roundExc fm dir (exactAdd dir a b))) ∧
      (f.fn = 1 → exec (.fpOp t f noOthers) s = result fm (fSub fm dir a b)) ∧
      (f.fn = 2 → exec (.fpOp t f noOthers) s = result fm (roundExc fm dir (exactMul a b))) ∧
      (f.fn = 3 → exec (.fpOp t f noOthers) s = result fm (roundExc fm dir (exactDiv a b))) ∧
      (f.fn = 4 → exec (.fpOp t f noOthers) s = result fm (roundExc fm dir (exactSqrt a))) ∧
      (f.fn = 5 → exec (.fpOp t f noOthers) s = result fm ((fMinMax false a b).1, (fMinMax false a b).2.1)) ∧
      (f.fn = 6 → exec (.fpOp t f noOthers) s = result fm ((fMinMax true a b).1, (fMinMax true a b).2.1)) ∧
      (f.fn = 7 → exec (.fpOp t f noOthers) s = result fm (fMinMaxNum false a b)) ∧
      (f.fn = 8 → exec (.fpOp t f noOthers) s = result fm (fMinMaxNum true a b)) ∧
      (f.fn = 9 → truth (sigExc [a, b]) (fCmp a b = some .eq)) ∧ (f.fn = 10 → truth unordered (fCmp a b = some .lt)) ∧
      (f.fn = 11 → truth unordered (fCmp a b = some .lt ∨ fCmp a b = some .eq)) ∧
      (f.fn = 12 → ∃ v, exec (.fpOp t f noOthers) s = wrote v 0) ∧
      (f.fn = 13 → exec (.fpOp t f noOthers) s = result fm ((fRoundInt dir a).1,
        (fRoundInt dir a).2.1 ||| if (fRoundInt dir a).2.2 then excNX else 0)) ∧
      (f.fn = 14 → ∀ g, fmtOfCode (f.imm.toNat / 16 % 16) = some g →
        exec (.fpOp t f noOthers) s = result g (roundExc g dir (a, sigExc [a]))) ∧
      (f.fn = 15 → ∃ v, exec (.fpOp t f noOthers) s = wrote v (fToInt .int64 dir a).2 ∧
        ((fToInt .int64 dir a).2 ≠ excNV → v = BitVec.ofInt 64 (fToInt .int64 dir a).1)) ∧
      (f.fn = 16 → exec (.fpOp t f noOthers) s = result fm (ieeeRound fm dir (fvalOfInt (sReg x f.a.toNat).toInt 0)))) ∧
    (issuesAlone s t 0 (sWord 0x19 f) → exec (.fma t f noOthers) s =
      result fm (roundExc fm dir (exactFma dir a b (val f.fn.toNat))))

/-- Configuration, broadcast and mask operations of the V slot (R227, R229, R233). -/
def Obligations.VectorConfigAndMasks : Prop :=
  ∀ (s : State) (t : Slot) (f : EFields) (sigs : List Signal), sigOf (s.slot t) t f = some sigs →
    let old := s.slot t
    let w := (slotType old).width
    let vl := old.vl.toNat
    let d := f.d.toNat
    let a := mReg old (f.a.toNat % 8)
    let b := mReg old (f.b.toNat % 8)
    let imm := f.imm.toNat
    (∀ fm, vtType (imm % 32) = some fm → issuesAlone s t 1 (eWord 0x01 f) →
      let n := min (sReg old f.a.toNat).toNat (2 ^ (imm / 32 % 4) * 2048 / fm.width)
      exec (.vCfg t f noOthers) s = .next (advanced s t (vIssue t sigs [] (setSReg { old with
        vl := BitVec.ofNat 13 n, vt := BitVec.ofNat 5 imm, grp := BitVec.ofNat 2 (imm / 32), pair := decide (imm / 128 % 2 = 1) }
        d (BitVec.ofNat 64 n)) s))) ∧
    (issuesAlone s t 1 (eWord 0x22 f) → ∃ y, exec (.vBcast t f noOthers) s = .next (vDone s t sigs .vBcast f y) ∧
      y = { old with vregs := y.vregs } ∧ GroupHolds old y f d w vl (fun _ => (sReg old f.a.toNat).toNat) ∧ OthersKept old y d w vl) ∧
    (issuesAlone s t 1 (eWord 0x30 f) → ∃ y m, exec (.vCmp t f noOthers) s = .next (vDone s t sigs .vCmp f y) ∧
      y = { setMReg old (d % 8) m with fpsr := stickyFpsr old (raisedBy old f vl fun i =>
        (cmpElem (slotType old) f.sub.toNat (vElem old f.a.toNat w i) (vElem old f.b.toNat w i)).2) false } ∧
      (∀ i, i < vl → i < 4096 → m.getLsbD i = (active old f i &&
        (cmpElem (slotType old) f.sub.toNat (vElem old f.a.toNat w i) (vElem old f.b.toNat w i)).1)) ∧
      ∀ i, vl ≤ i → m.getLsbD i = (mReg old (d % 8)).getLsbD i) ∧
    (issuesAlone s t 1 (eWord 0x31 f) →
      (vl = 0 → exec (.vMop t f noOthers) s = .next (vDone s t sigs .vMop f old)) ∧
      (vl ≠ 0 → exec (.vMop t f noOthers) s = .next (vDone s t sigs .vMop f (setMReg old (d % 8) (match f.sub.toNat with
        | 0 => a &&& b
        | 1 => a ||| b
        | 2 => a ^^^ b
        | 3 => a &&& ~~~b
        | _ => ~~~a))))) ∧
    (issuesAlone s t 1 (eWord 0x32 f) →
      (vl = 0 → exec (.vMpopc t f noOthers) s = .next (vDone s t sigs .vMpopc f old)) ∧
      (vl ≠ 0 → exec (.vMpopc t f noOthers) s = .next (vDone s t sigs .vMpopc f
        (setSReg old d (BitVec.ofNat 64 ((List.range vl).countP fun i => a.getLsbD i)))))) ∧
    (issuesAlone s t 1 (eWord 0x33 f) →
      (vl = 0 → exec (.vMfirst t f noOthers) s = .next (vDone s t sigs .vMfirst f old)) ∧
      (∀ i, i < vl → a.getLsbD i = true → (∀ j, j < i → a.getLsbD j = false) →
        exec (.vMfirst t f noOthers) s = .next (vDone s t sigs .vMfirst f (setSReg old d (BitVec.ofNat 64 i)))) ∧
      (vl ≠ 0 → (∀ i, i < vl → a.getLsbD i = false) →
        exec (.vMfirst t f noOthers) s = .next (vDone s t sigs .vMfirst f (setSReg old d (BitVec.allOnes 64)))))

/-- The element operations (R233, R234) and their tangents (R240). -/
def Obligations.VectorArithmetic : Prop :=
  ∀ (s : State) (t : Slot) (f : EFields) (sigs : List Signal), sigOf (s.slot t) t f = some sigs →
    ∀ e ∈ vectorArith t f, issuesAlone s t 1 (eWord e.2.1 f) →
      let old := s.slot t
      let fm := slotType old
      let w := fm.width
      let vl := old.vl.toNat
      let d := f.d.toNat
      let g := 2 ^ old.grp.toNat
      let code := f.imm.toNat % 256
      let el (n i : Nat) : Nat := vElem old n w i
      let r (i : Nat) : Nat := elementResult e.1 fm (slotRnd old) code (el f.a.toNat i) (el f.b.toNat i) (el f.c.toNat i)
      let v (n i : Nat) : FVal := decodeElem fm (el n i)
      let tan (i : Nat) : FVal × Exc := tangentElem e.1 fm (slotRnd old) code (v f.a.toNat i) (v f.b.toNat i)
        (v (f.a.toNat + g) i) (v (f.b.toNat + g) i) (v (f.c.toNat + g) i) (decodeElem fm (r i))
      let ex : Exc := raisedBy old f vl fun i => elementRaises e.1 fm (slotRnd old) code (el f.a.toNat i) (el f.b.toNat i) (el f.c.toNat i)
      ∃ y : SlotState, exec e.2.2 s = .next (vDone s t sigs e.1 f y) ∧ y = { old with vregs := y.vregs, fpsr := y.fpsr } ∧
        (old.pair = false → y.fpsr = stickyFpsr old ex false ∧ GroupHolds old y f d w vl r ∧ OthersKept old y d w vl) ∧
        (old.pair = true → fm.isFloat = true → vl ≤ vlMax fm g →
          y.fpsr = stickyFpsr old (ex ||| raisedBy old f vl fun i => (tan i).2) false ∧
          GroupHolds old y f d w vl r ∧ GroupHolds old y f (d + g) w vl (fun i => packVal fm (tan i).1) ∧ PairKept old y d (d + g) w vl)

/-- Conversions, products, dot products, permutation and reduction (R233, R235 to R240). -/
def Obligations.VectorConversions : Prop :=
  ∀ (s : State) (t : Slot) (f : EFields) (sigs : List Signal), sigOf (s.slot t) t f = some sigs →
    let old := s.slot t
    let fm := slotType old
    let w := fm.width
    let vl := old.vl.toNat
    let d := f.d.toNat
    let g := grpSize old
    let dir := slotRnd old
    let el (n i : Nat) : Nat := vElem old n w i
    let val (n i : Nat) : FVal := decodeElem fm (el n i)
    let done (i : Instr) (op : SlotOp) (y : SlotState) : Prop := exec i s = .next (vDone s t sigs op f y)
    let group (y : SlotState) : Prop := y = { old with vregs := y.vregs, fpsr := y.fpsr }
    vl ≤ vlMax fm g →
    (issuesAlone s t 1 (eWord 0x19 f) →
      let k (i : Nat) : Int := toSigned 32 (vElem old f.b.toNat 32 i)
      let sc (n i : Nat) : FVal × Exc := roundExc fm dir ((val n i).scale (k i), sigExc [val n i])
      let ta (i : Nat) : FVal × Exc := if (val (f.a.toNat + g) i).isZero then (.fin false 0 0, 0) else sc (f.a.toNat + g) i
      ∃ y, done (.vLdexp t f noOthers) .vLdexp y ∧ group y ∧
        (fm.isFloat = true → GroupHolds old y f d w vl fun i => packVal fm (sc f.a.toNat i).1) ∧
        (fm.isFloat = true → old.pair = false → OthersKept old y d w vl ∧
          y.fpsr = stickyFpsr old (raisedBy old f vl fun i => (sc f.a.toNat i).2) false) ∧
        (fm.isFloat = true → old.pair = true → GroupHolds old y f (d + g) w vl (fun i => packVal fm (ta i).1) ∧
          PairKept old y d (d + g) w vl ∧
          y.fpsr = stickyFpsr old ((raisedBy old f vl fun i => (sc f.a.toNat i).2) ||| raisedBy old f vl fun i => (ta i).2) false) ∧
        (fm.isFloat = false → OthersKept old y d w vl ∧ y.fpsr = old.fpsr ∧ ∃ r, GroupHolds old y f d w vl r ∧ ∀ i,
          (0 ≤ k i → r i = (toSigned w (el f.a.toNat i) * 2 ^ (k i).toNat % 2 ^ w).toNat) ∧
          (k i < 0 → ((2 ^ (-k i).toNat : Nat) : Int) ∣ toSigned w (el f.a.toNat i) →
            r i = (toSigned w (el f.a.toNat i) / 2 ^ (-k i).toNat % 2 ^ w).toNat))) ∧
    (issuesAlone s t 1 (eWord 0x1A f) → ∀ dst, vtType (f.imm.toNat % 32) = some dst →
      let cv (n i : Nat) : Nat × Exc × Bool := cvtElem fm dst dir (el n i)
      let ex := raisedBy old f vl fun i => (cv f.a.toNat i).2.1
      let sat := (List.range vl).any fun i => active old f i && (cv f.a.toNat i).2.2
      let m := cvtTangent old d dst.width
      let ta (i : Nat) : Nat × Exc := if (val (f.a.toNat + g) i).isZero then (0, 0) else ((cv (f.a.toNat + g) i).1, (cv (f.a.toNat + g) i).2.1)
      ∃ y, done (.vCvt t f noOthers) .vCvt y ∧ group y ∧ GroupHolds old y f d dst.width vl (fun i => (cv f.a.toNat i).1) ∧
        (old.pair = false ∨ pairType dst = false → OthersKept old y d dst.width vl ∧ y.fpsr = stickyFpsr old ex sat) ∧
        (old.pair = true → pairType dst = true → fm.isFloat = true → GroupHolds old y f m dst.width vl (fun i => (ta i).1) ∧
          PairKept old y d m dst.width vl ∧ y.fpsr = stickyFpsr old (ex ||| raisedBy old f vl fun i => (ta i).2) sat)) ∧
    (issuesAlone s t 1 (eWord 0x28 f) →
      let p (i : Nat) : FVal × Exc := roundExc (wmulType fm) .rne (exactMul (val f.a.toNat i) (val f.b.toNat i))
      ∃ y, done (.vWmul t f noOthers) .vWmul y ∧ group y ∧ OthersKept old y d (wmulType fm).width vl ∧
        y.fpsr = stickyFpsr old (if fm.isFloat then raisedBy old f vl fun i => (p i).2 else 0) false ∧
        GroupHolds old y f d (wmulType fm).width vl (fun i => if fm.isFloat then packVal (wmulType fm) (p i).1
          else (toSigned 8 (el f.a.toNat i) * toSigned 8 (el f.b.toNat i) % 2 ^ 16).toNat)) ∧
    (issuesAlone s t 1 (eWord 0x29 f) →
      let n := dotN fm
      let lanes := (vl + n - 1) / n
      let at_ (q i : Nat) : Nat := if i < vl then el q i else 0
      let fl (j : Nat) : FVal × Exc := roundExc .fp32 dir (dotExact dir (decodeElem .fp32 (vElem old f.c.toNat 32 j))
        ((List.range n).map fun i => (decodeElem fm (at_ f.a.toNat (n * j + i)), decodeElem fm (at_ f.b.toNat (n * j + i)))))
      let sum (j : Nat) : Int := toSigned 32 (vElem old f.c.toNat 32 j) +
        ((List.range n).map fun i => toSigned 8 (at_ f.a.toNat (n * j + i)) * toSigned 8 (at_ f.b.toNat (n * j + i))).sum
      let kept (j : Nat) : Int := max (-2 ^ 31) (min (2 ^ 31 - 1) (sum j))
      ∃ y, done (.vDot t f noOthers) .vDot y ∧ group y ∧ OthersKept old y d 32 lanes ∧
        (fm.isFloat = true → GroupHolds old y f d 32 lanes (fun j => packVal .fp32 (fl j).1) ∧
          y.fpsr = stickyFpsr old (raisedBy old f lanes fun j => (fl j).2) false) ∧
        (fm.isFloat = false → GroupHolds old y f d 32 lanes (fun j => (kept j % 2 ^ 32).toNat) ∧
          y.fpsr = stickyFpsr old 0 ((List.range lanes).any fun j => active old f j && decide (kept j ≠ sum j)))) ∧
    (issuesAlone s t 1 (eWord 0x38 f) → ∃ y m, done (.vPerm t f noOthers) .vPerm y ∧
      y = { (if vl = 0 then old else setMReg old (f.c.toNat % 8) m) with vregs := y.vregs } ∧ OthersKept old y d w vl ∧
      GroupHolds old y f d w vl (fun i => if el f.b.toNat i < vl then el f.a.toNat (el f.b.toNat i) else 0) ∧
      ∀ i, i < 4096 → m.getLsbD i = (decide (i < vl) && active old f i && decide (el f.b.toNat i < vl))) ∧
    (issuesAlone s t 1 (eWord 0x3A f) →
      let tree (tan : Nat → FVal) : FVal × FVal × Exc := combine (redOp fm dir f.sub.toNat) (.fin false 0 0, .fin false 0 0, 0)
        ((List.range vl).map fun i => if active old f i then redElem f.sub.toNat (val f.a.toNat i) (tan i)
          else (redIdentity f.sub.toNat, .fin false 0 0, 0))
      let put (n : Nat) (v : FVal) (y : SlotState) : SlotState := setSReg y n (BitVec.ofNat 64 (packVal fm v))
      let plain := tree fun _ => .fin false 0 0
      let pairs := tree fun i => val (f.a.toNat + g) i
      (vl = 0 → done (.vRed t f noOthers) .vRed old) ∧
      (vl ≠ 0 → fm.isFloat = true → old.pair = false →
        done (.vRed t f noOthers) .vRed { put d plain.1 old with fpsr := stickyFpsr old plain.2.2 false }) ∧
      (vl ≠ 0 → fm.isFloat = true → old.pair = true →
        done (.vRed t f noOthers) .vRed { put (d + 1) pairs.2.1 (put d pairs.1 old) with fpsr := stickyFpsr old pairs.2.2 false }) ∧
      (vl ≠ 0 → fm.isFloat = false → done (.vRed t f noOthers) .vRed (setSReg old d (BitVec.ofInt 64 (toSigned w (wrapInt fm
        (combine (redInt fm f.sub.toNat) 0 ((List.range vl).map fun i => if active old f i then
          (if f.sub.toNat = 3 then ((toSigned w (el f.a.toNat i)).natAbs : Int) else toSigned w (el f.a.toNat i)) else redIntId fm f.sub.toNat))))))))

/-- The V slot's loads and stores (R231, R232). -/
def Obligations.VectorMemoryAccesses : Prop :=
  ∀ (s : State) (t : Slot) (f : EFields) (sigs : List Signal), sigOf (s.slot t) t f = some sigs →
    let old := s.slot t
    let c := slotCore t
    let v := engView s c .vector
    let w := (slotType old).width
    let vl := old.vl.toNat
    let d := f.d.toNat
    let a := (sReg old f.a.toNat).toNat
    let fine (op : SlotOp) (k : Nat) : Prop := ∀ i, i < k → active old f i = true → vElemFault op f old i = false
    let whole (op : SlotOp) (k : Nat) : Prop :=
      ∀ i, i < k → active old f i = true → benchPoisoned v c (vAddr op f old i).1 (max 1 (w / 8)) = false
    let value (op : SlotOp) (i : Nat) : Nat := benchNat v c (vAddr op f old i).1 (max 1 (w / 8)) / 2 ^ (vAddr op f old i).2
    let stored (ws : List MemWrite) : Host.Outcome State Fault Refusal :=
      .next (advanced s t (enqueue s c .vector { mkCmd s t .vector .immediate sigs with writes := ws }))
    let fault : Host.Outcome State Fault Refusal := .next (stoppedIn s t evAccessFault 2)
    let poison : Host.Outcome State Fault Refusal := .next (stoppedIn s t evMemPoison 2)
    let holds (ws : List MemWrite) (b : Nat) (x : Byte) : Prop := ∃ m ∈ ws, m.addr ≤ b ∧ m.data[b - m.addr]? = some x
    (∀ e ∈ [(SlotOp.vLd, 0x40, Instr.vLd t f noOthers), (.vLds, 0x41, .vLds t f noOthers), (.vLdx, 0x42, .vLdx t f noOthers),
        (.vLdff, 0x43, .vLdff t f noOthers)], issuesAlone s t 1 (eWord e.2.1 f) →
      (fine e.1 vl → whole e.1 vl → ∃ y, exec e.2.2 s = .next (vDone s t sigs e.1 f y) ∧ y = { old with vregs := y.vregs } ∧
        GroupHolds old y f d w vl (value e.1) ∧ OthersKept old y d w vl) ∧
      (fine e.1 vl → ¬ whole e.1 vl → exec e.2.2 s = poison) ∧
      (e.1 ≠ .vLdff → ¬ fine e.1 vl → exec e.2.2 s = fault)) ∧
    (issuesAlone s t 1 (eWord 0x43 f) → ∀ k, k < vl → active old f k = true → vElemFault .vLdff f old k = true → fine .vLdff k →
      (k = 0 → exec (.vLdff t f noOthers) s = fault) ∧
      (k ≠ 0 → ¬ whole .vLdff k → exec (.vLdff t f noOthers) s = poison) ∧
      (k ≠ 0 → whole .vLdff k → ∃ y, exec (.vLdff t f noOthers) s = .next (vDone s t sigs .vLdff f y) ∧
        y = { old with vregs := y.vregs, vl := BitVec.ofNat 13 k } ∧ GroupHolds old y f d w k (value .vLdff) ∧ OthersKept old y d w k)) ∧
    (issuesAlone s t 1 (eWord 0x44 f) →
      (vl = 0 → exec (.vMld t f noOthers) s = .next (vDone s t sigs .vMld f old)) ∧
      (vl ≠ 0 → a + 512 ≤ benchSize → benchPoisoned v c a 512 = false → exec (.vMld t f noOthers) s =
        .next (vDone s t sigs .vMld f (setMReg old (d % 8) (BitVec.ofNat 4096 (benchNat v c a 512))))) ∧
      (vl ≠ 0 → a + 512 ≤ benchSize → benchPoisoned v c a 512 = true → exec (.vMld t f noOthers) s = poison) ∧
      (vl ≠ 0 → benchSize < a + 512 → exec (.vMld t f noOthers) s = fault)) ∧
    (∀ e ∈ [(SlotOp.vSt, 0x48, Instr.vSt t f noOthers), (.vSts, 0x49, .vSts t f noOthers), (.vStx, 0x4A, .vStx t f noOthers)],
      issuesAlone s t 1 (eWord e.2.1 f) →
      (fine e.1 vl → ∃ ws, exec e.2.2 s = stored ws ∧ (∀ m ∈ ws, m.space = .bench ∧ m.poison = false) ∧
        (∀ i, i < vl → active old f i = true →
          (∀ j, i < j → j < vl → active old f j = true → vAddr e.1 f old j ≠ vAddr e.1 f old i) →
          ∀ n, n < max 1 (w / 8) → ∃ x, holds ws (benchAddr c ((vAddr e.1 f old i).1 + n)) x ∧
            if w < 8 then x.toNat / 2 ^ (vAddr e.1 f old i).2 % 2 ^ w = vElem old d w i else x.toNat = vElem old d w i / 256 ^ n % 256) ∧
        ∀ b x, holds ws b x → ∃ i, i < vl ∧ active old f i = true ∧
          benchAddr c (vAddr e.1 f old i).1 ≤ b ∧ b < benchAddr c (vAddr e.1 f old i).1 + max 1 (w / 8)) ∧
      (¬ fine e.1 vl → exec e.2.2 s = fault)) ∧
    (issuesAlone s t 1 (eWord 0x4C f) →
      (vl = 0 → exec (.vMst t f noOthers) s = stored []) ∧
      (vl ≠ 0 → a + 512 ≤ benchSize → exec (.vMst t f noOthers) s =
        stored [{ space := .bench, addr := c.val * benchSize + a, data := leBytes 512 (mReg old (d % 8)).toNat, poison := false }]) ∧
      (vl ≠ 0 → benchSize < a + 512 → exec (.vMst t f noOthers) s = fault))

/-- The M slot (R243 to R246) and V.PASS (R241): operands as the engine's own earlier writes leave the bench (R223). -/
def Obligations.TileOperationsIssue : Prop :=
  ∀ (s : State) (t : Slot) (f : EFields) (sigs : List Signal), sigOf (s.slot t) t f = some sigs →
    let x := s.slot t
    let c := slotCore t
    let v := engView s c .matrix
    let rd := benchByte v c
    let ra := (sReg x f.a.toNat).toNat
    let rb := (sReg x f.b.toNat).toNat
    let rc := (sReg x f.c.toNat).toNat
    let done (u : State) : Host.Outcome State Fault Refusal := .next (advanced s t u)
    let k := tileAcc f
    let nt := (tileN f).getD 32
    let spoil (bad : Bool) : State := if bad then tilePoison t s else s
    let fault : Host.Outcome State Fault Refusal := .next (stoppedIn s t evTileFault 1)
    (issuesAlone s t 2 (eWord 0x01 f) →
      let ps := fld rb 16 32
      let bad := rowsPoisoned v c ra ps (if tilePre f = 0 then 0 else if tilePre f = 1 then 1 else tileM f)
        (preloadRow k (tilePre f) (fld rb 0 16) nt)
      (beginOk f ra rb = false → exec (.mtBegin t f noOthers) s = fault) ∧
      (beginOk f ra rb = true → ∀ h, freeHandle (s.core c) = some h →
        ∃ es, exec (.mtBegin t f noOthers) s = done (tileIssue t sigs [sName f.d.toNat] []
          (updSlot t (fun y => setSReg y f.d.toNat (BitVec.ofNat 64 h)) (setHandle (spoil bad) c h
            { owner := t, mt := tileM f, nt := nt, acc := k, accExp := toSigned 8 (fld rb 48 8), vmode := bit rb 56
              entries := es, poisoned := bad, blocks := 0, tallies := {}
              overSeen := preloadVoid v c (tilePre f) ra ps (tileM f) (nt * rawBytes k) }))) ∧
          es.length = tileM f * nt ∧ (tilePre f = 0 → ∀ e ∈ es, e = zeroEntry k) ∧
          (tilePre f ≠ 0 → es = preloadEntries rd k (tilePre f) ra (fld rb 0 16) ps (tileM f) nt))) ∧
    (∀ hn h, ownedHandle s t (sReg x f.a.toNat) = some (hn, h) →
      (issuesAlone s t 2 (eWord 0x02 f) →
        let o := tileOpnds (wordsOf 8 (benchRead v c rb 64))
        let first := rc % 2 ^ 32
        let n := rc / 2 ^ 32
        (tileRange rb 64 = false ∨ accClass o h = none → exec (.mtAcc t f noOthers) s = fault) ∧
        (tileRange rb 64 = true → ∀ cls, accClass o h = some cls →
          let inl := if o.inlayN ≠ 0 ∧ cls ≠ .h then readList rd o.list o.inlayN else []
          let r := accTile h o rd inl first n
          let fine := n ≠ 0 ∧ (o.ranges cls first n).all (fun r => rowsOk r.1 r.2.1 r.2.2.1 r.2.2.2) = true ∧ ascending inl = true
          let bad := benchPoisoned v c rb 64 || (o.ranges cls first n).any fun r => rowsPoisoned v c r.1 r.2.1 r.2.2.1 r.2.2.2
          let told := if r.2.2 then raiseEv (spoil bad) evAlignStale (srcCore c) [] (some x.ctx) 0xFF 1 else spoil bad
          (¬ fine → exec (.mtAcc t f noOthers) s = fault) ∧
          (fine → exec (.mtAcc t f noOthers) s = done (tileIssue t sigs [] [] (setHandle told c hn
            { h with
              entries := r.1, tallies := r.2.1, poisoned := h.poisoned || bad, blocks := h.blocks + n
              overSeen := h.overSeen || decide (0 < r.2.1.overC) }) (o.reads rb cls first n) (some hn))))) ∧
      (issuesAlone s t 2 (eWord 0x03 f) →
        let bad := rowsPoisoned v c rb rc h.mt (h.nt * rawBytes h.acc)
        (rowsOk rb rc h.mt (h.nt * rawBytes h.acc) = false → exec (.mtAddraw t f noOthers) s = fault) ∧
        (rowsOk rb rc h.mt (h.nt * rawBytes h.acc) = true →
          ∃ es, exec (.mtAddraw t f noOthers) s = done (tileIssue t sigs [] [] (setHandle (spoil bad) c hn { h with
              entries := es, poisoned := h.poisoned || bad
              overSeen := h.overSeen || (rangeFrom 0 h.mt).any fun i => voidAt v .bench (benchAddr c (rb + i * rc)) (h.nt * rawBytes h.acc) })) ∧
            es.length = h.mt * h.nt ∧ ∀ i j, i < h.mt → j < h.nt →
              es.getD (i * h.nt + j) (zeroEntry h.acc) = accCombine ⟨h.acc, h.accExp, h.vmode⟩
                (h.entries.getD (i * h.nt + j) (zeroEntry h.acc))
                (entryOfRaw h.acc (benchNat v c (rb + i * rc + j * rawBytes h.acc) (rawBytes h.acc))))) ∧
      (issuesAlone s t 2 (eWord 0x04 f) →
        let kb := (sReg x f.d.toNat).toNat
        let kw := wordsOf 4 (benchRead v c kb 32)
        let raw := bit rc 49
        let mv := fld (nth kw 2) 32 16
        let nv := fld (nth kw 2) 48 16
        let fmt := (fwFmt (rc % 2 ^ 16)).getD .fp32
        let key : SrKey := ⟨(s.ctx x.ctx).seed.toNat, fld (nth kw 0) 0 32, fld (nth kw 0) 32 32⟩
        let r := storeRows h (rc % 2 ^ 16) key (fld (nth kw 1) 0 48) (fld (nth kw 2) 0 32) mv nv
        let bytes := if raw then rawRows h mv nv else r.1.map (packCodes fmt)
        let ws := (List.zip (rangeFrom 0 mv) bytes).map fun p =>
          ({ space := .bench, addr := benchAddr c (rb + p.1 * fld rc 16 32), data := p.2, poison := h.poisoned || benchPoisoned v c kb 32
             void := raw && h.overSeen } : MemWrite)
        let u := tallySlot s x (storeTallies h raw r.2 (satStored h mv nv))
        let y := if bit rc 48 then dropHandle u c hn else
          setHandle u c hn { h with tallies := {}, voidTold := h.voidTold || (!raw && tileVoid h.acc h.blocks h.overSeen) }
        let fine := tileRange kb 32 = true ∧ rc / 2 ^ 50 % 2 ^ 14 = 0 ∧ nth kw 3 = 0 ∧ nth kw 1 / 2 ^ 48 % 2 ^ 16 = 0 ∧
          1 ≤ fld (nth kw 2) 0 32 ∧ fld (nth kw 2) 0 32 ≤ 16777216 ∧ 1 ≤ mv ∧ mv ≤ h.mt ∧ 1 ≤ nv ∧ nv ≤ h.nt ∧
          (raw = true ∨ (fwBad (rc % 2 ^ 16) false = false ∧ storeFmtOk h.acc (rc % 2 ^ 16) = true ∧
            fld (nth kw 1) 0 48 + (mv - 1) * fld (nth kw 2) 0 32 + nv - 1 < 2 ^ 48)) ∧
          rowsOk rb (fld rc 16 32) mv (if raw then nv * rawBytes h.acc else elemsBytes fmt nv) = true
        (¬ fine → exec (.mtStore t f noOthers) s = fault) ∧
        (fine → exec (.mtStore t f noOthers) s = done (tileIssue t sigs [] ws (ws.foldl (spoilTiles true) y) [] (some hn) (bit rc 48)
          (if raw then 8 * rawBytes h.acc else fmt.width)))) ∧
      (issuesAlone s t 2 (eWord 0x05 f) → exec (.mtDrop t f noOthers) s =
        done (tileIssue t sigs [] [] (dropHandle s c hn) [] (some hn) true))) ∧
    (ownedHandle s t (sReg x f.a.toNat) = none → ∀ e ∈ [(0x02, Instr.mtAcc t f noOthers), (0x03, .mtAddraw t f noOthers),
        (0x04, .mtStore t f noOthers), (0x05, .mtDrop t f noOthers)],
      issuesAlone s t 2 (eWord e.1 f) → exec e.2 s = fault) ∧
    (issuesAlone s t 2 (eWord 0x06 f) →
      let stride := (sReg x f.d.toNat).toNat
      let rows := rc % 2 ^ 16
      let n := fld rc 16 24
      let fm : Fmt := if fld rc 40 4 = 0 then .fp64 else .fp32
      let fr : AccKind := if bit rc 44 then .ven32 else .ven64
      let recb := 8 * ceilDiv n 32
      let bad := rowsPoisoned v c ra stride rows (elemsBytes fm n)
      let fine := fld rc 45 19 = 0 ∧ fld rc 40 4 < 2 ∧ 1 ≤ rows ∧ rows ≤ 256 ∧ n ≠ 0 ∧ ¬ (fr = .ven32 ∧ fm = .fp64) ∧ rb % 64 = 0 ∧
        rowsOk ra stride rows (elemsBytes fm n) = true ∧ tileRange rb (rows * recb) = true
      (¬ fine → exec (.mtAlign t f noOthers) s = fault) ∧
      (fine → exec (.mtAlign t f noOthers) s = done (tileIssue t sigs [] ((rangeFrom 0 rows).map fun r =>
        ({ space := .bench, addr := benchAddr c (rb + r * recb), data := alignRow rd fm fr (ra + r * stride) n, poison := bad } : MemWrite))
          (spoil bad)))) ∧
    (issuesAlone s t 1 (eWord 0x50 f) →
      let given := slotPassWords s t ra
      let w := slotPassRun s t given
      let e := slotEnv s t (slotRnd x) w
      let reach := (passReads w 0 (pRows w)).all (fun r => e.ok .read r.1 r.2)
        && (passOuts e w 0 (pRows w) ++ (if pAmax w then amaxOuts w else [])).all fun r => e.ok .write r.1 r.2
      let stop (code : BitVec 16) : Prop := exec (.vPass t f noOthers) s = .next (stoppedIn s t code 2)
      let poison := benchPoisoned (engView s c .vector) c ra 256
      (benchSize < ra + 256 → stop evAccessFault) ∧ (ra + 256 ≤ benchSize → ra % 64 ≠ 0 → stop evPassFault) ∧
      (ra + 256 ≤ benchSize → ra % 64 = 0 → poison = true → stop evMemPoison) ∧
      (ra + 256 ≤ benchSize → ra % 64 = 0 → poison = false → slotPassBad s t given = true → stop evPassFault) ∧
      (ra + 256 ≤ benchSize → ra % 64 = 0 → poison = false → slotPassBad s t given = false →
        (reach = false → stop evAccessFault) ∧ (reach = true → exec (.vPass t f noOthers) s = done (passIssue t x sigs w s))))

/-- The X slot (R247 to R251). X.WAIT and X.FENCE take no entry of the queue: the model's choice (log entry 105). -/
def Obligations.MoverOperationsIssue : Prop :=
  ∀ (s : State) (t : Slot) (f : EFields) (sigs : List Signal), sigOf (s.slot t) t f = some sigs →
    let x := s.slot t
    let c := slotCore t
    let v := engView s c .mover
    let ra := (sReg x f.a.toNat).toNat
    let rb := (sReg x f.b.toNat).toNat
    let rc := (sReg x f.c.toNat).toNat
    let done (u : State) : Host.Outcome State Fault Refusal := .next (advanced s t u)
    let fault : Host.Outcome State Fault Refusal := .next (stoppedIn s t evAccessFault 3)
    let cmd (u : State) (k : EngKind) (g : List Signal) : EngCmd := mkCmd u t .mover k g
    let seed := (s.ctx x.ctx).seed.toNat
    let reach := moverParts v c x.ctx
    let noRoute (st : BitVec 16) : State := match x.desc with
      | some d => markDesc s d st
      | none => s
    let refused (m : MoveSpec) : State :=
      let vas := moveVas m.src m.sstr m.rowb m.rows ++ if m.rank.isSome then [] else moveVas m.dst m.dstr m.outBytes m.rows
      let u := stopAt t evAccessFault 3 (vas.foldl (fun u z => noteBadRange u x.ctx z.1 z.2) s)
      issuedFor t (stopPasses (u.setSlot t (stepTo s (nextBundle s t) (u.slot t))) t)
    let moved (m : MoveSpec) (ws : List MemWrite) (ts : Tallies) (k : Nat) : State :=
      let u := noteReads (((rowParts reach .read m.src m.sstr m.rowb m.rows).getD []).flatten)
        (tallySlot { s with free := s.free + k } x ts)
      enqueue u c .mover { cmd u .move sigs with
        writes := ws, vas := moveVas m.src m.sstr m.rowb m.rows ++ moveVas m.dst m.dstr m.outBytes m.rows }
    (issuesAlone s t 3 (eWord 0x08 f) →
      (∀ n, targetSc s x.ctx (sReg x f.a.toNat) = some n →
        exec (.xSig t f noOthers) s = done (enqueue s c .mover (cmd s .immediate (⟨n, f.imm.setWidth 32⟩ :: sigs)))) ∧
      (targetSc s x.ctx (sReg x f.a.toNat) = none → exec (.xSig t f noOthers) s = fault)) ∧
    (∀ n, selectSc s t x (sReg x f.a.toNat) = some n →
      (issuesAlone s t 3 (eWord 0x09 f) → exec (.xWait t f noOthers) s = done (releaseWaits
        (s.setSlot t { x with hold := .wait n (BitVec.ofNat 32 rb), holdSig := sigs }))) ∧
      (issuesAlone s t 3 (eWord 0x0A f) → exec (.xScset t f noOthers) s = done (enqueue s c .mover
        { cmd s .immediate sigs with sets := [⟨n, BitVec.ofNat 32 rb⟩] })) ∧
      (issuesAlone s t 3 (eWord 0x0B f) →
        let u := s.setSlot t (addPending x [sName f.d.toNat])
        exec (.xScread t f noOthers) s = done (enqueue u c .mover
          { cmd u .regs sigs with pend := [sName f.d.toNat], scread := some (f.d.toNat, n) }))) ∧
    (selectSc s t x (sReg x f.a.toNat) = none → ∀ e ∈ [(0x09, Instr.xWait t f noOthers), (0x0A, .xScset t f noOthers),
        (0x0B, .xScread t f noOthers)], issuesAlone s t 3 (eWord e.1 f) → exec e.2 s = fault) ∧
    (issuesAlone s t 3 (eWord 0x0C f) →
      let n (b : Nat) (k : EngineKind) : Nat := if f.imm.getLsbD b then ((s.engine c k).queue.filter fun q => q.slot == t).length else 0
      let regs := if f.imm.getLsbD 3 then x.pending.filter fun r => (holderOf s t r).isNone else []
      let u := s.setSlot t { x with hold := .fence (n 0 .vector) (n 1 .matrix) (n 2 .mover) regs, holdSig := sigs }
      exec (.xFence t f noOthers) s = done (endFence u t) ∧
      (n 0 .vector = 0 → n 1 .matrix = 0 → n 2 .mover = 0 → regs = [] →
        endFence u t = sigs.foldl (fun y g => applyInc g.target y ⟨g.amount, tagsOf y t .mover⟩)
          (s.setSlot t { x with hold := .free, holdSig := [] })) ∧
      (¬ (n 0 .vector = 0 ∧ n 1 .matrix = 0 ∧ n 2 .mover = 0 ∧ regs = []) → endFence u t = u)) ∧
    (issuesAlone s t 3 (eWord 0x0D f) →
      exec (.xIcinv t f noOthers) s = done (enqueue s c .mover { cmd s .immediate sigs with icinv := true })) ∧
    (issuesAlone s t 3 (eWord 0x01 f) →
      let m := plainMove ra rb rc
      let go (o : Host.Outcome State Fault Refusal) : Prop := exec (.xMove t f noOthers) s = o
      (rc = 0 ∨ 2 ^ 32 ≤ rc → go fault) ∧
      (rc ≠ 0 → rc < 2 ^ 32 →
        (∀ ws ts k, localMove v reach seed m = some (ws, ts, k) → go (done (moved m ws ts k))) ∧
        (localMove v reach seed m = none → go (.next (refused m))))) ∧
    (issuesAlone s t 3 (eWord 0x02 f) →
      let w := wordsOf 8 (benchRead v c ra 64)
      let m := moveOfWords w
      let go (o : Host.Outcome State Fault Refusal) : Prop := exec (.xMoved t f noOthers) s = o
      (benchSize < ra + 64 → go fault) ∧
      (ra + 64 ≤ benchSize → benchPoisoned v c ra 64 = true → go (.next (stoppedIn s t evMemPoison 3))) ∧
      (ra + 64 ≤ benchSize → benchPoisoned v c ra 64 = false →
        (moveOk w = false → go fault) ∧
        (moveOk w = true →
          (m.rank = none →
            (∀ ws ts k, localMove v reach seed m = some (ws, ts, k) → go (done (moved m ws ts k))) ∧
            (localMove v reach seed m = none → go (.next (refused m)))) ∧
          ∀ r, m.rank = some r →
            (readMove v reach seed m = none → go (.next (refused m))) ∧
            ∀ rows src ts, readMove v reach seed m = some (rows, src, ts) →
              (slotJob s x = none → go (done (noRoute stNoRoute))) ∧
              ∀ j, slotJob s x = some j →
                (routeStatus (routeTo s j r) ≠ 0 → go (done (noRoute (routeStatus (routeTo s j r))))) ∧
                (routeStatus (routeTo s j r) = 0 →
                  let q := sendRows j (.slotMove t) r m.dst m.dstr (routeTo s j r) 0 rows (noteReads src (tallySlot s x ts))
                  go (done (enqueue q.1 c .mover
                    { cmd q.1 (.send (routeDie (routeTo s j r)) j q.2) sigs with vas := moveVas m.src m.sstr m.rowb m.rows }))))))

/-- A drop of PWR_GOOD, whatever caused it. -/
def Obligations.PowerLossKeepsOnlyFlash : Prop :=
  ∀ s : State,
    let lost (i : Instr) (v : Nat) (l : List SagSample) : Prop := ∃ o, exec i s = .next (powerLost s v l o) ∧ onlyIdles s o
    let fell (i : Instr) (v : Nat) : Prop := ∃ l, (l.head?.map fun x => (x.time, x.vin)) = some (s.now, v) ∧ lost i v l
    (s.pwr.pwrGood = true →
      lost .pwrGoodDrop s.pwr.vin s.pwr.samples ∧ (∀ r, lost (.railFault r) s.pwr.vin s.pwr.samples) ∧
      (∀ v, 14720 < v → fell (.overvoltage v) v) ∧ (∀ v, v < 11264 → fell (.sagStageEnter v) v) ∧
      ∀ x k c, tripAt x = some k → k ≤ c → lost (.hardwareTrip x c) s.pwr.vin s.pwr.samples) ∧
    (s.pwr.pwrGood = false →
      exec .pwrGoodDrop s = .next s ∧ (∀ r, exec (.railFault r) s = .next s) ∧ (∀ x c, exec (.hardwareTrip x c) s = .next s) ∧
      (∀ v, onlyVin s v (exec (.overvoltage v) s)) ∧ ∀ v, onlyVin s v (exec (.sagStageEnter v) s))

/-- What the settlement that ends every power and thermal command does (R461, R467). -/
def Obligations.ClocksFollowTheStage : Prop :=
  ∀ s0 s : State, (∀ q, (s.panel q).stall = none → (s.panel q).held = none) →
    let t := settleStages s0 s
    let shown := scanRings (raiseEv s evSagCrash srcModule [if 5 ≤ sagStage s then 0 else 1])
    let dumped := writeDump shown 6 0 evSagCrash srcModule [mkSect sectSag 0 0 (.sag s.pwr.samples (railMv shown))]
    (∀ q, aimOf (t.panel q) = pointsOf s q) ∧
    (s.pwr.peakCap = true → ∀ q, 2 ≤ (aimOf (t.panel q)).2.val) ∧
    (s.pwr.excursionCap = true → ∀ q, aimOf (t.panel q) = (4, 4)) ∧
    (∀ q, 3 ≤ stageIn s q → aimOf (t.panel q) = (4, 4)) ∧
    t.pwr.stage5 = atFive s ∧ (atFive s = true ↔ 5 ≤ sagStage s ∨ 5 ≤ moduleThermal s) ∧
    (atFive s = s.pwr.stage5 → onlyClocks s t) ∧
    (atFive s = true → s.pwr.stage5 = false → (∀ q, (t.memCtl q).selfRefresh = true) ∧
      onlyClocks { dumped with mem := { dumped.mem with ctl := t.mem.ctl }, pwr := { s.pwr with stage5 := true } } t) ∧
    (atFive s = false → s.pwr.stage5 = true → ∀ q, (t.memCtl q).selfRefresh = (s.memCtl q).inReset ∧
      ((s.memCtl q).inReset = false → tabFind t.glb.shadows q.val = none))

/-- The caps of R452, the limit control of R457 and the drills of R466. -/
def Obligations.PowerCapsAndLimit : Prop :=
  ∀ s : State, s.pwr.pwrGood = true →
    let into (p : PwrState) : Host.Outcome State Fault Refusal := .next (settleStages s { s with pwr := p })
    (∀ w, 1900 < w → exec (.peakCap w) s = into { s.pwr with peakCap := true, peakBelow := none }) ∧
    (∀ w t, w ≤ 1900 → s.pwr.peakCap = true → s.pwr.peakBelow = some t → t + 156250 ≤ s.now →
      exec (.peakCapLift w) s = into { s.pwr with peakCap := false, peakBelow := none }) ∧
    (∀ w, w ≤ 1900 → exec (.peakCap w) s = .next s) ∧
    (∀ w, 1900 < w → exec (.peakCapLift w) s = .next { s with pwr := { s.pwr with peakBelow := none } }) ∧
    (∀ w, w ≤ 1900 → s.pwr.peakCap = false → exec (.peakCapLift w) s = .next s) ∧
    (∀ w, w ≤ 1900 → s.pwr.peakCap = true → s.now < s.pwr.peakBelow.getD s.now + 156250 →
      exec (.peakCapLift w) s = .next { s with pwr := { s.pwr with peakBelow := some (s.pwr.peakBelow.getD s.now) } }) ∧
    (∀ u, u < 9000 ∨ benchUp s = false → exec (.excursionCap u) s = .next s) ∧
    (∀ u, 5000 < u ∨ benchUp s = false → exec (.excursionLift u) s = .next s) ∧
    (∀ u, 9000 ≤ u → benchUp s = true → exec (.excursionCap u) s = into { s.pwr with excursionCap := true }) ∧
    (∀ u, u ≤ 5000 → benchUp s = true → exec (.excursionLift u) s = into { s.pwr with excursionCap := false }) ∧
    (∀ (w : Nat) (d : Panel → Nat), benchUp s = true →
      let run := exec (.powerLimitStep w (d 0) (d 1) (d 2) (d 3)) s
      let sensed (t : State) (b : Option Nat) : Prop := t = { s with pwr := t.pwr, panels := t.panels } ∧ t.pwr.belowSince = b ∧
        t.pwr = { s.pwr with pin := w, panelW := t.pwr.panelW, belowSince := b, limitOp := t.pwr.limitOp } ∧
        ∀ q, tabGet 0 t.pwr.panelW q.val = d q
      let kept (b : Option Nat) : Prop := ∃ t, run = .next t ∧ sensed t b ∧ t.panels = s.panels ∧ t.pwr.limitOp = s.pwr.limitOp
      let moved (p : Panel) (n : Nat) (b : Option Nat) : Prop := ∃ t, run = .next t ∧ sensed t b ∧ (limitPoint t p).val = n ∧
        (∀ q, q ≠ p → limitPoint t q = limitPoint s q) ∧
        ((∀ q, (s.panel q).stall = none → (s.panel q).held = none) → ∀ q, aimOf (t.panel q) = pointsOf t q)
      let low (p : Panel) : Prop := (limitPoint s p).val < 4
      let high (p : Panel) : Prop := 0 < (limitPoint s p).val ∧ (stageCaps (stageIn s p)).2.val < (limitPoint s p).val
      let since := s.pwr.belowSince.getD s.now
      (s.pwr.limit < w → ((∀ p, ¬ low p) → kept none) ∧
        ∀ p, low p → (∀ q, low q → d q < d p ∨ (d q = d p ∧ p.val ≤ q.val)) → moved p ((limitPoint s p).val + 1) none) ∧
      (w ≤ s.pwr.limit → s.pwr.limit ≤ w + 50 → kept none) ∧
      (w + 50 < s.pwr.limit → (s.now < since + 156250 → kept (some since)) ∧
        (since + 156250 ≤ s.now → ((∀ p, ¬ high p) → kept (some since)) ∧
          ∀ p, high p → (∀ q, high q → p.val ≤ q.val) → moved p ((limitPoint s p).val - 1) (some s.now)))) ∧
    (∀ w a b c d, benchUp s = false → exec (.powerLimitStep w a b c d) s = .next s) ∧
    ((∀ q c, findArmed s .drill = some (q, c) → reached s c.mark.toNat = false) → exec .drillStart s = .next s) ∧
    (s.pwr.drillOn = false ∨ s.gau.count.toNat < s.pwr.drillFrom.toNat + s.pwr.runLen.toNat → exec .drillEnd s = .next s) ∧
    (∀ q c, findArmed s .drill = some (q, c) → reached s c.mark.toNat = true →
      exec .drillStart s = .next (settleStages s { disarm s .drill with
        pwr := { s.pwr with
          drillOn := true, drillFrom := c.mark, runStage := s.pwr.armedStage, runLen := s.pwr.armedLen
          drills := sat32 (s.pwr.drills + 1) } })) ∧
    (s.pwr.drillOn = true → s.pwr.drillFrom.toNat + s.pwr.runLen.toNat ≤ s.gau.count.toNat →
      exec .drillEnd s = into { s.pwr with drillOn := false }) ∧
    (∀ v, hostUp s = false → exec (.drillArm v) s = .next s) ∧
    (∀ v, hostUp s = true → s.sec.lock = false →
      exec (.drillArm v) s = .next { s with sec := { s.sec with lockViol := s.sec.lockViol + 1 } }) ∧
    ∀ v : W64, hostUp s = true → s.sec.lock = true →
      let st : BitVec 3 := BitVec.ofNat 3 (min 4 (v.toNat % 8))
      let p : PwrState := { s.pwr with dstage := st, drillLen := v.extractLsb' 8 24 }
      (v.getLsbD 32 = false ∨ v.toNat % 8 = 0 → exec (.drillArm v) s = .next { s with pwr := p }) ∧
      (v.getLsbD 32 = true → v.toNat % 8 ≠ 0 → s.gau.aligned = alignedNow s →
        (alignedNow s = true → s.gau.count.toNat + 1563 ≤ s.pwr.drillMark.toNat → (s.panel 0).comparators.length < 16 →
          findArmed s .drill = none → exec (.drillArm v) s = .next { s.setPanel 0 { s.panel 0 with
              comparators := (s.panel 0).comparators ++ [⟨.drill, s.pwr.drillMark⟩] } with
            pwr := { p with armedStage := st, armedLen := v.extractLsb' 8 24 } }) ∧
        (alignedNow s = false ∨ s.pwr.drillMark.toNat < s.gau.count.toNat + 1563 ∨ 16 ≤ (s.panel 0).comparators.length ∨
            findArmed s .drill ≠ none →
          exec (.drillArm v) s = .next { s with pwr := { p with drillMissed := sat32 (s.pwr.drillMissed + 1) } }))

/-- Supply-sag stages and thermal stages; the settlement of the clocks is that of ClocksFollowTheStage. -/
def Obligations.SagAndThermalStages : Prop :=
  ∀ s : State,
    (s.pwr.pwrGood = true →
      (∀ v, 11264 ≤ v → ∃ u, exec (.sagStageEnter v) s = .next (settleStages s u) ∧ u = { s with pwr := u.pwr } ∧ u.pwr.vin = v ∧
        ∀ k, 1 ≤ k → k ≤ 5 →
          let low := decide (v < [0, 13056, 12672, 12288, 11904, 11520].getD k 0)
          (u.sagState k).inForce = ((s.sagState k).inForce || low) ∧
          tabGet 0 u.pwr.sagCnt k = (if low && !(s.sagState k).inForce then
            min (tabGet 0 s.pwr.sagCnt k + 1) (if k = 5 then 2 ^ 32 - 1 else 2 ^ 16 - 1) else tabGet 0 s.pwr.sagCnt k)) ∧
      (∀ v, ∃ u, exec (.sagStageExit v) s = .next (settleStages s u) ∧ u = { s with pwr := u.pwr } ∧ u.pwr.vin = v ∧
        ∀ k, 1 ≤ k → k ≤ 5 → ((u.sagState k).inForce = true ↔ (s.sagState k).inForce = true ∧
          ∃ m, k ≤ m ∧ m ≤ 5 ∧ (s.sagState m).inForce = true ∧
            ¬ ([0, 13184, 12800, 12416, 12032, 11648].getD m 0 ≤ v ∧ ∃ t, (s.sagState m).goodSince = some t ∧ t + 156250 ≤ s.now))) ∧
      (∀ m : SensorSample, ∃ u, exec (.thermalSample [m]) s = .next (settleStages s u) ∧ u = { s with pwr := u.pwr } ∧
        (u.sensor m.sensor).celsius = m.celsius ∧
        (u.sensor m.sensor).stage = max (s.sensor m.sensor).stage ((stageTemps m.sensor).countP fun t => t ≤ m.celsius) ∧
        (∀ k, 1 ≤ k → k ≤ 5 → tabFind (u.sensor m.sensor).cool k = match (stageTemps m.sensor)[k - 1]? with
          | some t => if m.celsius ≤ t - 5 then some ((tabFind (s.sensor m.sensor).cool k).getD s.now) else none
          | none => none) ∧
        (∀ x, sensorKey x ≠ sensorKey m.sensor → u.sensor x = s.sensor x) ∧ u.pwr.thermTrip = decide (5 ≤ moduleThermal u)) ∧
      ∀ x : Sensor, ∃ n u, exec (.thermalStageExit x) s = .next (settleStages s u) ∧
        u = { s with pwr := { s.pwr with
          sensors := tabSet {} s.pwr.sensors (sensorKey x) { s.sensor x with stage := n }, thermTrip := decide (5 ≤ moduleThermal u) } } ∧
        n ≤ (s.sensor x).stage ∧ (∀ k, n < k → k ≤ (s.sensor x).stage → cooled s x k) ∧ (n = 0 ∨ ¬ cooled s x n)) ∧
    (s.pwr.pwrGood = false →
      (∀ v, 11264 ≤ v → onlyVin s v (exec (.sagStageEnter v) s)) ∧ (∀ v, onlyVin s v (exec (.sagStageExit v) s)) ∧
      (∀ l, exec (.thermalSample l) s = .next s) ∧ ∀ x, exec (.thermalStageExit x) s = .next s)

/-- The supply's return and the input pins. -/
def Obligations.PowerPinsAndRestart : Prop :=
  ∀ s : State,
    (∀ v t o, s.pwr.pwrGood = false → 12288 ≤ v → v ≤ 14336 → s.pwr.vinGoodSince = some t → s.pwr.powerOffAt = some o →
      t + 1562500 ≤ s.now → o + 1562500 ≤ s.now →
      ∃ u, exec (.powerRestart v) s = .next u ∧
        u = { s with pwr := u.pwr, panels := u.panels, mem := { s.mem with trained := s.mem.trained + 96 } } ∧ u.pwr.pwrGood = true ∧
        u.pwr.vin = v ∧ u.pwr.powerOffAt = none ∧
        (∀ k, 1 ≤ k → k ≤ 5 → (u.sagState k).inForce =
          ((s.sagState k).inForce || decide (v < [0, 13056, 12672, 12288, 11904, 11520].getD k 0))) ∧
        ∀ q, u.panel q = { s.panel q with
          wdog := s.now, resetAt := s.now, cycAt := s.now, cycBase := 0, stall := none, held := none
          coreOp := (pointsOf u q).1, matrixOp := (pointsOf u q).2 }) ∧
    (∀ v, s.pwr.pwrGood = true → exec (.powerRestart v) s = .next s) ∧
    exec .perstAssert s = .next { s with
      pwr := { s.pwr with perst := true }, qmg := { s.qmg with cxlUp := false, portUp := false } } ∧
    exec .perstDeassert s = .next { s with pwr := { s.pwr with perst := false } } ∧
    (s.sec.flashJob = none → exec .flashWpAssert s = .next { s with pwr := { s.pwr with flashWp := true } }) ∧
    ∀ j, s.sec.flashJob = some j → ∃ torn : List Byte, torn.length = j.data.length ∧ exec .flashWpAssert s = .next { s with
      pwr := { s.pwr with flashWp := true }, free := s.free + j.data.length, out := s.out ++ [.mail j.tag 4 []]
      mem := { s.mem with flash := writeBytes s.mem.flash j.base torn }, sec := { s.sec with flashJob := none } }

/-- Clocks and watchdogs of the bench controllers; that they are held until LOCK as the bench controllers are (R475, R478) is argued in log
entry 120. -/
def Obligations.PanelClocksAndWatchdogs : Prop :=
  ∀ (s : State) (p : Panel),
    let x := s.panel p
    (∀ c m, benchUp s = true →
      let w : Fin 5 × Fin 5 := (max c (pointsOf s p).1, max m (pointsOf s p).2)
      (∀ y, x.stall = some y → exec (.clockChangeRequest p c m) s = .next (s.setPanel p { x with held := some w })) ∧
      (x.stall = none → w ≠ (x.coreOp, x.matrixOp) →
        exec (.clockChangeRequest p c m) s = .next (s.setPanel p { x with stall := some w })) ∧
      (x.stall = none → w = (x.coreOp, x.matrixOp) → exec (.clockChangeRequest p c m) s = .next s)) ∧
    (x.stall = none → exec (.clockStallEnd p) s = .next s) ∧
    (∀ w, x.stall = some w → benchUp s = true →
      let y : PanelState := { x with cycBase := x.cycBase + (s.now - x.cycAt) * [14400, 12800, 10816, 8960, 7200].getD x.coreOp.val 0, cycAt := s.now }
      (x.held = none ∨ x.held = some w → exec (.clockStallEnd p) s =
        .next (restartPanel (s.setPanel p { y with coreOp := w.1, matrixOp := w.2, stall := none, held := none }) p)) ∧
      ∀ h, x.held = some h → h ≠ w → exec (.clockStallEnd p) s =
        .next (restartPanel (s.setPanel p { y with coreOp := w.1, matrixOp := w.2, stall := some h, held := none }) p)) ∧
    (benchUp s = true → exec (.watchdogRestart p) s = .next (s.setPanel p { x with wdog := s.now })) ∧
    (∀ u, u = raiseEv (s.setPanel p { x with wdog := s.now }) evWdogPanel (srcBench p) [p.val] →
      benchUp s = true → x.wdog + 1562500 ≤ s.now → p ≠ 0 →
        (rungOn u (.panel p) = false → exec (.wdogPanel p) s = .next (startPanel p evWdogPanel (srcBench p) u)) ∧
        (rungOn u (.panel p) = true → exec (.wdogPanel p) s = .next (panelToChip p evWdogPanel (srcBench p) u))) ∧
    exec (.wdogPanel 0) s = .next s ∧ (s.now < x.wdog + 1562500 → exec (.wdogPanel p) s = .next s ∧ (p = 0 → exec .wdogChip s = .next s)) ∧
    (benchUp s = true → (s.panel 0).wdog + 1562500 ≤ s.now → exec .wdogChip s =
      .next (startChip evWdogChip srcSecurity (raiseI3c (s.setPanel 0 { s.panel 0 with wdog := s.now }) evWdogChip [0]))) ∧
    (∀ cause src, startPanel 0 cause src s = startChip cause src s) ∧
    (benchUp s = true ↔ s.pwr.pwrGood = true ∧ s.sec.lock = true) ∧
    (benchUp s = false → (∀ c m, exec (.clockChangeRequest p c m) s = .next s) ∧ exec (.clockStallEnd p) s = .next s ∧
      exec (.watchdogRestart p) s = .next s ∧ exec (.wdogPanel p) s = .next s ∧ exec .wdogChip s = .next s)

/-- Mark comparators (R32, R33). -/
def Obligations.LaunchesArmOrAreMissed : Prop :=
  ∀ (s : State) (a : LaunchId) (m : Nat) (d : DescId), launchMark s a = some (m, d) →
    (∀ p : Panel, (chipOnly a = true → p = 0) → s.gau.aligned = true → alignedNow s = true → s.gau.count.toNat + 1563 ≤ m →
      ((launchColl s a).isSome = true → collsActive s < 16) → (s.panel p).comparators.length < 16 →
      findArmed s (launchName s a) = none →
      exec (.comparatorArm p a) s = .next (updDesc (s.setPanel p { s.panel p with
        comparators := (s.panel p).comparators ++ [⟨launchName s a, BitVec.ofNat 64 m⟩] }) d fun x => { x with armed := true })) ∧
    (findArmed s (launchName s a) = none → ¬ (alignedNow s = true ∧ s.gau.count.toNat + 1563 ≤ m) →
      match a with
      | .coll _ | .watchColl _ | .vote _ => ∃ q x, launchColl s a = some (q, x) ∧ exec (.launchMissed a) s = .next (missColl s q x)
      | .commit j => exec (.launchMissed a) s = .next (missCommit s j)
      | .snapshot j => exec (.launchMissed a) s = .next (missPoint s j)
      | .routeEpoch j => ∃ c, (s.job j).change = some c ∧ m = c.mark.toNat ∧ exec (.launchMissed a) s = .next (missEpoch s j c)
      | .drill => False) ∧
    ((findArmed s (launchName s a)).isSome = true ∨ (alignedNow s = true ∧ s.gau.count.toNat + 1563 ≤ m) →
      exec (.launchMissed a) s = .next s) ∧
    ∀ p : Panel, s.gau.aligned = alignedNow s → ((findArmed s (launchName s a)).isSome = true ∨ alignedNow s = false ∨
      m < s.gau.count.toNat + 1563 ∨ 16 ≤ (s.panel p).comparators.length ∨ (chipOnly a = true ∧ p ≠ 0)) →
      exec (.comparatorArm p a) s = .next s

/-- The count of the gauge (R351, R352). -/
def Obligations.GaugeCountsEdges : Prop :=
  ∀ s : State,
    let g : GauState := { s.gau with edges := s.gau.edges + 1 }
    let p : PwrState := if s.pwr.peakCap || s.pwr.excursionCap || s.pwr.limitOp != [] then { s.pwr with limitTicks := s.pwr.limitTicks + 1 } else s.pwr
    (s.gau.syncPulse = true → s.gau.refOk = true → exec .gaugeTick s = .next (tickAll (checkAligned { s with pwr := p, gau := { g with
        count := s.gau.syncv, valid := true, syncArm := false, syncPulse := false, step := none } }))) ∧
    ((s.gau.syncPulse && s.gau.refOk) = false →
      (s.gau.step = none → exec .gaugeTick s = .next (tickAll { s with pwr := p, gau := { g with count := s.gau.count + 1 } })) ∧
      (s.gau.step = some true → exec .gaugeTick s =
        .next (tickAll { s with pwr := p, gau := { g with count := s.gau.count + 2, step := none, steerUp := s.gau.steerUp + 1 } })) ∧
      (s.gau.step = some false → exec .gaugeTick s =
        .next (tickAll { s with pwr := p, gau := { g with step := none, steerDown := s.gau.steerDown + 1 } }))) ∧
    (s.sec.flashJob = none →
      (Config.mishap s.gau.edges = none ∨ s.pwr.pwrGood = false → tickAll s = s) ∧
      (∀ m, Config.mishap s.gau.edges = some m → s.pwr.pwrGood = true → tickAll s = befall m s)) ∧
    (exec .gaugeSync s = .next (if s.gau.syncArm && s.gau.refOk then { s with gau := { s.gau with syncPulse := true } } else s)) ∧
    ((s.gau.syncPulse && s.gau.refOk) = false → s.gau.count.toNat + 2 < 2 ^ 64 →
      ∃ t, exec .gaugeTick s = .next (tickAll t) ∧
        t = { s with pwr := p, gau := { g with
          count := t.gau.count, step := none, steerUp := t.gau.steerUp, steerDown := t.gau.steerDown } } ∧
        s.gau.count.toNat ≤ t.gau.count.toNat ∧ t.gau.count.toNat ≤ s.gau.count.toNat + 2)

/-- Loading, steering and judging the count (R352, R354, R356). -/
def Obligations.GaugeLoadsSteersAndJudges : Prop :=
  ∀ s : State,
    (∀ l : Link, hostUp s = true → s.sec.lock = true →
      let counted := ((s.link l).phase = .hold ∨ (s.link l).phase = .run) ∧ 64 ≤ (s.link l).exch
      (counted → exec (.gaugeJoin l) s = .next (checkAligned { s with gau := { s.gau with
        joinLink := l, count := BitVec.ofInt 64 (roundTick (16 * (s.gau.count.toNat : Int) - linkOffset (s.link l))), valid := true } })) ∧
      (¬ counted → exec (.gaugeJoin l) s = .next { s with gau := { s.gau with joinLink := l } })) ∧
    (s.gau.steerEn = true → s.gau.steeredAt + 2560 ≤ s.now →
      let os := countedOffsets s
      exec .gaugeSteer s = .next (checkAligned { s with gau := { s.gau with
        steeredAt := s.now, partners := os.length, mean := meanOf os
        step := if 4 * (os.length : Int) < os.sum then some false else if os.sum < -4 * (os.length : Int) then some true else none } })) ∧
    (s.gau.steerEn = false ∨ s.now < s.gau.steeredAt + 2560 → exec .gaugeSteer s = .next s) ∧
    (s.gau.refOk = false → exec .gaugeRefLost s = .next s) ∧
    (s.pwr.pwrGood = true → s.gau.refOk = true → exec .gaugeRefLost s = .next (checkAligned
      (raiseEv { s with gau := { s.gau with refOk := false, holdoverAt := some s.now } } evGaugeRefLost srcGauge))) ∧
    (s.pwr.pwrGood = true →
      exec .gaugeRefReturn s = .next (checkAligned { s with gau := { s.gau with refOk := true, holdoverAt := none } })) ∧
    (s.pwr.pwrGood = false → exec .gaugeRefLost s = .next s ∧ exec .gaugeRefReturn s = .next s) ∧
    exec .holdoverExpire s = .next (checkAligned s) ∧
    ((s.gau.aligned = false ∨ alignedNow s = true) → checkAligned s = { s with gau := { s.gau with aligned := alignedNow s } }) ∧
    (s.gau.aligned = true → alignedNow s = false →
      checkAligned s = raiseEv { s with gau := { s.gau with aligned := false } } evGaugeSkew srcGauge) ∧
    ∀ o : Int, 16 * roundTick o ≤ o + 8 ∧ o ≤ 16 * roundTick o + 8 ∧ (o % 16 = 8 → roundTick o % 2 = 0)

/-- A route epoch change of job j (R342, R343). -/
def Obligations.RouteEpochsSwitchAtMarks : Prop :=
  ∀ (s : State) (j : Job) (c : RouteChange), (s.job j).change = some c →
    (c.switched = false → exec (.tableStaged j) s = .next (s.setJob j { s.job j with
      change := some { c with staged := true }, ringLen := tabPut (s.job j).ringLen c.epoch.toNat c.ringLen })) ∧
    (c.switched = false → fires s (.routeEpoch j) = true →
      exec (.routeEpochSwitch j) s = .next (settleRestores (requeue (mendRings ((disarm s (.routeEpoch j)).setJob j { s.job j with
        prev := (s.job j).live, live := c.epoch, drainMark := some (c.mark + BitVec.ofNat 64 c.bmax), bmax := c.bmax, table := c.table
        change := some { c with switched := true } })) j))) ∧
    (c.switched = true → c.mark.toNat + c.bmax ≤ s.gau.count.toNat →
      exec (.epochDrain j) s = .next (concludeDesc (s.setJob j { s.job j with change := none }) c.desc 0)) ∧
    (c.switched = false → findArmed s (.routeEpoch j) = none → s.gau.count.toNat + 1563 > c.mark.toNat →
      exec (.epochMissed j) s = .next (concludeDesc
        (raiseEv (s.setJob j { s.job j with change := none }) evEpochMissed (srcBench 0) [] (some (s.job j).ctx) (jobField j)) c.desc 0x24)) ∧
    (fires s (.routeEpoch j) = false → exec (.routeEpochSwitch j) s = .next s) ∧
    (c.switched = true → exec (.tableStaged j) s = .next s ∧ exec (.epochMissed j) s = .next s) ∧
    (c.switched = false ∨ s.gau.count.toNat < c.mark.toNat + c.bmax → exec (.epochDrain j) s = .next s) ∧
    ((findArmed s (.routeEpoch j)).isSome = true ∨ s.gau.count.toNat + 1563 ≤ c.mark.toNat → exec (.epochMissed j) s = .next s)

/-- The bring-up of a link (R321). -/
def Obligations.LinkBringUp : Prop :=
  ∀ (s : State) (l : Link),
    let x := s.link l
    let settles (t : BitVec 2) (i : Instr) : Prop := x.phase = .hold →
      (x.settled = false → 64 ≤ x.exch → 288 < linkDelay x → exec i s = .next (checkAligned (raiseEv
        ((s.setLink l { toDoubt { x with target := t } with phase := .down, step := 0, reason := 4 }).emit (.idle l))
        evLinkLost (srcLink l) [l.val, 4]))) ∧
      (x.settled = true ∨ (64 ≤ x.exch ∧ linkDelay x ≤ 288) →
        exec i s = .next (s.setLink l { x with target := t, settled := true, step := if t = 2 ∧ x.indoubt = [] then 5 else 4 }))
    (hostUp s = true → s.sec.lock = true → linkEnabled s l = false → ∀ i ∈ [Instr.linkTargetOff l, .linkTargetHold l, .linkTargetRun l],
      exec i s = .next (s.setLink l { x with targetIgn := x.targetIgn + 1 })) ∧
    (hostUp s = true → s.sec.lock = true → linkEnabled s l = true →
      (x.phase ≠ .run → exec (.linkTargetOff l) s = .next (checkAligned (s.setLink l { x with target := 0, phase := .off, step := 0 }))) ∧
      (x.phase = .run → exec (.linkTargetOff l) s =
        .next (checkAligned (s.setLink l { toDoubt { x with target := 0 } with phase := .off, step := 0, reason := 5 }))) ∧
      (x.phase = .run → exec (.linkTargetHold l) s =
        .next (checkAligned (s.setLink l { toDoubt { x with target := 1 } with phase := .hold, step := 4, reason := 5, exch := 0 }))) ∧
      (x.phase = .off ∨ x.phase = .down →
        exec (.linkTargetHold l) s = .next (s.setLink l { x with target := 1, phase := .detect, step := 1, stepAt := s.now }) ∧
        exec (.linkTargetRun l) s = .next (s.setLink l { x with target := 2, phase := .detect, step := 1, stepAt := s.now })) ∧
      (x.phase = .detect ∨ x.phase = .train → exec (.linkTargetHold l) s = .next (s.setLink l { x with target := 1 })) ∧
      (x.phase = .detect ∨ x.phase = .train ∨ x.phase = .run → exec (.linkTargetRun l) s = .next (s.setLink l { x with target := 2 })) ∧
      (x.phase = .hold → x.settled = false → x.exch < 64 →
        exec (.linkTargetHold l) s = .next (s.setLink l { x with target := 1 }) ∧
        exec (.linkTargetRun l) s = .next (s.setLink l { x with target := 2 })) ∧
      settles 1 (.linkTargetHold l) ∧ settles 2 (.linkTargetRun l)) ∧
    (∀ i ∈ [Instr.linkTargetOff l, .linkTargetHold l, .linkTargetRun l], (hostUp s = false → exec i s = .next s) ∧
      (hostUp s = true → s.sec.lock = false → exec i s = .next { s with sec := { s.sec with lockViol := s.sec.lockViol + 1 } })) ∧
    settles x.target (.linkTrainDone l) ∧ (x.phase = .hold → x.settled = false → x.exch < 64 → exec (.linkTrainDone l) s = .next s) ∧
    (x.phase ≠ .detect → exec (.linkPartnerDetect l) s = .next s) ∧
    (x.phase = .train → x.step ≠ 2 → x.trainGood < 256 → exec (.linkTrainDone l) s = .next s) ∧
    (x.phase = .detect → exec (.linkPartnerDetect l) s = .next (s.setLink l { x with phase := .train, step := 2, stepAt := s.now })) ∧
    (x.phase = .train → x.step = 2 → exec (.linkTrainDone l) s = .next (s.setLink l { x with step := 3, stepAt := s.now, trainGood := 0 })) ∧
    (x.phase = .train → x.step = 3 → 256 ≤ x.trainGood → exec (.linkTrainDone l) s = .next (checkAligned (s.setLink l { x with
      phase := .hold, step := 4, stepAt := s.now, exch := 0, offsets := [], delays := [], settled := false, lastAlive := s.now
      aliveFrac := 0, sentAlive := s.now, txStamps := [], aseq := 0, echoSeq := 0, echoRx := 0 }))) ∧
    ∀ n, (x.step, n) ∈ [(1, 1562500), (2, 7812500), (3, 156250)] → x.phase = .detect ∨ x.phase = .train → x.stepAt + n ≤ s.now →
      exec (.linkStepTimeout l) s = .next (checkAligned (raiseEv
        ((s.setLink l { toDoubt x with phase := .down, step := 0, reason := 3 }).emit (.idle l)) evLinkLost (srcLink l) [l.val, 3]))

/-- Go-back-N on a link in RUN (R312). -/
def Obligations.LinkRetry : Prop :=
  ∀ (s : State) (l : Link), ((s.link l).phase = .run →
    let x := s.link l
    (∀ cw : Codeword, 15 < cw.symErrors →
      let n := if cw.replay then x.failures + 1 else x.failures
      let u := s.setLink l { x with fecCw := x.fecCw + 1, fecUncorr := x.fecUncorr + 1, trainGood := 0, nakDue := true, failures := n }
      exec (.frameReceive l cw) s = .next (if cw.replay && decide (3 ≤ n) then linkDown u l whyRetry else u)) ∧
    (∀ cw : Codeword, cw.symErrors ≤ 15 →
      let y := readAck s.now { x with
        fecCw := x.fecCw + 1, fecCorrCw := x.fecCorrCw + (if cw.symErrors = 0 then 0 else 1), fecCorrSym := x.fecCorrSym + cw.symErrors
        trainGood := x.trainGood + 1 } cw.frame
      (cw.frame.null = true → exec (.frameReceive l cw) s = .next (s.setLink l y)) ∧
      (cw.frame.null = false → cw.frame.seq = x.lastRx + 1 → exec (.frameReceive l cw) s = .next (checkRing
        (frameArrives (s.setLink l { y with lastRx := cw.frame.seq, nakDue := false, failures := 0 }) l cw.frame.packets) (arrivingRing l))) ∧
      (cw.frame.null = false → cw.frame.seq ≠ x.lastRx + 1 →
        exec (.frameReceive l cw) s = .next (s.setLink l { y with dupDrop := x.dupDrop + 1 })) ∧
      (∀ h ∈ y.held, h ∈ x.held) ∧ (cw.frame.nak = true → x.replayUntil ≤ s.now → y.resend = y.held.map fun h => h.seq)) ∧
    (let r := leavingRing l
     let u := checkRing s r
     let y := u.link l
     (generalHeld (s.ring r) ≤ 8 → reserveHeld (s.ring r) ≤ 64 → u = s) ∧
     (8 < generalHeld (s.ring r) ∨ 64 < reserveHeld (s.ring r) → u = chipFault s evRingSlotFault (srcSwitch (ringDie r)) [r.val]) ∧
     (y.phase ≠ .run → exec (.frameSend l) s = .next u) ∧
     (y.phase = .run →
       (∀ q rest, y.resend = q :: rest → exec (.frameSend l) s = .next (resendFrame (u.setLink l { y with resend := rest }) l q)) ∧
       (∀ b z, y.resend = [] → y.held.length < 64 → takeBuffer (u.ring r) = some (b, z) →
         exec (.frameSend l) s = .next (sendBuffer (u.setRing r z) l b)) ∧
       (y.resend = [] → (64 ≤ y.held.length ∨ takeBuffer (u.ring r) = none) →
         exec (.frameSend l) s = .next (u.emit (.frame l { seq := 0, ack := y.lastRx, nak := y.nakDue, null := true, units := 0, packets := [] })))))) ∧
    ((s.link l).phase ≠ .run → exec (.frameSend l) s = .next s) ∧
    (∀ cw : Codeword, (s.link l).phase = .train →
      let x := s.link l
      exec (.frameReceive l cw) s = .next (s.setLink l (if 15 < cw.symErrors then
        { x with fecCw := x.fecCw + 1, fecUncorr := x.fecUncorr + 1, trainGood := 0 } else
        { x with
          fecCw := x.fecCw + 1, fecCorrCw := x.fecCorrCw + (if cw.symErrors = 0 then 0 else 1)
          fecCorrSym := x.fecCorrSym + cw.symErrors, trainGood := x.trainGood + 1 }))) ∧
    ∀ cw : Codeword, (s.link l).phase ≠ .train → (s.link l).phase ≠ .run → exec (.frameReceive l cw) s = .next s

/-- Alive sequences and what a loss leaves (R315 to R319, R324). -/
def Obligations.LinkAliveAndDoubt : Prop :=
  ∀ (s : State) (l : Link),
    let x := s.link l
    (x.phase = .hold ∨ x.phase = .run →
      (x.sentAlive + 40 ≤ s.now → ∃ a : AliveSeq, ∃ t, exec (.aliveSend l) s = .next (t.emit (.alive l a)) ∧ aliveGood a = true ∧ a.lstate = linkLstate x ∧
        a.aseq = x.aseq + 1 ∧ a.txTs.toNat / 16 = s.gau.count.toNat % 2 ^ 32 ∧ a.echoSeq = x.echoSeq ∧ a.echoRx = x.echoRx ∧
        t = { s with free := s.free + 1 }.setLink l { x with
          aseq := a.aseq, sentAlive := x.sentAlive + 40, txStamps := tabPut x.txStamps a.aseq.toNat a.txTs }) ∧
      (∀ a rx, aliveGood a = false → exec (.aliveReceive l a rx) s = .next (s.setLink l { x with aliveBad := x.aliveBad + 1 })) ∧
      (∀ (a : AliveSeq) (rx : BitVec 36), aliveGood a = true →
        let t2 : BitVec 36 := BitVec.ofNat 36 (16 * s.gau.count.toNat + rx.toNat % 16)
        let y := { exchange x a t2 with
          lastAlive := s.now, aliveFrac := t2.extractLsb' 0 4, echoSeq := a.aseq, echoRx := t2, partnerHold := a.lstate == 1 || a.lstate == 2 }
        let u := holdStep (s.setLink l y) l
        (x.phase = .run → exec (.aliveReceive l a rx) s = .next (checkAligned (s.setLink l
          (if a.lstate = 1 then { toDoubt y with phase := .hold, step := 4, reason := 6, exch := 0 } else y)))) ∧
        (x.phase = .hold → exec (.aliveReceive l a rx) s = .next (checkAligned
          (if (u.link l).phase = .hold ∧ (u.link l).step = 5 ∧ (a.lstate = 2 ∨ a.lstate = 3) then enterRun u l else u))) ∧
        (tabFind x.txStamps a.echoSeq.toNat = none → exchange x a t2 = x) ∧
        ∀ t3, tabFind x.txStamps a.echoSeq.toNat = some t3 → exchange x a t2 = { x with
          offsets := (((t2 - a.txTs).toInt - (a.echoRx - t3).toInt) / 2 :: x.offsets).take 64
          delays := (((t2 - a.txTs).toInt + (a.echoRx - t3).toInt) / 2 :: x.delays).take 64, exch := min 255 (x.exch + 1) }) ∧
      (x.lastAlive + (if 8 < x.aliveFrac.toNat then 314 else 313) ≤ s.now →
        exec (.aliveTimeout l) s = .next (checkAligned (breakRings (raiseEv
          ((s.setLink l { toDoubt x with phase := .down, step := 0, reason := 1, loss := x.loss + 1 }).emit (.idle l))
          evLinkLost (srcLink l) [l.val, 1]) l))) ∧
      (s.now < x.sentAlive + 40 → exec (.aliveSend l) s = .next s) ∧
      (s.now < x.lastAlive + (if 8 < x.aliveFrac.toNat then 314 else 313) → exec (.aliveTimeout l) s = .next s)) ∧
    (x.phase ≠ .hold → x.phase ≠ .run → exec (.aliveSend l) s = .next s ∧ exec (.aliveTimeout l) s = .next s ∧
      ∀ a rx, exec (.aliveReceive l a rx) s = .next s) ∧
    (∀ v : BitVec 7, (hostUp s = false → exec (.linkResolve l v) s = .next s) ∧ (hostUp s = true → s.sec.lock = false →
      exec (.linkResolve l v) s = .next { s with sec := { s.sec with lockViol := s.sec.lockViol + 1 } })) ∧
    (s.now < x.berAt + 156250000 → exec (.linkBerWindow l) s = .next s) ∧
    (∀ v : BitVec 7, hostUp s = true → s.sec.lock = true →
      ((v - x.lastAck).toNat ≤ (x.nextSeq - 1 - x.lastAck).toNat → exec (.linkResolve l v) s = .next (holdStep (s.setLink l { x with
        indoubt := [], lossDiscard := x.lossDiscard +
          ((x.indoubt.filter fun f => decide ((v - x.lastAck).toNat < (f.1 - x.lastAck).toNat)).map fun f => f.2).sum }) l)) ∧
      ((x.nextSeq - 1 - x.lastAck).toNat < (v - x.lastAck).toNat →
        exec (.linkResolve l v) s = .next (s.setLink l { x with resolveBad := x.resolveBad + 1 }))) ∧
    (let sym := x.fecCorrSym - x.berSym
     let bits := (x.fecCw - x.berCw) * 5440
     x.berAt + 156250000 ≤ s.now →
     (bits < 100000 * sym → exec (.linkBerWindow l) s = .next (raiseEv (s.setLink l { x with
       berCw := x.fecCw, berSym := x.fecCorrSym, berAt := s.now, degraded := true }) evLinkDegraded (srcLink l))) ∧
     (100000 * sym ≤ bits → exec (.linkBerWindow l) s = .next (s.setLink l { x with
       berCw := x.fecCw, berSym := x.fecCorrSym, berAt := s.now, degraded := x.degraded && !decide (200000 * sym < bits) })))

/-- The codeword of a frame (R308 to R310; log entry 118, PRESUMED for the field and the generator). -/
def Obligations.FramesGoOutAsCodewords : Prop :=
  ∀ f : Frame,
    (frameCodeword f).length = 544 ∧ (frameCodeword f).take 514 = (rangeFrom 0 514).map (fun i => frameBits f / 2 ^ (10 * i) % 1024) ∧
    frameBits f % 2 ^ 20 = frameHeader f ∧ (framePayload f).length = 640 ∧
    frameHeader f / 2 ^ 7 % 2 ^ 7 = f.ack.toNat ∧ frameHeader f / 2 ^ 14 % 2 = bnat f.nak ∧ frameHeader f / 2 ^ 15 % 2 = bnat f.null ∧
    frameHeader f % 2 ^ 7 = (if f.null then 0 else f.seq.toNat) ∧ frameHeader f / 2 ^ 16 = (if f.null then 0 else f.units.toNat) ∧
    (f.null = true → framePayload f = List.replicate 640 0) ∧
    ∀ lane, lane < 4 → (laneSymbols f lane).length = 136 ∧
      ∀ k, k < 136 → (laneSymbols f lane)[k]? = (frameCodeword f)[4 * k + lane]?

/-- What keeps the memories going (R285, R286, R290), the secure reserve (R299) and snoops (R367). -/
def Obligations.MemoryMaintenance : Prop :=
  ∀ s : State,
    let n := s.mem.scrubbed + 1
    (∀ pa, paOk pa = true → (s.memCtl (paPanel pa)).inReset = false → (s.memCtl (paPanel pa)).selfRefresh = false →
      let p := paPanel pa
      let base := pa / 64 * 64
      let q := paPanel base
      let bad (l : List Nat) : State := raiseEv { s with mem := { s.mem with
        scrubbed := n, gddr := l.foldl (fun b a => setPoison b a 64) s.mem.gddr
        eccUncorr := tabSet 0 s.mem.eccUncorr q.val (min (tabGet 0 s.mem.eccUncorr q.val + 1) (2 ^ 64 - 1)) } } evMemUe (srcMem q) [base]
      exec (.patrolScrub pa .none) s = .next { s with mem := { s.mem with scrubbed := n } } ∧
      (∀ u, u = Upset.oneBit ∨ u = .onDie → exec (.patrolScrub pa u) s = .next { s with mem := { s.mem with
        scrubbed := n, eccCorr := tabSet 0 s.mem.eccCorr p.val (min (tabGet 0 s.mem.eccCorr p.val + 1) (2 ^ 64 - 1)) } }) ∧
      exec (.patrolScrub pa .many) s = .next (bad [base]) ∧ exec (.patrolScrub pa .checkUnit) s = .next (bad (groupUnits pa))) ∧
    (∀ pa u, paOk pa = true → ((s.memCtl (paPanel pa)).inReset = true ∨ (s.memCtl (paPanel pa)).selfRefresh = true) →
      exec (.patrolScrub pa u) s = .next s) ∧
    (∀ v, (hostUp s = false → exec (.secresWrite v) s = .next s) ∧ (hostUp s = true → s.sec.lock = false →
      exec (.secresWrite v) s = .next { s with sec := { s.sec with lockViol := s.sec.lockViol + 1 } })) ∧
    (∀ a, s.qmg.cxlUp = false → exec (.cxlSnoop a) s = .next s) ∧
    (∀ d c, exec (.refresh d c) s = .next { s with mem := { s.mem with refreshed := s.mem.refreshed + 1 } } ∧
      exec (.periodicRetrain d c) s = .next { s with mem := { s.mem with retrained := s.mem.retrained + 1 } }) ∧
    (∀ v : W64, hostUp s = true → s.sec.lock = true →
      ((∀ e ∈ s.qmg.ctxs, e.2.phase = .free) → exec (.secresWrite v) s = .next { s with mem := { s.mem with secres := min (v.toNat % 32) 16 } }) ∧
      ((∃ e ∈ s.qmg.ctxs, e.2.phase ≠ .free) → exec (.secresWrite v) s = .next { s with mem := { s.mem with secresIgn := min (s.mem.secresIgn + 1) (2 ^ 64 - 1) } })) ∧
    ∀ a, s.qmg.cxlUp = true → exec (.cxlSnoop a) s = .next (s.emit (.snoopMiss a))

/-- The HDM window (R304, R305). -/
def Obligations.HdmWindowAccesses : Prop :=
  ∀ (s : State) (unit : Nat),
    (s.qmg.cxlUp = false → exec (.hdmRead unit) s = .next s ∧ ∀ be data, exec (.hdmWrite unit be data) s = .next s) ∧
    (s.qmg.cxlUp = true →
    let a := tabGet 0 s.mem.aper (unit / 2 ^ 24)
    let reached (k : Access) (pa : Nat) : Prop := unit < 2 ^ 28 ∧ ideOk s = true ∧ aperEn a = true ∧ (s.ctx (aperCtx a)).phase = .opened ∧
      accessPa s (aperCtx a) (aperBase a + unit % 2 ^ 24 * 64) k = some pa
    let u := noteWindow s unit
    (∀ pa, (s.memCtl (paPanel pa)).inReset = false →
      (reached .hdm pa →
        exec (.hdmRead unit) s = .next (s.emit (.hdmData unit (readBytes s.mem.gddr pa 64) (poisoned s.mem.gddr pa 64)))) ∧
      (reached .hdmWrite pa →
        (aperRo a = false → ∀ (be : W64) (data : List Byte), data.length = 64 → ∃ g,
          exec (.hdmWrite unit be data) s = .next { s with mem := { s.mem with gddr := g } } ∧
          (∀ x, ¬ (pa ≤ x ∧ x < pa + 64) → readByte g x = readByte s.mem.gddr x) ∧
          (∀ i, i < 64 → readByte g (pa + i) = if be.getLsbD i then data.getD i 0 else readByte s.mem.gddr (pa + i)) ∧
          (pa % 64 = 0 → poisoned g pa 64 = if be = BitVec.allOnes 64 then false else poisoned s.mem.gddr pa 64)) ∧
        (aperRo a = true → ∀ be data, exec (.hdmWrite unit be data) s = .next { s with mem := { s.mem with hdmDrop := min (s.mem.hdmDrop + 1) (2 ^ 64 - 1) } }))) ∧
    (∀ pa, (s.memCtl (paPanel pa)).inReset = true →
      (reached .hdm pa → exec (.hdmRead unit) s = .next
        ((s.setMemCtl (paPanel pa) { s.memCtl (paPanel pa) with readsPoisoned := (s.memCtl (paPanel pa)).readsPoisoned + 1 }).emit
          (.hdmData unit (readBytes s.mem.gddr pa 64) true))) ∧
      (reached .hdmWrite pa → aperRo a = false → ∀ be data, exec (.hdmWrite unit be data) s = .next
        (s.setMemCtl (paPanel pa) { s.memCtl (paPanel pa) with writesDropped := (s.memCtl (paPanel pa)).writesDropped + 1 }))) ∧
    ((∀ pa, ¬ reached .hdm pa) →
      exec (.hdmRead unit) s = .next ({ u with mem := { u.mem with hdmPoison := min (u.mem.hdmPoison + 1) (2 ^ 64 - 1) } }.emit
        (.hdmData unit (List.replicate 64 0xFF) true))) ∧
    ((∀ pa, ¬ reached .hdmWrite pa) →
      ∀ be data, exec (.hdmWrite unit be data) s = .next { u with mem := { u.mem with hdmDrop := min (u.mem.hdmDrop + 1) (2 ^ 64 - 1) } }) ∧
    (u = s ∨ (∃ b, u = raiseEv s evMemUe (srcMem (paPanel b)) [b] (some (aperCtx a))) ∨ ∃ b, u = noteResetRead s b))

/-- Arrival (R335), arbitration (R336) and the end of reservations (R337). -/
def Obligations.PacketsArriveAndArbitrate : Prop :=
  ∀ s : State,
    (∀ (l : Link) (p : Packet),
      let r := arrivingRing l
      let d := ringDie r
      let q := rewrite p fun h => { h with hopsLeft := h.hopsLeft - 1 }
      (hcrcOk p.hdr = false → frameArrives s l [p] = updDie s d fun x => { x with hcrcDiscard := x.hcrcDiscard + 1 }) ∧
      (hcrcOk p.hdr = true → epochOk s p.hdr = false →
        frameArrives s l [p] = updDie s d fun x => { x with epochDiscard := x.epochDiscard + 1 }) ∧
      (hcrcOk p.hdr = true → epochOk s p.hdr = true → q.hdr.hopsLeft ≠ 0 → frameArrives s l [p] = placeThrough s r [q]) ∧
      (hcrcOk p.hdr = true → epochOk s p.hdr = true → q.hdr.hopsLeft = 0 →
        let t := exitOf r q.hdr
        frameArrives s l [p] = if exitBroken s t || exitLenZero s q.hdr t then countBroken d 1 s else addCand s t ⟨q, some r, s.now⟩)) ∧
    (∀ (e : Exit) (c : Cand), exitCands s e = [c] →
      let u := setExitCands s e []
      let fin (v : State) : State := match e with
        | .ring t => checkRing v t
        | .delivery _ => v
      let d := exitDie e
      let may := heldBack u d c.packet.hdr = false ∧ (u.die d).inReset = false ∧ granted u e c.packet.hdr = true
      (∀ r, c.ring = some r → exitBroken u e = true → exec (.exitArbitration e) s = .next (settleRestores (fin (countBroken (ringDie r) 1 u)))) ∧
      (∀ r, c.ring = some r → exitBroken u e = false → granted u e c.packet.hdr = true →
        exec (.exitArbitration e) s = .next (settleRestores (fin (enter u e (advance e c.packet))))) ∧
      (∀ r, c.ring = some r → exitBroken u e = false → granted u e c.packet.hdr = false →
        exec (.exitArbitration e) s = .next (settleRestores (fin (deflect u e r c.packet)))) ∧
      (c.ring = none → may → exitBroken u e = false →
        exec (.exitArbitration e) s = .next (settleRestores (fin (injectPacket u e c.packet)))) ∧
      (c.ring = none → may → exitBroken u e = true →
        exec (.exitArbitration e) s = .next (settleRestores (fin (failInjection u d c.packet.hdr 0x22)))) ∧
      (c.ring = none → ¬ may →
        exec (.exitArbitration e) s = .next (settleRestores (fin (setExitCands u e (exitCands u e ++ [c])))))) ∧
    (∀ e : Exit,
      let u := setExitCands s e []
      let fin (v : State) : State := match e with
        | .ring t => checkRing v t
        | .delivery _ => v
      ∃ L : List Cand, L.Perm ((exitCands s e).filter fun c => c.ring.isSome) ∧ L.Pairwise (servedBefore u e) ∧
        exec (.exitArbitration e) s = .next (settleRestores (fin
          (serveInjections e (L.foldl (serveTransit e) u) ((exitCands s e).filter fun c => c.ring.isNone)))) ∧
        (∀ v c r, c.ring = some r → serveTransit e v c = if exitBroken v e then countBroken (ringDie r) 1 v
          else if granted v e c.packet.hdr then enter v e (advance e c.packet) else deflect v e r c.packet) ∧
        ∀ v c t, serveInjections e v (c :: t) =
          if heldBack v (exitDie e) c.packet.hdr then serveInjections e (setExitCands v e (exitCands v e ++ [c])) t
          else if (v.die (exitDie e)).inReset = true ∨ granted v e c.packet.hdr = false then setExitCands v e (exitCands v e ++ c :: t)
          else serveInjections e (if exitBroken v e then failInjection v (exitDie e) c.packet.hdr 0x22 else injectPacket v e c.packet) t) ∧
    ∀ e : Exit, ∃ t, exec (.reservationExpire e) s = .next t ∧ t = setExitRsv s e (exitRsv t e) ∧
      (exitRsv t e).map (fun x => (x.job, x.src, x.msg, x.offset, x.kind, x.dst, x.made, x.len, x.first)) =
        ((exitRsv s e).filter fun x => decide (s.now < x.made + 182 * x.len)).map fun x => (x.job, x.src, x.msg, x.offset, x.kind, x.dst, x.made, x.len, x.first)

/-- Delivery at a link DMA (R345, R346) and the closing of stale sends (R430). -/
def Obligations.MessagesAreDelivered : Prop :=
  ∀ (s : State) (d : Die),
    (∀ p rest, (s.die d).dbufs = p :: rest →
      let u := updDie s d fun x => { x with
        dbufs := rest, progress := s.now, rsv := if p.hdr.kind == kindColl then x.rsv else fillFirst x.rsv }
      let v := countDelivered u d
      let h := p.hdr
      (genOk u h = false → exec (.deliveryWrite d) s = .next (updCtx (updDie u d fun x => { x with genDrop := x.genDrop + 1 })
        (u.job (hdrJob h)).ctx fun x => { x with genDrop := x.genDrop + 1 })) ∧
      (genOk u h = true → h.kind = 1 → exec (.deliveryWrite d) s = .next (takeAck (takeAck v 0 h) 1 h)) ∧
      (genOk u h = true → h.kind ≠ 1 → h.msgLen.toNat < h.offset.toNat + h.plen.toNat →
        exec (.deliveryWrite d) s = .next (updDie u d fun x => { x with msgRange := x.msgRange + 1 })) ∧
      (genOk u h = true → h.kind ≠ 1 → h.offset.toNat + h.plen.toNat ≤ h.msgLen.toNat →
        ((writePayload v d p).2 = true → exec (.deliveryWrite d) s = .next (countBytes (writePayload v d p).1 h)) ∧
        ((writePayload v d p).2 = false → exec (.deliveryWrite d) s = .next (writePayload v d p).1))) ∧
    ((s.die d).dbufs = [] → exec (.deliveryWrite d) s = .next s) ∧
    (∀ h r, recvEntry s h = some r →
      (r.count + h.plen.toNat = r.len → countBytes s h = messageDone (updRecv s h fun _ => none) h r) ∧
      (r.count + h.plen.toNat ≠ r.len → countBytes s h = updRecv s h fun q => some { q with count := r.count + h.plen.toNat })) ∧
    ∀ j m x, findSend s d j m = some x →
      (awaitsAck x = true → x.waiting = 0 → x.injectedAt + 156250 * s.glb.engineWin.toNat ≤ s.now →
        exec (.msgStale d j m) s = .next (failStale (updCtx
          (raiseEv s evMsgStale (srcDma d) [m.toNat + 2 ^ 32 * x.dst.toNat] (some x.ctx) (jobField j))
          x.ctx fun c => { c with msgAbandoned := c.msgAbandoned + 1 }) d j m x)) ∧
      (awaitsAck x = false ∨ x.waiting ≠ 0 ∨ s.now < x.injectedAt + 156250 * s.glb.engineWin.toNat →
        exec (.msgStale d j m) s = .next s)

/-- The schedule sequencer (R358 to R363). -/
def Obligations.SchedulesRun : Prop :=
  ∀ (s : State) (d : DescId) (x : CollState), s.coll? d = some x →
    (x.fired = false → x.missed = false → fires s (collLaunch s d x) = true →
      let u := disarm (checkAligned s) (collLaunch s d x)
      (alignedNow u = false → exec (.collBaseFire d) s = .next (missColl u d x)) ∧
      (alignedNow u = true →
        let v := setAside (writeLateMap u x) d x
        let w := if isVote v d x then putVote v x else if x.op = opWatch then putWatch v x.job else v
        exec (.collBaseFire d) s = .next (w.setColl d { x with fired := true, doneBase := scGet w (panelSc x.doneSc) }))) ∧
    (x.fired = true → x.opened < x.slots.length → atMark s (x.openMark x.opened) = true → alignedNow s = true →
      combinesDone s x x.opened = true → exec (.slotOpen d x.opened) s = .next
        (((rangeFrom 0 x.entries.length).filter fun i => match x.entries[i]? with
          | some e => e.send && e.slot == x.opened && e.len != 0
          | none => false).foldl (collSend d x) (s.setColl d { x with opened := x.opened + 1 }))) ∧
    (x.fired = true → x.marked < x.slots.length → atMark s (x.slotMarkAt x.marked) = true → alignedNow s = true →
      let u := s.setColl d { x with marked := x.marked + 1 }
      ((∃ e ∈ x.entries, e.send = true ∧ e.slot = x.marked ∧ injected s x e = false) → exec (.slotMark d x.marked) s = .next
        (raiseEv (updGau u fun g => { g with slotsLate := sat32 (g.slotsLate + 1) }) evSlotLate srcGauge []
          (some (u.job x.job).ctx) (jobField x.job))) ∧
      ((∀ e ∈ x.entries, e.send = true → e.slot = x.marked → injected s x e = true) → exec (.slotMark d x.marked) s = .next u)) ∧
    (∀ i e, x.entries[i]? = some e → x.fired = true → openEntry e = true → atMark s (x.deadline i e.slot) = true →
      (x.exclude = false → x.shifted = false → exec (.recvJudge d i) s = .next (takeShift s d x i e)) ∧
      ((x.exclude || x.shifted) = true → exec (.recvJudge d i) s = .next (excludeEntry d s i))) ∧
    let late (i : Nat) (e : CollEntry) : Prop := x.fired = true ∧ x.exclude = false ∧ x.shifted = false ∧ x.entries[i]? = some e ∧
      openEntry e = true ∧ atMark s (x.deadline i e.slot) = true
    ∀ u, ((∃ i e, late i e ∧ (∀ k f, k < i → ¬ late k f) ∧ u = takeShift s d x i e) ∨ ((∀ i e, ¬ late i e) ∧ u = s)) →
      ∀ x0, u.coll? d = some x0 →
        let due := x0.missed = true ∨ (x0.fired = true ∧ (atMark u x0.endMark || collDone u x0) = true)
        (¬ due → exec (.collEnd d) s = .next u) ∧
        (due →
          let v := if x0.fired then (rangeFrom 0 x0.entries.length).foldl (excludeEntry d) u else u
          ((∀ e ∈ x0.entries, openEntry e = false) → v = u) ∧
          ∀ y, v.coll? d = some y →
            let flagged := y.missed || y.entries.any fun e => e.excluded
            let w := if y.op = opWatch then v.setJob y.job { v.job y.job with
              jobWide := some (BitVec.ofNat 32 (watchStep v y.job), flagged || y.fault) } else v
            (isVote v d y = false → exec (.collEnd d) s = .next (concludeDesc (setResult (setResult ((freeColl w d).dropColl d) d 24
              (y.late.length + 2 ^ 32 * y.late.headD 0xFFFFFFFF)) d 25 (bnat y.shifted)) d
              (if y.fault then 0x1 else if flagged then 0x20 else 0))) ∧
            ∀ c, isVote v d y = true → y.op ≠ opWatch → (v.job y.job).commit = some c →
              let b := match vaRead v (v.job y.job).ctx (v.job y.job).vote.toNat (64 + mapLen y.nranks) with
                | some (l, false) => if y.missed || y.fault then none else some (voteOfBytes l)
                | _ => none
              exec (.collEnd d) s = .next ((freeColl (noteVaRead (v.setJob y.job { v.job y.job with
                commit := some { c with block := b, voteFlagged := flagged } })
                (v.job y.job).ctx (v.job y.job).vote.toNat (64 + mapLen y.nranks)) d).dropColl d))

/-- Doorbells (R369, R370) and fetching (R374, R375). -/
def Obligations.DoorbellsAndFetches : Prop :=
  (∀ (s : State) (off : BitVec 22) (size : Nat) (v : W64), s.qmg.cxlUp = true →
    let q : Queue := ⟨off.toNat / 64, by omega⟩
    let x := s.queue q
    let t : W32 := BitVec.ofNat 32 v.toNat
    let form := off.toNat % 64 = 0 ∧ size = 8 ∧ v.toNat < 2 ^ 32
    let ok := x.enable = true ∧ (∃ c, queueCtx s q = some c ∧ (s.ctx c).phase = .opened) ∧
      (t.toNat + 2 ^ 32 - x.head.toNat) % 2 ^ 32 ≤ 2 ^ x.log2size.toNat ∧ (t.toNat + 2 ^ 32 - x.tail.toNat) % 2 ^ 32 < 2 ^ 31
    (¬ form → exec (.doorbell off size v) s = .next (s.setQueue q { x with dbBad := x.dbBad + 1 })) ∧
    (form → ok → exec (.doorbell off size v) s = .next
      (let u := s.setQueue q { x with
         tail := t, dbApplied := x.dbApplied + 1, progress := if x.head = x.done ∧ x.tail = x.head then s.now else x.progress }
       { u with qmg := { u.qmg with progress := if fetchQueues s = [] then s.now else s.qmg.progress } })) ∧
    (form → ¬ ok → ∀ c, queueCtx s q = some c → exec (.doorbell off size v) s =
      .next ((s.setQueue q { x with dbIgnored := x.dbIgnored + 1 }).setCtx c { s.ctx c with dbIgnored := (s.ctx c).dbIgnored + 1 })) ∧
    (form → queueCtx s q = none → exec (.doorbell off size v) s = .next (s.setQueue q { x with dbIgnored := x.dbIgnored + 1 }))) ∧
  (∀ (s : State) (off : BitVec 22) (size : Nat) (v : W64), s.qmg.cxlUp = false → exec (.doorbell off size v) s = .next s) ∧
  (∀ (s : State) (q : Queue), (queueCtx s q = none ∨ (s.queue q).enable = false ∨ s.qmg.cxlUp = false ∨ ideOk s = false ∨
    (s.queue q).head = (s.queue q).tail ∨ hasTurn s q = false) → exec (.descriptorFetch q) s = .next s) ∧
  ∀ (s : State) (q : Queue) (c : Ctx), queueCtx s q = some c → (s.queue q).enable = true → s.qmg.cxlUp = true → ideOk s = true →
    (s.queue q).head ≠ (s.queue q).tail → hasTurn s q = true →
    let x := s.queue q
    let d : DescId := ⟨q, x.head⟩
    let e : DescState := { words := (wordsOf 8 (readBytes s.mem.host (x.rbase.toNat * 4096 + x.head.toNat % 2 ^ x.log2size.toNat * 64) 64)).map (BitVec.ofNat 64), ctx := c }
    ∃ u : State, u.desc? d = some e ∧ (u.queue q).head = x.head + 1 ∧ (u.ctx c).accepted = (s.ctx c).accepted + 1 ∧
      u = { s with qmg := u.qmg } ∧ (∀ q', q' ≠ q → u.queue q' = s.queue q') ∧
      exec (.descriptorFetch q) s = .next (if (s.ctx c).phase ≠ .opened then endDesc u d 4 else if formBad u q e then endDesc u d 5 else u)

/-- Enabling a queue stores the write's fields and then applies the checks (R499); disabling it is refused while it works (R373). -/
def Obligations.QueueEnableStoresThenChecks : Prop :=
  (∀ (s : State) (v : W64), ∀ i ∈ [Instr.queueEnable v, .queueDisable v], (hostUp s = false → exec i s = .next s) ∧
    (hostUp s = true → s.sec.lock = false → exec i s = .next { s with sec := { s.sec with lockViol := s.sec.lockViol + 1 } })) ∧
  ∀ (s : State) (v : W64), hostUp s = true → s.sec.lock = true →
    let q := s.qmg.qsel
    let x := s.queue q
    let y : QueueState := { x with
      log2size := BitVec.ofNat 5 v.toNat, cls := BitVec.ofNat 3 (v.toNat / 2 ^ 5), vector := BitVec.ofNat 11 (v.toNat / 2 ^ 9)
      irqEn := decide (v.toNat / 2 ^ 20 % 2 = 1) }
    let ok := ∃ c, queueCtx s q = some c ∧ (s.ctx c).phase = .opened ∧ y.cls.toNat ≤ 4 ∧ 6 ≤ y.log2size.toNat ∧ y.log2size.toNat ≤ 16 ∧
      inHostWindow (s.ctx c) (y.rbase.toNat * 4096) (64 * 2 ^ y.log2size.toNat) = true ∧
      inHostWindow (s.ctx c) (y.cbase.toNat * 4096) (32 * 2 ^ y.log2size.toNat) = true
    (x.enable = false → ok → exec (.queueEnable v) s = .next (s.setQueue q { y with
      enable := true, head := 0, tail := 0, done := 0, dbApplied := 0, dbIgnored := 0, dbBad := 0, window := none, progress := s.now })) ∧
    (x.enable = false → ¬ ok → exec (.queueEnable v) s = .next (s.setQueue q { y with cfgErr := true })) ∧
    (x.enable = true → exec (.queueEnable v) s = .next s) ∧
    (x.enable = false → exec (.queueDisable v) s = .next (s.setQueue q y)) ∧
    (x.enable = true → x.head = x.done → x.tail = x.head → exec (.queueDisable v) s = .next (s.setQueue q { x with enable := false })) ∧
    (x.enable = true → ¬ (x.head = x.done ∧ x.tail = x.head) →
      exec (.queueDisable v) s = .next (s.setQueue q { x with cfgErr := true }))

/-- The four states of a context (R371, R393, R394). -/
def Obligations.ContextsOpenAndClose : Prop :=
  ∀ s : State,
    let c := s.qmg.csel
    let bad := s.setCtx c { s.ctx c with cmdBad := true }
    (hostUp s = true → s.sec.lock = true →
      ((s.ctx c).phase = .free → ∃ t, exec .ctxOpen s = .next t ∧
        ((s.memCtl (paPanel (rootTable c))).inReset = false → t = { s with mem := { s.mem with gddr := t.mem.gddr }, qmg := t.qmg } ∧
          (∀ a, rootTable c ≤ a → a < rootTable c + 0x20000 → readByte t.mem.gddr a = 0) ∧
          ∀ a, a < rootTable c ∨ rootTable c + 0x20000 ≤ a → readByte t.mem.gddr a = readByte s.mem.gddr a) ∧
        (∀ m, m = s.memCtl (paPanel (rootTable c)) → m.inReset = true →
          t = { s.setMemCtl (paPanel (rootTable c)) { m with writesDropped := m.writesDropped + 1 } with qmg := t.qmg }) ∧
        (t.ctx c) = { s.ctx c with phase := .opened, drained := false, accepted := 0, completed := 0, cancelled := 0, dbIgnored := 0, msgAbandoned := 0, genDrop := 0, rung := false } ∧
        ∀ k, k ≠ c → t.ctx k = s.ctx k) ∧
      ((s.ctx c).phase ≠ .free → exec .ctxOpen s = .next bad) ∧
      ((s.ctx c).phase = .opened → exec .ctxClose s = .next (
        let d := s.gau.count + BitVec.ofNat 64 (max 1563 ((ctxJobs s c).foldl (fun n j => max n (s.job j).bmax) 0) + 625)
        let u := s.setCtx c { s.ctx c with phase := .closing, drainMark := d }
        let v := (descsWhere u fun x => x.ctx == c && x.phase == .waiting).foldl (fun s d => endDesc s d (closeStatus u c d)) u
        (descsWhere v fun x => x.ctx == c).foldl (fun s d => stopDesc s d 4) v)) ∧
      ((s.ctx c).phase ≠ .opened → exec .ctxClose s = .next bad) ∧
      ((s.ctx c).phase = .quiescent → ∃ t, exec .ctxFree s = .next t ∧ t = { s with mem := t.mem, qmg := t.qmg } ∧
        (t.ctx c).phase = .free ∧ t.mem.gddr = s.mem.gddr ∧ (∀ e ∈ t.mem.tables, e.2.2 ≠ c.val) ∧
        (∀ e ∈ t.mem.aper, aperCtx e.2 = c → aperEn e.2 = false) ∧ (∀ e ∈ t.qmg.groups, ¬ (e.2.2 = true ∧ e.2.1 = c)) ∧
        ∀ e ∈ t.qmg.queues, (s.group (e.1 / 64)).2 = true → (s.group (e.1 / 64)).1 = c → e.2.enable = false) ∧
      ((s.ctx c).phase ≠ .quiescent → exec .ctxFree s = .next bad)) ∧
    (∀ i ∈ [Instr.ctxOpen, .ctxClose, .ctxFree], (hostUp s = false → exec i s = .next s) ∧
      (hostUp s = true → s.sec.lock = false → exec i s = .next { s with sec := { s.sec with lockViol := s.sec.lockViol + 1 } })) ∧
    ∀ k : Ctx,
      ((s.ctx k).phase ≠ .closing ∨ (s.ctx k).drained = true ∨ s.gau.count.toNat < (s.ctx k).drainMark.toNat →
        exec (.ctxDrainMark k) s = .next s) ∧
      (quiet s k = false → exec (.ctxQuiesce k) s = .next s) ∧
      ((s.ctx k).phase = .closing → (s.ctx k).drained = false → (s.ctx k).drainMark.toNat ≤ s.gau.count.toNat →
        ∃ t, exec (.ctxDrainMark k) s = .next t ∧ (t.ctx k).gen = (s.ctx k).gen + 1 ∧ (t.ctx k).drained = true ∧
          (t.ctx k).msgAbandoned = (s.ctx k).msgAbandoned + openSends s k ∧
          (∀ j, (s.job j).resident = true → (s.job j).ctx = k → (t.job j).gen = (s.ctx k).gen + 1) ∧
          (∀ d, ∀ e ∈ (t.die d).sends, e.2.ctx ≠ k) ∧ t.mem = s.mem ∧ t.slots = s.slots) ∧
      (quiet s k = true → exec (.ctxQuiesce k) s = .next (raiseEv (dropRung (State.setCtx
        ((ctxJobs s k).foldl (fun s j => s.setJob j { s.job j with resident := false }) s) k
        { s.ctx k with phase := .quiescent, rung := false }) (.context k)) evCtxQuiescent srcQmg [] (some k)))

/-- MSI-X (R386) and the state of the CXL link (R396). -/
def Obligations.LinkUpAndMessages : Prop :=
  ∀ s : State,
    (∀ q t, (s.queue q).window = some t →
      (t + 157 ≤ s.now → exec (.msixWindowEnd (.queue q)) s =
        .next ((s.setQueue q { s.queue q with window := none }).emit (.msix (s.queue q).vector))) ∧
      (s.now < t + 157 → exec (.msixWindowEnd (.queue q)) s = .next s)) ∧
    (∀ t, s.ev.evqWindow = some t → t + 157 ≤ s.now → exec (.msixWindowEnd .events) s =
      .next ({ s with ev := { s.ev with evqWindow := none } }.emit (.msix s.ev.evqVector))) ∧
    (∀ q, (s.queue q).window = none → exec (.msixWindowEnd (.queue q)) s = .next s) ∧
    (s.ev.evqWindow = none ∨ (∃ t, s.ev.evqWindow = some t ∧ s.now < t + 157) → exec (.msixWindowEnd .events) s = .next s) ∧
    (∀ w r, s.pwr.pwrGood = false ∨ s.pwr.perst = true → exec (.cxlLinkUp w r) s = .next s) ∧
    exec .cxlLinkDown s = .next { s with qmg := { s.qmg with cxlUp := false, portUp := false } } ∧
    (s.pwr.pwrGood = true → s.pwr.perst = false →
      let up := { s with qmg := { s.qmg with portUp := true } }
      let u := if s.sec.ioBroken = true ∨ s.sec.cmBroken = true then up else flushHeld { up with qmg := { up.qmg with cxlUp := true } }
      exec (.cxlLinkUp 8 64) s = .next u ∧
      (∀ w r, (w = 8 ∨ w = 4) → (r = 64 ∨ r = 32) → ¬ (w = 8 ∧ r = 64) →
        exec (.cxlLinkUp w r) s = .next (raiseEv u evHostLinkDegraded srcQmg)) ∧
      (s.qmg.held = [] → (∀ e ∈ s.qmg.descs, e.2.phase ≠ .recordDue) → s.sec.ioBroken = false → s.sec.cmBroken = false →
        u = { s with qmg := { s.qmg with portUp := true, cxlUp := true, progress := s.now } })) ∧
    ∀ w r, ¬ ((w = 8 ∨ w = 4) ∧ (r = 64 ∨ r = 32)) → exec (.cxlLinkUp w r) s = .next s

/-- Completions, sync counters and instruction fills. -/
def Obligations.EngineEventsComplete : Prop :=
  (∀ s c cmd rest, (s.engine c .vector).queue = cmd :: rest → staysQueued rest → cmd.kind = .pass →
    ∃ t, exec (.chainPassComplete c) s = .next t ∧ commandEnded s c .vector cmd rest t) ∧
  (∀ s c cmd rest, (s.engine c .matrix).queue = cmd :: rest → staysQueued rest → cmd.kind = .tile →
    ∃ t, exec (.mtOpComplete c) s = .next t ∧ commandEnded s c .matrix cmd rest t ∧
      ∀ r ∈ cmd.pend, (t.slot cmd.slot).pending.contains r = false ∨ (s.slot cmd.slot).running = false) ∧
  (∀ s c cmd rest, (s.engine c .mover).queue = cmd :: rest → staysQueued rest → cmd.kind = .move →
    ∃ t, exec (.moveComplete c) s = .next t ∧ commandEnded s c .mover cmd rest t) ∧
  (∀ s c cmd rest d j msgs, (s.engine c .mover).queue = cmd :: rest → staysQueued rest → cmd.kind = .send d j msgs →
    (sendsEnded s d j msgs = true → ∃ t, exec (.moveComplete c) s = .next t ∧
      commandEnded s c .mover (if sendsAcked s d j msgs then cmd else { cmd with signals := [] }) rest t ∧
      ∀ m ∈ msgs, findSend t d j m = none) ∧
    (sendsEnded s d j msgs = false → exec (.moveComplete c) s = .next s)) ∧
  (∀ s c, ∀ e ∈ [(Instr.chainPassComplete c, EngineKind.vector, EngKind.pass), (.mtOpComplete c, .matrix, .tile), (.moveComplete c, .mover, .move)],
    (∀ cmd rest, (s.engine c e.2.1).queue = cmd :: rest → cmd.kind = e.2.2 → ∃ t n, exec e.1 s = .next t ∧
      (t.engine c e.2.1).queue = rest.drop n ∧ (∀ x ∈ rest.take n, x.kind = .immediate) ∧ staysQueued (rest.drop n)) ∧
    ((∀ cmd ∈ (s.engine c e.2.1).queue.head?, cmd.kind ≠ e.2.2 ∧ ∀ d j msgs, cmd.kind ≠ .send d j msgs) → exec e.1 s = .next s)) ∧
  (∀ s t r, ((s.slot t).pending.contains r = false ∨ (∃ k, holderOf s t r = some k ∧
      ∀ cmd ∈ (s.engine (slotCore t) k).queue.head?, cmd.slot ≠ t ∨ cmd.pend.contains r = false)) → exec (.pendingWriteComplete t r) s = .next s) ∧
  (∀ s t r k cmd rest, (s.slot t).pending.contains r = true → holderOf s t r = some k → (s.engine (slotCore t) k).queue = cmd :: rest →
    cmd.slot = t → cmd.pend.contains r = true → (cmd.pend.filter (· ≠ r) ≠ [] ∨ cmd.kind ≠ .regs) →
    ∃ u, exec (.pendingWriteComplete t r) s = .next u ∧
      (u.engine (slotCore t) k).queue = { cmd with pend := cmd.pend.filter (· ≠ r) } :: rest ∧ u.mem = s.mem ∧
      (u.slot t).pending = (s.slot t).pending.filter (· ≠ r) ∧ (u.slot t).pc = (s.slot t).pc ∧
      ∀ d n, cmd.scread = some (d, n) → sReg (u.slot t) d = (scGet s n).setWidth 64) ∧
  (∀ s t r, (s.slot t).pending.contains r = true →
    (holderOf s t r = none → (s.slot t).hold = .free → (s.slot t).ending = false →
      exec (.pendingWriteComplete t r) s = .next (s.setSlot t { clearPending (s.slot t) r with progress := s.now })) ∧
    (∀ k cmd rest, holderOf s t r = some k → (s.engine (slotCore t) k).queue = cmd :: rest → staysQueued rest → cmd.slot = t → cmd.pend = [r] →
      cmd.kind = .regs → (s.slot t).running = true → (s.slot t).ending = false →
      ∃ u, exec (.pendingWriteComplete t r) s = .next u ∧ commandEnded s (slotCore t) k cmd rest u ∧
        (u.slot t).pending.contains r = false ∧
        ∀ d n, cmd.scread = some (d, n) → sReg (u.slot t) d = (scGet s n).setWidth 64)) ∧
  (∀ s n l, noneHeld s → ∃ t, exec (.syncCounterIncrement n l) s = .next t ∧
    scGet t n = incTotal s (scGet s n) l ∧ (∀ m, m ≠ n → scGet t m = scGet s m) ∧ t.slots = s.slots ∧ t.mem = s.mem ∧
    t.glb.lateDrop = s.glb.lateDrop + BitVec.ofNat 64 (l.filter fun i => !tagsOk s i.tags).length) ∧
  (∀ s n l t x target, s.slots = [(Fin.val t, x)] → x.hold = .wait n target → x.holdSig = [] →
    waitDone (incTotal s (scGet s n) l) target = true →
    ∃ u, exec (.syncCounterIncrement n l) s = .next u ∧ (u.slot t).hold = .free) ∧
  (∀ s t, ((s.slot t).running = false ∨ (s.slot t).stopped = true ∨ (s.slot t).ending = true) → exec (.icacheFill t) s = .next s) ∧
  (∀ s t, (s.slot t).running = true → (s.slot t).stopped = false → (s.slot t).ending = false →
    let x := s.slot t
    let c := slotCore t
    let pc := x.pc.toNat
    (pc % 32 ≠ 0 → exec (.icacheFill t) s = .next (stopAt t evAccessFault 0 s)) ∧
    (pc % 32 = 0 → accessPa s x.ctx pc .fetch = none →
      exec (.icacheFill t) s = .next (stopAt t evAccessFault 0 (noteBadTable s x.ctx pc))) ∧
    ∀ pa d, pc % 32 = 0 → accessPa s x.ctx pc .fetch = some pa →
      (gddrRead s pa 32 = (d, true) → exec (.icacheFill t) s = .next (stopAt t evMemPoison 0 (noteResetRead s pa))) ∧
      (gddrRead s pa 32 = (d, false) → ∃ cs, exec (.icacheFill t) s = .next ((noteResetRead s pa).setCore c { s.core c with icache := cs }) ∧
        (x.ctx.val, pc, BitVec.ofNat 256 (ofLE d)) ∈ cs ∧ (cs.filter fun e => e.1 == x.ctx.val && e.2.1 == pc).length = 1 ∧
        ((s.core c).icache.length ≤ 2048 → cs.length ≤ 2048)))

/-- The start of the descriptors that run in parts, and what keeps any descriptor from starting. -/
def Obligations.DescriptorsStart : Prop :=
  ∀ (s : State) (d : DescId),
    (∀ c ∈ (blockStarts d).map (fun c => (c.1, c.2.1)) ++ plainStarts d, (∀ x, ¬ Starts s d c.2 x) → exec c.1 s = .next s) ∧
    (∀ c ∈ blockStarts d, ∀ x, Starts s d c.2.1 x → readArgs (begun s d) x c.2.2 = none →
      exec c.1 s = .next (endDesc (noteVaRead (begun s d) x.ctx (descArgs x) (8 * c.2.2)) d stArgsFault)) ∧
    (∀ x w, Starts s d opProduct x → readArgs (begun s d) x 16 = some w →
      exec (.product d) s = .next (if hostProductBad (begun s d) (withWords x w) w then endDesc (begun s d) d stBadDescriptor
        else (begun s d).setDesc d { withWords x w with
          phase := .running
          head := if prodInlay (prodSpec w) && (prodSpec w).inlayN == 0x7F then readHead (begun s d) x.ctx (prodSpec w).list else [] })) ∧
    (∀ x w, Starts s d opPass x → readArgs (begun s d) x 32 = some w →
      let w' := hostPassWords (withWords x w) w
      exec (.pass d) s = .next (if hostPassBad (begun s d) (withWords x w) w' then endDesc (begun s d) d stBadDescriptor
        else (begun s d).setDesc d { withWords x w' with
          phase := .running
          head := if pQuantOn w' && qApply (pQcw w') then readHead (begun s d) x.ctx (pSummary w') else [] })) ∧
    (∀ x w, Starts s d opMove x → readArgs (begun s d) x 8 = some w →
      exec (.move d) s = .next (if moveOk w then (begun s d).setDesc d { withWords x w with phase := .running }
        else endDesc (begun s d) d stBadDescriptor)) ∧
    ∀ x w j, Starts s d opUpdate x → readArgs (begun s d) x 8 = some w →
      let b := begun s d
      let y := withWords x w
      (tagJobBad b y = true ∨ updJob b y = none → exec (.update d) s = .next (endDesc b d stBadDescriptor)) ∧
      (tagJobBad b y = false → updJob b y = some j →
        (updPoisoned b j y (updSpec w) = true → exec (.update d) s =
          .next (endDesc ((updHeads b j y (updSpec w)).foldl (fun s r => noteVaRead s x.ctx r.1 r.2) b) d stPartial)) ∧
        (updPoisoned b j y (updSpec w) = false →
          (updBad b y w = true → exec (.update d) s = .next (endDesc b d stBadDescriptor)) ∧
          (updBad b y w = false → (b.job j).scrub = true → exec (.update d) s = .next s) ∧
          (updBad b y w = false → (b.job j).scrub = false →
            (updStale b j y (updSpec w) = true → exec (.update d) s = .next (endDesc b d stUpdateStale)) ∧
            (updStale b j y (updSpec w) = false → waitsRoots b j y (updSpec w) = true → exec (.update d) s = .next s) ∧
            (updStale b j y (updSpec w) = false → waitsRoots b j y (updSpec w) = false →
              exec (.update d) s = .next (b.setDesc d { y with phase := .running })))))

/-- The descriptors that the queue manager serves itself. -/
def Obligations.ControlDescriptorsComplete : Prop :=
  ∀ (s : State) (d : DescId) (x : DescState),
    let b := begun s d
    let ends (u : State) (st : BitVec 16) : Host.Outcome State Fault Refusal := .next (endDesc u d st)
    (Starts s d opNop x → exec (.nop d) s = ends b stOk) ∧
    (Starts s d opAbort x →
      let t := abortTarget x
      (queueCtx b t.q ≠ some x.ctx → exec (.abortDesc d) s = ends b stBadDescriptor) ∧
      (queueCtx b t.q = some x.ctx → accepted b t = false → exec (.abortDesc d) s = ends b stNoTarget) ∧
      (queueCtx b t.q = some x.ctx → accepted b t = true → s.desc? t = none → exec (.abortDesc d) s = ends b stAbortLate) ∧
      ∀ y, queueCtx b t.q = some x.ctx → accepted b t = true → s.desc? t = some y →
        (t = d ∨ y.armed = true ∨ y.stopping.isSome = true ∨ y.phase = .finishing ∨ y.phase = .recordDue →
          exec (.abortDesc d) s = ends b stAbortLate) ∧
        (t ≠ d → y.armed = false → y.stopping = none → y.phase ≠ .finishing → y.phase ≠ .recordDue →
          (y.parts ≠ [] → exec (.abortDesc d) s = ends (b.setDesc t { y with stopping := some stAborted, stopAt := b.now }) stOk) ∧
          (y.parts = [] → exec (.abortDesc d) s = ends (endDesc (dropWork b t) t stAborted) stOk))) ∧
    (Starts s d opMap x →
      let m := descMap x
      (unmapOver b x.ctx m = true → exec (.mapDesc d) s = .next s) ∧
      (unmapOver b x.ctx m = false → exec (.mapDesc d) s = match mapPages b x.ctx m with
        | some u => ends u stOk
        | none => ends (noteTables b x.ctx m) stMapDenied)) ∧
    (Starts s d opUnmap x → exec (.unmap d) s = match unmapPages b x.ctx (descMap x) with
      | some u => .next (u.setDesc d { x with phase := .finishing })
      | none => ends (noteTables b x.ctx (descMap x)) stMapDenied) ∧
    (s.desc? d = some x → descOp x = opUnmap → x.phase = .finishing →
      let m := descMap x
      (recordRoom s = true → rangeInUse s x.ctx m.va (m.va + m.len) = false →
        exec (.unmapComplete d) s = .next (finishDesc (unmapDone s x.ctx m) d)) ∧
      (recordRoom s = false ∨ rangeInUse s x.ctx m.va (m.va + m.len) = true → exec (.unmapComplete d) s = .next s)) ∧
    ((∀ y, s.desc? d = some y → descOp y ≠ opUnmap ∨ y.phase ≠ .finishing) → exec (.unmapComplete d) s = .next s) ∧
    (∀ w, Starts s d opJob x → readArgs b x 8 = some w →
      let n := fld (nth w 0) 32 32
      let u := noteRouteTables b x.ctx (nth w 6) n (nth w 7)
      (setupBad b x.ctx w = true → exec (.jobSetup d) s = ends b stBadDescriptor) ∧
      (setupBad b x.ctx w = false → (readRankTable b x.ctx (nth w 6) n = none ∨ readRingTable b x.ctx (nth w 7) = none) →
        exec (.jobSetup d) s = ends u stArgsFault) ∧
      (setupBad b x.ctx w = false → ∀ table len, readRankTable b x.ctx (nth w 6) n = some table → readRingTable b x.ctx (nth w 7) = some len →
        ((table.all (routeOk len) = false ∨ ringTableOk len = false) → exec (.jobSetup d) s = ends u stBadDescriptor) ∧
        (table.all (routeOk len) = true → ringTableOk len = true → routeFits u ⟨nth w 0 % 8, Nat.mod_lt _ (by decide)⟩ n = false →
          exec (.jobSetup d) s = ends u stNoRouteSpace)) ∧
      ∀ table len, SetsUp b x.ctx w table len →
        exec (.jobSetup d) s = ends ((noteRouteTables b x.ctx (nth w 6) (fld (nth w 0) 32 32) (nth w 7)).setJob ⟨nth w 0 % 8, Nat.mod_lt _ (by decide)⟩
          { resident := true, ctx := x.ctx, gen := (s.ctx x.ctx).gen, myRank := BitVec.ofNat 16 (fld (nth w 0) 16 16)
            nranks := fld (nth w 0) 32 32, update := BitVec.ofNat 64 (nth w 1), updateSize := BitVec.ofNat 64 (nth w 2)
            ladder := BitVec.ofNat 64 (nth w 3), vote := BitVec.ofNat 64 (nth w 4), watch := BitVec.ofNat 64 (nth w 5)
            table := table, ringLen := [(0, len)] }) stOk) ∧
    (∀ w, Starts s d opPolicy x → readArgs b x 8 = some w →
      (ctxJob b x.ctx = none → exec (.ladderPolicy d) s = ends b stBadDescriptor) ∧
      ((ctxJob b x.ctx).isSome = true → readOverrides b x.ctx w = none → exec (.ladderPolicy d) s =
        ends (noteVaRead b x.ctx (nth w 5) (min (fld (nth w 1) 32 32) 4095)) stArgsFault)) ∧
    (∀ w j ov, Starts s d opPolicy x → readArgs b x 8 = some w → ctxJob b x.ctx = some j → readOverrides b x.ctx w = some ov →
      let p := policyOfWords w ov
      let b := if nth w 5 = 0 then b else noteVaRead b x.ctx (nth w 5) (min (fld (nth w 1) 32 32) 4095)
      ((policyBad w p (jobStep b j) || !layersWritable b j p.nlayers) = true → exec (.ladderPolicy d) s = ends b stBadDescriptor) ∧
      ((policyBad w p (jobStep b j) || !layersWritable b j p.nlayers) = false → policyWaits b j p = true → exec (.ladderPolicy d) s = .next s) ∧
      ((policyBad w p (jobStep b j) || !layersWritable b j p.nlayers) = false → policyWaits b j p = false →
        exec (.ladderPolicy d) s = ends (acceptPolicy b j p) stOk))

/-- The descriptors that wait for a mark. -/
def Obligations.MarkDescriptorsStart : Prop :=
  ∀ (s : State) (d : DescId) (x : DescState) (w : List Nat),
    let b := begun s d
    let y := withWords x w
    let ends (st : BitVec 16) : Host.Outcome State Fault Refusal := .next (endDesc b d st)
    readArgs b x 8 = some w →
    (Starts s d opColl x →
      let n := noteColl b x.ctx w
      (readColl b x.ctx w = .bad → exec (.coll d) s = .next (endDesc n d stBadDescriptor)) ∧
      (readColl b x.ctx w = .fault → exec (.coll d) s = .next (endDesc n d stArgsFault)) ∧
      ∀ c, readColl b x.ctx w = .ok c → exec (.coll d) s = .next (((n.setJob c.job { n.job c.job with
        windows := (n.job c.job).windows ++ [(c.base.toNat, c.base.toNat + c.endOff + c.shift)] }).setDesc d
          { y with phase := .running }).setColl d c)) ∧
    (Starts s d opCommit x →
      (rankJobOf b x.ctx (fld (nth w 0) 32 8) = none → exec (.commit d) s = ends stBadDescriptor) ∧
      ∀ j, rankJobOf b x.ctx (fld (nth w 0) 32 8) = some j →
        ((commitFormBad w || (b.job j).commit.isSome) = true → exec (.commit d) s = ends stBadDescriptor) ∧
        ((commitFormBad w || (b.job j).commit.isSome) = false →
        (jobEpoch b j = 0xFFFFFFFE → exec (.commit d) s = ends stEpochLimit) ∧
        (jobEpoch b j ≠ 0xFFFFFFFE →
          let n := noteSched b x.ctx w
          (voteSched b x.ctx j w = .bad → exec (.commit d) s = .next (endDesc n d stBadDescriptor)) ∧
          (voteSched b x.ctx j w = .fault → exec (.commit d) s = .next (endDesc n d stArgsFault)) ∧
          ∀ v, voteSched b x.ctx j w = .ok v →
            (nth w 2 < nth w 1 + v.bound + 1719 → exec (.commit d) s = .next (endDesc n d stBadDescriptor)) ∧
            (nth w 1 + v.bound + 1719 ≤ nth w 2 → exec (.commit d) s = .next (((n.setDesc d { y with phase := .running }).setColl d v).setJob j { n.job j with
              commit := some
                { desc := d, step := BitVec.ofNat 32 (descStep x), epoch := BitVec.ofNat 32 (nth w 0)
                  voteMark := BitVec.ofNat 64 (nth w 1), commitMark := BitVec.ofNat 64 (nth w 2), sched := BitVec.ofNat 64 (nth w 3)
                  counts := [fld (nth w 4) 0 16, fld (nth w 4) 16 16, fld (nth w 4) 32 16, fld (nth w 4) 48 16]
                  checkOk := stepOk n j (descStep x) && jobEpoch n j == fld (nth w 0) 0 32, action := .undecided, voted := none
                  block := none, voteFlagged := false, reasons := 0 } }))))) ∧
    (Starts s d opRoute x →
      (jobOf b x.ctx (fld (nth w 0) 0 8) = none → exec (.routeEpoch d) s = ends stBadDescriptor) ∧
      ∀ j, jobOf b x.ctx (fld (nth w 0) 0 8) = some j →
        let bad := routeFormBad w || routeMarkBad (b.job j) (fld (nth w 0) 8 8) (nth w 1) || markInColl b j (nth w 1)
        let n := fld (nth w 0) 32 32
        let u := noteRouteTables b x.ctx (nth w 3) n (nth w 4)
        (bad = true → exec (.routeEpoch d) s = ends stBadDescriptor) ∧
        (bad = false → (readRankTable b x.ctx (nth w 3) n = none ∨ readRingTable b x.ctx (nth w 4) = none) →
          exec (.routeEpoch d) s = .next (endDesc u d stArgsFault)) ∧
        (bad = false → ∀ t len, readRankTable b x.ctx (nth w 3) n = some t → readRingTable b x.ctx (nth w 4) = some len →
          (t.all (routeOk len) && ringTableOk len) = false → exec (.routeEpoch d) s = .next (endDesc u d stBadDescriptor)) ∧
        (bad = false → ∀ t len, readRankTable b x.ctx (nth w 3) n = some t → readRingTable b x.ctx (nth w 4) = some len →
          t.all (routeOk len) = true → ringTableOk len = true →
          (routeFits u j n = false → exec (.routeEpoch d) s = .next (endDesc u d stNoRouteSpace)) ∧
          (routeFits u j n = true → exec (.routeEpoch d) s = .next ((u.setDesc d { y with phase := .running }).setJob j { u.job j with
            change := some { desc := d, epoch := BitVec.ofNat 2 (fld (nth w 0) 8 8), mark := BitVec.ofNat 64 (nth w 1), bmax := nth w 2
                             table := t, ringLen := len, staged := false, switched := false } }))))

/-- SNAPSHOT, RESTORE, and the marks of a point and of a restore. A FULL or DELTA without a plan (BAD_DESCRIPTOR), an APPLY
without one (NO_LIVE) and a second RESTORE (BAD_DESCRIPTOR) are the model's choice (log entry 73). -/
def Obligations.SecureStateCompletes : Prop :=
  ∀ (s : State) (d : DescId) (x : DescState) (w : List Nat) (j : Job),
    let b := begun s d
    let y := withWords x w
    let last := (b.job j)
    let ends (u : State) (st : BitVec 16) : Host.Outcome State Fault Refusal := .next (endDesc u d st)
    (Starts s d opSnapshot x → readArgs b x 8 = some w →
      (∀ c ∈ [(Instr.snapshotPlan d, 0), (.snapshotFull d, 1), (.snapshotDelta d, 2)],
        (fld (nth w 0) 0 8 ≠ c.2 → fld (nth w 0) 0 8 ≤ 2 → exec c.1 s = .next s) ∧
        (fld (nth w 0) 0 8 = c.2 → snapFormBad w = true ∨ rankJobOf b x.ctx (fld (nth w 0) 8 8) = none →
          exec c.1 s = ends b stBadDescriptor)) ∧
      (snapFormBad w = false → rankJobOf b x.ctx (fld (nth w 0) 8 8) = some j →
        (fld (nth w 0) 0 8 = 0 → exec (.snapshotPlan d) s = .next (installPlan d y j (nth w 3) b)) ∧
        (∀ c ∈ [(Instr.snapshotFull d, 1), (.snapshotDelta d, 2)], fld (nth w 0) 0 8 = c.2 →
          (last.plan = none ∨ last.point.isSome = true → exec c.1 s = ends b stBadDescriptor) ∧
          ∀ p, last.plan = some p → last.point = none →
            (descStep x ≠ jobStep b j → exec c.1 s = ends b stUpdateStale) ∧
            (descStep x = jobStep b j → pointBad b j p (c.2 == 1) (descStep x) (nth w 1) (nth w 2) = true →
              exec c.1 s = ends b stBadDescriptor) ∧
            (descStep x = jobStep b j → pointBad b j p (c.2 == 1) (descStep x) (nth w 1) (nth w 2) = false →
              exec c.1 s = .next ((b.setDesc d { y with phase := .running }).setJob j { last with
                point := some { desc := d, full := c.2 == 1, step := BitVec.ofNat 32 (descStep x), start := BitVec.ofNat 64 (nth w 1)
                                endMark := BitVec.ofNat 64 (nth w 2), started := false, stopTicks := 0, streams := [{}, {}]
                                keepFailed := false } }))))) ∧
    (∀ p pt, (s.job j).plan = some p → (s.job j).point = some pt →
      (fires s (.snapshot j) = true → pt.started = false →
        (alignedNow (disarm (checkAligned s) (.snapshot j)) = false →
          exec (.snapshotStart j) s = .next (missPoint (disarm (checkAligned s) (.snapshot j)) j)) ∧
        (alignedNow (disarm (checkAligned s) (.snapshot j)) = true → ∃ t, exec (.snapshotStart j) s = .next t ∧
          ((t.job j).point.map fun q => (q.started, q.desc, q.step)) = some (true, pt.desc, pt.step) ∧
          ((t.job j).plan.map fun q => q.seq) = some (p.seq + 1))) ∧
      (fires s (.snapshot j) = false → exec (.snapshotStart j) s = .next s) ∧
      (exec (.snapshotEndMark j) s = .next (if pt.started && atMark s pt.endMark.toNat then
        endPoint s j { pt with stopTicks := pt.endMark.toNat - pt.start.toNat } else s))) ∧
    (Starts s d opRestore x → readArgs b x 8 = some w →
      (restoreFormBad w = true ∨ rankJobOf b x.ctx (fld (nth w 0) 8 8) = none) →
      ∀ c ∈ [(Instr.inventory d, 0), (.applyRemote d, 1), (.applyLocal d, 2)],
        fld (nth w 0) 0 8 = c.2 → exec c.1 s = ends b stBadDescriptor) ∧
    (Starts s d opRestore x → readArgs b x 8 = some w → restoreFormBad w = false →
      rankJobOf b x.ctx (fld (nth w 0) 8 8) = some j →
      let step := fld (nth w 0) 32 32
      (fld (nth w 0) 0 8 = 0 →
        let l := (last.plan.map fun p => p.incoming).getD []
        let ks := localSteps b j
        let word := if ks = [] then 0xFFFFFFFFFFFFFFFF else ks.foldl min 0xFFFFFFFF + 2 ^ 32 * ks.foldl max 0
        let r := setResult (l.foldl noteRegion b) d 24 word
        let data := l.flatMap fun e => wordBytes (inventoryEntry b e)
        exec (.inventory d) s = match vaWrite r x.ctx (nth w 1) data with
          | some u => .next (concludeDesc u d stOk)
          | none => .next (concludeDesc (noteVaWrite r x.ctx (nth w 1) data.length) d stPartial)) ∧
      (fld (nth w 0) 0 8 = 2 →
        (∀ p half, last.plan = some p → keepOf p step = some half → (localSteps b j).contains step = true →
          ∃ v n bad, exec (.applyLocal d) s = .next (concludeApply (afterApply v j step) d n bad) ∧
            (v.job j).plan = some p ∧ (v.job j).staged = last.staged ∧ (v.job j).update = last.update ∧ (v.job j).nranks = last.nranks ∧
            v.gau.count = b.gau.count) ∧
        ((∀ p, last.plan = some p → keepOf p step = none ∨ (localSteps b j).contains step = false) →
          exec (.applyLocal d) s = .next (concludeDesc b d stNoLive))) ∧
      (fld (nth w 0) 0 8 = 1 →
        (last.plan = none → exec (.applyRemote d) s = .next (concludeDesc b d stNoLive)) ∧
        (last.plan.isSome = true → last.restore.isSome = true → exec (.applyRemote d) s = ends b stBadDescriptor) ∧
        (∀ p, last.plan = some p → last.restore = none → ((sendsOf b (.restore j)).all fun e => !e.2.2.failed) = true →
          (∀ st ∈ [0, 1], streamRoutes b j p st ≠ []) → ∃ t, exec (.applyRemote d) s = .next t ∧
          (t.job j).restore = some { desc := d, step := BitVec.ofNat 32 step, start := BitVec.ofNat 64 (nth w 2), buf := {}, got := []
                                     total := [], missing := false, failed := false } ∧
          ((t.desc? d).map DescState.phase) = some .running))) ∧
    (∀ src,
      let mine (a : Asked) : Bool := a.src == src && a.sent.isNone && atMark s a.start.toNat
      let rest := s.setJob j { s.job j with asked := (s.job j).asked.filter fun a => !mine a }
      exec (.restoreStartMark j src) s = .next (((s.job j).asked.filter mine).foldl (fun u a => match incomingOf u j a.src a.stream with
        | none => sendClosing j a 0 true false u
        | some e => sendPoint (noteRegion u e) j a e) rest)) ∧
    -- what an APPLY leaves (R423): the commit record of epoch 0, step j and copy 0, and no stream with a point since
    ∀ (u : State) (step : Nat), step < 2 ^ 32 →
      let t := afterApply u j step
      let v := u.job j
      let dig := digest64 ((vaRead u v.ctx v.ladder.toNat (64 * jobLayers u j)).getD ([], false)).1
      let w := [0, u.gau.count.toNat, step + 2 ^ 32 * v.nranks, dig, j.val, 0, 0]
      t.mem = (jobWrite u j v.update.toNat (wordBytes (w ++ [digest64 (wordBytes w)]))).mem ∧
      (t.job j).commit = none ∧ (t.job j).tagLog = [] ∧ (t.job j).shadow = none ∧ (t.job j).watchBlocks = [] ∧
      (t.job j).restore = none ∧ (t.job j).staged = v.staged.filter (fun r => decide (r.step.toNat ≤ step)) ∧
      (t.job j).plan = v.plan.map fun p => { p with
        streams := p.streams.map fun x => { x with last := none, off := 0 }
        keepSteps := p.keepSteps.filter fun e => decide (e.2 ≤ step) }

/-- The decisions of a commit, its record and discard, and what is computed for it. -/
def Obligations.CommitFamilyCompletes : Prop :=
  ∀ (s : State) (j : Job),
    let x := s.job j
    let canArm (m : W64) : Prop := alignedNow s = true ∧ s.gau.count.toNat + 1563 ≤ m.toNat ∧ (s.panel 0).comparators.length < 16 ∧
      findArmed s (.commit j) = none
    (∀ c b, x.commit = some c → c.block = some b → c.action = .undecided →
      let agree : Bool := !c.voteFlagged && decide (b.voters.toNat = x.nranks) && decide (b.readyCount.toNat = x.nranks) && decide (b.lo = b.hi)
      ∃ t, exec (.voteEvaluate j) s = .next t ∧ (t.job j).commit = some { c with
          action := if agree then .write else .discard
          reasons := BitVec.ofNat 8 ((if b.readyCount.toNat < x.nranks then 1 else 0) + (if b.lo = b.hi then 0 else 2)
            + (if c.voteFlagged then 4 else 0) + (if c.voted = some true then 0 else 8)) } ∧
        (canArm c.commitMark → findArmed t (.commit j) = some (0, ⟨.commit j, c.commitMark⟩)) ∧ t.mem.gddr = s.mem.gddr) ∧
    (∀ c, x.commit = some c → c.block = none → c.action = .undecided →
      (atMark s (c.commitMark.toNat - 1719) = false → exec (.commitUnresolved j) s = .next s) ∧
      (atMark s (c.commitMark.toNat - 1719) = true → ∃ t, exec (.commitUnresolved j) s = .next t ∧
        let y : CommitState := { c with
          action := .discard
          reasons := BitVec.ofNat 8 (16 + (if c.voteFlagged then 4 else 0) + (if c.voted = some true then 0 else 8)) }
        let u := raiseEv (s.setJob j { x with commit := some y }) 0x0102 166 [] (some x.ctx) (BitVec.ofNat 8 j.val)
        t = armChip u (.commit j) c.commitMark.toNat c.desc ∧ t.ev = u.ev ∧ (t.job j).commit = some y ∧
        (canArm c.commitMark → findArmed t (.commit j) = some (0, ⟨.commit j, c.commitMark⟩)) ∧ t.mem.gddr = s.mem.gddr)) ∧
    (∀ c, x.commit = some c → fires s (.commit j) = true →
      (c.action = .write →
        let copy := (x.shadow.map fun h => bnat h.copy).getD (ladderCopy s j)
        let digest := (c.block.map fun b => b.loDigest.toNat).getD 0
        let u := disarm s (.commit j)
        let w := [(jobEpoch s j + 1) % 2 ^ 32, c.commitMark.toNat, c.step.toNat + 2 ^ 32 * x.nranks, digest, j.val + 2 ^ 8 * copy,
          commitWord s j 1, 0]
        let v := jobWrite (flipWrite u j c.step.toNat) j x.update.toNat (wordBytes (w ++ [digest64 (wordBytes w)]))
        exec (.commitRecordWrite j) s = .next (concludeCommit (copyStats (v.setJob j
          { endAttempt (ladderFlip (v.job j) c.step.toNat) with tagLog := [] }) j c.step.toNat) c stCommitted)) ∧
      (c.action = .discard → (∀ y, s.desc? c.desc = some y → descOp y = opCommit) → ∃ t, exec (.commitDiscard j) s = .next t ∧ t.mem.gddr = s.mem.gddr ∧ (t.job j).scrub = true ∧
        (t.job j).commit = none ∧ (t.job j).shadow = none ∧ (t.job j).updOk = [] ∧ (t.job j).updBad = [] ∧
        (t.job j).tagLog = x.tagLog ∧ (t.job j).staged = x.staged.filter fun r => r.step ≠ c.step)) ∧
    (x.scrub = true →
      let u := [0, 1, 2, 3].foldl (fun u p => voidLog u j p) s
      exec (.scrubEnd j) s = .next (restartQueues (u.setJob j { u.job j with scrub := false, tagLog := [] }) x.ctx)) ∧
    (∀ step p recs emits, x.jobWide = some (step, false) → x.shadow = none → shadowOf s j step.toNat = some (p, recs, emits) →
      ∃ t, exec (.ladderDecide j) s = .next t ∧ t.job j = { x with
        shadow := some { step := step, copy := ladderCopy s j == 0, recs := recs
                         digest := BitVec.ofNat 64 (digest64 (recs.flatMap ladderBytes)), policy := some p, ready := true } }) ∧
    (∀ idx r, (x.rootDue.find? fun r => r.layer == idx && r.computing && tilesRun s r.panel) = some r →
      let area := recRoot (slotWords s x.ctx (slotRecord s j idx))
      let lb := r.rows / r.blockL * (r.blockL * r.blockL * 8)
      let set := match x.roots.find? fun y => y.layer == idx && y.ok with
        | some y => !y.set
        | none => false
      let lost := vaPoisoned s x.ctx (slotRecord s j idx) 64
      let u := noteVaRead (noteVaRead s x.ctx (slotRecord s j idx) 64) x.ctx area
        (if lost then 0 else lb + r.cols / r.blockR * (r.blockR * r.blockR * 8))
      let run : RootRun := match lost, rootBlocks u x.ctx r area r.blockL (r.rows / r.blockL),
          rootBlocks u x.ctx r (area + lb) r.blockR (r.cols / r.blockR) with
        | false, some (_, a), some (_, b) => ⟨idx, r.step, true, set, a + b, r.n⟩
        | _, _, _ => ⟨idx, r.step, false, false, 0, r.n⟩
      ∃ t, exec (.planeRootsDone j idx) s = .next t ∧ (t.job j).roots = run :: x.roots ∧
        (t.job j).rootDue = x.rootDue.filter fun z => !(z.layer == idx && z.computing)) ∧
    -- without what each acts on, nothing changes
    (fires s (.commit j) = false → exec (.commitRecordWrite j) s = .next s ∧ exec (.commitDiscard j) s = .next s) ∧
    (∀ c, x.commit = some c →
      (c.action ≠ .undecided → exec (.voteEvaluate j) s = .next s ∧ exec (.commitUnresolved j) s = .next s) ∧
      (c.block = none → exec (.voteEvaluate j) s = .next s) ∧ (c.block ≠ none → exec (.commitUnresolved j) s = .next s) ∧
      (c.action ≠ .write → exec (.commitRecordWrite j) s = .next s) ∧ (c.action ≠ .discard → exec (.commitDiscard j) s = .next s)) ∧
    (x.commit = none → ∀ i ∈ [Instr.voteEvaluate j, .commitUnresolved j, .commitRecordWrite j, .commitDiscard j], exec i s = .next s) ∧
    (x.scrub = false → exec (.scrubEnd j) s = .next s) ∧
    (x.jobWide = none ∨ x.shadow.isSome = true → exec (.ladderDecide j) s = .next s) ∧
    ∀ idx, (x.rootDue.find? fun r => r.layer == idx && r.computing && tilesRun s r.panel) = none →
      exec (.planeRootsDone j idx) s = .next s

/-- The slot as the bench controller starts it (R225): s0 holds ARGS, s1 the unit. -/
def startedSlot (s : State) (d : DescId) (x : DescState) (u : Nat) (b : SlotStart) (r : SlotState) : Prop :=
  r.running = true ∧ r.stopped = false ∧ r.pc = b.entry ∧ sReg r 0 = b.args ∧ sReg r 1 = BitVec.ofNat 64 u ∧
  (∀ i, 2 ≤ i → i < 64 → sReg r i = 0) ∧ r.ctx = x.ctx ∧ r.gen = (s.ctx x.ctx).gen ∧ r.scBase = b.scBase ∧ r.scCount = b.scCount ∧
  r.desc = some d ∧ r.pending = [] ∧ r.hold = .free ∧ r.progress = s.now

/-- The placement and the end of parts, and what follows the last part of an amax pass. -/
def Obligations.PartsPlaceAndEnd : Prop :=
  ∀ (s : State) (d : DescId) (x : DescState), s.desc? d = some x →
    (∀ (u : Fin 170) (w : Placement),
      let fits := mayPlace s x u.val w && tilesFit s x u.val
      let first := x.parts = [] ∧ x.ended = []
      let placed (y : DescState) : Prop := ∃ t p, exec (.partPlace d u w) s = .next t ∧
        (t.desc? d) = some { y with parts := y.parts ++ [p] } ∧ p.unit = u.val ∧ p.lo = w.lo ∧ p.hi = w.hi ∧
        p.slots = w.slots.map SlotStart.slot ∧ ∀ b ∈ w.slots, startedSlot s d y u.val b (t.slot b.slot)
      (fits = false → exec (.partPlace d u w) s = .next s) ∧
      (fits = true → ¬ first → routeStop s x = none → placed x) ∧
      (∀ st, fits = true → ¬ first → routeStop s x = some st →
        let p : PartState := { unit := u.val, slots := [], lo := w.lo, hi := w.hi, failed := false, reads := [], writes := [], cut := true }
        let v (k : BitVec 16) : DescState := { x with status := k, ended := x.ended ++ [p] }
        let k := if x.status = 0 then st else x.status
        exec (.partPlace d u w) s = .next (concludeParts (s.setDesc d (v k)) d) ∧
        (x.parts ≠ [] → exec (.partPlace d u w) s = .next (s.setDesc d (v k)))) ∧
      (fits = true → first →
        (∀ st, fixDesc s x = .inr st → exec (.partPlace d u w) s = .next (endDesc s d st)) ∧
        (∀ y st, fixDesc s x = .inl y → routeStop s y = some st → exec (.partPlace d u w) s = .next (endDesc s d st)) ∧
        (∀ y, fixDesc s x = .inl y → routeStop s y = none → tilesFit s y u.val = true → placed y))) ∧
    (∀ (u : Fin 170) (e : PartOutcome) p, (x.parts.find? fun p => p.unit == u.val) = some p → recordRoom s = true →
      placedKind x = true → unitStuck s u.val = false →
      let stopped := x.stopping.isSome
      let waits := !slotsDone s d p || (descOp x == opMove && movesOpen s d)
        || (decide (162 ≤ u.val) && noNewWork s ⟨(u.val - 162) % 4, Nat.mod_lt _ (by decide)⟩)
      (stopped = false → inReplay s d u.val = true → exec (.partEnd d u e) s = .next s) ∧
      (stopped = false → e ≠ .failed → waits = true → exec (.partEnd d u e) s = .next s) ∧
      (stopped = true ∨ (inReplay s d u.val = false ∧ (e = .failed ∨ waits = false)) →
        exec (.partEnd d u e) s = .next (endPart s d x p (e == .failed)) ∧
        ((x.parts.filter fun q => q.unit != u.val) ≠ [] → ∃ t y, exec (.partEnd d u e) s = .next t ∧ t.desc? d = some y ∧
          y.parts = (x.parts.filter fun q => q.unit != u.val) ∧ (y.ended.map PartState.unit) = x.ended.map PartState.unit ++ [u.val]))) ∧
    (isAmax x = true → x.phase = .finishing → recordRoom s = true → x.stopping = none →
      let w := runningPass x
      let spoiled := x.ended.any fun p => p.spoiled
      let data := (amaxWrites w x.amax (descStep x)).1
      let ws := if spoiled then spoilData (passFixed (hostEnv s x) w 0 0) s.free data else data
      let s' := { s with free := s.free + if spoiled then dataLen data else 0 }
      let outs := (amaxOuts w).all fun r => vaOk (oldView s x.ctx) x.ctx .write r.1 r.2
      (outs = true → exec (.amaxMerge d) s = .next (finishDesc (updDesc
        (ws.foldl (fun s v => (vaWriteOld s x.ctx v.1 v.2).getD s) s') d fun y => { y with
          tallies := { y.tallies with inlayDropped := sat32 (y.tallies.inlayDropped + (amaxWrites w x.amax (descStep x)).2) } }) d)) ∧
      (outs = false → exec (.amaxMerge d) s = .next (concludeDesc s d stPartial)))

/-- The hang commands. -/
def Obligations.HangsAreHandled : Prop :=
  ∀ s : State,
    (∀ t : Slot,
      let x := s.slot t
      let p := slotPanel t
      let due := x.running && !x.stopped && (slotLate s t || panelDue s p x.progress s.glb.slotWin.toNat)
      (due = false → exec (.hangSlot t) s = .next s) ∧
      (due = true → ∃ u, exec (.hangSlot t) s = .next u ∧ (u.panel p).hangs = sat64 ((s.panel p).hangs + 1) ∧
        ∀ k ∈ partSlots s t, (u.slot k).stopped = true ∧ (u.slot k).hold = .free)) ∧
    (∀ (q : Queue) c, queueCtx s q = some c →
      let x := s.queue q
      let win := msTicks s.glb.queueWin.toNat
      let due := x.enable && (x.head != x.done || x.tail != x.head) && !queueExempt s q win && elapsed s (queueProgress s q) win
      (due = false → exec (.hangQueue q) s = .next s) ∧
      (due = true →
        let u := raiseEv s evHangQueue srcQmg [q.val, x.head.toNat + 2 ^ 32 * x.done.toNat] (some c)
        exec (.hangQueue q) s = .next (ctxRung c evHangQueue (if elapsed s s.qmg.progress win && !unitStuck s 170 then unitRung .queueManager evHangQueue u else u)) ∧
        ((s.ctx c).phase = .opened → (s.ctx c).rung = false → ∃ v, exec (.hangQueue q) s = .next v ∧ (v.ctx c).rung = true ∧
          rungOn v (.context c) = true))) ∧
    (∀ c k,
      let due := engineDue s c k && (s.core c).replay.isNone && !unitStuck s c.val
      (due = false → exec (.hangEngine c k) s = .next s) ∧
      (due = true → ∃ u, exec (.hangEngine c k) s = .next u ∧
        (rungOn u (.engine c k) = true ∨ ((u.engine c k).queue = [] ∧ (u.engine c k).inc = (s.engine c k).inc + 1)))) ∧
    (∀ u c, servedCtx s u = some c →
      let due := !unitStuck s (unitNum u) && (unitLate s u ||
        (!unitExempt s u && elapsed s (unitProgress s u) (msTicks s.glb.engineWin.toNat)))
      let src := BitVec.ofNat 16 (unitNum u)
      let v := raiseEv (noteHang s u) evHangEngine src [1, (unitInc s u + 1).toNat] (some c)
      (due = false → exec (.unitHang u) s = .next s) ∧
      (due = true → (unitHangs (noteHang s u) u).length < 3 →
        let z := unitRung u evHangEngine v
        exec (.unitHang u) s = .next (if unitStuck z (unitNum u) then z else ctxRung c evHangEngine z) ∧
        ∃ w, exec (.unitHang u) s = .next w ∧ (rungOn w (.unit u) = true ∨ unitInc w u = unitInc s u + 1)) ∧
      (due = true → 3 ≤ (unitHangs (noteHang s u) u).length →
        exec (.unitHang u) s = .next (escalate v evResetChip src [evHangEngine.toNat] (startChip evHangEngine src)))) ∧
    (∀ c r d n x p, (s.core c).replay = some r → r.running = some (d, n) → s.desc? d = some x →
      (x.parts.find? fun p => p.unit == n) = some p → x.stopping = none →
      (replayHung s c d p = true → exec (.replayEnd c true) s = .next (replayGuilty s c r d x p)) ∧
      (replayHung s c d p = false → exec (.replayEnd c true) s = .next s) ∧
      (slotsDone s d p = true → recordRoom s = true → exec (.replayEnd c false) s = .next (replayPassed s c r d x p)) ∧
      (slotsDone s d p = false → exec (.replayEnd c false) s = .next s)) ∧
    ∀ c hung, (s.core c).replay = none → exec (.replayEnd c hung) s = .next s

/-- GLB.RSTREQ and the rungs. -/
def Obligations.RungsRun : Prop :=
  ∀ s : State,
    (∀ tgt sub, hostUp s = true → s.sec.lock = false →
      ∀ i ∈ [Instr.rstreqDump, .rstreqContext tgt, .rstreqEngine tgt sub, .rstreqPanel tgt, .rstreqChip, .rstreqPowerCycle],
        exec i s = .next { s with sec := { s.sec with lockViol := s.sec.lockViol + 1 } }) ∧
    (hostUp s = true → s.sec.lock = true →
      exec .rstreqDump s = .next (chipDumps s 0 0 srcModule) ∧
      (∀ c : Ctx, (s.ctx c).phase = .opened → (s.ctx c).rung = false →
        ∃ t, exec (.rstreqContext (BitVec.ofNat 16 c.val)) s = .next t ∧ (t.ctx c).rung = true ∧ rungOn t (.context c) = true) ∧
      (∀ (c : Core) k sub, engineOf sub = some k → (s.core c).replay = none → unitStuck s c.val = false →
        ∃ t, exec (.rstreqEngine (BitVec.ofNat 16 c.val) sub) s = .next t ∧
          (rungOn t (.engine c k) = true ∨ ((t.engine c k).queue = [] ∧ (t.engine c k).inc = (s.engine c k).inc + 1))) ∧
      (∀ tgt sub u, unitOfSrc tgt.toNat = some u → unitStuck s tgt.toNat = false →
        ∃ t, exec (.rstreqEngine tgt sub) s = .next t ∧ (rungOn t (.unit u) = true ∨ unitInc t u = unitInc s u + 1)) ∧
      (∀ p : Panel, p ≠ 0 → rungOn s (.panel p) = false → rungOn s .chip = false → recent s (secTicks 60) (s.panel p).rungs = [] →
        ∃ t, exec (.rstreqPanel (BitVec.ofNat 16 p.val)) s = .next t ∧ (t.panel p).state = 1 ∧ rungOn t (.panel p) = true ∧
          (t.memCtl p).inReset = true) ∧
      (rungOn s .chip = false → (recent s (secTicks 600) s.glb.chipRungAt).length < 2 →
        ∃ t, exec .rstreqChip s = .next t ∧ rungOn t .chip = true ∧ ∀ p, (t.panel p).state = 1 ∧ (t.memCtl p).inReset = true) ∧
      (s.pwr.pwrCycleReq = false → ∃ t, exec .rstreqPowerCycle s = .next t ∧ t.pwr.pwrCycleReq = true)) ∧
    (∀ p : Panel,
      (rungOn s (.panel p) = false → exec (.panelRung p) s = .next s) ∧
      (rungOn s (.panel p) = true → ∃ t, exec (.panelRung p) s = .next t ∧ (t.panel p).state = 0 ∧
        (t.panel p).inc = (s.panel p).inc + 1 ∧ (t.panel p).comparators = [] ∧ (t.panel p).sync = [] ∧ rungOn t (.panel p) = false ∧
        (t.memCtl p).inReset = false ∧ t.glb.pnlRungs = count16 s.glb.pnlRungs ∧ (∀ k, slotPanel k = p → t.slot k = {}) ∧
        ∀ c off n, corePanel c = p → off + n ≤ benchSize → benchRead t c off n = List.replicate n 0)) ∧
    (rungOn s .chip = true → (s.panel 0).state = 1 → ∃ t, exec .chipRung s = .next t ∧ t.qmg = {} ∧ t.jobs = [] ∧ t.slots = [] ∧
      t.cores = [] ∧ t.sec.lock = false ∧ t.sec.fuses = s.sec.fuses ∧ t.glb.lastRung = 4 ∧ t.glb.chipRungs = count16 s.glb.chipRungs ∧
      ∀ p, (t.panel p).state = 0 ∧ (t.memCtl p).inReset = false) ∧
    (∀ c, s.glb.powerRung = some c → ∃ t, exec .powerCycleRung s = .next t ∧ t.glb.powerRung = none ∧
      (s.glb.pwrCycleEn = true → t.pwr.pwrCycleReq = true) ∧
      (s.glb.pwrCycleEn = false → t.sec.lock = s.sec.lock ∧ t.qmg = {} ∧ t.slots = [])) ∧
    (s.glb.powerRung = none → exec .powerCycleRung s = .next s) ∧
    ∀ r x, rungRun s r = some x →
      (∀ c, r = .context c → exec (.rungTimeout r) s = .next (if contextLate s c then
        (if s.glb.autoEsc then engineRungs c (dropRung s r) else engineWaits c (dropRung s r)) else s)) ∧
      (∀ c k, r = .engine c k → elapsed s x.since (msTicks 1) = true → s.glb.escWait = false →
        exec (.rungTimeout r) s = .next (engineToPanel (corePanel c) evResetEngine (srcCore c) s)) ∧
      (∀ p, r = .unit (.update p) → elapsed s x.since (msTicks 1) = true → s.glb.escWait = false →
        exec (.rungTimeout r) s = .next (engineToPanel p evResetEngine (BitVec.ofNat 16 (162 + p.val)) s)) ∧
      (∀ u, r = .unit u → unitOwner u = none → elapsed s x.since (msTicks 1) = true → s.glb.escWait = false →
        exec (.rungTimeout r) s = .next (escalate s evResetChip (BitVec.ofNat 16 (unitNum u)) [evResetEngine.toNat]
          (startChip evResetEngine (BitVec.ofNat 16 (unitNum u))))) ∧
      (∀ c k, r = .engine c k → elapsed s x.since (msTicks 1) = false → exec (.rungTimeout r) s = .next s) ∧
      (∀ p, r = .panel p → exec (.rungTimeout r) s = .next (if elapsed s x.since (msTicks 10) && !s.glb.escWait then
        panelToChip p evResetPanel (srcBench p) s else s)) ∧
      (r = .chip → s.glb.autoEsc = true → s.glb.escWait = false → elapsed s x.since (secTicks 3) = true →
        ∃ t, exec (.rungTimeout r) s = .next t ∧ t.glb.powerRung.isSome = true) ∧
      (r = .chip → elapsed s x.since (secTicks 3) = false → exec (.rungTimeout r) s = .next s)

/-- The event paths, the I3C messages, and the risk score. -/
def Obligations.EventsAreReadAndSent : Prop :=
  ∀ s : State,
    (benchUp s = false → exec .eventRingScan s = .next s ∧ ∀ n, exec (.logFlush n) s = .next s) ∧
    (benchUp s = true → ∃ t, exec .eventRingScan s = .next t ∧ (∀ p, (t.path (.panel p)).recs = [] ∧ (t.path (.panel p)).ring = (s.path (.panel p)).ring) ∧
      ∀ n ∈ [PathName.chipLog, .host, .i3c], (t.path n).cnt.offered = (s.path n).cnt.offered
        + (([0, 1, 2, 3] : List Panel).map fun p => (((s.path (.panel p)).recs.filter fun e => !e.summary).map EvRec.count).sum).sum) ∧
    (∀ n e, benchUp s = true → (s.path n).tab = [e] → (s.path n).cnt.drop = (s.path n).summed →
      (evAdmits s n (evPrio e.code) = true → ∃ t, exec (.logFlush n) s = .next t ∧ (t.path n).tab = [] ∧
        (t.path n).written = (s.path n).written + 1 ∧ (t.path n).cnt.folded = (s.path n).cnt.folded + e.count ∧
        (t.path n).cnt.pending = (s.path n).cnt.pending - e.count) ∧
      (evAdmits s n (evPrio e.code) = false → exec (.logFlush n) s = .next s)) ∧
    (∀ n, benchUp s = true → (s.path n).tab = [] →
      let due : Bool := match (s.path n).summedAt with
        | some t => elapsed s t (msTicks 1)
        | none => true
      ((s.path n).cnt.drop ≠ (s.path n).summed → 1 ≤ evFree s n → due = true →
        exec (.logFlush n) s = .next (evWrite (s.setPath n { s.path n with
          summed := (s.path n).cnt.drop, summedAt := some s.now }) n (evSummary s n))) ∧
      ((s.path n).cnt.drop = (s.path n).summed ∨ evFree s n = 0 ∨ due = false → exec (.logFlush n) s = .next s)) ∧
    (hostUp s = true → s.sec.lock = true → ∀ v,
      (∃ t, exec (.logackWrite v) s = .next t ∧ (t.path .chipLog).ack = v.toNat % 2 ^ 32) ∧
      (∃ t, exec (.evqackWrite v) s = .next t ∧ (t.path .host).ack = v.toNat % 2 ^ 32) ∧
      (s.ev.evqEnable = false → v.getLsbD 5 = true → ∃ t, exec (.evqEnable v) s = .next t ∧ t.ev.evqEnable = true ∧
        t.ev.evqLog2 = max 10 (min 20 (v.toNat % 32)) ∧ t.ev.host = { s.ev.host with written := 0, ack := 0 } ∧
        t.ev.evqTrace = v.getLsbD 6 ∧ t.ev.evqVector = v.extractLsb' 7 11 ∧ t.ev.evqWindow = none)) ∧
    (s.pwr.pwrGood = false ∨ s.ev.i3c.recs = [] → exec .i3cSend s = .next s) ∧
    (s.pwr.pwrGood = true → s.ev.i3c.recs ≠ [] → (∀ e ∈ s.ev.i3c.recs, evPrio e.code < 4) → ∃ e i, s.ev.i3c.recs[i]? = some e ∧
      (∀ x ∈ s.ev.i3c.recs, evPrio e.code ≤ evPrio x.code) ∧
      exec .i3cSend s = .next { s with
        ev := { s.ev with i3c := { s.ev.i3c with recs := s.ev.i3c.recs.eraseIdx i } }, out := s.out ++ [.mctp e] }) ∧
    (s.pwr.pwrGood = true →
      let due : Bool := match s.ev.beatAt with
        | some t => elapsed s t (msTicks 100)
        | none => true
      (due = true → s.sec.lock = true →
        exec .mctpHeartbeat s = .next { s with ev := { s.ev with beatAt := some s.now }, out := s.out ++ [.heartbeat false] }) ∧
      (due = true → s.sec.lock = false → s.sec.boot = .reset ∨ s.sec.boot = .recovery →
        exec .mctpHeartbeat s = .next { s with ev := { s.ev with beatAt := some s.now }, out := s.out ++ [.heartbeat true] }) ∧
      (due = false → exec .mctpHeartbeat s = .next s)) ∧
    ∀ vin,
      (benchUp s = false ∨ riskDue s = false → exec (.riskCompute vin) s = .next s) ∧
      (benchUp s = true → riskDue s = true →
        let l := riskParts (setVin s vin)
        let top := l.foldl max 0
        let score := min 255 (top + (l.sum - top) / 4)
        ∃ t, exec (.riskCompute vin) s = .next t ∧ t.glb.score.toNat = score ∧ t.glb.cMem.toNat = nth l 0 ∧ t.glb.cBer.toNat = nth l 1 ∧
          t.glb.cUnc.toNat = nth l 2 ∧ t.glb.cVolt.toNat = nth l 3 ∧ t.glb.cTemp.toNat = nth l 4 ∧ t.glb.cNbr.toNat = nth l 5 ∧
          t.glb.maxScore.toNat = max (setVin s vin).glb.maxScore.toNat score ∧
          t.ev = (if score / 32 = (setVin s vin).glb.score.toNat / 32 then setVin s vin else raiseEv (setVin s vin) 0x0307 166).ev)

/-- Boot, the lock, and register accesses. -/
def Obligations.BootAndRegisters : Prop :=
  (∀ s : State, s.pwr.pwrGood = true →
    let boots (u : State) (b fallback trial : Bool) : State :=
      if slotOk u b then runSlot u b fallback trial else if slotOk u (!b) then runSlot u (!b) true false
      else mailUp { u with sec := { u.sec with boot := .recovery, fwFallback := true } }
    (s.sec.boot ≠ .reset → exec .plinthBoot s = .next s) ∧
    (s.sec.boot = .reset →
      (selInForce s = none → exec .plinthBoot s = .next (boots (writeSel s false false false) false true false)) ∧
      ∀ c x, selInForce s = some (c, x) → exec .plinthBoot s = .next
        (if x.try_ then if x.attempted then boots (writeSel s (!x.active) false false) (!x.active) false false
          else boots (writeSel s x.active true true) x.active false true
        else boots s x.active false false)) ∧
    (∀ b fb tr, let u := runSlot s b fb tr
      u.sec.boot = .checking ∧ u.sec.slotB = b ∧ u.sec.fwFallback = fb ∧ u.sec.tryRun = tr ∧
        u.sec.fwVersion = BitVec.ofNat 32 (flashNat s (slotBase b + 8) 4)) ∧
    (s.sec.boot = .checking → s.sec.lock = false →
      let r (one : Bool) := blobReason s (flashBlob s one)
      let one := if r false = 0 then r true = 0 ∧ blobSeq (flashBlob s false) < blobSeq (flashBlob s true) else True
      (∀ k : Bool, r k = 0 → (k = true ↔ one) → ∃ t, exec .configLock s = .next t ∧ t.sec.lock = true ∧ t.sec.boot = .locked ∧
        t.sec.cfgSeq = BitVec.ofNat 64 (blobSeq (flashBlob s k)) ∧ t.sec.cfgFallback = ((r false = 0) != (r true = 0)) ∧
        t.sec.protDebug = BitVec.ofNat 8 (blobNat (flashBlob s k) 68 1) ∧ t.sec.protIde = BitVec.ofNat 8 (blobNat (flashBlob s k) 69 1) ∧
        t.lnk.enable = BitVec.ofNat 32 (blobNat (flashBlob s k) 64 4) ∧
        (∀ i, i < 64 → (tabGet 0 t.sec.regions i) = BitVec.ofNat 64 (blobNat (flashBlob s k) (128 + 16 * i) 8)) ∧
        (∀ c, c < 1024 → (tabGet 0 t.sec.bind c) = BitVec.ofNat 64 (blobNat (flashBlob s k) (1152 + 8 * c) 8)) ∧ rungOn t .chip = false) ∧
      (r false ≠ 0 → r true ≠ 0 → ∃ t, exec .configLock s = .next t ∧ t.sec.lock = false ∧ t.sec.boot = .refused ∧
        t.sec.cfgReason = BitVec.ofNat 3 (r false) ∧ rungOn t .chip = false ∧
        ∀ l, (t.link l).target = 1 ∧ ((s.link l).phase = .off ∨ (s.link l).phase = .down →
          (t.link l).phase = .detect ∧ (t.link l).step = 1 ∧ (t.link l).stepAt = s.now))) ∧
    (s.sec.boot ≠ .checking → exec .configLock s = .next s) ∧
    (∀ (off : BitVec 22) v, hostUp s = true →
      (s.sec.lock = false → exec (.registerWrite off v) s = .next { s with sec := { s.sec with lockViol := s.sec.lockViol + 1 } }) ∧
      (s.sec.lock = true → exec (.registerWrite off v) s = .next (if off.toNat % 8 = 0 then regWrite off.toNat v s
        else { s with glb := { s.glb with
          accErr := if s.glb.accErr = 0xFFFFFFFF then 0xFFFFFFFF else s.glb.accErr + 1, accLast := off } }))) ∧
    (∀ p v, hostUp s = true → s.sec.lock = true →
      (v.extractLsb' 0 40 ≠ BitVec.allOnes 40 →
        exec (.coreFenceWrite p v) s = .next (s.setPanel p { s.panel p with fence := v.extractLsb' 0 40 })) ∧
      (v.extractLsb' 0 40 = BitVec.allOnes 40 → ∃ t, exec (.coreFenceWrite p v) s = .next t ∧ t.panels = s.panels ∧
        t.glb.accLast = BitVec.ofNat 22 (0x20008 + 0x10000 * p.val))) ∧
    ∀ a : Bar0Access, hostUp s = true →
      let ok := (a.size == 8 && a.off.toNat % 8 == 0) || (a.size == 4 && a.off.toNat % 4 == 0 && !a.write)
      let word := regRead (a.off.toNat / 8 * 8) s
      (ok = true → a.write = true → exec (.bar0AccessRefused a) s = .next s) ∧
      (ok = true → a.write = false → ∃ t, exec (.bar0AccessRefused a) s = .next t ∧ t.glb = s.glb ∧
        t.out = s.out ++ [.bar0 (if a.size = 8 then word
          else if a.off.toNat % 8 = 0 then (word.extractLsb' 0 32).setWidth 64 else (word.extractLsb' 32 32).setWidth 64)]) ∧
      (ok = false → (a.write = false ∨ s.sec.lock = true) → ∃ t, exec (.bar0AccessRefused a) s = .next t ∧ t.glb.accLast = a.off ∧
        (s.glb.accErr ≠ 0xFFFFFFFF → t.glb.accErr = s.glb.accErr + 1) ∧ (a.write = false → t.out = s.out ++ [.bar0 0]) ∧
        (a.write = true → t.out = s.out)))

/-- The host mailbox. -/
def Obligations.MailboxRequestsAnswered : Prop :=
  ∀ (s : State) (r : MailRequest),
    let reply (u : State) (result : BitVec 16) (l : List Byte) : Host.Outcome State Fault Refusal :=
      .next { u with out := u.out ++ [.mail r.tag result l] }
    -- a write of the flash begins: its request is answered when the flash has taken it
    let begins (u : State) (base : Nat) (l : List Byte) : Host.Outcome State Fault Refusal :=
      .next { u with
        sec := { u.sec with flashJob := some ⟨r.tag, base, l, u.now, Config.flashTicks u.free⟩ }
        free := u.free + 1 }
    let all := [Instr.status r, .configLoad r, .fwWrite r, .fwActivate r, .fwConfirm r, .ownerFuse r, .debugToken r, .reboot r]
    (mailAnswers s = false → ∀ i ∈ all, exec i s = .next s) ∧
    (mailAnswers s = true → s.sec.flashJob.isSome = true → ∀ i ∈ all, exec i s = reply s 5 []) ∧
    (∀ j, s.sec.flashJob = some j → j.since + j.span < s.now →
      let u := flashWrite { s with sec := { s.sec with flashJob := none } } j.base j.data
      flashTick s = { u with out := s.out ++ [.mail j.tag 0 []] }) ∧
    (mailAnswers s = true → s.sec.flashJob = none → mailForm r = false → ∀ i ∈ all, exec i s = reply s 1 []) ∧
    (mailAnswers s = true → s.sec.flashJob = none → mailForm r = true → s.sec.boot = .recovery →
      ∀ i ∈ [Instr.configLoad r, .fwConfirm r, .ownerFuse r, .debugToken r], exec i s = reply s 2 []) ∧
    (mailAnswers s = true → s.sec.flashJob = none → mailForm r = true →
      (let n := freshNonce s.free;
        exec (.status r) s = reply { s with sec := { s.sec with nonce := some n }, free := s.free + 4 } 0
          (wordBytes [bootStat s, fwVer s, s.sec.cfgSeq.toNat] ++ leBytes 32 n.toNat)) ∧
      (let off := ofLE (r.payload.take 8);
        let data := r.payload.drop 8;
        (s.pwr.flashWp = true → exec (.fwWrite r) s = reply s 4 []) ∧
        (s.pwr.flashWp = false → (r.payload.length < 8 ∨ slotBytes < off + data.length) → exec (.fwWrite r) s = reply s 1 []) ∧
        (s.pwr.flashWp = false → 8 ≤ r.payload.length → off + data.length ≤ slotBytes →
          exec (.fwWrite r) s = begins s (slotBase (writeSlot s r) + off) data)) ∧
      (exec (.fwActivate r) s = if slotOk s (!namedSlot s) then reply (writeSel s (!namedSlot s) true false) 0 [] else reply s 3 []) ∧
      (exec (.reboot r) s = .next (startChip evResetChip srcModule { s with out := s.out ++ [.mail r.tag 0 []] })) ∧
      (s.sec.boot ≠ .recovery →
        (∀ c x, selInForce s = some (c, x) → x.try_ = true →
          let u := writeSel s x.active false false
          let fuses := if r.flags.getLsbD 0 then { s.sec.fuses with svn := blowSvn s.sec.fwSvn.toNat s.sec.fuses.svn } else s.sec.fuses
          exec (.fwConfirm r) s = reply { u with sec := { s.sec with tryRun := false, fuses := fuses } } 0 []) ∧
        ((∀ c x, selInForce s = some (c, x) → x.try_ = false) → exec (.fwConfirm r) s = reply s 2 []) ∧
        (let k := (r.flags.extractLsb' 0 2).toNat;
          (s.sec.boot ≠ .refused ∨ (tabFind s.sec.fuses.owner k).isSome = true → exec (.ownerFuse r) s = reply s 2 []) ∧
          (s.sec.boot = .refused → tabFind s.sec.fuses.owner k = none → r.payload.length ≠ 512 → exec (.ownerFuse r) s = reply s 1 []) ∧
          (s.sec.boot = .refused → tabFind s.sec.fuses.owner k = none → r.payload.length = 512 →
            exec (.ownerFuse r) s = reply { s with sec := { s.sec with
              fuses := { s.sec.fuses with owner := tabPut s.sec.fuses.owner k (sha512 r.payload) } } } 0 [])) ∧
        ((s.sec.lock = false ∨ s.sec.protDebug ≠ 1) → exec (.debugToken r) s = reply s 2 []) ∧
        (s.sec.lock = true → s.sec.protDebug = 1 → tokenOk s r.payload = false → exec (.debugToken r) s = reply s 3 []) ∧
        (s.sec.lock = true → s.sec.protDebug = 1 → tokenOk s r.payload = true →
          exec (.debugToken r) s = reply { s with sec := { s.sec with
            debugOpen := true, sealed_ := true, ideKeys := [], ioSecure := false, cmSecure := false } } 0 []) ∧
        (let reason := blobReason s r.payload;
          let stored (u : State) : Host.Outcome State Fault Refusal := if u.pwr.flashWp then reply u 4 []
            else begins u (copyBase (spareCopy u)) r.payload;
          (r.flags.getLsbD 1 = true → exec (.configLoad r) s =
            if reason ≠ 0 then reply { s with sec := { s.sec with cfgReason := BitVec.ofNat 3 reason } } 3 [] else stored s) ∧
          (r.flags.getLsbD 1 = false → (s.sec.boot ≠ .refused ∨ s.sec.lock = true) → exec (.configLoad r) s = reply s 2 []) ∧
          (r.flags.getLsbD 1 = false → s.sec.boot = .refused → s.sec.lock = false →
            (reason ≠ 0 → exec (.configLoad r) s = reply { s with sec := { s.sec with cfgReason := BitVec.ofNat 3 reason } } 3 []) ∧
            (reason = 0 →
              let u := lockConfig { s with sec := { s.sec with cfgReason := 0 } } r.payload
              exec (.configLoad r) s = if r.flags.getLsbD 0 then stored u else reply u 0 [])))))

/-- The SPDM responder and IDE. -/
def Obligations.AttestationAnswers : Prop :=
  ∀ s : State,
    let errs (u : State) : Host.Outcome State Fault Refusal := .next { u with out := u.out ++ [.spdm false []] }
    let good (u : State) (l : List Byte) : Host.Outcome State Fault Refusal := .next { u with out := u.out ++ [.spdm true l] }
    let signs (u : State) (l : List Byte) : Host.Outcome State Fault Refusal :=
      if u.sec.sealed_ then errs u else good { u with free := u.free + 1 } (l ++ Config.identitySign u.free l)
    (mailAnswers s = false → ∀ i ∈ [Instr.getDigests, .getCertificate 0 0 1, .challenge 0 0, .getMeasurements 1 0, .keyExchange 0 [],
      .finish 0 [], .keyUpdate 0 1, .heartbeat 0, .endSession 0, .ideKmKeyProg 0 ⟨.io, false, false⟩ 0, .kSetGo 0 ⟨.io, false, false⟩],
      exec i s = .next s) ∧
    (mailAnswers s = true →
      (servedChain s = none → exec .getDigests s = errs s ∧ (∀ a b c, exec (.getCertificate a b c) s = errs s) ∧
        ∀ a n, exec (.challenge a n) s = errs s) ∧
      (∀ l, servedChain s = some l → exec .getDigests s = good s (sha512 l) ∧
        (∀ off n, off < l.length → exec (.getCertificate 0 off n) s = good s ((l.drop off).take n)) ∧
        (∀ a off n, a ≠ 0 ∨ l.length ≤ off → exec (.getCertificate a off n) s = errs s) ∧
        (∀ n, exec (.challenge 0 n) s = signs s (sha512 l ++ leBytes 32 n.toNat)) ∧ ∀ a n, a ≠ 0 → exec (.challenge a n) s = errs s) ∧
      (∀ i n, exec (.getMeasurements i n) s = if 1 ≤ i ∧ i ≤ 8 then signs s (dmtfBlock i (measValue s i) ++ leBytes 32 n.toNat) else errs s) ∧
      (∀ id x, (s.sec.sealed_ = true ∨ x.length ≠ 96 ∨ ecOfBytes x = none → exec (.keyExchange id x) s = errs s) ∧
        (∀ p, s.sec.sealed_ = false → ecOfBytes x = some p →
          let full : W32 := (Config.freeWord s.free).setWidth 16 ++ id
          exec (.keyExchange id x) s = signs { s with
            free := s.free + 7
            sec := { s.sec with sessions :=
              { sid := full, established := false, keyGen := 0, secret := exchangeSecret (s.free + 1) (some p) }
                :: s.sec.sessions.filter fun z => z.sid != full } }
            (leBytes 4 full.toNat ++ exchangeValue (s.free + 1) ++ x))) ∧
      (∀ id verify, (findSession s id = none → exec (.finish id verify) s = errs s) ∧
        ∀ x, findSession s id = some x → exec (.finish id verify) s =
          if !x.established && Config.finishOk x.secret id verify then good (setSession s { x with established := true }) []
          else errs (dropSession s id)) ∧
      (∀ id, ((∀ x, findSession s id = some x → x.established = false) →
          ∀ op k key, exec (.keyUpdate id op) s = errs s ∧ exec (.heartbeat id) s = errs s ∧ exec (.endSession id) s = errs s ∧
            exec (.ideKmKeyProg id k key) s = errs s ∧ exec (.kSetGo id k) s = errs s) ∧
        ∀ x, findSession s id = some x → x.established = true →
          exec (.heartbeat id) s = good s [] ∧ exec (.endSession id) s = good (dropSession s id) [] ∧
          (∀ op, exec (.keyUpdate id op) s = if op = 1 ∨ op = 2 then good (setSession s { x with keyGen := x.keyGen + 1 }) []
            else if op = 3 then good s [] else errs s) ∧
          (∀ k key, exec (.ideKmKeyProg id k key) s = good { s with sec := { s.sec with
            ideKeys := { slot := k, key := key, go := false } :: s.sec.ideKeys.filter fun y => decide (y.slot ≠ k) } } []) ∧
          (∀ k, (s.sec.protIde = 0 ∨ ∀ y ∈ s.sec.ideKeys, y.slot ≠ k) → exec (.kSetGo id k) s = errs s) ∧
          ∀ k y, s.sec.protIde ≠ 0 → y ∈ s.sec.ideKeys → y.slot = k → ∃ t, exec (.kSetGo id k) s = .next t ∧
            t.sec.ideKeys = s.sec.ideKeys.map (fun z => if z.slot = k then { z with go := true }
              else if z.slot.stream = k.stream ∧ z.slot.rx = k.rx then { z with go := false } else z) ∧
            t.sec.ioSecure = (ideGo t .io false && ideGo t .io true) ∧ t.sec.cmSecure = (ideGo t .cacheMem false && ideGo t .cacheMem true) ∧
            (broken s k.stream = true → ideSecure t k.stream = true → broken t k.stream = false ∧
              (s.qmg.portUp = true → broken s (if k.stream = .io then .cacheMem else .io) = false → t.qmg.cxlUp = true)) ∧
            (broken s k.stream = false ∨ ideSecure t k.stream = false → t.qmg = s.qmg))) ∧
    ∀ i,
      let secure := match i with
        | .io => s.sec.ioSecure
        | .cacheMem => s.sec.cmSecure
      (secure = false → exec (.ideIntegrityFail i) s = .next s) ∧
      (secure = true → ∃ t, exec (.ideIntegrityFail i) s = .next t ∧ t.qmg = { s.qmg with cxlUp := false } ∧
        (s.sec.ideFail ≠ 0xFFFFFFFF → t.sec.ideFail = s.sec.ideFail + 1) ∧ (∀ rx, ideGo t i rx = false) ∧ ideSecure t i = false ∧
        (match i with
          | .io => t.sec.ioSecure
          | .cacheMem => t.sec.cmSecure) = false ∧
        broken t i = true ∧ ∀ k, k ≠ i → broken t k = broken s k)

/-- What writes of the set-up registers store (R443, R468), and that a write elsewhere is ignored (R488). That SLOT_WIN and QUEUE_WIN of 0
are stored as 1 is the model's choice (log entry 62). -/
def Obligations.RegisterWritesStoreOrAreIgnored : Prop :=
  ∀ (s : State) (v : W64), hostUp s = true → s.sec.lock = true →
    let put (off : BitVec 22) (t : State) : Prop := exec (.registerWrite off v) s = .next t
    put 0x48 { s with glb := { s.glb with
      slotWin := if v.extractLsb' 0 8 = 0 then 1 else v.extractLsb' 0 8
      queueWin := if v.extractLsb' 8 8 = 0 then 1 else v.extractLsb' 8 8
      engineWin := if v.extractLsb' 16 8 = 0 ∨ v.extractLsb' 16 8 = 1 then 2 else v.extractLsb' 16 8
      replayEn := v.getLsbD 24, autoEsc := v.getLsbD 25, pwrCycleEn := v.getLsbD 26 } } ∧
    put 0x40 { s with glb := { s.glb with maxScore := s.glb.maxScore &&& ~~~(v.extractLsb' 56 8) } } ∧
    put 0x80 { s with glb := { s.glb with
      dumpRegion := v.extractLsb' 0 2, dumpPanel := v.extractLsb' 2 2, dumpOffset := v.extractLsb' 16 10 } } ∧
    put 0x88 { s with glb := { s.glb with dumpAck := v } } ∧
    put 0xA0 { s with ev := { s.ev with i3cEn := v.getLsbD 0, i3cWarn := v.getLsbD 1 } } ∧
    put 0x60000 { s with qmg := { s.qmg with csel := (v.extractLsb' 0 10).toFin } } ∧
    put 0x60080 { s with qmg := { s.qmg with gsel := (v.extractLsb' 0 10).toFin } } ∧
    put 0x60100 { s with qmg := { s.qmg with qsel := (v.extractLsb' 0 16).toFin } } ∧
    put 0x81000 { s with pwr := { s.pwr with limit :=
      let w := (v.extractLsb' 0 11).toNat
      if w < 800 then 800 else if 1600 < w then 1600 else w } } ∧
    put 0x81020 { s with pwr := { s.pwr with drillMark := v } } ∧
    ∀ off : BitVec 22,
      let n := off.toNat
      n % 8 = 0 →
      (n < 0x10000 ∧ n ∉ [0x40, 0x48, 0x50, 0x80, 0x88, 0x98, 0xA0]) ∨ (0x10000 ≤ n ∧ n < 0x20000) ∨
      (0x20000 ≤ n ∧ n < 0x60000 ∧ n % 0x10000 ≠ 8) ∨
      (0x60000 ≤ n ∧ n < 0x70000 ∧ n - 0x60000 ∉ [0, 0x8, 0x10, 0x18, 0x20, 0x28, 0x80, 0x88, 0x100, 0x108, 0x110, 0x118, 0x128,
        0x200, 0x208, 0x218]) ∨
      (0x70000 ≤ n ∧ n < 0x80000 ∧ n ≠ 0x70000 ∧ ¬ (0x71000 ≤ n ∧ n < 0x72000 ∧ n % 0x80 = 0)) ∨
      (0x80000 ≤ n ∧ n < 0x81000 ∧ n - 0x80000 ∉ [0, 8]) ∨ (0x81000 ≤ n ∧ n < 0x82000 ∧ n - 0x81000 ∉ [0, 0x20, 0x28]) ∨
      (0x82000 ≤ n ∧ n < 0x83000 ∧ n - 0x82000 ∉ [0x20, 0x30, 0x38] ∧ ¬ (0x82100 ≤ n ∧ n < 0x82300)) ∨
      (0x83000 ≤ n ∧ n < 0x84000 ∧ n ≠ 0x83000 ∧ ¬ (0x83100 ≤ n ∧ n < 0x83180)) ∨ 0x84000 ≤ n →
      put off s
end

