-- ==== Sys2Proof/Laws/Tab.lean ====
section
/-!
SUPPORT. The laws of sparse tables: what is read after an entry is put, and that the canonical form stands.
-/

namespace Sys2Proof.Machine

open Sys2Proof

section Tables

variable {α : Type}

@[simp] theorem tabErase_nil (k : Nat) : tabErase ([] : Tab α) k = [] := rfl

theorem tabErase_cons_same (k : Nat) (v : α) (t : Tab α) : tabErase ((k, v) :: t) k = tabErase t k := by
  simp [tabErase]

theorem tabErase_cons_ne {k' k : Nat} (h : k' ≠ k) (v : α) (t : Tab α) :
    tabErase ((k', v) :: t) k = (k', v) :: tabErase t k := by
  simp [tabErase, h]

@[simp] theorem tabErase_tabErase (t : Tab α) (k : Nat) : tabErase (tabErase t k) k = tabErase t k := by
  simp [tabErase]

theorem tabErase_comm (t : Tab α) (k k' : Nat) : tabErase (tabErase t k) k' = tabErase (tabErase t k') k := by
  simp only [tabErase, List.filter_filter]
  congr 1
  funext p
  exact Bool.and_comm _ _

/-- Nothing stands at an index that was erased. -/
theorem tabGet_tabErase_same (d : α) (t : Tab α) (k : Nat) : tabGet d (tabErase t k) k = d := by
  induction t with
  | nil => rfl
  | cons p t ih =>
    obtain ⟨k', v⟩ := p
    by_cases h : k' = k
    · subst h; rw [tabErase_cons_same]; exact ih
    · rw [tabErase_cons_ne h]; simp [tabGet, h, ih]

theorem tabGet_tabErase_ne (d : α) (t : Tab α) {k k' : Nat} (h : k' ≠ k) :
    tabGet d (tabErase t k) k' = tabGet d t k' := by
  induction t with
  | nil => rfl
  | cons p t ih =>
    obtain ⟨j, v⟩ := p
    by_cases hj : j = k
    · subst hj; rw [tabErase_cons_same, ih]; simp [tabGet, Ne.symm h]
    · rw [tabErase_cons_ne hj]; simp [tabGet, ih]

theorem tabFind_tabErase_same (t : Tab α) (k : Nat) : tabFind (tabErase t k) k = none := by
  induction t with
  | nil => rfl
  | cons p t ih =>
    obtain ⟨k', v⟩ := p
    by_cases h : k' = k
    · subst h; rw [tabErase_cons_same]; exact ih
    · rw [tabErase_cons_ne h]; simp [tabFind, h, ih]

theorem tabFind_tabErase_ne (t : Tab α) {k k' : Nat} (h : k' ≠ k) : tabFind (tabErase t k) k' = tabFind t k' := by
  induction t with
  | nil => rfl
  | cons p t ih =>
    obtain ⟨j, v⟩ := p
    by_cases hj : j = k
    · subst hj; rw [tabErase_cons_same, ih]; simp [tabFind, Ne.symm h]
    · rw [tabErase_cons_ne hj]; simp [tabFind, ih]

theorem tabGet_tabInsert_ne (d : α) (t : Tab α) {k k' : Nat} (v : α) (h : k' ≠ k) :
    tabGet d (tabInsert k v t) k' = tabGet d t k' := by
  induction t with
  | nil => simp [tabInsert, tabGet, Ne.symm h]
  | cons p t ih =>
    obtain ⟨j, w⟩ := p
    by_cases hj : k < j
    · simp [tabInsert, hj, tabGet, Ne.symm h]
    · simp [tabInsert, hj, tabGet, ih]

theorem tabFind_tabInsert_ne (t : Tab α) {k k' : Nat} (v : α) (h : k' ≠ k) :
    tabFind (tabInsert k v t) k' = tabFind t k' := by
  induction t with
  | nil => simp [tabInsert, tabFind, Ne.symm h]
  | cons p t ih =>
    obtain ⟨j, w⟩ := p
    by_cases hj : k < j
    · simp [tabInsert, hj, tabFind, Ne.symm h]
    · simp [tabInsert, hj, tabFind, ih]

theorem tabGet_tabInsert_erase (d : α) (t : Tab α) (k : Nat) (v : α) :
    tabGet d (tabInsert k v (tabErase t k)) k = v := by
  induction t with
  | nil => simp [tabInsert, tabGet]
  | cons p t ih =>
    obtain ⟨j, w⟩ := p
    by_cases h : j = k
    · subst h; rw [tabErase_cons_same]; exact ih
    · rw [tabErase_cons_ne h]
      by_cases hj : k < j
      · simp [tabInsert, hj, tabGet]
      · simp [tabInsert, hj, tabGet, h, ih]

theorem tabFind_tabInsert_erase (t : Tab α) (k : Nat) (v : α) :
    tabFind (tabInsert k v (tabErase t k)) k = some v := by
  induction t with
  | nil => simp [tabInsert, tabFind]
  | cons p t ih =>
    obtain ⟨j, w⟩ := p
    by_cases h : j = k
    · subst h; rw [tabErase_cons_same]; exact ih
    · rw [tabErase_cons_ne h]
      by_cases hj : k < j
      · simp [tabInsert, hj, tabFind]
      · simp [tabInsert, hj, tabFind, h, ih]

theorem tabErase_tabInsert (t : Tab α) (k : Nat) (v : α) : tabErase (tabInsert k v t) k = tabErase t k := by
  induction t with
  | nil => simp [tabInsert, tabErase]
  | cons p t ih =>
    obtain ⟨j, w⟩ := p
    by_cases hj : k < j
    · simp only [tabInsert, hj, if_true]; rw [tabErase_cons_same]
    · simp only [tabInsert, hj, if_false]
      by_cases h : j = k
      · subst h; rw [tabErase_cons_same, tabErase_cons_same, ih]
      · rw [tabErase_cons_ne h, tabErase_cons_ne h, ih]

variable [DecidableEq α]

/-- A read after an entry is set gives the entry. -/
@[simp] theorem tabGet_tabSet_same (d : α) (t : Tab α) (k : Nat) (v : α) : tabGet d (tabSet d t k v) k = v := by
  unfold tabSet
  split
  · next h => rw [tabGet_tabErase_same, h]
  · exact tabGet_tabInsert_erase d t k v

/-- Setting an entry leaves every other index alone. -/
theorem tabGet_tabSet_ne (d : α) (t : Tab α) {k k' : Nat} (v : α) (h : k' ≠ k) :
    tabGet d (tabSet d t k v) k' = tabGet d t k' := by
  unfold tabSet
  split
  · exact tabGet_tabErase_ne d t h
  · rw [tabGet_tabInsert_ne d _ v h, tabGet_tabErase_ne d t h]

theorem tabErase_tabSet (d : α) (t : Tab α) (k : Nat) (v : α) : tabErase (tabSet d t k v) k = tabErase t k := by
  unfold tabSet
  split
  · simp
  · rw [tabErase_tabInsert, tabErase_tabErase]

/-- Of two settings of one index the later one stands. -/
@[simp] theorem tabSet_tabSet (d : α) (t : Tab α) (k : Nat) (v w : α) :
    tabSet d (tabSet d t k v) k w = tabSet d t k w := by
  unfold tabSet
  split
  · exact tabErase_tabSet d t k v
  · exact congrArg _ (tabErase_tabSet d t k v)

omit [DecidableEq α] in
@[simp] theorem tabFind_tabPut_same (t : Tab α) (k : Nat) (v : α) : tabFind (tabPut t k v) k = some v :=
  tabFind_tabInsert_erase t k v

omit [DecidableEq α] in
theorem tabFind_tabPut_ne (t : Tab α) {k k' : Nat} (v : α) (h : k' ≠ k) : tabFind (tabPut t k v) k' = tabFind t k' := by
  unfold tabPut
  rw [tabFind_tabInsert_ne _ v h, tabFind_tabErase_ne t h]

omit [DecidableEq α] in
@[simp] theorem tabPut_tabPut (t : Tab α) (k : Nat) (v w : α) : tabPut (tabPut t k v) k w = tabPut t k w := by
  unfold tabPut
  rw [tabErase_tabInsert, tabErase_tabErase]

omit [DecidableEq α] in
@[simp] theorem tabErase_tabPut (t : Tab α) (k : Nat) (v : α) : tabErase (tabPut t k v) k = tabErase t k := by
  unfold tabPut
  rw [tabErase_tabInsert, tabErase_tabErase]

/-! ### The canonical form -/

/-- The canonical form said by membership and order. -/
theorem tabWf_cons (d : α) (k : Nat) (v : α) (t : Tab α) :
    tabWf d ((k, v) :: t) = true ↔ v ≠ d ∧ (∀ p ∈ t, k < p.1) ∧ tabWf d t = true := by
  induction t generalizing k v with
  | nil => simp [tabWf]
  | cons p t ih =>
    obtain ⟨k', v'⟩ := p
    constructor
    · intro h
      simp only [tabWf, Bool.and_eq_true, decide_eq_true_eq] at h
      obtain ⟨⟨hk, hv⟩, ht⟩ := h
      refine ⟨hv, ?_, ht⟩
      intro p hp
      rcases List.mem_cons.1 hp with rfl | hp
      · exact hk
      · exact lt_trans hk (((ih k' v').1 ht).2.1 p hp)
    · rintro ⟨hv, hk, ht⟩
      simp only [tabWf, Bool.and_eq_true, decide_eq_true_eq]
      exact ⟨⟨hk (k', v') (List.mem_cons_self ..), hv⟩, ht⟩

theorem tabWf_filter (d : α) (q : Nat × α → Bool) : ∀ t : Tab α, tabWf d t = true → tabWf d (t.filter q) = true
  | [], _ => rfl
  | (k, v) :: t, h => by
    obtain ⟨hv, hk, ht⟩ := (tabWf_cons d k v t).1 h
    have ih := tabWf_filter d q t ht
    rw [List.filter_cons]
    split
    · exact (tabWf_cons d k v _).2 ⟨hv, fun p hp => hk p (List.mem_filter.1 hp).1, ih⟩
    · exact ih

theorem tabErase_wf (d : α) (t : Tab α) (k : Nat) (h : tabWf d t = true) : tabWf d (tabErase t k) = true :=
  tabWf_filter d _ t h

omit [DecidableEq α] in
theorem mem_tabInsert (k : Nat) (v : α) (t : Tab α) (p : Nat × α) : p ∈ tabInsert k v t ↔ p = (k, v) ∨ p ∈ t := by
  induction t with
  | nil => simp [tabInsert]
  | cons q t ih =>
    obtain ⟨j, w⟩ := q
    by_cases h : k < j
    · simp [tabInsert, h]
    · simp only [tabInsert, h, if_false, List.mem_cons, ih]
      tauto

theorem tabInsert_wf (d : α) (k : Nat) (v : α) (hv : v ≠ d) :
    ∀ t : Tab α, tabWf d t = true → (∀ p ∈ t, p.1 ≠ k) → tabWf d (tabInsert k v t) = true
  | [], _, _ => by simp [tabInsert, tabWf, hv]
  | (j, w) :: t, h, hk => by
    obtain ⟨hw, hj, ht⟩ := (tabWf_cons d j w t).1 h
    by_cases hlt : k < j
    · simp only [tabInsert, hlt, if_true]
      refine (tabWf_cons d k v _).2 ⟨hv, ?_, h⟩
      intro p hp
      rcases List.mem_cons.1 hp with rfl | hp
      · exact hlt
      · exact lt_trans hlt (hj p hp)
    · simp only [tabInsert, hlt, if_false]
      have hne : j ≠ k := hk (j, w) (List.mem_cons_self ..)
      refine (tabWf_cons d j w _).2 ⟨hw, ?_, tabInsert_wf d k v hv t ht fun p hp => hk p (List.mem_cons_of_mem _ hp)⟩
      intro p hp
      rcases (mem_tabInsert k v t p).1 hp with rfl | hp
      · simp only; omega
      · exact hj p hp

/-- Setting an entry keeps a table canonical. -/
theorem tabSet_wf (d : α) (t : Tab α) (k : Nat) (v : α) (h : tabWf d t = true) : tabWf d (tabSet d t k v) = true := by
  unfold tabSet
  split
  · exact tabErase_wf d t k h
  · next hv =>
    refine tabInsert_wf d k v hv _ (tabErase_wf d t k h) ?_
    intro p hp
    simpa using (List.mem_filter.1 hp).2

end Tables

end Sys2Proof.Machine
end

