-- ==== Sys2Proof/Laws/State.lean ====
section
/-!
SUPPORT. What each named update of the state leaves as it was: one lemma per field and per accessor.
-/

namespace Sys2Proof.Machine

open Sys2Proof

variable (s : State)

/-! ### setSlot -/

@[simp] theorem State.setSlot_pending (t : Slot) (x : SlotState) : (s.setSlot t x).pending = s.pending := rfl
@[simp] theorem State.setSlot_free (t : Slot) (x : SlotState) : (s.setSlot t x).free = s.free := rfl
@[simp] theorem State.setSlot_mem (t : Slot) (x : SlotState) : (s.setSlot t x).mem = s.mem := rfl
@[simp] theorem State.setSlot_cores (t : Slot) (x : SlotState) : (s.setSlot t x).cores = s.cores := rfl
@[simp] theorem State.setSlot_panels (t : Slot) (x : SlotState) : (s.setSlot t x).panels = s.panels := rfl
@[simp] theorem State.setSlot_upd (t : Slot) (x : SlotState) : (s.setSlot t x).upd = s.upd := rfl
@[simp] theorem State.setSlot_qmg (t : Slot) (x : SlotState) : (s.setSlot t x).qmg = s.qmg := rfl
@[simp] theorem State.setSlot_lnk (t : Slot) (x : SlotState) : (s.setSlot t x).lnk = s.lnk := rfl
@[simp] theorem State.setSlot_gau (t : Slot) (x : SlotState) : (s.setSlot t x).gau = s.gau := rfl
@[simp] theorem State.setSlot_colls (t : Slot) (x : SlotState) : (s.setSlot t x).colls = s.colls := rfl
@[simp] theorem State.setSlot_jobs (t : Slot) (x : SlotState) : (s.setSlot t x).jobs = s.jobs := rfl
@[simp] theorem State.setSlot_glb (t : Slot) (x : SlotState) : (s.setSlot t x).glb = s.glb := rfl
@[simp] theorem State.setSlot_pwr (t : Slot) (x : SlotState) : (s.setSlot t x).pwr = s.pwr := rfl
@[simp] theorem State.setSlot_sec (t : Slot) (x : SlotState) : (s.setSlot t x).sec = s.sec := rfl
@[simp] theorem State.setSlot_ev (t : Slot) (x : SlotState) : (s.setSlot t x).ev = s.ev := rfl
@[simp] theorem State.setSlot_out (t : Slot) (x : SlotState) : (s.setSlot t x).out = s.out := rfl
@[simp] theorem State.setSlot_core (t : Slot) (x : SlotState) (c' : Core) : (s.setSlot t x).core c' = s.core c' := rfl
@[simp] theorem State.setSlot_panel (t : Slot) (x : SlotState) (p' : Panel) : (s.setSlot t x).panel p' = s.panel p' := rfl
@[simp] theorem State.setSlot_updEngine (t : Slot) (x : SlotState) (p' : Panel) : (s.setSlot t x).updEngine p' = s.updEngine p' := rfl
@[simp] theorem State.setSlot_ctx (t : Slot) (x : SlotState) (c' : Ctx) : (s.setSlot t x).ctx c' = s.ctx c' := rfl
@[simp] theorem State.setSlot_queue (t : Slot) (x : SlotState) (q' : Queue) : (s.setSlot t x).queue q' = s.queue q' := rfl
@[simp] theorem State.setSlot_link (t : Slot) (x : SlotState) (l' : Link) : (s.setSlot t x).link l' = s.link l' := rfl
@[simp] theorem State.setSlot_ring (t : Slot) (x : SlotState) (r' : Ring) : (s.setSlot t x).ring r' = s.ring r' := rfl
@[simp] theorem State.setSlot_die (t : Slot) (x : SlotState) (d' : Die) : (s.setSlot t x).die d' = s.die d' := rfl
@[simp] theorem State.setSlot_job (t : Slot) (x : SlotState) (j' : Job) : (s.setSlot t x).job j' = s.job j' := rfl
@[simp] theorem State.setSlot_desc_opt (t : Slot) (x : SlotState) (d' : DescId) : (s.setSlot t x).desc? d' = s.desc? d' := rfl
@[simp] theorem State.setSlot_coll_opt (t : Slot) (x : SlotState) (d' : DescId) : (s.setSlot t x).coll? d' = s.coll? d' := rfl
@[simp] theorem State.setSlot_bank (t : Slot) (x : SlotState) (k' : Space) : (s.setSlot t x).bank k' = s.bank k' := by cases k' <;> rfl
@[simp] theorem State.setSlot_now (t : Slot) (x : SlotState) : (s.setSlot t x).now = s.now := rfl

/-! ### setCore -/

@[simp] theorem State.setCore_pending (c : Core) (x : CoreState) : (s.setCore c x).pending = s.pending := rfl
@[simp] theorem State.setCore_free (c : Core) (x : CoreState) : (s.setCore c x).free = s.free := rfl
@[simp] theorem State.setCore_mem (c : Core) (x : CoreState) : (s.setCore c x).mem = s.mem := rfl
@[simp] theorem State.setCore_slots (c : Core) (x : CoreState) : (s.setCore c x).slots = s.slots := rfl
@[simp] theorem State.setCore_panels (c : Core) (x : CoreState) : (s.setCore c x).panels = s.panels := rfl
@[simp] theorem State.setCore_upd (c : Core) (x : CoreState) : (s.setCore c x).upd = s.upd := rfl
@[simp] theorem State.setCore_qmg (c : Core) (x : CoreState) : (s.setCore c x).qmg = s.qmg := rfl
@[simp] theorem State.setCore_lnk (c : Core) (x : CoreState) : (s.setCore c x).lnk = s.lnk := rfl
@[simp] theorem State.setCore_gau (c : Core) (x : CoreState) : (s.setCore c x).gau = s.gau := rfl
@[simp] theorem State.setCore_colls (c : Core) (x : CoreState) : (s.setCore c x).colls = s.colls := rfl
@[simp] theorem State.setCore_jobs (c : Core) (x : CoreState) : (s.setCore c x).jobs = s.jobs := rfl
@[simp] theorem State.setCore_glb (c : Core) (x : CoreState) : (s.setCore c x).glb = s.glb := rfl
@[simp] theorem State.setCore_pwr (c : Core) (x : CoreState) : (s.setCore c x).pwr = s.pwr := rfl
@[simp] theorem State.setCore_sec (c : Core) (x : CoreState) : (s.setCore c x).sec = s.sec := rfl
@[simp] theorem State.setCore_ev (c : Core) (x : CoreState) : (s.setCore c x).ev = s.ev := rfl
@[simp] theorem State.setCore_out (c : Core) (x : CoreState) : (s.setCore c x).out = s.out := rfl
@[simp] theorem State.setCore_slot (c : Core) (x : CoreState) (t' : Slot) : (s.setCore c x).slot t' = s.slot t' := rfl
@[simp] theorem State.setCore_panel (c : Core) (x : CoreState) (p' : Panel) : (s.setCore c x).panel p' = s.panel p' := rfl
@[simp] theorem State.setCore_updEngine (c : Core) (x : CoreState) (p' : Panel) : (s.setCore c x).updEngine p' = s.updEngine p' := rfl
@[simp] theorem State.setCore_ctx (c : Core) (x : CoreState) (c' : Ctx) : (s.setCore c x).ctx c' = s.ctx c' := rfl
@[simp] theorem State.setCore_queue (c : Core) (x : CoreState) (q' : Queue) : (s.setCore c x).queue q' = s.queue q' := rfl
@[simp] theorem State.setCore_link (c : Core) (x : CoreState) (l' : Link) : (s.setCore c x).link l' = s.link l' := rfl
@[simp] theorem State.setCore_ring (c : Core) (x : CoreState) (r' : Ring) : (s.setCore c x).ring r' = s.ring r' := rfl
@[simp] theorem State.setCore_die (c : Core) (x : CoreState) (d' : Die) : (s.setCore c x).die d' = s.die d' := rfl
@[simp] theorem State.setCore_job (c : Core) (x : CoreState) (j' : Job) : (s.setCore c x).job j' = s.job j' := rfl
@[simp] theorem State.setCore_desc_opt (c : Core) (x : CoreState) (d' : DescId) : (s.setCore c x).desc? d' = s.desc? d' := rfl
@[simp] theorem State.setCore_coll_opt (c : Core) (x : CoreState) (d' : DescId) : (s.setCore c x).coll? d' = s.coll? d' := rfl
@[simp] theorem State.setCore_bank (c : Core) (x : CoreState) (k' : Space) : (s.setCore c x).bank k' = s.bank k' := by cases k' <;> rfl
@[simp] theorem State.setCore_now (c : Core) (x : CoreState) : (s.setCore c x).now = s.now := rfl

/-! ### setPanel -/

@[simp] theorem State.setPanel_pending (p : Panel) (x : PanelState) : (s.setPanel p x).pending = s.pending := rfl
@[simp] theorem State.setPanel_free (p : Panel) (x : PanelState) : (s.setPanel p x).free = s.free := rfl
@[simp] theorem State.setPanel_mem (p : Panel) (x : PanelState) : (s.setPanel p x).mem = s.mem := rfl
@[simp] theorem State.setPanel_slots (p : Panel) (x : PanelState) : (s.setPanel p x).slots = s.slots := rfl
@[simp] theorem State.setPanel_cores (p : Panel) (x : PanelState) : (s.setPanel p x).cores = s.cores := rfl
@[simp] theorem State.setPanel_upd (p : Panel) (x : PanelState) : (s.setPanel p x).upd = s.upd := rfl
@[simp] theorem State.setPanel_qmg (p : Panel) (x : PanelState) : (s.setPanel p x).qmg = s.qmg := rfl
@[simp] theorem State.setPanel_lnk (p : Panel) (x : PanelState) : (s.setPanel p x).lnk = s.lnk := rfl
@[simp] theorem State.setPanel_gau (p : Panel) (x : PanelState) : (s.setPanel p x).gau = s.gau := rfl
@[simp] theorem State.setPanel_colls (p : Panel) (x : PanelState) : (s.setPanel p x).colls = s.colls := rfl
@[simp] theorem State.setPanel_jobs (p : Panel) (x : PanelState) : (s.setPanel p x).jobs = s.jobs := rfl
@[simp] theorem State.setPanel_glb (p : Panel) (x : PanelState) : (s.setPanel p x).glb = s.glb := rfl
@[simp] theorem State.setPanel_pwr (p : Panel) (x : PanelState) : (s.setPanel p x).pwr = s.pwr := rfl
@[simp] theorem State.setPanel_sec (p : Panel) (x : PanelState) : (s.setPanel p x).sec = s.sec := rfl
@[simp] theorem State.setPanel_ev (p : Panel) (x : PanelState) : (s.setPanel p x).ev = s.ev := rfl
@[simp] theorem State.setPanel_out (p : Panel) (x : PanelState) : (s.setPanel p x).out = s.out := rfl
@[simp] theorem State.setPanel_slot (p : Panel) (x : PanelState) (t' : Slot) : (s.setPanel p x).slot t' = s.slot t' := rfl
@[simp] theorem State.setPanel_core (p : Panel) (x : PanelState) (c' : Core) : (s.setPanel p x).core c' = s.core c' := rfl
@[simp] theorem State.setPanel_updEngine (p : Panel) (x : PanelState) (p' : Panel) : (s.setPanel p x).updEngine p' = s.updEngine p' := rfl
@[simp] theorem State.setPanel_ctx (p : Panel) (x : PanelState) (c' : Ctx) : (s.setPanel p x).ctx c' = s.ctx c' := rfl
@[simp] theorem State.setPanel_queue (p : Panel) (x : PanelState) (q' : Queue) : (s.setPanel p x).queue q' = s.queue q' := rfl
@[simp] theorem State.setPanel_link (p : Panel) (x : PanelState) (l' : Link) : (s.setPanel p x).link l' = s.link l' := rfl
@[simp] theorem State.setPanel_ring (p : Panel) (x : PanelState) (r' : Ring) : (s.setPanel p x).ring r' = s.ring r' := rfl
@[simp] theorem State.setPanel_die (p : Panel) (x : PanelState) (d' : Die) : (s.setPanel p x).die d' = s.die d' := rfl
@[simp] theorem State.setPanel_job (p : Panel) (x : PanelState) (j' : Job) : (s.setPanel p x).job j' = s.job j' := rfl
@[simp] theorem State.setPanel_desc_opt (p : Panel) (x : PanelState) (d' : DescId) : (s.setPanel p x).desc? d' = s.desc? d' := rfl
@[simp] theorem State.setPanel_coll_opt (p : Panel) (x : PanelState) (d' : DescId) : (s.setPanel p x).coll? d' = s.coll? d' := rfl
@[simp] theorem State.setPanel_bank (p : Panel) (x : PanelState) (k' : Space) : (s.setPanel p x).bank k' = s.bank k' := by cases k' <;> rfl
@[simp] theorem State.setPanel_now (p : Panel) (x : PanelState) : (s.setPanel p x).now = s.now := rfl

/-! ### setUpdEngine -/

@[simp] theorem State.setUpdEngine_pending (p : Panel) (x : UpdState) : (s.setUpdEngine p x).pending = s.pending := rfl
@[simp] theorem State.setUpdEngine_free (p : Panel) (x : UpdState) : (s.setUpdEngine p x).free = s.free := rfl
@[simp] theorem State.setUpdEngine_mem (p : Panel) (x : UpdState) : (s.setUpdEngine p x).mem = s.mem := rfl
@[simp] theorem State.setUpdEngine_slots (p : Panel) (x : UpdState) : (s.setUpdEngine p x).slots = s.slots := rfl
@[simp] theorem State.setUpdEngine_cores (p : Panel) (x : UpdState) : (s.setUpdEngine p x).cores = s.cores := rfl
@[simp] theorem State.setUpdEngine_panels (p : Panel) (x : UpdState) : (s.setUpdEngine p x).panels = s.panels := rfl
@[simp] theorem State.setUpdEngine_qmg (p : Panel) (x : UpdState) : (s.setUpdEngine p x).qmg = s.qmg := rfl
@[simp] theorem State.setUpdEngine_lnk (p : Panel) (x : UpdState) : (s.setUpdEngine p x).lnk = s.lnk := rfl
@[simp] theorem State.setUpdEngine_gau (p : Panel) (x : UpdState) : (s.setUpdEngine p x).gau = s.gau := rfl
@[simp] theorem State.setUpdEngine_colls (p : Panel) (x : UpdState) : (s.setUpdEngine p x).colls = s.colls := rfl
@[simp] theorem State.setUpdEngine_jobs (p : Panel) (x : UpdState) : (s.setUpdEngine p x).jobs = s.jobs := rfl
@[simp] theorem State.setUpdEngine_glb (p : Panel) (x : UpdState) : (s.setUpdEngine p x).glb = s.glb := rfl
@[simp] theorem State.setUpdEngine_pwr (p : Panel) (x : UpdState) : (s.setUpdEngine p x).pwr = s.pwr := rfl
@[simp] theorem State.setUpdEngine_sec (p : Panel) (x : UpdState) : (s.setUpdEngine p x).sec = s.sec := rfl
@[simp] theorem State.setUpdEngine_ev (p : Panel) (x : UpdState) : (s.setUpdEngine p x).ev = s.ev := rfl
@[simp] theorem State.setUpdEngine_out (p : Panel) (x : UpdState) : (s.setUpdEngine p x).out = s.out := rfl
@[simp] theorem State.setUpdEngine_slot (p : Panel) (x : UpdState) (t' : Slot) : (s.setUpdEngine p x).slot t' = s.slot t' := rfl
@[simp] theorem State.setUpdEngine_core (p : Panel) (x : UpdState) (c' : Core) : (s.setUpdEngine p x).core c' = s.core c' := rfl
@[simp] theorem State.setUpdEngine_panel (p : Panel) (x : UpdState) (p' : Panel) : (s.setUpdEngine p x).panel p' = s.panel p' := rfl
@[simp] theorem State.setUpdEngine_ctx (p : Panel) (x : UpdState) (c' : Ctx) : (s.setUpdEngine p x).ctx c' = s.ctx c' := rfl
@[simp] theorem State.setUpdEngine_queue (p : Panel) (x : UpdState) (q' : Queue) : (s.setUpdEngine p x).queue q' = s.queue q' := rfl
@[simp] theorem State.setUpdEngine_link (p : Panel) (x : UpdState) (l' : Link) : (s.setUpdEngine p x).link l' = s.link l' := rfl
@[simp] theorem State.setUpdEngine_ring (p : Panel) (x : UpdState) (r' : Ring) : (s.setUpdEngine p x).ring r' = s.ring r' := rfl
@[simp] theorem State.setUpdEngine_die (p : Panel) (x : UpdState) (d' : Die) : (s.setUpdEngine p x).die d' = s.die d' := rfl
@[simp] theorem State.setUpdEngine_job (p : Panel) (x : UpdState) (j' : Job) : (s.setUpdEngine p x).job j' = s.job j' := rfl
@[simp] theorem State.setUpdEngine_desc_opt (p : Panel) (x : UpdState) (d' : DescId) : (s.setUpdEngine p x).desc? d' = s.desc? d' := rfl
@[simp] theorem State.setUpdEngine_coll_opt (p : Panel) (x : UpdState) (d' : DescId) : (s.setUpdEngine p x).coll? d' = s.coll? d' := rfl
@[simp] theorem State.setUpdEngine_bank (p : Panel) (x : UpdState) (k' : Space) : (s.setUpdEngine p x).bank k' = s.bank k' := by cases k' <;> rfl
@[simp] theorem State.setUpdEngine_now (p : Panel) (x : UpdState) : (s.setUpdEngine p x).now = s.now := rfl

/-! ### setCtx -/

@[simp] theorem State.setCtx_pending (c : Ctx) (x : CtxState) : (s.setCtx c x).pending = s.pending := rfl
@[simp] theorem State.setCtx_free (c : Ctx) (x : CtxState) : (s.setCtx c x).free = s.free := rfl
@[simp] theorem State.setCtx_mem (c : Ctx) (x : CtxState) : (s.setCtx c x).mem = s.mem := rfl
@[simp] theorem State.setCtx_slots (c : Ctx) (x : CtxState) : (s.setCtx c x).slots = s.slots := rfl
@[simp] theorem State.setCtx_cores (c : Ctx) (x : CtxState) : (s.setCtx c x).cores = s.cores := rfl
@[simp] theorem State.setCtx_panels (c : Ctx) (x : CtxState) : (s.setCtx c x).panels = s.panels := rfl
@[simp] theorem State.setCtx_upd (c : Ctx) (x : CtxState) : (s.setCtx c x).upd = s.upd := rfl
@[simp] theorem State.setCtx_lnk (c : Ctx) (x : CtxState) : (s.setCtx c x).lnk = s.lnk := rfl
@[simp] theorem State.setCtx_gau (c : Ctx) (x : CtxState) : (s.setCtx c x).gau = s.gau := rfl
@[simp] theorem State.setCtx_colls (c : Ctx) (x : CtxState) : (s.setCtx c x).colls = s.colls := rfl
@[simp] theorem State.setCtx_jobs (c : Ctx) (x : CtxState) : (s.setCtx c x).jobs = s.jobs := rfl
@[simp] theorem State.setCtx_glb (c : Ctx) (x : CtxState) : (s.setCtx c x).glb = s.glb := rfl
@[simp] theorem State.setCtx_pwr (c : Ctx) (x : CtxState) : (s.setCtx c x).pwr = s.pwr := rfl
@[simp] theorem State.setCtx_sec (c : Ctx) (x : CtxState) : (s.setCtx c x).sec = s.sec := rfl
@[simp] theorem State.setCtx_ev (c : Ctx) (x : CtxState) : (s.setCtx c x).ev = s.ev := rfl
@[simp] theorem State.setCtx_out (c : Ctx) (x : CtxState) : (s.setCtx c x).out = s.out := rfl
@[simp] theorem State.setCtx_slot (c : Ctx) (x : CtxState) (t' : Slot) : (s.setCtx c x).slot t' = s.slot t' := rfl
@[simp] theorem State.setCtx_core (c : Ctx) (x : CtxState) (c' : Core) : (s.setCtx c x).core c' = s.core c' := rfl
@[simp] theorem State.setCtx_panel (c : Ctx) (x : CtxState) (p' : Panel) : (s.setCtx c x).panel p' = s.panel p' := rfl
@[simp] theorem State.setCtx_updEngine (c : Ctx) (x : CtxState) (p' : Panel) : (s.setCtx c x).updEngine p' = s.updEngine p' := rfl
@[simp] theorem State.setCtx_queue (c : Ctx) (x : CtxState) (q' : Queue) : (s.setCtx c x).queue q' = s.queue q' := rfl
@[simp] theorem State.setCtx_link (c : Ctx) (x : CtxState) (l' : Link) : (s.setCtx c x).link l' = s.link l' := rfl
@[simp] theorem State.setCtx_ring (c : Ctx) (x : CtxState) (r' : Ring) : (s.setCtx c x).ring r' = s.ring r' := rfl
@[simp] theorem State.setCtx_die (c : Ctx) (x : CtxState) (d' : Die) : (s.setCtx c x).die d' = s.die d' := rfl
@[simp] theorem State.setCtx_job (c : Ctx) (x : CtxState) (j' : Job) : (s.setCtx c x).job j' = s.job j' := rfl
@[simp] theorem State.setCtx_desc_opt (c : Ctx) (x : CtxState) (d' : DescId) : (s.setCtx c x).desc? d' = s.desc? d' := rfl
@[simp] theorem State.setCtx_coll_opt (c : Ctx) (x : CtxState) (d' : DescId) : (s.setCtx c x).coll? d' = s.coll? d' := rfl
@[simp] theorem State.setCtx_bank (c : Ctx) (x : CtxState) (k' : Space) : (s.setCtx c x).bank k' = s.bank k' := by cases k' <;> rfl
@[simp] theorem State.setCtx_now (c : Ctx) (x : CtxState) : (s.setCtx c x).now = s.now := rfl
@[simp] theorem State.setCtx_csel (c : Ctx) (x : CtxState) : (s.setCtx c x).qmg.csel = s.qmg.csel := rfl
@[simp] theorem State.setCtx_gsel (c : Ctx) (x : CtxState) : (s.setCtx c x).qmg.gsel = s.qmg.gsel := rfl
@[simp] theorem State.setCtx_qsel (c : Ctx) (x : CtxState) : (s.setCtx c x).qmg.qsel = s.qmg.qsel := rfl
@[simp] theorem State.setCtx_groups (c : Ctx) (x : CtxState) : (s.setCtx c x).qmg.groups = s.qmg.groups := rfl
@[simp] theorem State.setCtx_queues (c : Ctx) (x : CtxState) : (s.setCtx c x).qmg.queues = s.qmg.queues := rfl
@[simp] theorem State.setCtx_descs (c : Ctx) (x : CtxState) : (s.setCtx c x).qmg.descs = s.qmg.descs := rfl
@[simp] theorem State.setCtx_cxlUp (c : Ctx) (x : CtxState) : (s.setCtx c x).qmg.cxlUp = s.qmg.cxlUp := rfl
@[simp] theorem State.setCtx_held (c : Ctx) (x : CtxState) : (s.setCtx c x).qmg.held = s.qmg.held := rfl
@[simp] theorem State.setCtx_inc (c : Ctx) (x : CtxState) : (s.setCtx c x).qmg.inc = s.qmg.inc := rfl
@[simp] theorem State.setCtx_progress (c : Ctx) (x : CtxState) : (s.setCtx c x).qmg.progress = s.qmg.progress := rfl
@[simp] theorem State.setCtx_hangs (c : Ctx) (x : CtxState) : (s.setCtx c x).qmg.hangs = s.qmg.hangs := rfl

/-! ### setQueue -/

@[simp] theorem State.setQueue_pending (q : Queue) (x : QueueState) : (s.setQueue q x).pending = s.pending := rfl
@[simp] theorem State.setQueue_free (q : Queue) (x : QueueState) : (s.setQueue q x).free = s.free := rfl
@[simp] theorem State.setQueue_mem (q : Queue) (x : QueueState) : (s.setQueue q x).mem = s.mem := rfl
@[simp] theorem State.setQueue_slots (q : Queue) (x : QueueState) : (s.setQueue q x).slots = s.slots := rfl
@[simp] theorem State.setQueue_cores (q : Queue) (x : QueueState) : (s.setQueue q x).cores = s.cores := rfl
@[simp] theorem State.setQueue_panels (q : Queue) (x : QueueState) : (s.setQueue q x).panels = s.panels := rfl
@[simp] theorem State.setQueue_upd (q : Queue) (x : QueueState) : (s.setQueue q x).upd = s.upd := rfl
@[simp] theorem State.setQueue_lnk (q : Queue) (x : QueueState) : (s.setQueue q x).lnk = s.lnk := rfl
@[simp] theorem State.setQueue_gau (q : Queue) (x : QueueState) : (s.setQueue q x).gau = s.gau := rfl
@[simp] theorem State.setQueue_colls (q : Queue) (x : QueueState) : (s.setQueue q x).colls = s.colls := rfl
@[simp] theorem State.setQueue_jobs (q : Queue) (x : QueueState) : (s.setQueue q x).jobs = s.jobs := rfl
@[simp] theorem State.setQueue_glb (q : Queue) (x : QueueState) : (s.setQueue q x).glb = s.glb := rfl
@[simp] theorem State.setQueue_pwr (q : Queue) (x : QueueState) : (s.setQueue q x).pwr = s.pwr := rfl
@[simp] theorem State.setQueue_sec (q : Queue) (x : QueueState) : (s.setQueue q x).sec = s.sec := rfl
@[simp] theorem State.setQueue_ev (q : Queue) (x : QueueState) : (s.setQueue q x).ev = s.ev := rfl
@[simp] theorem State.setQueue_out (q : Queue) (x : QueueState) : (s.setQueue q x).out = s.out := rfl
@[simp] theorem State.setQueue_slot (q : Queue) (x : QueueState) (t' : Slot) : (s.setQueue q x).slot t' = s.slot t' := rfl
@[simp] theorem State.setQueue_core (q : Queue) (x : QueueState) (c' : Core) : (s.setQueue q x).core c' = s.core c' := rfl
@[simp] theorem State.setQueue_panel (q : Queue) (x : QueueState) (p' : Panel) : (s.setQueue q x).panel p' = s.panel p' := rfl
@[simp] theorem State.setQueue_updEngine (q : Queue) (x : QueueState) (p' : Panel) : (s.setQueue q x).updEngine p' = s.updEngine p' := rfl
@[simp] theorem State.setQueue_ctx (q : Queue) (x : QueueState) (c' : Ctx) : (s.setQueue q x).ctx c' = s.ctx c' := rfl
@[simp] theorem State.setQueue_link (q : Queue) (x : QueueState) (l' : Link) : (s.setQueue q x).link l' = s.link l' := rfl
@[simp] theorem State.setQueue_ring (q : Queue) (x : QueueState) (r' : Ring) : (s.setQueue q x).ring r' = s.ring r' := rfl
@[simp] theorem State.setQueue_die (q : Queue) (x : QueueState) (d' : Die) : (s.setQueue q x).die d' = s.die d' := rfl
@[simp] theorem State.setQueue_job (q : Queue) (x : QueueState) (j' : Job) : (s.setQueue q x).job j' = s.job j' := rfl
@[simp] theorem State.setQueue_desc_opt (q : Queue) (x : QueueState) (d' : DescId) : (s.setQueue q x).desc? d' = s.desc? d' := rfl
@[simp] theorem State.setQueue_coll_opt (q : Queue) (x : QueueState) (d' : DescId) : (s.setQueue q x).coll? d' = s.coll? d' := rfl
@[simp] theorem State.setQueue_bank (q : Queue) (x : QueueState) (k' : Space) : (s.setQueue q x).bank k' = s.bank k' := by cases k' <;> rfl
@[simp] theorem State.setQueue_now (q : Queue) (x : QueueState) : (s.setQueue q x).now = s.now := rfl
@[simp] theorem State.setQueue_csel (q : Queue) (x : QueueState) : (s.setQueue q x).qmg.csel = s.qmg.csel := rfl
@[simp] theorem State.setQueue_gsel (q : Queue) (x : QueueState) : (s.setQueue q x).qmg.gsel = s.qmg.gsel := rfl
@[simp] theorem State.setQueue_qsel (q : Queue) (x : QueueState) : (s.setQueue q x).qmg.qsel = s.qmg.qsel := rfl
@[simp] theorem State.setQueue_ctxs (q : Queue) (x : QueueState) : (s.setQueue q x).qmg.ctxs = s.qmg.ctxs := rfl
@[simp] theorem State.setQueue_groups (q : Queue) (x : QueueState) : (s.setQueue q x).qmg.groups = s.qmg.groups := rfl
@[simp] theorem State.setQueue_descs (q : Queue) (x : QueueState) : (s.setQueue q x).qmg.descs = s.qmg.descs := rfl
@[simp] theorem State.setQueue_cxlUp (q : Queue) (x : QueueState) : (s.setQueue q x).qmg.cxlUp = s.qmg.cxlUp := rfl
@[simp] theorem State.setQueue_held (q : Queue) (x : QueueState) : (s.setQueue q x).qmg.held = s.qmg.held := rfl
@[simp] theorem State.setQueue_inc (q : Queue) (x : QueueState) : (s.setQueue q x).qmg.inc = s.qmg.inc := rfl
@[simp] theorem State.setQueue_progress (q : Queue) (x : QueueState) : (s.setQueue q x).qmg.progress = s.qmg.progress := rfl
@[simp] theorem State.setQueue_hangs (q : Queue) (x : QueueState) : (s.setQueue q x).qmg.hangs = s.qmg.hangs := rfl

/-! ### setLink -/

@[simp] theorem State.setLink_pending (l : Link) (x : LinkState) : (s.setLink l x).pending = s.pending := rfl
@[simp] theorem State.setLink_free (l : Link) (x : LinkState) : (s.setLink l x).free = s.free := rfl
@[simp] theorem State.setLink_mem (l : Link) (x : LinkState) : (s.setLink l x).mem = s.mem := rfl
@[simp] theorem State.setLink_slots (l : Link) (x : LinkState) : (s.setLink l x).slots = s.slots := rfl
@[simp] theorem State.setLink_cores (l : Link) (x : LinkState) : (s.setLink l x).cores = s.cores := rfl
@[simp] theorem State.setLink_panels (l : Link) (x : LinkState) : (s.setLink l x).panels = s.panels := rfl
@[simp] theorem State.setLink_upd (l : Link) (x : LinkState) : (s.setLink l x).upd = s.upd := rfl
@[simp] theorem State.setLink_qmg (l : Link) (x : LinkState) : (s.setLink l x).qmg = s.qmg := rfl
@[simp] theorem State.setLink_gau (l : Link) (x : LinkState) : (s.setLink l x).gau = s.gau := rfl
@[simp] theorem State.setLink_colls (l : Link) (x : LinkState) : (s.setLink l x).colls = s.colls := rfl
@[simp] theorem State.setLink_jobs (l : Link) (x : LinkState) : (s.setLink l x).jobs = s.jobs := rfl
@[simp] theorem State.setLink_glb (l : Link) (x : LinkState) : (s.setLink l x).glb = s.glb := rfl
@[simp] theorem State.setLink_pwr (l : Link) (x : LinkState) : (s.setLink l x).pwr = s.pwr := rfl
@[simp] theorem State.setLink_sec (l : Link) (x : LinkState) : (s.setLink l x).sec = s.sec := rfl
@[simp] theorem State.setLink_ev (l : Link) (x : LinkState) : (s.setLink l x).ev = s.ev := rfl
@[simp] theorem State.setLink_out (l : Link) (x : LinkState) : (s.setLink l x).out = s.out := rfl
@[simp] theorem State.setLink_slot (l : Link) (x : LinkState) (t' : Slot) : (s.setLink l x).slot t' = s.slot t' := rfl
@[simp] theorem State.setLink_core (l : Link) (x : LinkState) (c' : Core) : (s.setLink l x).core c' = s.core c' := rfl
@[simp] theorem State.setLink_panel (l : Link) (x : LinkState) (p' : Panel) : (s.setLink l x).panel p' = s.panel p' := rfl
@[simp] theorem State.setLink_updEngine (l : Link) (x : LinkState) (p' : Panel) : (s.setLink l x).updEngine p' = s.updEngine p' := rfl
@[simp] theorem State.setLink_ctx (l : Link) (x : LinkState) (c' : Ctx) : (s.setLink l x).ctx c' = s.ctx c' := rfl
@[simp] theorem State.setLink_queue (l : Link) (x : LinkState) (q' : Queue) : (s.setLink l x).queue q' = s.queue q' := rfl
@[simp] theorem State.setLink_ring (l : Link) (x : LinkState) (r' : Ring) : (s.setLink l x).ring r' = s.ring r' := rfl
@[simp] theorem State.setLink_die (l : Link) (x : LinkState) (d' : Die) : (s.setLink l x).die d' = s.die d' := rfl
@[simp] theorem State.setLink_job (l : Link) (x : LinkState) (j' : Job) : (s.setLink l x).job j' = s.job j' := rfl
@[simp] theorem State.setLink_desc_opt (l : Link) (x : LinkState) (d' : DescId) : (s.setLink l x).desc? d' = s.desc? d' := rfl
@[simp] theorem State.setLink_coll_opt (l : Link) (x : LinkState) (d' : DescId) : (s.setLink l x).coll? d' = s.coll? d' := rfl
@[simp] theorem State.setLink_bank (l : Link) (x : LinkState) (k' : Space) : (s.setLink l x).bank k' = s.bank k' := by cases k' <;> rfl
@[simp] theorem State.setLink_now (l : Link) (x : LinkState) : (s.setLink l x).now = s.now := rfl
@[simp] theorem State.setLink_enable (l : Link) (x : LinkState) : (s.setLink l x).lnk.enable = s.lnk.enable := rfl
@[simp] theorem State.setLink_rings (l : Link) (x : LinkState) : (s.setLink l x).lnk.rings = s.lnk.rings := rfl
@[simp] theorem State.setLink_dies (l : Link) (x : LinkState) : (s.setLink l x).lnk.dies = s.lnk.dies := rfl

/-! ### setRing -/

@[simp] theorem State.setRing_pending (r : Ring) (x : RingState) : (s.setRing r x).pending = s.pending := rfl
@[simp] theorem State.setRing_free (r : Ring) (x : RingState) : (s.setRing r x).free = s.free := rfl
@[simp] theorem State.setRing_mem (r : Ring) (x : RingState) : (s.setRing r x).mem = s.mem := rfl
@[simp] theorem State.setRing_slots (r : Ring) (x : RingState) : (s.setRing r x).slots = s.slots := rfl
@[simp] theorem State.setRing_cores (r : Ring) (x : RingState) : (s.setRing r x).cores = s.cores := rfl
@[simp] theorem State.setRing_panels (r : Ring) (x : RingState) : (s.setRing r x).panels = s.panels := rfl
@[simp] theorem State.setRing_upd (r : Ring) (x : RingState) : (s.setRing r x).upd = s.upd := rfl
@[simp] theorem State.setRing_qmg (r : Ring) (x : RingState) : (s.setRing r x).qmg = s.qmg := rfl
@[simp] theorem State.setRing_gau (r : Ring) (x : RingState) : (s.setRing r x).gau = s.gau := rfl
@[simp] theorem State.setRing_colls (r : Ring) (x : RingState) : (s.setRing r x).colls = s.colls := rfl
@[simp] theorem State.setRing_jobs (r : Ring) (x : RingState) : (s.setRing r x).jobs = s.jobs := rfl
@[simp] theorem State.setRing_glb (r : Ring) (x : RingState) : (s.setRing r x).glb = s.glb := rfl
@[simp] theorem State.setRing_pwr (r : Ring) (x : RingState) : (s.setRing r x).pwr = s.pwr := rfl
@[simp] theorem State.setRing_sec (r : Ring) (x : RingState) : (s.setRing r x).sec = s.sec := rfl
@[simp] theorem State.setRing_ev (r : Ring) (x : RingState) : (s.setRing r x).ev = s.ev := rfl
@[simp] theorem State.setRing_out (r : Ring) (x : RingState) : (s.setRing r x).out = s.out := rfl
@[simp] theorem State.setRing_slot (r : Ring) (x : RingState) (t' : Slot) : (s.setRing r x).slot t' = s.slot t' := rfl
@[simp] theorem State.setRing_core (r : Ring) (x : RingState) (c' : Core) : (s.setRing r x).core c' = s.core c' := rfl
@[simp] theorem State.setRing_panel (r : Ring) (x : RingState) (p' : Panel) : (s.setRing r x).panel p' = s.panel p' := rfl
@[simp] theorem State.setRing_updEngine (r : Ring) (x : RingState) (p' : Panel) : (s.setRing r x).updEngine p' = s.updEngine p' := rfl
@[simp] theorem State.setRing_ctx (r : Ring) (x : RingState) (c' : Ctx) : (s.setRing r x).ctx c' = s.ctx c' := rfl
@[simp] theorem State.setRing_queue (r : Ring) (x : RingState) (q' : Queue) : (s.setRing r x).queue q' = s.queue q' := rfl
@[simp] theorem State.setRing_link (r : Ring) (x : RingState) (l' : Link) : (s.setRing r x).link l' = s.link l' := rfl
@[simp] theorem State.setRing_die (r : Ring) (x : RingState) (d' : Die) : (s.setRing r x).die d' = s.die d' := rfl
@[simp] theorem State.setRing_job (r : Ring) (x : RingState) (j' : Job) : (s.setRing r x).job j' = s.job j' := rfl
@[simp] theorem State.setRing_desc_opt (r : Ring) (x : RingState) (d' : DescId) : (s.setRing r x).desc? d' = s.desc? d' := rfl
@[simp] theorem State.setRing_coll_opt (r : Ring) (x : RingState) (d' : DescId) : (s.setRing r x).coll? d' = s.coll? d' := rfl
@[simp] theorem State.setRing_bank (r : Ring) (x : RingState) (k' : Space) : (s.setRing r x).bank k' = s.bank k' := by cases k' <;> rfl
@[simp] theorem State.setRing_now (r : Ring) (x : RingState) : (s.setRing r x).now = s.now := rfl
@[simp] theorem State.setRing_enable (r : Ring) (x : RingState) : (s.setRing r x).lnk.enable = s.lnk.enable := rfl
@[simp] theorem State.setRing_links (r : Ring) (x : RingState) : (s.setRing r x).lnk.links = s.lnk.links := rfl
@[simp] theorem State.setRing_dies (r : Ring) (x : RingState) : (s.setRing r x).lnk.dies = s.lnk.dies := rfl

/-! ### setDie -/

@[simp] theorem State.setDie_pending (d : Die) (x : DieState) : (s.setDie d x).pending = s.pending := rfl
@[simp] theorem State.setDie_free (d : Die) (x : DieState) : (s.setDie d x).free = s.free := rfl
@[simp] theorem State.setDie_mem (d : Die) (x : DieState) : (s.setDie d x).mem = s.mem := rfl
@[simp] theorem State.setDie_slots (d : Die) (x : DieState) : (s.setDie d x).slots = s.slots := rfl
@[simp] theorem State.setDie_cores (d : Die) (x : DieState) : (s.setDie d x).cores = s.cores := rfl
@[simp] theorem State.setDie_panels (d : Die) (x : DieState) : (s.setDie d x).panels = s.panels := rfl
@[simp] theorem State.setDie_upd (d : Die) (x : DieState) : (s.setDie d x).upd = s.upd := rfl
@[simp] theorem State.setDie_qmg (d : Die) (x : DieState) : (s.setDie d x).qmg = s.qmg := rfl
@[simp] theorem State.setDie_gau (d : Die) (x : DieState) : (s.setDie d x).gau = s.gau := rfl
@[simp] theorem State.setDie_colls (d : Die) (x : DieState) : (s.setDie d x).colls = s.colls := rfl
@[simp] theorem State.setDie_jobs (d : Die) (x : DieState) : (s.setDie d x).jobs = s.jobs := rfl
@[simp] theorem State.setDie_glb (d : Die) (x : DieState) : (s.setDie d x).glb = s.glb := rfl
@[simp] theorem State.setDie_pwr (d : Die) (x : DieState) : (s.setDie d x).pwr = s.pwr := rfl
@[simp] theorem State.setDie_sec (d : Die) (x : DieState) : (s.setDie d x).sec = s.sec := rfl
@[simp] theorem State.setDie_ev (d : Die) (x : DieState) : (s.setDie d x).ev = s.ev := rfl
@[simp] theorem State.setDie_out (d : Die) (x : DieState) : (s.setDie d x).out = s.out := rfl
@[simp] theorem State.setDie_slot (d : Die) (x : DieState) (t' : Slot) : (s.setDie d x).slot t' = s.slot t' := rfl
@[simp] theorem State.setDie_core (d : Die) (x : DieState) (c' : Core) : (s.setDie d x).core c' = s.core c' := rfl
@[simp] theorem State.setDie_panel (d : Die) (x : DieState) (p' : Panel) : (s.setDie d x).panel p' = s.panel p' := rfl
@[simp] theorem State.setDie_updEngine (d : Die) (x : DieState) (p' : Panel) : (s.setDie d x).updEngine p' = s.updEngine p' := rfl
@[simp] theorem State.setDie_ctx (d : Die) (x : DieState) (c' : Ctx) : (s.setDie d x).ctx c' = s.ctx c' := rfl
@[simp] theorem State.setDie_queue (d : Die) (x : DieState) (q' : Queue) : (s.setDie d x).queue q' = s.queue q' := rfl
@[simp] theorem State.setDie_link (d : Die) (x : DieState) (l' : Link) : (s.setDie d x).link l' = s.link l' := rfl
@[simp] theorem State.setDie_ring (d : Die) (x : DieState) (r' : Ring) : (s.setDie d x).ring r' = s.ring r' := rfl
@[simp] theorem State.setDie_job (d : Die) (x : DieState) (j' : Job) : (s.setDie d x).job j' = s.job j' := rfl
@[simp] theorem State.setDie_desc_opt (d : Die) (x : DieState) (d' : DescId) : (s.setDie d x).desc? d' = s.desc? d' := rfl
@[simp] theorem State.setDie_coll_opt (d : Die) (x : DieState) (d' : DescId) : (s.setDie d x).coll? d' = s.coll? d' := rfl
@[simp] theorem State.setDie_bank (d : Die) (x : DieState) (k' : Space) : (s.setDie d x).bank k' = s.bank k' := by cases k' <;> rfl
@[simp] theorem State.setDie_now (d : Die) (x : DieState) : (s.setDie d x).now = s.now := rfl
@[simp] theorem State.setDie_enable (d : Die) (x : DieState) : (s.setDie d x).lnk.enable = s.lnk.enable := rfl
@[simp] theorem State.setDie_links (d : Die) (x : DieState) : (s.setDie d x).lnk.links = s.lnk.links := rfl
@[simp] theorem State.setDie_rings (d : Die) (x : DieState) : (s.setDie d x).lnk.rings = s.lnk.rings := rfl

/-! ### setJob -/

@[simp] theorem State.setJob_pending (j : Job) (x : JobState) : (s.setJob j x).pending = s.pending := rfl
@[simp] theorem State.setJob_free (j : Job) (x : JobState) : (s.setJob j x).free = s.free := rfl
@[simp] theorem State.setJob_mem (j : Job) (x : JobState) : (s.setJob j x).mem = s.mem := rfl
@[simp] theorem State.setJob_slots (j : Job) (x : JobState) : (s.setJob j x).slots = s.slots := rfl
@[simp] theorem State.setJob_cores (j : Job) (x : JobState) : (s.setJob j x).cores = s.cores := rfl
@[simp] theorem State.setJob_panels (j : Job) (x : JobState) : (s.setJob j x).panels = s.panels := rfl
@[simp] theorem State.setJob_upd (j : Job) (x : JobState) : (s.setJob j x).upd = s.upd := rfl
@[simp] theorem State.setJob_qmg (j : Job) (x : JobState) : (s.setJob j x).qmg = s.qmg := rfl
@[simp] theorem State.setJob_lnk (j : Job) (x : JobState) : (s.setJob j x).lnk = s.lnk := rfl
@[simp] theorem State.setJob_gau (j : Job) (x : JobState) : (s.setJob j x).gau = s.gau := rfl
@[simp] theorem State.setJob_colls (j : Job) (x : JobState) : (s.setJob j x).colls = s.colls := rfl
@[simp] theorem State.setJob_glb (j : Job) (x : JobState) : (s.setJob j x).glb = s.glb := rfl
@[simp] theorem State.setJob_pwr (j : Job) (x : JobState) : (s.setJob j x).pwr = s.pwr := rfl
@[simp] theorem State.setJob_sec (j : Job) (x : JobState) : (s.setJob j x).sec = s.sec := rfl
@[simp] theorem State.setJob_ev (j : Job) (x : JobState) : (s.setJob j x).ev = s.ev := rfl
@[simp] theorem State.setJob_out (j : Job) (x : JobState) : (s.setJob j x).out = s.out := rfl
@[simp] theorem State.setJob_slot (j : Job) (x : JobState) (t' : Slot) : (s.setJob j x).slot t' = s.slot t' := rfl
@[simp] theorem State.setJob_core (j : Job) (x : JobState) (c' : Core) : (s.setJob j x).core c' = s.core c' := rfl
@[simp] theorem State.setJob_panel (j : Job) (x : JobState) (p' : Panel) : (s.setJob j x).panel p' = s.panel p' := rfl
@[simp] theorem State.setJob_updEngine (j : Job) (x : JobState) (p' : Panel) : (s.setJob j x).updEngine p' = s.updEngine p' := rfl
@[simp] theorem State.setJob_ctx (j : Job) (x : JobState) (c' : Ctx) : (s.setJob j x).ctx c' = s.ctx c' := rfl
@[simp] theorem State.setJob_queue (j : Job) (x : JobState) (q' : Queue) : (s.setJob j x).queue q' = s.queue q' := rfl
@[simp] theorem State.setJob_link (j : Job) (x : JobState) (l' : Link) : (s.setJob j x).link l' = s.link l' := rfl
@[simp] theorem State.setJob_ring (j : Job) (x : JobState) (r' : Ring) : (s.setJob j x).ring r' = s.ring r' := rfl
@[simp] theorem State.setJob_die (j : Job) (x : JobState) (d' : Die) : (s.setJob j x).die d' = s.die d' := rfl
@[simp] theorem State.setJob_desc_opt (j : Job) (x : JobState) (d' : DescId) : (s.setJob j x).desc? d' = s.desc? d' := rfl
@[simp] theorem State.setJob_coll_opt (j : Job) (x : JobState) (d' : DescId) : (s.setJob j x).coll? d' = s.coll? d' := rfl
@[simp] theorem State.setJob_bank (j : Job) (x : JobState) (k' : Space) : (s.setJob j x).bank k' = s.bank k' := by cases k' <;> rfl
@[simp] theorem State.setJob_now (j : Job) (x : JobState) : (s.setJob j x).now = s.now := rfl

/-! ### setDesc -/

@[simp] theorem State.setDesc_pending (d : DescId) (x : DescState) : (s.setDesc d x).pending = s.pending := rfl
@[simp] theorem State.setDesc_free (d : DescId) (x : DescState) : (s.setDesc d x).free = s.free := rfl
@[simp] theorem State.setDesc_mem (d : DescId) (x : DescState) : (s.setDesc d x).mem = s.mem := rfl
@[simp] theorem State.setDesc_slots (d : DescId) (x : DescState) : (s.setDesc d x).slots = s.slots := rfl
@[simp] theorem State.setDesc_cores (d : DescId) (x : DescState) : (s.setDesc d x).cores = s.cores := rfl
@[simp] theorem State.setDesc_panels (d : DescId) (x : DescState) : (s.setDesc d x).panels = s.panels := rfl
@[simp] theorem State.setDesc_upd (d : DescId) (x : DescState) : (s.setDesc d x).upd = s.upd := rfl
@[simp] theorem State.setDesc_lnk (d : DescId) (x : DescState) : (s.setDesc d x).lnk = s.lnk := rfl
@[simp] theorem State.setDesc_gau (d : DescId) (x : DescState) : (s.setDesc d x).gau = s.gau := rfl
@[simp] theorem State.setDesc_colls (d : DescId) (x : DescState) : (s.setDesc d x).colls = s.colls := rfl
@[simp] theorem State.setDesc_jobs (d : DescId) (x : DescState) : (s.setDesc d x).jobs = s.jobs := rfl
@[simp] theorem State.setDesc_glb (d : DescId) (x : DescState) : (s.setDesc d x).glb = s.glb := rfl
@[simp] theorem State.setDesc_pwr (d : DescId) (x : DescState) : (s.setDesc d x).pwr = s.pwr := rfl
@[simp] theorem State.setDesc_sec (d : DescId) (x : DescState) : (s.setDesc d x).sec = s.sec := rfl
@[simp] theorem State.setDesc_ev (d : DescId) (x : DescState) : (s.setDesc d x).ev = s.ev := rfl
@[simp] theorem State.setDesc_out (d : DescId) (x : DescState) : (s.setDesc d x).out = s.out := rfl
@[simp] theorem State.setDesc_slot (d : DescId) (x : DescState) (t' : Slot) : (s.setDesc d x).slot t' = s.slot t' := rfl
@[simp] theorem State.setDesc_core (d : DescId) (x : DescState) (c' : Core) : (s.setDesc d x).core c' = s.core c' := rfl
@[simp] theorem State.setDesc_panel (d : DescId) (x : DescState) (p' : Panel) : (s.setDesc d x).panel p' = s.panel p' := rfl
@[simp] theorem State.setDesc_updEngine (d : DescId) (x : DescState) (p' : Panel) : (s.setDesc d x).updEngine p' = s.updEngine p' := rfl
@[simp] theorem State.setDesc_ctx (d : DescId) (x : DescState) (c' : Ctx) : (s.setDesc d x).ctx c' = s.ctx c' := rfl
@[simp] theorem State.setDesc_queue (d : DescId) (x : DescState) (q' : Queue) : (s.setDesc d x).queue q' = s.queue q' := rfl
@[simp] theorem State.setDesc_link (d : DescId) (x : DescState) (l' : Link) : (s.setDesc d x).link l' = s.link l' := rfl
@[simp] theorem State.setDesc_ring (d : DescId) (x : DescState) (r' : Ring) : (s.setDesc d x).ring r' = s.ring r' := rfl
@[simp] theorem State.setDesc_die (d : DescId) (x : DescState) (d' : Die) : (s.setDesc d x).die d' = s.die d' := rfl
@[simp] theorem State.setDesc_job (d : DescId) (x : DescState) (j' : Job) : (s.setDesc d x).job j' = s.job j' := rfl
@[simp] theorem State.setDesc_coll_opt (d : DescId) (x : DescState) (d' : DescId) : (s.setDesc d x).coll? d' = s.coll? d' := rfl
@[simp] theorem State.setDesc_bank (d : DescId) (x : DescState) (k' : Space) : (s.setDesc d x).bank k' = s.bank k' := by cases k' <;> rfl
@[simp] theorem State.setDesc_now (d : DescId) (x : DescState) : (s.setDesc d x).now = s.now := rfl
@[simp] theorem State.setDesc_csel (d : DescId) (x : DescState) : (s.setDesc d x).qmg.csel = s.qmg.csel := rfl
@[simp] theorem State.setDesc_gsel (d : DescId) (x : DescState) : (s.setDesc d x).qmg.gsel = s.qmg.gsel := rfl
@[simp] theorem State.setDesc_qsel (d : DescId) (x : DescState) : (s.setDesc d x).qmg.qsel = s.qmg.qsel := rfl
@[simp] theorem State.setDesc_ctxs (d : DescId) (x : DescState) : (s.setDesc d x).qmg.ctxs = s.qmg.ctxs := rfl
@[simp] theorem State.setDesc_groups (d : DescId) (x : DescState) : (s.setDesc d x).qmg.groups = s.qmg.groups := rfl
@[simp] theorem State.setDesc_queues (d : DescId) (x : DescState) : (s.setDesc d x).qmg.queues = s.qmg.queues := rfl
@[simp] theorem State.setDesc_cxlUp (d : DescId) (x : DescState) : (s.setDesc d x).qmg.cxlUp = s.qmg.cxlUp := rfl
@[simp] theorem State.setDesc_held (d : DescId) (x : DescState) : (s.setDesc d x).qmg.held = s.qmg.held := rfl
@[simp] theorem State.setDesc_inc (d : DescId) (x : DescState) : (s.setDesc d x).qmg.inc = s.qmg.inc := rfl
@[simp] theorem State.setDesc_progress (d : DescId) (x : DescState) : (s.setDesc d x).qmg.progress = s.qmg.progress := rfl
@[simp] theorem State.setDesc_hangs (d : DescId) (x : DescState) : (s.setDesc d x).qmg.hangs = s.qmg.hangs := rfl

/-! ### dropDesc -/

@[simp] theorem State.dropDesc_pending (d : DescId) : (s.dropDesc d).pending = s.pending := rfl
@[simp] theorem State.dropDesc_free (d : DescId) : (s.dropDesc d).free = s.free := rfl
@[simp] theorem State.dropDesc_mem (d : DescId) : (s.dropDesc d).mem = s.mem := rfl
@[simp] theorem State.dropDesc_slots (d : DescId) : (s.dropDesc d).slots = s.slots := rfl
@[simp] theorem State.dropDesc_cores (d : DescId) : (s.dropDesc d).cores = s.cores := rfl
@[simp] theorem State.dropDesc_panels (d : DescId) : (s.dropDesc d).panels = s.panels := rfl
@[simp] theorem State.dropDesc_upd (d : DescId) : (s.dropDesc d).upd = s.upd := rfl
@[simp] theorem State.dropDesc_lnk (d : DescId) : (s.dropDesc d).lnk = s.lnk := rfl
@[simp] theorem State.dropDesc_gau (d : DescId) : (s.dropDesc d).gau = s.gau := rfl
@[simp] theorem State.dropDesc_colls (d : DescId) : (s.dropDesc d).colls = s.colls := rfl
@[simp] theorem State.dropDesc_jobs (d : DescId) : (s.dropDesc d).jobs = s.jobs := rfl
@[simp] theorem State.dropDesc_glb (d : DescId) : (s.dropDesc d).glb = s.glb := rfl
@[simp] theorem State.dropDesc_pwr (d : DescId) : (s.dropDesc d).pwr = s.pwr := rfl
@[simp] theorem State.dropDesc_sec (d : DescId) : (s.dropDesc d).sec = s.sec := rfl
@[simp] theorem State.dropDesc_ev (d : DescId) : (s.dropDesc d).ev = s.ev := rfl
@[simp] theorem State.dropDesc_out (d : DescId) : (s.dropDesc d).out = s.out := rfl
@[simp] theorem State.dropDesc_slot (d : DescId) (t' : Slot) : (s.dropDesc d).slot t' = s.slot t' := rfl
@[simp] theorem State.dropDesc_core (d : DescId) (c' : Core) : (s.dropDesc d).core c' = s.core c' := rfl
@[simp] theorem State.dropDesc_panel (d : DescId) (p' : Panel) : (s.dropDesc d).panel p' = s.panel p' := rfl
@[simp] theorem State.dropDesc_updEngine (d : DescId) (p' : Panel) : (s.dropDesc d).updEngine p' = s.updEngine p' := rfl
@[simp] theorem State.dropDesc_ctx (d : DescId) (c' : Ctx) : (s.dropDesc d).ctx c' = s.ctx c' := rfl
@[simp] theorem State.dropDesc_queue (d : DescId) (q' : Queue) : (s.dropDesc d).queue q' = s.queue q' := rfl
@[simp] theorem State.dropDesc_link (d : DescId) (l' : Link) : (s.dropDesc d).link l' = s.link l' := rfl
@[simp] theorem State.dropDesc_ring (d : DescId) (r' : Ring) : (s.dropDesc d).ring r' = s.ring r' := rfl
@[simp] theorem State.dropDesc_die (d : DescId) (d' : Die) : (s.dropDesc d).die d' = s.die d' := rfl
@[simp] theorem State.dropDesc_job (d : DescId) (j' : Job) : (s.dropDesc d).job j' = s.job j' := rfl
@[simp] theorem State.dropDesc_coll_opt (d : DescId) (d' : DescId) : (s.dropDesc d).coll? d' = s.coll? d' := rfl
@[simp] theorem State.dropDesc_bank (d : DescId) (k' : Space) : (s.dropDesc d).bank k' = s.bank k' := by cases k' <;> rfl
@[simp] theorem State.dropDesc_now (d : DescId) : (s.dropDesc d).now = s.now := rfl
@[simp] theorem State.dropDesc_csel (d : DescId) : (s.dropDesc d).qmg.csel = s.qmg.csel := rfl
@[simp] theorem State.dropDesc_gsel (d : DescId) : (s.dropDesc d).qmg.gsel = s.qmg.gsel := rfl
@[simp] theorem State.dropDesc_qsel (d : DescId) : (s.dropDesc d).qmg.qsel = s.qmg.qsel := rfl
@[simp] theorem State.dropDesc_ctxs (d : DescId) : (s.dropDesc d).qmg.ctxs = s.qmg.ctxs := rfl
@[simp] theorem State.dropDesc_groups (d : DescId) : (s.dropDesc d).qmg.groups = s.qmg.groups := rfl
@[simp] theorem State.dropDesc_queues (d : DescId) : (s.dropDesc d).qmg.queues = s.qmg.queues := rfl
@[simp] theorem State.dropDesc_cxlUp (d : DescId) : (s.dropDesc d).qmg.cxlUp = s.qmg.cxlUp := rfl
@[simp] theorem State.dropDesc_held (d : DescId) : (s.dropDesc d).qmg.held = s.qmg.held := rfl
@[simp] theorem State.dropDesc_inc (d : DescId) : (s.dropDesc d).qmg.inc = s.qmg.inc := rfl
@[simp] theorem State.dropDesc_progress (d : DescId) : (s.dropDesc d).qmg.progress = s.qmg.progress := rfl
@[simp] theorem State.dropDesc_hangs (d : DescId) : (s.dropDesc d).qmg.hangs = s.qmg.hangs := rfl

/-! ### setColl -/

@[simp] theorem State.setColl_pending (d : DescId) (x : CollState) : (s.setColl d x).pending = s.pending := rfl
@[simp] theorem State.setColl_free (d : DescId) (x : CollState) : (s.setColl d x).free = s.free := rfl
@[simp] theorem State.setColl_mem (d : DescId) (x : CollState) : (s.setColl d x).mem = s.mem := rfl
@[simp] theorem State.setColl_slots (d : DescId) (x : CollState) : (s.setColl d x).slots = s.slots := rfl
@[simp] theorem State.setColl_cores (d : DescId) (x : CollState) : (s.setColl d x).cores = s.cores := rfl
@[simp] theorem State.setColl_panels (d : DescId) (x : CollState) : (s.setColl d x).panels = s.panels := rfl
@[simp] theorem State.setColl_upd (d : DescId) (x : CollState) : (s.setColl d x).upd = s.upd := rfl
@[simp] theorem State.setColl_qmg (d : DescId) (x : CollState) : (s.setColl d x).qmg = s.qmg := rfl
@[simp] theorem State.setColl_lnk (d : DescId) (x : CollState) : (s.setColl d x).lnk = s.lnk := rfl
@[simp] theorem State.setColl_gau (d : DescId) (x : CollState) : (s.setColl d x).gau = s.gau := rfl
@[simp] theorem State.setColl_jobs (d : DescId) (x : CollState) : (s.setColl d x).jobs = s.jobs := rfl
@[simp] theorem State.setColl_glb (d : DescId) (x : CollState) : (s.setColl d x).glb = s.glb := rfl
@[simp] theorem State.setColl_pwr (d : DescId) (x : CollState) : (s.setColl d x).pwr = s.pwr := rfl
@[simp] theorem State.setColl_sec (d : DescId) (x : CollState) : (s.setColl d x).sec = s.sec := rfl
@[simp] theorem State.setColl_ev (d : DescId) (x : CollState) : (s.setColl d x).ev = s.ev := rfl
@[simp] theorem State.setColl_out (d : DescId) (x : CollState) : (s.setColl d x).out = s.out := rfl
@[simp] theorem State.setColl_slot (d : DescId) (x : CollState) (t' : Slot) : (s.setColl d x).slot t' = s.slot t' := rfl
@[simp] theorem State.setColl_core (d : DescId) (x : CollState) (c' : Core) : (s.setColl d x).core c' = s.core c' := rfl
@[simp] theorem State.setColl_panel (d : DescId) (x : CollState) (p' : Panel) : (s.setColl d x).panel p' = s.panel p' := rfl
@[simp] theorem State.setColl_updEngine (d : DescId) (x : CollState) (p' : Panel) : (s.setColl d x).updEngine p' = s.updEngine p' := rfl
@[simp] theorem State.setColl_ctx (d : DescId) (x : CollState) (c' : Ctx) : (s.setColl d x).ctx c' = s.ctx c' := rfl
@[simp] theorem State.setColl_queue (d : DescId) (x : CollState) (q' : Queue) : (s.setColl d x).queue q' = s.queue q' := rfl
@[simp] theorem State.setColl_link (d : DescId) (x : CollState) (l' : Link) : (s.setColl d x).link l' = s.link l' := rfl
@[simp] theorem State.setColl_ring (d : DescId) (x : CollState) (r' : Ring) : (s.setColl d x).ring r' = s.ring r' := rfl
@[simp] theorem State.setColl_die (d : DescId) (x : CollState) (d' : Die) : (s.setColl d x).die d' = s.die d' := rfl
@[simp] theorem State.setColl_job (d : DescId) (x : CollState) (j' : Job) : (s.setColl d x).job j' = s.job j' := rfl
@[simp] theorem State.setColl_desc_opt (d : DescId) (x : CollState) (d' : DescId) : (s.setColl d x).desc? d' = s.desc? d' := rfl
@[simp] theorem State.setColl_bank (d : DescId) (x : CollState) (k' : Space) : (s.setColl d x).bank k' = s.bank k' := by cases k' <;> rfl
@[simp] theorem State.setColl_now (d : DescId) (x : CollState) : (s.setColl d x).now = s.now := rfl

/-! ### dropColl -/

@[simp] theorem State.dropColl_pending (d : DescId) : (s.dropColl d).pending = s.pending := rfl
@[simp] theorem State.dropColl_free (d : DescId) : (s.dropColl d).free = s.free := rfl
@[simp] theorem State.dropColl_mem (d : DescId) : (s.dropColl d).mem = s.mem := rfl
@[simp] theorem State.dropColl_slots (d : DescId) : (s.dropColl d).slots = s.slots := rfl
@[simp] theorem State.dropColl_cores (d : DescId) : (s.dropColl d).cores = s.cores := rfl
@[simp] theorem State.dropColl_panels (d : DescId) : (s.dropColl d).panels = s.panels := rfl
@[simp] theorem State.dropColl_upd (d : DescId) : (s.dropColl d).upd = s.upd := rfl
@[simp] theorem State.dropColl_qmg (d : DescId) : (s.dropColl d).qmg = s.qmg := rfl
@[simp] theorem State.dropColl_lnk (d : DescId) : (s.dropColl d).lnk = s.lnk := rfl
@[simp] theorem State.dropColl_gau (d : DescId) : (s.dropColl d).gau = s.gau := rfl
@[simp] theorem State.dropColl_jobs (d : DescId) : (s.dropColl d).jobs = s.jobs := rfl
@[simp] theorem State.dropColl_glb (d : DescId) : (s.dropColl d).glb = s.glb := rfl
@[simp] theorem State.dropColl_pwr (d : DescId) : (s.dropColl d).pwr = s.pwr := rfl
@[simp] theorem State.dropColl_sec (d : DescId) : (s.dropColl d).sec = s.sec := rfl
@[simp] theorem State.dropColl_ev (d : DescId) : (s.dropColl d).ev = s.ev := rfl
@[simp] theorem State.dropColl_out (d : DescId) : (s.dropColl d).out = s.out := rfl
@[simp] theorem State.dropColl_slot (d : DescId) (t' : Slot) : (s.dropColl d).slot t' = s.slot t' := rfl
@[simp] theorem State.dropColl_core (d : DescId) (c' : Core) : (s.dropColl d).core c' = s.core c' := rfl
@[simp] theorem State.dropColl_panel (d : DescId) (p' : Panel) : (s.dropColl d).panel p' = s.panel p' := rfl
@[simp] theorem State.dropColl_updEngine (d : DescId) (p' : Panel) : (s.dropColl d).updEngine p' = s.updEngine p' := rfl
@[simp] theorem State.dropColl_ctx (d : DescId) (c' : Ctx) : (s.dropColl d).ctx c' = s.ctx c' := rfl
@[simp] theorem State.dropColl_queue (d : DescId) (q' : Queue) : (s.dropColl d).queue q' = s.queue q' := rfl
@[simp] theorem State.dropColl_link (d : DescId) (l' : Link) : (s.dropColl d).link l' = s.link l' := rfl
@[simp] theorem State.dropColl_ring (d : DescId) (r' : Ring) : (s.dropColl d).ring r' = s.ring r' := rfl
@[simp] theorem State.dropColl_die (d : DescId) (d' : Die) : (s.dropColl d).die d' = s.die d' := rfl
@[simp] theorem State.dropColl_job (d : DescId) (j' : Job) : (s.dropColl d).job j' = s.job j' := rfl
@[simp] theorem State.dropColl_desc_opt (d : DescId) (d' : DescId) : (s.dropColl d).desc? d' = s.desc? d' := rfl
@[simp] theorem State.dropColl_bank (d : DescId) (k' : Space) : (s.dropColl d).bank k' = s.bank k' := by cases k' <;> rfl
@[simp] theorem State.dropColl_now (d : DescId) : (s.dropColl d).now = s.now := rfl

/-! ### emit -/

@[simp] theorem State.emit_pending (o : Output) : (s.emit o).pending = s.pending := rfl
@[simp] theorem State.emit_free (o : Output) : (s.emit o).free = s.free := rfl
@[simp] theorem State.emit_mem (o : Output) : (s.emit o).mem = s.mem := rfl
@[simp] theorem State.emit_slots (o : Output) : (s.emit o).slots = s.slots := rfl
@[simp] theorem State.emit_cores (o : Output) : (s.emit o).cores = s.cores := rfl
@[simp] theorem State.emit_panels (o : Output) : (s.emit o).panels = s.panels := rfl
@[simp] theorem State.emit_upd (o : Output) : (s.emit o).upd = s.upd := rfl
@[simp] theorem State.emit_qmg (o : Output) : (s.emit o).qmg = s.qmg := rfl
@[simp] theorem State.emit_lnk (o : Output) : (s.emit o).lnk = s.lnk := rfl
@[simp] theorem State.emit_gau (o : Output) : (s.emit o).gau = s.gau := rfl
@[simp] theorem State.emit_colls (o : Output) : (s.emit o).colls = s.colls := rfl
@[simp] theorem State.emit_jobs (o : Output) : (s.emit o).jobs = s.jobs := rfl
@[simp] theorem State.emit_glb (o : Output) : (s.emit o).glb = s.glb := rfl
@[simp] theorem State.emit_pwr (o : Output) : (s.emit o).pwr = s.pwr := rfl
@[simp] theorem State.emit_sec (o : Output) : (s.emit o).sec = s.sec := rfl
@[simp] theorem State.emit_ev (o : Output) : (s.emit o).ev = s.ev := rfl
@[simp] theorem State.emit_slot (o : Output) (t' : Slot) : (s.emit o).slot t' = s.slot t' := rfl
@[simp] theorem State.emit_core (o : Output) (c' : Core) : (s.emit o).core c' = s.core c' := rfl
@[simp] theorem State.emit_panel (o : Output) (p' : Panel) : (s.emit o).panel p' = s.panel p' := rfl
@[simp] theorem State.emit_updEngine (o : Output) (p' : Panel) : (s.emit o).updEngine p' = s.updEngine p' := rfl
@[simp] theorem State.emit_ctx (o : Output) (c' : Ctx) : (s.emit o).ctx c' = s.ctx c' := rfl
@[simp] theorem State.emit_queue (o : Output) (q' : Queue) : (s.emit o).queue q' = s.queue q' := rfl
@[simp] theorem State.emit_link (o : Output) (l' : Link) : (s.emit o).link l' = s.link l' := rfl
@[simp] theorem State.emit_ring (o : Output) (r' : Ring) : (s.emit o).ring r' = s.ring r' := rfl
@[simp] theorem State.emit_die (o : Output) (d' : Die) : (s.emit o).die d' = s.die d' := rfl
@[simp] theorem State.emit_job (o : Output) (j' : Job) : (s.emit o).job j' = s.job j' := rfl
@[simp] theorem State.emit_desc_opt (o : Output) (d' : DescId) : (s.emit o).desc? d' = s.desc? d' := rfl
@[simp] theorem State.emit_coll_opt (o : Output) (d' : DescId) : (s.emit o).coll? d' = s.coll? d' := rfl
@[simp] theorem State.emit_bank (o : Output) (k' : Space) : (s.emit o).bank k' = s.bank k' := by cases k' <;> rfl
@[simp] theorem State.emit_now (o : Output) : (s.emit o).now = s.now := rfl

/-! ### setBank -/

@[simp] theorem State.setBank_pending (k : Space) (b : Bank) : (s.setBank k b).pending = s.pending := by cases k <;> rfl
@[simp] theorem State.setBank_free (k : Space) (b : Bank) : (s.setBank k b).free = s.free := by cases k <;> rfl
@[simp] theorem State.setBank_slots (k : Space) (b : Bank) : (s.setBank k b).slots = s.slots := by cases k <;> rfl
@[simp] theorem State.setBank_cores (k : Space) (b : Bank) : (s.setBank k b).cores = s.cores := by cases k <;> rfl
@[simp] theorem State.setBank_panels (k : Space) (b : Bank) : (s.setBank k b).panels = s.panels := by cases k <;> rfl
@[simp] theorem State.setBank_upd (k : Space) (b : Bank) : (s.setBank k b).upd = s.upd := by cases k <;> rfl
@[simp] theorem State.setBank_qmg (k : Space) (b : Bank) : (s.setBank k b).qmg = s.qmg := by cases k <;> rfl
@[simp] theorem State.setBank_lnk (k : Space) (b : Bank) : (s.setBank k b).lnk = s.lnk := by cases k <;> rfl
@[simp] theorem State.setBank_gau (k : Space) (b : Bank) : (s.setBank k b).gau = s.gau := by cases k <;> rfl
@[simp] theorem State.setBank_colls (k : Space) (b : Bank) : (s.setBank k b).colls = s.colls := by cases k <;> rfl
@[simp] theorem State.setBank_jobs (k : Space) (b : Bank) : (s.setBank k b).jobs = s.jobs := by cases k <;> rfl
@[simp] theorem State.setBank_glb (k : Space) (b : Bank) : (s.setBank k b).glb = s.glb := by cases k <;> rfl
@[simp] theorem State.setBank_pwr (k : Space) (b : Bank) : (s.setBank k b).pwr = s.pwr := by cases k <;> rfl
@[simp] theorem State.setBank_sec (k : Space) (b : Bank) : (s.setBank k b).sec = s.sec := by cases k <;> rfl
@[simp] theorem State.setBank_ev (k : Space) (b : Bank) : (s.setBank k b).ev = s.ev := by cases k <;> rfl
@[simp] theorem State.setBank_out (k : Space) (b : Bank) : (s.setBank k b).out = s.out := by cases k <;> rfl
@[simp] theorem State.setBank_slot (k : Space) (b : Bank) (t' : Slot) : (s.setBank k b).slot t' = s.slot t' := by cases k <;> rfl
@[simp] theorem State.setBank_core (k : Space) (b : Bank) (c' : Core) : (s.setBank k b).core c' = s.core c' := by cases k <;> rfl
@[simp] theorem State.setBank_panel (k : Space) (b : Bank) (p' : Panel) : (s.setBank k b).panel p' = s.panel p' := by cases k <;> rfl
@[simp] theorem State.setBank_updEngine (k : Space) (b : Bank) (p' : Panel) : (s.setBank k b).updEngine p' = s.updEngine p' := by cases k <;> rfl
@[simp] theorem State.setBank_ctx (k : Space) (b : Bank) (c' : Ctx) : (s.setBank k b).ctx c' = s.ctx c' := by cases k <;> rfl
@[simp] theorem State.setBank_queue (k : Space) (b : Bank) (q' : Queue) : (s.setBank k b).queue q' = s.queue q' := by cases k <;> rfl
@[simp] theorem State.setBank_link (k : Space) (b : Bank) (l' : Link) : (s.setBank k b).link l' = s.link l' := by cases k <;> rfl
@[simp] theorem State.setBank_ring (k : Space) (b : Bank) (r' : Ring) : (s.setBank k b).ring r' = s.ring r' := by cases k <;> rfl
@[simp] theorem State.setBank_die (k : Space) (b : Bank) (d' : Die) : (s.setBank k b).die d' = s.die d' := by cases k <;> rfl
@[simp] theorem State.setBank_job (k : Space) (b : Bank) (j' : Job) : (s.setBank k b).job j' = s.job j' := by cases k <;> rfl
@[simp] theorem State.setBank_desc_opt (k : Space) (b : Bank) (d' : DescId) : (s.setBank k b).desc? d' = s.desc? d' := by cases k <;> rfl
@[simp] theorem State.setBank_coll_opt (k : Space) (b : Bank) (d' : DescId) : (s.setBank k b).coll? d' = s.coll? d' := by cases k <;> rfl
@[simp] theorem State.setBank_now (k : Space) (b : Bank) : (s.setBank k b).now = s.now := by cases k <;> rfl

/-! ### setMemCtl -/

@[simp] theorem State.setMemCtl_pending (p : Panel) (c : MemCtl) : (s.setMemCtl p c).pending = s.pending := rfl
@[simp] theorem State.setMemCtl_free (p : Panel) (c : MemCtl) : (s.setMemCtl p c).free = s.free := rfl
@[simp] theorem State.setMemCtl_slots (p : Panel) (c : MemCtl) : (s.setMemCtl p c).slots = s.slots := rfl
@[simp] theorem State.setMemCtl_cores (p : Panel) (c : MemCtl) : (s.setMemCtl p c).cores = s.cores := rfl
@[simp] theorem State.setMemCtl_panels (p : Panel) (c : MemCtl) : (s.setMemCtl p c).panels = s.panels := rfl
@[simp] theorem State.setMemCtl_upd (p : Panel) (c : MemCtl) : (s.setMemCtl p c).upd = s.upd := rfl
@[simp] theorem State.setMemCtl_qmg (p : Panel) (c : MemCtl) : (s.setMemCtl p c).qmg = s.qmg := rfl
@[simp] theorem State.setMemCtl_lnk (p : Panel) (c : MemCtl) : (s.setMemCtl p c).lnk = s.lnk := rfl
@[simp] theorem State.setMemCtl_gau (p : Panel) (c : MemCtl) : (s.setMemCtl p c).gau = s.gau := rfl
@[simp] theorem State.setMemCtl_colls (p : Panel) (c : MemCtl) : (s.setMemCtl p c).colls = s.colls := rfl
@[simp] theorem State.setMemCtl_jobs (p : Panel) (c : MemCtl) : (s.setMemCtl p c).jobs = s.jobs := rfl
@[simp] theorem State.setMemCtl_glb (p : Panel) (c : MemCtl) : (s.setMemCtl p c).glb = s.glb := rfl
@[simp] theorem State.setMemCtl_pwr (p : Panel) (c : MemCtl) : (s.setMemCtl p c).pwr = s.pwr := rfl
@[simp] theorem State.setMemCtl_sec (p : Panel) (c : MemCtl) : (s.setMemCtl p c).sec = s.sec := rfl
@[simp] theorem State.setMemCtl_ev (p : Panel) (c : MemCtl) : (s.setMemCtl p c).ev = s.ev := rfl
@[simp] theorem State.setMemCtl_out (p : Panel) (c : MemCtl) : (s.setMemCtl p c).out = s.out := rfl
@[simp] theorem State.setMemCtl_slot (p : Panel) (c : MemCtl) (t' : Slot) : (s.setMemCtl p c).slot t' = s.slot t' := rfl
@[simp] theorem State.setMemCtl_core (p : Panel) (c : MemCtl) (c' : Core) : (s.setMemCtl p c).core c' = s.core c' := rfl
@[simp] theorem State.setMemCtl_panel (p : Panel) (c : MemCtl) (p' : Panel) : (s.setMemCtl p c).panel p' = s.panel p' := rfl
@[simp] theorem State.setMemCtl_updEngine (p : Panel) (c : MemCtl) (p' : Panel) : (s.setMemCtl p c).updEngine p' = s.updEngine p' := rfl
@[simp] theorem State.setMemCtl_ctx (p : Panel) (c : MemCtl) (c' : Ctx) : (s.setMemCtl p c).ctx c' = s.ctx c' := rfl
@[simp] theorem State.setMemCtl_queue (p : Panel) (c : MemCtl) (q' : Queue) : (s.setMemCtl p c).queue q' = s.queue q' := rfl
@[simp] theorem State.setMemCtl_link (p : Panel) (c : MemCtl) (l' : Link) : (s.setMemCtl p c).link l' = s.link l' := rfl
@[simp] theorem State.setMemCtl_ring (p : Panel) (c : MemCtl) (r' : Ring) : (s.setMemCtl p c).ring r' = s.ring r' := rfl
@[simp] theorem State.setMemCtl_die (p : Panel) (c : MemCtl) (d' : Die) : (s.setMemCtl p c).die d' = s.die d' := rfl
@[simp] theorem State.setMemCtl_job (p : Panel) (c : MemCtl) (j' : Job) : (s.setMemCtl p c).job j' = s.job j' := rfl
@[simp] theorem State.setMemCtl_desc_opt (p : Panel) (c : MemCtl) (d' : DescId) : (s.setMemCtl p c).desc? d' = s.desc? d' := rfl
@[simp] theorem State.setMemCtl_coll_opt (p : Panel) (c : MemCtl) (d' : DescId) : (s.setMemCtl p c).coll? d' = s.coll? d' := rfl
@[simp] theorem State.setMemCtl_now (p : Panel) (c : MemCtl) : (s.setMemCtl p c).now = s.now := rfl

/-! ### What was set is read -/

@[simp] theorem State.setSlot_slot_same (t : Slot) (x : SlotState) : (s.setSlot t x).slot t = x :=
  tabGet_tabSet_same _ _ _ _
theorem State.setSlot_slot_ne {t t' : Slot} (x : SlotState) (h : t' ≠ t) : (s.setSlot t x).slot t' = s.slot t' :=
  tabGet_tabSet_ne _ _ _ fun e => h (Fin.ext e)
@[simp] theorem State.setSlot_setSlot (t : Slot) (x y : SlotState) : (s.setSlot t x).setSlot t y = s.setSlot t y := by
  simp [State.setSlot]
@[simp] theorem State.setCore_core_same (c : Core) (x : CoreState) : (s.setCore c x).core c = x :=
  tabGet_tabSet_same _ _ _ _
theorem State.setCore_core_ne {c c' : Core} (x : CoreState) (h : c' ≠ c) : (s.setCore c x).core c' = s.core c' :=
  tabGet_tabSet_ne _ _ _ fun e => h (Fin.ext e)
@[simp] theorem State.setCore_setCore (c : Core) (x y : CoreState) : (s.setCore c x).setCore c y = s.setCore c y := by
  simp [State.setCore]
@[simp] theorem State.setPanel_panel_same (p : Panel) (x : PanelState) : (s.setPanel p x).panel p = x :=
  tabGet_tabSet_same _ _ _ _
theorem State.setPanel_panel_ne {p p' : Panel} (x : PanelState) (h : p' ≠ p) : (s.setPanel p x).panel p' = s.panel p' :=
  tabGet_tabSet_ne _ _ _ fun e => h (Fin.ext e)
@[simp] theorem State.setPanel_setPanel (p : Panel) (x y : PanelState) : (s.setPanel p x).setPanel p y = s.setPanel p y := by
  simp [State.setPanel]
@[simp] theorem State.setUpdEngine_updEngine_same (p : Panel) (x : UpdState) : (s.setUpdEngine p x).updEngine p = x :=
  tabGet_tabSet_same _ _ _ _
theorem State.setUpdEngine_updEngine_ne {p p' : Panel} (x : UpdState) (h : p' ≠ p) : (s.setUpdEngine p x).updEngine p' = s.updEngine p' :=
  tabGet_tabSet_ne _ _ _ fun e => h (Fin.ext e)
@[simp] theorem State.setUpdEngine_setUpdEngine (p : Panel) (x y : UpdState) : (s.setUpdEngine p x).setUpdEngine p y = s.setUpdEngine p y := by
  simp [State.setUpdEngine]
@[simp] theorem State.setCtx_ctx_same (c : Ctx) (x : CtxState) : (s.setCtx c x).ctx c = x :=
  tabGet_tabSet_same _ _ _ _
theorem State.setCtx_ctx_ne {c c' : Ctx} (x : CtxState) (h : c' ≠ c) : (s.setCtx c x).ctx c' = s.ctx c' :=
  tabGet_tabSet_ne _ _ _ fun e => h (Fin.ext e)
@[simp] theorem State.setCtx_setCtx (c : Ctx) (x y : CtxState) : (s.setCtx c x).setCtx c y = s.setCtx c y := by
  simp [State.setCtx]
@[simp] theorem State.setQueue_queue_same (q : Queue) (x : QueueState) : (s.setQueue q x).queue q = x :=
  tabGet_tabSet_same _ _ _ _
theorem State.setQueue_queue_ne {q q' : Queue} (x : QueueState) (h : q' ≠ q) : (s.setQueue q x).queue q' = s.queue q' :=
  tabGet_tabSet_ne _ _ _ fun e => h (Fin.ext e)
@[simp] theorem State.setQueue_setQueue (q : Queue) (x y : QueueState) : (s.setQueue q x).setQueue q y = s.setQueue q y := by
  simp [State.setQueue]
@[simp] theorem State.setLink_link_same (l : Link) (x : LinkState) : (s.setLink l x).link l = x :=
  tabGet_tabSet_same _ _ _ _
theorem State.setLink_link_ne {l l' : Link} (x : LinkState) (h : l' ≠ l) : (s.setLink l x).link l' = s.link l' :=
  tabGet_tabSet_ne _ _ _ fun e => h (Fin.ext e)
@[simp] theorem State.setLink_setLink (l : Link) (x y : LinkState) : (s.setLink l x).setLink l y = s.setLink l y := by
  simp [State.setLink]
@[simp] theorem State.setRing_ring_same (r : Ring) (x : RingState) : (s.setRing r x).ring r = x :=
  tabGet_tabSet_same _ _ _ _
theorem State.setRing_ring_ne {r r' : Ring} (x : RingState) (h : r' ≠ r) : (s.setRing r x).ring r' = s.ring r' :=
  tabGet_tabSet_ne _ _ _ fun e => h (Fin.ext e)
@[simp] theorem State.setRing_setRing (r : Ring) (x y : RingState) : (s.setRing r x).setRing r y = s.setRing r y := by
  simp [State.setRing]
@[simp] theorem State.setDie_die_same (d : Die) (x : DieState) : (s.setDie d x).die d = x :=
  tabGet_tabSet_same _ _ _ _
theorem State.setDie_die_ne {d d' : Die} (x : DieState) (h : d' ≠ d) : (s.setDie d x).die d' = s.die d' :=
  tabGet_tabSet_ne _ _ _ fun e => h (Fin.ext e)
@[simp] theorem State.setDie_setDie (d : Die) (x y : DieState) : (s.setDie d x).setDie d y = s.setDie d y := by
  simp [State.setDie]
@[simp] theorem State.setJob_job_same (j : Job) (x : JobState) : (s.setJob j x).job j = x :=
  tabGet_tabSet_same _ _ _ _
theorem State.setJob_job_ne {j j' : Job} (x : JobState) (h : j' ≠ j) : (s.setJob j x).job j' = s.job j' :=
  tabGet_tabSet_ne _ _ _ fun e => h (Fin.ext e)
@[simp] theorem State.setJob_setJob (j : Job) (x y : JobState) : (s.setJob j x).setJob j y = s.setJob j y := by
  simp [State.setJob]

/-- Descriptors have different keys. -/
theorem descKey_inj {d e : DescId} (h : descKey d = descKey e) : d = e := by
  obtain ⟨q, n⟩ := d
  obtain ⟨q', n'⟩ := e
  simp only [descKey] at h
  have hn := n.isLt
  have hn' := n'.isLt
  have h1 : q.val = q'.val := by omega
  have h2 : n.toNat = n'.toNat := by omega
  cases Fin.ext h1
  cases BitVec.eq_of_toNat_eq h2
  rfl

@[simp] theorem State.setDesc_desc_same (d : DescId) (x : DescState) : (s.setDesc d x).desc? d = some x :=
  tabFind_tabPut_same _ _ _

theorem State.setDesc_desc_ne {d d' : DescId} (x : DescState) (h : d' ≠ d) : (s.setDesc d x).desc? d' = s.desc? d' :=
  tabFind_tabPut_ne _ _ fun e => h (descKey_inj e)

@[simp] theorem State.setDesc_setDesc (d : DescId) (x y : DescState) : (s.setDesc d x).setDesc d y = s.setDesc d y := by
  simp [State.setDesc]

@[simp] theorem State.dropDesc_desc_same (d : DescId) : (s.dropDesc d).desc? d = none :=
  tabFind_tabErase_same _ _

theorem State.dropDesc_desc_ne {d d' : DescId} (h : d' ≠ d) : (s.dropDesc d).desc? d' = s.desc? d' :=
  tabFind_tabErase_ne _ fun e => h (descKey_inj e)

@[simp] theorem State.setColl_coll_same (d : DescId) (x : CollState) : (s.setColl d x).coll? d = some x :=
  tabFind_tabPut_same _ _ _

theorem State.setColl_coll_ne {d d' : DescId} (x : CollState) (h : d' ≠ d) : (s.setColl d x).coll? d' = s.coll? d' :=
  tabFind_tabPut_ne _ _ fun e => h (descKey_inj e)

@[simp] theorem State.setColl_setColl (d : DescId) (x y : CollState) : (s.setColl d x).setColl d y = s.setColl d y := by
  simp [State.setColl]

@[simp] theorem State.setBank_bank_same (k : Space) (b : Bank) : (s.setBank k b).bank k = b := by cases k <;> rfl

theorem State.setBank_bank_ne {k k' : Space} (b : Bank) (h : k' ≠ k) : (s.setBank k b).bank k' = s.bank k' := by
  cases k <;> cases k' <;> first | rfl | exact absurd rfl h

@[simp] theorem State.setBank_setBank (k : Space) (b c : Bank) : (s.setBank k b).setBank k c = s.setBank k c := by
  cases k <;> rfl

/-! ### Free values -/

@[simp] theorem State.draw_fst : s.draw.1 = s.free := rfl
@[simp] theorem State.draw_snd : s.draw.2 = { s with free := s.free + 1 } := rfl

/-! ### Engines of a core -/

@[simp] theorem CoreState.setEng_eng_same (c : CoreState) (k : EngineKind) (e : EngState) : (c.setEng k e).eng k = e := by
  cases k <;> rfl

theorem CoreState.setEng_eng_ne {k k' : EngineKind} (c : CoreState) (e : EngState) (h : k' ≠ k) :
    (c.setEng k e).eng k' = c.eng k' := by
  cases k <;> cases k' <;> first | rfl | exact absurd rfl h

@[simp] theorem State.setEngine_engine_same (c : Core) (k : EngineKind) (e : EngState) : (s.setEngine c k e).engine c k = e := by
  simp [State.setEngine, State.engine]

end Sys2Proof.Machine
end

