-- ==== Sys2Proof/Laws/Memory.lean ====
section
/-!
SUPPORT. The laws of the memories: what a byte reads as after a write, what a write leaves alone, and that every operation
keeps the canonical form of the byte table.
-/

namespace Sys2Proof.Machine

open Sys2Proof

/-! ### One byte -/

@[simp] theorem readByte_writeByte_same (b : Bank) (a : Nat) (v : Byte) : readByte (writeByte b a v) a = v :=
  tabGet_tabSet_same _ _ _ _

theorem readByte_writeByte_ne (b : Bank) {a a' : Nat} (v : Byte) (h : a' ≠ a) :
    readByte (writeByte b a v) a' = readByte b a' :=
  tabGet_tabSet_ne _ _ _ h

/-! ### Writes of many bytes -/

/-- A write leaves every byte outside it alone. -/
theorem readByte_writeBytes_outside :
    ∀ (data : List Byte) (b : Bank) (a x : Nat), x < a ∨ a + data.length ≤ x → readByte (writeBytes b a data) x = readByte b x
  | [], _, _, _, _ => rfl
  | v :: t, b, a, x, h => by
    simp only [List.length_cons] at h
    rw [writeBytes, readByte_writeBytes_outside t _ _ _ (by omega), readByte_writeByte_ne _ _ (by omega)]

/-- A write puts byte i of its data at place i. -/
theorem readByte_writeBytes_inside :
    ∀ (data : List Byte) (b : Bank) (a i : Nat) (h : i < data.length), readByte (writeBytes b a data) (a + i) = data[i]
  | v :: t, b, a, 0, _ => by
    rw [writeBytes, readByte_writeBytes_outside t _ _ _ (by omega)]
    simp
  | v :: t, b, a, i + 1, h => by
    have := readByte_writeBytes_inside t (writeByte b a v) (a + 1) i (by simpa using h)
    rw [writeBytes, show a + (i + 1) = a + 1 + i by omega, this]
    rfl

@[simp] theorem writeByte_poison (b : Bank) (a : Nat) (v : Byte) : (writeByte b a v).poison = b.poison := rfl

@[simp] theorem writeBytes_poison : ∀ (data : List Byte) (b : Bank) (a : Nat), (writeBytes b a data).poison = b.poison
  | [], _, _ => rfl
  | v :: t, b, a => by rw [writeBytes, writeBytes_poison t]; rfl

@[simp] theorem readByte_setPoison (b : Bank) (a n x : Nat) : readByte (setPoison b a n) x = readByte b x := rfl
@[simp] theorem readByte_clearWhole (b : Bank) (a n x : Nat) : readByte (clearWhole b a n) x = readByte b x := rfl

@[simp] theorem readByte_bankWrite (b : Bank) (a : Nat) (data : List Byte) (bad : Bool) (x : Nat) :
    readByte (bankWrite b a data bad) x = readByte (writeBytes b a data) x := by
  unfold bankWrite
  split <;> simp

/-- What a memory write leaves alone. -/
theorem readByte_bankWrite_outside (b : Bank) (a : Nat) (data : List Byte) (bad : Bool) (x : Nat)
    (h : x < a ∨ a + data.length ≤ x) : readByte (bankWrite b a data bad) x = readByte b x := by
  rw [readByte_bankWrite, readByte_writeBytes_outside _ _ _ _ h]

theorem readByte_bankWrite_inside (b : Bank) (a : Nat) (data : List Byte) (bad : Bool) (i : Nat) (h : i < data.length) :
    readByte (bankWrite b a data bad) (a + i) = data[i] := by
  rw [readByte_bankWrite, readByte_writeBytes_inside _ _ _ _ h]

/-! ### Reads of many bytes -/

@[simp] theorem readBytes_length (b : Bank) : ∀ (n a : Nat), (readBytes b a n).length = n
  | 0, _ => rfl
  | n + 1, a => by rw [readBytes, List.length_cons, readBytes_length b n]

/-- Reads that see the same bytes are equal. -/
theorem readBytes_congr (b c : Bank) : ∀ (n a : Nat), (∀ x, a ≤ x → x < a + n → readByte b x = readByte c x) →
    readBytes b a n = readBytes c a n
  | 0, _, _ => rfl
  | n + 1, a, h => by
    rw [readBytes, readBytes, h a (by omega) (by omega), readBytes_congr b c n (a + 1) fun x h1 h2 => h x (by omega) (by omega)]

/-- A read of what was just written gives it back. -/
theorem readBytes_writeBytes : ∀ (data : List Byte) (b : Bank) (a : Nat), readBytes (writeBytes b a data) a data.length = data
  | [], _, _ => rfl
  | v :: t, b, a => by
    rw [List.length_cons, readBytes, writeBytes, readBytes_writeBytes t]
    rw [readByte_writeBytes_outside t _ _ _ (by omega)]
    simp

/-- A read beside a write sees what stood there. -/
theorem readBytes_writeBytes_outside (data : List Byte) (b : Bank) (a x n : Nat) (h : x + n ≤ a ∨ a + data.length ≤ x) :
    readBytes (writeBytes b a data) x n = readBytes b x n :=
  readBytes_congr _ _ _ _ fun y h1 h2 => readByte_writeBytes_outside _ _ _ _ (by omega)

/-! ### Byte order (R7) -/

@[simp] theorem leBytes_length : ∀ n v, (leBytes n v).length = n
  | 0, _ => rfl
  | n + 1, v => by rw [leBytes, List.length_cons, leBytes_length n]

theorem ofLE_leBytes : ∀ n v, ofLE (leBytes n v) = v % 256 ^ n
  | 0, v => by simp [leBytes, ofLE, Nat.mod_one]
  | n + 1, v => by
    rw [leBytes, ofLE, ofLE_leBytes n, BitVec.toNat_ofNat, Nat.pow_succ 256 n, Nat.mul_comm (256 ^ n) 256, Nat.mod_mul]

/-- A little-endian number just written is read back. -/
theorem readNat_writeBytes (b : Bank) (a n v : Nat) : readNat (writeBytes b a (leBytes n v)) a n = v % 256 ^ n := by
  have := readBytes_writeBytes (leBytes n v) b a
  rw [leBytes_length] at this
  rw [readNat, this, ofLE_leBytes]

/-! ### The canonical form -/

theorem writeByte_wf (b : Bank) (a : Nat) (v : Byte) (h : b.wf = true) : (writeByte b a v).wf = true :=
  tabSet_wf _ _ _ _ h

theorem writeBytes_wf : ∀ (data : List Byte) (b : Bank) (a : Nat), b.wf = true → (writeBytes b a data).wf = true
  | [], _, _, h => h
  | v :: t, b, a, h => writeBytes_wf t _ _ (writeByte_wf b a v h)

theorem setPoison_wf (b : Bank) (a n : Nat) (h : b.wf = true) : (setPoison b a n).wf = true := h

theorem clearWhole_wf (b : Bank) (a n : Nat) (h : b.wf = true) : (clearWhole b a n).wf = true := h

/-- A memory write keeps the canonical form. -/
theorem bankWrite_wf (b : Bank) (a : Nat) (data : List Byte) (bad : Bool) (h : b.wf = true) :
    (bankWrite b a data bad).wf = true := by
  unfold bankWrite
  split
  · exact setPoison_wf _ _ _ (clearWhole_wf _ _ _ (writeBytes_wf data b a h))
  · exact clearWhole_wf _ _ _ (writeBytes_wf data b a h)

/-- The canonical form of all memories, bank by bank. -/
theorem MemState.wf_iff (m : MemState) :
    m.wf = true ↔ m.gddr.wf = true ∧ m.bench.wf = true ∧ m.pstore.wf = true ∧ m.host.wf = true ∧ m.flash.wf = true
      ∧ m.secSram.wf = true ∧ m.linkFw.wf = true := by
  simp [MemState.wf, and_assoc]

theorem State.bank_wf (s : State) (k : Space) (h : s.mem.wf = true) : (s.bank k).wf = true := by
  obtain ⟨h1, h2, h3, h4, h5, h6, h7⟩ := (MemState.wf_iff _).1 h
  cases k <;> assumption

theorem State.setBank_wf (s : State) (k : Space) (b : Bank) (h : s.mem.wf = true) (hb : b.wf = true) :
    (s.setBank k b).mem.wf = true := by
  obtain ⟨h1, h2, h3, h4, h5, h6, h7⟩ := (MemState.wf_iff _).1 h
  refine (MemState.wf_iff _).2 ?_
  cases k <;> refine ⟨?_, ?_, ?_, ?_, ?_, ?_, ?_⟩ <;> assumption

theorem reset_mem_wf : State.reset.mem.wf = true := rfl

theorem reset_banks_wf (k : Space) : (State.reset.bank k).wf = true := by cases k <;> rfl

end Sys2Proof.Machine
end

