-- ==== Sys2Proof/Laws/Slots.lean ====
section
/-!
SUPPORT. What an engine's queue can do to the thread slots: no command that enters or leaves a queue stops a slot, so a bundle that
no operation of its own has stopped goes on to the next.
-/

namespace Sys2Proof.Machine

open Sys2Proof

/-! ### Operations that leave the slots alone -/

@[simp] theorem applyWrite_slots (s : State) (w : MemWrite) : (applyWrite s w).slots = s.slots := by
  unfold applyWrite
  split
  · unfold gddrWrite; dsimp only; split <;> rfl
  · unfold State.setBank; split <;> rfl

@[simp] theorem setEngine_slots (s : State) (c : Core) (k : EngineKind) (e : EngState) :
    (s.setEngine c k e).slots = s.slots := rfl

@[simp] theorem scPut_slots (s : State) (n : ScName) (v : W32) : (scPut s n v).slots = s.slots := by
  cases n <;> rfl

@[simp] theorem lateDrop_slots (s : State) (n : Nat) : (lateDrop s n).slots = s.slots := rfl

@[simp] theorem putInc_slots (s : State) (n : ScName) (i : TaggedInc) : (putInc s n i).slots = s.slots := by
  unfold putInc; split <;> simp

@[simp] theorem releaseHandles_slots (s : State) (c : Core) (l : List Nat) : (releaseHandles s c l).slots = s.slots := by
  unfold releaseHandles; split <;> rfl

@[simp] theorem spoilHandle_slots (s : State) (c : Core) (hn : Nat) (hit : Nat → Nat → Bool) :
    (spoilHandle s c hn hit).slots = s.slots := by
  unfold spoilHandle; split <;> rfl

@[simp] theorem spoilTile_slots (s : State) (c : Core) (p : Nat) (hit : Nat → Nat → Bool) :
    (spoilTile s c p hit).slots = s.slots := by
  unfold spoilTile; dsimp only; split
  · rfl
  · split
    · rfl
    · rw [spoilHandle_slots]; rfl

/-- A fold of steps that leave the slots alone leaves them alone. -/
theorem foldl_slots {β : Type} (g : State → β → State) (h : ∀ s b, (g s b).slots = s.slots) (l : List β) (s : State) :
    (l.foldl g s).slots = s.slots := by
  induction l generalizing s with
  | nil => rfl
  | cons b t ih => rw [List.foldl_cons, ih, h]

@[simp] theorem spoilTiles_slots (b : Bool) (s : State) (w : MemWrite) : (spoilTiles b s w).slots = s.slots := by
  unfold spoilTiles; split
  · exact foldl_slots _ (fun s (p : Nat × EngCmd) => spoilTile_slots s _ p.1 _) _ _
  · rfl

@[simp] theorem spoilPasses_slots (s : State) (w : MemWrite) : (spoilPasses s w).slots = s.slots := by
  unfold spoilPasses; split
  · dsimp only; split <;> rfl
  · rfl

@[simp] theorem spoilBy_slots (k : EngineKind) (s : State) (w : MemWrite) : (spoilBy k s w).slots = s.slots := by
  unfold spoilBy; dsimp only; split <;> split <;> simp

/-! ### A slot that runs is not stopped -/

/-- Every slot that is stopped in u was stopped in s. -/
def NoNewStop (s u : State) : Prop := ∀ t, (u.slot t).stopped = true → (s.slot t).stopped = true

theorem NoNewStop.refl (s : State) : NoNewStop s s := fun _ h => h
theorem NoNewStop.trans {s u v : State} (h : NoNewStop s u) (k : NoNewStop u v) : NoNewStop s v := fun t x => h t (k t x)
theorem NoNewStop.of_slots {s u : State} (h : u.slots = s.slots) : NoNewStop s u := fun t x => by
  simpa only [State.slot, h] using x

theorem noNewStop_setSlot (s : State) (t : Slot) (x : SlotState) (h : x.stopped = true → (s.slot t).stopped = true) :
    NoNewStop s (s.setSlot t x) := by
  intro t' hs
  by_cases e : t' = t
  · subst e; rw [State.setSlot_slot_same] at hs; exact h hs
  · rw [State.setSlot_slot_ne _ _ e] at hs; exact hs

theorem noNewStop_foldl {β : Type} (g : State → β → State) (h : ∀ s b, NoNewStop s (g s b)) (l : List β) (s : State) :
    NoNewStop s (l.foldl g s) := by
  induction l generalizing s with
  | nil => exact NoNewStop.refl s
  | cons b t ih => exact (h s b).trans (ih _)

/-- A table whose entries keep their numbers and a projection keeps the projection of every entry. -/
theorem tabGet_map_keep {α β : Type} (d : α) (q : α → β) (g : Nat × α → Nat × α) (h1 : ∀ p, (g p).1 = p.1)
    (h2 : ∀ p, q (g p).2 = q p.2) (m : Tab α) (k : Nat) : q (tabGet d (m.map g) k) = q (tabGet d m k) := by
  induction m with
  | nil => rfl
  | cons p r ih =>
    have e1 := h1 p
    have e2 := h2 p
    rw [List.map_cons]
    generalize g p = p' at e1 e2
    obtain ⟨k', v'⟩ := p'
    obtain ⟨k0, v0⟩ := p
    simp only at e1 e2
    subst e1
    unfold tabGet
    split
    · exact e2
    · exact ih

theorem noNewStop_freeHolds (s : State) (l : List Nat) : NoNewStop s (freeHolds s l) := by
  intro t h
  have key := tabGet_map_keep ({} : SlotState) (fun x => x.stopped)
    (fun p => if l.contains p.1 then (p.1, { p.2 with hold := .free, holdSig := [] }) else p)
    (fun p => by dsimp only; split <;> rfl) (fun p => by dsimp only; split <;> rfl) s.slots t.val
  exact key ▸ h

theorem noNewStop_releaseFrom (n : Nat) (s : State) : NoNewStop s (releaseFrom n s) := by
  induction n generalizing s with
  | zero => exact NoNewStop.refl s
  | succ n ih =>
    unfold releaseFrom; dsimp only; split
    · exact NoNewStop.refl s
    · refine NoNewStop.trans ?_ (ih _)
      refine (noNewStop_freeHolds s (doneWaits s)).trans ?_
      apply noNewStop_foldl
      exact fun s x => NoNewStop.of_slots (putInc_slots s _ _)

theorem noNewStop_releaseWaits (s : State) : NoNewStop s (releaseWaits s) := noNewStop_releaseFrom _ s

theorem noNewStop_scSet (s : State) (n : ScName) (v : W32) : NoNewStop s (scSet s n v) :=
  (NoNewStop.of_slots (scPut_slots s n v)).trans (noNewStop_releaseWaits _)

theorem noNewStop_applyInc (n : ScName) (s : State) (i : TaggedInc) : NoNewStop s (applyInc n s i) :=
  (NoNewStop.of_slots (putInc_slots s n i)).trans (noNewStop_releaseWaits _)

theorem noNewStop_tryFree (s : State) (t : Slot) : NoNewStop s (tryFree s t) := by
  unfold tryFree; dsimp only; split
  · exact noNewStop_setSlot s t {} (fun h => by simp at h)
  · exact NoNewStop.refl s

theorem noNewStop_endFence (s : State) (t : Slot) : NoNewStop s (endFence s t) := by
  unfold endFence; dsimp only; split
  · split
    · exact NoNewStop.refl s
    · refine (noNewStop_setSlot s t { s.slot t with hold := .free, holdSig := [] } (fun h => h)).trans ?_
      apply noNewStop_foldl
      exact fun s g => noNewStop_applyInc _ s _
  · exact NoNewStop.refl s

theorem noNewStop_commandEffect (s : State) (c : Core) (k : EngineKind) (cmd : EngCmd) : NoNewStop s (commandEffect s c k cmd) := by
  unfold commandEffect; split
  · dsimp only
    have h1 : NoNewStop s (cmd.writes.foldl (spoilBy k) (cmd.writes.foldl applyWrite s)) := NoNewStop.of_slots (by
      rw [foldl_slots _ (fun s w => spoilBy_slots _ s w), foldl_slots _ applyWrite_slots])
    have h2 := noNewStop_foldl (fun s (g : Signal) => scSet s g.target g.amount) (fun s g => noNewStop_scSet s _ _) cmd.sets
      (cmd.writes.foldl (spoilBy k) (cmd.writes.foldl applyWrite s))
    refine (h1.trans h2).trans ?_
    generalize cmd.sets.foldl _ _ = u
    have h3 : NoNewStop u (if cmd.icinv then u.setCore c { u.core c with icache := [] } else u) := by
      split
      · exact NoNewStop.of_slots rfl
      · exact NoNewStop.refl _
    refine h3.trans ?_
    apply noNewStop_foldl
    exact fun s g => noNewStop_applyInc _ s _
  · exact NoNewStop.of_slots (lateDrop_slots _ _)

theorem noNewStop_updSlot (s : State) (t : Slot) (g : SlotState → SlotState)
    (h : ∀ x, (g x).stopped = true → x.stopped = true) : NoNewStop s (updSlot t g s) :=
  noNewStop_setSlot s t _ (h _)

theorem noNewStop_retireFront (s : State) (c : Core) (k : EngineKind) : NoNewStop s (retireFront s c k) := by
  unfold retireFront; dsimp only; split
  · exact NoNewStop.refl s
  · rename_i cmd rest _
    refine NoNewStop.trans ?_ (noNewStop_tryFree _ _)
    refine NoNewStop.trans ?_ (noNewStop_endFence _ _)
    refine NoNewStop.trans ?_ (noNewStop_updSlot _ _ _ (fun x h => by split at h <;> exact h))
    refine NoNewStop.trans ?_ (NoNewStop.of_slots (releaseHandles_slots _ _ _))
    exact (NoNewStop.of_slots (setEngine_slots s c k _)).trans (noNewStop_commandEffect _ c k cmd)

theorem noNewStop_settle (c : Core) (k : EngineKind) (n : Nat) (s : State) : NoNewStop s (settle c k n s) := by
  induction n generalizing s with
  | zero => exact NoNewStop.refl s
  | succ n ih =>
    unfold settle; split
    · split
      · exact (noNewStop_retireFront s c k).trans (ih _)
      · exact NoNewStop.refl s
    · exact NoNewStop.refl s

/-- A command that enters an engine's queue stops no slot. -/
theorem noNewStop_enqueue (s : State) (c : Core) (k : EngineKind) (cmd : EngCmd) : NoNewStop s (enqueue s c k cmd) :=
  (NoNewStop.of_slots (setEngine_slots s c k _)).trans (noNewStop_settle c k _ _)

/-- The completion of an engine's front command stops no slot. -/
theorem noNewStop_completeFront (s : State) (c : Core) (k : EngineKind) : NoNewStop s (completeFront s c k) :=
  (noNewStop_retireFront s c k).trans (noNewStop_settle c k _ _)

/-- A V operation that enters the chain's queue stops no slot. -/
theorem noNewStop_vIssue (t : Slot) (sigs : List Signal) (writes : List RegName) (x : SlotState) (s : State)
    (h : x.stopped = true → (s.slot t).stopped = true) : NoNewStop s (vIssue t sigs writes x s) :=
  (noNewStop_setSlot s t (addPending x writes) h).trans (noNewStop_enqueue _ _ _ _)

end Sys2Proof.Machine
end

