-- ==== Sys2Proof/Tests/Slice0.lean ====
section
/-!
SUPPORT. The model's own tests: the well-formedness checks each refuse an ill-formed term, words written out from the spec's
encodings are read as what they stand for, and a state and operands meet the hypotheses of each statement.
-/

namespace Sys2Proof.Tests

open Sys2Proof Sys2Proof.Machine Sys2Proof.Claims

theorem test_idle_queue : State.reset.pending = [] := rfl

theorem test_reset_memories : State.reset.mem.wf = true ∧ step State.reset = .next State.reset := ⟨rfl, rfl⟩

theorem test_locked_state : ∃ s : State, s.sec.lock = true ∧ step s = .next s :=
  ⟨{ State.reset with sec := { State.reset.sec with lock := true } }, rfl, rfl⟩

theorem test_queue_idle : step State.reset = .next State.reset := rfl

theorem test_scrub_addresses : paOk 0 = true ∧ paOk (2 ^ 40) = false := by decide

theorem test_reset_limit : State.reset.pwr.limit = 1600 ∧ (State.reset.queue 0).log2size = 6 := ⟨rfl, rfl⟩

/-- Each well-formedness check refuses an ill-formed term. -/
def plainFrame : Frame := { seq := 3, ack := 0, nak := false, null := false, units := 0, packets := [] }
def smallStart (slot : Slot) : SlotStart := { slot := slot, entry := 0, args := 0, scBase := 250, scCount := 4 }
def badMail : MailRequest := { flags := 0, len := 8, tag := 1, reserved := 0, payload := [1] }
theorem test_ill_formed_memory :
    (Instr.patrolScrub 65 .none).wf = false ∧ (Instr.hdmWrite 0 0 [1, 2]).wf = false ∧ (Instr.registerWrite 4 0).wf = false ∧
      (Instr.bar0AccessRefused { off := 8, size := 8, write := true }).wf = false := by decide
theorem test_ill_formed_lists : (Instr.syncCounterIncrement (.core 0 0) []).wf = false ∧ (Instr.thermalSample []).wf = false := by decide
theorem test_ill_formed_frames :
    (Instr.frameReceive 0 { symErrors := 545, frame := plainFrame }).wf = false ∧
      (Instr.frameReceive 0 { symErrors := 0, frame := { plainFrame with null := true } }).wf = false ∧
      (Instr.frameReceive 0 { symErrors := 0, frame := plainFrame }).wf = true := by decide
theorem test_ill_formed_placement :
    (Instr.partPlace ⟨0, 0⟩ 0 { slots := [], lo := 2, hi := 1, panelScs := [] }).wf = false ∧
      (Instr.partPlace ⟨0, 0⟩ 0 { slots := [smallStart 1, smallStart 1], lo := 0, hi := 1, panelScs := [] }).wf = false ∧
      (Instr.partPlace ⟨0, 0⟩ 0 { slots := [], lo := 0, hi := 1, panelScs := [4, 4] }).wf = false ∧
      (Instr.partPlace ⟨0, 0⟩ 0 { slots := [{ smallStart 1 with scCount := 7 }], lo := 0, hi := 1, panelScs := [] }).wf = false := by decide
theorem test_ill_formed_enables :
    (Instr.queueEnable 0).wf = false ∧ (Instr.queueDisable 256).wf = false ∧ (Instr.evqEnable 0).wf = false ∧ (Instr.drillArm 0).wf = false ∧
      (Instr.cxlLinkUp 0 32).wf = false ∧ (Instr.cxlLinkUp 16 65).wf = false := by decide
theorem test_ill_formed_requests :
    (Instr.status badMail).wf = false ∧ (Instr.fwWrite { badMail with len := 1, reserved := 1 }).wf = false ∧
      (Instr.getCertificate 8 0 1).wf = false ∧ (Instr.keyExchange 0 [1]).wf = false ∧ (Instr.finish 0 []).wf = false ∧
      (Instr.keyUpdate 0 4).wf = false := by decide
/-- x⁹ times x is x³ + 1 in the field of the forward error correction (log entry 118). -/
theorem test_field_product : gfMul 512 2 = 9 := by decide
/-- R309: SEQ 3 in bits [6:0], and a null frame's SEQ is 0 with KIND set. -/
theorem test_frame_header : frameHeader plainFrame = 3 ∧ frameHeader { plainFrame with null := true } = 0x8000 := by decide

theorem test_live_slot_boundary : liveSlot 5 5 6 = some 0 ∧ liveSlot 5 5 5 = some 0 ∧ liveSlot 5 4 5 = some 1 ∧
    liveSlot 0xFFFFFFFF 0xFFFFFFFF 0xFFFFFFFF = none := by decide

theorem test_default_clamp : 0x16 / 256 % 4 = 0 ∧ (fwFmt 0x16).isSome = true ∧ (fwFmt 0).isSome = true := by decide

theorem test_word_opcode : wordOp 0x0000000100010402 = 2 := by decide

theorem test_worked_s_word : sFieldsOf 0x0000000100010402 = { d := 4, a := 4, b := 0, fn := 0, imm := 1 } := by decide
theorem test_worked_m_word : (eFieldsOf 0x0580000030B28002).sig = 5 ∧ (eFieldsOf 0x0580000030B28002).sigen = true := by decide

theorem test_issues_alu :
    issuesAlone (smallState 5 0 (sWord 0x01 ⟨1, 2, 3, 0, 0⟩) {}) 5 0 (sWord 0x01 ⟨1, 2, 3, 0, 0⟩) :=
  ⟨(bundleOps (bundleWith 0 (sWord 0x01 ⟨1, 2, 3, 0, 0⟩) noOthers)).get rfl, by decide, by decide, by simp, by decide, by decide, by decide⟩
theorem test_illegal_bundle :
    slotIssues (smallState 5 0 0x05 {}) 5 = true ∧ fetched (smallState 5 0 0x05 {}) 5 (bundleWith 0 0x05 noOthers) = true
      ∧ bundleOps (bundleWith 0 0x05 noOthers) = none := by decide

theorem test_issues_alui :
    issuesAlone (smallState 5 0 (sWord 0x02 ⟨4, 4, 0, 0, 1⟩) {}) 5 0 (sWord 0x02 ⟨4, 4, 0, 0, 1⟩) :=
  ⟨(bundleOps (bundleWith 0 (sWord 0x02 ⟨4, 4, 0, 0, 1⟩) noOthers)).get rfl, by decide, by decide, by simp, by decide, by decide, by decide⟩
theorem test_issues_li :
    issuesAlone (smallState 5 0 (sWord 0x03 ⟨4, 0, 0, 0, 7⟩) {}) 5 0 (sWord 0x03 ⟨4, 0, 0, 0, 7⟩) :=
  ⟨(bundleOps (bundleWith 0 (sWord 0x03 ⟨4, 0, 0, 0, 7⟩) noOthers)).get rfl, by decide, by decide, by simp, by decide, by decide, by decide⟩
theorem test_issues_lui :
    issuesAlone (smallState 5 0 (sWord 0x04 ⟨4, 0, 0, 0, 7⟩) {}) 5 0 (sWord 0x04 ⟨4, 0, 0, 0, 7⟩) :=
  ⟨(bundleOps (bundleWith 0 (sWord 0x04 ⟨4, 0, 0, 0, 7⟩) noOthers)).get rfl, by decide, by decide, by simp, by decide, by decide, by decide⟩
theorem test_alu_div_by_zero : aluOp 17 5 0 = BitVec.ofInt 64 (intFunction 17 5 0) ∧ aluOp 19 5 0 = 5 := by decide
theorem test_alu_sub_wraps : aluOp 1 0 1 = 0xFFFFFFFFFFFFFFFF := by decide

theorem test_issues_ld :
    issuesAlone (smallState 5 0 (sWord 0x08 ⟨4, 1, 0, 3, 8⟩) {}) 5 0 (sWord 0x08 ⟨4, 1, 0, 3, 8⟩)
      ∧ (sPlace 5 8 8).isSome = true ∧ sPlace 5 4 8 = none :=
  ⟨⟨(bundleOps (bundleWith 0 (sWord 0x08 ⟨4, 1, 0, 3, 8⟩) noOthers)).get rfl, by decide, by decide, by simp, by decide, by decide, by decide⟩,
    by decide, by decide⟩
theorem test_poisoned_bytes : poisoned (setPoison {} 0x40 64) 0x48 8 = true ∧ poisoned (setPoison {} 0x40 64) 0x38 8 = false := by decide
theorem test_issues_st :
    issuesAlone (smallState 5 0 (sWord 0x09 ⟨0, 1, 2, 3, 8⟩) {}) 5 0 (sWord 0x09 ⟨0, 1, 2, 3, 8⟩) :=
  ⟨(bundleOps (bundleWith 0 (sWord 0x09 ⟨0, 1, 2, 3, 8⟩) noOthers)).get rfl, by decide, by decide, by simp, by decide, by decide, by decide⟩
theorem test_issues_amo :
    issuesAlone (smallState 5 0 (sWord 0x0A ⟨4, 1, 2, 4, 0⟩) {}) 5 0 (sWord 0x0A ⟨4, 1, 2, 4, 0⟩) :=
  ⟨(bundleOps (bundleWith 0 (sWord 0x0A ⟨4, 1, 2, 4, 0⟩) noOthers)).get rfl, by decide, by decide, by simp, by decide, by decide, by decide⟩

theorem test_issues_nop : issuesAlone (smallState 5 2 0 {}) 5 2 0 :=
  ⟨(bundleOps (bundleWith 2 0 noOthers)).get rfl, by decide, by decide, by simp, by decide, by decide, by decide⟩
theorem test_issues_br :
    issuesAlone (smallState 5 0 (sWord 0x10 ⟨0, 1, 2, 2, 5⟩) {}) 5 0 (sWord 0x10 ⟨0, 1, 2, 2, 5⟩) :=
  ⟨(bundleOps (bundleWith 0 (sWord 0x10 ⟨0, 1, 2, 2, 5⟩) noOthers)).get rfl, by decide, by decide, by simp, by decide, by decide, by decide⟩
theorem test_issues_jal :
    issuesAlone (smallState 5 0 (sWord 0x11 ⟨62, 0, 0, 0, 5⟩) {}) 5 0 (sWord 0x11 ⟨62, 0, 0, 0, 5⟩) :=
  ⟨(bundleOps (bundleWith 0 (sWord 0x11 ⟨62, 0, 0, 0, 5⟩) noOthers)).get rfl, by decide, by decide, by simp, by decide, by decide, by decide⟩
theorem test_issues_jalr :
    issuesAlone (smallState 5 0 (sWord 0x12 ⟨62, 3, 0, 0, 5⟩) {}) 5 0 (sWord 0x12 ⟨62, 3, 0, 0, 5⟩) :=
  ⟨(bundleOps (bundleWith 0 (sWord 0x12 ⟨62, 3, 0, 0, 5⟩) noOthers)).get rfl, by decide, by decide, by simp, by decide, by decide, by decide⟩
theorem test_issues_csrr :
    issuesAlone (smallState 5 0 (sWord 0x20 ⟨7, 0, 0, 0, 9⟩) {}) 5 0 (sWord 0x20 ⟨7, 0, 0, 0, 9⟩) :=
  ⟨(bundleOps (bundleWith 0 (sWord 0x20 ⟨7, 0, 0, 0, 9⟩) noOthers)).get rfl, by decide, by decide, by simp, by decide, by decide, by decide⟩
theorem test_issues_csrw :
    issuesAlone (smallState 5 0 (sWord 0x21 ⟨0, 7, 0, 0, 1⟩) {}) 5 0 (sWord 0x21 ⟨0, 7, 0, 0, 1⟩) :=
  ⟨(bundleOps (bundleWith 0 (sWord 0x21 ⟨0, 7, 0, 0, 1⟩) noOthers)).get rfl, by decide, by decide, by simp, by decide, by decide, by decide⟩
theorem test_issues_stop :
    issuesAlone (smallState 5 0 (sWord 0x3E ⟨0, 0, 0, 0, 0⟩) {}) 5 0 (sWord 0x3E ⟨0, 0, 0, 0, 0⟩) :=
  ⟨(bundleOps (bundleWith 0 (sWord 0x3E ⟨0, 0, 0, 0, 0⟩) noOthers)).get rfl, by decide, by decide, by simp, by decide, by decide, by decide⟩

theorem test_issues_fp :
    issuesAlone (smallState 5 0 (sWord 0x18 ⟨4, 1, 2, 0, 0⟩) {}) 5 0 (sWord 0x18 ⟨4, 1, 2, 0, 0⟩) ∧ fmtOfCode 0 = some .fp64 :=
  ⟨⟨(bundleOps (bundleWith 0 (sWord 0x18 ⟨4, 1, 2, 0, 0⟩) noOthers)).get rfl, by decide, by decide, by simp, by decide, by decide, by decide⟩,
    by decide⟩
theorem test_issues_fp_convert :
    issuesAlone (smallState 5 0 (sWord 0x18 ⟨4, 1, 0, 16, 1⟩) {}) 5 0 (sWord 0x18 ⟨4, 1, 0, 16, 1⟩) ∧ fmtOfCode (1 % 16) = some .fp32 :=
  ⟨⟨(bundleOps (bundleWith 0 (sWord 0x18 ⟨4, 1, 0, 16, 1⟩) noOthers)).get rfl, by decide, by decide, by simp, by decide, by decide, by decide⟩,
    by decide⟩
theorem test_issues_fma :
    issuesAlone (smallState 5 0 (sWord 0x19 ⟨4, 1, 2, 3, 1⟩) {}) 5 0 (sWord 0x19 ⟨4, 1, 2, 3, 1⟩) ∧ fmtOfCode 1 = some .fp32 :=
  ⟨⟨(bundleOps (bundleWith 0 (sWord 0x19 ⟨4, 1, 2, 3, 1⟩) noOthers)).get rfl, by decide, by decide, by simp, by decide, by decide, by decide⟩,
    by decide⟩
theorem test_fp_add_one_one : packVal .fp32 (fAdd .fp32 .rne (decodeElem .fp32 0x3F800000) (decodeElem .fp32 0x3F800000)).1
    = 0x40000000 := by decide

theorem test_issues_vcfg :
    issuesAlone (smallState 5 1 (eWord 0x01 (eDab 4 1 0)) {}) 5 1 (eWord 0x01 (eDab 4 1 0)) ∧ vtType 0 = some .fp64 ∧
      sigOf ({} : SlotState) 5 (eDab 4 1 0) = some [] :=
  ⟨⟨(bundleOps (bundleWith 1 (eWord 0x01 (eDab 4 1 0)) noOthers)).get rfl, by decide, by decide, by simp, by decide, by decide, by decide⟩,
    by decide, by decide⟩
theorem test_issues_vbcast :
    issuesAlone (smallState 5 1 (eWord 0x22 (eDab 4 1 0)) {}) 5 1 (eWord 0x22 (eDab 4 1 0)) :=
  ⟨(bundleOps (bundleWith 1 (eWord 0x22 (eDab 4 1 0)) noOthers)).get rfl, by decide, by decide, by simp, by decide, by decide, by decide⟩
theorem test_issues_vcmp :
    issuesAlone (smallState 5 1 (eWord 0x30 (eDab 4 1 2)) {}) 5 1 (eWord 0x30 (eDab 4 1 2)) :=
  ⟨(bundleOps (bundleWith 1 (eWord 0x30 (eDab 4 1 2)) noOthers)).get rfl, by decide, by decide, by simp, by decide, by decide, by decide⟩
theorem test_issues_vmop :
    issuesAlone (smallState 5 1 (eWord 0x31 (eDab 4 1 2)) { vl := 8 }) 5 1 (eWord 0x31 (eDab 4 1 2)) :=
  ⟨(bundleOps (bundleWith 1 (eWord 0x31 (eDab 4 1 2)) noOthers)).get rfl, by decide, by decide, by simp, by decide, by decide, by decide⟩
theorem test_issues_vmpopc :
    issuesAlone (smallState 5 1 (eWord 0x32 (eDab 4 1 0)) { vl := 8 }) 5 1 (eWord 0x32 (eDab 4 1 0)) :=
  ⟨(bundleOps (bundleWith 1 (eWord 0x32 (eDab 4 1 0)) noOthers)).get rfl, by decide, by decide, by simp, by decide, by decide, by decide⟩
theorem test_issues_vmfirst :
    issuesAlone (smallState 5 1 (eWord 0x33 (eDab 4 1 0)) { vl := 8, mregs := [(1, 6)] }) 5 1 (eWord 0x33 (eDab 4 1 0)) ∧
      (mReg { vl := 8, mregs := [(1, 6)] } 1).getLsbD 1 = true ∧ (mReg { vl := 8, mregs := [(1, 6)] } 1).getLsbD 0 = false :=
  ⟨⟨(bundleOps (bundleWith 1 (eWord 0x33 (eDab 4 1 0)) noOthers)).get rfl, by decide, by decide, by simp, by decide, by decide, by decide⟩,
    by simp [mReg, tabGet], by simp [mReg, tabGet]⟩

theorem test_issues_vadd :
    issuesAlone (smallState 5 1 (eWord 0x10 (eDab 4 1 2)) { vl := 8 }) 5 1 (eWord 0x10 (eDab 4 1 2)) :=
  ⟨(bundleOps (bundleWith 1 (eWord 0x10 (eDab 4 1 2)) noOthers)).get rfl, by decide, by decide, by simp, by decide, by decide, by decide⟩
theorem test_issues_vadd_pair :
    issuesAlone (smallState 5 1 (eWord 0x10 (eDab 4 2 6)) { vl := 8, pair := true }) 5 1 (eWord 0x10 (eDab 4 2 6)) ∧ 8 ≤ vlMax .fp64 1 :=
  ⟨⟨(bundleOps (bundleWith 1 (eWord 0x10 (eDab 4 2 6)) noOthers)).get rfl, by decide, by decide, by simp, by decide, by decide, by decide⟩, by decide⟩
theorem test_issues_vand_int :
    issuesAlone (smallState 5 1 (eWord 0x1C (eDab 4 1 2)) { vl := 8, vt := 0x11 }) 5 1 (eWord 0x1C (eDab 4 1 2)) :=
  ⟨(bundleOps (bundleWith 1 (eWord 0x1C (eDab 4 1 2)) noOthers)).get rfl, by decide, by decide, by simp, by decide, by decide, by decide⟩
theorem test_int_elements : elementResult .vSub .int8 .rne 0 0x80 1 0 = 0x7F ∧ elementResult .vSar .int16 .rne 0 0x8000 15 0 = 0xFFFF ∧
    elementResult .vShl .int8 .rne 0 0x81 9 0 = 2 := by decide

theorem test_issues_vldexp :
    issuesAlone (smallState 5 1 (eWord 0x19 (eDab 4 1 2)) { vl := 8, vt := 1 }) 5 1 (eWord 0x19 (eDab 4 1 2)) :=
  ⟨(bundleOps (bundleWith 1 (eWord 0x19 (eDab 4 1 2)) noOthers)).get rfl, by decide, by decide, by simp, by decide, by decide, by decide⟩
theorem test_issues_vcvt :
    issuesAlone (smallState 5 1 (eWord 0x1A (eDab 4 1 0)) { vl := 8 }) 5 1 (eWord 0x1A (eDab 4 1 0)) ∧ vtType (0 % 32) = some .fp64 :=
  ⟨⟨(bundleOps (bundleWith 1 (eWord 0x1A (eDab 4 1 0)) noOthers)).get rfl, by decide, by decide, by simp, by decide, by decide, by decide⟩, by decide⟩
theorem test_issues_vwmul :
    issuesAlone (smallState 5 1 (eWord 0x28 (eDab 4 1 2)) { vl := 8, vt := 9 }) 5 1 (eWord 0x28 (eDab 4 1 2)) :=
  ⟨(bundleOps (bundleWith 1 (eWord 0x28 (eDab 4 1 2)) noOthers)).get rfl, by decide, by decide, by simp, by decide, by decide, by decide⟩
theorem test_issues_vdot :
    issuesAlone (smallState 5 1 (eWord 0x29 (eDab 4 1 2)) { vl := 8, vt := 2 }) 5 1 (eWord 0x29 (eDab 4 1 2)) :=
  ⟨(bundleOps (bundleWith 1 (eWord 0x29 (eDab 4 1 2)) noOthers)).get rfl, by decide, by decide, by simp, by decide, by decide, by decide⟩
theorem test_issues_vperm :
    issuesAlone (smallState 5 1 (eWord 0x38 (eDab 4 1 2)) { vl := 8 }) 5 1 (eWord 0x38 (eDab 4 1 2)) :=
  ⟨(bundleOps (bundleWith 1 (eWord 0x38 (eDab 4 1 2)) noOthers)).get rfl, by decide, by decide, by simp, by decide, by decide, by decide⟩
theorem test_issues_vldexp_pair :
    issuesAlone (smallState 5 1 (eWord 0x19 (eDab 4 2 6)) { vl := 8, pair := true }) 5 1 (eWord 0x19 (eDab 4 2 6)) :=
  ⟨(bundleOps (bundleWith 1 (eWord 0x19 (eDab 4 2 6)) noOthers)).get rfl, by decide, by decide, by simp, by decide, by decide, by decide⟩
theorem test_issues_vred :
    issuesAlone (smallState 5 1 (eWord 0x3A (eDab 4 1 0)) { vl := 8 }) 5 1 (eWord 0x3A (eDab 4 1 0)) ∧ 8 ≤ vlMax .fp64 1 :=
  ⟨⟨(bundleOps (bundleWith 1 (eWord 0x3A (eDab 4 1 0)) noOthers)).get rfl, by decide, by decide, by simp, by decide, by decide, by decide⟩, by decide⟩

theorem test_issues_vld :
    issuesAlone (smallState 5 1 (eWord 0x40 (eDab 4 1 0)) { vl := 2 }) 5 1 (eWord 0x40 (eDab 4 1 0)) ∧
      vElemFault .vLd (eDab 4 1 0) { vl := 2 } 0 = false ∧ vElemFault .vLd (eDab 4 1 0) { vl := 2 } 1 = false :=
  ⟨⟨(bundleOps (bundleWith 1 (eWord 0x40 (eDab 4 1 0)) noOthers)).get rfl, by decide, by decide, by simp, by decide, by decide, by decide⟩,
    by decide, by decide⟩
theorem test_issues_vlds :
    issuesAlone (smallState 5 1 (eWord 0x41 (eDab 4 1 2)) { vl := 2, sregs := [(1, 4)] }) 5 1 (eWord 0x41 (eDab 4 1 2)) ∧
      vElemFault .vLds (eDab 4 1 2) { vl := 2, sregs := [(1, 4)] } 0 = true :=
  ⟨⟨(bundleOps (bundleWith 1 (eWord 0x41 (eDab 4 1 2)) noOthers)).get rfl, by decide, by decide, by simp, by decide, by decide, by decide⟩, by decide⟩
theorem test_issues_vldx :
    issuesAlone (smallState 5 1 (eWord 0x42 (eDab 4 1 2)) { vl := 2, vt := 1 }) 5 1 (eWord 0x42 (eDab 4 1 2)) :=
  ⟨(bundleOps (bundleWith 1 (eWord 0x42 (eDab 4 1 2)) noOthers)).get rfl, by decide, by decide, by simp, by decide, by decide, by decide⟩
theorem test_issues_vldff :
    issuesAlone (smallState 5 1 (eWord 0x43 (eDab 4 1 0)) { vl := 2, sregs := [(1, 0x1FFFF8)] }) 5 1 (eWord 0x43 (eDab 4 1 0)) :=
  ⟨(bundleOps (bundleWith 1 (eWord 0x43 (eDab 4 1 0)) noOthers)).get rfl, by decide, by decide, by simp, by decide, by decide, by decide⟩
theorem test_issues_vmld :
    issuesAlone (smallState 5 1 (eWord 0x44 (eDab 4 1 0)) { vl := 2 }) 5 1 (eWord 0x44 (eDab 4 1 0)) :=
  ⟨(bundleOps (bundleWith 1 (eWord 0x44 (eDab 4 1 0)) noOthers)).get rfl, by decide, by decide, by simp, by decide, by decide, by decide⟩
theorem test_issues_vst :
    issuesAlone (smallState 5 1 (eWord 0x48 (eDab 4 1 0)) { vl := 2 }) 5 1 (eWord 0x48 (eDab 4 1 0)) :=
  ⟨(bundleOps (bundleWith 1 (eWord 0x48 (eDab 4 1 0)) noOthers)).get rfl, by decide, by decide, by simp, by decide, by decide, by decide⟩
theorem test_issues_vmst :
    issuesAlone (smallState 5 1 (eWord 0x4C (eDab 4 1 0)) { vl := 2 }) 5 1 (eWord 0x4C (eDab 4 1 0)) :=
  ⟨(bundleOps (bundleWith 1 (eWord 0x4C (eDab 4 1 0)) noOthers)).get rfl, by decide, by decide, by simp, by decide, by decide, by decide⟩

theorem test_issues_mtbegin :
    issuesAlone (smallState 5 2 (eWord 0x01 (eDab 4 1 2)) {}) 5 2 (eWord 0x01 (eDab 4 1 2)) ∧
      beginOk (eDab 4 1 2) 0 0 = true ∧ freeHandle ((smallState 5 2 (eWord 0x01 (eDab 4 1 2)) {}).core 0) = some 0 :=
  ⟨⟨(bundleOps (bundleWith 2 (eWord 0x01 (eDab 4 1 2)) noOthers)).get rfl, by decide, by decide, by simp, by decide, by decide, by decide⟩,
    by decide, by decide⟩
/-- A small state in which the slot owns tile 3. -/
def tileState (w : W64) (x : SlotState) : State :=
  setHandle (smallState 5 2 w x) 0 3 { owner := 5, mt := 32, nt := 32, acc := .fp32, accExp := 0, vmode := false, entries := [], poisoned := false, blocks := 0, tallies := {} }
theorem test_issues_mtdrop :
    issuesAlone (tileState (eWord 0x05 (eDab 0 1 0)) { sregs := [(1, 3)] }) 5 2 (eWord 0x05 (eDab 0 1 0)) ∧
      (ownedHandle (tileState (eWord 0x05 (eDab 0 1 0)) { sregs := [(1, 3)] }) 5 3).isSome = true ∧
      ownedHandle (tileState (eWord 0x05 (eDab 0 1 0)) { sregs := [(1, 3)] }) 5 2 = none :=
  ⟨⟨(bundleOps (bundleWith 2 (eWord 0x05 (eDab 0 1 0)) noOthers)).get rfl, by decide, by decide, by simp, by decide, by decide, by decide⟩,
    by decide, by decide⟩
theorem test_issues_mtaddraw :
    issuesAlone (tileState (eWord 0x03 (eDab 0 1 2)) { sregs := [(1, 3)] }) 5 2 (eWord 0x03 (eDab 0 1 2)) ∧
      rowsOk 0 128 32 (32 * rawBytes .fp32) = true :=
  ⟨⟨(bundleOps (bundleWith 2 (eWord 0x03 (eDab 0 1 2)) noOthers)).get rfl, by decide, by decide, by simp, by decide, by decide, by decide⟩, by decide⟩
/-- The words of an operand block of one BF16 element by one. -/
def opndWords : List Nat := [0x200000001000, 0, 0, 0, 0x0001000000020002, 1, 0, 0]
theorem test_issues_mtacc :
    let h : Handle := { owner := 5, mt := 32, nt := 32, acc := .fp32, accExp := 0, vmode := false, entries := [], poisoned := false, blocks := 0, tallies := {} }
    let o := tileOpnds opndWords
    issuesAlone (tileState (eWord 0x02 (eDab 0 1 2)) { sregs := [(1, 3)] }) 5 2 (eWord 0x02 (eDab 0 1 2)) ∧
      accClass o h = some .h ∧ (o.ranges .h 0 1).all (fun r => rowsOk r.1 r.2.1 r.2.2.1 r.2.2.2) = true ∧ ascending [] = true :=
  ⟨⟨(bundleOps (bundleWith 2 (eWord 0x02 (eDab 0 1 2)) noOthers)).get rfl, by decide, by decide, by simp, by decide, by decide, by decide⟩,
    by decide, by decide, by decide⟩
theorem test_mtacc_not_stale :
    let h : Handle := { owner := 5, mt := 1, nt := 1, acc := .fp32, accExp := 0, vmode := false, entries := [.f32 0], poisoned := false, blocks := 0, tallies := {} }
    (accTile h (tileOpnds opndWords) (fun _ => 0) [] 0 1).2.2 = false := by decide
theorem test_issues_mtstore :
    issuesAlone (tileState (eWord 0x04 (eDab 4 1 2)) { sregs := [(1, 3)] }) 5 2 (eWord 0x04 (eDab 4 1 2)) ∧
      storeFmtOk .fp32 1 = true ∧ fwBad 1 false = false :=
  ⟨⟨(bundleOps (bundleWith 2 (eWord 0x04 (eDab 4 1 2)) noOthers)).get rfl, by decide, by decide, by simp, by decide, by decide, by decide⟩, by decide, by decide⟩
theorem test_issues_mtalign :
    issuesAlone (smallState 5 2 (eWord 0x06 (eDab 4 1 2)) {}) 5 2 (eWord 0x06 (eDab 4 1 2)) ∧ rowsOk 0 512 1 (elemsBytes .fp64 32) = true :=
  ⟨⟨(bundleOps (bundleWith 2 (eWord 0x06 (eDab 4 1 2)) noOthers)).get rfl, by decide, by decide, by simp, by decide, by decide, by decide⟩, by decide⟩
theorem test_issues_vpass :
    issuesAlone (smallState 5 1 (eWord 0x50 (eDab 0 1 0)) {}) 5 1 (eWord 0x50 (eDab 0 1 0)) :=
  ⟨(bundleOps (bundleWith 1 (eWord 0x50 (eDab 0 1 0)) noOthers)).get rfl, by decide, by decide, by simp, by decide, by decide, by decide⟩

/-- A small state whose slot has core counter 0 as its window. -/
def moverState (w : W64) (x : SlotState) : State := smallState 5 3 w { x with scCount := 1 }
theorem test_issues_xsig :
    issuesAlone (moverState (eWord 0x08 { eDab 0 1 0 with imm := 1 }) {}) 5 3 (eWord 0x08 { eDab 0 1 0 with imm := 1 }) ∧
      targetSc (moverState 0 {}) 0 0 = some (.core 0 0) ∧ targetSc (moverState 0 {}) 0 1 = none :=
  ⟨⟨(bundleOps (bundleWith 3 (eWord 0x08 { eDab 0 1 0 with imm := 1 }) noOthers)).get rfl, by decide, by decide, by simp, by decide, by decide, by decide⟩,
    by decide, by decide⟩
theorem test_issues_xwait :
    issuesAlone (moverState (eWord 0x09 (eDab 0 1 2)) {}) 5 3 (eWord 0x09 (eDab 0 1 2)) ∧
      selectSc (moverState 0 {}) 5 { scCount := 1 } 0 = some (.core 0 0) ∧ selectSc (moverState 0 {}) 5 { scCount := 1 } 1 = none :=
  ⟨⟨(bundleOps (bundleWith 3 (eWord 0x09 (eDab 0 1 2)) noOthers)).get rfl, by decide, by decide, by simp, by decide, by decide, by decide⟩,
    by decide, by decide⟩
theorem test_issues_xscset :
    issuesAlone (moverState (eWord 0x0A (eDab 0 1 2)) {}) 5 3 (eWord 0x0A (eDab 0 1 2)) :=
  ⟨(bundleOps (bundleWith 3 (eWord 0x0A (eDab 0 1 2)) noOthers)).get rfl, by decide, by decide, by simp, by decide, by decide, by decide⟩
theorem test_issues_xscread :
    issuesAlone (moverState (eWord 0x0B (eDab 4 1 0)) {}) 5 3 (eWord 0x0B (eDab 4 1 0)) :=
  ⟨(bundleOps (bundleWith 3 (eWord 0x0B (eDab 4 1 0)) noOthers)).get rfl, by decide, by decide, by simp, by decide, by decide, by decide⟩
theorem test_issues_xfence :
    issuesAlone (moverState (eWord 0x0C { eDab 0 0 0 with imm := 15 }) {}) 5 3 (eWord 0x0C { eDab 0 0 0 with imm := 15 }) :=
  ⟨(bundleOps (bundleWith 3 (eWord 0x0C { eDab 0 0 0 with imm := 15 }) noOthers)).get rfl, by decide, by decide, by simp, by decide, by decide, by decide⟩
theorem test_issues_xicinv :
    issuesAlone (moverState (eWord 0x0D (eDab 0 0 0)) {}) 5 3 (eWord 0x0D (eDab 0 0 0)) :=
  ⟨(bundleOps (bundleWith 3 (eWord 0x0D (eDab 0 0 0)) noOthers)).get rfl, by decide, by decide, by simp, by decide, by decide, by decide⟩
theorem test_issues_xmove :
    issuesAlone (moverState (eWord 0x01 { eDab 0 1 2 with c := 3 }) {}) 5 3 (eWord 0x01 { eDab 0 1 2 with c := 3 }) ∧
      (localMove (moverState 0 {}) (moverParts (moverState 0 {}) 0 0) 0 (plainMove (2 ^ 63) (2 ^ 63 + 64) 8)).isSome = true :=
  ⟨⟨(bundleOps (bundleWith 3 (eWord 0x01 { eDab 0 1 2 with c := 3 }) noOthers)).get rfl, by decide, by decide, by simp, by decide, by decide, by decide⟩,
    by decide⟩
theorem test_issues_xmoved :
    issuesAlone (moverState (eWord 0x02 (eDab 0 1 0)) {}) 5 3 (eWord 0x02 (eDab 0 1 0)) ∧
      moveOk [0, 64, 1 + 2 ^ 32 * 8, 0, 9 + 2 ^ 16 * 9, 0xFFFFFFFF00000000, 0, 0] = true ∧
      (moveOfWords [0, 64, 1 + 2 ^ 32 * 8, 0, 9 + 2 ^ 16 * 9, 0xFFFFFFFF00000000, 0, 0]).rank = none :=
  ⟨⟨(bundleOps (bundleWith 3 (eWord 0x02 (eDab 0 1 0)) noOthers)).get rfl, by decide, by decide, by simp, by decide, by decide, by decide⟩,
    by decide, by decide⟩

theorem test_powered : State.reset.pwr.pwrGood = true ∧ tripAt (.gddr 0) = some 105 := ⟨rfl, rfl⟩

theorem test_clocks_settled : (State.reset.panel 0).stall = none ∧ (State.reset.panel 0).held = none := by decide
theorem test_five_entered :
    let s : State := { State.reset with pwr := { State.reset.pwr with sag := [(5, { inForce := true })] } }
    atFive s = true ∧ s.pwr.stage5 = false := by decide
theorem test_five_left : atFive State.reset = false := by decide

theorem test_limit_step : State.reset.pwr.limit < 1700 ∧ (limitPoint State.reset 0).val < 4 := by decide
theorem test_limit_raise :
    let s : State := { State.reset with pwr := { State.reset.pwr with limitOp := [(2, 1)] } }
    0 < (limitPoint s 2).val ∧ (stageCaps (stageIn s 2)).2.val < (limitPoint s 2).val ∧ 100 + 50 < s.pwr.limit := by decide
theorem test_drill_arm :
    let s : State := { State.reset with
      gau := { State.reset.gau with valid := true, aligned := true, refOk := true }
      sec := { State.reset.sec with lock := true }
      pwr := { State.reset.pwr with drillMark := 1563, perst := false } }
    hostUp s = true ∧ benchUp s = true ∧ s.sec.lock = true ∧ alignedNow s = true ∧ s.gau.count.toNat + 1563 ≤ s.pwr.drillMark.toNat ∧
      findArmed s .drill = none := by decide

theorem test_sag_entry : sagEntry 4 = 11904 ∧ sagExit 4 = 12032 ∧ sagEntry 1 = 13056 ∧ sagExit 1 = 13184 := by decide
theorem test_thermal_steps : tempStage (.gddr 3) 98 = 4 ∧ tempStage (.junction 0 1) 94 = 0 := by decide
theorem test_thermal_exit :
    let v : SensorState := { celsius := 94, stage := 2, cool := [(1, 0), (2, 0)] }
    let s : State := { State.reset with gau := { State.reset.gau with edges := 1562500 } }
    s.pwr.pwrGood = true ∧ coolDown s v 2 = 0 ∧ coolDown State.reset v 2 = 2 := by decide

theorem test_restart_due :
    let s : State := { State.reset with
      gau := { State.reset.gau with edges := 1562500 }
      pwr := { State.reset.pwr with pwrGood := false, vinGoodSince := some 0, powerOffAt := some 0 } }
    s.pwr.pwrGood = false ∧ 0 + 1562500 ≤ s.now := by decide

theorem test_clock_change : ((max 3 (pointsOf State.reset 1).1, max 2 (pointsOf State.reset 1).2) : Fin 5 × Fin 5)
    ≠ ((State.reset.panel 1).coreOp, (State.reset.panel 1).matrixOp) ∧ (State.reset.panel 1).stall = none := by decide
theorem test_watchdog_due :
    let s : State := { State.reset with
      gau := { State.reset.gau with edges := 1562500 }
      sec := { State.reset.sec with lock := true } }
    benchUp s = true ∧ (s.panel 1).wdog + 1562500 ≤ s.now ∧ (s.panel 0).wdog + 1562500 ≤ s.now := by decide

theorem test_launch_pending :
    let s : State := { State.reset with
      gau := { State.reset.gau with valid := true, aligned := true, refOk := true }
      jobs := [(2, { change := some { desc := ⟨0, 0⟩, epoch := 1, mark := 1563, bmax := 0, table := [], ringLen := [], staged := true, switched := false } })] }
    launchMark s (.routeEpoch 2) = some (1563, ⟨0, 0⟩) ∧ alignedNow s = true ∧ findArmed s (launchName s (.routeEpoch 2)) = none
      ∧ (launchColl s (.routeEpoch 2)).isSome = false := by decide

theorem test_gauge_steps : State.reset.gau.step = none ∧ (State.reset.gau.syncPulse && State.reset.gau.refOk) = false := by decide

theorem test_join_counted :
    let s : State := { State.reset with
      sec := { State.reset.sec with lock := true }, pwr := { State.reset.pwr with perst := false }
      lnk := { State.reset.lnk with links := [(3, { phase := .hold, exch := 64 })] } }
    s.sec.lock = true ∧ hostUp s = true ∧ (s.link 3).phase = .hold ∧ 64 ≤ (s.link 3).exch := by decide
theorem test_round_tick : roundTick 24 = 2 ∧ roundTick 8 = 0 ∧ roundTick (-24) = -2 ∧ roundTick 25 = 2 := by decide

theorem test_route_change :
    let c : RouteChange := { desc := ⟨0, 0⟩, epoch := 1, mark := 1562, bmax := 4, table := [], ringLen := [], staged := true, switched := false }
    let s : State := { State.reset with jobs := [(2, { change := some c })] }
    (s.job 2).change = some c ∧ findArmed s (.routeEpoch 2) = none ∧ s.gau.count.toNat + 1563 > c.mark.toNat := by decide
theorem test_route_fires :
    let c : RouteChange := { desc := ⟨0, 0⟩, epoch := 1, mark := 5, bmax := 4, table := [], ringLen := [], staged := true, switched := false }
    let s : State := { State.reset with
      jobs := [(2, { change := some c })], panels := [(0, { comparators := [⟨.routeEpoch 2, 5⟩] })]
      gau := { State.reset.gau with valid := true, count := 5 } }
    fires s (.routeEpoch 2) = true := by decide

theorem test_link_hold_ready :
    let s : State := { State.reset with
      sec := { State.reset.sec with lock := true }, pwr := { State.reset.pwr with perst := false }
      lnk := { State.reset.lnk with enable := 8, links := [(3, { phase := .hold, step := 4, exch := 64 })] } }
    s.sec.lock = true ∧ hostUp s = true ∧ linkEnabled s 3 = true ∧ linkEnabled s 4 = false ∧ (s.link 3).phase = .hold
      ∧ linkDelay (s.link 3) ≤ 288 := by decide

theorem test_link_run :
    let s : State := { State.reset with lnk := { State.reset.lnk with links := [(3, { phase := .run })] } }
    (s.link 3).phase = .run ∧ (s.link 3).resend = [] ∧ checkRing s (leavingRing 3) = s ∧ generalHeld (s.ring (leavingRing 3)) ≤ 8 ∧ (takeBuffer (s.ring (leavingRing 3))).isNone = true := ⟨rfl, rfl, rfl, by decide, rfl⟩

theorem test_link_lost_due :
    let s : State := { State.reset with
      gau := { State.reset.gau with edges := 313 }, lnk := { State.reset.lnk with links := [(3, { phase := .run })] } }
    (s.link 3).phase = .run ∧ (s.link 3).lastAlive + 313 ≤ s.now ∧
      ((5 : BitVec 7) - (s.link 3).lastAck).toNat ≤ ((s.link 3).nextSeq - 1 - (s.link 3).lastAck).toNat := by decide

theorem test_parity_length : rsGenerator.length = 30 := by decide

theorem test_scrub_unit : paOk 0x40 = true ∧ (State.reset.memCtl (paPanel 0x40)).inReset = false ∧
    (State.reset.memCtl (paPanel 0x40)).selfRefresh = false ∧ (paPanel 0x800000040).val = 1 ∧ (groupUnits 0x40).length = 31 :=
  ⟨rfl, rfl, rfl, by norm_num [paPanel, panelSpan], rfl⟩

theorem test_hdm_reached :
    let s : State := { State.reset with
      qmg := { State.reset.qmg with cxlUp := true, ctxs := [(0, { phase := .opened })] }
      mem := { State.reset.mem with
        aper := [(0, 0x800)], gddr := writeBytes {} (rootTable 0) (leBytes 8 (mkPte 0x40000000 true true false true)) } }
    s.qmg.cxlUp = true ∧ ideOk s = true ∧ aperEn (tabGet 0 s.mem.aper 0) = true ∧ aperRo (tabGet 0 s.mem.aper 0) = false ∧
      (s.ctx (aperCtx (tabGet 0 s.mem.aper 0))).phase = .opened ∧
      accessPa s (aperCtx (tabGet 0 s.mem.aper 0)) (aperBase (tabGet 0 s.mem.aper 0) + 5 * 64) .hdm = some 0x40000140 ∧
      accessPa s (aperCtx (tabGet 0 s.mem.aper 0)) (aperBase (tabGet 0 s.mem.aper 0) + 5 * 64) .hdmWrite = some 0x40000140 :=
  ⟨rfl, by decide, by decide, by decide, by decide, by decide, by decide⟩
theorem test_hdm_in_reset :
    let s : State := { State.reset with mem := { State.reset.mem with ctl := [(0, { inReset := true })] } }
    (s.memCtl (paPanel 0x40000140)).inReset = true := by decide
theorem test_hdm_refused : aperEn (tabGet 0 State.reset.mem.aper 0) = false ∧ aperRo 0xC00 = true := by decide

theorem test_exit_one_candidate :
    let h : PktHdr := { epoch := 0, senior := false, defl := 0, seg := 0, nseg := 0, last := true, kind := 0, job := 0, poison := 0, hopsLeft := 0, gen := 0, plen := 0, srcRank := 0, dstRank := 0, msgId := 0, route0 := 0, route1 := 0, msgLen := 0, offset := 0, dstAddr := 0, injTick := 0, hcrc := 0 }
    let s : State := { State.reset with lnk := { State.reset.lnk with rings := [(4, { cand := [⟨⟨h, []⟩, some 2, 0⟩] })] } }
    exitCands s (.ring 4) = [⟨⟨h, []⟩, some 2, 0⟩] ∧ granted (setExitCands s (.ring 4) []) (.ring 4) h = true := by decide
theorem test_exit_empty_header_check :
    let h : PktHdr := { epoch := 0, senior := false, defl := 0, seg := 0, nseg := 0, last := true, kind := 0, job := 0, poison := 0, hopsLeft := 1, gen := 0, plen := 0, srcRank := 0, dstRank := 0, msgId := 0, route0 := 0, route1 := 0, msgLen := 0, offset := 0, dstAddr := 0, injTick := 0, hcrc := 0 }
    hcrcOk (sealHdr h) = true := by simp [hcrcOk, sealHdr, hdrBytes, hdrCtl]

theorem test_stale_send :
    let x : SendMsg := { owner := .slotMove 0, job := 0, ctx := 0, dst := 1, len := 64, waiting := 0, injectedAt := 0, acked := false, failed := false }
    let s : State := { State.reset with
      gau := { State.reset.gau with edges := 781250 }, lnk := { State.reset.lnk with dies := [(0, { sends := [(5, x)] })] } }
    findSend s 0 0 5 = some x ∧ awaitsAck x = true ∧ x.injectedAt + 156250 * s.glb.engineWin.toNat ≤ s.now :=
  ⟨by decide, by decide, by decide⟩

theorem test_schedule_fires :
    let x : CollState := { job := 1, base := 5, op := 0, exclude := false, bound := 4, shift := 20, endOff := 40, nranks := 2, combineSc := 0, doneSc := 0, staging := 0, slots := [(0, 10)], entries := [], fired := false, missed := false, shifted := false, shiftEntry := 0, shiftSlot := 0, doneBase := 0, opened := 0, marked := 0, late := [], fault := false }
    let s : State := { State.reset with
      colls := [(7, x)], panels := [(0, { comparators := [⟨.coll ⟨0, 7⟩, 5⟩] })], gau := { State.reset.gau with valid := true, refOk := true, count := 5 } }
    s.coll? ⟨0, 7⟩ = some x ∧ fires s (collLaunch s ⟨0, 7⟩ x) = true ∧ alignedNow s = true := ⟨by decide, by decide, by decide⟩
theorem test_schedule_slot_due :
    let x : CollState := { job := 1, base := 5, op := 0, exclude := false, bound := 4, shift := 20, endOff := 40, nranks := 2, combineSc := 0, doneSc := 0, staging := 0, slots := [(0, 10)], entries := [], fired := true, missed := false, shifted := false, shiftEntry := 0, shiftSlot := 0, doneBase := 0, opened := 0, marked := 0, late := [], fault := false }
    let s : State := { State.reset with colls := [(7, x)], gau := { State.reset.gau with valid := true, refOk := true, count := 45 } }
    s.coll? ⟨0, 7⟩ = some x ∧ atMark s (x.openMark 0) = true ∧ combinesDone s x 0 = true ∧ atMark s (x.slotMarkAt 0) = true ∧
      atMark s x.endMark = true ∧ isVote s ⟨0, 7⟩ x = false := ⟨by decide, by decide, by decide, by decide, by decide, by decide⟩

theorem test_doorbell_form : (0x40 : BitVec 22).toNat % 64 = 0 ∧ (5 : W64).toNat < 2 ^ 32 ∧ doorbellForm 0x40 8 5 = true ∧
    doorbellForm 0x44 8 5 = false ∧ doorbellForm 0x40 4 5 = false ∧ hasTurn State.reset 3 = true := by decide
theorem test_doorbell_applies :
    let s : State := { State.reset with qmg := { State.reset.qmg with
      cxlUp := true, ctxs := [(2, { phase := .opened })], groups := [(0, ((2 : Ctx), true))], queues := [(1, { enable := true })] } }
    s.qmg.cxlUp = true ∧ doorbellApplies s 1 5 = true ∧ doorbellApplies s 1 65 = false ∧ queueCtx s 1 = some 2 :=
  ⟨rfl, by decide, by decide, by decide⟩

theorem test_queue_enable :
    let s : State := { State.reset with
      sec := { State.reset.sec with lock := true }, pwr := { State.reset.pwr with perst := false }
      qmg := { State.reset.qmg with ctxs := [(2, { phase := .opened, hlimit := 100 })], groups := [(0, ((2 : Ctx), true))] } }
    hostUp s = true ∧ s.sec.lock = true ∧ queueCtx s 0 = some 2 ∧ (s.ctx 2).phase = .opened ∧
      inHostWindow (s.ctx 2) 0 4096 = true ∧ (s.queue 0).enable = false := by decide

theorem test_context_states :
    let s : State := { State.reset with
      sec := { State.reset.sec with lock := true }, pwr := { State.reset.pwr with perst := false }
      qmg := { State.reset.qmg with csel := 3, ctxs := [(3, { phase := .opened }), (4, { phase := .closing }), (5, { phase := .closing, drained := true })] } }
    hostUp s = true ∧ (s.memCtl (paPanel (rootTable 3))).inReset = false ∧ (s.ctx s.qmg.csel).phase = .opened ∧ (s.ctx 4).drainMark.toNat ≤ s.gau.count.toNat ∧ quiet s 5 = true ∧
      (State.reset.ctx State.reset.qmg.csel).phase = .free := by decide

theorem test_msix_window :
    let s : State := { State.reset with
      gau := { State.reset.gau with edges := 157 }, pwr := { State.reset.pwr with perst := false }
      qmg := { State.reset.qmg with queues := [(0, { window := some 0 })] } }
    (s.queue 0).window = some 0 ∧ 0 + 157 ≤ s.now ∧ s.pwr.pwrGood = true ∧ s.pwr.perst = false ∧ s.sec.ioBroken = false ∧ usTicks 1 = 157 := by decide

/-- A command of slot 5 of core 0 that writes one bench byte and signals core counter 3. -/
def engineCmd (k : EngineKind) (kind : EngKind) : EngCmd :=
  { mkCmd State.reset 5 k kind [⟨.core 0 3, 1⟩] with writes := [{ space := .bench, addr := 64, data := [7], poison := false }] }
theorem test_engine_command_front :
    let s (k : EngineKind) (kind : EngKind) : State := State.reset.setEngine 0 k { queue := [engineCmd k kind] }
    ((s .vector .pass).engine 0 .vector).queue = [engineCmd .vector .pass] ∧
      ((s .matrix .tile).engine 0 .matrix).queue = [engineCmd .matrix .tile] ∧
      ((s .mover .move).engine 0 .mover).queue = [engineCmd .mover .move] ∧
      ((s .mover (.send 0 0 [])).engine 0 .mover).queue = [engineCmd .mover (.send 0 0 [])] ∧
      tagsOk (s .vector .pass) (engineCmd .vector .pass).tags = true := by decide
theorem test_rest_stays : staysQueued [] ∧ staysQueued [engineCmd .vector .pass] := by
  constructor <;> simp [staysQueued, engineCmd, mkCmd]
theorem test_engine_pass_ends :
    (match exec (.chainPassComplete 0) (State.reset.setEngine 0 .vector { queue := [engineCmd .vector .pass] }) with
    | .next t => scGet t (.core 0 3) == 1 && benchRead t 0 64 1 == [7]
    | _ => false) = true := by decide
theorem test_register_pending : ((smallState 5 0 0 { pending := [sName 4] }).slot 5).pending.contains (sName 4) = true ∧
    holderOf (smallState 5 0 0 { pending := [sName 4] }) 5 (sName 4) = none := by decide
theorem test_register_held :
    let s := (smallState 5 0 0 { pending := [sName 4] }).setEngine 0 .mover
      { queue := [{ engineCmd .mover .regs with pend := [sName 4], scread := some (4, .core 0 3) }] }
    (s.slot 5).pending.contains (sName 4) = true ∧ holderOf s 5 (sName 4) = some .mover ∧ (s.slot 5).running = true := by decide
theorem test_none_held : noneHeld State.reset := by simp [noneHeld, State.reset]
theorem test_wait_done : waitDone (incTotal State.reset 4 [⟨1, tagsOf State.reset 5 .mover⟩]) 5 = true := by decide
theorem test_icache_miss :
    let s := smallState 5 0 0 { ctx := 2 }
    (s.slot 5).running = true ∧ (s.slot 5).stopped = false ∧ (s.slot 5).pc.toNat % 32 = 0 ∧ accessPa s 2 0 .fetch = none := by decide

/-- A waiting descriptor of an opcode, and a state that holds it, whose context 0 finds eight words at virtual address 0. -/
def waitingDesc (op : Nat) : DescState := { words := [BitVec.ofNat 64 op, 0, 0, 0, 0, 0, 0, 0] }
def oneDesc (op : Nat) (w : List Nat) : State :=
  { State.reset.setDesc ⟨3, 0⟩ (waitingDesc op) with
    mem := { ({} : MemState) with gddr := writeBytes (writeBytes {} (rootTable 0) [7]) 0 (w.flatMap (leBytes 8)) } }
theorem test_starts :
    Starts (oneDesc opProduct []) ⟨3, 0⟩ opProduct (waitingDesc opProduct) ∧ Starts (oneDesc opPass []) ⟨3, 0⟩ opPass (waitingDesc opPass) ∧
      Starts (oneDesc opMove []) ⟨3, 0⟩ opMove (waitingDesc opMove) ∧ Starts (oneDesc opUpdate []) ⟨3, 0⟩ opUpdate (waitingDesc opUpdate) :=
  ⟨⟨by decide, by decide, by decide⟩, ⟨by decide, by decide, by decide⟩, ⟨by decide, by decide, by decide⟩, ⟨by decide, by decide, by decide⟩⟩
def plainCopy : List Nat := [0, 64, 1 + 2 ^ 32 * 8, 0, 9 + 2 ^ 16 * 9, 0xFFFFFFFF00000000, 0, 0]
theorem test_move_block :
    readArgs (begun (oneDesc opMove plainCopy) ⟨3, 0⟩) (waitingDesc opMove) 8 = some plainCopy ∧ moveOk plainCopy = true := by decide
theorem test_blocks_read :
    readArgs (begun (oneDesc opProduct []) ⟨3, 0⟩) (waitingDesc opProduct) 16 = some (List.replicate 16 0) ∧
      readArgs (begun (oneDesc opPass []) ⟨3, 0⟩) (waitingDesc opPass) 32 = some (List.replicate 32 0) ∧
      readArgs (begun (oneDesc opUpdate []) ⟨3, 0⟩) (waitingDesc opUpdate) 8 = some (List.replicate 8 0) ∧
      readArgs (begun (State.reset.setDesc ⟨3, 0⟩ (waitingDesc opMove)) ⟨3, 0⟩) (waitingDesc opMove) 8 = none := by decide
theorem test_update_job :
    updJob ((oneDesc opUpdate []).setJob 0 { resident := true, nranks := 1 }) (waitingDesc opUpdate) = some 0 := by decide
/-- An UPDATE of 32 elements by the block rule in step 1 of job 0, whose regions begin at virtual address 0. -/
def updateDesc : DescState := { words := [BitVec.ofNat 64 (opUpdate + 0x0FFF * 2 ^ 16 + 2 ^ 32), 0, 0x1000, 0, 0, 0, 0, 0] }
def updateBlock : List Nat := [0, 0x2001000, 0x4000, 0x2000, 0, 32, 0, 0]
def updateMemory : Bank :=
  let put (b : Bank) (a : Nat) (w : List Nat) : Bank := writeBytes b a (w.flatMap (leBytes 8))
  put (put (put (writeBytes {} (rootTable 0) [7]) 0x1000 updateBlock) 0x2000 [0, 0x3F80000000000000]) 0x2001020 [32]
def updateState : State :=
  ({ State.reset.setDesc ⟨3, 0⟩ updateDesc with mem := { ({} : MemState) with gddr := updateMemory } }).setJob 0
    { resident := true, nranks := 1, updateSize := 0x2001040 }
set_option maxRecDepth 4000 in
theorem test_update_runs :
    let b := begun updateState ⟨3, 0⟩
    let y := withWords updateDesc updateBlock
    readArgs b updateDesc 8 = some updateBlock ∧ updBad b y updateBlock = false ∧ tagJobBad b y = false ∧ updJob b y = some 0 ∧
      (b.job 0).scrub = false ∧ updPoisoned b 0 y (updSpec updateBlock) = false ∧ updStale b 0 y (updSpec updateBlock) = false :=
  ⟨by decide, by decide, by decide, by decide, by decide, by decide, by decide⟩
theorem test_not_started : ∀ x, ¬ Starts State.reset ⟨3, 0⟩ opMove x :=
  fun _ h => by have := h.desc; simp [State.desc?, State.reset, tabFind] at this

theorem test_control_starts :
    Starts (controlState opNop [] [] []) ⟨0, 1⟩ opNop (controlDesc opNop []) ∧
      Starts (controlState opAbort [] [] []) ⟨0, 1⟩ opAbort (controlDesc opAbort []) ∧
      Starts (controlState opMap [] [] []) ⟨0, 1⟩ opMap (controlDesc opMap []) ∧
      Starts (controlState opUnmap [] [] []) ⟨0, 1⟩ opUnmap (controlDesc opUnmap []) ∧
      Starts (controlState opJob [] [] []) ⟨0, 1⟩ opJob (controlDesc opJob []) ∧
      Starts (controlState opPolicy [] [] []) ⟨0, 1⟩ opPolicy (controlDesc opPolicy []) :=
  ⟨⟨by decide, by decide, by decide⟩, ⟨by decide, by decide, by decide⟩, ⟨by decide, by decide, by decide⟩,
    ⟨by decide, by decide, by decide⟩, ⟨by decide, by decide, by decide⟩, ⟨by decide, by decide, by decide⟩⟩
/-- Word 4 of an ABORT names descriptor 2 of queue 0 (accepted), 9 (not accepted), or one of queue 64 (no context's). -/
theorem test_abort_targets :
    let x (n : Nat) : DescState := controlDesc opAbort [0, 0, 0, n]
    let s (n : Nat) : State := begun (controlState opAbort [0, 0, 0, n] [(2, { parts := [{ unit := 5, slots := [], lo := 0, hi := 1, failed := false, reads := [], writes := [] }] })] []) ⟨0, 1⟩
    queueCtx (s (2 * 2 ^ 32)) (abortTarget (x (2 * 2 ^ 32))).q = some 0 ∧ accepted (s (2 * 2 ^ 32)) (abortTarget (x (2 * 2 ^ 32))) = true ∧
      ((s (2 * 2 ^ 32)).desc? (abortTarget (x (2 * 2 ^ 32)))).isSome = true ∧
      accepted (s (9 * 2 ^ 32)) (abortTarget (x (9 * 2 ^ 32))) = false ∧ queueCtx (s 64) (abortTarget (x 64)).q = none ∧
      (s 0).desc? (abortTarget (x 0)) = none := by decide
theorem test_map_open : unmapOver (begun (controlState opMap [] [] []) ⟨0, 1⟩) 0 (descMap (controlDesc opMap [])) = false ∧
    unmapOver (begun (controlState opMap [] [(2, { controlDesc opUnmap [0, 0, 0, 0, 0, 1] with phase := .finishing })] []) ⟨0, 1⟩) 0
      (descMap (controlDesc opMap [0, 0, 0, 0, 0, 1])) = true := by decide
theorem test_unmap_ends :
    let s := controlState opUnmap [] [] []
    recordRoom s = true ∧ rangeInUse s 0 0 65536 = false := by decide
theorem test_job_sets_up : SetsUp (begun (controlState opJob [] [] []) ⟨0, 1⟩) 0 [0, 0, 0, 0, 0, 0, 0, 0] [] (List.replicate 32 0) :=
  ⟨by decide, by decide, by decide, by decide, by decide, by decide⟩
def policyBlock : List Nat :=
  [1 + 2 ^ 8 + 2 ^ 16 + 2 ^ 24 + 3 * 2 ^ 48, 1 + 0xFFFF * 2 ^ 16 + 2 ^ 32, 0x3FF0000000000000, 0x4000000000000000, 2, 0, 0, 0]
set_option maxRecDepth 4000 in
theorem test_policy_good :
    let s := begun (controlState opPolicy [] [] policyBlock) ⟨0, 1⟩
    readArgs s (controlDesc opPolicy []) 8 = some policyBlock ∧ ctxJob s 0 = some 0 ∧ readOverrides s 0 policyBlock = some [] ∧
      policyBad policyBlock (policyOfWords policyBlock []) (jobStep s 0) = false ∧
      layersWritable s 0 (policyOfWords policyBlock []).nlayers = true ∧ policyWaits s 0 (policyOfWords policyBlock []) = false :=
  ⟨by decide, by decide, by decide, by decide, by decide, by decide⟩

/-- Job 0 of context 0, of one rank, whose descriptor finds its block at virtual address 0 and tables behind it. -/
def markState (op : Nat) (mem : List Nat) : State := (controlState op [] [] mem).setJob 0 { resident := true, nranks := 1, update := 0x1000 }
/-- A COLL of one COPY entry in one slot: header, slot table at 64, entry table at 72. -/
def smallSchedule : List Nat := [10000, 1 + 2 ^ 32, 5 + 600 * 2 ^ 32, 600, 2 ^ 32, 64, 72, 0, 10 + 100 * 2 ^ 32, 0, 0, 64 + 2 ^ 32 * 64, 2 ^ 48]
set_option maxRecDepth 8000 in
theorem test_coll_reads :
    let s := begun (markState opColl smallSchedule) ⟨0, 1⟩
    readArgs s (controlDesc opColl []) 8 = some (smallSchedule.take 8) ∧ (match readColl s 0 (smallSchedule.take 8) with
      | .ok _ => true
      | _ => false) = true := ⟨by decide, by decide⟩
theorem test_mark_starts :
    Starts (markState opColl []) ⟨0, 1⟩ opColl (controlDesc opColl []) ∧ Starts (markState opCommit []) ⟨0, 1⟩ opCommit (controlDesc opCommit []) ∧
      Starts (markState opRoute []) ⟨0, 1⟩ opRoute (controlDesc opRoute []) :=
  ⟨⟨by decide, by decide, by decide⟩, ⟨by decide, by decide, by decide⟩, ⟨by decide, by decide, by decide⟩⟩
def smallRoute : List Nat := [2 ^ 8, 10000, 0, 0, 0, 0, 0, 0]
set_option maxRecDepth 8000 in
theorem test_route_block :
    let s := begun (markState opRoute smallRoute) ⟨0, 1⟩
    readArgs s (controlDesc opRoute []) 8 = some smallRoute ∧ jobOf s 0 0 = some 0 ∧ readRankTable s 0 0 0 = some [] ∧
      (routeFormBad smallRoute || routeMarkBad (s.job 0) 1 10000 || markInColl s 0 10000) = false ∧ routeFits s 0 0 = true :=
  ⟨by decide, by decide, by decide, by decide, by decide⟩
/-- Tables that cannot be read, a bad ring table, and a malformed COMMIT block. -/
theorem test_mark_blocks_bad :
    let s := begun (markState opRoute smallRoute) ⟨0, 1⟩
    readRankTable s 0 (2 ^ 56) 1 = none ∧ readRingTable s 0 (2 ^ 56) = none ∧
      ringTableOk [1] = false ∧ commitFormBad [2 ^ 48, 0, 0, 0, 0, 0, 0, 0] = true :=
  ⟨by decide, by decide, by decide, by decide⟩
/-- A COMMIT of epoch 0 with its vote at mark 10,000, whose schedule of one VOTE entry stands at virtual address 64. -/
def smallCommitBlock : List Nat := [0, 10000, 20000, 64, 0, 0, 0, 0]
def smallVote : List Nat := [10000, 1 + 2 ^ 32 + opVote * 2 ^ 48, 5 + 600 * 2 ^ 32, 600, 2 ^ 32, 128, 136, 0, 10 + 100 * 2 ^ 32, 0, 0, 64 + 2 ^ 32 * 128, 2 ^ 48]
set_option maxRecDepth 8000 in
theorem test_commit_block :
    let s := begun (markState opCommit (smallCommitBlock ++ smallVote)) ⟨0, 1⟩
    readArgs s (controlDesc opCommit []) 8 = some smallCommitBlock ∧ rankJobOf s 0 0 = some 0 ∧ commitFormBad smallCommitBlock = false ∧
      (match voteSched s 0 0 smallCommitBlock with
        | .ok v => decide (10000 + v.bound + 1719 ≤ 20000)
        | _ => false) = true := ⟨by decide, by decide, by decide, by decide⟩

theorem test_secure_starts :
    Starts (controlState opSnapshot [] [] []) ⟨0, 1⟩ opSnapshot (controlDesc opSnapshot []) ∧
      Starts (controlState opRestore [] [] []) ⟨0, 1⟩ opRestore (controlDesc opRestore []) :=
  ⟨⟨by decide, by decide, by decide⟩, ⟨by decide, by decide, by decide⟩⟩
/-- A plan without units, with keep half 0 of step 0. -/
def smallPlan : Plan :=
  { step := 0, depth := 4, stageAddr := 0, stageBytes := 0, jratio := 0, splitBytes := 0, targets := [0, 0], routes := [[], []], units := []
    incoming := [], keepAddr := 0, keepBytes := 0, seq := 0, streams := [{}, {}], keepHalf := true, keepSteps := [(0, 0)] }
def secureState (op : Nat) (block : List Nat) : State :=
  (controlState op [] [] block).setJob 0 { resident := true, nranks := 1, plan := some smallPlan, update := 0x1000 }
theorem test_secure_blocks :
    let s := begun (secureState opSnapshot [1, 10, 100000]) ⟨0, 1⟩
    readArgs s (controlDesc opSnapshot []) 8 = some [1, 10, 100000, 0, 0, 0, 0, 0] ∧ snapFormBad [1, 10, 100000, 0, 0, 0, 0, 0] = false ∧
      rankJobOf s 0 0 = some 0 ∧ descStep (controlDesc opSnapshot []) = jobStep s 0 ∧ pointBad s 0 smallPlan true 0 10 100000 = false :=
  ⟨by decide, by decide, by decide, by decide, by decide⟩
theorem test_restore_blocks :
    let s := begun (secureState opRestore [2]) ⟨0, 1⟩
    readArgs s (controlDesc opRestore []) 8 = some [2, 0, 0, 0, 0, 0, 0, 0] ∧ restoreFormBad [2, 0, 0, 0, 0, 0, 0, 0] = false ∧
      rankJobOf s 0 0 = some 0 ∧ keepOf smallPlan 0 = some 0 ∧ (localSteps s 0).contains 0 = true := by decide
/-- A point of job 0 that is armed for mark 10. -/
def smallPoint : Point :=
  { desc := ⟨0, 1⟩, full := true, step := 0, start := 10, endMark := 100, started := false, stopTicks := 0, streams := [{}, {}]
    keepFailed := false }
theorem test_point_fires :
    let s : State := { State.reset with
      jobs := [(0, { ({} : JobState) with resident := true, nranks := 1, plan := some smallPlan, point := some smallPoint })]
      panels := [(0, { comparators := [⟨.snapshot 0, 10⟩] })], gau := { ({} : GauState) with count := 10, valid := true, refOk := true } }
    (s.job 0).plan = some smallPlan ∧ (s.job 0).point = some smallPoint ∧ fires s (.snapshot 0) = true ∧
      alignedNow (disarm (checkAligned s) (.snapshot 0)) = true := by decide
/-- A second point of a job, and a second restore, are malformed: both premises are met. -/
theorem test_secure_pending :
    let s := (secureState opSnapshot [1, 10, 100000]).setJob 0 { (secureState opSnapshot []).job 0 with point := some smallPoint }
    ((begun s ⟨0, 1⟩).job 0).point.isSome = true ∧ rankJobOf (begun s ⟨0, 1⟩) 0 0 = some 0 := by decide
theorem test_remote_opens :
    let p := { smallPlan with routes := [[(1, 0)], [(1, 0)]] }
    let s := (secureState opRestore [1]).setJob 0 { (secureState opRestore []).job 0 with plan := some p, myRank := 1 }
    (((sendsOf (begun s ⟨0, 1⟩) (.restore 0)).all fun e => !e.2.2.failed) = true ∧
      ∀ st ∈ [0, 1], streamRoutes (begun s ⟨0, 1⟩) 0 p st ≠ []) := by decide
theorem test_point_missed :
    let s : State := { State.reset with
      jobs := [(0, { ({} : JobState) with plan := some smallPlan, point := some smallPoint })]
      panels := [(0, { comparators := [⟨.snapshot 0, 10⟩] })], gau := { ({} : GauState) with count := 10, valid := true } }
    fires s (.snapshot 0) = true ∧ alignedNow (disarm (checkAligned s) (.snapshot 0)) = false := by decide
/-- A reserved field of the block, and a job that the context has not. -/
theorem test_secure_bad :
    let s := begun (secureState opSnapshot [1 + 2 ^ 8]) ⟨0, 1⟩
    let r := begun (secureState opRestore [1 + 2 ^ 16]) ⟨0, 1⟩
    (readArgs s (controlDesc opSnapshot []) 8 = some [257, 0, 0, 0, 0, 0, 0, 0] ∧ rankJobOf s 0 1 = none) ∧
      readArgs r (controlDesc opRestore []) 8 = some [65537, 0, 0, 0, 0, 0, 0, 0] ∧ restoreFormBad [65537, 0, 0, 0, 0, 0, 0, 0] = true ∧
      snapFormBad [65537, 0, 0, 0, 0, 0, 0, 0] = true := by decide

/-- A COMMIT of step 1 of job 0, a rank alone, whose module voted ready. -/
def smallCommit (b : Option VoteBlock) (a : CommitAction) : CommitState :=
  { desc := ⟨0, 1⟩, step := 1, epoch := 0, voteMark := 10, commitMark := 5000, sched := 0, counts := [0, 0, 0, 0], checkOk := true, action := a
    voted := some true, block := b, voteFlagged := false, reasons := 0 }
def commitState (n : Nat) (b : Option VoteBlock) (a : CommitAction) (armed : List Comparator) : State :=
  { State.reset with
    jobs := [(0, { ({} : JobState) with
      resident := true, nranks := 1, commit := some (smallCommit b a), scrub := true
      rootDue := [⟨0, 3, 1, 0, 0, 1, 1, 2, 1, 1, 0, 0, true⟩] })]
    panels := [(0, { comparators := armed })], gau := { ({} : GauState) with count := BitVec.ofNat 64 n, valid := true, refOk := true } }
theorem test_commit_states :
    let s := commitState 100 (some {}) .undecided []
    (s.job 0).commit = some (smallCommit (some {}) .undecided) ∧ alignedNow s = true ∧ findArmed s (.commit 0) = none ∧
      (s.panel 0).comparators.length < 16 ∧ atMark (commitState 3281 none .undecided []) 3281 = true ∧
      atMark (commitState 3280 none .undecided []) 3281 = false ∧
      fires (commitState 5000 none .write [⟨.commit 0, 5000⟩]) (.commit 0) = true ∧ (s.job 0).scrub = true := by decide
theorem test_commit_idle :
    let s := commitState 100 none .write []
    fires s (.commit 0) = false ∧ (State.reset.job 0).commit = none ∧ (State.reset.job 0).scrub = false ∧ (State.reset.job 0).jobWide = none ∧
      ((State.reset.job 0).rootDue.find? fun r => r.layer == 0 && r.computing && tilesRun State.reset r.panel) = none := by decide
theorem test_root_due :
    let s := commitState 100 none .undecided []
    ((s.job 0).rootDue.find? fun r => r.layer == 3 && r.computing && tilesRun s r.panel).isSome = true := by decide
theorem test_ladder_due :
    let s : State := { State.reset with
      jobs := [(0, { ({} : JobState) with
        resident := true, nranks := 1, jobWide := some (0, false)
        policy := some (policyOfWords [1 + 2 ^ 8 + 2 ^ 16 + 2 ^ 24 + 3 * 2 ^ 48, 1 + 2 ^ 32, 0x3FF0000000000000, 0x4000000000000000, 2, 0, 0, 0] []) })] }
    (s.job 0).jobWide = some (0, false) ∧ (s.job 0).shadow = none ∧ (shadowOf s 0 0).isSome = true := ⟨by decide, by decide, by decide⟩

/-- A running MOVE of eight rows of eight bytes, as its descriptor holds it, and a state in which core 7 may take its rows. -/
def runningMoveDesc (parts : List PartState) : DescState :=
  { words := [3, 0, 0, 0, 0, 0, 0, 0], phase := .running, parts := parts
    args := ([0x1000, 0x2000, 8 + 2 ^ 32 * 8, 8 + 2 ^ 32 * 8, 9 + 2 ^ 16 * 9, 0xFFFFFFFF00000000, 0, 0] : List Nat).map (BitVec.ofNat 64) }
def partState (parts : List PartState) : State := State.reset.setDesc ⟨3, 0⟩ (runningMoveDesc parts)
def wholeShare : Placement := { slots := [{ slot := 450, entry := 0x1000, args := 7, scBase := 0, scCount := 4 }], panelScs := [], lo := 0, hi := 8 }
def smallPart : PartState := { unit := 7, slots := [], lo := 0, hi := 8, failed := false, reads := [], writes := [] }
theorem test_part_may_be_placed :
    (mayPlace (partState []) (runningMoveDesc []) 7 wholeShare && tilesFit (partState []) (runningMoveDesc []) 7) = true := by decide
theorem test_part_may_end :
    let s := partState [smallPart]
    recordRoom s = true ∧ inReplay s ⟨3, 0⟩ 7 = false ∧ slotsDone s ⟨3, 0⟩ smallPart = true ∧ movesOpen s ⟨3, 0⟩ = false ∧
      mayPlace s (runningMoveDesc [smallPart]) 7 wholeShare = false := by decide

/-- The module 400 s after reset, with slot 5 running and a command in a queue of core 0. -/
def lateState : State :=
  { State.reset with
    gau := { ({} : GauState) with edges := 62500000000 }
    slots := [(5, { running := true })]
    cores := [(0, { ({} : CoreState) with mover := { queue := [mkCmd State.reset 5 .mover .move []] } })] }
theorem test_slot_hangs : ((lateState.slot 5).running && !(lateState.slot 5).stopped && panelDue lateState 0 0 lateState.glb.slotWin.toNat) = true := by
  decide
theorem test_engine_hangs : (engineDue lateState 0 .mover && (lateState.core 0).replay.isNone && !unitStuck lateState 0) = true := by decide
theorem test_queue_hangs :
    let s : State := { lateState with qmg := { ({} : QmgState) with
      groups := [(0, 0, true)], queues := [(0, { ({} : QueueState) with enable := true, head := 1 })], ctxs := [(0, { phase := .opened })] } }
    queueCtx s 0 = some 0 ∧ ((s.queue 0).enable && ((s.queue 0).head != (s.queue 0).done || (s.queue 0).tail != (s.queue 0).head)
      && !queueExempt s 0 (msTicks s.glb.queueWin.toNat) && elapsed s (queueProgress s 0) (msTicks s.glb.queueWin.toNat)) = true := by decide
theorem test_unit_hangs :
    let p : PartState := { unit := 163, slots := [], lo := 0, hi := 1, failed := false, reads := [], writes := [] }
    let s : State := { lateState with qmg := { ({} : QmgState) with descs := [(1, { ctx := 7, parts := [p] })] } }
    servedCtx s (.update 1) = some 7 ∧ elapsed s (unitProgress s (.update 1)) (msTicks s.glb.engineWin.toNat) = true ∧
      unitExempt s (.update 1) = false ∧ unitStuck s 163 = false ∧ (unitHangs (noteHang s (.update 1)) (.update 1)).length < 3 := by decide

def rungState (l : List RungRun) (lock : Bool) : State :=
  { State.reset with
    pwr := { State.reset.pwr with pwrGood := true, perst := false }, sec := { State.reset.sec with lock := lock }
    glb := { State.reset.glb with rungs := l, powerRung := some evResetChip }, panels := [(0, { ({} : PanelState) with state := 1 })]
    qmg := { ({} : QmgState) with ctxs := [(7, { phase := .opened })] } }
theorem test_rung_states :
    let s := rungState [] true
    hostUp s = true ∧ s.sec.lock = true ∧ (rungState [] false).sec.lock = false ∧ (s.ctx 7).phase = .opened ∧ (s.ctx 7).rung = false ∧
      engineOf 1 = some .matrix ∧ unitOfSrc 170 = some .queueManager ∧ rungOn s (.panel 2) = false ∧ rungOn s .chip = false ∧
      unitStuck s 3 = false ∧ unitStuck s 170 = false ∧ recent s (secTicks 60) (s.panel 2).rungs = [] ∧ (recent s (secTicks 600) s.glb.chipRungAt).length < 2 ∧ s.pwr.pwrCycleReq = false ∧
      s.glb.powerRung = some evResetChip := by decide
theorem test_rungs_on :
    rungOn (rungState [⟨.panel 2, 0, 0, 0⟩] true) (.panel 2) = true ∧ rungOn (rungState [⟨.chip, 0, 0, 0⟩] true) .chip = true ∧
      elapsed { rungState [] true with gau := { ({} : GauState) with edges := 156250 } } 0 (msTicks 1) = true ∧
      ((rungState [⟨.chip, 0, 0, 0⟩] true).panel 0).state = 1 ∧ rungRun (rungState [⟨.context 7, 0, 0, 0⟩] true) (.context 7) = some ⟨.context 7, 0, 0, 0⟩ := by
  decide
theorem test_core_of_panel : corePanel 45 = 1 ∧ slotPanel 2560 = 1 := by decide

def eventState (p : EvPath) : State :=
  { State.reset with
    pwr := { State.reset.pwr with pwrGood := true, perst := false }, sec := { State.reset.sec with lock := true }
    ev := { ({} : EvState) with chipLog := p, i3c := { ({} : EvPath) with recs := [{ code := evMemUe }] }, beatAt := some 0 } }
theorem test_event_states :
    ((eventState { tab := [{ code := evMemUe }] }).path .chipLog).tab = [{ code := evMemUe }] ∧
      ((eventState { tab := [{ code := evMemUe }] }).path .chipLog).cnt.drop = ((eventState { tab := [{ code := evMemUe }] }).path .chipLog).summed ∧
      evAdmits (eventState { tab := [{ code := evMemUe }] }) .chipLog (evPrio evMemUe) = true ∧
      evAdmits (eventState { tab := [{ code := evMemUe }], written := 261120 }) .chipLog (evPrio evMemUe) = false ∧
      1 ≤ evFree (eventState { cnt := { drop := [(1, 3)] } }) .chipLog ∧ (eventState {}).ev.evqEnable = false ∧
      elapsed (eventState {}) 0 (msTicks 100) = false ∧ benchUp (eventState {}) = true ∧ hostUp (eventState {}) = true ∧ (∀ e ∈ (eventState {}).ev.i3c.recs, evPrio e.code < 4) ∧ riskDue (eventState {}) = true := by
  decide
theorem test_heartbeat_due : elapsed { eventState {} with gau := { ({} : GauState) with edges := 15625000 } } 0 (msTicks 100) = true := by decide

def bootState (b : BootPhase) (lock : Bool) : State :=
  { State.reset with pwr := { State.reset.pwr with pwrGood := true, perst := false }, sec := { State.reset.sec with boot := b, lock := lock } }
theorem test_boot_states :
    (bootState .reset false).pwr.pwrGood = true ∧ hostUp (bootState .locked true) = true ∧ (bootState .reset false).sec.boot = .reset ∧
      (bootState .checking false).sec.boot = .checking ∧ (bootState .checking false).sec.lock = false ∧ (bootState .locked true).sec.lock = true := by
  decide
set_option maxRecDepth 20000 in
/-- Blank flash holds no valid selector: 56 zero bytes do not have the CRC 0. -/
theorem test_flash_blank : crc32c (List.replicate 56 0) ≠ 0 := by decide

def smallMail : MailRequest := { tag := 7, len := 0, flags := 0, reserved := 0, payload := [] }
theorem test_mail_states :
    mailAnswers (mailState .locked true 1) = true ∧ (mailState .locked true 1).sec.flashJob = none ∧ mailForm smallMail = true ∧ mailForm { smallMail with len := 4 } = false ∧
      mailAnswers (mailState .recovery false 0) = true ∧ mailAnswers (mailState .reset false 0) = false ∧
      mailAnswers (mailState .refused false 0) = true ∧ tabFind (mailState .refused false 0).sec.fuses.owner 2 = none := by decide
theorem test_flash_job_ends :
    let s : State := { mailState .locked true 1 with
      sec := { (mailState .locked true 1).sec with flashJob := some ⟨7, 0x100000, [1, 2], 0, 10⟩ }, gau := { ({} : GauState) with edges := 11 } }
    mailAnswers s = true ∧ s.sec.flashJob = some ⟨7, 0x100000, [1, 2], 0, 10⟩ ∧ 0 + 10 < s.now := by decide

def sessionState : State :=
  { mailState .locked true 1 with sec := { (mailState .locked true 1).sec with
      protIde := 1, ioSecure := true, sessions := [{ sid := 9, established := true, keyGen := 0, secret := [] }, { sid := 8, established := false, keyGen := 0, secret := [] }]
      ideKeys := [{ slot := ⟨.io, false, false⟩, key := 0, go := true }] } }
theorem test_session_states :
    mailAnswers sessionState = true ∧ findSession sessionState 9 = some { sid := 9, established := true, keyGen := 0, secret := [] } ∧
      findSession sessionState 8 = some { sid := 8, established := false, keyGen := 0, secret := [] } ∧ sessionState.sec.protIde ≠ 0 ∧
      sessionState.sec.ideKeys = [{ slot := ⟨.io, false, false⟩, key := 0, go := true }] ∧ sessionState.sec.sealed_ = false := by decide

theorem test_register_state :
    let s : State := { State.reset with
      pwr := { State.reset.pwr with pwrGood := true, perst := false }, sec := { State.reset.sec with lock := true } }
    hostUp s = true ∧ s.sec.lock = true := by decide

end Sys2Proof.Tests
end

section

/-! SUPPORT. What the operations of the model leave alone: the queue of commands, LOCK, and the fields that LOCK protects
(R478, R485). One lemma per operation, in the order of the model's files. -/

namespace Sys2Proof.Machine

open Sys2Proof

/-- The queue of commands, LOCK, and the fields that LOCK protects (R485). -/
def guarded (s : State) : List Instr × Bool × Tab W64 × Tab W64 × Byte × Byte × W32 :=
  (s.pending, s.sec.lock, lockedFields s)

section Updates

variable (s : State) (free : Nat) (mem : MemState) (slots : Tab SlotState) (cores : Tab CoreState) (panels : Tab PanelState)
  (upd : Tab UpdState) (qmg : QmgState) (gau : GauState) (colls : Tab CollState) (jobs : Tab JobState) (glb : GlbState)
  (pwr : PwrState) (ev : EvState) (out : List Output) (links : Tab LinkState) (rings : Tab RingState) (dies : Tab DieState)

@[simp ↓] theorem guarded_mk :
    guarded ⟨s.pending, free, mem, slots, cores, panels, upd, qmg, s.lnk, gau, colls, jobs, glb, pwr, s.sec, ev,
      out⟩ = guarded s := by
  rfl

@[simp ↓] theorem guarded_mk_lnk :
    guarded ⟨s.pending, free, mem, slots, cores, panels, upd, qmg, ⟨s.lnk.enable, links, rings, dies⟩, gau, colls, jobs, glb, pwr,
      s.sec, ev, out⟩ = guarded s := by
  rfl

end Updates

theorem guarded_sec (s : State) (x : SecState)
    (h : x.lock = s.sec.lock ∧ x.regions = s.sec.regions ∧ x.bind = s.sec.bind ∧ x.protDebug = s.sec.protDebug ∧
      x.protIde = s.sec.protIde) :
    guarded { s with sec := x } = guarded s := by
  obtain ⟨h1, h2, h3, h4, h5⟩ := h
  simp only [guarded, lockedFields, h1, h2, h3, h4, h5]

@[simp ↓] theorem guarded_updSec (s : State) (g : SecState → SecState)
    (h : ∀ x, (g x).lock = x.lock ∧ (g x).regions = x.regions ∧ (g x).bind = x.bind ∧ (g x).protDebug = x.protDebug ∧
      (g x).protIde = x.protIde) :
    guarded (updSec s g) = guarded s := guarded_sec s _ (h s.sec)

@[simp ↓] theorem guarded_ite (c : Prop) [Decidable c] (a b : State) :
    guarded (if c then a else b) = if c then guarded a else guarded b := apply_ite ..

@[simp ↓] theorem guarded_dite (c : Prop) [Decidable c] (a : c → State) (b : ¬ c → State) :
    guarded (if h : c then a h else b h) = if h : c then guarded (a h) else guarded (b h) := apply_dite ..

@[simp ↓] theorem guarded_ite_fst {α : Type} (c : Prop) [Decidable c] (a b : State × α) :
    guarded (if c then a else b).1 = if c then guarded a.1 else guarded b.1 := apply_ite (fun r : State × α => guarded r.1) ..

@[simp ↓] theorem guarded_foldl {β : Type} (g : State → β → State) (l : List β) (s : State)
    (h : ∀ s b, guarded (g s b) = guarded s) : guarded (l.foldl g s) = guarded s := by
  induction l generalizing s with
  | nil => rfl
  | cons b t ih => rw [List.foldl_cons, ih, h]

theorem guarded_foldl_fst {α β : Type} (g : State × α → β → State × α) (h : ∀ a b, guarded (g a b).1 = guarded a.1)
    (l : List β) (a : State × α) : guarded (l.foldl g a).1 = guarded a.1 := by
  induction l generalizing a with
  | nil => rfl
  | cons b t ih => rw [List.foldl_cons, ih, h]

theorem guarded_getD {o : Option State} {s u : State} (ho : ∀ t, o = some t → guarded t = guarded s)
    (hu : guarded u = guarded s) : guarded (o.getD u) = guarded s := by
  cases o with
  | none => exact hu
  | some t => exact ho t rfl

/-! ### The setters of the state -/

@[simp ↓] theorem guarded_setSlot (s t x) : guarded (State.setSlot s t x) = guarded s := by rfl
@[simp ↓] theorem guarded_setCore (s c x) : guarded (State.setCore s c x) = guarded s := by rfl
@[simp ↓] theorem guarded_setPanel (s p x) : guarded (State.setPanel s p x) = guarded s := by rfl
@[simp ↓] theorem guarded_setUpdEngine (s p x) : guarded (State.setUpdEngine s p x) = guarded s := by rfl
@[simp ↓] theorem guarded_updCtx (s c g) : guarded (updCtx s c g) = guarded s := by rfl
@[simp ↓] theorem guarded_setLink (s l x) : guarded (State.setLink s l x) = guarded s := by rfl
@[simp ↓] theorem guarded_setRing (s r x) : guarded (State.setRing s r x) = guarded s := by rfl
@[simp ↓] theorem guarded_setDie (s d x) : guarded (State.setDie s d x) = guarded s := by rfl
@[simp ↓] theorem guarded_setJob (s j x) : guarded (State.setJob s j x) = guarded s := by rfl
@[simp ↓] theorem guarded_setDesc (s d x) : guarded (State.setDesc s d x) = guarded s := by rfl
@[simp ↓] theorem guarded_dropDesc (s d) : guarded (State.dropDesc s d) = guarded s := by rfl
@[simp ↓] theorem guarded_setColl (s d x) : guarded (State.setColl s d x) = guarded s := by rfl
@[simp ↓] theorem guarded_dropColl (s d) : guarded (State.dropColl s d) = guarded s := by rfl
@[simp ↓] theorem guarded_emit (s o) : guarded (State.emit s o) = guarded s := by rfl

/-! ### The event log -/

@[simp ↓] theorem guarded_setPath (s n x) : guarded (State.setPath s n x) = guarded s := by unfold State.setPath; split <;> simp
@[simp ↓] theorem guarded_evWrite (s n e) : guarded (evWrite s n e) = guarded s := by unfold evWrite; split <;> simp
@[simp ↓] theorem guarded_evOffer (s n e) : guarded (evOffer s n e) = guarded s := by simp [evOffer]
@[simp ↓] theorem guarded_raiseRec (s e) : guarded (raiseRec s e) = guarded s := by simp [raiseRec]
@[simp ↓] theorem guarded_raiseI3c (s code args) : guarded (raiseI3c s code args) = guarded s := by simp [raiseI3c]

@[simp ↓] theorem guarded_raiseEv (s code src args ctx job sub) : guarded (raiseEv s code src args ctx job sub) = guarded s := by
  simp [raiseEv]

@[simp ↓] theorem guarded_evFlushEntry (n s e) : guarded (evFlushEntry n s e) = guarded s := by simp [evFlushEntry]
@[simp ↓] theorem guarded_evFlush (s n) : guarded (evFlush s n) = guarded s := by simp [evFlush]
@[simp ↓] theorem guarded_flushAll (s) : guarded (flushAll s) = guarded s := by simp [flushAll]
@[simp ↓] theorem guarded_offerOn (s e) : guarded (offerOn s e) = guarded s := by simp [offerOn]
@[simp ↓] theorem guarded_scanRings (s) : guarded (scanRings s) = guarded s := by simp [scanRings]
@[simp ↓] theorem guarded_evDropHeld (s n) : guarded (evDropHeld s n) = guarded s := by simp [evDropHeld]
@[simp ↓] theorem guarded_dropHeld (s) : guarded (dropHeld s) = guarded s := by simp [dropHeld]
@[simp ↓] theorem guarded_closePaths (s) : guarded (closePaths s) = guarded s := by simp [closePaths]

/-! ### Memory writes (vaWrite and below) -/

@[simp ↓] theorem guarded_setMemCtl (s p c) : guarded (State.setMemCtl s p c) = guarded s := by rfl
@[simp ↓] theorem guarded_gddrWrite (s pa data bad) : guarded (gddrWrite s pa data bad) = guarded s := by simp [gddrWrite]
@[simp ↓] theorem guarded_noteResetRead (s pa) : guarded (noteResetRead s pa) = guarded s := by simp [noteResetRead]

@[simp ↓] theorem guarded_writeParts (bad : Bool) : ∀ (l : List (Nat × Nat)) (s : State) (data : List Byte),
    guarded (writeParts s bad l data) = guarded s
  | [], _, _ => rfl
  | (pa, len) :: t, s, data => by rw [writeParts, guarded_writeParts bad t, guarded_gddrWrite]

theorem guarded_vaWrite {s t : State} {c va data bad} (h : vaWrite s c va data bad = some t) : guarded t = guarded s := by
  obtain ⟨ps, -, rfl⟩ := Option.map_eq_some_iff.1 h
  exact guarded_writeParts ..

theorem guarded_vaWriteOld {s t : State} {c va data bad} (h : vaWriteOld s c va data bad = some t) : guarded t = guarded s := by
  obtain ⟨ps, -, rfl⟩ := Option.map_eq_some_iff.1 h
  exact guarded_writeParts ..

@[simp ↓] theorem guarded_vaWrite_getD {s u : State} {c va data bad} (h : guarded u = guarded s) :
    guarded ((vaWrite s c va data bad).getD u) = guarded s := guarded_getD (fun _ => guarded_vaWrite) h

@[simp ↓] theorem guarded_vaWriteOld_getD {s u : State} {c va data bad} (h : guarded u = guarded s) :
    guarded ((vaWriteOld s c va data bad).getD u) = guarded s := guarded_getD (fun _ => guarded_vaWriteOld) h

@[simp ↓] theorem guarded_noteBadTable (s c va) : guarded (noteBadTable s c va) = guarded s := by
  unfold noteBadTable; split <;> simp

@[simp ↓] theorem guarded_noteBadRange (s c va n) : guarded (noteBadRange s c va n) = guarded s := by
  unfold noteBadRange; dsimp only; (repeat' split) <;> simp

@[simp ↓] theorem guarded_noteVaRead (s c va n) : guarded (noteVaRead s c va n) = guarded s := by
  unfold noteVaRead; split <;> simp

@[simp ↓] theorem guarded_noteVaWrite (s c va n) : guarded (noteVaWrite s c va n) = guarded s := by simp [noteVaWrite]
@[simp ↓] theorem guarded_setBank (s k b) : guarded (State.setBank s k b) = guarded s := by unfold State.setBank; split <;> simp
@[simp ↓] theorem guarded_noteVoid (s w) : guarded (noteVoid s w) = guarded s := by rfl
@[simp ↓] theorem guarded_applyWrite (s w) : guarded (applyWrite s w) = guarded s := by unfold applyWrite; split <;> simp

/-! ### Dumps -/

@[simp ↓] theorem guarded_placeDump (s d) : guarded (placeDump s d) = guarded s := by
  unfold placeDump; dsimp only; (repeat' split) <;> simp

@[simp ↓] theorem guarded_writeDump (s rung p cause src sects) : guarded (writeDump s rung p cause src sects) = guarded s := by
  simp [writeDump]

@[simp ↓] theorem guarded_copyShadow (s p) : guarded (copyShadow s p) = guarded s := by unfold copyShadow; split <;> simp
@[simp ↓] theorem guarded_chipDumps (s rung cause src) : guarded (chipDumps s rung cause src) = guarded s := by simp [chipDumps]

/-! ### Rungs that start and escalate -/

@[simp ↓] theorem guarded_pushRung (s r cause src) : guarded (pushRung s r cause src) = guarded s := by rfl
@[simp ↓] theorem guarded_dropRung (s r) : guarded (dropRung s r) = guarded s := by rfl

@[simp ↓] theorem guarded_escalate (s code src args start) (h : ∀ s, guarded (start s) = guarded s) :
    guarded (escalate s code src args start) = guarded s := by
  simp [escalate, h]

@[simp ↓] theorem guarded_startPower (cause s) : guarded (startPower cause s) = guarded s := by unfold startPower; split <;> simp
@[simp ↓] theorem guarded_holdMem (s p) : guarded (holdMem s p) = guarded s := by rfl
@[simp ↓] theorem guarded_freeMem (s p) : guarded (freeMem s p) = guarded s := by simp [freeMem]
@[simp ↓] theorem guarded_copyCounters (s) : guarded (copyCounters s) = guarded s := by simp [copyCounters]
@[simp ↓] theorem guarded_idleDie (s d) : guarded (idleDie s d) = guarded s := by simp [idleDie]
@[simp ↓] theorem guarded_chipNotice (cause s) : guarded (chipNotice cause s) = guarded s := by simp [chipNotice]
@[simp ↓] theorem guarded_chipClose (cause s) : guarded (chipClose cause s) = guarded s := by simp [chipClose]
@[simp ↓] theorem guarded_beginChip (cause src s) : guarded (beginChip cause src s) = guarded s := by simp [beginChip]

@[simp ↓] theorem guarded_startChip (cause src s) : guarded (startChip cause src s) = guarded s := by
  unfold startChip; split <;> simp

@[simp ↓] theorem guarded_panelToChip (p cause src s) : guarded (panelToChip p cause src s) = guarded s := by simp [panelToChip]
@[simp ↓] theorem guarded_beginPanel (p cause src s) : guarded (beginPanel p cause src s) = guarded s := by simp [beginPanel]
@[simp ↓] theorem guarded_startPanel (p cause src s) : guarded (startPanel p cause src s) = guarded s := by simp [startPanel]

@[simp ↓] theorem guarded_engineToPanel (p cause src s) : guarded (engineToPanel p cause src s) = guarded s := by
  simp [engineToPanel]

@[simp ↓] theorem guarded_chipFault (s code src args) : guarded (chipFault s code src args) = guarded s := by simp [chipFault]
@[simp ↓] theorem guarded_noteRung (n s) : guarded (noteRung n s) = guarded s := by rfl

/-! ### Status and host writes -/

@[simp ↓] theorem guarded_markDesc (s d status) : guarded (markDesc s d status) = guarded s := by unfold markDesc; split <;> simp

@[simp ↓] theorem guarded_hostWrite (s g) (h : guarded (g s) = guarded s) : guarded (hostWrite s g) = guarded s := by
  unfold hostWrite
  split
  · rfl
  · split
    · exact h
    · rfl

/-! ### Panels and the fabric -/

@[simp ↓] theorem guarded_checkRing (s r) : guarded (checkRing s r) = guarded s := by simp [checkRing]
@[simp ↓] theorem guarded_updDie (s d g) : guarded (updDie s d g) = guarded s := by rfl
@[simp ↓] theorem guarded_updRing (s r g) : guarded (updRing s r g) = guarded s := by rfl
@[simp ↓] theorem guarded_countBroken (d n s) : guarded (countBroken d n s) = guarded s := by rfl
@[simp ↓] theorem guarded_breakRings (s l) : guarded (breakRings s l) = guarded s := by rfl
@[simp ↓] theorem guarded_placeThrough (s r ps) : guarded (placeThrough s r ps) = guarded s := by simp [placeThrough]
@[simp ↓] theorem guarded_addCand (s e c) : guarded (addCand s e c) = guarded s := by unfold addCand; split <;> simp

theorem guarded_arrive (r : Ring) (acc : State × List Packet) (p : Packet) : guarded (arrive r acc p).1 = guarded acc.1 := by
  unfold arrive; dsimp only; (repeat' split) <;> simp

@[simp ↓] theorem guarded_frameArrives (s l ps) : guarded (frameArrives s l ps) = guarded s := by
  simp [frameArrives, guarded_foldl_fst _ (guarded_arrive _)]

@[simp ↓] theorem guarded_setExitRsv (s e l) : guarded (setExitRsv s e l) = guarded s := by unfold setExitRsv; split <;> simp
@[simp ↓] theorem guarded_endRsv (s e t) : guarded (endRsv s e t) = guarded s := by simp [endRsv]
@[simp ↓] theorem guarded_reserveFor (s e r h) : guarded (reserveFor s e r h) = guarded s := by simp [reserveFor]
@[simp ↓] theorem guarded_openRecv (s d h) : guarded (openRecv s d h) = guarded s := by simp [openRecv]
@[simp ↓] theorem guarded_takeDelivery (s d p) : guarded (takeDelivery s d p) = guarded s := by simp [takeDelivery]
@[simp ↓] theorem guarded_enter (s e p) : guarded (enter s e p) = guarded s := by unfold enter; split <;> simp
@[simp ↓] theorem guarded_deflect (s e r p) : guarded (deflect s e r p) = guarded s := by simp [deflect]

@[simp ↓] theorem guarded_setExitCands (s e l) : guarded (setExitCands s e l) = guarded s := by
  unfold setExitCands; split <;> simp

@[simp ↓] theorem guarded_serveTransit (e s c) : guarded (serveTransit e s c) = guarded s := by
  unfold serveTransit; split <;> simp

@[simp ↓] theorem guarded_putSend (s d j m x) : guarded (putSend s d j m x) = guarded s := by rfl
@[simp ↓] theorem guarded_dropSend (s d j m) : guarded (dropSend s d j m) = guarded s := by rfl

@[simp ↓] theorem guarded_failSend (s d j m status) : guarded (failSend s d j m status) = guarded s := by
  unfold failSend; dsimp only; (repeat' split) <;> simp

@[simp ↓] theorem guarded_noteInjected (s d h) : guarded (noteInjected s d h) = guarded s := by
  unfold noteInjected; dsimp only; (repeat' split) <;> simp

@[simp ↓] theorem guarded_failInjection (s d h status) : guarded (failInjection s d h status) = guarded s := by
  simp [failInjection]

@[simp ↓] theorem guarded_injectPacket (s e p) : guarded (injectPacket s e p) = guarded s := by simp [injectPacket]

@[simp ↓] theorem guarded_serveInjections (e : Exit) : ∀ (l : List Cand) (s : State), guarded (serveInjections e s l) = guarded s
  | [], _ => rfl
  | c :: t, s => by
    unfold serveInjections; dsimp only
    split
    · simp [guarded_serveInjections e t]
    · split
      · rw [guarded_serveInjections e t]; split <;> simp
      · simp

@[simp ↓] theorem guarded_arbitrate (s e) : guarded (arbitrate s e) = guarded s := by unfold arbitrate; split <;> simp
@[simp ↓] theorem guarded_beginDie (s d) : guarded (beginDie s d) = guarded s := by simp [beginDie]
@[simp ↓] theorem guarded_queueMessage (s m r msg) : guarded (queueMessage s m r msg).1 = guarded s := by simp [queueMessage]
@[simp ↓] theorem guarded_sendMessage (s m r) : guarded (sendMessage s m r).1 = guarded s := by simp [sendMessage]
@[simp ↓] theorem guarded_sendAck (s j rank msg) : guarded (sendAck s j rank msg) = guarded s := by simp [sendAck]

/-! ### Gauges -/

@[simp ↓] theorem guarded_updGau (s g) : guarded (updGau s g) = guarded s := by rfl
@[simp ↓] theorem guarded_checkAligned (s) : guarded (checkAligned s) = guarded s := by simp [checkAligned]
@[simp ↓] theorem guarded_countLimited (s) : guarded (countLimited s) = guarded s := by simp [countLimited]

@[simp ↓] theorem guarded_gaugeEdge (s) : guarded (gaugeEdge s) = guarded s := by
  unfold gaugeEdge; dsimp only; (repeat' split) <;> simp

@[simp ↓] theorem guarded_joinFrom (l s) : guarded (joinFrom l s) = guarded s := by simp [joinFrom]
@[simp ↓] theorem guarded_disarm (s a) : guarded (disarm s a) = guarded s := by simp [disarm]

/-! ### Links -/

@[simp ↓] theorem guarded_updLink (s l g) : guarded (updLink s l g) = guarded s := by rfl
@[simp ↓] theorem guarded_linkDown (s l why) : guarded (linkDown s l why) = guarded s := by simp [linkDown]
@[simp ↓] theorem guarded_leaveRun (s l ph why) : guarded (leaveRun s l ph why) = guarded s := by rfl
@[simp ↓] theorem guarded_enterDetect (s l) : guarded (enterDetect s l) = guarded s := by rfl
@[simp ↓] theorem guarded_enterHold (s l) : guarded (enterHold s l) = guarded s := by rfl
@[simp ↓] theorem guarded_enterRun (s l) : guarded (enterRun s l) = guarded s := by rfl
@[simp ↓] theorem guarded_holdStep (s l) : guarded (holdStep s l) = guarded s := by simp [holdStep]

@[simp ↓] theorem guarded_writeTarget (l g s) (h : ∀ s, guarded (g s) = guarded s) : guarded (writeTarget l g s) = guarded s := by
  simp [writeTarget, h]

@[simp ↓] theorem guarded_targetOff (l s) : guarded (targetOff l s) = guarded s := by simp [targetOff]
@[simp ↓] theorem guarded_beginUp (s l) : guarded (beginUp s l) = guarded s := by simp [beginUp]
@[simp ↓] theorem guarded_targetHold (l s) : guarded (targetHold l s) = guarded s := by simp [targetHold]
@[simp ↓] theorem guarded_targetRun (l s) : guarded (targetRun l s) = guarded s := by simp [targetRun]
@[simp ↓] theorem guarded_resolveLink (l v s) : guarded (resolveLink l v s) = guarded s := by simp [resolveLink]
@[simp ↓] theorem guarded_sendFrame (s l seq ps null) : guarded (sendFrame s l seq ps null) = guarded s := by rfl

@[simp ↓] theorem guarded_resendFrame (s l seq) : guarded (resendFrame s l seq) = guarded s := by
  unfold resendFrame; split <;> simp

@[simp ↓] theorem guarded_sendBuffer (s l b) : guarded (sendBuffer s l b) = guarded s := by rfl

@[simp ↓] theorem guarded_sendNext (l s) : guarded (sendNext l s) = guarded s := by
  unfold sendNext; dsimp only; (repeat' split) <;> simp

@[simp ↓] theorem guarded_goodFrame (s l f) : guarded (goodFrame s l f) = guarded s := by simp [goodFrame]
@[simp ↓] theorem guarded_badFrame (s l again) : guarded (badFrame s l again) = guarded s := by simp [badFrame]

/-! ### Scalar instructions -/

@[simp ↓] theorem guarded_releaseHandles (s c l) : guarded (releaseHandles s c l) = guarded s := by simp [releaseHandles]
@[simp ↓] theorem guarded_dropHandles (s t) : guarded (dropHandles s t) = guarded s := by simp [dropHandles]
@[simp ↓] theorem guarded_faultSlot (t code sub s) : guarded (faultSlot t code sub s) = guarded s := by simp [faultSlot]
@[simp ↓] theorem guarded_updSlot (t g s) : guarded (updSlot t g s) = guarded s := by rfl
@[simp ↓] theorem guarded_writeD (t d v late s) : guarded (writeD t d v late s) = guarded s := by rfl
@[simp ↓] theorem guarded_sAlu (t old f s) : guarded (sAlu t old f s) = guarded s := by rfl
@[simp ↓] theorem guarded_sAlui (t old f s) : guarded (sAlui t old f s) = guarded s := by rfl
@[simp ↓] theorem guarded_sLi (t f s) : guarded (sLi t f s) = guarded s := by rfl
@[simp ↓] theorem guarded_sLui (t old f s) : guarded (sLui t old f s) = guarded s := by rfl

@[simp ↓] theorem guarded_sLd (t old f s) : guarded (sLd t old f s) = guarded s := by
  unfold sLd; dsimp only; (repeat' split) <;> simp

@[simp ↓] theorem guarded_sSt (t old f s) : guarded (sSt t old f s) = guarded s := by
  unfold sSt; dsimp only; (repeat' split) <;> simp

@[simp ↓] theorem guarded_sAmo (t old f s) : guarded (sAmo t old f s) = guarded s := by unfold sAmo; split <;> simp
@[simp ↓] theorem guarded_sLink (t old f s) : guarded (sLink t old f s) = guarded s := by rfl
@[simp ↓] theorem guarded_sFp (t old f s) : guarded (sFp t old f s) = guarded s := by rfl
@[simp ↓] theorem guarded_sFma (t old f s) : guarded (sFma t old f s) = guarded s := by rfl
@[simp ↓] theorem guarded_sCsrr (t old f s) : guarded (sCsrr t old f s) = guarded s := by rfl
@[simp ↓] theorem guarded_sCsrw (t old f s) : guarded (sCsrw t old f s) = guarded s := by rfl

/-! ### Synchronization -/

@[simp ↓] theorem guarded_scPut (s n v) : guarded (scPut s n v) = guarded s := by unfold scPut; split <;> simp
@[simp ↓] theorem guarded_setEngine (s c k e) : guarded (State.setEngine s c k e) = guarded s := by rfl
@[simp ↓] theorem guarded_lateDrop (s n) : guarded (lateDrop s n) = guarded s := by rfl
@[simp ↓] theorem guarded_freeHolds (s l) : guarded (freeHolds s l) = guarded s := by rfl
@[simp ↓] theorem guarded_putInc (s n i) : guarded (putInc s n i) = guarded s := by simp [putInc]

@[simp ↓] theorem guarded_releaseFrom : ∀ (n : Nat) (s : State), guarded (releaseFrom n s) = guarded s
  | 0, _ => rfl
  | n + 1, s => by
    unfold releaseFrom; dsimp only
    split
    · rfl
    · simp [guarded_releaseFrom n]

@[simp ↓] theorem guarded_releaseWaits (s) : guarded (releaseWaits s) = guarded s := by simp [releaseWaits]
@[simp ↓] theorem guarded_scSet (s n v) : guarded (scSet s n v) = guarded s := by simp [scSet]
@[simp ↓] theorem guarded_applyInc (n s i) : guarded (applyInc n s i) = guarded s := by simp [applyInc]
@[simp ↓] theorem guarded_tryFree (s t) : guarded (tryFree s t) = guarded s := by simp [tryFree]

@[simp ↓] theorem guarded_endFence (s t) : guarded (endFence s t) = guarded s := by
  unfold endFence; dsimp only; (repeat' split) <;> simp

@[simp ↓] theorem guarded_spoilHandle (s c hn hit) : guarded (spoilHandle s c hn hit) = guarded s := by
  unfold spoilHandle; split <;> simp

@[simp ↓] theorem guarded_spoilTile (s c p hit) : guarded (spoilTile s c p hit) = guarded s := by
  unfold spoilTile; dsimp only; (repeat' split) <;> simp

@[simp ↓] theorem guarded_spoilTiles (whole s w) : guarded (spoilTiles whole s w) = guarded s := by
  unfold spoilTiles; split <;> simp

@[simp ↓] theorem guarded_spoilPasses (s w) : guarded (spoilPasses s w) = guarded s := by unfold spoilPasses; split <;> simp
@[simp ↓] theorem guarded_spoilBy (k s w) : guarded (spoilBy k s w) = guarded s := by simp [spoilBy]
@[simp ↓] theorem guarded_commandEffect (s c k cmd) : guarded (commandEffect s c k cmd) = guarded s := by simp [commandEffect]

@[simp ↓] theorem guarded_retireFront (s c k) : guarded (retireFront s c k) = guarded s := by
  unfold retireFront; dsimp only; (repeat' split) <;> simp

@[simp ↓] theorem guarded_settle (c : Core) (k : EngineKind) : ∀ (n : Nat) (s : State), guarded (settle c k n s) = guarded s
  | 0, _ => rfl
  | n + 1, s => by
    unfold settle
    split
    · split
      · simp [guarded_settle c k n]
      · rfl
    · rfl

@[simp ↓] theorem guarded_completeFront (s c k) : guarded (completeFront s c k) = guarded s := by simp [completeFront]
@[simp ↓] theorem guarded_enqueue (s c k cmd) : guarded (enqueue s c k cmd) = guarded s := by simp [enqueue]
@[simp ↓] theorem guarded_stopPasses (s t) : guarded (stopPasses s t) = guarded s := by simp [stopPasses]
@[simp ↓] theorem guarded_stopAt (t code sub s) : guarded (stopAt t code sub s) = guarded s := by simp [stopAt]
@[simp ↓] theorem guarded_tallyDesc (s d t) : guarded (tallyDesc s d t) = guarded s := by unfold tallyDesc; split <;> simp
@[simp ↓] theorem guarded_updDesc (s d g) : guarded (updDesc s d g) = guarded s := by unfold updDesc; split <;> simp
@[simp ↓] theorem guarded_updPart (s t g) : guarded (updPart s t g) = guarded s := by unfold updPart; split <;> simp
@[simp ↓] theorem guarded_tallySlot (s x t) : guarded (tallySlot s x t) = guarded s := by unfold tallySlot; split <;> simp
@[simp ↓] theorem guarded_failSlotPart (s t) : guarded (failSlotPart s t) = guarded s := by simp [failSlotPart]

@[simp ↓] theorem guarded_pendingDone (s t r) : guarded (pendingDone s t r) = guarded s := by
  unfold pendingDone; dsimp only; (repeat' split) <;> simp

/-! ### Vector instructions -/

@[simp ↓] theorem guarded_vIssue (t sigs writes x s) : guarded (vIssue t sigs writes x s) = guarded s := by simp [vIssue]

@[simp ↓] theorem guarded_vEffect (op t old f s) : guarded (vEffect op t old f s) = guarded s := by
  unfold vEffect; dsimp only; (repeat' split) <;> simp

/-! ### The mover -/

@[simp ↓] theorem guarded_noteReads (ps s) : guarded (noteReads ps s) = guarded s := by simp [noteReads]
@[simp ↓] theorem guarded_xIssue (t kind sigs g s) : guarded (xIssue t kind sigs g s) = guarded s := by simp [xIssue]
@[simp ↓] theorem guarded_moveFault (t ctx m s) : guarded (moveFault t ctx m s) = guarded s := by simp [moveFault]

@[simp ↓] theorem guarded_moveLocal (t old sigs m s) : guarded (moveLocal t old sigs m s) = guarded s := by
  unfold moveLocal; dsimp only; (repeat' split) <;> simp

@[simp ↓] theorem guarded_sendEach (j : Job) (owner : SendOwner) (rank : Nat) (r : RouteTo) :
    ∀ (l : List (Nat × List MarkedByte)) (s : State), guarded (sendEach j owner rank r l s).1 = guarded s
  | [], _ => rfl
  | (a, l) :: t, s => by
    unfold sendEach; dsimp only
    rw [guarded_sendEach j owner rank r t, guarded_sendMessage]

@[simp ↓] theorem guarded_sendRows (j owner rank dst dstr r i rows s) :
    guarded (sendRows j owner rank dst dstr r i rows s).1 = guarded s := by simp [sendRows]

@[simp ↓] theorem guarded_moveRank (t old sigs m rank s) : guarded (moveRank t old sigs m rank s) = guarded s := by
  unfold moveRank; dsimp only; (repeat' split) <;> simp

@[simp ↓] theorem guarded_xMoveOp (t old f sigs s) : guarded (xMoveOp t old f sigs s) = guarded s := by simp [xMoveOp]

@[simp ↓] theorem guarded_xMovedOp (t old f sigs s) : guarded (xMovedOp t old f sigs s) = guarded s := by
  unfold xMovedOp; dsimp only; (repeat' split) <;> simp

@[simp ↓] theorem guarded_xSigOp (t old f sigs s) : guarded (xSigOp t old f sigs s) = guarded s := by
  unfold xSigOp; split <;> simp

@[simp ↓] theorem guarded_xWaitOp (t old f sigs s) : guarded (xWaitOp t old f sigs s) = guarded s := by
  unfold xWaitOp; split <;> simp

@[simp ↓] theorem guarded_xScsetOp (t old f sigs s) : guarded (xScsetOp t old f sigs s) = guarded s := by
  unfold xScsetOp; split <;> simp

@[simp ↓] theorem guarded_xScreadOp (t old f sigs s) : guarded (xScreadOp t old f sigs s) = guarded s := by
  unfold xScreadOp; split <;> simp

@[simp ↓] theorem guarded_xFenceOp (t before f sigs s) : guarded (xFenceOp t before f sigs s) = guarded s := by simp [xFenceOp]
@[simp ↓] theorem guarded_xIcinvOp (t sigs s) : guarded (xIcinvOp t sigs s) = guarded s := by simp [xIcinvOp]

@[simp ↓] theorem guarded_xEffect (op t before f s) : guarded (xEffect op t before f s) = guarded s := by
  unfold xEffect; dsimp only; (repeat' split) <;> simp

@[simp ↓] theorem guarded_moveComplete (c s) : guarded (moveComplete c s) = guarded s := by
  unfold moveComplete; dsimp only; (repeat' split) <;> simp

/-! ### The ladder -/

@[simp ↓] theorem guarded_jobWrite (s j va data) : guarded (jobWrite s j va data) = guarded s := by simp [jobWrite]
@[simp ↓] theorem guarded_writeLadder (s j copy l bad) : guarded (writeLadder s j copy l bad) = guarded s := by simp [writeLadder]

@[simp ↓] theorem guarded_ladderDecide (s j) : guarded (ladderDecide s j) = guarded s := by
  unfold ladderDecide; dsimp only; (repeat' split) <;> simp

@[simp ↓] theorem guarded_flipWrite (s j step) : guarded (flipWrite s j step) = guarded s := by unfold flipWrite; split <;> simp

/-! ### The tile engine -/

@[simp ↓] theorem guarded_tilePoison (t s) : guarded (tilePoison t s) = guarded s := by simp [tilePoison]

@[simp ↓] theorem guarded_tileIssue (t sigs pend ws s reads tile drops elem) :
    guarded (tileIssue t sigs pend ws s reads tile drops elem) = guarded s := by
  simp [tileIssue]

@[simp ↓] theorem guarded_setHandle (s c h x) : guarded (setHandle s c h x) = guarded s := by rfl
@[simp ↓] theorem guarded_dropHandle (s c h) : guarded (dropHandle s c h) = guarded s := by rfl

@[simp ↓] theorem guarded_mBegin (t old f sigs s) : guarded (mBegin t old f sigs s) = guarded s := by
  unfold mBegin; dsimp only; (repeat' split) <;> simp

@[simp ↓] theorem guarded_mAcc (t old f sigs s) : guarded (mAcc t old f sigs s) = guarded s := by
  unfold mAcc; dsimp only; (repeat' split) <;> simp

@[simp ↓] theorem guarded_mAddraw (t old f sigs s) : guarded (mAddraw t old f sigs s) = guarded s := by
  unfold mAddraw; split <;> simp

@[simp ↓] theorem guarded_mStore (t old f sigs s) : guarded (mStore t old f sigs s) = guarded s := by
  unfold mStore; split <;> simp

@[simp ↓] theorem guarded_mDrop (t old f sigs s) : guarded (mDrop t old f sigs s) = guarded s := by unfold mDrop; split <;> simp
@[simp ↓] theorem guarded_mAlign (t old f sigs s) : guarded (mAlign t old f sigs s) = guarded s := by simp [mAlign]

@[simp ↓] theorem guarded_mEffect (op t old f s) : guarded (mEffect op t old f s) = guarded s := by
  unfold mEffect; (repeat' split) <;> simp

/-! ### Passes -/

@[simp ↓] theorem guarded_slotWatch (s t w o) : guarded (slotWatch s t w o) = guarded s := by simp [slotWatch]
@[simp ↓] theorem guarded_passIssue (t old sigs w s) : guarded (passIssue t old sigs w s) = guarded s := by simp [passIssue]
@[simp ↓] theorem guarded_vPassOp (t old f s) : guarded (vPassOp t old f s) = guarded s := by unfold vPassOp; split <;> simp
@[simp ↓] theorem guarded_passComplete (c s) : guarded (passComplete c s) = guarded s := by unfold passComplete; split <;> simp
@[simp ↓] theorem guarded_tileComplete (c s) : guarded (tileComplete c s) = guarded s := by unfold tileComplete; split <;> simp

/-! ### Memory controllers -/

@[simp ↓] theorem guarded_countCorr (s p) : guarded (countCorr s p) = guarded s := by rfl
@[simp ↓] theorem guarded_countUncorr (s p) : guarded (countUncorr s p) = guarded s := by rfl
@[simp ↓] theorem guarded_poisonUnitsAt (s l) : guarded (poisonUnitsAt s l) = guarded s := by rfl
@[simp ↓] theorem guarded_memUe (s pa units) : guarded (memUe s pa units) = guarded s := by simp [memUe]
@[simp ↓] theorem guarded_memError (pa upset s) : guarded (memError pa upset s) = guarded s := by unfold memError; split <;> simp
@[simp ↓] theorem guarded_patrolScrub (pa upset s) : guarded (patrolScrub pa upset s) = guarded s := by simp [patrolScrub]
@[simp ↓] theorem guarded_trainChannels (s) : guarded (trainChannels s) = guarded s := by rfl
@[simp ↓] theorem guarded_noteWindow (s unit) : guarded (noteWindow s unit) = guarded s := by simp [noteWindow]
@[simp ↓] theorem guarded_hdmRead (unit s) : guarded (hdmRead unit s) = guarded s := by unfold hdmRead; (repeat' split) <;> simp
@[simp ↓] theorem guarded_unitWrite (s pa be data) : guarded (unitWrite s pa be data) = guarded s := by simp [unitWrite]

@[simp ↓] theorem guarded_hdmWrite (unit be data s) : guarded (hdmWrite unit be data s) = guarded s := by
  unfold hdmWrite; (repeat' split) <;> simp

@[simp ↓] theorem guarded_secresSet (v s) : guarded (secresSet v s) = guarded s := by simp [secresSet]
@[simp ↓] theorem guarded_gddrClear (s a n) : guarded (gddrClear s a n) = guarded s := by simp [gddrClear]
@[simp ↓] theorem guarded_putPte (s addr e) : guarded (putPte s addr e) = guarded s := by simp [putPte]
@[simp ↓] theorem guarded_unmapDone (s c m) : guarded (unmapDone s c m) = guarded s := by simp [unmapDone]
@[simp ↓] theorem guarded_openTables (s c) : guarded (openTables s c) = guarded s := by simp [openTables]
@[simp ↓] theorem guarded_freeTables (s c) : guarded (freeTables s c) = guarded s := by rfl

/-! ### Records of descriptors -/

@[simp ↓] theorem guarded_updQueue (s q g) : guarded (updQueue s q g) = guarded s := by rfl
@[simp ↓] theorem guarded_restartQueues (s c) : guarded (restartQueues s c) = guarded s := by rfl
@[simp ↓] theorem guarded_hostMemWrite (s a data) : guarded (hostMemWrite s a data) = guarded s := by rfl

@[simp ↓] theorem guarded_writeRecord (s h) : guarded (writeRecord s h) = guarded s := by
  unfold writeRecord; dsimp only; (repeat' split) <;> simp

@[simp ↓] theorem guarded_noteUpdate (s x ok) : guarded (noteUpdate s x ok) = guarded s := by
  unfold noteUpdate; (repeat' split) <;> simp

@[simp ↓] theorem guarded_spoilReady (s p) : guarded (spoilReady s p) = guarded s := by simp [spoilReady]
@[simp ↓] theorem guarded_noteReport (s x) : guarded (noteReport s x) = guarded s := by simp [noteReport]
@[simp ↓] theorem guarded_endDesc (s d status) : guarded (endDesc s d status) = guarded s := by unfold endDesc; split <;> simp
@[simp ↓] theorem guarded_finishDesc (s d) : guarded (finishDesc s d) = guarded s := by unfold finishDesc; split <;> simp

@[simp ↓] theorem guarded_concludeDesc (s d status) : guarded (concludeDesc s d status) = guarded s := by
  unfold concludeDesc; split <;> simp

@[simp ↓] theorem guarded_setResult (s d i v) : guarded (setResult s d i v) = guarded s := by simp [setResult]

@[simp ↓] theorem guarded_startDesc {s : State} {d op} {g : DescState → State → State}
    (h : ∀ x u, guarded u = guarded s → guarded (g x u) = guarded s) : guarded (startDesc s d op g) = guarded s := by
  unfold startDesc
  split
  · split
    · exact h _ _ (by simp)
    · rfl
  · rfl

@[simp ↓] theorem guarded_startDesc_withArgs {s : State} {d op n} {g : DescState → List Nat → State → State}
    (h : ∀ x w u, guarded u = guarded s → guarded (g x w u) = guarded s) :
    guarded (startDesc s d op (withArgs d n g)) = guarded s :=
  guarded_startDesc fun x u hu => by
    unfold withArgs
    split
    · simp [hu]
    · exact h _ _ _ hu

@[simp ↓] theorem guarded_msixWindowEnd (src s) : guarded (msixWindowEnd src s) = guarded s := by
  unfold msixWindowEnd; (repeat' split) <;> simp

/-! ### Queues -/

@[simp ↓] theorem guarded_applyDoorbell (s q t) : guarded (applyDoorbell s q t) = guarded s := by simp [applyDoorbell]

@[simp ↓] theorem guarded_doorbell (off size v s) : guarded (doorbell off size v s) = guarded s := by
  unfold doorbell; dsimp only; (repeat' split) <;> simp

@[simp ↓] theorem guarded_descriptorFetch (q s) : guarded (descriptorFetch q s) = guarded s := by
  unfold descriptorFetch; split <;> simp

@[simp ↓] theorem guarded_dropWork (s d) : guarded (dropWork s d) = guarded s := by simp [dropWork]
@[simp ↓] theorem guarded_stopDesc (s d status) : guarded (stopDesc s d status) = guarded s := by unfold stopDesc; split <;> simp
@[simp ↓] theorem guarded_abortDecide (d t s) : guarded (abortDecide d t s) = guarded s := by unfold abortDecide; split <;> simp
@[simp ↓] theorem guarded_abortRun (d x s) : guarded (abortRun d x s) = guarded s := by simp [abortRun]
@[simp ↓] theorem guarded_noteTables (s c m) : guarded (noteTables s c m) = guarded s := by unfold noteTables; split <;> simp
@[simp ↓] theorem guarded_unmapComplete (d s) : guarded (unmapComplete d s) = guarded s := by unfold unmapComplete; split <;> simp
@[simp ↓] theorem guarded_cmdBad (s) : guarded (cmdBad s) = guarded s := by rfl
@[simp ↓] theorem guarded_openCtx (s) : guarded (openCtx s) = guarded s := by simp [openCtx]
@[simp ↓] theorem guarded_closeCtx (s c) : guarded (closeCtx s c) = guarded s := by simp [closeCtx]
@[simp ↓] theorem guarded_ctxClose (s) : guarded (ctxClose s) = guarded s := by simp [ctxClose]
@[simp ↓] theorem guarded_freeGroups (s c) : guarded (freeGroups s c) = guarded s := by rfl
@[simp ↓] theorem guarded_freeApertures (s c) : guarded (freeApertures s c) = guarded s := by rfl
@[simp ↓] theorem guarded_ctxFree (s) : guarded (ctxFree s) = guarded s := by simp [ctxFree]
@[simp ↓] theorem guarded_abandonDie (s c d) : guarded (abandonDie s c d) = guarded s := by rfl
@[simp ↓] theorem guarded_abandonRings (s c) : guarded (abandonRings s c) = guarded s := by rfl
@[simp ↓] theorem guarded_ctxDrainMark (c s) : guarded (ctxDrainMark c s) = guarded s := by simp [ctxDrainMark]
@[simp ↓] theorem guarded_ctxQuiesce (c s) : guarded (ctxQuiesce c s) = guarded s := by simp [ctxQuiesce]
@[simp ↓] theorem guarded_queueEnable (v s) : guarded (queueEnable v s) = guarded s := by simp [queueEnable]
@[simp ↓] theorem guarded_queueDisable (v s) : guarded (queueDisable v s) = guarded s := by simp [queueDisable]
@[simp ↓] theorem guarded_flushHeld (s) : guarded (flushHeld s) = guarded s := by simp [flushHeld]
@[simp ↓] theorem guarded_cxlLinkUp (width rate s) : guarded (cxlLinkUp width rate s) = guarded s := by simp [cxlLinkUp]

/-! ### The update engines -/

@[simp ↓] theorem guarded_logTags (s j p l) : guarded (logTags s j p l) = guarded s := by simp [logTags]

@[simp ↓] theorem guarded_stageJournal (s j x u o) : guarded (stageJournal s j x u o) = guarded s := by
  unfold stageJournal; dsimp only; (repeat' split) <;> simp
/-- An update that has to wait leaves the state in which it was called. -/
theorem guarded_updateStart {d s0 x w s} (h : guarded s = guarded s0) : guarded (updateStart d s0 x w s) = guarded s0 := by
  unfold updateStart; dsimp only; (repeat' split) <;> simp [h]

@[simp ↓] theorem guarded_startDesc_update (s d op n) :
    guarded (startDesc s d op (withArgs d n (updateStart d s))) = guarded s :=
  guarded_startDesc_withArgs fun _ _ _ => guarded_updateStart

@[simp ↓] theorem guarded_copyStats (s j step) : guarded (copyStats s j step) = guarded s := by simp [copyStats]

@[simp ↓] theorem guarded_planeRootsDone (j idx s) : guarded (planeRootsDone j idx s) = guarded s := by
  unfold planeRootsDone; dsimp only
  split
  · rfl
  · rw [guarded_setJob, guarded_jobWrite]
    split <;> simp

/-! ### Parts of descriptors -/

@[simp ↓] theorem guarded_startSlot (x d u s b) : guarded (startSlot x d u s b) = guarded s := by rfl
@[simp ↓] theorem guarded_beginWindow (s u) : guarded (beginWindow s u) = guarded s := by simp [beginWindow]

@[simp ↓] theorem guarded_placeSends (s d x m rank) : guarded (placeSends s d x m rank).1 = guarded s := by
  unfold placeSends; split <;> simp

@[simp ↓] theorem guarded_placePart (d x u w s) : guarded (placePart d x u w s) = guarded s := by
  unfold placePart
  split
  extract_lets gone bad m
  split
  next t failed ts h =>
    have ht : guarded t = guarded s := by
      split at h
      · exact (congrArg (fun r => guarded r.1) h).symm.trans (guarded_placeSends ..)
      · cases h; rfl
    dsimp only
    split
    · exact ht
    · simp only [guarded_ite, guarded_updCtx, ite_self]
      split <;> simp [ht]

@[simp ↓] theorem guarded_noteStale (s x u) : guarded (noteStale s x u) = guarded s := by simp [noteStale]
@[simp ↓] theorem guarded_dropMoves (s d) : guarded (dropMoves s d) = guarded s := by rfl
@[simp ↓] theorem guarded_releaseSlot (s t) : guarded (releaseSlot s t) = guarded s := by simp [releaseSlot]

@[simp ↓] theorem guarded_addPartWatch (s x p o) : guarded (addPartWatch s x p o) = guarded s := by
  unfold addPartWatch; (repeat' split) <;> simp

@[simp ↓] theorem guarded_noteShape (s j x u) : guarded (noteShape s j x u) = guarded s := by unfold noteShape; split <;> simp
@[simp ↓] theorem guarded_spoilParts (s c l) : guarded (spoilParts s c l) = guarded s := by rfl

@[simp ↓] theorem guarded_updateAfter (s x p o) : guarded (updateAfter s x p o) = guarded s := by
  unfold updateAfter; (repeat' split) <;> simp

@[simp ↓] theorem guarded_writeOut (s c o) : guarded (writeOut s c o) = guarded s := by simp [writeOut]
@[simp ↓] theorem guarded_amaxUndef (s d x bad) : guarded (amaxUndef s d x bad) = guarded s := by simp [amaxUndef]
@[simp ↓] theorem guarded_concludeParts (s d) : guarded (concludeParts s d) = guarded s := by unfold concludeParts; split <;> simp

@[simp ↓] theorem guarded_settlePart (s d x p o) : guarded (settlePart s d x p o) = guarded s := by
  unfold settlePart; (repeat' split) <;> simp

@[simp ↓] theorem guarded_endPart (s d x p outside) : guarded (endPart s d x p outside) = guarded s := by simp [endPart]
@[simp ↓] theorem guarded_unplacedPart (d u w st s) : guarded (unplacedPart d u w st s) = guarded s := by simp [unplacedPart]

@[simp ↓] theorem guarded_partPlace (d u w s) : guarded (partPlace d u w s) = guarded s := by
  unfold partPlace; (repeat' split) <;> simp

@[simp ↓] theorem guarded_partEnd (d u e s) : guarded (partEnd d u e s) = guarded s := by unfold partEnd; (repeat' split) <;> simp

@[simp ↓] theorem guarded_amaxMerge (d s) : guarded (amaxMerge d s) = guarded s := by
  unfold amaxMerge; dsimp only
  (repeat' split) <;> simp

/-! ### Jobs -/

@[simp ↓] theorem guarded_noteRouteTables (s c va n ring) : guarded (noteRouteTables s c va n ring) = guarded s := by
  simp [noteRouteTables]

@[simp ↓] theorem guarded_jobSetup (d x w s) : guarded (jobSetup d x w s) = guarded s := by
  unfold jobSetup; dsimp only; (repeat' split) <;> simp

@[simp ↓] theorem guarded_acceptPolicy (s j p) : guarded (acceptPolicy s j p) = guarded s := by simp [acceptPolicy]
/-- A policy that has to wait leaves the state in which it was called. -/
theorem guarded_ladderPolicy {d s0 x w s} (h : guarded s = guarded s0) : guarded (ladderPolicy d s0 x w s) = guarded s0 := by
  unfold ladderPolicy; dsimp only; (repeat' split) <;> simp [h]

@[simp ↓] theorem guarded_startDesc_policy (s d op n) :
    guarded (startDesc s d op (withArgs d n (ladderPolicy d s))) = guarded s :=
  guarded_startDesc_withArgs fun _ _ _ => guarded_ladderPolicy

/-! ### Collectives -/

@[simp ↓] theorem guarded_noteColl (s c w) : guarded (noteColl s c w) = guarded s := by simp [noteColl]
@[simp ↓] theorem guarded_collStart (d x w s0) : guarded (collStart d x w s0) = guarded s0 := by unfold collStart; split <;> simp
@[simp ↓] theorem guarded_updColl (s d g) : guarded (updColl s d g) = guarded s := by unfold updColl; split <;> simp
@[simp ↓] theorem guarded_ctxWrite (s c va data bad) : guarded (ctxWrite s c va data bad) = guarded s := by simp [ctxWrite]
@[simp ↓] theorem guarded_writeLateMap (s x) : guarded (writeLateMap s x) = guarded s := by simp [writeLateMap]
@[simp ↓] theorem guarded_setAside (s d x) : guarded (setAside s d x) = guarded s := by rfl
@[simp ↓] theorem guarded_freeColl (s d) : guarded (freeColl s d) = guarded s := by rfl
@[simp ↓] theorem guarded_putWatch (s0 j) : guarded (putWatch s0 j) = guarded s0 := by simp [putWatch]

@[simp ↓] theorem guarded_putVote (s x) : guarded (putVote s x) = guarded s := by
  unfold putVote; dsimp only; (repeat' split) <;> simp

@[simp ↓] theorem guarded_missColl (s d x) : guarded (missColl s d x) = guarded s := by simp [missColl]
@[simp ↓] theorem guarded_collBaseFire (d s) : guarded (collBaseFire d s) = guarded s := by unfold collBaseFire; split <;> simp
@[simp ↓] theorem guarded_signalPanel (s v) : guarded (signalPanel s v) = guarded s := by simp [signalPanel]
@[simp ↓] theorem guarded_noteCombine (s x e) : guarded (noteCombine s x e) = guarded s := by simp [noteCombine]

theorem guarded_sumUnits (c : Ctx) (f : Fmt) : ∀ (k acc stg n : Nat) (a b : State × Tallies),
    sumUnits c f acc stg k n a = some b → guarded b.1 = guarded a.1
  | 0, _, _, _, _, _, h => by cases h; rfl
  | k + 1, acc, stg, n, (s, t), b, h => by
    unfold sumUnits at h; dsimp only at h
    split at h
    · cases h; rfl
    · split at h
      · obtain ⟨u, hu, h⟩ := Option.bind_eq_some_iff.1 h
        rw [guarded_sumUnits c f k _ _ _ _ _ h, guarded_vaWrite hu]
      · cases h

theorem guarded_collCombine {s x e b} (h : collCombine s x e = some b) : guarded b.1 = guarded s := by
  unfold collCombine at h; dsimp only at h
  split at h
  · cases h; rfl
  · split at h
    · exact guarded_sumUnits _ _ _ _ _ _ _ _ h
    · split at h
      · exact guarded_sumUnits _ _ _ _ _ _ _ _ h
      · split at h
        · obtain ⟨u, hu, rfl⟩ := Option.map_eq_some_iff.1 h
          exact guarded_vaWrite hu
        · cases h

@[simp ↓] theorem guarded_collReceived (s d i) : guarded (collReceived s d i) = guarded s := by
  unfold collReceived; dsimp only
  split
  · rfl
  · split
    · rfl
    · split
      · rfl
      · split
        · simp
        · split
          · simp
          · next h => simp [guarded_collCombine h]

@[simp ↓] theorem guarded_collSend (d x s i) : guarded (collSend d x s i) = guarded s := by
  unfold collSend; dsimp only
  (repeat' split) <;> simp

@[simp ↓] theorem guarded_slotOpen (d k s) : guarded (slotOpen d k s) = guarded s := by unfold slotOpen; split <;> simp
@[simp ↓] theorem guarded_slotMark (d k s) : guarded (slotMark d k s) = guarded s := by unfold slotMark; split <;> simp

@[simp ↓] theorem guarded_excludeEntry (d s i) : guarded (excludeEntry d s i) = guarded s := by
  unfold excludeEntry; (repeat' split) <;> simp

@[simp ↓] theorem guarded_takeShift (s d x i e) : guarded (takeShift s d x i e) = guarded s := by simp [takeShift]

@[simp ↓] theorem guarded_recvJudge (d i s) : guarded (recvJudge d i s) = guarded s := by
  unfold recvJudge; (repeat' split) <;> simp

@[simp ↓] theorem guarded_judgeFirst (d s) : guarded (judgeFirst d s) = guarded s := by
  unfold judgeFirst; (repeat' split) <;> simp

@[simp ↓] theorem guarded_collEnd (d s) : guarded (collEnd d s) = guarded s := by
  unfold collEnd; dsimp only; (repeat' split) <;> simp

/-! ### Commits -/

@[simp ↓] theorem guarded_updCommit (s j g) : guarded (updCommit s j g) = guarded s := by unfold updCommit; split <;> simp
@[simp ↓] theorem guarded_noteSched (s c w) : guarded (noteSched s c w) = guarded s := by unfold noteSched; split <;> simp

@[simp ↓] theorem guarded_commitStart (d x w s) : guarded (commitStart d x w s) = guarded s := by
  unfold commitStart; dsimp only; (repeat' split) <;> simp

@[simp ↓] theorem guarded_armOn (s p a m) : guarded (armOn s p a m).1 = guarded s := by simp [armOn]
@[simp ↓] theorem guarded_armChip (s a m d) : guarded (armChip s a m d) = guarded s := by simp [armChip]

@[simp ↓] theorem guarded_voteEvaluate (j s) : guarded (voteEvaluate j s) = guarded s := by
  unfold voteEvaluate; dsimp only; (repeat' split) <;> simp

@[simp ↓] theorem guarded_commitUnresolved (j s) : guarded (commitUnresolved j s) = guarded s := by
  unfold commitUnresolved; dsimp only; (repeat' split) <;> simp

@[simp ↓] theorem guarded_concludeCommit (s c status) : guarded (concludeCommit s c status) = guarded s := by
  simp [concludeCommit]

@[simp ↓] theorem guarded_commitRecordWrite (j s) : guarded (commitRecordWrite j s) = guarded s := by
  unfold commitRecordWrite; dsimp only; (repeat' split) <;> simp

@[simp ↓] theorem guarded_refuseCommit (s j c) : guarded (refuseCommit s j c) = guarded s := by simp [refuseCommit]
@[simp ↓] theorem guarded_commitDiscard (j s) : guarded (commitDiscard j s) = guarded s := by unfold commitDiscard; split <;> simp
@[simp ↓] theorem guarded_voidLog (s j p) : guarded (voidLog s j p) = guarded s := by simp [voidLog]
@[simp ↓] theorem guarded_scrubEnd (j s) : guarded (scrubEnd j s) = guarded s := by simp [scrubEnd]

/-! ### Epochs -/

@[simp ↓] theorem guarded_routeEpoch (d x w s) : guarded (routeEpoch d x w s) = guarded s := by
  unfold routeEpoch; dsimp only; (repeat' split) <;> simp

@[simp ↓] theorem guarded_tableStaged (j s) : guarded (tableStaged j s) = guarded s := by unfold tableStaged; split <;> simp
@[simp ↓] theorem guarded_missEpoch (s j c) : guarded (missEpoch s j c) = guarded s := by simp [missEpoch]
@[simp ↓] theorem guarded_epochMissed (j s) : guarded (epochMissed j s) = guarded s := by unfold epochMissed; split <;> simp
@[simp ↓] theorem guarded_mendRings (s) : guarded (mendRings s) = guarded s := by simp [mendRings]

@[simp ↓] theorem guarded_reroute (j s q) : guarded (reroute j s q) = guarded s := by
  unfold reroute; dsimp only; (repeat' split) <;> simp

@[simp ↓] theorem guarded_requeue (s j) : guarded (requeue s j) = guarded s := by simp [requeue]
@[simp ↓] theorem guarded_routeSwitch (j s) : guarded (routeSwitch j s) = guarded s := by unfold routeSwitch; split <;> simp
@[simp ↓] theorem guarded_epochDrain (j s) : guarded (epochDrain j s) = guarded s := by unfold epochDrain; split <;> simp

/-! ### Secure points -/

@[simp ↓] theorem guarded_vaPut (s c va l) : guarded (vaPut s c va l) = guarded s := by simp [vaPut]
@[simp ↓] theorem guarded_noteRanges (s j l) : guarded (noteRanges s j l) = guarded s := by simp [noteRanges]
@[simp ↓] theorem guarded_notePlan (s c va) : guarded (notePlan s c va) = guarded s := by unfold notePlan; split <;> simp

@[simp ↓] theorem guarded_installPlan (d x j va s0) : guarded (installPlan d x j va s0) = guarded s0 := by
  unfold installPlan; dsimp only; (repeat' split) <;> simp

@[simp ↓] theorem guarded_pointStart (d x j full w s) : guarded (pointStart d x j full w s) = guarded s := by
  unfold pointStart; split <;> simp
/-- A snapshot of another kind leaves the state in which it was called. -/
theorem guarded_snapRun {d op s0 x w s} (h : guarded s = guarded s0) : guarded (snapRun d op s0 x w s) = guarded s0 := by
  unfold snapRun; dsimp only; (repeat' split) <;> simp [h]

@[simp ↓] theorem guarded_startDesc_snap (s d op n k) :
    guarded (startDesc s d op (withArgs d n (snapRun d k s))) = guarded s :=
  guarded_startDesc_withArgs fun _ _ _ => guarded_snapRun

@[simp ↓] theorem guarded_updPoint (s j g) : guarded (updPoint s j g) = guarded s := by unfold updPoint; split <;> simp
@[simp ↓] theorem guarded_updStream (s j st g) : guarded (updStream s j st g) = guarded s := by simp [updStream]

@[simp ↓] theorem guarded_sendSecure (j owner target routes back st area off first data s) :
    guarded (sendSecure j owner target routes back st area off first data s) = guarded s := by simp [sendSecure]

@[simp ↓] theorem guarded_sendStream (s j p st area off data) : guarded (sendStream s j p st area off data) = guarded s := by
  simp [sendStream]

@[simp ↓] theorem guarded_stopSends (s j o) : guarded (stopSends s j o) = guarded s := by rfl
@[simp ↓] theorem guarded_beginStream (j s st) : guarded (beginStream j s st) = guarded s := by unfold beginStream; split <;> simp
@[simp ↓] theorem guarded_endPoint (s j y) : guarded (endPoint s j y) = guarded s := by simp [endPoint]
@[simp ↓] theorem guarded_checkSealed (s j) : guarded (checkSealed s j) = guarded s := by unfold checkSealed; split <;> simp
@[simp ↓] theorem guarded_sendRecord (s j p st t) : guarded (sendRecord s j p st t) = guarded s := by simp [sendRecord]
@[simp ↓] theorem guarded_sendData (s j p y st t) : guarded (sendData s j p y st t) = guarded s := by simp [sendData]
@[simp ↓] theorem guarded_streamStep (s j st) : guarded (streamStep s j st) = guarded s := by unfold streamStep; split <;> simp
@[simp ↓] theorem guarded_missPoint (s j) : guarded (missPoint s j) = guarded s := by unfold missPoint; split <;> simp
@[simp ↓] theorem guarded_writeKeep (s j p step) : guarded (writeKeep s j p step).1 = guarded s := by simp [writeKeep]

@[simp ↓] theorem guarded_snapshotStart (j s) : guarded (snapshotStart j s) = guarded s := by
  unfold snapshotStart; dsimp only; split <;> simp

@[simp ↓] theorem guarded_snapshotEndMark (j s) : guarded (snapshotEndMark j s) = guarded s := by
  unfold snapshotEndMark; split <;> simp

/-! ### Hangs and watchdogs -/

@[simp ↓] theorem guarded_restartPanel (s p) : guarded (restartPanel s p) = guarded s := by rfl
@[simp ↓] theorem guarded_countHang (s p) : guarded (countHang s p) = guarded s := by rfl
@[simp ↓] theorem guarded_ctxRung (c cause s) : guarded (ctxRung c cause s) = guarded s := by simp [ctxRung]
@[simp ↓] theorem guarded_haltSlot (s t) : guarded (haltSlot s t) = guarded s := by simp [haltSlot]
@[simp ↓] theorem guarded_hangSlot (t s) : guarded (hangSlot t s) = guarded s := by simp [hangSlot]
@[simp ↓] theorem guarded_dropLate (s n) : guarded (dropLate s n) = guarded s := by simp [dropLate]
@[simp ↓] theorem guarded_resetUnit (s u) : guarded (resetUnit s u) = guarded s := by unfold resetUnit; split <;> simp

@[simp ↓] theorem guarded_endStopped (s d u) : guarded (endStopped s d u) = guarded s := by
  unfold endStopped; (repeat' split) <;> simp

@[simp ↓] theorem guarded_failParts (t s) : guarded (failParts t s) = guarded s := by simp [failParts]

@[simp ↓] theorem guarded_engineReset (s src sub n inc) : guarded (engineReset s src sub n inc) = guarded s := by
  simp [engineReset]

theorem guarded_drawStuck {s t : State} {b} (h : drawStuck s = (b, t)) : guarded t = guarded s := by
  cases h; rfl

@[simp ↓] theorem guarded_unitRung (u cause s) : guarded (unitRung u cause s) = guarded s := by
  unfold unitRung; dsimp only
  split
  · next h => simp [guarded_drawStuck h]
  · next h => simp [guarded_drawStuck h]

@[simp ↓] theorem guarded_noteHang (s k) : guarded (noteHang s k) = guarded s := by unfold noteHang; split <;> simp
@[simp ↓] theorem guarded_unitHang (u s) : guarded (unitHang u s) = guarded s := by unfold unitHang; split <;> simp
@[simp ↓] theorem guarded_hangQueue (q s) : guarded (hangQueue q s) = guarded s := by unfold hangQueue; split <;> simp
@[simp ↓] theorem guarded_updUnitPart (s d u g) : guarded (updUnitPart s d u g) = guarded s := by simp [updUnitPart]
@[simp ↓] theorem guarded_stopPart (s d p) : guarded (stopPart s d p) = guarded s := by simp [stopPart]
@[simp ↓] theorem guarded_resetEngine (s c k) : guarded (resetEngine s c k) = guarded s := by simp [resetEngine]
@[simp ↓] theorem guarded_setReplay (s c r) : guarded (setReplay s c r) = guarded s := by rfl
@[simp ↓] theorem guarded_hangCleared (s c k) : guarded (hangCleared s c k) = guarded s := by simp [hangCleared]
@[simp ↓] theorem guarded_leaveReplay (s d) : guarded (leaveReplay s d) = guarded s := by rfl

theorem guarded_restartPart {s c d x p t} (h : restartPart s c d x p = some t) : guarded t = guarded s := by
  unfold restartPart at h; dsimp only at h
  split at h
  · cases h
  · cases h; simp

@[simp ↓] theorem guarded_replayFrom (c : Core) (k : EngineKind) : ∀ (l : List (DescId × Nat)) (named : Bool) (s : State),
    guarded (replayFrom c k l named s) = guarded s
  | [], named, s => by simp [replayFrom]
  | (d, u) :: t, named, s => by
    unfold replayFrom; dsimp only
    split
    · exact guarded_replayFrom c k t ..
    · split
      · split
        · next h =>
          split at h
          · simp [guarded_restartPart h]
          · cases h
        · simp [guarded_replayFrom c k t]
      · simp [guarded_replayFrom c k t]

@[simp ↓] theorem guarded_nameAll (s c parts sus) : guarded (nameAll s c parts sus) = guarded s := by simp [nameAll]

@[simp ↓] theorem guarded_engineRung (c k more cause s) : guarded (engineRung c k more cause s) = guarded s := by
  unfold engineRung; dsimp only
  split
  · next h => simp [guarded_drawStuck h]
  · next h => simp [guarded_drawStuck h]

@[simp ↓] theorem guarded_hangEngine (c k s) : guarded (hangEngine c k s) = guarded s := by simp [hangEngine]
@[simp ↓] theorem guarded_replayGuilty (s c r d x p) : guarded (replayGuilty s c r d x p) = guarded s := by simp [replayGuilty]
@[simp ↓] theorem guarded_replayPassed (s c r d x p) : guarded (replayPassed s c r d x p) = guarded s := by simp [replayPassed]

@[simp ↓] theorem guarded_replayEnd (c hung s) : guarded (replayEnd c hung s) = guarded s := by
  unfold replayEnd; (repeat' split) <;> simp

/-! ### Panel tests -/

@[simp ↓] theorem guarded_requestClock (s p w) : guarded (requestClock s p w) = guarded s := by
  unfold requestClock; dsimp only; (repeat' split) <;> simp

@[simp ↓] theorem guarded_snapPoints (s p) : guarded (snapPoints s p) = guarded s := by rfl
@[simp ↓] theorem guarded_snapAll (s) : guarded (snapAll s) = guarded s := by simp [snapAll]
@[simp ↓] theorem guarded_retune (s p) : guarded (retune s p) = guarded s := by simp [retune]
@[simp ↓] theorem guarded_retuneAll (s) : guarded (retuneAll s) = guarded s := by simp [retuneAll]

@[simp ↓] theorem guarded_clockStallEnd (p s) : guarded (clockStallEnd p s) = guarded s := by
  unfold clockStallEnd; dsimp only; (repeat' split) <;> simp

@[simp ↓] theorem guarded_wdogPanel (p s) : guarded (wdogPanel p s) = guarded s := by simp [wdogPanel]
@[simp ↓] theorem guarded_wdogChip (s) : guarded (wdogChip s) = guarded s := by simp [wdogChip]

@[simp ↓] theorem guarded_comparatorArm (p a s) : guarded (comparatorArm p a s) = guarded s := by
  unfold comparatorArm; split <;> simp

@[simp ↓] theorem guarded_missCommit (s j) : guarded (missCommit s j) = guarded s := by unfold missCommit; split <;> simp

@[simp ↓] theorem guarded_launchMissed (a s) : guarded (launchMissed a s) = guarded s := by
  unfold launchMissed; (repeat' split) <;> simp

/-! ### Power and clocks -/

@[simp ↓] theorem guarded_updPwr (s g) : guarded (updPwr s g) = guarded s := by rfl
@[simp ↓] theorem guarded_setSag (s k x) : guarded (setSag s k x) = guarded s := by rfl
@[simp ↓] theorem guarded_noteSample (s) : guarded (noteSample s) = guarded s := by rfl
@[simp ↓] theorem guarded_setVin (s v) : guarded (setVin s v) = guarded s := by simp [setVin]
@[simp ↓] theorem guarded_tearFlash (s) : guarded (tearFlash s) = guarded s := by unfold tearFlash; split <;> rfl

@[simp ↓] theorem guarded_powered (s g) (h : guarded (g s) = guarded s) : guarded (powered s g) = guarded s := by
  simp [powered, h]

@[simp ↓] theorem guarded_selfRefreshAll (on s) : guarded (selfRefreshAll on s) = guarded s := by rfl
@[simp ↓] theorem guarded_judgeFive (s) : guarded (judgeFive s) = guarded s := by simp [judgeFive]
@[simp ↓] theorem guarded_settleStages (s0 s) : guarded (settleStages s0 s) = guarded s := by simp [settleStages]
@[simp ↓] theorem guarded_countSag (s k) : guarded (countSag s k) = guarded s := by rfl
@[simp ↓] theorem guarded_enterSag (v s) : guarded (enterSag v s) = guarded s := by simp [enterSag]

@[simp ↓] theorem guarded_leaveSag : ∀ (n : Nat) (s : State), guarded (leaveSag n s) = guarded s
  | 0, _ => rfl
  | n + 1, s => by
    unfold leaveSag; dsimp only
    split
    · split
      · split
        · simp [guarded_leaveSag n]
        · rfl
      · rfl
    · exact guarded_leaveSag n s

@[simp ↓] theorem guarded_sagStageExit (v s) : guarded (sagStageExit v s) = guarded s := by simp [sagStageExit]
@[simp ↓] theorem guarded_peakCap (watts s) : guarded (peakCap watts s) = guarded s := by simp [peakCap]
@[simp ↓] theorem guarded_peakCapLift (watts s) : guarded (peakCapLift watts s) = guarded s := by simp [peakCapLift]
@[simp ↓] theorem guarded_excursionCap (usAbove s) : guarded (excursionCap usAbove s) = guarded s := by simp [excursionCap]
@[simp ↓] theorem guarded_excursionLift (usAbove s) : guarded (excursionLift usAbove s) = guarded s := by simp [excursionLift]

@[simp ↓] theorem guarded_powerRestart (vin s) : guarded (powerRestart vin s) = guarded s := by
  unfold powerRestart; dsimp only; (repeat' split) <;> simp

@[simp ↓] theorem guarded_setLimitPoint (s p n) : guarded (setLimitPoint s p n) = guarded s := by rfl

@[simp ↓] theorem guarded_limitStep (w d s) : guarded (limitStep w d s) = guarded s := by
  unfold limitStep; dsimp only; (repeat' split) <;> simp

@[simp ↓] theorem guarded_setSensor (s x v) : guarded (setSensor s x v) = guarded s := by rfl
@[simp ↓] theorem guarded_sampleOne (s m) : guarded (sampleOne s m) = guarded s := by rfl
@[simp ↓] theorem guarded_countTherm (old s) : guarded (countTherm old s) = guarded s := by simp [countTherm]
@[simp ↓] theorem guarded_judgeTrip (s) : guarded (judgeTrip s) = guarded s := by rfl
@[simp ↓] theorem guarded_thermalSample (l s) : guarded (thermalSample l s) = guarded s := by simp [thermalSample]
@[simp ↓] theorem guarded_thermalStageExit (x s) : guarded (thermalStageExit x s) = guarded s := by simp [thermalStageExit]
@[simp ↓] theorem guarded_drillCtl (v s) : guarded (drillCtl v s) = guarded s := by simp [drillCtl]
@[simp ↓] theorem guarded_drillStart (s) : guarded (drillStart s) = guarded s := by unfold drillStart; split <;> simp
@[simp ↓] theorem guarded_drillEnd (s) : guarded (drillEnd s) = guarded s := by simp [drillEnd]

/-! ### The boot -/

@[simp ↓] theorem guarded_flashWrite (s a l) : guarded (flashWrite s a l) = guarded s := by rfl

@[simp ↓] theorem guarded_writeSel (s active try_ attempted) : guarded (writeSel s active try_ attempted) = guarded s := by
  unfold writeSel; split <;> simp

@[simp ↓] theorem guarded_setMeas (s i l) : guarded (setMeas s i l) = guarded s := by rfl
@[simp ↓] theorem guarded_mailUp (s) : guarded (mailUp s) = guarded s := by rfl
@[simp ↓] theorem guarded_loadStages (s b) : guarded (loadStages s b) = guarded s := by simp [loadStages]
@[simp ↓] theorem guarded_revoke (s a) : guarded (revoke s a) = guarded s := by rfl
@[simp ↓] theorem guarded_runSlot (s b fallback onTrial) : guarded (runSlot s b fallback onTrial) = guarded s := by simp [runSlot]

@[simp ↓] theorem guarded_bootSlots (s b fallback onTrial) : guarded (bootSlots s b fallback onTrial) = guarded s := by
  simp [bootSlots]

@[simp ↓] theorem guarded_plinthBoot (s) : guarded (plinthBoot s) = guarded s := by unfold plinthBoot; (repeat' split) <;> simp

@[simp ↓] theorem guarded_flashWpAssert (s) : guarded (flashWpAssert s) = guarded s := by
  unfold flashWpAssert; dsimp only; (repeat' split) <;> simp

/-! ### The mailbox -/

@[simp ↓] theorem guarded_answer (s r result payload) : guarded (answer s r result payload) = guarded s := by rfl

@[simp ↓] theorem guarded_mailbox (recovery r g s) (h : guarded (g s) = guarded s) :
    guarded (mailbox recovery r g s) = guarded s := by
  simp [mailbox, h]

@[simp ↓] theorem guarded_mailStatus (r s) : guarded (mailStatus r s) = guarded s := by rfl

@[simp ↓] theorem guarded_beginFlash (r base data s) : guarded (beginFlash r base data s) = guarded s := by
  unfold beginFlash; split
  · simp
  · rfl

@[simp ↓] theorem guarded_flashTick (s) : guarded (flashTick s) = guarded s := by unfold flashTick; split <;> simp
@[simp ↓] theorem guarded_storeBlob (r s) : guarded (storeBlob r s) = guarded s := by simp [storeBlob]
@[simp ↓] theorem guarded_fwWrite (r s) : guarded (fwWrite r s) = guarded s := by simp [fwWrite]
@[simp ↓] theorem guarded_fwActivate (r s) : guarded (fwActivate r s) = guarded s := by simp [fwActivate]

@[simp ↓] theorem guarded_fwConfirm (r s) : guarded (fwConfirm r s) = guarded s := by
  unfold fwConfirm; split <;> simp

@[simp ↓] theorem guarded_ownerFuse (r s) : guarded (ownerFuse r s) = guarded s := by simp [ownerFuse]
@[simp ↓] theorem guarded_unlockDebug (s) : guarded (unlockDebug s) = guarded s := by rfl
@[simp ↓] theorem guarded_debugToken (r s) : guarded (debugToken r s) = guarded s := by simp [debugToken]
@[simp ↓] theorem guarded_mailReboot (r s) : guarded (mailReboot r s) = guarded s := by simp [mailReboot]

/-! ### Attestation -/

@[simp ↓] theorem guarded_spdmError (s) : guarded (spdmError s) = guarded s := by rfl
@[simp ↓] theorem guarded_spdmOk (s l) : guarded (spdmOk s l) = guarded s := by rfl
@[simp ↓] theorem guarded_spdm (g s) (h : guarded (g s) = guarded s) : guarded (spdm g s) = guarded s := by simp [spdm, h]
@[simp ↓] theorem guarded_signed (s body) : guarded (signed s body) = guarded s := by simp [signed]

@[simp ↓] theorem guarded_getCertificate (slot offset len s) : guarded (getCertificate slot offset len s) = guarded s := by
  unfold getCertificate; split <;> simp

@[simp ↓] theorem guarded_challenge (slot nonce s) : guarded (challenge slot nonce s) = guarded s := by
  unfold challenge; split <;> simp

@[simp ↓] theorem guarded_getMeasurements (i nonce s) : guarded (getMeasurements i nonce s) = guarded s := by
  simp [getMeasurements]

@[simp ↓] theorem guarded_setSession (s x) : guarded (setSession s x) = guarded s := by rfl
@[simp ↓] theorem guarded_dropSession (s sid) : guarded (dropSession s sid) = guarded s := by rfl
@[simp ↓] theorem guarded_keyExchange (sid x s) : guarded (keyExchange sid x s) = guarded s := by simp [keyExchange]

@[simp ↓] theorem guarded_finishSession (sid verify s) : guarded (finishSession sid verify s) = guarded s := by
  unfold finishSession; split <;> simp

@[simp ↓] theorem guarded_inSession (sid g) (s : State) (h : ∀ x s, guarded (g x s) = guarded s) :
    guarded (inSession sid g s) = guarded s := by
  unfold inSession; split <;> simp [h]

@[simp ↓] theorem guarded_keyUpdate (op x s) : guarded (keyUpdate op x s) = guarded s := by simp [keyUpdate]
@[simp ↓] theorem guarded_keyProg (k key s) : guarded (keyProg k key s) = guarded s := by rfl
@[simp ↓] theorem guarded_judgeIde (s) : guarded (judgeIde s) = guarded s := by rfl
@[simp ↓] theorem guarded_setBroken (s i b) : guarded (setBroken s i b) = guarded s := by cases i <;> rfl
@[simp ↓] theorem guarded_setGo (k s) : guarded (setGo k s) = guarded s := by simp [setGo]
@[simp ↓] theorem guarded_integrityFail (i s) : guarded (integrityFail i s) = guarded s := by simp [integrityFail]

/-! ### Bundles -/

@[simp ↓] theorem guarded_stopSlot (t s) : guarded (stopSlot t s) = guarded s := by simp [stopSlot]
@[simp ↓] theorem guarded_sEffect (op t old f s) : guarded (sEffect op t old f s) = guarded s := by unfold sEffect; split <;> simp
@[simp ↓] theorem guarded_bundleEffect (t o s) : guarded (bundleEffect t o s) = guarded s := by simp [bundleEffect]
@[simp ↓] theorem guarded_noteIssue (t s) : guarded (noteIssue t s) = guarded s := by rfl

@[simp ↓] theorem guarded_issueBundle (t b s) : guarded (issueBundle t b s) = guarded s := by
  unfold issueBundle; (repeat' split) <;> simp

@[simp ↓] theorem guarded_issueS (op t f o s) : guarded (issueS op t f o s) = guarded s := by simp [issueS]
@[simp ↓] theorem guarded_issueV (op t f o s) : guarded (issueV op t f o s) = guarded s := by simp [issueV]
@[simp ↓] theorem guarded_issueM (op t f o s) : guarded (issueM op t f o s) = guarded s := by simp [issueM]
@[simp ↓] theorem guarded_issueX (op t f o s) : guarded (issueX op t f o s) = guarded s := by simp [issueX]

@[simp ↓] theorem guarded_icacheFill (t s) : guarded (icacheFill t s) = guarded s := by
  unfold icacheFill; dsimp only; (repeat' split) <;> simp

/-! ### Restores -/

/-- A restore of another kind leaves the state in which it was called. -/
theorem guarded_restoreRun {op d g s0 x w s} (h : guarded s = guarded s0) (hg : ∀ j x w s, guarded (g j x w s) = guarded s) :
    guarded (restoreRun op d g s0 x w s) = guarded s0 := by
  unfold restoreRun; dsimp only; (repeat' split) <;> simp [h, hg]

@[simp ↓] theorem guarded_startDesc_restore (s d op n k g) (h : ∀ j x w s, guarded (g j x w s) = guarded s) :
    guarded (startDesc s d op (withArgs d n (restoreRun k d g s))) = guarded s :=
  guarded_startDesc_withArgs fun _ _ _ hu => guarded_restoreRun hu h

@[simp ↓] theorem guarded_noteReserve (s e area off n) : guarded (noteReserve s e area off n) = guarded s := by simp [noteReserve]
@[simp ↓] theorem guarded_noteRegion (s e) : guarded (noteRegion s e) = guarded s := by simp [noteRegion]

@[simp ↓] theorem guarded_inventoryRun (d j x w s) : guarded (inventoryRun d j x w s) = guarded s := by
  unfold inventoryRun; dsimp only
  split
  · next h => simp [guarded_vaWrite h]
  · simp
-- Unfolded as a function: at its arguments the kernel would evaluate the place of the record.

@[simp ↓] theorem guarded_putDenseRoots (s j u b a w st rb mine) :
    guarded (putDenseRoots s j u b a w st rb mine) = guarded s := by
  generalize hf : putDenseRoots = f
  delta putDenseRoots at hf
  subst hf; beta_reduce
  split <;> simp

@[simp ↓] theorem guarded_putDense (s j u b a h) : guarded (putDense s j u b a h) = guarded s := by simp [putDense]
@[simp ↓] theorem guarded_putSparse (s j u b a) : guarded (putSparse s j u b a) = guarded s := by simp [putSparse]
@[simp ↓] theorem guarded_putLadder (s j l) : guarded (putLadder s j l) = guarded s := by simp [putLadder]

@[simp ↓] theorem guarded_putImage (j p b s e) : guarded (putImage j p b s e) = guarded s := by
  unfold putImage; (repeat' split) <;> simp

@[simp ↓] theorem guarded_stepWeights (s c back k va b scales codes n) :
    guarded (stepWeights s c back k va b scales codes n) = guarded s := by
  simp [stepWeights]

@[simp ↓] theorem guarded_stepCount (s c back va) : guarded (stepCount s c back va) = guarded s := by simp [stepCount]

@[simp ↓] theorem guarded_applyRecord (j p back b s a) : guarded (applyRecord j p back b s a) = guarded s := by
  unfold applyRecord; dsimp only; (repeat' split) <;> simp

@[simp ↓] theorem guarded_afterApply (s j step) : guarded (afterApply s j step) = guarded s := by simp [afterApply]

@[simp ↓] theorem guarded_concludeApply (s d steps bad) : guarded (concludeApply s d steps bad) = guarded s := by
  simp [concludeApply]

@[simp ↓] theorem guarded_liveToA (j s u) : guarded (liveToA j s u) = guarded s := by simp [liveToA]

@[simp ↓] theorem guarded_applyLocalRun (d j x w s) : guarded (applyLocalRun d j x w s) = guarded s := by
  unfold applyLocalRun; dsimp only
  (repeat' split) <;> simp [guarded_foldl_fst]

@[simp ↓] theorem guarded_updRestore (s j g) : guarded (updRestore s j g) = guarded s := by unfold updRestore; split <;> simp
@[simp ↓] theorem guarded_sendPiece (j a area off l s) : guarded (sendPiece j a area off l s) = guarded s := by simp [sendPiece]

@[simp ↓] theorem guarded_sendClosing (j a n missing lost s) : guarded (sendClosing j a n missing lost s) = guarded s := by
  simp [sendClosing]

@[simp ↓] theorem guarded_dropFailed (s o) : guarded (dropFailed s o) = guarded s := by rfl

@[simp ↓] theorem guarded_backStep (s j src stream) : guarded (backStep s j src stream) = guarded s := by
  unfold backStep; dsimp only; (repeat' split) <;> simp
-- Unfolded as a function, like putDenseRoots.

@[simp ↓] theorem guarded_sendPoint (s j a e) : guarded (sendPoint s j a e) = guarded s := by
  generalize hf : sendPoint = f
  delta sendPoint at hf
  subst hf; beta_reduce
  split <;> simp

@[simp ↓] theorem guarded_sendBack (s j a) : guarded (sendBack s j a) = guarded s := by unfold sendBack; split <;> simp

@[simp ↓] theorem guarded_restoreStartMark (j src s) : guarded (restoreStartMark j src s) = guarded s := by
  simp [restoreStartMark]

theorem guarded_applyStream (j : Job) (p : Plan) (step : Nat) (b : Bank) (acc : State × Nat) (st : Nat) :
    guarded (applyStream j p step b acc st).1 = guarded acc.1 := by
  unfold applyStream; dsimp only
  split
  · rfl
  · split
    · split <;> simp
    · simp

@[simp ↓] theorem guarded_checkRestored (s j) : guarded (checkRestored s j) = guarded s := by
  unfold checkRestored; dsimp only
  (repeat' split) <;> simp [guarded_applyStream]

@[simp ↓] theorem guarded_restoreGot (s j a) : guarded (restoreGot s j a) = guarded s := by simp [restoreGot]
@[simp ↓] theorem guarded_settleRestore (s j) : guarded (settleRestore s j) = guarded s := by simp [settleRestore]
@[simp ↓] theorem guarded_settleRestores (s) : guarded (settleRestores s) = guarded s := by simp [settleRestores]

@[simp ↓] theorem guarded_applyRemoteRun (d j x w s) : guarded (applyRemoteRun d j x w s) = guarded s := by
  unfold applyRemoteRun; split <;> simp

/-! ### Deliveries -/

@[simp ↓] theorem guarded_updRecv (s h g) : guarded (updRecv s h g) = guarded s := by simp [updRecv]
@[simp ↓] theorem guarded_messageDone (s h r) : guarded (messageDone s h r) = guarded s := by unfold messageDone; split <;> simp
@[simp ↓] theorem guarded_countBytes (s h) : guarded (countBytes s h) = guarded s := by unfold countBytes; split <;> simp
@[simp ↓] theorem guarded_takeAck (s d h) : guarded (takeAck s d h) = guarded s := by unfold takeAck; (repeat' split) <;> simp
@[simp ↓] theorem guarded_countDelivered (s d) : guarded (countDelivered s d) = guarded s := by rfl

theorem guarded_writeVa (s d p) : guarded (writeVa s d p).1 = guarded s :=
  guarded_foldl_fst _ (fun a u => by dsimp only; split <;> simp) _ _

theorem guarded_writeReserve (s p) : guarded (writeReserve s p).1 = guarded s := by
  unfold writeReserve; dsimp only
  split
  · rfl
  · split
    · rfl
    · exact guarded_foldl_fst _ (fun a u => by simp) _ _

theorem guarded_takeBack (s p) : guarded (takeBack s p).1 = guarded s := by
  unfold takeBack; dsimp only; (repeat' split) <;> simp

@[simp ↓] theorem guarded_writePayload (s d p) : guarded (writePayload s d p).1 = guarded s := by
  unfold writePayload; dsimp only
  split
  · split
    · exact guarded_takeBack s p
    · exact guarded_writeReserve s p
  · exact guarded_writeVa s d p

@[simp ↓] theorem guarded_deliveryWrite (d s) : guarded (deliveryWrite d s) = guarded s := by
  unfold deliveryWrite; split <;> simp

@[simp ↓] theorem guarded_failStale (s d j m x) : guarded (failStale s d j m x) = guarded s := by unfold failStale; split <;> simp
@[simp ↓] theorem guarded_msgStale (d j m s) : guarded (msgStale d j m s) = guarded s := by unfold msgStale; split <;> simp

/-! ### Logs -/

@[simp ↓] theorem guarded_logAck (v s) : guarded (logAck v s) = guarded s := by simp [logAck]
@[simp ↓] theorem guarded_evqAck (v s) : guarded (evqAck v s) = guarded s := by simp [evqAck]
@[simp ↓] theorem guarded_evqBase (v s) : guarded (evqBase v s) = guarded s := by simp [evqBase]
@[simp ↓] theorem guarded_evqCfg (v s) : guarded (evqCfg v s) = guarded s := by rfl
@[simp ↓] theorem guarded_evCfg (v s) : guarded (evCfg v s) = guarded s := by rfl
@[simp ↓] theorem guarded_i3cSend (s) : guarded (i3cSend s) = guarded s := by unfold i3cSend; (repeat' split) <;> simp
@[simp ↓] theorem guarded_mctpHeartbeat (s) : guarded (mctpHeartbeat s) = guarded s := by simp [mctpHeartbeat]

/-! ### Resets -/

@[simp ↓] theorem guarded_stripParts (s p) : guarded (stripParts s p) = guarded s := by rfl
@[simp ↓] theorem guarded_dropPanelSends (s p) : guarded (dropPanelSends s p) = guarded s := by rfl
@[simp ↓] theorem guarded_dropEngineRungs (s p) : guarded (dropEngineRungs s p) = guarded s := by rfl
@[simp ↓] theorem guarded_resetPanel (s p) : guarded (resetPanel s p) = guarded s := by simp [resetPanel]
@[simp ↓] theorem guarded_panelRung (p s) : guarded (panelRung p s) = guarded s := by simp [panelRung]
@[simp ↓] theorem guarded_trimPanels (s) : guarded (trimPanels s) = guarded s := by rfl
@[simp ↓] theorem guarded_freeAllMem (s) : guarded (freeAllMem s) = guarded s := by simp [freeAllMem]
/-- A module that is left quiet keeps LOCK and what it protects (R442, R478). -/
@[simp ↓] theorem guarded_quietModule (s) : guarded (quietModule s) = guarded s := by
  unfold quietModule; dsimp only
  have hu : guarded (idleDie (idleDie (copyCounters (closePaths s)) 0) 1) = guarded s := by simp
  generalize idleDie (idleDie (copyCounters (closePaths s)) 0) 1 = u at hu ⊢
  have ht : guarded (dropRung (freeAllMem (trimPanels (snapAll (resetChip u)))) .chip) = guarded (resetChip u) := by simp
  generalize dropRung (freeAllMem (trimPanels (snapAll (resetChip u)))) .chip = t at ht ⊢
  have hp : t.pending = u.pending := congrArg Prod.fst ht
  rw [← hu]
  exact congrArg (fun l => (l, u.sec.lock, lockedFields u)) hp

@[simp ↓] theorem guarded_powerNotice (force cause src s) : guarded (powerNotice force cause src s) = guarded s := by
  simp [powerNotice]

@[simp ↓] theorem guarded_powerRungRun (force cause src s) : guarded (powerRungRun force cause src s) = guarded s := by
  simp [powerRungRun]

@[simp ↓] theorem guarded_powerCycleRung (s) : guarded (powerCycleRung s) = guarded s := by unfold powerCycleRung; split <;> simp

@[simp ↓] theorem guarded_engineRungs (a s) : guarded (engineRungs a s) = guarded s := by
  unfold engineRungs; dsimp only
  rw [guarded_foldl _ _ _ fun s u => by simp]
  exact guarded_foldl _ _ _ fun s c => by split <;> simp

@[simp ↓] theorem guarded_engineWaits (a s) : guarded (engineWaits a s) = guarded s := by simp [engineWaits]

@[simp ↓] theorem guarded_engineLateRung (s k) : guarded (engineLateRung s k) = guarded s := by
  unfold engineLateRung; (repeat' split) <;> simp

@[simp ↓] theorem guarded_rungTimeout (r s) : guarded (rungTimeout r s) = guarded s := by
  unfold rungTimeout; (repeat' split) <;> simp

@[simp ↓] theorem guarded_answered (s) : guarded (answered s) = guarded s := by rfl
@[simp ↓] theorem guarded_reqDump (s) : guarded (reqDump s) = guarded s := by simp [reqDump]
@[simp ↓] theorem guarded_reqContext (target s) : guarded (reqContext target s) = guarded s := by simp [reqContext]

@[simp ↓] theorem guarded_reqEngine (target sub s) : guarded (reqEngine target sub s) = guarded s := by
  unfold reqEngine; (repeat' split) <;> simp

@[simp ↓] theorem guarded_reqPanel (target s) : guarded (reqPanel target s) = guarded s := by simp [reqPanel]
@[simp ↓] theorem guarded_reqChip (s) : guarded (reqChip s) = guarded s := by simp [reqChip]
@[simp ↓] theorem guarded_reqPower (s) : guarded (reqPower s) = guarded s := by simp [reqPower]
@[simp ↓] theorem guarded_rstreq (v s) : guarded (rstreq v s) = guarded s := by unfold rstreq; split <;> simp
@[simp ↓] theorem guarded_riskCompute (vin s) : guarded (riskCompute vin s) = guarded s := by simp [riskCompute]

/-! ### Register writes -/

@[simp ↓] theorem guarded_accErr (off s) : guarded (accErr off s) = guarded s := by rfl
@[simp ↓] theorem guarded_updGlb (s g) : guarded (updGlb s g) = guarded s := by rfl
@[simp ↓] theorem guarded_updQmg (s g) : guarded (updQmg s g) = guarded s := by rfl
@[simp ↓] theorem guarded_hangCfg (v s) : guarded (hangCfg v s) = guarded s := by rfl
@[simp ↓] theorem guarded_riskWrite (v s) : guarded (riskWrite v s) = guarded s := by rfl
@[simp ↓] theorem guarded_dumpSel (v s) : guarded (dumpSel v s) = guarded s := by rfl
@[simp ↓] theorem guarded_coreFence (p v s) : guarded (coreFence p v s) = guarded s := by simp [coreFence]
@[simp ↓] theorem guarded_ctxCtl (v s) : guarded (ctxCtl v s) = guarded s := by unfold ctxCtl; split <;> simp
@[simp ↓] theorem guarded_ctxSetup (s g) : guarded (ctxSetup s g) = guarded s := by simp [ctxSetup]
@[simp ↓] theorem guarded_groupOwn (v s) : guarded (groupOwn v s) = guarded s := by simp [groupOwn]
@[simp ↓] theorem guarded_queueSetup (s g) : guarded (queueSetup s g) = guarded s := by simp [queueSetup]
@[simp ↓] theorem guarded_queueCfg (v s) : guarded (queueCfg v s) = guarded s := by simp [queueCfg]
@[simp ↓] theorem guarded_gauCtl (v s) : guarded (gauCtl v s) = guarded s := by simp [gauCtl]
@[simp ↓] theorem guarded_linkCtl (l v s) : guarded (linkCtl l v s) = guarded s := by unfold linkCtl; split <;> simp
@[simp ↓] theorem guarded_aperWrite (a v s) : guarded (aperWrite a v s) = guarded s := by rfl
@[simp ↓] theorem guarded_lockedWrite (s) : guarded (lockedWrite s) = guarded s := by rfl
@[simp ↓] theorem guarded_glbWrite (o v s) : guarded (glbWrite o v s) = guarded s := by unfold glbWrite; split <;> simp
@[simp ↓] theorem guarded_qmgWrite (o v s) : guarded (qmgWrite o v s) = guarded s := by unfold qmgWrite; split <;> simp
@[simp ↓] theorem guarded_lnkWrite (o v s) : guarded (lnkWrite o v s) = guarded s := by simp [lnkWrite]
@[simp ↓] theorem guarded_gauWrite (o v s) : guarded (gauWrite o v s) = guarded s := by unfold gauWrite; split <;> simp
@[simp ↓] theorem guarded_pwrWrite (o v s) : guarded (pwrWrite o v s) = guarded s := by unfold pwrWrite; split <;> simp

@[simp ↓] theorem guarded_secWrite (o v s) : guarded (secWrite o v s) = guarded s := by
  unfold secWrite
  split
  · rfl
  · split <;> rfl

@[simp ↓] theorem guarded_memWrite (o v s) : guarded (memWrite o v s) = guarded s := by simp [memWrite]
@[simp ↓] theorem guarded_regWrite (off v s) : guarded (regWrite off v s) = guarded s := by simp [regWrite]
@[simp ↓] theorem guarded_registerWrite (off v s) : guarded (registerWrite off v s) = guarded s := by simp [registerWrite]

@[simp ↓] theorem guarded_noteWindowRead (off s) : guarded (noteWindowRead off s) = guarded s := by
  unfold noteWindowRead; (repeat' split) <;> simp

@[simp ↓] theorem guarded_bar0Refused (a s) : guarded (bar0Refused a s) = guarded s := by simp [bar0Refused]

/-! ### The tick -/

@[simp ↓] theorem guarded_gddrMishap (pa upset s) : guarded (gddrMishap pa upset s) = guarded s := by simp [gddrMishap]
@[simp ↓] theorem guarded_benchMishap (c off double s) : guarded (benchMishap c off double s) = guarded s := by simp [benchMishap]
@[simp ↓] theorem guarded_storeMishap (p off double s) : guarded (storeMishap p off double s) = guarded s := by simp [storeMishap]
@[simp ↓] theorem guarded_befall (m s) : guarded (befall m s) = guarded s := by unfold befall; split <;> simp
@[simp ↓] theorem guarded_mishapTick (s) : guarded (mishapTick s) = guarded s := by unfold mishapTick; (repeat' split) <;> simp
@[simp ↓] theorem guarded_tickAll (s) : guarded (tickAll s) = guarded s := by simp [tickAll]

end Sys2Proof.Machine

end

section

/-! O3. No step changes a locked field while LOCK stays set (R478, R485). -/

namespace Sys2Proof.Machine

open Sys2Proof

theorem guarded_newTable {s c size r} (h : newTable s c size = some r) : guarded r.1 = guarded s := by
  obtain ⟨a, -, rfl⟩ := Option.map_eq_some_iff.1 h
  simp

theorem guarded_tableUnder {s c addr size r} (h : tableUnder s c addr size = some r) : guarded r.1 = guarded s := by
  unfold tableUnder at h; dsimp only at h
  split at h
  · cases h; rfl
  · obtain ⟨q, hq, rfl⟩ := Option.map_eq_some_iff.1 h
    simp [guarded_newTable hq]

theorem guarded_mapLeaf {s t : State} {c va psize e} (h : mapLeaf s c va psize e = some t) : guarded t = guarded s := by
  unfold mapLeaf at h; dsimp only at h
  split at h
  · cases h; simp
  · split at h
    · cases h
    · next h1 =>
      split at h
      · cases h; simp [guarded_tableUnder h1]
      · split at h
        · cases h
        · next h0 => cases h; simp [guarded_tableUnder h0, guarded_tableUnder h1]

theorem guarded_mapLeaves {c psize w x hdm} : ∀ (n va pa : Nat) (s t : State),
    mapLeaves c psize w x hdm n va pa s = some t → guarded t = guarded s
  | 0, _, _, _, _, h => by cases h; rfl
  | n + 1, va, pa, s, t, h => by
    obtain ⟨u, hu, h⟩ := Option.bind_eq_some_iff.1 h
    rw [guarded_mapLeaves n _ _ _ _ h, guarded_mapLeaf hu]

theorem guarded_mapPages {s t : State} {c m} (h : mapPages s c m = some t) : guarded t = guarded s := by
  unfold mapPages at h
  split at h
  · cases h
  · exact guarded_mapLeaves _ _ _ _ _ h

theorem guarded_unmapPages {s t : State} {c m} (h : unmapPages s c m = some t) : guarded t = guarded s := by
  unfold unmapPages at h
  split at h
  · cases h; simp
  · cases h

theorem guarded_execMapDesc {s t : State} {d} (h : execMapDesc d s = .next t) : guarded t = guarded s := by
  cases h
  refine guarded_startDesc fun x u hu => ?_
  split
  · rfl
  · split
    · next h => simp [guarded_mapPages h, hu]
    · simp [hu]

theorem guarded_execUnmap {s t : State} {d} (h : execUnmap d s = .next t) : guarded t = guarded s := by
  cases h
  refine guarded_startDesc fun x u hu => ?_
  split
  · next h => simp [guarded_unmapPages h, hu]
  · simp [hu]

theorem guarded_execGetDigests {s t : State} (h : execGetDigests s = .next t) : guarded t = guarded s := by
  cases h
  exact guarded_spdm _ _ (by split <;> simp)

theorem guarded_execPatrolScrub {s t : State} {pa u} (h : execPatrolScrub pa u s = .next t) : guarded t = guarded s := by
  unfold execPatrolScrub at h
  split at h <;> cases h
  simp

theorem guarded_execGaugeSteer {s t : State} (h : execGaugeSteer s = .next t) : guarded t = guarded s := by
  unfold execGaugeSteer at h; dsimp only at h
  split at h <;> cases h <;> simp

theorem guarded_execGaugeRefLost {s t : State} (h : execGaugeRefLost s = .next t) : guarded t = guarded s := by
  unfold execGaugeRefLost at h; dsimp only at h
  split at h <;> cases h <;> simp

theorem guarded_execLinkStepTimeout {s t : State} {l} (h : execLinkStepTimeout l s = .next t) : guarded t = guarded s := by
  unfold execLinkStepTimeout at h; dsimp only at h
  split at h
  · split at h <;> cases h <;> simp
  · cases h; rfl

theorem guarded_execLinkBerWindow {s t : State} {l} (h : execLinkBerWindow l s = .next t) : guarded t = guarded s := by
  unfold execLinkBerWindow at h; dsimp only at h
  split at h <;> cases h <;> simp

theorem guarded_execAliveSend {s t : State} {l} (h : execAliveSend l s = .next t) : guarded t = guarded s := by
  unfold execAliveSend at h; dsimp only [State.draw] at h
  split at h <;> cases h <;> simp

theorem guarded_execAliveReceive {s t : State} {l a rx} (h : execAliveReceive l a rx s = .next t) : guarded t = guarded s := by
  unfold execAliveReceive at h; dsimp only at h
  split at h
  · split at h <;> cases h <;> simp
  · cases h; rfl

theorem guarded_execFrameSend {s t : State} {l} (h : execFrameSend l s = .next t) : guarded t = guarded s := by
  unfold execFrameSend at h; dsimp only at h
  split at h <;> cases h <;> simp

theorem guarded_execFrameReceive {s t : State} {l cw} (h : execFrameReceive l cw s = .next t) : guarded t = guarded s := by
  unfold execFrameReceive at h; dsimp only at h
  split at h
  · split at h <;> cases h <;> simp
  · cases h; rfl

/-- The commands that can move a guarded field: those that drop PWR_GOOD, reset the chip, or lock a configuration. -/
def movesLock : Instr → Bool
  | .chipRung | .sagStageEnter _ | .overvoltage _ | .railFault _ | .pwrGoodDrop | .hardwareTrip _ _ | .configLock
  | .configLoad _ => true
  | _ => false

theorem guarded_exec (c : Instr) (s t : State) (hc : movesLock c = false) (h : exec c s = .next t) : guarded t = guarded s := by
  cases c with
  | chipRung | sagStageEnter | overvoltage | railFault | pwrGoodDrop | hardwareTrip | configLock | configLoad => cases hc
  | mapDesc => exact guarded_execMapDesc h
  | unmap => exact guarded_execUnmap h
  | getDigests => exact guarded_execGetDigests h
  | patrolScrub => exact guarded_execPatrolScrub h
  | gaugeSteer => exact guarded_execGaugeSteer h
  | gaugeRefLost => exact guarded_execGaugeRefLost h
  | linkStepTimeout => exact guarded_execLinkStepTimeout h
  | linkBerWindow => exact guarded_execLinkBerWindow h
  | aliveSend => exact guarded_execAliveSend h
  | aliveReceive => exact guarded_execAliveReceive h
  | frameSend => exact guarded_execFrameSend h
  | frameReceive => exact guarded_execFrameReceive h
  | _ => obtain rfl := Host.Outcome.next.inj h; simp

/-- A step keeps the queue, and either all that LOCK guards or leaves LOCK clear. -/
def Keeps (s t : State) : Prop := guarded t = guarded s ∨ t.pending = s.pending ∧ t.sec.lock = false

theorem guarded_eq_iff {s t : State} : guarded t = guarded s ↔
    t.pending = s.pending ∧ t.sec.lock = s.sec.lock ∧ lockedFields t = lockedFields s := by
  simp [guarded]

theorem keeps_dropGood {s u : State} (h : guarded u = guarded s) : Keeps s (dropGood u) := by
  unfold dropGood; dsimp only
  split
  · generalize List.map Prod.fst _ = l
    have hu : guarded (l.foldl (fun s k => if h : k < 32 then s.emit (.idle ⟨k, h⟩) else s) (tearFlash u)) = guarded s := by
      simp [h]
    exact .inr ⟨(guarded_eq_iff.1 hu).1, rfl⟩
  · exact .inl h

theorem keeps_chipRung (s : State) : Keeps s (chipRung s) := by
  unfold chipRung; dsimp only
  split
  · generalize ((rungRun s .chip).map fun r => r.cause).getD 0 = cause
    have hu : guarded (tearFlash (chipClose cause s)) = guarded s := by simp
    generalize tearFlash (chipClose cause s) = u at hu ⊢
    have ht : guarded (trainChannels (freeAllMem (trimPanels (snapAll (resetChip u))))) = guarded (resetChip u) := by simp
    generalize trainChannels (freeAllMem (trimPanels (snapAll (resetChip u)))) = t at ht ⊢
    obtain ⟨hp, hl, -⟩ := guarded_eq_iff.1 ht
    exact .inr ⟨hp.trans (guarded_eq_iff.1 hu).1, hl⟩
  · exact .inl rfl

theorem keeps_hardwareTrip (x : Sensor) (celsius : Int) (s : State) : Keeps s (hardwareTrip x celsius s) := by
  unfold hardwareTrip
  split
  · split
    · exact keeps_dropGood rfl
    · exact .inl rfl
  · exact .inl rfl

theorem keeps_sagStageEnter (v : Nat) (s : State) : Keeps s (sagStageEnter v s) := by
  unfold sagStageEnter
  split
  · exact keeps_dropGood (by simp)
  · exact .inl (by simp)

theorem configLock_of_locked {s : State} (h : s.sec.lock = true) : configLock s = s := by simp [configLock, h]

theorem guarded_configLoad_of_locked {s : State} (r) (h : s.sec.lock = true) : guarded (configLoad r s) = guarded s := by
  simp [configLoad, h]

theorem keeps_exec {c : Instr} {s t : State} (hs : s.sec.lock = true) (h : exec c s = .next t) : Keeps s t := by
  cases hc : movesLock c with
  | false => exact .inl (guarded_exec c s t hc h)
  | true =>
    cases c with
    | chipRung => cases h; exact keeps_chipRung s
    | sagStageEnter v => cases h; exact keeps_sagStageEnter v s
    | overvoltage v =>
      cases h
      split
      · exact keeps_dropGood (by simp)
      · exact .inl (by simp)
    | railFault | pwrGoodDrop => cases h; exact keeps_dropGood rfl
    | hardwareTrip x v => cases h; exact keeps_hardwareTrip x v s
    | configLock => cases h; exact .inl (by rw [configLock_of_locked hs])
    | configLoad r => cases h; exact .inl (guarded_mailbox _ _ _ _ (guarded_configLoad_of_locked r hs))
    | _ => cases hc

/-- Settles O3: a command either keeps all that `guarded` names or clears LOCK (`keeps_exec`). -/
theorem lockedFieldsStayWhileLocked : Obligations.LockedFieldsStayWhileLocked := by
  unfold Obligations.LockedFieldsStayWhileLocked
  intro s t hs hstep ht
  unfold step at hstep
  split at hstep
  · cases hstep; rfl
  · next c rest _ =>
    rcases keeps_exec (s := s.withPending rest) hs hstep with h | ⟨-, hl⟩
    · exact (guarded_eq_iff.1 h).2.2
    · rw [hl] at ht; cases ht

end Sys2Proof.Machine

end

section

/-! O58. What writes of the set-up registers store, and that a write elsewhere is ignored (R443, R468, R488). -/

namespace Sys2Proof.Machine

open Sys2Proof

/-! ### REGISTER_WRITE after LOCK -/

theorem exec_registerWrite (off : BitVec 22) (v : W64) (s : State) :
    exec (.registerWrite off v) s = .next (hostWrite s (registerWrite off v)) := rfl

theorem hostWrite_of_locked {s : State} (hu : hostUp s = true) (hl : s.sec.lock = true) (g : State → State) :
    hostWrite s g = g s := by simp [hostWrite, hu, hl]

/-- An aligned write after LOCK has the effect of its register. -/
theorem exec_registerWrite_aligned {s : State} (hu : hostUp s = true) (hl : s.sec.lock = true) {off : BitVec 22}
    (ha : off.toNat % 8 = 0) (v : W64) : exec (.registerWrite off v) s = .next (regWrite off.toNat v s) := by
  rw [exec_registerWrite, hostWrite_of_locked hu hl, registerWrite, if_pos ha]

/-! ### Fields of a written value -/

theorem wfld_eq_toNat (v : W64) (lo n : Nat) : wfld v lo n = (v.extractLsb' lo n).toNat := by
  simp [wfld, fld, Nat.shiftRight_eq_div_pow]

/-- A byte below a bound, raised to it. -/
theorem ofNat_max_toNat (k : Nat) (x : Byte) :
    BitVec.ofNat 8 (max k x.toNat) = if x.toNat < k then BitVec.ofNat 8 k else x := by
  split
  · next h => rw [max_eq_left (by omega)]
  · next h => rw [max_eq_right (by omega)]; simp

theorem hangCfg_eq (v : W64) (s : State) : hangCfg v s = { s with glb := { s.glb with
    slotWin := if v.extractLsb' 0 8 = 0 then 1 else v.extractLsb' 0 8
    queueWin := if v.extractLsb' 8 8 = 0 then 1 else v.extractLsb' 8 8
    engineWin := if v.extractLsb' 16 8 = 0 ∨ v.extractLsb' 16 8 = 1 then 2 else v.extractLsb' 16 8
    replayEn := v.getLsbD 24, autoEsc := v.getLsbD 25, pwrCycleEn := v.getLsbD 26 } } := by
  have one (x : Byte) : x.toNat < 1 ↔ x = 0 := by simp [BitVec.toNat_eq]
  have two (x : Byte) : x.toNat < 2 ↔ x = 0 ∨ x = 1 := by simp [BitVec.toNat_eq]; omega
  simp only [hangCfg, updGlb, wfld_eq_toNat, ofNat_max_toNat, one, two]
  rfl

theorem limit_eq (w : Nat) : max 800 (min 1600 w) = if w < 800 then 800 else if 1600 < w then 1600 else w := by
  split
  · omega
  · split <;> omega

/-! ### Offsets without a writable register -/

theorem glbWrite_other {o : Nat} (h : o ∉ [0x40, 0x48, 0x50, 0x80, 0x88, 0x98, 0xA0]) (v : W64) (s : State) :
    glbWrite o v s = s := by
  unfold glbWrite
  split <;> simp at h ⊢

theorem qmgWrite_other {o : Nat} (h : o ∉ [0, 0x8, 0x10, 0x18, 0x20, 0x28, 0x80, 0x88, 0x100, 0x108, 0x110, 0x118, 0x128, 0x200,
    0x208, 0x218]) (v : W64) (s : State) : qmgWrite o v s = s := by
  unfold qmgWrite
  split <;> simp at h ⊢

theorem gauWrite_other {o : Nat} (h : o ∉ [0, 8]) (v : W64) (s : State) : gauWrite o v s = s := by
  unfold gauWrite
  split <;> simp at h ⊢

theorem pwrWrite_other {o : Nat} (h : o ∉ [0, 0x20, 0x28]) (v : W64) (s : State) : pwrWrite o v s = s := by
  unfold pwrWrite
  split <;> simp at h ⊢

theorem lnkWrite_other {o : Nat} (h0 : o ≠ 0) (h : ¬ (0x1000 ≤ o ∧ o < 0x2000 ∧ o % 0x80 = 0)) (v : W64) (s : State) :
    lnkWrite o v s = s := by
  simp [lnkWrite, h0, h]

theorem secWrite_other {o : Nat} (h : o ∉ [0x20, 0x30, 0x38]) (hb : ¬ (0x100 ≤ o ∧ o < 0x300)) (v : W64) (s : State) :
    secWrite o v s = s := by
  simp at h
  simp [secWrite, h, hb]

theorem memWrite_other {o : Nat} (h0 : o ≠ 0) (h : ¬ (0x100 ≤ o ∧ o < 0x180)) (v : W64) (s : State) : memWrite o v s = s := by
  simp [memWrite, h0, h]

/-- An aligned offset where no writable register stands, window by window of BAR0. -/
def NotWritable (n : Nat) : Prop :=
  (n < 0x10000 ∧ n ∉ [0x40, 0x48, 0x50, 0x80, 0x88, 0x98, 0xA0]) ∨ (0x10000 ≤ n ∧ n < 0x20000) ∨
  (0x20000 ≤ n ∧ n < 0x60000 ∧ n % 0x10000 ≠ 8) ∨
  (0x60000 ≤ n ∧ n < 0x70000 ∧ n - 0x60000 ∉ [0, 0x8, 0x10, 0x18, 0x20, 0x28, 0x80, 0x88, 0x100, 0x108, 0x110, 0x118, 0x128,
    0x200, 0x208, 0x218]) ∨
  (0x70000 ≤ n ∧ n < 0x80000 ∧ n ≠ 0x70000 ∧ ¬ (0x71000 ≤ n ∧ n < 0x72000 ∧ n % 0x80 = 0)) ∨
  (0x80000 ≤ n ∧ n < 0x81000 ∧ n - 0x80000 ∉ [0, 8]) ∨ (0x81000 ≤ n ∧ n < 0x82000 ∧ n - 0x81000 ∉ [0, 0x20, 0x28]) ∨
  (0x82000 ≤ n ∧ n < 0x83000 ∧ n - 0x82000 ∉ [0x20, 0x30, 0x38] ∧ ¬ (0x82100 ≤ n ∧ n < 0x82300)) ∨
  (0x83000 ≤ n ∧ n < 0x84000 ∧ n ≠ 0x83000 ∧ ¬ (0x83100 ≤ n ∧ n < 0x83180)) ∨ 0x84000 ≤ n

section Windows

variable (v : W64) (s : State) {n : Nat}

/-! `regWrite`, window by window. -/

theorem regWrite_glb (h : n < 0x10000) : regWrite n v s = glbWrite n v s := by
  simp [regWrite, h, Nat.mod_eq_of_lt h]

theorem regWrite_reserved (h₁ : 0x10000 ≤ n) (h₂ : n < 0x20000) : regWrite n v s = s := by
  simp [regWrite, h₁.not_gt, h₂]

theorem regWrite_panel_other (h₁ : 0x20000 ≤ n) (h₂ : n < 0x60000) (h : n % 0x10000 ≠ 8) : regWrite n v s = s := by
  simp [regWrite, show ¬ n < 0x10000 by omega, h₁.not_gt, h₂, h]

theorem regWrite_qmg (h₁ : 0x60000 ≤ n) (h₂ : n < 0x70000) : regWrite n v s = qmgWrite (n - 0x60000) v s := by
  simp [regWrite, show ¬ n < 0x10000 by omega, show ¬ n < 0x20000 by omega, h₁.not_gt, h₂,
    show n % 0x10000 = n - 0x60000 by omega]

theorem regWrite_lnk (h₁ : 0x70000 ≤ n) (h₂ : n < 0x80000) : regWrite n v s = lnkWrite (n - 0x70000) v s := by
  simp [regWrite, show ¬ n < 0x10000 by omega, show ¬ n < 0x20000 by omega, show ¬ n < 0x60000 by omega, h₁.not_gt, h₂,
    show n % 0x10000 = n - 0x70000 by omega]

theorem regWrite_above (h : 0x80000 ≤ n) : regWrite n v s =
    if n < 0x81000 then gauWrite (n - 0x80000) v s else if n < 0x82000 then pwrWrite (n - 0x81000) v s
    else if n < 0x83000 then secWrite (n - 0x82000) v s else if n < 0x84000 then memWrite (n - 0x83000) v s else s := by
  simp [regWrite, show ¬ n < 0x10000 by omega, show ¬ n < 0x20000 by omega, show ¬ n < 0x60000 by omega,
    show ¬ n < 0x70000 by omega, h.not_gt]

theorem regWrite_pwr (h₁ : 0x81000 ≤ n) (h₂ : n < 0x82000) : regWrite n v s = pwrWrite (n - 0x81000) v s := by
  rw [regWrite_above v s (by omega), if_neg h₁.not_gt, if_pos h₂]

theorem regWrite_of_notWritable (h : NotWritable n) : regWrite n v s = s := by
  rcases h with ⟨h, hn⟩ | ⟨h₁, h₂⟩ | ⟨h₁, h₂, hn⟩ | ⟨h₁, h₂, hn⟩ | ⟨h₁, h₂, h0, hn⟩ | ⟨h₁, h₂, hn⟩ | ⟨h₁, h₂, hn⟩ |
    ⟨h₁, h₂, hn, hb⟩ | ⟨h₁, h₂, h0, hn⟩ | h
  · rw [regWrite_glb v s h, glbWrite_other hn]
  · exact regWrite_reserved v s h₁ h₂
  · exact regWrite_panel_other v s h₁ h₂ hn
  · rw [regWrite_qmg v s h₁ h₂, qmgWrite_other hn]
  · rw [regWrite_lnk v s h₁ h₂, lnkWrite_other (by omega) (by omega)]
  · rw [regWrite_above v s h₁, if_pos h₂, gauWrite_other hn]
  · rw [regWrite_pwr v s h₁ h₂, pwrWrite_other hn]
  · rw [regWrite_above v s (by omega), if_neg (by omega), if_neg h₁.not_gt, if_pos h₂, secWrite_other hn (by omega)]
  · rw [regWrite_above v s (by omega), if_neg (by omega), if_neg (by omega), if_neg h₁.not_gt, if_pos h₂,
      memWrite_other (by omega) (by omega)]
  · rw [regWrite_above v s (by omega), if_neg (by omega), if_neg (by omega), if_neg (by omega), if_neg h.not_gt]

end Windows

/-- Settles O58: an aligned write is its window's write (`exec_registerWrite_aligned`), and
the offsets of `NotWritable` have none. -/
theorem registerWritesStoreOrAreIgnored : Obligations.RegisterWritesStoreOrAreIgnored := by
  unfold Obligations.RegisterWritesStoreOrAreIgnored
  intro s v hu hl put
  have hput {off : BitVec 22} {t : State} (n : Nat) (hn : off.toNat = n) (ha : n % 8 = 0) (h : regWrite n v s = t) :
      put off t := by
    subst hn
    exact (exec_registerWrite_aligned hu hl ha v).trans (congrArg _ h)
  refine ⟨hput 0x48 rfl rfl (hangCfg_eq v s), hput 0x40 rfl rfl rfl, hput 0x80 rfl rfl rfl, hput 0x88 rfl rfl rfl,
    hput 0xA0 rfl rfl rfl, hput 0x60000 rfl rfl ?_, hput 0x60080 rfl rfl ?_, hput 0x60100 rfl rfl ?_, hput 0x81000 rfl rfl ?_,
    hput 0x81020 rfl rfl rfl, fun off ha hn => hput _ rfl ha (regWrite_of_notWritable v s hn)⟩
  · rw [regWrite_qmg v s (by decide) (by decide)]
    exact congrArg (fun c => updQmg s fun q => { q with csel := c }) (Fin.ext (wfld_eq_toNat v 0 10))
  · rw [regWrite_qmg v s (by decide) (by decide)]
    exact congrArg (fun c => updQmg s fun q => { q with gsel := c }) (Fin.ext (wfld_eq_toNat v 0 10))
  · rw [regWrite_qmg v s (by decide) (by decide)]
    exact congrArg (fun c => updQmg s fun q => { q with qsel := c }) (Fin.ext (wfld_eq_toNat v 0 16))
  · rw [regWrite_pwr v s (by decide) (by decide)]
    dsimp only
    rw [← limit_eq, ← wfld_eq_toNat]
    rfl

end Sys2Proof.Machine

end

section

/-! O55. The boot of the plinth, the lock of a configuration, and BAR0 (R470 to R479, R487 to R495). -/

namespace Sys2Proof.Machine

open Sys2Proof

/-! ### What an event leaves alone -/

/-- A state without what an event may write: the logs and the memory that holds them. -/
def besidesEvents (s : State) : State := { s with mem := State.reset.mem, ev := State.reset.ev }

theorem besidesEvents_setPath (s : State) (n : PathName) (x : EvPath) : besidesEvents (s.setPath n x) = besidesEvents s := by
  unfold State.setPath
  split <;> rfl

theorem besidesEvents_evWrite (s : State) (n : PathName) (e : EvRec) : besidesEvents (evWrite s n e) = besidesEvents s := by
  unfold evWrite
  dsimp only
  split
  · exact besidesEvents_setPath ..
  · exact besidesEvents_setPath ..
  · exact besidesEvents_setPath ..
  · exact besidesEvents_setPath ..

theorem besidesEvents_evOffer (s : State) (n : PathName) (e : EvRec) : besidesEvents (evOffer s n e) = besidesEvents s := by
  unfold evOffer
  dsimp only
  split
  · rw [besidesEvents_evWrite, besidesEvents_setPath]
  · rw [besidesEvents_setPath]

theorem besidesEvents_raiseEv (s : State) (code src : BitVec 16) (args : List Nat) (ctx : Option Ctx) (job : BitVec 8)
    (sub : BitVec 3) : besidesEvents (raiseEv s code src args ctx job sub) = besidesEvents s := by
  unfold raiseEv raiseRec
  dsimp only
  split
  · rfl
  · exact besidesEvents_evOffer ..

/-! ### What the target of a link leaves alone -/

/-- What neither an event nor a link's bring-up touches. -/
def offLink (s : State) : SecState × GlbState × W32 × Nat := (s.sec, s.glb, s.lnk.enable, s.now)

theorem offLink_raiseEv (s : State) (code src : BitVec 16) (args : List Nat) : offLink (raiseEv s code src args) = offLink s := by
  change offLink (besidesEvents _) = offLink (besidesEvents s)
  rw [besidesEvents_raiseEv]

theorem link_raiseEv (s : State) (code src : BitVec 16) (args : List Nat) (l : Link) :
    (raiseEv s code src args).link l = s.link l := by
  change (besidesEvents _).link l = (besidesEvents s).link l
  rw [besidesEvents_raiseEv]

theorem offLink_checkAligned (s : State) : offLink (checkAligned s) = offLink s := by
  unfold checkAligned
  dsimp only
  split
  · rw [offLink_raiseEv]; rfl
  · rfl

theorem link_checkAligned (s : State) (l : Link) : (checkAligned s).link l = s.link l := by
  unfold checkAligned
  dsimp only
  split
  · rw [link_raiseEv]; rfl
  · rfl

theorem offLink_targetOff (l : Link) (s : State) : offLink (targetOff l s) = offLink s := by
  unfold targetOff
  dsimp only
  rw [offLink_checkAligned]
  split <;> rfl

/-- What a step of the bring-up of one link keeps: everything beside the links, the other links, and its target. -/
def KeepsTarget (l : Link) (s t : State) : Prop :=
  offLink t = offLink s ∧ (∀ k, k ≠ l → t.link k = s.link k) ∧ (t.link l).target = (s.link l).target

theorem KeepsTarget.trans {l : Link} {s t u : State} (h : KeepsTarget l s t) (h' : KeepsTarget l t u) : KeepsTarget l s u := by
  obtain ⟨ho, hk, ht⟩ := h
  obtain ⟨ho', hk', ht'⟩ := h'
  exact ⟨ho'.trans ho, fun k hne => (hk' k hne).trans (hk k hne), ht'.trans ht⟩

theorem keepsTarget_setLink (s : State) (l : Link) {x : LinkState} (h : x.target = (s.link l).target) :
    KeepsTarget l s (s.setLink l x) :=
  ⟨rfl, fun _ hk => s.setLink_link_ne x hk, by rw [State.setLink_link_same, h]⟩

theorem keepsTarget_checkAligned (s : State) (l : Link) : KeepsTarget l s (checkAligned s) :=
  ⟨offLink_checkAligned s, fun k _ => link_checkAligned s k, by rw [link_checkAligned]⟩

theorem keepsTarget_beginUp (s : State) (l : Link) : KeepsTarget l s (beginUp s l) := by
  unfold beginUp
  split
  · exact keepsTarget_setLink s l rfl
  · exact ⟨rfl, fun _ _ => rfl, rfl⟩

theorem keepsTarget_emit (s : State) (l : Link) (o : Output) : KeepsTarget l s (s.emit o) := ⟨rfl, fun _ _ => rfl, rfl⟩

theorem keepsTarget_raiseEv (s : State) (l : Link) (code src : BitVec 16) (args : List Nat) :
    KeepsTarget l s (raiseEv s code src args) :=
  ⟨offLink_raiseEv .., fun _ _ => link_raiseEv .., by rw [link_raiseEv]⟩

/-- A bring-up that takes too long is no loss of the link: its ring goes on. -/
theorem keepsTarget_linkDown_tooLong (s : State) (l : Link) : KeepsTarget l s (linkDown s l whyTooLong) := by
  have hloss : (whyTooLong == whyAlive || whyTooLong == whyRetry) = false := rfl
  simp only [linkDown, updLink, hloss, Bool.false_eq_true, if_false]
  refine .trans ?_ (keepsTarget_checkAligned _ l)
  refine .trans ?_ (keepsTarget_raiseEv _ l ..)
  refine .trans ?_ (keepsTarget_emit _ l _)
  exact keepsTarget_setLink s l rfl

theorem keepsTarget_holdStep (s : State) (l : Link) : KeepsTarget l s (holdStep s l) := by
  unfold holdStep
  dsimp only
  split
  · split
    · exact keepsTarget_linkDown_tooLong s l
    · exact keepsTarget_setLink s l rfl
  · exact ⟨rfl, fun _ _ => rfl, rfl⟩

theorem keepsTarget_targetHold (s : State) (l : Link) :
    KeepsTarget l (s.setLink l { s.link l with target := 1 }) (targetHold l s) := by
  unfold targetHold
  dsimp only
  split
  · refine .trans ?_ (keepsTarget_checkAligned _ l)
    exact keepsTarget_setLink _ l rfl
  · exact (keepsTarget_beginUp _ l).trans (keepsTarget_holdStep _ l)

theorem offLink_targetHold (l : Link) (s : State) : offLink (targetHold l s) = offLink s := (keepsTarget_targetHold s l).1

theorem link_targetHold_ne {l k : Link} (h : k ≠ l) (s : State) : (targetHold l s).link k = s.link k :=
  ((keepsTarget_targetHold s l).2.1 k h).trans (s.setLink_link_ne _ h)

theorem target_targetHold (l : Link) (s : State) : ((targetHold l s).link l).target = 1 := by
  rw [(keepsTarget_targetHold s l).2.2, State.setLink_link_same]

/-- A link that is OFF or DOWN begins its bring-up: step 4 is not yet judged. -/
theorem targetHold_of_down {l : Link} {s : State} (h : (s.link l).phase = .off ∨ (s.link l).phase = .down) :
    targetHold l s = s.setLink l { s.link l with target := 1, phase := .detect, step := 1, stepAt := s.now } := by
  have hr : (s.link l).phase ≠ .run := by rcases h with h | h <;> simp [h]
  simp [targetHold, hr, beginUp, h, enterDetect, updLink, holdStep]

theorem offLink_eq_iff {s t : State} :
    offLink t = offLink s ↔ t.sec = s.sec ∧ t.glb = s.glb ∧ t.lnk.enable = s.lnk.enable ∧ t.now = s.now := by
  simp [offLink]

theorem offLink_foldl {g : State → Link → State} (h : ∀ s l, offLink (g s l) = offLink s) (ls : List Link) (s : State) :
    offLink (ls.foldl g s) = offLink s := by
  induction ls generalizing s with
  | nil => rfl
  | cons l t ih => rw [List.foldl_cons, ih, h]

theorem offLink_offDisabled (s : State) : offLink (offDisabled s) = offLink s := by
  refine offLink_foldl (fun s l => ?_) _ s
  split
  · rfl
  · exact offLink_targetOff l s

/-! ### Links held together -/

theorem link_foldl_targetHold_notMem {l : Link} {ls : List Link} (hl : l ∉ ls) (s : State) :
    (ls.foldl (fun s k => targetHold k s) s).link l = s.link l := by
  induction ls generalizing s with
  | nil => rfl
  | cons k t ih =>
    obtain ⟨hk, ht⟩ := not_or.1 (mt List.mem_cons.2 hl)
    rw [List.foldl_cons, ih ht, link_targetHold_ne hk]

/-- Of links held one after the other, each is held as if it were alone. -/
theorem link_foldl_targetHold {l : Link} {ls : List Link} (hd : ls.Nodup) (hl : l ∈ ls) (s : State) :
    ∃ u, u.link l = s.link l ∧ u.now = s.now ∧ (ls.foldl (fun s k => targetHold k s) s).link l = (targetHold l u).link l := by
  induction ls generalizing s with
  | nil => cases hl
  | cons k t ih =>
    obtain ⟨hk, ht⟩ := List.nodup_cons.1 hd
    rw [List.foldl_cons]
    by_cases h : l = k
    · subst h
      exact ⟨s, rfl, rfl, link_foldl_targetHold_notMem hk _⟩
    · obtain ⟨u, hlink, hnow, hu⟩ := ih ht (List.mem_of_ne_of_mem h hl) (targetHold k s)
      obtain ⟨-, -, -, hn⟩ := offLink_eq_iff.1 (offLink_targetHold k s)
      exact ⟨u, hlink.trans (link_targetHold_ne h s), hnow.trans hn, hu⟩

/-! ### PLINTH_BOOT -/

theorem exec_plinthBoot (s : State) : exec .plinthBoot s = .next (plinthBoot s) := rfl

theorem plinthBoot_of_not_reset {s : State} (h : s.sec.boot ≠ .reset) : plinthBoot s = s := by
  simp [plinthBoot, h]

theorem plinthBoot_noSelector {s : State} (hg : s.pwr.pwrGood = true) (hb : s.sec.boot = .reset) (h : selInForce s = none) :
    plinthBoot s = bootSlots (writeSel s false false false) false true false := by
  simp [plinthBoot, hg, hb, h]

theorem plinthBoot_selector {s : State} {c : Bool} {x : Selector} (hg : s.pwr.pwrGood = true) (hb : s.sec.boot = .reset)
    (h : selInForce s = some (c, x)) : plinthBoot s =
    if x.try_ then if x.attempted then bootSlots (writeSel s (!x.active) false false) (!x.active) false false
      else bootSlots (writeSel s x.active true true) x.active false true
    else bootSlots s x.active false false := by
  cases ht : x.try_ <;> cases ha : x.attempted <;> simp [plinthBoot, hg, hb, h, ht, ha]

theorem foldl_setMeas_sec (f : State → Nat × Nat → List Byte) (l : List (Nat × Nat)) (s : State) :
    ∃ m, (l.foldl (fun s x => setMeas s x.1 (f s x)) s).sec = { s.sec with meas := m } := by
  induction l generalizing s with
  | nil => exact ⟨s.sec.meas, rfl⟩
  | cons x l ih => exact ih (setMeas s x.1 (f s x))

theorem revoke_loadStages_flash (s : State) (b : Bool) (a : Nat) : (revoke (loadStages s b) a).mem.flash = s.mem.flash := by
  simp only [revoke, loadStages, updSec]

theorem flashNat_congr {s t : State} (h : t.mem.flash = s.mem.flash) (x n : Nat) : flashNat t x n = flashNat s x n := by
  rw [flashNat, h, flashNat]

/-- What the boot of a slot notes in the security block. -/
theorem runSlot_sec (s : State) (b fallback trial : Bool) : ∃ (m : Tab (List Byte)) (x : SecState),
    (runSlot s b fallback trial).sec = { x with
    boot := .checking, slotB := b, fwFallback := fallback, tryRun := trial
    fwVersion := BitVec.ofNat 32 (flashNat s (slotBase b + 8) 4), meas := m } := by
  unfold runSlot
  dsimp only
  rw [flashNat_congr (revoke_loadStages_flash s b (slotBase b)), flashNat_congr (revoke_loadStages_flash s b (slotBase b))]
  generalize revoke (loadStages s b) (slotBase b) = u
  obtain ⟨m, h⟩ := foldl_setMeas_sec (fun s x => sha512 (flashBytes s x.2 (1152 + stageLen s x.2))) _ _
  exact ⟨m, _, h⟩

/-! ### Tables filled from a blob -/

theorem rangeFrom_eq_range' (lo n : Nat) : rangeFrom lo n = List.range' lo n := by
  induction n generalizing lo with
  | zero => rfl
  | succ n ih => rw [rangeFrom, ih, List.range'_succ]

theorem mem_rangeFrom_zero {i n : Nat} : i ∈ rangeFrom 0 n ↔ i < n := by
  simp [rangeFrom_eq_range']

theorem tabGet_foldl_tabSet (g : Nat → W64) (l : List Nat) (t : Tab W64) (i : Nat) :
    tabGet 0 (l.foldl (fun t k => tabSet 0 t k (g k)) t) i = if i ∈ l then g i else tabGet 0 t i := by
  induction l generalizing t with
  | nil => simp
  | cons k l ih =>
    rw [List.foldl_cons, ih]
    by_cases hi : i ∈ l
    · simp [hi]
    · by_cases hk : i = k
      · subst hk; simp [hi]
      · simp [hi, hk, tabGet_tabSet_ne]

/-- The regions that a blob locks. -/
def blobRegionTab (b : List Byte) : Tab W64 :=
  (List.zip (rangeFrom 0 64) (blobRegions b)).foldl (fun t r => tabSet 0 t r.1 (BitVec.ofNat 64 r.2)) []

/-- The bindings that a blob locks. -/
def blobBindTab (b : List Byte) : Tab W64 :=
  (rangeFrom 0 1024).foldl (fun t c => tabSet 0 t c (BitVec.ofNat 64 (blobNat b (1152 + 8 * c) 8))) []

theorem tabGet_blobRegionTab (b : List Byte) {i : Nat} (h : i < 64) :
    tabGet 0 (blobRegionTab b) i = BitVec.ofNat 64 (blobNat b (128 + 16 * i) 8) := by
  have hz : List.zip (rangeFrom 0 64) (blobRegions b) = (rangeFrom 0 64).map fun i => (i, blobNat b (128 + 16 * i) 8) := by
    simpa [blobRegions] using List.zip_map' (l := rangeFrom 0 64) (f := id) (g := fun i => blobNat b (128 + 16 * i) 8)
  rw [blobRegionTab, hz, List.foldl_map, tabGet_foldl_tabSet fun i => BitVec.ofNat 64 (blobNat b (128 + 16 * i) 8),
    if_pos (mem_rangeFrom_zero.2 h)]

theorem tabGet_blobBindTab (b : List Byte) {c : Nat} (h : c < 1024) :
    tabGet 0 (blobBindTab b) c = BitVec.ofNat 64 (blobNat b (1152 + 8 * c) 8) := by
  rw [blobBindTab, tabGet_foldl_tabSet fun c => BitVec.ofNat 64 (blobNat b (1152 + 8 * c) 8), if_pos (mem_rangeFrom_zero.2 h)]

/-! ### CONFIG_LOCK -/

theorem exec_configLock (s : State) : exec .configLock s = .next (configLock s) := rfl

theorem rungOn_congr {s t : State} (h : t.glb = s.glb) (r : RungScope) : rungOn t r = rungOn s r := by
  rw [rungOn, h, rungOn]

theorem rungOn_mailUp (s : State) : rungOn (mailUp s) .chip = false := by
  simp [rungOn, mailUp, dropRung]

theorem lockConfig_frame (s : State) (b : List Byte) : ∃ u, rungOn u .chip = false ∧ offLink (lockConfig s b) = offLink u ∧
    u.lnk.enable = BitVec.ofNat 32 (blobNat b 64 4) ∧ u.sec = { s.sec with
      meas := tabPut s.sec.meas 5 (sha512 b), boot := .locked, lock := true, cfgSeq := BitVec.ofNat 64 (blobSeq b)
      regions := blobRegionTab b, bind := blobBindTab b
      protDebug := BitVec.ofNat 8 (blobNat b 68 1), protIde := BitVec.ofNat 8 (blobNat b 69 1) } :=
by
  refine ⟨_, rungOn_mailUp _, offLink_offDisabled _, rfl, ?_⟩
  simp only [mailUp, dropRung, List.foldl_cons, List.foldl_nil, State.setPanel_sec, updSec, setMeas, blobRegionTab, blobBindTab]

theorem configLock_of_not_checking {s : State} (h : s.sec.boot ≠ .checking) : configLock s = s := by
  simp [configLock, h]

/-- CONFIG_LOCK notes which copy failed, and why. -/
def noteCopies (s : State) : State := updSec s fun x => { x with
  cfgReason := BitVec.ofNat 3 (if blobReason s (flashBlob s false) = 0 then blobReason s (flashBlob s true)
    else blobReason s (flashBlob s false))
  cfgFallback := (blobReason s (flashBlob s false) = 0) != (blobReason s (flashBlob s true) = 0) }

theorem noteCopies_cfgFallback (s : State) : (noteCopies s).sec.cfgFallback =
    ((blobReason s (flashBlob s false) = 0) != (blobReason s (flashBlob s true) = 0)) := by
  simp only [noteCopies, updSec]

theorem noteCopies_cfgReason {s : State} (h0 : blobReason s (flashBlob s false) ≠ 0) :
    (noteCopies s).sec.cfgReason = BitVec.ofNat 3 (blobReason s (flashBlob s false)) := by
  simp only [noteCopies, updSec, if_neg h0]

theorem noteCopies_lock (s : State) : (noteCopies s).sec.lock = s.sec.lock := by
  simp only [noteCopies, updSec]

theorem noteCopies_link (s : State) (l : Link) : (noteCopies s).link l = s.link l := by
  simp only [noteCopies, updSec, State.link]

theorem noteCopies_now (s : State) : (noteCopies s).now = s.now := by
  simp only [noteCopies, updSec, State.now]

section Checking

variable {s : State} (hg : s.pwr.pwrGood = true) (hb : s.sec.boot = .checking) (hl : s.sec.lock = false)
include hg hb hl

theorem configLock_of_checking : configLock s =
    if blobReason s (flashBlob s false) = 0 ∧
        (blobReason s (flashBlob s true) ≠ 0 ∨ blobSeq (flashBlob s true) ≤ blobSeq (flashBlob s false)) then
      lockConfig (noteCopies s) (flashBlob s false)
    else if blobReason s (flashBlob s true) = 0 then lockConfig (noteCopies s) (flashBlob s true)
    else refuseConfig (noteCopies s) := by
  rw [configLock, if_pos (by simp [hg, hb, hl])]
  rfl

/-- Of two copies that pass, the one of the greater sequence is locked; of one that passes, that one (R477). -/
theorem configLock_takes {k : Bool} (hk : blobReason s (flashBlob s k) = 0)
    (hone : k = true ↔ if blobReason s (flashBlob s false) = 0 then blobReason s (flashBlob s true) = 0 ∧
      blobSeq (flashBlob s false) < blobSeq (flashBlob s true) else True) :
    configLock s = lockConfig (noteCopies s) (flashBlob s k) := by
  rw [configLock_of_checking hg hb hl]
  cases k with
  | false =>
    rw [if_pos hk] at hone
    refine if_pos ⟨hk, or_iff_not_imp_left.2 fun h1 => ?_⟩
    exact not_lt.1 fun h => Bool.false_ne_true (hone.2 ⟨not_not.1 h1, h⟩)
  | true =>
    rw [if_neg, if_pos hk]
    rintro ⟨h0, h⟩
    rw [if_pos h0] at hone
    obtain ⟨h1, hlt⟩ := hone.1 rfl
    exact h.elim (absurd h1) hlt.not_ge

theorem configLock_refuses (h0 : blobReason s (flashBlob s false) ≠ 0) (h1 : blobReason s (flashBlob s true) ≠ 0) :
    configLock s = refuseConfig (noteCopies s) := by
  rw [configLock_of_checking hg hb hl, if_neg fun h => h0 h.1, if_neg h1]

end Checking

theorem offLink_refuseConfig (s : State) :
    offLink (refuseConfig s) = offLink (mailUp { s with sec := { s.sec with boot := .refused } }) :=
  offLink_foldl (fun s l => offLink_targetHold l s) _ _

/-- A refused configuration holds each link as LINK_TARGET_HOLD does. -/
theorem link_refuseConfig (s : State) (l : Link) :
    ∃ u, u.link l = s.link l ∧ u.now = s.now ∧ (refuseConfig s).link l = (targetHold l u).link l :=
  link_foldl_targetHold (List.nodup_finRange 32) (List.mem_finRange l) (mailUp { s with sec := { s.sec with boot := .refused } })

/-! ### BAR0 -/

theorem hostWrite_of_unlocked {s : State} (hu : hostUp s = true) (hl : s.sec.lock = false) (g : State → State) :
    hostWrite s g = { s with sec := { s.sec with lockViol := s.sec.lockViol + 1 } } := by simp [hostWrite, hu, hl]

theorem accErr_off (off : BitVec 22) (s : State) : accErr off.toNat s = { s with glb := { s.glb with
    accErr := if s.glb.accErr = 0xFFFFFFFF then 0xFFFFFFFF else s.glb.accErr + 1, accLast := off } } := by
  have hc : (if s.glb.accErr = 0xFFFFFFFF then s.glb.accErr else s.glb.accErr + 1) =
      if s.glb.accErr = 0xFFFFFFFF then 0xFFFFFFFF else s.glb.accErr + 1 := by
    split
    · assumption
    · rfl
  rw [accErr, hc, BitVec.ofNat_toNat, BitVec.setWidth_eq]

theorem coreFence_all {p : Panel} {v : W64} (h : v.extractLsb' 0 40 = BitVec.allOnes 40) (s : State) :
    coreFence p v s = accErr (0x20008 + 0x10000 * p.val) s := by
  rw [coreFence, if_pos h, Nat.add_right_comm]

theorem coreFence_some {p : Panel} {v : W64} (h : v.extractLsb' 0 40 ≠ BitVec.allOnes 40) (s : State) :
    coreFence p v s = s.setPanel p { s.panel p with fence := v.extractLsb' 0 40 } := by
  rw [coreFence, if_neg h]

theorem noteWindowRead_frame (off : Nat) (s : State) :
    (noteWindowRead off s).glb = s.glb ∧ (noteWindowRead off s).out = s.out := by
  unfold noteWindowRead
  split
  · split
    · unfold noteResetRead
      dsimp only
      split <;> exact ⟨rfl, rfl⟩
    · exact ⟨rfl, rfl⟩
  · exact ⟨rfl, rfl⟩

/-- The half of a word that a 4-byte read names. -/
theorem half_eq (w : W64) (i : Nat) : (w >>> (32 * i)) &&& 0xFFFFFFFF = (w.extractLsb' (32 * i) 32).setWidth 64 := by
  have h := Nat.and_two_pow_sub_one_eq_mod (w.toNat >>> (32 * i)) 32
  apply BitVec.eq_of_toNat_eq
  simp at h ⊢
  omega

theorem readValue_of_size_eight {a : Bar0Access} (h : a.size = 8) (s : State) :
    readValue a s = regRead (a.off.toNat / 8 * 8) s := by
  rw [readValue, if_pos h]

theorem readValue_of_size_ne {a : Bar0Access} (h : a.size ≠ 8) (h4 : a.off.toNat % 4 = 0) (s : State) : readValue a s =
    if a.off.toNat % 8 = 0 then ((regRead (a.off.toNat / 8 * 8) s).extractLsb' 0 32).setWidth 64
    else ((regRead (a.off.toNat / 8 * 8) s).extractLsb' 32 32).setWidth 64 := by
  rw [readValue, if_neg h, half_eq]
  split
  · rw [show a.off.toNat / 4 % 2 = 0 by omega]
  · rw [show a.off.toNat / 4 % 2 = 1 by omega]

theorem exec_bar0AccessRefused (a : Bar0Access) (s : State) : exec (.bar0AccessRefused a) s = .next (bar0Refused a s) := rfl

section Access

variable {a : Bar0Access} {s : State} (hu : hostUp s = true)
include hu

theorem bar0Refused_write_ok (hok : accessOk a = true) (hw : a.write = true) : bar0Refused a s = s := by
  simp [bar0Refused, hu, hok, hw]

theorem bar0Refused_read_ok (hok : accessOk a = true) (hw : a.write = false) :
    bar0Refused a s = (noteWindowRead a.off.toNat s).emit (.bar0 (readValue a s)) := by
  simp [bar0Refused, hu, hok, hw]

theorem bar0Refused_write_bad (hok : accessOk a = false) (hw : a.write = true) (hl : s.sec.lock = true) :
    bar0Refused a s = accErr a.off.toNat s := by
  simp [bar0Refused, hu, hok, hw, hostWrite_of_locked hu hl]

theorem bar0Refused_read_bad (hok : accessOk a = false) (hw : a.write = false) :
    bar0Refused a s = (accErr a.off.toNat s).emit (.bar0 0) := by
  simp [bar0Refused, hu, hok, hw]

end Access

/-! ### The clauses of O55 -/

theorem plinthBoot_runs {s : State} (hg : s.pwr.pwrGood = true) (hb : s.sec.boot = .reset) :
    (selInForce s = none → exec .plinthBoot s = .next (bootSlots (writeSel s false false false) false true false)) ∧
    ∀ c x, selInForce s = some (c, x) → exec .plinthBoot s = .next
      (if x.try_ then if x.attempted then bootSlots (writeSel s (!x.active) false false) (!x.active) false false
        else bootSlots (writeSel s x.active true true) x.active false true
      else bootSlots s x.active false false) :=
  ⟨fun h => by rw [exec_plinthBoot, plinthBoot_noSelector hg hb h],
    fun _ _ h => by rw [exec_plinthBoot, plinthBoot_selector hg hb h]⟩

theorem registerWrite_locked {s : State} (hu : hostUp s = true) (hl : s.sec.lock = true) (off : BitVec 22) (v : W64) :
    exec (.registerWrite off v) s = .next (if off.toNat % 8 = 0 then regWrite off.toNat v s
      else { s with glb := { s.glb with
        accErr := if s.glb.accErr = 0xFFFFFFFF then 0xFFFFFFFF else s.glb.accErr + 1, accLast := off } }) := by
  rw [exec_registerWrite, hostWrite_of_locked hu hl, registerWrite, accErr_off]

theorem exec_coreFenceWrite {s : State} (hu : hostUp s = true) (hl : s.sec.lock = true) (p : Panel) (v : W64) :
    exec (.coreFenceWrite p v) s = .next (coreFence p v s) :=
  congrArg _ (hostWrite_of_locked hu hl _)

/-- What a copy that is taken locks. -/
theorem lockConfig_locks (s : State) (b : List Byte) : let t := lockConfig s b
    t.sec.lock = true ∧ t.sec.boot = .locked ∧ t.sec.cfgSeq = BitVec.ofNat 64 (blobSeq b) ∧
      t.sec.cfgFallback = s.sec.cfgFallback ∧ t.sec.protDebug = BitVec.ofNat 8 (blobNat b 68 1) ∧
      t.sec.protIde = BitVec.ofNat 8 (blobNat b 69 1) ∧ t.lnk.enable = BitVec.ofNat 32 (blobNat b 64 4) ∧
      (∀ i, i < 64 → tabGet 0 t.sec.regions i = BitVec.ofNat 64 (blobNat b (128 + 16 * i) 8)) ∧
      (∀ c, c < 1024 → tabGet 0 t.sec.bind c = BitVec.ofNat 64 (blobNat b (1152 + 8 * c) 8)) ∧ rungOn t .chip = false := by
  obtain ⟨u, hr, ho, he, hsec⟩ := lockConfig_frame s b
  obtain ⟨ht, hglb, hen, -⟩ := offLink_eq_iff.1 ho
  dsimp only
  rw [ht, hsec, hen, he, rungOn_congr hglb, hr]
  dsimp only
  exact ⟨rfl, rfl, rfl, rfl, rfl, rfl, rfl, fun i hi => tabGet_blobRegionTab b hi, fun c hc => tabGet_blobBindTab b hc, rfl⟩

/-- What a refused configuration leaves: no lock, the mailbox up, every link held or on its way to HOLD. -/
theorem refuseConfig_holds (s : State) : let t := refuseConfig s
    t.sec = { s.sec with boot := .refused } ∧ rungOn t .chip = false ∧
      ∀ l, (t.link l).target = 1 ∧ ((s.link l).phase = .off ∨ (s.link l).phase = .down →
        (t.link l).phase = .detect ∧ (t.link l).step = 1 ∧ (t.link l).stepAt = s.now) := by
  obtain ⟨ht, hglb, -, -⟩ := offLink_eq_iff.1 (offLink_refuseConfig s)
  refine ⟨ht, (rungOn_congr hglb .chip).trans (rungOn_mailUp _), fun l => ?_⟩
  obtain ⟨u, hlink, hnow, hl⟩ := link_refuseConfig s l
  rw [hl]
  refine ⟨target_targetHold l u, fun hp => ?_⟩
  rw [targetHold_of_down (hlink ▸ hp), State.setLink_link_same, hnow]
  exact ⟨rfl, rfl, rfl⟩

/-- A read that is supported is answered with its register's word, or the half of it that is named. -/
theorem bar0Refused_reads {a : Bar0Access} {s : State} (hu : hostUp s = true) (hok : accessOk a = true) (hw : a.write = false) :
    let word := regRead (a.off.toNat / 8 * 8) s
    (bar0Refused a s).glb = s.glb ∧ (bar0Refused a s).out = s.out ++ [.bar0 (if a.size = 8 then word
      else if a.off.toNat % 8 = 0 then (word.extractLsb' 0 32).setWidth 64 else (word.extractLsb' 32 32).setWidth 64)] := by
  obtain ⟨hglb, hout⟩ := noteWindowRead_frame a.off.toNat s
  have hread : readValue a s = if a.size = 8 then regRead (a.off.toNat / 8 * 8) s
      else if a.off.toNat % 8 = 0 then ((regRead (a.off.toNat / 8 * 8) s).extractLsb' 0 32).setWidth 64
      else ((regRead (a.off.toNat / 8 * 8) s).extractLsb' 32 32).setWidth 64 := by
    split
    · next h => exact readValue_of_size_eight h s
    · next h =>
      refine readValue_of_size_ne h ?_ s
      simp [accessOk, h, hw] at hok
      exact hok.2
  rw [bar0Refused_read_ok hu hok hw, hread]
  exact ⟨hglb, congrArg (· ++ _) hout⟩

/-- An access that is not supported is counted; a read of the kind returns 0. -/
theorem bar0Refused_counts {a : Bar0Access} {s : State} (hu : hostUp s = true) (hok : accessOk a = false)
    (hw : a.write = false ∨ s.sec.lock = true) : let t := bar0Refused a s
    t.glb.accLast = a.off ∧ (s.glb.accErr ≠ 0xFFFFFFFF → t.glb.accErr = s.glb.accErr + 1) ∧
      (a.write = false → t.out = s.out ++ [.bar0 0]) ∧ (a.write = true → t.out = s.out) := by
  dsimp only
  cases hwr : a.write with
  | false =>
    rw [bar0Refused_read_bad hu hok hwr, accErr_off]
    exact ⟨rfl, fun h => if_neg h, fun _ => rfl, nofun⟩
  | true =>
    rw [bar0Refused_write_bad hu hok hwr (by simpa [hwr] using hw), accErr_off]
    exact ⟨rfl, fun h => if_neg h, nofun, fun _ => rfl⟩

/-- Settles O55: the boot by `plinthBoot_runs` and `runSlot_sec`, the lock by `lockConfig_locks` and `refuseConfig_holds`, BAR0 by
`registerWrite_locked`, `bar0Refused_reads` and `bar0Refused_counts`. -/
theorem bootAndRegisters : Obligations.BootAndRegisters := by
  unfold Obligations.BootAndRegisters
  intro s hg boots
  refine ⟨fun hb => ?_, plinthBoot_runs hg, fun b fb tr => ?_, fun hb hl => ⟨?_, ?_⟩, fun hb => ?_,
    fun off v hu => ⟨fun hl => ?_, fun hl => registerWrite_locked hu hl off v⟩,
    fun p v hu hl => ⟨fun hf => ?_, fun hf => ?_⟩, fun a hu => ⟨fun hok hw => ?_, fun hok hw => ?_, fun hok hw => ?_⟩⟩
  · rw [exec_plinthBoot, plinthBoot_of_not_reset hb]
  · obtain ⟨m, x, h⟩ := runSlot_sec s b fb tr
    dsimp only
    rw [h]
    exact ⟨rfl, rfl, rfl, rfl, rfl⟩
  · intro k hk hone
    refine ⟨_, exec_configLock s, ?_⟩
    rw [configLock_takes hg hb hl hk hone, ← noteCopies_cfgFallback]
    exact lockConfig_locks (noteCopies s) _
  · intro h0 h1
    obtain ⟨hsec, hrung, hlinks⟩ := refuseConfig_holds (noteCopies s)
    refine ⟨_, exec_configLock s, ?_⟩
    rw [configLock_refuses hg hb hl h0 h1, hsec]
    simp only [noteCopies_link, noteCopies_now] at hlinks
    dsimp only
    exact ⟨(noteCopies_lock s).trans hl, rfl, noteCopies_cfgReason h0, hrung, hlinks⟩
  · rw [exec_configLock, configLock_of_not_checking hb]
  · rw [exec_registerWrite, hostWrite_of_unlocked hu hl]
  · rw [exec_coreFenceWrite hu hl, coreFence_some hf]
  · exact ⟨_, (exec_coreFenceWrite hu hl p v).trans (congrArg _ (coreFence_all hf s)), rfl, rfl⟩
  · rw [exec_bar0AccessRefused, bar0Refused_write_ok hu hok hw]
  · exact ⟨_, exec_bar0AccessRefused a s, bar0Refused_reads hu hok hw⟩
  · exact ⟨_, exec_bar0AccessRefused a s, bar0Refused_counts hu hok hw⟩

end Sys2Proof.Machine

end

section

/-! SUPPORT. Launches and their comparators (R32, R33): when a launch is armed, and what becomes of one that is missed. -/

namespace Sys2Proof.Machine

open Sys2Proof

/-- Where ALIGNED stands as it would be judged, judging it changes nothing. -/
theorem checkAligned_of_judged {s : State} (h : s.gau.aligned = alignedNow s) : checkAligned s = s := by
  have hs : updGau s (fun g => { g with aligned := alignedNow s }) = s := by rw [← h]; rfl
  unfold checkAligned
  dsimp only
  rw [h, Bool.and_not_self]
  exact hs

theorem armable_iff {s : State} {m : Nat} : armable s m = true ↔ alignedNow s = true ∧ s.gau.count.toNat + 1563 ≤ m := by
  simp [armable]

/-- A launch that can be armed goes into the next comparator of the panel. -/
theorem armOn_takes {s : State} {p : Panel} {a : LaunchId} {m : Nat} (hm : armable s m = true)
    (hp : (s.panel p).comparators.length < 16) (ha : findArmed s a = none) :
    armOn s p a m = (s.setPanel p { s.panel p with
      comparators := (s.panel p).comparators ++ [⟨a, BitVec.ofNat 64 m⟩] }, true) := by
  simp [armOn, hm, hp, ha]

theorem armOn_refuses {s : State} {p : Panel} {a : LaunchId} {m : Nat}
    (h : armable s m = false ∨ 16 ≤ (s.panel p).comparators.length ∨ (findArmed s a).isSome = true) :
    armOn s p a m = (s, false) := by
  have : ¬ (armable s m && decide ((s.panel p).comparators.length < 16) && (findArmed s a).isNone) = true := by
    rcases h with h | h | h
    · simp [h]
    · simp [Nat.not_lt.2 h]
    · simp [Option.isSome_iff_ne_none.1 h]
  simp [armOn, this]

/-- What a launch of descriptor d that is missed comes to, by its kind (R33). -/
def missLaunch (s : State) (a : LaunchId) (d : DescId) : State :=
  match a with
  | .coll _ | .watchColl _ | .vote _ => match launchColl s a with
    | some (q, x) => missColl s q x
    | none => s
  | .commit j => missCommit s j
  | .snapshot j => missPoint s j
  | .routeEpoch j => match (s.job j).change with
    | some c => if c.desc = d then missEpoch s j c else s
    | none => s
  | .drill => s

theorem exec_comparatorArm (p : Panel) (a : LaunchId) (s : State) :
    exec (.comparatorArm p a) s = .next (comparatorArm p a s) := rfl

theorem exec_launchMissed (a : LaunchId) (s : State) : exec (.launchMissed a) s = .next (launchMissed a s) := rfl

section

variable {s : State} {a : LaunchId} {m : Nat} {d : DescId} (hl : launchMark s a = some (m, d))
include hl

/-- COMPARATOR_ARM in a state whose ALIGNED stands as judged: what armOn does, on a panel and among schedules where it may. -/
theorem comparatorArm_of_mark (p : Panel) (hj : s.gau.aligned = alignedNow s) : comparatorArm p a s =
    if (chipOnly a && decide (p ≠ 0)) || ((launchColl s a).isSome && decide (16 ≤ collsActive s)) then s
    else if (armOn s p (launchName s a) m).2 then updDesc (armOn s p (launchName s a) m).1 d fun x => { x with armed := true }
    else (armOn s p (launchName s a) m).1 := by
  unfold comparatorArm
  rw [hl, checkAligned_of_judged hj]

theorem comparatorArm_arms {p : Panel} (hchip : chipOnly a = true → p = 0) (hj : s.gau.aligned = alignedNow s)
    (hm : armable s m = true) (hc : (launchColl s a).isSome = true → collsActive s < 16)
    (hp : (s.panel p).comparators.length < 16) (ha : findArmed s (launchName s a) = none) :
    comparatorArm p a s = updDesc (s.setPanel p { s.panel p with
      comparators := (s.panel p).comparators ++ [⟨launchName s a, BitVec.ofNat 64 m⟩] }) d fun x => { x with armed := true } := by
  have hgo : ¬ ((chipOnly a && decide (p ≠ 0)) || ((launchColl s a).isSome && decide (16 ≤ collsActive s))) = true := by
    simpa using ⟨hchip, hc⟩
  rw [comparatorArm_of_mark hl p hj, if_neg hgo, armOn_takes hm hp ha]
  rfl

theorem comparatorArm_refuses {p : Panel} (hj : s.gau.aligned = alignedNow s)
    (h : (chipOnly a = true ∧ p ≠ 0) ∨ armable s m = false ∨ 16 ≤ (s.panel p).comparators.length ∨
      (findArmed s (launchName s a)).isSome = true) : comparatorArm p a s = s := by
  rw [comparatorArm_of_mark hl p hj]
  split
  · rfl
  · next hgo =>
    have hno : ¬ (chipOnly a = true ∧ p ≠ 0) := fun hc => hgo (by simp [hc.1, hc.2])
    rw [armOn_refuses (h.resolve_left hno)]
    rfl

/-- A launch that is armed, or can still be, is not missed. -/
theorem launchMissed_early (h : (findArmed s (launchName s a)).isSome = true ∨ armable s m = true) : launchMissed a s = s := by
  have : ((findArmed s (launchName s a)).isSome || armable s m) = true := by simpa using h
  unfold launchMissed
  rw [hl]
  simp [this]

theorem launchMissed_late (ha : findArmed s (launchName s a) = none) (hm : armable s m = false) :
    launchMissed a s = missLaunch s a d := by
  unfold launchMissed missLaunch
  rw [hl]
  simp only [ha, hm, Option.isSome_none, Bool.or_self, Bool.false_eq_true, if_false] <;> cases a <;> rfl

end

/-- A launch whose mark stands with its schedule has its schedule. -/
theorem launchColl_of_mark {s : State} {a : LaunchId} {m : Nat} {d : DescId}
    (hl : (match launchColl s a with
      | some (d, x) => if !x.fired && !x.missed && decide (collLaunch s d x = launchName s a) then some (x.base.toNat, d) else none
      | none => none) = some (m, d)) : ∃ q x, launchColl s a = some (q, x) := by
  split at hl
  · exact ⟨_, _, by assumption⟩
  · simp at hl

/-- A missed launch of a schedule misses the schedule. -/
theorem missLaunch_schedule {s : State} {a : LaunchId} {d q : DescId} {x : CollState} (h : launchColl s a = some (q, x)) :
    missLaunch s a d = missColl s q x := by
  cases a with
  | coll _ => simp [missLaunch, h]
  | watchColl _ => simp [missLaunch, h]
  | vote _ => simp [missLaunch, h]
  | commit _ => cases h
  | snapshot _ => cases h
  | routeEpoch _ => cases h
  | drill => cases h

/-- A launch of a route epoch is that of the job's change, at the change's mark. -/
theorem missLaunch_routeEpoch {s : State} {j : Job} {m : Nat} {d : DescId} (hl : launchMark s (.routeEpoch j) = some (m, d)) :
    ∃ c, (s.job j).change = some c ∧ m = c.mark.toNat ∧ missLaunch s (.routeEpoch j) d = missEpoch s j c := by
  unfold launchMark at hl
  dsimp only at hl
  cases h : (s.job j).change with
  | none => simp [h] at hl
  | some c =>
    simp only [h] at hl
    split at hl
    · obtain ⟨rfl, rfl⟩ : c.mark.toNat = m ∧ c.desc = d := by simpa using hl
      exact ⟨c, rfl, rfl, by simp [missLaunch, h]⟩
    · simp at hl

/-- Settles O28: a launch is armed while it stands 1,563 ticks ahead and a comparator is free for it, and is missed by its kind once
it cannot be armed any more. -/
theorem launchesArmOrAreMissed : Obligations.LaunchesArmOrAreMissed := by
  unfold Obligations.LaunchesArmOrAreMissed
  intro s a m d hl
  refine ⟨?_, ?_, ?_, ?_⟩
  · intro p hchip hal hnow hm hc hp ha
    rw [exec_comparatorArm, comparatorArm_arms hl hchip (hal.trans hnow.symm) (armable_iff.2 ⟨hnow, hm⟩) hc hp ha]
  · intro ha hm
    have hgo := launchMissed_late hl ha (Bool.eq_false_iff.2 fun h => hm (armable_iff.1 h))
    cases a with
    | coll q =>
      obtain ⟨q, x, hq⟩ := launchColl_of_mark hl
      exact ⟨q, x, hq, by rw [exec_launchMissed, hgo, missLaunch_schedule hq]⟩
    | watchColl j =>
      obtain ⟨q, x, hq⟩ := launchColl_of_mark hl
      exact ⟨q, x, hq, by rw [exec_launchMissed, hgo, missLaunch_schedule hq]⟩
    | vote j =>
      obtain ⟨q, x, hq⟩ := launchColl_of_mark hl
      exact ⟨q, x, hq, by rw [exec_launchMissed, hgo, missLaunch_schedule hq]⟩
    | commit j => rw [exec_launchMissed, hgo]; rfl
    | snapshot j => rw [exec_launchMissed, hgo]; rfl
    | routeEpoch j =>
      obtain ⟨c, hc, hmark, hmiss⟩ := missLaunch_routeEpoch hl
      exact ⟨c, hc, hmark, by rw [exec_launchMissed, hgo, hmiss]⟩
    | drill => simp [launchMark] at hl
  · intro h
    rw [exec_launchMissed, launchMissed_early hl (h.imp_right armable_iff.2)]
  · intro p hj h
    have hno : alignedNow s = false ∨ m < s.gau.count.toNat + 1563 → armable s m = false := by
      rintro (h | h) <;> simp [armable, h]
    rw [exec_comparatorArm, comparatorArm_refuses hl hj (by tauto)]

end Sys2Proof.Machine

end

section

/-! SUPPORT. The bench controllers' clocks and watchdogs (R35, R37, R441, R455): each command's effect, case by case. -/

namespace Sys2Proof.Machine

open Sys2Proof

theorem benchUp_iff {s : State} : benchUp s = true ↔ s.pwr.pwrGood = true ∧ s.sec.lock = true := by simp [benchUp]

/-- The thousandths of a cycle in a tick at each point (R455). -/
theorem pointMilli_eq (c : Fin 5) : pointMilli c = [14400, 12800, 10816, 8960, 7200].getD c.val 0 := by
  revert c; decide

/-! ### Clock changes -/

theorem exec_clockChangeRequest {s : State} (hb : benchUp s = true) (p : Panel) (c m : Fin 5) :
    exec (.clockChangeRequest p c m) s = .next (requestClock s p (max c (pointsOf s p).1, max m (pointsOf s p).2)) := by
  change Host.Outcome.next (ite _ _ _) = _
  rw [if_pos hb]

section

variable {s : State} {p : Panel} (w : Fin 5 × Fin 5)

theorem requestClock_held {y : Fin 5 × Fin 5} (h : (s.panel p).stall = some y) :
    requestClock s p w = s.setPanel p { s.panel p with held := some w } := by
  simp [requestClock, h]

theorem requestClock_stalls (h : (s.panel p).stall = none) (hw : w ≠ ((s.panel p).coreOp, (s.panel p).matrixOp)) :
    requestClock s p w = s.setPanel p { s.panel p with stall := some w } := by
  simp [requestClock, h, hw]

theorem requestClock_in_force (h : (s.panel p).stall = none) (hw : w = ((s.panel p).coreOp, (s.panel p).matrixOp)) :
    requestClock s p w = s := by
  simp [requestClock, h, hw]

theorem clockStallEnd_running (h : (s.panel p).stall = none) : clockStallEnd p s = s := by
  simp [clockStallEnd, h]

/-- The panel with its cycles counted and the points w in force. -/
def atPoints (s : State) (x : PanelState) (w : Fin 5 × Fin 5) : PanelState :=
  { countCycles s x with coreOp := w.1, matrixOp := w.2, stall := none, held := none }

theorem clockStallEnd_settles {w : Fin 5 × Fin 5} (h : (s.panel p).stall = some w)
    (hh : (s.panel p).held = none ∨ (s.panel p).held = some w) :
    clockStallEnd p s = restartPanel (s.setPanel p (atPoints s (s.panel p) w)) p := by
  have hin : requestClock (s.setPanel p (atPoints s (s.panel p) w)) p w = s.setPanel p (atPoints s (s.panel p) w) :=
    requestClock_in_force w (by simp [atPoints]) (by simp [atPoints])
  unfold clockStallEnd
  rcases hh with hh | hh
  · simp only [h, hh]; rfl
  · simp only [h, hh]; exact congrArg (restartPanel · p) hin

/-- A held change to other points stalls issue anew. -/
theorem clockStallEnd_stalls_again {w v : Fin 5 × Fin 5} (h : (s.panel p).stall = some w)
    (hh : (s.panel p).held = some v) (hne : v ≠ w) :
    clockStallEnd p s = restartPanel (s.setPanel p { atPoints s (s.panel p) w with stall := some v }) p := by
  have hgo : requestClock (s.setPanel p (atPoints s (s.panel p) w)) p v =
      s.setPanel p { atPoints s (s.panel p) w with stall := some v } := by
    rw [requestClock_stalls v (by simp [atPoints]) (by simpa [atPoints] using hne)]
    simp
  unfold clockStallEnd
  simp only [h, hh]
  exact congrArg (restartPanel · p) hgo

end

theorem exec_clockStallEnd {s : State} (hb : benchUp s = true) (p : Panel) :
    exec (.clockStallEnd p) s = .next (clockStallEnd p s) := by
  change Host.Outcome.next (ite _ _ _) = _
  rw [if_pos hb]

theorem exec_clockStallEnd_running {s : State} {p : Panel} (h : (s.panel p).stall = none) :
    exec (.clockStallEnd p) s = .next s := by
  change Host.Outcome.next (ite _ _ _) = _
  rw [clockStallEnd_running h, ite_self]

/-! ### Watchdogs -/

theorem wdogDue_iff {s : State} {p : Panel} :
    wdogDue s p = true ↔ benchUp s = true ∧ (s.panel p).wdog + 1562500 ≤ s.now := by
  unfold wdogDue elapsed
  rw [Bool.and_eq_true, decide_eq_true_iff]
  rfl

theorem exec_wdogPanel (p : Panel) (s : State) : exec (.wdogPanel p) s = .next (wdogPanel p s) := rfl

theorem exec_wdogChip (s : State) : exec .wdogChip s = .next (wdogChip s) := rfl

theorem wdogPanel_idle {p : Panel} {s : State} (h : p = 0 ∨ ¬ wdogDue s p = true) : wdogPanel p s = s :=
  if_neg fun hgo => h.elim hgo.1 fun hn => hn hgo.2

theorem wdogPanel_due {p : Panel} {s : State} (hp : p ≠ 0) (h : wdogDue s p = true) :
    wdogPanel p s =
      if rungOn (raiseEv (s.setPanel p { s.panel p with wdog := s.now }) evWdogPanel (srcBench p) [p.val]) (.panel p) then
        panelToChip p evWdogPanel (srcBench p) (raiseEv (s.setPanel p { s.panel p with wdog := s.now }) evWdogPanel (srcBench p) [p.val])
      else startPanel p evWdogPanel (srcBench p) (raiseEv (s.setPanel p { s.panel p with wdog := s.now }) evWdogPanel (srcBench p) [p.val]) :=
  if_pos ⟨hp, h⟩

theorem wdogChip_idle {s : State} (h : ¬ wdogDue s 0 = true) : wdogChip s = s := if_neg h

theorem wdogChip_due {s : State} (h : wdogDue s 0 = true) : wdogChip s = startChip evWdogChip srcSecurity
    (raiseI3c (s.setPanel 0 { s.panel 0 with wdog := s.now }) evWdogChip [0]) := if_pos h

/-- Before LOCK, and without power, no bench controller acts (log entry 120). -/
theorem bench_commands_idle {s : State} (hb : ¬ benchUp s = true) (p : Panel) :
    (∀ c m, exec (.clockChangeRequest p c m) s = .next s) ∧ exec (.clockStallEnd p) s = .next s ∧
      exec (.watchdogRestart p) s = .next s ∧ exec (.wdogPanel p) s = .next s ∧ exec .wdogChip s = .next s := by
  have hdue : ∀ q, ¬ wdogDue s q = true := fun q h => hb (wdogDue_iff.1 h).1
  refine ⟨fun c m => ?_, ?_, ?_, ?_, ?_⟩
  · change Host.Outcome.next (ite _ _ _) = _
    rw [if_neg hb]
  · change Host.Outcome.next (ite _ _ _) = _
    rw [if_neg hb]
  · change Host.Outcome.next (ite _ _ _) = _
    rw [if_neg hb]
  · rw [exec_wdogPanel, wdogPanel_idle (.inr (hdue p))]
  · rw [exec_wdogChip, wdogChip_idle (hdue 0)]

/-- Settles O27, command by command. -/
theorem panelClocksAndWatchdogs : Obligations.PanelClocksAndWatchdogs := by
  unfold Obligations.PanelClocksAndWatchdogs
  intro s p
  refine ⟨?_, exec_clockStallEnd_running, ?_, ?_, ?_, ?_, ?_, ?_, fun _ _ => rfl, benchUp_iff, ?_⟩
  · intro c m hb
    simp only [exec_clockChangeRequest hb]
    exact ⟨fun y h => congrArg _ (requestClock_held _ h), fun h hw => congrArg _ (requestClock_stalls _ h hw),
      fun h hw => congrArg _ (requestClock_in_force _ h hw)⟩
  · intro w h hb
    simp only [exec_clockStallEnd hb, ← pointMilli_eq]
    exact ⟨fun hh => congrArg _ (clockStallEnd_settles h hh), fun v hh hne => congrArg _ (clockStallEnd_stalls_again h hh hne)⟩
  · intro hb
    change Host.Outcome.next (ite _ _ _) = _
    rw [if_pos hb]
  · rintro u rfl hb hd hp
    rw [exec_wdogPanel, wdogPanel_due hp (wdogDue_iff.2 ⟨hb, hd⟩)]
    exact ⟨fun h => by rw [h]; rfl, fun h => by rw [if_pos h]⟩
  · rw [exec_wdogPanel, wdogPanel_idle (.inl rfl)]
  · intro hearly
    have hno : ¬ wdogDue s p = true := fun h => absurd (wdogDue_iff.1 h).2 (Nat.not_le.2 hearly)
    refine ⟨by rw [exec_wdogPanel, wdogPanel_idle (.inr hno)], ?_⟩
    rintro rfl
    rw [exec_wdogChip, wdogChip_idle hno]
  · intro hb hd
    rw [exec_wdogChip, wdogChip_due (wdogDue_iff.2 ⟨hb, hd⟩)]
  · intro hb
    exact bench_commands_idle (Bool.eq_false_iff.1 hb) p

end Sys2Proof.Machine

end

section

/-! SUPPORT. Packets at a link and at an exit (R335 to R337): what an arriving packet meets, the order in which an exit serves its
candidates, and the end of reservations. -/

namespace Sys2Proof.Machine

open Sys2Proof

/-! ### Arrival -/

@[simp] theorem placeThrough_nil (s : State) (r : Ring) : placeThrough s r [] = s := rfl

/-- A frame of one packet. -/
theorem frameArrives_one (s : State) (l : Link) (p : Packet) : frameArrives s l [p] =
    placeThrough (arrive (arrivingRing l) (s, []) p).1 (arrivingRing l) (arrive (arrivingRing l) (s, []) p).2 := rfl

section

variable {s : State} {r : Ring} {p : Packet}

theorem arrive_hcrcBad (h : hcrcOk p.hdr = false) : arrive r (s, []) p =
    (updDie s (ringDie r) fun x => { x with hcrcDiscard := x.hcrcDiscard + 1 }, []) := by
  simp [arrive, h]

theorem arrive_epochBad (h : hcrcOk p.hdr = true) (he : epochOk s p.hdr = false) : arrive r (s, []) p =
    (updDie s (ringDie r) fun x => { x with epochDiscard := x.epochDiscard + 1 }, []) := by
  simp [arrive, h, he]

/-- An accepted packet with its hop counted. -/
def hopped (p : Packet) : Packet := rewrite p fun h => { h with hopsLeft := h.hopsLeft - 1 }

theorem arrive_through (h : hcrcOk p.hdr = true) (he : epochOk s p.hdr = true) (hh : (hopped p).hdr.hopsLeft ≠ 0) :
    arrive r (s, []) p = (s, [hopped p]) := by
  unfold arrive
  simp only [h, he, Bool.not_true, Bool.false_eq_true, if_false]
  exact if_pos hh

theorem arrive_exit (h : hcrcOk p.hdr = true) (he : epochOk s p.hdr = true) (hh : (hopped p).hdr.hopsLeft = 0) :
    arrive r (s, []) p =
      (if exitBroken s (exitOf r (hopped p).hdr) || exitLenZero s (hopped p).hdr (exitOf r (hopped p).hdr) then countBroken (ringDie r) 1 s
        else addCand s (exitOf r (hopped p).hdr) ⟨hopped p, some r, s.now⟩, []) := by
  unfold arrive
  simp only [h, he, Bool.not_true, Bool.false_eq_true, if_false]
  exact (if_neg fun hn => hn hh).trans (apply_ite (fun u => (u, ([] : List Packet))) _ _ _).symm

end

/-! ### The order of R336 -/

/-- keyLt is the lexicographic order. -/
theorem keyLt_iff : ∀ a b : List Nat, keyLt a b = true ↔ a < b
  | [], [] => by simp [keyLt]
  | [], _ :: _ => by simp [keyLt]
  | _ :: _, [] => by simp [keyLt]
  | x :: a, y :: b => by simp [keyLt, List.cons_lt_cons_iff, keyLt_iff a b]

section

variable (k : Cand → List Nat)

theorem insertCand_perm (c : Cand) : ∀ l : List Cand, (insertCand k c l).Perm (c :: l)
  | [] => List.Perm.refl _
  | x :: t => by
    unfold insertCand
    split
    · exact List.Perm.refl _
    · exact ((insertCand_perm c t).cons x).trans (List.Perm.swap c x t)

/-- Inserting a candidate keeps a list in ascending order of the keys. -/
theorem insertCand_sorted (c : Cand) : ∀ {l : List Cand}, l.Pairwise (fun a b => k a ≤ k b) →
    (insertCand k c l).Pairwise (fun a b => k a ≤ k b)
  | [], _ => List.pairwise_singleton _ _
  | x :: t, h => by
    obtain ⟨hx, ht⟩ := List.pairwise_cons.1 h
    unfold insertCand
    split
    · next hc =>
      have hcx : k c ≤ k x := le_of_lt ((keyLt_iff _ _).1 hc)
      exact List.pairwise_cons.2 ⟨fun y hy => (List.mem_cons.1 hy).elim (fun e => e ▸ hcx) fun hm => hcx.trans (hx y hm), h⟩
    · next hc =>
      have hxc : k x ≤ k c := le_of_not_gt fun hlt => hc ((keyLt_iff _ _).2 hlt)
      refine List.pairwise_cons.2 ⟨fun y hy => ?_, insertCand_sorted c ht⟩
      exact (List.mem_cons.1 ((insertCand_perm k c t).mem_iff.1 hy)).elim (fun e => e ▸ hxc) (hx y)

theorem foldl_insertCand (l : List Cand) : ∀ acc : List Cand, acc.Pairwise (fun a b => k a ≤ k b) →
    (l.foldl (fun acc c => insertCand k c acc) acc).Perm (l ++ acc) ∧
      (l.foldl (fun acc c => insertCand k c acc) acc).Pairwise (fun a b => k a ≤ k b) := by
  induction l with
  | nil => exact fun acc h => ⟨List.Perm.refl _, h⟩
  | cons c t ih =>
    intro acc h
    obtain ⟨hp, hs⟩ := ih _ (insertCand_sorted k c h)
    exact ⟨hp.trans (((insertCand_perm k c acc).append_left t).trans List.perm_middle), hs⟩

theorem sortCands_perm (l : List Cand) : (sortCands k l).Perm l := by
  have h := (foldl_insertCand k l [] List.Pairwise.nil).1
  rwa [List.append_nil] at h

theorem sortCands_sorted (l : List Cand) : (sortCands k l).Pairwise (fun a b => k a ≤ k b) :=
  (foldl_insertCand k l [] List.Pairwise.nil).2

end

/-! The parts of a candidate's rank (R336). -/

/-- A reservation at the exit is the candidate's. -/
def hasRsv (s : State) (e : Exit) (c : Cand) : Bool := (exitRsv s e).any (rsvMatches c.packet.hdr)

def candAge (s : State) (c : Cand) : Nat := (BitVec.ofNat 32 s.gau.count.toNat - c.packet.hdr.injTick).toNat

def candNum (c : Cand) : Nat :=
  ((c.packet.hdr.job.toNat * 2 ^ 16 + c.packet.hdr.srcRank.toNat) * 2 ^ 32 + c.packet.hdr.msgId.toNat) * 2 ^ 32
    + c.packet.hdr.offset.toNat

def candRing (c : Cand) : Nat := (c.ring.map fun r => r.val).getD 32

section

variable {s : State} {e : Exit} {c : Cand}

theorem candKey_holder (h : hasRsv s e c = true) : candKey s e c = [0] := if_pos h

theorem candKey_senior (h : hasRsv s e c = false) (hs : c.packet.hdr.senior = true) : candKey s e c =
    [1, 2 ^ 32 - candAge s c, c.packet.hdr.job.toNat, c.packet.hdr.srcRank.toNat, c.packet.hdr.msgId.toNat, c.packet.hdr.offset.toNat] :=
  (if_neg (Bool.eq_false_iff.1 h)).trans (if_pos hs)

theorem candKey_other (h : hasRsv s e c = false) (hs : c.packet.hdr.senior = false) :
    candKey s e c = [2, c.arrived, candRing c] := by
  have hr : candRing c = match c.ring with
      | some r => r.val
      | none => 32 := by
    unfold candRing
    cases c.ring <;> rfl
  rw [hr]
  exact (if_neg (Bool.eq_false_iff.1 h)).trans (if_neg (Bool.eq_false_iff.1 hs))

end

/-- Of two seniors the older comes first, and of one age the one of the smaller number. -/
theorem senior_order {s : State} {e : Exit} {a b : Cand} (ha : hasRsv s e a = false) (hb : hasRsv s e b = false)
    (hsa : a.packet.hdr.senior = true) (hsb : b.packet.hdr.senior = true) (h : candKey s e a ≤ candKey s e b) :
    candAge s b < candAge s a ∨ (candAge s b = candAge s a ∧ candNum a ≤ candNum b) := by
  rw [candKey_senior ha hsa, candKey_senior hb hsb] at h
  have hlt := not_lt_of_ge h
  simp only [List.cons_lt_cons_iff, and_false, or_false, lt_irrefl, true_and, false_or] at hlt
  have h1 : candAge s a < 2 ^ 32 := BitVec.isLt _
  have h2 : candAge s b < 2 ^ 32 := BitVec.isLt _
  have h3 := a.packet.hdr.srcRank.isLt
  have h4 := a.packet.hdr.msgId.isLt
  have h5 := a.packet.hdr.offset.isLt
  have h6 := b.packet.hdr.srcRank.isLt
  have h7 := b.packet.hdr.msgId.isLt
  have h8 := b.packet.hdr.offset.isLt
  unfold candNum
  omega

theorem other_order {s : State} {e : Exit} {a b : Cand} (ha : hasRsv s e a = false) (hb : hasRsv s e b = false)
    (hsa : a.packet.hdr.senior = false) (hsb : b.packet.hdr.senior = false) (h : candKey s e a ≤ candKey s e b) :
    a.arrived < b.arrived ∨ (a.arrived = b.arrived ∧ candRing a ≤ candRing b) := by
  rw [candKey_other ha hsa, candKey_other hb hsb] at h
  have hlt := not_lt_of_ge h
  simp only [List.cons_lt_cons_iff, and_false, or_false, lt_irrefl, true_and, false_or] at hlt
  omega

/-- The order of the keys is the order of R336. -/
theorem servedBefore_of_key {s : State} {e : Exit} {a b : Cand} (h : candKey s e a ≤ candKey s e b) : Claims.servedBefore s e a b := by
  have hn : ¬ candKey s e b < candKey s e a := not_lt_of_ge h
  change hasRsv s e a = true ∨ (hasRsv s e b = false ∧
    ((a.packet.hdr.senior = true ∧ (b.packet.hdr.senior = false ∨ candAge s b < candAge s a ∨
        (candAge s b = candAge s a ∧ candNum a ≤ candNum b))) ∨
      (a.packet.hdr.senior = false ∧ b.packet.hdr.senior = false ∧
        (a.arrived < b.arrived ∨ (a.arrived = b.arrived ∧ candRing a ≤ candRing b)))))
  cases ha : hasRsv s e a with
  | true => exact .inl rfl
  | false =>
    have hb : hasRsv s e b = false := by
      by_contra hb
      rw [candKey_holder (Bool.not_eq_false _ ▸ hb)] at hn
      cases hsa : a.packet.hdr.senior <;> simp [candKey_other, candKey_senior, ha, hsa, List.cons_lt_cons_iff] at hn
    refine .inr ⟨hb, ?_⟩
    cases hsa : a.packet.hdr.senior with
    | true =>
      refine .inl ⟨rfl, ?_⟩
      cases hsb : b.packet.hdr.senior with
      | false => exact .inl rfl
      | true => exact .inr (senior_order ha hb hsa hsb h)
    | false =>
      refine .inr ⟨rfl, ?_⟩
      cases hsb : b.packet.hdr.senior with
      | false => exact ⟨rfl, other_order ha hb hsa hsb h⟩
      | true => simp [candKey_other, candKey_senior, ha, hb, hsa, hsb, List.cons_lt_cons_iff] at hn

/-! ### Arbitration -/

/-- An arbitration ends with the check of R349 where the exit is a ring's. -/
def exitChecked (e : Exit) (s : State) : State :=
  match e with
  | .ring t => checkRing s t
  | .delivery _ => s

theorem exec_exitArbitration (e : Exit) (s : State) :
    exec (.exitArbitration e) s = .next (settleRestores (arbitrate s e)) := rfl

/-- An arbitration serves what came on rings in the order of R336, then the injections in theirs. -/
theorem arbitrate_eq (s : State) (e : Exit) : arbitrate s e = exitChecked e (serveInjections e
    ((sortCands (candKey (setExitCands s e []) e) ((exitCands s e).filter fun c => c.ring.isSome)).foldl (serveTransit e)
      (setExitCands s e [])) ((exitCands s e).filter fun c => c.ring.isNone)) := by
  cases e <;> rfl

theorem serveTransit_ring {s : State} {e : Exit} {c : Cand} {r : Ring} (h : c.ring = some r) : serveTransit e s c =
    if exitBroken s e then countBroken (ringDie r) 1 s
    else if granted s e c.packet.hdr then enter s e (advance e c.packet) else deflect s e r c.packet := by
  simp [serveTransit, h]

theorem serveInjections_cons (e : Exit) (s : State) (c : Cand) (t : List Cand) : serveInjections e s (c :: t) =
    if heldBack s (exitDie e) c.packet.hdr then serveInjections e (setExitCands s e (exitCands s e ++ [c])) t
    else if (s.die (exitDie e)).inReset = true ∨ granted s e c.packet.hdr = false then setExitCands s e (exitCands s e ++ c :: t)
    else serveInjections e (if exitBroken s e then failInjection s (exitDie e) c.packet.hdr 0x22 else injectPacket s e c.packet) t := by
  rw [serveInjections]
  refine if_congr Iff.rfl rfl ?_
  cases (s.die (exitDie e)).inReset <;> cases granted s e c.packet.hdr <;> rfl

/-- The arbitration of an exit with one candidate that came on a ring. -/
theorem arbitrate_transit {s : State} {e : Exit} {c : Cand} {r : Ring} (hc : exitCands s e = [c]) (h : c.ring = some r) :
    arbitrate s e = exitChecked e (serveTransit e (setExitCands s e []) c) := by
  rw [arbitrate_eq, hc]
  simp [h, sortCands, insertCand, serveInjections]

theorem arbitrate_injection {s : State} {e : Exit} {c : Cand} (hc : exitCands s e = [c]) (h : c.ring = none) :
    arbitrate s e = exitChecked e (serveInjections e (setExitCands s e []) [c]) := by
  rw [arbitrate_eq, hc]
  simp [h, sortCands]

section

variable {s : State} {e : Exit} {c : Cand}

/-- An injection that nothing holds back and that the exit grants leaves the queue. -/
theorem serveInjections_granted (hb : heldBack s (exitDie e) c.packet.hdr = false) (hr : (s.die (exitDie e)).inReset = false)
    (hg : granted s e c.packet.hdr = true) : serveInjections e s [c] =
      if exitBroken s e then failInjection s (exitDie e) c.packet.hdr 0x22 else injectPacket s e c.packet := by
  rw [serveInjections_cons, if_neg (Bool.eq_false_iff.1 hb), if_neg (by simp [hr, hg])]
  rfl

theorem serveInjections_waits (h : ¬ (heldBack s (exitDie e) c.packet.hdr = false ∧ (s.die (exitDie e)).inReset = false ∧
    granted s e c.packet.hdr = true)) : serveInjections e s [c] = setExitCands s e (exitCands s e ++ [c]) := by
  rw [serveInjections_cons]
  split
  · rfl
  · next hb =>
    have hb' := Bool.eq_false_iff.2 hb
    rw [if_pos]
    by_contra hno
    simp only [not_or, Bool.not_eq_true, Bool.not_eq_false] at hno
    exact h ⟨hb', hno.1, hno.2⟩

end

/-! ### Reservations -/

@[simp] theorem exitRsv_setExitRsv (s : State) (e : Exit) (l : List Reservation) : exitRsv (setExitRsv s e l) e = l := by
  cases e <;> simp [exitRsv, setExitRsv, updRing, updDie]

/-- A reservation without the mark of the buffer that it holds. -/
def rsvName (x : Reservation) : BitVec 3 × BitVec 16 × W32 × W32 × BitVec 3 × BitVec 16 × Nat × Nat × Bool :=
  (x.job, x.src, x.msg, x.offset, x.kind, x.dst, x.made, x.len, x.first)

/-- A buffer that becomes free changes who holds one, and no reservation else. -/
theorem map_rsvName_fillFirst : ∀ l : List Reservation, (fillFirst l).map rsvName = l.map rsvName
  | [] => rfl
  | r :: t => by
    unfold fillFirst
    split
    · simp [map_rsvName_fillFirst t]
    · rfl

theorem map_rsvName_foldl_fillFirst {β : Type} (n : List β) : ∀ l : List Reservation,
    (n.foldl (fun l _ => fillFirst l) l).map rsvName = l.map rsvName := by
  induction n with
  | nil => exact fun _ => rfl
  | cons _ t ih => exact fun l => (ih _).trans (map_rsvName_fillFirst l)

/-- What ending reservations leaves at the exit, and that it changes nothing else. -/
theorem endRsv_spec (s : State) (e : Exit) (t : Reservation → Bool) : endRsv s e t = setExitRsv s e (exitRsv (endRsv s e t) e) ∧
    (exitRsv (endRsv s e t) e).map rsvName = ((exitRsv s e).filter fun x => !t x).map rsvName := by
  unfold endRsv
  rw [exitRsv_setExitRsv]
  exact ⟨rfl, map_rsvName_foldl_fillFirst _ _⟩

theorem not_expired (s : State) (x : Reservation) : (!expired s x) = decide (s.now < x.made + 182 * x.len) := by
  unfold expired elapsed
  rw [← decide_not]
  exact decide_eq_decide.2 Nat.not_le

/-- Settles O38. -/
theorem packetsArriveAndArbitrate : Obligations.PacketsArriveAndArbitrate := by
  unfold Obligations.PacketsArriveAndArbitrate
  intro s
  refine ⟨?_, ?_, ?_, ?_⟩
  · intro l p
    refine ⟨fun h => ?_, fun h he => ?_, fun h he hh => ?_, fun h he hh => ?_⟩
    · rw [frameArrives_one, arrive_hcrcBad h]; rfl
    · rw [frameArrives_one, arrive_epochBad h he]; rfl
    · rw [frameArrives_one, arrive_through h he hh]; rfl
    · rw [frameArrives_one, arrive_exit h he hh]; rfl
  · intro e c hc
    simp only [exec_exitArbitration]
    refine ⟨fun r h hb => ?_, fun r h hb hg => ?_, fun r h hb hg => ?_, fun h hm hb => ?_, fun h hm hb => ?_, fun h hm => ?_⟩
    · rw [arbitrate_transit hc h, serveTransit_ring h, if_pos hb]; rfl
    · rw [arbitrate_transit hc h, serveTransit_ring h, if_neg (Bool.eq_false_iff.1 hb), if_pos hg]; rfl
    · rw [arbitrate_transit hc h, serveTransit_ring h, if_neg (Bool.eq_false_iff.1 hb), if_neg (Bool.eq_false_iff.1 hg)]; rfl
    · rw [arbitrate_injection hc h, serveInjections_granted hm.1 hm.2.1 hm.2.2, if_neg (Bool.eq_false_iff.1 hb)]; rfl
    · rw [arbitrate_injection hc h, serveInjections_granted hm.1 hm.2.1 hm.2.2, if_pos hb]; rfl
    · rw [arbitrate_injection hc h, serveInjections_waits hm]; rfl
  · intro e u fin
    refine ⟨sortCands (candKey u e) ((exitCands s e).filter fun c => c.ring.isSome), sortCands_perm _ _, ?_, ?_, ?_, ?_⟩
    · exact (sortCands_sorted (candKey u e) _).imp servedBefore_of_key
    · rw [exec_exitArbitration, arbitrate_eq]
      rfl
    · exact fun v c r h => serveTransit_ring h
    · exact serveInjections_cons e
  · intro e
    obtain ⟨hframe, hleft⟩ := endRsv_spec s e (expired s)
    refine ⟨_, rfl, hframe, hleft.trans ?_⟩
    simp only [not_expired]
    rfl

end Sys2Proof.Machine

end

section

/-! SUPPORT. The schedule sequencer (R358 to R363): each of its commands by the branch that it takes. -/

namespace Sys2Proof.Machine

open Sys2Proof

theorem exec_collBaseFire (d : DescId) (s : State) : exec (.collBaseFire d) s = .next (collBaseFire d s) := rfl

theorem exec_slotOpen (d : DescId) (k : Nat) (s : State) : exec (.slotOpen d k) s = .next (slotOpen d k s) := rfl

theorem exec_slotMark (d : DescId) (k : Nat) (s : State) : exec (.slotMark d k) s = .next (slotMark d k s) := rfl

theorem exec_recvJudge (d : DescId) (i : Nat) (s : State) : exec (.recvJudge d i) s = .next (recvJudge d i s) := rfl

theorem exec_collEnd (d : DescId) (s : State) : exec (.collEnd d) s = .next (collEnd d s) := rfl

section

variable {s : State} {d : DescId} {x : CollState} (hx : s.coll? d = some x)
include hx

/-! ### The base -/

/-- The comparator of the schedule has been freed, and ALIGNED judged. -/
def baseFired (s : State) (d : DescId) (x : CollState) : State := disarm (checkAligned s) (collLaunch s d x)

/-- What starts the sequencer: the late map, the receive entries, and the blocks of a vote or watch. -/
def baseStarted (u : State) (d : DescId) (x : CollState) : State :=
  let v := setAside (writeLateMap u x) d x
  if isVote v d x then putVote v x else if x.op = opWatch then putWatch v x.job else v

theorem collBaseFire_fires (hf : x.fired = false) (hm : x.missed = false) (h : fires s (collLaunch s d x) = true) :
    collBaseFire d s = if alignedNow (baseFired s d x) then
      (baseStarted (baseFired s d x) d x).setColl d
        { x with fired := true, doneBase := scGet (baseStarted (baseFired s d x) d x) (panelSc x.doneSc) }
      else missColl (baseFired s d x) d x := by
  unfold collBaseFire
  simp only [hx, hf, hm, h, Bool.not_false, Bool.and_self, if_true]
  change (if (!alignedNow (baseFired s d x)) = true then missColl (baseFired s d x) d x else _) = _
  cases alignedNow (baseFired s d x) <;> rfl

/-! ### Slots -/

theorem slotOpen_opens (hf : x.fired = true) (hk : x.opened < x.slots.length) (hm : atMark s (x.openMark x.opened) = true)
    (ha : alignedNow s = true) (hc : combinesDone s x x.opened = true) : slotOpen d x.opened s =
      ((rangeFrom 0 x.entries.length).filter fun i => match x.entries[i]? with
        | some e => e.send && e.slot == x.opened && e.len != 0
        | none => false).foldl (collSend d x) (s.setColl d { x with opened := x.opened + 1 }) := by
  simp only [slotOpen, hx, hf, hk, hm, ha, hc, beq_self_eq_true, decide_true, Bool.and_self, if_true] <;> rfl

/-- A SEND entry of slot k has not been wholly injected. -/
def slotBehind (s : State) (x : CollState) (k : Nat) : Bool :=
  x.entries.any fun e => e.send && e.slot == k && !injected s x e

theorem slotMark_marks (hf : x.fired = true) (hk : x.marked < x.slots.length) (hm : atMark s (x.slotMarkAt x.marked) = true)
    (ha : alignedNow s = true) : slotMark d x.marked s =
      if slotBehind s x x.marked then
        raiseEv (updGau (s.setColl d { x with marked := x.marked + 1 }) fun g => { g with slotsLate := sat32 (g.slotsLate + 1) })
          evSlotLate srcGauge [] (some (s.job x.job).ctx) (jobField x.job)
      else s.setColl d { x with marked := x.marked + 1 } := by
  simp only [slotMark, hx, hf, hk, hm, ha, beq_self_eq_true, decide_true, Bool.and_self, if_true, Bool.not_true, Bool.and_false,
    Bool.or_false]
  rfl

theorem recvJudge_late {i : Nat} {e : CollEntry} (he : x.entries[i]? = some e) (hf : x.fired = true) (ho : openEntry e = true)
    (hm : atMark s (x.deadline i e.slot) = true) :
    recvJudge d i s = if x.exclude || x.shifted then excludeEntry d s i else takeShift s d x i e := by
  simp only [recvJudge, hx, he, hf, ho, hm, Bool.and_self, if_true]

/-! ### The end -/

theorem excludeEntry_closed {i : Nat} (h : ∀ e, x.entries[i]? = some e → openEntry e = false) : excludeEntry d s i = s := by
  unfold excludeEntry
  rw [hx]
  dsimp only
  cases he : x.entries[i]? with
  | none => rfl
  | some e => simp [h e he]

theorem foldl_excludeEntry_closed (h : ∀ e ∈ x.entries, openEntry e = false) (l : List Nat) : l.foldl (excludeEntry d) s = s := by
  induction l with
  | nil => rfl
  | cons i t ih =>
    rw [List.foldl_cons, excludeEntry_closed hx fun e he => h e (List.mem_of_getElem? he)]
    exact ih

/-- What stands at the judgement of the end: the shift of the first late entry, if one takes it. -/
theorem judgeFirst_eq : judgeFirst d s = match firstLate s x with
    | some e => takeShift s d x e.1 e.2
    | none => s := by
  unfold judgeFirst
  rw [hx] <;> rfl

end

/-- An entry of a schedule under WAIT that stands open past its deadline, while no shift has been taken. -/
def LateEntry (s : State) (x : CollState) (i : Nat) (e : CollEntry) : Prop :=
  x.fired = true ∧ x.exclude = false ∧ x.shifted = false ∧ x.entries[i]? = some e ∧ openEntry e = true ∧
    atMark s (x.deadline i e.slot) = true

/-- The numbered elements of a list. -/
theorem getElem_zip_rangeFrom {α : Type} (l : List α) (i : Nat) (h : i < (List.zip (rangeFrom 0 l.length) l).length)
    (h' : i < l.length) : (List.zip (rangeFrom 0 l.length) l)[i] = (i, l[i]) := by
  simp [rangeFrom_eq_range']

theorem length_zip_rangeFrom {α : Type} (l : List α) : (List.zip (rangeFrom 0 l.length) l).length = l.length := by
  simp [rangeFrom_eq_range']

section

variable {s : State} {x : CollState}

theorem firstLate_of_none (h : ∀ i e, ¬ LateEntry s x i e) : firstLate s x = none := by
  unfold firstLate
  split
  · next hw =>
    obtain ⟨⟨hf, hx⟩, hs⟩ : (x.fired = true ∧ x.exclude = false) ∧ x.shifted = false := by simpa using hw
    rw [List.find?_eq_none]
    intro p hp hl
    obtain ⟨i, hi, rfl⟩ := List.mem_iff_getElem.1 hp
    have hi' : i < x.entries.length := length_zip_rangeFrom x.entries ▸ hi
    rw [getElem_zip_rangeFrom _ _ hi hi', Bool.and_eq_true] at hl
    exact h i _ ⟨hf, hx, hs, List.getElem?_eq_getElem hi', hl.1, hl.2⟩
  · rfl

/-- The late entry of the lowest number is the first. -/
theorem firstLate_of_first {i : Nat} {e : CollEntry} (h : LateEntry s x i e) (hfirst : ∀ k f, k < i → ¬ LateEntry s x k f) :
    firstLate s x = some (i, e) := by
  obtain ⟨hf, hx, hs, he, ho, hm⟩ := h
  obtain ⟨hi, rfl⟩ := List.getElem?_eq_some_iff.1 he
  have hi' : i < (List.zip (rangeFrom 0 x.entries.length) x.entries).length := by rwa [length_zip_rangeFrom]
  unfold firstLate
  rw [if_pos (by simp [hf, hx, hs]), List.find?_eq_some_iff_getElem]
  refine ⟨by simp [ho, hm], i, hi', getElem_zip_rangeFrom _ _ hi' hi, fun k hk => ?_⟩
  have hk' : k < x.entries.length := by omega
  rw [getElem_zip_rangeFrom _ _ (by omega) hk', Bool.not_eq_true', Bool.eq_false_iff]
  intro hl
  rw [Bool.and_eq_true] at hl
  exact hfirst k _ hk ⟨hf, hx, hs, List.getElem?_eq_getElem hk', hl.1, hl.2⟩

end

section

variable {s : State} {d : DescId}

/-- The schedule is at its end. -/
def endDue (u : State) (x : CollState) : Bool := x.missed || (x.fired && (atMark u x.endMark || collDone u x))

/-- At the end what is still open is excluded. -/
def endExcluded (u : State) (d : DescId) (x : CollState) : State :=
  if x.fired then (rangeFrom 0 x.entries.length).foldl (excludeEntry d) u else u

/-- A watch leaves its step to its job. -/
def watchLeft (v : State) (y : CollState) : State :=
  if y.op = opWatch then v.setJob y.job { v.job y.job with
    jobWide := some (BitVec.ofNat 32 (watchStep v y.job), y.flagged || y.fault) } else v

/-- The vote block of a schedule as it stands at its end; none where it was missed or cannot be read whole. -/
def votedBlock (v w : State) (y : CollState) : Option VoteBlock :=
  match vaRead w (v.job y.job).ctx (v.job y.job).vote.toNat (64 + mapLen y.nranks) with
  | some (l, false) => if y.missed || y.fault then none else some (voteOfBytes l)
  | _ => none

/-- A vote leaves its block to its commit. -/
def voteLeft (v w : State) (d : DescId) (y : CollState) : State :=
  match isVote v d y, (v.job y.job).commit with
  | true, some c =>
    noteVaRead (w.setJob y.job { v.job y.job with commit := some { c with block := votedBlock v w y, voteFlagged := y.flagged } })
      (v.job y.job).ctx (v.job y.job).vote.toNat (64 + mapLen y.nranks)
  | _, _ => w

/-- The report and status of a COLL. -/
def collReported (u : State) (d : DescId) (y : CollState) : State :=
  concludeDesc (setResult (setResult u d 24 (y.late.length + 2 ^ 32 * y.lowest)) d 25 (bnat y.shifted)) d
    (if y.fault then stPartial else if y.flagged then stFlagged else stOk)

/-- What the end of a schedule leaves once its open entries are excluded. -/
def collConcluded (v : State) (d : DescId) (y : CollState) : State :=
  let u := (freeColl (voteLeft v (watchLeft v y) d y) d).dropColl d
  if isVote v d y then u else collReported u d y

theorem collEnd_eq (d : DescId) (s : State) : collEnd d s = match (judgeFirst d s).coll? d with
    | none => judgeFirst d s
    | some x0 => if endDue (judgeFirst d s) x0 then
        collConcluded (endExcluded (judgeFirst d s) d x0) d (((endExcluded (judgeFirst d s) d x0).coll? d).getD x0)
      else judgeFirst d s := rfl

section

variable {x0 : CollState} (h0 : (judgeFirst d s).coll? d = some x0)
include h0

theorem collEnd_early (hd : endDue (judgeFirst d s) x0 = false) : collEnd d s = judgeFirst d s := by
  rw [collEnd_eq, h0]
  exact if_neg (Bool.eq_false_iff.1 hd)

theorem collEnd_due {y : CollState} (hd : endDue (judgeFirst d s) x0 = true)
    (hy : (endExcluded (judgeFirst d s) d x0).coll? d = some y) :
    collEnd d s = collConcluded (endExcluded (judgeFirst d s) d x0) d y := by
  rw [collEnd_eq, h0]
  dsimp only
  rw [if_pos hd, hy]
  rfl

end

end

section

variable {v : State} {d : DescId} {y : CollState}

/-- The COLL of a schedule that is no vote completes with its results and status. -/
theorem collConcluded_coll (h : isVote v d y = false) : collConcluded v d y =
    collReported ((freeColl (watchLeft v y) d).dropColl d) d y := by
  unfold collConcluded voteLeft
  rw [h]
  rfl

/-- A vote leaves its block to the commit, which ends the COMMIT's descriptor later. -/
theorem collConcluded_vote {c : CommitState} (h : isVote v d y = true) (hop : y.op ≠ opWatch) (hc : (v.job y.job).commit = some c) :
    collConcluded v d y = (freeColl (noteVaRead (v.setJob y.job
      { v.job y.job with commit := some { c with block := votedBlock v v y, voteFlagged := y.flagged } })
        (v.job y.job).ctx (v.job y.job).vote.toNat (64 + mapLen y.nranks)) d).dropColl d := by
  unfold collConcluded voteLeft watchLeft
  rw [h, hc, if_neg hop]
  rfl

end

/-- What the judgement before the end leaves: the first late entry takes the shift. -/
theorem judgeFirst_cases {s u : State} {d : DescId} {x : CollState} (hx : s.coll? d = some x)
    (hu : (∃ i e, LateEntry s x i e ∧ (∀ k f, k < i → ¬ LateEntry s x k f) ∧ u = takeShift s d x i e) ∨
      ((∀ i e, ¬ LateEntry s x i e) ∧ u = s)) : judgeFirst d s = u := by
  rw [judgeFirst_eq hx]
  rcases hu with ⟨i, e, hl, hfirst, rfl⟩ | ⟨hno, rfl⟩
  · rw [firstLate_of_first hl hfirst]
  · rw [firstLate_of_none hno]

theorem endDue_iff {u : State} {x : CollState} :
    endDue u x = true ↔ x.missed = true ∨ (x.fired = true ∧ (atMark u x.endMark || collDone u x) = true) := by
  simp [endDue]

theorem slotBehind_iff {s : State} {x : CollState} {k : Nat} :
    slotBehind s x k = true ↔ ∃ e ∈ x.entries, e.send = true ∧ e.slot = k ∧ injected s x e = false := by
  simp [slotBehind, and_assoc]

/-- Settles O40: each command of the sequencer by its branches, COLL_END after the judgement of the first late entry. -/
theorem schedulesRun : Obligations.SchedulesRun := by
  unfold Obligations.SchedulesRun
  intro s d x hx
  refine ⟨?_, ?_, ?_, ?_, ?_⟩
  · intro hf hm h u
    rw [exec_collBaseFire, collBaseFire_fires hx hf hm h]
    exact ⟨fun ha => congrArg _ (if_neg (Bool.eq_false_iff.1 ha)), fun ha => congrArg _ (if_pos ha)⟩
  · intro hf hk hm ha hc
    rw [exec_slotOpen, slotOpen_opens hx hf hk hm ha hc] <;> rfl
  · intro hf hk hm ha u
    rw [exec_slotMark, slotMark_marks hx hf hk hm ha]
    refine ⟨fun h => congrArg _ (if_pos (slotBehind_iff.2 h)), fun h => congrArg _ (if_neg fun hb => ?_)⟩
    obtain ⟨e, he, hs, hk, hi⟩ := slotBehind_iff.1 hb
    simp [h e he hs hk] at hi
  · intro i e he hf ho hm
    rw [exec_recvJudge, recvJudge_late hx he hf ho hm]
    exact ⟨fun h h' => congrArg _ (if_neg (by simp [h, h'])), fun h => congrArg _ (if_pos h)⟩
  · intro late u hu x0 h0 due
    obtain rfl := judgeFirst_cases hx hu
    refine ⟨fun hd => ?_, fun hd => ?_⟩
    · rw [exec_collEnd, collEnd_early h0 (Bool.eq_false_iff.2 fun h => hd (endDue_iff.1 h))]
    · intro v
      refine ⟨fun ho => ?_, ?_⟩
      · change endExcluded (judgeFirst d s) d x0 = _
        unfold endExcluded
        rw [foldl_excludeEntry_closed h0 ho, ite_self]
      · intro y hy flagged w
        rw [exec_collEnd, collEnd_due h0 (endDue_iff.2 hd) hy]
        exact ⟨fun hv => congrArg _ (collConcluded_coll hv), fun c hv hop hc => congrArg _ (collConcluded_vote hv hop hc)⟩

end Sys2Proof.Machine

end

section

/-! SUPPORT. What an event, and what an access to a context's memory, leave as they were. -/

namespace Sys2Proof.Machine

open Sys2Proof

/-! ### Events -/

section

variable (s : State) (code src : BitVec 16) (args : List Nat) (ctx : Option Ctx) (job : BitVec 8) (sub : BitVec 3)

/-- An event is written to the ring of a panel and changes nothing else. -/
theorem raiseEv_eq : raiseEv s code src args ctx job sub = { s with ev := (raiseEv s code src args ctx job sub).ev } := by
  unfold raiseEv raiseRec evOffer evWrite
  dsimp only
  split
  · rfl
  · split <;> rfl

@[simp] theorem raiseEv_pending : (raiseEv s code src args ctx job sub).pending = s.pending := by rw [raiseEv_eq]
@[simp] theorem raiseEv_free : (raiseEv s code src args ctx job sub).free = s.free := by rw [raiseEv_eq]
@[simp] theorem raiseEv_mem : (raiseEv s code src args ctx job sub).mem = s.mem := by rw [raiseEv_eq]
@[simp] theorem raiseEv_slots : (raiseEv s code src args ctx job sub).slots = s.slots := by rw [raiseEv_eq]
@[simp] theorem raiseEv_cores : (raiseEv s code src args ctx job sub).cores = s.cores := by rw [raiseEv_eq]
@[simp] theorem raiseEv_panels : (raiseEv s code src args ctx job sub).panels = s.panels := by rw [raiseEv_eq]
@[simp] theorem raiseEv_upd : (raiseEv s code src args ctx job sub).upd = s.upd := by rw [raiseEv_eq]
@[simp] theorem raiseEv_qmg : (raiseEv s code src args ctx job sub).qmg = s.qmg := by rw [raiseEv_eq]
@[simp] theorem raiseEv_lnk : (raiseEv s code src args ctx job sub).lnk = s.lnk := by rw [raiseEv_eq]
@[simp] theorem raiseEv_gau : (raiseEv s code src args ctx job sub).gau = s.gau := by rw [raiseEv_eq]
@[simp] theorem raiseEv_colls : (raiseEv s code src args ctx job sub).colls = s.colls := by rw [raiseEv_eq]
@[simp] theorem raiseEv_jobs : (raiseEv s code src args ctx job sub).jobs = s.jobs := by rw [raiseEv_eq]
@[simp] theorem raiseEv_glb : (raiseEv s code src args ctx job sub).glb = s.glb := by rw [raiseEv_eq]
@[simp] theorem raiseEv_pwr : (raiseEv s code src args ctx job sub).pwr = s.pwr := by rw [raiseEv_eq]
@[simp] theorem raiseEv_sec : (raiseEv s code src args ctx job sub).sec = s.sec := by rw [raiseEv_eq]
@[simp] theorem raiseEv_out : (raiseEv s code src args ctx job sub).out = s.out := by rw [raiseEv_eq]
@[simp] theorem raiseEv_slot (t : Slot) : (raiseEv s code src args ctx job sub).slot t = s.slot t := by rw [raiseEv_eq]; rfl
@[simp] theorem raiseEv_core (c : Core) : (raiseEv s code src args ctx job sub).core c = s.core c := by rw [raiseEv_eq]; rfl
@[simp] theorem raiseEv_panel (p : Panel) : (raiseEv s code src args ctx job sub).panel p = s.panel p := by rw [raiseEv_eq]; rfl
@[simp] theorem raiseEv_job (j : Job) : (raiseEv s code src args ctx job sub).job j = s.job j := by rw [raiseEv_eq]; rfl
@[simp] theorem raiseEv_desc (d : DescId) : (raiseEv s code src args ctx job sub).desc? d = s.desc? d := by rw [raiseEv_eq]; rfl
@[simp] theorem raiseEv_now : (raiseEv s code src args ctx job sub).now = s.now := by rw [raiseEv_eq]; rfl

end

/-! ### Accesses to a context's memory: only memory and the events change -/

theorem besidesEvents_gddrWrite (s : State) (pa : Nat) (data : List Byte) (bad : Bool) :
    besidesEvents (gddrWrite s pa data bad) = besidesEvents s := by
  unfold gddrWrite
  dsimp only
  split <;> rfl

theorem besidesEvents_noteResetRead (s : State) (pa : Nat) : besidesEvents (noteResetRead s pa) = besidesEvents s := by
  unfold noteResetRead
  dsimp only
  split <;> rfl

theorem besidesEvents_writeParts (bad : Bool) : ∀ (l : List (Nat × Nat)) (s : State) (data : List Byte),
    besidesEvents (writeParts s bad l data) = besidesEvents s
  | [], _, _ => rfl
  | (pa, len) :: t, s, data => by
    rw [writeParts, besidesEvents_writeParts bad t, besidesEvents_gddrWrite]

theorem besidesEvents_vaWrite {s t : State} {c : Ctx} {va : Nat} {data : List Byte} {bad : Bool} (h : vaWrite s c va data bad = some t) :
    besidesEvents t = besidesEvents s := by
  unfold vaWrite at h
  obtain ⟨ps, -, rfl⟩ := Option.map_eq_some_iff.1 h
  exact besidesEvents_writeParts ..

theorem besidesEvents_noteBadTable (s : State) (c : Ctx) (va : Nat) : besidesEvents (noteBadTable s c va) = besidesEvents s := by
  unfold noteBadTable
  split
  · exact besidesEvents_raiseEv ..
  · exact besidesEvents_noteResetRead ..
  · rfl

theorem besidesEvents_noteBadRange (s : State) (c : Ctx) (va n : Nat) : besidesEvents (noteBadRange s c va n) = besidesEvents s := by
  unfold noteBadRange
  dsimp only
  split
  · exact besidesEvents_noteBadTable ..
  · rfl

theorem besidesEvents_foldl {β : Type} {g : State → β → State} (h : ∀ s b, besidesEvents (g s b) = besidesEvents s) (l : List β)
    (s : State) : besidesEvents (l.foldl g s) = besidesEvents s := by
  induction l generalizing s with
  | nil => rfl
  | cons b t ih => rw [List.foldl_cons, ih, h]

theorem besidesEvents_noteVaRead (s : State) (c : Ctx) (va n : Nat) : besidesEvents (noteVaRead s c va n) = besidesEvents s := by
  unfold noteVaRead
  split
  · exact besidesEvents_foldl (fun s (p : Nat × Nat) => besidesEvents_noteResetRead s p.1) _ _
  · exact besidesEvents_noteBadRange ..

theorem besidesEvents_noteVaWrite (s : State) (c : Ctx) (va n : Nat) : besidesEvents (noteVaWrite s c va n) = besidesEvents s := by
  unfold noteVaWrite
  split
  · rfl
  · exact besidesEvents_noteBadRange ..

/-- A write where the pages let it, and what is noted where they do not. -/
theorem besidesEvents_vaWrite_getD {s u : State} {c : Ctx} {va : Nat} {data : List Byte} {bad : Bool}
    (h : besidesEvents u = besidesEvents s) : besidesEvents ((vaWrite s c va data bad).getD u) = besidesEvents s := by
  cases hw : vaWrite s c va data bad with
  | none => exact h
  | some t => exact besidesEvents_vaWrite hw

theorem besidesEvents_jobWrite (s : State) (j : Job) (va : Nat) (data : List Byte) :
    besidesEvents (jobWrite s j va data) = besidesEvents s :=
  besidesEvents_vaWrite_getD (besidesEvents_noteVaWrite ..)

/-- Where only memory and the events differ the jobs are the same. -/
theorem job_of_besidesEvents {s t : State} (h : besidesEvents t = besidesEvents s) (j : Job) : t.job j = s.job j :=
  congrArg (fun u => u.job j) h

end Sys2Proof.Machine

end

section

/-! SUPPORT. The commit of an attempt (R273 to R283): the vote, the record or its discard, the scrub, the ladder and the roots. -/

namespace Sys2Proof.Machine

open Sys2Proof

theorem exec_voteEvaluate (j : Job) (s : State) : exec (.voteEvaluate j) s = .next (voteEvaluate j s) := rfl

theorem exec_commitUnresolved (j : Job) (s : State) : exec (.commitUnresolved j) s = .next (commitUnresolved j s) := rfl

theorem exec_commitRecordWrite (j : Job) (s : State) : exec (.commitRecordWrite j) s = .next (commitRecordWrite j s) := rfl

theorem exec_commitDiscard (j : Job) (s : State) : exec (.commitDiscard j) s = .next (commitDiscard j s) := rfl

theorem exec_scrubEnd (j : Job) (s : State) : exec (.scrubEnd j) s = .next (scrubEnd j s) := rfl

theorem exec_ladderDecide (j : Job) (s : State) : exec (.ladderDecide j) s = .next (ladderDecide s j) := rfl

theorem exec_planeRootsDone (j : Job) (idx : Nat) (s : State) : exec (.planeRootsDone j idx) s = .next (planeRootsDone j idx s) := rfl

/-! ### Arming panel 0's comparator -/

theorem findArmed_congr {s t : State} (h : t.panels = s.panels) (a : LaunchId) : findArmed t a = findArmed s a := by
  unfold findArmed State.panel
  rw [h]

/-- Of a launch in no comparator none stands at panel 0. -/
theorem not_armed_zero {s : State} {a : LaunchId} (h : findArmed s a = none) :
    (s.panel 0).comparators.find? (fun c => decide (c.action = a)) = none := by
  have := List.findSome?_eq_none_iff.1 h 0 (by simp)
  simpa using this

theorem updDesc_fields (s : State) (d : DescId) (g : DescState → DescState) :
    updDesc s d g = { s with qmg := (updDesc s d g).qmg } := by
  unfold updDesc
  split <;> rfl

@[simp] theorem updDesc_panels (s : State) (d : DescId) (g : DescState → DescState) : (updDesc s d g).panels = s.panels := by
  rw [updDesc_fields]

/-- Arming a comparator changes panels and the descriptor alone. -/
theorem armChip_eq (s : State) (a : LaunchId) (m : Nat) (d : DescId) :
    armChip s a m d = { s with panels := (armChip s a m d).panels, qmg := (armChip s a m d).qmg } := by
  unfold armChip armOn
  dsimp only
  split
  · simp only [if_true]
    rw [updDesc_fields]
    rfl
  · rfl

theorem armChip_job (s : State) (a : LaunchId) (m : Nat) (d : DescId) (j : Job) : (armChip s a m d).job j = s.job j := by
  rw [armChip_eq]
  rfl

theorem armChip_mem (s : State) (a : LaunchId) (m : Nat) (d : DescId) : (armChip s a m d).mem = s.mem := by
  rw [armChip_eq]

theorem armChip_ev (s : State) (a : LaunchId) (m : Nat) (d : DescId) : (armChip s a m d).ev = s.ev := by
  rw [armChip_eq]

/-- A launch that can be armed stands in panel 0's comparators. -/
theorem findArmed_armChip {s : State} {a : LaunchId} {m : Nat} {d : DescId} (hm : armable s m = true)
    (hp : (s.panel 0).comparators.length < 16) (ha : findArmed s a = none) :
    findArmed (armChip s a m d) a = some (0, ⟨a, BitVec.ofNat 64 m⟩) := by
  unfold armChip
  rw [armOn_takes hm hp ha]
  dsimp only
  rw [if_pos rfl, findArmed_congr (updDesc_panels ..)]
  unfold findArmed
  rw [List.findSome?_cons, State.setPanel_panel_same]
  simp [not_armed_zero ha]

/-- What arming asks for is the same where gauge, links and panels are. -/
theorem armChip_arms {s t : State} {a : LaunchId} {m : W64} {d : DescId} (hg : t.gau = s.gau) (hl : t.lnk = s.lnk)
    (hpan : t.panels = s.panels) (h : alignedNow s = true ∧ s.gau.count.toNat + 1563 ≤ m.toNat ∧ (s.panel 0).comparators.length < 16 ∧
      findArmed s a = none) : findArmed (armChip t a m.toNat d) a = some (0, ⟨a, m⟩) := by
  obtain ⟨hnow, hm, hp, ha⟩ := h
  have hnow' : alignedNow t = true := by
    have : alignedNow t = alignedNow s := by
      unfold alignedNow refHolds countedOffsets State.now
      rw [hg, hl]
    rw [this, hnow]
  have hp' : (t.panel 0).comparators.length < 16 := by rw [State.panel, hpan]; exact hp
  rw [findArmed_armChip (armable_iff.2 ⟨hnow', by rw [hg]; exact hm⟩) hp' (by rw [findArmed_congr hpan, ha]), BitVec.ofNat_toNat,
    BitVec.setWidth_eq]

/-! ### The decision -/

theorem updCommit_eq {s : State} {j : Job} {c : CommitState} (hc : (s.job j).commit = some c) (g : CommitState → CommitState) :
    updCommit s j g = s.setJob j { s.job j with commit := some (g c) } := by
  simp [updCommit, hc]

section

variable {s : State} {j : Job} {c : CommitState} (hc : (s.job j).commit = some c)
include hc

/-- With a complete block the commit is decided, and its comparator armed where it can be. -/
theorem voteEvaluate_decides {b : VoteBlock} (hb : c.block = some b) (ha : c.action = .undecided) : ∃ u, voteEvaluate j s =
      armChip u (.commit j) c.commitMark.toNat c.desc ∧ u.gau = s.gau ∧ u.lnk = s.lnk ∧ u.panels = s.panels ∧ u.mem = s.mem ∧
      (u.job j).commit = some { c with
        action := if voteAgrees (s.job j).nranks c b then .write else .discard, reasons := voteReasons (s.job j).nranks c b } := by
  unfold voteEvaluate
  simp only [hc, hb, ha, updCommit_eq hc]
  refine ⟨_, rfl, ?_⟩
  split <;> simp

theorem voteEvaluate_decided (h : c.action ≠ .undecided ∨ c.block = none) : voteEvaluate j s = s := by
  unfold voteEvaluate
  simp only [hc]
  split
  · next hb ha => exact h.elim (fun h => absurd ha h) fun h => by simp [h] at hb
  · rfl

theorem commitUnresolved_waits (h : c.action ≠ .undecided ∨ c.block ≠ none ∨ atMark s (c.commitMark.toNat - 1719) = false) :
    commitUnresolved j s = s := by
  unfold commitUnresolved
  simp only [hc]
  refine if_neg fun ⟨ha, hb, hm⟩ => ?_
  exact h.elim (fun h => h ha) fun h => h.elim (fun h => h hb) fun h => by simp [h] at hm

/-- The commit that has no block in time. -/
def unresolved (c : CommitState) : CommitState :=
  { c with
    action := .discard
    reasons := BitVec.ofNat 8 (16 + (if c.voteFlagged then 4 else 0) + (if c.voted = some true then 0 else 8)) }

theorem commitUnresolved_discards (ha : c.action = .undecided) (hb : c.block = none)
    (hm : atMark s (c.commitMark.toNat - 1719) = true) : commitUnresolved j s =
      armChip (raiseEv (s.setJob j { s.job j with commit := some (unresolved c) }) 0x0102 166 [] (some (s.job j).ctx)
        (BitVec.ofNat 8 j.val)) (.commit j) c.commitMark.toNat c.desc := by
  have hr : { c with action := .discard, reasons := BitVec.ofNat 8 (4 * bnat c.voteFlagged + 8 * bnat (c.voted != some true) + 16) } =
      unresolved c := by
    unfold unresolved
    congr 2
    have : bnat (c.voted != some true) = if c.voted = some true then 0 else 1 := by
      unfold bnat
      by_cases h : c.voted = some true <;> simp [h]
    rw [this]
    unfold bnat
    split <;> split <;> rfl
  unfold commitUnresolved
  simp only [hc]
  rw [if_pos ⟨ha, hb, hm⟩, updCommit_eq hc, hr]
  rfl

end

theorem voteAgrees_eq (n : Nat) (c : CommitState) (b : VoteBlock) : voteAgrees n c b =
    (!c.voteFlagged && decide (b.voters.toNat = n) && decide (b.readyCount.toNat = n) && decide (b.lo = b.hi)) := by
  simp only [voteAgrees, beq_eq_decide]

theorem voteReasons_eq (n : Nat) (c : CommitState) (b : VoteBlock) : voteReasons n c b =
    BitVec.ofNat 8 ((if b.readyCount.toNat < n then 1 else 0) + (if b.lo = b.hi then 0 else 2)
      + (if c.voteFlagged then 4 else 0) + (if c.voted = some true then 0 else 8)) := by
  unfold voteReasons bnat
  simp only [bne_iff_ne, ne_eq, decide_eq_true_eq, ite_not, mul_ite, mul_one, mul_zero]

/-! ### The end of the COMMIT's descriptor -/

@[simp] theorem updDesc_jobs (s : State) (d : DescId) (g : DescState → DescState) : (updDesc s d g).jobs = s.jobs := by
  rw [updDesc_fields]

@[simp] theorem updDesc_mem (s : State) (d : DescId) (g : DescState → DescState) : (updDesc s d g).mem = s.mem := by
  rw [updDesc_fields]

/-- Jobs and GDDR7: what the end of a descriptor that counts for no attempt leaves alone. -/
def jobsGddr (s : State) : Tab JobState × Bank := (s.jobs, s.mem.gddr)

theorem jobsGddr_noteReport (s : State) (x : DescState) : jobsGddr (noteReport s x) = jobsGddr s := by
  unfold noteReport
  split
  · simp [jobsGddr]
  · rfl

theorem jobsGddr_writeRecord (s : State) (h : HeldRecord) : jobsGddr (writeRecord s h) = jobsGddr s := by
  unfold writeRecord
  dsimp only
  split <;> split <;> rfl

theorem noteUpdate_other {s : State} {x : DescState} (h : descOp x ≠ opUpdate) (ok : Bool) : noteUpdate s x ok = s := if_pos h

theorem jobsGddr_endDesc {s : State} {d : DescId} {x : DescState} (hx : s.desc? d = some x) (h : descOp x ≠ opUpdate)
    (status : BitVec 16) : jobsGddr (endDesc s d status) = jobsGddr s := by
  unfold endDesc
  rw [hx]
  dsimp only
  rw [noteUpdate_other h]
  split
  · rw [jobsGddr_noteReport, jobsGddr_writeRecord]; rfl
  · split
    · rw [jobsGddr_noteReport]; rfl
    · rfl

theorem jobsGddr_concludeDesc {s : State} {d : DescId} (h : ∀ x, s.desc? d = some x → descOp x ≠ opUpdate) (status : BitVec 16) :
    jobsGddr (concludeDesc s d status) = jobsGddr s := by
  unfold concludeDesc
  split
  · next x hx => exact jobsGddr_endDesc hx (h x hx) _
  · rfl

/-- The results of a descriptor's report are no part of its words. -/
theorem descOp_setResult {s : State} {d e : DescId} {x : DescState} {i v : Nat} (h : (setResult s d i v).desc? e = some x) :
    ∃ y, s.desc? e = some y ∧ descOp x = descOp y := by
  unfold setResult updDesc at h
  split at h
  · next y hy =>
    by_cases he : e = d
    · subst he
      rw [State.setDesc_desc_same] at h
      exact ⟨y, hy, by rw [← Option.some.inj h]; rfl⟩
    · rw [State.setDesc_desc_ne _ _ he] at h
      exact ⟨x, h, rfl⟩
  · exact ⟨x, h, rfl⟩

theorem jobsGddr_setResult (s : State) (d : DescId) (i v : Nat) : jobsGddr (setResult s d i v) = jobsGddr s := by
  simp [jobsGddr, setResult]

theorem jobsGddr_concludeCommit {s : State} {c : CommitState} (h : ∀ x, s.desc? c.desc = some x → descOp x = opCommit)
    (status : BitVec 16) : jobsGddr (concludeCommit s c status) = jobsGddr s := by
  unfold concludeCommit
  dsimp only
  rw [jobsGddr_concludeDesc, jobsGddr_setResult, jobsGddr_setResult, jobsGddr_setResult]
  intro x hx
  obtain ⟨y, hy, hxy⟩ := descOp_setResult hx
  obtain ⟨z, hz, hyz⟩ := descOp_setResult hy
  obtain ⟨w, hw, hzw⟩ := descOp_setResult hz
  rw [hxy, hyz, hzw, h w hw]
  decide

/-! ### Record and discard -/

/-- A fold of steps that change panels alone changes panels alone. -/
theorem foldl_changes_panels {β : Type} {g : State → β → State} (h : ∀ s b, ∃ p, g s b = { s with panels := p }) (l : List β) :
    ∀ s : State, ∃ p, l.foldl g s = { s with panels := p } := by
  induction l with
  | nil => exact fun s => ⟨s.panels, rfl⟩
  | cons b t ih =>
    intro s
    obtain ⟨p, hp⟩ := h s b
    obtain ⟨q, hq⟩ := ih (g s b)
    exact ⟨q, by rw [List.foldl_cons, hq, hp]⟩

/-- Freeing a comparator changes panels alone. -/
theorem disarm_changes_panels (s : State) (a : LaunchId) : ∃ p, disarm s a = { s with panels := p } :=
  foldl_changes_panels (fun _ _ => ⟨_, rfl⟩) _ s

theorem commitWord_disarm (s : State) (a : LaunchId) (j : Job) (i : Nat) : commitWord (disarm s a) j i = commitWord s j i := by
  obtain ⟨p, hp⟩ := disarm_changes_panels s a
  rw [hp]
  rfl

section

variable {s : State} {j : Job} {c : CommitState} (hc : (s.job j).commit = some c)
include hc

theorem commitRecordWrite_waits (h : fires s (.commit j) = false ∨ c.action ≠ .write) : commitRecordWrite j s = s := by
  unfold commitRecordWrite
  simp only [hc]
  exact if_neg fun ⟨hf, ha⟩ => h.elim (fun h => by simp [h] at hf) fun h => h ha

theorem commitDiscard_waits (h : fires s (.commit j) = false ∨ c.action ≠ .discard) : commitDiscard j s = s := by
  unfold commitDiscard
  simp only [hc]
  exact if_neg fun ⟨hf, ha⟩ => h.elim (fun h => by simp [h] at hf) fun h => h ha

/-- The record that the commit writes (R278), but for its CHECK. -/
def commitRecord (s : State) (j : Job) (c : CommitState) : List Nat :=
  [(jobEpoch s j + 1) % 2 ^ 32, c.commitMark.toNat, c.step.toNat + 2 ^ 32 * (s.job j).nranks,
    (c.block.map fun b => b.loDigest.toNat).getD 0,
    j.val + 2 ^ 8 * ((s.job j).shadow.map fun h => bnat h.copy).getD (ladderCopy s j), commitWord s j 1, 0]

theorem commitRecordWrite_writes (hf : fires s (.commit j) = true) (ha : c.action = .write) :
    let u := disarm s (.commit j)
    let v := jobWrite (flipWrite u j c.step.toNat) j (s.job j).update.toNat
      (wordBytes (commitRecord s j c ++ [digest64 (wordBytes (commitRecord s j c))]))
    commitRecordWrite j s = concludeCommit (copyStats (v.setJob j
      { endAttempt (ladderFlip (v.job j) c.step.toNat) with tagLog := [] }) j c.step.toNat) c stCommitted := by
  have hw : recordWords ((jobEpoch (disarm s (.commit j)) j + 1) % 2 ^ 32) c.commitMark.toNat c.step.toNat (s.job j).nranks
      ((c.block.map fun b => b.loDigest.toNat).getD 0) j.val (match (s.job j).shadow with
        | some h => bnat h.copy
        | none => ladderCopy (disarm s (.commit j)) j) (commitWord (disarm s (.commit j)) j 1) = commitRecord s j c := by
    unfold recordWords commitRecord ladderCopy jobEpoch
    simp only [commitWord_disarm]
    rw [Nat.mod_eq_of_lt c.step.isLt]
    cases (s.job j).shadow <;> rfl
  unfold commitRecordWrite
  simp only [hc]
  refine (if_pos ⟨hf, ha⟩).trans ?_
  rw [← hw]
  rfl

theorem commitDiscard_discards (hf : fires s (.commit j) = true) (ha : c.action = .discard) :
    commitDiscard j s = refuseCommit (disarm s (.commit j)) j c := by
  unfold commitDiscard
  simp only [hc]
  exact if_pos ⟨hf, ha⟩

end

/-- A refused commit leaves GDDR7, and its job with nothing of the step. -/
theorem refuseCommit_leaves {s : State} {j : Job} {c : CommitState} (h : ∀ x, s.desc? c.desc = some x → descOp x = opCommit) :
    (refuseCommit s j c).mem.gddr = s.mem.gddr ∧ (refuseCommit s j c).job j = discardStep (s.job j) c.step := by
  have hk : jobsGddr (refuseCommit s j c) = jobsGddr (s.setJob j (discardStep (s.job j) c.step)) := by
    unfold refuseCommit
    rw [jobsGddr_concludeCommit (fun x hx => h x (by simpa using hx))]
    simp [jobsGddr]
  obtain ⟨hj, hg⟩ := Prod.mk.inj hk
  refine ⟨hg, ?_⟩
  rw [State.job, hj]
  exact State.setJob_job_same ..

/-! ### Scrub, ladder and roots -/

theorem job_voidLog (s : State) (j : Job) (p : Nat) : (voidLog s j p).job j = s.job j :=
  job_of_besidesEvents (besidesEvents_foldl (fun s _ => besidesEvents_jobWrite s j _ _) _ _) j

theorem job_foldl_voidLog (j : Job) (l : List Nat) : ∀ s : State, (l.foldl (fun u p => voidLog u j p) s).job j = s.job j := by
  induction l with
  | nil => exact fun _ => rfl
  | cons p t ih => exact fun s => (ih _).trans (job_voidLog s j p)

theorem scrubEnd_scrubs {s : State} {j : Job} (h : (s.job j).scrub = true) :
    let u := [0, 1, 2, 3].foldl (fun u p => voidLog u j p) s
    scrubEnd j s = restartQueues (u.setJob j { u.job j with scrub := false, tagLog := [] }) (s.job j).ctx := by
  intro u
  have hu : u.job j = s.job j := job_foldl_voidLog j [0, 1, 2, 3] s
  unfold scrubEnd
  rw [if_pos h]
  exact congrArg (restartQueues (u.setJob j { u.job j with scrub := false, tagLog := [] })) (congrArg JobState.ctx hu)

theorem scrubEnd_idle {s : State} {j : Job} (h : (s.job j).scrub = false) : scrubEnd j s = s := if_neg (Bool.eq_false_iff.1 h)

theorem ladderDecide_idle {s : State} {j : Job} (h : (s.job j).jobWide = none ∨ (s.job j).shadow.isSome = true) :
    ladderDecide s j = s := by
  unfold ladderDecide
  dsimp only
  split
  · next hw hs => exact h.elim (fun h => by simp [h] at hw) fun h => by simp [hs] at h
  · rfl

/-- The copy that is not live is copy 1 where copy 0 is live. -/
theorem otherCopy_eq (s : State) (j : Job) : (1 - ladderCopy s j == 1) = (ladderCopy s j == 0) := by
  have h : ladderCopy s j < 2 := Nat.mod_lt _ (by decide)
  interval_cases ladderCopy s j <;> rfl

theorem ladderDecide_decides {s : State} {j : Job} {step : W32} {p : Policy} {recs : List LadderRec}
    {emits : List (BitVec 16 × Nat × Nat × Nat)} (hw : (s.job j).jobWide = some (step, false)) (hs : (s.job j).shadow = none)
    (h : shadowOf s j step.toNat = some (p, recs, emits)) : (ladderDecide s j).job j = { s.job j with
      shadow := some { step := step, copy := ladderCopy s j == 0, recs := recs
                       digest := BitVec.ofNat 64 (digest64 (recs.flatMap ladderBytes)), policy := some p, ready := true } } := by
  unfold ladderDecide
  simp only [hw, hs, h, State.setJob_job_same, otherCopy_eq]

theorem planeRootsDone_idle {s : State} {j : Job} {idx : Nat}
    (h : ((s.job j).rootDue.find? fun r => r.layer == idx && r.computing && tilesRun s r.panel) = none) :
    planeRootsDone j idx s = s := by
  unfold planeRootsDone
  simp only [h]

/-- The bytes of a layer's left and right statistics. -/
def rootLeftBytes (r : RootDue) : Nat := r.rows / r.blockL * (r.blockL * r.blockL * 8)
def rootRightBytes (r : RootDue) : Nat := r.cols / r.blockR * (r.blockR * r.blockR * 8)

/-- The set of roots that the next run of a layer writes. -/
def nextSet (x : JobState) (idx : Nat) : Bool :=
  match x.roots.find? fun y => y.layer == idx && y.ok with
  | some y => !y.set
  | none => false

/-- The run of a layer's roots from the statistics at area; lost where there is no record to take their place from. -/
def rootRun (u : State) (c : Ctx) (r : RootDue) (idx area : Nat) (lost set : Bool) : RootRun :=
  match lost, rootBlocks u c r area r.blockL (r.rows / r.blockL), rootBlocks u c r (area + rootLeftBytes r) r.blockR (r.cols / r.blockR) with
  | false, some (_, a), some (_, b) => ⟨idx, r.step, true, set, a + b, r.n⟩
  | _, _, _ => ⟨idx, r.step, false, false, 0, r.n⟩

/-- The computation of roots writes memory, and then records its run with the job. -/
theorem planeRootsDone_runs {s : State} {j : Job} {idx : Nat} {r : RootDue}
    (h : ((s.job j).rootDue.find? fun r => r.layer == idx && r.computing && tilesRun s r.panel) = some r) :
    let c := (s.job j).ctx
    let area := recRoot (slotWords s c (slotRecord s j idx))
    let lost := vaPoisoned s c (slotRecord s j idx) 64
    let u := noteVaRead (noteVaRead s c (slotRecord s j idx) 64) c area (if lost then 0 else rootLeftBytes r + rootRightBytes r)
    ∃ w, besidesEvents w = besidesEvents u ∧ planeRootsDone j idx s = w.setJob j { w.job j with
      roots := rootRun u c r idx area lost (nextSet (s.job j) idx) :: (w.job j).roots
      rootDue := (w.job j).rootDue.filter fun z => !(z.layer == idx && z.computing) } := by
  intro c area lost u
  unfold planeRootsDone
  simp only [h]
  split
  · next l t q t' hl ha hb =>
    have hrun : rootRun u c r idx area lost (nextSet (s.job j) idx) = ⟨idx, r.step, true, nextSet (s.job j) idx, t + t', r.n⟩ := by
      unfold rootRun
      rw [show lost = false from hl, show rootBlocks u c r area _ _ = _ from ha, show rootBlocks u c r (area + rootLeftBytes r) _ _ = _ from hb]
    rw [hrun]
    refine ⟨_, ?_, rfl⟩
    rw [besidesEvents_jobWrite]
    exact besidesEvents_vaWrite_getD (besidesEvents_noteVaWrite ..)
  · next hno =>
    have hrun : rootRun u c r idx area lost (nextSet (s.job j) idx) = ⟨idx, r.step, false, false, 0, r.n⟩ := by
      unfold rootRun
      split
      · next l t q t' hl ha hb => exact absurd hb (hno _ _ _ _ hl ha)
      · rfl
    rw [hrun]
    exact ⟨_, besidesEvents_jobWrite .., rfl⟩

/-- The parts of O50 that say what each command does; where what it acts on is not there, it does nothing. -/
theorem commit_commands_idle (s : State) (j : Job) :
    (fires s (.commit j) = false → exec (.commitRecordWrite j) s = .next s ∧ exec (.commitDiscard j) s = .next s) ∧
    (∀ c, (s.job j).commit = some c →
      (c.action ≠ .undecided → exec (.voteEvaluate j) s = .next s ∧ exec (.commitUnresolved j) s = .next s) ∧
      (c.block = none → exec (.voteEvaluate j) s = .next s) ∧ (c.block ≠ none → exec (.commitUnresolved j) s = .next s) ∧
      (c.action ≠ .write → exec (.commitRecordWrite j) s = .next s) ∧ (c.action ≠ .discard → exec (.commitDiscard j) s = .next s)) ∧
    ((s.job j).commit = none →
      ∀ i ∈ [Instr.voteEvaluate j, .commitUnresolved j, .commitRecordWrite j, .commitDiscard j], exec i s = .next s) := by
  have hnone : (s.job j).commit = none → voteEvaluate j s = s ∧ commitUnresolved j s = s ∧ commitRecordWrite j s = s ∧
      commitDiscard j s = s := fun h => by
    simp [voteEvaluate, commitUnresolved, commitRecordWrite, commitDiscard, h]
  refine ⟨fun hf => ?_, fun c hc => ⟨fun ha => ?_, fun hb => ?_, fun hb => ?_, fun ha => ?_, fun ha => ?_⟩, fun h => ?_⟩
  · rw [exec_commitRecordWrite, exec_commitDiscard]
    cases hc : (s.job j).commit with
    | none => rw [(hnone hc).2.2.1, (hnone hc).2.2.2]; exact ⟨rfl, rfl⟩
    | some c => rw [commitRecordWrite_waits hc (.inl hf), commitDiscard_waits hc (.inl hf)]; exact ⟨rfl, rfl⟩
  · rw [exec_voteEvaluate, exec_commitUnresolved, voteEvaluate_decided hc (.inl ha), commitUnresolved_waits hc (.inl ha)]
    exact ⟨rfl, rfl⟩
  · rw [exec_voteEvaluate, voteEvaluate_decided hc (.inr hb)]
  · rw [exec_commitUnresolved, commitUnresolved_waits hc (.inr (.inl hb))]
  · rw [exec_commitRecordWrite, commitRecordWrite_waits hc (.inr ha)]
  · rw [exec_commitDiscard, commitDiscard_waits hc (.inr ha)]
  · obtain ⟨hv, hu, hr, hd⟩ := hnone h
    intro i hi
    simp only [List.mem_cons, List.not_mem_nil, or_false] at hi
    rcases hi with rfl | rfl | rfl | rfl
    · rw [exec_voteEvaluate, hv]
    · rw [exec_commitUnresolved, hu]
    · rw [exec_commitRecordWrite, hr]
    · rw [exec_commitDiscard, hd]

/-- Settles O50. -/
theorem commitFamilyCompletes : Obligations.CommitFamilyCompletes := by
  unfold Obligations.CommitFamilyCompletes
  intro s j x canArm
  obtain ⟨hwait, hother, hnone⟩ := commit_commands_idle s j
  refine ⟨?_, ?_, ?_, ?_, ?_, ?_, hwait, hother, hnone, ?_, ?_, ?_⟩
  · intro c b hc hb ha agree
    obtain ⟨u, hu, hg, hl, hp, hm, hcommit⟩ := voteEvaluate_decides hc hb ha
    refine ⟨_, (exec_voteEvaluate j s).trans (congrArg _ hu), ?_, fun harm => armChip_arms hg hl hp harm, ?_⟩
    · rw [armChip_job, hcommit, voteAgrees_eq, voteReasons_eq]
    · rw [armChip_mem, hm]
  · intro c hc hb ha
    refine ⟨fun hm => ?_, fun hm => ?_⟩
    · rw [exec_commitUnresolved, commitUnresolved_waits hc (.inr (.inr hm))]
    · refine ⟨_, (exec_commitUnresolved j s).trans (congrArg _ (commitUnresolved_discards hc ha hb hm)), rfl, armChip_ev .., ?_,
        fun harm => armChip_arms (by simp) (by simp) (by simp) harm, ?_⟩
      · rw [armChip_job, raiseEv_job, State.setJob_job_same]
        rfl
      · rw [armChip_mem, raiseEv_mem, State.setJob_mem]
  · intro c hc hf
    refine ⟨fun ha => ?_, fun ha hop => ?_⟩
    · intro copy digest u w v
      rw [exec_commitRecordWrite, commitRecordWrite_writes hc hf ha]
      rfl
    · obtain ⟨p, hp⟩ := disarm_changes_panels s (.commit j)
      obtain ⟨hg, hj⟩ := refuseCommit_leaves (s := disarm s (.commit j)) (j := j) (c := c) (by rw [hp]; exact hop)
      have hjob : (disarm s (.commit j)).job j = x := by rw [hp]; rfl
      refine ⟨_, (exec_commitDiscard j s).trans (congrArg _ (commitDiscard_discards hc hf ha)), ?_⟩
      rw [hg, hj, hjob, hp]
      exact ⟨rfl, rfl, rfl, rfl, rfl, rfl, rfl, rfl⟩
  · intro h u
    rw [exec_scrubEnd, scrubEnd_scrubs h]
  · intro step p recs emits hw hs h
    exact ⟨_, exec_ladderDecide j s, ladderDecide_decides hw hs h⟩
  · intro idx r h area lb set lost u run
    obtain ⟨w, hw, ht⟩ := planeRootsDone_runs h
    have hj : w.job j = x := by
      rw [job_of_besidesEvents hw, job_of_besidesEvents (besidesEvents_noteVaRead ..), job_of_besidesEvents (besidesEvents_noteVaRead ..)]
    refine ⟨_, (exec_planeRootsDone j idx s).trans (congrArg _ ht), ?_⟩
    rw [State.setJob_job_same, hj]
    exact ⟨rfl, rfl⟩
  · intro h
    rw [exec_scrubEnd, scrubEnd_idle h]
  · intro h
    rw [exec_ladderDecide, ladderDecide_idle h]
  · intro idx h
    rw [exec_planeRootsDone, planeRootsDone_idle h]

end Sys2Proof.Machine

end

section

/-! SUPPORT. The settlement of stages and clocks (R461, R467): what each panel's clocks are on their way to, and the entry into and
the leaving of stage 5. -/

namespace Sys2Proof.Machine

open Sys2Proof Claims

/-! ### Differences in clocks and windows alone -/

theorem onlyClocks_refl (s : State) : onlyClocks s s := rfl

theorem onlyClocks_trans {s t u : State} (h : onlyClocks s t) (k : onlyClocks t u) : onlyClocks s u := by
  unfold onlyClocks at h k ⊢
  rw [k, h]

theorem onlyClocks_foldl {g : State → Panel → State} (h : ∀ s p, onlyClocks s (g s p)) (l : List Panel) :
    ∀ s, onlyClocks s (l.foldl g s) := by
  induction l with
  | nil => exact onlyClocks_refl
  | cons p t ih => exact fun s => onlyClocks_trans (h s p) (ih _)

theorem onlyClocks_retune (s : State) (p : Panel) : onlyClocks s (retune s p) := by
  unfold retune requestClock
  split
  · exact onlyClocks_refl s
  · dsimp only
    split
    · rfl
    · split <;> rfl

theorem onlyClocks_restartPanel (s : State) (p : Panel) : onlyClocks s (restartPanel s p) := rfl

/-! ### Clocks follow the points of R467 -/

/-- The panel is on its way to the points of R467. -/
def Aimed (s : State) (q : Panel) : Prop := aimOf (s.panel q) = pointsOf s q

/-- A change is held behind another one only. -/
def HeldBehind (s : State) : Prop := ∀ q, (s.panel q).stall = none → (s.panel q).held = none

/-- The points of R467 do not ask whether stage 5 is in force. -/
theorem pointsOf_congr {s t : State} {b : Bool} (h : t.pwr = { s.pwr with stage5 := b }) (q : Panel) : pointsOf t q = pointsOf s q := by
  unfold pointsOf stageIn sagStage thermalStage drillStage limitPoint
  rw [h]

theorem pointsOf_of_onlyClocks {s t : State} (h : onlyClocks s t) (q : Panel) : pointsOf t q = pointsOf s q := by
  rw [h]
  rfl

theorem retune_panel_ne {s : State} {p q : Panel} (h : q ≠ p) : (retune s p).panel q = s.panel q := by
  unfold retune requestClock
  split
  · rfl
  · dsimp only
    split
    · exact State.setPanel_panel_ne _ _ h
    · split
      · rfl
      · exact State.setPanel_panel_ne _ _ h

/-- A request leaves a panel on its way to what was asked for, and nothing held behind none. -/
theorem requestClock_panel {s : State} {p : Panel} {w : Fin 5 × Fin 5} (h : (s.panel p).stall = none → (s.panel p).held = none) :
    aimOf ((requestClock s p w).panel p) = w ∧
      (((requestClock s p w).panel p).stall = none → ((requestClock s p w).panel p).held = none) := by
  cases hs : (s.panel p).stall with
  | some y =>
    rw [requestClock_held w hs, State.setPanel_panel_same]
    exact ⟨rfl, fun hn => by simp [hs] at hn⟩
  | none =>
    by_cases hw : w = ((s.panel p).coreOp, (s.panel p).matrixOp)
    · rw [requestClock_in_force w hs hw]
      exact ⟨by simp [aimOf, hs, h hs, hw], fun _ => h hs⟩
    · rw [requestClock_stalls w hs hw, State.setPanel_panel_same]
      exact ⟨by simp [aimOf, h hs], fun hn => by simp at hn⟩

theorem heldBehind_retune {s : State} (h : HeldBehind s) (p : Panel) : HeldBehind (retune s p) := by
  intro q
  by_cases hq : q = p
  · subst hq
    unfold retune
    split
    · exact h q
    · exact (requestClock_panel (h q)).2
  · rw [retune_panel_ne hq]
    exact h q

theorem aimed_retune_same {s : State} (h : HeldBehind s) (p : Panel) : Aimed (retune s p) p := by
  unfold Aimed
  rw [pointsOf_of_onlyClocks (onlyClocks_retune s p)]
  unfold retune
  split
  · next ha => exact ha
  · exact (requestClock_panel (h p)).1

theorem aimed_retune {s : State} {q : Panel} (h : Aimed s q) (p : Panel) : Aimed (retune s p) q := by
  by_cases hq : q = p
  · subst hq
    rwa [show retune s q = s from if_pos h]
  · unfold Aimed
    rw [pointsOf_of_onlyClocks (onlyClocks_retune s p), retune_panel_ne hq]
    exact h

/-- A fold over a list with q establishes what the step at q does, where every step keeps it and an invariant. -/
theorem foldl_establishes {α : Type} {g : State → α → State} {I P : State → Prop} {q : α} (hI : ∀ s p, I s → I (g s p))
    (hset : ∀ s, I s → P (g s q)) (hkeep : ∀ s p, I s → P s → P (g s p)) (l : List α) :
    ∀ s : State, I s → P s ∨ q ∈ l → P (l.foldl g s) := by
  induction l with
  | nil => exact fun s _ h => h.resolve_right List.not_mem_nil
  | cons p t ih =>
    intro s hs h
    refine ih _ (hI s p hs) ?_
    rcases h with h | h
    · exact .inl (hkeep s p hs h)
    · rcases List.mem_cons.1 h with rfl | h
      · exact .inl (hset s hs)
      · exact .inr h

theorem mem_panels (q : Panel) : q ∈ ([0, 1, 2, 3] : List Panel) := by revert q; decide

theorem aimed_retuneAll {s : State} (h : HeldBehind s) (q : Panel) : aimOf ((retuneAll s).panel q) = pointsOf s q := by
  have ha : Aimed (retuneAll s) q := 
    foldl_establishes (I := HeldBehind) (P := fun u => Aimed u q) (fun _ p hs => heldBehind_retune hs p)
      (fun _ hs => aimed_retune_same hs q) (fun _ p _ ha => aimed_retune ha p) _ s h (.inr (mem_panels q))
  exact ha.trans (pointsOf_of_onlyClocks (onlyClocks_foldl onlyClocks_retune _ s) q)

/-! ### The settlement -/

/-- The windows of the panels that take up work again begin anew. -/
def restartFreed (s0 s : State) : State :=
  ([0, 1, 2, 3] : List Panel).foldl (fun s p => if noNewWork s0 p && !noNewWork s p then restartPanel s p else s) s

theorem settleStages_eq (s0 s : State) : settleStages s0 s = restartFreed s0 (retuneAll (judgeFive s)) := rfl

theorem onlyClocks_restartFreed (s0 s : State) : onlyClocks s (restartFreed s0 s) := by
  refine onlyClocks_foldl (fun s p => ?_) _ s
  split
  · exact onlyClocks_restartPanel s p
  · exact onlyClocks_refl s

theorem panels_restartFreed (s0 s : State) : (restartFreed s0 s).panels = s.panels := by
  unfold restartFreed
  generalize ([0, 1, 2, 3] : List Panel) = l
  induction l generalizing s with
  | nil => rfl
  | cons p t ih =>
    rw [List.foldl_cons, ih]
    split <;> rfl

/-- The settlement after the judgement of stage 5 moves clocks and windows alone. -/
theorem onlyClocks_settleStages (s0 s : State) : onlyClocks (judgeFive s) (settleStages s0 s) :=
  onlyClocks_trans (onlyClocks_foldl onlyClocks_retune _ _) (onlyClocks_restartFreed s0 _)

/-! ### Stage 5 -/

theorem memCtl_setMemCtl_same (s : State) (p : Panel) (c : MemCtl) : (s.setMemCtl p c).memCtl p = c :=
  tabGet_tabSet_same ..

theorem memCtl_setMemCtl_ne {p q : Panel} (h : q ≠ p) (s : State) (c : MemCtl) : (s.setMemCtl p c).memCtl q = s.memCtl q :=
  tabGet_tabSet_ne _ _ _ fun he => h (Fin.ext he)

/-- Self-refresh touches the controllers alone. -/
theorem selfRefreshAll_changes_ctl (on : Bool) (s : State) : ∃ c, selfRefreshAll on s = { s with mem := { s.mem with ctl := c } } := by
  unfold selfRefreshAll
  generalize ([0, 1, 2, 3] : List Panel) = l
  induction l generalizing s with
  | nil => exact ⟨s.mem.ctl, rfl⟩
  | cons p t ih =>
    obtain ⟨c, hc⟩ := ih (s.setMemCtl p { s.memCtl p with selfRefresh := on || (s.memCtl p).inReset })
    exact ⟨c, hc⟩

/-- Whether the devices of a panel are in self-refresh, and its controllers in reset. -/
def ctlFlags (s : State) (q : Panel) : Bool × Bool := ((s.memCtl q).selfRefresh, (s.memCtl q).inReset)

theorem inReset_setSelfRefresh (on : Bool) (s : State) (p q : Panel) :
    ((s.setMemCtl p { s.memCtl p with selfRefresh := on || (s.memCtl p).inReset }).memCtl q).inReset = (s.memCtl q).inReset := by
  by_cases h : q = p
  · rw [h, memCtl_setMemCtl_same]
  · rw [memCtl_setMemCtl_ne h]

theorem ctlFlags_selfRefreshAll (on : Bool) (s : State) (q : Panel) :
    ctlFlags (selfRefreshAll on s) q = (on || (s.memCtl q).inReset, (s.memCtl q).inReset) := by
  have h : ((selfRefreshAll on s).memCtl q).selfRefresh = (on || (s.memCtl q).inReset) ∧
      ((selfRefreshAll on s).memCtl q).inReset = (s.memCtl q).inReset := by
    refine foldl_establishes (I := fun u => (u.memCtl q).inReset = (s.memCtl q).inReset)
      (P := fun u => (u.memCtl q).selfRefresh = (on || (s.memCtl q).inReset) ∧ (u.memCtl q).inReset = (s.memCtl q).inReset)
      (fun u p hu => (inReset_setSelfRefresh on u p q).trans hu) (fun u hu => ?_) (fun u p hu hp => ?_) _ s rfl (.inr (mem_panels q))
    · refine ⟨?_, (inReset_setSelfRefresh on u q q).trans hu⟩
      rw [memCtl_setMemCtl_same, hu]
    · refine ⟨?_, (inReset_setSelfRefresh on u p q).trans hu⟩
      by_cases h : q = p
      · rw [← h, memCtl_setMemCtl_same, hu]
      · rw [memCtl_setMemCtl_ne h, hp.1]
  exact Prod.ext h.1 h.2

/-! Dumps -/

theorem besidesEvents_placeDump (s : State) (d : Dump) : besidesEvents (placeDump s d) = besidesEvents s := by
  unfold placeDump
  dsimp only
  split
  · split
    · rw [besidesEvents_raiseEv, besidesEvents_gddrWrite, besidesEvents_gddrWrite, besidesEvents_gddrWrite]
    · rw [besidesEvents_gddrWrite, besidesEvents_gddrWrite, besidesEvents_gddrWrite]
  · rw [besidesEvents_gddrWrite, besidesEvents_gddrWrite, besidesEvents_gddrWrite]

theorem besidesEvents_scanRings (s : State) : besidesEvents (scanRings s) = besidesEvents s := by
  unfold scanRings
  dsimp only
  rw [besidesEvents_foldl fun s x => ?_, besidesEvents_foldl fun s p => besidesEvents_setPath ..]
  unfold offerOn
  split
  · rfl
  · rw [besidesEvents_evOffer, besidesEvents_evOffer, besidesEvents_evOffer]

/-- Power and panels: what dumps leave alone. -/
def pwrPanels (s : State) : PwrState × Tab PanelState := (s.pwr, s.panels)

theorem pwrPanels_of_besidesEvents {s t : State} (h : besidesEvents t = besidesEvents s) : pwrPanels t = pwrPanels s := by
  have hp := congrArg pwrPanels h
  exact hp

theorem pwrPanels_placeDump (s : State) (d : Dump) : pwrPanels (placeDump s d) = pwrPanels s :=
  pwrPanels_of_besidesEvents (besidesEvents_placeDump s d)

theorem pwrPanels_updPwr (s : State) (g : PwrState → PwrState) : pwrPanels (updPwr s g) = (g s.pwr, s.panels) := rfl

theorem pwrPanels_writeDump (s : State) (rung : Nat) (p : Panel) (cause src : BitVec 16) (l : List DumpSect) :
    pwrPanels (writeDump s rung p cause src l) = pwrPanels s := by
  unfold writeDump
  dsimp only
  split
  · rw [pwrPanels_placeDump]
    rfl
  · rfl

theorem pwrPanels_copyShadow (s : State) (p : Panel) : pwrPanels (copyShadow s p) = pwrPanels s := by
  unfold copyShadow
  split
  · next d _ =>
    have h := pwrPanels_placeDump s d
    generalize placeDump s d = u at h ⊢
    split
    · exact h
    · rfl
  · rfl

theorem ctlFlags_setMemCtl {s : State} {p : Panel} {c : MemCtl} (h : (c.selfRefresh, c.inReset) = ctlFlags s p) (q : Panel) :
    ctlFlags (s.setMemCtl p c) q = ctlFlags s q := by
  unfold ctlFlags at *
  by_cases hq : q = p
  · rw [hq, memCtl_setMemCtl_same, h]
  · rw [memCtl_setMemCtl_ne hq]

theorem ctlFlags_gddrWrite (s : State) (pa : Nat) (data : List Byte) (q : Panel) : ctlFlags (gddrWrite s pa data) q = ctlFlags s q := by
  unfold gddrWrite
  dsimp only
  split
  · exact ctlFlags_setMemCtl (by rfl) q
  · rfl

theorem ctlFlags_placeDump (s : State) (d : Dump) (q : Panel) : ctlFlags (placeDump s d) q = ctlFlags s q := by
  have hw : ∀ u : State, u.mem = s.mem → ctlFlags u q = ctlFlags s q := fun u h => by unfold ctlFlags State.memCtl; rw [h]
  have hm : ∀ (u : State) (o : Nat), ctlFlags (raiseEv u evDumpLost (srcBench d.panel) [o]) q = ctlFlags u q := fun u o => by
    unfold ctlFlags State.memCtl
    rw [raiseEv_mem]
  unfold placeDump
  dsimp only
  split
  · split
    · rw [hm, ctlFlags_gddrWrite, ctlFlags_gddrWrite, ctlFlags_gddrWrite]
    · rw [ctlFlags_gddrWrite, ctlFlags_gddrWrite, ctlFlags_gddrWrite]
  · rw [ctlFlags_gddrWrite, ctlFlags_gddrWrite, ctlFlags_gddrWrite]

theorem ctlFlags_copyShadow (s : State) (p q : Panel) : ctlFlags (copyShadow s p) q = ctlFlags s q := by
  unfold copyShadow
  split
  · next d _ =>
    have h := ctlFlags_placeDump s d q
    generalize placeDump s d = u at h ⊢
    split
    · exact h
    · rfl
  · rfl

theorem glb_placeDump (s : State) (d : Dump) : (placeDump s d).glb = s.glb := by
  have hg := congrArg State.glb (besidesEvents_placeDump s d)
  exact hg

/-- A shadow that its panel can take is copied. -/
theorem copyShadow_copies {s : State} {q : Panel} (h : ctlFlags s q = (false, false)) :
    tabFind (copyShadow s q).glb.shadows q.val = none := by
  have hd : dumpable s q = true := by
    obtain ⟨h1, h2⟩ := Prod.mk.inj h
    simp [dumpable, h1, h2]
  unfold copyShadow
  split
  · next d _ =>
    rw [if_pos hd]
    exact tabFind_tabErase_same ..
  · next hn => exact hn

theorem copyShadow_keeps_none {s : State} {q : Panel} (h : tabFind s.glb.shadows q.val = none) (p : Panel) :
    tabFind (copyShadow s p).glb.shadows q.val = none := by
  by_cases hp : p = q
  · subst hp
    unfold copyShadow
    rw [h]
    exact h
  · unfold copyShadow
    split
    · split
      · refine (tabFind_tabErase_ne _ fun he => hp (Fin.ext he.symm)).trans ?_
        rw [glb_placeDump]
        exact h
      · exact h
    · exact h

/-! The judgement -/

theorem atFive_iff (s : State) : atFive s = true ↔ 5 ≤ sagStage s ∨ 5 ≤ moduleThermal s := by simp [atFive]

theorem judgeFive_same {s : State} (h : atFive s = s.pwr.stage5) : judgeFive s = s := by
  unfold judgeFive
  rw [h, Bool.and_not_self, Bool.not_and_self]
  rfl

/-- The module with the crash of stage 5 told and dumped. -/
def crashDumped (s : State) : State :=
  let shown := scanRings (raiseEv s evSagCrash srcModule [if 5 ≤ sagStage s then 0 else 1])
  writeDump shown 6 0 evSagCrash srcModule [mkSect sectSag 0 0 (.sag s.pwr.samples (railMv shown))]

theorem pwrPanels_shown (s : State) (l : List Nat) : pwrPanels (scanRings (raiseEv s evSagCrash srcModule l)) = pwrPanels s :=
  pwrPanels_of_besidesEvents ((besidesEvents_scanRings _).trans (besidesEvents_raiseEv ..))

theorem pwrPanels_crashDumped (s : State) : pwrPanels (crashDumped s) = pwrPanels s :=
  (pwrPanels_writeDump ..).trans (pwrPanels_shown s _)

theorem judgeFive_enters {s : State} (h : atFive s = true) (h5 : s.pwr.stage5 = false) :
    judgeFive s = selfRefreshAll true (updPwr (crashDumped s) fun p => { p with stage5 := true }) := by
  have hp : (scanRings (raiseEv s evSagCrash srcModule [if 5 ≤ sagStage s then 0 else 1])).pwr = s.pwr :=
    congrArg Prod.fst (pwrPanels_shown s _)
  have ha : bnat (!decide (5 ≤ sagStage s)) = if 5 ≤ sagStage s then 0 else 1 := by
    by_cases h : 5 ≤ sagStage s <;> simp [h, bnat]
  unfold judgeFive
  rw [if_pos (by simp [h, h5]), ha]
  unfold crashDumped
  dsimp only
  rw [sagSects, hp]

theorem judgeFive_leaves {s : State} (h : atFive s = false) (h5 : s.pwr.stage5 = true) : judgeFive s =
    ([0, 1, 2, 3] : List Panel).foldl copyShadow (selfRefreshAll false (updPwr s fun p => { p with stage5 := false })) := by
  unfold judgeFive
  rw [if_neg (by simp [h]), if_pos (by simp [h, h5])]

theorem pwrPanels_foldl_copyShadow (l : List Panel) : ∀ s : State, pwrPanels (l.foldl copyShadow s) = pwrPanels s := by
  induction l with
  | nil => exact fun _ => rfl
  | cons p t ih => exact fun s => (ih _).trans (pwrPanels_copyShadow s p)

theorem pwrPanels_selfRefreshAll (on : Bool) (s : State) : pwrPanels (selfRefreshAll on s) = pwrPanels s := by
  obtain ⟨c, hc⟩ := selfRefreshAll_changes_ctl on s
  rw [hc]
  rfl

/-- Of power and panels the judgement changes the mark of stage 5 alone. -/
theorem pwrPanels_judgeFive (s : State) : pwrPanels (judgeFive s) = ({ s.pwr with stage5 := atFive s }, s.panels) := by
  by_cases h : atFive s = s.pwr.stage5
  · rw [judgeFive_same h, h]
    rfl
  · cases ha : atFive s with
    | true =>
      have h5 : s.pwr.stage5 = false := by simpa [ha] using h
      obtain ⟨hp, hq⟩ := Prod.mk.inj (pwrPanels_crashDumped s)
      rw [judgeFive_enters ha h5, pwrPanels_selfRefreshAll, pwrPanels_updPwr, hp, hq]
    | false =>
      have h5 : s.pwr.stage5 = true := by simpa [ha] using h
      rw [judgeFive_leaves ha h5, pwrPanels_foldl_copyShadow, pwrPanels_selfRefreshAll, pwrPanels_updPwr]

/-- The entry into stage 5 leaves every panel's devices in self-refresh. -/
theorem judgeFive_enters_frame {s : State} (h : atFive s = true) (h5 : s.pwr.stage5 = false) :
    judgeFive s = { crashDumped s with
      mem := { (crashDumped s).mem with ctl := (judgeFive s).mem.ctl }, pwr := { s.pwr with stage5 := true } } := by
  obtain ⟨c, hc⟩ := selfRefreshAll_changes_ctl true (updPwr (crashDumped s) fun p => { p with stage5 := true })
  have hp : (crashDumped s).pwr = s.pwr := congrArg Prod.fst (pwrPanels_crashDumped s)
  rw [judgeFive_enters h h5, hc, ← hp]
  generalize crashDumped s = u
  rfl

/-- Where stage 5 is left the devices leave self-refresh, and the shadows that can be are copied. -/
theorem judgeFive_leaves_five {s : State} (h : atFive s = false) (h5 : s.pwr.stage5 = true) (q : Panel) :
    ctlFlags (judgeFive s) q = ((s.memCtl q).inReset, (s.memCtl q).inReset) ∧
      ((s.memCtl q).inReset = false → tabFind (judgeFive s).glb.shadows q.val = none) := by
  have h0 : ctlFlags (selfRefreshAll false (updPwr s fun p => { p with stage5 := false })) q =
      ((s.memCtl q).inReset, (s.memCtl q).inReset) := ctlFlags_selfRefreshAll false _ q
  rw [judgeFive_leaves h h5]
  generalize selfRefreshAll false (updPwr s fun p => { p with stage5 := false }) = u at h0
  constructor
  · rw [← h0]
    generalize ([0, 1, 2, 3] : List Panel) = l
    clear h0
    induction l generalizing u with
    | nil => rfl
    | cons p t ih => exact (ih _).trans (ctlFlags_copyShadow u p q)
  · intro hr
    refine foldl_establishes (I := fun u => ctlFlags u q = (false, false)) (P := fun u => tabFind u.glb.shadows q.val = none)
      (fun u p hu => (ctlFlags_copyShadow u p q).trans hu) (fun u hu => copyShadow_copies hu)
      (fun u p _ hu => copyShadow_keeps_none hu p) _ u (by rw [h0, hr]) (.inr (mem_panels q))

/-! ### The points -/

theorem pointsOf_peakCap {s : State} (h : s.pwr.peakCap = true) (q : Panel) : 2 ≤ (pointsOf s q).2.val := by
  unfold pointsOf
  simp only [h, if_true]
  have : (2 : Fin 5) ≤ max (max (stageCaps (stageIn s q)).2 (limitPoint s q)) (max (if s.pwr.excursionCap then 4 else 0) 2) :=
    le_max_of_le_right (le_max_right _ _)
  exact this

theorem fin5_max_left (a : Fin 5) : max 4 a = 4 := max_eq_left (Fin.le_last a)

theorem fin5_max_right (a : Fin 5) : max a 4 = 4 := max_eq_right (Fin.le_last a)

theorem pointsOf_excursionCap {s : State} (h : s.pwr.excursionCap = true) (q : Panel) : pointsOf s q = (4, 4) := by
  simp [pointsOf, h, fin5_max_left, fin5_max_right]

theorem pointsOf_stage {s : State} {q : Panel} (h : 3 ≤ stageIn s q) : pointsOf s q = (4, 4) := by
  simp [pointsOf, stageCaps, h, fin5_max_left]

/-- Settles O23: the clocks are retuned after the judgement of stage 5, which leaves the points as they were. -/
theorem clocksFollowTheStage : Obligations.ClocksFollowTheStage := by
  unfold Obligations.ClocksFollowTheStage
  intro s0 s hheld t shown dumped
  have hdumped : dumped = crashDumped s := rfl
  clear_value dumped
  subst hdumped
  obtain ⟨hpwr, hpanels⟩ := Prod.mk.inj (pwrPanels_judgeFive s)
  have hclocks : onlyClocks (judgeFive s) t := onlyClocks_settleStages s0 s
  have hmem : t.mem = (judgeFive s).mem := by rw [hclocks]
  have haim : ∀ q, aimOf (t.panel q) = pointsOf s q := by
    intro q
    have hpan : t.panel q = (retuneAll (judgeFive s)).panel q := by
      unfold State.panel
      rw [show t.panels = _ from panels_restartFreed s0 _]
    have hb : HeldBehind (judgeFive s) := fun q => by
      unfold State.panel
      rw [hpanels]
      exact hheld q
    rw [hpan, aimed_retuneAll hb q, pointsOf_congr hpwr]
  refine ⟨haim, fun h q => ?_, fun h q => ?_, fun q h => ?_, ?_, atFive_iff s, fun h => ?_, fun h h5 => ⟨fun q => ?_, ?_⟩, fun h h5 q => ?_⟩
  · rw [haim]; exact pointsOf_peakCap h q
  · rw [haim]; exact pointsOf_excursionCap h q
  · rw [haim]; exact pointsOf_stage h
  · rw [hclocks]
    exact congrArg PwrState.stage5 hpwr
  · rwa [judgeFive_same h] at hclocks
  · have hf : (ctlFlags (judgeFive s) q).1 = true := by rw [judgeFive_enters h h5, ctlFlags_selfRefreshAll]; rfl
    unfold State.memCtl
    rw [hmem]
    exact hf
  · rw [hmem]
    have hj := judgeFive_enters_frame h h5
    rw [hj] at hclocks
    exact hclocks
  · obtain ⟨hf, hs⟩ := judgeFive_leaves_five h h5 q
    have hglb : t.glb = (judgeFive s).glb := by rw [hclocks]
    refine ⟨?_, fun hr => by rw [hglb]; exact hs hr⟩
    unfold State.memCtl
    rw [hmem]
    exact (Prod.mk.inj hf).1

end Sys2Proof.Machine

end

section

/-! SUPPORT. Engines and their command queues (R22, R246, R250, R251): what the counters, the writes of a command and its end change,
each operation once. -/

namespace Sys2Proof.Machine

open Sys2Proof

/-! ### Counters, waits and fences -/

/-- Besides the slots, the counters and the count of late replies, t is s. -/
structure SlotsAndCounters (s t : State) : Prop where
  core : ∀ c, { t.core c with sync := [] } = { s.core c with sync := [] }
  panel : ∀ p, { t.panel p with sync := [] } = { s.panel p with sync := [] }
  rest : t = { s with slots := t.slots, cores := t.cores, panels := t.panels, glb := { s.glb with lateDrop := t.glb.lateDrop } }

namespace SlotsAndCounters

theorem trans {s t u : State} (h : SlotsAndCounters s t) (k : SlotsAndCounters t u) : SlotsAndCounters s u := by
  refine ⟨fun c => (k.core c).trans (h.core c), fun p => (k.panel p).trans (h.panel p), ?_⟩
  have hk := k.rest
  rw [h.rest] at hk
  exact hk

theorem setSlot (s : State) (t : Slot) (x : SlotState) : SlotsAndCounters s (s.setSlot t x) := ⟨fun _ => rfl, fun _ => rfl, rfl⟩

variable {s t : State} (h : SlotsAndCounters s t)
include h

theorem mem : t.mem = s.mem := by rw [h.rest]

theorem lnk : t.lnk = s.lnk := by rw [h.rest]

theorem qmg : t.qmg = s.qmg := by rw [h.rest]

theorem now : t.now = s.now := by rw [h.rest]; rfl

theorem engine (c : Core) (k : EngineKind) : t.engine c k = s.engine c k := by
  have hc := congrArg (fun x : CoreState => x.eng k) (h.core c)
  cases k <;> exact hc

theorem handles (c : Core) : (t.core c).handles = (s.core c).handles := by
  have hc := congrArg CoreState.handles (h.core c)
  exact hc

theorem icache (c : Core) : (t.core c).icache = (s.core c).icache := by
  have hc := congrArg CoreState.icache (h.core c)
  exact hc

theorem tagsOk (g : Tags) : tagsOk t g = tagsOk s g := by
  have hp : (t.panel (corePanel g.core)).inc = (s.panel (corePanel g.core)).inc := by
    have hq := congrArg PanelState.inc (h.panel (corePanel g.core))
    exact hq
  unfold Machine.tagsOk State.ctx
  rw [h.engine, hp, h.qmg]

end SlotsAndCounters

/-- Besides the counters, what holds the slots, and the count of late replies, t is s. -/
structure OnlyCounters (s t : State) : Prop extends SlotsAndCounters s t where
  slot : ∀ i, { t.slot i with hold := .free, holdSig := [] } = { s.slot i with hold := .free, holdSig := [] }

namespace OnlyCounters

theorem refl (s : State) : OnlyCounters s s := ⟨⟨fun _ => rfl, fun _ => rfl, rfl⟩, fun _ => rfl⟩

theorem trans {s t u : State} (h : OnlyCounters s t) (k : OnlyCounters t u) : OnlyCounters s u :=
  ⟨h.toSlotsAndCounters.trans k.toSlotsAndCounters, fun i => (k.slot i).trans (h.slot i)⟩

theorem foldl {β : Type} {g : State → β → State} (h : ∀ s b, OnlyCounters s (g s b)) (l : List β) :
    ∀ s, OnlyCounters s (l.foldl g s) := by
  induction l with
  | nil => exact refl
  | cons b t ih => exact fun s => (h s b).trans (ih _)

end OnlyCounters

theorem onlyCounters_scPut (s : State) (n : ScName) (v : W32) : OnlyCounters s (scPut s n v) := by
  cases n with
  | core c i =>
    refine ⟨⟨fun c' => ?_, fun _ => rfl, rfl⟩, fun _ => rfl⟩
    by_cases h : c' = c
    · rw [h, scPut, State.setCore_core_same]
    · rw [scPut, State.setCore_core_ne _ _ h]
  | panel p i =>
    refine ⟨⟨fun _ => rfl, fun p' => ?_, rfl⟩, fun _ => rfl⟩
    by_cases h : p' = p
    · rw [h, scPut, State.setPanel_panel_same]
    · rw [scPut, State.setPanel_panel_ne _ _ h]

theorem onlyCounters_lateDrop (s : State) (n : Nat) : OnlyCounters s (lateDrop s n) :=
  ⟨⟨fun _ => rfl, fun _ => rfl, rfl⟩, fun _ => rfl⟩

theorem onlyCounters_putInc (s : State) (n : ScName) (i : TaggedInc) : OnlyCounters s (putInc s n i) := by
  unfold putInc
  split
  · exact onlyCounters_scPut ..
  · exact onlyCounters_lateDrop ..

theorem onlyCounters_freeHolds (s : State) (l : List Nat) : OnlyCounters s (freeHolds s l) := by
  refine ⟨⟨fun _ => rfl, fun _ => rfl, rfl⟩, fun i => ?_⟩
  exact tabGet_map_keep ({} : SlotState) (fun x => { x with hold := .free, holdSig := [] })
    (fun p => if l.contains p.1 then (p.1, { p.2 with hold := .free, holdSig := [] }) else p)
    (fun p => by dsimp only; split <;> rfl) (fun p => by dsimp only; split <;> rfl) s.slots i.val

theorem onlyCounters_releaseFrom (n : Nat) : ∀ s : State, OnlyCounters s (releaseFrom n s) := by
  induction n with
  | zero => exact OnlyCounters.refl
  | succ n ih =>
    intro s
    unfold releaseFrom
    dsimp only
    split
    · exact OnlyCounters.refl s
    · exact ((onlyCounters_freeHolds s _).trans (OnlyCounters.foldl (fun s x => onlyCounters_putInc s _ _) _ _)).trans (ih _)

theorem onlyCounters_releaseWaits (s : State) : OnlyCounters s (releaseWaits s) := onlyCounters_releaseFrom _ s

theorem onlyCounters_scSet (s : State) (n : ScName) (v : W32) : OnlyCounters s (scSet s n v) :=
  (onlyCounters_scPut s n v).trans (onlyCounters_releaseWaits _)

theorem onlyCounters_applyInc (n : ScName) (s : State) (i : TaggedInc) : OnlyCounters s (applyInc n s i) :=
  (onlyCounters_putInc s n i).trans (onlyCounters_releaseWaits _)

theorem onlyCounters_setSlot {s : State} {t : Slot} {x : SlotState}
    (h : { x with hold := .free, holdSig := [] } = { s.slot t with hold := .free, holdSig := [] }) : OnlyCounters s (s.setSlot t x) := by
  refine ⟨⟨fun _ => rfl, fun _ => rfl, rfl⟩, fun i => ?_⟩
  by_cases hi : i = t
  · rw [hi, State.setSlot_slot_same, h]
  · rw [State.setSlot_slot_ne _ _ hi]

theorem onlyCounters_endFence (s : State) (t : Slot) : OnlyCounters s (endFence s t) := by
  unfold endFence
  dsimp only
  split
  · split
    · exact OnlyCounters.refl s
    · refine OnlyCounters.trans (onlyCounters_setSlot (x := { s.slot t with hold := .free, holdSig := [] }) rfl) ?_
      exact OnlyCounters.foldl (fun s g => onlyCounters_applyInc _ s _) _ _
  · exact OnlyCounters.refl s

/-! ### Where no slot is held -/

/-- A counter reads what was put into it. -/
theorem scGet_scPut_same (s : State) (n : ScName) (v : W32) : scGet (scPut s n v) n = v := by
  cases n <;> simp [scGet, scPut]

theorem scGet_scPut_ne {n m : ScName} (h : m ≠ n) (s : State) (v : W32) : scGet (scPut s n v) m = scGet s m := by
  cases n with
  | core c i =>
    cases m with
    | core c' i' =>
      by_cases hc : c' = c
      · subst hc
        have hi : i'.val ≠ i.val := fun he => h (by rw [Fin.ext he])
        simp [scGet, scPut, tabGet_tabSet_ne _ _ _ hi]
      · simp [scGet, scPut, State.setCore_core_ne _ _ hc]
    | panel p i' => rfl
  | panel p i =>
    cases m with
    | core c i' => rfl
    | panel p' i' =>
      by_cases hp : p' = p
      · subst hp
        have hi : i'.val ≠ i.val := fun he => h (by rw [Fin.ext he])
        simp [scGet, scPut, tabGet_tabSet_ne _ _ _ hi]
      · simp [scGet, scPut, State.setPanel_panel_ne _ _ hp]

theorem doneWaits_of_noneHeld {s : State} (h : Claims.noneHeld s) : doneWaits s = [] := by
  unfold doneWaits
  rw [List.map_eq_nil_iff, List.filter_eq_nil_iff]
  intro p hp
  rw [h p hp]
  exact Bool.false_ne_true

theorem releaseFrom_of_noneHeld {s : State} (h : Claims.noneHeld s) (n : Nat) : releaseFrom n s = s := by
  cases n with
  | zero => rfl
  | succ n =>
    unfold releaseFrom
    dsimp only
    rw [if_pos (doneWaits_of_noneHeld h)]

theorem releaseWaits_of_noneHeld {s : State} (h : Claims.noneHeld s) : releaseWaits s = s := releaseFrom_of_noneHeld h _

theorem noneHeld_of_slots {s t : State} (h : t.slots = s.slots) (hs : Claims.noneHeld s) : Claims.noneHeld t := by
  unfold Claims.noneHeld
  rw [h]
  exact hs

theorem scSet_of_noneHeld {s : State} (h : Claims.noneHeld s) (n : ScName) (v : W32) : scSet s n v = scPut s n v :=
  releaseWaits_of_noneHeld (noneHeld_of_slots (scPut_slots s n v) h)

theorem applyInc_of_noneHeld {s : State} (h : Claims.noneHeld s) (n : ScName) (i : TaggedInc) : applyInc n s i = putInc s n i :=
  releaseWaits_of_noneHeld (noneHeld_of_slots (putInc_slots s n i) h)

theorem hold_of_noneHeld {s : State} (h : Claims.noneHeld s) (t : Slot) : (s.slot t).hold = .free := by
  unfold State.slot
  unfold Claims.noneHeld at h
  generalize s.slots = l at h
  induction l with
  | nil => rfl
  | cons p r ih =>
    obtain ⟨k, x⟩ := p
    unfold tabGet
    split
    · exact h _ (List.mem_cons_self ..)
    · exact ih fun q hq => h q (List.mem_cons_of_mem _ hq)

theorem noneHeld_setSlot {s : State} (h : Claims.noneHeld s) (t : Slot) {x : SlotState} (hx : x.hold = .free) :
    Claims.noneHeld (s.setSlot t x) := by
  intro p hp
  change p ∈ tabSet {} s.slots t.val x at hp
  have he : ∀ q, q ∈ tabErase s.slots t.val → q.2.hold = .free := fun q hq => h q (List.mem_filter.1 hq).1
  unfold tabSet at hp
  split at hp
  · exact he p hp
  · rcases (mem_tabInsert _ _ _ _).1 hp with rfl | hp
    · exact hx
    · exact he p hp

theorem endFence_of_free {s : State} {t : Slot} (h : (s.slot t).hold = .free) : endFence s t = s := by
  simp [endFence, h]

/-! ### Writes into what other engines read -/

/-- Engine k, the incarnations of all engines and the counters are the same; besides the cores only free values differ. -/
structure OnlySpoils (k : EngineKind) (s t : State) : Prop where
  engine : ∀ c, t.engine c k = s.engine c k
  inc : ∀ c k', (t.engine c k').inc = (s.engine c k').inc
  sync : ∀ c, (t.core c).sync = (s.core c).sync
  rest : t = { s with cores := t.cores, free := t.free }

namespace OnlySpoils

variable {k : EngineKind}

theorem refl (s : State) : OnlySpoils k s s := ⟨fun _ => rfl, fun _ _ => rfl, fun _ => rfl, rfl⟩

theorem trans {s t u : State} (h : OnlySpoils k s t) (g : OnlySpoils k t u) : OnlySpoils k s u := by
  refine ⟨fun c => (g.engine c).trans (h.engine c), fun c k' => (g.inc c k').trans (h.inc c k'), fun c => (g.sync c).trans (h.sync c), ?_⟩
  have hg := g.rest
  rw [h.rest] at hg
  exact hg

theorem foldl {β : Type} {g : State → β → State} (h : ∀ s b, OnlySpoils k s (g s b)) (l : List β) :
    ∀ s, OnlySpoils k s (l.foldl g s) := by
  induction l with
  | nil => exact refl
  | cons b t ih => exact fun s => (h s b).trans (ih _)

variable {s t : State} (h : OnlySpoils k s t)
include h

theorem mem : t.mem = s.mem := by rw [h.rest]

theorem slots : t.slots = s.slots := by rw [h.rest]

theorem tagsOk (g : Tags) : tagsOk t g = tagsOk s g := by
  have hp : t.panel (corePanel g.core) = s.panel (corePanel g.core) := by rw [h.rest]; rfl
  have hq : t.qmg = s.qmg := by rw [h.rest]
  unfold Machine.tagsOk State.ctx
  rw [h.inc, hp, hq]

theorem scGet (n : ScName) : scGet t n = scGet s n := by
  cases n with
  | core c i => exact congrArg (tabGet 0 · i.val) (h.sync c)
  | panel p i =>
    have hp : t.panel p = s.panel p := by rw [h.rest]; rfl
    exact congrArg (fun x : PanelState => tabGet 0 x.sync i.val) hp

end OnlySpoils

theorem engine_setEngine_same (s : State) (c : Core) (k : EngineKind) (e : EngState) : (s.setEngine c k e).engine c k = e := by
  simp [State.setEngine, State.engine]

theorem engine_setEngine_ne {c c' : Core} {k k' : EngineKind} (h : ¬ (c' = c ∧ k' = k)) (s : State) (e : EngState) :
    (s.setEngine c k e).engine c' k' = s.engine c' k' := by
  unfold State.setEngine State.engine
  by_cases hc : c' = c
  · subst hc
    rw [State.setCore_core_same]
    exact CoreState.setEng_eng_ne _ _ fun hk => h ⟨rfl, hk⟩
  · rw [State.setCore_core_ne _ _ hc]

theorem sync_setEngine (s : State) (c : Core) (k : EngineKind) (e : EngState) (c' : Core) :
    ((s.setEngine c k e).core c').sync = (s.core c').sync := by
  unfold State.setEngine
  by_cases hc : c' = c
  · subst hc
    rw [State.setCore_core_same]
    cases k <;> rfl
  · rw [State.setCore_core_ne _ _ hc]

/-- A new queue of another engine. -/
theorem onlySpoils_setQueue {k j : EngineKind} (h : k ≠ j) (s : State) (c : Core) (q : List EngCmd) (n : Nat) :
    OnlySpoils k s { s.setEngine c j { s.engine c j with queue := q } with free := n } := by
  refine ⟨fun c' => engine_setEngine_ne (fun hk => h hk.2) s _, fun c' k' => ?_, fun c' => sync_setEngine s c j _ c', rfl⟩
  change ((s.setEngine c j { s.engine c j with queue := q }).engine c' k').inc = _
  by_cases hk : c' = c ∧ k' = j
  · obtain ⟨rfl, rfl⟩ := hk
    rw [engine_setEngine_same]
  · rw [engine_setEngine_ne hk]

theorem onlySpoils_setHandles (k : EngineKind) (s : State) (c : Core) (l : Tab Handle) (n : Nat) :
    OnlySpoils k s { s.setCore c { s.core c with handles := l } with free := n } := by
  have hc : ∀ c', { (s.setCore c { s.core c with handles := l }).core c' with handles := [] } = { s.core c' with handles := [] } := by
    intro c'
    by_cases h : c' = c
    · rw [h, State.setCore_core_same]
    · rw [State.setCore_core_ne _ _ h]
  have he : ∀ c' k', (s.setCore c { s.core c with handles := l }).engine c' k' = s.engine c' k' := by
    intro c' k'
    have h := congrArg (fun x : CoreState => x.eng k') (hc c')
    cases k' <;> exact h
  refine ⟨fun c' => he c' k, fun c' k' => congrArg EngState.inc (he c' k'), fun c' => ?_, rfl⟩
  have h := congrArg CoreState.sync (hc c')
  exact h

theorem onlySpoils_spoilHandle (k : EngineKind) (s : State) (c : Core) (hn : Nat) (hit : Nat → Nat → Bool) :
    OnlySpoils k s (spoilHandle s c hn hit) := by
  unfold spoilHandle
  split
  · exact OnlySpoils.refl s
  · exact onlySpoils_setHandles ..

theorem onlySpoils_spoilTile {k : EngineKind} (h : k ≠ .matrix) (s : State) (c : Core) (p : Nat) (hit : Nat → Nat → Bool) :
    OnlySpoils k s (spoilTile s c p hit) := by
  unfold spoilTile
  dsimp only
  split
  · exact OnlySpoils.refl s
  · split
    · exact onlySpoils_setQueue h s c _ _
    · exact (onlySpoils_setQueue h s c _ _).trans (onlySpoils_spoilHandle ..)

theorem onlySpoils_spoilTiles {k : EngineKind} (h : k ≠ .matrix) (whole : Bool) (s : State) (w : MemWrite) :
    OnlySpoils k s (spoilTiles whole s w) := by
  unfold spoilTiles
  split
  · exact OnlySpoils.foldl (fun s (p : Nat × EngCmd) => onlySpoils_spoilTile h s _ p.1 _) _ s
  · exact OnlySpoils.refl s

theorem onlySpoils_spoilPasses {k : EngineKind} (h : k ≠ .vector) (s : State) (w : MemWrite) : OnlySpoils k s (spoilPasses s w) := by
  unfold spoilPasses
  split
  · dsimp only
    split
    · exact onlySpoils_setQueue h s _ _ _
    · exact OnlySpoils.refl s
  · exact OnlySpoils.refl s

/-- A write of engine k spoils what the other engines hold, and nothing of its own. -/
theorem onlySpoils_spoilBy (k : EngineKind) (s : State) (w : MemWrite) : OnlySpoils k s (spoilBy k s w) := by
  cases k with
  | matrix => exact onlySpoils_spoilPasses (by decide) s w
  | vector => exact onlySpoils_spoilTiles (by decide) false s w
  | mover => exact (onlySpoils_spoilTiles (by decide) false s w).trans (onlySpoils_spoilPasses (by decide) _ w)

/-! ### Writes that become visible -/

theorem applyWrite_eq (s : State) (w : MemWrite) : applyWrite s w = { s with mem := (applyWrite s w).mem } := by
  unfold applyWrite
  dsimp only
  cases w.space
  case gddr =>
    dsimp only
    unfold gddrWrite
    dsimp only
    split <;> rfl
  all_goals rfl

theorem foldl_applyWrite_changes_mem (l : List MemWrite) : ∀ s : State, ∃ m, l.foldl applyWrite s = { s with mem := m } := by
  induction l with
  | nil => exact fun s => ⟨s.mem, rfl⟩
  | cons w t ih =>
    intro s
    obtain ⟨m, hm⟩ := ih (applyWrite s w)
    exact ⟨m, by rw [List.foldl_cons, hm, applyWrite_eq]⟩

/-- A write sees the memories alone. -/
theorem applyWrite_mem_congr {s t : State} (h : s.mem = t.mem) (w : MemWrite) : (applyWrite s w).mem = (applyWrite t w).mem := by
  have key : ∀ u : State, (applyWrite u w).mem = (applyWrite { State.reset with mem := u.mem } w).mem := by
    intro u
    unfold applyWrite
    dsimp only
    cases w.space
    case gddr =>
      dsimp only
      unfold gddrWrite
      rw [apply_ite State.mem, apply_ite State.mem]
      rfl
    all_goals rfl
  rw [key s, key t, h]

theorem foldl_applyWrite_mem_congr (l : List MemWrite) : ∀ {s t : State}, s.mem = t.mem →
    (l.foldl applyWrite s).mem = (l.foldl applyWrite t).mem := by
  induction l with
  | nil => exact fun h => h
  | cons w t ih => exact fun h => ih (applyWrite_mem_congr h w)

end Sys2Proof.Machine

end

section

/-! SUPPORT. The end of the command at the front of an engine's queue (R246, R250, R251, R435). -/

namespace Sys2Proof.Machine

open Sys2Proof

/-! ### What a completed command does -/

/-- The queues of engine k, the links and the slots, but for what holds them, are the same. -/
structure KeepsQueue (k : EngineKind) (s t : State) : Prop where
  engine : ∀ c, t.engine c k = s.engine c k
  lnk : t.lnk = s.lnk
  slot : ∀ i, { t.slot i with hold := .free, holdSig := [] } = { s.slot i with hold := .free, holdSig := [] }

theorem KeepsQueue.trans {k : EngineKind} {s t u : State} (h : KeepsQueue k s t) (g : KeepsQueue k t u) : KeepsQueue k s u :=
  ⟨fun c => (g.engine c).trans (h.engine c), g.lnk.trans h.lnk, fun i => (g.slot i).trans (h.slot i)⟩

theorem OnlyCounters.keepsQueue {s t : State} (h : OnlyCounters s t) (k : EngineKind) : KeepsQueue k s t :=
  ⟨fun c => h.engine c k, h.lnk, h.slot⟩

theorem OnlySpoils.keepsQueue {k : EngineKind} {s t : State} (h : OnlySpoils k s t) : KeepsQueue k s t := by
  refine ⟨h.engine, by rw [h.rest], fun i => ?_⟩
  unfold State.slot
  rw [h.slots]

/-- X.ICINV empties the core's instruction cache. -/
def dropLines (icinv : Bool) (c : Core) (s : State) : State :=
  if icinv then s.setCore c { s.core c with icache := [] } else s

theorem dropLines_core (b : Bool) (c : Core) (s : State) (c' : Core) :
    { (dropLines b c s).core c' with icache := [] } = { s.core c' with icache := [] } := by
  cases b with
  | false => rfl
  | true =>
    by_cases h : c' = c
    · rw [h, dropLines, if_pos rfl, State.setCore_core_same]
    · rw [dropLines, if_pos rfl, State.setCore_core_ne _ _ h]

theorem dropLines_engine (b : Bool) (c : Core) (s : State) (c' : Core) (k : EngineKind) :
    (dropLines b c s).engine c' k = s.engine c' k := by
  have h := congrArg (fun x : CoreState => x.eng k) (dropLines_core b c s c')
  cases k <;> exact h

theorem dropLines_slots (b : Bool) (c : Core) (s : State) : (dropLines b c s).slots = s.slots := by cases b <;> rfl

theorem dropLines_mem (b : Bool) (c : Core) (s : State) : (dropLines b c s).mem = s.mem := by cases b <;> rfl

theorem dropLines_keepsQueue (b : Bool) (c : Core) (s : State) (k : EngineKind) : KeepsQueue k s (dropLines b c s) :=
  ⟨fun c' => dropLines_engine b c s c' k, by cases b <;> rfl, fun i => by cases b <;> rfl⟩

theorem dropLines_icache (c : Core) (s : State) : ((dropLines true c s).core c).icache = [] := by
  rw [dropLines, if_pos rfl, State.setCore_core_same]

theorem scGet_dropLines (b : Bool) (c : Core) (s : State) (n : ScName) : scGet (dropLines b c s) n = scGet s n := by
  cases n with
  | core c' i =>
    have h := congrArg (fun x : CoreState => tabGet 0 x.sync i.val) (dropLines_core b c s c')
    exact h
  | panel p i => cases b <;> rfl

theorem tagsOk_dropLines (b : Bool) (c : Core) (s : State) (g : Tags) : tagsOk (dropLines b c s) g = tagsOk s g := by
  unfold tagsOk
  rw [dropLines_engine]
  cases b <;> rfl

/-- The signals of a completed command reach their counters. -/
def sendSignals (cmd : EngCmd) (s : State) : State := cmd.signals.foldl (fun s g => applyInc g.target s ⟨g.amount, cmd.tags⟩) s

/-- The counters that a completed command sets. -/
def setCounters (cmd : EngCmd) (s : State) : State := cmd.sets.foldl (fun s g => scSet s g.target g.amount) s

theorem onlyCounters_sendSignals (cmd : EngCmd) (s : State) : OnlyCounters s (sendSignals cmd s) :=
  OnlyCounters.foldl (fun s _ => onlyCounters_applyInc _ s _) _ s

theorem onlyCounters_setCounters (cmd : EngCmd) (s : State) : OnlyCounters s (setCounters cmd s) :=
  OnlyCounters.foldl (fun s _ => onlyCounters_scSet s _ _) _ s

theorem commandEffect_of_tagsOk {s : State} {cmd : EngCmd} (h : tagsOk s cmd.tags = true) (c : Core) (k : EngineKind) :
    ∃ u, OnlySpoils k { s with mem := (cmd.writes.foldl applyWrite s).mem } u ∧
      commandEffect s c k cmd = sendSignals cmd (dropLines cmd.icinv c (setCounters cmd u)) := by
  obtain ⟨m, hm⟩ := foldl_applyWrite_changes_mem cmd.writes s
  refine ⟨cmd.writes.foldl (spoilBy k) { s with mem := m }, ?_, ?_⟩
  · rw [hm]
    exact OnlySpoils.foldl (fun s w => onlySpoils_spoilBy k s w) _ _
  · unfold commandEffect
    rw [if_pos h, hm]
    rfl

theorem commandEffect_of_late {s : State} {cmd : EngCmd} (h : tagsOk s cmd.tags = false) (c : Core) (k : EngineKind) :
    commandEffect s c k cmd = lateDrop s (cmd.writes.length + cmd.sets.length + cmd.signals.length) := by
  unfold commandEffect
  rw [if_neg (by rw [h]; exact Bool.false_ne_true)]

theorem keepsQueue_commandEffect (s : State) (c : Core) (k : EngineKind) (cmd : EngCmd) : KeepsQueue k s (commandEffect s c k cmd) := by
  cases h : tagsOk s cmd.tags with
  | false =>
    rw [commandEffect_of_late h]
    exact (onlyCounters_lateDrop s _).keepsQueue k
  | true =>
    obtain ⟨u, hu, he⟩ := commandEffect_of_tagsOk h c k
    rw [he]
    have h0 : KeepsQueue k s { s with mem := (cmd.writes.foldl applyWrite s).mem } := ⟨fun _ => rfl, rfl, fun _ => rfl⟩
    exact (((h0.trans hu.keepsQueue).trans ((onlyCounters_setCounters cmd u).keepsQueue k)).trans
      (dropLines_keepsQueue ..)).trans ((onlyCounters_sendSignals cmd _).keepsQueue k)

theorem setCounters_slots (l : List Signal) : ∀ {s : State}, Claims.noneHeld s →
    (l.foldl (fun s g => scSet s g.target g.amount) s).slots = s.slots := by
  induction l with
  | nil => exact fun _ => rfl
  | cons g t ih =>
    intro s h
    rw [List.foldl_cons, scSet_of_noneHeld h, ih (noneHeld_of_slots (scPut_slots ..) h), scPut_slots]

theorem sendSignals_slots (g : Tags) (l : List Signal) : ∀ {s : State}, Claims.noneHeld s →
    (l.foldl (fun s x => applyInc x.target s ⟨x.amount, g⟩) s).slots = s.slots := by
  induction l with
  | nil => exact fun _ => rfl
  | cons x t ih =>
    intro s h
    rw [List.foldl_cons, applyInc_of_noneHeld h, ih (noneHeld_of_slots (putInc_slots ..) h), putInc_slots]

/-- Where no slot waits, a completed command releases none. -/
theorem commandEffect_slots {s : State} (h : Claims.noneHeld s) (c : Core) (k : EngineKind) (cmd : EngCmd) :
    (commandEffect s c k cmd).slots = s.slots := by
  cases ht : tagsOk s cmd.tags with
  | false => rw [commandEffect_of_late ht, lateDrop_slots]
  | true =>
    obtain ⟨u, hu, he⟩ := commandEffect_of_tagsOk ht c k
    have hus : Claims.noneHeld u := noneHeld_of_slots hu.slots h
    have h1 : (setCounters cmd u).slots = u.slots := setCounters_slots _ hus
    have h2 : (dropLines cmd.icinv c (setCounters cmd u)).slots = u.slots := (dropLines_slots ..).trans h1
    rw [he, sendSignals, sendSignals_slots _ _ (noneHeld_of_slots h2 hus), h2, hu.slots]

section
variable {s : State} {cmd : EngCmd} (h : tagsOk s cmd.tags = true) (c : Core) (k : EngineKind)
include h

theorem commandEffect_mem : (commandEffect s c k cmd).mem = (cmd.writes.foldl applyWrite s).mem := by
  obtain ⟨u, hu, he⟩ := commandEffect_of_tagsOk h c k
  rw [he, (onlyCounters_sendSignals ..).mem, dropLines_mem, (onlyCounters_setCounters ..).mem, hu.mem]

theorem commandEffect_icache (hi : cmd.icinv = true) : ((commandEffect s c k cmd).core c).icache = [] := by
  obtain ⟨u, hu, he⟩ := commandEffect_of_tagsOk h c k
  rw [he, (onlyCounters_sendSignals ..).icache, hi, dropLines_icache]

theorem scGet_commandEffect_signal (hn : Claims.noneHeld s) {n : ScName} {v : W32} (hs : cmd.sets = []) (hg : cmd.signals = [⟨n, v⟩]) :
    scGet (commandEffect s c k cmd) n = scGet s n + v := by
  obtain ⟨u, hu, he⟩ := commandEffect_of_tagsOk h c k
  have hd : Claims.noneHeld (dropLines cmd.icinv c u) := noneHeld_of_slots ((dropLines_slots ..).trans hu.slots) hn
  have hset : setCounters cmd u = u := by rw [setCounters, hs]; rfl
  have ht : tagsOk (dropLines cmd.icinv c u) cmd.tags = true := by
    rw [tagsOk_dropLines, hu.tagsOk]
    exact h
  rw [he, hset, sendSignals, hg, List.foldl_cons, List.foldl_nil, applyInc_of_noneHeld hd, putInc, if_pos ht, scGet_scPut_same,
    scGet_dropLines, hu.scGet]
  rfl

theorem scGet_commandEffect_set (hn : Claims.noneHeld s) {n : ScName} {v : W32} (hs : cmd.sets = [⟨n, v⟩]) (hg : cmd.signals = []) :
    scGet (commandEffect s c k cmd) n = v := by
  obtain ⟨u, hu, he⟩ := commandEffect_of_tagsOk h c k
  rw [he, sendSignals, hg, List.foldl_nil, scGet_dropLines, setCounters, hs, List.foldl_cons, List.foldl_nil,
    scSet_of_noneHeld (noneHeld_of_slots hu.slots hn), scGet_scPut_same]

end

/-! ### How the end of a command leaves its slot and its handles -/

/-- Where a fence of slot t counts an operation of engine k, it counts one less; the slot has got on. -/
def countDown (now : Nat) (k : EngineKind) (x : SlotState) : SlotState :=
  if x.running then { x with progress := now, hold := x.hold.retire k } else x

/-- What the end of a command of engine k does after its effect: its handles and its slot. -/
def endCommand (s : State) (c : Core) (k : EngineKind) (cmd : EngCmd) : State :=
  tryFree (endFence (updSlot cmd.slot (countDown (releaseHandles s c cmd.handles).now k) (releaseHandles s c cmd.handles)) cmd.slot) cmd.slot

/-- Engine k of core c with the queue given, and progress now. -/
def withQueue (s : State) (c : Core) (k : EngineKind) (q : List EngCmd) : State :=
  s.setEngine c k { s.engine c k with queue := q, progress := s.now }

theorem releaseHandles_eq (s : State) (c : Core) (l : List Nat) : releaseHandles s c l = { s with cores := (releaseHandles s c l).cores } := by
  unfold releaseHandles
  split <;> rfl

theorem retireFront_cons {s : State} {c : Core} {k : EngineKind} {cmd : EngCmd} {rest : List EngCmd}
    (h : (s.engine c k).queue = cmd :: rest) : retireFront s c k = endCommand (commandEffect (withQueue s c k rest) c k cmd) c k cmd := by
  unfold retireFront
  dsimp only
  split
  · next hq =>
    rw [h] at hq
    cases hq
  · next hq =>
    rw [h] at hq
    cases hq
    rfl

theorem tryFree_eq (s : State) (t : Slot) : tryFree s t = s ∨ ((s.slot t).ending = true ∧ tryFree s t = s.setSlot t {}) := by
  unfold tryFree
  dsimp only
  split
  · next h => exact .inr ⟨h.1, rfl⟩
  · exact .inl rfl

theorem tryFree_of_not_ending {s : State} {t : Slot} (h : (s.slot t).ending = false) : tryFree s t = s := by
  rcases tryFree_eq s t with he | ⟨he, -⟩
  · exact he
  · rw [h] at he
    exact absurd he Bool.false_ne_true

theorem slotsAndCounters_tryFree (s : State) (t : Slot) : SlotsAndCounters s (tryFree s t) := by
  rcases tryFree_eq s t with h | ⟨-, h⟩ <;> rw [h]
  · exact (OnlyCounters.refl s).toSlotsAndCounters
  · exact .setSlot ..

/-- After its handles are free, the end of a command changes slots and counters alone. -/
theorem slotsAndCounters_endCommand (s : State) (c : Core) (k : EngineKind) (cmd : EngCmd) :
    SlotsAndCounters (releaseHandles s c cmd.handles) (endCommand s c k cmd) :=
  ((SlotsAndCounters.setSlot ..).trans (onlyCounters_endFence ..).toSlotsAndCounters).trans (slotsAndCounters_tryFree ..)

theorem tabFind_foldl_tabErase {α : Type} {h : Nat} (l : List Nat) : ∀ m : Tab α, (h ∈ l ∨ tabFind m h = none) →
    tabFind (l.foldl tabErase m) h = none := by
  induction l with
  | nil => exact fun m hm => hm.resolve_left List.not_mem_nil
  | cons a t ih =>
    intro m hm
    rw [List.foldl_cons]
    apply ih
    by_cases ha : h = a
    · exact .inr (by rw [ha, tabFind_tabErase_same])
    · refine hm.imp (fun hl => (List.mem_cons.1 hl).resolve_left ha) fun hf => ?_
      rw [tabFind_tabErase_ne _ ha, hf]

theorem handles_releaseHandles (s : State) (c : Core) (l : List Nat) :
    ((releaseHandles s c l).core c).handles = l.foldl tabErase (s.core c).handles := by
  unfold releaseHandles
  split
  · next h => rw [h]; rfl
  · rw [State.setCore_core_same]

theorem core_releaseHandles (s : State) (c : Core) (l : List Nat) (c' : Core) :
    { (releaseHandles s c l).core c' with handles := [] } = { s.core c' with handles := [] } := by
  unfold releaseHandles
  split
  · rfl
  · by_cases h : c' = c
    · rw [h, State.setCore_core_same]
    · rw [State.setCore_core_ne _ _ h]

theorem engine_releaseHandles (s : State) (c : Core) (l : List Nat) (c' : Core) (k : EngineKind) :
    (releaseHandles s c l).engine c' k = s.engine c' k := by
  have h := congrArg (fun x : CoreState => x.eng k) (core_releaseHandles s c l c')
  cases k <;> exact h

theorem icache_releaseHandles (s : State) (c : Core) (l : List Nat) (c' : Core) :
    ((releaseHandles s c l).core c').icache = (s.core c').icache := by
  have h := congrArg CoreState.icache (core_releaseHandles s c l c')
  exact h

theorem scGet_releaseHandles (s : State) (c : Core) (l : List Nat) (n : ScName) : scGet (releaseHandles s c l) n = scGet s n := by
  cases n with
  | core c' i =>
    have h := congrArg (fun x : CoreState => tabGet 0 x.sync i.val) (core_releaseHandles s c l c')
    exact h
  | panel p i => rw [releaseHandles_eq]; rfl

theorem endCommand_engine (s : State) (c : Core) (k : EngineKind) (cmd : EngCmd) (c' : Core) (k' : EngineKind) :
    (endCommand s c k cmd).engine c' k' = s.engine c' k' := by
  rw [(slotsAndCounters_endCommand ..).engine, engine_releaseHandles]

theorem endCommand_mem (s : State) (c : Core) (k : EngineKind) (cmd : EngCmd) : (endCommand s c k cmd).mem = s.mem := by
  rw [(slotsAndCounters_endCommand ..).mem, releaseHandles_eq]

theorem endCommand_lnk (s : State) (c : Core) (k : EngineKind) (cmd : EngCmd) : (endCommand s c k cmd).lnk = s.lnk := by
  rw [(slotsAndCounters_endCommand ..).lnk, releaseHandles_eq]

theorem endCommand_icache (s : State) (c : Core) (k : EngineKind) (cmd : EngCmd) (c' : Core) :
    ((endCommand s c k cmd).core c').icache = (s.core c').icache := by
  rw [(slotsAndCounters_endCommand ..).icache, icache_releaseHandles]

theorem endCommand_handles (s : State) (c : Core) (k : EngineKind) {cmd : EngCmd} {h : Nat} (hh : h ∈ cmd.handles) :
    tabFind ((endCommand s c k cmd).core c).handles h = none := by
  rw [(slotsAndCounters_endCommand ..).handles, handles_releaseHandles]
  exact tabFind_foldl_tabErase _ _ (.inl hh)

theorem countDown_kept (now : Nat) (k : EngineKind) (x : SlotState) :
    { countDown now k x with hold := .free, holdSig := [], progress := 0 } = { x with hold := .free, holdSig := [], progress := 0 } := by
  unfold countDown
  split <;> rfl

theorem hold_countDown {x : SlotState} (h : x.hold = .free) (now : Nat) (k : EngineKind) : (countDown now k x).hold = .free := by
  unfold countDown
  split
  · rw [h]; rfl
  · exact h

/-- A slot is as before, but for what holds it and when it got on; or it ended its part and is free again (R225). -/
def KeptOrFreed (x y : SlotState) : Prop :=
  { y with hold := .free, holdSig := [], progress := 0 } = { x with hold := .free, holdSig := [], progress := 0 } ∨
  (x.ending = true ∧ y = {})

theorem KeptOrFreed.of_hold {x y : SlotState} (h : { y with hold := .free, holdSig := [] } = { x with hold := .free, holdSig := [] }) :
    KeptOrFreed x y := .inl (congrArg (fun z : SlotState => { z with progress := 0 }) h)

theorem KeptOrFreed.trans {x y z : SlotState}
    (h : { y with hold := .free, holdSig := [], progress := 0 } = { x with hold := .free, holdSig := [], progress := 0 })
    (g : KeptOrFreed y z) : KeptOrFreed x z := by
  rcases g with g | ⟨he, hz⟩
  · exact .inl (g.trans h)
  · refine .inr ⟨?_, hz⟩
    have h' := congrArg SlotState.ending h
    exact h'.symm.trans he

theorem endCommand_slot (s : State) (c : Core) (k : EngineKind) (cmd : EngCmd) (i : Slot) :
    KeptOrFreed (s.slot i) ((endCommand s c k cmd).slot i) := by
  unfold endCommand
  generalize hu : updSlot cmd.slot (countDown (releaseHandles s c cmd.handles).now k) (releaseHandles s c cmd.handles) = u
  have hr : (releaseHandles s c cmd.handles).slot i = s.slot i := by unfold State.slot; rw [releaseHandles_slots]
  have h1 : { u.slot i with hold := .free, holdSig := [], progress := 0 } = { s.slot i with hold := .free, holdSig := [], progress := 0 } := by
    subst hu
    unfold updSlot
    by_cases hi : i = cmd.slot
    · rw [← hi, State.setSlot_slot_same, hr, countDown_kept]
    · rw [State.setSlot_slot_ne _ _ hi, hr]
  have h2 := (onlyCounters_endFence u cmd.slot).slot i
  refine .trans h1 ?_
  rcases tryFree_eq (endFence u cmd.slot) cmd.slot with h | ⟨he, h⟩ <;> rw [h]
  · exact .of_hold h2
  · by_cases hi : i = cmd.slot
    · subst hi
      rw [State.setSlot_slot_same]
      refine .inr ⟨?_, rfl⟩
      have h3 := congrArg SlotState.ending h2
      exact h3.symm.trans he
    · rw [State.setSlot_slot_ne _ _ hi]
      exact .of_hold h2

/-- Where no slot is held, no fence ends. -/
theorem endCommand_of_noneHeld {s : State} (h : Claims.noneHeld s) (c : Core) (k : EngineKind) (cmd : EngCmd) :
    (∀ n, scGet (endCommand s c k cmd) n = scGet s n) ∧ (endCommand s c k cmd).glb = s.glb := by
  have hr : Claims.noneHeld (releaseHandles s c cmd.handles) := noneHeld_of_slots (releaseHandles_slots ..) h
  have hf : ((updSlot cmd.slot (countDown (releaseHandles s c cmd.handles).now k) (releaseHandles s c cmd.handles)).slot cmd.slot).hold = .free := by
    rw [updSlot, State.setSlot_slot_same]
    exact hold_countDown (hold_of_noneHeld hr _) _ _
  unfold endCommand
  rw [endFence_of_free hf]
  have hs : ∀ u : State, (∀ n, scGet (tryFree u cmd.slot) n = scGet u n) ∧ (tryFree u cmd.slot).glb = u.glb := by
    intro u
    rcases tryFree_eq u cmd.slot with h | ⟨-, h⟩ <;> rw [h]
    · exact ⟨fun _ => rfl, rfl⟩
    · exact ⟨fun n => by cases n <;> rfl, rfl⟩
  refine ⟨fun n => ?_, ?_⟩
  · rw [(hs _).1, ← scGet_releaseHandles s c cmd.handles]
    cases n <;> rfl
  · rw [(hs _).2, updSlot, releaseHandles_eq]
    rfl

/-! ### Two states that a command cannot tell apart -/

/-- What the end of a command reads is the same in both states. -/
structure LooksAlike (s u : State) : Prop where
  mem : u.mem = s.mem
  now : u.now = s.now
  tags : ∀ g, tagsOk u g = tagsOk s g
  counters : ∀ n, scGet u n = scGet s n
  held : Claims.noneHeld s → Claims.noneHeld u
  late : u.glb.lateDrop = s.glb.lateDrop

theorem LooksAlike.refl (s : State) : LooksAlike s s := ⟨rfl, rfl, fun _ => rfl, fun _ => rfl, fun h => h, rfl⟩

theorem LooksAlike.trans {s u v : State} (h : LooksAlike s u) (g : LooksAlike u v) : LooksAlike s v :=
  ⟨g.mem.trans h.mem, g.now.trans h.now, fun t => (g.tags t).trans (h.tags t), fun n => (g.counters n).trans (h.counters n),
    fun x => g.held (h.held x), g.late.trans h.late⟩

theorem looksAlike_setEngine (s : State) (c : Core) (k : EngineKind) {e : EngState} (h : e.inc = (s.engine c k).inc) :
    LooksAlike s (s.setEngine c k e) := by
  refine ⟨rfl, rfl, fun g => ?_, fun n => ?_, fun x => x, rfl⟩
  · have hi : ((s.setEngine c k e).engine g.core g.eng).inc = (s.engine g.core g.eng).inc := by
      by_cases hk : g.core = c ∧ g.eng = k
      · rw [hk.1, hk.2, engine_setEngine_same, h]
      · rw [engine_setEngine_ne hk]
    unfold tagsOk
    rw [hi]
    rfl
  · cases n with
    | core c' i => exact congrArg (tabGet 0 · i.val) (sync_setEngine s c k e c')
    | panel p i => rfl

theorem looksAlike_updSlot (s : State) (t : Slot) {g : SlotState → SlotState} (h : (g (s.slot t)).hold = (s.slot t).hold) :
    LooksAlike s (updSlot t g s) := by
  refine ⟨rfl, rfl, fun _ => rfl, fun n => by cases n <;> rfl, fun x => ?_, rfl⟩
  exact noneHeld_setSlot x t (h.trans (hold_of_noneHeld x t))

theorem commandEnded_of_looksAlike {s u t : State} {c : Core} {k : EngineKind} {cmd : EngCmd} {rest : List EngCmd} (h : LooksAlike s u)
    (he : Claims.commandEnded u c k cmd rest t) : Claims.commandEnded s c k cmd rest t := by
  obtain ⟨hq, hp, hh, hok, hlate⟩ := he
  rw [h.tags, foldl_applyWrite_mem_congr _ h.mem] at hok
  rw [h.tags, h.mem, h.late] at hlate
  refine ⟨hq, hp.trans h.now, hh, fun ht => ?_, fun ht => ?_⟩
  · obtain ⟨hm, hsig, hset, hic⟩ := hok ht
    exact ⟨hm, fun n v a b x => by rw [hsig n v a b (h.held x), h.counters], fun n v a b x => hset n v a b (h.held x), hic⟩
  · obtain ⟨hm, hc⟩ := hlate ht
    refine ⟨hm, fun x => ?_⟩
    obtain ⟨hs, hl⟩ := hc (h.held x)
    exact ⟨fun n => by rw [hs, h.counters], hl⟩

/-! ### The front command ends -/

theorem retireFront_queue {s : State} {c : Core} {k : EngineKind} {cmd : EngCmd} {rest : List EngCmd}
    (h : (s.engine c k).queue = cmd :: rest) :
    (retireFront s c k).engine c k = { s.engine c k with queue := rest, progress := s.now } := by
  rw [retireFront_cons h, endCommand_engine, (keepsQueue_commandEffect ..).engine, withQueue, engine_setEngine_same]

theorem retireFront_slot {s : State} {c : Core} {k : EngineKind} {cmd : EngCmd} {rest : List EngCmd}
    (h : (s.engine c k).queue = cmd :: rest) (i : Slot) : KeptOrFreed (s.slot i) ((retireFront s c k).slot i) := by
  rw [retireFront_cons h]
  refine .trans ?_ (endCommand_slot ..)
  have hs := (keepsQueue_commandEffect (withQueue s c k rest) c k cmd).slot i
  exact congrArg (fun z : SlotState => { z with progress := 0 }) hs

theorem retireFront_lnk {s : State} {c : Core} {k : EngineKind} {cmd : EngCmd} {rest : List EngCmd}
    (h : (s.engine c k).queue = cmd :: rest) : (retireFront s c k).lnk = s.lnk := by
  rw [retireFront_cons h, endCommand_lnk, (keepsQueue_commandEffect ..).lnk]
  rfl

theorem commandEnded_endCommand (s : State) (c : Core) (k : EngineKind) (cmd : EngCmd) (hp : (s.engine c k).progress = s.now) :
    Claims.commandEnded s c k cmd (s.engine c k).queue (endCommand (commandEffect s c k cmd) c k cmd) := by
  have he : (endCommand (commandEffect s c k cmd) c k cmd).engine c k = s.engine c k := by
    rw [endCommand_engine, (keepsQueue_commandEffect ..).engine]
  have hc : ∀ h : Claims.noneHeld s, _ := fun h => endCommand_of_noneHeld (noneHeld_of_slots (commandEffect_slots h c k cmd) h) c k cmd
  refine ⟨by rw [he], by rw [he, hp], fun h hh => endCommand_handles _ c k hh, fun ht => ⟨?_, fun n v a b x => ?_, fun n v a b x => ?_,
    fun hi => ?_⟩, fun ht => ⟨?_, fun x => ⟨fun n => ?_, ?_⟩⟩⟩
  · rw [endCommand_mem, commandEffect_mem ht]
  · rw [(hc x).1, scGet_commandEffect_signal ht c k x a b]
  · rw [(hc x).1, scGet_commandEffect_set ht c k x a b]
  · rw [endCommand_icache, commandEffect_icache ht c k hi]
  · rw [endCommand_mem, commandEffect_of_late ht]
    rfl
  · rw [(hc x).1, commandEffect_of_late ht]
    cases n <;> rfl
  · rw [(hc x).2, commandEffect_of_late ht]
    rfl

/-- The front command of a queue ends. -/
theorem commandEnded_retireFront {s : State} {c : Core} {k : EngineKind} {cmd : EngCmd} {rest : List EngCmd}
    (h : (s.engine c k).queue = cmd :: rest) : Claims.commandEnded s c k cmd rest (retireFront s c k) := by
  have hq : (withQueue s c k rest).engine c k = { s.engine c k with queue := rest, progress := s.now } := engine_setEngine_same ..
  have he := commandEnded_endCommand (withQueue s c k rest) c k cmd (by rw [hq]; rfl)
  rw [hq] at he
  rw [retireFront_cons h]
  exact commandEnded_of_looksAlike
    (looksAlike_setEngine s c k (e := { s.engine c k with queue := rest, progress := s.now }) rfl) he

/-! ### The commands behind it -/

theorem settle_of_staysQueued {s : State} {c : Core} {k : EngineKind} (h : Claims.staysQueued (s.engine c k).queue) (n : Nat) :
    settle c k n s = s := by
  cases n with
  | zero => rfl
  | succ n =>
    unfold settle
    split
    · next cmd _ hq =>
      rw [if_neg (h cmd (by rw [hq]; rfl))]
    · rfl

theorem completeFront_of_staysQueued {s : State} {c : Core} {k : EngineKind} {cmd : EngCmd} {rest : List EngCmd}
    (h : (s.engine c k).queue = cmd :: rest) (hr : Claims.staysQueued rest) : completeFront s c k = retireFront s c k := by
  unfold completeFront
  exact settle_of_staysQueued (by rw [retireFront_queue h]; exact hr) _

/-- The commands that end by themselves leave the front of the queue, up to the first that does not. -/
theorem settle_queue (c : Core) (k : EngineKind) (n : Nat) : ∀ (s : State) (l : List EngCmd), (s.engine c k).queue = l → l.length ≤ n →
    ∃ m, ((settle c k n s).engine c k).queue = l.drop m ∧ (∀ x ∈ l.take m, x.kind = .immediate) ∧ Claims.staysQueued (l.drop m) := by
  induction n with
  | zero =>
    intro s l hq hl
    have hn := List.eq_nil_of_length_eq_zero (Nat.le_zero.1 hl)
    subst hn
    exact ⟨0, hq, fun _ h => absurd h List.not_mem_nil, fun _ h => by cases h⟩
  | succ n ih =>
    intro s l hq hl
    cases l with
    | nil =>
      refine ⟨0, ?_, fun _ h => absurd h List.not_mem_nil, fun _ h => by cases h⟩
      rw [settle_of_staysQueued (by rw [hq]; exact fun _ h => by cases h), hq]
      rfl
    | cons cmd rest =>
      by_cases hk : cmd.kind = .immediate
      · obtain ⟨m, hm, ht, hd⟩ := ih (retireFront s c k) rest (by rw [retireFront_queue hq]) (Nat.le_of_succ_le_succ hl)
        refine ⟨m + 1, ?_, fun x hx => ?_, hd⟩
        · have hs : settle c k (n + 1) s = settle c k n (retireFront s c k) := by
            rw [settle]
            split
            · next cmd' _ hq' =>
              rw [hq] at hq'
              cases hq'
              rw [if_pos hk]
            · next hq' => rw [hq] at hq'; cases hq'
          rw [hs, hm, List.drop_succ_cons]
        · rcases List.mem_cons.1 hx with rfl | hx
          · exact hk
          · exact ht x hx
      · have hst : Claims.staysQueued (cmd :: rest) := by
          intro x hx
          cases hx
          exact hk
        refine ⟨0, ?_, fun _ h => absurd h List.not_mem_nil, hst⟩
        rw [settle_of_staysQueued (by rw [hq]; exact hst), hq]
        rfl

theorem completeFront_queue {s : State} {c : Core} {k : EngineKind} {cmd : EngCmd} {rest : List EngCmd}
    (h : (s.engine c k).queue = cmd :: rest) :
    ∃ n, ((completeFront s c k).engine c k).queue = rest.drop n ∧ (∀ x ∈ rest.take n, x.kind = .immediate) ∧
      Claims.staysQueued (rest.drop n) := by
  have hq : ((retireFront s c k).engine c k).queue = rest := by rw [retireFront_queue h]
  unfold completeFront
  dsimp only
  rw [hq]
  exact settle_queue c k _ _ rest hq (Nat.le_refl _)

end Sys2Proof.Machine

end

section

/-! SUPPORT. The events of the engines, the counters and the instruction fetch, clause by clause, and obligation O45. -/

namespace Sys2Proof.Machine

open Sys2Proof

/-! ### The commands -/

theorem exec_chainPassComplete (c : Core) (s : State) : exec (.chainPassComplete c) s = .next (passComplete c s) := rfl

theorem exec_mtOpComplete (c : Core) (s : State) : exec (.mtOpComplete c) s = .next (tileComplete c s) := rfl

theorem exec_moveComplete (c : Core) (s : State) : exec (.moveComplete c) s = .next (moveComplete c s) := rfl

theorem exec_pendingWriteComplete (t : Slot) (r : RegName) (s : State) : exec (.pendingWriteComplete t r) s = .next (pendingDone s t r) := rfl

theorem exec_syncCounterIncrement (n : ScName) (l : List TaggedInc) (s : State) :
    exec (.syncCounterIncrement n l) s = .next (releaseWaits (l.foldl (fun s i => putInc s n i) s)) := rfl

theorem exec_icacheFill (t : Slot) (s : State) : exec (.icacheFill t) s = .next (icacheFill t s) := rfl

/-! ### Passes, tile operations and moves -/

section
variable {s : State} {c : Core} {cmd : EngCmd} {rest : List EngCmd}

theorem passComplete_pass (hq : (s.engine c .vector).queue = cmd :: rest) (hk : cmd.kind = .pass) :
    passComplete c s = completeFront s c .vector := by
  unfold passComplete
  split
  · next hq' =>
    rw [hq] at hq'
    cases hq'
    exact if_pos hk
  · next hq' =>
    rw [hq] at hq'
    cases hq'

/-- The registers that a tile operation held are no longer pending. -/
def clearAll (l : List RegName) (x : SlotState) : SlotState := if x.running then l.foldl clearPending x else x

theorem tileComplete_tile (hq : (s.engine c .matrix).queue = cmd :: rest) (hk : cmd.kind = .tile) :
    tileComplete c s = completeFront (updSlot cmd.slot (clearAll cmd.pend) s) c .matrix := by
  unfold tileComplete
  split
  · next hq' =>
    rw [hq] at hq'
    cases hq'
    rw [if_pos hk]
    rfl
  · next hq' =>
    rw [hq] at hq'
    cases hq'

theorem moveComplete_move (hq : (s.engine c .mover).queue = cmd :: rest) (hk : cmd.kind = .move) :
    moveComplete c s = completeFront s c .mover := by
  unfold moveComplete
  dsimp only
  split
  · next hq' =>
    rw [hq] at hq'
    cases hq'
    rw [hk]
  · next hq' =>
    rw [hq] at hq'
    cases hq'

/-- A move to a rank whose messages are closed: its signals stand where all were acknowledged, and the messages are gone. -/
def sendFinished (s : State) (c : Core) (cmd : EngCmd) (rest : List EngCmd) (d : Die) (j : Job) (msgs : List W32) : State :=
  msgs.foldl (fun s m => dropSend s d j m) (s.setEngine c .mover { s.engine c .mover with
    queue := (if sendsAcked s d j msgs then cmd else { cmd with signals := [] }) :: rest })

theorem moveComplete_send {d : Die} {j : Job} {msgs : List W32} (hq : (s.engine c .mover).queue = cmd :: rest)
    (hk : cmd.kind = .send d j msgs) :
    moveComplete c s = if sendsEnded s d j msgs then completeFront (sendFinished s c cmd rest d j msgs) c .mover else s := by
  unfold moveComplete
  dsimp only
  split
  · next hq' =>
    rw [hq] at hq'
    cases hq'
    split
    · next hm => rw [hk] at hm; cases hm
    · next hm => rw [hk] at hm; cases hm; rfl
    · next hm => exact absurd hk (hm _ _ _)
  · next hq' =>
    rw [hq] at hq'
    cases hq'

end

theorem hold_foldl_clearPending (l : List RegName) : ∀ x : SlotState, (l.foldl clearPending x).hold = x.hold := by
  induction l with
  | nil => exact fun _ => rfl
  | cons r t ih => exact fun x => ih (clearPending x r)

theorem hold_clearAll (l : List RegName) (x : SlotState) : (clearAll l x).hold = x.hold := by
  unfold clearAll
  split
  · exact hold_foldl_clearPending l x
  · rfl

theorem contains_clearPending (x : SlotState) (r q : RegName) :
    (clearPending x r).pending.contains q = (x.pending.contains q && decide (q ≠ r)) := by
  unfold clearPending
  rw [Bool.eq_iff_iff]
  simp

theorem contains_foldl_clearPending {q : RegName} (l : List RegName) : ∀ x : SlotState, (q ∈ l ∨ x.pending.contains q = false) →
    (l.foldl clearPending x).pending.contains q = false := by
  induction l with
  | nil => exact fun x h => h.resolve_left List.not_mem_nil
  | cons r t ih =>
    intro x h
    refine ih (clearPending x r) ?_
    rw [contains_clearPending]
    by_cases hq : q = r
    · exact .inr (by simp [hq])
    · refine h.imp (fun hm => (List.mem_cons.1 hm).resolve_left hq) fun hx => ?_
      rw [hx]
      rfl

theorem KeptOrFreed.pending {x y : SlotState} (h : KeptOrFreed x y) {r : RegName} (hr : x.pending.contains r = false) :
    y.pending.contains r = false := by
  rcases h with h | ⟨-, rfl⟩
  · have hp := congrArg SlotState.pending h
    exact (congrArg (List.contains · r) hp).trans hr
  · rfl

theorem KeptOrFreed.sReg {x y : SlotState} (h : KeptOrFreed x y) (he : x.ending = false) (d : Nat) : sReg y d = sReg x d := by
  rcases h with h | ⟨h, -⟩
  · have hs := congrArg SlotState.sregs h
    exact congrArg (tabGet 0 · d) hs
  · rw [he] at h
    exact absurd h Bool.false_ne_true

theorem tileComplete_ends {s : State} {c : Core} {cmd : EngCmd} {rest : List EngCmd} (hq : (s.engine c .matrix).queue = cmd :: rest)
    (hr : Claims.staysQueued rest) (hk : cmd.kind = .tile) :
    Claims.commandEnded s c .matrix cmd rest (tileComplete c s) ∧
    ∀ r ∈ cmd.pend, ((tileComplete c s).slot cmd.slot).pending.contains r = false ∨ (s.slot cmd.slot).running = false := by
  have hq' : ((updSlot cmd.slot (clearAll cmd.pend) s).engine c .matrix).queue = cmd :: rest := hq
  rw [tileComplete_tile hq hk, completeFront_of_staysQueued hq' hr]
  refine ⟨commandEnded_of_looksAlike (looksAlike_updSlot s _ (hold_clearAll ..)) (commandEnded_retireFront hq'), fun r hm => ?_⟩
  by_cases hrun : (s.slot cmd.slot).running = true
  · refine .inl ((retireFront_slot hq' cmd.slot).pending ?_)
    rw [updSlot, State.setSlot_slot_same, clearAll, if_pos hrun]
    exact contains_foldl_clearPending _ _ (.inl hm)
  · exact .inr (Bool.eq_false_iff.2 hrun)

theorem looksAlike_dropSend (s : State) (d : Die) (j : Job) (m : W32) : LooksAlike s (dropSend s d j m) :=
  ⟨rfl, rfl, fun _ => rfl, fun n => by cases n <;> rfl, fun h => h, rfl⟩

theorem looksAlike_foldl_dropSend (d : Die) (j : Job) (l : List W32) : ∀ s : State, LooksAlike s (l.foldl (fun s m => dropSend s d j m) s) := by
  induction l with
  | nil => exact LooksAlike.refl
  | cons m t ih => exact fun s => (looksAlike_dropSend s d j m).trans (ih _)

theorem engine_foldl_dropSend (d : Die) (j : Job) (c : Core) (k : EngineKind) (l : List W32) : ∀ s : State,
    (l.foldl (fun s m => dropSend s d j m) s).engine c k = s.engine c k := by
  induction l with
  | nil => exact fun _ => rfl
  | cons m t ih => exact fun s => ih (dropSend s d j m)

theorem findSend_dropSend (s : State) (d : Die) (j : Job) (m m' : W32) (h : m' = m ∨ findSend s d j m' = none) :
    findSend (dropSend s d j m) d j m' = none := by
  unfold findSend at h ⊢
  unfold dropSend updDie
  rw [State.setDie_die_same]
  by_cases hk : sendKey j m' = sendKey j m
  · rw [hk, tabFind_tabErase_same]
  · rw [tabFind_tabErase_ne _ hk]
    exact h.resolve_left fun he => hk (by rw [he])

theorem findSend_foldl_dropSend (d : Die) (j : Job) (m : W32) (l : List W32) : ∀ s : State, (m ∈ l ∨ findSend s d j m = none) →
    findSend (l.foldl (fun s m => dropSend s d j m) s) d j m = none := by
  induction l with
  | nil => exact fun s h => h.resolve_left List.not_mem_nil
  | cons a t ih =>
    intro s h
    refine ih (dropSend s d j a) ?_
    by_cases hm : m ∈ t
    · exact .inl hm
    · exact .inr (findSend_dropSend s d j a m (h.imp (fun hl => (List.mem_cons.1 hl).resolve_right hm) id))

theorem findSend_of_lnk {s t : State} (h : t.lnk = s.lnk) (d : Die) (j : Job) (m : W32) : findSend t d j m = findSend s d j m := by
  unfold findSend State.die
  rw [h]

theorem moveComplete_send_ends {s : State} {c : Core} {cmd : EngCmd} {rest : List EngCmd} {d : Die} {j : Job} {msgs : List W32}
    (hq : (s.engine c .mover).queue = cmd :: rest) (hr : Claims.staysQueued rest) (hk : cmd.kind = .send d j msgs)
    (he : sendsEnded s d j msgs = true) :
    Claims.commandEnded s c .mover (if sendsAcked s d j msgs then cmd else { cmd with signals := [] }) rest (moveComplete c s) ∧
    ∀ m ∈ msgs, findSend (moveComplete c s) d j m = none := by
  generalize hcmd : (if sendsAcked s d j msgs then cmd else { cmd with signals := [] }) = cmd'
  have hf : moveComplete c s = completeFront (sendFinished s c cmd rest d j msgs) c .mover := by
    rw [moveComplete_send hq hk, if_pos he]
  have hq' : ((sendFinished s c cmd rest d j msgs).engine c .mover).queue = cmd' :: rest := by
    unfold sendFinished
    rw [engine_foldl_dropSend, engine_setEngine_same, hcmd]
  have hl : LooksAlike s (sendFinished s c cmd rest d j msgs) := by
    unfold sendFinished
    refine .trans (looksAlike_setEngine s c .mover ?_) (looksAlike_foldl_dropSend d j msgs _)
    rfl
  rw [hf, completeFront_of_staysQueued hq' hr]
  refine ⟨commandEnded_of_looksAlike hl (commandEnded_retireFront hq'), fun m hm => ?_⟩
  rw [findSend_of_lnk (retireFront_lnk hq'), sendFinished]
  exact findSend_foldl_dropSend d j m msgs _ (.inl hm)

/-- The event of an engine whose front command is not of its kind changes nothing. -/
theorem passComplete_idle {s : State} {c : Core} (h : ∀ cmd ∈ (s.engine c .vector).queue.head?, cmd.kind ≠ .pass) :
    passComplete c s = s := by
  unfold passComplete
  split
  · next cmd _ hq => exact if_neg (h cmd (by rw [hq]; rfl))
  · rfl

theorem tileComplete_idle {s : State} {c : Core} (h : ∀ cmd ∈ (s.engine c .matrix).queue.head?, cmd.kind ≠ .tile) :
    tileComplete c s = s := by
  unfold tileComplete
  split
  · next cmd _ hq => exact if_neg (h cmd (by rw [hq]; rfl))
  · rfl

theorem moveComplete_idle {s : State} {c : Core}
    (h : ∀ cmd ∈ (s.engine c .mover).queue.head?, cmd.kind ≠ .move ∧ ∀ d j msgs, cmd.kind ≠ .send d j msgs) :
    moveComplete c s = s := by
  unfold moveComplete
  dsimp only
  split
  · next cmd _ hq =>
    obtain ⟨hm, hs⟩ := h cmd (by rw [hq]; rfl)
    split
    · next hk => exact absurd hk hm
    · next hk => exact absurd hk (hs _ _ _)
    · rfl
  · rfl

/-! ### Pending writes -/

/-- Register r of a slot is written: it is not pending any more, and the register of X.SCREAD holds the counter's value. -/
def written (now : Nat) (r : RegName) (v : Option (Nat × W32)) (x : SlotState) : SlotState :=
  { (match v with
    | some (d, w) => setSReg (clearPending x r) d (w.setWidth 64)
    | none => clearPending x r) with progress := now }

theorem written_hold (now : Nat) (r : RegName) (v : Option (Nat × W32)) (x : SlotState) : (written now r v x).hold = x.hold := by
  cases v <;> rfl

theorem written_pending (now : Nat) (r : RegName) (v : Option (Nat × W32)) (x : SlotState) :
    (written now r v x).pending = x.pending.filter (· ≠ r) := by
  cases v <;> rfl

theorem written_kept (now : Nat) (r : RegName) (v : Option (Nat × W32)) (x : SlotState) :
    (written now r v x).pc = x.pc ∧ (written now r v x).ending = x.ending := by
  cases v <;> exact ⟨rfl, rfl⟩

theorem sReg_written (now : Nat) (r : RegName) (d : Nat) (w : W32) (x : SlotState) :
    sReg (written now r (some (d, w)) x) d = w.setWidth 64 :=
  tabGet_tabSet_same ..

/-- The state after register r of the front command of engine k is written. -/
def writtenFront (s : State) (t : Slot) (r : RegName) (k : EngineKind) (cmd : EngCmd) (rest : List EngCmd) : State :=
  updSlot t (written s.now r (cmd.scread.map fun p => (p.1, scGet s p.2)))
    (withQueue s (slotCore t) k ({ cmd with pend := cmd.pend.filter (· ≠ r) } :: rest))

section
variable {s : State} {t : Slot} {r : RegName}

theorem pendingDone_not_pending (h : (s.slot t).pending.contains r = false) : pendingDone s t r = s := by
  unfold pendingDone
  dsimp only
  rw [if_neg (by rw [h]; exact Bool.false_ne_true)]

theorem pendingDone_unheld (h : (s.slot t).pending.contains r = true) (hn : holderOf s t r = none) :
    pendingDone s t r = tryFree (endFence (updSlot t (fun x => { clearPending x r with progress := s.now }) s) t) t := by
  unfold pendingDone
  dsimp only
  rw [if_pos h, hn]

theorem pendingDone_held {k : EngineKind} (h : (s.slot t).pending.contains r = true) (hk : holderOf s t r = some k) {cmd : EngCmd}
    {rest : List EngCmd} (hq : (s.engine (slotCore t) k).queue = cmd :: rest) :
    pendingDone s t r =
      if cmd.slot = t ∧ cmd.pend.contains r then
        if cmd.pend.filter (· ≠ r) = [] ∧ cmd.kind = .regs then completeFront (writtenFront s t r k cmd rest) (slotCore t) k
        else writtenFront s t r k cmd rest
      else s := by
  unfold pendingDone
  dsimp only
  rw [if_pos h, hk]
  dsimp only
  split
  · next hq' =>
    rw [hq] at hq'
    cases hq'
    rfl
  · next hq' =>
    rw [hq] at hq'
    cases hq'

theorem pendingDone_held_nil {k : EngineKind} (hk : holderOf s t r = some k) (hq : (s.engine (slotCore t) k).queue = []) :
    pendingDone s t r = s := by
  unfold pendingDone
  dsimp only
  rw [hk]
  dsimp only
  rw [hq]
  exact ite_self _

end

theorem pendingDone_idle {s : State} {t : Slot} {r : RegName} (h : (s.slot t).pending.contains r = false ∨ (∃ k, holderOf s t r = some k ∧
    ∀ cmd ∈ (s.engine (slotCore t) k).queue.head?, cmd.slot ≠ t ∨ cmd.pend.contains r = false)) : pendingDone s t r = s := by
  by_cases hp : (s.slot t).pending.contains r = true
  · obtain ⟨k, hk, hc⟩ := h.resolve_left (by rw [hp]; exact Bool.noConfusion)
    cases hq : (s.engine (slotCore t) k).queue with
    | nil => exact pendingDone_held_nil hk hq
    | cons cmd rest =>
      rw [pendingDone_held hp hk hq]
      refine if_neg fun hh => ?_
      rcases hc cmd (by rw [hq]; rfl) with hs | hs
      · exact hs hh.1
      · rw [hs] at hh
        exact Bool.false_ne_true hh.2
  · exact pendingDone_not_pending (Bool.eq_false_iff.2 hp)

theorem writtenFront_engine (s : State) (t : Slot) (r : RegName) (k : EngineKind) (cmd : EngCmd) (rest : List EngCmd) :
    ((writtenFront s t r k cmd rest).engine (slotCore t) k).queue = { cmd with pend := cmd.pend.filter (· ≠ r) } :: rest := by
  have h : (withQueue s (slotCore t) k ({ cmd with pend := cmd.pend.filter (· ≠ r) } :: rest)).engine (slotCore t) k = _ :=
    engine_setEngine_same ..
  exact congrArg EngState.queue h

theorem writtenFront_slot (s : State) (t : Slot) (r : RegName) (k : EngineKind) (cmd : EngCmd) (rest : List EngCmd) :
    (writtenFront s t r k cmd rest).slot t = written s.now r (cmd.scread.map fun p => (p.1, scGet s p.2)) (s.slot t) :=
  State.setSlot_slot_same ..

theorem sReg_writtenFront (s : State) (t : Slot) (r : RegName) (k : EngineKind) {cmd : EngCmd} (rest : List EngCmd) {d : Nat}
    {n : ScName} (h : cmd.scread = some (d, n)) : sReg ((writtenFront s t r k cmd rest).slot t) d = (scGet s n).setWidth 64 := by
  rw [writtenFront_slot, h]
  exact sReg_written ..

theorem looksAlike_writtenFront (s : State) (t : Slot) (r : RegName) (k : EngineKind) (cmd : EngCmd) (rest : List EngCmd) :
    LooksAlike s (writtenFront s t r k cmd rest) := by
  unfold writtenFront withQueue
  refine .trans (looksAlike_setEngine s (slotCore t) k ?_) (looksAlike_updSlot _ t (written_hold ..))
  rfl

theorem pendingDone_earlier {s : State} {t : Slot} {r : RegName} {k : EngineKind} {cmd : EngCmd} {rest : List EngCmd}
    (h : (s.slot t).pending.contains r = true) (hk : holderOf s t r = some k) (hq : (s.engine (slotCore t) k).queue = cmd :: rest)
    (hs : cmd.slot = t) (hp : cmd.pend.contains r = true) (hl : cmd.pend.filter (· ≠ r) ≠ [] ∨ cmd.kind ≠ .regs) :
    pendingDone s t r = writtenFront s t r k cmd rest := by
  rw [pendingDone_held h hk hq, if_pos ⟨hs, hp⟩, if_neg fun hh => hl.elim (· hh.1) (· hh.2)]

theorem pendingDone_last {s : State} {t : Slot} {r : RegName} {k : EngineKind} {cmd : EngCmd} {rest : List EngCmd}
    (h : (s.slot t).pending.contains r = true) (hk : holderOf s t r = some k) (hq : (s.engine (slotCore t) k).queue = cmd :: rest)
    (hr : Claims.staysQueued rest) (hs : cmd.slot = t) (hp : cmd.pend = [r]) (hreg : cmd.kind = .regs) :
    pendingDone s t r = retireFront (writtenFront s t r k cmd rest) (slotCore t) k := by
  have hf : cmd.pend.filter (· ≠ r) = [] := by simp [hp]
  have hc : cmd.pend.contains r = true := by simp [hp]
  rw [pendingDone_held h hk hq, if_pos ⟨hs, hc⟩, if_pos ⟨hf, hreg⟩, completeFront_of_staysQueued (writtenFront_engine ..) hr]

theorem pendingDone_last_ends {s : State} {t : Slot} {r : RegName} {k : EngineKind} {cmd : EngCmd} {rest : List EngCmd}
    (h : (s.slot t).pending.contains r = true) (hk : holderOf s t r = some k) (hq : (s.engine (slotCore t) k).queue = cmd :: rest)
    (hr : Claims.staysQueued rest) (hs : cmd.slot = t) (hp : cmd.pend = [r]) (hreg : cmd.kind = .regs) (he : (s.slot t).ending = false) :
    Claims.commandEnded s (slotCore t) k cmd rest (pendingDone s t r) ∧ ((pendingDone s t r).slot t).pending.contains r = false ∧
    ∀ d n, cmd.scread = some (d, n) → sReg ((pendingDone s t r).slot t) d = (scGet s n).setWidth 64 := by
  have hw := writtenFront_engine s t r k cmd rest
  have hslot := retireFront_slot hw t
  rw [pendingDone_last h hk hq hr hs hp hreg]
  refine ⟨?_, hslot.pending ?_, fun d n hd => ?_⟩
  · have hc := commandEnded_of_looksAlike (looksAlike_writtenFront ..) (commandEnded_retireFront hw)
    exact hc
  · rw [writtenFront_slot, written_pending]
    simp
  · rw [hslot.sReg, sReg_writtenFront _ _ _ _ _ hd]
    rw [writtenFront_slot, (written_kept ..).2, he]

theorem pendingDone_free {s : State} {t : Slot} {r : RegName} (h : (s.slot t).pending.contains r = true) (hn : holderOf s t r = none)
    (hh : (s.slot t).hold = .free) (he : (s.slot t).ending = false) :
    pendingDone s t r = s.setSlot t { clearPending (s.slot t) r with progress := s.now } := by
  have hx : (updSlot t (fun x => { clearPending x r with progress := s.now }) s).slot t =
      { clearPending (s.slot t) r with progress := s.now } := State.setSlot_slot_same ..
  rw [pendingDone_unheld h hn, endFence_of_free, tryFree_of_not_ending]
  · rfl
  · rw [hx]; exact he
  · rw [hx]; exact hh

/-! ### Increments -/

theorem onlyCounters_foldl_putInc (n : ScName) (l : List TaggedInc) (s : State) : OnlyCounters s (l.foldl (fun s i => putInc s n i) s) :=
  OnlyCounters.foldl (fun s i => onlyCounters_putInc s n i) l s

theorem foldl_putInc_slots (n : ScName) (l : List TaggedInc) : ∀ s : State, (l.foldl (fun s i => putInc s n i) s).slots = s.slots :=
  foldl_slots _ (fun s i => putInc_slots s n i) l

theorem putInc_of_tagsOk {s : State} {i : TaggedInc} (h : tagsOk s i.tags = true) (n : ScName) :
    putInc s n i = scPut s n (scGet s n + i.amount) := if_pos h

theorem putInc_of_late {s : State} {i : TaggedInc} (h : tagsOk s i.tags = false) (n : ScName) : putInc s n i = lateDrop s 1 :=
  if_neg (by rw [h]; exact Bool.false_ne_true)

theorem scGet_lateDrop (s : State) (k : Nat) (n : ScName) : scGet (lateDrop s k) n = scGet s n := by cases n <;> rfl

theorem lateDrop_scPut (s : State) (n : ScName) (v : W32) : (scPut s n v).glb = s.glb := by cases n <;> rfl

/-- The counter holds the sum of the increments whose tags match; the others are counted. -/
theorem foldl_putInc (s0 : State) (n : ScName) (l : List TaggedInc) : ∀ s : State, (∀ g, tagsOk s g = tagsOk s0 g) →
    scGet (l.foldl (fun s i => putInc s n i) s) n = Claims.incTotal s0 (scGet s n) l ∧
    (∀ m, m ≠ n → scGet (l.foldl (fun s i => putInc s n i) s) m = scGet s m) ∧
    (l.foldl (fun s i => putInc s n i) s).glb.lateDrop =
      s.glb.lateDrop + BitVec.ofNat 64 (l.filter fun i => !tagsOk s0 i.tags).length := by
  induction l with
  | nil => exact fun s _ => ⟨rfl, fun _ _ => rfl, (BitVec.add_zero _).symm⟩
  | cons i r ih =>
    intro s hs
    obtain ⟨h1, h2, h3⟩ := ih (putInc s n i) fun g => ((onlyCounters_putInc s n i).tagsOk g).trans (hs g)
    cases ht : tagsOk s0 i.tags with
    | true =>
      have hp := putInc_of_tagsOk ((hs _).trans ht) n
      refine ⟨?_, fun m hm => ?_, ?_⟩
      · rw [List.foldl_cons, h1, hp, scGet_scPut_same, Claims.incTotal, Claims.incTotal, List.foldl_cons, if_pos ht]
      · rw [List.foldl_cons, h2 m hm, hp, scGet_scPut_ne hm]
      · rw [List.foldl_cons, h3, hp, lateDrop_scPut, List.filter_cons_of_neg (by simp [ht])]
    | false =>
      have hp := putInc_of_late ((hs _).trans ht) n
      refine ⟨?_, fun m hm => ?_, ?_⟩
      · rw [List.foldl_cons, h1, hp, scGet_lateDrop, Claims.incTotal, Claims.incTotal, List.foldl_cons, ht,
          if_neg Bool.false_ne_true]
      · rw [List.foldl_cons, h2 m hm, hp, scGet_lateDrop]
      · rw [List.foldl_cons, h3, hp, List.filter_cons_of_pos (by simp [ht]), List.length_cons, Nat.add_comm, BitVec.ofNat_add,
          ← BitVec.add_assoc]
        rfl

/-- The one slot of a state waits for a counter that has come far enough: it is held no longer. -/
theorem releaseWaits_single {s : State} {t : Slot} {x : SlotState} {n : ScName} {target : W32} (h : s.slots = [(t.val, x)])
    (hx : x.hold = .wait n target) (hs : x.holdSig = []) (hw : waitDone (scGet s n) target = true) :
    ((releaseWaits s).slot t).hold = .free := by
  have hd : doneWaits s = [t.val] := by simp [doneWaits, h, hx, hw]
  have hslot : s.slot t = x := by simp [State.slot, h, tabGet]
  have hg : holdSignals s (doneWaits s) = [] := by
    rw [hd]
    simp [holdSignals, hslot, hs]
  have hf : (freeHolds s (doneWaits s)).slots = [(t.val, { x with hold := .free, holdSig := [] })] := by
    simp [freeHolds, hd, h]
  have hn : Claims.noneHeld (freeHolds s (doneWaits s)) := by
    intro p hp
    rw [hf, List.mem_singleton] at hp
    rw [hp]
  unfold releaseWaits releaseFrom
  dsimp only
  rw [if_neg (by rw [hd]; exact List.cons_ne_nil _ _), hg, List.foldl_nil, releaseFrom_of_noneHeld hn]
  exact hold_of_noneHeld hn t

theorem increment_of_noneHeld {s : State} (h : Claims.noneHeld s) (n : ScName) (l : List TaggedInc) :
    exec (.syncCounterIncrement n l) s = .next (l.foldl (fun s i => putInc s n i) s) := by
  rw [exec_syncCounterIncrement, releaseWaits_of_noneHeld (noneHeld_of_slots (foldl_putInc_slots n l s) h)]

/-! ### Instruction lines -/

theorem noteResetRead_core (s : State) (a : Nat) (c : Core) : (noteResetRead s a).core c = s.core c := by
  unfold noteResetRead
  dsimp only
  split <;> rfl

/-- The lines of a cache once a line is filled: an older copy of it goes, and the oldest where the cache is full. -/
def filledLines (ctx pc : Nat) (w : BitVec 256) (l : List (Nat × Nat × BitVec 256)) : List (Nat × Nat × BitVec 256) :=
  let kept := l.filter fun e => !(e.1 == ctx && e.2.1 == pc)
  kept.drop (kept.length + 1 - icacheBundles) ++ [(ctx, pc, w)]

theorem mem_filledLines (ctx pc : Nat) (w : BitVec 256) (l : List (Nat × Nat × BitVec 256)) : (ctx, pc, w) ∈ filledLines ctx pc w l :=
  List.mem_append_right _ (List.mem_singleton.2 rfl)

theorem filledLines_once (ctx pc : Nat) (w : BitVec 256) (l : List (Nat × Nat × BitVec 256)) :
    ((filledLines ctx pc w l).filter fun e => e.1 == ctx && e.2.1 == pc).length = 1 := by
  unfold filledLines
  dsimp only
  rw [List.filter_append, List.filter_eq_nil_iff.2]
  · simp
  · intro e he
    have hk := (List.mem_filter.1 (List.mem_of_mem_drop he)).2
    exact fun h => by rw [h] at hk; exact Bool.false_ne_true hk

theorem length_filledLines {ctx pc : Nat} {w : BitVec 256} {l : List (Nat × Nat × BitVec 256)} (h : l.length ≤ 2048) :
    (filledLines ctx pc w l).length ≤ 2048 := by
  have hk : (l.filter fun e => !(e.1 == ctx && e.2.1 == pc)).length ≤ 2048 := (List.length_filter_le ..).trans h
  unfold filledLines icacheBundles
  dsimp only
  rw [List.length_append, List.length_drop, List.length_singleton]
  omega

theorem icacheFill_idle {s : State} {t : Slot} (h : (s.slot t).running = false ∨ (s.slot t).stopped = true ∨ (s.slot t).ending = true) :
    icacheFill t s = s := by
  unfold icacheFill
  dsimp only
  rw [if_pos]
  rcases h with h | h | h <;> simp [h]

section
variable {s : State} {t : Slot} (h1 : (s.slot t).running = true) (h2 : (s.slot t).stopped = false) (h3 : (s.slot t).ending = false)
include h1 h2 h3

/-- What fetching the line of a running slot comes to: a stop, or the line in the cache. -/
theorem icacheFill_running : icacheFill t s =
    if (s.slot t).pc.toNat % 32 ≠ 0 then stopAt t evAccessFault 0 s
    else match accessPa s (s.slot t).ctx (s.slot t).pc.toNat .fetch with
      | none => stopAt t evAccessFault 0 (noteBadTable s (s.slot t).ctx (s.slot t).pc.toNat)
      | some pa =>
        if (gddrRead s pa 32).2 then stopAt t evMemPoison 0 (noteResetRead s pa)
        else (noteResetRead s pa).setCore (slotCore t) { s.core (slotCore t) with
          icache := filledLines (s.slot t).ctx.val (s.slot t).pc.toNat (BitVec.ofNat 256 (ofLE (gddrRead s pa 32).1)) (s.core (slotCore t)).icache } := by
  unfold icacheFill
  dsimp only
  rw [if_neg (by simp [h1, h2, h3])]
  congr 1
  cases accessPa s (s.slot t).ctx (s.slot t).pc.toNat .fetch with
  | none => rfl
  | some pa =>
    dsimp only
    rw [noteResetRead_core]
    rfl

theorem icacheFill_unaligned (hp : (s.slot t).pc.toNat % 32 ≠ 0) : icacheFill t s = stopAt t evAccessFault 0 s := by
  rw [icacheFill_running h1 h2 h3, if_pos hp]

theorem icacheFill_denied (hp : (s.slot t).pc.toNat % 32 = 0) (ha : accessPa s (s.slot t).ctx (s.slot t).pc.toNat .fetch = none) :
    icacheFill t s = stopAt t evAccessFault 0 (noteBadTable s (s.slot t).ctx (s.slot t).pc.toNat) := by
  rw [icacheFill_running h1 h2 h3, if_neg (not_not.2 hp), ha]

theorem icacheFill_poisoned (hp : (s.slot t).pc.toNat % 32 = 0) {pa : Nat} {d : List Byte}
    (ha : accessPa s (s.slot t).ctx (s.slot t).pc.toNat .fetch = some pa) (hd : gddrRead s pa 32 = (d, true)) :
    icacheFill t s = stopAt t evMemPoison 0 (noteResetRead s pa) := by
  rw [icacheFill_running h1 h2 h3, if_neg (not_not.2 hp), ha]
  dsimp only
  rw [hd, if_pos rfl]

theorem icacheFill_line (hp : (s.slot t).pc.toNat % 32 = 0) {pa : Nat} {d : List Byte}
    (ha : accessPa s (s.slot t).ctx (s.slot t).pc.toNat .fetch = some pa) (hd : gddrRead s pa 32 = (d, false)) :
    icacheFill t s = (noteResetRead s pa).setCore (slotCore t) { s.core (slotCore t) with
      icache := filledLines (s.slot t).ctx.val (s.slot t).pc.toNat (BitVec.ofNat 256 (ofLE d)) (s.core (slotCore t)).icache } := by
  rw [icacheFill_running h1 h2 h3, if_neg (not_not.2 hp), ha]
  dsimp only
  rw [hd, if_neg Bool.false_ne_true]

end

/-! ### The obligation -/

/-- The front command of each of the three engines and those behind it that end by themselves leave the queue. -/
theorem engineEvent_drops (s : State) (c : Core) :
    ∀ e ∈ [(Instr.chainPassComplete c, EngineKind.vector, EngKind.pass), (.mtOpComplete c, .matrix, .tile), (.moveComplete c, .mover, .move)],
      ∀ cmd rest, (s.engine c e.2.1).queue = cmd :: rest → cmd.kind = e.2.2 → ∃ t n, exec e.1 s = .next t ∧
        (t.engine c e.2.1).queue = rest.drop n ∧ (∀ x ∈ rest.take n, x.kind = .immediate) ∧ Claims.staysQueued (rest.drop n) := by
  intro e he cmd rest hq hk
  simp only [List.mem_cons, List.not_mem_nil, or_false] at he
  rcases he with rfl | rfl | rfl
  · obtain ⟨n, hn⟩ := completeFront_queue hq
    exact ⟨_, n, by rw [exec_chainPassComplete, passComplete_pass hq hk], hn⟩
  · obtain ⟨n, hn⟩ := completeFront_queue (s := updSlot cmd.slot (clearAll cmd.pend) s) hq
    exact ⟨_, n, by rw [exec_mtOpComplete, tileComplete_tile hq hk], hn⟩
  · obtain ⟨n, hn⟩ := completeFront_queue hq
    exact ⟨_, n, by rw [exec_moveComplete, moveComplete_move hq hk], hn⟩

theorem engineEvent_idle (s : State) (c : Core) :
    ∀ e ∈ [(Instr.chainPassComplete c, EngineKind.vector, EngKind.pass), (.mtOpComplete c, .matrix, .tile), (.moveComplete c, .mover, .move)],
      (∀ cmd ∈ (s.engine c e.2.1).queue.head?, cmd.kind ≠ e.2.2 ∧ ∀ d j msgs, cmd.kind ≠ .send d j msgs) → exec e.1 s = .next s := by
  intro e he h
  simp only [List.mem_cons, List.not_mem_nil, or_false] at he
  rcases he with rfl | rfl | rfl
  · rw [exec_chainPassComplete, passComplete_idle fun cmd hc => (h cmd hc).1]
  · rw [exec_mtOpComplete, tileComplete_idle fun cmd hc => (h cmd hc).1]
  · rw [exec_moveComplete, moveComplete_idle h]

theorem icacheFill_outcomes (s : State) (t : Slot) (h1 : (s.slot t).running = true) (h2 : (s.slot t).stopped = false)
    (h3 : (s.slot t).ending = false) :
    let x := s.slot t
    let c := slotCore t
    let pc := x.pc.toNat
    (pc % 32 ≠ 0 → exec (.icacheFill t) s = .next (stopAt t evAccessFault 0 s)) ∧
    (pc % 32 = 0 → accessPa s x.ctx pc .fetch = none →
      exec (.icacheFill t) s = .next (stopAt t evAccessFault 0 (noteBadTable s x.ctx pc))) ∧
    ∀ pa d, pc % 32 = 0 → accessPa s x.ctx pc .fetch = some pa →
      (gddrRead s pa 32 = (d, true) → exec (.icacheFill t) s = .next (stopAt t evMemPoison 0 (noteResetRead s pa))) ∧
      (gddrRead s pa 32 = (d, false) → ∃ cs, exec (.icacheFill t) s = .next ((noteResetRead s pa).setCore c { s.core c with icache := cs }) ∧
        (x.ctx.val, pc, BitVec.ofNat 256 (ofLE d)) ∈ cs ∧ (cs.filter fun e => e.1 == x.ctx.val && e.2.1 == pc).length = 1 ∧
        ((s.core c).icache.length ≤ 2048 → cs.length ≤ 2048)) := by
  intro x c pc
  rw [exec_icacheFill]
  refine ⟨fun hp => ?_, fun hp ha => ?_, fun pa d hp ha => ⟨fun hd => ?_, fun hd => ?_⟩⟩
  · rw [icacheFill_unaligned h1 h2 h3 hp]
  · rw [icacheFill_denied h1 h2 h3 hp ha]
  · rw [icacheFill_poisoned h1 h2 h3 hp ha hd]
  · rw [icacheFill_line h1 h2 h3 hp ha hd]
    exact ⟨_, rfl, mem_filledLines .., filledLines_once .., length_filledLines⟩

/-- Settles O45: the end of an engine's front command is one law (`commandEnded_retireFront`), and each event comes to it, to a
write of the slot, or to a counter or a cache line. -/
theorem engineEventsComplete : Obligations.EngineEventsComplete := by
  unfold Obligations.EngineEventsComplete
  refine ⟨?pass, ?tile, ?move, ?send, ?drops, ?notPending, ?earlier, ?last, ?increments, ?waits, ?idle, icacheFill_outcomes⟩
  case pass =>
    intro s c cmd rest hq hr hk
    refine ⟨_, exec_chainPassComplete c s, ?_⟩
    rw [passComplete_pass hq hk, completeFront_of_staysQueued hq hr]
    exact commandEnded_retireFront hq
  case tile =>
    intro s c cmd rest hq hr hk
    exact ⟨_, exec_mtOpComplete c s, tileComplete_ends hq hr hk⟩
  case move =>
    intro s c cmd rest hq hr hk
    refine ⟨_, exec_moveComplete c s, ?_⟩
    rw [moveComplete_move hq hk, completeFront_of_staysQueued hq hr]
    exact commandEnded_retireFront hq
  case send =>
    intro s c cmd rest d j msgs hq hr hk
    refine ⟨fun he => ⟨_, exec_moveComplete c s, moveComplete_send_ends hq hr hk he⟩, fun he => ?_⟩
    rw [exec_moveComplete, moveComplete_send hq hk, he, if_neg Bool.false_ne_true]
  case drops => exact fun s c e he => ⟨engineEvent_drops s c e he, engineEvent_idle s c e he⟩
  case notPending =>
    intro s t r h
    rw [exec_pendingWriteComplete, pendingDone_idle h]
  case earlier =>
    intro s t r k cmd rest h hk hq hs hp hl
    refine ⟨_, exec_pendingWriteComplete t r s, ?_⟩
    rw [pendingDone_earlier h hk hq hs hp hl]
    refine ⟨writtenFront_engine .., rfl, ?_, ?_, fun d n hd => sReg_writtenFront _ _ _ _ _ hd⟩
    · rw [writtenFront_slot, written_pending]
    · rw [writtenFront_slot, (written_kept ..).1]
  case last =>
    intro s t r h
    refine ⟨fun hn hh he => ?_, fun k cmd rest hk hq hr hs hp hreg _ he => ?_⟩
    · rw [exec_pendingWriteComplete, pendingDone_free h hn hh he]
    · exact ⟨_, exec_pendingWriteComplete t r s, pendingDone_last_ends h hk hq hr hs hp hreg he⟩
  case increments =>
    intro s n l hn
    obtain ⟨hsum, hother, hlate⟩ := foldl_putInc s n l s fun _ => rfl
    exact ⟨_, increment_of_noneHeld hn n l, hsum, hother, foldl_putInc_slots n l s, (onlyCounters_foldl_putInc n l s).mem, hlate⟩
  case waits =>
    intro s n l t x target hs hx hg hw
    refine ⟨_, exec_syncCounterIncrement n l s, releaseWaits_single ((foldl_putInc_slots n l s).trans hs) hx hg ?_⟩
    rw [(foldl_putInc s n l s fun _ => rfl).1, hw]
  case idle =>
    intro s t h
    rw [exec_icacheFill, icacheFill_idle h]

end Sys2Proof.Machine

end

section

/-! SUPPORT. A bundle with one operation beside three NOPs (R217, R218): it leaves what its operation does, and the slot at the next
bundle or stopped; and the operations that leave every slot alone. -/

namespace Sys2Proof.Machine

open Sys2Proof

/-! ### Words of the engine format (R219) -/

theorem wordOp_eWord {op : Nat} (h : op < 256) (f : EFields) : wordOp (eWord op f) = op := by
  have hl : (eWord op f).extractLsb' 0 8 = BitVec.ofNat 8 op := BitVec.extractLsb'_append_eq_right
  have ht := congrArg BitVec.toNat hl
  rw [BitVec.extractLsb'_toNat, Nat.shiftRight_zero, BitVec.toNat_ofNat, Nat.mod_eq_of_lt h] at ht
  exact ht

theorem getLsbD_append_of_le {v w i : Nat} {x : BitVec v} {y : BitVec w} (h : w ≤ i) : (x ++ y).getLsbD i = x.getLsbD (i - w) := by
  rw [BitVec.getLsbD_append, if_neg (Nat.not_lt.2 h)]

theorem getLsbD_append_ofBool {v i : Nat} {x : BitVec v} {b : Bool} (h : i < 1) : (x ++ BitVec.ofBool b).getLsbD i = b := by
  rw [BitVec.getLsbD_append, if_pos h, BitVec.getLsbD_ofBool, decide_eq_true (by omega), Bool.true_and]

theorem eFieldsOf_eWord (op : Nat) (f : EFields) : eFieldsOf (eWord op f) = f := by
  unfold eFieldsOf eWord
  simp (disch := omega) only [getLsbD_append_of_le, getLsbD_append_ofBool, BitVec.extractLsb'_append_eq_of_le,
    BitVec.extractLsb'_append_eq_of_add_le]
  simp

/-! ### A bundle that issues -/

/-- The state after a bundle of slot t whose operations leave u: the slot is at the next bundle; where it has stopped, its passes end. -/
def landed (s : State) (t : Slot) (u : State) : State :=
  let v := u.setSlot t (Claims.stepTo s (Claims.nextBundle s t) (u.slot t))
  noteIssue t (if (v.slot t).stopped then stopPasses v t else v)

theorem landed_of_running {s : State} {t : Slot} {u : State} (h : (u.slot t).stopped = false) : landed s t u = Claims.advanced s t u := by
  unfold landed
  dsimp only
  rw [State.setSlot_slot_same, if_neg]
  · rfl
  · exact Bool.eq_false_iff.1 h

theorem landed_of_stopped {s : State} {t : Slot} {u : State} (h : (u.slot t).stopped = true) :
    landed s t u = Claims.issuedFor t (stopPasses (u.setSlot t (Claims.stepTo s (Claims.nextBundle s t) (u.slot t))) t) := by
  unfold landed
  dsimp only
  rw [State.setSlot_slot_same, if_pos]
  · rfl
  · exact h

theorem issueBundle_issues {s : State} {t : Slot} {b : Bundle} {o : Ops} (h : Claims.Issues s t b o) :
    issueBundle t b s = noteIssue t (bundleEffect t o s) := by
  unfold issueBundle
  rw [if_pos (by rw [h.slot, h.fetch]; rfl), h.ops]
  dsimp only
  rw [if_pos h.legal, if_pos (by rw [h.ready, h.turn]; rfl)]

theorem running_of_issuesAlone {s : State} {t : Slot} {pos : Nat} {w : W64} (h : Claims.issuesAlone s t pos w) :
    (s.slot t).stopped = false := by
  obtain ⟨o, ho⟩ := h
  have hs := ho.slot
  unfold slotIssues at hs
  simp only [Bool.and_eq_true, Bool.not_eq_true'] at hs
  exact hs.1.1.1.1.1.2

/-- What the V, M and X operations of a bundle do, its S slot holding NOP. -/
def engineOps (t : Slot) (o : Ops) (s : State) : State :=
  let old := s.slot t
  let s2 := if o.vop = .nop then s else if o.vop = .vPass then vPassOp t old o.vf s else vEffect o.vop t old o.vf s
  let s3 := if o.mop = .nop then s2 else mEffect o.mop t old o.mf s2
  if o.xop = .nop then s3 else xEffect o.xop t s o.xf s3

theorem noteIssue_bundleEffect {o : Ops} (h : o.sop = .nop) (s : State) (t : Slot) :
    noteIssue t (bundleEffect t o s) = landed s t (engineOps t o s) := by
  obtain ⟨sop, sf, vop, vf, mop, mf, xop, xf⟩ := o
  obtain rfl : sop = .nop := h
  unfold landed bundleEffect
  dsimp only
  rw [if_neg (c := SlotOp.nop = SlotOp.stop) SlotOp.noConfusion]
  rfl

/-- A word of operation m in the M slot and NOP in the others. -/
def mAlone (m : SlotOp) (f : EFields) : Ops := ⟨.nop, sFieldsOf 0, .nop, eFieldsOf 0, m, f, .nop, eFieldsOf 0⟩

/-- A word of operation v in the V slot and NOP in the others. -/
def vAlone (v : SlotOp) (f : EFields) : Ops := ⟨.nop, sFieldsOf 0, v, f, .nop, eFieldsOf 0, .nop, eFieldsOf 0⟩

/-- A word of operation x in the X slot and NOP in the others. -/
def xAlone (x : SlotOp) (f : EFields) : Ops := ⟨.nop, sFieldsOf 0, .nop, eFieldsOf 0, .nop, eFieldsOf 0, x, f⟩

theorem bundleOps_of {b : Bundle} {s v m x : SlotOp} (hs : sOpOf (wordOp b.sw) = some s) (hv : vOpOf (wordOp b.vw) = some v)
    (hm : mOpOf (wordOp b.mw) = some m) (hx : xOpOf (wordOp b.xw) = some x) :
    bundleOps b = some ⟨s, sFieldsOf b.sw, v, eFieldsOf b.vw, m, eFieldsOf b.mw, x, eFieldsOf b.xw⟩ := by
  unfold bundleOps
  rw [hs, hv, hm, hx]

section
variable {op : Nat} (hop : op < 256) (f : EFields)
include hop

theorem bundleOps_mAlone {m : SlotOp} (hm : mOpOf op = some m) : bundleOps (bundleWith 2 (eWord op f) Claims.noOthers) = some (mAlone m f) := by
  have hw : mOpOf (wordOp (eWord op f)) = some m := by rw [wordOp_eWord hop, hm]
  have h := bundleOps_of (b := bundleWith 2 (eWord op f) Claims.noOthers) rfl rfl hw rfl
  have hf : mAlone m (eFieldsOf (eWord op f)) = mAlone m f := by rw [eFieldsOf_eWord]
  exact h.trans (congrArg some hf)

theorem bundleOps_vAlone {m : SlotOp} (hm : vOpOf op = some m) : bundleOps (bundleWith 1 (eWord op f) Claims.noOthers) = some (vAlone m f) := by
  have hw : vOpOf (wordOp (eWord op f)) = some m := by rw [wordOp_eWord hop, hm]
  have h := bundleOps_of (b := bundleWith 1 (eWord op f) Claims.noOthers) rfl hw rfl rfl
  have hf : vAlone m (eFieldsOf (eWord op f)) = vAlone m f := by rw [eFieldsOf_eWord]
  exact h.trans (congrArg some hf)

theorem bundleOps_xAlone {m : SlotOp} (hm : xOpOf op = some m) : bundleOps (bundleWith 3 (eWord op f) Claims.noOthers) = some (xAlone m f) := by
  have hw : xOpOf (wordOp (eWord op f)) = some m := by rw [wordOp_eWord hop, hm]
  have h := bundleOps_of (b := bundleWith 3 (eWord op f) Claims.noOthers) rfl rfl rfl hw
  have hf : xAlone m (eFieldsOf (eWord op f)) = xAlone m f := by rw [eFieldsOf_eWord]
  exact h.trans (congrArg some hf)

variable {s : State} {t : Slot}

theorem issueM_alone {m : SlotOp} (hm : mOpOf op = some m) (hn : m ≠ .nop) (h : Claims.issuesAlone s t 2 (eWord op f)) :
    issueM op t f Claims.noOthers s = landed s t (mEffect m t (s.slot t) f s) := by
  obtain ⟨o, ho⟩ := h
  obtain rfl : mAlone m f = o := Option.some.inj ((bundleOps_mAlone hop f hm).symm.trans ho.ops)
  unfold issueM
  rw [issueBundle_issues ho, noteIssue_bundleEffect rfl]
  congr 1
  unfold engineOps mAlone
  dsimp only
  rw [if_pos rfl, if_neg hn, if_pos rfl]

theorem issueX_alone {m : SlotOp} (hm : xOpOf op = some m) (hn : m ≠ .nop) (h : Claims.issuesAlone s t 3 (eWord op f)) :
    issueX op t f Claims.noOthers s = landed s t (xEffect m t s f s) := by
  obtain ⟨o, ho⟩ := h
  obtain rfl : xAlone m f = o := Option.some.inj ((bundleOps_xAlone hop f hm).symm.trans ho.ops)
  unfold issueX
  rw [issueBundle_issues ho, noteIssue_bundleEffect rfl]
  congr 1
  unfold engineOps xAlone
  dsimp only
  rw [if_pos rfl, if_pos rfl, if_neg hn]

end

theorem issueV_vPass_alone {s : State} {t : Slot} {f : EFields} (h : Claims.issuesAlone s t 1 (eWord 0x50 f)) :
    issueV 0x50 t f Claims.noOthers s = landed s t (vPassOp t (s.slot t) f s) := by
  obtain ⟨o, ho⟩ := h
  obtain rfl : vAlone .vPass f = o := Option.some.inj ((bundleOps_vAlone (by decide) f rfl).symm.trans ho.ops)
  unfold issueV
  rw [issueBundle_issues ho, noteIssue_bundleEffect rfl]
  rfl

/-! ### Operations that leave every slot alone -/

theorem slots_of_besidesEvents {s t : State} (h : besidesEvents t = besidesEvents s) : t.slots = s.slots := by
  have hs := congrArg State.slots h
  exact hs

theorem updDesc_slots (s : State) (d : DescId) (g : DescState → DescState) : (updDesc s d g).slots = s.slots := by
  unfold updDesc
  split <;> rfl

theorem failSlotPart_slots (s : State) (t : Slot) : (failSlotPart s t).slots = s.slots := by
  unfold failSlotPart updPart
  split
  · exact updDesc_slots ..
  · rfl

theorem tallySlot_slots (s : State) (x : SlotState) (t : Tallies) : (tallySlot s x t).slots = s.slots := by
  unfold tallySlot
  split
  · exact updDesc_slots ..
  · rfl

theorem markDesc_slots (s : State) (d : DescId) (st : BitVec 16) : (markDesc s d st).slots = s.slots := by
  unfold markDesc
  split
  · split <;> rfl
  · rfl

theorem slotWatch_slots (s : State) (t : Slot) (w : List Nat) (o : PassOut) : (slotWatch s t w o).slots = s.slots := by
  unfold slotWatch updPart
  split
  · rfl
  · split
    · exact updDesc_slots ..
    · rfl

theorem tilePoison_slots (t : Slot) (s : State) : (tilePoison t s).slots = s.slots := by
  unfold tilePoison
  rw [raiseEv_slots, failSlotPart_slots]

theorem noteReads_slots (ps : List (Place × Nat)) (s : State) : (noteReads ps s).slots = s.slots := by
  unfold noteReads
  refine foldl_slots _ (fun s p => ?_) ps s
  split
  · exact slots_of_besidesEvents (besidesEvents_noteResetRead ..)
  · rfl

theorem sendMessage_slots (s : State) (m : MsgSpec) (r : RouteTo) : (sendMessage s m r).1.slots = s.slots := by
  have hb : (beginDie s (routeDie r)).slots = s.slots := by
    unfold beginDie
    dsimp only
    split <;> rfl
  have hq : ∀ (u : State) (msg : W32), (queueMessage u m r msg).1.slots = u.slots := by
    intro u msg
    refine foldl_slots _ (fun s p => ?_) _ u
    cases routeExit r <;> rfl
  exact (hq _ _).trans hb

theorem sendEach_slots (j : Job) (owner : SendOwner) (rank : Nat) (r : RouteTo) (l : List (Nat × List MarkedByte)) :
    ∀ s : State, (sendEach j owner rank r l s).1.slots = s.slots := by
  induction l with
  | nil => exact fun _ => rfl
  | cons p t ih => exact fun s => (ih _).trans (sendMessage_slots ..)

theorem sendRows_slots (j : Job) (owner : SendOwner) (rank dst dstr : Nat) (r : RouteTo) (i : Nat) (rows : List (List MarkedByte))
    (s : State) : (sendRows j owner rank dst dstr r i rows s).1.slots = s.slots := sendEach_slots ..

theorem dropHandles_slots (s : State) (t : Slot) : (dropHandles s t).slots = s.slots := releaseHandles_slots ..

theorem stopPasses_slots (s : State) (t : Slot) : (stopPasses s t).slots = s.slots := by
  unfold stopPasses
  dsimp only
  split
  · rw [setEngine_slots, releaseHandles_slots]
    exact foldl_slots _ applyWrite_slots _ _
  · rfl

/-! ### A slot that stops -/

theorem stopped_stopAt (t : Slot) (code : BitVec 16) (sub : BitVec 3) (s : State) : ((stopAt t code sub s).slot t).stopped = true := by
  unfold stopAt faultSlot State.slot
  dsimp only
  rw [stopPasses_slots, raiseEv_slots, dropHandles_slots]
  exact congrArg SlotState.stopped (State.setSlot_slot_same s t { s.slot t with stopped := true })

theorem landed_stopAt (s : State) (t : Slot) (code : BitVec 16) (sub : BitVec 3) :
    landed s t (stopAt t code sub s) = Claims.stoppedIn s t code sub := landed_of_stopped (stopped_stopAt ..)

/-- A bundle that stops no slot leaves its slot at the next bundle. -/
theorem landed_of_noNewStop {s : State} {t : Slot} {pos : Nat} {w : W64} (h : Claims.issuesAlone s t pos w) {u : State} (hu : NoNewStop s u) :
    landed s t u = Claims.advanced s t u := by
  refine landed_of_running ?_
  cases hs : (u.slot t).stopped with
  | false => rfl
  | true => exact absurd (hu t hs) (by rw [running_of_issuesAlone h]; exact Bool.false_ne_true)

/-- A command whose bundle leaves u, which stops no slot, leaves its slot at the next bundle. -/
theorem goes_on {s : State} {t : Slot} {pos : Nat} {w : W64} (h : Claims.issuesAlone s t pos w) {o : Host.Outcome State Fault Refusal}
    {u v : State} (ho : o = .next (landed s t u)) (hu : u = v) (hv : NoNewStop s v) : o = .next (Claims.advanced s t v) := by
  rw [ho, hu, landed_of_noNewStop h hv]

/-- A command whose bundle stops its slot. -/
theorem stops_in {s : State} {t : Slot} {o : Host.Outcome State Fault Refusal} {u : State} {code : BitVec 16} {sub : BitVec 3}
    (ho : o = .next (landed s t u)) (hu : u = stopAt t code sub s) : o = .next (Claims.stoppedIn s t code sub) := by
  rw [ho, hu, landed_stopAt]

end Sys2Proof.Machine

end

section

/-! SUPPORT. The operations of the X slot, each in a bundle of its own (R247 to R251), and obligation O21. -/

namespace Sys2Proof.Machine

open Sys2Proof

/-! ### What each command runs -/

theorem exec_xMove (t : Slot) (f : EFields) (o : Others) (s : State) : exec (.xMove t f o) s = .next (issueX 0x01 t f o s) := rfl

theorem exec_xMoved (t : Slot) (f : EFields) (o : Others) (s : State) : exec (.xMoved t f o) s = .next (issueX 0x02 t f o s) := rfl

theorem exec_xSig (t : Slot) (f : EFields) (o : Others) (s : State) : exec (.xSig t f o) s = .next (issueX 0x08 t f o s) := rfl

theorem exec_xWait (t : Slot) (f : EFields) (o : Others) (s : State) : exec (.xWait t f o) s = .next (issueX 0x09 t f o s) := rfl

theorem exec_xScset (t : Slot) (f : EFields) (o : Others) (s : State) : exec (.xScset t f o) s = .next (issueX 0x0A t f o s) := rfl

theorem exec_xScread (t : Slot) (f : EFields) (o : Others) (s : State) : exec (.xScread t f o) s = .next (issueX 0x0B t f o s) := rfl

theorem exec_xFence (t : Slot) (f : EFields) (o : Others) (s : State) : exec (.xFence t f o) s = .next (issueX 0x0C t f o s) := rfl

theorem exec_xIcinv (t : Slot) (f : EFields) (o : Others) (s : State) : exec (.xIcinv t f o) s = .next (issueX 0x0D t f o s) := rfl

/-- An operation of the X slot with its signals. -/
def xRun (t : Slot) (f : EFields) (sigs : List Signal) (s : State) : SlotOp → State
  | .xMove => xMoveOp t (s.slot t) f sigs s
  | .xMoved => xMovedOp t (s.slot t) f sigs s
  | .xSig => xSigOp t (s.slot t) f sigs s
  | .xWait => xWaitOp t (s.slot t) f sigs s
  | .xScset => xScsetOp t (s.slot t) f sigs s
  | .xScread => xScreadOp t (s.slot t) f sigs s
  | .xFence => xFenceOp t s f sigs s
  | .xIcinv => xIcinvOp t sigs s
  | _ => s

theorem xEffect_of_sigs {s : State} {t : Slot} {f : EFields} {sigs : List Signal} (hs : sigOf (s.slot t) t f = some sigs) (m : SlotOp) :
    xEffect m t s f s = xRun t f sigs s m := by
  unfold xEffect
  dsimp only
  rw [hs]
  rfl

section
variable {s : State} {t : Slot} {f : EFields} {sigs : List Signal} (hs : sigOf (s.slot t) t f = some sigs)
include hs

theorem issueX_lands {op : Nat} {m : SlotOp} (hop : op < 256) (hm : xOpOf op = some m) (hn : m ≠ .nop)
    (h : Claims.issuesAlone s t 3 (eWord op f)) : issueX op t f Claims.noOthers s = landed s t (xRun t f sigs s m) := by
  rw [issueX_alone hop f hm hn h, xEffect_of_sigs hs]

theorem exec_xMove_alone (h : Claims.issuesAlone s t 3 (eWord 0x01 f)) :
    exec (.xMove t f Claims.noOthers) s = .next (landed s t (xMoveOp t (s.slot t) f sigs s)) :=
  (exec_xMove ..).trans (congrArg _ (issueX_lands hs (by decide) (m := .xMove) rfl SlotOp.noConfusion h))

theorem exec_xMoved_alone (h : Claims.issuesAlone s t 3 (eWord 0x02 f)) :
    exec (.xMoved t f Claims.noOthers) s = .next (landed s t (xMovedOp t (s.slot t) f sigs s)) :=
  (exec_xMoved ..).trans (congrArg _ (issueX_lands hs (by decide) (m := .xMoved) rfl SlotOp.noConfusion h))

theorem exec_xSig_alone (h : Claims.issuesAlone s t 3 (eWord 0x08 f)) :
    exec (.xSig t f Claims.noOthers) s = .next (landed s t (xSigOp t (s.slot t) f sigs s)) :=
  (exec_xSig ..).trans (congrArg _ (issueX_lands hs (by decide) (m := .xSig) rfl SlotOp.noConfusion h))

theorem exec_xWait_alone (h : Claims.issuesAlone s t 3 (eWord 0x09 f)) :
    exec (.xWait t f Claims.noOthers) s = .next (landed s t (xWaitOp t (s.slot t) f sigs s)) :=
  (exec_xWait ..).trans (congrArg _ (issueX_lands hs (by decide) (m := .xWait) rfl SlotOp.noConfusion h))

theorem exec_xScset_alone (h : Claims.issuesAlone s t 3 (eWord 0x0A f)) :
    exec (.xScset t f Claims.noOthers) s = .next (landed s t (xScsetOp t (s.slot t) f sigs s)) :=
  (exec_xScset ..).trans (congrArg _ (issueX_lands hs (by decide) (m := .xScset) rfl SlotOp.noConfusion h))

theorem exec_xScread_alone (h : Claims.issuesAlone s t 3 (eWord 0x0B f)) :
    exec (.xScread t f Claims.noOthers) s = .next (landed s t (xScreadOp t (s.slot t) f sigs s)) :=
  (exec_xScread ..).trans (congrArg _ (issueX_lands hs (by decide) (m := .xScread) rfl SlotOp.noConfusion h))

theorem exec_xFence_alone (h : Claims.issuesAlone s t 3 (eWord 0x0C f)) :
    exec (.xFence t f Claims.noOthers) s = .next (landed s t (xFenceOp t s f sigs s)) :=
  (exec_xFence ..).trans (congrArg _ (issueX_lands hs (by decide) (m := .xFence) rfl SlotOp.noConfusion h))

theorem exec_xIcinv_alone (h : Claims.issuesAlone s t 3 (eWord 0x0D f)) :
    exec (.xIcinv t f Claims.noOthers) s = .next (landed s t (xIcinvOp t sigs s)) :=
  (exec_xIcinv ..).trans (congrArg _ (issueX_lands hs (by decide) (m := .xIcinv) rfl SlotOp.noConfusion h))

end

/-! ### Counters -/

section
variable {s : State} {t : Slot} {x : SlotState} {f : EFields} {sigs : List Signal} {n : ScName}

theorem xSigOp_none (h : targetSc s x.ctx (sReg x f.a.toNat) = none) : xSigOp t x f sigs s = stopAt t evAccessFault 3 s := by
  unfold xSigOp
  rw [h]

theorem xSigOp_some (h : targetSc s x.ctx (sReg x f.a.toNat) = some n) : xSigOp t x f sigs s =
    enqueue s (slotCore t) .mover (mkCmd s t .mover .immediate (⟨n, f.imm.setWidth 32⟩ :: sigs)) := by
  unfold xSigOp
  rw [h]
  rfl

theorem counterOps_none (h : selectSc s t x (sReg x f.a.toNat) = none) :
    xWaitOp t x f sigs s = stopAt t evAccessFault 3 s ∧ xScsetOp t x f sigs s = stopAt t evAccessFault 3 s ∧
    xScreadOp t x f sigs s = stopAt t evAccessFault 3 s := by
  unfold xWaitOp xScsetOp xScreadOp
  rw [h]
  exact ⟨rfl, rfl, rfl⟩

theorem xWaitOp_some (h : selectSc s t (s.slot t) (sReg (s.slot t) f.a.toNat) = some n) : xWaitOp t (s.slot t) f sigs s = releaseWaits
    (s.setSlot t { s.slot t with hold := .wait n (BitVec.ofNat 32 (sReg (s.slot t) f.b.toNat).toNat), holdSig := sigs }) := by
  unfold xWaitOp
  rw [h, BitVec.ofNat_toNat]
  rfl

theorem xScsetOp_some (h : selectSc s t x (sReg x f.a.toNat) = some n) : xScsetOp t x f sigs s =
    enqueue s (slotCore t) .mover { mkCmd s t .mover .immediate sigs with sets := [⟨n, BitVec.ofNat 32 (sReg x f.b.toNat).toNat⟩] } := by
  unfold xScsetOp
  rw [h, BitVec.ofNat_toNat]
  rfl

theorem xScreadOp_some (h : selectSc s t (s.slot t) (sReg (s.slot t) f.a.toNat) = some n) : xScreadOp t (s.slot t) f sigs s =
    enqueue (s.setSlot t (addPending (s.slot t) [sName f.d.toNat])) (slotCore t) .mover
      { mkCmd (s.setSlot t (addPending (s.slot t) [sName f.d.toNat])) t .mover .regs sigs with
        pend := [sName f.d.toNat], scread := some (f.d.toNat, n) } := by
  unfold xScreadOp
  rw [h]
  rfl

end

theorem noNewStop_pendingEnqueue (s : State) (t : Slot) (l : List RegName) (c : Core) (k : EngineKind) (cmd : EngCmd) :
    NoNewStop s (enqueue (s.setSlot t (addPending (s.slot t) l)) c k cmd) := by
  refine NoNewStop.trans ?_ (noNewStop_enqueue _ _ _ _)
  exact noNewStop_setSlot _ _ _ fun hx => hx

/-! ### X.FENCE -/

theorem bit_toNat {w : Nat} (x : BitVec w) (i : Nat) : bit x.toNat i = x.getLsbD i := by
  unfold bit
  rw [BitVec.getLsbD, Nat.testBit_eq_decide_div_mod_eq]
  rfl

/-- A fence that still waits for something holds its slot. -/
theorem endFence_waits {s : State} {t : Slot} {a b c : Nat} {r : List RegName} (hh : (s.slot t).hold = .fence a b c r)
    (hr : ∀ q ∈ r, q ∈ (s.slot t).pending) (h : ¬ (a = 0 ∧ b = 0 ∧ c = 0 ∧ r = [])) : endFence s t = s := by
  unfold endFence
  dsimp only
  split
  · next r' he =>
    rw [hh] at he
    cases he
    rw [if_pos]
    cases r with
    | nil => exact absurd ⟨rfl, rfl, rfl, rfl⟩ h
    | cons q l =>
      refine List.any_eq_true.2 ⟨q, List.mem_cons_self .., ?_⟩
      exact List.contains_iff_mem.2 (hr q (List.mem_cons_self ..))
  · rfl

/-- A fence with nothing to wait for ends and signals. -/
theorem endFence_ends {s : State} {t : Slot} (hh : (s.slot t).hold = .fence 0 0 0 []) : endFence s t =
    (s.slot t).holdSig.foldl (fun y g => applyInc g.target y ⟨g.amount, tagsOf y t .mover⟩)
      (s.setSlot t { s.slot t with hold := .free, holdSig := [] }) := by
  unfold endFence
  dsimp only
  rw [hh]
  rfl

/-- What a fence waits for: earlier operations by engine, and registers that earlier loads still write. -/
structure FenceFor where
  vector : Nat
  matrix : Nat
  mover : Nat
  regs : List RegName

/-- What X.FENCE finds. -/
def fenceFor (s : State) (t : Slot) (f : EFields) : FenceFor :=
  let n (b : Nat) (k : EngineKind) : Nat :=
    if f.imm.getLsbD b then ((s.engine (slotCore t) k).queue.filter fun q => q.slot == t).length else 0
  { vector := n 0 .vector, matrix := n 1 .matrix, mover := n 2 .mover
    regs := if f.imm.getLsbD 3 then (s.slot t).pending.filter fun r => (holderOf s t r).isNone else [] }

/-- The slot held by its fence. -/
def fenced (s : State) (t : Slot) (sigs : List Signal) (n : FenceFor) : State :=
  s.setSlot t { s.slot t with hold := .fence n.vector n.matrix n.mover n.regs, holdSig := sigs }

theorem xFenceOp_eq (s : State) (t : Slot) (f : EFields) (sigs : List Signal) :
    xFenceOp t s f sigs s = endFence (fenced s t sigs (fenceFor s t f)) t := by
  unfold xFenceOp
  dsimp only
  rw [bit_toNat, bit_toNat, bit_toNat, bit_toNat]
  rfl

theorem fenced_waits (s : State) (t : Slot) (f : EFields) (sigs : List Signal)
    (h : ¬ ((fenceFor s t f).vector = 0 ∧ (fenceFor s t f).matrix = 0 ∧ (fenceFor s t f).mover = 0 ∧ (fenceFor s t f).regs = [])) :
    endFence (fenced s t sigs (fenceFor s t f)) t = fenced s t sigs (fenceFor s t f) := by
  have hs : (fenced s t sigs (fenceFor s t f)).slot t = _ := State.setSlot_slot_same ..
  refine endFence_waits (congrArg SlotState.hold hs) (fun q hq => ?_) h
  rw [hs]
  unfold fenceFor at hq
  dsimp only at hq
  split at hq
  · exact (List.mem_filter.1 hq).1
  · exact absurd hq List.not_mem_nil

theorem fenced_ends (s : State) (t : Slot) (sigs : List Signal) :
    endFence (fenced s t sigs ⟨0, 0, 0, []⟩) t = sigs.foldl (fun y g => applyInc g.target y ⟨g.amount, tagsOf y t .mover⟩)
      (s.setSlot t { s.slot t with hold := .free, holdSig := [] }) := by
  have hs : (fenced s t sigs ⟨0, 0, 0, []⟩).slot t = _ := State.setSlot_slot_same ..
  rw [endFence_ends (congrArg SlotState.hold hs), hs]
  unfold fenced
  rw [State.setSlot_setSlot]

theorem fenced_ends_of {s : State} {t : Slot} {f : EFields} (sigs : List Signal) (h0 : (fenceFor s t f).vector = 0) (h1 : (fenceFor s t f).matrix = 0)
    (h2 : (fenceFor s t f).mover = 0) (h3 : (fenceFor s t f).regs = []) :
    endFence (fenced s t sigs (fenceFor s t f)) t = sigs.foldl (fun y g => applyInc g.target y ⟨g.amount, tagsOf y t .mover⟩)
      (s.setSlot t { s.slot t with hold := .free, holdSig := [] }) := by
  have hf : fenceFor s t f = ⟨(fenceFor s t f).vector, (fenceFor s t f).matrix, (fenceFor s t f).mover, (fenceFor s t f).regs⟩ := rfl
  rw [h0, h1, h2, h3] at hf
  rw [hf, fenced_ends]

theorem noNewStop_fenced (s : State) (t : Slot) (sigs : List Signal) (n : FenceFor) : NoNewStop s (endFence (fenced s t sigs n) t) :=
  (noNewStop_setSlot s t { s.slot t with hold := .fence n.vector n.matrix n.mover n.regs, holdSig := sigs } (fun h => h)).trans
    (noNewStop_endFence _ _)

theorem exec_xFence_fences {s : State} {t : Slot} {f : EFields} {sigs : List Signal} (hs : sigOf (s.slot t) t f = some sigs)
    (h : Claims.issuesAlone s t 3 (eWord 0x0C f)) :
    exec (.xFence t f Claims.noOthers) s = .next (Claims.advanced s t (endFence (fenced s t sigs (fenceFor s t f)) t)) :=
  goes_on h (exec_xFence_alone hs h) (xFenceOp_eq ..) (noNewStop_fenced _ _ _ _)

/-! ### Moves -/

section
variable {s : State} {t : Slot} {sigs : List Signal} {m : MoveSpec}

/-- The virtual addresses of a move, for what refuses it: both sides, or the source alone where it goes to a rank. -/
def movedVas (m : MoveSpec) : List (Nat × Nat) :=
  moveVas m.src m.sstr m.rowb m.rows ++ if m.rank.isSome then [] else moveVas m.dst m.dstr m.outBytes m.rows

theorem moveFault_eq (t : Slot) (ctx : Ctx) (m : MoveSpec) (s : State) :
    moveFault t ctx m s = stopAt t evAccessFault 3 ((movedVas m).foldl (fun u z => noteBadRange u ctx z.1 z.2) s) := by
  unfold moveFault movedVas
  rw [List.foldl_append]
  dsimp only
  congr 1
  split <;> rfl

theorem landed_moveFault (s : State) (t : Slot) (ctx : Ctx) (m : MoveSpec) :
    landed s t (moveFault t ctx m s) =
      Claims.issuedFor t (stopPasses ((moveFault t ctx m s).setSlot t (Claims.stepTo s (Claims.nextBundle s t) ((moveFault t ctx m s).slot t))) t) :=
  landed_of_stopped (stopped_stopAt ..)

/-- A move inside the module that has entered the mover's queue. -/
def movedLocally (s : State) (t : Slot) (sigs : List Signal) (m : MoveSpec) (ws : List MemWrite) (ts : Tallies) (k : Nat) : State :=
  let reach := moverParts (engView s (slotCore t) .mover) (slotCore t) (s.slot t).ctx
  let u := noteReads (((rowParts reach .read m.src m.sstr m.rowb m.rows).getD []).flatten) (tallySlot { s with free := s.free + k } (s.slot t) ts)
  enqueue u (slotCore t) .mover { mkCmd u t .mover .move sigs with
    writes := ws, vas := moveVas m.src m.sstr m.rowb m.rows ++ moveVas m.dst m.dstr m.outBytes m.rows }

/-- What a move inside the module reads and writes. -/
def localMoveOf (s : State) (t : Slot) (m : MoveSpec) : Option (List MemWrite × Tallies × Nat) :=
  localMove (engView s (slotCore t) .mover) (moverParts (engView s (slotCore t) .mover) (slotCore t) (s.slot t).ctx)
    (s.ctx (s.slot t).ctx).seed.toNat m

theorem moveLocal_none (h : localMoveOf s t m = none) : moveLocal t (s.slot t) sigs m s = moveFault t (s.slot t).ctx m s := by
  unfold localMoveOf at h
  unfold moveLocal
  dsimp only
  rw [h]

theorem moveLocal_some {ws : List MemWrite} {ts : Tallies} {k : Nat} (h : localMoveOf s t m = some (ws, ts, k)) :
    moveLocal t (s.slot t) sigs m s = movedLocally s t sigs m ws ts k := by
  unfold localMoveOf at h
  unfold moveLocal
  dsimp only
  rw [h]
  rfl

theorem noNewStop_movedLocally (s : State) (t : Slot) (sigs : List Signal) (m : MoveSpec) (ws : List MemWrite) (ts : Tallies) (k : Nat) :
    NoNewStop s (movedLocally s t sigs m ws ts k) := by
  refine NoNewStop.trans ?_ (noNewStop_enqueue _ _ _ _)
  refine NoNewStop.of_slots ?_
  rw [noteReads_slots, tallySlot_slots]

/-- The part of a slot takes a status. -/
def partMarked (s : State) (x : SlotState) (st : BitVec 16) : State :=
  match x.desc with
  | some d => markDesc s d st
  | none => s

theorem noNewStop_partMarked (s : State) (x : SlotState) (st : BitVec 16) : NoNewStop s (partMarked s x st) := by
  unfold partMarked
  split
  · exact .of_slots (markDesc_slots ..)
  · exact .refl s

/-- What a move to a rank reads. -/
def rankMoveOf (s : State) (t : Slot) (m : MoveSpec) : Option (List (List MarkedByte) × List (Place × Nat) × Tallies) :=
  readMove (engView s (slotCore t) .mover) (moverParts (engView s (slotCore t) .mover) (slotCore t) (s.slot t).ctx)
    (s.ctx (s.slot t).ctx).seed.toNat m

/-- The rows of a move to a rank on their way, and the move in the mover's queue. -/
def movedToRank (s : State) (t : Slot) (sigs : List Signal) (m : MoveSpec) (r : Nat) (j : Job) (rows : List (List MarkedByte))
    (src : List (Place × Nat)) (ts : Tallies) : State :=
  let q := sendRows j (.slotMove t) r m.dst m.dstr (routeTo s j r) 0 rows (noteReads src (tallySlot s (s.slot t) ts))
  enqueue q.1 (slotCore t) .mover { mkCmd q.1 t .mover (.send (routeDie (routeTo s j r)) j q.2) sigs with
    vas := moveVas m.src m.sstr m.rowb m.rows }

theorem moveRank_none (h : rankMoveOf s t m = none) (r : Nat) : moveRank t (s.slot t) sigs m r s = moveFault t (s.slot t).ctx m s := by
  unfold rankMoveOf at h
  unfold moveRank
  dsimp only
  rw [h]

section
variable {rows : List (List MarkedByte)} {src : List (Place × Nat)} {ts : Tallies} (h : rankMoveOf s t m = some (rows, src, ts))
include h

theorem moveRank_noJob (hj : slotJob s (s.slot t) = none) (r : Nat) :
    moveRank t (s.slot t) sigs m r s = partMarked s (s.slot t) stNoRoute := by
  unfold rankMoveOf at h
  unfold moveRank
  dsimp only
  rw [h]
  dsimp only
  rw [hj]
  rfl

theorem moveRank_job {j : Job} (hj : slotJob s (s.slot t) = some j) (r : Nat) : moveRank t (s.slot t) sigs m r s =
    if routeStatus (routeTo s j r) = 0 then movedToRank s t sigs m r j rows src ts
    else partMarked s (s.slot t) (routeStatus (routeTo s j r)) := by
  unfold rankMoveOf at h
  unfold moveRank
  dsimp only
  rw [h]
  dsimp only
  rw [hj]
  rfl

end

theorem noNewStop_movedToRank (s : State) (t : Slot) (sigs : List Signal) (m : MoveSpec) (r : Nat) (j : Job) (rows : List (List MarkedByte))
    (src : List (Place × Nat)) (ts : Tallies) : NoNewStop s (movedToRank s t sigs m r j rows src ts) := by
  refine NoNewStop.trans ?_ (noNewStop_enqueue _ _ _ _)
  refine NoNewStop.of_slots ?_
  rw [sendRows_slots, noteReads_slots, tallySlot_slots]

end

/-- A slot that a refused move has stopped; errors in the page tables are reported. -/
def refusedMove (s : State) (t : Slot) (m : MoveSpec) : State :=
  let u := stopAt t evAccessFault 3 ((movedVas m).foldl (fun u z => noteBadRange u (s.slot t).ctx z.1 z.2) s)
  Claims.issuedFor t (stopPasses (u.setSlot t (Claims.stepTo s (Claims.nextBundle s t) (u.slot t))) t)

theorem refuses {s : State} {t : Slot} {o : Host.Outcome State Fault Refusal} {u : State} {m : MoveSpec} (ho : o = .next (landed s t u))
    (hu : u = moveFault t (s.slot t).ctx m s) : o = .next (refusedMove s t m) := by
  rw [ho, hu, landed_moveFault, moveFault_eq]
  rfl

/-! ### X.MOVE and X.MOVED -/

section
variable {s : State} {t : Slot} {x : SlotState} {f : EFields} {sigs : List Signal}

theorem xMoveOp_bad (h : (sReg x f.c.toNat).toNat = 0 ∨ 2 ^ 32 ≤ (sReg x f.c.toNat).toNat) :
    xMoveOp t x f sigs s = stopAt t evAccessFault 3 s := if_pos h

theorem xMoveOp_good (h0 : (sReg x f.c.toNat).toNat ≠ 0) (h1 : (sReg x f.c.toNat).toNat < 2 ^ 32) : xMoveOp t x f sigs s =
    moveLocal t x sigs (plainMove (sReg x f.a.toNat).toNat (sReg x f.b.toNat).toNat (sReg x f.c.toNat).toNat) s :=
  if_neg fun h => h.elim h0 (Nat.not_le.2 h1)

/-- The words of the descriptor that X.MOVED names. -/
def movedWords (s : State) (t : Slot) (x : SlotState) (f : EFields) : List Nat :=
  wordsOf 8 (benchRead (engView s (slotCore t) .mover) (slotCore t) (sReg x f.a.toNat).toNat 64)

theorem xMovedOp_outside (h : benchSize < (sReg x f.a.toNat).toNat + 64) : xMovedOp t x f sigs s = stopAt t evAccessFault 3 s := if_pos h

section
variable (hin : (sReg x f.a.toNat).toNat + 64 ≤ benchSize)
include hin

theorem xMovedOp_poisoned (hp : benchPoisoned (engView s (slotCore t) .mover) (slotCore t) (sReg x f.a.toNat).toNat 64 = true) :
    xMovedOp t x f sigs s = stopAt t evMemPoison 3 s := (if_neg (Nat.not_lt.2 hin)).trans (if_pos hp)

variable (hp : benchPoisoned (engView s (slotCore t) .mover) (slotCore t) (sReg x f.a.toNat).toNat 64 = false)
include hp

theorem xMovedOp_malformed (hm : moveOk (movedWords s t x f) = false) : xMovedOp t x f sigs s = stopAt t evAccessFault 3 s := by
  unfold movedWords at hm
  unfold xMovedOp
  dsimp only
  rw [if_neg (Nat.not_lt.2 hin), if_neg (Bool.eq_false_iff.1 hp), hm]
  rfl

theorem xMovedOp_local (hm : moveOk (movedWords s t x f) = true) (hr : (moveOfWords (movedWords s t x f)).rank = none) :
    xMovedOp t x f sigs s = moveLocal t x sigs (moveOfWords (movedWords s t x f)) s := by
  unfold movedWords at hm hr ⊢
  unfold xMovedOp
  dsimp only
  rw [if_neg (Nat.not_lt.2 hin), if_neg (Bool.eq_false_iff.1 hp), hm, Bool.not_true, if_neg Bool.false_ne_true, hr]

theorem xMovedOp_rank (hm : moveOk (movedWords s t x f) = true) {r : Nat} (hr : (moveOfWords (movedWords s t x f)).rank = some r) :
    xMovedOp t x f sigs s = moveRank t x sigs (moveOfWords (movedWords s t x f)) r s := by
  unfold movedWords at hm hr ⊢
  unfold xMovedOp
  dsimp only
  rw [if_neg (Nat.not_lt.2 hin), if_neg (Bool.eq_false_iff.1 hp), hm, Bool.not_true, if_neg Bool.false_ne_true, hr]

end
end

/-- The move that X.MOVE names. -/
def xMoveSpec (x : SlotState) (f : EFields) : MoveSpec :=
  plainMove (sReg x f.a.toNat).toNat (sReg x f.b.toNat).toNat (sReg x f.c.toNat).toNat

section
variable {s : State} {t : Slot} {f : EFields} {sigs : List Signal} (hs : sigOf (s.slot t) t f = some sigs)
include hs

section
variable (h : Claims.issuesAlone s t 3 (eWord 0x01 f)) (h0 : (sReg (s.slot t) f.c.toNat).toNat ≠ 0)
  (h1 : (sReg (s.slot t) f.c.toNat).toNat < 2 ^ 32)
include h h0 h1

theorem exec_xMove_moves {ws : List MemWrite} {ts : Tallies} {k : Nat} (hl : localMoveOf s t (xMoveSpec (s.slot t) f) = some (ws, ts, k)) :
    exec (.xMove t f Claims.noOthers) s = .next (Claims.advanced s t (movedLocally s t sigs (xMoveSpec (s.slot t) f) ws ts k)) :=
  goes_on h (exec_xMove_alone hs h) ((xMoveOp_good h0 h1).trans (moveLocal_some hl)) (noNewStop_movedLocally _ _ _ _ _ _ _)

theorem exec_xMove_refused (hl : localMoveOf s t (xMoveSpec (s.slot t) f) = none) :
    exec (.xMove t f Claims.noOthers) s = .next (refusedMove s t (xMoveSpec (s.slot t) f)) :=
  refuses (exec_xMove_alone hs h) ((xMoveOp_good h0 h1).trans (moveLocal_none hl))

end

section
variable {m : MoveSpec} (h : Claims.issuesAlone s t 3 (eWord 0x02 f))
include h

theorem exec_xMoved_moves (hm : xMovedOp t (s.slot t) f sigs s = moveLocal t (s.slot t) sigs m s) {ws : List MemWrite} {ts : Tallies}
    {k : Nat} (hl : localMoveOf s t m = some (ws, ts, k)) :
    exec (.xMoved t f Claims.noOthers) s = .next (Claims.advanced s t (movedLocally s t sigs m ws ts k)) :=
  goes_on h (exec_xMoved_alone hs h) (hm.trans (moveLocal_some hl)) (noNewStop_movedLocally _ _ _ _ _ _ _)

theorem exec_xMoved_refused (hm : xMovedOp t (s.slot t) f sigs s = moveLocal t (s.slot t) sigs m s) (hl : localMoveOf s t m = none) :
    exec (.xMoved t f Claims.noOthers) s = .next (refusedMove s t m) :=
  refuses (exec_xMoved_alone hs h) (hm.trans (moveLocal_none hl))

variable {r : Nat} (hm : xMovedOp t (s.slot t) f sigs s = moveRank t (s.slot t) sigs m r s)
include hm

theorem exec_xMoved_rank_refused (hl : rankMoveOf s t m = none) :
    exec (.xMoved t f Claims.noOthers) s = .next (refusedMove s t m) :=
  refuses (exec_xMoved_alone hs h) (hm.trans (moveRank_none hl r))

variable {rows : List (List MarkedByte)} {src : List (Place × Nat)} {ts : Tallies} (hl : rankMoveOf s t m = some (rows, src, ts))
include hl

theorem exec_xMoved_noJob (hj : slotJob s (s.slot t) = none) :
    exec (.xMoved t f Claims.noOthers) s = .next (Claims.advanced s t (partMarked s (s.slot t) stNoRoute)) :=
  goes_on h (exec_xMoved_alone hs h) (hm.trans (moveRank_noJob hl hj r)) (noNewStop_partMarked _ _ _)

variable {j : Job} (hj : slotJob s (s.slot t) = some j)
include hj

theorem exec_xMoved_noRoute (hst : routeStatus (routeTo s j r) ≠ 0) : exec (.xMoved t f Claims.noOthers) s =
    .next (Claims.advanced s t (partMarked s (s.slot t) (routeStatus (routeTo s j r)))) :=
  goes_on h (exec_xMoved_alone hs h) (hm.trans ((moveRank_job hl hj r).trans (if_neg hst))) (noNewStop_partMarked _ _ _)

theorem exec_xMoved_sends (hst : routeStatus (routeTo s j r) = 0) : exec (.xMoved t f Claims.noOthers) s =
    .next (Claims.advanced s t (movedToRank s t sigs m r j rows src ts)) :=
  goes_on h (exec_xMoved_alone hs h) (hm.trans ((moveRank_job hl hj r).trans (if_pos hst))) (noNewStop_movedToRank _ _ _ _ _ _ _ _ _)

end
end

/-- Settles O21: each operation of the X slot leaves what its own lemma says, and the bundle carries that to the next bundle
(`goes_on`) or to a stop (`stops_in`, `refuses`). -/
theorem moverOperationsIssue : Obligations.MoverOperationsIssue := by
  unfold Obligations.MoverOperationsIssue
  intro s t f sigs hs x c v ra rb rc done fault cmd seed reach noRoute refused moved
  refine ⟨?sig, ?counters, ?badCounter, ?fence, ?icinv, ?move, ?moved⟩
  case sig =>
    intro h
    exact ⟨fun n hn => goes_on h (exec_xSig_alone hs h) (xSigOp_some hn) (noNewStop_enqueue _ _ _ _),
      fun hn => stops_in (exec_xSig_alone hs h) (xSigOp_none hn)⟩
  case counters =>
    intro n hn
    refine ⟨fun h => ?_, fun h => ?_, fun h => ?_⟩
    · refine goes_on h (exec_xWait_alone hs h) (xWaitOp_some hn) ?_
      refine NoNewStop.trans ?_ (noNewStop_releaseWaits _)
      exact noNewStop_setSlot _ _ _ fun hx => hx
    · exact goes_on h (exec_xScset_alone hs h) (xScsetOp_some hn) (noNewStop_enqueue _ _ _ _)
    · exact goes_on h (exec_xScread_alone hs h) (xScreadOp_some hn) (noNewStop_pendingEnqueue _ _ _ _ _ _)
  case badCounter =>
    intro hn e he h
    obtain ⟨hwait, hset, hread⟩ := counterOps_none (f := f) (sigs := sigs) hn
    simp only [List.mem_cons, List.not_mem_nil, or_false] at he
    rcases he with rfl | rfl | rfl
    · exact stops_in (exec_xWait_alone hs h) hwait
    · exact stops_in (exec_xScset_alone hs h) hset
    · exact stops_in (exec_xScread_alone hs h) hread
  case fence =>
    intro h n regs u
    exact ⟨exec_xFence_fences hs h, fenced_ends_of sigs, fenced_waits s t f sigs⟩
  case icinv =>
    intro h
    exact goes_on h (exec_xIcinv_alone hs h) rfl (noNewStop_enqueue _ _ _ _)
  case move =>
    intro h m go
    exact ⟨fun hb => stops_in (exec_xMove_alone hs h) (xMoveOp_bad hb),
      fun h0 h1 => ⟨fun ws ts k => exec_xMove_moves hs h h0 h1, exec_xMove_refused hs h h0 h1⟩⟩
  case moved =>
    intro h w m go
    refine ⟨fun ho => stops_in (exec_xMoved_alone hs h) (xMovedOp_outside ho),
      fun hin hp => stops_in (exec_xMoved_alone hs h) (xMovedOp_poisoned hin hp), fun hin hp =>
      ⟨fun hm => stops_in (exec_xMoved_alone hs h) (xMovedOp_malformed hin hp hm), fun hm => ⟨fun hr => ⟨fun ws ts k => ?_, ?_⟩,
        fun r hr => ⟨?_, fun rows src ts hl => ⟨?_, fun j hj => ⟨?_, ?_⟩⟩⟩⟩⟩⟩
    · exact exec_xMoved_moves hs h (xMovedOp_local hin hp hm hr)
    · exact exec_xMoved_refused hs h (xMovedOp_local hin hp hm hr)
    · exact exec_xMoved_rank_refused hs h (xMovedOp_rank hin hp hm hr)
    · exact exec_xMoved_noJob hs h (xMovedOp_rank hin hp hm hr) hl
    · exact exec_xMoved_noRoute hs h (xMovedOp_rank hin hp hm hr) hl hj
    · exact exec_xMoved_sends hs h (xMovedOp_rank hin hp hm hr) hl hj

end Sys2Proof.Machine

end

section

/-! SUPPORT. The operations of the M slot and V.PASS, each in a bundle of its own (R241, R243 to R246), and obligation O20. -/

namespace Sys2Proof.Machine

open Sys2Proof

/-! ### What each command runs -/

theorem exec_mtBegin (t : Slot) (f : EFields) (o : Others) (s : State) : exec (.mtBegin t f o) s = .next (issueM 0x01 t f o s) := rfl

theorem exec_mtAcc (t : Slot) (f : EFields) (o : Others) (s : State) : exec (.mtAcc t f o) s = .next (issueM 0x02 t f o s) := rfl

theorem exec_mtAddraw (t : Slot) (f : EFields) (o : Others) (s : State) : exec (.mtAddraw t f o) s = .next (issueM 0x03 t f o s) := rfl

theorem exec_mtStore (t : Slot) (f : EFields) (o : Others) (s : State) : exec (.mtStore t f o) s = .next (issueM 0x04 t f o s) := rfl

theorem exec_mtDrop (t : Slot) (f : EFields) (o : Others) (s : State) : exec (.mtDrop t f o) s = .next (issueM 0x05 t f o s) := rfl

theorem exec_mtAlign (t : Slot) (f : EFields) (o : Others) (s : State) : exec (.mtAlign t f o) s = .next (issueM 0x06 t f o s) := rfl

theorem exec_vPass (t : Slot) (f : EFields) (o : Others) (s : State) : exec (.vPass t f o) s = .next (issueV 0x50 t f o s) := rfl

/-- An operation of the M slot with its signals. -/
def mRun (t : Slot) (f : EFields) (sigs : List Signal) (s : State) : SlotOp → State
  | .mtBegin => mBegin t (s.slot t) f sigs s
  | .mtAcc => mAcc t (s.slot t) f sigs s
  | .mtAddraw => mAddraw t (s.slot t) f sigs s
  | .mtStore => mStore t (s.slot t) f sigs s
  | .mtDrop => mDrop t (s.slot t) f sigs s
  | .mtAlign => mAlign t (s.slot t) f sigs s
  | _ => s

theorem mEffect_of_sigs {s : State} {t : Slot} {f : EFields} {sigs : List Signal} (hs : sigOf (s.slot t) t f = some sigs) (m : SlotOp) :
    mEffect m t (s.slot t) f s = mRun t f sigs s m := by
  unfold mEffect
  rw [hs]
  rfl

section
variable {s : State} {t : Slot} {f : EFields} {sigs : List Signal} (hs : sigOf (s.slot t) t f = some sigs)
include hs

theorem issueM_lands {op : Nat} {m : SlotOp} (hop : op < 256) (hm : mOpOf op = some m) (hn : m ≠ .nop)
    (h : Claims.issuesAlone s t 2 (eWord op f)) : issueM op t f Claims.noOthers s = landed s t (mRun t f sigs s m) := by
  rw [issueM_alone hop f hm hn h, mEffect_of_sigs hs]

theorem exec_mtBegin_alone (h : Claims.issuesAlone s t 2 (eWord 0x01 f)) :
    exec (.mtBegin t f Claims.noOthers) s = .next (landed s t (mBegin t (s.slot t) f sigs s)) :=
  (exec_mtBegin ..).trans (congrArg _ (issueM_lands hs (by decide) (m := .mtBegin) rfl SlotOp.noConfusion h))

theorem exec_mtAcc_alone (h : Claims.issuesAlone s t 2 (eWord 0x02 f)) :
    exec (.mtAcc t f Claims.noOthers) s = .next (landed s t (mAcc t (s.slot t) f sigs s)) :=
  (exec_mtAcc ..).trans (congrArg _ (issueM_lands hs (by decide) (m := .mtAcc) rfl SlotOp.noConfusion h))

theorem exec_mtAddraw_alone (h : Claims.issuesAlone s t 2 (eWord 0x03 f)) :
    exec (.mtAddraw t f Claims.noOthers) s = .next (landed s t (mAddraw t (s.slot t) f sigs s)) :=
  (exec_mtAddraw ..).trans (congrArg _ (issueM_lands hs (by decide) (m := .mtAddraw) rfl SlotOp.noConfusion h))

theorem exec_mtStore_alone (h : Claims.issuesAlone s t 2 (eWord 0x04 f)) :
    exec (.mtStore t f Claims.noOthers) s = .next (landed s t (mStore t (s.slot t) f sigs s)) :=
  (exec_mtStore ..).trans (congrArg _ (issueM_lands hs (by decide) (m := .mtStore) rfl SlotOp.noConfusion h))

theorem exec_mtDrop_alone (h : Claims.issuesAlone s t 2 (eWord 0x05 f)) :
    exec (.mtDrop t f Claims.noOthers) s = .next (landed s t (mDrop t (s.slot t) f sigs s)) :=
  (exec_mtDrop ..).trans (congrArg _ (issueM_lands hs (by decide) (m := .mtDrop) rfl SlotOp.noConfusion h))

theorem exec_mtAlign_alone (h : Claims.issuesAlone s t 2 (eWord 0x06 f)) :
    exec (.mtAlign t f Claims.noOthers) s = .next (landed s t (mAlign t (s.slot t) f sigs s)) :=
  (exec_mtAlign ..).trans (congrArg _ (issueM_lands hs (by decide) (m := .mtAlign) rfl SlotOp.noConfusion h))

end

theorem exec_vPass_alone {s : State} {t : Slot} {f : EFields} (h : Claims.issuesAlone s t 1 (eWord 0x50 f)) :
    exec (.vPass t f Claims.noOthers) s = .next (landed s t (vPassOp t (s.slot t) f s)) :=
  (exec_vPass ..).trans (congrArg _ (issueV_vPass_alone h))

/-! ### What a tile operation that enters its queue leaves alone -/

/-- Where an operand is poisoned the part is marked failed. -/
def spoiled (bad : Bool) (t : Slot) (s : State) : State := if bad then tilePoison t s else s

theorem spoiled_slots (bad : Bool) (t : Slot) (s : State) : (spoiled bad t s).slots = s.slots := by
  unfold spoiled
  split
  · exact tilePoison_slots t s
  · rfl

theorem noNewStop_tileIssue {s u : State} (h : u.slots = s.slots) (t : Slot) (sigs : List Signal) (pend : List RegName) (ws : List MemWrite)
    (reads : List BenchRead) (tile : Option Nat) (drops : Bool) (elem : Nat) :
    NoNewStop s (tileIssue t sigs pend ws u reads tile drops elem) := by
  refine (NoNewStop.of_slots h).trans ?_
  refine NoNewStop.trans ?_ (noNewStop_enqueue _ _ _ _)
  exact noNewStop_setSlot _ _ _ fun hx => hx

/-! ### Fields -/

theorem fld_low (x n : Nat) : fld x 0 n = x % 2 ^ n := by rw [fld, Nat.pow_zero, Nat.div_one]

theorem fld_high {x lo n : Nat} (h : x < 2 ^ (lo + n)) : fld x lo n = x / 2 ^ lo := by
  rw [fld, Nat.mod_eq_of_lt]
  rw [Nat.div_lt_iff_lt_mul (Nat.two_pow_pos lo), ← Nat.pow_add, Nat.add_comm n lo]
  exact h

theorem length_rangeFrom (lo n : Nat) : (rangeFrom lo n).length = n := by rw [rangeFrom_eq_range', List.length_range']

theorem getElem_rangeFrom {lo n i : Nat} (h : i < (rangeFrom lo n).length) : (rangeFrom lo n)[i] = lo + i := by
  simp only [rangeFrom_eq_range', List.getElem_range', Nat.one_mul]

/-! ### MT.BEGIN -/

theorem length_preloadEntries (rd : Nat → Byte) (k : AccKind) (src addr fw stride mt nt : Nat) :
    (preloadEntries rd k src addr fw stride mt nt).length = mt * nt := by
  unfold preloadEntries
  rw [List.length_flatMap]
  simp only [List.length_map, length_rangeFrom, List.map_const', List.sum_replicate_nat]

theorem preloadEntries_zero {rd : Nat → Byte} {k : AccKind} {addr fw stride mt nt : Nat} {e : AccEntry}
    (h : e ∈ preloadEntries rd k 0 addr fw stride mt nt) : e = zeroEntry k := by
  unfold preloadEntries at h
  obtain ⟨_, -, hi⟩ := List.mem_flatMap.1 h
  obtain ⟨_, -, he⟩ := List.mem_map.1 hi
  exact he.symm

section
variable {s : State} {t : Slot} {f : EFields} {sigs : List Signal}

/-- Rows of the preload that MT.BEGIN reads. -/
def preloadRows (f : EFields) : Nat := if tilePre f = 0 then 0 else if tilePre f = 1 then 1 else tileM f

/-- An operand of the preload is poisoned. -/
def preloadBad (s : State) (t : Slot) (f : EFields) : Bool :=
  rowsPoisoned (engView s (slotCore t) .matrix) (slotCore t) (sReg (s.slot t) f.a.toNat).toNat (fld (sReg (s.slot t) f.b.toNat).toNat 16 32)
    (preloadRows f) (preloadRow (tileAcc f) (tilePre f) (fld (sReg (s.slot t) f.b.toNat).toNat 0 16) ((tileN f).getD 32))

/-- The entries of a new tile. -/
def begunEntries (s : State) (t : Slot) (f : EFields) : List AccEntry :=
  preloadEntries (benchByte (engView s (slotCore t) .matrix) (slotCore t)) (tileAcc f) (tilePre f) (sReg (s.slot t) f.a.toNat).toNat
    (fld (sReg (s.slot t) f.b.toNat).toNat 0 16) (fld (sReg (s.slot t) f.b.toNat).toNat 16 32) (tileM f) ((tileN f).getD 32)

/-- A new tile. -/
def begunTile (s : State) (t : Slot) (f : EFields) : Handle :=
  let rb := (sReg (s.slot t) f.b.toNat).toNat
  let nt := (tileN f).getD 32
  { owner := t, mt := tileM f, nt := nt, acc := tileAcc f, accExp := toSigned 8 (fld rb 48 8), vmode := bit rb 56
    entries := begunEntries s t f, poisoned := preloadBad s t f, blocks := 0, tallies := {}
    overSeen := preloadVoid (engView s (slotCore t) .matrix) (slotCore t) (tilePre f) (sReg (s.slot t) f.a.toNat).toNat (fld rb 16 32)
      (tileM f) (nt * rawBytes (tileAcc f)) }

/-- The tile is in handle h, which D names; its preload is in the engine's queue. -/
def tileBegun (s : State) (t : Slot) (f : EFields) (sigs : List Signal) (h : Nat) : State :=
  tileIssue t sigs [sName f.d.toNat] [] (updSlot t (fun y => setSReg y f.d.toNat (BitVec.ofNat 64 h))
    (setHandle (spoiled (preloadBad s t f) t s) (slotCore t) h (begunTile s t f)))

theorem mBegin_refused (h : beginOk f (sReg (s.slot t) f.a.toNat).toNat (sReg (s.slot t) f.b.toNat).toNat = false) :
    mBegin t (s.slot t) f sigs s = stopAt t evTileFault 1 s := if_neg (Bool.eq_false_iff.1 h)

theorem mBegin_begins (hok : beginOk f (sReg (s.slot t) f.a.toNat).toNat (sReg (s.slot t) f.b.toNat).toNat = true) {h : Nat}
    (hf : freeHandle (s.core (slotCore t)) = some h) : mBegin t (s.slot t) f sigs s = tileBegun s t f sigs h := by
  unfold mBegin
  dsimp only
  rw [if_pos hok, hf]
  rfl

theorem noNewStop_tileBegun (s : State) (t : Slot) (f : EFields) (sigs : List Signal) (h : Nat) : NoNewStop s (tileBegun s t f sigs h) := by
  unfold tileBegun
  generalize hu : setHandle (spoiled (preloadBad s t f) t s) (slotCore t) h (begunTile s t f) = u
  have hus : u.slots = s.slots := by
    rw [← hu]
    exact spoiled_slots ..
  have h1 : NoNewStop u (updSlot t (fun y => setSReg y f.d.toNat (BitVec.ofNat 64 h)) u) := noNewStop_updSlot _ _ _ fun _ hx => hx
  exact ((NoNewStop.of_slots hus).trans h1).trans (noNewStop_tileIssue rfl _ _ _ _ _ _ _ _)

end

/-! ### MT.ACC -/

section
variable {s : State} {t : Slot} {f : EFields} {sigs : List Signal} {hn : Nat} {h : Handle}

/-- The operand block that MT.ACC names. -/
def accBlock (s : State) (t : Slot) (f : EFields) : TileOpnds :=
  tileOpnds (wordsOf 8 (benchRead (engView s (slotCore t) .matrix) (slotCore t) (sReg (s.slot t) f.b.toNat).toNat 64))

/-- The first block of K and the number of blocks. -/
def accFirst (s : State) (t : Slot) (f : EFields) : Nat := (sReg (s.slot t) f.c.toNat).toNat % 2 ^ 32
def accCount (s : State) (t : Slot) (f : EFields) : Nat := (sReg (s.slot t) f.c.toNat).toNat / 2 ^ 32

/-- The inlay list of the block. -/
def accInlays (s : State) (t : Slot) (f : EFields) (cls : PairClass) : List Nat :=
  if (accBlock s t f).inlayN ≠ 0 ∧ cls ≠ .h then
    readList (benchByte (engView s (slotCore t) .matrix) (slotCore t)) (accBlock s t f).list (accBlock s t f).inlayN
  else []

/-- The entries after MT.ACC, its tallies, and whether an alignment record was stale. -/
def accResult (s : State) (t : Slot) (f : EFields) (h : Handle) (cls : PairClass) : List AccEntry × Tallies × Bool :=
  accTile h (accBlock s t f) (benchByte (engView s (slotCore t) .matrix) (slotCore t)) (accInlays s t f cls) (accFirst s t f) (accCount s t f)

/-- The block's ranges lie in the bench and its inlay list ascends. -/
def AccFine (s : State) (t : Slot) (f : EFields) (cls : PairClass) : Prop :=
  accCount s t f ≠ 0 ∧
  ((accBlock s t f).ranges cls (accFirst s t f) (accCount s t f)).all (fun r => rowsOk r.1 r.2.1 r.2.2.1 r.2.2.2) = true ∧
  ascending (accInlays s t f cls) = true

/-- An operand of MT.ACC is poisoned. -/
def accBad (s : State) (t : Slot) (f : EFields) (cls : PairClass) : Bool :=
  benchPoisoned (engView s (slotCore t) .matrix) (slotCore t) (sReg (s.slot t) f.b.toNat).toNat 64 ||
  ((accBlock s t f).ranges cls (accFirst s t f) (accCount s t f)).any fun r =>
    rowsPoisoned (engView s (slotCore t) .matrix) (slotCore t) r.1 r.2.1 r.2.2.1 r.2.2.2

/-- The events of MT.ACC's operands: poison, and stale alignment records. -/
def accTold (s : State) (t : Slot) (f : EFields) (h : Handle) (cls : PairClass) : State :=
  if (accResult s t f h cls).2.2 then
    raiseEv (spoiled (accBad s t f cls) t s) evAlignStale (srcCore (slotCore t)) [] (some (s.slot t).ctx) 0xFF 1
  else spoiled (accBad s t f cls) t s

theorem accTold_slots (s : State) (t : Slot) (f : EFields) (h : Handle) (cls : PairClass) : (accTold s t f h cls).slots = s.slots := by
  unfold accTold
  split
  · rw [raiseEv_slots, spoiled_slots]
  · exact spoiled_slots ..

/-- The tile after MT.ACC. -/
def accHandle (s : State) (t : Slot) (f : EFields) (h : Handle) (cls : PairClass) : Handle :=
  { h with
    entries := (accResult s t f h cls).1, tallies := (accResult s t f h cls).2.1, poisoned := h.poisoned || accBad s t f cls
    blocks := h.blocks + accCount s t f, overSeen := h.overSeen || decide (0 < (accResult s t f h cls).2.1.overC) }

/-- MT.ACC in the engine's queue. -/
def tileAccumulated (s : State) (t : Slot) (f : EFields) (sigs : List Signal) (hn : Nat) (h : Handle) (cls : PairClass) : State :=
  tileIssue t sigs [] [] (setHandle (accTold s t f h cls) (slotCore t) hn (accHandle s t f h cls))
    ((accBlock s t f).reads (sReg (s.slot t) f.b.toNat).toNat cls (accFirst s t f) (accCount s t f)) (some hn)

theorem noNewStop_tileAccumulated (s : State) (t : Slot) (f : EFields) (sigs : List Signal) (hn : Nat) (h : Handle) (cls : PairClass) :
    NoNewStop s (tileAccumulated s t f sigs hn h cls) := by
  refine noNewStop_tileIssue ?_ _ _ _ _ _ _ _ _
  exact accTold_slots ..

variable (ho : ownedHandle s t (sReg (s.slot t) f.a.toNat) = some (hn, h))
include ho

theorem mAcc_noBlock (hb : tileRange (sReg (s.slot t) f.b.toNat).toNat 64 = false ∨ accClass (accBlock s t f) h = none) :
    mAcc t (s.slot t) f sigs s = stopAt t evTileFault 1 s := by
  unfold mAcc
  dsimp only
  rw [ho]
  dsimp only
  by_cases hr : tileRange (sReg (s.slot t) f.b.toNat).toNat 64 = true
  · have hc := hb.resolve_left (by rw [hr]; exact Bool.noConfusion)
    unfold accBlock at hc
    rw [if_neg (not_not.2 hr), hc]
  · exact if_pos hr

variable (hr : tileRange (sReg (s.slot t) f.b.toNat).toNat 64 = true) {cls : PairClass} (hc : accClass (accBlock s t f) h = some cls)
include hr hc

/-- MT.ACC of a well-formed block stops the slot or accumulates. -/
theorem mAcc_block : (¬ AccFine s t f cls → mAcc t (s.slot t) f sigs s = stopAt t evTileFault 1 s) ∧
    (AccFine s t f cls → mAcc t (s.slot t) f sigs s = tileAccumulated s t f sigs hn h cls) := by
  have hlt : (sReg (s.slot t) f.c.toNat).toNat < 2 ^ (32 + 32) := BitVec.isLt _
  unfold accBlock at hc
  unfold mAcc
  dsimp only
  rw [ho]
  dsimp only
  rw [if_neg (not_not.2 hr), hc]
  dsimp only
  rw [fld_low, fld_high hlt]
  refine ⟨fun hf => if_pos ?_, fun hf => if_neg ?_⟩
  · by_contra hno
    rw [not_or, not_or, not_not, not_not] at hno
    exact hf hno
  · rw [not_or, not_or, not_not, not_not]
    exact hf

end

end Sys2Proof.Machine

end

section

/-! SUPPORT. MT.ADDRAW, MT.STORE, MT.DROP, MT.ALIGN and V.PASS, and obligation O20. -/

namespace Sys2Proof.Machine

open Sys2Proof

theorem dropHandle_slots (s : State) (c : Core) (n : Nat) : (dropHandle s c n).slots = s.slots := rfl

/-! ### MT.ADDRAW -/

/-- Entry p of a tile after the raw rows at addr are added. -/
def addrawEntry (s : State) (t : Slot) (f : EFields) (h : Handle) (p : Nat) : AccEntry :=
  accCombine ⟨h.acc, h.accExp, h.vmode⟩ (h.entries.getD p (zeroEntry h.acc))
    (entryOfRaw h.acc (benchNat (engView s (slotCore t) .matrix) (slotCore t)
      ((sReg (s.slot t) f.b.toNat).toNat + p / h.nt * (sReg (s.slot t) f.c.toNat).toNat + p % h.nt * rawBytes h.acc) (rawBytes h.acc)))

/-- The entries after MT.ADDRAW. -/
def addrawEntries (s : State) (t : Slot) (f : EFields) (h : Handle) : List AccEntry :=
  (rangeFrom 0 (h.mt * h.nt)).map (addrawEntry s t f h)

theorem length_addrawEntries (s : State) (t : Slot) (f : EFields) (h : Handle) : (addrawEntries s t f h).length = h.mt * h.nt := by
  rw [addrawEntries, List.length_map, length_rangeFrom]

theorem getD_addrawEntries (s : State) (t : Slot) (f : EFields) (h : Handle) {i j : Nat} (hi : i < h.mt) (hj : j < h.nt) (d : AccEntry) :
    (addrawEntries s t f h).getD (i * h.nt + j) d = accCombine ⟨h.acc, h.accExp, h.vmode⟩ (h.entries.getD (i * h.nt + j) (zeroEntry h.acc))
      (entryOfRaw h.acc (benchNat (engView s (slotCore t) .matrix) (slotCore t)
        ((sReg (s.slot t) f.b.toNat).toNat + i * (sReg (s.slot t) f.c.toNat).toNat + j * rawBytes h.acc) (rawBytes h.acc))) := by
  have hp : i * h.nt + j < h.mt * h.nt :=
    calc i * h.nt + j < i * h.nt + h.nt := Nat.add_lt_add_left hj _
      _ = (i + 1) * h.nt := (Nat.succ_mul i h.nt).symm
      _ ≤ h.mt * h.nt := Nat.mul_le_mul_right _ hi
  have hl : i * h.nt + j < ((rangeFrom 0 (h.mt * h.nt)).map (addrawEntry s t f h)).length := by rwa [List.length_map, length_rangeFrom]
  have hdiv : (i * h.nt + j) / h.nt = i := by
    rw [Nat.add_comm, Nat.add_mul_div_right _ _ (Nat.zero_lt_of_lt hj), Nat.div_eq_of_lt hj, Nat.zero_add]
  have hmod : (i * h.nt + j) % h.nt = j := by rw [Nat.add_comm, Nat.add_mul_mod_self_right, Nat.mod_eq_of_lt hj]
  have he : (addrawEntries s t f h).getD (i * h.nt + j) d = addrawEntry s t f h (i * h.nt + j) := by
    unfold addrawEntries
    rw [List.getD_eq_getElem _ _ hl, List.getElem_map, getElem_rangeFrom, Nat.zero_add]
  rw [he, addrawEntry, hdiv, hmod]

section
variable {s : State} {t : Slot} {f : EFields} {sigs : List Signal} {hn : Nat} {h : Handle}

/-- A row of MT.ADDRAW is poisoned. -/
def addrawBad (s : State) (t : Slot) (f : EFields) (h : Handle) : Bool :=
  rowsPoisoned (engView s (slotCore t) .matrix) (slotCore t) (sReg (s.slot t) f.b.toNat).toNat (sReg (s.slot t) f.c.toNat).toNat h.mt
    (h.nt * rawBytes h.acc)

/-- The tile after MT.ADDRAW. -/
def addrawHandle (s : State) (t : Slot) (f : EFields) (h : Handle) : Handle :=
  { h with
    entries := addrawEntries s t f h, poisoned := h.poisoned || addrawBad s t f h
    overSeen := h.overSeen || (rangeFrom 0 h.mt).any fun i => voidAt (engView s (slotCore t) .matrix) .bench
      (benchAddr (slotCore t) ((sReg (s.slot t) f.b.toNat).toNat + i * (sReg (s.slot t) f.c.toNat).toNat)) (h.nt * rawBytes h.acc) }

/-- MT.ADDRAW in the engine's queue. -/
def tileAdded (s : State) (t : Slot) (f : EFields) (sigs : List Signal) (hn : Nat) (h : Handle) : State :=
  tileIssue t sigs [] [] (setHandle (spoiled (addrawBad s t f h) t s) (slotCore t) hn (addrawHandle s t f h))

theorem noNewStop_tileAdded (s : State) (t : Slot) (f : EFields) (sigs : List Signal) (hn : Nat) (h : Handle) :
    NoNewStop s (tileAdded s t f sigs hn h) := by
  refine noNewStop_tileIssue ?_ _ _ _ _ _ _ _ _
  exact spoiled_slots ..

section
variable (ho : ownedHandle s t (sReg (s.slot t) f.a.toNat) = some (hn, h))
include ho

theorem mAddraw_outside (hr : rowsOk (sReg (s.slot t) f.b.toNat).toNat (sReg (s.slot t) f.c.toNat).toNat h.mt (h.nt * rawBytes h.acc) = false) :
    mAddraw t (s.slot t) f sigs s = stopAt t evTileFault 1 s := by
  unfold mAddraw
  dsimp only
  rw [ho]
  exact if_pos (Bool.eq_false_iff.1 hr)

theorem mAddraw_adds (hr : rowsOk (sReg (s.slot t) f.b.toNat).toNat (sReg (s.slot t) f.c.toNat).toNat h.mt (h.nt * rawBytes h.acc) = true) :
    mAddraw t (s.slot t) f sigs s = tileAdded s t f sigs hn h := by
  unfold mAddraw
  dsimp only
  rw [ho]
  exact if_neg (not_not.2 hr)

/-! ### MT.DROP -/

theorem mDrop_drops : mDrop t (s.slot t) f sigs s = tileIssue t sigs [] [] (dropHandle s (slotCore t) hn) [] (some hn) true := by
  unfold mDrop
  rw [ho]

end

/-- An operation on a handle that the slot does not own stops it. -/
theorem noHandle_stops (ho : ownedHandle s t (sReg (s.slot t) f.a.toNat) = none) :
    mAcc t (s.slot t) f sigs s = stopAt t evTileFault 1 s ∧ mAddraw t (s.slot t) f sigs s = stopAt t evTileFault 1 s ∧
    mStore t (s.slot t) f sigs s = stopAt t evTileFault 1 s ∧ mDrop t (s.slot t) f sigs s = stopAt t evTileFault 1 s := by
  unfold mAcc mAddraw mStore mDrop
  dsimp only
  rw [ho]
  exact ⟨rfl, rfl, rfl, rfl⟩

end

/-! ### MT.STORE -/

/-- What MT.STORE finds: the words of its key block, and its word in C. -/
structure StoreSpec where
  words : List Nat
  word : Nat

namespace StoreSpec

variable (k : StoreSpec)

/-- A raw store; the rows and columns stored; the format; the row stride; columns of the whole tensor; where the tile begins in it. -/
def raw : Bool := bit k.word 49
def mv : Nat := fld (nth k.words 2) 32 16
def nv : Nat := fld (nth k.words 2) 48 16
def fw : Nat := k.word % 2 ^ 16
def fmt : Fmt := (fwFmt k.fw).getD .fp32
def stride : Nat := fld k.word 16 32
def ncols : Nat := fld (nth k.words 2) 0 32
def origin : Nat := fld (nth k.words 1) 0 48

/-- Bytes of a row. -/
def rowBytes (h : Handle) : Nat := if k.raw then k.nv * rawBytes h.acc else elemsBytes k.fmt k.nv

/-- The store is well-formed for a tile, its rows beginning at addr. -/
def Fine (h : Handle) (addr : Nat) : Prop :=
  k.word / 2 ^ 50 % 2 ^ 14 = 0 ∧ nth k.words 3 = 0 ∧ nth k.words 1 / 2 ^ 48 % 2 ^ 16 = 0 ∧
  1 ≤ k.ncols ∧ k.ncols ≤ 16777216 ∧ 1 ≤ k.mv ∧ k.mv ≤ h.mt ∧ 1 ≤ k.nv ∧ k.nv ≤ h.nt ∧
  (k.raw = true ∨ (fwBad k.fw false = false ∧ storeFmtOk h.acc k.fw = true ∧ k.origin + (k.mv - 1) * k.ncols + k.nv - 1 < 2 ^ 48)) ∧
  rowsOk addr k.stride k.mv (k.rowBytes h) = true

/-- What refuses a store, in the order in which the engine looks. -/
def Refused (h : Handle) (addr : Nat) : Prop :=
  k.word / 2 ^ 50 % 2 ^ 14 ≠ 0 ∨ nth k.words 3 ≠ 0 ∨ nth k.words 1 / 2 ^ 48 % 2 ^ 16 ≠ 0 ∨ k.mv < 1 ∨ h.mt < k.mv ∨ k.nv < 1 ∨ h.nt < k.nv ∨
  ¬ (k.raw = true ∨ (¬ fwBad k.fw false = true ∧ storeFmtOk h.acc k.fw = true)) ∨ ¬ rowsOk addr k.stride k.mv (k.rowBytes h) = true ∨
  k.ncols < 1 ∨ 16777216 < k.ncols ∨ (¬ k.raw = true ∧ 2 ^ 48 ≤ k.origin + (k.mv - 1) * k.ncols + k.nv - 1)

theorem refused_iff (h : Handle) (addr : Nat) : k.Refused h addr ↔ ¬ k.Fine h addr := by
  unfold Refused Fine
  cases k.raw with
  | false =>
    simp only [not_and_or, not_lt, not_le, ne_eq, Bool.not_eq_true, Bool.false_eq_true, false_or, not_false_eq_true, true_and]
    simp only [or_assoc, or_comm, or_left_comm]
  | true =>
    simp only [not_and_or, not_le, ne_eq, Bool.not_eq_true, true_or, false_or, not_true, false_and, or_false]
    simp only [or_assoc, or_comm, or_left_comm]

/-- The key of the stochastic rounding. -/
def key (seed : Nat) : SrKey := ⟨seed, fld (nth k.words 0) 0 32, fld (nth k.words 0) 32 32⟩

/-- The converted rows and the tallies. -/
def rows (h : Handle) (seed : Nat) : List (List Nat) × Tallies := storeRows h k.fw (k.key seed) k.origin k.ncols k.mv k.nv

/-- The bytes of the rows that the store writes. -/
def bytes (h : Handle) (seed : Nat) : List (List Byte) :=
  if k.raw then rawRows h k.mv k.nv else (k.rows h seed).1.map (packCodes k.fmt)

/-- The tallies that the store hands on. -/
def tallies (h : Handle) (seed : Nat) : Tallies := storeTallies h k.raw (k.rows h seed).2 (satStored h k.mv k.nv)

end StoreSpec

section
variable {s : State} {t : Slot} {f : EFields} {sigs : List Signal} {hn : Nat} {h : Handle}

/-- The store that MT.STORE names. -/
def storeSpec (s : State) (t : Slot) (f : EFields) : StoreSpec :=
  ⟨wordsOf 4 (benchRead (engView s (slotCore t) .matrix) (slotCore t) (sReg (s.slot t) f.d.toNat).toNat 32),
    (sReg (s.slot t) f.c.toNat).toNat⟩

def ctxSeed (s : State) (t : Slot) : Nat := (s.ctx (s.slot t).ctx).seed.toNat

/-- The writes of MT.STORE. -/
def storedWrites (s : State) (t : Slot) (f : EFields) (h : Handle) : List MemWrite :=
  (List.zip (rangeFrom 0 (storeSpec s t f).mv) ((storeSpec s t f).bytes h (ctxSeed s t))).map fun p =>
    { space := .bench, addr := benchAddr (slotCore t) ((sReg (s.slot t) f.b.toNat).toNat + p.1 * (storeSpec s t f).stride), data := p.2
      poison := h.poisoned || benchPoisoned (engView s (slotCore t) .matrix) (slotCore t) (sReg (s.slot t) f.d.toNat).toNat 32
      void := (storeSpec s t f).raw && h.overSeen }

/-- The tile after MT.STORE: freed on RELEASE, its tallies handed on otherwise. -/
def storedHandle (s : State) (t : Slot) (f : EFields) (hn : Nat) (h : Handle) : State :=
  let u := tallySlot s (s.slot t) ((storeSpec s t f).tallies h (ctxSeed s t))
  if bit (storeSpec s t f).word 48 then dropHandle u (slotCore t) hn else
    setHandle u (slotCore t) hn
      { h with tallies := {}, voidTold := h.voidTold || (!(storeSpec s t f).raw && tileVoid h.acc h.blocks h.overSeen) }

/-- MT.STORE in the engine's queue. -/
def tileStored (s : State) (t : Slot) (f : EFields) (sigs : List Signal) (hn : Nat) (h : Handle) : State :=
  tileIssue t sigs [] (storedWrites s t f h) ((storedWrites s t f h).foldl (spoilTiles true) (storedHandle s t f hn h)) [] (some hn)
    (bit (storeSpec s t f).word 48) (if (storeSpec s t f).raw then 8 * rawBytes h.acc else (storeSpec s t f).fmt.width)

theorem storedHandle_slots (s : State) (t : Slot) (f : EFields) (hn : Nat) (h : Handle) : (storedHandle s t f hn h).slots = s.slots := by
  unfold storedHandle
  dsimp only
  split
  · exact tallySlot_slots ..
  · exact tallySlot_slots ..

theorem noNewStop_tileStored (s : State) (t : Slot) (f : EFields) (sigs : List Signal) (hn : Nat) (h : Handle) :
    NoNewStop s (tileStored s t f sigs hn h) := by
  refine noNewStop_tileIssue ?_ _ _ _ _ _ _ _ _
  rw [foldl_slots _ (fun u w => spoilTiles_slots true u w), storedHandle_slots]

variable (ho : ownedHandle s t (sReg (s.slot t) f.a.toNat) = some (hn, h))
include ho

theorem mStore_noKeys (hr : tileRange (sReg (s.slot t) f.d.toNat).toNat 32 = false) :
    mStore t (s.slot t) f sigs s = stopAt t evTileFault 1 s := by
  unfold mStore
  dsimp only
  rw [ho]
  exact if_pos (Bool.eq_false_iff.1 hr)

variable (hr : tileRange (sReg (s.slot t) f.d.toNat).toNat 32 = true)
include hr

theorem mStore_refused (hf : (storeSpec s t f).Refused h (sReg (s.slot t) f.b.toNat).toNat) :
    mStore t (s.slot t) f sigs s = stopAt t evTileFault 1 s := by
  unfold mStore
  dsimp only
  rw [ho]
  dsimp only
  rw [if_neg (not_not.2 hr), fld_low]
  exact if_pos hf

theorem mStore_stores (hf : ¬ (storeSpec s t f).Refused h (sReg (s.slot t) f.b.toNat).toNat) :
    mStore t (s.slot t) f sigs s = tileStored s t f sigs hn h := by
  unfold mStore
  dsimp only
  rw [ho]
  dsimp only
  rw [if_neg (not_not.2 hr), fld_low]
  exact if_neg hf

end

/-! ### MT.ALIGN -/

/-- The word in C of MT.ALIGN, and its other operands. -/
structure AlignSpec where
  stride : Nat
  addr : Nat
  records : Nat
  word : Nat

namespace AlignSpec

variable (k : AlignSpec)

/-- Rows, elements of a row, format, frame, and bytes of the records of a row. -/
def rows : Nat := k.word % 2 ^ 16
def count : Nat := fld k.word 16 24
def fmt : Fmt := if fld k.word 40 4 = 0 then .fp64 else .fp32
def frame : AccKind := if bit k.word 44 then .ven32 else .ven64
def recBytes : Nat := 8 * ceilDiv k.count 32

/-- MT.ALIGN is well-formed. -/
def Fine : Prop :=
  fld k.word 45 19 = 0 ∧ fld k.word 40 4 < 2 ∧ 1 ≤ k.rows ∧ k.rows ≤ 256 ∧ k.count ≠ 0 ∧ ¬ (k.frame = .ven32 ∧ k.fmt = .fp64) ∧
  k.records % 64 = 0 ∧ rowsOk k.addr k.stride k.rows (elemsBytes k.fmt k.count) = true ∧ tileRange k.records (k.rows * k.recBytes) = true

/-- What refuses it. -/
def Refused : Prop :=
  fld k.word 45 19 ≠ 0 ∨ 2 ≤ fld k.word 40 4 ∨ k.rows < 1 ∨ 256 < k.rows ∨ k.count = 0 ∨ (k.frame = .ven32 ∧ k.fmt = .fp64) ∨
  k.records % 64 ≠ 0 ∨ ¬ rowsOk k.addr k.stride k.rows (elemsBytes k.fmt k.count) = true ∨
  ¬ tileRange k.records (k.rows * k.recBytes) = true

theorem refused_iff : k.Refused ↔ ¬ k.Fine := by
  unfold Refused Fine
  simp only [not_and_or, not_or, not_not, not_lt, not_le, ne_eq]

end AlignSpec

section
variable {s : State} {t : Slot} {f : EFields} {sigs : List Signal}

/-- The alignment that MT.ALIGN names. -/
def alignSpec (s : State) (t : Slot) (f : EFields) : AlignSpec :=
  ⟨(sReg (s.slot t) f.d.toNat).toNat, (sReg (s.slot t) f.a.toNat).toNat, (sReg (s.slot t) f.b.toNat).toNat, (sReg (s.slot t) f.c.toNat).toNat⟩

/-- An operand row is poisoned. -/
def alignBad (s : State) (t : Slot) (k : AlignSpec) : Bool :=
  rowsPoisoned (engView s (slotCore t) .matrix) (slotCore t) k.addr k.stride k.rows (elemsBytes k.fmt k.count)

/-- The records that MT.ALIGN writes. -/
def alignWrites (s : State) (t : Slot) (k : AlignSpec) : List MemWrite :=
  (rangeFrom 0 k.rows).map fun r =>
    { space := .bench, addr := benchAddr (slotCore t) (k.records + r * k.recBytes)
      data := alignRow (benchByte (engView s (slotCore t) .matrix) (slotCore t)) k.fmt k.frame (k.addr + r * k.stride) k.count
      poison := alignBad s t k }

/-- MT.ALIGN in the engine's queue. -/
def tileAligned (s : State) (t : Slot) (sigs : List Signal) (k : AlignSpec) : State :=
  tileIssue t sigs [] (alignWrites s t k) (spoiled (alignBad s t k) t s)

theorem noNewStop_tileAligned (s : State) (t : Slot) (sigs : List Signal) (k : AlignSpec) : NoNewStop s (tileAligned s t sigs k) :=
  noNewStop_tileIssue (spoiled_slots ..) _ _ _ _ _ _ _ _

theorem mAlign_refused (h : (alignSpec s t f).Refused) : mAlign t (s.slot t) f sigs s = stopAt t evTileFault 1 s := by
  unfold mAlign
  dsimp only
  rw [fld_low]
  exact if_pos h

theorem mAlign_aligns (h : ¬ (alignSpec s t f).Refused) : mAlign t (s.slot t) f sigs s = tileAligned s t sigs (alignSpec s t f) := by
  unfold mAlign
  dsimp only
  rw [fld_low]
  exact if_neg h

end

/-! ### V.PASS -/

theorem noNewStop_setCore (s : State) (c : Core) (x : CoreState) : NoNewStop s (s.setCore c x) := .of_slots rfl

/-- A pass that enters the chain's queue stops no slot. -/
theorem noNewStop_passIssue (t : Slot) (x : SlotState) (sigs : List Signal) (w : List Nat) (s : State) :
    NoNewStop s (passIssue t x sigs w s) := by
  unfold passIssue
  refine NoNewStop.trans ?_ (noNewStop_enqueue _ _ _ _)
  refine NoNewStop.trans ?_ (noNewStop_setCore _ _ _)
  refine NoNewStop.trans ?_ (noNewStop_foldl _ (fun _ _ => .of_slots (raiseEv_slots ..)) _ _)
  refine NoNewStop.trans ?_ (noNewStop_updSlot _ _ _ fun _ hx => hx)
  refine NoNewStop.of_slots ?_
  rw [slotWatch_slots]
  split
  · exact failSlotPart_slots ..
  · exact tallySlot_slots ..

section
variable {s : State} {t : Slot} {f : EFields} {sigs : List Signal}

/-- The bench address of the pass descriptor. -/
def passAddr (s : State) (t : Slot) (f : EFields) : Nat := (sReg (s.slot t) f.a.toNat).toNat

/-- The descriptor as it runs. -/
def passRuns (s : State) (t : Slot) (f : EFields) : List Nat := slotPassRun s t (slotPassWords s t (passAddr s t f))

/-- Every range that the pass reads or writes lies in the bench. -/
def passReach (s : State) (t : Slot) (f : EFields) : Bool :=
  let w := passRuns s t f
  let e := slotEnv s t (slotRnd (s.slot t)) w
  (passReads w 0 (pRows w)).all (fun r => e.ok .read r.1 r.2)
    && (passOuts e w 0 (pRows w) ++ (if pAmax w then amaxOuts w else [])).all fun r => e.ok .write r.1 r.2

variable (hs : sigOf (s.slot t) t f = some sigs)
include hs

theorem vPassOp_outside (h : benchSize < passAddr s t f + 256) : vPassOp t (s.slot t) f s = stopAt t evAccessFault 2 s := by
  unfold vPassOp
  rw [hs]
  exact if_pos h

variable (hin : passAddr s t f + 256 ≤ benchSize)
include hin

theorem vPassOp_unaligned (h : passAddr s t f % 64 ≠ 0) : vPassOp t (s.slot t) f s = stopAt t evPassFault 2 s := by
  unfold vPassOp
  rw [hs]
  exact (if_neg (Nat.not_lt.2 hin)).trans (if_pos h)

variable (hal : passAddr s t f % 64 = 0)
include hal

theorem vPassOp_poisoned (h : benchPoisoned (engView s (slotCore t) .vector) (slotCore t) (passAddr s t f) 256 = true) :
    vPassOp t (s.slot t) f s = stopAt t evMemPoison 2 s := by
  unfold vPassOp
  rw [hs]
  exact (if_neg (Nat.not_lt.2 hin)).trans ((if_neg (not_not.2 hal)).trans (if_pos h))

variable (hp : benchPoisoned (engView s (slotCore t) .vector) (slotCore t) (passAddr s t f) 256 = false)
include hp

theorem vPassOp_refused (h : slotPassBad s t (slotPassWords s t (passAddr s t f)) = true) :
    vPassOp t (s.slot t) f s = stopAt t evPassFault 2 s := by
  unfold vPassOp
  rw [hs]
  exact (if_neg (Nat.not_lt.2 hin)).trans ((if_neg (not_not.2 hal)).trans ((if_neg (Bool.eq_false_iff.1 hp)).trans (if_pos h)))

variable (hb : slotPassBad s t (slotPassWords s t (passAddr s t f)) = false)
include hb

/-- A pass that the slot may run enters the chain's queue where its ranges lie in the bench. -/
theorem vPassOp_accepted : vPassOp t (s.slot t) f s =
    if passReach s t f then passIssue t (s.slot t) sigs (passRuns s t f) s else stopAt t evAccessFault 2 s := by
  unfold vPassOp
  rw [hs]
  exact (if_neg (Nat.not_lt.2 hin)).trans ((if_neg (not_not.2 hal)).trans
    ((if_neg (Bool.eq_false_iff.1 hp)).trans (if_neg (Bool.eq_false_iff.1 hb))))

theorem vPassOp_unreached (h : passReach s t f = false) : vPassOp t (s.slot t) f s = stopAt t evAccessFault 2 s := by
  rw [vPassOp_accepted hs hin hal hp hb, if_neg (Bool.eq_false_iff.1 h)]

theorem vPassOp_issues (h : passReach s t f = true) : vPassOp t (s.slot t) f s = passIssue t (s.slot t) sigs (passRuns s t f) s := by
  rw [vPassOp_accepted hs hin hal hp hb, if_pos h]

end

/-! ### The commands and their outcomes -/

section
variable {s : State} {t : Slot} {f : EFields} {sigs : List Signal} (hs : sigOf (s.slot t) t f = some sigs)
include hs

theorem exec_mtBegin_begins (hi : Claims.issuesAlone s t 2 (eWord 0x01 f))
    (hok : beginOk f (sReg (s.slot t) f.a.toNat).toNat (sReg (s.slot t) f.b.toNat).toNat = true) {h : Nat}
    (hf : freeHandle (s.core (slotCore t)) = some h) :
    exec (.mtBegin t f Claims.noOthers) s = .next (Claims.advanced s t (tileBegun s t f sigs h)) :=
  goes_on hi (exec_mtBegin_alone hs hi) (mBegin_begins hok hf) (noNewStop_tileBegun _ _ _ _ _)

section
variable {hn : Nat} {h : Handle} (ho : ownedHandle s t (sReg (s.slot t) f.a.toNat) = some (hn, h))
include ho

theorem exec_mtAcc_accumulates (hi : Claims.issuesAlone s t 2 (eWord 0x02 f))
    (hr : tileRange (sReg (s.slot t) f.b.toNat).toNat 64 = true) {cls : PairClass} (hc : accClass (accBlock s t f) h = some cls)
    (hf : AccFine s t f cls) : exec (.mtAcc t f Claims.noOthers) s = .next (Claims.advanced s t (tileAccumulated s t f sigs hn h cls)) :=
  goes_on hi (exec_mtAcc_alone hs hi) ((mAcc_block ho hr hc).2 hf) (noNewStop_tileAccumulated _ _ _ _ _ _ _)

theorem exec_mtAddraw_adds (hi : Claims.issuesAlone s t 2 (eWord 0x03 f))
    (hr : rowsOk (sReg (s.slot t) f.b.toNat).toNat (sReg (s.slot t) f.c.toNat).toNat h.mt (h.nt * rawBytes h.acc) = true) :
    exec (.mtAddraw t f Claims.noOthers) s = .next (Claims.advanced s t (tileAdded s t f sigs hn h)) :=
  goes_on hi (exec_mtAddraw_alone hs hi) (mAddraw_adds ho hr) (noNewStop_tileAdded _ _ _ _ _ _)

theorem exec_mtStore_stores (hi : Claims.issuesAlone s t 2 (eWord 0x04 f)) (hr : tileRange (sReg (s.slot t) f.d.toNat).toNat 32 = true)
    (hf : (storeSpec s t f).Fine h (sReg (s.slot t) f.b.toNat).toNat) :
    exec (.mtStore t f Claims.noOthers) s = .next (Claims.advanced s t (tileStored s t f sigs hn h)) :=
  goes_on hi (exec_mtStore_alone hs hi) (mStore_stores ho hr fun h => ((storeSpec s t f).refused_iff _ _).1 h hf)
    (noNewStop_tileStored _ _ _ _ _ _)

theorem exec_mtStore_refused (hi : Claims.issuesAlone s t 2 (eWord 0x04 f)) (hf : ¬ (tileRange (sReg (s.slot t) f.d.toNat).toNat 32 = true ∧
    (storeSpec s t f).Fine h (sReg (s.slot t) f.b.toNat).toNat)) :
    exec (.mtStore t f Claims.noOthers) s = .next (Claims.stoppedIn s t evTileFault 1) := by
  cases hr : tileRange (sReg (s.slot t) f.d.toNat).toNat 32 with
  | false => exact stops_in (exec_mtStore_alone hs hi) (mStore_noKeys ho hr)
  | true =>
    refine stops_in (exec_mtStore_alone hs hi) (mStore_refused ho hr ?_)
    exact ((storeSpec s t f).refused_iff _ _).2 fun h => hf ⟨hr, h⟩

theorem exec_mtDrop_drops (hi : Claims.issuesAlone s t 2 (eWord 0x05 f)) : exec (.mtDrop t f Claims.noOthers) s =
    .next (Claims.advanced s t (tileIssue t sigs [] [] (dropHandle s (slotCore t) hn) [] (some hn) true)) :=
  goes_on hi (exec_mtDrop_alone hs hi) (mDrop_drops ho) (noNewStop_tileIssue (dropHandle_slots ..) _ _ _ _ _ _ _ _)

end

theorem exec_noHandle (ho : ownedHandle s t (sReg (s.slot t) f.a.toNat) = none) :
    ∀ e ∈ [(0x02, Instr.mtAcc t f Claims.noOthers), (0x03, .mtAddraw t f Claims.noOthers), (0x04, .mtStore t f Claims.noOthers),
      (0x05, .mtDrop t f Claims.noOthers)],
      Claims.issuesAlone s t 2 (eWord e.1 f) → exec e.2 s = .next (Claims.stoppedIn s t evTileFault 1) := by
  intro e he hi
  obtain ⟨hacc, hadd, hstore, hdrop⟩ := noHandle_stops (sigs := sigs) ho
  simp only [List.mem_cons, List.not_mem_nil, or_false] at he
  rcases he with rfl | rfl | rfl | rfl
  · exact stops_in (exec_mtAcc_alone hs hi) hacc
  · exact stops_in (exec_mtAddraw_alone hs hi) hadd
  · exact stops_in (exec_mtStore_alone hs hi) hstore
  · exact stops_in (exec_mtDrop_alone hs hi) hdrop

theorem exec_mtAlign_aligns (hi : Claims.issuesAlone s t 2 (eWord 0x06 f)) (hf : (alignSpec s t f).Fine) :
    exec (.mtAlign t f Claims.noOthers) s = .next (Claims.advanced s t (tileAligned s t sigs (alignSpec s t f))) :=
  goes_on hi (exec_mtAlign_alone hs hi) (mAlign_aligns fun h => (alignSpec s t f).refused_iff.1 h hf) (noNewStop_tileAligned _ _ _ _)

theorem exec_vPass_issues (hi : Claims.issuesAlone s t 1 (eWord 0x50 f)) (hin : passAddr s t f + 256 ≤ benchSize)
    (hal : passAddr s t f % 64 = 0) (hp : benchPoisoned (engView s (slotCore t) .vector) (slotCore t) (passAddr s t f) 256 = false)
    (hb : slotPassBad s t (slotPassWords s t (passAddr s t f)) = false) (hr : passReach s t f = true) :
    exec (.vPass t f Claims.noOthers) s = .next (Claims.advanced s t (passIssue t (s.slot t) sigs (passRuns s t f) s)) :=
  goes_on hi (exec_vPass_alone hi) (vPassOp_issues hs hin hal hp hb hr) (noNewStop_passIssue _ _ _ _ _)

end

/-- Settles O20: each operation's own lemma says what it leaves, and the bundle carries that to the next bundle (`goes_on`) or to a
stop (`stops_in`). -/
theorem tileOperationsIssue : Obligations.TileOperationsIssue := by
  unfold Obligations.TileOperationsIssue
  intro s t f sigs hs x c v rd ra rb rc done k nt spoil fault
  refine ⟨?mbegin, fun hn h ho => ⟨?macc, ?maddraw, ?mstore, exec_mtDrop_drops hs ho⟩, exec_noHandle hs, ?malign, ?vpass⟩
  case mbegin =>
    intro hi ps bad
    refine ⟨fun hok => stops_in (exec_mtBegin_alone hs hi) (mBegin_refused hok), fun hok h hf => ?_⟩
    refine ⟨begunEntries s t f, exec_mtBegin_begins hs hi hok hf, length_preloadEntries .., fun h0 e he => ?_, fun _ => rfl⟩
    unfold begunEntries at he
    rw [h0] at he
    exact preloadEntries_zero he
  case macc =>
    intro hi o first n
    refine ⟨fun hb => stops_in (exec_mtAcc_alone hs hi) (mAcc_noBlock ho hb), fun hr cls hc => ?_⟩
    exact ⟨fun hf => stops_in (exec_mtAcc_alone hs hi) ((mAcc_block ho hr hc).1 hf), exec_mtAcc_accumulates hs ho hi hr hc⟩
  case maddraw =>
    intro hi bad
    refine ⟨fun hr => stops_in (exec_mtAddraw_alone hs hi) (mAddraw_outside ho hr), fun hr => ?_⟩
    exact ⟨addrawEntries s t f h, exec_mtAddraw_adds hs ho hi hr, length_addrawEntries .., fun i j hi hj => getD_addrawEntries s t f h hi hj _⟩
  case mstore =>
    intro hi
    exact ⟨exec_mtStore_refused hs ho hi, fun hf => exec_mtStore_stores hs ho hi hf.1 hf.2⟩
  case malign =>
    intro hi
    refine ⟨fun hf => stops_in (exec_mtAlign_alone hs hi) (mAlign_refused ?_), exec_mtAlign_aligns hs hi⟩
    exact (alignSpec s t f).refused_iff.2 hf
  case vpass =>
    intro hi
    have he := exec_vPass_alone hi
    exact ⟨fun h => stops_in he (vPassOp_outside hs h), fun hin h => stops_in he (vPassOp_unaligned hs hin h),
      fun hin hal h => stops_in he (vPassOp_poisoned hs hin hal h), fun hin hal hp h => stops_in he (vPassOp_refused hs hin hal hp h),
      fun hin hal hp hb => ⟨fun h => stops_in he (vPassOp_unreached hs hin hal hp hb h), exec_vPass_issues hs hi hin hal hp hb⟩⟩

end Sys2Proof.Machine

end

section

/-! SUPPORT. The operations of the S slot, each in a bundle of its own (R217, R252), the default clamp mode (R56), and obligations O8
and O15. -/

namespace Sys2Proof.Machine

open Sys2Proof

/-! ### The clamp mode of a format word -/

theorem fwClamp_of_default {w : Nat} (h : fld w 8 2 = 0) {f : Fmt} (hf : fwFmt w = some f) :
    fwClamp w = if f.isWide then .ieee else .finite := by
  unfold fwClamp
  simp only [h, hf]

/-- Settles O8: with CLAMP 0 the mode is the default of the format (`fwClamp_of_default`). -/
theorem defaultClampRule : Obligations.DefaultClampRule := by
  unfold Obligations.DefaultClampRule
  intro w f hw hf
  have hc := fwClamp_of_default (w := w) hw hf
  exact ⟨fun hn => hc.trans (if_neg (Bool.eq_false_iff.1 hn)), fun hn => hc.trans (if_pos hn)⟩

/-! ### Words of the scalar format (R219) -/

theorem wordOp_sWord {op : Nat} (h : op < 256) (f : SFields) : wordOp (sWord op f) = op := by
  have hl : (sWord op f).extractLsb' 0 8 = BitVec.ofNat 8 op := BitVec.extractLsb'_append_eq_right
  have ht := congrArg BitVec.toNat hl
  rw [BitVec.extractLsb'_toNat, Nat.shiftRight_zero, BitVec.toNat_ofNat, Nat.mod_eq_of_lt h] at ht
  exact ht

theorem sFieldsOf_sWord (op : Nat) (f : SFields) : sFieldsOf (sWord op f) = f := by
  unfold sFieldsOf sWord
  simp (disch := omega) only [BitVec.extractLsb'_append_eq_of_le, BitVec.extractLsb'_append_eq_of_add_le]
  simp

/-! ### A bundle with an S operation alone -/

/-- A word of operation m in the S slot and NOP in the others. -/
def sAlone (m : SlotOp) (f : SFields) : Ops := ⟨m, f, .nop, eFieldsOf 0, .nop, eFieldsOf 0, .nop, eFieldsOf 0⟩

theorem bundleOps_sAlone {op : Nat} (hop : op < 256) (f : SFields) {m : SlotOp} (hm : sOpOf op = some m) :
    bundleOps (bundleWith 0 (sWord op f) Claims.noOthers) = some (sAlone m f) := by
  have hw : sOpOf (wordOp (sWord op f)) = some m := by rw [wordOp_sWord hop, hm]
  have h := bundleOps_of (b := bundleWith 0 (sWord op f) Claims.noOthers) hw rfl rfl rfl
  have hf : sAlone m (sFieldsOf (sWord op f)) = sAlone m f := by rw [sFieldsOf_sWord]
  exact h.trans (congrArg some hf)

/-- An S operation that neither stops its slot nor ends its part moves the slot on. -/
theorem bundleEffect_sAlone {m : SlotOp} (hm : m ≠ .stop) {s : State} {t : Slot} {f : SFields}
    (hr : ((sEffect m t (s.slot t) f s).slot t).stopped = false) : bundleEffect t (sAlone m f) s =
      updSlot t (fun x => { x with pc := nextPc m (s.slot t) f, progress := s.now }) (sEffect m t (s.slot t) f s) := by
  have hs : ((updSlot t (fun x => { x with pc := nextPc m (s.slot t) f, progress := s.now })
      (sEffect m t (s.slot t) f s)).slot t).stopped = false := by
    unfold updSlot
    rw [State.setSlot_slot_same]
    exact hr
  exact (if_neg (Bool.eq_false_iff.1 hs)).trans (if_neg hm)

theorem issueS_alone {op : Nat} (hop : op < 256) {f : SFields} {m : SlotOp} (hm : sOpOf op = some m) {s : State} {t : Slot}
    (h : Claims.issuesAlone s t 0 (sWord op f)) : issueS op t f Claims.noOthers s = noteIssue t (bundleEffect t (sAlone m f) s) := by
  obtain ⟨o, ho⟩ := h
  obtain rfl : sAlone m f = o := Option.some.inj ((bundleOps_sAlone hop f hm).symm.trans ho.ops)
  exact issueBundle_issues ho

/-! ### FP and FMA -/

/-- The slot of t after a floating-point result, with its exceptions, has been written to scalar register d. -/
def fpWritten (s : State) (t : Slot) (d : BitVec 6) (r : W64 × Exc) : State :=
  let x := s.slot t
  Claims.issuedFor t (s.setSlot t (Claims.stepTo s (x.pc + 32)
    { addPending (setSReg x d.toNat r.1) [sName d.toNat] with fpsr := x.fpsr ||| r.2.setWidth 6 }))

theorem writeFp_eq (t : Slot) (d : Nat) (r : W64 × Exc) (s : State) : writeFp t d r s =
    s.setSlot t (addExc (addPending (setSReg (s.slot t) d r.1) [sName d]) r.2) := by
  unfold writeFp writeD updSlot
  rw [State.setSlot_slot_same, State.setSlot_setSlot]
  rfl

/-- An S operation that writes a floating-point result to D completes with it. -/
theorem issueS_writesFp {op : Nat} (hop : op < 256) {f : SFields} {m : SlotOp} (hm : sOpOf op = some m) (hn : m ≠ .stop)
    {s : State} {t : Slot} (h : Claims.issuesAlone s t 0 (sWord op f)) (hpc : nextPc m (s.slot t) f = (s.slot t).pc + 32)
    {r : W64 × Exc} (hw : sEffect m t (s.slot t) f s = writeFp t f.d.toNat r s) :
    issueS op t f Claims.noOthers s = fpWritten s t f.d r := by
  have hr : ((sEffect m t (s.slot t) f s).slot t).stopped = false := by
    rw [hw, writeFp_eq, State.setSlot_slot_same]
    exact running_of_issuesAlone h
  rw [issueS_alone hop hm h, bundleEffect_sAlone hn hr, hpc, hw, writeFp_eq]
  unfold updSlot
  rw [State.setSlot_slot_same, State.setSlot_setSlot]
  rfl

theorem exec_fpOp (t : Slot) (f : SFields) (o : Others) (s : State) : exec (.fpOp t f o) s = .next (issueS 0x18 t f o s) := rfl

theorem exec_fma (t : Slot) (f : SFields) (o : Others) (s : State) : exec (.fma t f o) s = .next (issueS 0x19 t f o s) := rfl

theorem exec_fpOp_writes {s : State} {t : Slot} {f : SFields} (h : Claims.issuesAlone s t 0 (sWord 0x18 f)) {fn : BitVec 6}
    (hfn : f.fn = fn) {r : W64 × Exc}
    (hr : fpOpVal fn.toNat (sFmt f) (sFmtTo f) (slotRnd (s.slot t)) (sReg (s.slot t) f.a.toNat) (sReg (s.slot t) f.b.toNat) = r) :
    exec (.fpOp t f Claims.noOthers) s = .next (fpWritten s t f.d r) := by
  subst hfn hr
  exact (exec_fpOp ..).trans (congrArg _ (issueS_writesFp (by decide) (m := .fp) rfl SlotOp.noConfusion h rfl rfl))

theorem exec_fma_writes {s : State} {t : Slot} {f : SFields} (h : Claims.issuesAlone s t 0 (sWord 0x19 f)) :
    exec (.fma t f Claims.noOthers) s = .next (fpWritten s t f.d (fpRes (sFmt f) (fFma (sFmt f) (slotRnd (s.slot t))
      (fpSrc (sFmt f) (sReg (s.slot t) f.a.toNat)) (fpSrc (sFmt f) (sReg (s.slot t) f.b.toNat))
      (fpSrc (sFmt f) (sReg (s.slot t) f.fn.toNat))))) :=
  (exec_fma ..).trans (congrArg _ (issueS_writesFp (by decide) (m := .fma) rfl SlotOp.noConfusion h rfl rfl))

/-! ### Comparisons -/

/-- Values are unordered where one is a NaN. -/
theorem isNone_fCmp (a b : FVal) : (fCmp a b).isNone = (a.isNan || b.isNan) := by
  cases a <;> cases b <;> rfl

theorem isSig_of_notNan {a : FVal} (h : a.isNan = false) : a.isSig = false := by
  cases a with
  | nan => cases h
  | fin => rfl
  | inf => rfl

theorem sigExc_of_ordered {a b : FVal} (h : (a.isNan || b.isNan) = false) : sigExc [a, b] = 0 := by
  obtain ⟨ha, hb⟩ := Bool.or_eq_false_iff.1 h
  unfold sigExc
  rw [List.any_cons, List.any_cons, isSig_of_notNan ha, isSig_of_notNan hb]
  rfl

/-- A quiet comparison raises invalid for a signalling NaN alone. -/
theorem fpCompare_quiet (test : Option Ordering → Bool) (a b : FVal) : fpCompare true test a b =
    (BitVec.ofNat 64 (bnat (test (fCmp a b))), sigExc [a, b]) := by
  unfold fpCompare
  dsimp only
  rw [Bool.not_true, Bool.and_false, if_neg Bool.false_ne_true]

/-- A signalling comparison raises invalid for every unordered pair, and nothing else. -/
theorem fpCompare_signalling (test : Option Ordering → Bool) (a b : FVal) : fpCompare false test a b =
    (BitVec.ofNat 64 (bnat (test (fCmp a b))), if a.isNan || b.isNan then excNV else 0) := by
  unfold fpCompare
  dsimp only
  rw [isNone_fCmp]
  cases h : a.isNan || b.isNan with
  | true => rfl
  | false => rw [sigExc_of_ordered h]; rfl

theorem isEq_iff (r : Option Ordering) : isEq r = true ↔ r = some .eq := by
  unfold isEq
  split <;> simp_all

theorem isLt_iff (r : Option Ordering) : isLt r = true ↔ r = some .lt := by
  unfold isLt
  split <;> simp_all

theorem isLe_iff (r : Option Ordering) : isLe r = true ↔ r = some .lt ∨ r = some .eq := by
  unfold isLe
  rw [Bool.or_eq_true, isLt_iff, isEq_iff]

/-- The word of a truth value, by what it says. -/
theorem truthWord {b : Bool} {p : Prop} (h : b = true ↔ p) :
    (p → BitVec.ofNat 64 (bnat b) = 1) ∧ (¬ p → BitVec.ofNat 64 (bnat b) = 0) := by
  rw [← h]
  cases b <;> simp [bnat]

section
variable {s : State} {t : Slot} {f : SFields} {o : Host.Outcome State Fault Refusal} {b : Bool} {e : Exc} {p : Prop}

/-- A comparison that writes the word of a truth value writes 1 where it holds and 0 elsewhere. -/
theorem writes_truth (h : o = .next (fpWritten s t f.d (BitVec.ofNat 64 (bnat b), e))) (hp : b = true ↔ p) :
    (p → o = .next (fpWritten s t f.d (1, e))) ∧ (¬ p → o = .next (fpWritten s t f.d (0, e))) := by
  obtain ⟨h1, h0⟩ := truthWord hp
  exact ⟨fun hv => by rw [h, h1 hv], fun hv => by rw [h, h0 hv]⟩

end

/-! ### Conversion to INT64 -/

theorem fpToInt64_snd (f : Fmt) (d : Rnd) (v : FVal) : (fpToInt64 f d v).2 = (fToInt .int64 d v).2 := by
  unfold fpToInt64
  split
  next k e he =>
    rw [he]
    split <;> rfl

theorem fpToInt64_valid {f : Fmt} {d : Rnd} {v : FVal} (h : (fToInt .int64 d v).2 ≠ excNV) :
    (fpToInt64 f d v).1 = BitVec.ofInt 64 (fToInt .int64 d v).1 := by
  unfold fpToInt64
  split
  next k e he =>
    rw [he] at h ⊢
    rw [if_neg h]

/-- Settles O15: FP and FMA write the value of `fpOpVal` or of the fused operation (`exec_fpOp_writes`, `exec_fma_writes`). -/
theorem scalarFloatResults : Obligations.ScalarFloatResults := by
  unfold Obligations.ScalarFloatResults
  intro s t f fm hfm x val a b dir wrote result truth unordered
  obtain rfl : sFmt f = fm := by rw [sFmt, hfm]; rfl
  have hwrote : ∀ v e, wrote v e = .next (fpWritten s t f.d (v, e)) := fun _ _ => rfl
  have hresult : ∀ g r, result g r = .next (fpWritten s t f.d (fpRes g r)) := fun _ _ => rfl
  simp only [hwrote, hresult]
  refine ⟨fun h => ⟨?add, ?sub, ?mul, ?div, ?sqrt, ?min, ?max, ?minNum, ?maxNum, ?eq, ?lt, ?le, ?cls, ?rint, ?cvt, ?toInt, ?ofInt⟩,
    exec_fma_writes⟩
  case add => exact fun hf => exec_fpOp_writes h hf rfl
  case sub => exact fun hf => exec_fpOp_writes h hf rfl
  case mul => exact fun hf => exec_fpOp_writes h hf rfl
  case div => exact fun hf => exec_fpOp_writes h hf rfl
  case sqrt => exact fun hf => exec_fpOp_writes h hf rfl
  case min => exact fun hf => exec_fpOp_writes h hf rfl
  case max => exact fun hf => exec_fpOp_writes h hf rfl
  case minNum => exact fun hf => exec_fpOp_writes h hf rfl
  case maxNum => exact fun hf => exec_fpOp_writes h hf rfl
  case eq => exact fun hf => writes_truth (exec_fpOp_writes h hf (fpCompare_quiet isEq a b)) (isEq_iff _)
  case lt => exact fun hf => writes_truth (exec_fpOp_writes h hf (fpCompare_signalling isLt a b)) (isLt_iff _)
  case le => exact fun hf => writes_truth (exec_fpOp_writes h hf (fpCompare_signalling isLe a b)) (isLe_iff _)
  case cls => exact fun hf => ⟨_, exec_fpOp_writes h hf rfl⟩
  case rint => exact fun hf => exec_fpOp_writes h hf rfl
  case cvt =>
    intro hf g hg
    obtain rfl : sFmtTo f = g := by rw [sFmtTo, hg]; rfl
    exact exec_fpOp_writes h hf rfl
  case toInt =>
    intro hf
    have hr : fpToInt64 (sFmt f) dir a = ((fpToInt64 (sFmt f) dir a).1, (fToInt .int64 dir a).2) := by
      rw [← fpToInt64_snd (sFmt f)]
    exact ⟨_, exec_fpOp_writes h hf hr, fpToInt64_valid⟩
  case ofInt => exact fun hf => exec_fpOp_writes h hf rfl

end Sys2Proof.Machine

end

section

/-! SUPPORT. The V slot's operations, each in a bundle of its own (R217, R227 to R240), and the elements of register groups: what a
write of one element, or of a group under its mask, leaves (R228, R229). -/

namespace Sys2Proof.Machine

open Sys2Proof

/-! ### A bundle with a V operation alone -/

section
variable {op : Nat} (hop : op < 256) {f : EFields} {m : SlotOp} (hm : vOpOf op = some m) {s : State} {t : Slot}
  (h : Claims.issuesAlone s t 1 (eWord op f))
include hop hm h

theorem issueV_alone (hn : m ≠ .nop) (hp : m ≠ .vPass) :
    issueV op t f Claims.noOthers s = landed s t (vEffect m t (s.slot t) f s) := by
  obtain ⟨o, ho⟩ := h
  obtain rfl : vAlone m f = o := Option.some.inj ((bundleOps_vAlone hop f hm).symm.trans ho.ops)
  unfold issueV
  rw [issueBundle_issues ho, noteIssue_bundleEffect rfl]
  congr 1
  unfold engineOps vAlone
  dsimp only
  rw [if_neg hn, if_neg hp, if_pos rfl, if_pos rfl]

/-- The V operation of a bundle that issues is legal. -/
theorem vLegal_of_issuesAlone : vLegal m f (s.slot t) = true := by
  obtain ⟨o, ho⟩ := h
  obtain rfl : vAlone m f = o := Option.some.inj ((bundleOps_vAlone hop f hm).symm.trans ho.ops)
  have hl := ho.legal
  unfold bundleLegal at hl
  simp only [Bool.and_eq_true] at hl
  exact hl.1.1.1.1.1.1.2

/-- The V operation of a bundle that issues permits the slot's element type (R233 to R238). -/
theorem vtPermits_of_issuesAlone : vtPermits m (slotType (s.slot t)) = true := by
  have hl := vLegal_of_issuesAlone hop hm h
  unfold vLegal at hl
  simp only [Bool.and_eq_true] at hl
  exact hl.1.1.1.2

end

/-- A V operation other than V.PASS, with its signals. -/
def vRun (op : SlotOp) (t : Slot) (f : EFields) (sigs : List Signal) (s : State) : State :=
  let old := s.slot t
  let view := engView s (slotCore t) .vector
  match op with
  | .vCfg => vIssue t sigs [] (vRegOp op f old old) s
  | .vLd | .vLds | .vLdx | .vLdff | .vMld =>
    match vLoad view t op f old old with
    | .error code => stopAt t code 2 s
    | .ok y => vIssue t sigs (vUse op f old).writes y s
  | .vSt | .vSts | .vStx | .vMst =>
    match vStore view t op f old with
    | .error code => stopAt t code 2 s
    | .ok ws => enqueue s (slotCore t) .vector { mkCmd s t .vector .immediate sigs with writes := ws }
  | _ => vIssue t sigs (vUse op f old).writes (vRegOp op f old old) s

theorem vEffect_of_sigs {s : State} {t : Slot} {f : EFields} {sigs : List Signal} (hs : sigOf (s.slot t) t f = some sigs) (op : SlotOp) :
    vEffect op t (s.slot t) f s = vRun op t f sigs s := by
  unfold vEffect
  rw [hs]
  rfl

/-- Command i is the V operation op, of opcode n, in a bundle of its own. -/
structure VCommand (t : Slot) (f : EFields) (op : SlotOp) (n : Nat) (i : Instr) : Prop where
  runs : ∀ s, exec i s = .next (issueV n t f Claims.noOthers s)
  code : vOpOf n = some op
  small : n < 256
  notNop : op ≠ .nop
  notPass : op ≠ .vPass

/-- The operations on registers that leave the slot's configuration as it is. -/
def onRegisters : List SlotOp :=
  [.vAdd, .vSub, .vMul, .vFma, .vDiv, .vSqrt, .vMin, .vMax, .vFunc, .vAnd, .vOr, .vXor, .vShl, .vShr, .vSar, .vLdexp, .vCvt, .vWmul,
   .vDot, .vPerm, .vRed]

theorem vRun_onRegisters {op : SlotOp} (h : op ∈ onRegisters) (t : Slot) (f : EFields) (sigs : List Signal) (s : State) :
    vRun op t f sigs s = vIssue t sigs (vUse op f (s.slot t)).writes (vRegOp op f (s.slot t) (s.slot t)) s := by
  simp only [onRegisters, List.mem_cons, List.not_mem_nil, or_false] at h
  rcases h with rfl | rfl | rfl | rfl | rfl | rfl | rfl | rfl | rfl | rfl | rfl | rfl | rfl | rfl | rfl | rfl | rfl | rfl | rfl | rfl |
    rfl <;> rfl

namespace VCommand

variable {t : Slot} {f : EFields} {op : SlotOp} {n : Nat} {i : Instr} (hc : VCommand t f op n i) {s : State} {sigs : List Signal}
  (hs : sigOf (s.slot t) t f = some sigs) (hi : Claims.issuesAlone s t 1 (eWord n f))
include hc hs hi

theorem lands : exec i s = .next (landed s t (vRun op t f sigs s)) := by
  rw [hc.runs, issueV_alone hc.small hc.code hi hc.notNop hc.notPass, vEffect_of_sigs hs]

/-- The operation enters the chain's queue with y for the slot's registers. -/
theorem completes {y : SlotState} (hr : vRun op t f sigs s = vIssue t sigs (vUse op f (s.slot t)).writes y s)
    (hy : y.stopped = (s.slot t).stopped) : exec i s = .next (Claims.vDone s t sigs op f y) :=
  goes_on hi (hc.lands hs hi) hr (noNewStop_vIssue _ _ _ _ _ fun h => hy ▸ h)

theorem completes_onRegisters (ho : op ∈ onRegisters) {y : SlotState} (hr : vRegOp op f (s.slot t) (s.slot t) = y)
    (hy : y.stopped = (s.slot t).stopped) : exec i s = .next (Claims.vDone s t sigs op f y) :=
  hc.completes hs hi (hr ▸ vRun_onRegisters ho t f sigs s) hy

end VCommand

/-! ### Fields of numbers and elements of registers -/

theorem testBit_fld (x lo n j : Nat) : (fld x lo n).testBit j = (decide (j < n) && x.testBit (lo + j)) := by
  rw [fld, Nat.testBit_mod_two_pow, Nat.testBit_div_two_pow, Nat.add_comm]

theorem putField_eq (x o w v : Nat) : putField x o w v = 2 ^ (o + w) * (x / 2 ^ (o + w)) + (2 ^ o * (v % 2 ^ w) + x % 2 ^ o) := by
  have hx : x = 2 ^ (o + w) * (x / 2 ^ (o + w)) + (2 ^ o * fld x o w + x % 2 ^ o) := by
    rw [fld, Nat.pow_add, ← Nat.div_div_eq_div_mul, Nat.mul_assoc, ← Nat.add_assoc, ← Nat.mul_add, Nat.div_add_mod, Nat.div_add_mod]
  unfold putField
  rw [Nat.mul_comm (fld x o w), Nat.mul_comm (v % 2 ^ w)]
  omega

/-- A field's bits are replaced and the others kept. -/
theorem testBit_putField (x o w v j : Nat) :
    (putField x o w v).testBit j = if o ≤ j ∧ j < o + w then v.testBit (j - o) else x.testBit j := by
  have hlow : 2 ^ o * (v % 2 ^ w) + x % 2 ^ o < 2 ^ (o + w) := by
    calc 2 ^ o * (v % 2 ^ w) + x % 2 ^ o < 2 ^ o * (v % 2 ^ w) + 2 ^ o := Nat.add_lt_add_left (Nat.mod_lt _ (Nat.two_pow_pos o)) _
      _ = 2 ^ o * (v % 2 ^ w + 1) := by rw [Nat.mul_add, Nat.mul_one]
      _ ≤ 2 ^ o * 2 ^ w := Nat.mul_le_mul_left _ (Nat.mod_lt _ (Nat.two_pow_pos w))
      _ = 2 ^ (o + w) := (Nat.pow_add ..).symm
  rw [putField_eq, Nat.testBit_two_pow_mul_add _ hlow]
  by_cases hj : j < o + w
  · rw [if_pos hj, Nat.testBit_two_pow_mul_add _ (Nat.mod_lt _ (Nat.two_pow_pos o))]
    by_cases ho : j < o
    · rw [if_pos ho, if_neg (by omega), Nat.testBit_mod_two_pow, decide_eq_true ho, Bool.true_and]
    · rw [if_neg ho, if_pos (by omega), Nat.testBit_mod_two_pow, decide_eq_true (by omega), Bool.true_and]
  · rw [if_neg hj, if_neg (by omega), Nat.testBit_div_two_pow, Nat.sub_add_cancel (by omega)]

theorem fld_putField_same (x o w v : Nat) : fld (putField x o w v) o w = v % 2 ^ w := by
  refine Nat.eq_of_testBit_eq fun j => ?_
  rw [testBit_fld, testBit_putField, Nat.testBit_mod_two_pow]
  by_cases hj : j < w
  · rw [if_pos (by omega), Nat.add_sub_cancel_left]
  · rw [decide_eq_false hj, Bool.false_and, Bool.false_and]

theorem fld_putField_apart {o w p u : Nat} (h : o + w ≤ p ∨ p + u ≤ o) (x v : Nat) : fld (putField x o w v) p u = fld x p u := by
  refine Nat.eq_of_testBit_eq fun j => ?_
  rw [testBit_fld, testBit_fld, testBit_putField]
  by_cases hj : j < u
  · rw [if_neg (by omega)]
  · rw [decide_eq_false hj, Bool.false_and, Bool.false_and]

theorem putField_lt {o w n : Nat} (h : o + w ≤ n) {x : Nat} (hx : x < 2 ^ n) (v : Nat) : putField x o w v < 2 ^ n := by
  refine Nat.lt_pow_two_of_testBit _ fun j hj => ?_
  rw [testBit_putField, if_neg (by omega)]
  exact Nat.testBit_lt_two_pow (lt_of_lt_of_le hx (Nat.pow_le_pow_right (by decide) hj))

@[simp] theorem vReg_setVReg_same (x : SlotState) (i : Nat) (v : VReg) : vReg (setVReg x i v) i = v := tabGet_tabSet_same ..

theorem vReg_setVReg_ne (x : SlotState) {i j : Nat} (h : j ≠ i) (v : VReg) : vReg (setVReg x i v) j = vReg x j :=
  tabGet_tabSet_ne _ _ _ h

theorem vReg_setVElem_ne (x : SlotState) {n w i j : Nat} (h : j ≠ n + i * w / 2048) (v : Nat) : vReg (setVElem x n w i v) j = vReg x j :=
  vReg_setVReg_ne x h _

/-- An element whose width divides that of a unit of n bits lies in one unit. -/
theorem elem_in_unit {n w : Nat} (hn : 0 < n) (hw : w ∣ n) (i : Nat) : i * w % n + w ≤ n := by
  obtain ⟨c, hc⟩ := hw
  have hpos : 0 < c := Nat.pos_of_ne_zero fun h => by rw [hc, h, Nat.mul_zero] at hn; exact lt_irrefl _ hn
  have hm : i * w % n = i % c * w := by rw [hc, Nat.mul_comm w c, Nat.mul_mod_mul_right]
  have hlt : (i % c + 1) * w ≤ c * w := Nat.mul_le_mul_right _ (Nat.mod_lt _ hpos)
  rw [hm, hc, Nat.mul_comm w c, ← Nat.succ_mul]
  exact hlt

theorem toNat_ofNat_putField {n o w : Nat} (h : o + w ≤ n) (x : BitVec n) (v : Nat) :
    (BitVec.ofNat n (putField x.toNat o w v)).toNat = putField x.toNat o w v := by
  rw [BitVec.toNat_ofNat, Nat.mod_eq_of_lt (putField_lt h x.isLt v)]

theorem toNat_vReg_setVElem {w : Nat} (hw : w ∣ 2048) (x : SlotState) (n i v : Nat) :
    (vReg (setVElem x n w i v) (n + i * w / 2048)).toNat =
      putField (vReg x (n + i * w / 2048)).toNat (i * w % 2048) w v := by
  unfold setVElem
  dsimp only
  rw [vReg_setVReg_same]
  exact toNat_ofNat_putField (elem_in_unit (by decide) hw i) _ v

theorem vElem_setVElem_same {w : Nat} (hw : w ∣ 2048) (x : SlotState) (n i v : Nat) :
    vElem (setVElem x n w i v) n w i = v % 2 ^ w := by
  unfold vElem
  rw [toNat_vReg_setVElem hw, fld_putField_same]

theorem vElem_setVElem_ne {w : Nat} (hw : w ∣ 2048) (x : SlotState) (n v : Nat) {i j : Nat} (h : j ≠ i) :
    vElem (setVElem x n w i v) n w j = vElem x n w j := by
  unfold vElem
  by_cases hr : j * w / 2048 = i * w / 2048
  · have hapart : i * w + w ≤ j * w ∨ j * w + w ≤ i * w := by
      rcases Nat.lt_or_gt_of_ne h with hl | hl
      · exact .inr (by rw [← Nat.succ_mul]; exact Nat.mul_le_mul_right _ hl)
      · exact .inl (by rw [← Nat.succ_mul]; exact Nat.mul_le_mul_right _ hl)
    rw [hr, toNat_vReg_setVElem hw, fld_putField_apart (by omega)]
  · rw [vReg_setVElem_ne _ (by omega)]

/-- Elements depend on their registers alone. -/
theorem vElem_congr {x y : SlotState} {n w i : Nat} (h : vReg x (n + i * w / 2048) = vReg y (n + i * w / 2048)) :
    vElem x n w i = vElem y n w i := by
  unfold vElem
  rw [h]

theorem vElem_lt (x : SlotState) (n w i : Nat) : vElem x n w i < 2 ^ w := Nat.mod_lt _ (Nat.two_pow_pos w)

/-! ### Writes of a group under its mask -/

section
variable {w : Nat} (hw : w ∣ 2048) (n : Nat)
include hw

theorem vElem_setVElems_below (l : List (Option Nat)) : ∀ (x : SlotState) (i j : Nat), j < i →
    vElem (setVElems n w x i l) n w j = vElem x n w j := by
  induction l with
  | nil => exact fun _ _ _ _ => rfl
  | cons v l ih =>
    intro x i j h
    cases v with
    | none => exact ih x (i + 1) j (by omega)
    | some v => exact (ih _ (i + 1) j (by omega)).trans (vElem_setVElem_ne hw x n v (by omega))

/-- Element i + j of a group after a write of elements from i on. -/
theorem vElem_setVElems (l : List (Option Nat)) : ∀ (x : SlotState) (i j : Nat),
    vElem (setVElems n w x i l) n w (i + j) = (l[j]?.join.map (· % 2 ^ w)).getD (vElem x n w (i + j)) := by
  induction l with
  | nil => exact fun _ _ _ => rfl
  | cons v l ih =>
    intro x i j
    cases j with
    | zero =>
      cases v with
      | none => exact vElem_setVElems_below hw n l x (i + 1) i (by omega)
      | some v => exact (vElem_setVElems_below hw n l _ (i + 1) i (by omega)).trans (vElem_setVElem_same hw x n i v)
    | succ j =>
      rw [show i + (j + 1) = i + 1 + j by omega, List.getElem?_cons_succ]
      cases v with
      | none => exact ih x (i + 1) j
      | some v =>
        refine (ih _ (i + 1) j).trans ?_
        rw [vElem_setVElem_ne hw x n v (by omega)]

end

theorem vReg_setVElems {n w : Nat} (l : List (Option Nat)) {r : Nat} : ∀ (x : SlotState) (i : Nat),
    (∀ j, j < l.length → r ≠ n + (i + j) * w / 2048) → vReg (setVElems n w x i l) r = vReg x r := by
  induction l with
  | nil => exact fun _ _ _ => rfl
  | cons v l ih =>
    intro x i h
    have hr : r ≠ n + i * w / 2048 := h 0 (Nat.succ_pos _)
    have ht : ∀ j, j < l.length → r ≠ n + (i + 1 + j) * w / 2048 := fun j hj => by
      rw [show i + 1 + j = i + (j + 1) by omega]
      exact h (j + 1) (Nat.succ_lt_succ hj)
    cases v with
    | none => exact ih x (i + 1) ht
    | some v => exact (ih _ (i + 1) ht).trans (vReg_setVElem_ne x hr v)

theorem setVElems_changes_vregs (n w : Nat) (l : List (Option Nat)) : ∀ (x : SlotState) (i : Nat),
    setVElems n w x i l = { x with vregs := (setVElems n w x i l).vregs } := by
  induction l with
  | nil => exact fun _ _ => rfl
  | cons v l ih =>
    intro x i
    cases v with
    | none => exact ih x (i + 1)
    | some v =>
      conv_lhs => rw [setVElems, ih]
      rfl

theorem length_underMask (x : SlotState) (f : EFields) (vs : List Nat) : ∀ i, (underMask x f i vs).length = vs.length := by
  induction vs with
  | nil => exact fun _ => rfl
  | cons v vs ih => exact fun i => congrArg (· + 1) (ih (i + 1))

theorem getElem?_underMask (x : SlotState) (f : EFields) (vs : List Nat) : ∀ i j, (underMask x f i vs)[j]? =
    vs[j]?.map fun v => if active x f (i + j) then some v else if f.mz then some 0 else none := by
  induction vs with
  | nil => exact fun _ _ => rfl
  | cons v vs ih =>
    intro i j
    cases j with
    | zero => rfl
    | succ j =>
      rw [underMask, List.getElem?_cons_succ, List.getElem?_cons_succ, ih, show i + 1 + j = i + (j + 1) by omega]

section
variable (x old : SlotState) (f : EFields) (n w : Nat)

theorem writeGroup_changes_vregs (vs : List Nat) :
    writeGroup x old f n w vs = { x with vregs := (writeGroup x old f n w vs).vregs } := setVElems_changes_vregs ..

/-- A write of k elements leaves the registers beyond them alone. -/
theorem vReg_writeGroup_outside (hw : 0 < w) {k : Nat} (v : Nat → Nat) {i : Nat} (h : i < n ∨ n + (k * w + 2047) / 2048 ≤ i) :
    vReg (writeGroup x old f n w ((rangeFrom 0 k).map v)) i = vReg x i := by
  refine vReg_setVElems _ _ _ fun j hj => ?_
  rw [length_underMask, List.length_map, length_rangeFrom] at hj
  have hjk : (j + 1) * w ≤ k * w := Nat.mul_le_mul_right _ hj
  rw [Nat.succ_mul] at hjk
  rw [Nat.zero_add]
  omega

variable {w}

theorem vElem_writeGroup (hw : w ∣ 2048) (k : Nat) (v : Nat → Nat) (i : Nat) :
    vElem (writeGroup x old f n w ((rangeFrom 0 k).map v)) n w i =
      if i < k then if active old f i then v i % 2 ^ w else if f.mz then 0 else vElem x n w i else vElem x n w i := by
  have h := vElem_setVElems hw n (underMask old f 0 ((rangeFrom 0 k).map v)) x 0 i
  rw [Nat.zero_add, getElem?_underMask, Nat.zero_add] at h
  refine h.trans ?_
  by_cases hi : i < k
  · have hg : ((rangeFrom 0 k).map v)[i]? = some (v i) := by
      rw [List.getElem?_eq_getElem (by rw [List.length_map, length_rangeFrom]; exact hi), List.getElem_map, getElem_rangeFrom, Nat.zero_add]
    rw [hg, if_pos hi, Option.map_some]
    by_cases ha : active old f i = true
    · rw [if_pos ha, if_pos ha]
      rfl
    · rw [if_neg ha, if_neg ha]
      by_cases hz : f.mz = true
      · rw [if_pos hz, if_pos hz]
        exact Nat.zero_mod _
      · rw [if_neg hz, if_neg hz]
        rfl
  · have hg : ((rangeFrom 0 k).map v)[i]? = none := by
      rw [List.getElem?_eq_none]
      rw [List.length_map, length_rangeFrom]
      exact Nat.le_of_not_lt hi
    rw [hg, if_neg hi]
    rfl

end

/-! ### What the statements say of a group -/

/-- The first k elements lie in the registers that the group has for them. -/
theorem elem_in_group {w i k : Nat} (hw : 0 < w) (hi : i < k) : i * w / 2048 < (k * w + 2047) / 2048 := by
  have hik : (i + 1) * w ≤ k * w := Nat.mul_le_mul_right _ hi
  rw [Nat.succ_mul] at hik
  omega

theorem groupHolds_writeGroup {x old : SlotState} {f : EFields} {n w k : Nat} (hw : w ∣ 2048) {v r : Nat → Nat}
    (hx : ∀ j, n ≤ j → j < n + (k * w + 2047) / 2048 → vReg x j = vReg old j)
    (hv : ∀ i, i < k → active old f i = true → v i % 2 ^ w = r i % 2 ^ w) :
    Claims.GroupHolds old (writeGroup x old f n w ((rangeFrom 0 k).map v)) f n w k r := by
  have hpos : 0 < w := Nat.pos_of_dvd_of_pos hw (by decide)
  have hold : ∀ i, i * w / 2048 < (k * w + 2047) / 2048 → vElem x n w i = vElem old n w i := fun i hi =>
    vElem_congr (hx _ (Nat.le_add_right ..) (Nat.add_lt_add_left hi n))
  refine ⟨fun i hi ha => ?_, fun i hi ha => ?_, fun i hi ht => ?_⟩
  · rw [vElem_writeGroup _ _ _ _ hw, if_pos hi, if_pos ha, hv i hi ha]
  · rw [vElem_writeGroup _ _ _ _ hw, if_pos hi, if_neg (Bool.eq_false_iff.1 ha), hold i (elem_in_group hpos hi)]
  · rw [vElem_writeGroup _ _ _ _ hw, if_neg (Nat.not_lt.2 hi), hold i ht]

/-- What a group holds is kept by what writes none of its registers. -/
theorem groupHolds_of_vReg {old y z : SlotState} {f : EFields} {n w k : Nat} {r : Nat → Nat} (hw : 0 < w)
    (h : Claims.GroupHolds old y f n w k r) (hz : ∀ j, n ≤ j → j < n + (k * w + 2047) / 2048 → vReg z j = vReg y j) :
    Claims.GroupHolds old z f n w k r := by
  have hkept : ∀ i, i * w / 2048 < (k * w + 2047) / 2048 → vElem z n w i = vElem y n w i := fun i hi =>
    vElem_congr (hz _ (Nat.le_add_right ..) (Nat.add_lt_add_left hi n))
  exact ⟨fun i hi ha => (hkept i (elem_in_group hw hi)).trans (h.onActive i hi ha),
    fun i hi ha => (hkept i (elem_in_group hw hi)).trans (h.onInactive i hi ha), fun i hi ht => (hkept i ht).trans (h.onTail i hi ht)⟩

theorem othersKept_writeGroup (old : SlotState) (f : EFields) (n : Nat) {w : Nat} (hw : 0 < w) (k : Nat) (v : Nat → Nat) :
    Claims.OthersKept old (writeGroup old old f n w ((rangeFrom 0 k).map v)) n w k :=
  fun _ h => vReg_writeGroup_outside old old f n w hw v h

end Sys2Proof.Machine

end

section

/-! SUPPORT. The results of a group with their exceptions (R64, R229), the element operations and their tangents (R233, R234, R240),
and obligation O17. -/

namespace Sys2Proof.Machine

open Sys2Proof

/-! ### Exceptions of a group -/

theorem rangeFrom_zero (n : Nat) : rangeFrom 0 n = List.range n := by rw [rangeFrom_eq_range', List.range_eq_range']

theorem joinExc_from (l : List Exc) : ∀ e, l.foldl (· ||| ·) e = e ||| joinExc l := by
  unfold joinExc
  induction l with
  | nil => exact fun e => (BitVec.or_zero).symm
  | cons a l ih =>
    intro e
    have h0 : (0 : Exc) ||| a = a := BitVec.zero_or
    rw [List.foldl_cons, List.foldl_cons, h0, ih, ih a, BitVec.or_assoc]

theorem joinExc_cons (e : Exc) (l : List Exc) : joinExc (e :: l) = e ||| joinExc l := by
  have h0 : (0 : Exc) ||| e = e := BitVec.zero_or
  exact (joinExc_from l (0 ||| e)).trans (by rw [h0])

/-- What an operation raises for a group is joined over its active elements. -/
theorem joinExc_eq_raisedBy (old : SlotState) (f : EFields) (k : Nat) (e : Nat → Exc) :
    joinExc ((rangeFrom 0 k).map fun i => if active old f i then e i else 0) = Claims.raisedBy old f k e := by
  unfold joinExc Claims.raisedBy
  rw [rangeFrom_zero, List.foldl_map]
  congr 1
  funext x i
  by_cases h : active old f i = true
  · rw [if_pos h, if_pos h]
  · rw [if_neg h, if_neg h]
    exact BitVec.or_zero

theorem raisedBy_congr {old : SlotState} {f : EFields} {k : Nat} {e e' : Nat → Exc}
    (h : ∀ i, i < k → active old f i = true → e i = e' i) : Claims.raisedBy old f k e = Claims.raisedBy old f k e' := by
  rw [← joinExc_eq_raisedBy, ← joinExc_eq_raisedBy]
  congr 1
  refine List.map_congr_left fun i hi => ?_
  by_cases ha : active old f i = true
  · rw [if_pos ha, if_pos ha, h i (mem_rangeFrom_zero.1 hi) ha]
  · rw [if_neg ha, if_neg ha]

theorem nth_map_rangeFrom (v : Nat → Nat) {k i : Nat} (h : i < k) : nth ((rangeFrom 0 k).map v) i = v i := by
  have hl : i < ((rangeFrom 0 k).map v).length := by rwa [List.length_map, length_rangeFrom]
  rw [nth, List.getD_eq_getElem _ _ hl, List.getElem_map, getElem_rangeFrom, Nat.zero_add]

theorem elemResults_eq (act : Nat → Bool) (g : Nat → Nat × Exc) : ∀ k i, elemResults act g i k =
    ((rangeFrom i k).map fun j => if act j then (g j).1 else 0, joinExc ((rangeFrom i k).map fun j => if act j then (g j).2 else 0)) := by
  intro k
  induction k with
  | zero => exact fun _ => rfl
  | succ k ih =>
    intro i
    rw [elemResults, ih, rangeFrom, List.map_cons, List.map_cons, joinExc_cons]
    by_cases h : act i = true
    · rw [if_pos h, if_pos h, if_pos h]
    · rw [if_neg h, if_neg h, if_neg h]

/-! ### Operations that write vector registers and FPSR alone -/

/-- y differs from x in vector registers and FPSR at most. -/
def ChangesVectors (x y : SlotState) : Prop := ∃ v e, y = { x with vregs := v, fpsr := e }

theorem ChangesVectors.trans {x y z : SlotState} : ChangesVectors x y → ChangesVectors y z → ChangesVectors x z := by
  rintro ⟨v, e, rfl⟩ ⟨v', e', rfl⟩
  exact ⟨v', e', rfl⟩

theorem ChangesVectors.eq {x y : SlotState} : ChangesVectors x y → y = { x with vregs := y.vregs, fpsr := y.fpsr } := by
  rintro ⟨v, e, rfl⟩
  rfl

theorem ChangesVectors.stopped {x y : SlotState} : ChangesVectors x y → y.stopped = x.stopped := by
  rintro ⟨v, e, rfl⟩
  rfl

/-! ### A group's results with their exceptions -/

/-- The results of the active elements of a group below k are written and their exceptions raised. -/
def putGroup (x old : SlotState) (f : EFields) (n w k : Nat) (g : Nat → Nat × Exc) : SlotState :=
  addExc (writeGroup x old f n w (elemResults (active old f) g 0 k).1) (elemResults (active old f) g 0 k).2

section
variable (x old : SlotState) (f : EFields) (n w k : Nat) (g : Nat → Nat × Exc)

theorem putGroup_eq : putGroup x old f n w k g =
    addExc (writeGroup x old f n w ((rangeFrom 0 k).map fun i => if active old f i then (g i).1 else 0))
      (Claims.raisedBy old f k fun i => (g i).2) := by
  unfold putGroup
  rw [elemResults_eq, ← joinExc_eq_raisedBy]

theorem putGroup_fpsr : (putGroup x old f n w k g).fpsr = x.fpsr ||| (Claims.raisedBy old f k fun i => (g i).2).setWidth 6 := by
  rw [putGroup_eq, writeGroup_changes_vregs]
  rfl

theorem changesVectors_putGroup : ChangesVectors x (putGroup x old f n w k g) := by
  rw [putGroup_eq, writeGroup_changes_vregs]
  exact ⟨_, _, rfl⟩

variable {w k}

theorem vReg_putGroup_outside (hw : 0 < w) {i : Nat} (h : i < n ∨ n + (k * w + 2047) / 2048 ≤ i) :
    vReg (putGroup x old f n w k g) i = vReg x i := by
  rw [putGroup_eq]
  exact vReg_writeGroup_outside x old f n w hw _ h

variable {x old f n g}

theorem groupHolds_putGroup (hw : w ∣ 2048) {r : Nat → Nat}
    (hx : ∀ j, n ≤ j → j < n + (k * w + 2047) / 2048 → vReg x j = vReg old j)
    (hr : ∀ i, i < k → active old f i = true → (g i).1 % 2 ^ w = r i % 2 ^ w) :
    Claims.GroupHolds old (putGroup x old f n w k g) f n w k r := by
  have hv : ∀ i, i < k → active old f i = true → (if active old f i then (g i).1 else 0) % 2 ^ w = r i % 2 ^ w :=
    fun i hi ha => by rw [if_pos ha, hr i hi ha]
  have hg := groupHolds_writeGroup hw hx hv
  rw [putGroup_eq]
  exact groupHolds_of_vReg (Nat.pos_of_dvd_of_pos hw (by decide)) hg fun _ _ _ => rfl

end

/-- Values at n, then tangents at m. -/
def putPair (old : SlotState) (f : EFields) (n m w k : Nat) (g h : Nat → Nat × Exc) : SlotState :=
  putGroup (putGroup old old f n w k g) old f m w k h

section
variable (old : SlotState) (f : EFields) (n m w k : Nat) (g h : Nat → Nat × Exc)

theorem putPair_fpsr : (putPair old f n m w k g h).fpsr =
    old.fpsr ||| ((Claims.raisedBy old f k fun i => (g i).2) ||| Claims.raisedBy old f k fun i => (h i).2).setWidth 6 := by
  unfold putPair
  rw [putGroup_fpsr, putGroup_fpsr, BitVec.setWidth_or, BitVec.or_assoc]

theorem changesVectors_putPair : ChangesVectors old (putPair old f n m w k g h) :=
  (changesVectors_putGroup old old f n w k g).trans (changesVectors_putGroup _ old f m w k h)

variable {w k}

theorem pairKept_putPair (hw : 0 < w) : Claims.PairKept old (putPair old f n m w k g h) n m w k := fun _ hn hm =>
  (vReg_putGroup_outside _ old f m h hw hm).trans (vReg_putGroup_outside old old f n g hw hn)

variable {old f n m g h} (hw : w ∣ 2048) (hm : n + (k * w + 2047) / 2048 ≤ m) {r : Nat → Nat}
include hw hm

/-- The values stand beside the tangents. -/
theorem groupHolds_putPair_values (hr : ∀ i, i < k → active old f i = true → (g i).1 % 2 ^ w = r i % 2 ^ w) :
    Claims.GroupHolds old (putPair old f n m w k g h) f n w k r := by
  have hpos := Nat.pos_of_dvd_of_pos hw (by decide)
  exact groupHolds_of_vReg hpos (groupHolds_putGroup hw (fun _ _ _ => rfl) hr) fun j _ hj =>
    vReg_putGroup_outside _ old f m h hpos (.inl (by omega))

theorem groupHolds_putPair_tangents (hr : ∀ i, i < k → active old f i = true → (h i).1 % 2 ^ w = r i % 2 ^ w) :
    Claims.GroupHolds old (putPair old f n m w k g h) f m w k r := by
  have hpos := Nat.pos_of_dvd_of_pos hw (by decide)
  exact groupHolds_putGroup hw (fun j hj _ => vReg_putGroup_outside old old f n g hpos (.inr (by omega))) hr

end

/-- FPSR takes exceptions, and no saturation. -/
theorem stickyFpsr_exc (old : SlotState) (e : Exc) : Claims.stickyFpsr old e false = old.fpsr ||| e.setWidth 6 := BitVec.or_zero

/-! ### Element types (R227) -/

/-- The width of an element type divides that of a register. -/
theorem vtType_width {n : Nat} {f : Fmt} (h : vtType n = some f) : f.width ∣ 2048 := by
  cases f with
  | e3m2 | e2m3 =>
    unfold vtType at h
    split at h <;> cases h
  | _ => decide

theorem slotType_width (x : SlotState) : (slotType x).width ∣ 2048 := by
  unfold slotType
  cases h : vtType x.vt.toNat with
  | none => decide
  | some f => exact vtType_width h

theorem width_pos (f : Fmt) : 0 < f.width := by cases f <;> decide

/-- VLMAX elements lie in the registers of their group. -/
theorem span_of_vlMax {f : Fmt} {g k : Nat} (h : k ≤ vlMax f g) : (k * f.width + 2047) / 2048 ≤ g := by
  have hk : k * f.width ≤ g * 2048 := (Nat.mul_le_mul_right _ h).trans (Nat.div_mul_le_self ..)
  omega

/-! ### Element operations -/

theorem toSigned_emod (w x : Nat) : toSigned w x % ((2 ^ w : Nat) : Int) = ((x % 2 ^ w : Nat) : Int) := by
  unfold toSigned
  dsimp only
  have hlt : x % 2 ^ w < 2 ^ w := Nat.mod_lt _ (Nat.two_pow_pos w)
  generalize x % 2 ^ w = y at hlt
  split
  · exact Int.emod_eq_of_lt (Int.natCast_nonneg y) (Int.ofNat_lt.2 hlt)
  · rw [Int.sub_emod_right]
    exact Int.emod_eq_of_lt (Int.natCast_nonneg y) (Int.ofNat_lt.2 hlt)

theorem ofSigned_toSigned {w x : Nat} (h : x < 2 ^ w) : ofSigned w (toSigned w x) = x := by
  rw [ofSigned, toSigned_emod, Int.toNat_natCast, Nat.mod_eq_of_lt h]

theorem ofSigned_natCast (w x : Nat) : ofSigned w (x : Int) = x % 2 ^ w := by
  rw [ofSigned, ← Int.natCast_emod, Int.toNat_natCast]

theorem intElem_eq (op : SlotOp) (f : Fmt) {a b : Nat} (c : Nat) (ha : a < 2 ^ f.width) (hb : b < 2 ^ f.width) :
    intElem op f a b c = ofSigned f.width (Claims.integerResult op f.width a b c) := by
  have hsa := ofSigned_toSigned ha
  have hsb := ofSigned_toSigned hb
  have hshift : a / 2 ^ (b % f.width) < 2 ^ f.width := lt_of_le_of_lt (Nat.div_le_self ..) ha
  cases op
  case vMin =>
    rcases Int.lt_or_le (toSigned f.width b) (toSigned f.width a) with h | h
    · exact (if_pos h).trans (by rw [Claims.integerResult, min_eq_right h.le, hsb])
    · exact (if_neg (Int.not_lt.2 h)).trans (by rw [Claims.integerResult, min_eq_left h, hsa])
  case vMax =>
    rcases Int.lt_or_le (toSigned f.width a) (toSigned f.width b) with h | h
    · exact (if_pos h).trans (by rw [Claims.integerResult, max_eq_right h.le, hsb])
    · exact (if_neg (Int.not_lt.2 h)).trans (by rw [Claims.integerResult, max_eq_left h, hsa])
  case vAnd => exact ((ofSigned_natCast ..).trans (Nat.mod_eq_of_lt (Nat.and_lt_two_pow _ hb))).symm
  case vOr => exact ((ofSigned_natCast ..).trans (Nat.mod_eq_of_lt (Nat.or_lt_two_pow ha hb))).symm
  case vXor => exact ((ofSigned_natCast ..).trans (Nat.mod_eq_of_lt (Nat.xor_lt_two_pow ha hb))).symm
  case vShl => exact (ofSigned_natCast ..).symm
  case vShr => exact ((ofSigned_natCast ..).trans (Nat.mod_eq_of_lt hshift)).symm
  all_goals rfl

theorem floatElem_eq (op : SlotOp) (f : Fmt) (d : Rnd) (code : Nat) (a b c : FVal) :
    floatElem op f d code a b c = Claims.floatResult op f d code a b c := by
  cases op <;> rfl

/-! ### The operations of O17 -/

/-- The element operation's code and exceptions, as the statement says them. -/
theorem arithElem_eq (op : SlotOp) (f : Fmt) (d : Rnd) (code : Nat) {a b : Nat} (c : Nat) (ha : a < 2 ^ f.width) (hb : b < 2 ^ f.width) :
    arithElem op f d code a b c = (Claims.elementResult op f d code a b c, Claims.elementRaises op f d code a b c) := by
  unfold arithElem Claims.elementResult Claims.elementRaises
  cases f.isFloat with
  | true => rw [if_pos rfl, if_pos rfl, if_pos rfl, floatElem_eq]; rfl
  | false => rw [if_neg Bool.false_ne_true, if_neg Bool.false_ne_true, if_neg Bool.false_ne_true, intElem_eq op f c ha hb]; rfl

section
variable (op : SlotOp) (f : EFields) (old : SlotState)

/-- Element i of an element operation. -/
def arithOf (i : Nat) : Nat × Exc :=
  let el (n : Nat) : Nat := vElem old n (slotType old).width i
  arithElem op (slotType old) (slotRnd old) (fld f.imm.toNat 0 8) (el f.a.toNat) (el f.b.toNat) (el f.c.toNat)

/-- The tangent of element i, whose value has the code v. -/
def tangentOf (v i : Nat) : Nat × Exc :=
  let el (n : Nat) : FVal := decodeElem (slotType old) (vElem old n (slotType old).width i)
  packRes (slotType old) (tangentElem op (slotType old) (slotRnd old) (fld f.imm.toNat 0 8) (el f.a.toNat) (el f.b.toNat)
    (el (f.a.toNat + grpSize old)) (el (f.b.toNat + grpSize old)) (el (f.c.toNat + grpSize old)) (decodeElem (slotType old) v))

theorem vArith_plain (h : old.pair = false) : vArith op f old old =
    putGroup old old f f.d.toNat (slotType old).width old.vl.toNat (arithOf op f old) := by
  unfold vArith
  dsimp only
  rw [h]
  rfl

/-- The codes that an element operation writes. -/
def arithCodes : List Nat := (elemResults (active old f) (arithOf op f old) 0 old.vl.toNat).1

/-- Under PAIR the tangents follow the values, each from the value that it belongs to. -/
theorem vArith_pair (h : old.pair = true) : vArith op f old old =
    putPair old f f.d.toNat (f.d.toNat + grpSize old) (slotType old).width old.vl.toNat (arithOf op f old)
      (fun i => tangentOf op f old (nth (arithCodes op f old) i) i) := by
  unfold vArith
  dsimp only
  rw [h]
  rfl

variable {f old} {i : Nat} (hi : i < old.vl.toNat) (ha : active old f i = true)
include hi ha

theorem nth_arithCodes : nth (arithCodes op f old) i = (arithOf op f old i).1 := by
  unfold arithCodes
  rw [elemResults_eq, nth_map_rangeFrom _ hi, if_pos ha]

end

theorem changesVectors_vArith (op : SlotOp) (f : EFields) (old : SlotState) : ChangesVectors old (vArith op f old old) := by
  cases h : old.pair with
  | false =>
    rw [vArith_plain op f old h]
    exact changesVectors_putGroup ..
  | true =>
    rw [vArith_pair op f old h]
    exact changesVectors_putPair ..

/-- Each element operation is a command of its own on registers, and computes as `vArith`. -/
theorem vectorArith_commands {t : Slot} {f : EFields} {e : SlotOp × Nat × Instr} (he : e ∈ Claims.vectorArith t f) :
    VCommand t f e.1 e.2.1 e.2.2 ∧ e.1 ∈ onRegisters ∧ ∀ old x, vRegOp e.1 f old x = vArith e.1 f old x := by
  simp only [Claims.vectorArith, List.mem_cons, List.not_mem_nil, or_false] at he
  rcases he with rfl | rfl | rfl | rfl | rfl | rfl | rfl | rfl | rfl | rfl | rfl | rfl | rfl | rfl | rfl <;>
    exact ⟨⟨fun _ => rfl, rfl, of_decide_eq_true rfl, SlotOp.noConfusion, SlotOp.noConfusion⟩, of_decide_eq_true rfl,
      fun _ _ => rfl⟩

/-- Settles O17: a command of the V slot completes with its registers (`VCommand.completes_onRegisters`), and `putGroup` and `putPair`
say what these hold. -/
theorem vectorArithmetic : Obligations.VectorArithmetic := by
  unfold Obligations.VectorArithmetic
  intro s t f sigs hs e he hi old fm w vl d g code el r v tan ex
  obtain ⟨hc, ho, hreg⟩ := vectorArith_commands he
  have hw : w ∣ 2048 := slotType_width old
  have hch : ChangesVectors old (vArith e.1 f old old) := changesVectors_vArith ..
  have hdone := hc.completes_onRegisters hs hi ho (hreg old old) hch.stopped
  have harith : ∀ i, arithOf e.1 f old i = (r i, Claims.elementRaises e.1 fm (slotRnd old) code (el f.a.toNat i) (el f.b.toNat i)
      (el f.c.toNat i)) := fun i => by
    rw [arithOf, fld_low]
    exact arithElem_eq _ _ _ _ _ (vElem_lt ..) (vElem_lt ..)
  have hval : ∀ i, i < vl → active old f i = true → (arithOf e.1 f old i).1 % 2 ^ w = r i % 2 ^ w := fun i _ _ => by rw [harith]
  have hex : (Claims.raisedBy old f vl fun i => (arithOf e.1 f old i).2) = ex := raisedBy_congr fun i _ _ => by rw [harith]
  refine ⟨vArith e.1 f old old, hdone, hch.eq, fun hp => ?plain, fun hp hf hvl => ?pair⟩
  case plain =>
    rw [vArith_plain _ _ _ hp]
    refine ⟨?_, groupHolds_putGroup hw (fun _ _ _ => rfl) hval, fun i h => vReg_putGroup_outside _ _ _ _ _ (width_pos _) h⟩
    rw [putGroup_fpsr, stickyFpsr_exc, hex]
  case pair =>
    have hm : d + (vl * w + 2047) / 2048 ≤ d + g := Nat.add_le_add_left (span_of_vlMax hvl) d
    have htan : ∀ i, i < vl → active old f i = true →
        tangentOf e.1 f old (nth (arithCodes e.1 f old) i) i = packRes fm (tan i) := fun i hi ha => by
      rw [nth_arithCodes _ hi ha, harith, tangentOf, fld_low]
      rfl
    rw [vArith_pair _ _ _ hp]
    refine ⟨?_, groupHolds_putPair_values hw hm hval, groupHolds_putPair_tangents hw hm fun i hi ha => ?_,
      pairKept_putPair _ _ _ _ _ _ (width_pos _)⟩
    · rw [putPair_fpsr, stickyFpsr_exc, hex, raisedBy_congr fun i hi ha => congrArg Prod.snd (htan i hi ha)]
      rfl
    · rw [htan i hi ha]
      rfl

end Sys2Proof.Machine

end

section

/-! SUPPORT. V.LDEXP, V.CVT, V.WMUL, V.DOT, V.PERM and V.RED (R233, R235 to R240), and obligation O18. -/

namespace Sys2Proof.Machine

open Sys2Proof

/-! ### Integer saturation in FPSR -/

theorem addSat_fpsr (x : SlotState) (b : Bool) : (addSat x b).fpsr = x.fpsr ||| if b then 0x20 else 0 := by
  cases b with
  | true => rfl
  | false => exact BitVec.or_zero.symm

theorem vReg_addSat (x : SlotState) (b : Bool) (i : Nat) : vReg (addSat x b) i = vReg x i := by cases b <;> rfl

theorem changesVectors_addSat (x : SlotState) (b : Bool) : ChangesVectors x (addSat x b) := by cases b <;> exact ⟨_, _, rfl⟩

theorem stickyFpsr_sat (old : SlotState) (b : Bool) : Claims.stickyFpsr old 0 b = old.fpsr ||| if b then 0x20 else 0 := by
  have h0 : old.fpsr ||| (0 : Exc).setWidth 6 = old.fpsr := BitVec.or_zero
  unfold Claims.stickyFpsr
  rw [h0]

theorem raisedBy_none (old : SlotState) (f : EFields) (k : Nat) : (Claims.raisedBy old f k fun _ => 0) = 0 := by
  have hstep : (fun (x : Exc) i => if active old f i then x ||| 0 else x) = fun x _ => x := by
    funext x i
    exact (congrArg (ite _ · x) BitVec.or_zero).trans (ite_self x)
  unfold Claims.raisedBy
  rw [hstep, List.foldl_fixed]

theorem changesVectors_writeGroup (x old : SlotState) (f : EFields) (n w : Nat) (vs : List Nat) :
    ChangesVectors x (writeGroup x old f n w vs) := ⟨_, _, writeGroup_changes_vregs ..⟩

theorem map_rangeFrom {α : Type} (v : Nat → α) (a n : Nat) : (rangeFrom a n).map v = (List.range n).map fun i => v (a + i) := by
  rw [rangeFrom_eq_range', List.range'_eq_map_range, List.map_map]
  rfl

/-! ### V.LDEXP -/

section
variable (f : EFields) (old : SlotState)

/-- The power of two in element i of B. -/
def ldexpPower (i : Nat) : Int := toSigned 32 (vElem old f.b.toNat 32 i)

/-- Element i of the group at n, scaled. -/
def scaledAt (n i : Nat) : Nat × Exc :=
  let v := decodeElem (slotType old) (vElem old n (slotType old).width i)
  packRes (slotType old) (roundExc (slotType old) (slotRnd old) (v.scale (ldexpPower f old i), sigExc [v]))

/-- The tangent of element i, scaled; one of ±0 gives +0 (R214). -/
def scaledTangent (i : Nat) : Nat × Exc :=
  let v := decodeElem (slotType old) (vElem old (f.a.toNat + grpSize old) (slotType old).width i)
  packRes (slotType old) (if v.isZero then (fZero, 0) else roundExc (slotType old) (slotRnd old) (v.scale (ldexpPower f old i), sigExc [v]))

theorem packVal_zero (g : Fmt) : packVal g fZero = 0 := Nat.zero_mul _

theorem scaledTangent_eq (i : Nat) : scaledTangent f old i =
    if (decodeElem (slotType old) (vElem old (f.a.toNat + grpSize old) (slotType old).width i)).isZero then (0, 0)
    else scaledAt f old (f.a.toNat + grpSize old) i := by
  have hz : packRes (slotType old) (fZero, 0) = (0, 0) := by rw [packRes, packVal_zero]
  unfold scaledTangent
  dsimp only
  rw [apply_ite (packRes (slotType old)), hz]
  rfl

/-- Element i of an integer V.LDEXP. -/
def ldexpIntAt (i : Nat) : Nat :=
  ldexpInt (slotType old) (toSigned (slotType old).width (vElem old f.a.toNat (slotType old).width i)) (ldexpPower f old i)

theorem vLdexp_int (h : (slotType old).isFloat = false) : vLdexp f old old = writeGroup old old f f.d.toNat (slotType old).width
    ((rangeFrom 0 old.vl.toNat).map fun i => if active old f i then ldexpIntAt f old i else 0) := by
  have hr := congrArg Prod.fst (elemResults_eq (active old f) (fun i => (ldexpIntAt f old i, 0)) old.vl.toNat 0)
  dsimp only at hr
  rw [← hr]
  unfold vLdexp
  dsimp only
  rw [h]
  rfl

theorem vLdexp_plain (h : (slotType old).isFloat = true) (hp : old.pair = false) : vLdexp f old old =
    putGroup old old f f.d.toNat (slotType old).width old.vl.toNat (scaledAt f old f.a.toNat) := by
  unfold vLdexp
  dsimp only
  rw [h, hp]
  rfl

theorem vLdexp_pair (h : (slotType old).isFloat = true) (hp : old.pair = true) : vLdexp f old old =
    putPair old f f.d.toNat (f.d.toNat + grpSize old) (slotType old).width old.vl.toNat (scaledAt f old f.a.toNat)
      (scaledTangent f old) := by
  rw [funext (scaledTangent_eq f old)]
  unfold vLdexp
  dsimp only
  rw [h, hp]
  rfl

theorem changesVectors_vLdexp : ChangesVectors old (vLdexp f old old) := by
  cases h : (slotType old).isFloat with
  | false => rw [vLdexp_int f old h]; exact changesVectors_writeGroup ..
  | true =>
    cases hp : old.pair with
    | false => rw [vLdexp_plain f old h hp]; exact changesVectors_putGroup ..
    | true => rw [vLdexp_pair f old h hp]; exact changesVectors_putPair ..

end

theorem width_le (g : Fmt) : g.width ≤ 64 := by cases g <;> decide

theorem abs_toSigned_lt (w x : Nat) : |toSigned w x| < 2 ^ w := by
  have hlt : x % 2 ^ w < 2 ^ w := Nat.mod_lt _ (Nat.two_pow_pos w)
  have hc : (2 : Int) ^ w = ((2 ^ w : Nat) : Int) := by push_cast; rfl
  unfold toSigned
  dsimp only
  rw [hc, abs_lt]
  generalize 2 ^ w = p at *
  generalize x % p = y at *
  split <;> omega

theorem ldexpInt_product {f : Fmt} {a b : Int} (h : 0 ≤ b) : ldexpInt f a b = (a * 2 ^ b.toNat % 2 ^ f.width).toNat := by
  unfold ldexpInt wrapInt ofSigned
  rw [if_pos h]
  push_cast
  rcases Nat.le_total b.toNat f.width with hb | hb
  · rw [Nat.min_eq_left hb]
  · have hd : (2 : Int) ^ f.width ∣ 2 ^ b.toNat := pow_dvd_pow 2 hb
    rw [Nat.min_eq_right hb, Int.emod_eq_zero_of_dvd (Dvd.intro_left a rfl), Int.emod_eq_zero_of_dvd (hd.mul_left a)]

theorem ldexpInt_quotient {f : Fmt} {a b : Int} (ha : |a| < 2 ^ 64) (h : b < 0) (hd : ((2 ^ (-b).toNat : Nat) : Int) ∣ a) :
    ldexpInt f a b = (a / 2 ^ (-b).toNat % 2 ^ f.width).toNat := by
  have hk : ((2 ^ min (-b).toNat 64 : Nat) : Int) ∣ a ∧ a / ((2 ^ min (-b).toNat 64 : Nat) : Int) = a / 2 ^ (-b).toNat := by
    rcases Nat.le_total (-b).toNat 64 with hb | hb
    · rw [Nat.min_eq_left hb]
      exact ⟨hd, by push_cast; rfl⟩
    · have hle : (2 : Int) ^ 64 ≤ ((2 ^ (-b).toNat : Nat) : Int) := by
        push_cast
        exact pow_le_pow_right₀ (a := (2 : Int)) one_le_two hb
      have h0 : a = 0 := Int.eq_zero_of_abs_lt_dvd hd (lt_of_lt_of_le ha hle)
      rw [h0]
      exact ⟨dvd_zero _, by rw [Int.zero_ediv, Int.zero_ediv]⟩
  unfold ldexpInt wrapInt ofSigned
  dsimp only
  rw [if_neg (Int.not_le.2 h), if_pos (Int.emod_eq_zero_of_dvd hk.1), hk.2]
  push_cast
  rfl

section
variable {f : EFields} {old : SlotState}

theorem groupHolds_vLdexp (hvl : old.vl.toNat ≤ vlMax (slotType old) (grpSize old)) (hf : (slotType old).isFloat = true) :
    Claims.GroupHolds old (vLdexp f old old) f f.d.toNat (slotType old).width old.vl.toNat fun i => (scaledAt f old f.a.toNat i).1 := by
  cases hp : old.pair with
  | false =>
    rw [vLdexp_plain f old hf hp]
    exact groupHolds_putGroup (slotType_width old) (fun _ _ _ => rfl) fun _ _ _ => rfl
  | true =>
    rw [vLdexp_pair f old hf hp]
    exact groupHolds_putPair_values (slotType_width old) (Nat.add_le_add_left (span_of_vlMax hvl) _) fun _ _ _ => rfl

theorem vLdexp_plain_frame (hf : (slotType old).isFloat = true) (hp : old.pair = false) :
    Claims.OthersKept old (vLdexp f old old) f.d.toNat (slotType old).width old.vl.toNat ∧
      (vLdexp f old old).fpsr =
        Claims.stickyFpsr old (Claims.raisedBy old f old.vl.toNat fun i => (scaledAt f old f.a.toNat i).2) false := by
  rw [vLdexp_plain f old hf hp]
  refine ⟨fun i h => vReg_putGroup_outside _ _ _ _ _ (width_pos _) h, ?_⟩
  rw [putGroup_fpsr, stickyFpsr_exc]

theorem vLdexp_pair_holds (hvl : old.vl.toNat ≤ vlMax (slotType old) (grpSize old)) (hf : (slotType old).isFloat = true)
    (hp : old.pair = true) :
    Claims.GroupHolds old (vLdexp f old old) f (f.d.toNat + grpSize old) (slotType old).width old.vl.toNat
        (fun i => (scaledTangent f old i).1) ∧
      Claims.PairKept old (vLdexp f old old) f.d.toNat (f.d.toNat + grpSize old) (slotType old).width old.vl.toNat ∧
      (vLdexp f old old).fpsr = Claims.stickyFpsr old ((Claims.raisedBy old f old.vl.toNat fun i => (scaledAt f old f.a.toNat i).2) |||
        Claims.raisedBy old f old.vl.toNat fun i => (scaledTangent f old i).2) false := by
  rw [vLdexp_pair f old hf hp]
  refine ⟨groupHolds_putPair_tangents (slotType_width old) (Nat.add_le_add_left (span_of_vlMax hvl) _) fun _ _ _ => rfl,
    pairKept_putPair _ _ _ _ _ _ (width_pos _), ?_⟩
  rw [putPair_fpsr, stickyFpsr_exc]

theorem vLdexp_int_holds (hf : (slotType old).isFloat = false) :
    Claims.OthersKept old (vLdexp f old old) f.d.toNat (slotType old).width old.vl.toNat ∧ (vLdexp f old old).fpsr = old.fpsr ∧
      Claims.GroupHolds old (vLdexp f old old) f f.d.toNat (slotType old).width old.vl.toNat (ldexpIntAt f old) := by
  rw [vLdexp_int f old hf]
  refine ⟨othersKept_writeGroup old f _ (width_pos _) _ _, ?_,
    groupHolds_writeGroup (slotType_width old) (fun _ _ _ => rfl) fun i _ ha => by rw [if_pos ha]⟩
  rw [writeGroup_changes_vregs]

end

/-! ### V.CVT -/

section
variable (f : EFields) (old : SlotState)

/-- Element i of the group at n, converted; a tangent of ±0 gives +0 (R214). -/
def cvtAt (tangent : Bool) (n i : Nat) : Nat × Exc × Bool :=
  let c := vElem old n (slotType old).width i
  if tangent && (decodeElem (slotType old) c).isZero then (0, 0, false) else cvtElem (slotType old) (cvtType f) (slotRnd old) c

/-- An integer destination saturates at an active element. -/
def cvtSat (tangent : Bool) (n : Nat) : Bool := (List.range old.vl.toNat).any fun i => active old f i && (cvtAt f old tangent n i).2.2

theorem cvtGroup_eq (tangent : Bool) (x : SlotState) (n m : Nat) : cvtGroup tangent f old x n m =
    addSat (putGroup x old f m (cvtType f).width old.vl.toNat fun i => ((cvtAt f old tangent n i).1, (cvtAt f old tangent n i).2.1))
      (cvtSat f old tangent n) := by
  have hat : ∀ i, (if !active old f i || (tangent && (decodeElem (slotType old) (vElem old n (slotType old).width i)).isZero)
      then (0, 0, false) else cvtElem (slotType old) (cvtType f) (slotRnd old) (vElem old n (slotType old).width i)) =
      if active old f i then cvtAt f old tangent n i else (0, 0, false) := fun i => by
    unfold cvtAt
    cases active old f i <;> rfl
  unfold cvtGroup
  dsimp only
  simp only [hat]
  rw [putGroup_eq, ← joinExc_eq_raisedBy, List.map_map, List.map_map, List.any_map, rangeFrom_zero]
  congr 1
  · congr 2
    · refine List.map_congr_left fun i _ => ?_
      exact apply_ite Prod.fst ..
    · refine List.map_congr_left fun i _ => ?_
      exact apply_ite (fun r : Nat × Exc × Bool => r.2.1) ..
  · unfold cvtSat
    congr 1
    funext i
    cases h : active old f i <;> simp [h]

theorem vCvt_plain (h : (old.pair && pairType (cvtType f)) = false) : vCvt f old old = cvtGroup false f old old f.a.toNat f.d.toNat := by
  unfold vCvt
  dsimp only
  rw [h, if_neg Bool.false_ne_true]

theorem vCvt_pair (h : (old.pair && pairType (cvtType f)) = true) : vCvt f old old =
    cvtGroup true f old (cvtGroup false f old old f.a.toNat f.d.toNat) (f.a.toNat + grpSize old)
      (cvtTangent old f.d.toNat (cvtType f).width) := by
  unfold vCvt
  dsimp only
  rw [h, if_pos rfl]

theorem changesVectors_cvtGroup (tangent : Bool) (x : SlotState) (n m : Nat) : ChangesVectors x (cvtGroup tangent f old x n m) := by
  rw [cvtGroup_eq]
  exact (changesVectors_putGroup ..).trans (changesVectors_addSat ..)

theorem changesVectors_vCvt : ChangesVectors old (vCvt f old old) := by
  cases h : old.pair && pairType (cvtType f) with
  | false => rw [vCvt_plain f old h]; exact changesVectors_cvtGroup ..
  | true => rw [vCvt_pair f old h]; exact (changesVectors_cvtGroup ..).trans (changesVectors_cvtGroup ..)

theorem cvtGroup_fpsr (tangent : Bool) (x : SlotState) (n m : Nat) : (cvtGroup tangent f old x n m).fpsr =
    x.fpsr ||| (Claims.raisedBy old f old.vl.toNat fun i => (cvtAt f old tangent n i).2.1).setWidth 6 |||
      if cvtSat f old tangent n then 0x20 else 0 := by
  rw [cvtGroup_eq, addSat_fpsr, putGroup_fpsr]

variable {f old}

theorem vReg_cvtGroup_outside (tangent : Bool) (x : SlotState) (n m : Nat) {i : Nat}
    (h : i < m ∨ m + (old.vl.toNat * (cvtType f).width + 2047) / 2048 ≤ i) : vReg (cvtGroup tangent f old x n m) i = vReg x i := by
  rw [cvtGroup_eq, vReg_addSat]
  exact vReg_putGroup_outside _ _ _ _ _ (width_pos _) h

theorem groupHolds_cvtGroup (hw : (cvtType f).width ∣ 2048) (tangent : Bool) {x : SlotState} (n : Nat) {m : Nat}
    (hx : ∀ j, m ≤ j → j < m + (old.vl.toNat * (cvtType f).width + 2047) / 2048 → vReg x j = vReg old j) :
    Claims.GroupHolds old (cvtGroup tangent f old x n m) f m (cvtType f).width old.vl.toNat fun i => (cvtAt f old tangent n i).1 := by
  rw [cvtGroup_eq]
  exact groupHolds_of_vReg (width_pos _) (groupHolds_putGroup hw hx fun _ _ _ => rfl) fun j _ _ => vReg_addSat _ _ j

/-- A floating-point destination saturates nothing. -/
theorem cvtSat_float (h : (cvtType f).isFloat = true) (tangent : Bool) (n : Nat) : cvtSat f old tangent n = false := by
  refine List.any_eq_false.2 fun i _ => ?_
  have h0 : (cvtAt f old tangent n i).2.2 = false := by
    unfold cvtAt cvtElem
    dsimp only
    rw [h, if_pos rfl]
    split
    · rfl
    · split <;> rfl
  rw [h0, Bool.and_false]
  exact Bool.false_ne_true

/-- Widths that divide a register's divide one another in order. -/
theorem width_dvd_of_le {v w : Nat} (hv : v ∣ 2048) (hw : w ∣ 2048) (h : v ≤ w) : v ∣ w := by
  obtain ⟨i, -, rfl⟩ := (Nat.dvd_prime_pow Nat.prime_two (m := 11)).1 hv
  obtain ⟨j, -, rfl⟩ := (Nat.dvd_prime_pow Nat.prime_two (m := 11)).1 hw
  exact Nat.pow_dvd_pow 2 ((Nat.pow_le_pow_iff_right (by decide)).1 h)

/-- The tangents of V.CVT stand beyond its values. -/
theorem cvt_values_below_tangents (hvl : old.vl.toNat ≤ vlMax (slotType old) (grpSize old)) {dst : Fmt} (hd : dst.width ∣ 2048)
    (d : Nat) : d + (old.vl.toNat * dst.width + 2047) / 2048 ≤ cvtTangent old d dst.width := by
  have hk : old.vl.toNat * (slotType old).width ≤ grpSize old * 2048 := (Nat.mul_le_mul_right _ hvl).trans (Nat.div_mul_le_self ..)
  refine Nat.add_le_add_left ?_ d
  rcases Nat.le_total dst.width (slotType old).width with h | h
  · refine le_max_of_le_left ?_
    have hn := (Nat.mul_le_mul_left old.vl.toNat h).trans hk
    omega
  · refine le_max_of_le_right ?_
    obtain ⟨c, hc⟩ := width_dvd_of_le (slotType_width old) hd h
    have hg : derivedGrp old dst.width = grpSize old * c := by
      rw [derivedGrp, hc, Nat.mul_left_comm, Nat.mul_div_cancel_left _ (width_pos _)]
    have hn : old.vl.toNat * dst.width ≤ grpSize old * c * 2048 := by
      calc old.vl.toNat * dst.width = old.vl.toNat * (slotType old).width * c := by rw [hc, Nat.mul_assoc]
        _ ≤ grpSize old * 2048 * c := Nat.mul_le_mul_right c hk
        _ = grpSize old * c * 2048 := Nat.mul_right_comm ..
    rw [hg]
    omega

theorem pairType_isFloat {g : Fmt} (h : pairType g = true) : g.isFloat = true := by
  revert h
  cases g <;> decide

theorem vCvt_plain_fpsr (h : (old.pair && pairType (cvtType f)) = false) : (vCvt f old old).fpsr =
    Claims.stickyFpsr old (Claims.raisedBy old f old.vl.toNat fun i => (cvtAt f old false f.a.toNat i).2.1)
      (cvtSat f old false f.a.toNat) := by
  rw [vCvt_plain f old h, cvtGroup_fpsr]
  rfl

theorem vCvt_pair_fpsr (hp : old.pair = true) (ht : pairType (cvtType f) = true) : (vCvt f old old).fpsr =
    Claims.stickyFpsr old ((Claims.raisedBy old f old.vl.toNat fun i => (cvtAt f old false f.a.toNat i).2.1) |||
      Claims.raisedBy old f old.vl.toNat fun i => (cvtAt f old true (f.a.toNat + grpSize old) i).2.1) (cvtSat f old false f.a.toNat) := by
  rw [vCvt_pair f old (by rw [hp, ht]; rfl), cvtGroup_fpsr, cvtGroup_fpsr, cvtSat_float (pairType_isFloat ht),
    cvtSat_float (pairType_isFloat ht)]
  have h0 : ∀ x : BitVec 6, x ||| 0 = x := fun _ => BitVec.or_zero
  unfold Claims.stickyFpsr
  rw [if_neg Bool.false_ne_true, BitVec.setWidth_or, h0, h0, h0, BitVec.or_assoc]

theorem othersKept_vCvt_plain (h : (old.pair && pairType (cvtType f)) = false) :
    Claims.OthersKept old (vCvt f old old) f.d.toNat (cvtType f).width old.vl.toNat := fun i hi => by
  rw [vCvt_plain f old h, vReg_cvtGroup_outside _ _ _ _ hi]

theorem pairKept_vCvt_pair (h : (old.pair && pairType (cvtType f)) = true) :
    Claims.PairKept old (vCvt f old old) f.d.toNat (cvtTangent old f.d.toNat (cvtType f).width) (cvtType f).width old.vl.toNat :=
  fun i hn hm => by rw [vCvt_pair f old h, vReg_cvtGroup_outside true _ _ _ hm, vReg_cvtGroup_outside false _ _ _ hn]

theorem groupHolds_vCvt_tangents (hd : (cvtType f).width ∣ 2048) (h : (old.pair && pairType (cvtType f)) = true)
    (hm : f.d.toNat + (old.vl.toNat * (cvtType f).width + 2047) / 2048 ≤ cvtTangent old f.d.toNat (cvtType f).width) :
    Claims.GroupHolds old (vCvt f old old) f (cvtTangent old f.d.toNat (cvtType f).width) (cvtType f).width old.vl.toNat
      fun i => (cvtAt f old true (f.a.toNat + grpSize old) i).1 := by
  rw [vCvt_pair f old h]
  exact groupHolds_cvtGroup hd true _ fun j hj _ => vReg_cvtGroup_outside false _ _ _ (.inr (le_trans hm hj))

/-- The values that V.CVT writes, whether its tangents follow or not. -/
theorem groupHolds_vCvt (hd : (cvtType f).width ∣ 2048)
    (hm : f.d.toNat + (old.vl.toNat * (cvtType f).width + 2047) / 2048 ≤ cvtTangent old f.d.toNat (cvtType f).width) :
    Claims.GroupHolds old (vCvt f old old) f f.d.toNat (cvtType f).width old.vl.toNat fun i => (cvtAt f old false f.a.toNat i).1 := by
  have hg := groupHolds_cvtGroup (f := f) hd false f.a.toNat (m := f.d.toNat) (x := old) fun _ _ _ => rfl
  cases h : old.pair && pairType (cvtType f) with
  | false => rwa [vCvt_plain f old h]
  | true =>
    rw [vCvt_pair f old h]
    exact groupHolds_of_vReg (width_pos _) hg fun j _ hj => vReg_cvtGroup_outside true _ _ _ (.inl (by omega))

end

/-! ### V.WMUL and V.DOT -/

/-- Of the integer types V.WMUL permits INT8 alone (R236). -/
theorem int8_of_wmul {g : Fmt} (h : g.isFloat = false) (hp : vtPermits .vWmul g = true) : g = .int8 := by
  revert h hp
  cases g <;> decide

section
variable (f : EFields) (old : SlotState)

/-- Product i of V.WMUL. -/
def wmulAt (i : Nat) : Nat × Exc :=
  let a := vElem old f.a.toNat (slotType old).width i
  let b := vElem old f.b.toNat (slotType old).width i
  if (slotType old).isFloat then
    packRes (wmulType (slotType old))
      (roundExc (wmulType (slotType old)) .rne (exactMul (decodeElem (slotType old) a) (decodeElem (slotType old) b)))
  else (wrapInt (wmulType (slotType old)) (toSigned 8 a * toSigned 8 b), 0)

theorem wmulAt_float (h : (slotType old).isFloat = true) (i : Nat) : wmulAt f old i =
    packRes (wmulType (slotType old)) (roundExc (wmulType (slotType old)) .rne (exactMul
      (decodeElem (slotType old) (vElem old f.a.toNat (slotType old).width i))
      (decodeElem (slotType old) (vElem old f.b.toNat (slotType old).width i)))) := if_pos h

theorem wmulAt_int (h : (slotType old).isFloat = false) (hp : vtPermits .vWmul (slotType old) = true) (i : Nat) : wmulAt f old i =
    ((toSigned 8 (vElem old f.a.toNat (slotType old).width i) * toSigned 8 (vElem old f.b.toNat (slotType old).width i) % 2 ^ 16).toNat,
      0) := by
  unfold wmulAt
  dsimp only
  rw [h, if_neg Bool.false_ne_true, int8_of_wmul h hp]
  rfl

/-- Product i of V.WMUL as the statement says it. -/
theorem wmulAt_eq (hp : vtPermits .vWmul (slotType old) = true) (i : Nat) :
    let p := roundExc (wmulType (slotType old)) .rne (exactMul
      (decodeElem (slotType old) (vElem old f.a.toNat (slotType old).width i))
      (decodeElem (slotType old) (vElem old f.b.toNat (slotType old).width i)))
    wmulAt f old i = (if (slotType old).isFloat then packVal (wmulType (slotType old)) p.1 else
      (toSigned 8 (vElem old f.a.toNat (slotType old).width i) * toSigned 8 (vElem old f.b.toNat (slotType old).width i) % 2 ^ 16).toNat,
      if (slotType old).isFloat then p.2 else 0) := by
  cases h : (slotType old).isFloat with
  | true => exact wmulAt_float f old h i
  | false => exact wmulAt_int f old h hp i

theorem vWmul_eq : vWmul f old old =
    putGroup old old f f.d.toNat (wmulType (slotType old)).width old.vl.toNat (wmulAt f old) := rfl

/-- Element i of a source of V.DOT. -/
def dotElem (r i : Nat) : Nat := if i < old.vl.toNat then vElem old r (slotType old).width i else 0

def dotLanes : Nat := (old.vl.toNat + dotN (slotType old) - 1) / dotN (slotType old)

/-- Lane j of a floating-point V.DOT. -/
def dotAt (j : Nat) : Nat × Exc :=
  packRes .fp32 (roundExc .fp32 (slotRnd old) (dotExact (slotRnd old) (decodeElem .fp32 (vElem old f.c.toNat 32 j))
    ((List.range (dotN (slotType old))).map fun i =>
      (decodeElem (slotType old) (dotElem old f.a.toNat (dotN (slotType old) * j + i)),
        decodeElem (slotType old) (dotElem old f.b.toNat (dotN (slotType old) * j + i))))))

/-- Lane j of an integer V.DOT, before it saturates. -/
def dotSum (j : Nat) : Int :=
  toSigned 32 (vElem old f.c.toNat 32 j) + ((List.range (dotN (slotType old))).map fun i =>
    toSigned 8 (dotElem old f.a.toNat (dotN (slotType old) * j + i)) *
      toSigned 8 (dotElem old f.b.toNat (dotN (slotType old) * j + i))).sum

/-- An integer saturated to 32 bits. -/
def clamp32 (v : Int) : Int := max (-2 ^ 31) (min (2 ^ 31 - 1) v)

theorem clamp32_eq (v : Int) : (if v < Fmt.int32.intRange.1 then Fmt.int32.intRange.1
    else if Fmt.int32.intRange.2 < v then Fmt.int32.intRange.2 else v) = clamp32 v := by
  have hlo : Fmt.int32.intRange.1 = -2 ^ 31 := rfl
  have hhi : Fmt.int32.intRange.2 = 2 ^ 31 - 1 := rfl
  unfold clamp32
  rw [hlo, hhi]
  split
  · omega
  · split <;> omega

theorem vDot_float (h : (slotType old).isFloat = true) : vDot f old old =
    putGroup old old f f.d.toNat 32 (dotLanes old) (dotAt f old) := by
  have hat : dotAt f old = fun j => packRes .fp32 (roundExc .fp32 (slotRnd old) (dotExact (slotRnd old)
      (decodeElem .fp32 (vElem old f.c.toNat 32 j)) ((rangeFrom (dotN (slotType old) * j) (dotN (slotType old))).map fun i =>
        (decodeElem (slotType old) (dotElem old f.a.toNat i), decodeElem (slotType old) (dotElem old f.b.toNat i))))) := by
    funext j
    rw [map_rangeFrom]
    rfl
  rw [hat]
  unfold vDot
  dsimp only
  rw [h, if_pos rfl]
  rfl

theorem changesVectors_vWmul : ChangesVectors old (vWmul f old old) := changesVectors_putGroup ..

theorem foldl_add_sum (l : List Int) : ∀ c, l.foldl (· + ·) c = c + l.sum := by
  induction l with
  | nil => exact fun c => (Int.add_zero c).symm
  | cons a l ih => exact fun c => by rw [List.foldl_cons, ih, List.sum_cons, Int.add_assoc]

theorem vDot_int (h : (slotType old).isFloat = false) : vDot f old old =
    addSat (writeGroup old old f f.d.toNat 32
        ((rangeFrom 0 (dotLanes old)).map fun j => ofSigned 32 (clamp32 (if active old f j then dotSum f old j else 0))))
      ((List.range (dotLanes old)).any fun j => active old f j && decide (clamp32 (dotSum f old j) ≠ dotSum f old j)) := by
  have hsum : ∀ j, ((rangeFrom (dotN (slotType old) * j) (dotN (slotType old))).map fun i =>
      toSigned 8 (dotElem old f.a.toNat i) * toSigned 8 (dotElem old f.b.toNat i)).foldl (· + ·)
        (toSigned 32 (vElem old f.c.toNat 32 j)) = dotSum f old j := fun j => by
    rw [foldl_add_sum, map_rangeFrom]
    rfl
  unfold dotElem at hsum
  unfold vDot
  dsimp only
  rw [h, if_neg Bool.false_ne_true]
  simp only [hsum, clamp32_eq]
  rw [List.map_map, List.any_map, rangeFrom_zero, rangeFrom_zero]
  congr 1
  refine congrArg _ (funext fun j => ?_)
  rw [Function.comp_apply]
  cases hj : active old f j with
  | true => rw [if_pos rfl, Bool.true_and]
  | false => rfl

theorem changesVectors_vDot : ChangesVectors old (vDot f old old) := by
  cases h : (slotType old).isFloat with
  | true => rw [vDot_float f old h]; exact changesVectors_putGroup ..
  | false => rw [vDot_int f old h]; exact (changesVectors_writeGroup ..).trans (changesVectors_addSat ..)

theorem vDot_float_holds (h : (slotType old).isFloat = true) :
    Claims.GroupHolds old (vDot f old old) f f.d.toNat 32 (dotLanes old) (fun j => (dotAt f old j).1) ∧
      (vDot f old old).fpsr = Claims.stickyFpsr old (Claims.raisedBy old f (dotLanes old) fun j => (dotAt f old j).2) false := by
  rw [vDot_float f old h]
  refine ⟨groupHolds_putGroup (by decide) (fun _ _ _ => rfl) fun _ _ _ => rfl, ?_⟩
  rw [putGroup_fpsr, stickyFpsr_exc]

theorem vDot_int_holds (h : (slotType old).isFloat = false) :
    Claims.GroupHolds old (vDot f old old) f f.d.toNat 32 (dotLanes old) (fun j => ofSigned 32 (clamp32 (dotSum f old j))) ∧
      (vDot f old old).fpsr = Claims.stickyFpsr old 0
        ((List.range (dotLanes old)).any fun j => active old f j && decide (clamp32 (dotSum f old j) ≠ dotSum f old j)) := by
  rw [vDot_int f old h]
  refine ⟨groupHolds_of_vReg (by decide) (groupHolds_writeGroup (by decide) (fun _ _ _ => rfl) fun i _ ha => by rw [if_pos ha])
    fun j _ _ => vReg_addSat _ _ j, ?_⟩
  rw [addSat_fpsr, writeGroup_changes_vregs, stickyFpsr_sat]

theorem othersKept_vDot : Claims.OthersKept old (vDot f old old) f.d.toNat 32 (dotLanes old) := fun i hi => by
  cases h : (slotType old).isFloat with
  | true => rw [vDot_float f old h, vReg_putGroup_outside _ _ _ _ _ (by decide) hi]
  | false => rw [vDot_int f old h, vReg_addSat, vReg_writeGroup_outside _ _ _ _ _ (by decide) _ hi]

end

/-! ### V.PERM -/

/-- The number that a list of bits holds, least significant first. -/
theorem testBit_foldr_bits (l : List Bool) : ∀ i, (l.foldr (fun b acc => bnat b + 2 * acc) 0).testBit i = l[i]?.getD false := by
  induction l with
  | nil => exact fun i => Nat.zero_testBit i
  | cons b l ih =>
    intro i
    rw [List.foldr_cons, Nat.add_comm]
    cases i with
    | zero => cases b <;> simp [bnat, Nat.testBit_zero]
    | succ i =>
      have hb : bnat b < 2 := by cases b <;> decide
      rw [Nat.testBit_succ, show (2 * l.foldr (fun b acc => bnat b + 2 * acc) 0 + bnat b) / 2 = l.foldr (fun b acc => bnat b + 2 * acc) 0
        by omega, ih, List.getElem?_cons_succ]

/-- The bits of a mask made of a list. -/
theorem getLsbD_maskFromBits_zero (l : List Bool) {i : Nat} (h : i < 4096) : (maskFromBits 0 l).getLsbD i = l[i]?.getD false := by
  have h0 : (0 : MReg).toNat / 2 ^ l.length * 2 ^ l.length + l.foldr (fun b acc => bnat b + 2 * acc) 0 =
      l.foldr (fun b acc => bnat b + 2 * acc) 0 := by
    rw [show (0 : MReg).toNat = 0 from BitVec.toNat_zero, Nat.zero_div, Nat.zero_mul, Nat.zero_add]
  unfold maskFromBits
  dsimp only
  rw [h0, BitVec.getLsbD_ofNat, decide_eq_true h, Bool.true_and, testBit_foldr_bits]

section
variable (f : EFields) (old : SlotState)

/-- The index in element i of B. -/
def permIndex (i : Nat) : Nat := vElem old f.b.toNat (slotType old).width i

/-- Element i of V.PERM. -/
def permAt (i : Nat) : Nat := if permIndex f old i < old.vl.toNat then vElem old f.a.toNat (slotType old).width (permIndex f old i) else 0

/-- The group that V.PERM writes. -/
def permGroup : SlotState := writeGroup old old f f.d.toNat (slotType old).width ((rangeFrom 0 old.vl.toNat).map (permAt f old))

/-- The mask that V.PERM writes. -/
def permMask : MReg :=
  maskFromBits 0 ((rangeFrom 0 old.vl.toNat).map fun i => active old f i && decide (permIndex f old i < old.vl.toNat))

theorem vPerm_eq : vPerm f old old =
    { (if old.vl.toNat = 0 then old else setMReg old (f.c.toNat % 8) (permMask f old)) with vregs := (permGroup f old).vregs } := by
  have hg : permGroup f old = { old with vregs := (permGroup f old).vregs } := writeGroup_changes_vregs ..
  have hp : vPerm f old old =
      if old.vl.toNat = 0 then permGroup f old else setMReg (permGroup f old) (f.c.toNat % 8) (permMask f old) := rfl
  rw [hp]
  split
  · exact hg
  · conv_lhs => rw [hg]
    rfl

theorem vPerm_stopped : (vPerm f old old).stopped = old.stopped := by
  rw [vPerm_eq]
  split <;> rfl

theorem vReg_vPerm (i : Nat) : vReg (vPerm f old old) i = vReg (permGroup f old) i := by
  rw [vPerm_eq]
  rfl

theorem getLsbD_permMask {i : Nat} (h : i < 4096) : (permMask f old).getLsbD i =
    (decide (i < old.vl.toNat) && active old f i && decide (permIndex f old i < old.vl.toNat)) := by
  unfold permMask
  rw [getLsbD_maskFromBits_zero _ h, rangeFrom_zero, List.getElem?_map]
  by_cases hi : i < old.vl.toNat
  · rw [List.getElem?_range hi, decide_eq_true hi, Bool.true_and]
    rfl
  · rw [List.getElem?_eq_none (by rw [List.length_range]; omega), decide_eq_false hi, Bool.false_and, Bool.false_and]
    rfl

end

/-! ### V.RED -/

section
variable (f : EFields) (old : SlotState)

/-- The fold of a floating-point reduction: its value, its tangent and its exceptions. -/
def redTree (tan : Nat → FVal) : FVal × FVal × Exc :=
  combine (redOp (slotType old) (slotRnd old) f.sub.toNat) (fZero, fZero, 0) ((List.range old.vl.toNat).map fun i =>
    if active old f i then redElem f.sub.toNat (decodeElem (slotType old) (vElem old f.a.toNat (slotType old).width i)) (tan i)
    else (redIdentity f.sub.toNat, fZero, 0))

/-- Scalar register n takes the encoding of a value. -/
def putVal (x : SlotState) (n : Nat) (v : FVal) : SlotState := setSReg x n (BitVec.ofNat 64 (packVal (slotType old) v))

/-- The tangents that a reduction folds. -/
def redTan (i : Nat) : FVal := decodeElem (slotType old) (vElem old (f.a.toNat + grpSize old) (slotType old).width i)

theorem vRed_none (h : old.vl.toNat = 0) : vRed f old old = old := if_pos h

variable (h : old.vl.toNat ≠ 0)
include h

theorem vRed_plain (hf : (slotType old).isFloat = true) (hp : old.pair = false) : vRed f old old =
    addExc (putVal old old f.d.toNat (redTree f old fun _ => fZero).1) (redTree f old fun _ => fZero).2.2 := by
  unfold vRed
  dsimp only
  rw [if_neg h, hf, if_pos rfl, hp, rangeFrom_zero]
  rfl

theorem vRed_pair (hf : (slotType old).isFloat = true) (hp : old.pair = true) : vRed f old old =
    putVal old (addExc (putVal old old f.d.toNat (redTree f old (redTan f old)).1) (redTree f old (redTan f old)).2.2) (f.d.toNat + 1)
      (redTree f old (redTan f old)).2.1 := by
  unfold vRed
  dsimp only
  rw [if_neg h, hf, if_pos rfl, hp, rangeFrom_zero]
  rfl

theorem vRed_int (hf : (slotType old).isFloat = false) : vRed f old old =
    setSReg old f.d.toNat (BitVec.ofInt 64 (toSigned (slotType old).width (wrapInt (slotType old)
      (combine (redInt (slotType old) f.sub.toNat) 0 ((List.range old.vl.toNat).map fun i => if active old f i then
        (if f.sub.toNat = 3 then ((toSigned (slotType old).width (vElem old f.a.toNat (slotType old).width i)).natAbs : Int)
          else toSigned (slotType old).width (vElem old f.a.toNat (slotType old).width i))
        else redIntId (slotType old) f.sub.toNat))))) := by
  unfold vRed
  dsimp only
  rw [if_neg h, hf, if_neg Bool.false_ne_true, rangeFrom_zero]

end

/-! ### The commands -/

section
variable (t : Slot) (f : EFields)

theorem vCommand_vLdexp : VCommand t f .vLdexp 0x19 (.vLdexp t f Claims.noOthers) :=
  ⟨fun _ => rfl, rfl, by decide, SlotOp.noConfusion, SlotOp.noConfusion⟩

theorem vCommand_vCvt : VCommand t f .vCvt 0x1A (.vCvt t f Claims.noOthers) :=
  ⟨fun _ => rfl, rfl, by decide, SlotOp.noConfusion, SlotOp.noConfusion⟩

theorem vCommand_vWmul : VCommand t f .vWmul 0x28 (.vWmul t f Claims.noOthers) :=
  ⟨fun _ => rfl, rfl, by decide, SlotOp.noConfusion, SlotOp.noConfusion⟩

theorem vCommand_vDot : VCommand t f .vDot 0x29 (.vDot t f Claims.noOthers) :=
  ⟨fun _ => rfl, rfl, by decide, SlotOp.noConfusion, SlotOp.noConfusion⟩

theorem vCommand_vPerm : VCommand t f .vPerm 0x38 (.vPerm t f Claims.noOthers) :=
  ⟨fun _ => rfl, rfl, by decide, SlotOp.noConfusion, SlotOp.noConfusion⟩

theorem vCommand_vRed : VCommand t f .vRed 0x3A (.vRed t f Claims.noOthers) :=
  ⟨fun _ => rfl, rfl, by decide, SlotOp.noConfusion, SlotOp.noConfusion⟩

end

/-- Settles O18: each operation is a command on registers, and its own lemmas say what these hold. -/
theorem vectorConversions : Obligations.VectorConversions := by
  unfold Obligations.VectorConversions
  intro s t f sigs hs old fm w vl d g dir el val done group hvl
  have hw : w ∣ 2048 := slotType_width old
  refine ⟨?ldexp, ?cvt, ?wmul, ?dot, ?perm, ?red⟩
  case ldexp =>
    intro hi k sc ta
    have hch : ChangesVectors old (vLdexp f old old) := changesVectors_vLdexp f old
    refine ⟨vLdexp f old old, (vCommand_vLdexp t f).completes_onRegisters hs hi (by decide) rfl hch.stopped, hch.eq,
      groupHolds_vLdexp hvl, vLdexp_plain_frame, vLdexp_pair_holds hvl, fun hf => ?int⟩
    case int =>
      obtain ⟨hkept, hfpsr, hholds⟩ := vLdexp_int_holds (f := f) hf
      refine ⟨hkept, hfpsr, ldexpIntAt f old, hholds, fun i => ⟨ldexpInt_product, ldexpInt_quotient ?_⟩⟩
      exact lt_of_lt_of_le (abs_toSigned_lt ..) (pow_le_pow_right₀ one_le_two (width_le _))
  case cvt =>
    intro hi dst hdst cv ex sat m ta
    obtain rfl : cvtType f = dst := by rw [cvtType, fld_low]; exact congrArg (Option.getD · _) hdst
    have hdw : (cvtType f).width ∣ 2048 := vtType_width hdst
    have hch : ChangesVectors old (vCvt f old old) := changesVectors_vCvt f old
    have hm : d + (vl * (cvtType f).width + 2047) / 2048 ≤ m := cvt_values_below_tangents hvl hdw d
    refine ⟨vCvt f old old, (vCommand_vCvt t f).completes_onRegisters hs hi (by decide) rfl hch.stopped, hch.eq, ?values,
      fun hp => ?plain, fun hp hpt hf => ?pair⟩
    case values => exact groupHolds_vCvt hdw hm
    case plain =>
      have h : (old.pair && pairType (cvtType f)) = false := by
        rcases hp with hp | hp
        · rw [hp, Bool.false_and]
        · rw [hp, Bool.and_false]
      exact ⟨othersKept_vCvt_plain h, vCvt_plain_fpsr h⟩
    case pair =>
      have h : (old.pair && pairType (cvtType f)) = true := by rw [hp, hpt]; rfl
      have hta : ∀ i, ((cvtAt f old true (f.a.toNat + g) i).1, (cvtAt f old true (f.a.toNat + g) i).2.1) = ta i := fun i =>
        apply_ite (fun r : Nat × Exc × Bool => (r.1, r.2.1)) ..
      simp only [← hta]
      exact ⟨groupHolds_vCvt_tangents hdw h hm, pairKept_vCvt_pair h, vCvt_pair_fpsr hp hpt⟩
  case wmul =>
    intro hi p
    have hp := wmulAt_eq f old (vtPermits_of_issuesAlone (by decide) rfl hi)
    have hdw : (wmulType fm).width ∣ 2048 := by cases fm <;> decide
    have hch : ChangesVectors old (vWmul f old old) := changesVectors_vWmul f old
    refine ⟨vWmul f old old, (vCommand_vWmul t f).completes_onRegisters hs hi (by decide) rfl hch.stopped, hch.eq,
      fun i h => vReg_putGroup_outside _ _ _ _ _ (width_pos _) h, ?_, groupHolds_putGroup hdw (fun _ _ _ => rfl) fun i _ _ => ?_⟩
    · rw [vWmul_eq, putGroup_fpsr, stickyFpsr_exc]
      simp only [hp]
      cases fm.isFloat with
      | true => rfl
      | false => exact congrArg (fun e : Exc => old.fpsr ||| e.setWidth 6) (raisedBy_none old f vl)
    · exact congrArg (fun r : Nat × Exc => r.1 % 2 ^ (wmulType fm).width) (hp i)
  case dot =>
    intro hi n lanes at_ fl sum kept
    have hch : ChangesVectors old (vDot f old old) := changesVectors_vDot f old
    exact ⟨vDot f old old, (vCommand_vDot t f).completes_onRegisters hs hi (by decide) rfl hch.stopped, hch.eq, othersKept_vDot f old,
      vDot_float_holds f old, vDot_int_holds f old⟩
  case perm =>
    intro hi
    refine ⟨vPerm f old old, permMask f old, (vCommand_vPerm t f).completes_onRegisters hs hi (by decide) rfl (vPerm_stopped f old),
      ?_, fun i h => ?_, ?_, fun i h => getLsbD_permMask f old h⟩
    · rw [vPerm_eq]
    · exact (vReg_vPerm f old i).trans (othersKept_writeGroup old f d (width_pos _) vl _ i h)
    · exact groupHolds_of_vReg (width_pos _) (groupHolds_writeGroup hw (fun _ _ _ => rfl) fun _ _ _ => rfl)
        fun j _ _ => vReg_vPerm f old j
  case red =>
    intro hi tree put plain pairs
    have hdone : ∀ {y}, vRed f old old = y → y.stopped = old.stopped → done (.vRed t f Claims.noOthers) .vRed y :=
      (vCommand_vRed t f).completes_onRegisters hs hi (by decide)
    refine ⟨fun h => hdone (vRed_none f old h) rfl, fun h hf hp => hdone ?_ rfl, fun h hf hp => hdone ?_ rfl,
      fun h hf => hdone (vRed_int f old h hf) rfl⟩
    · rw [vRed_plain f old h hf hp, stickyFpsr_exc]
      rfl
    · rw [vRed_pair f old h hf hp, stickyFpsr_exc]
      rfl

end Sys2Proof.Machine

end

section

/-! SUPPORT. The loads of the V slot (R231, R232): which elements an access touches, what faults, what the registers hold. -/

namespace Sys2Proof.Machine

open Sys2Proof

section
variable {op : SlotOp} {f : EFields} {old : SlotState}

/-! ### The elements of an access -/

/-- No active element below k faults. -/
def NoFault (op : SlotOp) (f : EFields) (old : SlotState) (k : Nat) : Prop :=
  ∀ i, i < k → active old f i = true → vElemFault op f old i = false

/-- No active element below k lies in a poisoned unit. -/
def NoPoison (s : State) (c : Core) (op : SlotOp) (f : EFields) (old : SlotState) (k : Nat) : Prop :=
  ∀ i, i < k → active old f i = true → benchPoisoned s c (vAddr op f old i).1 (elemBytes (slotType old).width) = false

theorem mem_activeElems {i : Nat} : i ∈ activeElems f old ↔ i < old.vl.toNat ∧ active old f i = true := by
  unfold activeElems
  rw [List.mem_filter, mem_rangeFrom_zero]

theorem any_activeElems_eq_false {p : Nat → Bool} :
    (activeElems f old).any p = false ↔ ∀ i, i < old.vl.toNat → active old f i = true → p i = false := by
  simp only [List.any_eq_false, mem_activeElems, and_imp, Bool.not_eq_true]

theorem any_activeElems_below_eq_false {p : Nat → Bool} {k : Nat} (hk : k ≤ old.vl.toNat) :
    ((activeElems f old).filter fun i => decide (i < k)).any p = false ↔ ∀ i, i < k → active old f i = true → p i = false := by
  simp only [List.any_eq_false, List.mem_filter, mem_activeElems, and_imp, decide_eq_true_eq, Bool.not_eq_true]
  exact ⟨fun h i hi ha => h i (lt_of_lt_of_le hi hk) ha hi, fun h i _ ha hi => h i hi ha⟩

/-- The elements of an access come in ascending order. -/
theorem activeElems_ascend : (activeElems f old).Pairwise (· < ·) := by
  unfold activeElems
  rw [rangeFrom_zero]
  exact List.pairwise_lt_range.filter _

theorem find?_fault_none (h : NoFault op f old old.vl.toNat) : (activeElems f old).find? (vElemFault op f old) = none := by
  refine List.find?_eq_none.2 fun i hi => ?_
  obtain ⟨hk, ha⟩ := mem_activeElems.1 hi
  exact Bool.eq_false_iff.1 (h i hk ha)

theorem find?_fault_some {k : Nat} (hk : k < old.vl.toNat) (ha : active old f k = true) (hf : vElemFault op f old k = true)
    (h : NoFault op f old k) : (activeElems f old).find? (vElemFault op f old) = some k := by
  unfold activeElems
  rw [rangeFrom_zero, List.find?_filter, List.find?_range_eq_some]
  refine ⟨decide_eq_true ⟨ha, hf⟩, List.mem_range.2 hk, fun j hj => ?_⟩
  rw [Bool.not_eq_true', decide_eq_false_iff_not]
  exact fun hj' => Bool.eq_false_iff.1 (h j hj hj'.1) hj'.2

/-! ### What a load answers -/

/-- The loads of element groups. -/
def groupLoads : List SlotOp := [.vLd, .vLds, .vLdx, .vLdff]

section
variable {s : State} {t : Slot}

theorem vLoad_faults (hop : op ∈ groupLoads) (hn : op ≠ .vLdff) (h : ¬ NoFault op f old old.vl.toNat) :
    vLoad s t op f old old = .error evAccessFault := by
  have ha : (activeElems f old).any (vElemFault op f old) = true := by
    rw [← Bool.not_eq_false, any_activeElems_eq_false]
    exact h
  simp only [groupLoads, List.mem_cons, List.not_mem_nil, or_false] at hop
  rcases hop with rfl | rfl | rfl | rfl
  · exact if_pos ha
  · exact if_pos ha
  · exact if_pos ha
  · exact absurd rfl hn

/-- A load that no element faults reads them all, unless one is poisoned. -/
theorem vLoad_noFault (hop : op ∈ groupLoads) (h : NoFault op f old old.vl.toNat) : vLoad s t op f old old =
    if (activeElems f old).any fun i => benchPoisoned s (slotCore t) (vAddr op f old i).1 (elemBytes (slotType old).width)
    then .error evMemPoison else .ok (loadGroup s (slotCore t) op f old old old.vl.toNat) := by
  have ha : ¬ (activeElems f old).any (vElemFault op f old) = true := by
    rw [Bool.not_eq_true, any_activeElems_eq_false]
    exact h
  have hfind := find?_fault_none h
  simp only [groupLoads, List.mem_cons, List.not_mem_nil, or_false] at hop
  rcases hop with rfl | rfl | rfl | rfl
  · exact if_neg ha
  · exact if_neg ha
  · exact if_neg ha
  · unfold vLoad
    dsimp only
    rw [hfind]

theorem vLoad_whole (hop : op ∈ groupLoads) (h : NoFault op f old old.vl.toNat) (hp : NoPoison s (slotCore t) op f old old.vl.toNat) :
    vLoad s t op f old old = .ok (loadGroup s (slotCore t) op f old old old.vl.toNat) := by
  rw [vLoad_noFault hop h, if_neg]
  rw [Bool.not_eq_true, any_activeElems_eq_false]
  exact hp

theorem vLoad_poisoned (hop : op ∈ groupLoads) (h : NoFault op f old old.vl.toNat)
    (hp : ¬ NoPoison s (slotCore t) op f old old.vl.toNat) : vLoad s t op f old old = .error evMemPoison := by
  rw [vLoad_noFault hop h, if_pos]
  rw [← Bool.not_eq_false, any_activeElems_eq_false]
  exact hp

section
variable {k : Nat} (hfind : (activeElems f old).find? (vElemFault .vLdff f old) = some k)
include hfind

theorem vLdff_faults (h0 : k = 0) : vLoad s t .vLdff f old old = .error evAccessFault := by
  unfold vLoad
  dsimp only
  rw [hfind]
  exact if_pos h0

variable (h0 : k ≠ 0) (hk : k ≤ old.vl.toNat)
include h0 hk

theorem vLdff_poisoned (hp : ¬ NoPoison s (slotCore t) .vLdff f old k) : vLoad s t .vLdff f old old = .error evMemPoison := by
  unfold vLoad
  dsimp only
  rw [hfind]
  refine (if_neg h0).trans (if_pos ?_)
  rw [← Bool.not_eq_false, any_activeElems_below_eq_false hk]
  exact hp

theorem vLdff_whole (hp : NoPoison s (slotCore t) .vLdff f old k) : vLoad s t .vLdff f old old =
    .ok { loadGroup s (slotCore t) .vLdff f old old k with vl := BitVec.ofNat 13 k } := by
  unfold vLoad
  dsimp only
  rw [hfind]
  refine (if_neg h0).trans (if_neg ?_)
  rw [Bool.not_eq_true, any_activeElems_below_eq_false hk]
  exact hp

end

section
variable (hvl : old.vl.toNat ≠ 0)

theorem vMld_none (h : old.vl.toNat = 0) : vLoad s t .vMld f old old = .ok old := by
  have h0 : old.vl = 0 := BitVec.eq_of_toNat_eq h
  unfold vLoad
  dsimp only
  rw [if_pos h0]

include hvl

theorem vMld_outside (h : benchSize < (sReg old f.a.toNat).toNat + 512) : vLoad s t .vMld f old old = .error evAccessFault := by
  have hp : vPlace (sReg old f.a.toNat).toNat 512 = none := if_neg (Nat.not_le.2 h)
  unfold vLoad
  dsimp only
  rw [if_neg fun h0 => hvl (congrArg BitVec.toNat h0), hp]

theorem vMld_inside (h : (sReg old f.a.toNat).toNat + 512 ≤ benchSize) : vLoad s t .vMld f old old =
    if benchPoisoned s (slotCore t) (sReg old f.a.toNat).toNat 512 then .error evMemPoison
    else .ok (setMReg old (f.d.toNat % 8) (BitVec.ofNat 4096 (benchNat s (slotCore t) (sReg old f.a.toNat).toNat 512))) := by
  have hp : vPlace (sReg old f.a.toNat).toNat 512 = some (sReg old f.a.toNat).toNat := if_pos h
  unfold vLoad
  dsimp only
  rw [if_neg fun h0 => hvl (congrArg BitVec.toNat h0), hp]

theorem vMld_poisoned (h : (sReg old f.a.toNat).toNat + 512 ≤ benchSize)
    (hp : benchPoisoned s (slotCore t) (sReg old f.a.toNat).toNat 512 = true) : vLoad s t .vMld f old old = .error evMemPoison := by
  rw [vMld_inside hvl h, if_pos hp]

theorem vMld_whole (h : (sReg old f.a.toNat).toNat + 512 ≤ benchSize)
    (hp : benchPoisoned s (slotCore t) (sReg old f.a.toNat).toNat 512 = false) : vLoad s t .vMld f old old =
    .ok (setMReg old (f.d.toNat % 8) (BitVec.ofNat 4096 (benchNat s (slotCore t) (sReg old f.a.toNat).toNat 512))) := by
  rw [vMld_inside hvl h, if_neg (Bool.eq_false_iff.1 hp)]

end

/-! ### What the registers hold -/

/-- Element i as its bytes in the bench hold it, and what lies above it in them. -/
def loadedElem (s : State) (c : Core) (op : SlotOp) (f : EFields) (old : SlotState) (i : Nat) : Nat :=
  benchNat s c (vAddr op f old i).1 (elemBytes (slotType old).width) / 2 ^ (vAddr op f old i).2

theorem groupHolds_loadGroup (c : Core) (k : Nat) : Claims.GroupHolds old (loadGroup s c op f old old k) f f.d.toNat (slotType old).width k
    (loadedElem s c op f old) :=
  groupHolds_writeGroup (slotType_width old) (fun _ _ _ => rfl) fun i _ ha => by
    rw [if_pos ha]
    exact Nat.mod_mod ..

theorem othersKept_loadGroup (c : Core) (k : Nat) :
    Claims.OthersKept old (loadGroup s c op f old old k) f.d.toNat (slotType old).width k :=
  othersKept_writeGroup old f f.d.toNat (width_pos _) k _

end
end

/-! ### The load as a command -/

section
variable {op : SlotOp} {t : Slot} {f : EFields} {sigs : List Signal} {s : State} (hop : op ∈ SlotOp.vMld :: groupLoads)
include hop

theorem vRun_load_error {code : BitVec 16} (h : vLoad (engView s (slotCore t) .vector) t op f (s.slot t) (s.slot t) = .error code) :
    vRun op t f sigs s = stopAt t code 2 s := by
  simp only [groupLoads, List.mem_cons, List.not_mem_nil, or_false] at hop
  rcases hop with rfl | rfl | rfl | rfl | rfl
  all_goals
    unfold vRun
    dsimp only
    rw [h]

theorem vRun_load_ok {y : SlotState} (h : vLoad (engView s (slotCore t) .vector) t op f (s.slot t) (s.slot t) = .ok y) :
    vRun op t f sigs s = vIssue t sigs (vUse op f (s.slot t)).writes y s := by
  simp only [groupLoads, List.mem_cons, List.not_mem_nil, or_false] at hop
  rcases hop with rfl | rfl | rfl | rfl | rfl
  all_goals
    unfold vRun
    dsimp only
    rw [h]

end

end Sys2Proof.Machine

end

section

/-! SUPPORT. The stores of the V slot (R51, R231): what each element leaves in the bench, the runs of bytes that a store holds back, and
obligation O19. -/

namespace Sys2Proof.Machine

open Sys2Proof

/-! ### Bytes and runs of bytes -/

theorem getElem_leBytes (n : Nat) : ∀ (v i : Nat) (h : i < (leBytes n v).length), (leBytes n v)[i] = BitVec.ofNat 8 (v / 256 ^ i) := by
  induction n with
  | zero => exact fun _ _ h => absurd h (Nat.not_lt_zero _)
  | succ n ih =>
    intro v i h
    cases i with
    | zero => simp [leBytes]
    | succ i => simp [leBytes, ih, Nat.div_div_eq_div_mul, Nat.pow_succ']

theorem getElem?_readBytes (b : Bank) (n : Nat) : ∀ a i, (readBytes b a n)[i]? = if i < n then some (readByte b (a + i)) else none := by
  induction n with
  | zero => exact fun _ _ => rfl
  | succ n ih =>
    intro a i
    cases i with
    | zero => rfl
    | succ i =>
      rw [readBytes, List.getElem?_cons_succ, ih, Nat.add_right_comm, Nat.add_assoc]
      simp only [Nat.succ_lt_succ_iff]

theorem readBytes_append (b : Bank) (n m : Nat) : ∀ a, readBytes b a n ++ readBytes b (a + n) m = readBytes b a (n + m) := by
  induction n with
  | zero => exact fun a => by rw [Nat.zero_add]; rfl
  | succ n ih =>
    intro a
    rw [Nat.succ_add, readBytes, readBytes, List.cons_append, show a + (n + 1) = a + 1 + n by omega, ih]

/-- A held write lies in the bench, carries no poison, and holds its bytes as bank b has them. -/
structure RunOf (b : Bank) (m : MemWrite) : Prop where
  space : m.space = .bench
  poison : m.poison = false
  data : m.data = readBytes b m.addr m.data.length

/-- Byte a lies in a held write. -/
def InRun (m : MemWrite) (a : Nat) : Prop := m.addr ≤ a ∧ a < m.addr + m.data.length

/-- A held write put before joined ones. -/
def putRun (w : MemWrite) : List MemWrite → List MemWrite
  | [] => [w]
  | v :: r =>
    if v.addr ≤ w.addr ∧ w.addr + w.data.length ≤ v.addr + v.data.length then v :: r
    else if w.addr + w.data.length = v.addr then { w with data := w.data ++ v.data } :: r else w :: v :: r

theorem joinRuns_cons (w : MemWrite) (t : List MemWrite) : joinRuns (w :: t) = putRun w (joinRuns t) := by
  rw [joinRuns]
  cases joinRuns t <;> rfl

section
variable {b : Bank} {w : MemWrite} {l : List MemWrite}

theorem runOf_putRun (hw : RunOf b w) (hl : ∀ m ∈ l, RunOf b m) : ∀ m ∈ putRun w l, RunOf b m := by
  cases l with
  | nil => exact fun m hm => List.mem_singleton.1 hm ▸ hw
  | cons v r =>
    obtain ⟨hv, hr⟩ := List.forall_mem_cons.1 hl
    rw [putRun]
    split
    · exact hl
    · split
      next hj =>
        refine List.forall_mem_cons.2 ⟨⟨hw.space, hw.poison, ?_⟩, hr⟩
        dsimp only
        rw [List.length_append, ← readBytes_append, ← hw.data, hj, ← hv.data]
      · exact List.forall_mem_cons.2 ⟨hw, hl⟩

theorem inRun_putRun (a : Nat) : (∃ m ∈ putRun w l, InRun m a) ↔ InRun w a ∨ ∃ m ∈ l, InRun m a := by
  cases l with
  | nil => simp [putRun]
  | cons v r =>
    rw [putRun]
    simp only [List.exists_mem_cons_iff]
    split
    next h =>
      have hin : InRun w a → InRun v a := by
        unfold InRun
        omega
      rw [List.exists_mem_cons_iff]
      exact ⟨.inr, fun hx => hx.elim (fun hw => .inl (hin hw)) id⟩
    · split
      next hj =>
        have hin : InRun { w with data := w.data ++ v.data } a ↔ InRun w a ∨ InRun v a := by
          unfold InRun
          dsimp only
          rw [List.length_append]
          omega
        rw [List.exists_mem_cons_iff, hin, or_assoc]
      · rw [List.exists_mem_cons_iff, List.exists_mem_cons_iff]

end

theorem runOf_joinRuns {b : Bank} {l : List MemWrite} (h : ∀ m ∈ l, RunOf b m) : ∀ m ∈ joinRuns l, RunOf b m := by
  induction l with
  | nil => exact h
  | cons w t ih =>
    obtain ⟨hw, ht⟩ := List.forall_mem_cons.1 h
    rw [joinRuns_cons]
    exact runOf_putRun hw (ih ht)

/-- Joined runs cover the bytes that they covered apart. -/
theorem inRun_joinRuns (a : Nat) (l : List MemWrite) : (∃ m ∈ joinRuns l, InRun m a) ↔ ∃ m ∈ l, InRun m a := by
  induction l with
  | nil => exact Iff.rfl
  | cons w t ih => rw [joinRuns_cons, inRun_putRun, ih, List.exists_mem_cons_iff]

/-- The byte that a run holds at a. -/
theorem RunOf.getElem?_data {b : Bank} {m : MemWrite} (h : RunOf b m) {a : Nat} {x : Byte} :
    m.addr ≤ a ∧ m.data[a - m.addr]? = some x ↔ InRun m a ∧ x = readByte b a := by
  unfold InRun
  refine ⟨fun ⟨hle, hx⟩ => ?_, fun ⟨⟨hle, hlt⟩, hx⟩ => ⟨hle, ?_⟩⟩
  · rw [h.data, getElem?_readBytes, Nat.add_sub_cancel' hle] at hx
    split at hx
    next hlt => exact ⟨⟨hle, by omega⟩, (Option.some.inj hx).symm⟩
    · cases hx
  · rw [h.data, getElem?_readBytes, Nat.add_sub_cancel' hle, if_pos (by omega), hx]

/-! ### Elements in the bench -/

section
variable {op : SlotOp} {f : EFields} {old : SlotState} {c : Core}

/-- Elements narrower than a byte divide it. -/
theorem narrow_dvd_byte (h : (slotType old).width < 8) : (slotType old).width ∣ 8 :=
  width_dvd_of_le (slotType_width old) (by decide) h.le

/-- An element begins at bit 0 of its first byte, or follows the stream (R51, R231). -/
theorem vAddr_bit (op : SlotOp) (f : EFields) (old : SlotState) (i : Nat) :
    (vAddr op f old i).2 = 0 ∨ (vAddr op f old i).2 = i * (slotType old).width % 8 := by
  unfold vAddr
  dsimp only
  split
  · exact .inl rfl
  · exact .inl rfl
  · exact .inl rfl
  · exact .inl rfl
  · exact .inr rfl

theorem vAddr_bit_dvd (h : (slotType old).width ∣ 8) (i : Nat) : (slotType old).width ∣ (vAddr op f old i).2 := by
  rcases vAddr_bit op f old i with hb | hb
  · exact hb ▸ dvd_zero _
  · exact hb ▸ (Nat.dvd_mod_iff h).2 (Nat.dvd_mul_left ..)

theorem vAddr_bit_le (h : (slotType old).width ∣ 8) (i : Nat) : (vAddr op f old i).2 + (slotType old).width ≤ 8 := by
  rcases vAddr_bit op f old i with hb | hb
  · rw [hb, Nat.zero_add]
    exact Nat.le_of_dvd (by decide) h
  · exact hb ▸ elem_in_unit (by decide) h i

theorem vAddr_bit_wide (h : 8 ∣ (slotType old).width) (i : Nat) : (vAddr op f old i).2 = 0 := by
  rcases vAddr_bit op f old i with hb | hb
  · exact hb
  · exact hb.trans (Nat.mod_eq_zero_of_dvd (h.mul_left i))

theorem aligned_of_noFault {i : Nat} (h : vElemFault op f old i = false) : (vAddr op f old i).1 % elemBytes (slotType old).width = 0 := by
  unfold vElemFault at h
  dsimp only at h
  rw [Bool.or_eq_false_iff, Bool.not_eq_false'] at h
  exact beq_iff_eq.1 h.2

/-- The bytes of element i of a store. -/
def elemData (op : SlotOp) (f : EFields) (old : SlotState) (c : Core) (s : State) (i : Nat) : List Byte :=
  let w := (slotType old).width
  let v := vElem old f.d.toNat w i
  if w < 8 then leBytes 1 (putField (benchNat s c (vAddr op f old i).1 1) (vAddr op f old i).2 w v) else leBytes (w / 8) v

theorem storeElem_bench (s : State) (i : Nat) : (storeElem op f old c s i).mem.bench =
    bankWrite s.mem.bench (benchAddr c (vAddr op f old i).1) (elemData op f old c s i) := rfl

theorem elemBytes_narrow {w : Nat} (h : w < 8) : elemBytes w = 1 := by
  unfold elemBytes
  omega

theorem elemBytes_wide {w : Nat} (h : ¬ w < 8) : elemBytes w = w / 8 := by
  unfold elemBytes
  omega

theorem length_elemData (s : State) (i : Nat) : (elemData op f old c s i).length = elemBytes (slotType old).width := by
  unfold elemData
  dsimp only
  split
  next h => rw [leBytes_length, elemBytes_narrow h]
  next h => rw [leBytes_length, elemBytes_wide h]

theorem readByte_storeElem_outside {s : State} {i a : Nat}
    (h : a < benchAddr c (vAddr op f old i).1 ∨ benchAddr c (vAddr op f old i).1 + elemBytes (slotType old).width ≤ a) :
    readByte (storeElem op f old c s i).mem.bench a = readByte s.mem.bench a := by
  rw [storeElem_bench]
  exact readByte_bankWrite_outside _ _ _ _ _ (by rwa [length_elemData])

theorem readByte_storeElem_wide (h : ¬ (slotType old).width < 8) (s : State) (i : Nat) {n : Nat}
    (hn : n < elemBytes (slotType old).width) :
    readByte (storeElem op f old c s i).mem.bench (benchAddr c (vAddr op f old i).1 + n) =
      BitVec.ofNat 8 (vElem old f.d.toNat (slotType old).width i / 256 ^ n) := by
  have hd : elemData op f old c s i = leBytes ((slotType old).width / 8) (vElem old f.d.toNat (slotType old).width i) := if_neg h
  rw [storeElem_bench, readByte_bankWrite_inside _ _ _ _ _ (by rwa [length_elemData])]
  simp only [hd]
  exact getElem_leBytes ..

/-- An element narrower than a byte is merged into it. -/
theorem readByte_storeElem_narrow (h : (slotType old).width < 8) (s : State) (i : Nat) :
    (readByte (storeElem op f old c s i).mem.bench (benchAddr c (vAddr op f old i).1)).toNat =
      putField (readByte s.mem.bench (benchAddr c (vAddr op f old i).1)).toNat (vAddr op f old i).2 (slotType old).width
        (vElem old f.d.toNat (slotType old).width i) := by
  have hd : elemData op f old c s i = leBytes 1 (putField (benchNat s c (vAddr op f old i).1 1) (vAddr op f old i).2 (slotType old).width
      (vElem old f.d.toNat (slotType old).width i)) := if_pos h
  have hb : benchNat s c (vAddr op f old i).1 1 = (readByte s.mem.bench (benchAddr c (vAddr op f old i).1)).toNat := rfl
  have hin := readByte_bankWrite_inside s.mem.bench (benchAddr c (vAddr op f old i).1) (elemData op f old c s i) false 0
    (by rw [length_elemData, elemBytes_narrow h]; decide)
  rw [Nat.add_zero] at hin
  rw [storeElem_bench, hin]
  simp only [hd, getElem_leBytes, Nat.pow_zero, Nat.div_one, hb]
  exact toNat_ofNat_putField (vAddr_bit_le (narrow_dvd_byte h) i) _ _

/-- The bench holds element i of a store. -/
def ElemStored (op : SlotOp) (f : EFields) (old : SlotState) (c : Core) (i : Nat) (s : State) : Prop :=
  ∀ n, n < elemBytes (slotType old).width →
    let x := readByte s.mem.bench (benchAddr c (vAddr op f old i).1 + n)
    if (slotType old).width < 8 then
      x.toNat / 2 ^ (vAddr op f old i).2 % 2 ^ (slotType old).width = vElem old f.d.toNat (slotType old).width i
    else x.toNat = vElem old f.d.toNat (slotType old).width i / 256 ^ n % 256

theorem elemStored_narrow (h : (slotType old).width < 8) (i : Nat) (s : State) : ElemStored op f old c i s ↔
    fld (readByte s.mem.bench (benchAddr c (vAddr op f old i).1)).toNat (vAddr op f old i).2 (slotType old).width =
      vElem old f.d.toNat (slotType old).width i := by
  unfold ElemStored
  dsimp only
  rw [elemBytes_narrow h]
  simp only [if_pos h, Nat.lt_one_iff, forall_eq, Nat.add_zero]
  rfl

theorem elemStored_wide (h : ¬ (slotType old).width < 8) (i : Nat) (s : State) : ElemStored op f old c i s ↔
    ∀ n, n < elemBytes (slotType old).width → (readByte s.mem.bench (benchAddr c (vAddr op f old i).1 + n)).toNat =
      vElem old f.d.toNat (slotType old).width i / 256 ^ n % 256 := by
  unfold ElemStored
  dsimp only
  simp only [if_neg h]

theorem elemStored_same (i : Nat) (s : State) : ElemStored op f old c i (storeElem op f old c s i) := by
  by_cases h : (slotType old).width < 8
  · rw [elemStored_narrow h, readByte_storeElem_narrow h, fld_putField_same, Nat.mod_eq_of_lt (vElem_lt ..)]
  · rw [elemStored_wide h]
    intro n hn
    rw [readByte_storeElem_wide h s i hn, BitVec.toNat_ofNat]

/-- Elements that begin at different bytes share none. -/
theorem elem_bytes_apart {i j : Nat} (hi : vElemFault op f old i = false) (hj : vElemFault op f old j = false)
    (h : (vAddr op f old j).1 ≠ (vAddr op f old i).1) {n : Nat} (hn : n < elemBytes (slotType old).width) :
    benchAddr c (vAddr op f old i).1 + n < benchAddr c (vAddr op f old j).1 ∨
      benchAddr c (vAddr op f old j).1 + elemBytes (slotType old).width ≤ benchAddr c (vAddr op f old i).1 + n := by
  obtain ⟨p, hp⟩ := Nat.dvd_of_mod_eq_zero (aligned_of_noFault hi)
  obtain ⟨q, hq⟩ := Nat.dvd_of_mod_eq_zero (aligned_of_noFault hj)
  unfold benchAddr
  rw [hp, hq] at h ⊢
  rcases Nat.lt_or_gt_of_ne fun hpq : q = p => h (by rw [hpq]) with hl | hl
  · have hm := Nat.mul_le_mul_left (elemBytes (slotType old).width) (Nat.succ_le_of_lt hl)
    rw [Nat.mul_succ] at hm
    omega
  · have hm := Nat.mul_le_mul_left (elemBytes (slotType old).width) (Nat.succ_le_of_lt hl)
    rw [Nat.mul_succ] at hm
    omega

/-- Elements of one byte at different bits of it share none. -/
theorem elem_bits_apart (h : (slotType old).width < 8) {i j : Nat} (hb : (vAddr op f old j).2 ≠ (vAddr op f old i).2) :
    (vAddr op f old j).2 + (slotType old).width ≤ (vAddr op f old i).2 ∨
      (vAddr op f old i).2 + (slotType old).width ≤ (vAddr op f old j).2 := by
  obtain ⟨p, hp⟩ := vAddr_bit_dvd (op := op) (f := f) (narrow_dvd_byte h) i
  obtain ⟨q, hq⟩ := vAddr_bit_dvd (op := op) (f := f) (narrow_dvd_byte h) j
  rw [hp, hq] at hb ⊢
  rcases Nat.lt_or_gt_of_ne fun hpq : q = p => hb (by rw [hpq]) with hl | hl
  · exact .inl (Nat.mul_succ .. ▸ Nat.mul_le_mul_left _ (Nat.succ_le_of_lt hl))
  · exact .inr (Nat.mul_succ .. ▸ Nat.mul_le_mul_left _ (Nat.succ_le_of_lt hl))

/-- A later element at another place leaves what the store has put there. -/
theorem elemStored_other {i j : Nat} (hi : vElemFault op f old i = false) (hj : vElemFault op f old j = false)
    (hne : vAddr op f old j ≠ vAddr op f old i) {s : State} (h : ElemStored op f old c i s) :
    ElemStored op f old c i (storeElem op f old c s j) := by
  by_cases ha : (vAddr op f old j).1 = (vAddr op f old i).1
  · have hb : (vAddr op f old j).2 ≠ (vAddr op f old i).2 := fun hb => hne (Prod.ext ha hb)
    by_cases hw : (slotType old).width < 8
    · rw [elemStored_narrow hw] at h ⊢
      rw [← ha, readByte_storeElem_narrow hw, fld_putField_apart (elem_bits_apart hw hb), ha, h]
    · have h8 : 8 ∣ (slotType old).width := width_dvd_of_le (by decide) (slotType_width old) (Nat.le_of_not_lt hw)
      exact absurd ((vAddr_bit_wide h8 j).trans (vAddr_bit_wide h8 i).symm) hb
  · intro n hn
    dsimp only
    rw [readByte_storeElem_outside (elem_bytes_apart hi hj ha hn)]
    exact h n hn

/-- A store of elements in ascending order leaves an element that no later one replaces. -/
theorem elemStored_foldl {i : Nat} (hi : vElemFault op f old i = false) (l : List Nat) : ∀ s : State, l.Pairwise (· < ·) →
    (∀ j ∈ l, vElemFault op f old j = false) → (∀ j ∈ l, i < j → vAddr op f old j ≠ vAddr op f old i) →
    i ∈ l ∨ (ElemStored op f old c i s ∧ ∀ j ∈ l, i < j) → ElemStored op f old c i (l.foldl (storeElem op f old c) s) := by
  induction l with
  | nil => exact fun s _ _ _ h => (h.resolve_left List.not_mem_nil).1
  | cons p t ih =>
    intro s hasc hfine hlast h
    obtain ⟨hp, ht⟩ := List.pairwise_cons.1 hasc
    refine ih _ ht (fun j hj => hfine j (List.mem_cons_of_mem _ hj)) (fun j hj => hlast j (List.mem_cons_of_mem _ hj)) ?_
    rcases h with h | ⟨h, hbeyond⟩
    · rcases List.mem_cons.1 h with rfl | h
      · exact .inr ⟨elemStored_same i s, hp⟩
      · exact .inl h
    · refine .inr ⟨elemStored_other hi (hfine p List.mem_cons_self) (hlast p List.mem_cons_self (hbeyond p List.mem_cons_self)) h,
        fun j hj => hbeyond j (List.mem_cons_of_mem _ hj)⟩

/-! ### What a store answers -/

/-- The bench after the elements of a store. -/
def storedBank (s : State) (c : Core) (op : SlotOp) (f : EFields) (old : SlotState) : Bank :=
  ((activeElems f old).foldl (storeElem op f old c) s).mem.bench

/-- The bytes of element i, as the store leaves them. -/
def elemRun (s : State) (c : Core) (op : SlotOp) (f : EFields) (old : SlotState) (i : Nat) : MemWrite :=
  let a := benchAddr c (vAddr op f old i).1
  { space := .bench, addr := a, data := readBytes (storedBank s c op f old) a (elemBytes (slotType old).width), poison := false }

theorem storeWrites_eq (s : State) : storeWrites s c op f old = joinRuns ((activeElems f old).map (elemRun s c op f old)) := rfl

theorem inRun_elemRun (s : State) (i a : Nat) : InRun (elemRun s c op f old i) a ↔
    benchAddr c (vAddr op f old i).1 ≤ a ∧ a < benchAddr c (vAddr op f old i).1 + elemBytes (slotType old).width := by
  unfold InRun elemRun
  dsimp only
  rw [readBytes_length]

theorem runOf_storeWrites (s : State) : ∀ m ∈ storeWrites s c op f old, RunOf (storedBank s c op f old) m := by
  rw [storeWrites_eq]
  refine runOf_joinRuns fun m hm => ?_
  obtain ⟨i, -, rfl⟩ := List.mem_map.1 hm
  refine ⟨rfl, rfl, ?_⟩
  unfold elemRun
  dsimp only
  rw [readBytes_length]

/-- A store's writes hold the bytes of its active elements, and no other. -/
theorem held_iff (s : State) (a : Nat) (x : Byte) :
    (∃ m ∈ storeWrites s c op f old, m.addr ≤ a ∧ m.data[a - m.addr]? = some x) ↔
      (∃ i, i < old.vl.toNat ∧ active old f i = true ∧ benchAddr c (vAddr op f old i).1 ≤ a ∧
        a < benchAddr c (vAddr op f old i).1 + elemBytes (slotType old).width) ∧ x = readByte (storedBank s c op f old) a := by
  have hrun : ∀ m ∈ storeWrites s c op f old, (m.addr ≤ a ∧ m.data[a - m.addr]? = some x ↔
      InRun m a ∧ x = readByte (storedBank s c op f old) a) := fun m hm => (runOf_storeWrites s m hm).getElem?_data
  have hcover : (∃ m ∈ storeWrites s c op f old, InRun m a) ↔ ∃ i, i < old.vl.toNat ∧ active old f i = true ∧
      benchAddr c (vAddr op f old i).1 ≤ a ∧ a < benchAddr c (vAddr op f old i).1 + elemBytes (slotType old).width := by
    rw [storeWrites_eq, inRun_joinRuns]
    simp only [List.mem_map, exists_exists_and_eq_and, inRun_elemRun]
    simp only [mem_activeElems, and_assoc]
  rw [← hcover]
  refine ⟨fun ⟨m, hm, h⟩ => ?_, fun ⟨⟨m, hm, h⟩, hx⟩ => ⟨m, hm, (hrun m hm).2 ⟨h, hx⟩⟩⟩
  obtain ⟨hin, hx⟩ := (hrun m hm).1 h
  exact ⟨⟨m, hm, hin⟩, hx⟩

/-- The stores of element groups. -/
def groupStores : List SlotOp := [.vSt, .vSts, .vStx]

section
variable {s : State} {t : Slot} (hop : op ∈ groupStores)
include hop

theorem vStore_eq : vStore s t op f old = if (activeElems f old).any (vElemFault op f old) then .error evAccessFault
    else .ok (storeWrites s (slotCore t) op f old) := by
  simp only [groupStores, List.mem_cons, List.not_mem_nil, or_false] at hop
  rcases hop with rfl | rfl | rfl <;> rfl

theorem vStore_faults (h : ¬ NoFault op f old old.vl.toNat) : vStore s t op f old = .error evAccessFault := by
  rw [vStore_eq hop, if_pos]
  rw [← Bool.not_eq_false, any_activeElems_eq_false]
  exact h

theorem vStore_noFault (h : NoFault op f old old.vl.toNat) : vStore s t op f old = .ok (storeWrites s (slotCore t) op f old) := by
  rw [vStore_eq hop, if_neg]
  rw [Bool.not_eq_true, any_activeElems_eq_false]
  exact h

end

theorem setMReg_stopped (x : SlotState) (i : Nat) (v : MReg) : (setMReg x i v).stopped = x.stopped := rfl

section
variable {s : State} {t : Slot}

theorem vMst_none (h : old.vl.toNat = 0) : vStore s t .vMst f old = .ok [] := by
  have h0 : old.vl = 0 := BitVec.eq_of_toNat_eq h
  unfold vStore
  dsimp only
  rw [if_pos h0]

variable (hvl : old.vl.toNat ≠ 0)
include hvl

theorem vMst_outside (h : benchSize < (sReg old f.a.toNat).toNat + 512) : vStore s t .vMst f old = .error evAccessFault := by
  have hp : vPlace (sReg old f.a.toNat).toNat 512 = none := if_neg (Nat.not_le.2 h)
  unfold vStore
  dsimp only
  rw [if_neg fun h0 => hvl (congrArg BitVec.toNat h0), hp]

theorem vMst_inside (h : (sReg old f.a.toNat).toNat + 512 ≤ benchSize) : vStore s t .vMst f old =
    .ok [{ space := .bench, addr := benchAddr (slotCore t) (sReg old f.a.toNat).toNat
           data := leBytes 512 (mReg old (f.d.toNat % 8)).toNat, poison := false }] := by
  have hp : vPlace (sReg old f.a.toNat).toNat 512 = some (sReg old f.a.toNat).toNat := if_pos h
  unfold vStore
  dsimp only
  rw [if_neg fun h0 => hvl (congrArg BitVec.toNat h0), hp]

end

/-- The byte of element i that a store holds, where no later element replaces it. -/
theorem stored_byte {s : State} (hfine : NoFault op f old old.vl.toNat) {i : Nat} (hi : i < old.vl.toNat) (ha : active old f i = true)
    (hlast : ∀ j, i < j → j < old.vl.toNat → active old f j = true → vAddr op f old j ≠ vAddr op f old i) {n : Nat}
    (hn : n < elemBytes (slotType old).width) :
    let x := readByte (storedBank s c op f old) (benchAddr c (vAddr op f old i).1 + n)
    if (slotType old).width < 8 then
      x.toNat / 2 ^ (vAddr op f old i).2 % 2 ^ (slotType old).width = vElem old f.d.toNat (slotType old).width i
    else x.toNat = vElem old f.d.toNat (slotType old).width i / 256 ^ n % 256 := by
  have hmem := fun {j} => mem_activeElems (f := f) (old := old) (i := j)
  exact elemStored_foldl (hfine i hi ha) (activeElems f old) s activeElems_ascend (fun j hj => hfine j (hmem.1 hj).1 (hmem.1 hj).2)
    (fun j hj hij => hlast j hij (hmem.1 hj).1 (hmem.1 hj).2) (.inl (hmem.2 ⟨hi, ha⟩)) n hn

end

/-! ### Loads and stores as commands -/

section
variable {op : SlotOp} {t : Slot} {f : EFields} {sigs : List Signal} {s : State} (hop : op ∈ SlotOp.vMst :: groupStores)
include hop

theorem vRun_store_error {code : BitVec 16} (h : vStore (engView s (slotCore t) .vector) t op f (s.slot t) = .error code) :
    vRun op t f sigs s = stopAt t code 2 s := by
  simp only [groupStores, List.mem_cons, List.not_mem_nil, or_false] at hop
  rcases hop with rfl | rfl | rfl | rfl
  all_goals
    unfold vRun
    dsimp only
    rw [h]

theorem vRun_store_ok {ws : List MemWrite} (h : vStore (engView s (slotCore t) .vector) t op f (s.slot t) = .ok ws) :
    vRun op t f sigs s = enqueue s (slotCore t) .vector { mkCmd s t .vector .immediate sigs with writes := ws } := by
  simp only [groupStores, List.mem_cons, List.not_mem_nil, or_false] at hop
  rcases hop with rfl | rfl | rfl | rfl
  all_goals
    unfold vRun
    dsimp only
    rw [h]

end

namespace VCommand

variable {t : Slot} {f : EFields} {op : SlotOp} {n : Nat} {i : Instr} (hc : VCommand t f op n i) {s : State} {sigs : List Signal}
  (hs : sigOf (s.slot t) t f = some sigs) (hi : Claims.issuesAlone s t 1 (eWord n f))
include hc hs hi

theorem load_completes (hop : op ∈ SlotOp.vMld :: groupLoads) {y : SlotState}
    (h : vLoad (engView s (slotCore t) .vector) t op f (s.slot t) (s.slot t) = .ok y) (hy : y.stopped = (s.slot t).stopped) :
    exec i s = .next (Claims.vDone s t sigs op f y) := hc.completes hs hi (vRun_load_ok hop h) hy

theorem load_stops (hop : op ∈ SlotOp.vMld :: groupLoads) {code : BitVec 16}
    (h : vLoad (engView s (slotCore t) .vector) t op f (s.slot t) (s.slot t) = .error code) :
    exec i s = .next (Claims.stoppedIn s t code 2) := stops_in (hc.lands hs hi) (vRun_load_error hop h)

theorem store_completes (hop : op ∈ SlotOp.vMst :: groupStores) {ws : List MemWrite}
    (h : vStore (engView s (slotCore t) .vector) t op f (s.slot t) = .ok ws) : exec i s =
      .next (Claims.advanced s t (enqueue s (slotCore t) .vector { mkCmd s t .vector .immediate sigs with writes := ws })) :=
  goes_on hi (hc.lands hs hi) (vRun_store_ok hop h) (noNewStop_enqueue _ _ _ _)

theorem store_stops (hop : op ∈ SlotOp.vMst :: groupStores) {code : BitVec 16}
    (h : vStore (engView s (slotCore t) .vector) t op f (s.slot t) = .error code) :
    exec i s = .next (Claims.stoppedIn s t code 2) := stops_in (hc.lands hs hi) (vRun_store_error hop h)

end VCommand

section
variable (t : Slot) (f : EFields)

theorem vCommand_vLdff : VCommand t f .vLdff 0x43 (.vLdff t f Claims.noOthers) :=
  ⟨fun _ => rfl, rfl, by decide, SlotOp.noConfusion, SlotOp.noConfusion⟩

theorem vCommand_vMld : VCommand t f .vMld 0x44 (.vMld t f Claims.noOthers) :=
  ⟨fun _ => rfl, rfl, by decide, SlotOp.noConfusion, SlotOp.noConfusion⟩

theorem vCommand_vMst : VCommand t f .vMst 0x4C (.vMst t f Claims.noOthers) :=
  ⟨fun _ => rfl, rfl, by decide, SlotOp.noConfusion, SlotOp.noConfusion⟩

variable {t f} {e : SlotOp × Nat × Instr}

theorem groupLoad_commands (he : e ∈ [(SlotOp.vLd, 0x40, Instr.vLd t f Claims.noOthers), (.vLds, 0x41, .vLds t f Claims.noOthers),
    (.vLdx, 0x42, .vLdx t f Claims.noOthers), (.vLdff, 0x43, .vLdff t f Claims.noOthers)]) :
    VCommand t f e.1 e.2.1 e.2.2 ∧ e.1 ∈ groupLoads := by
  simp only [List.mem_cons, List.not_mem_nil, or_false] at he
  rcases he with rfl | rfl | rfl | rfl <;>
    exact ⟨⟨fun _ => rfl, rfl, of_decide_eq_true rfl, SlotOp.noConfusion, SlotOp.noConfusion⟩, of_decide_eq_true rfl⟩

theorem groupStore_commands (he : e ∈ [(SlotOp.vSt, 0x48, Instr.vSt t f Claims.noOthers), (.vSts, 0x49, .vSts t f Claims.noOthers),
    (.vStx, 0x4A, .vStx t f Claims.noOthers)]) : VCommand t f e.1 e.2.1 e.2.2 ∧ e.1 ∈ groupStores := by
  simp only [List.mem_cons, List.not_mem_nil, or_false] at he
  rcases he with rfl | rfl | rfl <;>
    exact ⟨⟨fun _ => rfl, rfl, of_decide_eq_true rfl, SlotOp.noConfusion, SlotOp.noConfusion⟩, of_decide_eq_true rfl⟩

end

/-- Settles O19: each access answers as its own lemma of `vLoad` or `vStore` says, and the bundle carries that to a command in the chain's
queue or to a stop. -/
theorem vectorMemoryAccesses : Obligations.VectorMemoryAccesses := by
  unfold Obligations.VectorMemoryAccesses
  intro s t f sigs hs old c v w vl d a fine whole value stored fault poison holds
  refine ⟨fun e he hi => ?loads, fun hi k hk ha hf hbelow => ?ldff, fun hi => ?mld, fun e he hi => ?stores, fun hi => ?mst⟩
  case loads =>
    obtain ⟨hc, hl⟩ := groupLoad_commands he
    have hop : e.1 ∈ SlotOp.vMld :: groupLoads := List.mem_cons_of_mem _ hl
    refine ⟨fun hfine hwhole => ?_, fun hfine hwhole => ?_, fun hn hfine => ?_⟩
    · have hch : ChangesVectors old (loadGroup v c e.1 f old old vl) := changesVectors_writeGroup ..
      exact ⟨loadGroup v c e.1 f old old vl, hc.load_completes hs hi hop (vLoad_whole hl hfine hwhole) hch.stopped,
        writeGroup_changes_vregs .., groupHolds_loadGroup c vl, othersKept_loadGroup c vl⟩
    · exact hc.load_stops hs hi hop (vLoad_poisoned hl hfine hwhole)
    · exact hc.load_stops hs hi hop (vLoad_faults hl hn hfine)
  case ldff =>
    have hc := vCommand_vLdff t f
    have hfind := find?_fault_some hk ha hf hbelow
    have hop : SlotOp.vLdff ∈ SlotOp.vMld :: groupLoads := by decide
    refine ⟨fun h0 => hc.load_stops hs hi hop (vLdff_faults hfind h0),
      fun h0 hwhole => hc.load_stops hs hi hop (vLdff_poisoned hfind h0 hk.le hwhole), fun h0 hwhole => ?_⟩
    have hch : ChangesVectors old (loadGroup v c .vLdff f old old k) := changesVectors_writeGroup ..
    have hy : loadGroup v c .vLdff f old old k = { old with vregs := (loadGroup v c .vLdff f old old k).vregs } :=
      writeGroup_changes_vregs ..
    refine ⟨{ loadGroup v c .vLdff f old old k with vl := BitVec.ofNat 13 k },
      hc.load_completes hs hi hop (vLdff_whole hfind h0 hk.le hwhole) hch.stopped, ?_,
      groupHolds_of_vReg (width_pos _) (groupHolds_loadGroup c k) fun _ _ _ => rfl, othersKept_loadGroup (op := .vLdff) c k⟩
    conv_lhs => rw [hy]
  case mld =>
    have hc := vCommand_vMld t f
    have hop : SlotOp.vMld ∈ SlotOp.vMld :: groupLoads := List.mem_cons_self
    refine ⟨fun h0 => ?_, fun h0 hin hp => ?_, fun h0 hin hp => ?_, fun h0 hout => ?_⟩
    · exact hc.load_completes hs hi hop (vMld_none h0) rfl
    · exact hc.load_completes hs hi hop (vMld_whole h0 hin hp) (setMReg_stopped ..)
    · exact hc.load_stops hs hi hop (vMld_poisoned h0 hin hp)
    · exact hc.load_stops hs hi hop (vMld_outside h0 hout)
  case stores =>
    obtain ⟨hc, hl⟩ := groupStore_commands he
    have hop : e.1 ∈ SlotOp.vMst :: groupStores := List.mem_cons_of_mem _ hl
    refine ⟨fun hfine => ⟨storeWrites v c e.1 f old, hc.store_completes hs hi hop (vStore_noFault hl hfine), fun m hm => ?kind,
      fun i hi ha hlast n hn => ?bytes, fun b x hx => ?covered⟩, fun hfine => hc.store_stops hs hi hop (vStore_faults hl hfine)⟩
    case kind => exact ⟨(runOf_storeWrites v m hm).space, (runOf_storeWrites v m hm).poison⟩
    case bytes =>
      have hb : benchAddr c ((vAddr e.1 f old i).1 + n) = benchAddr c (vAddr e.1 f old i).1 + n := (Nat.add_assoc ..).symm
      refine ⟨_, (held_iff v _ _).2 ⟨⟨i, hi, ha, ?_, ?_⟩, rfl⟩, ?_⟩
      · rw [hb]; exact Nat.le_add_right ..
      · rw [hb]; exact Nat.add_lt_add_left hn _
      · rw [hb]
        exact stored_byte hfine hi ha hlast hn
    case covered => exact ((held_iff v b x).1 hx).1
  case mst =>
    have hc := vCommand_vMst t f
    have hop : SlotOp.vMst ∈ SlotOp.vMst :: groupStores := List.mem_cons_self
    exact ⟨fun h0 => hc.store_completes hs hi hop (vMst_none h0), fun h0 hin => hc.store_completes hs hi hop (vMst_inside h0 hin),
      fun h0 hout => hc.store_stops hs hi hop (vMst_outside h0 hout)⟩

end Sys2Proof.Machine

end

section

/-! SUPPORT. The S slot's loads, stores and AMO, each in a bundle of its own (R112, R223, R230, R252, R293), and obligation O13. -/

namespace Sys2Proof.Machine

open Sys2Proof

/-! ### What an S operation leaves of its slot -/

/-- An S operation that ends no part and goes on to the next bundle lands its effect. -/
theorem issueS_lands {op : Nat} (hop : op < 256) {f : SFields} {m : SlotOp} (hm : sOpOf op = some m) (hn : m ≠ .stop) {s : State}
    {t : Slot} (hpc : nextPc m (s.slot t) f = Claims.nextBundle s t) (h : Claims.issuesAlone s t 0 (sWord op f)) :
    issueS op t f Claims.noOthers s = landed s t (sEffect m t (s.slot t) f s) := by
  rw [issueS_alone hop hm h]
  unfold landed
  rw [← hpc]
  congr 1
  exact if_congr Iff.rfl rfl (if_neg hn)

/-- Where an operation leaves its slot as x, not stopped, its bundle leaves x at the next bundle. -/
theorem landed_setSlot {s : State} {t : Slot} (u : State) {x : SlotState} (hx : x.stopped = false) :
    landed s t (u.setSlot t x) = Claims.issuedFor t (u.setSlot t (Claims.stepTo s (Claims.nextBundle s t) x)) := by
  rw [landed_of_running ((congrArg SlotState.stopped (State.setSlot_slot_same ..)).trans hx)]
  unfold Claims.advanced
  rw [State.setSlot_slot_same, State.setSlot_setSlot]

theorem stopped_faultSlot (t : Slot) (code : BitVec 16) (sub : BitVec 3) (s : State) :
    ((faultSlot t code sub s).slot t).stopped = true := by
  unfold faultSlot State.slot
  dsimp only
  rw [raiseEv_slots, dropHandles_slots]
  exact congrArg SlotState.stopped (State.setSlot_slot_same s t { s.slot t with stopped := true })

theorem landed_faultSlot (s : State) (t : Slot) (code : BitVec 16) :
    landed s t (faultSlot t code 0 s) = Claims.stoppedWith s t code := landed_of_stopped (stopped_faultSlot ..)

/-! ### Numbers stored and read (R7) -/

theorem readNat_lt (b : Bank) (a n : Nat) : readNat b a n < 256 ^ n := by
  induction n generalizing a with
  | zero => exact Nat.one_pos
  | succ n ih =>
    have hb := (readByte b a).isLt
    have ht := ih (a + 1)
    unfold readNat at ht ⊢
    rw [readBytes, ofLE, Nat.pow_succ]
    omega

theorem pow_256 (n : Nat) : 256 ^ n = 2 ^ (8 * n) := (Nat.pow_mul 2 8 n).symm

/-- The state with the n low bytes of v written at a place. -/
def storedAt (s : State) (p : Place) (n v : Nat) : State :=
  s.setBank p.space (bankWrite (s.bank p.space) p.addr (leBytes n v))

@[simp] theorem slot_storedAt (s : State) (p : Place) (n v : Nat) (t : Slot) : (storedAt s p n v).slot t = s.slot t :=
  State.setBank_slot ..

/-- u is s but for its bank k, which holds the n low bytes of v at a and beside them what it held in s. -/
def StoresOnly (s u : State) (k : Space) (a n v : Nat) : Prop :=
  u = s.setBank k (u.bank k) ∧ readNat (u.bank k) a n = v % 2 ^ (8 * n) ∧
    ∀ j x, ¬ (j = k ∧ a ≤ x ∧ x < a + n) → readByte (u.bank j) x = readByte (s.bank j) x

theorem readNat_bankWrite (b : Bank) (a n v : Nat) : readNat (bankWrite b a (leBytes n v)) a n = v % 2 ^ (8 * n) := by
  have hr : readBytes (bankWrite b a (leBytes n v)) a n = readBytes (writeBytes b a (leBytes n v)) a n :=
    readBytes_congr _ _ _ _ fun x _ _ => readByte_bankWrite ..
  rw [readNat, hr, ← pow_256]
  exact readNat_writeBytes ..

theorem storesOnly_storedAt (s : State) (p : Place) (n v : Nat) : StoresOnly s (storedAt s p n v) p.space p.addr n v := by
  have hk : (storedAt s p n v).bank p.space = bankWrite (s.bank p.space) p.addr (leBytes n v) := State.setBank_bank_same ..
  refine ⟨?same, ?stored, fun j x hx => ?others⟩
  case same => rw [hk]; rfl
  case stored => rw [hk, readNat_bankWrite]
  case others =>
    by_cases hj : j = p.space
    · have hout : x < p.addr ∨ p.addr + (leBytes n v).length ≤ x := by
        rw [leBytes_length]
        by_contra hin
        exact hx ⟨hj, by omega, by omega⟩
      rw [hj, hk, readByte_bankWrite_outside _ _ _ _ _ hout]
    · rw [storedAt, State.setBank_bank_ne _ _ hj]

/-! ### The function of an AMO (R252) -/

/-- What AMO with function fn leaves of the number m in memory, with b in register B. -/
def amoNumber (fn m b : Nat) : Nat :=
  match fn with
  | 0 => (m + b) % 2 ^ 64
  | 1 => m &&& b
  | 2 => m ||| b
  | 3 => b
  | _ => max m b

theorem toNat_amoOp (fn : Nat) (m b : W64) : (amoOp fn m b).toNat = amoNumber fn m.toNat b.toNat := by
  unfold amoOp amoNumber
  split
  · exact BitVec.toNat_add ..
  · exact BitVec.toNat_and ..
  · exact BitVec.toNat_or ..
  · rfl
  · rw [apply_ite BitVec.toNat, BitVec.ult_eq_decide]
    simp only [decide_eq_true_eq]
    split <;> omega

/-! ### LD, ST and AMO -/

theorem exec_ld (t : Slot) (f : SFields) (o : Others) (s : State) : exec (.ld t f o) s = .next (issueS 0x08 t f o s) := rfl

theorem exec_st (t : Slot) (f : SFields) (o : Others) (s : State) : exec (.st t f o) s = .next (issueS 0x09 t f o s) := rfl

theorem exec_amo (t : Slot) (f : SFields) (o : Others) (s : State) : exec (.amo t f o) s = .next (issueS 0x0A t f o s) := rfl

section
variable {s : State} {t : Slot} {f : SFields}

theorem exec_ld_lands (h : Claims.issuesAlone s t 0 (sWord 0x08 f)) :
    exec (.ld t f Claims.noOthers) s = .next (landed s t (sLd t (s.slot t) f s)) :=
  (exec_ld ..).trans (congrArg _ (issueS_lands (by decide) (m := .ld) rfl SlotOp.noConfusion rfl h))

theorem exec_st_lands (h : Claims.issuesAlone s t 0 (sWord 0x09 f)) :
    exec (.st t f Claims.noOthers) s = .next (landed s t (sSt t (s.slot t) f s)) :=
  (exec_st ..).trans (congrArg _ (issueS_lands (by decide) (m := .st) rfl SlotOp.noConfusion rfl h))

theorem exec_amo_lands (h : Claims.issuesAlone s t 0 (sWord 0x0A f)) :
    exec (.amo t f Claims.noOthers) s = .next (landed s t (sAmo t (s.slot t) f s)) :=
  (exec_amo ..).trans (congrArg _ (issueS_lands (by decide) (m := .amo) rfl SlotOp.noConfusion rfl h))

/-- A late result of an operation that leaves its slot's state otherwise as it was. -/
theorem landed_writeD (h : (s.slot t).stopped = false) {u : State} (hu : u.slot t = s.slot t) (d : BitVec 6) (v : W64) :
    landed s t (writeD t d.toNat v true u) = Claims.issuedFor t (u.setSlot t
      (Claims.stepTo s (Claims.nextBundle s t) (addPending (setSReg (s.slot t) d.toNat v) [sName d.toNat]))) := by
  unfold writeD updSlot
  rw [hu]
  have hx : (addPending (setSReg (s.slot t) d.toNat v) [sName d.toNat]).stopped = false := h
  exact landed_setSlot u hx

theorem sLd_faults (h : sPlace t (sReg (s.slot t) f.a.toNat + imm64 f).toNat (sSize f) = none) :
    sLd t (s.slot t) f s = faultSlot t evAccessFault 0 s := by
  unfold sLd
  dsimp only
  rw [h]

theorem sSt_faults (h : sPlace t (sReg (s.slot t) f.a.toNat + imm64 f).toNat (sSize f) = none) :
    sSt t (s.slot t) f s = faultSlot t evAccessFault 0 s := by
  unfold sSt
  dsimp only
  rw [h]

theorem sAmo_faults (h : sPlace t (sReg (s.slot t) f.a.toNat).toNat 8 = none) :
    sAmo t (s.slot t) f s = faultSlot t evAccessFault 0 s := by
  unfold sAmo
  rw [h]

variable {p : Place}

theorem sLd_poisoned (h : sPlace t (sReg (s.slot t) f.a.toNat + imm64 f).toNat (sSize f) = some p)
    (hp : poisoned (s.bank p.space) p.addr (sSize f) = true) :
    sLd t (s.slot t) f s = faultSlot t evMemPoison 0 s := by
  unfold sLd
  dsimp only
  rw [h]
  exact if_pos hp

theorem sLd_loads (h : sPlace t (sReg (s.slot t) f.a.toNat + imm64 f).toNat (sSize f) = some p)
    (hp : poisoned (s.bank p.space) p.addr (sSize f) = false) :
    sLd t (s.slot t) f s =
      writeD t f.d.toNat (loadValue (sSize f) (bit f.fn.toNat 2) (readNat (s.bank p.space) p.addr (sSize f))) true s := by
  unfold sLd
  dsimp only
  rw [h]
  exact if_neg (Bool.eq_false_iff.1 hp)

theorem sSt_stores (h : sPlace t (sReg (s.slot t) f.a.toNat + imm64 f).toNat (sSize f) = some p) : sSt t (s.slot t) f s =
    storedAt s p (sSize f) (sReg (s.slot t) f.b.toNat).toNat := by
  unfold sSt
  dsimp only
  rw [h]
  rfl

theorem sAmo_poisoned (h : sPlace t (sReg (s.slot t) f.a.toNat).toNat 8 = some p)
    (hp : poisoned (s.bank p.space) p.addr 8 = true) : sAmo t (s.slot t) f s = faultSlot t evMemPoison 0 s := by
  unfold sAmo
  rw [h]
  exact if_pos hp

/-- The word that AMO leaves in memory at a place. -/
def amoWord (s : State) (t : Slot) (f : SFields) (p : Place) : W64 :=
  amoOp f.fn.toNat (BitVec.ofNat 64 (readNat (s.bank p.space) p.addr 8)) (sReg (s.slot t) f.b.toNat)

theorem sAmo_exchanges (h : sPlace t (sReg (s.slot t) f.a.toNat).toNat 8 = some p)
    (hp : poisoned (s.bank p.space) p.addr 8 = false) : sAmo t (s.slot t) f s =
      writeD t f.d.toNat (BitVec.ofNat 64 (readNat (s.bank p.space) p.addr 8)) true
        (storedAt s p 8 (amoWord s t f p).toNat) := by
  unfold sAmo
  rw [h]
  exact if_neg (Bool.eq_false_iff.1 hp)

theorem toNat_amoWord (s : State) (t : Slot) (f : SFields) (p : Place) : (amoWord s t f p).toNat =
    amoNumber f.fn.toNat (readNat (s.bank p.space) p.addr 8) (sReg (s.slot t) f.b.toNat).toNat := by
  have hm : readNat (s.bank p.space) p.addr 8 < 2 ^ 64 := readNat_lt ..
  rw [amoWord, toNat_amoOp, BitVec.toNat_ofNat, Nat.mod_eq_of_lt hm]

/-- A store's bundle leaves the bytes and moves the slot on. -/
theorem exec_st_stores (hi : Claims.issuesAlone s t 0 (sWord 0x09 f))
    (h : sPlace t (sReg (s.slot t) f.a.toNat + imm64 f).toNat (sSize f) = some p) :
    ∃ u, exec (.st t f Claims.noOthers) s =
        .next (Claims.issuedFor t (u.setSlot t (Claims.stepTo s (Claims.nextBundle s t) (s.slot t)))) ∧
      StoresOnly s u p.space p.addr (sSize f) (sReg (s.slot t) f.b.toNat).toNat := by
  refine ⟨storedAt s p (sSize f) (sReg (s.slot t) f.b.toNat).toNat, ?_, storesOnly_storedAt ..⟩
  rw [exec_st_lands hi, sSt_stores h, landed_of_running]
  · unfold Claims.advanced
    rw [slot_storedAt]
  · rw [slot_storedAt]
    exact running_of_issuesAlone hi

/-- An AMO's bundle leaves the new word in memory and the old one in D. -/
theorem exec_amo_exchanges (hi : Claims.issuesAlone s t 0 (sWord 0x0A f)) (h : sPlace t (sReg (s.slot t) f.a.toNat).toNat 8 = some p)
    (hp : poisoned (s.bank p.space) p.addr 8 = false) :
    ∃ u, exec (.amo t f Claims.noOthers) s = .next (Claims.issuedFor t (u.setSlot t (Claims.stepTo s (Claims.nextBundle s t)
        (addPending (setSReg (s.slot t) f.d.toNat (BitVec.ofNat 64 (readNat (s.bank p.space) p.addr 8))) [sName f.d.toNat])))) ∧
      StoresOnly s u p.space p.addr 8 (amoWord s t f p).toNat := by
  refine ⟨storedAt s p 8 (amoWord s t f p).toNat, ?_, storesOnly_storedAt ..⟩
  rw [exec_amo_lands hi, sAmo_exchanges h hp, landed_writeD (running_of_issuesAlone hi) (slot_storedAt ..)]

end

/-- Settles O13: each access answers as its own lemma of `sLd`, `sSt` or `sAmo` says, and its bundle lands that (`issueS_lands`). -/
theorem scalarMemoryAccesses : Obligations.ScalarMemoryAccesses := by
  unfold Obligations.ScalarMemoryAccesses
  intro s t f x n at_ atA b
  refine ⟨fun hi => ⟨fun p h hp => ?loads, fun p h hp => ?ldPoison, fun h => ?ldFault⟩,
    fun hi => ⟨fun p h => exec_st_stores hi h, fun h => ?stFault⟩,
    fun hi => ⟨fun p h hp => ?exchanges, fun p h hp => ?amoPoison, fun h => ?amoFault⟩⟩
  case loads =>
    rw [exec_ld_lands hi, sLd_loads h hp, landed_writeD (running_of_issuesAlone hi) rfl]
    unfold loadValue bit
    simp only [beq_iff_eq]
    rfl
  case ldPoison => rw [exec_ld_lands hi, sLd_poisoned h hp, landed_faultSlot]
  case ldFault => rw [exec_ld_lands hi, sLd_faults h, landed_faultSlot]
  case stFault => rw [exec_st_lands hi, sSt_faults h, landed_faultSlot]
  case exchanges =>
    obtain ⟨u, hu, hbank, hword, hothers⟩ := exec_amo_exchanges hi h hp
    refine ⟨u, hu, hbank, ?_, hothers⟩
    rw [hword, Nat.mod_eq_of_lt (amoWord s t f p).isLt]
    exact toNat_amoWord ..
  case amoPoison => rw [exec_amo_lands hi, sAmo_poisoned h hp, landed_faultSlot]
  case amoFault => rw [exec_amo_lands hi, sAmo_faults h, landed_faultSlot]

end Sys2Proof.Machine

end

section

/-! SUPPORT. A descriptor with two parts whose opcode runs in no parts, and obligation O51. PART_END takes every opcode but PASS, PRODUCT
and MOVE for an update (`partResult`), and an update that ends marks what other parts read of its writes (R283, `spoilParts`), sparing
only descriptors with the opcode of UPDATE. So under a stray opcode a part that ends changes the part that stays. -/

namespace Sys2Proof.Machine

open Sys2Proof

/-- The part that ends: it writes an empty range at address 1. -/
def strayWriter : PartState := { unit := 0, slots := [], lo := 0, hi := 1, failed := false, reads := [], writes := [(1, 0)] }

/-- The part that stays: it reads the two bytes around that range. -/
def strayReader : PartState := { unit := 1, slots := [], lo := 1, hi := 2, failed := false, reads := [(0, 2)], writes := [] }

/-- A NOP, all of its words 0, that holds both parts. -/
def strayDesc : DescState := { parts := [strayWriter, strayReader] }

def strayId : DescId := ⟨0, 0⟩

/-- The machine at reset with that descriptor. -/
def strayState : State := State.reset.setDesc strayId strayDesc

/-- The SPOILED marks of a descriptor's parts. -/
def spoiledMarks (s : State) (d : DescId) : Option (List Bool) := (s.desc? d).map fun y => y.parts.map PartState.spoiled

/-- PART_END of the one part marks the other. -/
theorem partEnd_marks_reader : spoiledMarks (partEnd strayId 0 .done strayState) strayId = some [true] := by decide +kernel

/-- Refutes O51: in `strayState` the part on unit 1 does not stay as it was when the part on unit 0 ends (`partEnd_marks_reader`). -/
theorem not_partsPlaceAndEnd : ¬ Obligations.PartsPlaceAndEnd := by
  unfold Obligations.PartsPlaceAndEnd
  intro h
  obtain ⟨-, hends, -⟩ := h strayState strayId strayDesc (State.setDesc_desc_same ..)
  obtain ⟨-, -, hgoes⟩ := hends 0 .done strayWriter rfl rfl rfl rfl
  obtain ⟨-, hstays⟩ := hgoes (.inr ⟨rfl, .inr rfl⟩)
  obtain ⟨t, y, ht, hy, hparts, -⟩ := hstays (by decide)
  obtain rfl : partEnd strayId 0 .done strayState = t := Host.Outcome.next.inj ht
  have hmarks : spoiledMarks (partEnd strayId 0 .done strayState) strayId = some [false] := by
    rw [spoiledMarks, hy, Option.map_some, hparts]
    rfl
  rw [partEnd_marks_reader] at hmarks
  exact absurd hmarks (by decide)

end Sys2Proof.Machine

end

section

/-! SUPPORT. How a descriptor starts (R375, R376, R378): with its turn or not, with its argument block or without; and obligation O46. -/

namespace Sys2Proof.Machine

open Sys2Proof Claims

/-! ### Starting a descriptor -/

section
variable {s : State} {d : DescId} {op n : Nat} {x : DescState}

theorem startDesc_starts (h : Starts s d op x) (g : DescState → State → State) : startDesc s d op g = g x (begun s d) := by
  unfold startDesc
  rw [h.desc]
  exact if_pos ⟨h.op, h.may⟩

/-- Without its turn, or under another opcode, a descriptor changes nothing. -/
theorem startDesc_idle (h : ∀ x, ¬ Starts s d op x) (g : DescState → State → State) : startDesc s d op g = s := by
  unfold startDesc
  cases hd : s.desc? d with
  | none => rfl
  | some x => exact if_neg fun hs => h x ⟨hd, hs.1, hs.2⟩

theorem startDesc_withArgs_none (h : Starts s d op x) (hw : readArgs (begun s d) x n = none)
    (g : DescState → List Nat → State → State) : startDesc s d op (withArgs d n g) =
      endDesc (noteVaRead (begun s d) x.ctx (descArgs x) (8 * n)) d stArgsFault := by
  rw [startDesc_starts h, withArgs, hw]

theorem startDesc_withArgs_some {w : List Nat} (h : Starts s d op x) (hw : readArgs (begun s d) x n = some w)
    (g : DescState → List Nat → State → State) : startDesc s d op (withArgs d n g) = g (withWords x w) w (begun s d) := by
  rw [startDesc_starts h, withArgs, hw]
  rfl

end

/-! ### The starting commands -/

/-- Every command of `blockStarts` reads its block and goes on with it. -/
theorem exec_blockStarts (s : State) (d : DescId) :
    ∀ c ∈ blockStarts d, ∃ g, exec c.1 s = .next (startDesc s d c.2.1 (withArgs d c.2.2 g)) := by
  simp only [blockStarts, List.forall_mem_cons]
  exact ⟨⟨_, rfl⟩, ⟨_, rfl⟩, ⟨_, rfl⟩, ⟨_, rfl⟩, ⟨_, rfl⟩, ⟨_, rfl⟩, ⟨_, rfl⟩, ⟨_, rfl⟩, ⟨_, rfl⟩, ⟨_, rfl⟩, ⟨_, rfl⟩, ⟨_, rfl⟩,
    ⟨_, rfl⟩, ⟨_, rfl⟩, ⟨_, rfl⟩, List.forall_mem_nil _⟩

theorem exec_plainStarts (s : State) (d : DescId) : ∀ c ∈ plainStarts d, ∃ g, exec c.1 s = .next (startDesc s d c.2 g) := by
  simp only [plainStarts, List.forall_mem_cons]
  exact ⟨⟨_, rfl⟩, ⟨_, rfl⟩, ⟨_, rfl⟩, ⟨_, rfl⟩, List.forall_mem_nil _⟩

theorem exec_starting_idle {s : State} {d : DescId} {c : Instr × Nat}
    (hc : c ∈ (blockStarts d).map (fun c => (c.1, c.2.1)) ++ plainStarts d) (h : ∀ x, ¬ Starts s d c.2 x) :
    exec c.1 s = .next s := by
  obtain hb | hp := List.mem_append.1 hc
  · obtain ⟨b, hmem, rfl⟩ := List.mem_map.1 hb
    obtain ⟨g, hg⟩ := exec_blockStarts s d b hmem
    exact hg.trans (congrArg _ (startDesc_idle h _))
  · obtain ⟨g, hg⟩ := exec_plainStarts s d c hp
    exact hg.trans (congrArg _ (startDesc_idle h _))

section
variable {s : State} {d : DescId} {x : DescState} {w : List Nat}

theorem exec_product_runs (h : Starts s d opProduct x) (hw : readArgs (begun s d) x 16 = some w) :
    exec (.product d) s = .next (if hostProductBad (begun s d) (withWords x w) w then endDesc (begun s d) d stBadDescriptor
      else (begun s d).setDesc d { withWords x w with
        phase := .running
        head := if prodInlay (prodSpec w) && (prodSpec w).inlayN == 0x7F then readHead (begun s d) x.ctx (prodSpec w).list else [] }) :=
  congrArg _ (startDesc_withArgs_some h hw _)

theorem exec_pass_runs (h : Starts s d opPass x) (hw : readArgs (begun s d) x 32 = some w) :
    exec (.pass d) s = .next (if hostPassBad (begun s d) (withWords x w) (hostPassWords (withWords x w) w)
      then endDesc (begun s d) d stBadDescriptor
      else (begun s d).setDesc d { withWords x (hostPassWords (withWords x w) w) with
        phase := .running
        head := if pQuantOn (hostPassWords (withWords x w) w) && qApply (pQcw (hostPassWords (withWords x w) w))
          then readHead (begun s d) x.ctx (pSummary (hostPassWords (withWords x w) w)) else [] }) :=
  congrArg _ (startDesc_withArgs_some h hw _)

theorem exec_move_runs (h : Starts s d opMove x) (hw : readArgs (begun s d) x 8 = some w) :
    exec (.move d) s = .next (if moveOk w then (begun s d).setDesc d { withWords x w with phase := .running }
      else endDesc (begun s d) d stBadDescriptor) :=
  congrArg _ (startDesc_withArgs_some h hw _)

theorem exec_update_runs (h : Starts s d opUpdate x) (hw : readArgs (begun s d) x 8 = some w) :
    exec (.update d) s = .next (updateStart d s (withWords x w) w (begun s d)) :=
  congrArg _ (startDesc_withArgs_some h hw _)

end

/-! ### The checks of an update, in their order (R262, R270, R283, R293) -/

section
variable {s : State} {x : DescState} {w : List Nat} (d : DescId) (s0 : State)

theorem updateStart_jobBad (h : tagJobBad s x = true ∨ updJob s x = none) :
    updateStart d s0 x w s = endDesc s d stBadDescriptor := by
  unfold updateStart
  dsimp only
  split
  · rfl
  · next ht => rw [h.resolve_left ht]

theorem updateStart_job {j : Job} (ht : tagJobBad s x = false) (hj : updJob s x = some j) :
    updateStart d s0 x w s =
      if updPoisoned s j x (updSpec w) then
        endDesc ((updHeads s j x (updSpec w)).foldl (fun s r => noteVaRead s x.ctx r.1 r.2) s) d stPartial
      else if updBad s x w then endDesc s d stBadDescriptor
      else if (s.job j).scrub then s0
      else if updStale s j x (updSpec w) then endDesc s d stUpdateStale
      else if waitsRoots s j x (updSpec w) then s0
      else s.setDesc d { x with phase := .running } := by
  unfold updateStart
  dsimp only
  rw [if_neg (Bool.eq_false_iff.1 ht), hj]

end

/-- Settles O46: each starting command is `startDesc` (`exec_blockStarts`, `exec_plainStarts`), and UPDATE's checks come in the order
of `updateStart_job`. -/
theorem descriptorsStart : Obligations.DescriptorsStart := by
  unfold Obligations.DescriptorsStart
  intro s d
  refine ⟨fun c hc h => exec_starting_idle hc h, fun c hc x h hw => ?unreadable, fun x w h hw => exec_product_runs h hw,
    fun x w h hw => exec_pass_runs h hw, fun x w h hw => exec_move_runs h hw, fun x w j h hw => ?update⟩
  case unreadable =>
    obtain ⟨g, hg⟩ := exec_blockStarts s d c hc
    rw [hg, startDesc_withArgs_none h hw]
  case update =>
    rw [exec_update_runs h hw]
    refine ⟨fun hbad => by rw [updateStart_jobBad d s hbad], fun ht hj => ?_⟩
    rw [updateStart_job d s ht hj]
    refine ⟨fun hp => ?poisoned, fun hp => ⟨fun hb => ?malformed, fun hb hscrub => ?scrubbed, fun hb hscrub =>
      ⟨fun hs => ?stale, fun hs hr => ?waits, fun hs hr => ?runs⟩⟩⟩
    case poisoned => simp only [hp, if_true]; rfl
    case malformed => simp only [hp, hb, if_true, if_false, Bool.false_eq_true]
    case scrubbed => simp only [hp, hb, hscrub, if_true, if_false, Bool.false_eq_true]
    case stale => simp only [hp, hb, hscrub, hs, if_true, if_false, Bool.false_eq_true]
    case waits => simp only [hp, hb, hscrub, hs, hr, if_true, if_false, Bool.false_eq_true]
    case runs => simp only [hp, hb, hscrub, hs, hr, if_false, Bool.false_eq_true]

end Sys2Proof.Machine

end

section

/-! SUPPORT. The descriptors that the queue manager serves itself (R178, R179, R297, R307, R340, R382, R383, R391), and obligation O47. -/

namespace Sys2Proof.Machine

open Sys2Proof Claims

section
variable {s : State} {d : DescId} {x : DescState} {w : List Nat}

theorem exec_nop_runs (h : Starts s d opNop x) : exec (.nop d) s = .next (endDesc (begun s d) d stOk) :=
  congrArg _ (startDesc_starts h _)

theorem exec_abortDesc_runs (h : Starts s d opAbort x) : exec (.abortDesc d) s = .next (abortRun d x (begun s d)) :=
  congrArg _ (startDesc_starts h _)

/-- JOB_SETUP asks of its descriptor the context alone, so the words held there do not matter. -/
theorem exec_jobSetup_runs (h : Starts s d opJob x) (hw : readArgs (begun s d) x 8 = some w) :
    exec (.jobSetup d) s = .next (jobSetup d x w (begun s d)) :=
  congrArg _ (startDesc_withArgs_some h hw _)

/-- As of JOB_SETUP, the words held do not matter. -/
theorem exec_ladderPolicy_runs (h : Starts s d opPolicy x) (hw : readArgs (begun s d) x 8 = some w) :
    exec (.ladderPolicy d) s = .next (ladderPolicy d s x w (begun s d)) :=
  congrArg _ (startDesc_withArgs_some h hw _)

end

/-! ### ABORT (R391, R392) -/

section
variable {s : State} {t : DescId} {y : DescState}

/-- A descriptor with parts under way goes on until they have stopped. -/
theorem stopDesc_parts (hy : s.desc? t = some y) (hs : y.stopping = none) (hp : y.phase ≠ .recordDue) (hparts : y.parts ≠ [])
    (status : BitVec 16) : stopDesc s t status = s.setDesc t { y with stopping := some status, stopAt := s.now } := by
  unfold stopDesc
  rw [hy]
  simp [hs, hp, hparts]

theorem stopDesc_idle (hy : s.desc? t = some y) (hs : y.stopping = none) (hp : y.phase ≠ .recordDue) (hparts : y.parts = [])
    (hf : y.phase ≠ .finishing) (ha : y.armed = false) (status : BitVec 16) :
    stopDesc s t status = endDesc (dropWork s t) t status := by
  unfold stopDesc
  rw [hy]
  simp [hs, hp, hparts, hf, ha]

variable (d : DescId)

theorem abortDecide_gone (ht : s.desc? t = none) : abortDecide d t s = endDesc s d stAbortLate := by
  unfold abortDecide
  rw [ht]

theorem abortDecide_late (hy : s.desc? t = some y)
    (h : t = d ∨ y.armed = true ∨ y.stopping.isSome = true ∨ y.phase = .finishing ∨ y.phase = .recordDue) :
    abortDecide d t s = endDesc s d stAbortLate := by
  unfold abortDecide
  rw [hy]
  exact if_pos h

theorem abortDecide_stops (hy : s.desc? t = some y) (hd : t ≠ d) (ha : y.armed = false) (hs : y.stopping = none)
    (hf : y.phase ≠ .finishing) (hp : y.phase ≠ .recordDue) : abortDecide d t s = endDesc (stopDesc s t stAborted) d stOk := by
  unfold abortDecide
  rw [hy]
  simp [hd, ha, hs, hf, hp]

variable {x : DescState}

theorem abortRun_foreign (h : queueCtx s (abortTarget x).q ≠ some x.ctx) : abortRun d x s = endDesc s d stBadDescriptor := if_pos h

theorem abortRun_ahead (h : queueCtx s (abortTarget x).q = some x.ctx) (ha : accepted s (abortTarget x) = false) :
    abortRun d x s = endDesc s d stNoTarget := by simp [abortRun, h, ha]

theorem abortRun_accepted (h : queueCtx s (abortTarget x).q = some x.ctx) (ha : accepted s (abortTarget x) = true) :
    abortRun d x s = abortDecide d (abortTarget x) s := by simp [abortRun, h, ha]

end

/-! ### MAP, UNMAP and UNMAP_COMPLETE (R297, R307, R383) -/

section
variable {s : State} {d : DescId} {x : DescState}

theorem exec_mapDesc_runs (h : Starts s d opMap x) : exec (.mapDesc d) s = .next (
    if unmapOver (begun s d) x.ctx (descMap x) then s
    else match mapPages (begun s d) x.ctx (descMap x) with
      | some u => endDesc u d stOk
      | none => endDesc (noteTables (begun s d) x.ctx (descMap x)) d stMapDenied) :=
  congrArg _ (startDesc_starts h _)

theorem exec_mapDesc_waits (h : Starts s d opMap x) (ho : unmapOver (begun s d) x.ctx (descMap x) = true) :
    exec (.mapDesc d) s = .next s := by
  rw [exec_mapDesc_runs h, if_pos ho]

theorem exec_mapDesc_ends (h : Starts s d opMap x) (ho : unmapOver (begun s d) x.ctx (descMap x) = false) :
    exec (.mapDesc d) s = match mapPages (begun s d) x.ctx (descMap x) with
      | some u => .next (endDesc u d stOk)
      | none => .next (endDesc (noteTables (begun s d) x.ctx (descMap x)) d stMapDenied) := by
  rw [exec_mapDesc_runs h, if_neg (Bool.eq_false_iff.1 ho)]
  cases mapPages (begun s d) x.ctx (descMap x) <;> rfl

theorem exec_unmap_runs (h : Starts s d opUnmap x) : exec (.unmap d) s = match unmapPages (begun s d) x.ctx (descMap x) with
      | some u => .next (u.setDesc d { x with phase := .finishing })
      | none => .next (endDesc (noteTables (begun s d) x.ctx (descMap x)) d stMapDenied) := by
  refine (congrArg Host.Outcome.next (startDesc_starts h _)).trans ?_
  cases unmapPages (begun s d) x.ctx (descMap x) <;> rfl

theorem unmapComplete_ends (hx : s.desc? d = some x) (ho : descOp x = opUnmap) (hf : x.phase = .finishing)
    (hr : recordRoom s = true) (hu : rangeInUse s x.ctx (descMap x).va ((descMap x).va + (descMap x).len) = false) :
    unmapComplete d s = finishDesc (unmapDone s x.ctx (descMap x)) d := by
  unfold unmapComplete
  rw [hx]
  exact if_pos ⟨ho, hf, hr, hu⟩

theorem unmapComplete_waits (hx : s.desc? d = some x)
    (h : recordRoom s = false ∨ rangeInUse s x.ctx (descMap x).va ((descMap x).va + (descMap x).len) = true) :
    unmapComplete d s = s := by
  unfold unmapComplete
  rw [hx]
  refine if_neg fun ⟨_, _, hr, hu⟩ => ?_
  simp [hr, hu] at h

theorem unmapComplete_idle (h : ∀ y, s.desc? d = some y → descOp y ≠ opUnmap ∨ y.phase ≠ .finishing) : unmapComplete d s = s := by
  unfold unmapComplete
  cases hx : s.desc? d with
  | none => rfl
  | some y => exact if_neg fun ⟨ho, hf, _⟩ => (h y hx).elim (· ho) (· hf)

end

/-! ### JOB_SETUP (R300, R340, R382) -/

/-- The state once the two tables of a set-up block have been read: the reads that a reset answered are counted and errors reported. -/
def setupRead (s : State) (c : Ctx) (w : List Nat) : State := noteRouteTables s c (nth w 6) (fld (nth w 0) 32 32) (nth w 7)

/-- The job that a set-up block names. -/
def setupTarget (w : List Nat) : Job := ⟨nth w 0 % 8, Nat.mod_lt _ (by decide)⟩

theorem besidesEvents_noteRouteTables (s : State) (c : Ctx) (va n ring : Nat) :
    besidesEvents (noteRouteTables s c va n ring) = besidesEvents s := by
  unfold noteRouteTables
  rw [besidesEvents_noteVaRead]
  split
  · rfl
  · exact besidesEvents_noteVaRead ..

theorem routeFits_noteRouteTables (s : State) (c : Ctx) (va n ring : Nat) (j : Job) (m : Nat) :
    routeFits (noteRouteTables s c va n ring) j m = routeFits s j m := by
  change routeFits (besidesEvents _) j m = routeFits (besidesEvents s) j m
  rw [besidesEvents_noteRouteTables]

theorem ctx_noteRouteTables (s : State) (c : Ctx) (va n ring : Nat) (k : Ctx) : (noteRouteTables s c va n ring).ctx k = s.ctx k :=
  congrArg (fun u => u.ctx k) (besidesEvents_noteRouteTables s c va n ring)

section
variable {s : State} {x : DescState} {w : List Nat} (d : DescId)

theorem jobSetup_refused (h : setupBad s x.ctx w = true) : jobSetup d x w s = endDesc s d stBadDescriptor := if_pos h

theorem jobSetup_unreadable (h : setupBad s x.ctx w = false)
    (ht : readRankTable s x.ctx (nth w 6) (fld (nth w 0) 32 32) = none ∨ readRingTable s x.ctx (nth w 7) = none) :
    jobSetup d x w s = endDesc (setupRead s x.ctx w) d stArgsFault := by
  refine (if_neg (Bool.eq_false_iff.1 h)).trans ?_
  dsimp only
  split
  · next table len hread =>
    obtain ⟨hranks, hrings⟩ := Prod.mk.inj hread
    rw [hranks, hrings] at ht
    exact absurd ht (by simp)
  · rfl

theorem jobSetup_readable {table : List (W64 × W64)} {len : List Nat} (h : setupBad s x.ctx w = false)
    (ht : readRankTable s x.ctx (nth w 6) (fld (nth w 0) 32 32) = some table) (hr : readRingTable s x.ctx (nth w 7) = some len) :
    jobSetup d x w s =
      if !(table.all (routeOk len)) || !ringTableOk len then endDesc (setupRead s x.ctx w) d stBadDescriptor
      else if !routeFits (setupRead s x.ctx w) (setupTarget w) (fld (nth w 0) 32 32) then
        endDesc (setupRead s x.ctx w) d stNoRouteSpace
      else endDesc ((setupRead s x.ctx w).setJob (setupTarget w) (setupJob s x.ctx w table len)) d stOk := by
  have hjob : setupJob (setupRead s x.ctx w) x.ctx w table len = setupJob s x.ctx w table len := by
    unfold setupJob
    rw [setupRead, ctx_noteRouteTables]
  refine (if_neg (Bool.eq_false_iff.1 h)).trans ?_
  dsimp only
  rw [ht, hr, ← hjob]
  rfl

theorem jobSetup_sets_up {table : List (W64 × W64)} {len : List Nat} (h : SetsUp s x.ctx w table len) : jobSetup d x w s =
    endDesc ((setupRead s x.ctx w).setJob (setupTarget w) (setupJob s x.ctx w table len)) d stOk := by
  have hfits : routeFits (setupRead s x.ctx w) (setupTarget w) (fld (nth w 0) 32 32) = true :=
    (routeFits_noteRouteTables ..).trans h.room
  rw [jobSetup_readable d h.block h.ranks h.rings]
  simp [h.routes, h.ringForm, hfits]

end

/-! ### LADDER_POLICY (R178, R179) -/

/-- What reading a policy block's overrides leaves beside their bytes. -/
def overridesRead (s : State) (c : Ctx) (w : List Nat) : State :=
  if nth w 5 = 0 then s else noteVaRead s c (nth w 5) (min (fld (nth w 1) 32 32) 4095)

section
variable {s : State} {x : DescState} {w : List Nat} (d : DescId) (s0 : State)

/-- Only an array that a block names can be out of reach. -/
theorem overridesRead_of_none {c : Ctx} (h : readOverrides s c w = none) :
    overridesRead s c w = noteVaRead s c (nth w 5) (min (fld (nth w 1) 32 32) 4095) :=
  if_neg fun h0 => by simp [readOverrides, h0] at h

theorem ladderPolicy_jobless (h : ctxJob s x.ctx = none) : ladderPolicy d s0 x w s = endDesc s d stBadDescriptor := by
  unfold ladderPolicy
  rw [h]

theorem ladderPolicy_unreadable (h : (ctxJob s x.ctx).isSome = true) (ho : readOverrides s x.ctx w = none) :
    ladderPolicy d s0 x w s = endDesc (overridesRead s x.ctx w) d stArgsFault := by
  obtain ⟨j, hj⟩ := Option.isSome_iff_exists.1 h
  unfold ladderPolicy
  rw [hj]
  dsimp only
  rw [ho]
  rfl

theorem ladderPolicy_read {j : Job} {ov : List Byte} (hj : ctxJob s x.ctx = some j) (ho : readOverrides s x.ctx w = some ov) :
    ladderPolicy d s0 x w s =
      if policyBad w (policyOfWords w ov) (jobStep (overridesRead s x.ctx w) j) ||
          !layersWritable (overridesRead s x.ctx w) j (policyOfWords w ov).nlayers then
        endDesc (overridesRead s x.ctx w) d stBadDescriptor
      else if policyWaits (overridesRead s x.ctx w) j (policyOfWords w ov) then s0
      else endDesc (acceptPolicy (overridesRead s x.ctx w) j (policyOfWords w ov)) d stOk := by
  unfold ladderPolicy
  rw [hj]
  dsimp only
  rw [ho]
  rfl

end

/-- Settles O47, opcode by opcode: ABORT ends as `abortDecide` says of its target, JOB_SETUP and LADDER_POLICY as the checks of
`jobSetup_readable` and `ladderPolicy_read` come in order. -/
theorem controlDescriptorsComplete : Obligations.ControlDescriptorsComplete := by
  unfold Obligations.ControlDescriptorsComplete
  intro s d x b ends
  refine ⟨exec_nop_runs, fun h => ?abort, fun h => ⟨exec_mapDesc_waits h, exec_mapDesc_ends h⟩, exec_unmap_runs,
    fun hx ho hf => ⟨fun hr hu => congrArg _ (unmapComplete_ends hx ho hf hr hu), fun hw => congrArg _ (unmapComplete_waits hx hw)⟩,
    fun h => congrArg _ (unmapComplete_idle h), fun w h hw => ?setup, fun w h hw => ?policyUnread, fun w j ov h hw hj ho => ?policy⟩
  case abort =>
    rw [exec_abortDesc_runs h]
    refine ⟨fun hq => congrArg _ (abortRun_foreign d hq), fun hq ha => congrArg _ (abortRun_ahead d hq ha), fun hq ha ht => ?gone,
      fun y hq ha (hy : b.desc? (abortTarget x) = some y) => ⟨fun hlate => ?late,
        fun hd harmed hs hf hp => ⟨fun hparts => ?parts, fun hparts => ?idle⟩⟩⟩
    all_goals rw [abortRun_accepted d hq ha]
    case gone => exact congrArg _ (abortDecide_gone d ht)
    case late => exact congrArg _ (abortDecide_late d hy hlate)
    case parts => rw [abortDecide_stops d hy hd harmed hs hf hp, stopDesc_parts hy hs hp hparts]
    case idle => rw [abortDecide_stops d hy hd harmed hs hf hp, stopDesc_idle hy hs hp hparts hf harmed]
  case setup =>
    rw [exec_jobSetup_runs h hw]
    refine ⟨fun hbad => congrArg _ (jobSetup_refused d hbad), fun hok ht => congrArg _ (jobSetup_unreadable d hok ht),
      fun hok table len ht hr => ?checks, fun table len hs => congrArg _ (jobSetup_sets_up d hs)⟩
    rw [jobSetup_readable d hok ht hr]
    refine ⟨fun hform => congrArg _ (if_pos ?_), fun hroutes hrings hfits => congrArg _ ((if_neg ?_).trans (if_pos ?_))⟩
    · simpa using hform
    · simp [hroutes, hrings]
    · exact (Bool.not_eq_true' _).mpr hfits
  case policyUnread =>
    rw [exec_ladderPolicy_runs h hw]
    exact ⟨fun hj => congrArg _ (ladderPolicy_jobless d s hj), fun hj ho => congrArg _
      ((ladderPolicy_unreadable d s hj ho).trans (by rw [overridesRead_of_none ho]))⟩
  case policy =>
    rw [exec_ladderPolicy_runs h hw, ladderPolicy_read d s hj ho]
    exact ⟨fun hbad => congrArg _ (if_pos hbad),
      fun hok hwaits => congrArg _ ((if_neg (Bool.eq_false_iff.1 hok)).trans (if_pos hwaits)),
      fun hok hgoes => congrArg _ ((if_neg (Bool.eq_false_iff.1 hok)).trans (if_neg (Bool.eq_false_iff.1 hgoes)))⟩

end Sys2Proof.Machine

end

section

/-! SUPPORT. The slot words and the bundle's 256 bits, read and written (R217, R219), the issue of a bundle as every slot command runs
it (R217 to R222), and obligations O9, O10 and O11. -/

namespace Sys2Proof.Machine

open Sys2Proof

/-! ### Words of either format from their fields (R219) -/

/-- The opcode's byte of a word, as R219 places it. -/
theorem ofNat_wordOp (w : W64) : BitVec.ofNat 8 (wordOp w) = w.extractLsb' 0 8 := by
  refine BitVec.eq_of_toNat_eq ?_
  rw [BitVec.toNat_ofNat, BitVec.extractLsb'_toNat, Nat.shiftRight_zero]
  exact Nat.mod_mod _ _

/-- A flag's bit is a field of width 1. -/
theorem ofBool_getLsbD (w : W64) (i : Nat) : BitVec.ofBool (w.getLsbD i) = w.extractLsb' i 1 := by
  refine BitVec.eq_of_getLsbD_eq fun j hj => ?_
  obtain rfl : j = 0 := by omega
  rw [BitVec.getLsbD_ofBool, BitVec.getLsbD_extractLsb']
  rfl

theorem sWord_sFieldsOf (w : W64) : sWord (wordOp w) (sFieldsOf w) = w := by
  unfold sWord sFieldsOf
  simp (disch := rfl) only [ofNat_wordOp, BitVec.extractLsb'_append_extractLsb'_eq_extractLsb']
  exact BitVec.extractLsb'_eq_self

theorem eWord_eFieldsOf (w : W64) : eWord (wordOp w) (eFieldsOf w) = w := by
  unfold eWord eFieldsOf
  simp (disch := rfl) only [ofNat_wordOp, ofBool_getLsbD, BitVec.extractLsb'_append_extractLsb'_eq_extractLsb']
  exact BitVec.extractLsb'_eq_self

/-! ### The four words of a bundle (R217) -/

theorem bundleOfBits_bits (b : Bundle) : bundleOfBits b.bits = b := by
  unfold bundleOfBits Bundle.bits
  simp (disch := omega) only [BitVec.extractLsb'_append_eq_of_le, BitVec.extractLsb'_append_eq_of_add_le]
  simp

theorem bits_bundleOfBits (x : BitVec 256) : (bundleOfBits x).bits = x := by
  unfold bundleOfBits Bundle.bits
  simp (disch := rfl) only [BitVec.extractLsb'_append_extractLsb'_eq_extractLsb']
  exact BitVec.extractLsb'_eq_self

/-- Settles O9: each format gives back what was written into it, and a word is the word of its own fields. -/
theorem slotWordRoundTrip : Obligations.SlotWordRoundTrip := by
  unfold Obligations.SlotWordRoundTrip
  exact ⟨fun op h f => ⟨wordOp_sWord h f, sFieldsOf_sWord op f⟩, fun op h f => ⟨wordOp_eWord h f, eFieldsOf_eWord op f⟩,
    fun w => ⟨sWord_sFieldsOf w, eWord_eFieldsOf w⟩, bundleOfBits_bits, bits_bundleOfBits⟩

/-- Settles O10: the four words' opcodes, each in its own slot, and their fields (`bundleOps_of`). -/
theorem workedBundleWords : Obligations.WorkedBundleWords := by
  unfold Obligations.WorkedBundleWords
  have hs : sFieldsOf 0x0000000100010402 = { d := 4, a := 4, b := 0, fn := 0, imm := 1 } := by decide
  have hv : eFieldsOf 0x0000000021000813 =
      { d := 8, a := 0, b := 16, c := 8, msk := 0, men := false, mz := false, sub := 0, imm := 0, sigen := false, sig := 0 } := by decide
  have hm : eFieldsOf 0x0580000030B28002 =
      { d := 0, a := 10, b := 11, c := 12, msk := 0, men := false, mz := false, sub := 0, imm := 0, sigen := true, sig := 5 } := by decide
  have hx : eFieldsOf 0x0000000000D38009 =
      { d := 0, a := 14, b := 13, c := 0, msk := 0, men := false, mz := false, sub := 0, imm := 0, sigen := false, sig := 0 } := by decide
  rw [bundleOps_of (s := .alui) (v := .vFma) (m := .mtAcc) (x := .xWait) rfl rfl rfl rfl]
  dsimp only
  rw [hs, hv, hm, hx]

/-! ### The issue of a bundle (R217 to R222) -/

/-- Every slot command issues its bundle. -/
theorem exec_slotCommand {i : Instr} {t : Slot} {b : Bundle} (h : Claims.slotCommand i = some (t, b)) (s : State) :
    exec i s = .next (issueBundle t b s) := by
  unfold Claims.slotCommand at h
  split at h <;> cases h <;> rfl

section
variable {s : State} {t : Slot} {b : Bundle}

theorem issueBundle_withheld (h : slotIssues s t = false ∨ fetched s t b = false) : issueBundle t b s = s := by
  unfold issueBundle
  exact if_neg (by rcases h with h | h <;> simp [h])

theorem issueBundle_reserved (hs : slotIssues s t = true) (hf : fetched s t b = true) (h : bundleOps b = none) :
    issueBundle t b s = stopAt t evIllBundle 0 s := by
  unfold issueBundle
  rw [if_pos (by rw [hs, hf]; rfl), h]

theorem issueBundle_illegal (hs : slotIssues s t = true) (hf : fetched s t b = true) {o : Ops} (ho : bundleOps b = some o)
    (h : bundleLegal o (s.slot t) = false) : issueBundle t b s = stopAt t evIllBundle 0 s := by
  unfold issueBundle
  rw [if_pos (by rw [hs, hf]; rfl), ho]
  exact if_neg (Bool.eq_false_iff.1 h)

theorem issueBundle_waits {o : Ops} (ho : bundleOps b = some o) (hl : bundleLegal o (s.slot t) = true)
    (h : opsReady s t o = false ∨ itsTurn s t = false) : issueBundle t b s = s := by
  by_cases hi : (slotIssues s t && fetched s t b) = true
  · unfold issueBundle
    rw [if_pos hi, ho]
    exact (if_pos hl).trans (if_neg (by rcases h with h | h <;> simp [h]))
  · exact if_neg hi

end

/-- Settles O11: every slot command is the issue of its bundle (`exec_slotCommand`), which takes effect whole, waits, or stops its
slot. -/
theorem legalBundlesIssueWhole : Obligations.LegalBundlesIssueWhole := by
  unfold Obligations.LegalBundlesIssueWhole
  intro i s t b hi
  rw [exec_slotCommand hi]
  refine ⟨fun o h => congrArg _ (issueBundle_issues h), fun hs hf hbad => congrArg _ ?_, fun h => congrArg _ (issueBundle_withheld h),
    fun o ho hl h => congrArg _ (issueBundle_waits ho hl h)⟩
  cases ho : bundleOps b with
  | none => exact issueBundle_reserved hs hf ho
  | some o => exact issueBundle_illegal hs hf ho (hbad o ho)

end Sys2Proof.Machine

end

section

/-! SUPPORT. The S slot's integer operations, branches, control registers and STOP, each in a bundle of its own (R217, R224, R225, R252),
and obligations O12 and O14. -/

namespace Sys2Proof.Machine

open Sys2Proof

/-! ### The integer functions (R252) -/

theorem ofInt_toNat (x : W64) : BitVec.ofInt 64 (x.toNat : Int) = x := by
  rw [BitVec.ofInt_natCast, BitVec.ofNat_toNat, BitVec.setWidth_eq]

/-- The word of a comparison's truth value. -/
theorem ofNat_bnat_eq_ofInt {c : Bool} {p : Prop} [Decidable p] (h : c = true ↔ p) :
    BitVec.ofNat 64 (bnat c) = BitVec.ofInt 64 (if p then 1 else 0) := by
  unfold bnat
  by_cases hp : p
  · rw [if_pos hp, if_pos (h.2 hp)]; rfl
  · rw [if_neg hp, if_neg (mt h.1 hp)]; rfl

section
variable {x y : Int} {a b : W64} {c : Bool} (ha : BitVec.ofInt 64 x = a) (hb : BitVec.ofInt 64 y = b) (h : c = true ↔ x < y)
include ha hb h

/-- Of two words, the one of the lesser number. -/
theorem ite_eq_ofInt_min : (if c then a else b) = BitVec.ofInt 64 (min x y) := by
  by_cases hlt : x < y
  · rw [if_pos (h.2 hlt), min_eq_left hlt.le, ha]
  · rw [if_neg (mt h.1 hlt), min_eq_right (not_lt.1 hlt), hb]

/-- Of two words, the one of the greater number. -/
theorem ite_eq_ofInt_max : (if c then b else a) = BitVec.ofInt 64 (max x y) := by
  by_cases hlt : x < y
  · rw [if_pos (h.2 hlt), max_eq_right hlt.le, hb]
  · rw [if_neg (mt h.1 hlt), max_eq_left (not_lt.1 hlt), ha]

end

theorem shiftLeft_eq_ofInt (a : W64) (n : Nat) : a <<< n = BitVec.ofInt 64 ((a.toNat * 2 ^ n : Nat) : Int) := by
  rw [BitVec.ofInt_natCast]
  refine BitVec.eq_of_toNat_eq ?_
  rw [BitVec.toNat_shiftLeft, BitVec.toNat_ofNat, Nat.shiftLeft_eq]

theorem ushiftRight_eq_ofInt (a : W64) (n : Nat) : a >>> n = BitVec.ofInt 64 ((a.toNat / 2 ^ n : Nat) : Int) := by
  rw [← Nat.shiftRight_eq_div_pow, ← BitVec.toNat_ushiftRight, ofInt_toNat]

theorem sshiftRight_eq_ofInt (a : W64) (n : Nat) : a.sshiftRight n = BitVec.ofInt 64 (a.toInt / (2 ^ n : Nat)) := by
  rw [← Int.shiftRight_eq_div_pow, ← BitVec.toInt_sshiftRight, BitVec.ofInt_toInt]

theorem sdiv_eq_ofInt (a b : W64) : a.sdiv b = BitVec.ofInt 64 (a.toInt.tdiv b.toInt) := by
  refine BitVec.eq_of_toInt_eq ?_
  rw [BitVec.toInt_sdiv, BitVec.toInt_ofInt]

theorem srem_eq_ofInt (a b : W64) : a.srem b = BitVec.ofInt 64 (a.toInt.tmod b.toInt) := by
  rw [← BitVec.toInt_srem, BitVec.ofInt_toInt]

/-- A division's result for a divisor of 0 and for any other (R252). -/
theorem divide_eq_ofInt {b z q : W64} {m n : Int} (hz : z = BitVec.ofInt 64 m) (hq : q = BitVec.ofInt 64 n) :
    (if b = 0 then z else q) = BitVec.ofInt 64 (if b = 0 then m else n) := by
  rw [hz, hq, apply_ite (BitVec.ofInt 64)]

/-- Each function's word is that of its result on numbers. -/
theorem aluOp_eq (a b : W64) : ∀ fn, (Claims.isShift fn → b.toNat < 64) → aluOp fn a b = BitVec.ofInt 64 (Claims.intFunction fn a b)
  | 0, _ => by
    rw [Claims.intFunction, BitVec.ofInt_add, BitVec.ofInt_toInt, BitVec.ofInt_toInt]
    rfl
  | 1, _ => by
    rw [Claims.intFunction, Int.sub_eq_add_neg, BitVec.ofInt_add, BitVec.ofInt_neg, BitVec.ofInt_toInt, BitVec.ofInt_toInt,
      ← BitVec.sub_eq_add_neg]
    rfl
  | 2, _ => (ofInt_toNat (a &&& b)).symm
  | 3, _ => (ofInt_toNat (a ||| b)).symm
  | 4, _ => (ofInt_toNat (a ^^^ b)).symm
  | 5, h => (if_pos (h (.inl rfl))).trans (shiftLeft_eq_ofInt a b.toNat)
  | 6, h => (if_pos (h (.inr (.inl rfl)))).trans (ushiftRight_eq_ofInt a b.toNat)
  | 7, h => (if_pos (h (.inr (.inr rfl)))).trans (sshiftRight_eq_ofInt a b.toNat)
  | 8, _ => ofNat_bnat_eq_ofInt BitVec.slt_iff_toInt_lt
  | 9, _ => ofNat_bnat_eq_ofInt BitVec.ult_iff_toNat_lt
  | 10, _ => ite_eq_ofInt_min BitVec.ofInt_toInt BitVec.ofInt_toInt BitVec.slt_iff_toInt_lt
  | 11, _ => ite_eq_ofInt_max BitVec.ofInt_toInt BitVec.ofInt_toInt BitVec.slt_iff_toInt_lt
  | 12, _ => by
    rw [Claims.intFunction, Nat.cast_min]
    exact ite_eq_ofInt_min (ofInt_toNat a) (ofInt_toNat b) (BitVec.ult_iff_toNat_lt.trans Int.ofNat_lt.symm)
  | 13, _ => by
    rw [Claims.intFunction, Nat.cast_max]
    exact ite_eq_ofInt_max (ofInt_toNat a) (ofInt_toNat b) (BitVec.ult_iff_toNat_lt.trans Int.ofNat_lt.symm)
  | 14, _ => by
    rw [Claims.intFunction, BitVec.ofInt_mul, BitVec.ofInt_toInt, BitVec.ofInt_toInt]
    rfl
  | 15, _ => rfl
  | 16, _ => (BitVec.ofInt_natCast ..).symm
  | 17, _ => divide_eq_ofInt (by decide) (sdiv_eq_ofInt a b)
  | 18, _ => divide_eq_ofInt (by decide) (ofInt_toNat (a / b)).symm
  | 19, _ => divide_eq_ofInt BitVec.ofInt_toInt.symm (srem_eq_ofInt a b)
  | n + 20, _ => divide_eq_ofInt BitVec.ofInt_toInt.symm (ofInt_toNat (a % b)).symm

/-! ### An S operation in a bundle of its own -/

section
variable {op : Nat} (hop : op < 256) {f : SFields} {m : SlotOp} (hm : sOpOf op = some m) (hn : m ≠ .stop) {s : State} {t : Slot}
  (h : Claims.issuesAlone s t 0 (sWord op f))
include hop hm hn h

/-- An S operation that leaves every slot alone only moves its own on. -/
theorem issueS_moves (he : sEffect m t (s.slot t) f s = s) : issueS op t f Claims.noOthers s =
    Claims.issuedFor t (s.setSlot t (Claims.stepTo s (nextPc m (s.slot t) f) (s.slot t))) := by
  have hr : ((sEffect m t (s.slot t) f s).slot t).stopped = false := by rw [he]; exact running_of_issuesAlone h
  rw [issueS_alone hop hm h, bundleEffect_sAlone hn hr, he]
  rfl

/-- An S operation that leaves x for its slot's registers moves the slot on with them. -/
theorem issueS_sets {x : SlotState} (hx : x.stopped = (s.slot t).stopped) (he : sEffect m t (s.slot t) f s = s.setSlot t x) :
    issueS op t f Claims.noOthers s = Claims.issuedFor t (s.setSlot t (Claims.stepTo s (nextPc m (s.slot t) f) x)) := by
  have hr : ((sEffect m t (s.slot t) f s).slot t).stopped = false := by
    rw [he, State.setSlot_slot_same, hx]
    exact running_of_issuesAlone h
  rw [issueS_alone hop hm h, bundleEffect_sAlone hn hr, he]
  unfold updSlot
  rw [State.setSlot_slot_same, State.setSlot_setSlot]
  rfl

/-- An S operation that writes D goes on to the next bundle with D written. -/
theorem issueS_writesD {v : W64} {late : Bool} (hpc : nextPc m (s.slot t) f = Claims.nextBundle s t)
    (he : sEffect m t (s.slot t) f s = writeD t f.d.toNat v late s) :
    issueS op t f Claims.noOthers s = Claims.withD s t f.d v late := by
  rw [issueS_sets hop hm hn h (by cases late <;> rfl) he, hpc]
  rfl

end

/-! ### ALU, ALUI, LI and LUI -/

section
variable {s : State} {t : Slot} {f : SFields}

theorem exec_alu_writes (h : Claims.issuesAlone s t 0 (sWord 0x01 f)) : exec (.alu t f Claims.noOthers) s = .next (Claims.withD s t f.d
    (aluOp f.fn.toNat (sReg (s.slot t) f.a.toNat) (sReg (s.slot t) f.b.toNat)) (aluLate f.fn.toNat)) :=
  congrArg Host.Outcome.next (issueS_writesD (by decide) (m := .alu) rfl SlotOp.noConfusion h rfl rfl)

theorem exec_alui_writes (h : Claims.issuesAlone s t 0 (sWord 0x02 f)) : exec (.alui t f Claims.noOthers) s = .next (Claims.withD s t f.d
    (aluOp f.fn.toNat (sReg (s.slot t) f.a.toNat) (imm64 f)) (aluLate f.fn.toNat)) :=
  congrArg Host.Outcome.next (issueS_writesD (by decide) (m := .alui) rfl SlotOp.noConfusion h rfl rfl)

theorem exec_li_writes (h : Claims.issuesAlone s t 0 (sWord 0x03 f)) :
    exec (.li t f Claims.noOthers) s = .next (Claims.withD s t f.d (imm64 f) false) :=
  congrArg Host.Outcome.next (issueS_writesD (by decide) (m := .li) rfl SlotOp.noConfusion h rfl rfl)

theorem exec_lui_writes (h : Claims.issuesAlone s t 0 (sWord 0x04 f)) : exec (.lui t f Claims.noOthers) s =
    .next (Claims.withD s t f.d (f.imm ++ (sReg (s.slot t) f.d.toNat).setWidth 32) false) :=
  congrArg Host.Outcome.next (issueS_writesD (by decide) (m := .lui) rfl SlotOp.noConfusion h rfl rfl)

end

/-- The word with a given upper half over the lower half of another (R252). -/
theorem append_low_half (u : BitVec 32) (v : W64) :
    (u ++ v.setWidth 32 : W64) = BitVec.ofNat 64 (u.toNat * 2 ^ 32 + v.toNat % 2 ^ 32) := by
  have hu := u.isLt
  refine BitVec.eq_of_toNat_eq ?_
  rw [BitVec.toNat_append, BitVec.toNat_setWidth, BitVec.toNat_ofNat, ← Nat.shiftLeft_add_eq_or_of_lt (Nat.mod_lt _ (Nat.two_pow_pos _)),
    Nat.shiftLeft_eq]
  omega

/-- Settles O12: each operation writes D (`issueS_writesD`), and `aluOp` gives the word of the function's number (`aluOp_eq`). -/
theorem scalarIntegerResults : Obligations.ScalarIntegerResults := by
  unfold Obligations.ScalarIntegerResults
  intro s t f a b k late
  refine ⟨fun h => ⟨_, exec_alu_writes h, aluOp_eq a b f.fn.toNat⟩, fun h => ⟨_, exec_alui_writes h, aluOp_eq a k f.fn.toNat⟩,
    exec_li_writes, fun h => ?_⟩
  rw [exec_lui_writes h, append_low_half]

/-! ### NOP, branches and control registers -/

section
variable {s : State} {t : Slot} {f : SFields}

/-- A bundle of NOPs, whichever of its slots is named. -/
theorem bundleOps_nops (pos : Fin 4) : bundleOps (bundleWith pos.val 0 Claims.noOthers) = some (sAlone .nop (sFieldsOf 0)) := by
  have hb : bundleWith pos.val 0 Claims.noOthers = ⟨0, 0, 0, 0⟩ := by revert pos; decide
  rw [hb]
  rfl

theorem exec_slotNop_moves (pos : Fin 4) (h : Claims.issuesAlone s t pos.val 0) : exec (.slotNop t pos Claims.noOthers) s =
    .next (Claims.issuedFor t (s.setSlot t (Claims.stepTo s (Claims.nextBundle s t) (s.slot t)))) := by
  have hr := running_of_issuesAlone h
  obtain ⟨o, ho⟩ := h
  obtain rfl : sAlone .nop (sFieldsOf 0) = o := Option.some.inj ((bundleOps_nops pos).symm.trans ho.ops)
  have hi : issueBundle t (bundleWith pos.val 0 Claims.noOthers) s = landed s t s :=
    (issueBundle_issues ho).trans (noteIssue_bundleEffect rfl s t)
  exact congrArg Host.Outcome.next (hi.trans (landed_of_running hr))

/-- BR's condition, as R252 reads the operands. -/
theorem brTaken_iff (a b : W64) : ∀ fn, brTaken fn a b = true ↔ Claims.branches fn a b
  | 0 => beq_iff_eq
  | 1 => bne_iff_ne
  | 2 => BitVec.slt_iff_toInt_lt
  | 3 => BitVec.sle_iff_toInt_le
  | 4 => BitVec.ult_iff_toNat_lt
  | _ + 5 => BitVec.ule_iff_toNat_le

theorem exec_br_moves (h : Claims.issuesAlone s t 0 (sWord 0x10 f)) : exec (.br t f Claims.noOthers) s =
    .next (Claims.issuedFor t (s.setSlot t (Claims.stepTo s
      (if brTaken f.fn.toNat (sReg (s.slot t) f.a.toNat) (sReg (s.slot t) f.b.toNat) then branchTarget (s.slot t) f
        else Claims.nextBundle s t) (s.slot t)))) :=
  congrArg Host.Outcome.next (issueS_moves (by decide) (m := .br) rfl SlotOp.noConfusion h rfl)

theorem exec_jal_links (h : Claims.issuesAlone s t 0 (sWord 0x11 f)) : exec (.jal t f Claims.noOthers) s =
    .next (Claims.issuedFor t (s.setSlot t (Claims.stepTo s (branchTarget (s.slot t) f)
      (setSReg (s.slot t) f.d.toNat (Claims.nextBundle s t))))) :=
  congrArg Host.Outcome.next (issueS_sets (by decide) (m := .jal) rfl SlotOp.noConfusion h rfl rfl)

theorem exec_jalr_links (h : Claims.issuesAlone s t 0 (sWord 0x12 f)) : exec (.jalr t f Claims.noOthers) s =
    .next (Claims.issuedFor t (s.setSlot t (Claims.stepTo s ((sReg (s.slot t) f.a.toNat + imm64 f) &&& ~~~31)
      (setSReg (s.slot t) f.d.toNat (Claims.nextBundle s t))))) :=
  congrArg Host.Outcome.next (issueS_sets (by decide) (m := .jalr) rfl SlotOp.noConfusion h rfl rfl)

/-- Bits 4 to 0 cleared. -/
theorem and_not_31 (x : W64) : x &&& ~~~31 = BitVec.ofNat 64 (x.toNat / 32 * 32) := by
  refine BitVec.eq_of_getLsbD_eq fun i hi => ?_
  have hx : x.toNat / 32 * 32 = 2 ^ 5 * (x.toNat / 2 ^ 5) := Nat.mul_comm ..
  have h31 : (31 : W64).getLsbD i = decide (i < 5) := Nat.testBit_two_pow_sub_one 5 i
  rw [BitVec.getLsbD_and, BitVec.getLsbD_not, h31, decide_eq_true hi, Bool.true_and, BitVec.getLsbD_ofNat, decide_eq_true hi,
    Bool.true_and, hx, Nat.testBit_two_pow_mul, Nat.testBit_div_two_pow]
  by_cases h5 : i < 5
  · rw [decide_eq_true h5, decide_eq_false (by omega)]
    simp
  · rw [decide_eq_false h5, decide_eq_true (by omega), Nat.sub_add_cancel (by omega)]
    simp [BitVec.getLsbD]

theorem exec_csrr_reads (h : Claims.issuesAlone s t 0 (sWord 0x20 f)) : exec (.csrr t f Claims.noOthers) s =
    .next (Claims.withD s t f.d ((csrRead s t (s.slot t) f.imm.toNat).getD 0) false) :=
  congrArg Host.Outcome.next (issueS_writesD (by decide) (m := .csrr) rfl SlotOp.noConfusion h rfl rfl)

theorem toNat_ofNat_of_lt {n : Nat} (h : n < 2 ^ 64) : (BitVec.ofNat 64 n).toNat = n := by
  rw [BitVec.toNat_ofNat, Nat.mod_eq_of_lt h]

theorem toNat_vcfgWord (x : SlotState) : (BitVec.ofNat 64 (vcfgWord x)).toNat =
    x.vl.toNat + 2 ^ 16 * x.vt.toNat + 2 ^ 21 * x.grp.toNat + if x.pair then 2 ^ 23 else 0 := by
  have hp : 2 ^ 23 * bnat x.pair = if x.pair then 2 ^ 23 else 0 := by cases x.pair <;> rfl
  have hle : bnat x.pair ≤ 1 := by cases x.pair <;> decide
  refine (toNat_ofNat_of_lt ?_).trans (congrArg _ hp)
  unfold vcfgWord
  omega

/-- The state that CSRW leaves of its slot's registers. -/
def csrWritten (x : SlotState) (f : SFields) : SlotState :=
  if f.imm = 0 then { x with rmode := (sReg x f.a.toNat).setWidth 2 } else { x with fpsr := (sReg x f.a.toNat).setWidth 6 }

theorem exec_csrw_writes (h : Claims.issuesAlone s t 0 (sWord 0x21 f)) : exec (.csrw t f Claims.noOthers) s =
    .next (Claims.issuedFor t (s.setSlot t (Claims.stepTo s (Claims.nextBundle s t) (csrWritten (s.slot t) f)))) := by
  have hx : (csrWritten (s.slot t) f).stopped = (s.slot t).stopped := by unfold csrWritten; split <;> rfl
  exact congrArg Host.Outcome.next (issueS_sets (by decide) (m := .csrw) rfl SlotOp.noConfusion h hx rfl)

end

/-! ### STOP (R225) -/

theorem mem_foldl_tabErase {α : Type} {p : Nat × α} (l : List Nat) :
    ∀ m : Tab α, p ∈ l.foldl tabErase m ↔ p ∈ m ∧ p.1 ∉ l := by
  induction l with
  | nil => exact fun m => ⟨fun h => ⟨h, List.not_mem_nil⟩, And.left⟩
  | cons k l ih =>
    intro m
    rw [List.foldl_cons, ih, tabErase, List.mem_filter, List.mem_cons, not_or, and_assoc]
    simp

/-- What a raised event leaves in the event paths does not depend on slots and cores. -/
theorem raiseEv_ev_congr (s : State) (a : Tab SlotState) (b : Tab CoreState) (code src : BitVec 16) (args : List Nat) (ctx : Option Ctx)
    (job : BitVec 8) (sub : BitVec 3) :
    (raiseEv { s with slots := a, cores := b } code src args ctx job sub).ev = (raiseEv s code src args ctx job sub).ev := by
  unfold raiseEv raiseRec evOffer
  dsimp only
  rw [apply_ite State.ev, apply_ite State.ev, apply_ite State.ev, apply_ite State.ev]
  rfl

/-- The handles that slot t holds beside those of chain passes. -/
def heldHandles (s : State) (t : Slot) : List (Nat × Handle) :=
  (s.core (slotCore t)).handles.filter fun h => decide (h.2.owner = t) && !h.2.pass

/-- The state after the handles of slot t are released, with the leak noted. -/
def handlesEnded (s : State) (t : Slot) : State :=
  let u := releaseHandles s (slotCore t) ((heldHandles s t).map Prod.fst)
  if heldHandles s t = [] then u else raiseEv u evTileLeak (srcCore (slotCore t)) [] (some (s.slot t).ctx) 0xFF 1

section
variable {s : State} {t : Slot}

theorem stopSlot_eq (s : State) (t : Slot) : stopSlot t s =
    tryFree ((handlesEnded s t).setSlot t { (handlesEnded s t).slot t with ending := true }) t := rfl

theorem slot_handlesEnded (s : State) (t t' : Slot) : (handlesEnded s t).slot t' = s.slot t' := by
  have hr : (releaseHandles s (slotCore t) ((heldHandles s t).map Prod.fst)).slot t' = s.slot t' := by
    unfold State.slot
    rw [releaseHandles_slots]
  unfold handlesEnded
  dsimp only
  split
  · exact hr
  · rw [raiseEv_slot, hr]

theorem handles_handlesEnded (s : State) (t : Slot) : ((handlesEnded s t).core (slotCore t)).handles =
    ((heldHandles s t).map Prod.fst).foldl tabErase (s.core (slotCore t)).handles := by
  unfold handlesEnded
  dsimp only
  split
  · exact handles_releaseHandles ..
  · rw [raiseEv_core]
    exact handles_releaseHandles ..

theorem handlesEnded_of_none (h : heldHandles s t = []) : handlesEnded s t = s := by
  unfold handlesEnded
  dsimp only
  rw [if_pos h, h]
  rfl

theorem handlesEnded_ev (s : State) (t : Slot) : (handlesEnded s t).ev = if heldHandles s t = [] then s.ev else
    (raiseEv s evTileLeak (srcCore (slotCore t)) [] (some (s.slot t).ctx) 0xFF 1).ev := by
  unfold handlesEnded
  dsimp only
  split
  · rw [releaseHandles_eq]
  · rw [releaseHandles_eq]
    exact raiseEv_ev_congr s s.slots _ _ _ _ _ _ _

theorem heldHandles_eq_nil : heldHandles s t = [] ↔ ∀ h ∈ (s.core (slotCore t)).handles, h.2.owner = t → h.2.pass = true := by
  unfold heldHandles
  rw [List.filter_eq_nil_iff]
  simp

/-- None but the handles of chain passes are left to the slot. -/
theorem passes_handlesEnded {h : Nat × Handle} (hm : h ∈ ((handlesEnded s t).core (slotCore t)).handles) (ho : h.2.owner = t) :
    h.2.pass = true := by
  rw [handles_handlesEnded, mem_foldl_tabErase] at hm
  obtain ⟨hs, hk⟩ := hm
  by_contra hp
  exact hk (List.mem_map_of_mem (List.mem_filter.2 ⟨hs, by simp [ho, hp]⟩))

end

/-! ### STOP in a bundle of its own -/

section
variable {s : State} {t : Slot}

/-- A slot with no handle, no pending register and no command in a queue is free as it stops. -/
theorem stopSlot_frees (hh : heldHandles s t = []) (hp : (s.slot t).pending = []) (hq : ∀ k, engHolds s t k = false) :
    stopSlot t s = s.setSlot t {} := by
  have hq' : ∀ x k, engHolds (s.setSlot t x) t k = false := fun _ k => hq k
  rw [stopSlot_eq, handlesEnded_of_none hh]
  unfold tryFree
  dsimp only
  rw [State.setSlot_slot_same, if_pos ⟨rfl, hp, by simp [hq']⟩, State.setSlot_setSlot]

/-- A slot that stops is free, or is as it was and ends later. -/
theorem slot_stopSlot (s : State) (t : Slot) :
    (stopSlot t s).slot t = { s.slot t with ending := true } ∨ (stopSlot t s).slot t = {} := by
  rw [stopSlot_eq]
  rcases tryFree_eq ((handlesEnded s t).setSlot t { (handlesEnded s t).slot t with ending := true }) t with h | ⟨-, h⟩ <;>
    rw [h, State.setSlot_slot_same]
  · exact .inl (by rw [slot_handlesEnded])
  · exact .inr rfl

theorem handles_stopSlot (s : State) (t : Slot) :
    ((stopSlot t s).core (slotCore t)).handles = ((handlesEnded s t).core (slotCore t)).handles := by
  rw [stopSlot_eq, (slotsAndCounters_tryFree ..).handles]
  rfl

theorem stopSlot_ev (s : State) (t : Slot) : (stopSlot t s).ev = (handlesEnded s t).ev := by
  rw [stopSlot_eq]
  rcases tryFree_eq ((handlesEnded s t).setSlot t { (handlesEnded s t).slot t with ending := true }) t with h | ⟨-, h⟩ <;>
    rw [h] <;> rfl

/-- The state in which STOP finds its slot: at the next bundle. -/
def atStop (s : State) (t : Slot) : State := s.setSlot t (Claims.stepTo s (Claims.nextBundle s t) (s.slot t))

theorem slot_atStop (s : State) (t : Slot) : (atStop s t).slot t = Claims.stepTo s (Claims.nextBundle s t) (s.slot t) :=
  State.setSlot_slot_same ..

theorem heldHandles_atStop (s : State) (t : Slot) : heldHandles (atStop s t) t = heldHandles s t := rfl

theorem exec_stop_ends {f : SFields} (h : Claims.issuesAlone s t 0 (sWord 0x3E f)) :
    exec (.stop t f Claims.noOthers) s = .next (Claims.issuedFor t (stopSlot t (atStop s t))) := by
  have hr : ((atStop s t).slot t).stopped = false := by
    rw [slot_atStop]
    exact running_of_issuesAlone h
  have hb : bundleEffect t (sAlone .stop f) s = stopSlot t (atStop s t) :=
    (if_neg (Bool.eq_false_iff.1 hr)).trans (if_pos rfl)
  refine congrArg Host.Outcome.next ((issueS_alone (by decide) (m := .stop) rfl h).trans ?_)
  rw [hb]
  rfl

theorem stopSlot_atStop_ev (s : State) (t : Slot) : (stopSlot t (atStop s t)).ev = if heldHandles s t = [] then s.ev else
    (raiseEv s evTileLeak (srcCore (slotCore t)) [] (some (s.slot t).ctx) 0xFF 1).ev := by
  have hctx : ((atStop s t).slot t).ctx = (s.slot t).ctx := by rw [slot_atStop]; rfl
  rw [stopSlot_ev, handlesEnded_ev, hctx]
  exact if_congr Iff.rfl rfl (raiseEv_ev_congr s _ s.cores _ _ _ _ _ _)

/-- The core's note of who issued leaves its handles alone. -/
theorem handles_issuedFor (u : State) (t : Slot) : ((Claims.issuedFor t u).core (slotCore t)).handles = (u.core (slotCore t)).handles := by
  unfold Claims.issuedFor noteIssue
  dsimp only
  rw [State.setCore_core_same]

end

/-- Settles O14: branches, links and control registers by the S operation that each is (`issueS_moves`, `issueS_sets`,
`issueS_writesD`), STOP by `stopSlot` (`exec_stop_ends`). -/
theorem scalarControl : Obligations.ScalarControl := by
  unfold Obligations.ScalarControl
  intro s t f x a k
  refine ⟨fun pos => exec_slotNop_moves pos, fun h => ⟨fun hb => ?taken, fun hb => ?untaken⟩, exec_jal_links, fun h => ?jalr,
    fun h => ⟨_, exec_csrr_reads h, ?csrs⟩, fun h => ⟨fun hf => ?fpcr, fun hf => ?fpsr⟩, fun h hp hh hq => ?frees,
    fun h => ⟨_, exec_stop_ends h, ?handles, ?running, ?ev⟩⟩
  case taken =>
    rw [exec_br_moves h, if_pos ((brTaken_iff ..).2 hb)]
    rfl
  case untaken =>
    rw [exec_br_moves h, if_neg (mt (brTaken_iff ..).1 hb)]
    rfl
  case jalr =>
    rw [exec_jalr_links h, and_not_31]
    rfl
  case csrs =>
    refine ⟨fun hf => ?_, fun hf => ?_, fun hf => ?_, fun hf => ?_, fun hf => ?_, fun hf hc => ?_, fun hf => ?_, fun hf => ?_,
      fun hf => ?_⟩ <;> rw [hf]
    · exact BitVec.toNat_setWidth_of_le (by decide)
    · exact BitVec.toNat_setWidth_of_le (by decide)
    · exact toNat_vcfgWord x
    · exact toNat_ofNat_of_lt (by omega)
    · exact toNat_ofNat_of_lt (by omega)
    · have hm : x.scCount % 512 = x.scCount := Nat.mod_eq_of_lt (by omega)
      refine (toNat_ofNat_of_lt (by omega)).trans ?_
      rw [hm]
    · exact BitVec.toNat_setWidth_of_le (by decide)
    · rfl
    · rfl
  case fpcr =>
    rw [exec_csrw_writes h, csrWritten, if_pos hf, BitVec.ofNat_toNat]
    rfl
  case fpsr =>
    rw [exec_csrw_writes h, csrWritten, if_neg (by rw [hf]; decide), BitVec.ofNat_toNat]
    rfl
  case frees =>
    have hnone : heldHandles (atStop s t) t = [] := heldHandles_eq_nil.2 fun i hi ho => absurd ho (hh i hi)
    have hidle : ∀ e, engHolds (atStop s t) t e = false := fun e => List.any_eq_false.2 fun c hc =>
      mt beq_iff_eq.1 (hq e c hc)
    rw [exec_stop_ends h, stopSlot_frees hnone (by rw [slot_atStop]; exact hp) hidle, atStop, State.setSlot_setSlot]
  case handles =>
    rw [handles_issuedFor, handles_stopSlot]
    exact fun i hi ho => passes_handlesEnded hi ho
  case running =>
    intro hrun
    have hu : (Claims.issuedFor t (stopSlot t (atStop s t))).slot t = (stopSlot t (atStop s t)).slot t := rfl
    rw [hu] at hrun ⊢
    rcases slot_stopSlot (atStop s t) t with hs | hs
    · rw [hs, slot_atStop]
      exact ⟨rfl, rfl⟩
    · rw [hs] at hrun
      exact absurd hrun Bool.false_ne_true
  case ev =>
    refine (stopSlot_atStop_ev s t).trans ?_
    have hleak : heldHandles s t = [] ↔ ¬ ∃ h ∈ (s.core (slotCore t)).handles, h.2.owner = t ∧ h.2.pass = false := by
      rw [heldHandles_eq_nil]
      simp
    by_cases hn : heldHandles s t = []
    · rw [if_pos hn, if_neg (hleak.1 hn)]
    · rw [if_neg hn, if_pos (not_not.1 (mt hleak.2 hn))]

end Sys2Proof.Machine

end

section

/-! SUPPORT. V.CFG, V.BCAST and the operations on masks, each in a bundle of its own (R227, R229, R233), and obligation O16. -/

namespace Sys2Proof.Machine

open Sys2Proof

/-! ### V.CFG (R227) -/

theorem vCfg_command (t : Slot) (f : EFields) : VCommand t f .vCfg 0x01 (.vCfg t f Claims.noOthers) :=
  ⟨fun _ => rfl, rfl, by decide, SlotOp.noConfusion, SlotOp.noConfusion⟩

/-- The configuration that V.CFG leaves, its VL and VLMAX those of the type that IMM15 names. -/
theorem vCfg_eq (f : EFields) (old : SlotState) {fm : Fmt} (hf : vtType (f.imm.toNat % 32) = some fm) :
    vCfg f old old = setSReg { old with
        vl := BitVec.ofNat 13 (min (sReg old f.a.toNat).toNat (2 ^ (f.imm.toNat / 32 % 4) * 2048 / fm.width))
        vt := BitVec.ofNat 5 f.imm.toNat, grp := BitVec.ofNat 2 (f.imm.toNat / 32), pair := decide (f.imm.toNat / 128 % 2 = 1) }
      f.d.toNat (BitVec.ofNat 64 (min (sReg old f.a.toNat).toNat (2 ^ (f.imm.toNat / 32 % 4) * 2048 / fm.width))) := by
  have hvt : cfgVt f = f.imm.toNat % 32 := fld_low ..
  have hg : cfgGrp f = f.imm.toNat / 32 % 4 := rfl
  have hp : cfgPair f = decide (f.imm.toNat / 128 % 2 = 1) := rfl
  have hty : BitVec.ofNat 5 (f.imm.toNat % 32) = BitVec.ofNat 5 f.imm.toNat := BitVec.eq_of_toNat_eq (Nat.mod_mod ..)
  have hgr : BitVec.ofNat 2 (f.imm.toNat / 32 % 4) = BitVec.ofNat 2 (f.imm.toNat / 32) := BitVec.eq_of_toNat_eq (Nat.mod_mod ..)
  unfold vCfg
  dsimp only
  rw [hvt, hg, hp, hf, hty, hgr]
  rfl

/-! ### Masks -/

theorem getLsbD_maskFromBits (m : MReg) (l : List Bool) {i : Nat} (h : i < 4096) :
    (maskFromBits m l).getLsbD i = l[i]?.getD (m.getLsbD i) := by
  have hlow : l.foldr (fun b acc => bnat b + 2 * acc) 0 < 2 ^ l.length := by
    refine Nat.lt_pow_two_of_testBit _ fun j hj => ?_
    rw [testBit_foldr_bits, List.getElem?_eq_none hj]
    rfl
  unfold maskFromBits
  dsimp only
  rw [BitVec.getLsbD_ofNat, decide_eq_true h, Bool.true_and, Nat.mul_comm, Nat.testBit_two_pow_mul_add _ hlow]
  by_cases hi : i < l.length
  · rw [if_pos hi, testBit_foldr_bits, List.getElem?_eq_getElem hi]
    rfl
  · rw [if_neg hi, Nat.testBit_div_two_pow, Nat.sub_add_cancel (Nat.le_of_not_lt hi), List.getElem?_eq_none (Nat.le_of_not_lt hi)]
    rfl

section
variable (f : EFields) (old : SlotState)

/-- The comparison of element i by V.CMP. -/
def cmpAt (i : Nat) : Bool × Exc :=
  cmpElem (slotType old) f.sub.toNat (vElem old f.a.toNat (slotType old).width i) (vElem old f.b.toNat (slotType old).width i)

/-- The mask that V.CMP writes. -/
def cmpMask : MReg := maskFromBits (mReg old (f.d.toNat % 8))
  ((rangeFrom 0 old.vl.toNat).map fun i => active old f i && (cmpAt f old i).1)

theorem vCmp_eq : vCmp f old old = { setMReg old (f.d.toNat % 8) (cmpMask f old) with
    fpsr := Claims.stickyFpsr old (Claims.raisedBy old f old.vl.toNat fun i => (cmpAt f old i).2) false } := by
  have hbit : ∀ i, (if active old f i then cmpAt f old i else (false, 0)).1 = (active old f i && (cmpAt f old i).1) := fun i => by
    cases active old f i <;> rfl
  have hexc : ∀ i, (if active old f i then cmpAt f old i else (false, 0)).2 = if active old f i then (cmpAt f old i).2 else 0 :=
    fun i => by cases active old f i <;> rfl
  have hv : vCmp f old old = addExc (setMReg old (f.d.toNat % 8) (maskFromBits (mReg old (f.d.toNat % 8))
        (((rangeFrom 0 old.vl.toNat).map fun i => if active old f i then cmpAt f old i else (false, 0)).map fun r => r.1)))
      (joinExc (((rangeFrom 0 old.vl.toNat).map fun i => if active old f i then cmpAt f old i else (false, 0)).map fun r => r.2)) := rfl
  rw [hv, List.map_map, List.map_map, stickyFpsr_exc, ← joinExc_eq_raisedBy]
  simp only [Function.comp_def, hbit, hexc]
  rfl

/-- Below VL the mask holds the comparisons of the active elements. -/
theorem getLsbD_cmpMask_below {i : Nat} (h : i < old.vl.toNat) (hi : i < 4096) :
    (cmpMask f old).getLsbD i = (active old f i && (cmpAt f old i).1) := by
  unfold cmpMask
  rw [getLsbD_maskFromBits _ _ hi, rangeFrom_zero, List.getElem?_map, List.getElem?_range h]
  rfl

theorem getLsbD_cmpMask_beyond {i : Nat} (h : old.vl.toNat ≤ i) :
    (cmpMask f old).getLsbD i = (mReg old (f.d.toNat % 8)).getLsbD i := by
  by_cases hi : i < 4096
  · unfold cmpMask
    rw [getLsbD_maskFromBits _ _ hi, rangeFrom_zero, List.getElem?_map, List.getElem?_eq_none (by rwa [List.length_range])]
    rfl
  · rw [BitVec.getLsbD_of_ge _ _ (Nat.le_of_not_lt hi), BitVec.getLsbD_of_ge _ _ (Nat.le_of_not_lt hi)]

/-! ### V.BCAST -/

theorem vBcast_eq : vBcast f old old = writeGroup old old f f.d.toNat (slotType old).width
    ((rangeFrom 0 old.vl.toNat).map fun _ => (sReg old f.a.toNat).toNat % 2 ^ (slotType old).width) := by
  unfold vBcast
  rw [List.map_const', length_rangeFrom]

theorem groupHolds_vBcast : Claims.GroupHolds old (vBcast f old old) f f.d.toNat (slotType old).width old.vl.toNat
    fun _ => (sReg old f.a.toNat).toNat := by
  rw [vBcast_eq]
  exact groupHolds_writeGroup (slotType_width old) (fun _ _ _ => rfl) fun _ _ _ => Nat.mod_mod ..

/-! ### Counting and finding ones -/

/-- The number of ones of mask n below VL. -/
theorem length_ones (n : Nat) : ((maskBits old n).filter id).length =
    (List.range old.vl.toNat).countP fun i => (mReg old (n % 8)).getLsbD i := by
  unfold maskBits
  rw [← List.countP_eq_length_filter, List.countP_map, rangeFrom_zero]
  rfl

variable {old} (n : Nat)

theorem findIdx_maskBits_first {i : Nat} (hi : i < old.vl.toNat) (h1 : (mReg old (n % 8)).getLsbD i = true)
    (h0 : ∀ j, j < i → (mReg old (n % 8)).getLsbD j = false) : (maskBits old n).findIdx? id = some i := by
  unfold maskBits
  rw [rangeFrom_zero, List.findIdx?_eq_some_iff_getElem]
  refine ⟨by simpa using hi, by simpa using h1, fun j hj => ?_⟩
  simpa using h0 j hj

theorem findIdx_maskBits_none (h0 : ∀ i, i < old.vl.toNat → (mReg old (n % 8)).getLsbD i = false) :
    (maskBits old n).findIdx? id = none := by
  unfold maskBits
  rw [rangeFrom_zero, List.findIdx?_eq_none_iff]
  simpa using h0

end

/-! ### The commands -/

/-- The operations of O16 that enter the chain's queue with their registers, with their opcodes. -/
def maskCommands (t : Slot) (f : EFields) : List (SlotOp × Nat × Instr) :=
  [(.vBcast, 0x22, .vBcast t f Claims.noOthers), (.vCmp, 0x30, .vCmp t f Claims.noOthers), (.vMop, 0x31, .vMop t f Claims.noOthers),
   (.vMpopc, 0x32, .vMpopc t f Claims.noOthers), (.vMfirst, 0x33, .vMfirst t f Claims.noOthers)]

theorem vCommand_of_maskCommands {t : Slot} {f : EFields} {e : SlotOp × Nat × Instr} (he : e ∈ maskCommands t f) :
    VCommand t f e.1 e.2.1 e.2.2 ∧ ∀ sigs s, vRun e.1 t f sigs s =
      vIssue t sigs (vUse e.1 f (s.slot t)).writes (vRegOp e.1 f (s.slot t) (s.slot t)) s := by
  simp only [maskCommands, List.mem_cons, List.not_mem_nil, or_false] at he
  rcases he with rfl | rfl | rfl | rfl | rfl <;>
    exact ⟨⟨fun _ => rfl, rfl, of_decide_eq_true rfl, SlotOp.noConfusion, SlotOp.noConfusion⟩, fun _ _ => rfl⟩

theorem exec_maskCommand {s : State} {t : Slot} {f : EFields} {sigs : List Signal} (hs : sigOf (s.slot t) t f = some sigs) (op : SlotOp)
    {n : Nat} {i : Instr} (hi : Claims.issuesAlone s t 1 (eWord n f)) {y : SlotState} (hr : vRegOp op f (s.slot t) (s.slot t) = y)
    (hy : y.stopped = (s.slot t).stopped) (he : (op, n, i) ∈ maskCommands t f := by simp [maskCommands]) :
    exec i s = .next (Claims.vDone s t sigs op f y) := by
  obtain ⟨hc, hrun⟩ := vCommand_of_maskCommands he
  exact hc.completes hs hi (hr ▸ hrun sigs s) hy

/-- Settles O16: each operation is a command on registers (`exec_maskCommand`), and its own lemmas say what these hold. -/
theorem vectorConfigAndMasks : Obligations.VectorConfigAndMasks := by
  unfold Obligations.VectorConfigAndMasks
  intro s t f sigs hs old w vl d a b imm
  have hvl : vl = 0 ↔ old.vl = 0 := BitVec.toNat_inj (y := 0)
  refine ⟨fun fm hf h => ?cfg, fun h => ⟨vBcast f old old, ?bcast, ?changes, groupHolds_vBcast f old, ?kept⟩,
    fun h => ⟨_, cmpMask f old, exec_maskCommand hs .vCmp h (vCmp_eq f old) rfl, rfl,
      fun i hi hm => getLsbD_cmpMask_below f old hi hm, fun i hi => getLsbD_cmpMask_beyond f old hi⟩,
    fun h => ⟨fun h0 => ?mopNone, fun h0 => ?mop⟩, fun h => ⟨fun h0 => ?popNone, fun h0 => ?pop⟩,
    fun h => ⟨fun h0 => ?firstNone, fun i hi h1 hb => ?first, fun h0 hz => ?firstZero⟩⟩
  case cfg =>
    exact goes_on h ((vCfg_command t f).lands hs h) (congrArg (fun x => vIssue t sigs [] x s) (vCfg_eq f old hf))
      (noNewStop_vIssue _ _ _ _ _ id)
  case bcast => exact exec_maskCommand hs .vBcast h rfl (by rw [vBcast_eq, writeGroup_changes_vregs])
  case changes => rw [vBcast_eq]; exact writeGroup_changes_vregs ..
  case kept => rw [vBcast_eq]; exact othersKept_writeGroup old f d (width_pos _) vl _
  case mopNone => exact exec_maskCommand hs .vMop h (if_pos (hvl.1 h0)) rfl
  case mop => exact exec_maskCommand hs .vMop h (if_neg (mt hvl.2 h0)) rfl
  case popNone => exact exec_maskCommand hs .vMpopc h (if_pos (hvl.1 h0)) rfl
  case pop =>
    refine exec_maskCommand hs .vMpopc h ((if_neg (mt hvl.2 h0)).trans ?_) rfl
    rw [length_ones]
  case firstNone => exact exec_maskCommand hs .vMfirst h (if_pos (hvl.1 h0)) rfl
  case first =>
    have h0 : vl ≠ 0 := by omega
    refine exec_maskCommand hs .vMfirst h ((if_neg (mt hvl.2 h0)).trans ?_) rfl
    rw [findIdx_maskBits_first f.a.toNat hi h1 hb]
  case firstZero =>
    refine exec_maskCommand hs .vMfirst h ((if_neg (mt hvl.2 h0)).trans ?_) rfl
    rw [findIdx_maskBits_none f.a.toNat hz]

end Sys2Proof.Machine

end

section

/-! SUPPORT. The live slot of a pair of tags (R254, R255), and obligation O7. -/

namespace Sys2Proof.Machine

open Sys2Proof

/-- A slot with tag t is valid under epoch e (R255). -/
abbrev TagValid (e t : Nat) : Prop := t ≠ tagVoid ∧ t ≤ e

section
variable {e ta tb : Nat}

/-- The valid slot with the greater tag is live, slot A where both tags are equal. -/
theorem liveSlot_of_first (ha : TagValid e ta) (h : TagValid e tb → tb ≤ ta) : liveSlot e ta tb = some 0 := by
  by_cases hb : TagValid e tb
  · simp only [liveSlot, decide_eq_true ha, decide_eq_true hb, Nat.not_lt.2 (h hb), Bool.and_self, if_true, if_false]
  · simp only [liveSlot, decide_eq_true ha, decide_eq_false hb, Bool.and_false, Bool.false_eq_true, if_true, if_false]

theorem liveSlot_of_second (hb : TagValid e tb) (h : TagValid e ta → ta < tb) : liveSlot e ta tb = some 1 := by
  by_cases ha : TagValid e ta
  · simp only [liveSlot, decide_eq_true ha, decide_eq_true hb, h ha, Bool.and_self, if_true]
  · simp only [liveSlot, decide_eq_false ha, decide_eq_true hb, Bool.false_and, Bool.false_eq_true, if_true, if_false]

theorem liveSlot_of_neither (ha : ¬ TagValid e ta) (hb : ¬ TagValid e tb) : liveSlot e ta tb = none := by
  simp only [liveSlot, decide_eq_false ha, decide_eq_false hb, Bool.and_self, Bool.false_eq_true, if_false]

variable (e ta tb)

/-- One of the three cases holds of every pair. -/
theorem tagValid_cases : (TagValid e ta ∧ (TagValid e tb → tb ≤ ta)) ∨ (TagValid e tb ∧ (TagValid e ta → ta < tb)) ∨
    (¬ TagValid e ta ∧ ¬ TagValid e tb) := by
  have := Nat.lt_or_ge ta tb
  tauto

end

/-- Settles O7: the pair stands in one of three cases (`tagValid_cases`), in each of which `liveSlot` has its own value. -/
theorem liveSlotRule : Obligations.LiveSlotRule := by
  unfold Obligations.LiveSlotRule
  intro e ta tb _ _ _
  change (_ ↔ ¬ TagValid e ta ∧ ¬ TagValid e tb) ∧ (_ ↔ TagValid e ta ∧ (TagValid e tb → tb ≤ ta)) ∧
    (_ ↔ TagValid e tb ∧ (TagValid e ta → ta < tb))
  rcases tagValid_cases e ta tb with ⟨ha, h⟩ | ⟨hb, h⟩ | ⟨ha, hb⟩
  · rw [liveSlot_of_first ha h]
    exact ⟨iff_of_false nofun fun hn => hn.1 ha, iff_of_true rfl ⟨ha, h⟩,
      iff_of_false (by decide) fun ⟨hb, hlt⟩ => Nat.not_lt.2 (h hb) (hlt ha)⟩
  · rw [liveSlot_of_second hb h]
    exact ⟨iff_of_false nofun fun hn => hn.2 hb, iff_of_false (by decide) fun ⟨ha, hle⟩ => Nat.not_lt.2 (hle hb) (h ha),
      iff_of_true rfl ⟨hb, h⟩⟩
  · rw [liveSlot_of_neither ha hb]
    exact ⟨iff_of_true rfl ⟨ha, hb⟩, iff_of_false nofun fun hf => ha hf.1, iff_of_false nofun fun hs => hb hs.1⟩

end Sys2Proof.Machine

end

section

/-! SUPPORT. The descriptors that wait for a mark: COLL, COMMIT and ROUTE_EPOCH (R254, R273, R342, R359, R360), and obligation O48. -/

namespace Sys2Proof.Machine

open Sys2Proof Claims

section
variable {s : State} {d : DescId} {x : DescState} {w : List Nat}

theorem exec_coll_runs (h : Starts s d opColl x) (hw : readArgs (begun s d) x 8 = some w) :
    exec (.coll d) s = .next (collStart d (withWords x w) w (begun s d)) :=
  congrArg _ (startDesc_withArgs_some h hw _)

theorem exec_commit_runs (h : Starts s d opCommit x) (hw : readArgs (begun s d) x 8 = some w) :
    exec (.commit d) s = .next (commitStart d (withWords x w) w (begun s d)) :=
  congrArg _ (startDesc_withArgs_some h hw _)

theorem exec_routeEpoch_runs (h : Starts s d opRoute x) (hw : readArgs (begun s d) x 8 = some w) :
    exec (.routeEpoch d) s = .next (routeEpoch d (withWords x w) w (begun s d)) :=
  congrArg _ (startDesc_withArgs_some h hw _)

end

/-! ### COLL (R359, R360) -/

section
variable {s : State} {x : DescState} {w : List Nat} (d : DescId)

theorem collStart_bad (h : readColl s x.ctx w = .bad) : collStart d x w s = endDesc (noteColl s x.ctx w) d stBadDescriptor := by
  simp only [collStart, h]

theorem collStart_unreadable (h : readColl s x.ctx w = .fault) :
    collStart d x w s = endDesc (noteColl s x.ctx w) d stArgsFault := by
  simp only [collStart, h]

/-- A job to which the window of an accepted schedule is added. -/
def withWindow (x : JobState) (c : CollState) : JobState := { x with windows := x.windows ++ [c.window] }

theorem collStart_held {c : CollState} (h : readColl s x.ctx w = .ok c) : collStart d x w s =
    (((noteColl s x.ctx w).setJob c.job (withWindow ((noteColl s x.ctx w).job c.job) c)).setDesc d
      { x with phase := .running }).setColl d c := by
  simp only [collStart, h, withWindow]

end

/-! ### COMMIT (R254, R273) -/

/-- The commit that an accepted block of job j leaves in state s, before its vote. -/
def heldCommit (d : DescId) (x : DescState) (w : List Nat) (s : State) (j : Job) : CommitState :=
  { desc := d, step := BitVec.ofNat 32 (descStep x), epoch := BitVec.ofNat 32 (nth w 0)
    voteMark := BitVec.ofNat 64 (nth w 1), commitMark := BitVec.ofNat 64 (nth w 2), sched := BitVec.ofNat 64 (nth w 3)
    counts := [fld (nth w 4) 0 16, fld (nth w 4) 16 16, fld (nth w 4) 32 16, fld (nth w 4) 48 16]
    checkOk := stepOk s j (descStep x) && jobEpoch s j == fld (nth w 0) 0 32, action := .undecided, voted := none
    block := none, voteFlagged := false, reasons := 0 }

section
variable {s : State} {x : DescState} {w : List Nat} {j : Job} (d : DescId)

theorem commitStart_jobless (h : rankJobOf s x.ctx (fld (nth w 0) 32 8) = none) :
    commitStart d x w s = endDesc s d stBadDescriptor := by
  simp only [commitStart, h]

variable (hj : rankJobOf s x.ctx (fld (nth w 0) 32 8) = some j)
include hj

theorem commitStart_refused (h : (commitFormBad w || (s.job j).commit.isSome) = true) :
    commitStart d x w s = endDesc s d stBadDescriptor := by
  simp only [commitStart, hj, h, if_true]

variable (hok : (commitFormBad w || (s.job j).commit.isSome) = false)
include hok

theorem commitStart_atLimit (h : jobEpoch s j = 0xFFFFFFFE) : commitStart d x w s = endDesc s d stEpochLimit := by
  simp only [commitStart, hj, hok, h, if_true, Bool.false_eq_true, if_false]

variable (he : jobEpoch s j ≠ 0xFFFFFFFE)
include he

theorem commitStart_schedBad (h : voteSched s x.ctx j w = .bad) :
    commitStart d x w s = endDesc (noteSched s x.ctx w) d stBadDescriptor := by
  simp only [commitStart, hj, hok, he, h, Bool.false_eq_true, if_false]

theorem commitStart_schedUnreadable (h : voteSched s x.ctx j w = .fault) :
    commitStart d x w s = endDesc (noteSched s x.ctx w) d stArgsFault := by
  simp only [commitStart, hj, hok, he, h, Bool.false_eq_true, if_false]

/-- With a good vote schedule the marks decide: 1,719 ticks lie between the vote's last deadline and C (R273). -/
theorem commitStart_sched {v : CollState} (h : voteSched s x.ctx j w = .ok v) : commitStart d x w s =
    if nth w 2 < nth w 1 + v.bound + 1719 then endDesc (noteSched s x.ctx w) d stBadDescriptor
    else (((noteSched s x.ctx w).setDesc d { x with phase := .running }).setColl d v).setJob j
      { (noteSched s x.ctx w).job j with commit := some (heldCommit d x w (noteSched s x.ctx w) j) } := by
  simp only [commitStart, hj, hok, he, h, Bool.false_eq_true, if_false]
  rfl

end

/-! ### ROUTE_EPOCH (R340, R342, R347) -/

/-- The state once the two tables of a route block have been read: the reads that a reset answered are counted and errors reported. -/
def routeRead (s : State) (c : Ctx) (w : List Nat) : State := noteRouteTables s c (nth w 3) (fld (nth w 0) 32 32) (nth w 4)

/-- The change that an accepted block leaves, with its tables not yet staged. -/
def heldChange (d : DescId) (w : List Nat) (table : List (W64 × W64)) (len : List Nat) : RouteChange :=
  { desc := d, epoch := BitVec.ofNat 2 (fld (nth w 0) 8 8), mark := BitVec.ofNat 64 (nth w 1), bmax := nth w 2
    table := table, ringLen := len, staged := false, switched := false }

/-- What refuses a route block of job j before its tables are read. -/
def routeBad (s : State) (j : Job) (w : List Nat) : Bool :=
  routeFormBad w || routeMarkBad (s.job j) (fld (nth w 0) 8 8) (nth w 1) || markInColl s j (nth w 1)

section
variable {s : State} {x : DescState} {w : List Nat} {j : Job} (d : DescId)

theorem routeEpoch_jobless (h : jobOf s x.ctx (fld (nth w 0) 0 8) = none) : routeEpoch d x w s = endDesc s d stBadDescriptor := by
  simp only [routeEpoch, h]

variable (hj : jobOf s x.ctx (fld (nth w 0) 0 8) = some j)
include hj

theorem routeEpoch_refused (h : routeBad s j w = true) : routeEpoch d x w s = endDesc s d stBadDescriptor := by
  rw [routeBad] at h
  simp only [routeEpoch, hj, h, if_true]

variable (hok : routeBad s j w = false)
include hok

theorem routeEpoch_unreadable
    (ht : readRankTable s x.ctx (nth w 3) (fld (nth w 0) 32 32) = none ∨ readRingTable s x.ctx (nth w 4) = none) :
    routeEpoch d x w s = endDesc (routeRead s x.ctx w) d stArgsFault := by
  rw [routeBad] at hok
  simp only [routeEpoch, hj, hok, Bool.false_eq_true, if_false]
  split
  · next table len hread =>
    obtain ⟨hranks, hrings⟩ := Prod.mk.inj hread
    rw [hranks, hrings] at ht
    exact absurd ht (by simp)
  · rfl

theorem routeEpoch_readable {table : List (W64 × W64)} {len : List Nat}
    (ht : readRankTable s x.ctx (nth w 3) (fld (nth w 0) 32 32) = some table) (hr : readRingTable s x.ctx (nth w 4) = some len) :
    routeEpoch d x w s =
      if !(table.all (routeOk len)) || !ringTableOk len then endDesc (routeRead s x.ctx w) d stBadDescriptor
      else if !routeFits (routeRead s x.ctx w) j (fld (nth w 0) 32 32) then endDesc (routeRead s x.ctx w) d stNoRouteSpace
      else ((routeRead s x.ctx w).setDesc d { x with phase := .running }).setJob j
        { (routeRead s x.ctx w).job j with change := some (heldChange d w table len) } := by
  rw [routeBad] at hok
  simp only [routeEpoch, hj, hok, ht, hr, Bool.false_eq_true, if_false]
  rfl

end

/-- Settles O48: COLL as its schedule reads, COMMIT as the checks up to `commitStart_sched` and ROUTE_EPOCH as those up to
`routeEpoch_readable` come in order. -/
theorem markDescriptorsStart : Obligations.MarkDescriptorsStart := by
  unfold Obligations.MarkDescriptorsStart
  intro s d x w b y ends hw
  refine ⟨fun h => ?coll, fun h => ?commit, fun h => ?route⟩
  case coll =>
    rw [exec_coll_runs h hw]
    exact ⟨fun hb => congrArg _ (collStart_bad d hb), fun hf => congrArg _ (collStart_unreadable d hf),
      fun c hc => congrArg _ (collStart_held d hc)⟩
  case commit =>
    rw [exec_commit_runs h hw]
    refine ⟨fun hj => congrArg _ (commitStart_jobless d hj), fun j hj => ⟨fun hbad => congrArg _ (commitStart_refused d hj hbad),
      fun hok => ⟨fun he => congrArg _ (commitStart_atLimit d hj hok he), fun he =>
        ⟨fun hb => congrArg _ (commitStart_schedBad d hj hok he hb), fun hf => congrArg _ (commitStart_schedUnreadable d hj hok he hf),
          fun v hv => ?marks⟩⟩⟩⟩
    rw [commitStart_sched (x := withWords x w) d hj hok he hv]
    exact ⟨fun hlate => congrArg _ (if_pos hlate), fun hgood => congrArg _ (if_neg (Nat.not_lt.2 hgood))⟩
  case route =>
    rw [exec_routeEpoch_runs h hw]
    refine ⟨fun hj => congrArg _ (routeEpoch_jobless d hj), fun j hj => ⟨fun hbad => congrArg _ (routeEpoch_refused d hj hbad),
      fun hok ht => congrArg _ (routeEpoch_unreadable d hj hok ht), fun hok t len ht hr hform => ?malformed,
      fun hok t len ht hr hroutes hrings => ⟨fun hfull => ?full, fun hfits => ?fits⟩⟩⟩
    all_goals
      rw [routeEpoch_readable (x := withWords x w) d hj hok ht hr]
      refine congrArg _ ?_
    case malformed => exact if_pos (by rw [← Bool.not_and, hform]; rfl)
    case full => exact (if_neg (by simp [hroutes, hrings])).trans (if_pos ((Bool.not_eq_true' _).mpr hfull))
    case fits => exact (if_neg (by simp [hroutes, hrings])).trans (if_neg (by rw [Bool.not_eq_true', Bool.not_eq_false]; exact hfits))

end Sys2Proof.Machine

end

section

/-! SUPPORT. Every operation of the model keeps the canonical form of the memories, one lemma per operation in the order of the model, and
obligation O2. -/

namespace Sys2Proof.Machine

open Sys2Proof

/-- The memories of the state are in their canonical form (R284, R294). -/
def Canonical (s : State) : Prop := s.mem.wf = true

section Composition

variable {s t : State}

section Fields

variable {p f sl co pa up qm ln ga cl jo gl pw se ev ou}

/-- The rest of the state stands for any other. -/
protected theorem Canonical.mk (hs : Canonical s) :
    Canonical ⟨p, f, s.mem, sl, co, pa, up, qm, ln, ga, cl, jo, gl, pw, se, ev, ou⟩ := hs

/-- What the memories keep beside their banks stands for any other. -/
protected theorem Canonical.sameBanks {vo ct sc rf rt tr ta sr hp hd si ec eu ap} (hs : Canonical s) :
    Canonical ⟨p, f, ⟨s.mem.gddr, s.mem.bench, s.mem.pstore, s.mem.host, s.mem.flash, s.mem.secSram, s.mem.linkFw, vo, ct, sc, rf, rt,
      tr, ta, sr, hp, hd, si, ec, eu, ap⟩, sl, co, pa, up, qm, ln, ga, cl, jo, gl, pw, se, ev, ou⟩ := hs

protected theorem Canonical.newGddr {b : Bank} (hs : Canonical s) (hb : b.wf = true) :
    Canonical ⟨p, f, { s.mem with gddr := b }, sl, co, pa, up, qm, ln, ga, cl, jo, gl, pw, se, ev, ou⟩ := s.setBank_wf .gddr b hs hb

protected theorem Canonical.newBench {b : Bank} (hs : Canonical s) (hb : b.wf = true) :
    Canonical ⟨p, f, { s.mem with bench := b }, sl, co, pa, up, qm, ln, ga, cl, jo, gl, pw, se, ev, ou⟩ := s.setBank_wf .bench b hs hb

protected theorem Canonical.newPstore {b : Bank} (hs : Canonical s) (hb : b.wf = true) :
    Canonical ⟨p, f, { s.mem with pstore := b }, sl, co, pa, up, qm, ln, ga, cl, jo, gl, pw, se, ev, ou⟩ := s.setBank_wf .pstore b hs hb

protected theorem Canonical.newHost {b : Bank} (hs : Canonical s) (hb : b.wf = true) :
    Canonical ⟨p, f, { s.mem with host := b }, sl, co, pa, up, qm, ln, ga, cl, jo, gl, pw, se, ev, ou⟩ := s.setBank_wf .host b hs hb

protected theorem Canonical.newFlash {b : Bank} (hs : Canonical s) (hb : b.wf = true) :
    Canonical ⟨p, f, { s.mem with flash := b }, sl, co, pa, up, qm, ln, ga, cl, jo, gl, pw, se, ev, ou⟩ := s.setBank_wf .flash b hs hb

/-- A boot loads the panel stores, the SRAM of the security block and the link dies' stores. -/
protected theorem Canonical.loaded {b c d : Bank} (hs : Canonical s) (hb : b.wf = true) (hc : c.wf = true) (hd : d.wf = true) :
    Canonical ⟨p, f, { s.mem with pstore := b, secSram := c, linkFw := d }, sl, co, pa, up, qm, ln, ga, cl, jo, gl, pw, se, ev, ou⟩ := by
  obtain ⟨hgddr, hbench, -, hhost, hflash, -, -⟩ := (MemState.wf_iff _).1 hs
  exact (MemState.wf_iff _).2 ⟨hgddr, hbench, hb, hhost, hflash, hc, hd⟩

/-- A panel's reset loses ranges of its benches and of its store. -/
protected theorem Canonical.panelLost {a b n k : Nat} (hs : Canonical s) :
    Canonical ⟨p, f, { s.mem with bench := loseRange s.mem.bench a n, pstore := loseRange s.mem.pstore b k }, sl, co, pa, up, qm, ln, ga,
      cl, jo, gl, pw, se, ev, ou⟩ := by
  obtain ⟨hgddr, hbench, hpstore, hhost, hflash, hsec, hlink⟩ := (MemState.wf_iff _).1 hs
  exact (MemState.wf_iff _).2 ⟨hgddr, tabWf_filter _ _ _ hbench, tabWf_filter _ _ _ hpstore, hhost, hflash, hsec, hlink⟩

end Fields

protected theorem Canonical.ite {c : Prop} [Decidable c] (hs : Canonical s) (ht : Canonical t) :
    Canonical (if c then s else t) := by
  split <;> assumption

protected theorem Canonical.ite_fst {α : Type} {c : Prop} [Decidable c] {a b : State × α} (ha : Canonical a.1)
    (hb : Canonical b.1) : Canonical (if c then a else b).1 := by
  split <;> assumption

protected theorem Canonical.dite {c : Prop} [Decidable c] {a : c → State} {b : ¬ c → State} (ha : ∀ h, Canonical (a h))
    (hb : ∀ h, Canonical (b h)) : Canonical (if h : c then a h else b h) := by
  split
  · exact ha _
  · exact hb _

protected theorem Canonical.foldl {β : Type} {g : State → β → State} {l : List β} (hs : Canonical s)
    (hg : ∀ s b, Canonical s → Canonical (g s b)) : Canonical (l.foldl g s) := by
  induction l generalizing s with
  | nil => exact hs
  | cons b t ih => exact ih (hg s b hs)

protected theorem Canonical.foldl_fst {α β : Type} {g : State × α → β → State × α} {l : List β} {x : α} (hs : Canonical s)
    (hg : ∀ a b, Canonical a.1 → Canonical (g a b).1) : Canonical (l.foldl g (s, x)).1 :=
  have h : ∀ (l : List β) (a : State × α), Canonical a.1 → Canonical (l.foldl g a).1 := fun l => by
    induction l with
    | nil => exact fun _ h => h
    | cons b t ih => exact fun a h => ih _ (hg a b h)
  h l (s, x) hs

protected theorem Canonical.getD {o : Option State} (ho : ∀ u, o = some u → Canonical u) (ht : Canonical t) :
    Canonical (o.getD t) := by
  cases o with
  | none => exact ht
  | some u => exact ho u rfl

protected theorem Canonical.of_fst {α : Type} {a : State × α} {x : α} (h : a = (t, x)) (ha : Canonical a.1) : Canonical t := by
  rwa [h] at ha

end Composition

theorem foldl_wf {α : Type} {g : Bank → α → Bank} (hg : ∀ b a, b.wf = true → (g b a).wf = true) {l : List α} {b : Bank}
    (h : b.wf = true) : (l.foldl g b).wf = true := by
  induction l generalizing b with
  | nil => exact h
  | cons a t ih => exact ih (hg b a h)

section
variable {s : State} (hs : Canonical s)
include hs

protected theorem Canonical.updSec {g} : Canonical (updSec s g) := hs

/-! ### The setters of the state -/

protected theorem Canonical.setSlot {t x} : Canonical (State.setSlot s t x) := hs
protected theorem Canonical.setCore {c x} : Canonical (State.setCore s c x) := hs
protected theorem Canonical.setPanel {p x} : Canonical (State.setPanel s p x) := hs
protected theorem Canonical.setUpdEngine {p x} : Canonical (State.setUpdEngine s p x) := hs
protected theorem Canonical.updCtx {c g} : Canonical (updCtx s c g) := hs
protected theorem Canonical.setLink {l x} : Canonical (State.setLink s l x) := hs
protected theorem Canonical.setRing {r x} : Canonical (State.setRing s r x) := hs
protected theorem Canonical.setDie {d x} : Canonical (State.setDie s d x) := hs
protected theorem Canonical.setJob {j x} : Canonical (State.setJob s j x) := hs
protected theorem Canonical.setDesc {d x} : Canonical (State.setDesc s d x) := hs
protected theorem Canonical.dropDesc {d} : Canonical (State.dropDesc s d) := hs
protected theorem Canonical.setColl {d x} : Canonical (State.setColl s d x) := hs
protected theorem Canonical.dropColl {d} : Canonical (State.dropColl s d) := hs
protected theorem Canonical.emit {o} : Canonical (State.emit s o) := hs

/-! ### The event log -/

protected theorem Canonical.setPath {n x} : Canonical (State.setPath s n x) := by
  unfold State.setPath
  split <;> exact .mk hs

protected theorem Canonical.setBank {k : Space} {b : Bank} (hb : b.wf = true) : Canonical (s.setBank k b) :=
  s.setBank_wf k b hs hb

protected theorem Canonical.written (k : Space) {a : Nat} {data : List Byte} {bad : Bool} :
    Canonical (s.setBank k (bankWrite (s.bank k) a data bad)) :=
  .setBank hs (bankWrite_wf _ _ _ _ (s.bank_wf k hs))

protected theorem Canonical.evWrite {n e} : Canonical (evWrite s n e) := by
  unfold evWrite
  split
  · exact .setPath hs
  · exact .setPath hs
  · exact .newGddr (.setPath hs) (bankWrite_wf _ _ _ _ (State.bank_wf _ .gddr (Canonical.setPath hs)))
  · exact .newHost (.setPath hs) (bankWrite_wf _ _ _ _ (State.bank_wf _ .host (Canonical.setPath hs)))

protected theorem Canonical.evOffer {n e} : Canonical (evOffer s n e) := .ite (.evWrite (.setPath hs)) (.setPath hs)
protected theorem Canonical.raiseRec {e} : Canonical (raiseRec s e) := .ite hs (.evOffer hs)
protected theorem Canonical.raiseI3c {code args} : Canonical (raiseI3c s code args) := .evOffer hs

protected theorem Canonical.raiseEv {code src args ctx job sub} : Canonical (raiseEv s code src args ctx job sub) :=
  .raiseRec hs

protected theorem Canonical.evFlushEntry {n e} : Canonical (evFlushEntry n s e) := .ite (.evWrite (.setPath hs)) hs

protected theorem Canonical.evFlush {n} : Canonical (evFlush s n) :=
  .ite (.evWrite (.setPath (.foldl hs fun _ _ h => .evFlushEntry h))) (.foldl hs fun _ _ h => .evFlushEntry h)

protected theorem Canonical.flushAll : Canonical (flushAll s) := .foldl hs fun _ _ h => .evFlush h
protected theorem Canonical.offerOn {e} : Canonical (offerOn s e) := .ite hs (.evOffer (.evOffer (.evOffer hs)))

protected theorem Canonical.scanRings : Canonical (scanRings s) :=
  .foldl (.foldl hs fun _ _ h => .setPath h) fun _ _ h => .offerOn h

protected theorem Canonical.evDropHeld {n} : Canonical (evDropHeld s n) := .setPath hs
protected theorem Canonical.dropHeld : Canonical (dropHeld s) := .foldl hs fun _ _ h => .evDropHeld h
protected theorem Canonical.closePaths : Canonical (closePaths s) := .dropHeld (.flushAll (.scanRings hs))

/-! ### Memory writes (vaWrite and below) -/

protected theorem Canonical.setMemCtl {p c} : Canonical (State.setMemCtl s p c) := hs

protected theorem Canonical.gddrWrite {pa data bad} : Canonical (gddrWrite s pa data bad) := by
  unfold gddrWrite
  exact .ite (.setMemCtl hs) (.newGddr hs (bankWrite_wf _ _ _ _ (s.bank_wf .gddr hs)))

protected theorem Canonical.noteResetRead {pa} : Canonical (noteResetRead s pa) := .ite (.setMemCtl hs) hs

protected theorem Canonical.writeParts {bad l data} : Canonical (writeParts s bad l data) := by
  induction l generalizing s data with
  | nil => exact hs
  | cons p t ih => exact ih (.gddrWrite hs)

protected theorem Canonical.vaWrite {c va data bad} {t : State} (h : vaWrite s c va data bad = some t) : Canonical t := by
  obtain ⟨ps, -, rfl⟩ := Option.map_eq_some_iff.1 h
  exact .writeParts hs

protected theorem Canonical.vaWriteOld {c va data bad} {t : State} (h : vaWriteOld s c va data bad = some t) : Canonical t := by
  obtain ⟨ps, -, rfl⟩ := Option.map_eq_some_iff.1 h
  exact .writeParts hs

protected theorem Canonical.vaWrite_getD {c va data bad} {t : State} (ht : Canonical t) :
    Canonical ((vaWrite s c va data bad).getD t) :=
  .getD (fun _ => .vaWrite hs) ht

protected theorem Canonical.vaWriteOld_getD {c va data bad} {t : State} (ht : Canonical t) :
    Canonical ((vaWriteOld s c va data bad).getD t) :=
  .getD (fun _ => .vaWriteOld hs) ht

protected theorem Canonical.noteBadTable {c va} : Canonical (noteBadTable s c va) := by
  unfold noteBadTable
  split
  · exact .raiseEv hs
  · exact .noteResetRead hs
  · exact hs

protected theorem Canonical.noteBadRange {c va n} : Canonical (noteBadRange s c va n) := by
  unfold noteBadRange
  dsimp only
  split
  · exact .noteBadTable hs
  · exact hs

protected theorem Canonical.noteVaRead {c va n} : Canonical (noteVaRead s c va n) := by
  unfold noteVaRead
  split
  · exact .foldl hs fun _ _ h => .noteResetRead h
  · exact .noteBadRange hs

protected theorem Canonical.noteVaWrite {c va n} : Canonical (noteVaWrite s c va n) := .ite hs (.noteBadRange hs)
protected theorem Canonical.noteVoid {w} : Canonical (noteVoid s w) := hs

protected theorem Canonical.applyWrite {w} : Canonical (applyWrite s w) := by
  unfold applyWrite
  split
  · exact .gddrWrite (.noteVoid hs)
  · exact .written (.noteVoid hs) _

/-! ### Dumps -/

protected theorem Canonical.placeDump {d} : Canonical (placeDump s d) := by
  unfold placeDump
  dsimp only
  split
  · exact .ite (.raiseEv (.gddrWrite (.gddrWrite (.gddrWrite hs)))) (.gddrWrite (.gddrWrite (.gddrWrite hs)))
  · exact .gddrWrite (.gddrWrite (.gddrWrite hs))

protected theorem Canonical.writeDump {rung p cause src sects} : Canonical (writeDump s rung p cause src sects) :=
  .ite (.placeDump (.mk hs)) (.mk (.mk hs))

protected theorem Canonical.copyShadow {p} : Canonical (copyShadow s p) := by
  unfold copyShadow
  split
  · exact .ite (.mk (.placeDump hs)) hs
  · exact hs

protected theorem Canonical.chipDumps {rung cause src} : Canonical (chipDumps s rung cause src) :=
  .foldl hs fun _ _ h => .writeDump h

/-! ### Rungs that start and escalate -/

protected theorem Canonical.pushRung {r cause src} : Canonical (pushRung s r cause src) := hs
protected theorem Canonical.dropRung {r} : Canonical (dropRung s r) := hs

protected theorem Canonical.escalate {code src args start} (h : ∀ s, Canonical s → Canonical (start s)) :
    Canonical (escalate s code src args start) := by
  unfold escalate
  exact .ite (h s hs) (.raiseEv (.mk hs))

protected theorem Canonical.startPower {cause} : Canonical (startPower cause s) := by
  unfold startPower
  split
  · exact hs
  · exact .mk hs

protected theorem Canonical.holdMem {p} : Canonical (holdMem s p) := hs

protected theorem Canonical.freeMem {p} : Canonical (freeMem s p) :=
  .copyShadow (.ite (.raiseEv (.setMemCtl hs)) (.setMemCtl hs))

protected theorem Canonical.copyCounters : Canonical (copyCounters s) := .gddrWrite hs

protected theorem Canonical.idleDie {d} : Canonical (idleDie s d) :=
  .foldl (.mk (.setDie hs)) fun _ _ h => .dite (fun _ => .emit h) fun _ => h

protected theorem Canonical.chipNotice {cause} : Canonical (chipNotice cause s) := .ite (.raiseI3c hs) (.raiseEv hs)
protected theorem Canonical.chipClose {cause} : Canonical (chipClose cause s) := .ite (.dropHeld hs) (.closePaths hs)

protected theorem Canonical.beginChip {cause src} : Canonical (beginChip cause src s) :=
  .foldl (.pushRung (.copyCounters
      (.chipClose (.chipDumps (.idleDie (.idleDie (.copyCounters (.chipClose (.chipNotice (.mk hs)))))))))) fun _ _ h => .holdMem
          (.setPanel h)

protected theorem Canonical.startChip {cause src} : Canonical (startChip cause src s) := by
  unfold startChip
  split
  · exact .ite (.escalate hs fun _ h => .startPower h) hs
  · exact .ite (.escalate hs fun _ h => .startPower h) (.beginChip hs)

protected theorem Canonical.panelToChip {p cause src} : Canonical (panelToChip p cause src s) :=
  .escalate (.ite hs (.setPanel hs)) fun _ h => .startChip h

protected theorem Canonical.beginPanel {p cause src} : Canonical (beginPanel p cause src s) :=
  .holdMem (.pushRung (.writeDump (.setPanel (.copyCounters (.raiseEv hs)))))

protected theorem Canonical.startPanel {p cause src} : Canonical (startPanel p cause src s) :=
  .ite (.startChip hs) (.ite hs (.ite (.panelToChip hs) (.beginPanel hs)))

protected theorem Canonical.engineToPanel {p cause src} : Canonical (engineToPanel p cause src s) :=
  .ite (.panelToChip hs) (.escalate (.ite hs (.setPanel hs)) fun _ h => .startPanel h)

protected theorem Canonical.chipFault {code src args} : Canonical (chipFault s code src args) := .startChip (.raiseEv hs)
protected theorem Canonical.noteRung {n} : Canonical (noteRung n s) := hs

/-! ### Status and host writes -/

protected theorem Canonical.markDesc {d status} : Canonical (markDesc s d status) := by
  unfold markDesc
  split
  · exact .ite (.setDesc hs) hs
  · exact hs

protected theorem Canonical.hostWrite {g} (h : Canonical (g s)) : Canonical (hostWrite s g) := by
  unfold hostWrite
  exact .ite hs (.ite h (.mk hs))

/-! ### Panels and the fabric -/

protected theorem Canonical.checkRing {r} : Canonical (checkRing s r) := .ite (.chipFault hs) hs
protected theorem Canonical.updDie {d g} : Canonical (updDie s d g) := hs
protected theorem Canonical.updRing {r g} : Canonical (updRing s r g) := hs
protected theorem Canonical.countBroken {d n} : Canonical (countBroken d n s) := hs
protected theorem Canonical.breakRings {l} : Canonical (breakRings s l) := hs

protected theorem Canonical.placeThrough {r ps} : Canonical (placeThrough s r ps) :=
  .ite hs (.ite (.countBroken hs) (.ite (.setRing hs) (.ite (.setRing hs) (.updDie hs))))

protected theorem Canonical.addCand {e c} : Canonical (addCand s e c) := by
  unfold addCand
  split
  · exact .updRing hs
  · exact .updDie hs

omit hs in
protected theorem Canonical.arrive {r p} {acc : State × List Packet} (h : Canonical acc.1) : Canonical (arrive r acc p).1 := by
  unfold arrive
  exact .ite_fst (.updDie h) (.ite_fst (.updDie h) (.ite_fst h (.ite_fst (.countBroken h) (.addCand h))))

protected theorem Canonical.frameArrives {l ps} : Canonical (frameArrives s l ps) := by
  unfold frameArrives
  exact .placeThrough (.foldl_fst hs fun _ _ h => .arrive h)

protected theorem Canonical.setExitRsv {e l} : Canonical (setExitRsv s e l) := by
  unfold setExitRsv
  split
  · exact .updRing hs
  · exact .updDie hs

protected theorem Canonical.endRsv {e t} : Canonical (endRsv s e t) := .setExitRsv hs
protected theorem Canonical.reserveFor {e r h} : Canonical (reserveFor s e r h) := .ite hs (.ite (.updDie hs) (.setExitRsv hs))
protected theorem Canonical.openRecv {d h} : Canonical (openRecv s d h) := .ite hs (.updDie hs)
protected theorem Canonical.takeDelivery {d p} : Canonical (takeDelivery s d p) := .updDie (.openRecv hs)

protected theorem Canonical.enter {e p} : Canonical (enter s e p) := by
  unfold enter
  split
  · exact .updRing (.setExitRsv hs)
  · exact .takeDelivery (.setExitRsv hs)

protected theorem Canonical.deflect {e r p} : Canonical (deflect s e r p) :=
  .ite (.placeThrough (.ite (.reserveFor (.updDie hs)) (.updDie hs)))
      (.ite (.placeThrough (.updDie (.updDie hs))) (.placeThrough (.updDie hs)))

protected theorem Canonical.setExitCands {e l} : Canonical (setExitCands s e l) := by
  unfold setExitCands
  split
  · exact .updRing hs
  · exact .updDie hs

protected theorem Canonical.serveTransit {e c} : Canonical (serveTransit e s c) := by
  unfold serveTransit
  split
  · exact hs
  · exact .ite (.countBroken hs) (.ite (.enter hs) (.deflect hs))

protected theorem Canonical.putSend {d j m x} : Canonical (putSend s d j m x) := hs
protected theorem Canonical.dropSend {d j m} : Canonical (dropSend s d j m) := hs

protected theorem Canonical.failSend {d j m status} : Canonical (failSend s d j m status) := by
  unfold failSend
  split
  · exact hs
  · dsimp only
    split
    case h_1 =>
      split
      · exact .ite (.markDesc (.putSend hs)) (.putSend hs)
      · exact .putSend hs
    case h_6 => exact .dropSend (.markDesc hs)
    case h_7 => exact .dropSend hs
    all_goals exact .putSend hs

protected theorem Canonical.noteInjected {d h} : Canonical (noteInjected s d h) := by
  unfold noteInjected
  split
  · exact .updDie hs
  · dsimp only
    split
    · exact .updDie hs
    · exact .ite (.dropSend (.updDie hs)) (.putSend (.updDie hs))

protected theorem Canonical.failInjection {d h status} : Canonical (failInjection s d h status) := .ite hs (.failSend hs)
protected theorem Canonical.injectPacket {e p} : Canonical (injectPacket s e p) := .enter (.noteInjected hs)

protected theorem Canonical.serveInjections {e l} : Canonical (serveInjections e s l) := by
  induction l generalizing s with
  | nil => exact hs
  | cons c t ih =>
    unfold serveInjections
    exact .ite (ih (.setExitCands hs)) (.ite (ih (.ite (.failInjection hs) (.injectPacket hs))) (.setExitCands hs))

protected theorem Canonical.arbitrate {e} : Canonical (arbitrate s e) := by
  unfold arbitrate
  split
  · exact .checkRing (.serveInjections (.foldl (.setExitCands hs) (fun _ _ h => .serveTransit h)))
  · exact .serveInjections (.foldl (.setExitCands hs) (fun _ _ h => .serveTransit h))

protected theorem Canonical.beginDie {d} : Canonical (beginDie s d) := .ite (.setDie hs) hs
protected theorem Canonical.queueMessage {m r msg} : Canonical (queueMessage s m r msg).1 := .foldl hs fun _ _ h => .addCand h

protected theorem Canonical.sendMessage {m r} : Canonical (sendMessage s m r).1 := by
  unfold sendMessage
  dsimp only
  exact .putSend (.queueMessage (.setJob (.beginDie hs)))

protected theorem Canonical.sendAck {j rank msg} : Canonical (sendAck s j rank msg) := .ite (.queueMessage hs) hs

/-! ### Gauges -/

protected theorem Canonical.updGau {g} : Canonical (updGau s g) := hs
protected theorem Canonical.checkAligned : Canonical (checkAligned s) := .ite (.raiseEv (.updGau hs)) (.updGau hs)
protected theorem Canonical.countLimited : Canonical (countLimited s) := .ite (.mk hs) hs

protected theorem Canonical.gaugeEdge : Canonical (gaugeEdge s) := by
  unfold gaugeEdge
  dsimp only
  split
  · exact .checkAligned (.updGau (.updGau (.countLimited hs)))
  · split <;> exact .updGau (.updGau (.countLimited hs))

protected theorem Canonical.joinFrom {l} : Canonical (joinFrom l s) := .ite (.checkAligned (.updGau (.updGau hs))) (.updGau hs)
protected theorem Canonical.disarm {a} : Canonical (disarm s a) := .foldl hs fun _ _ h => .setPanel h

/-! ### Links -/

protected theorem Canonical.updLink {l g} : Canonical (updLink s l g) := hs

protected theorem Canonical.linkDown {l why} : Canonical (linkDown s l why) :=
  .checkAligned (.ite (.breakRings (.raiseEv (.emit (.updLink hs)))) (.raiseEv (.emit (.updLink hs))))

protected theorem Canonical.leaveRun {l ph why} : Canonical (leaveRun s l ph why) := hs
protected theorem Canonical.enterDetect {l} : Canonical (enterDetect s l) := hs
protected theorem Canonical.enterHold {l} : Canonical (enterHold s l) := hs
protected theorem Canonical.enterRun {l} : Canonical (enterRun s l) := hs
protected theorem Canonical.holdStep {l} : Canonical (holdStep s l) := .ite (.ite (.linkDown hs) (.setLink hs)) hs

protected theorem Canonical.writeTarget {l g} (h : ∀ s, Canonical s → Canonical (g s)) : Canonical (writeTarget l g s) := by
  unfold writeTarget
  exact .ite (h s hs) (.updLink hs)

protected theorem Canonical.targetOff {l} : Canonical (targetOff l s) :=
  .checkAligned (.ite (.leaveRun (.setLink hs)) (.updLink (.setLink hs)))

protected theorem Canonical.beginUp {l} : Canonical (beginUp s l) := .ite (.enterDetect hs) hs

protected theorem Canonical.targetHold {l} : Canonical (targetHold l s) :=
  .ite (.checkAligned (.leaveRun (.setLink hs))) (.holdStep (.beginUp (.setLink hs)))

protected theorem Canonical.targetRun {l} : Canonical (targetRun l s) := by
  unfold targetRun
  exact .holdStep (.beginUp (.updLink hs))

protected theorem Canonical.resolveLink {l v} : Canonical (resolveLink l v s) := .ite (.holdStep (.setLink hs)) (.setLink hs)
protected theorem Canonical.sendFrame {l seq ps null} : Canonical (sendFrame s l seq ps null) := hs

protected theorem Canonical.resendFrame {l seq} : Canonical (resendFrame s l seq) := by
  unfold resendFrame
  split
  · exact .sendFrame (.updLink hs)
  · exact hs

protected theorem Canonical.sendBuffer {l b} : Canonical (sendBuffer s l b) := hs

protected theorem Canonical.sendNext {l} : Canonical (sendNext l s) := by
  unfold sendNext
  dsimp only
  split
  · exact .resendFrame (.setLink hs)
  · split
    · split
      · exact .sendBuffer (.setRing hs)
      · exact .sendFrame hs
    · exact .sendFrame hs

protected theorem Canonical.goodFrame {l f} : Canonical (goodFrame s l f) :=
  .ite (.updLink hs) (.ite (.checkRing (.frameArrives (.setLink (.updLink hs)))) (.setLink (.updLink hs)))

protected theorem Canonical.badFrame {l again} : Canonical (badFrame s l again) := .ite (.linkDown (.setLink hs)) (.setLink hs)

/-! ### Scalar instructions -/

protected theorem Canonical.releaseHandles {c l} : Canonical (releaseHandles s c l) := .ite hs (.setCore hs)
protected theorem Canonical.dropHandles {t} : Canonical (dropHandles s t) := .releaseHandles hs
protected theorem Canonical.faultSlot {t code sub} : Canonical (faultSlot t code sub s) := .raiseEv (.dropHandles (.setSlot hs))
protected theorem Canonical.updSlot {t g} : Canonical (updSlot t g s) := hs
protected theorem Canonical.writeD {t d v late} : Canonical (writeD t d v late s) := hs
protected theorem Canonical.sAlu {t old f} : Canonical (sAlu t old f s) := hs
protected theorem Canonical.sAlui {t old f} : Canonical (sAlui t old f s) := hs
protected theorem Canonical.sLi {t f} : Canonical (sLi t f s) := hs
protected theorem Canonical.sLui {t old f} : Canonical (sLui t old f s) := hs

protected theorem Canonical.sLd {t old f} : Canonical (sLd t old f s) := by
  unfold sLd
  dsimp only
  split
  · exact .faultSlot hs
  · exact .ite (.faultSlot hs) (.writeD hs)

protected theorem Canonical.sSt {t old f} : Canonical (sSt t old f s) := by
  unfold sSt
  dsimp only
  split
  · exact .faultSlot hs
  · exact .written hs _

protected theorem Canonical.sAmo {t old f} : Canonical (sAmo t old f s) := by
  unfold sAmo
  split
  · exact .faultSlot hs
  · exact .ite (.faultSlot hs) (.writeD (.written hs _))

protected theorem Canonical.sLink {t old f} : Canonical (sLink t old f s) := hs
protected theorem Canonical.sFp {t old f} : Canonical (sFp t old f s) := hs
protected theorem Canonical.sFma {t old f} : Canonical (sFma t old f s) := hs
protected theorem Canonical.sCsrr {t old f} : Canonical (sCsrr t old f s) := hs
protected theorem Canonical.sCsrw {t old f} : Canonical (sCsrw t old f s) := hs

/-! ### Synchronization -/

protected theorem Canonical.scPut {n v} : Canonical (scPut s n v) := by
  unfold scPut
  split
  · exact .setCore hs
  · exact .setPanel hs

protected theorem Canonical.setEngine {c k e} : Canonical (State.setEngine s c k e) := hs
protected theorem Canonical.lateDrop {n} : Canonical (lateDrop s n) := hs
protected theorem Canonical.freeHolds {l} : Canonical (freeHolds s l) := hs
protected theorem Canonical.putInc {n i} : Canonical (putInc s n i) := .ite (.scPut hs) (.lateDrop hs)

protected theorem Canonical.releaseFrom {n} : Canonical (releaseFrom n s) := by
  induction n generalizing s with
  | zero => exact hs
  | succ n ih =>
    unfold releaseFrom
    exact .ite hs (ih (.foldl (.freeHolds hs) fun _ _ h => .putInc h))

protected theorem Canonical.releaseWaits : Canonical (releaseWaits s) := .releaseFrom hs

protected theorem Canonical.scSet {n v} : Canonical (scSet s n v) := .releaseWaits (.scPut hs)
protected theorem Canonical.applyInc {n i} : Canonical (applyInc n s i) := .releaseWaits (.putInc hs)
protected theorem Canonical.tryFree {t} : Canonical (tryFree s t) := .ite (.setSlot hs) hs

protected theorem Canonical.endFence {t} : Canonical (endFence s t) := by
  unfold endFence
  dsimp only
  split
  · exact .ite hs (.foldl (.setSlot hs) fun _ _ h => .applyInc h)
  · exact hs

protected theorem Canonical.spoilHandle {c hn hit} : Canonical (spoilHandle s c hn hit) := by
  unfold spoilHandle
  split
  · exact hs
  · exact .mk (.setCore hs)

protected theorem Canonical.spoilTile {c p hit} : Canonical (spoilTile s c p hit) := by
  unfold spoilTile
  dsimp only
  split
  · exact hs
  · exact .ite (.mk (.setEngine hs)) (.spoilHandle (.mk (.setEngine hs)))

protected theorem Canonical.spoilTiles {whole w} : Canonical (spoilTiles whole s w) := by
  unfold spoilTiles
  split
  · exact .foldl hs fun _ _ h => .spoilTile h
  · exact hs

protected theorem Canonical.spoilPasses {w} : Canonical (spoilPasses s w) := by
  unfold spoilPasses
  split
  · exact .ite (.mk (.setEngine hs)) hs
  · exact hs

protected theorem Canonical.spoilBy {k w} : Canonical (spoilBy k s w) :=
  .ite (.ite hs (.spoilTiles hs)) (.spoilPasses (.ite hs (.spoilTiles hs)))

protected theorem Canonical.commandEffect {c k cmd} : Canonical (commandEffect s c k cmd) :=
  .ite (.foldl (.ite (.setCore (.foldl (.foldl (.foldl hs fun _ _ h => .applyWrite h) fun _ _ h => .spoilBy h) fun _ _ h => .scSet h))
      (.foldl (.foldl (.foldl hs fun _ _ h => .applyWrite h) fun _ _ h => .spoilBy h) fun _ _ h => .scSet h)) fun _ _ h => .applyInc h)
          (.lateDrop hs)

protected theorem Canonical.retireFront {c k} : Canonical (retireFront s c k) := by
  unfold retireFront
  dsimp only
  split
  · exact hs
  · exact .tryFree (.endFence (.updSlot (.releaseHandles (.commandEffect (.setEngine hs)))))

protected theorem Canonical.settle {c k n} : Canonical (settle c k n s) := by
  induction n generalizing s with
  | zero => exact hs
  | succ n ih =>
    unfold settle
    split
    · exact .ite (ih (.retireFront hs)) hs
    · exact hs

protected theorem Canonical.completeFront {c k} : Canonical (completeFront s c k) := .settle (.retireFront hs)

protected theorem Canonical.enqueue {c k cmd} : Canonical (enqueue s c k cmd) := .settle (.setEngine hs)

protected theorem Canonical.stopPasses {t} : Canonical (stopPasses s t) :=
  .ite (.setEngine (.releaseHandles (.mk (.foldl hs fun _ _ h => .applyWrite h)))) hs

protected theorem Canonical.stopAt {t code sub} : Canonical (stopAt t code sub s) := .stopPasses (.faultSlot hs)

protected theorem Canonical.tallyDesc {d t} : Canonical (tallyDesc s d t) := by
  unfold tallyDesc
  split
  · exact .setDesc hs
  · exact hs

protected theorem Canonical.updDesc {d g} : Canonical (updDesc s d g) := by
  unfold updDesc
  split
  · exact .setDesc hs
  · exact hs

protected theorem Canonical.updPart {t g} : Canonical (updPart s t g) := by
  unfold updPart
  split
  · exact .updDesc hs
  · exact hs

protected theorem Canonical.tallySlot {x t} : Canonical (tallySlot s x t) := by
  unfold tallySlot
  split
  · exact .updDesc hs
  · exact hs

protected theorem Canonical.failSlotPart {t} : Canonical (failSlotPart s t) := .updPart hs

protected theorem Canonical.pendingDone {t r} : Canonical (pendingDone s t r) := by
  unfold pendingDone
  split
  · split
    · exact .tryFree (.endFence (.updSlot hs))
    · dsimp only
      split
      · exact .ite (.ite (.completeFront (.updSlot (.setEngine hs))) (.updSlot (.setEngine hs))) hs
      · exact hs
  · exact hs

/-! ### Vector instructions -/

protected theorem Canonical.vIssue {t sigs writes x} : Canonical (vIssue t sigs writes x s) := .enqueue (.setSlot hs)

protected theorem Canonical.vEffect {op t old f} : Canonical (vEffect op t old f s) := by
  unfold vEffect
  split
  · exact .stopAt hs
  · dsimp only
    split
    case h_1 => exact .vIssue hs
    case h_2 | h_3 | h_4 | h_5 | h_6 =>
      split
      · exact .stopAt hs
      · exact .vIssue hs
    case h_7 | h_8 | h_9 | h_10 =>
      split
      · exact .stopAt hs
      · exact .enqueue hs
    case h_11 => exact .vIssue hs

/-! ### The mover -/

protected theorem Canonical.noteReads {ps} : Canonical (noteReads ps s) := .foldl hs fun _ _ h => .ite (.noteResetRead h) h
protected theorem Canonical.xIssue {t kind sigs g} : Canonical (xIssue t kind sigs g s) := .enqueue hs

protected theorem Canonical.moveFault {t ctx m} : Canonical (moveFault t ctx m s) :=
  .stopAt (.ite (.foldl hs fun _ _ h => .noteBadRange h) (.foldl (.foldl hs fun _ _ h => .noteBadRange h) fun _ _ h => .noteBadRange h))

protected theorem Canonical.moveLocal {t old sigs m} : Canonical (moveLocal t old sigs m s) := by
  unfold moveLocal
  dsimp only
  split
  · exact .moveFault hs
  · exact .xIssue (.noteReads (.tallySlot (.mk hs)))

protected theorem Canonical.sendEach {j owner rank r l} : Canonical (sendEach j owner rank r l s).1 := by
  induction l generalizing s with
  | nil => exact hs
  | cons p t ih =>
    unfold sendEach
    exact ih (.sendMessage hs)

protected theorem Canonical.sendRows {j owner rank dst dstr r i rows} : Canonical (sendRows j owner rank dst dstr r i rows s).1 := .sendEach hs

protected theorem Canonical.moveRank {t old sigs m rank} : Canonical (moveRank t old sigs m rank s) := by
  unfold moveRank
  dsimp only
  split
  · exact .moveFault hs
  · have hmark (status) : Canonical (match old.desc with | some d => markDesc s d status | none => s) := by
      cases old.desc with
      | none => exact hs
      | some d => exact .markDesc hs
    split
    · exact hmark _
    · exact .ite (.xIssue (.sendRows (.noteReads (.tallySlot hs)))) (hmark _)

protected theorem Canonical.xMoveOp {t old f sigs} : Canonical (xMoveOp t old f sigs s) := .ite (.stopAt hs) (.moveLocal hs)

protected theorem Canonical.xMovedOp {t old f sigs} : Canonical (xMovedOp t old f sigs s) := by
  unfold xMovedOp
  dsimp only
  split
  · exact .stopAt hs
  · split
    · exact .stopAt hs
    · split
      · exact .stopAt hs
      · split
        · exact .moveLocal hs
        · exact .moveRank hs

protected theorem Canonical.xSigOp {t old f sigs} : Canonical (xSigOp t old f sigs s) := by
  unfold xSigOp
  split
  · exact .stopAt hs
  · exact .xIssue hs

protected theorem Canonical.xWaitOp {t old f sigs} : Canonical (xWaitOp t old f sigs s) := by
  unfold xWaitOp
  split
  · exact .stopAt hs
  · exact .releaseWaits (.updSlot hs)

protected theorem Canonical.xScsetOp {t old f sigs} : Canonical (xScsetOp t old f sigs s) := by
  unfold xScsetOp
  split
  · exact .stopAt hs
  · exact .xIssue hs

protected theorem Canonical.xScreadOp {t old f sigs} : Canonical (xScreadOp t old f sigs s) := by
  unfold xScreadOp
  split
  · exact .stopAt hs
  · exact .xIssue (.updSlot hs)

protected theorem Canonical.xFenceOp {t before f sigs} : Canonical (xFenceOp t before f sigs s) := .endFence (.updSlot hs)
protected theorem Canonical.xIcinvOp {t sigs} : Canonical (xIcinvOp t sigs s) := .xIssue hs

protected theorem Canonical.xEffect {op t before f} : Canonical (xEffect op t before f s) := by
  unfold xEffect
  dsimp only
  split
  · exact .stopAt hs
  · split
    · exact .xMoveOp hs
    · exact .xMovedOp hs
    · exact .xSigOp hs
    · exact .xWaitOp hs
    · exact .xScsetOp hs
    · exact .xScreadOp hs
    · exact .xFenceOp hs
    · exact .xIcinvOp hs
    · exact hs

protected theorem Canonical.moveComplete {c} : Canonical (moveComplete c s) := by
  unfold moveComplete
  dsimp only
  split
  · split
    · exact .completeFront hs
    · exact .ite (.completeFront (.foldl (.setEngine hs) fun _ _ h => .dropSend h)) hs
    · exact hs
  · exact hs

/-! ### The ladder -/

protected theorem Canonical.jobWrite {j va data} : Canonical (jobWrite s j va data) := .vaWrite_getD hs (.noteVaWrite hs)

protected theorem Canonical.writeLadder {j copy l bad} : Canonical (writeLadder s j copy l bad) :=
  .foldl hs fun _ _ h => .vaWrite_getD h (.noteVaWrite h)

protected theorem Canonical.ladderDecide {j} : Canonical (ladderDecide s j) := by
  unfold ladderDecide
  dsimp only
  split
  · split
    · exact hs
    · exact .setJob (.foldl (.ite (.writeLadder hs) hs) fun _ _ h => .raiseEv h)
  · exact hs

protected theorem Canonical.flipWrite {j step} : Canonical (flipWrite s j step) := by
  unfold flipWrite
  split
  · exact .ite hs (.writeLadder hs)
  · exact hs

/-! ### The tile engine -/

protected theorem Canonical.tilePoison {t} : Canonical (tilePoison t s) := .raiseEv (.failSlotPart hs)

protected theorem Canonical.tileIssue {t sigs pend ws reads tile drops elem} : Canonical (tileIssue t sigs pend ws s reads tile drops elem) :=
  .enqueue (.updSlot hs)

protected theorem Canonical.setHandle {c h x} : Canonical (setHandle s c h x) := hs
protected theorem Canonical.dropHandle {c h} : Canonical (dropHandle s c h) := hs

protected theorem Canonical.mBegin {t old f sigs} : Canonical (mBegin t old f sigs s) := by
  unfold mBegin
  dsimp only
  split
  · split
    · exact hs
    · exact .tileIssue (.updSlot (.setHandle (.ite (.tilePoison hs) hs)))
  · exact .stopAt hs

protected theorem Canonical.mAcc {t old f sigs} : Canonical (mAcc t old f sigs s) := by
  unfold mAcc
  split
  · exact .stopAt hs
  · dsimp only
    split
    · exact .stopAt hs
    · split
      · exact .stopAt hs
      · exact .ite (.stopAt hs) (.tileIssue (.setHandle (.ite (.raiseEv (.ite (.tilePoison hs) hs)) (.ite (.tilePoison hs) hs))))

protected theorem Canonical.mAddraw {t old f sigs} : Canonical (mAddraw t old f sigs s) := by
  unfold mAddraw
  split
  · exact .stopAt hs
  · exact .ite (.stopAt hs) (.tileIssue (.setHandle (.ite (.tilePoison hs) hs)))

protected theorem Canonical.mStore {t old f sigs} : Canonical (mStore t old f sigs s) := by
  unfold mStore
  split
  · exact .stopAt hs
  · dsimp only
    exact .ite (.stopAt hs) (.ite (.stopAt hs)
        (.tileIssue (.foldl (.ite (.dropHandle (.tallySlot hs)) (.setHandle (.tallySlot hs))) fun _ _ h => .spoilTiles h)))

protected theorem Canonical.mDrop {t old f sigs} : Canonical (mDrop t old f sigs s) := by
  unfold mDrop
  split
  · exact .stopAt hs
  · exact .tileIssue (.dropHandle hs)

protected theorem Canonical.mAlign {t old f sigs} : Canonical (mAlign t old f sigs s) :=
  .ite (.stopAt hs) (.tileIssue (.ite (.tilePoison hs) hs))

protected theorem Canonical.mEffect {op t old f} : Canonical (mEffect op t old f s) := by
  unfold mEffect
  split
  · exact .stopAt hs
  · split
    · exact .mBegin hs
    · exact .mAcc hs
    · exact .mAddraw hs
    · exact .mStore hs
    · exact .mDrop hs
    · exact .mAlign hs
    · exact hs

/-! ### Passes -/

protected theorem Canonical.slotWatch {t w o} : Canonical (slotWatch s t w o) := .ite hs (.updPart hs)

protected theorem Canonical.passIssue {t old sigs w} : Canonical (passIssue t old sigs w s) := by
  unfold passIssue
  split
  · dsimp only
    exact .enqueue (.setCore (.foldl
        (.updSlot (.slotWatch (.ite (.failSlotPart (.mk hs)) (.tallySlot (.mk hs))))) fun _ _ h => .raiseEv h))
  · dsimp only
    exact .enqueue (.setCore (.foldl
        (.updSlot (.slotWatch (.ite (.failSlotPart (.mk hs)) (.tallySlot (.mk hs))))) fun _ _ h => .raiseEv h))

protected theorem Canonical.vPassOp {t old f} : Canonical (vPassOp t old f s) := by
  unfold vPassOp
  split
  · exact .stopAt hs
  · exact .ite (.stopAt hs) (.ite (.stopAt hs) (.ite (.stopAt hs) (.ite (.stopAt hs) (.ite (.passIssue hs) (.stopAt hs)))))

protected theorem Canonical.passComplete {c} : Canonical (passComplete c s) := by
  unfold passComplete
  split
  · exact .ite (.completeFront hs) hs
  · exact hs

protected theorem Canonical.tileComplete {c} : Canonical (tileComplete c s) := by
  unfold tileComplete
  split
  · exact .ite (.completeFront (.updSlot hs)) hs
  · exact hs

/-! ### Memory controllers -/

protected theorem Canonical.countCorr {p} : Canonical (countCorr s p) := hs
protected theorem Canonical.countUncorr {p} : Canonical (countUncorr s p) := hs

protected theorem Canonical.poisonUnitsAt {l} : Canonical (poisonUnitsAt s l) :=
  .newGddr hs (foldl_wf (fun _ _ => setPoison_wf _ _ _) (s.bank_wf .gddr hs))

protected theorem Canonical.memUe {pa units} : Canonical (memUe s pa units) := .raiseEv (.countUncorr (.poisonUnitsAt hs))

protected theorem Canonical.memError {pa upset} : Canonical (memError pa upset s) := by
  unfold memError
  split
  · exact hs
  · exact .countCorr hs
  · exact .countCorr hs
  · exact .memUe hs
  · exact .memUe hs

protected theorem Canonical.patrolScrub {pa upset} : Canonical (patrolScrub pa upset s) := by
  unfold patrolScrub
  exact .ite hs (.memError (.sameBanks hs))

protected theorem Canonical.trainChannels : Canonical (trainChannels s) := hs
protected theorem Canonical.noteWindow {unit} : Canonical (noteWindow s unit) := .ite (.noteBadTable hs) hs

protected theorem Canonical.hdmRead {unit} : Canonical (hdmRead unit s) := by
  unfold hdmRead
  refine .ite hs ?_
  split
  · exact .emit (.sameBanks (.noteWindow hs))
  · exact .emit (.noteResetRead hs)

protected theorem Canonical.unitWrite {pa be data} : Canonical (unitWrite s pa be data) := by
  unfold unitWrite
  split
  · exact .gddrWrite hs
  · split; all_goals exact .gddrWrite hs

protected theorem Canonical.hdmWrite {unit be data} : Canonical (hdmWrite unit be data s) := by
  unfold hdmWrite
  refine .ite hs ?_
  split
  · exact .ite (.sameBanks hs) (.unitWrite hs)
  · exact .sameBanks (.noteWindow hs)

protected theorem Canonical.secresSet {v} : Canonical (secresSet v s) := by
  unfold secresSet
  exact .ite (.sameBanks hs) (.sameBanks hs)

protected theorem Canonical.gddrClear {a n} : Canonical (gddrClear s a n) := by
  unfold gddrClear
  exact .ite (.setMemCtl hs) (.newGddr hs (tabWf_filter _ _ _ (s.bank_wf .gddr hs)))

protected theorem Canonical.putPte {addr e} : Canonical (putPte s addr e) := .gddrWrite hs

protected theorem Canonical.unmapDone {c m} : Canonical (unmapDone s c m) := by
  unfold unmapDone
  exact .updCtx (.foldl hs fun _ _ h => .putPte h)

protected theorem Canonical.openTables {c} : Canonical (openTables s c) := .gddrClear hs
protected theorem Canonical.freeTables {c} : Canonical (freeTables s c) := hs

/-! ### Records of descriptors -/

protected theorem Canonical.updQueue {q g} : Canonical (updQueue s q g) := hs
protected theorem Canonical.restartQueues {c} : Canonical (restartQueues s c) := hs

protected theorem Canonical.hostMemWrite {a data} : Canonical (hostMemWrite s a data) :=
  .newHost hs (bankWrite_wf _ _ _ _ (s.bank_wf .host hs))

protected theorem Canonical.writeRecord {h} : Canonical (writeRecord s h) := by
  unfold writeRecord
  split
  · dsimp only
    split
    · exact .updCtx (.mk (.updQueue (.hostMemWrite (.hostMemWrite hs))))
    · exact .mk (.updQueue (.hostMemWrite (.hostMemWrite hs)))
  · dsimp only
    split
    · exact .updCtx (.mk (.updQueue (.hostMemWrite hs)))
    · exact .mk (.updQueue (.hostMemWrite hs))

protected theorem Canonical.noteUpdate {x ok} : Canonical (noteUpdate s x ok) := by
  unfold noteUpdate
  split
  · exact hs
  · split
    · exact .ite (.ite (.setJob hs) (.setJob hs)) hs
    · exact hs

protected theorem Canonical.spoilReady {p} : Canonical (spoilReady s p) := .foldl hs fun _ _ h => .ite (.setJob h) h
protected theorem Canonical.noteReport {x} : Canonical (noteReport s x) := .ite (.raiseEv hs) hs

protected theorem Canonical.endDesc {d status} : Canonical (endDesc s d status) := by
  unfold endDesc
  split
  · exact hs
  · exact .ite (.noteReport (.writeRecord (.dropDesc (.noteUpdate hs))))
        (.ite (.noteReport (.mk (.dropDesc (.noteUpdate hs)))) (.setDesc hs))

protected theorem Canonical.finishDesc {d} : Canonical (finishDesc s d) := by
  unfold finishDesc
  split
  · exact .endDesc hs
  · exact hs

protected theorem Canonical.concludeDesc {d status} : Canonical (concludeDesc s d status) := by
  unfold concludeDesc
  split
  · exact .endDesc hs
  · exact hs

protected theorem Canonical.setResult {d i v} : Canonical (setResult s d i v) := .updDesc hs

protected theorem Canonical.startDesc {d op} {g : DescState → State → State} (h : ∀ x u, Canonical u → Canonical (g x u)) :
    Canonical (startDesc s d op g) := by
  unfold startDesc
  split
  · exact .ite (h _ _ (.updQueue hs)) hs
  · exact hs

protected theorem Canonical.startDesc_withArgs {d op n} {g : DescState → List Nat → State → State}
    (h : ∀ x w u, Canonical u → Canonical (g x w u)) : Canonical (startDesc s d op (withArgs d n g)) := by
  refine .startDesc hs fun x u hu => ?_
  unfold withArgs
  split
  · exact .endDesc (.noteVaRead hu)
  · exact h _ _ _ hu

protected theorem Canonical.msixWindowEnd {src} : Canonical (msixWindowEnd src s) := by
  unfold msixWindowEnd
  split
  · split
    · exact .ite (.emit (.updQueue hs)) hs
    · exact hs
  · split
    · exact .ite (.emit (.mk hs)) hs
    · exact hs

/-! ### Queues -/

protected theorem Canonical.applyDoorbell {q t} : Canonical (applyDoorbell s q t) := .ite (.mk (.updQueue hs)) (.updQueue hs)

protected theorem Canonical.doorbell {off size v} : Canonical (doorbell off size v s) := by
  unfold doorbell
  split
  · exact hs
  · split
    · exact .updQueue hs
    · dsimp only
      split
      · exact .applyDoorbell hs
      · split
        · exact .updCtx (.updQueue hs)
        · exact .updQueue hs

protected theorem Canonical.descriptorFetch {q} : Canonical (descriptorFetch q s) := by
  unfold descriptorFetch
  split
  · exact hs
  · exact .ite (.ite (.endDesc (.setDesc (.mk (.updCtx (.updQueue hs)))))
        (.ite (.endDesc (.setDesc (.mk (.updCtx (.updQueue hs))))) (.setDesc (.mk (.updCtx (.updQueue hs)))))) hs

protected theorem Canonical.dropWork {d} : Canonical (dropWork s d) := .foldl (.dropColl hs) fun _ _ h => .setJob h

protected theorem Canonical.stopDesc {d status} : Canonical (stopDesc s d status) := by
  unfold stopDesc
  split
  · exact hs
  · exact .ite hs (.ite (.setDesc hs) (.endDesc (.dropWork hs)))

protected theorem Canonical.abortDecide {d t} : Canonical (abortDecide d t s) := by
  unfold abortDecide
  split
  · exact .endDesc hs
  · exact .ite (.endDesc hs) (.endDesc (.stopDesc hs))

protected theorem Canonical.abortRun {d x} : Canonical (abortRun d x s) :=
  .ite (.endDesc hs) (.ite (.endDesc hs) (.abortDecide hs))

protected theorem Canonical.noteTables {c m} : Canonical (noteTables s c m) := by
  unfold noteTables
  split
  · exact hs
  · exact .ite (.noteResetRead hs) (.raiseEv hs)

protected theorem Canonical.unmapComplete {d} : Canonical (unmapComplete d s) := by
  unfold unmapComplete
  split
  · exact .ite (.finishDesc (.unmapDone hs)) hs
  · exact hs

protected theorem Canonical.cmdBad : Canonical (cmdBad s) := hs
protected theorem Canonical.openCtx : Canonical (openCtx s) := .ite (.updCtx (.openTables hs)) (.cmdBad hs)

protected theorem Canonical.closeCtx {c} : Canonical (closeCtx s c) :=
  .foldl (.foldl (.updCtx hs) fun _ _ h => .endDesc h) fun _ _ h => .stopDesc h

protected theorem Canonical.ctxClose : Canonical (ctxClose s) := .ite (.closeCtx hs) (.cmdBad hs)
protected theorem Canonical.freeGroups {c} : Canonical (freeGroups s c) := hs
protected theorem Canonical.freeApertures {c} : Canonical (freeApertures s c) := hs

protected theorem Canonical.ctxFree : Canonical (ctxFree s) :=
  .ite (.updCtx (.freeApertures (.freeTables (.freeGroups hs)))) (.cmdBad hs)

protected theorem Canonical.abandonDie {c d} : Canonical (abandonDie s c d) := hs
protected theorem Canonical.abandonRings {c} : Canonical (abandonRings s c) := hs

protected theorem Canonical.ctxDrainMark {c} : Canonical (ctxDrainMark c s) :=
  .ite (.updCtx (.foldl (.abandonDie (.abandonDie (.abandonRings hs))) fun _ _ h => .setJob h)) hs

protected theorem Canonical.ctxQuiesce {c} : Canonical (ctxQuiesce c s) :=
  .ite (.raiseEv (.dropRung (.updCtx (.foldl hs fun _ _ h => .setJob h)))) hs

protected theorem Canonical.queueEnable {v} : Canonical (queueEnable v s) :=
  .ite hs (.ite (.updQueue (.updQueue hs)) (.updQueue (.updQueue hs)))

protected theorem Canonical.queueDisable {v} : Canonical (queueDisable v s) := .ite (.updQueue hs) (.updQueue hs)

protected theorem Canonical.flushHeld : Canonical (flushHeld s) :=
  .foldl (.foldl (.mk hs) fun _ _ h => .writeRecord h) fun _ _ h => .concludeDesc h

protected theorem Canonical.cxlLinkUp {width rate} : Canonical (cxlLinkUp width rate s) :=
  .ite (.ite (.ite (.mk hs) (.flushHeld (.mk (.mk hs)))) (.raiseEv (.ite (.mk hs) (.flushHeld (.mk (.mk hs)))))) hs

/-! ### The update engines -/

protected theorem Canonical.logTags {j p l} : Canonical (logTags s j p l) := .foldl hs fun _ _ h => .setJob (.jobWrite h)

protected theorem Canonical.stageJournal {j x u o} : Canonical (stageJournal s j x u o) := by
  unfold stageJournal
  dsimp only
  split
  · split
    · split
      · exact .jobWrite (.setJob hs)
      · exact .setJob hs
    · split
      · exact .jobWrite (.jobWrite (.jobWrite (.setJob hs)))
      · exact .setJob hs
  · exact hs

/-- An update that has to wait leaves the state in which it was called. -/
protected theorem Canonical.updateStart {d x w} {u : State} (hu : Canonical u) : Canonical (updateStart d s x w u) := by
  unfold updateStart
  refine .ite (.endDesc hu) ?_
  split
  · exact .endDesc hu
  · exact .ite (.endDesc (.foldl hu fun _ _ h => .noteVaRead h))
      (.ite (.endDesc hu) (.ite hs (.ite (.endDesc hu) (.ite hs (.setDesc hu)))))

protected theorem Canonical.copyStats {j step} : Canonical (copyStats s j step) :=
  .setJob (.foldl hs fun _ _ h => .ite (.noteVaRead h)
      (.jobWrite (.vaWrite_getD (.noteVaRead (.noteVaRead h)) (.noteVaWrite (.noteVaRead (.noteVaRead h))))))

protected theorem Canonical.planeRootsDone {j idx} : Canonical (planeRootsDone j idx s) := by
  unfold planeRootsDone
  dsimp only
  split
  · exact hs
  · split
    · exact .setJob (.jobWrite (.vaWrite_getD (.noteVaRead (.noteVaRead hs)) (.noteVaWrite (.noteVaRead (.noteVaRead hs)))))
    · exact .setJob (.jobWrite (.noteVaRead (.noteVaRead hs)))

/-! ### Parts of descriptors -/

protected theorem Canonical.startSlot {x d u b} : Canonical (startSlot x d u s b) := hs

protected theorem Canonical.beginWindow {u} : Canonical (beginWindow s u) :=
  .ite (.setCore hs) (.ite (.beginDie hs) (.ite (.setUpdEngine hs) hs))

protected theorem Canonical.placeSends {d x m rank} : Canonical (placeSends s d x m rank).1 := by
  unfold placeSends
  split
  · exact .sendRows (.noteReads hs)
  · exact hs

protected theorem Canonical.placePart {d x u w} : Canonical (placePart d x u w s) := by
  unfold placePart
  split
  extract_lets gone bad m
  split
  next t failed ts h =>
    have ht : Canonical t := by
      split at h
      · exact .of_fst h (.placeSends hs)
      · cases h; exact hs
    extract_lets alloc
    clear_value alloc
    obtain _ | ⟨cs, handles⟩ := alloc
    · exact ht
    · dsimp -zeta only
      extract_lets s1 part s2 s3 s4 s5
      have h1 : Canonical s1 := .ite ht (.setCore ht)
      have h3 : Canonical s3 := .foldl (.setDesc h1) fun _ _ h => .startSlot h
      have h5 : Canonical s5 := by
        unfold s5
        split
        · exact .setPanel (.beginWindow h3)
        · exact .beginWindow h3
      exact .ite h5 (.updCtx h5)

protected theorem Canonical.noteStale {x u} : Canonical (noteStale s x u) := .ite (.raiseEv hs) hs
protected theorem Canonical.dropMoves {d} : Canonical (dropMoves s d) := hs

protected theorem Canonical.releaseSlot {t} : Canonical (releaseSlot s t) :=
  .setSlot (.releaseHandles (.foldl (.foldl (.stopPasses hs) fun _ _ h => .dropSend h) fun _ _ h => .setEngine (.releaseHandles h)))

protected theorem Canonical.addPartWatch {x p o} : Canonical (addPartWatch s x p o) := by
  unfold addPartWatch
  split
  · split
    · exact hs
    · exact .ite hs (.ite hs (.setJob hs))
  · split
    · split
      · exact .setJob hs
      · exact .ite (.setJob hs) (.ite (.setJob hs) (.setJob (.setJob hs)))
    · split
      · exact hs
      · exact .ite hs (.ite hs (.setJob hs))

protected theorem Canonical.noteShape {j x u} : Canonical (noteShape s j x u) := by
  unfold noteShape
  split
  · exact .setJob hs
  · exact hs

protected theorem Canonical.spoilParts {c l} : Canonical (spoilParts s c l) := hs

protected theorem Canonical.updateAfter {x p o} : Canonical (updateAfter s x p o) := by
  unfold updateAfter
  split
  · exact hs
  · split
    · exact .setJob (.spoilParts (.setJob (.noteShape (.stageJournal (.logTags hs)))))
    · exact .spoilParts (.setJob (.noteShape (.stageJournal (.logTags hs))))

protected theorem Canonical.writeOut {c o} : Canonical (writeOut s c o) :=
  .mk (.foldl (.foldl hs fun _ _ h => .vaWriteOld_getD h (.noteVaWrite h)) fun _ _ h => .applyWrite h)

protected theorem Canonical.amaxUndef {d x bad} : Canonical (amaxUndef s d x bad) := .writeOut (.ite (.updDesc hs) hs)

protected theorem Canonical.concludeParts {d} : Canonical (concludeParts s d) := by
  unfold concludeParts
  split
  · exact hs
  · exact .ite (.ite (.setDesc hs) (.finishDesc (.ite (.setResult (.ite (.amaxUndef hs) hs)) (.ite (.amaxUndef hs) hs)))) hs

protected theorem Canonical.settlePart {d x p o} : Canonical (settlePart s d x p o) := by
  unfold settlePart
  extract_lets failed s1 s2 events s3 s4 s5 s6 s7 s8
  have h3 : Canonical s3 := .foldl (.foldl (.writeOut hs) fun _ _ h => .noteVaRead h) fun _ _ h => .raiseEv h
  have h4 : Canonical s4 := .ite h3 (.addPartWatch h3)
  have h5 : Canonical s5 := by
    unfold s5
    split
    · exact .updateAfter h4
    · exact h4
  have h6 : Canonical s6 := by
    unfold s6
    split
    · exact .ite (.setPanel h5) h5
    · exact h5
  exact .concludeParts (.updDesc (.releaseHandles h6))

protected theorem Canonical.endPart {d x p outside} : Canonical (endPart s d x p outside) :=
  .settlePart (.ite (.dropMoves (.foldl hs fun _ _ h => .releaseSlot h)) (.foldl hs fun _ _ h => .releaseSlot h))

protected theorem Canonical.unplacedPart {d u w st} : Canonical (unplacedPart d u w st s) :=
  .concludeParts (.updDesc (.markDesc hs))

protected theorem Canonical.partPlace {d u w} : Canonical (partPlace d u w s) := by
  unfold partPlace
  split
  · exact hs
  · split
    · split
      · split
        · exact .endDesc hs
        · split
          · exact .endDesc hs
          · exact .placePart (.noteStale hs)
      · split
        · exact .unplacedPart hs
        · exact .placePart hs
    · exact hs

protected theorem Canonical.partEnd {d u e} : Canonical (partEnd d u e s) := by
  unfold partEnd
  split
  · exact hs
  · split
    · exact hs
    · exact .ite (.endPart hs) hs

protected theorem Canonical.amaxMerge {d} : Canonical (amaxMerge d s) := by
  unfold amaxMerge
  split
  · exact hs
  · split
    · split
      · exact .finishDesc (.amaxUndef hs)
      · dsimp only
        exact .ite (.finishDesc (.updDesc (.foldl (.mk hs) fun _ _ h => .vaWriteOld_getD h h))) (.concludeDesc hs)
    · exact hs

/-! ### Jobs -/

protected theorem Canonical.noteRouteTables {c va n ring} : Canonical (noteRouteTables s c va n ring) :=
  .noteVaRead (.ite hs (.noteVaRead hs))

protected theorem Canonical.jobSetup {d x w} : Canonical (jobSetup d x w s) := by
  unfold jobSetup
  split
  · exact .endDesc hs
  · dsimp only
    split
    · exact .ite (.endDesc (.noteRouteTables hs)) (.ite (.endDesc (.noteRouteTables hs)) (.endDesc (.setJob (.noteRouteTables hs))))
    · exact .endDesc (.noteRouteTables hs)

protected theorem Canonical.acceptPolicy {j p} : Canonical (acceptPolicy s j p) := .ite (.setJob (.writeLadder hs)) (.setJob hs)

/-- A policy that has to wait leaves the state in which it was called. -/
protected theorem Canonical.ladderPolicy {d x w} {u : State} (hu : Canonical u) : Canonical (ladderPolicy d s x w u) := by
  unfold ladderPolicy
  split
  · exact .endDesc hu
  · dsimp only
    have hr : ∀ a n, Canonical (if nth w 5 = 0 then u else noteVaRead u x.ctx a n) := fun _ _ => .ite hu (.noteVaRead hu)
    split
    · exact .endDesc (hr _ _)
    · exact .ite (.endDesc (hr _ _)) (.ite hs (.endDesc (.acceptPolicy (hr _ _))))

/-! ### Collectives -/

protected theorem Canonical.noteColl {c w} : Canonical (noteColl s c w) := .ite hs (.noteVaRead (.noteVaRead hs))

protected theorem Canonical.collStart {d x w} : Canonical (collStart d x w s) := by
  unfold collStart
  split
  · exact .endDesc (.noteColl hs)
  · exact .endDesc (.noteColl hs)
  · exact .setColl (.setDesc (.setJob (.noteColl hs)))

protected theorem Canonical.updColl {d g} : Canonical (updColl s d g) := by
  unfold updColl
  split
  · exact .setColl hs
  · exact hs

protected theorem Canonical.ctxWrite {c va data bad} : Canonical (ctxWrite s c va data bad) :=
  .vaWrite_getD hs (.noteVaWrite hs)

protected theorem Canonical.writeLateMap {x} : Canonical (writeLateMap s x) := .ctxWrite hs
protected theorem Canonical.setAside {d x} : Canonical (setAside s d x) := hs
protected theorem Canonical.freeColl {d} : Canonical (freeColl s d) := hs

protected theorem Canonical.putWatch {j} : Canonical (putWatch s j) :=
  .foldl (.setJob hs) fun _ _ h => .jobWrite h

protected theorem Canonical.putVote {x} : Canonical (putVote s x) := by
  unfold putVote
  dsimp only
  split
  · exact hs
  · exact .setJob (.jobWrite hs)

protected theorem Canonical.missColl {d x} : Canonical (missColl s d x) :=
  .foldl (.updGau (.setColl hs)) fun _ _ h => .raiseEv h

protected theorem Canonical.collBaseFire {d} : Canonical (collBaseFire d s) := by
  unfold collBaseFire
  split
  · exact hs
  · exact .ite (.ite (.missColl (.disarm (.checkAligned hs)))
        (.setColl (.ite (.putVote (.setAside (.writeLateMap (.disarm (.checkAligned hs)))))
            (.ite (.putWatch (.setAside (.writeLateMap (.disarm (.checkAligned hs)))))
                (.setAside (.writeLateMap (.disarm (.checkAligned hs)))))))) hs

protected theorem Canonical.signalPanel {v} : Canonical (signalPanel s v) := .scSet hs
protected theorem Canonical.noteCombine {x e} : Canonical (noteCombine s x e) := .noteVaWrite (.noteVaRead (.noteVaRead hs))

omit hs in
protected theorem Canonical.sumUnits {c f} : ∀ {k acc stg n : Nat} {a b : State × Tallies}, Canonical a.1 →
    sumUnits c f acc stg k n a = some b → Canonical b.1
  | 0, _, _, _, _, _, hs, h => by cases h; exact hs
  | k + 1, acc, stg, n, (s, t), b, hs, h => by
    unfold sumUnits at h
    dsimp only at h
    split at h
    · cases h; exact hs
    · split at h
      · obtain ⟨u, hu, h⟩ := Option.bind_eq_some_iff.1 h
        exact Canonical.sumUnits (Canonical.vaWrite hs hu) h
      · cases h

protected theorem Canonical.collCombine {x e b} (h : collCombine s x e = some b) : Canonical b.1 := by
  unfold collCombine at h
  dsimp only at h
  split at h
  · cases h; exact hs
  · split at h
    · exact .sumUnits hs h
    · split at h
      · exact .sumUnits hs h
      · split at h
        · obtain ⟨u, hu, rfl⟩ := Option.map_eq_some_iff.1 h
          exact .vaWrite hs hu
        · cases h

protected theorem Canonical.collReceived {d i} : Canonical (collReceived s d i) := by
  unfold collReceived
  split
  · exact hs
  · split
    · exact hs
    · next e _ =>
      refine .ite hs (.ite (.setColl hs) ?_)
      have hn : ∀ c v x, Canonical (noteCombine (signalPanel (s.setColl d c) v) x e) :=
        fun _ _ _ => .noteCombine (.signalPanel (.setColl hs))
      dsimp only
      split
      · exact .signalPanel (.updColl (hn _ _ _))
      · next h => exact .signalPanel (.tallyDesc (.collCombine (hn _ _ _) h))

protected theorem Canonical.collSend {d x i} : Canonical (collSend d x s i) := by
  unfold collSend
  split
  · exact hs
  · dsimp only
    split
    · exact .updColl (.noteVaRead hs)
    · exact .ite hs (.updColl (.sendMessage hs))

protected theorem Canonical.slotOpen {d k} : Canonical (slotOpen d k s) := by
  unfold slotOpen
  split
  · exact hs
  · exact .ite (.foldl (.setColl hs) fun _ _ h => .collSend h) hs

protected theorem Canonical.slotMark {d k} : Canonical (slotMark d k s) := by
  unfold slotMark
  split
  · exact hs
  · exact .ite (.ite (.raiseEv (.updGau (.setColl hs))) (.setColl hs)) hs

protected theorem Canonical.excludeEntry {d i} : Canonical (excludeEntry d s i) := by
  unfold excludeEntry
  split
  · exact hs
  · split
    · exact hs
    · exact .ite (.signalPanel (.updGau (.writeLateMap (.setColl hs)))) hs

protected theorem Canonical.takeShift {d x i e} : Canonical (takeShift s d x i e) := .updGau (.writeLateMap (.setColl hs))

protected theorem Canonical.recvJudge {d i} : Canonical (recvJudge d i s) := by
  unfold recvJudge
  split
  · exact hs
  · split
    · exact hs
    · exact .ite (.ite (.excludeEntry hs) (.takeShift hs)) hs

protected theorem Canonical.judgeFirst {d} : Canonical (judgeFirst d s) := by
  unfold judgeFirst
  split
  · exact hs
  · split
    · exact .takeShift hs
    · exact hs

protected theorem Canonical.collEnd {d} : Canonical (collEnd d s) := by
  unfold collEnd
  extract_lets s0
  have h0 : Canonical s0 := .judgeFirst hs
  split
  · exact h0
  · split
    · extract_lets s1 x vote y s2 n b s3 s4 s5
      have h1 : Canonical s1 := .ite (.foldl h0 fun _ _ h => .excludeEntry h) h0
      have h2 : Canonical s2 := .ite (.setJob h1) h1
      have h3 : Canonical s3 := by
        unfold s3
        split
        · exact .noteVaRead (.setJob h2)
        · exact h2
      have h4 : Canonical s4 := .dropColl (.freeColl h3)
      exact .ite h4 (.concludeDesc (.setResult (.setResult h4)))
    · exact h0

/-! ### Commits -/

protected theorem Canonical.updCommit {j g} : Canonical (updCommit s j g) := by
  unfold updCommit
  split
  · exact .setJob hs
  · exact hs

protected theorem Canonical.noteSched {c w} : Canonical (noteSched s c w) := by
  unfold noteSched
  split
  · exact .noteColl (.noteVaRead hs)
  · exact .noteVaRead hs

protected theorem Canonical.commitStart {d x w} : Canonical (commitStart d x w s) := by
  unfold commitStart
  split
  · exact .endDesc hs
  · split
    · exact .endDesc hs
    · split
      · exact .endDesc hs
      · dsimp only
        split
        · exact .endDesc (.noteSched hs)
        · exact .endDesc (.noteSched hs)
        · exact .ite (.endDesc (.noteSched hs)) (.setJob (.setColl (.setDesc (.noteSched hs))))

protected theorem Canonical.armOn {p a m} : Canonical (armOn s p a m).1 := .ite_fst (.setPanel hs) hs

protected theorem Canonical.armChip {a m d} : Canonical (armChip s a m d) := by
  have h : Canonical (armOn s 0 a m).1 := .armOn hs
  exact .ite (.updDesc h) h

protected theorem Canonical.voteEvaluate {j} : Canonical (voteEvaluate j s) := by
  unfold voteEvaluate
  dsimp only
  split
  · exact hs
  · split
    · exact .armChip (.ite (.raiseEv (.updCommit hs)) (.updCommit hs))
    · exact hs

protected theorem Canonical.commitUnresolved {j} : Canonical (commitUnresolved j s) := by
  unfold commitUnresolved
  dsimp only
  split
  · exact hs
  · exact .ite (.armChip (.raiseEv (.updCommit hs))) hs

protected theorem Canonical.concludeCommit {c status} : Canonical (concludeCommit s c status) :=
  .concludeDesc (.setResult (.setResult (.setResult hs)))

protected theorem Canonical.commitRecordWrite {j} : Canonical (commitRecordWrite j s) := by
  unfold commitRecordWrite
  dsimp only
  split
  · exact hs
  · exact .ite (.concludeCommit (.copyStats (.setJob (.jobWrite (.flipWrite (.disarm hs)))))) hs

protected theorem Canonical.refuseCommit {j c} : Canonical (refuseCommit s j c) := by
  unfold refuseCommit
  exact .concludeCommit (.raiseEv (.setJob hs))

protected theorem Canonical.commitDiscard {j} : Canonical (commitDiscard j s) := by
  unfold commitDiscard
  split
  · exact hs
  · exact .ite (.refuseCommit (.disarm hs)) hs

protected theorem Canonical.voidLog {j p} : Canonical (voidLog s j p) := .foldl hs fun _ _ h => .jobWrite h

protected theorem Canonical.scrubEnd {j} : Canonical (scrubEnd j s) :=
  .ite (.restartQueues (.setJob (.foldl hs fun _ _ h => .voidLog h))) hs

/-! ### Epochs -/

protected theorem Canonical.routeEpoch {d x w} : Canonical (routeEpoch d x w s) := by
  unfold routeEpoch
  split
  · exact .endDesc hs
  · split
    · exact .endDesc hs
    · dsimp only
      split
      · exact .ite (.endDesc (.noteRouteTables hs)) (.ite (.endDesc (.noteRouteTables hs)) (.setJob (.setDesc (.noteRouteTables hs))))
      · exact .endDesc (.noteRouteTables hs)

protected theorem Canonical.tableStaged {j} : Canonical (tableStaged j s) := by
  unfold tableStaged
  split
  · exact .ite hs (.setJob hs)
  · exact hs

protected theorem Canonical.missEpoch {j c} : Canonical (missEpoch s j c) := .concludeDesc (.raiseEv (.setJob hs))

protected theorem Canonical.epochMissed {j} : Canonical (epochMissed j s) := by
  unfold epochMissed
  split
  · exact .ite (.missEpoch hs) hs
  · exact hs

protected theorem Canonical.mendRings : Canonical (mendRings s) := .foldl hs fun _ _ h => .updRing (.updRing h)

protected theorem Canonical.reroute {j q} : Canonical (reroute j s q) := by
  unfold reroute
  dsimp only
  split
  · exact .failInjection hs
  · exact .addCand hs

protected theorem Canonical.requeue {j} : Canonical (requeue s j) :=
  .foldl (.foldl hs fun _ _ h => .ite (.setExitCands h) h) fun _ _ h => .reroute h

protected theorem Canonical.routeSwitch {j} : Canonical (routeSwitch j s) := by
  unfold routeSwitch
  split
  · exact .ite (.requeue (.mendRings (.setJob (.disarm hs)))) hs
  · exact hs

protected theorem Canonical.epochDrain {j} : Canonical (epochDrain j s) := by
  unfold epochDrain
  split
  · exact .ite (.concludeDesc (.setJob hs)) hs
  · exact hs

/-! ### Secure points -/

protected theorem Canonical.vaPut {c va l} : Canonical (vaPut s c va l) := .foldl hs fun _ _ h => .ctxWrite h
protected theorem Canonical.noteRanges {j l} : Canonical (noteRanges s j l) := .foldl hs fun _ _ h => .noteVaRead h

protected theorem Canonical.notePlan {c va} : Canonical (notePlan s c va) := by
  unfold notePlan
  split
  · exact .foldl (.noteVaRead hs) fun _ _ h => .ite h (.noteVaRead h)
  · exact .noteVaRead hs

protected theorem Canonical.installPlan {d x j va} : Canonical (installPlan d x j va s) := by
  unfold installPlan
  split
  · refine .ite (.endDesc (.notePlan hs)) ?_
    split
    · exact .ite (.endDesc (.notePlan hs)) (.endDesc (.setJob (.notePlan hs)))
    · exact .endDesc (.notePlan hs)
  · exact .endDesc (.notePlan hs)

protected theorem Canonical.pointStart {d x j full w} : Canonical (pointStart d x j full w s) := by
  unfold pointStart
  split
  · exact .endDesc hs
  · exact .ite (.endDesc hs) (.ite (.endDesc hs) (.ite (.endDesc hs) (.setJob (.setDesc hs))))

/-- A snapshot of another kind leaves the state in which it was called. -/
protected theorem Canonical.snapRun {d op x w} {u : State} (hu : Canonical u) : Canonical (snapRun d op s x w u) := by
  unfold snapRun
  refine .ite hs (.ite (.endDesc hu) ?_)
  split
  · exact .endDesc hu
  · exact .ite (.installPlan hu) (.pointStart hu)

protected theorem Canonical.updPoint {j g} : Canonical (updPoint s j g) := by
  unfold updPoint
  split
  · exact .setJob hs
  · exact hs

protected theorem Canonical.updStream {j st g} : Canonical (updStream s j st g) := .updPoint hs

protected theorem Canonical.sendSecure {j owner target routes back st area off first data} :
    Canonical (sendSecure j owner target routes back st area off first data s) :=
  .foldl hs fun _ _ h => .ite (.putSend (.setJob h)) (.sendMessage h)

protected theorem Canonical.sendStream {j p st area off data} : Canonical (sendStream s j p st area off data) :=
  .updStream (.sendSecure hs)

protected theorem Canonical.stopSends {j o} : Canonical (stopSends s j o) := .mk (.foldl hs fun _ _ h => .updDie h)

protected theorem Canonical.beginStream {j st} : Canonical (beginStream j s st) := by
  unfold beginStream
  split
  · exact .ite (.ite (.sendStream (.sendStream (.updStream hs))) (.sendStream (.updStream hs))) (.updStream hs)
  · exact hs

protected theorem Canonical.endPoint {j y} : Canonical (endPoint s j y) := by
  unfold endPoint
  exact .finishDesc (.updDesc
      (.setResult (.setResult (.setResult (.setResult (.restartQueues (.setJob (.foldl hs fun _ _ h => .stopSends h))))))))

protected theorem Canonical.checkSealed {j} : Canonical (checkSealed s j) := by
  unfold checkSealed
  split
  · exact .ite (.endPoint hs) hs
  · exact hs

protected theorem Canonical.sendRecord {j p st t} : Canonical (sendRecord s j p st t) := .sendStream (.updStream hs)

protected theorem Canonical.sendData {j p y st t} : Canonical (sendData s j p y st t) :=
  .ite (.raiseEv (.updStream hs))
      (.ite (.sendRecord (.ite (.sendStream (.noteRanges (.updStream hs)))
          (.ite (.sendStream (.noteRanges (.updStream hs))) (.sendStream (.sendStream (.noteRanges (.updStream hs)))))))
              (.ite (.sendStream (.noteRanges (.updStream hs)))
                  (.ite (.sendStream (.noteRanges (.updStream hs))) (.sendStream (.sendStream (.noteRanges (.updStream hs)))))))

protected theorem Canonical.streamStep {j st} : Canonical (streamStep s j st) := by
  unfold streamStep
  split
  · exact .ite hs (.ite (.sendData hs) (.ite (.sendRecord hs) (.ite (.checkSealed (.setJob (.updStream hs))) hs)))
  · exact hs

protected theorem Canonical.missPoint {j} : Canonical (missPoint s j) := by
  unfold missPoint
  split
  · exact .endPoint hs
  · exact hs

protected theorem Canonical.writeKeep {j p step} : Canonical (writeKeep s j p step).1 :=
  .ite_fst hs (.setJob (.vaPut (.noteRanges hs)))

protected theorem Canonical.snapshotStart {j} : Canonical (snapshotStart j s) := by
  unfold snapshotStart
  split
  · split
    · split
      · dsimp only
        exact .ite (.missPoint (.disarm (.checkAligned hs)))
            (.foldl (.updDesc (.updPoint (.writeKeep (.setJob (.disarm (.checkAligned hs)))))) fun _ _ h => .beginStream h)
      · dsimp only
        exact .ite (.missPoint (.disarm (.checkAligned hs)))
            (.foldl (.updDesc (.updPoint (.writeKeep (.setJob (.disarm (.checkAligned hs)))))) fun _ _ h => .beginStream h)
    · exact hs
  · exact hs

protected theorem Canonical.snapshotEndMark {j} : Canonical (snapshotEndMark j s) := by
  unfold snapshotEndMark
  split
  · exact .ite (.endPoint hs) hs
  · exact hs

/-! ### Hangs and watchdogs -/

protected theorem Canonical.restartPanel {p} : Canonical (restartPanel s p) := hs
protected theorem Canonical.countHang {p} : Canonical (countHang s p) := hs

protected theorem Canonical.ctxRung {c cause} : Canonical (ctxRung c cause s) :=
  .ite (.updCtx (.ite (.closeCtx (.mk (.pushRung (.copyCounters (.raiseEv hs))))) (.mk (.pushRung (.copyCounters (.raiseEv hs)))))) hs

protected theorem Canonical.haltSlot {t} : Canonical (haltSlot s t) := .updSlot (.stopPasses (.dropHandles hs))

protected theorem Canonical.hangSlot {t} : Canonical (hangSlot t s) :=
  .ite (.foldl (.failSlotPart (.raiseEv (.countHang hs))) fun _ _ h => .haltSlot h) hs

protected theorem Canonical.dropLate {n} : Canonical (dropLate s n) := .ite hs (.lateDrop (.mk hs))

protected theorem Canonical.resetUnit {u} : Canonical (resetUnit s u) := by
  unfold resetUnit
  split
  · exact .spoilReady (.setUpdEngine hs)
  · exact .mk (.spoilReady (.setDie hs))
  · exact .mk (.spoilReady hs)

protected theorem Canonical.endStopped {d u} : Canonical (endStopped s d u) := by
  unfold endStopped
  split
  · exact hs
  · split
    · exact hs
    · exact .ite (.endPart hs) (.updDesc hs)

protected theorem Canonical.failParts {t} : Canonical (failParts t s) := .foldl hs fun _ _ h => .endStopped h

protected theorem Canonical.engineReset {src sub n inc} : Canonical (engineReset s src sub n inc) :=
  .copyCounters (.raiseEv (.noteRung (.mk hs)))

omit hs in
protected theorem Canonical.drawStuck {t : State} {b} (h : drawStuck s = (b, t)) (hs : Canonical s) : Canonical t := by
  cases h
  exact hs

protected theorem Canonical.unitRung {u cause} : Canonical (unitRung u cause s) := by
  unfold unitRung
  dsimp only
  split
  · next h => exact .pushRung (.drawStuck h (.writeDump (.engineReset hs)))
  · next h => exact .failParts (.resetUnit (.dropLate (.drawStuck h (.writeDump (.engineReset hs)))))

protected theorem Canonical.noteHang {k} : Canonical (noteHang s k) := by
  unfold noteHang
  split
  · exact .countHang hs
  · exact .setDie hs
  · exact .mk hs

protected theorem Canonical.unitHang {u} : Canonical (unitHang u s) := by
  unfold unitHang
  split
  · exact hs
  · exact .ite (.ite (.escalate (.raiseEv (.noteHang hs)) fun _ h => .startChip h)
        (.ite (.unitRung (.raiseEv (.noteHang hs))) (.ctxRung (.unitRung (.raiseEv (.noteHang hs)))))) hs

protected theorem Canonical.hangQueue {q} : Canonical (hangQueue q s) := by
  unfold hangQueue
  split
  · exact hs
  · exact .ite (.ctxRung (.ite (.unitRung (.raiseEv hs)) (.raiseEv hs))) hs

protected theorem Canonical.updUnitPart {d u g} : Canonical (updUnitPart s d u g) := .updDesc hs

protected theorem Canonical.stopPart {d p} : Canonical (stopPart s d p) :=
  .updUnitPart (.releaseHandles (.foldl hs fun _ _ h => .releaseSlot h))

protected theorem Canonical.resetEngine {c k} : Canonical (resetEngine s c k) :=
  .spoilReady (.setEngine (.ite (.releaseHandles (.dropLate hs)) (.dropLate hs)))

protected theorem Canonical.setReplay {c r} : Canonical (setReplay s c r) := hs

protected theorem Canonical.hangCleared {c k} : Canonical (hangCleared s c k) :=
  .ite (.engineToPanel (.setEngine (.raiseEv hs))) (.setEngine (.raiseEv hs))

protected theorem Canonical.leaveReplay {d} : Canonical (leaveReplay s d) := hs

protected theorem Canonical.restartPart {c d x p} {t : State} (h : restartPart s c d x p = some t) : Canonical t := by
  unfold restartPart at h
  dsimp only at h
  split at h
  · cases h
  · cases h
    exact .beginWindow (.setPanel (.foldl (.updUnitPart (.ite hs (.setCore hs))) fun _ _ h => .startSlot h))

protected theorem Canonical.replayFrom {c k l named} : Canonical (replayFrom c k l named s) := by
  induction l generalizing s with
  | nil =>
    unfold replayFrom
    exact .ite (.setReplay hs) (.hangCleared (.setReplay hs))
  | cons p t ih =>
    unfold replayFrom
    split
    · exact ih hs
    · split
      · split
        · next h =>
          split at h
          · exact .setReplay (.restartPart hs h)
          · cases h
        · exact ih (.raiseEv (.endStopped (.leaveReplay hs)))
      · exact ih (.leaveReplay hs)

protected theorem Canonical.nameAll {c parts sus} : Canonical (nameAll s c parts sus) :=
  .foldl (.foldl hs fun _ _ h => .raiseEv h) fun _ _ h => .ctxRung h

protected theorem Canonical.engineRung {c k more cause} : Canonical (engineRung c k more cause s) := by
  unfold engineRung
  dsimp only
  split
  · next h =>
    refine .pushRung (.setReplay (.drawStuck h ?_))
    exact .foldl (.writeDump (.foldl hs fun _ _ h => .engineReset h)) fun _ _ h => .stopPart h
  · next t h =>
    have ht : Canonical t :=
      .drawStuck h (.foldl (.writeDump (.foldl hs fun _ _ h => .engineReset h)) fun _ _ h => .stopPart h)
    have hr : ∀ l n, Canonical (List.foldl (fun s k => resetEngine s c k) (dropLate t n) l) :=
      fun _ _ => .foldl (.dropLate ht) fun _ _ h => .resetEngine h
    exact .ite (.replayFrom (hr _ _)) (.nameAll (.setReplay (hr _ _)))

protected theorem Canonical.hangEngine {c k} : Canonical (hangEngine c k s) :=
  .ite (.engineRung (.foldl hs fun _ _ h => .raiseEv (.countHang h))) hs

protected theorem Canonical.replayGuilty {c r d x p} : Canonical (replayGuilty s c r d x p) :=
  .replayFrom (.ctxRung (.setReplay (.raiseEv (.updUnitPart (.leaveReplay (.resetEngine (.dropLate (.stopPart (.countHang hs)))))))))

protected theorem Canonical.replayPassed {c r d x p} : Canonical (replayPassed s c r d x p) :=
  .replayFrom (.endPart (.setReplay (.leaveReplay (.raiseEv hs))))

protected theorem Canonical.replayEnd {c hung} : Canonical (replayEnd c hung s) := by
  unfold replayEnd
  split
  · exact hs
  · split
    · exact hs
    · split
      · exact .replayFrom hs
      · split
        · exact .replayFrom hs
        · exact .ite (.ite (.replayFrom (.endPart (.setReplay hs))) hs) (.ite (.ite (.replayGuilty hs) hs) (.ite (.replayPassed hs) hs))

/-! ### Panel tests -/

protected theorem Canonical.requestClock {p w} : Canonical (requestClock s p w) := by
  unfold requestClock
  dsimp only
  split
  · exact .setPanel hs
  · exact .ite hs (.setPanel hs)

protected theorem Canonical.snapPoints {p} : Canonical (snapPoints s p) := hs
protected theorem Canonical.snapAll : Canonical (snapAll s) := .foldl hs fun _ _ h => .snapPoints h
protected theorem Canonical.retune {p} : Canonical (retune s p) := .ite hs (.requestClock hs)
protected theorem Canonical.retuneAll : Canonical (retuneAll s) := .foldl hs fun _ _ h => .retune h

protected theorem Canonical.clockStallEnd {p} : Canonical (clockStallEnd p s) := by
  unfold clockStallEnd
  dsimp only
  split
  · exact hs
  · split
    · exact .restartPanel (.requestClock (.setPanel hs))
    · exact .restartPanel (.setPanel hs)

protected theorem Canonical.wdogPanel {p} : Canonical (wdogPanel p s) :=
  .ite (.ite (.panelToChip (.raiseEv (.setPanel hs))) (.startPanel (.raiseEv (.setPanel hs)))) hs

protected theorem Canonical.wdogChip : Canonical (wdogChip s) := .ite (.startChip (.raiseI3c (.setPanel hs))) hs

protected theorem Canonical.comparatorArm {p a} : Canonical (comparatorArm p a s) := by
  unfold comparatorArm
  split
  · exact hs
  · next m d _ =>
    have h : Canonical (armOn (checkAligned s) p (launchName s a) m).1 := .armOn (.checkAligned hs)
    exact .ite hs (.ite (.updDesc h) h)

protected theorem Canonical.missCommit {j} : Canonical (missCommit s j) := by
  unfold missCommit
  split
  · exact .refuseCommit (.raiseEv hs)
  · exact hs

protected theorem Canonical.launchMissed {a} : Canonical (launchMissed a s) := by
  unfold launchMissed
  split
  · exact hs
  · split
    · exact hs
    · split
      case h_1 | h_2 | h_3 =>
        split
        · exact .missColl hs
        · exact hs
      case h_4 => exact .missCommit hs
      case h_5 => exact .missPoint hs
      case h_6 =>
        split
        · exact .ite (.missEpoch hs) hs
        · exact hs
      case h_7 => exact hs

/-! ### Power and clocks -/

protected theorem Canonical.updPwr {g} : Canonical (updPwr s g) := hs
protected theorem Canonical.setSag {k x} : Canonical (setSag s k x) := hs

protected theorem Canonical.noteSample : Canonical (noteSample s) := .updPwr hs

protected theorem Canonical.setVin {v} : Canonical (setVin s v) :=
  .foldl (.noteSample (.updPwr hs)) fun _ _ h => .ite (.setSag h) h

protected theorem Canonical.tearFlash : Canonical (tearFlash s) := by
  unfold tearFlash
  split
  · exact .newFlash hs (writeBytes_wf _ _ _ (s.bank_wf .flash hs))
  · exact hs

protected theorem Canonical.powered {g} (h : Canonical (g s)) : Canonical (powered s g) := by
  unfold powered
  exact .ite h hs

protected theorem Canonical.selfRefreshAll {on} : Canonical (selfRefreshAll on s) := .foldl hs fun _ _ h => .setMemCtl h

protected theorem Canonical.judgeFive : Canonical (judgeFive s) :=
  .ite (.selfRefreshAll (.updPwr (.writeDump (.scanRings (.raiseEv hs)))))
      (.ite (.foldl (.selfRefreshAll (.updPwr hs)) fun _ _ h => .copyShadow h) hs)

protected theorem Canonical.settleStages {s0} : Canonical (settleStages s0 s) :=
  .foldl (.retuneAll (.judgeFive hs)) fun _ _ h => .ite (.restartPanel h) h

protected theorem Canonical.countSag {k} : Canonical (countSag s k) := hs
protected theorem Canonical.enterSag {v} : Canonical (enterSag v s) := .foldl hs fun _ _ h => .ite (.countSag (.setSag h)) h

protected theorem Canonical.leaveSag {n} : Canonical (leaveSag n s) := by
  induction n generalizing s with
  | zero => exact hs
  | succ n ih =>
    unfold leaveSag
    dsimp only
    split
    · split
      · exact .ite (ih (.setSag hs)) hs
      · exact hs
    · exact ih hs

protected theorem Canonical.sagStageExit {v} : Canonical (sagStageExit v s) :=
  .ite (.settleStages (.leaveSag (.setVin hs))) (.setVin hs)

protected theorem Canonical.peakCap {watts} : Canonical (peakCap watts s) := .powered hs (.ite (.settleStages (.updPwr hs)) hs)

protected theorem Canonical.peakCapLift {watts} : Canonical (peakCapLift watts s) :=
  .powered hs (.ite (.ite (.settleStages (.updPwr hs)) (.updPwr hs)) (.ite (.updPwr hs) hs))

protected theorem Canonical.excursionCap {usAbove} : Canonical (excursionCap usAbove s) :=
  .ite hs (.ite (.settleStages (.updPwr hs)) hs)

protected theorem Canonical.excursionLift {usAbove} : Canonical (excursionLift usAbove s) :=
  .ite hs (.ite (.settleStages (.updPwr hs)) hs)

protected theorem Canonical.powerRestart {vin} : Canonical (powerRestart vin s) := by
  unfold powerRestart
  split
  · exact hs
  · dsimp only
    split
    · exact .ite (.snapAll (.enterSag (.foldl (.trainChannels (.updPwr (.setVin hs))) fun _ _ h => .setPanel h))) (.setVin hs)
    · exact .setVin hs

protected theorem Canonical.setLimitPoint {p n} : Canonical (setLimitPoint s p n) := hs

protected theorem Canonical.limitStep {w d} : Canonical (limitStep w d s) := by
  unfold limitStep
  dsimp only
  split
  · split
    · exact .retuneAll (.setLimitPoint (.updPwr (.updPwr hs)))
    · exact .updPwr (.updPwr hs)
  · split
    · split
      · split
        · exact .retuneAll (.setLimitPoint (.updPwr (.updPwr hs)))
        · exact .updPwr (.updPwr hs)
      · exact .updPwr (.updPwr hs)
    · exact .updPwr (.updPwr hs)

protected theorem Canonical.setSensor {x v} : Canonical (setSensor s x v) := hs
protected theorem Canonical.sampleOne {m} : Canonical (sampleOne s m) := hs
protected theorem Canonical.countTherm {old} : Canonical (countTherm old s) := .foldl hs fun _ _ h => .updPwr h
protected theorem Canonical.judgeTrip : Canonical (judgeTrip s) := hs

protected theorem Canonical.thermalSample {l} : Canonical (thermalSample l s) :=
  .powered hs (.settleStages (.judgeTrip (.countTherm (.noteSample (.foldl hs fun _ _ h => .sampleOne h)))))

protected theorem Canonical.thermalStageExit {x} : Canonical (thermalStageExit x s) :=
  .powered hs (.settleStages (.judgeTrip (.setSensor hs)))

protected theorem Canonical.drillCtl {v} : Canonical (drillCtl v s) := by
  unfold drillCtl
  dsimp only
  exact .ite (.ite (.updPwr (.armOn (.checkAligned (.updPwr hs)))) (.updPwr (.armOn (.checkAligned (.updPwr hs))))) (.updPwr hs)

protected theorem Canonical.drillStart : Canonical (drillStart s) := by
  unfold drillStart
  split
  · exact .ite (.settleStages (.updPwr (.disarm hs))) hs
  · exact hs

protected theorem Canonical.drillEnd : Canonical (drillEnd s) := .ite (.settleStages (.updPwr hs)) hs

/-! ### The boot -/

protected theorem Canonical.flashWrite {a l} : Canonical (flashWrite s a l) :=
  .newFlash hs (writeBytes_wf _ _ _ (s.bank_wf .flash hs))

protected theorem Canonical.writeSel {active try_ attempted} : Canonical (writeSel s active try_ attempted) := by
  unfold writeSel
  split <;> exact .flashWrite hs

protected theorem Canonical.setMeas {i l} : Canonical (setMeas s i l) := hs
protected theorem Canonical.mailUp : Canonical (mailUp s) := hs

protected theorem Canonical.loadStages {b} : Canonical (loadStages s b) := by
  obtain ⟨-, -, hp, -, -, hm, hl⟩ := (MemState.wf_iff _).1 hs
  unfold loadStages
  exact .loaded hs (foldl_wf (fun _ _ => writeBytes_wf _ _ _) hp) (writeBytes_wf _ _ _ hm) (foldl_wf (fun _ _ => writeBytes_wf _ _ _) hl)

protected theorem Canonical.revoke {a} : Canonical (revoke s a) := hs

protected theorem Canonical.runSlot {b fallback onTrial} : Canonical (runSlot s b fallback onTrial) :=
  .foldl (.updSec (.revoke (.loadStages hs))) fun _ _ h => .setMeas h

protected theorem Canonical.bootSlots {b fallback onTrial} : Canonical (bootSlots s b fallback onTrial) :=
  .ite (.runSlot hs) (.ite (.runSlot hs) (.mailUp (.updSec hs)))

protected theorem Canonical.plinthBoot : Canonical (plinthBoot s) := by
  unfold plinthBoot
  split
  · split
    · exact .bootSlots (.writeSel hs)
    · exact .ite (.bootSlots (.writeSel hs)) (.ite (.bootSlots (.writeSel hs)) (.bootSlots hs))
  · exact hs

protected theorem Canonical.flashWpAssert : Canonical (flashWpAssert s) := by
  unfold flashWpAssert
  dsimp only
  split
  · exact .emit (.tearFlash (.updPwr hs))
  · exact .updPwr hs

/-! ### The mailbox -/

protected theorem Canonical.answer {r result payload} : Canonical (answer s r result payload) := hs

protected theorem Canonical.mailbox {recovery r g} (h : Canonical (g s)) : Canonical (mailbox recovery r g s) := by
  unfold mailbox
  exact .ite hs (.ite (.answer hs) (.ite (.answer hs) (.ite (.answer hs) h)))

protected theorem Canonical.mailStatus {r} : Canonical (mailStatus r s) := hs

protected theorem Canonical.beginFlash {r base data} : Canonical (beginFlash r base data s) :=
  .ite (.answer hs) (.mk (.updSec hs))

protected theorem Canonical.flashTick : Canonical (flashTick s) := by
  unfold flashTick
  split
  · exact .ite (.emit (.flashWrite (.updSec hs))) hs
  · exact hs

protected theorem Canonical.storeBlob {r} : Canonical (storeBlob r s) := .beginFlash hs
protected theorem Canonical.fwWrite {r} : Canonical (fwWrite r s) := .ite (.answer hs) (.ite (.answer hs) (.beginFlash hs))

protected theorem Canonical.fwActivate {r} : Canonical (fwActivate r s) := by
  unfold fwActivate
  exact .ite (.answer (.writeSel hs)) (.answer hs)

protected theorem Canonical.fwConfirm {r} : Canonical (fwConfirm r s) := by
  unfold fwConfirm
  split
  · exact .ite (.answer (.ite (.updSec (.updSec (.writeSel hs))) (.updSec (.writeSel hs)))) (.answer hs)
  · exact .answer hs

protected theorem Canonical.ownerFuse {r} : Canonical (ownerFuse r s) :=
  .ite (.answer hs) (.ite (.answer hs) (.answer (.updSec hs)))

protected theorem Canonical.unlockDebug : Canonical (unlockDebug s) := hs

protected theorem Canonical.debugToken {r} : Canonical (debugToken r s) :=
  .ite (.answer hs) (.ite (.answer (.unlockDebug hs)) (.answer hs))

protected theorem Canonical.mailReboot {r} : Canonical (mailReboot r s) := .startChip (.answer hs)

/-! ### Attestation -/

protected theorem Canonical.spdmError : Canonical (spdmError s) := hs
protected theorem Canonical.spdmOk {l} : Canonical (spdmOk s l) := hs

protected theorem Canonical.spdm {g} (h : Canonical (g s)) : Canonical (spdm g s) := by
  unfold spdm
  exact .ite h hs

protected theorem Canonical.signed {body} : Canonical (signed s body) := .ite (.spdmError hs) (.spdmOk (.mk hs))

protected theorem Canonical.getCertificate {slot offset len} : Canonical (getCertificate slot offset len s) := by
  unfold getCertificate
  split
  · exact .ite (.spdmOk hs) (.spdmError hs)
  · exact .spdmError hs

protected theorem Canonical.challenge {slot nonce} : Canonical (challenge slot nonce s) := by
  unfold challenge
  split
  · exact .ite (.signed hs) (.spdmError hs)
  · exact .spdmError hs

protected theorem Canonical.getMeasurements {i nonce} : Canonical (getMeasurements i nonce s) :=
  .ite (.signed hs) (.spdmError hs)

protected theorem Canonical.setSession {x} : Canonical (setSession s x) := hs
protected theorem Canonical.dropSession {sid} : Canonical (dropSession s sid) := hs

protected theorem Canonical.keyExchange {sid x} : Canonical (keyExchange sid x s) :=
  .ite (.spdmError hs) (.signed (.setSession (.mk hs)))

protected theorem Canonical.finishSession {sid verify} : Canonical (finishSession sid verify s) := by
  unfold finishSession
  split
  · exact .ite (.spdmOk (.setSession hs)) (.spdmError (.dropSession hs))
  · exact .spdmError hs

protected theorem Canonical.inSession {sid g} (h : ∀ x s, Canonical s → Canonical (g x s)) : Canonical (inSession sid g s) := by
  unfold inSession
  split
  · exact .ite (h _ s hs) (.spdmError hs)
  · exact .spdmError hs

protected theorem Canonical.keyUpdate {op x} : Canonical (keyUpdate op x s) :=
  .ite (.spdmOk (.setSession hs)) (.ite (.spdmOk hs) (.spdmError hs))

protected theorem Canonical.keyProg {k key} : Canonical (keyProg k key s) := hs
protected theorem Canonical.judgeIde : Canonical (judgeIde s) := hs
protected theorem Canonical.setBroken {i b} : Canonical (setBroken s i b) := .updSec hs

protected theorem Canonical.setGo {k} : Canonical (setGo k s) :=
  .ite (.spdmError hs) (.spdmOk
      (.ite (.ite (.flushHeld (.mk (.setBroken (.judgeIde (.updSec hs))))) (.setBroken (.judgeIde (.updSec hs))))
          (.judgeIde (.updSec hs))))

protected theorem Canonical.integrityFail {i} : Canonical (integrityFail i s) :=
  .ite (.judgeIde (.mk (.setBroken (.updSec hs)))) hs

/-! ### Bundles -/

protected theorem Canonical.stopSlot {t} : Canonical (stopSlot t s) :=
  .tryFree (.updSlot (.ite (.releaseHandles hs) (.raiseEv (.releaseHandles hs))))

protected theorem Canonical.sEffect {op t old f} : Canonical (sEffect op t old f s) := by
  unfold sEffect
  split
  · exact .sAlu hs
  · exact .sAlui hs
  · exact .sLi hs
  · exact .sLui hs
  · exact .sLd hs
  · exact .sSt hs
  · exact .sAmo hs
  · exact .sLink hs
  · exact .sLink hs
  · exact .sFp hs
  · exact .sFma hs
  · exact .sCsrr hs
  · exact .sCsrw hs
  · exact hs

protected theorem Canonical.bundleEffect {t o} : Canonical (bundleEffect t o s) := by
  unfold bundleEffect
  extract_lets old s1 s2 s3 s4 s5
  have h1 : Canonical s1 := .sEffect hs
  have h2 : Canonical s2 := .ite h1 (.ite (.vPassOp h1) (.vEffect h1))
  have h3 : Canonical s3 := .ite h2 (.mEffect h2)
  have h4 : Canonical s4 := .ite h3 (.xEffect h3)
  have h5 : Canonical s5 := .updSlot h4
  exact .ite (.stopPasses h5) (.ite (.stopSlot h5) h5)

protected theorem Canonical.noteIssue {t} : Canonical (noteIssue t s) := hs

protected theorem Canonical.issueBundle {t b} : Canonical (issueBundle t b s) := by
  unfold issueBundle
  split
  · split
    · exact .stopAt hs
    · exact .ite (.ite (.noteIssue (.bundleEffect hs)) hs) (.stopAt hs)
  · exact hs

protected theorem Canonical.issueS {op t f o} : Canonical (issueS op t f o s) := .issueBundle hs
protected theorem Canonical.issueV {op t f o} : Canonical (issueV op t f o s) := .issueBundle hs
protected theorem Canonical.issueM {op t f o} : Canonical (issueM op t f o s) := .issueBundle hs
protected theorem Canonical.issueX {op t f o} : Canonical (issueX op t f o s) := .issueBundle hs

protected theorem Canonical.icacheFill {t} : Canonical (icacheFill t s) := by
  unfold icacheFill
  dsimp only
  split
  · exact hs
  · split
    · exact .stopAt hs
    · split
      · exact .stopAt (.noteBadTable hs)
      · exact .ite (.stopAt (.noteResetRead hs)) (.setCore (.noteResetRead hs))

/-! ### Restores -/

/-- A restore of another kind leaves the state in which it was called. -/
protected theorem Canonical.restoreRun {op d x w} {g : Job → DescState → List Nat → State → State} {u : State} (hu : Canonical u)
    (h : ∀ j x w s, Canonical s → Canonical (g j x w s)) : Canonical (restoreRun op d g s x w u) := by
  unfold restoreRun
  refine .ite hs (.ite (.endDesc hu) ?_)
  split
  · exact .endDesc hu
  · exact h _ _ _ _ hu

protected theorem Canonical.noteReserve {e area off n} : Canonical (noteReserve s e area off n) :=
  .foldl hs fun _ _ h => .noteResetRead h

protected theorem Canonical.noteRegion {e} : Canonical (noteRegion s e) :=
  .foldl (.noteReserve (.noteReserve hs)) fun _ _ h => .foldl h fun _ _ h => .noteReserve h

protected theorem Canonical.inventoryRun {d j x w} : Canonical (inventoryRun d j x w s) := by
  unfold inventoryRun
  dsimp only
  have hu : ∀ l n v, Canonical (setResult (List.foldl noteRegion s l) d n v) :=
    fun _ _ _ => .setResult (.foldl hs fun _ _ h => .noteRegion h)
  split
  · next h => exact .concludeDesc (.vaWrite (hu _ _ _) h)
  · exact .concludeDesc (.noteVaWrite (hu _ _ _))

protected theorem Canonical.putDenseRoots {j u b a w st rb mine} : Canonical (putDenseRoots s j u b a w st rb mine) := by
  -- Unfolded as a function: at its arguments the kernel would evaluate the place of the record.
  generalize hf : putDenseRoots = f
  delta putDenseRoots at hf
  subst hf; beta_reduce
  split
  · exact hs
  · exact .ite (.setJob hs) (.vaPut (.setJob hs))

protected theorem Canonical.putDense {j u b a h} : Canonical (putDense s j u b a h) :=
  .putDenseRoots (.ctxWrite (.ctxWrite (.vaPut hs)))

protected theorem Canonical.putSparse {j u b a} : Canonical (putSparse s j u b a) :=
  .foldl hs fun _ _ h => .ctxWrite (.ctxWrite (.vaPut h))

protected theorem Canonical.putLadder {j l} : Canonical (putLadder s j l) := .vaPut (.vaPut hs)

protected theorem Canonical.putImage {j p b e} : Canonical (putImage j p b s e) := by
  unfold putImage
  split
  · exact hs
  · split
    · exact .putDense hs
    · exact .putSparse hs
    · exact .putLadder hs

protected theorem Canonical.stepWeights {c back k va b scales codes n} : Canonical (stepWeights s c back k va b scales codes n) :=
  .vaPut hs

protected theorem Canonical.stepCount {c back va} : Canonical (stepCount s c back va) := .ctxWrite hs

protected theorem Canonical.applyRecord {j p back b a} : Canonical (applyRecord j p back b s a) := by
  unfold applyRecord
  dsimp only
  split
  · exact hs
  · exact .ite (.stepCount (.stepWeights hs)) (.foldl hs fun _ _ h => .stepCount (.stepWeights h))

protected theorem Canonical.afterApply {j step} : Canonical (afterApply s j step) := .setJob (.jobWrite hs)
protected theorem Canonical.concludeApply {d steps bad} : Canonical (concludeApply s d steps bad) := .concludeDesc (.updDesc hs)

protected theorem Canonical.liveToA {j u} : Canonical (liveToA j s u) :=
  .ite (.ctxWrite (.ite hs (.vaPut hs))) (.foldl hs fun _ _ h => .ctxWrite (.ctxWrite (.ite h (.vaPut h))))

protected theorem Canonical.applyLocalRun {d j x w} : Canonical (applyLocalRun d j x w s) := by
  unfold applyLocalRun
  dsimp only
  split
  · exact .concludeDesc hs
  · next p _ =>
    cases keepOf p (fld (nth w 0) 32 32) with
    | none => exact .concludeDesc hs
    | some half =>
      refine .ite (.concludeDesc hs) ?_
      generalize hr : List.foldl _ _ (List.flatMap _ _) = r
      have h : Canonical r.1 := by
        rw [← hr]
        exact .foldl_fst (.foldl (.foldl (.noteRanges (.noteRanges hs)) fun _ _ h => .liveToA h) fun _ _ h => .putImage h)
          fun _ _ h => .applyRecord (.noteRanges h)
      exact .concludeApply (.afterApply h)

protected theorem Canonical.updRestore {j g} : Canonical (updRestore s j g) := by
  unfold updRestore
  split
  · exact .setJob hs
  · exact hs

protected theorem Canonical.sendPiece {j a area off l} : Canonical (sendPiece j a area off l s) := .sendSecure hs
protected theorem Canonical.sendClosing {j a n missing lost} : Canonical (sendClosing j a n missing lost s) := .sendPiece hs
protected theorem Canonical.dropFailed {o} : Canonical (dropFailed s o) := hs

protected theorem Canonical.backStep {j src stream} : Canonical (backStep s j src stream) := by
  unfold backStep
  dsimp only
  split
  · exact .ite (.sendClosing (.dropFailed (.setJob hs))) hs
  · exact hs

protected theorem Canonical.sendPoint {j a e} : Canonical (sendPoint s j a e) := by
  -- Unfolded as a function, like putDenseRoots.
  generalize hf : sendPoint = f
  delta sendPoint at hf
  subst hf; beta_reduce
  split
  · exact .sendClosing hs
  · exact .backStep (.setJob (.foldl hs fun _ _ h => .sendPiece (.noteReserve h)))

protected theorem Canonical.sendBack {j a} : Canonical (sendBack s j a) := by
  unfold sendBack
  split
  · exact .sendClosing hs
  · exact .sendPoint (.noteRegion hs)

protected theorem Canonical.restoreStartMark {j src} : Canonical (restoreStartMark j src s) :=
  .foldl (.setJob hs) fun _ _ h => .sendBack h

omit hs in
protected theorem Canonical.applyStream {j p step b st} {acc : State × Nat} (h : Canonical acc.1) :
    Canonical (applyStream j p step b acc st).1 := by
  unfold applyStream
  split
  · exact h
  · next a w _ =>
    have hp : ∀ l g, Canonical (List.foldl (applyRecord j p false b) (List.foldl (putImage j p b) acc.1 g) l) :=
      fun _ _ => .foldl (.foldl h fun _ _ h => .putImage h) fun _ _ h => .applyRecord h
    dsimp only
    split
    · exact .ite (hp _ _) (.foldl (hp _ _) fun _ _ h => .putImage h)
    · exact hp _ _

protected theorem Canonical.checkRestored {j} : Canonical (checkRestored s j) := by
  unfold checkRestored
  split
  · refine .ite (.concludeDesc (.setJob hs)) (.ite (.ite (.concludeDesc (.setJob hs)) ?_) hs)
    split
    next h =>
    exact .concludeApply (.afterApply (.of_fst h (.foldl_fst hs fun _ _ h => .applyStream h)))
  · exact hs

protected theorem Canonical.restoreGot {j a} : Canonical (restoreGot s j a) := .checkRestored (.updRestore hs)

protected theorem Canonical.settleRestore {j} : Canonical (settleRestore s j) :=
  .foldl (.ite (.checkRestored (.updRestore (.dropFailed hs))) hs) fun _ _ h => .backStep h

protected theorem Canonical.settleRestores : Canonical (settleRestores s) := .foldl hs fun _ _ h => .settleRestore h

protected theorem Canonical.applyRemoteRun {d j x w} : Canonical (applyRemoteRun d j x w s) := by
  unfold applyRemoteRun
  split
  · exact .concludeDesc hs
  · exact .ite (.endDesc hs) (.settleRestores (.foldl (.setJob (.setDesc hs)) fun _ _ h => .sendSecure h))

/-! ### Deliveries -/

protected theorem Canonical.updRecv {h g} : Canonical (updRecv s h g) := .ite (.updDie hs) (.updDie hs)

protected theorem Canonical.messageDone {h r} : Canonical (messageDone s h r) := by
  unfold messageDone
  split
  · exact .collReceived hs
  · exact .ite (.ite (.restoreGot (.sendAck hs)) (.sendAck hs)) hs

protected theorem Canonical.countBytes {h} : Canonical (countBytes s h) := by
  unfold countBytes
  split
  · exact hs
  · exact .ite (.messageDone (.updRecv hs)) (.updRecv hs)

protected theorem Canonical.takeAck {d h} : Canonical (takeAck s d h) := by
  unfold takeAck
  split
  · exact hs
  · split
    · exact hs
    · split
      · exact .streamStep (.dropSend hs)
      · exact .dropSend hs
      · exact .backStep (.dropSend hs)
      · exact .putSend hs
      · exact .putSend hs
      · exact hs

protected theorem Canonical.countDelivered {d} : Canonical (countDelivered s d) := hs

protected theorem Canonical.writeVa {d p} : Canonical (writeVa s d p).1 := by
  unfold writeVa
  refine .foldl_fst hs fun a u h => ?_
  dsimp only
  split
  · exact .ctxWrite h
  · exact .raiseEv (.noteVaWrite h)

protected theorem Canonical.writeReserve {p} : Canonical (writeReserve s p).1 := by
  unfold writeReserve
  dsimp only
  split
  · exact hs
  · exact .ite_fst hs (.foldl_fst hs fun _ _ h => .gddrWrite h)

protected theorem Canonical.takeBack {p} : Canonical (takeBack s p).1 := .ite_fst (.setJob hs) (.ite_fst (.updRestore hs) hs)

protected theorem Canonical.writePayload {d p} : Canonical (writePayload s d p).1 :=
  .ite_fst (.ite_fst (.takeBack hs) (.writeReserve hs)) (.writeVa hs)

protected theorem Canonical.deliveryWrite {d} : Canonical (deliveryWrite d s) := by
  unfold deliveryWrite
  split
  · exact hs
  · dsimp only
    exact .ite (.updCtx (.updDie (.updDie hs)))
        (.ite (.takeAck (.takeAck (.countDelivered (.updDie hs))))
            (.ite (.updDie (.updDie hs))
                (.ite (.countBytes (.writePayload (.countDelivered (.updDie hs)))) (.writePayload (.countDelivered (.updDie hs))))))

protected theorem Canonical.failStale {d j m x} : Canonical (failStale s d j m x) := by
  unfold failStale
  split
  · exact .failSlotPart (.putSend hs)
  · exact .dropSend (.updDesc (.putSend hs))
  · exact .backStep (.putSend hs)
  · exact .checkRestored (.updRestore (.dropSend (.putSend hs)))
  · exact .putSend hs

protected theorem Canonical.msgStale {d j m} : Canonical (msgStale d j m s) := by
  unfold msgStale
  split
  · exact hs
  · exact .ite (.failStale (.updCtx (.raiseEv hs))) hs

/-! ### Logs -/

protected theorem Canonical.logAck {v} : Canonical (logAck v s) := .evFlush (.setPath hs)
protected theorem Canonical.evqAck {v} : Canonical (evqAck v s) := .evFlush (.setPath hs)
protected theorem Canonical.evqBase {v} : Canonical (evqBase v s) := .ite hs (.mk hs)
protected theorem Canonical.evqCfg {v} : Canonical (evqCfg v s) := hs
protected theorem Canonical.evCfg {v} : Canonical (evCfg v s) := hs

protected theorem Canonical.i3cSend : Canonical (i3cSend s) := by
  unfold i3cSend
  split
  · exact hs
  · split
    · exact .emit (.mk hs)
    · exact hs

protected theorem Canonical.mctpHeartbeat : Canonical (mctpHeartbeat s) := .ite (.emit (.mk hs)) hs

/-! ### Resets -/

protected theorem Canonical.stripParts {p} : Canonical (stripParts s p) := hs
protected theorem Canonical.dropPanelSends {p} : Canonical (dropPanelSends s p) := hs
protected theorem Canonical.dropEngineRungs {p} : Canonical (dropEngineRungs s p) := hs

protected theorem Canonical.resetPanel {p} : Canonical (resetPanel s p) := by
  unfold resetPanel
  dsimp only
  exact .snapPoints (.panelLost (.setPanel (.spoilReady (.stripParts (.dropPanelSends (.dropEngineRungs (.dropLate hs)))))))

protected theorem Canonical.panelRung {p} : Canonical (panelRung p s) :=
  .ite (.noteRung (.restartPanel (.mk (.failParts (.freeMem (.dropRung (.resetPanel hs))))))) hs

protected theorem Canonical.trimPanels : Canonical (trimPanels s) := hs
protected theorem Canonical.freeAllMem : Canonical (freeAllMem s) := .foldl hs fun _ _ h => .freeMem h

protected theorem Canonical.resetChip : Canonical (resetChip s) := by
  obtain ⟨hg, -, -, hh, hf, -, -⟩ := (MemState.wf_iff _).1 hs
  exact (MemState.wf_iff _).2 ⟨hg, rfl, rfl, hh, hf, rfl, rfl⟩

protected theorem Canonical.quietModule : Canonical (quietModule s) :=
  .mk (.dropRung (.freeAllMem (.trimPanels (.snapAll (.resetChip (.idleDie (.idleDie (.copyCounters (.closePaths hs)))))))))

protected theorem Canonical.powerNotice {force cause src} : Canonical (powerNotice force cause src s) :=
  .ite (.raiseI3c hs) (.writeDump (.copyCounters (.scanRings (.raiseEv hs))))

protected theorem Canonical.powerRungRun {force cause src} : Canonical (powerRungRun force cause src s) :=
  .ite (.mk (.mk (.powerNotice hs))) (.quietModule (.mk (.powerNotice hs)))

protected theorem Canonical.powerCycleRung : Canonical (powerCycleRung s) := by
  unfold powerCycleRung
  split
  · exact .powerRungRun hs
  · exact hs

protected theorem Canonical.engineRungs {a} : Canonical (engineRungs a s) := by
  unfold engineRungs
  refine .foldl (.foldl hs fun u c h => ?_) fun _ _ h => .ite (.unitRung h) h
  split
  · exact h
  · exact .ite h (.engineRung h)

protected theorem Canonical.engineWaits {a} : Canonical (engineWaits a s) :=
  .foldl (.foldl (.mk hs) fun _ _ h => .foldl h fun _ _ h => .raiseEv h) fun _ _ h => .ite (.raiseEv h) h

protected theorem Canonical.engineLateRung {k} : Canonical (engineLateRung s k) := by
  unfold engineLateRung
  split
  · exact .engineToPanel hs
  · split
    · exact .engineToPanel hs
    · exact .escalate hs fun _ h => .startChip h
  · exact hs

protected theorem Canonical.rungTimeout {r} : Canonical (rungTimeout r s) := by
  unfold rungTimeout
  split
  · exact hs
  · split
    · exact .ite (.ite (.engineRungs (.dropRung hs)) (.engineWaits (.dropRung hs))) hs
    · exact .ite (.engineLateRung hs) hs
    · exact .ite (.engineLateRung hs) hs
    · exact .ite (.panelToChip hs) hs
    · exact .ite (.escalate hs fun _ h => .startPower h) hs

protected theorem Canonical.answered : Canonical (answered s) := hs
protected theorem Canonical.reqDump : Canonical (reqDump s) := .chipDumps hs

protected theorem Canonical.reqContext {target} : Canonical (reqContext target s) :=
  .dite (fun _ => .ctxRung (.answered hs)) fun _ => hs

protected theorem Canonical.reqEngine {target sub} : Canonical (reqEngine target sub s) := by
  unfold reqEngine
  split
  · split
    · exact .ite (.engineRung (.answered hs)) hs
    · exact hs
  · split
    · exact .ite hs (.unitRung (.answered hs))
    · exact hs

protected theorem Canonical.reqPanel {target} : Canonical (reqPanel target s) :=
  .dite (fun _ => .startPanel (.answered hs)) fun _ => hs

protected theorem Canonical.reqChip : Canonical (reqChip s) := .ite hs (.startChip (.answered hs))
protected theorem Canonical.reqPower : Canonical (reqPower s) := .ite hs (.powerRungRun (.answered hs))

protected theorem Canonical.rstreq {v} : Canonical (rstreq v s) := by
  unfold rstreq
  split
  · exact .reqDump hs
  · exact .reqContext hs
  · exact .reqEngine hs
  · exact .reqPanel hs
  · exact .reqChip hs
  · exact .reqPower hs
  · exact hs

protected theorem Canonical.riskCompute {vin} : Canonical (riskCompute vin s) :=
  .ite (.copyCounters (.ite (.mk (.setVin hs)) (.raiseEv (.mk (.setVin hs))))) hs

/-! ### Register writes -/

protected theorem Canonical.accErr {off} : Canonical (accErr off s) := hs
protected theorem Canonical.updGlb {g} : Canonical (updGlb s g) := hs
protected theorem Canonical.updQmg {g} : Canonical (updQmg s g) := hs
protected theorem Canonical.hangCfg {v} : Canonical (hangCfg v s) := hs
protected theorem Canonical.riskWrite {v} : Canonical (riskWrite v s) := hs
protected theorem Canonical.dumpSel {v} : Canonical (dumpSel v s) := hs
protected theorem Canonical.coreFence {p v} : Canonical (coreFence p v s) := .ite (.accErr hs) (.setPanel hs)

protected theorem Canonical.ctxCtl {v} : Canonical (ctxCtl v s) := by
  unfold ctxCtl
  split
  · exact .openCtx hs
  · exact .ctxClose hs
  · exact .ctxFree hs
  · exact hs

protected theorem Canonical.ctxSetup {g} : Canonical (ctxSetup s g) := .ite (.updCtx hs) hs
protected theorem Canonical.groupOwn {v} : Canonical (groupOwn v s) := .ite hs (.updQmg hs)
protected theorem Canonical.queueSetup {g} : Canonical (queueSetup s g) := .ite hs (.updQueue hs)
protected theorem Canonical.queueCfg {v} : Canonical (queueCfg v s) := .ite (.queueEnable hs) (.queueDisable hs)
protected theorem Canonical.gauCtl {v} : Canonical (gauCtl v s) := .ite (.joinFrom (.updGau hs)) (.updGau hs)

protected theorem Canonical.linkCtl {l v} : Canonical (linkCtl l v s) := by
  unfold linkCtl
  split
  · exact .ite (.resolveLink (.writeTarget hs fun _ h => .targetOff h)) (.writeTarget hs fun _ h => .targetOff h)
  · exact .ite (.resolveLink (.writeTarget hs fun _ h => .targetHold h)) (.writeTarget hs fun _ h => .targetHold h)
  · exact .ite (.resolveLink (.writeTarget hs fun _ h => .targetRun h)) (.writeTarget hs fun _ h => .targetRun h)
  · exact .ite (.resolveLink hs) hs

protected theorem Canonical.aperWrite {a v} : Canonical (aperWrite a v s) := hs
protected theorem Canonical.lockedWrite : Canonical (lockedWrite s) := hs

protected theorem Canonical.glbWrite {o v} : Canonical (glbWrite o v s) := by
  unfold glbWrite
  split
  · exact .riskWrite hs
  · exact .hangCfg hs
  · exact .rstreq hs
  · exact .dumpSel hs
  · exact .updGlb hs
  · exact .logAck hs
  · exact .evCfg hs
  · exact hs

protected theorem Canonical.qmgWrite {o v} : Canonical (qmgWrite o v s) := by
  unfold qmgWrite
  split
  · exact .updQmg hs
  · exact .ctxCtl hs
  · exact .ite (.updCtx hs) hs
  · exact .ctxSetup hs
  · exact .ctxSetup hs
  · exact .ctxSetup hs
  · exact .updQmg hs
  · exact .groupOwn hs
  · exact .updQmg hs
  · exact .queueSetup hs
  · exact .queueSetup hs
  · exact .queueCfg hs
  · exact .ite (.updQueue hs) hs
  · exact .evqBase hs
  · exact .evqCfg hs
  · exact .evqAck hs
  · exact hs

protected theorem Canonical.lnkWrite {o v} : Canonical (lnkWrite o v s) :=
  .ite (.lockedWrite hs) (.dite (fun _ => .linkCtl hs) fun _ => hs)

protected theorem Canonical.gauWrite {o v} : Canonical (gauWrite o v s) := by
  unfold gauWrite
  split
  · exact .gauCtl hs
  · exact .updGau hs
  · exact hs

protected theorem Canonical.pwrWrite {o v} : Canonical (pwrWrite o v s) := by
  unfold pwrWrite
  split
  · exact .updPwr hs
  · exact .updPwr hs
  · exact .drillCtl hs
  · exact hs

protected theorem Canonical.secWrite {o v} : Canonical (secWrite o v s) := .ite (.updSec hs) (.ite (.lockedWrite hs) hs)
protected theorem Canonical.memWrite {o v} : Canonical (memWrite o v s) := .ite (.secresSet hs) (.ite (.aperWrite hs) hs)

protected theorem Canonical.regWrite {off v} : Canonical (regWrite off v s) :=
  .ite (.glbWrite hs) (.ite hs
      (.dite (fun _ => .ite (.coreFence hs) hs) fun _ => .ite (.qmgWrite hs)
          (.ite (.lnkWrite hs) (.ite (.gauWrite hs) (.ite (.pwrWrite hs) (.ite (.secWrite hs) (.ite (.memWrite hs) hs)))))))

protected theorem Canonical.registerWrite {off v} : Canonical (registerWrite off v s) := .ite (.regWrite hs) (.accErr hs)

protected theorem Canonical.noteWindowRead {off} : Canonical (noteWindowRead off s) := by
  unfold noteWindowRead
  split
  · split
    · exact .noteResetRead hs
    · exact hs
  · exact hs

protected theorem Canonical.bar0Refused {a} : Canonical (bar0Refused a s) :=
  .ite hs (.ite (.ite hs (.hostWrite hs (.accErr hs))) (.ite (.emit (.noteWindowRead hs)) (.emit (.accErr hs))))

/-! ### The tick -/

protected theorem Canonical.gddrMishap {pa upset} : Canonical (gddrMishap pa upset s) := .ite (.memError hs) hs

protected theorem Canonical.benchMishap {c off double} : Canonical (benchMishap c off double s) := by
  unfold benchMishap
  exact .ite (.newBench hs (setPoison_wf _ _ _ (s.bank_wf .bench hs))) hs

protected theorem Canonical.storeMishap {p off double} : Canonical (storeMishap p off double s) := by
  unfold storeMishap
  exact .ite hs (.ite (.newPstore hs (setPoison_wf _ _ _ (s.bank_wf .pstore hs))) (.ite (.panelToChip hs) hs))

protected theorem Canonical.befall {m} : Canonical (befall m s) := by
  unfold befall
  split
  · exact .gddrMishap hs
  · exact .benchMishap hs
  · exact .storeMishap hs
  · exact .startChip hs
  · exact .startChip hs
  · exact .startChip hs

protected theorem Canonical.mishapTick : Canonical (mishapTick s) := by
  unfold mishapTick
  split
  · split
    · exact .befall hs
    · exact hs
  · exact hs

protected theorem Canonical.tickAll : Canonical (tickAll s) := .mishapTick (.flashTick hs)
end

section

variable {s t : State} (hs : Canonical s)
include hs

/-! ### Page tables that MAP makes -/

protected theorem Canonical.newTable {c size} {r : State × Nat} (h : newTable s c size = some r) : Canonical r.1 := by
  obtain ⟨a, -, rfl⟩ := Option.map_eq_some_iff.1 h
  exact .sameBanks (.gddrClear hs)

protected theorem Canonical.tableUnder {c addr size} {r : State × Nat} (h : tableUnder s c addr size = some r) : Canonical r.1 := by
  unfold tableUnder at h
  dsimp only at h
  split at h
  · cases h; exact hs
  · obtain ⟨q, hq, rfl⟩ := Option.map_eq_some_iff.1 h
    exact .putPte (.newTable hs hq)

protected theorem Canonical.mapLeaf {c va psize e} (h : mapLeaf s c va psize e = some t) : Canonical t := by
  unfold mapLeaf at h
  dsimp only at h
  split at h
  · cases h; exact .putPte hs
  · split at h
    · cases h
    · next h1 =>
      split at h
      · cases h; exact .putPte (.tableUnder hs h1)
      · split at h
        · cases h
        · next h0 => cases h; exact .putPte (.tableUnder (.tableUnder hs h1) h0)

protected theorem Canonical.mapLeaves {c psize w x hdm n va pa} (h : mapLeaves c psize w x hdm n va pa s = some t) : Canonical t := by
  induction n generalizing va pa s with
  | zero => cases h; exact hs
  | succ n ih =>
    obtain ⟨u, hu, h⟩ := Option.bind_eq_some_iff.1 h
    exact ih (.mapLeaf hs hu) h

protected theorem Canonical.mapPages {c m} (h : mapPages s c m = some t) : Canonical t := by
  unfold mapPages at h
  split at h
  · cases h
  · exact .mapLeaves hs h

protected theorem Canonical.unmapPages {c m} (h : unmapPages s c m = some t) : Canonical t := by
  unfold unmapPages at h
  split at h
  · cases h; exact .updCtx hs
  · cases h

/-! ### Resets that keep little, and configurations -/

protected theorem Canonical.dropGood : Canonical (dropGood s) := by
  unfold dropGood
  refine .ite ?_ hs
  extract_lets u up v
  have hv : Canonical v := .foldl (.tearFlash hs) fun _ _ h => .dite (fun _ => .emit h) fun _ => h
  obtain ⟨-, -, -, hhost, hflash, -, -⟩ := (MemState.wf_iff _).1 hv
  exact (MemState.wf_iff _).2 ⟨rfl, rfl, rfl, hhost, hflash, rfl, rfl⟩

protected theorem Canonical.chipRung : Canonical (chipRung s) := by
  unfold chipRung
  exact .ite (.mk (.trainChannels (.freeAllMem (.trimPanels (.snapAll (.resetChip (.tearFlash (.chipClose hs)))))))) hs

protected theorem Canonical.hardwareTrip {x celsius} : Canonical (hardwareTrip x celsius s) := by
  unfold hardwareTrip
  split
  · exact .ite (.dropGood hs) hs
  · exact hs

protected theorem Canonical.sagStageEnter {v} : Canonical (sagStageEnter v s) := by
  unfold sagStageEnter
  exact .ite (.dropGood (.setVin hs)) (.ite (.settleStages (.enterSag (.setVin hs))) (.setVin hs))

protected theorem Canonical.lockConfig {b} : Canonical (lockConfig s b) := by
  unfold lockConfig offDisabled
  exact .foldl (.mailUp (.foldl (.mk (.updSec (.setMeas hs))) fun _ _ h => .setPanel h)) fun _ _ h => .ite h (.targetOff h)

protected theorem Canonical.configLock : Canonical (configLock s) := by
  unfold configLock refuseConfig
  refine .ite (.ite (.lockConfig (.updSec hs)) (.ite (.lockConfig (.updSec hs)) ?_)) hs
  exact .foldl (.mailUp (.updSec (.updSec hs))) fun _ _ h => .targetHold h

protected theorem Canonical.configLoad {r} : Canonical (configLoad r s) := by
  unfold configLoad
  refine .ite (.ite (.answer (.updSec hs)) (.storeBlob hs)) (.ite (.answer hs) (.ite (.answer (.updSec hs)) ?_))
  exact .ite (.storeBlob (.lockConfig (.updSec hs))) (.answer (.lockConfig (.updSec hs)))

/-! ### Commands -/

omit hs in
/-- What a command answers next. -/
protected theorem Canonical.next {u : State} (h : (.next u : Host.Outcome State Fault Refusal) = .next t) (hu : Canonical u) :
    Canonical t :=
  Host.Outcome.next.inj h ▸ hu

protected theorem Canonical.execMapDesc {d} (h : execMapDesc d s = .next t) : Canonical t := by
  refine .next h (.startDesc hs fun x u hu => .ite hs ?_)
  split
  · next hm => exact .endDesc (.mapPages hu hm)
  · exact .endDesc (.noteTables hu)

protected theorem Canonical.execUnmap {d} (h : execUnmap d s = .next t) : Canonical t := by
  refine .next h (.startDesc hs fun x u hu => ?_)
  split
  · next hm => exact .setDesc (.unmapPages hu hm)
  · exact .endDesc (.noteTables hu)

protected theorem Canonical.execGetDigests (h : execGetDigests s = .next t) : Canonical t := by
  refine .next h (.spdm hs ?_)
  split
  · exact .spdmOk hs
  · exact .spdmError hs

protected theorem Canonical.execPatrolScrub {pa u} (h : execPatrolScrub pa u s = .next t) : Canonical t := by
  unfold execPatrolScrub at h
  split at h
  · exact .next h (.patrolScrub hs)
  · cases h

protected theorem Canonical.execGaugeSteer (h : execGaugeSteer s = .next t) : Canonical t := by
  unfold execGaugeSteer at h
  dsimp only at h
  split at h
  · exact .next h (.checkAligned (.updGau hs))
  · exact .next h hs

protected theorem Canonical.execGaugeRefLost (h : execGaugeRefLost s = .next t) : Canonical t := by
  unfold execGaugeRefLost at h
  dsimp only at h
  split at h
  · exact .next h (.checkAligned (.raiseEv (.updGau hs)))
  · exact .next h hs

protected theorem Canonical.execLinkStepTimeout {l} (h : execLinkStepTimeout l s = .next t) : Canonical t := by
  unfold execLinkStepTimeout at h
  dsimp only at h
  split at h
  · split at h
    · exact .next h (.linkDown hs)
    · exact .next h hs
  · exact .next h hs

protected theorem Canonical.execLinkBerWindow {l} (h : execLinkBerWindow l s = .next t) : Canonical t := by
  unfold execLinkBerWindow at h
  dsimp only at h
  split at h
  · exact .next h hs
  · exact .next h (.ite (.raiseEv (.setLink hs)) (.setLink hs))

protected theorem Canonical.execAliveSend {l} (h : execAliveSend l s = .next t) : Canonical t := by
  unfold execAliveSend at h
  dsimp only [State.draw] at h
  split at h
  · exact .next h (.emit (.updLink (.mk hs)))
  · exact .next h hs

protected theorem Canonical.execAliveReceive {l a rx} (h : execAliveReceive l a rx s = .next t) : Canonical t := by
  unfold execAliveReceive at h
  dsimp only at h
  split at h
  · split at h
    · refine .next h (.checkAligned (.ite (.ite (.leaveRun (.setLink hs)) (.setLink hs)) ?_))
      exact .ite (.enterRun (.holdStep (.setLink hs))) (.holdStep (.setLink hs))
    · exact .next h (.setLink hs)
  · exact .next h hs

protected theorem Canonical.execFrameSend {l} (h : execFrameSend l s = .next t) : Canonical t := by
  unfold execFrameSend at h
  dsimp only at h
  split at h
  · exact .next h (.ite (.sendNext (.checkRing hs)) (.checkRing hs))
  · exact .next h hs

protected theorem Canonical.execFrameReceive {l cw} (h : execFrameReceive l cw s = .next t) : Canonical t := by
  unfold execFrameReceive at h
  dsimp only at h
  split at h
  · split at h
    · exact .next h (.ite (.badFrame (.setLink hs)) (.setLink hs))
    · exact .next h (.ite (.goodFrame (.setLink hs)) (.setLink hs))
  · exact .next h hs

end

/-- A command leaves the memories in their canonical form, whichever it is. -/
theorem canonical_exec {c : Instr} {s t : State} (hs : Canonical s) (h : exec c s = .next t) : Canonical t := by
  cases c with
  | slotNop => exact .next h (.issueBundle hs)
  | alu | alui | li | lui | ld | st | amo | br | jal | jalr | fpOp | fma | csrr | csrw | stop => exact .next h (.issueS hs)
  | vCfg | vAdd | vSub | vMul | vFma | vDiv | vSqrt | vMin | vMax | vFunc | vLdexp | vCvt | vAnd | vOr | vXor | vShl | vShr |
    vSar | vBcast | vWmul | vDot | vCmp | vMop | vMpopc | vMfirst | vPerm | vRed | vLd | vLds | vLdx | vLdff | vMld | vSt |
    vSts | vStx | vMst | vPass =>
    exact .next h (.issueV hs)
  | mtBegin | mtAcc | mtAddraw | mtStore | mtDrop | mtAlign => exact .next h (.issueM hs)
  | xSig | xWait | xScset | xScread | xFence | xIcinv | xMove | xMoved => exact .next h (.issueX hs)
  | pendingWriteComplete => exact .next h (.pendingDone hs)
  | mtOpComplete => exact .next h (.tileComplete hs)
  | moveComplete => exact .next h (.moveComplete hs)
  | chainPassComplete => exact .next h (.passComplete hs)
  | icacheFill => exact .next h (.icacheFill hs)
  | syncCounterIncrement => exact .next h (.releaseWaits (.foldl hs fun _ _ h => .putInc h))
  | clockChangeRequest => exact .next h (.ite (.requestClock hs) hs)
  | clockStallEnd => exact .next h (.ite (.clockStallEnd hs) hs)
  | watchdogRestart => exact .next h (.ite (.setPanel hs) hs)
  | wdogPanel => exact .next h (.wdogPanel hs)
  | wdogChip => exact .next h (.wdogChip hs)
  | comparatorArm => exact .next h (.comparatorArm hs)
  | launchMissed => exact .next h (.launchMissed hs)
  | amaxMerge => exact .next h (.amaxMerge hs)
  | ladderDecide => exact .next h (.ladderDecide hs)
  | voteEvaluate => exact .next h (.voteEvaluate hs)
  | commitRecordWrite => exact .next h (.commitRecordWrite hs)
  | commitDiscard => exact .next h (.commitDiscard hs)
  | scrubEnd => exact .next h (.scrubEnd hs)
  | commitUnresolved => exact .next h (.commitUnresolved hs)
  | planeRootsDone => exact .next h (.planeRootsDone hs)
  | patrolScrub => exact .execPatrolScrub hs h
  | refresh | periodicRetrain => exact .next h (.sameBanks hs)
  | hdmRead => exact .next h (.hdmRead hs)
  | hdmWrite => exact .next h (.hdmWrite hs)
  | cxlSnoop => exact .next h (.ite (.emit hs) hs)
  | secresWrite => exact .next h (.hostWrite hs (.secresSet hs))
  | frameReceive => exact .execFrameReceive hs h
  | frameSend => exact .execFrameSend hs h
  | aliveSend => exact .execAliveSend hs h
  | aliveReceive => exact .execAliveReceive hs h
  | aliveTimeout => exact .next h (.ite (.linkDown hs) hs)
  | linkTargetOff => exact .next h (.hostWrite hs (.writeTarget hs fun _ h => .targetOff h))
  | linkTargetHold => exact .next h (.hostWrite hs (.writeTarget hs fun _ h => .targetHold h))
  | linkTargetRun => exact .next h (.hostWrite hs (.writeTarget hs fun _ h => .targetRun h))
  | linkResolve => exact .next h (.hostWrite hs (.resolveLink hs))
  | linkPartnerDetect => exact .next h (.ite (.updLink hs) hs)
  | linkTrainDone => exact .next h (.ite (.setLink hs) (.ite (.ite (.checkAligned (.enterHold hs)) hs) (.holdStep hs)))
  | linkStepTimeout => exact .execLinkStepTimeout hs h
  | linkBerWindow => exact .execLinkBerWindow hs h
  | exitArbitration => exact .next h (.settleRestores (.arbitrate hs))
  | reservationExpire => exact .next h (.endRsv hs)
  | deliveryWrite => exact .next h (.deliveryWrite hs)
  | tableStaged => exact .next h (.tableStaged hs)
  | epochMissed => exact .next h (.epochMissed hs)
  | routeEpochSwitch => exact .next h (.ite (.settleRestores (.routeSwitch hs)) hs)
  | epochDrain => exact .next h (.epochDrain hs)
  | gaugeSync => exact .next h (.ite (.updGau hs) hs)
  | gaugeJoin => exact .next h (.hostWrite hs (.joinFrom hs))
  | gaugeSteer => exact .execGaugeSteer hs h
  | gaugeRefLost => exact .execGaugeRefLost hs h
  | gaugeRefReturn => exact .next h (.ite (.checkAligned (.updGau hs)) hs)
  | holdoverExpire => exact .next h (.checkAligned hs)
  | collBaseFire => exact .next h (.collBaseFire hs)
  | slotOpen => exact .next h (.slotOpen hs)
  | slotMark => exact .next h (.slotMark hs)
  | recvJudge => exact .next h (.recvJudge hs)
  | collEnd => exact .next h (.collEnd hs)
  | doorbell => exact .next h (.doorbell hs)
  | descriptorFetch => exact .next h (.descriptorFetch hs)
  | nop => exact .next h (.startDesc hs fun _ _ h => .endDesc h)
  | product | pass => exact .next h (.startDesc_withArgs hs fun _ _ _ h => .ite (.endDesc h) (.setDesc h))
  | move => exact .next h (.startDesc_withArgs hs fun _ _ _ h => .ite (.setDesc h) (.endDesc h))
  | coll => exact .next h (.startDesc_withArgs hs fun _ _ _ h => .collStart h)
  | update => exact .next h (.startDesc_withArgs hs fun _ _ _ h => .updateStart hs h)
  | commit => exact .next h (.startDesc_withArgs hs fun _ _ _ h => .commitStart h)
  | snapshotPlan | snapshotFull | snapshotDelta => exact .next h (.startDesc_withArgs hs fun _ _ _ h => .snapRun hs h)
  | inventory => exact .next h (.startDesc_withArgs hs fun _ _ _ h => .restoreRun hs h fun _ _ _ _ h => .inventoryRun h)
  | applyRemote => exact .next h (.startDesc_withArgs hs fun _ _ _ h => .restoreRun hs h fun _ _ _ _ h => .applyRemoteRun h)
  | applyLocal => exact .next h (.startDesc_withArgs hs fun _ _ _ h => .restoreRun hs h fun _ _ _ _ h => .applyLocalRun h)
  | abortDesc => exact .next h (.startDesc hs fun _ _ h => .abortRun h)
  | mapDesc => exact .execMapDesc hs h
  | unmap => exact .execUnmap hs h
  | unmapComplete => exact .next h (.unmapComplete hs)
  | ladderPolicy => exact .next h (.startDesc_withArgs hs fun _ _ _ h => .ladderPolicy hs h)
  | routeEpoch => exact .next h (.startDesc_withArgs hs fun _ _ _ h => .routeEpoch h)
  | jobSetup => exact .next h (.startDesc_withArgs hs fun _ _ _ h => .jobSetup h)
  | partPlace => exact .next h (.partPlace hs)
  | partEnd => exact .next h (.partEnd hs)
  | msixWindowEnd => exact .next h (.msixWindowEnd hs)
  | ctxOpen => exact .next h (.hostWrite hs (.openCtx hs))
  | ctxClose => exact .next h (.hostWrite hs (.ctxClose hs))
  | ctxFree => exact .next h (.hostWrite hs (.ctxFree hs))
  | ctxDrainMark => exact .next h (.ctxDrainMark hs)
  | ctxQuiesce => exact .next h (.ctxQuiesce hs)
  | queueEnable => exact .next h (.hostWrite hs (.queueEnable hs))
  | queueDisable => exact .next h (.hostWrite hs (.queueDisable hs))
  | cxlLinkDown | perstAssert | perstDeassert => exact .next h (.mk hs)
  | cxlLinkUp => exact .next h (.cxlLinkUp hs)
  | snapshotStart => exact .next h (.snapshotStart hs)
  | snapshotEndMark => exact .next h (.snapshotEndMark hs)
  | riskCompute => exact .next h (.riskCompute hs)
  | hangSlot => exact .next h (.hangSlot hs)
  | hangQueue => exact .next h (.hangQueue hs)
  | hangEngine => exact .next h (.hangEngine hs)
  | replayEnd => exact .next h (.replayEnd hs)
  | unitHang => exact .next h (.unitHang hs)
  | msgStale => exact .next h (.msgStale hs)
  | rstreqDump => exact .next h (.hostWrite hs (.reqDump hs))
  | rstreqContext => exact .next h (.hostWrite hs (.reqContext hs))
  | rstreqEngine => exact .next h (.hostWrite hs (.reqEngine hs))
  | rstreqPanel => exact .next h (.hostWrite hs (.reqPanel hs))
  | rstreqChip => exact .next h (.hostWrite hs (.reqChip hs))
  | rstreqPowerCycle => exact .next h (.hostWrite hs (.reqPower hs))
  | panelRung => exact .next h (.panelRung hs)
  | chipRung => exact .next h (.chipRung hs)
  | powerCycleRung => exact .next h (.powerCycleRung hs)
  | rungTimeout => exact .next h (.rungTimeout hs)
  | eventRingScan => exact .next h (.ite (.scanRings hs) hs)
  | logFlush => exact .next h (.ite (.evFlush hs) hs)
  | logackWrite => exact .next h (.hostWrite hs (.logAck hs))
  | evqackWrite => exact .next h (.hostWrite hs (.evqAck hs))
  | evqEnable => exact .next h (.hostWrite hs (.evqCfg hs))
  | i3cSend => exact .next h (.i3cSend hs)
  | mctpHeartbeat => exact .next h (.mctpHeartbeat hs)
  | sagStageEnter => exact .next h (.sagStageEnter hs)
  | sagStageExit => exact .next h (.sagStageExit hs)
  | overvoltage => exact .next h (.ite (.dropGood (.setVin hs)) (.setVin hs))
  | peakCap => exact .next h (.peakCap hs)
  | peakCapLift => exact .next h (.peakCapLift hs)
  | excursionCap => exact .next h (.excursionCap hs)
  | excursionLift => exact .next h (.excursionLift hs)
  | powerLimitStep => exact .next h (.ite (.limitStep hs) hs)
  | railFault | pwrGoodDrop => exact .next h (.dropGood hs)
  | powerRestart => exact .next h (.powerRestart hs)
  | thermalSample => exact .next h (.thermalSample hs)
  | thermalStageExit => exact .next h (.thermalStageExit hs)
  | hardwareTrip => exact .next h (.hardwareTrip hs)
  | drillArm => exact .next h (.hostWrite hs (.drillCtl hs))
  | drillStart => exact .next h (.drillStart hs)
  | drillEnd => exact .next h (.drillEnd hs)
  | plinthBoot => exact .next h (.plinthBoot hs)
  | configLock => exact .next h (.configLock hs)
  | status => exact .next h (.mailbox hs (.mailStatus hs))
  | configLoad => exact .next h (.mailbox hs (.configLoad hs))
  | fwWrite => exact .next h (.mailbox hs (.fwWrite hs))
  | fwActivate => exact .next h (.mailbox hs (.fwActivate hs))
  | fwConfirm => exact .next h (.mailbox hs (.fwConfirm hs))
  | ownerFuse => exact .next h (.mailbox hs (.ownerFuse hs))
  | debugToken => exact .next h (.mailbox hs (.debugToken hs))
  | reboot => exact .next h (.mailbox hs (.mailReboot hs))
  | getDigests => exact .execGetDigests hs h
  | getCertificate => exact .next h (.spdm hs (.getCertificate hs))
  | challenge => exact .next h (.spdm hs (.challenge hs))
  | getMeasurements => exact .next h (.spdm hs (.getMeasurements hs))
  | keyExchange => exact .next h (.spdm hs (.keyExchange hs))
  | finish => exact .next h (.spdm hs (.finishSession hs))
  | keyUpdate => exact .next h (.spdm hs (.inSession hs fun _ _ h => .keyUpdate h))
  | heartbeat => exact .next h (.spdm hs (.inSession hs fun _ _ h => .spdmOk h))
  | endSession => exact .next h (.spdm hs (.inSession hs fun _ _ h => .spdmOk (.dropSession h)))
  | ideKmKeyProg => exact .next h (.spdm hs (.inSession hs fun _ _ h => .keyProg h))
  | kSetGo => exact .next h (.spdm hs (.inSession hs fun _ _ h => .setGo h))
  | ideIntegrityFail => exact .next h (.integrityFail hs)
  | flashWpAssert => exact .next h (.flashWpAssert hs)
  | coreFenceWrite => exact .next h (.hostWrite hs (.coreFence hs))
  | bar0AccessRefused => exact .next h (.bar0Refused hs)
  | registerWrite => exact .next h (.hostWrite hs (.registerWrite hs))
  | gaugeTick => exact .next h (.tickAll (.gaugeEdge hs))
  | restoreStartMark => exact .next h (.restoreStartMark hs)

/-- Settles O2: whatever command stands in front, it keeps the canonical form (`canonical_exec`). -/
theorem memoriesStayCanonical : Obligations.MemoriesStayCanonical := by
  unfold Obligations.MemoriesStayCanonical
  intro s t hs h
  unfold step at h
  split at h
  · exact Canonical.next h hs
  · exact canonical_exec (.mk hs) h

end Sys2Proof.Machine

end

section

/-! SUPPORT. The commands that branch before they answer, and obligation O5. -/

namespace Sys2Proof.Machine

open Sys2Proof

/-- The scrub of an address that names no memory stops the machine (R285, R294). -/
theorem execPatrolScrub_of_not_paOk {pa : Nat} (u : Upset) (s : State) (hpa : paOk pa = false) :
    execPatrolScrub pa u s = .fault (.noMemory pa) := by
  simp [execPatrolScrub, hpa]

theorem execPatrolScrub_of_paOk {pa : Nat} (u : Upset) (s : State) (hpa : paOk pa = true) :
    execPatrolScrub pa u s = .next (patrolScrub pa u s) := by
  simp [execPatrolScrub, hpa]

section AnswersNext

/-! The commands that answer a next state in each branch of their own. -/

variable (s : State)

theorem execGaugeSteer_next : ∃ t, execGaugeSteer s = .next t := by
  unfold execGaugeSteer
  dsimp only
  split <;> exact ⟨_, rfl⟩

theorem execGaugeRefLost_next : ∃ t, execGaugeRefLost s = .next t := by
  unfold execGaugeRefLost
  split <;> exact ⟨_, rfl⟩

theorem execLinkStepTimeout_next (l : Link) : ∃ t, execLinkStepTimeout l s = .next t := by
  unfold execLinkStepTimeout
  dsimp only
  split
  · split <;> exact ⟨_, rfl⟩
  · exact ⟨_, rfl⟩

theorem execLinkBerWindow_next (l : Link) : ∃ t, execLinkBerWindow l s = .next t := by
  unfold execLinkBerWindow
  dsimp only
  split <;> exact ⟨_, rfl⟩

theorem execAliveSend_next (l : Link) : ∃ t, execAliveSend l s = .next t := by
  unfold execAliveSend
  dsimp only
  split <;> exact ⟨_, rfl⟩

theorem execAliveReceive_next (l : Link) (a : AliveSeq) (rx : BitVec 36) : ∃ t, execAliveReceive l a rx s = .next t := by
  unfold execAliveReceive
  dsimp only
  split
  · split <;> exact ⟨_, rfl⟩
  · exact ⟨_, rfl⟩

theorem execFrameSend_next (l : Link) : ∃ t, execFrameSend l s = .next t := by
  unfold execFrameSend
  split <;> exact ⟨_, rfl⟩

theorem execFrameReceive_next (l : Link) (cw : Codeword) : ∃ t, execFrameReceive l cw s = .next t := by
  unfold execFrameReceive
  dsimp only
  split
  · split <;> exact ⟨_, rfl⟩
  · exact ⟨_, rfl⟩

end AnswersNext

/-- Of the commands only the scrub asks for anything: that its address names memory. -/
theorem exec_next_of_paOk (c : Instr) (s : State) (hc : ∀ pa u, c = .patrolScrub pa u → paOk pa = true) : ∃ t, exec c s = .next t := by
  cases c with
  | patrolScrub pa u => exact ⟨_, execPatrolScrub_of_paOk u s (hc pa u rfl)⟩
  | gaugeSteer => exact execGaugeSteer_next s
  | gaugeRefLost => exact execGaugeRefLost_next s
  | linkStepTimeout l => exact execLinkStepTimeout_next s l
  | linkBerWindow l => exact execLinkBerWindow_next s l
  | aliveSend l => exact execAliveSend_next s l
  | aliveReceive l a rx => exact execAliveReceive_next s l a rx
  | frameSend l => exact execFrameSend_next s l
  | frameReceive l cw => exact execFrameReceive_next s l cw
  | _ => exact ⟨_, rfl⟩

/-- Settles O5: every command but the scrub answers a next state (`exec_next_of_paOk`); the scrub of no memory stops. -/
theorem onlyPatrolScrubCanStop : Obligations.OnlyPatrolScrubCanStop := by
  unfold Obligations.OnlyPatrolScrubCanStop
  exact ⟨exec_next_of_paOk, fun _ u s hpa => execPatrolScrub_of_not_paOk u s hpa⟩

end Sys2Proof.Machine

end

section

/-! SUPPORT. Scrub, refresh, the secure reserve and snoops, and obligation O36. -/

namespace Sys2Proof.Machine

open Sys2Proof

theorem hostWrite_of_down {s : State} (hu : hostUp s = false) (g : State → State) : hostWrite s g = s := by
  simp [hostWrite, hu]

/-! ### The patrol scrub -/

theorem memError_oneBit (pa : Nat) (s : State) : memError pa .oneBit s = countCorr s (paPanel pa) := rfl
theorem memError_onDie (pa : Nat) (s : State) : memError pa .onDie s = countCorr s (paPanel pa) := rfl
theorem memError_many (pa : Nat) (s : State) : memError pa .many s = memUe s (pa / 64 * 64) [pa / 64 * 64] := rfl
theorem memError_checkUnit (pa : Nat) (s : State) : memError pa .checkUnit s = memUe s (pa / 64 * 64) (groupUnits pa) := rfl

theorem countCorr_eq (s : State) (p : Panel) : countCorr s p =
    { s with mem := { s.mem with eccCorr := tabSet 0 s.mem.eccCorr p.val (min (tabGet 0 s.mem.eccCorr p.val + 1) (2 ^ 64 - 1)) } } := rfl

theorem memUe_eq (s : State) (pa : Nat) (l : List Nat) : memUe s pa l =
    raiseEv { s with mem := { s.mem with
        gddr := l.foldl (fun b a => setPoison b a 64) s.mem.gddr
        eccUncorr := tabSet 0 s.mem.eccUncorr (paPanel pa).val (min (tabGet 0 s.mem.eccUncorr (paPanel pa).val + 1) (2 ^ 64 - 1)) } }
      evMemUe (srcMem (paPanel pa)) [pa] := rfl

section Scrub

variable {s : State} {pa : Nat}

theorem exec_patrolScrub {u : Upset} (hpa : paOk pa = true) : exec (.patrolScrub pa u) s = .next (patrolScrub pa u s) :=
  execPatrolScrub_of_paOk u s hpa

theorem patrolScrub_of_ready (u : Upset) (hreset : (s.memCtl (paPanel pa)).inReset = false)
    (hself : (s.memCtl (paPanel pa)).selfRefresh = false) :
    patrolScrub pa u s = memError pa u { s with mem := { s.mem with scrubbed := s.mem.scrubbed + 1 } } := by
  simp [patrolScrub, hreset, hself]

theorem patrolScrub_of_away (u : Upset)
    (h : (s.memCtl (paPanel pa)).inReset = true ∨ (s.memCtl (paPanel pa)).selfRefresh = true) : patrolScrub pa u s = s := by
  unfold patrolScrub
  rw [if_pos (by simpa using h)]

end Scrub

/-! ### The secure reserve -/

theorem exec_secresWrite (v : W64) (s : State) : exec (.secresWrite v) s = .next (hostWrite s (secresSet v)) := rfl

theorem anyContext_iff (s : State) : anyContext s = true ↔ ∃ e ∈ s.qmg.ctxs, e.2.phase ≠ .free := by
  simp [anyContext]

theorem secresSet_of_all_free {s : State} (v : W64) (h : ∀ e ∈ s.qmg.ctxs, e.2.phase = .free) :
    secresSet v s = { s with mem := { s.mem with secres := min (v.toNat % 32) 16 } } := by
  have hno : ¬ anyContext s = true := by
    rw [anyContext_iff]
    rintro ⟨e, he, hphase⟩
    exact hphase (h e he)
  rw [secresSet, if_neg hno]

theorem secresSet_of_not_free {s : State} (v : W64) (h : ∃ e ∈ s.qmg.ctxs, e.2.phase ≠ .free) :
    secresSet v s = { s with mem := { s.mem with secresIgn := min (s.mem.secresIgn + 1) (2 ^ 64 - 1) } } := by
  rw [secresSet, if_pos ((anyContext_iff s).2 h)]
  rfl

/-! ### Refresh, retraining, snoops -/

theorem exec_refresh (d : Fin 24) (c : Fin 4) (s : State) :
    exec (.refresh d c) s = .next { s with mem := { s.mem with refreshed := s.mem.refreshed + 1 } } := rfl

theorem exec_periodicRetrain (d : Fin 24) (c : Fin 4) (s : State) :
    exec (.periodicRetrain d c) s = .next { s with mem := { s.mem with retrained := s.mem.retrained + 1 } } := rfl


theorem exec_cxlSnoop (a : W64) (s : State) :
    exec (.cxlSnoop a) s = .next (if s.qmg.cxlUp then s.emit (.snoopMiss a) else s) := rfl

/-- Settles O36: the scrub by `patrolScrub_of_ready` and the upset's kind, the reserve by the gates of a host write. -/
theorem memoryMaintenance : Obligations.MemoryMaintenance := by
  unfold Obligations.MemoryMaintenance
  intro s n
  refine ⟨fun pa hpa hreset hself => ?_, fun pa u hpa haway => ?_, fun v => ⟨fun hdown => ?_, fun hup hlock => ?_⟩,
    fun a hdown => ?_, fun d c => ⟨exec_refresh d c s, exec_periodicRetrain d c s⟩, fun v hup hlock => ⟨fun hfree => ?_, fun hbusy => ?_⟩, fun a hup => ?_⟩
  · have scrub (u : Upset) : exec (.patrolScrub pa u) s = .next (memError pa u { s with mem := { s.mem with scrubbed := n } }) := by
      rw [exec_patrolScrub hpa, patrolScrub_of_ready u hreset hself]
    refine ⟨scrub .none, ?_, ?_, ?_⟩
    · rintro u (rfl | rfl)
      · rw [scrub, memError_oneBit, countCorr_eq]
      · rw [scrub, memError_onDie, countCorr_eq]
    · rw [scrub, memError_many, memUe_eq]
    · rw [scrub, memError_checkUnit, memUe_eq]
  · rw [exec_patrolScrub hpa, patrolScrub_of_away u haway]
  · rw [exec_secresWrite, hostWrite_of_down hdown]
  · rw [exec_secresWrite, hostWrite_of_unlocked hup hlock]
  · simp [exec_cxlSnoop, hdown]
  · rw [exec_secresWrite, hostWrite_of_locked hup hlock, secresSet_of_all_free v hfree]
  · rw [exec_secresWrite, hostWrite_of_locked hup hlock, secresSet_of_not_free v hbusy]
  · simp [exec_cxlSnoop, hup]

end Sys2Proof.Machine

end

section

/-! SUPPORT. What a tick counts and steers, and obligation O29. -/

namespace Sys2Proof.Machine

open Sys2Proof

/-! ### What a tick adds to the counts -/

/-- The power state after a tick's count for LIMIT_US (R468). -/
def tickPower (s : State) : PwrState :=
  if s.pwr.peakCap || s.pwr.excursionCap || s.pwr.limitOp != [] then { s.pwr with limitTicks := s.pwr.limitTicks + 1 } else s.pwr

theorem countLimited_eq (s : State) : countLimited s = { s with pwr := tickPower s } := by
  unfold countLimited tickPower limited
  split <;> rfl

/-- The gauge after a tick that loads nothing (R351, R354): the count goes on by 1, or by 2 or 0 at a steering step. -/
def countStep (g : GauState) : GauState :=
  match g.step with
  | none => { g with count := g.count + 1 }
  | some true => { g with count := g.count + 2, step := none, steerUp := g.steerUp + 1 }
  | some false => { g with step := none, steerDown := g.steerDown + 1 }

theorem gaugeEdge_of_load {s : State} (hpulse : s.gau.syncPulse = true) (href : s.gau.refOk = true) :
    gaugeEdge s = checkAligned { s with pwr := tickPower s, gau := { s.gau with
      edges := s.gau.edges + 1, count := s.gau.syncv, valid := true, syncArm := false, syncPulse := false, step := none } } := by
  simp [gaugeEdge, countLimited_eq, updGau, hpulse, href]

theorem gaugeEdge_of_count {s : State} (h : (s.gau.syncPulse && s.gau.refOk) = false) :
    gaugeEdge s = { s with pwr := tickPower s, gau := countStep { s.gau with edges := s.gau.edges + 1 } } := by
  cases hstep : s.gau.step with
  | none => simp [gaugeEdge, countStep, countLimited_eq, updGau, h, hstep]
  | some up => cases up <;> simp [gaugeEdge, countStep, countLimited_eq, updGau, h, hstep]

/-- A tick that loads nothing never takes the count back, short of its wrap. -/
theorem countStep_grows {g : GauState} (h : g.count.toNat + 2 < 2 ^ 64) :
    g.count.toNat ≤ (countStep g).count.toNat ∧ (countStep g).count.toNat ≤ g.count.toNat + 2 := by
  unfold countStep
  split
  · simp; omega
  · simp; omega
  · simp

theorem countStep_of_none {g : GauState} (h : g.step = none) : countStep g = { g with count := g.count + 1 } := by
  simp [countStep, h]

theorem countStep_of_up {g : GauState} (h : g.step = some true) :
    countStep g = { g with count := g.count + 2, step := none, steerUp := g.steerUp + 1 } := by
  simp [countStep, h]

theorem countStep_of_down {g : GauState} (h : g.step = some false) :
    countStep g = { g with step := none, steerDown := g.steerDown + 1 } := by
  simp [countStep, h]

/-- A tick that loads nothing changes the count, the steering step and its two counts. -/
theorem countStep_frame (g : GauState) :
    countStep g = { g with count := (countStep g).count, step := none, steerUp := (countStep g).steerUp
                           steerDown := (countStep g).steerDown } := by
  obtain h | h | h : g.step = none ∨ g.step = some true ∨ g.step = some false := by
    cases g.step with
    | none => exact .inl rfl
    | some b => cases b <;> simp
  · rw [countStep_of_none h, ← h]
  · rw [countStep_of_up h]
  · rw [countStep_of_down h]

/-! ### What a tick does beside the count -/

theorem exec_gaugeTick (s : State) : exec .gaugeTick s = .next (tickAll (gaugeEdge s)) := rfl

theorem exec_gaugeSync (s : State) : exec .gaugeSync s =
    .next (if s.gau.syncArm && s.gau.refOk then { s with gau := { s.gau with syncPulse := true } } else s) := rfl

theorem tickAll_of_no_write {s : State} (h : s.sec.flashJob = none) : tickAll s = mishapTick s := by
  simp [tickAll, flashTick, h]

theorem mishapTick_of_quiet {s : State} (h : Config.mishap s.gau.edges = none ∨ s.pwr.pwrGood = false) : mishapTick s = s := by
  obtain h | h := h <;> simp [mishapTick, h]

theorem mishapTick_of_mishap {s : State} {m : Mishap} (h : Config.mishap s.gau.edges = some m) (hpower : s.pwr.pwrGood = true) :
    mishapTick s = befall m s := by
  simp [mishapTick, h, hpower]

/-- Settles O29: `gaugeEdge` by its two cases, load and count, the latter by the three steering steps. -/
theorem gaugeCountsEdges : Obligations.GaugeCountsEdges := by
  unfold Obligations.GaugeCountsEdges
  intro s g p
  refine ⟨fun hpulse href => ?_, fun hno => ⟨fun h => ?_, fun h => ?_, fun h => ?_⟩, fun hflash => ⟨fun h => ?_, fun m h hpower => ?_⟩,
    exec_gaugeSync s, fun hno hwrap => ?_⟩
  · rw [exec_gaugeTick, gaugeEdge_of_load hpulse href]
    rfl
  · rw [exec_gaugeTick, gaugeEdge_of_count hno, countStep_of_none (g := g) h]
    rfl
  · rw [exec_gaugeTick, gaugeEdge_of_count hno, countStep_of_up (g := g) h]
    rfl
  · rw [exec_gaugeTick, gaugeEdge_of_count hno, countStep_of_down (g := g) h]
    rfl
  · rw [tickAll_of_no_write hflash, mishapTick_of_quiet h]
  · rw [tickAll_of_no_write hflash, mishapTick_of_mishap h hpower]
  · have hgrows := countStep_grows (g := g) hwrap
    refine ⟨{ s with pwr := p, gau := countStep g }, ?_, ?_, hgrows⟩
    · rw [exec_gaugeTick, gaugeEdge_of_count hno]
      rfl
    · exact congrArg (fun x => { s with pwr := p, gau := x }) (countStep_frame g)

end Sys2Proof.Machine

end

section

/-! SUPPORT. What a restart brings back, the input pins, and obligation O26. -/

namespace Sys2Proof.Machine

open Sys2Proof

/-! ### The supply's stages and the input voltage -/

theorem sagState_setSag_same (s : State) (k : Nat) (x : StageState) : (setSag s k x).sagState k = x := tabGet_tabSet_same ..

theorem sagState_setSag_ne {k j : Nat} (h : k ≠ j) (s : State) (x : StageState) : (setSag s j x).sagState k = s.sagState k :=
  tabGet_tabSet_ne _ _ _ h

/-- The input's new voltage, noted. -/
def inputNoted (v : Nat) (s : State) : State :=
  noteSample (updPwr s fun p => { p with vin := v, vinGoodSince := if vinGood v then some (p.vinGoodSince.getD s.now) else none })

/-- Since when the input has stood high enough to leave a stage in force. -/
def timeStage (now v : Nat) (s : State) (k : Nat) : State :=
  if (s.sagState k).inForce then
    setSag s k { s.sagState k with goodSince := if decide (sagExit k ≤ v) then some ((s.sagState k).goodSince.getD now) else none }
  else s

theorem setVin_eq (s : State) (v : Nat) : setVin s v = (rangeFrom 1 5).foldl (timeStage s.now v) (inputNoted v s) := rfl

theorem inForce_timeStage (now v : Nat) (s : State) (j k : Nat) :
    ((timeStage now v s j).sagState k).inForce = (s.sagState k).inForce := by
  unfold timeStage
  split
  · by_cases hk : k = j
    · rw [hk, sagState_setSag_same]
    · rw [sagState_setSag_ne hk]
  · rfl

/-- A new input voltage keeps which stages are in force. -/
theorem inForce_setVin (s : State) (v k : Nat) : ((setVin s v).sagState k).inForce = (s.sagState k).inForce := by
  rw [setVin_eq]
  exact List.foldlRecOn (motive := fun u : State => (u.sagState k).inForce = (s.sagState k).inForce) _ _ rfl
    fun u hu j _ => (inForce_timeStage _ v u j k).trans hu

/-- The power state at a new input voltage, but for the samples and the times of its stages. -/
def vinSet (s : State) (v : Nat) (samples : List SagSample) (sag : Tab StageState) : PwrState :=
  { s.pwr with
    vin := v, vinGoodSince := if vinGood v then some (s.pwr.vinGoodSince.getD s.now) else none, samples := samples, sag := sag }

theorem setVin_frame (s : State) (v : Nat) : ∃ samples sag, setVin s v = { s with pwr := vinSet s v samples sag } := by
  rw [setVin_eq]
  refine List.foldlRecOn (motive := fun u : State => ∃ samples sag, u = { s with pwr := vinSet s v samples sag })
    _ _ ⟨_, _, rfl⟩ fun u hu j _ => ?_
  obtain ⟨samples, sag, hu⟩ := hu
  unfold timeStage
  split
  · rw [hu]
    exact ⟨_, _, rfl⟩
  · exact ⟨samples, sag, hu⟩

/-- One stage's entry. -/
def enterStage (v : Nat) (s : State) (k : Nat) : State :=
  if v < sagEntry k ∧ (s.sagState k).inForce = false then countSag (setSag s k { inForce := true }) k else s

theorem enterSag_eq (v : Nat) (s : State) : enterSag v s = (rangeFrom 1 5).foldl (enterStage v) s := rfl

theorem sagState_countSag (s : State) (j k : Nat) : (countSag s j).sagState k = s.sagState k := rfl

theorem inForce_enterStage (v : Nat) (s : State) (j k : Nat) :
    ((enterStage v s j).sagState k).inForce = ((s.sagState k).inForce || (k == j && decide (v < sagEntry k))) := by
  unfold enterStage
  by_cases hk : k = j
  · subst hk
    split
    · next h => simp [sagState_countSag, sagState_setSag_same, h.1]
    · next h =>
      cases hforce : (s.sagState k).inForce with
      | true => rfl
      | false => simp [show ¬ v < sagEntry k from fun hv => h ⟨hv, hforce⟩]
  · have hsame : ((if v < sagEntry j ∧ (s.sagState j).inForce = false then countSag (setSag s j { inForce := true }) j else s).sagState k) =
        s.sagState k := by
      split
      · rw [sagState_countSag, sagState_setSag_ne hk]
      · rfl
    rw [hsame]
    simp [hk]

theorem inForce_foldl_enterStage (v k : Nat) (l : List Nat) : ∀ s : State,
    ((l.foldl (enterStage v) s).sagState k).inForce = ((s.sagState k).inForce || (l.contains k && decide (v < sagEntry k))) := by
  induction l with
  | nil => exact fun s => by simp
  | cons j t ih =>
    intro s
    rw [List.foldl_cons, ih, inForce_enterStage, List.contains_cons, Bool.and_or_distrib_right, Bool.or_assoc]

theorem inForce_enterSag (v : Nat) (s : State) {k : Nat} (h1 : 1 ≤ k) (h5 : k ≤ 5) :
    ((enterSag v s).sagState k).inForce = ((s.sagState k).inForce || decide (v < sagEntry k)) := by
  have hk : (rangeFrom 1 5).contains k = true := by
    interval_cases k <;> rfl
  rw [enterSag_eq, inForce_foldl_enterStage, hk, Bool.true_and]

theorem enterSag_frame (v : Nat) (s : State) :
    ∃ sag cnt, enterSag v s = { s with pwr := { s.pwr with sag := sag, sagCnt := cnt } } := by
  rw [enterSag_eq]
  refine List.foldlRecOn (motive := fun u : State => ∃ sag cnt, u = { s with pwr := { s.pwr with sag := sag, sagCnt := cnt } })
    _ _ ⟨_, _, rfl⟩ fun u hu j _ => ?_
  obtain ⟨sag, cnt, hu⟩ := hu
  unfold enterStage
  split
  · rw [hu]
    exact ⟨_, _, rfl⟩
  · exact ⟨sag, cnt, hu⟩

/-! ### One change of every panel -/

/-- Where each step changes one panel by its number and its old state, a run over distinct panels changes each of them so, and
nothing else. -/
theorem foldl_panels {g : State → Panel → State} {f : Panel → PanelState → PanelState} {s : State}
    (hg : ∀ u, u = { s with panels := u.panels } → ∀ p, g u p = u.setPanel p (f p (u.panel p))) {l : List Panel} (hl : l.Nodup) :
    l.foldl g s = { s with panels := (l.foldl g s).panels } ∧
      ∀ q, (l.foldl g s).panel q = if q ∈ l then f q (s.panel q) else s.panel q := by
  have hrun : ∀ (l : List Panel), l.Nodup → ∀ u, u = { s with panels := u.panels } →
      l.foldl g u = { s with panels := (l.foldl g u).panels } ∧
        ∀ q, (l.foldl g u).panel q = if q ∈ l then f q (u.panel q) else u.panel q := by
    intro l hl
    induction hl with
    | nil => exact fun u hu => ⟨hu, fun q => by simp⟩
    | @cons p t hp _ ih =>
      intro u hu
      have hp : p ∉ t := fun hmem => hp p hmem rfl
      have hstep : u.setPanel p (f p (u.panel p)) =
          { s with panels := (u.setPanel p (f p (u.panel p))).panels } := by
        rw [hu]
        rfl
      obtain ⟨hframe, hpanel⟩ := ih _ hstep
      rw [List.foldl_cons, hg u hu p]
      refine ⟨hframe, fun q => ?_⟩
      rw [hpanel]
      by_cases hq : q = p
      · subst hq
        simp [hp]
      · simp [hq, State.setPanel_panel_ne _ _ hq]
  exact hrun l hl s rfl

theorem nodup_panels : ([0, 1, 2, 3] : List Panel).Nodup := by decide

/-- A panel as it comes back with the power at a tick. -/
def wokenPanel (now : Nat) (x : PanelState) : PanelState := { x with wdog := now, resetAt := now, cycAt := now, cycBase := 0 }

/-- The panels come back with the power. -/
def wakePanels (s : State) : State :=
  ([0, 1, 2, 3] : List Panel).foldl
    (fun s p => s.setPanel p { s.panel p with wdog := s.now, resetAt := s.now, cycAt := s.now, cycBase := 0 }) s

theorem wakePanels_spec (s : State) :
    wakePanels s = { s with panels := (wakePanels s).panels } ∧ ∀ q, (wakePanels s).panel q = wokenPanel s.now (s.panel q) := by
  obtain ⟨hframe, hpanel⟩ := foldl_panels
    (g := fun s p => s.setPanel p { s.panel p with wdog := s.now, resetAt := s.now, cycAt := s.now, cycBase := 0 })
    (f := fun _ x => wokenPanel s.now x) (s := s) (fun u hu p => by rw [show u.now = s.now by rw [hu]; rfl]; rfl) nodup_panels
  exact ⟨hframe, fun q => by rw [wakePanels, hpanel, if_pos (mem_panels q)]⟩

/-- A panel that runs at once at given points. -/
def snappedPanel (s : State) (w : Fin 5 × Fin 5) (x : PanelState) : PanelState :=
  { countCycles s x with coreOp := w.1, matrixOp := w.2, stall := none, held := none }

theorem snapPoints_eq {s u : State} (hu : u = { s with panels := u.panels }) (p : Panel) :
    snapPoints u p = u.setPanel p (snappedPanel s (pointsOf s p) (u.panel p)) := by
  have hpoints : pointsOf u p = pointsOf s p := pointsOf_congr (b := s.pwr.stage5) (by rw [hu]) p
  have hnow : u.now = s.now := by rw [hu]; rfl
  simp [snapPoints, snappedPanel, countCycles, hpoints, hnow]

theorem snapAll_spec (s : State) :
    snapAll s = { s with panels := (snapAll s).panels } ∧ ∀ q, (snapAll s).panel q = snappedPanel s (pointsOf s q) (s.panel q) := by
  obtain ⟨hframe, hpanel⟩ := foldl_panels (g := snapPoints) (f := fun p x => snappedPanel s (pointsOf s p) x) (s := s)
    (fun u hu p => snapPoints_eq hu p) nodup_panels
  exact ⟨hframe, fun q => by rw [snapAll, hpanel, if_pos (mem_panels q)]⟩

/-! ### The restart -/

theorem exec_powerRestart (v : Nat) (s : State) : exec (.powerRestart v) s = .next (powerRestart v s) := rfl

theorem powerRestart_of_powered {s : State} (v : Nat) (h : s.pwr.pwrGood = true) : powerRestart v s = s := by
  simp [powerRestart, h]

/-- The module with its supply back: the power is good and the memory channels are trained. -/
def supplied (s : State) : State := trainChannels (updPwr s fun p => { p with pwrGood := true, powerOffAt := none })

/-- A restart before its clocks are set: the supply is back, the panels are awake, the stages that the input is below are in force. -/
def restarting (s : State) (v : Nat) : State := enterSag v (wakePanels (supplied (setVin s v)))

/-- What a restart brings: the supply, the panels, the stages that the input is below, the clocks. -/
theorem powerRestart_of_due {s : State} {v since off : Nat} (hoff : s.pwr.pwrGood = false)
    (hsince : (setVin s v).pwr.vinGoodSince = some since) (hat : (setVin s v).pwr.powerOffAt = some off)
    (hdue : elapsed (setVin s v) (max since off) (msTicks 10) = true) :
    powerRestart v s = snapAll (restarting s v) := by
  unfold powerRestart
  simp only [hoff, Bool.false_eq_true, if_false, hsince, hat, hdue, if_true]
  rfl

/-- The input stands within 48.0 V to 56.0 V (R452). -/
theorem vinGood_of_range {v : Nat} (h1 : 12288 ≤ v) (h2 : v ≤ 14336) : vinGood v = true :=
  decide_eq_true ⟨h1, h2⟩

theorem sagEntry_table (k : Nat) (h1 : 1 ≤ k) (h5 : k ≤ 5) : sagEntry k = [0, 13056, 12672, 12288, 11904, 11520].getD k 0 := by
  interval_cases k <;> rfl

/-- A restart of a module whose supply and input have stood so for 10 ms. -/
theorem powerRestart_restarts {s : State} {v since off : Nat} (hoff : s.pwr.pwrGood = false) (h1 : 12288 ≤ v) (h2 : v ≤ 14336)
    (hsince : s.pwr.vinGoodSince = some since) (hat : s.pwr.powerOffAt = some off) (hs : since + 1562500 ≤ s.now)
    (ho : off + 1562500 ≤ s.now) :
    powerRestart v s = snapAll (restarting s v) := by
  obtain ⟨samples, sag, hvin⟩ := setVin_frame s v
  refine powerRestart_of_due (since := since) (off := off) hoff ?_ ?_ ?_
  · rw [hvin]
    simp [vinSet, vinGood_of_range h1 h2, hsince]
  · rw [hvin]
    exact hat
  · have hnow : (setVin s v).now = s.now := by rw [hvin]; rfl
    rw [elapsed, hnow, msTicks]
    exact decide_eq_true (by omega)

/-! ### The pins -/

theorem flashWpAssert_of_idle {s : State} (h : s.sec.flashJob = none) :
    flashWpAssert s = { s with pwr := { s.pwr with flashWp := true } } := by
  simp [flashWpAssert, updPwr, h]

/-- What a write that is cut off leaves in its place (R486). -/
def tornBytes (s : State) (j : FlashJob) : List Byte := (rangeFrom s.free j.data.length).map fun i => (Config.freeWord i).setWidth 8

theorem length_tornBytes (s : State) (j : FlashJob) : (tornBytes s j).length = j.data.length := by
  rw [tornBytes, List.length_map, length_rangeFrom]

theorem flashWpAssert_of_writing {s : State} {j : FlashJob} (h : s.sec.flashJob = some j) :
    flashWpAssert s = { s with
      pwr := { s.pwr with flashWp := true }, free := s.free + j.data.length, out := s.out ++ [.mail j.tag 4 []]
      mem := { s.mem with flash := writeBytes s.mem.flash j.base (tornBytes s j) }
      sec := { s.sec with flashJob := none } } := by
  simp [flashWpAssert, tearFlash, tornBytes, updPwr, State.emit, h]

theorem restarting_frame (s : State) (v : Nat) : ∃ samples sag cnt P, restarting s v = { s with
    pwr := { vinSet s v samples sag with pwrGood := true, powerOffAt := none, sagCnt := cnt }
    mem := { s.mem with trained := s.mem.trained + 96 }, panels := P } := by
  obtain ⟨samples, sag, hvin⟩ := setVin_frame s v
  obtain ⟨sag', cnt, hsag⟩ := enterSag_frame v (wakePanels (supplied (setVin s v)))
  refine ⟨samples, sag', cnt, (wakePanels (supplied (setVin s v))).panels, ?_⟩
  rw [restarting, hsag, (wakePanels_spec _).1, hvin]
  rfl

theorem sagState_wakePanels (s : State) (k : Nat) : (wakePanels s).sagState k = s.sagState k := by
  obtain ⟨P, h⟩ : ∃ P, wakePanels s = { s with panels := P } := ⟨_, (wakePanels_spec s).1⟩
  rw [h]
  rfl

theorem sagState_supplied (s : State) (k : Nat) : (supplied s).sagState k = s.sagState k := rfl

theorem inForce_restarting (s : State) (v : Nat) {k : Nat} (h1 : 1 ≤ k) (h5 : k ≤ 5) :
    ((restarting s v).sagState k).inForce = ((s.sagState k).inForce || decide (v < sagEntry k)) := by
  rw [restarting, inForce_enterSag v _ h1 h5, sagState_wakePanels, sagState_supplied, inForce_setVin]

theorem panel_enterSag (v : Nat) (s : State) (q : Panel) : (enterSag v s).panel q = s.panel q := by
  obtain ⟨sag, cnt, h⟩ := enterSag_frame v s
  rw [h]
  rfl

theorem panel_setVin (s : State) (v : Nat) (q : Panel) : (setVin s v).panel q = s.panel q := by
  obtain ⟨samples, sag, h⟩ := setVin_frame s v
  rw [h]
  rfl

theorem now_setVin (s : State) (v : Nat) : (setVin s v).now = s.now := by
  obtain ⟨samples, sag, h⟩ := setVin_frame s v
  rw [h]
  rfl

theorem panel_supplied (s : State) (q : Panel) : (supplied s).panel q = s.panel q := rfl
theorem now_supplied (s : State) : (supplied s).now = s.now := rfl

theorem panel_restarting (s : State) (v : Nat) (q : Panel) : (restarting s v).panel q = wokenPanel s.now (s.panel q) := by
  rw [restarting, panel_enterSag, (wakePanels_spec _).2, now_supplied, panel_supplied, now_setVin, panel_setVin]

/-- What a restart leaves, stage by stage and panel by panel. -/
theorem restart_spec (s : State) (v : Nat) :
    let u := snapAll (restarting s v)
    u = { s with pwr := u.pwr, panels := u.panels, mem := { s.mem with trained := s.mem.trained + 96 } } ∧ u.pwr.pwrGood = true ∧
      u.pwr.vin = v ∧ u.pwr.powerOffAt = none ∧
      (∀ k, 1 ≤ k → k ≤ 5 → (u.sagState k).inForce = ((s.sagState k).inForce || decide (v < sagEntry k))) ∧
      ∀ q, u.panel q = { s.panel q with
        wdog := s.now, resetAt := s.now, cycAt := s.now, cycBase := 0, stall := none, held := none
        coreOp := (pointsOf u q).1, matrixOp := (pointsOf u q).2 } := by
  have hforce (k : Nat) (h1 : 1 ≤ k) (h5 : k ≤ 5) := inForce_restarting s v h1 h5
  have hpanel := panel_restarting s v
  obtain ⟨samples, sag, cnt, P, hframe⟩ := restarting_frame s v
  obtain ⟨hu, hsnapped⟩ := snapAll_spec (restarting s v)
  generalize restarting s v = r at *
  generalize snapAll r = u at *
  have hpwr : u.pwr = r.pwr := by rw [hu]
  refine ⟨?_, ?_, ?_, ?_, fun k h1 h5 => ?_, fun q => ?_⟩
  · rw [hpwr]
    refine hu.trans ?_
    rw [hframe]
  · rw [hpwr, hframe]
  · rw [hpwr, hframe]
    rfl
  · rw [hpwr, hframe]
  · rw [← hforce k h1 h5, State.sagState, State.sagState, hpwr]
  · have hpoints : pointsOf u q = pointsOf r q := pointsOf_congr (b := r.pwr.stage5) hpwr q
    have hnow : r.now = s.now := by rw [hframe]; rfl
    rw [hsnapped q, hpanel, hpoints]
    simp [snappedPanel, countCycles, wokenPanel, hnow]

/-- Settles O26: the restart by what the input, the stages and the panels become, the pins by their equations. -/
theorem powerPinsAndRestart : Obligations.PowerPinsAndRestart := by
  unfold Obligations.PowerPinsAndRestart
  intro s
  refine ⟨fun v since off hoff h1 h2 hsince hat hs ho => ?_, fun v h => ?_, rfl, rfl, fun h => ?_, fun j h => ⟨tornBytes s j, length_tornBytes s j, ?_⟩⟩
  · refine ⟨_, (exec_powerRestart v s).trans (congrArg _ (powerRestart_restarts hoff h1 h2 hsince hat hs ho)), ?_⟩
    obtain ⟨hframe, hgood, hvin, hoffAt, hsag, hpanel⟩ := restart_spec s v
    exact ⟨hframe, hgood, hvin, hoffAt, fun k h1 h5 => sagEntry_table k h1 h5 ▸ hsag k h1 h5, hpanel⟩
  · rw [exec_powerRestart, powerRestart_of_powered v h]
  · exact congrArg Host.Outcome.next (flashWpAssert_of_idle h)
  · exact congrArg Host.Outcome.next (flashWpAssert_of_writing h)

end Sys2Proof.Machine

end

section

/-! SUPPORT. Delivery at a link DMA, the counting of bytes, stale sends, and obligation O39. -/

namespace Sys2Proof.Machine

open Sys2Proof

/-! ### Delivery -/

section Delivery

variable {s : State} {d : Die}

/-- The packet at the head of the delivery buffers leaves it, and the buffer goes to the oldest reservation without one. -/
def bufferFreed (s : State) (d : Die) (p : Packet) (rest : List Packet) : State :=
  updDie s d fun x => { x with
    dbufs := rest, progress := s.now, rsv := if p.hdr.kind == kindColl then x.rsv else fillFirst x.rsv }

theorem exec_deliveryWrite (d : Die) (s : State) : exec (.deliveryWrite d) s = .next (deliveryWrite d s) := rfl

theorem deliveryWrite_of_empty (h : (s.die d).dbufs = []) : deliveryWrite d s = s := by
  simp [deliveryWrite, h]

variable {p : Packet} {rest : List Packet} (hbufs : (s.die d).dbufs = p :: rest)
include hbufs

theorem deliveryWrite_of_wrong_gen (hgen : genOk (bufferFreed s d p rest) p.hdr = false) :
    deliveryWrite d s = updCtx (updDie (bufferFreed s d p rest) d fun x => { x with genDrop := x.genDrop + 1 })
      ((bufferFreed s d p rest).job (hdrJob p.hdr)).ctx fun x => { x with genDrop := x.genDrop + 1 } := by
  rw [deliveryWrite, hbufs]
  exact if_pos (show (!genOk (bufferFreed s d p rest) p.hdr) = true by rw [hgen]; rfl)

theorem deliveryWrite_of_ack (hgen : genOk (bufferFreed s d p rest) p.hdr = true) (hkind : p.hdr.kind = kindAck) :
    deliveryWrite d s = takeAck (takeAck (countDelivered (bufferFreed s d p rest) d) 0 p.hdr) 1 p.hdr := by
  rw [deliveryWrite, hbufs]
  refine (if_neg (show ¬ (!genOk (bufferFreed s d p rest) p.hdr) = true by rw [hgen]; decide)).trans (if_pos ?_)
  rw [hkind]
  rfl

theorem deliveryWrite_of_payload (hgen : genOk (bufferFreed s d p rest) p.hdr = true) (hkind : p.hdr.kind ≠ kindAck) :
    deliveryWrite d s = if p.hdr.msgLen.toNat < p.hdr.offset.toNat + p.hdr.plen.toNat then
        updDie (bufferFreed s d p rest) d fun x => { x with msgRange := x.msgRange + 1 }
      else if (writePayload (countDelivered (bufferFreed s d p rest) d) d p).2 then
        countBytes (writePayload (countDelivered (bufferFreed s d p rest) d) d p).1 p.hdr
      else (writePayload (countDelivered (bufferFreed s d p rest) d) d p).1 := by
  rw [deliveryWrite, hbufs]
  refine (if_neg (show ¬ (!genOk (bufferFreed s d p rest) p.hdr) = true by rw [hgen]; decide)).trans (if_neg ?_)
  simpa using hkind

end Delivery

/-! ### Bytes that count -/

theorem countBytes_of_last {s : State} {h : PktHdr} {r : RecvMsg} (hr : recvEntry s h = some r)
    (hlen : r.count + h.plen.toNat = r.len) : countBytes s h = messageDone (updRecv s h fun _ => none) h r := by
  simp [countBytes, hr, hlen]

theorem countBytes_of_more {s : State} {h : PktHdr} {r : RecvMsg} (hr : recvEntry s h = some r)
    (hlen : r.count + h.plen.toNat ≠ r.len) :
    countBytes s h = updRecv s h fun q => some { q with count := r.count + h.plen.toNat } := by
  simp [countBytes, hr, hlen]

/-! ### Stale sends -/

section Stale

variable {s : State} {d : Die} {j : Job} {m : W32} {x : SendMsg}

theorem exec_msgStale (d : Die) (j : Job) (m : W32) (s : State) : exec (.msgStale d j m) s = .next (msgStale d j m s) := rfl

/-- A send is stale that has stood ENGINE_WIN without its ACK since its last packet left. -/
theorem staleDue_iff : (awaitsAck x && x.waiting == 0 && elapsed s x.injectedAt (msTicks s.glb.engineWin.toNat)) = true ↔
    awaitsAck x = true ∧ x.waiting = 0 ∧ x.injectedAt + 156250 * s.glb.engineWin.toNat ≤ s.now := by
  rw [msTicks, Nat.mul_comm]
  simp [elapsed, and_assoc]

theorem msgStale_of_due (hx : findSend s d j m = some x) (hack : awaitsAck x = true) (hsent : x.waiting = 0)
    (hwin : x.injectedAt + 156250 * s.glb.engineWin.toNat ≤ s.now) :
    msgStale d j m s = failStale (updCtx (raiseEv s evMsgStale (srcDma d) [m.toNat + 2 ^ 32 * x.dst.toNat] (some x.ctx) (jobField j))
      x.ctx fun c => { c with msgAbandoned := c.msgAbandoned + 1 }) d j m x := by
  rw [msgStale, hx]
  exact if_pos (staleDue_iff.2 ⟨hack, hsent, hwin⟩)

theorem msgStale_of_early (hx : findSend s d j m = some x)
    (hearly : ¬ (awaitsAck x = true ∧ x.waiting = 0 ∧ x.injectedAt + 156250 * s.glb.engineWin.toNat ≤ s.now)) : msgStale d j m s = s := by
  rw [msgStale, hx]
  exact if_neg fun h => hearly (staleDue_iff.1 h)

end Stale

/-- Settles O39: the branches of a delivery, of a count and of a stale send, each by its lemma. -/
theorem messagesAreDelivered : Obligations.MessagesAreDelivered := by
  unfold Obligations.MessagesAreDelivered
  intro s d
  refine ⟨fun p rest hbufs => ?_, fun h => ?_, fun h r hr => ⟨countBytes_of_last hr, countBytes_of_more hr⟩, fun j m x hx => ⟨?_, ?_⟩⟩
  · intro u v h
    simp only [exec_deliveryWrite]
    refine ⟨fun hgen => ?_, fun hgen hkind => ?_, fun hgen hkind hlong => ?_, fun hgen hkind hfits => ⟨fun hw => ?_, fun hw => ?_⟩⟩
    · exact congrArg _ (deliveryWrite_of_wrong_gen hbufs hgen)
    · exact congrArg _ (deliveryWrite_of_ack hbufs hgen hkind)
    · exact congrArg _ ((deliveryWrite_of_payload hbufs hgen hkind).trans (if_pos hlong))
    · exact congrArg _ ((deliveryWrite_of_payload hbufs hgen hkind).trans ((if_neg (Nat.not_lt.2 hfits)).trans (if_pos hw)))
    · exact congrArg _ ((deliveryWrite_of_payload hbufs hgen hkind).trans
        ((if_neg (Nat.not_lt.2 hfits)).trans (if_neg (Bool.eq_false_iff.1 hw))))
  · rw [exec_deliveryWrite, deliveryWrite_of_empty h]
  · intro hack hsent hwin
    rw [exec_msgStale, msgStale_of_due hx hack hsent hwin]
  · intro h
    rw [exec_msgStale, msgStale_of_early hx]
    rintro ⟨hack, hsent, hwin⟩
    rcases h with h | h | h
    · simp [hack] at h
    · exact h hsent
    · omega

end Sys2Proof.Machine

end

section

/-! SUPPORT. The window of the host: which unit it reaches, what a write of a unit leaves, and obligation O37. -/

namespace Sys2Proof.Machine

open Sys2Proof

/-! ### One unit and its poison (R289, R292) -/

section Unit

variable {pa : Nat} (hpa : pa % 64 = 0)
include hpa

theorem unitsOf_unit : unitsOf pa 64 = [pa / 64] := by
  rw [unitsOf, if_neg (by decide), show (pa + 64 - 1) / 64 - pa / 64 + 1 = 1 by omega]
  rfl

theorem poisoned_unit (b : Bank) : poisoned b pa 64 = b.poison.contains (pa / 64) := by
  simp [poisoned, unitsOf_unit hpa]

end Unit

theorem mem_setInsert_self (u : Nat) : ∀ l : List Nat, u ∈ setInsert l u
  | [] => by simp [setInsert]
  | x :: t => by
    unfold setInsert
    split
    · exact List.mem_cons_self
    · split
      · next h => simp [h]
      · exact List.mem_cons_of_mem _ (mem_setInsert_self u t)

/-- A write of a whole unit leaves the poison that it carries. -/
theorem poisoned_bankWrite_unit {pa : Nat} (hpa : pa % 64 = 0) (b : Bank) {data : List Byte} (hl : data.length = 64) (bad : Bool) :
    poisoned (bankWrite b pa data bad) pa 64 = bad := by
  have hclear : poisoned (clearWhole (writeBytes b pa data) pa 64) pa 64 = false := by
    rw [poisoned_unit hpa]
    simp only [clearWhole, List.contains_eq_mem, List.mem_filter, decide_eq_false_iff_not, decide_eq_true_eq]
    rintro ⟨-, h⟩
    exact h ⟨by omega, by omega⟩
  unfold bankWrite
  rw [hl]
  cases bad with
  | false => exact hclear
  | true =>
    rw [poisoned_unit hpa, if_pos rfl, setPoison, unitsOf_unit hpa]
    simpa using mem_setInsert_self _ _

/-! ### Byte enables -/

theorem length_mergeBytes (be : Nat) : ∀ (k : Nat) (os ns : List Byte), (mergeBytes be k os ns).length = os.length
  | _, [], _ => by simp [mergeBytes]
  | _, _ :: _, [] => by simp [mergeBytes]
  | k, _ :: os, _ :: ns => by simp [mergeBytes, length_mergeBytes be (k + 1) os ns]

/-- Byte i of a merge is the new one where its enable is set. -/
theorem getD_mergeBytes (be : Nat) : ∀ (k i : Nat) (os ns : List Byte), i < ns.length → ns.length = os.length →
    (mergeBytes be k os ns).getD i 0 = if bit be (k + i) then ns.getD i 0 else os.getD i 0
  | k, i, [], n :: ns, _, h => by simp at h
  | k, 0, o :: os, n :: ns, _, _ => by simp [mergeBytes]
  | k, i + 1, o :: os, n :: ns, hi, h => by
    have := getD_mergeBytes be (k + 1) i os ns (by simpa using hi) (by simpa using h)
    simpa [mergeBytes, Nat.add_assoc, Nat.add_comm 1 i] using this

theorem getD_readBytes (b : Bank) : ∀ (n a i : Nat), i < n → (readBytes b a n).getD i 0 = readByte b (a + i)
  | n + 1, a, 0, _ => rfl
  | n + 1, a, i + 1, h => by
    rw [readBytes, List.getD_cons_succ, getD_readBytes b n (a + 1) i (by omega), Nat.add_assoc, Nat.add_comm 1 i]

theorem toNat_eq_full_iff (be : W64) : be.toNat = 2 ^ 64 - 1 ↔ be = BitVec.allOnes 64 := by
  rw [BitVec.toNat_eq, BitVec.toNat_allOnes]

theorem padTo_of_length {n : Nat} {l : List Byte} (h : l.length = n) : padTo n l = l := by
  simp [padTo, ← h]

/-- The bytes that a write of a unit leaves under its byte enables. -/
def unitData (b : Bank) (pa : Nat) (be : W64) (data : List Byte) : List Byte :=
  if be = BitVec.allOnes 64 then data else mergeBytes be.toNat 0 (readBytes b pa 64) data

/-- The poison that a write of a unit leaves: none after a whole one, what it was after a partial one. -/
def poisonLeft (b : Bank) (pa : Nat) (be : W64) : Bool := if be = BitVec.allOnes 64 then false else poisoned b pa 64

section UnitWrite

variable {s : State} {pa : Nat} {be : W64} {data : List Byte} (hl : data.length = 64)
include hl

theorem length_unitData (b : Bank) : (unitData b pa be data).length = 64 := by
  unfold unitData
  split
  · exact hl
  · rw [length_mergeBytes, readBytes_length]

theorem getD_unitData (b : Bank) {i : Nat} (hi : i < 64) :
    (unitData b pa be data).getD i 0 = if be.getLsbD i then data.getD i 0 else readByte b (pa + i) := by
  unfold unitData
  split
  · next hbe => rw [hbe, BitVec.getLsbD_allOnes, if_pos (decide_eq_true hi)]
  · rw [getD_mergeBytes be.toNat 0 i _ _ (by omega) (by rw [hl, readBytes_length]), Nat.zero_add, bit_toNat, getD_readBytes b 64 pa i hi]

theorem unitWrite_of_up (hup : (s.memCtl (paPanel pa)).inReset = false) :
    unitWrite s pa be.toNat data = { s with mem := { s.mem with
      gddr := bankWrite s.mem.gddr pa (unitData s.mem.gddr pa be data) (poisonLeft s.mem.gddr pa be) } } := by
  by_cases hbe : be = BitVec.allOnes 64
  · rw [unitWrite, if_pos ((toNat_eq_full_iff be).2 hbe), padTo_of_length hl]
    simp only [gddrWrite, hup, unitData, poisonLeft, if_pos hbe, Bool.false_eq_true, if_false]
  · rw [unitWrite, if_neg (mt (toNat_eq_full_iff be).1 hbe), padTo_of_length hl]
    simp only [gddrWrite, gddrRead, hup, unitData, poisonLeft, if_neg hbe, Bool.or_false, Bool.false_eq_true, if_false]

end UnitWrite

theorem unitWrite_of_inReset {s : State} {pa : Nat} (be : Nat) (data : List Byte) (hreset : (s.memCtl (paPanel pa)).inReset = true) :
    unitWrite s pa be data =
      s.setMemCtl (paPanel pa) { s.memCtl (paPanel pa) with writesDropped := (s.memCtl (paPanel pa)).writesDropped + 1 } := by
  unfold unitWrite
  split
  · simp [gddrWrite, hreset]
  · simp [gddrWrite, hreset]

/-! ### The window -/

section Window

variable {s : State} {unit pa : Nat} {k : Access}

theorem windowOpen_iff (s : State) (unit : Nat) : windowOpen s unit = true ↔
    unit < 2 ^ 28 ∧ ideOk s = true ∧ aperEn (aperOf s unit) = true ∧ (s.ctx (aperCtx (aperOf s unit))).phase = .opened := by
  simp only [windowOpen, Bool.and_eq_true, decide_eq_true_eq, beq_iff_eq, and_assoc]

/-- Where a unit of the window is reached. -/
theorem windowPa_eq_some : windowPa s k unit = some pa ↔
    unit < 2 ^ 28 ∧ ideOk s = true ∧ aperEn (aperOf s unit) = true ∧ (s.ctx (aperCtx (aperOf s unit))).phase = .opened ∧
      accessPa s (aperCtx (aperOf s unit)) (aperBase (aperOf s unit) + unit % 2 ^ 24 * 64) k = some pa := by
  have hiff := windowOpen_iff s unit
  by_cases h : windowOpen s unit = true
  · obtain ⟨hunit, hide, hen, hopen⟩ := hiff.1 h
    rw [windowPa, if_pos h]
    exact ⟨fun hpa => ⟨hunit, hide, hen, hopen, hpa⟩, fun ⟨_, _, _, _, hpa⟩ => hpa⟩
  · rw [windowPa, if_neg h]
    exact ⟨(nomatch ·), fun ⟨hunit, hide, hen, hopen, _⟩ => absurd (hiff.2 ⟨hunit, hide, hen, hopen⟩) h⟩

/-- What a refused access reports: nothing, an error in a page table, or an entry whose controllers are in reset. -/
theorem noteWindow_cases (s : State) (unit : Nat) : noteWindow s unit = s ∨
    (∃ b, noteWindow s unit = raiseEv s evMemUe (srcMem (paPanel b)) [b] (some (aperCtx (aperOf s unit)))) ∨
      ∃ b, noteWindow s unit = noteResetRead s b := by
  unfold noteWindow noteBadTable
  split
  · split
    · exact .inr (.inl ⟨_, rfl⟩)
    · exact .inr (.inr ⟨_, rfl⟩)
    · exact .inl rfl
  · exact .inl rfl

theorem exec_hdmRead (unit : Nat) (s : State) : exec (.hdmRead unit) s = .next (hdmRead unit s) := rfl

theorem exec_hdmWrite (unit : Nat) (be : W64) (data : List Byte) (s : State) :
    exec (.hdmWrite unit be data) s = .next (hdmWrite unit be data s) := rfl

theorem hdmRead_of_down (unit : Nat) (h : s.qmg.cxlUp = false) : hdmRead unit s = s := by
  simp [hdmRead, h]

theorem hdmWrite_of_down (unit : Nat) (be : W64) (data : List Byte) (h : s.qmg.cxlUp = false) : hdmWrite unit be data s = s := by
  simp [hdmWrite, h]

variable (hup : s.qmg.cxlUp = true)
include hup

theorem hdmRead_of_reached (hpa : windowPa s .hdm unit = some pa) : hdmRead unit s = (noteResetRead s pa).emit
    (.hdmData unit (readBytes s.mem.gddr pa 64) (poisoned s.mem.gddr pa 64 || (s.memCtl (paPanel pa)).inReset)) := by
  simp [hdmRead, hup, hpa, gddrRead]

theorem hdmRead_of_refused (hpa : windowPa s .hdm unit = none) : hdmRead unit s =
    ({ noteWindow s unit with mem := { (noteWindow s unit).mem with hdmPoison := sat64 ((noteWindow s unit).mem.hdmPoison + 1) } }.emit
      (.hdmData unit (List.replicate 64 0xFF) true)) := by
  simp [hdmRead, hup, hpa]

theorem hdmWrite_of_reached (hpa : windowPa s .hdmWrite unit = some pa) (hro : aperRo (aperOf s unit) = false) (be : W64)
    (data : List Byte) : hdmWrite unit be data s = unitWrite s pa be.toNat data := by
  simp [hdmWrite, hup, hpa, hro]

theorem hdmWrite_of_readOnly (hpa : windowPa s .hdmWrite unit = some pa) (hro : aperRo (aperOf s unit) = true) (be : W64)
    (data : List Byte) :
    hdmWrite unit be data s = { s with mem := { s.mem with hdmDrop := sat64 (s.mem.hdmDrop + 1) } } := by
  simp [hdmWrite, hup, hpa, hro]

theorem hdmWrite_of_refused (hpa : windowPa s .hdmWrite unit = none) (be : W64) (data : List Byte) :
    hdmWrite unit be data s =
      { noteWindow s unit with mem := { (noteWindow s unit).mem with hdmDrop := sat64 ((noteWindow s unit).mem.hdmDrop + 1) } } := by
  simp [hdmWrite, hup, hpa]

end Window

theorem noteResetRead_of_up {s : State} {pa : Nat} (h : (s.memCtl (paPanel pa)).inReset = false) : noteResetRead s pa = s := by
  simp [noteResetRead, h]

theorem noteResetRead_of_inReset {s : State} {pa : Nat} (h : (s.memCtl (paPanel pa)).inReset = true) : noteResetRead s pa =
    s.setMemCtl (paPanel pa) { s.memCtl (paPanel pa) with readsPoisoned := (s.memCtl (paPanel pa)).readsPoisoned + 1 } := by
  simp [noteResetRead, h]

/-- What a write that reaches its unit leaves of the memory. -/
theorem unitWrite_spec {s : State} {pa : Nat} (hup : (s.memCtl (paPanel pa)).inReset = false) (be : W64) {data : List Byte}
    (hl : data.length = 64) : ∃ g, unitWrite s pa be.toNat data = { s with mem := { s.mem with gddr := g } } ∧
      (∀ x, ¬ (pa ≤ x ∧ x < pa + 64) → readByte g x = readByte s.mem.gddr x) ∧
      (∀ i, i < 64 → readByte g (pa + i) = if be.getLsbD i then data.getD i 0 else readByte s.mem.gddr (pa + i)) ∧
      (pa % 64 = 0 → poisoned g pa 64 = if be = BitVec.allOnes 64 then false else poisoned s.mem.gddr pa 64) := by
  have hlen : (unitData s.mem.gddr pa be data).length = 64 := length_unitData hl _
  refine ⟨_, unitWrite_of_up hl hup, fun x hx => ?_, fun i hi => ?_, fun hpa => ?_⟩
  · exact readByte_bankWrite_outside _ _ _ _ _ (by omega)
  · rw [readByte_bankWrite_inside _ _ _ _ _ (by omega), ← getD_unitData hl _ hi, List.getD_eq_getElem]
  · exact poisoned_bankWrite_unit hpa _ hlen _

/-- Settles O37: the accesses by `windowPa_eq_some`, the bytes that a write leaves by `unitWrite_spec`. -/
theorem hdmWindowAccesses : Obligations.HdmWindowAccesses := by
  unfold Obligations.HdmWindowAccesses
  intro s unit
  refine ⟨fun hdown => ⟨congrArg _ (hdmRead_of_down unit hdown), fun be data => congrArg _ (hdmWrite_of_down unit be data hdown)⟩,
    fun hup => ?_⟩
  intro a reached u
  have hreach (k : Access) (pa : Nat) : reached k pa → windowPa s k unit = some pa := windowPa_eq_some.2
  have hrefuse (k : Access) (h : ∀ pa, ¬ reached k pa) : windowPa s k unit = none :=
    Option.eq_none_iff_forall_ne_some.2 fun pa hpa => h pa (windowPa_eq_some.1 hpa)
  refine ⟨fun pa hready => ⟨fun hr => ?_, fun hr => ⟨fun hro be data hl => ?_, fun hro be data => ?_⟩⟩,
    fun pa hreset => ⟨fun hr => ?_, fun hr hro be data => ?_⟩, fun h => ?_, fun h be data => ?_, noteWindow_cases s unit⟩
  · rw [exec_hdmRead, hdmRead_of_reached hup (hreach _ _ hr), noteResetRead_of_up hready, hready, Bool.or_false]
  · rw [exec_hdmWrite, hdmWrite_of_reached hup (hreach _ _ hr) hro]
    obtain ⟨g, hg, hbytes⟩ := unitWrite_spec hready be hl
    exact ⟨g, congrArg _ hg, hbytes⟩
  · exact congrArg _ (hdmWrite_of_readOnly hup (hreach _ _ hr) hro be data)
  · rw [exec_hdmRead, hdmRead_of_reached hup (hreach _ _ hr), noteResetRead_of_inReset hreset, hreset, Bool.or_true]
  · rw [exec_hdmWrite, hdmWrite_of_reached hup (hreach _ _ hr) hro, unitWrite_of_inReset _ _ hreset]
  · exact congrArg _ (hdmRead_of_refused hup (hrefuse _ h))
  · exact congrArg _ (hdmWrite_of_refused hup (hrefuse _ h) be data)

end Sys2Proof.Machine

end

section

/-! SUPPORT. The commands of a context, its drain mark and its quiescence, and obligation O43. -/

namespace Sys2Proof.Machine

open Sys2Proof

/-! ### A table that is cleared -/

theorem tabGet_filter_of_kept {α : Type} (d : α) {p : Nat × α → Bool} {k : Nat} (h : ∀ v, p (k, v) = true) :
    ∀ t : Tab α, tabGet d (t.filter p) k = tabGet d t k
  | [] => rfl
  | (k', v) :: t => by
    have ih := tabGet_filter_of_kept d h t
    by_cases hk : k' = k
    · subst hk
      simp [h v, tabGet]
    · cases hp : p (k', v) <;> simp [hp, tabGet, hk, ih]

theorem tabGet_filter_of_dropped {α : Type} (d : α) {p : Nat × α → Bool} {k : Nat} (h : ∀ v, p (k, v) = false) :
    ∀ t : Tab α, tabGet d (t.filter p) k = d
  | [] => rfl
  | (k', v) :: t => by
    have ih := tabGet_filter_of_dropped d h t
    by_cases hk : k' = k
    · subst hk
      simp [h v, ih]
    · cases hp : p (k', v) <;> simp [hp, tabGet, hk, ih]

theorem readByte_clearRange_inside (b : Bank) {a n x : Nat} (h1 : a ≤ x) (h2 : x < a + n) : readByte (clearRange b a n) x = 0 :=
  tabGet_filter_of_dropped _ (fun _ => by simp [h1, h2]) _

theorem readByte_clearRange_outside (b : Bank) {a n x : Nat} (h : x < a ∨ a + n ≤ x) :
    readByte (clearRange b a n) x = readByte b x :=
  tabGet_filter_of_kept _ (fun _ => by simp; omega) _

/-! ### OPEN, CLOSE and FREE in a state that does not allow them -/

section Commands

variable {s : State}

theorem exec_ctxOpen (s : State) : exec .ctxOpen s = .next (hostWrite s openCtx) := rfl
theorem exec_ctxClose (s : State) : exec .ctxClose s = .next (hostWrite s ctxClose) := rfl
theorem exec_ctxFree (s : State) : exec .ctxFree s = .next (hostWrite s ctxFree) := rfl

theorem cmdBad_eq (s : State) : cmdBad s = s.setCtx s.qmg.csel { s.ctx s.qmg.csel with cmdBad := true } := rfl

theorem openCtx_of_not_free (h : (s.ctx s.qmg.csel).phase ≠ .free) : openCtx s = cmdBad s := if_neg h
theorem ctxClose_of_not_opened (h : (s.ctx s.qmg.csel).phase ≠ .opened) : ctxClose s = cmdBad s := if_neg h
theorem ctxFree_of_not_quiescent (h : (s.ctx s.qmg.csel).phase ≠ .quiescent) : ctxFree s = cmdBad s := if_neg h

/-! ### OPEN -/

/-- A context as OPEN leaves it. -/
def openedCtx (x : CtxState) : CtxState :=
  { x with phase := .opened, drained := false, accepted := 0, completed := 0, cancelled := 0, dbIgnored := 0, msgAbandoned := 0
           genDrop := 0, rung := false }

theorem openTables_of_up (c : Ctx) (h : (s.memCtl (paPanel (rootTable c))).inReset = false) :
    openTables s c = { s with mem := { s.mem with gddr := clearRange s.mem.gddr (rootTable c) 0x20000 } } := by
  simp [openTables, gddrClear, h]

theorem openTables_of_inReset (c : Ctx) (h : (s.memCtl (paPanel (rootTable c))).inReset = true) :
    openTables s c = s.setMemCtl (paPanel (rootTable c))
      { s.memCtl (paPanel (rootTable c)) with writesDropped := (s.memCtl (paPanel (rootTable c))).writesDropped + 1 } := by
  simp [openTables, gddrClear, h]

/-- Making a context's table touches the memory alone. -/
theorem openTables_changes_mem (s : State) (c : Ctx) : ∃ m, openTables s c = { s with mem := m } := by
  unfold openTables gddrClear
  dsimp only
  split
  · exact ⟨_, rfl⟩
  · exact ⟨_, rfl⟩

theorem ctx_openTables (s : State) (c k : Ctx) : (openTables s c).ctx k = s.ctx k := by
  obtain ⟨m, h⟩ := openTables_changes_mem s c
  rw [h]
  rfl

theorem openCtx_of_free (h : (s.ctx s.qmg.csel).phase = .free) :
    openCtx s = (openTables s s.qmg.csel).setCtx s.qmg.csel (openedCtx (s.ctx s.qmg.csel)) := by
  rw [openCtx, if_pos h, updCtx, ctx_openTables]
  rfl

/-! ### CLOSE -/

theorem ctxClose_of_opened (h : (s.ctx s.qmg.csel).phase = .opened) : ctxClose s = closeCtx s s.qmg.csel := if_pos h

/-! ### FREE -/

theorem ctxFree_of_quiescent (h : (s.ctx s.qmg.csel).phase = .quiescent) :
    ctxFree s = updCtx (freeApertures (freeTables (freeGroups s s.qmg.csel) s.qmg.csel) s.qmg.csel) s.qmg.csel fun x =>
      { x with phase := .free, panelScs := [] } := if_pos h

/-- The queues of the context's groups are disabled. -/
theorem disabled_of_mem_freeGroups {c : Ctx} {e : Nat × QueueState} (he : e ∈ (freeGroups s c).qmg.queues)
    (hown : (s.group (e.1 / 64)).2 = true) (hc : (s.group (e.1 / 64)).1 = c) : e.2.enable = false := by
  obtain ⟨he, -⟩ := List.mem_filter.1 he
  obtain ⟨q, -, hq⟩ := List.mem_map.1 he
  split at hq
  · rw [← hq]
  · next hno =>
    subst hq
    exact absurd (by simp [hown, hc]) hno

theorem not_own_of_mem_freeGroups {c : Ctx} {e : Nat × Ctx × Bool} (he : e ∈ (freeGroups s c).qmg.groups) :
    ¬ (e.2.2 = true ∧ e.2.1 = c) := by
  obtain ⟨he, -⟩ := List.mem_filter.1 he
  obtain ⟨q, -, hq⟩ := List.mem_map.1 he
  split at hq
  · rw [← hq]
    simp
  · next hno =>
    subst hq
    simpa using hno

theorem owner_of_mem_freeTables {c : Ctx} {e : Nat × Nat × Nat} (he : e ∈ (freeTables s c).mem.tables) : e.2.2 ≠ c.val := by
  obtain ⟨-, h⟩ := List.mem_filter.1 he
  simpa using h

/-- EN is bit 11 of an aperture. -/
theorem aperEn_eq (w : W64) : aperEn w = w.getLsbD 11 := bit_toNat w 11

theorem aperEn_cleared (w : W64) : aperEn (w &&& ~~~(BitVec.twoPow 64 11)) = false := by
  simp [aperEn_eq]

theorem disabled_of_mem_freeApertures {c : Ctx} {e : Nat × W64} (he : e ∈ (freeApertures s c).mem.aper) (hc : aperCtx e.2 = c) :
    aperEn e.2 = false := by
  obtain ⟨he, -⟩ := List.mem_filter.1 he
  obtain ⟨q, -, rfl⟩ := List.mem_map.1 he
  dsimp only at hc ⊢
  split
  · exact aperEn_cleared _
  · next hno => rw [if_neg hno] at hc; exact absurd hc hno

end Commands

/-! ### CTX_DRAIN_MARK -/

section Drain

variable {s : State} {k : Ctx}

theorem exec_ctxDrainMark (k : Ctx) (s : State) : exec (.ctxDrainMark k) s = .next (ctxDrainMark k s) := rfl

theorem ctxDrainMark_of_early (h : (s.ctx k).phase ≠ .closing ∨ (s.ctx k).drained = true ∨ s.gau.count.toNat < (s.ctx k).drainMark.toNat) :
    ctxDrainMark k s = s := by
  refine if_neg ?_
  rintro ⟨hphase, hdrained, hmark⟩
  have hmark : (s.ctx k).drainMark.toNat ≤ s.gau.count.toNat := of_decide_eq_true hmark
  rcases h with h | h | h
  · exact h hphase
  · simp [hdrained] at h
  · omega

/-- The jobs of a list take a generation tag. -/
def tagJobs (g : BitVec 8) (l : List Job) (s : State) : State := l.foldl (fun s j => s.setJob j { s.job j with gen := g }) s

theorem tagJobs_changes_jobs (g : BitVec 8) (l : List Job) (s : State) : ∃ J, tagJobs g l s = { s with jobs := J } :=
  List.foldlRecOn (motive := fun u : State => ∃ J, u = { s with jobs := J }) _ _ ⟨_, rfl⟩ fun u ⟨_, hu⟩ j _ => by
    rw [hu]
    exact ⟨_, rfl⟩

theorem gen_tagJobs (g : BitVec 8) {l : List Job} {j : Job} (hj : j ∈ l) (s : State) : ((tagJobs g l s).job j).gen = g := by
  refine foldl_establishes (I := fun _ => True) (P := fun u => (u.job j).gen = g) (fun _ _ _ => trivial)
    (fun u _ => by rw [State.setJob_job_same]) (fun u i _ hu => ?_) l s trivial (.inr hj)
  by_cases hi : j = i
  · rw [hi, State.setJob_job_same]
  · rw [State.setJob_job_ne _ _ hi, hu]

/-- What the drain mark does to the link dies. -/
def abandonLinks (s : State) (k : Ctx) : State := abandonDie (abandonDie (abandonRings s k) k 0) k 1

theorem abandonLinks_changes_lnk (s : State) (k : Ctx) : ∃ L, abandonLinks s k = { s with lnk := L } := ⟨_, rfl⟩

theorem sends_abandonDie_same (s : State) (k : Ctx) (d : Die) {e : Nat × SendMsg} (he : e ∈ ((abandonDie s k d).die d).sends) :
    e.2.ctx ≠ k := by
  rw [abandonDie, State.setDie_die_same] at he
  exact of_decide_eq_true (List.mem_filter.1 he).2

theorem die_abandonDie_ne {d d' : Die} (h : d' ≠ d) (s : State) (k : Ctx) : (abandonDie s k d).die d' = s.die d' :=
  State.setDie_die_ne _ _ h

/-- No send of the context is left at either die. -/
theorem sends_abandonLinks (s : State) (k : Ctx) (d : Die) {e : Nat × SendMsg} (he : e ∈ ((abandonLinks s k).die d).sends) :
    e.2.ctx ≠ k := by
  by_cases hd : d = 1
  · subst hd
    exact sends_abandonDie_same _ _ _ he
  · obtain rfl : d = 0 := (by decide : ∀ d : Die, d ≠ 1 → d = 0) d hd
    rw [abandonLinks, die_abandonDie_ne hd] at he
    exact sends_abandonDie_same _ _ _ he

theorem ctxDrainMark_of_due (hphase : (s.ctx k).phase = .closing) (hdrained : (s.ctx k).drained = false)
    (hmark : (s.ctx k).drainMark.toNat ≤ s.gau.count.toNat) :
    ctxDrainMark k s = updCtx (tagJobs ((s.ctx k).gen + 1) (ctxJobs (abandonLinks s k) k) (abandonLinks s k)) k fun x =>
      { x with gen := x.gen + 1, drained := true, msgAbandoned := x.msgAbandoned + openSends s k } :=
  if_pos ⟨hphase, hdrained, decide_eq_true hmark⟩

/-- What the drain mark leaves. -/
theorem drained_spec (s : State) (k : Ctx) :
    ∃ J L, tagJobs ((s.ctx k).gen + 1) (ctxJobs (abandonLinks s k) k) (abandonLinks s k) = { s with jobs := J, lnk := L } ∧
      ∀ d, ∀ e ∈ (State.die { s with lnk := L } d).sends, e.2.ctx ≠ k := by
  obtain ⟨L, hL⟩ := abandonLinks_changes_lnk s k
  obtain ⟨J, hJ⟩ := tagJobs_changes_jobs ((s.ctx k).gen + 1) (ctxJobs (abandonLinks s k) k) (abandonLinks s k)
  refine ⟨J, L, ?_, fun d e he => ?_⟩
  · rw [hJ, hL]
  · rw [← hL] at he
    exact sends_abandonLinks s k d he

theorem mem_ctxJobs {j : Job} (hres : (s.job j).resident = true) (hctx : (s.job j).ctx = k) : j ∈ ctxJobs s k :=
  List.mem_filter.2 ⟨(by decide : ∀ j : Job, j ∈ ([0, 1, 2, 3, 4, 5, 6, 7] : List Job)) j, by simp [hres, hctx]⟩

end Drain

/-! ### CTX_QUIESCE -/

section Quiesce

variable {s : State} {k : Ctx}

theorem exec_ctxQuiesce (k : Ctx) (s : State) : exec (.ctxQuiesce k) s = .next (ctxQuiesce k s) := rfl

theorem ctxQuiesce_of_not_quiet (h : quiet s k = false) : ctxQuiesce k s = s := if_neg (by simp [h])

/-- The jobs of a list are no longer resident. -/
def dismissJobs (l : List Job) (s : State) : State := l.foldl (fun s j => s.setJob j { s.job j with resident := false }) s

theorem ctx_dismissJobs (l : List Job) (s : State) (k : Ctx) : (dismissJobs l s).ctx k = s.ctx k :=
  List.foldlRecOn (motive := fun u : State => u.ctx k = s.ctx k) _ _ rfl fun _ hu _ _ => hu

theorem ctxQuiesce_of_quiet (h : quiet s k = true) : ctxQuiesce k s = raiseEv (dropRung ((dismissJobs (ctxJobs s k) s).setCtx k
    { s.ctx k with phase := .quiescent, rung := false }) (.context k)) evCtxQuiescent srcQmg [] (some k) := by
  rw [← ctx_dismissJobs (ctxJobs s k) s k]
  exact if_pos h

end Quiesce

/-- Settles O43: the three commands behind the gates of a host write, each in the state that allows it and in another; the drain
mark and quiescence by what they change. -/
theorem contextsOpenAndClose : Obligations.ContextsOpenAndClose := by
  unfold Obligations.ContextsOpenAndClose
  intro s c bad
  refine ⟨fun hup hlock => ⟨fun hfree => ?_, fun h => ?_, fun h => ?_, fun h => ?_, fun h => ?_, fun h => ?_⟩, fun i hi => ?_,
    fun k => ⟨fun h => ?_, fun h => ?_, fun hphase hdrained hmark => ?_, fun h => ?_⟩⟩
  · rw [exec_ctxOpen, hostWrite_of_locked hup hlock, openCtx_of_free hfree]
    refine ⟨_, rfl, fun hready => ⟨?_, fun a h1 h2 => ?_, fun a h => ?_⟩, ?_, ?_, ?_⟩
    · rw [openTables_of_up c hready]
      rfl
    · rw [openTables_of_up c hready]
      exact readByte_clearRange_inside _ h1 h2
    · rw [openTables_of_up c hready]
      exact readByte_clearRange_outside _ h
    · rintro m rfl hreset
      rw [openTables_of_inReset c hreset]
      rfl
    · exact State.setCtx_ctx_same ..
    · exact fun k hk => (State.setCtx_ctx_ne _ _ hk).trans (ctx_openTables s c k)
  · rw [exec_ctxOpen, hostWrite_of_locked hup hlock, openCtx_of_not_free h, cmdBad_eq]
  · rw [exec_ctxClose, hostWrite_of_locked hup hlock, ctxClose_of_opened h]
    rfl
  · rw [exec_ctxClose, hostWrite_of_locked hup hlock, ctxClose_of_not_opened h, cmdBad_eq]
  · rw [exec_ctxFree, hostWrite_of_locked hup hlock, ctxFree_of_quiescent h]
    refine ⟨_, rfl, rfl, ?_, rfl, fun e he => ?_, fun e he => ?_, fun e he => ?_, fun e he => ?_⟩
    · exact congrArg CtxState.phase (State.setCtx_ctx_same ..)
    · exact owner_of_mem_freeTables he
    · exact disabled_of_mem_freeApertures he
    · exact not_own_of_mem_freeGroups he
    · exact disabled_of_mem_freeGroups he
  · rw [exec_ctxFree, hostWrite_of_locked hup hlock, ctxFree_of_not_quiescent h, cmdBad_eq]
  · have hexec : ∃ g, exec i s = .next (hostWrite s g) := by
      fin_cases hi
      · exact ⟨_, exec_ctxOpen s⟩
      · exact ⟨_, exec_ctxClose s⟩
      · exact ⟨_, exec_ctxFree s⟩
    obtain ⟨g, hg⟩ := hexec
    rw [hg]
    exact ⟨fun hdown => congrArg _ (hostWrite_of_down hdown g), fun hup hlock => congrArg _ (hostWrite_of_unlocked hup hlock g)⟩
  · rw [exec_ctxDrainMark, ctxDrainMark_of_early h]
  · rw [exec_ctxQuiesce, ctxQuiesce_of_not_quiet h]
  · rw [exec_ctxDrainMark, ctxDrainMark_of_due hphase hdrained hmark]
    obtain ⟨J, L, hst, hsends⟩ := drained_spec s k
    have hgen (j : Job) (hres : (s.job j).resident = true) (hctx : (s.job j).ctx = k) := gen_tagJobs ((s.ctx k).gen + 1)
      (show j ∈ ctxJobs (abandonLinks s k) k from mem_ctxJobs hres hctx) (abandonLinks s k)
    rw [hst] at hgen ⊢
    refine ⟨_, rfl, ?_, ?_, ?_, hgen, hsends, rfl, rfl⟩
    · rw [updCtx, State.setCtx_ctx_same]
      rfl
    · rw [updCtx, State.setCtx_ctx_same]
    · rw [updCtx, State.setCtx_ctx_same]
      rfl
  · rw [exec_ctxQuiesce, ctxQuiesce_of_quiet h]
    rfl

end Sys2Proof.Machine

end

section

/-! SUPPORT. What a module holds at reset, and obligation O6. -/

namespace Sys2Proof.Machine

open Sys2Proof

/-- No core is fenced or left out of service at reset. -/
theorem freeCores_reset (p : Panel) : freeCores State.reset p = 40 := by
  have hfree (c : Nat) : (!(State.reset.panel p).fence.getLsbD c && (tabGet {} State.reset.cores (40 * p.val + c)).replay.isNone) = true := by
    change (!(0 : BitVec _).getLsbD c && true) = true
    simp
  rw [freeCores, List.filter_eq_self.2 fun c _ => hfree c, List.length_range]

/-- Settles O6: every table is empty at reset, so every entry reads as its default; the cores by `freeCores_reset`. -/
theorem resetState : Obligations.ResetState := by
  unfold Obligations.ResetState
  exact ⟨rfl, rfl, rfl, rfl, rfl, rfl, rfl, rfl, rfl, rfl, rfl, rfl, rfl, rfl, rfl, rfl, rfl, rfl, rfl,
    fun _ => ⟨rfl, rfl, rfl⟩, fun _ => rfl, fun _ => ⟨rfl, rfl⟩, fun p => ⟨rfl, rfl, freeCores_reset p⟩,
    fun _ => ⟨rfl, fun _ => rfl⟩⟩

end Sys2Proof.Machine

end

section

/-! SUPPORT. The symbols of a codeword and their lanes (R308 to R310), and obligation O35. -/

namespace Sys2Proof.Machine

open Sys2Proof

/-! ### The number of parity symbols -/

theorem length_polyTimes (r : Nat) (g : List Nat) : (polyTimes r g).length = g.length + 1 := by
  simp [polyTimes]

theorem length_gfPowers (n a : Nat) : (gfPowers n a).length = n := by
  induction n generalizing a with
  | zero => rfl
  | succ n ih => rw [gfPowers, List.length_cons, ih]

theorem length_foldl_polyTimes (rs g : List Nat) : (rs.foldl (fun g r => polyTimes r g) g).length = g.length + rs.length := by
  induction rs generalizing g with
  | nil => rfl
  | cons r rs ih => rw [List.foldl_cons, ih, length_polyTimes, List.length_cons, Nat.add_assoc, Nat.add_comm 1]

/-- The generator has a coefficient for each of its 30 roots, its leading 1 apart. -/
theorem length_rsGenerator : rsGenerator.length = 30 := by
  rw [rsGenerator, List.length_drop, length_foldl_polyTimes, length_gfPowers]
  rfl

theorem length_rsStep {g rem : List Nat} {n : Nat} (hg : g.length = n + 1) (hrem : rem.length = n + 1) (m : Nat) :
    (rsStep g rem m).length = n + 1 := by
  simp [rsStep, hg, hrem]

theorem length_foldl_rsStep {g : List Nat} {n : Nat} (hg : g.length = n + 1) (msg : List Nat) {rem : List Nat}
    (hrem : rem.length = n + 1) : (msg.foldl (rsStep g) rem).length = n + 1 := by
  induction msg generalizing rem with
  | nil => exact hrem
  | cons m msg ih => exact ih (length_rsStep hg hrem m)

theorem length_rsParity (msg : List Nat) : (rsParity msg).length = 30 :=
  length_foldl_rsStep length_rsGenerator msg List.length_replicate

/-! ### The codeword -/

theorem length_frameSymbols (f : Frame) : (frameSymbols f).length = 514 := by
  rw [frameSymbols, List.length_map, length_rangeFrom]

theorem length_frameCodeword (f : Frame) : (frameCodeword f).length = 544 := by
  rw [frameCodeword, List.length_append, length_frameSymbols, length_rsParity]

theorem take_frameCodeword (f : Frame) : (frameCodeword f).take 514 = frameSymbols f :=
  List.take_left' (length_frameSymbols f)

theorem length_padTo (n : Nat) (l : List Byte) : (padTo n l).length = n := by
  simp [padTo]
  omega

theorem framePayload_of_null {f : Frame} (h : f.null = true) : framePayload f = List.replicate 640 0 := by
  rw [framePayload, if_pos h]
  rfl

/-! ### The header -/

theorem bnat_lt (b : Bool) : bnat b < 2 := by
  cases b <;> decide

/-- Each field of a header reads back, and the header has 20 bits. -/
theorem header_fields {seq ack nak null units : Nat} (hseq : seq < 2 ^ 7) (hack : ack < 2 ^ 7) (hnak : nak < 2) (hnull : null < 2)
    (hunits : units < 2 ^ 4) {h : Nat} (hh : h = seq + 2 ^ 7 * ack + 2 ^ 14 * nak + 2 ^ 15 * null + 2 ^ 16 * units) :
    h < 2 ^ 20 ∧ h / 2 ^ 7 % 2 ^ 7 = ack ∧ h / 2 ^ 14 % 2 = nak ∧ h / 2 ^ 15 % 2 = null ∧ h % 2 ^ 7 = seq ∧ h / 2 ^ 16 = units := by
  omega

theorem frameHeader_fields (f : Frame) :
    frameHeader f < 2 ^ 20 ∧ frameHeader f / 2 ^ 7 % 2 ^ 7 = f.ack.toNat ∧ frameHeader f / 2 ^ 14 % 2 = bnat f.nak ∧
    frameHeader f / 2 ^ 15 % 2 = bnat f.null ∧ frameHeader f % 2 ^ 7 = (if f.null then 0 else f.seq.toNat) ∧
    frameHeader f / 2 ^ 16 = (if f.null then 0 else f.units.toNat) := by
  refine header_fields ?_ f.ack.isLt (bnat_lt _) (bnat_lt _) ?_ rfl
  · split
    · decide
    · exact f.seq.isLt
  · split
    · decide
    · exact f.units.isLt

theorem frameBits_header (f : Frame) : frameBits f % 2 ^ 20 = frameHeader f := by
  rw [frameBits, Nat.add_mul_mod_self_left, Nat.mod_eq_of_lt (frameHeader_fields f).1]

/-! ### The lanes -/

/-- The symbols of a stretch of a codeword, from number lo on, that one lane carries. -/
def onLane (lane lo : Nat) (l : List Nat) : List Nat :=
  ((List.zip (rangeFrom lo l.length) l).filter fun p => decide (symbolLane p.1 = lane)).map Prod.snd

theorem onLane_cons_same {lane lo : Nat} (h : lo % 4 = lane) (x : Nat) (l : List Nat) :
    onLane lane lo (x :: l) = x :: onLane lane (lo + 1) l := by
  simp [onLane, rangeFrom, symbolLane, h]

theorem onLane_cons_other {lane lo : Nat} (h : lo % 4 ≠ lane) (x : Nat) (l : List Nat) :
    onLane lane lo (x :: l) = onLane lane (lo + 1) l := by
  simp [onLane, rangeFrom, symbolLane, h]

/-- Symbol k of a lane is the fourth after symbol k - 1, from the lane's first symbol on. -/
theorem onLane_getElem? {lane : Nat} (hlane : lane < 4) (l : List Nat) (lo k : Nat) :
    (onLane lane lo l)[k]? = l[4 * k + (lane + 4 - lo % 4) % 4]? := by
  induction l generalizing lo k with
  | nil => rfl
  | cons x l ih =>
    by_cases h : lo % 4 = lane
    · rw [onLane_cons_same h]
      cases k with
      | zero => rw [show 4 * 0 + (lane + 4 - lo % 4) % 4 = 0 by omega]; rfl
      | succ k =>
        rw [List.getElem?_cons_succ, ih,
          show 4 * (k + 1) + (lane + 4 - lo % 4) % 4 = 4 * k + (lane + 4 - (lo + 1) % 4) % 4 + 1 by omega, List.getElem?_cons_succ]
    · rw [onLane_cons_other h, ih,
        show 4 * k + (lane + 4 - lo % 4) % 4 = 4 * k + (lane + 4 - (lo + 1) % 4) % 4 + 1 by omega, List.getElem?_cons_succ]

theorem laneSymbols_eq_onLane (f : Frame) (lane : Nat) : laneSymbols f lane = onLane lane 0 (frameCodeword f) := by
  rw [laneSymbols, onLane, length_frameCodeword]

theorem laneSymbols_getElem? {lane : Nat} (hlane : lane < 4) (f : Frame) (k : Nat) :
    (laneSymbols f lane)[k]? = (frameCodeword f)[4 * k + lane]? := by
  rw [laneSymbols_eq_onLane, onLane_getElem? hlane, show (lane + 4 - 0 % 4) % 4 = lane by omega]

/-- A lane has a symbol 135 and none behind it. -/
theorem length_laneSymbols {lane : Nat} (hlane : lane < 4) (f : Frame) : (laneSymbols f lane).length = 136 := by
  have hshort : (laneSymbols f lane).length ≤ 136 := by
    rw [← List.getElem?_eq_none_iff, laneSymbols_getElem? hlane, List.getElem?_eq_none_iff, length_frameCodeword]
    omega
  have hlong : ¬ (laneSymbols f lane).length ≤ 135 := by
    rw [← List.getElem?_eq_none_iff, laneSymbols_getElem? hlane, List.getElem?_eq_none_iff, length_frameCodeword]
    omega
  omega

/-- Settles O35: the lengths of symbols and parity, the header's fields, and every fourth symbol on a lane (`onLane_getElem?`). -/
theorem framesGoOutAsCodewords : Obligations.FramesGoOutAsCodewords := by
  unfold Obligations.FramesGoOutAsCodewords
  intro f
  obtain ⟨-, hack, hnak, hnull, hseq, hunits⟩ := frameHeader_fields f
  exact ⟨length_frameCodeword f, take_frameCodeword f, frameBits_header f, length_padTo 640 _, hack, hnak, hnull, hseq, hunits,
    framePayload_of_null, fun _ hlane => ⟨length_laneSymbols hlane f, fun k _ => laneSymbols_getElem? hlane f k⟩⟩

end Sys2Proof.Machine

end

section

/-! SUPPORT. Loading, steering and judging the count (R352, R354, R356), and obligation O30. -/

namespace Sys2Proof.Machine

open Sys2Proof

/-! ### ALIGNED -/

theorem checkAligned_of_stands {s : State} (h : s.gau.aligned = false ∨ alignedNow s = true) :
    checkAligned s = { s with gau := { s.gau with aligned := alignedNow s } } :=
  if_neg (by obtain h | h := h <;> simp [h])

theorem checkAligned_of_fall {s : State} (h : s.gau.aligned = true) (hnow : alignedNow s = false) :
    checkAligned s = raiseEv { s with gau := { s.gau with aligned := false } } evGaugeSkew srcGauge := by
  simp [checkAligned, updGau, h, hnow]

/-! ### Rounding (R352) -/

theorem roundTick_near (o : Int) : 16 * roundTick o ≤ o + 8 ∧ o ≤ 16 * roundTick o + 8 := by
  unfold roundTick
  dsimp only
  split_ifs <;> omega

theorem roundTick_of_tie {o : Int} (h : o % 16 = 8) : roundTick o % 2 = 0 := by
  unfold roundTick
  dsimp only
  split_ifs <;> omega

/-! ### The commands -/

theorem linkCounted_iff {x : LinkState} : linkCounted x = true ↔ (x.phase = .hold ∨ x.phase = .run) ∧ 64 ≤ x.exch := by
  simp [linkCounted]

theorem exec_gaugeJoin (l : Link) (s : State) : exec (.gaugeJoin l) s = .next (hostWrite s (joinFrom l)) := rfl

theorem joinFrom_of_counted {l : Link} {s : State} (h : linkCounted (s.link l) = true) :
    joinFrom l s = checkAligned { s with gau := { s.gau with
      joinLink := l, count := BitVec.ofInt 64 (roundTick (16 * (s.gau.count.toNat : Int) - linkOffset (s.link l))), valid := true } } :=
  if_pos h

theorem joinFrom_of_uncounted {l : Link} {s : State} (h : ¬ linkCounted (s.link l) = true) :
    joinFrom l s = { s with gau := { s.gau with joinLink := l } } :=
  if_neg h

theorem exec_gaugeSteer_of_due {s : State} (hen : s.gau.steerEn = true) (hdue : s.gau.steeredAt + 2560 ≤ s.now) :
    exec .gaugeSteer s = .next (checkAligned { s with gau := { s.gau with
      steeredAt := s.now, partners := (countedOffsets s).length, mean := meanOf (countedOffsets s)
      step := if 4 * ((countedOffsets s).length : Int) < (countedOffsets s).sum then some false
        else if (countedOffsets s).sum < -(4 * ((countedOffsets s).length : Int)) then some true else none } }) :=
  if_pos (by simp [hen, elapsed, hdue])

theorem exec_gaugeSteer_of_off {s : State} (h : s.gau.steerEn = false ∨ s.now < s.gau.steeredAt + 2560) :
    exec .gaugeSteer s = .next s :=
  if_neg (by obtain h | h := h <;> simp [h, elapsed])

theorem exec_gaugeRefLost_of_held {s : State} (hpower : s.pwr.pwrGood = true) (href : s.gau.refOk = true) :
    exec .gaugeRefLost s = .next (checkAligned
      (raiseEv { s with gau := { s.gau with refOk := false, holdoverAt := some s.now } } evGaugeRefLost srcGauge)) :=
  if_pos (by simp [hpower, href])

theorem exec_gaugeRefLost_of_none {s : State} (h : s.pwr.pwrGood = false ∨ s.gau.refOk = false) : exec .gaugeRefLost s = .next s :=
  if_neg (by obtain h | h := h <;> simp [h])

theorem exec_gaugeRefReturn_of_power {s : State} (hpower : s.pwr.pwrGood = true) :
    exec .gaugeRefReturn s = .next (checkAligned { s with gau := { s.gau with refOk := true, holdoverAt := none } }) :=
  congrArg Host.Outcome.next (if_pos hpower)

theorem exec_gaugeRefReturn_of_dark {s : State} (hpower : s.pwr.pwrGood = false) : exec .gaugeRefReturn s = .next s :=
  congrArg Host.Outcome.next (if_neg (by simp [hpower]))

/-- Settles O30: JOIN behind the gates of a host write, the other commands by their branches, ALIGNED by its fall, and the rounding
by `roundTick_near` and `roundTick_of_tie`. -/
theorem gaugeLoadsSteersAndJudges : Obligations.GaugeLoadsSteersAndJudges := by
  unfold Obligations.GaugeLoadsSteersAndJudges
  intro s
  refine ⟨fun l hup hlock => ⟨fun h => ?_, fun h => ?_⟩, fun hen hdue => ?_, exec_gaugeSteer_of_off,
    fun h => exec_gaugeRefLost_of_none (.inr h), exec_gaugeRefLost_of_held, exec_gaugeRefReturn_of_power,
    fun h => ⟨exec_gaugeRefLost_of_none (.inl h), exec_gaugeRefReturn_of_dark h⟩, rfl, checkAligned_of_stands, checkAligned_of_fall,
    fun o => ⟨(roundTick_near o).1, (roundTick_near o).2, roundTick_of_tie⟩⟩
  · rw [exec_gaugeJoin, hostWrite_of_locked hup hlock, joinFrom_of_counted (linkCounted_iff.2 h)]
  · rw [exec_gaugeJoin, hostWrite_of_locked hup hlock, joinFrom_of_uncounted (mt linkCounted_iff.1 h)]
  · rw [exec_gaugeSteer_of_due hen hdue, ← Int.neg_mul]

end Sys2Proof.Machine

end

section

/-! SUPPORT. Links that come up and go down (R317, R321, R325, R513), and obligation O32. -/

namespace Sys2Proof.Machine

open Sys2Proof

/-! ### Out of RUN and into DOWN -/

theorem leaveRun_off (s : State) (l : Link) (why : BitVec 3) : leaveRun s l .off why =
    s.setLink l { toDoubt (s.link l) with phase := .off, step := 0, reason := why } := rfl

theorem leaveRun_hold (s : State) (l : Link) (why : BitVec 3) : leaveRun s l .hold why =
    s.setLink l { toDoubt (s.link l) with phase := .hold, step := 4, reason := why, exch := 0 } := rfl

/-- An entry into DOWN that is no loss declaration breaks no ring and counts nothing. -/
theorem linkDown_of_quiet {s : State} {l : Link} {x : LinkState} (hx : s.link l = x) {why : BitVec 3}
    (hquiet : (why == whyAlive || why == whyRetry) = false) : linkDown s l why = checkAligned (raiseEv
      ((s.setLink l { toDoubt x with phase := .down, step := 0, reason := why }).emit (.idle l)) evLinkLost (srcLink l) [l.val, why.toNat]) := by
  subst hx
  simp [linkDown, updLink, hquiet]

theorem linkDown_of_loss {s : State} {l : Link} {x : LinkState} (hx : s.link l = x) {why : BitVec 3}
    (hloss : (why == whyAlive || why == whyRetry) = true) : linkDown s l why = checkAligned (breakRings (raiseEv
      ((s.setLink l { toDoubt x with phase := .down, step := 0, reason := why, loss := x.loss + 1 }).emit (.idle l))
      evLinkLost (srcLink l) [l.val, why.toNat]) l) := by
  subst hx
  simp only [linkDown, updLink, hloss, if_true]
  rfl

/-! ### HOLD (R321) -/

theorem holdStep_of_phase {s : State} {l : Link} (h : (s.link l).phase ≠ .hold) : holdStep s l = s :=
  if_neg fun hhold => h hhold.1

section Hold

variable {s : State} {l : Link} {x : LinkState} (hx : s.link l = x)
include hx

theorem holdStep_of_early (hsettled : x.settled = false) (hexch : x.exch < 64) : holdStep s l = s := by
  subst hx
  exact if_neg (by simp [hsettled, hexch])

variable (hhold : x.phase = .hold)
include hhold

theorem holdStep_of_far (hsettled : x.settled = false) (hexch : 64 ≤ x.exch) (hfar : 288 < linkDelay x) :
    holdStep s l = checkAligned (raiseEv
      ((s.setLink l { toDoubt x with phase := .down, step := 0, reason := 4 }).emit (.idle l)) evLinkLost (srcLink l) [l.val, 4]) := by
  have hdown : holdStep s l = linkDown s l whyTooLong := by
    subst hx
    exact (if_pos ⟨hhold, .inr hexch⟩).trans (if_pos (by simpa [hsettled] using hfar))
  exact hdown.trans (linkDown_of_quiet hx rfl)

theorem holdStep_of_near (h : x.settled = true ∨ (64 ≤ x.exch ∧ linkDelay x ≤ 288)) :
    holdStep s l = s.setLink l { x with settled := true, step := if x.target = 2 ∧ x.indoubt = [] then 5 else 4 } := by
  subst hx
  have hpass : (s.link l).settled = true ∨ 64 ≤ (s.link l).exch := h.imp_right And.left
  have hnear : ¬ ((!(s.link l).settled) = true ∧ 18 * 16 < linkDelay (s.link l)) := by
    rintro ⟨hnew, hfar⟩
    obtain hsettled | ⟨-, hdelay⟩ := h
    · simp [hsettled] at hnew
    · exact absurd hdelay (not_le.2 hfar)
  exact (if_pos ⟨hhold, hpass⟩).trans (if_neg hnear)

end Hold

/-! ### TARGET -/

theorem exec_linkTargetOff (l : Link) (s : State) : exec (.linkTargetOff l) s = .next (hostWrite s (writeTarget l (targetOff l))) := rfl
theorem exec_linkTargetHold (l : Link) (s : State) : exec (.linkTargetHold l) s = .next (hostWrite s (writeTarget l (targetHold l))) := rfl
theorem exec_linkTargetRun (l : Link) (s : State) : exec (.linkTargetRun l) s = .next (hostWrite s (writeTarget l (targetRun l))) := rfl

theorem writeTarget_of_enabled {s : State} {l : Link} (h : linkEnabled s l = true) (g : State → State) : writeTarget l g s = g s :=
  if_pos h

theorem writeTarget_of_disabled {s : State} {l : Link} (h : linkEnabled s l = false) (g : State → State) :
    writeTarget l g s = s.setLink l { s.link l with targetIgn := (s.link l).targetIgn + 1 } :=
  if_neg (by simp [h])

/-- Each command of TARGET is a host write of it. -/
theorem exec_targetWrite {s : State} {l : Link} {i : Instr} (hi : i ∈ [Instr.linkTargetOff l, .linkTargetHold l, .linkTargetRun l]) :
    ∃ g, exec i s = .next (hostWrite s (writeTarget l g)) := by
  simp only [List.mem_cons, List.not_mem_nil, or_false] at hi
  obtain rfl | rfl | rfl := hi
  · exact ⟨_, exec_linkTargetOff l s⟩
  · exact ⟨_, exec_linkTargetHold l s⟩
  · exact ⟨_, exec_linkTargetRun l s⟩

/-- A target that brings a link up, and does not take it out of RUN. -/
def bringTo (t : BitVec 2) (l : Link) (s : State) : State := holdStep (beginUp (s.setLink l { s.link l with target := t }) l) l

theorem targetRun_eq (l : Link) (s : State) : targetRun l s = bringTo 2 l s := rfl

section Target

variable {s : State} {l : Link}

theorem targetOff_of_run (h : (s.link l).phase = .run) : targetOff l s =
    checkAligned (s.setLink l { toDoubt { s.link l with target := 0 } with phase := .off, step := 0, reason := 5 }) := by
  unfold targetOff
  dsimp only
  rw [if_pos h, leaveRun_off, State.setLink_link_same, State.setLink_setLink]
  rfl

theorem targetOff_of_other (h : (s.link l).phase ≠ .run) :
    targetOff l s = checkAligned (s.setLink l { s.link l with target := 0, phase := .off, step := 0 }) := by
  unfold targetOff
  dsimp only
  rw [if_neg h, updLink, State.setLink_link_same, State.setLink_setLink]

theorem targetHold_of_run (h : (s.link l).phase = .run) : targetHold l s =
    checkAligned (s.setLink l { toDoubt { s.link l with target := 1 } with phase := .hold, step := 4, reason := 5, exch := 0 }) := by
  unfold targetHold
  dsimp only
  rw [if_pos h, leaveRun_hold, State.setLink_link_same, State.setLink_setLink]
  rfl

theorem targetHold_of_other (h : (s.link l).phase ≠ .run) : targetHold l s = bringTo 1 l s := if_neg h

variable (t : BitVec 2)

theorem bringTo_of_down (h : (s.link l).phase = .off ∨ (s.link l).phase = .down) : bringTo t l s =
    s.setLink l { s.link l with target := t, phase := .detect, step := 1, stepAt := s.now } := by
  have hbegin : beginUp (s.setLink l { s.link l with target := t }) l =
      s.setLink l { s.link l with target := t, phase := .detect, step := 1, stepAt := s.now } := by
    rw [beginUp, State.setLink_link_same, if_pos h, enterDetect, updLink, State.setLink_link_same, State.setLink_setLink]
    rfl
  rw [bringTo, hbegin, holdStep_of_phase (by simp)]

theorem bringTo_of_up (hoff : (s.link l).phase ≠ .off) (hdown : (s.link l).phase ≠ .down) :
    bringTo t l s = holdStep (s.setLink l { s.link l with target := t }) l := by
  rw [bringTo, beginUp, State.setLink_link_same, if_neg (by simp [hoff, hdown])]

theorem bringTo_of_waiting (h : (s.link l).phase = .detect ∨ (s.link l).phase = .train ∨ (s.link l).phase = .run) :
    bringTo t l s = s.setLink l { s.link l with target := t } := by
  obtain ⟨hoff, hdown, hhold⟩ : (s.link l).phase ≠ .off ∧ (s.link l).phase ≠ .down ∧ (s.link l).phase ≠ .hold := by
    obtain h | h | h := h <;> simp [h]
  rw [bringTo_of_up t hoff hdown, holdStep_of_phase]
  rwa [State.setLink_link_same]

theorem bringTo_of_hold (h : (s.link l).phase = .hold) :
    bringTo t l s = holdStep (s.setLink l { s.link l with target := t }) l :=
  bringTo_of_up t (by simp [h]) (by simp [h])

theorem bringTo_of_early (h : (s.link l).phase = .hold) (hsettled : (s.link l).settled = false) (hexch : (s.link l).exch < 64) :
    bringTo t l s = s.setLink l { s.link l with target := t } := by
  rw [bringTo_of_hold t h, holdStep_of_early (State.setLink_link_same s l { s.link l with target := t }) hsettled hexch]

theorem bringTo_of_far (h : (s.link l).phase = .hold) (hsettled : (s.link l).settled = false) (hexch : 64 ≤ (s.link l).exch)
    (hfar : 288 < linkDelay (s.link l)) : bringTo t l s = checkAligned (raiseEv
      ((s.setLink l { toDoubt { s.link l with target := t } with phase := .down, step := 0, reason := 4 }).emit (.idle l))
      evLinkLost (srcLink l) [l.val, 4]) := by
  rw [bringTo_of_hold t h, holdStep_of_far (State.setLink_link_same s l { s.link l with target := t }) h hsettled hexch hfar, State.setLink_setLink]

theorem bringTo_of_near (h : (s.link l).phase = .hold)
    (hnear : (s.link l).settled = true ∨ (64 ≤ (s.link l).exch ∧ linkDelay (s.link l) ≤ 288)) : bringTo t l s =
      s.setLink l { s.link l with
        target := t, settled := true, step := if t = 2 ∧ (s.link l).indoubt = [] then 5 else 4 } := by
  rw [bringTo_of_hold t h, holdStep_of_near (State.setLink_link_same s l { s.link l with target := t }) h hnear, State.setLink_setLink]

end Target

/-! ### The other steps of the bring-up -/

section Steps

variable {s : State} {l : Link}

theorem exec_linkPartnerDetect_of_detect (h : (s.link l).phase = .detect) : exec (.linkPartnerDetect l) s =
    .next (s.setLink l { s.link l with phase := .train, step := 2, stepAt := s.now }) :=
  congrArg Host.Outcome.next (if_pos h)

theorem exec_linkPartnerDetect_of_other (h : (s.link l).phase ≠ .detect) : exec (.linkPartnerDetect l) s = .next s :=
  congrArg Host.Outcome.next (if_neg h)

theorem exec_linkTrainDone (l : Link) (s : State) : exec (.linkTrainDone l) s =
    .next (if (s.link l).phase = .train ∧ (s.link l).step = 2 then
        s.setLink l { s.link l with step := 3, stepAt := s.now, trainGood := 0 }
      else if (s.link l).phase = .train then (if 256 ≤ (s.link l).trainGood then checkAligned (enterHold s l) else s)
      else holdStep s l) := rfl

theorem exec_linkTrainDone_of_adapted (h : (s.link l).phase = .train) (hstep : (s.link l).step = 2) :
    exec (.linkTrainDone l) s = .next (s.setLink l { s.link l with step := 3, stepAt := s.now, trainGood := 0 }) := by
  rw [exec_linkTrainDone, if_pos ⟨h, hstep⟩]

theorem exec_linkTrainDone_of_good (h : (s.link l).phase = .train) (hstep : (s.link l).step ≠ 2) (hgood : 256 ≤ (s.link l).trainGood) :
    exec (.linkTrainDone l) s = .next (checkAligned (enterHold s l)) := by
  rw [exec_linkTrainDone, if_neg fun h' => hstep h'.2, if_pos h, if_pos hgood]

theorem exec_linkTrainDone_of_few (h : (s.link l).phase = .train) (hstep : (s.link l).step ≠ 2) (hfew : (s.link l).trainGood < 256) :
    exec (.linkTrainDone l) s = .next s := by
  rw [exec_linkTrainDone, if_neg fun h' => hstep h'.2, if_pos h, if_neg (not_le.2 hfew)]

theorem exec_linkTrainDone_of_hold (h : (s.link l).phase = .hold) : exec (.linkTrainDone l) s = .next (holdStep s l) := by
  have hother : (s.link l).phase ≠ .train := by simp [h]
  rw [exec_linkTrainDone, if_neg fun h' => hother h'.1, if_neg hother]

theorem stepLimit_of_mem {k n : Nat} (h : (k, n) ∈ [(1, 1562500), (2, 7812500), (3, 156250)]) : stepLimit k = some n := by
  simp only [List.mem_cons, List.not_mem_nil, or_false, Prod.mk.injEq] at h
  obtain ⟨rfl, rfl⟩ | ⟨rfl, rfl⟩ | ⟨rfl, rfl⟩ := h <;> rfl

theorem exec_linkStepTimeout_of_due {n : Nat} (hlimit : stepLimit (s.link l).step = some n)
    (h : (s.link l).phase = .detect ∨ (s.link l).phase = .train) (hdue : (s.link l).stepAt + n ≤ s.now) :
    exec (.linkStepTimeout l) s = .next (linkDown s l whyTrainFail) := by
  change execLinkStepTimeout l s = _
  unfold execLinkStepTimeout
  simp only [hlimit]
  exact if_pos ⟨h, decide_eq_true hdue⟩

end Steps

/-- Settles O32: the writes of TARGET behind the gates of a host write, by the state of the link that each finds; the steps by their
branches; in HOLD all of them are `holdStep`. -/
theorem linkBringUp : Obligations.LinkBringUp := by
  unfold Obligations.LinkBringUp
  intro s l x settles
  refine ⟨fun hup hlock hoff i hi => ?_, fun hup hlock hon => ?_, fun i hi => ?_, fun hhold => ⟨fun hs he hd => ?_, fun hnear => ?_⟩,
    fun hhold hs he => ?_, exec_linkPartnerDetect_of_other, exec_linkTrainDone_of_few, exec_linkPartnerDetect_of_detect,
    exec_linkTrainDone_of_adapted, fun htrain hstep hgood => ?_, fun n hn hphase hdue => ?_⟩
  · obtain ⟨g, hg⟩ := exec_targetWrite (s := s) hi
    rw [hg, hostWrite_of_locked hup hlock, writeTarget_of_disabled hoff]
  · have hwrite (g : State → State) : hostWrite s (writeTarget l g) = g s := by
      rw [hostWrite_of_locked hup hlock, writeTarget_of_enabled hon]
    have hoff : exec (.linkTargetOff l) s = .next (targetOff l s) := by rw [exec_linkTargetOff, hwrite]
    have hrun : exec (.linkTargetRun l) s = .next (bringTo 2 l s) := by rw [exec_linkTargetRun, hwrite, targetRun_eq]
    have hhold : exec (.linkTargetHold l) s = .next (targetHold l s) := by rw [exec_linkTargetHold, hwrite]
    have hup (h : x.phase ≠ .run) : exec (.linkTargetHold l) s = .next (bringTo 1 l s) := by rw [hhold, targetHold_of_other h]
    rw [hoff, hrun]
    refine ⟨fun h => ?_, fun h => ?_, fun h => ?_, fun h => ⟨?_, ?_⟩, fun h => ?_, fun h => ?_, fun h hs he => ⟨?_, ?_⟩,
      fun h => ⟨fun hs he hd => ?_, fun hnear => ?_⟩, fun h => ⟨fun hs he hd => ?_, fun hnear => ?_⟩⟩
    · rw [targetOff_of_other h]
    · rw [targetOff_of_run h]
    · rw [hhold, targetHold_of_run h]
    · rw [hhold, targetHold_of_down h]
    · rw [bringTo_of_down 2 h]
    · rw [hup (by obtain h | h := h <;> simp [h]), bringTo_of_waiting 1 (h.imp_right .inl)]
    · rw [bringTo_of_waiting 2 h]
    · rw [hup (by simp [h]), bringTo_of_early 1 h hs he]
    · rw [bringTo_of_early 2 h hs he]
    · rw [hup (by simp [h]), bringTo_of_far 1 h hs he hd]
    · rw [hup (by simp [h]), bringTo_of_near 1 h hnear]
    · rw [hrun, bringTo_of_far 2 h hs he hd]
    · rw [hrun, bringTo_of_near 2 h hnear]
  · obtain ⟨g, hg⟩ := exec_targetWrite (s := s) hi
    rw [hg]
    exact ⟨fun hdown => congrArg _ (hostWrite_of_down hdown _), fun hup hlock => congrArg _ (hostWrite_of_unlocked hup hlock _)⟩
  · rw [exec_linkTrainDone_of_hold hhold, holdStep_of_far rfl hhold hs he hd]
  · rw [exec_linkTrainDone_of_hold hhold, holdStep_of_near rfl hhold hnear]
  · rw [exec_linkTrainDone_of_hold hhold, holdStep_of_early rfl hs he]
  · rw [exec_linkTrainDone_of_good htrain (fun h => absurd (h.symm.trans hstep) (by decide)) hgood]
    rfl
  · rw [exec_linkStepTimeout_of_due (stepLimit_of_mem hn) hphase hdue, linkDown_of_quiet rfl rfl]
    rfl

end Sys2Proof.Machine

end

section

/-! SUPPORT. Frames and their retry (R311, R312, R314, R323, R328), and obligation O33. -/

namespace Sys2Proof.Machine

open Sys2Proof

/-! ### What the decoder counts (R311, R323) -/

/-- The counts of a codeword that the decoder cannot correct. -/
def noteUncorr (x : LinkState) : LinkState := { x with fecCw := x.fecCw + 1, fecUncorr := x.fecUncorr + 1, trainGood := 0 }

/-- The counts of a codeword with n symbol errors that the decoder corrects. -/
def noteDecoded (x : LinkState) (n : Nat) : LinkState :=
  { x with
    fecCw := x.fecCw + 1, fecCorrCw := x.fecCorrCw + (if n = 0 then 0 else 1), fecCorrSym := x.fecCorrSym + n
    trainGood := x.trainGood + 1 }

section Receive

variable {s : State} {l : Link} {cw : Codeword}

theorem exec_frameReceive (l : Link) (cw : Codeword) (s : State) : exec (.frameReceive l cw) s =
    if (s.link l).phase = .train ∨ (s.link l).phase = .run then
      if 15 < cw.symErrors then
        .next (if (s.link l).phase = .run then badFrame (s.setLink l (noteUncorr (s.link l))) l cw.replay
          else s.setLink l (noteUncorr (s.link l)))
      else
        .next (if (s.link l).phase = .run then goodFrame (s.setLink l (noteDecoded (s.link l) cw.symErrors)) l cw.frame
          else s.setLink l (noteDecoded (s.link l) cw.symErrors))
    else .next s := rfl

theorem exec_frameReceive_of_bad (hrun : (s.link l).phase = .run) (hbad : 15 < cw.symErrors) :
    exec (.frameReceive l cw) s = .next (badFrame (s.setLink l (noteUncorr (s.link l))) l cw.replay) := by
  rw [exec_frameReceive, if_pos (.inr hrun), if_pos hbad, if_pos hrun]

theorem exec_frameReceive_of_good (hrun : (s.link l).phase = .run) (hgood : cw.symErrors ≤ 15) :
    exec (.frameReceive l cw) s = .next (goodFrame (s.setLink l (noteDecoded (s.link l) cw.symErrors)) l cw.frame) := by
  rw [exec_frameReceive, if_pos (.inr hrun), if_neg (not_lt.2 hgood), if_pos hrun]

theorem exec_frameReceive_of_train (htrain : (s.link l).phase = .train) : exec (.frameReceive l cw) s =
    .next (s.setLink l (if 15 < cw.symErrors then noteUncorr (s.link l) else noteDecoded (s.link l) cw.symErrors)) := by
  have hrun : (s.link l).phase ≠ .run := by simp [htrain]
  rw [exec_frameReceive, if_pos (.inl htrain), if_neg hrun, if_neg hrun]
  split <;> rfl

theorem exec_frameReceive_of_idle (htrain : (s.link l).phase ≠ .train) (hrun : (s.link l).phase ≠ .run) :
    exec (.frameReceive l cw) s = .next s :=
  if_neg (not_or.2 ⟨htrain, hrun⟩)

end Receive

/-! ### What a frame does (R312, R314) -/

section Frames

variable (s : State) (l : Link) (y : LinkState) {f : Frame}

/-- An uncorrectable frame asks for a replay, and the third failed replay loses the link. -/
theorem badFrame_setLink (again : Bool) : badFrame (s.setLink l y) l again =
    if again && decide (3 ≤ if again then y.failures + 1 else y.failures) then
      linkDown (s.setLink l { y with nakDue := true, failures := if again then y.failures + 1 else y.failures }) l whyRetry
    else s.setLink l { y with nakDue := true, failures := if again then y.failures + 1 else y.failures } := by
  unfold badFrame
  dsimp only
  rw [State.setLink_link_same, State.setLink_setLink]

theorem goodFrame_setLink : goodFrame (s.setLink l y) l f =
    if f.null then s.setLink l (readAck s.now y f)
    else if f.seq = y.lastRx + 1 then checkRing
      (frameArrives (s.setLink l { readAck s.now y f with lastRx := f.seq, nakDue := false, failures := 0 }) l f.packets) (arrivingRing l)
    else s.setLink l { readAck s.now y f with dupDrop := y.dupDrop + 1 } := by
  unfold goodFrame updLink
  dsimp only
  rw [State.setLink_link_same, State.setLink_setLink, State.setLink_link_same, State.setLink_now, State.setLink_setLink,
    State.setLink_setLink]
  rfl

theorem goodFrame_of_null (hnull : f.null = true) : goodFrame (s.setLink l y) l f = s.setLink l (readAck s.now y f) := by
  rw [goodFrame_setLink, if_pos hnull]

theorem goodFrame_of_next (hdata : f.null = false) (hseq : f.seq = y.lastRx + 1) : goodFrame (s.setLink l y) l f = checkRing
    (frameArrives (s.setLink l { readAck s.now y f with lastRx := f.seq, nakDue := false, failures := 0 }) l f.packets)
    (arrivingRing l) := by
  rw [goodFrame_setLink, if_neg (by simp [hdata]), if_pos hseq]

theorem goodFrame_of_repeated (hdata : f.null = false) (hseq : f.seq ≠ y.lastRx + 1) :
    goodFrame (s.setLink l y) l f = s.setLink l { readAck s.now y f with dupDrop := y.dupDrop + 1 } := by
  rw [goodFrame_setLink, if_neg (by simp [hdata]), if_neg hseq]

end Frames

/-- An ACK frees held frames and holds none anew. -/
theorem readAck_held_subset (now : Nat) (x : LinkState) (f : Frame) : ∀ h ∈ (readAck now x f).held, h ∈ x.held :=
  fun _ hh => (List.dropWhile_sublist _).subset hh

/-- A NAK that comes after the round trip of the last replay starts a replay of all that is still held. -/
theorem readAck_resend_of_nak {now : Nat} {x : LinkState} {f : Frame} (hnak : f.nak = true) (hfresh : x.replayUntil ≤ now) :
    (readAck now x f).resend = (readAck now x f).held.map fun h => h.seq := by
  simp [readAck, hnak, not_lt.2 hfresh]

/-! ### What a link sends (R312, R328, R349) -/

theorem checkRing_of_fits {s : State} {r : Ring} (hgeneral : generalHeld (s.ring r) ≤ 8) (hreserve : reserveHeld (s.ring r) ≤ 64) :
    checkRing s r = s :=
  if_neg (by omega)

theorem checkRing_of_overfull {s : State} {r : Ring} (h : 8 < generalHeld (s.ring r) ∨ 64 < reserveHeld (s.ring r)) :
    checkRing s r = chipFault s evRingSlotFault (srcSwitch (ringDie r)) [r.val] :=
  if_pos h

section Send

variable {s : State} {l : Link}

theorem sendNext_of_replay {q : BitVec 7} {rest : List (BitVec 7)} (h : (s.link l).resend = q :: rest) :
    sendNext l s = resendFrame (s.setLink l { s.link l with resend := rest }) l q := by
  simp only [sendNext, h]

theorem sendNext_of_buffer {b : RingBuf} {z : RingState} (h : (s.link l).resend = []) (hheld : (s.link l).held.length < 64)
    (htake : takeBuffer (s.ring (leavingRing l)) = some (b, z)) :
    sendNext l s = sendBuffer (s.setRing (leavingRing l) z) l b := by
  simp only [sendNext, h, htake, if_pos hheld]

theorem sendNext_of_none (h : (s.link l).resend = [])
    (hnone : 64 ≤ (s.link l).held.length ∨ takeBuffer (s.ring (leavingRing l)) = none) :
    sendNext l s = s.emit (.frame l { seq := 0, ack := (s.link l).lastRx, nak := (s.link l).nakDue, null := true, units := 0, packets := [] }) := by
  simp only [sendNext, h]
  by_cases hheld : (s.link l).held.length < 64
  · rw [if_pos hheld, hnone.resolve_left (not_le.2 hheld)]
    rfl
  · rw [if_neg hheld]
    rfl

theorem exec_frameSend_of_run (h : (s.link l).phase = .run) : exec (.frameSend l) s =
    .next (if ((checkRing s (leavingRing l)).link l).phase = .run then sendNext l (checkRing s (leavingRing l))
      else checkRing s (leavingRing l)) :=
  if_pos h

theorem exec_frameSend_of_other (h : (s.link l).phase ≠ .run) : exec (.frameSend l) s = .next s := if_neg h

/-- A link that the check of its ring leaves in RUN sends. -/
theorem exec_frameSend_sends (h : (s.link l).phase = .run) (hstays : ((checkRing s (leavingRing l)).link l).phase = .run) :
    exec (.frameSend l) s = .next (sendNext l (checkRing s (leavingRing l))) := by
  rw [exec_frameSend_of_run h, if_pos hstays]

theorem exec_frameSend_faults (h : (s.link l).phase = .run) (hleaves : ((checkRing s (leavingRing l)).link l).phase ≠ .run) :
    exec (.frameSend l) s = .next (checkRing s (leavingRing l)) := by
  rw [exec_frameSend_of_run h, if_neg hleaves]

end Send

/-- Settles O33: a received codeword by its errors and its frame (`badFrame_setLink`, `goodFrame_setLink`), a sent frame by what the
check of the ring leaves and by what `sendNext` finds. -/
theorem linkRetry : Obligations.LinkRetry := by
  unfold Obligations.LinkRetry
  intro s l
  refine ⟨fun hrun => ⟨fun cw hbad => ?_, fun cw hgood => ⟨fun hnull => ?_, fun hdata hseq => ?_, fun hdata hseq => ?_,
      readAck_held_subset _ _ _, readAck_resend_of_nak⟩,
    checkRing_of_fits, checkRing_of_overfull, exec_frameSend_faults hrun, fun hstays => ⟨fun q rest hq => ?_, fun b z hq hheld htake => ?_,
      fun hq hnone => ?_⟩⟩,
    exec_frameSend_of_other, fun cw => exec_frameReceive_of_train, fun cw => exec_frameReceive_of_idle⟩
  · rw [exec_frameReceive_of_bad hrun hbad, badFrame_setLink]
    rfl
  · rw [exec_frameReceive_of_good hrun hgood, goodFrame_of_null s l (noteDecoded (s.link l) cw.symErrors) hnull]
    rfl
  · rw [exec_frameReceive_of_good hrun hgood, goodFrame_of_next s l (noteDecoded (s.link l) cw.symErrors) hdata hseq]
    rfl
  · rw [exec_frameReceive_of_good hrun hgood, goodFrame_of_repeated s l (noteDecoded (s.link l) cw.symErrors) hdata hseq]
    rfl
  · rw [exec_frameSend_sends hrun hstays, sendNext_of_replay hq]
  · rw [exec_frameSend_sends hrun hstays, sendNext_of_buffer hq hheld htake]
  · rw [exec_frameSend_sends hrun hstays, sendNext_of_none hq hnone]

end Sys2Proof.Machine

end

section

/-! SUPPORT. Alive sequences, the loss of a link, its frames in doubt and its error windows (R315 to R319, R324), and obligation O34. -/

namespace Sys2Proof.Machine

open Sys2Proof

/-! ### Sending (R315, R316) -/

/-- The alive sequence that a link sends with a stamp, before its check is put in. -/
def aliveDraft (x : LinkState) (ts : BitVec 36) : AliveSeq :=
  { pattern := 0xA5C3, lstate := linkLstate x, aseq := x.aseq + 1, txTs := ts, echoSeq := x.echoSeq, echoRx := x.echoRx, check := 0 }

/-- A sequence with its check. -/
def withCheck (a : AliveSeq) : AliveSeq := { a with check := aliveCheck a }

/-- The check is no part of the bits that it covers. -/
theorem aliveBits_withCheck (a : AliveSeq) : aliveBits (withCheck a) = aliveBits a := by
  simp only [aliveBits, withCheck]

theorem aliveCheck_withCheck (a : AliveSeq) : aliveCheck (withCheck a) = aliveCheck a := by
  unfold aliveCheck
  rw [aliveBits_withCheck]

theorem aliveGood_withCheck {a : AliveSeq} (h : a.pattern = 0xA5C3) : aliveGood (withCheck a) = true := by
  have hcheck : (withCheck a).check = aliveCheck a := rfl
  have hpattern : (withCheck a).pattern = 0xA5C3 := h
  simp [aliveGood, hcheck, hpattern, aliveCheck_withCheck]

/-- A stamp holds the gauge count to the tick, whatever its fraction. -/
theorem stampOf_ticks (s : State) (frac : Nat) : (stampOf s frac).toNat / 16 = s.gau.count.toNat % 2 ^ 32 := by
  rw [stampOf, BitVec.toNat_ofNat]
  omega

theorem stampOf_eq (s : State) (frac : Nat) : stampOf s frac = BitVec.ofNat 36 (16 * s.gau.count.toNat + frac % 16) := by
  rw [stampOf, Nat.mul_comm]

section Alive

variable {s : State} {l : Link}

theorem exec_aliveSend_of_due (h : (s.link l).phase = .hold ∨ (s.link l).phase = .run) (hdue : (s.link l).sentAlive + 40 ≤ s.now) :
    ∃ frac, exec (.aliveSend l) s = .next (({ s with free := s.free + 1 }.setLink l { s.link l with
      aseq := (s.link l).aseq + 1, sentAlive := (s.link l).sentAlive + 40
      txStamps := tabPut (s.link l).txStamps ((s.link l).aseq + 1).toNat (stampOf s frac) }).emit
        (.alive l (withCheck (aliveDraft (s.link l) (stampOf s frac))))) :=
  ⟨_, if_pos ⟨h, decide_eq_true hdue⟩⟩

theorem exec_aliveSend_of_early (h : s.now < (s.link l).sentAlive + 40) : exec (.aliveSend l) s = .next s :=
  if_neg fun hdue => absurd (of_decide_eq_true hdue.2) (not_le.2 h)

theorem exec_aliveSend_of_other (hhold : (s.link l).phase ≠ .hold) (hrun : (s.link l).phase ≠ .run) : exec (.aliveSend l) s = .next s :=
  if_neg fun hdue => not_or.2 ⟨hhold, hrun⟩ hdue.1

/-! ### Receiving (R315, R319, R321) -/

/-- What a link notes of a good sequence that came at a stamp. -/
def heardAlive (now : Nat) (x : LinkState) (a : AliveSeq) (rx : BitVec 36) : LinkState :=
  { exchange x a rx with
    lastAlive := now, aliveFrac := rx.extractLsb' 0 4, echoSeq := a.aseq, echoRx := rx, partnerHold := a.lstate == 1 || a.lstate == 2 }

theorem exchange_of_stranger {x : LinkState} {a : AliveSeq} (h : tabFind x.txStamps a.echoSeq.toNat = none) (rx : BitVec 36) :
    exchange x a rx = x := by
  simp only [exchange, h]

theorem exchange_of_echo {x : LinkState} {a : AliveSeq} {sent : BitVec 36} (h : tabFind x.txStamps a.echoSeq.toNat = some sent)
    (rx : BitVec 36) : exchange x a rx = { x with
      offsets := (((rx - a.txTs).toInt - (a.echoRx - sent).toInt) / 2 :: x.offsets).take 64
      delays := (((rx - a.txTs).toInt + (a.echoRx - sent).toInt) / 2 :: x.delays).take 64, exch := min 255 (x.exch + 1) } := by
  simp only [exchange, h, stampDiff]

theorem heardAlive_phase (now : Nat) (x : LinkState) (a : AliveSeq) (rx : BitVec 36) : (heardAlive now x a rx).phase = x.phase := by
  change (exchange x a rx).phase = x.phase
  unfold exchange
  split <;> rfl

theorem exec_aliveReceive_of_bad (h : (s.link l).phase = .hold ∨ (s.link l).phase = .run) {a : AliveSeq} (hbad : aliveGood a = false)
    (rx : BitVec 36) : exec (.aliveReceive l a rx) s = .next (s.setLink l { s.link l with aliveBad := (s.link l).aliveBad + 1 }) :=
  (if_pos h).trans (if_neg (by simp [hbad]))

theorem exec_aliveReceive_of_good (h : (s.link l).phase = .hold ∨ (s.link l).phase = .run) {a : AliveSeq} (hgood : aliveGood a = true)
    (rx : BitVec 36) : exec (.aliveReceive l a rx) s = .next (checkAligned
      (let y := heardAlive s.now (s.link l) a (stampOf s rx.toNat)
       let u := holdStep (s.setLink l y) l
       if y.phase = .run then (if a.lstate = 1 then leaveRun (s.setLink l y) l .hold whyPartner else s.setLink l y)
       else if (u.link l).phase = .hold ∧ (u.link l).step = 5 ∧ (a.lstate = 2 ∨ a.lstate = 3) then enterRun u l else u)) :=
  (if_pos h).trans (if_pos hgood)

theorem exec_aliveReceive_of_run (hrun : (s.link l).phase = .run) {a : AliveSeq} (hgood : aliveGood a = true) (rx : BitVec 36)
    {y : LinkState} (hy : heardAlive s.now (s.link l) a (stampOf s rx.toNat) = y) : exec (.aliveReceive l a rx) s =
      .next (checkAligned (s.setLink l
        (if a.lstate = 1 then { toDoubt y with phase := .hold, step := 4, reason := 6, exch := 0 } else y))) := by
  subst hy
  rw [exec_aliveReceive_of_good (.inr hrun) hgood]
  dsimp only
  rw [if_pos ((heardAlive_phase ..).trans hrun), leaveRun_hold, State.setLink_link_same, State.setLink_setLink]
  split <;> rfl

theorem exec_aliveReceive_of_hold (hhold : (s.link l).phase = .hold) {a : AliveSeq} (hgood : aliveGood a = true) (rx : BitVec 36)
    {u : State} (hu : holdStep (s.setLink l (heardAlive s.now (s.link l) a (stampOf s rx.toNat))) l = u) :
    exec (.aliveReceive l a rx) s = .next (checkAligned
      (if (u.link l).phase = .hold ∧ (u.link l).step = 5 ∧ (a.lstate = 2 ∨ a.lstate = 3) then enterRun u l else u)) := by
  subst hu
  rw [exec_aliveReceive_of_good (.inl hhold) hgood]
  dsimp only
  rw [if_neg]
  simp [heardAlive_phase, hhold]

theorem exec_aliveReceive_of_other (hhold : (s.link l).phase ≠ .hold) (hrun : (s.link l).phase ≠ .run) (a : AliveSeq) (rx : BitVec 36) :
    exec (.aliveReceive l a rx) s = .next s :=
  if_neg (not_or.2 ⟨hhold, hrun⟩)

/-! ### Loss (R317) -/

theorem exec_aliveTimeout_of_due (h : (s.link l).phase = .hold ∨ (s.link l).phase = .run)
    (hdue : (s.link l).lastAlive + aliveLimit (s.link l) ≤ s.now) : exec (.aliveTimeout l) s = .next (linkDown s l whyAlive) :=
  congrArg Host.Outcome.next (if_pos ⟨h, decide_eq_true hdue⟩)

theorem exec_aliveTimeout_of_early (h : s.now < (s.link l).lastAlive + aliveLimit (s.link l)) : exec (.aliveTimeout l) s = .next s :=
  congrArg Host.Outcome.next (if_neg fun hdue => absurd (of_decide_eq_true hdue.2) (not_le.2 h))

theorem exec_aliveTimeout_of_other (hhold : (s.link l).phase ≠ .hold) (hrun : (s.link l).phase ≠ .run) :
    exec (.aliveTimeout l) s = .next s :=
  congrArg Host.Outcome.next (if_neg fun hdue => not_or.2 ⟨hhold, hrun⟩ hdue.1)

/-! ### Frames in doubt (R318) -/

theorem exec_linkResolve (l : Link) (v : BitVec 7) (s : State) : exec (.linkResolve l v) s = .next (hostWrite s (resolveLink l v)) := rfl

theorem resolveLink_of_between {v : BitVec 7}
    (h : (v - (s.link l).lastAck).toNat ≤ ((s.link l).nextSeq - 1 - (s.link l).lastAck).toNat) : resolveLink l v s =
      holdStep (s.setLink l { s.link l with
        indoubt := [], lossDiscard := (s.link l).lossDiscard +
          (((s.link l).indoubt.filter fun f =>
            decide ((v - (s.link l).lastAck).toNat < (f.1 - (s.link l).lastAck).toNat)).map fun f => f.2).sum }) l :=
  if_pos h

theorem resolveLink_of_outside {v : BitVec 7}
    (h : ((s.link l).nextSeq - 1 - (s.link l).lastAck).toNat < (v - (s.link l).lastAck).toNat) :
    resolveLink l v s = s.setLink l { s.link l with resolveBad := (s.link l).resolveBad + 1 } :=
  if_neg (not_le.2 h)

/-! ### Error windows (R324) -/

theorem exec_linkBerWindow_of_early (h : s.now < (s.link l).berAt + 156250000) : exec (.linkBerWindow l) s = .next s :=
  if_pos (by simpa [elapsed, secTicks] using h)

/-- A link at the end of a window, with its verdict. -/
def windowEnd (now : Nat) (x : LinkState) (bad : Bool) : LinkState :=
  { x with berCw := x.fecCw, berSym := x.fecCorrSym, berAt := now, degraded := bad }

theorem exec_linkBerWindow_of_due (h : (s.link l).berAt + 156250000 ≤ s.now) : exec (.linkBerWindow l) s =
    .next (let sym := (s.link l).fecCorrSym - (s.link l).berSym
      let bits := ((s.link l).fecCw - (s.link l).berCw) * 5440
      let u := s.setLink l (windowEnd s.now (s.link l)
        (decide (bits < sym * 100000) || ((s.link l).degraded && !decide (sym * 200000 < bits))))
      if decide (bits < sym * 100000) = true then raiseEv u evLinkDegraded (srcLink l) else u) :=
  if_neg (by simpa [elapsed, secTicks] using h)

theorem exec_linkBerWindow_of_worse (h : (s.link l).berAt + 156250000 ≤ s.now)
    (hworse : ((s.link l).fecCw - (s.link l).berCw) * 5440 < 100000 * ((s.link l).fecCorrSym - (s.link l).berSym)) :
    exec (.linkBerWindow l) s = .next (raiseEv (s.setLink l (windowEnd s.now (s.link l) true)) evLinkDegraded (srcLink l)) := by
  rw [Nat.mul_comm 100000] at hworse
  rw [exec_linkBerWindow_of_due h]
  simp only [hworse, decide_true, Bool.true_or, if_true]

theorem exec_linkBerWindow_of_fair (h : (s.link l).berAt + 156250000 ≤ s.now)
    (hfair : 100000 * ((s.link l).fecCorrSym - (s.link l).berSym) ≤ ((s.link l).fecCw - (s.link l).berCw) * 5440) :
    exec (.linkBerWindow l) s = .next (s.setLink l (windowEnd s.now (s.link l) ((s.link l).degraded &&
      !decide (200000 * ((s.link l).fecCorrSym - (s.link l).berSym) < ((s.link l).fecCw - (s.link l).berCw) * 5440)))) := by
  rw [Nat.mul_comm 100000, ← not_lt] at hfair
  rw [exec_linkBerWindow_of_due h]
  simp only [hfair, decide_false, Bool.false_or, Bool.false_eq_true, if_false, Nat.mul_comm 200000]

end Alive

/-- Settles O34: a sequence sent by `exec_aliveSend_of_due`, one received by the link's state (`heardAlive`), the loss as `linkDown`,
the resolving behind the gates of a host write, and the window by its verdict. -/
theorem linkAliveAndDoubt : Obligations.LinkAliveAndDoubt := by
  unfold Obligations.LinkAliveAndDoubt
  intro s l x
  refine ⟨fun h => ⟨fun hdue => ?_, fun a rx hbad => exec_aliveReceive_of_bad h hbad rx, fun a rx hgood => ⟨fun hrun => ?_, fun hhold => ?_,
      fun hnone => exchange_of_stranger hnone _, fun t3 hecho => exchange_of_echo hecho _⟩, fun hdue => ?_, exec_aliveSend_of_early,
      exec_aliveTimeout_of_early⟩,
    fun hhold hrun => ⟨exec_aliveSend_of_other hhold hrun, exec_aliveTimeout_of_other hhold hrun, exec_aliveReceive_of_other hhold hrun⟩,
    fun v => ⟨fun hdown => ?_, fun hup hlock => ?_⟩, exec_linkBerWindow_of_early, fun v hup hlock => ⟨fun hin => ?_, fun hout => ?_⟩,
    fun hdue => ⟨exec_linkBerWindow_of_worse hdue, exec_linkBerWindow_of_fair hdue⟩⟩
  · obtain ⟨frac, hsend⟩ := exec_aliveSend_of_due h hdue
    exact ⟨withCheck (aliveDraft x (stampOf s frac)), _, hsend, aliveGood_withCheck rfl, rfl, rfl, stampOf_ticks s frac, rfl, rfl, rfl⟩
  · exact exec_aliveReceive_of_run hrun hgood rx (by rw [stampOf_eq]; rfl)
  · exact exec_aliveReceive_of_hold hhold hgood rx (by rw [stampOf_eq]; rfl)
  · rw [exec_aliveTimeout_of_due h hdue, linkDown_of_loss rfl rfl]
    rfl
  · rw [exec_linkResolve, hostWrite_of_down hdown]
  · rw [exec_linkResolve, hostWrite_of_unlocked hup hlock]
  · rw [exec_linkResolve, hostWrite_of_locked hup hlock, resolveLink_of_between hin]
  · rw [exec_linkResolve, hostWrite_of_locked hup hlock, resolveLink_of_outside hout]

end Sys2Proof.Machine

end
